-- ==== Sys2Proof/Word.lean ====
section
/-! DEFINITION. The words of the OX9: widths the manual fixes (00 R4, 02 R25, R27, 01 R17). -/
namespace Sys2Proof

/-- A 64-bit instruction word, scalar register or virtual address. -/
abbrev Word := BitVec 64
/-- One byte of any storage (R5). -/
abbrev Byte := BitVec 8
/-- A 6-bit scalar or vector register number (R27). -/
abbrev Reg := BitVec 6
/-- A descriptor register number, 0 to 31 (R27). -/
abbrev DReg := BitVec 5
/-- A mask register number (R27). -/
abbrev MReg := BitVec 3
/-- A 16-bit global id (R17). -/
abbrev Gid := BitVec 16
/-- A device number on its shelf (R19). -/
abbrev Dev := BitVec 6
/-- A descriptor's 256 bits (R49). -/
abbrev Desc := BitVec 256

end Sys2Proof
end

