-- ==== Sys2Proof/Config.lean ====
section
/-! DEFINITION. What the manual leaves open: free values, constants of which nothing is known (DESIGN CHOICE, logs 3, 16, 76, 84, 88, 89 and 100).
A statement that holds here holds whatever they are. -/
namespace Sys2Proof.Config

/-- A free byte: what undefined storage holds at an address since its `epoch` began (04 R78, R90; 19 R340). -/
opaque freeByte : (epoch addr : Nat) → Byte
/-- The `n`-th free value of 64 bits (registers at placement, 19 R340; elements a stop leaves undefined, 09 R212). -/
opaque freeWord : (n : Nat) → Word
/-- The `n`-th free vector register (19 R340). -/
opaque freeVec : (n : Nat) → BitVec 4096
/-- The `n`-th free descriptor register (19 R340). -/
opaque freeDesc : (n : Nat) → Desc
/-- Whether the miscorrection of R58 applies to an error pattern, and the data it yields. -/
opaque miscorrect : (sector : Nat) → (symbols : List Nat) → Option (List Byte)
/-- The key hash fused at manufacture: 48 bytes (23 R420). -/
opaque keyHash : (dev : Dev) → List Byte
/-- The dirty sectors that a bank holds when it leaves CACHE mode, and the cycles beyond four that each takes to write back (04 R92). -/
opaque dirtySectors : (bank clock : Nat) → Nat
opaque writeBack : (bank clock : Nat) → Nat
/-- What a Krytlink port is wired to: the neighbour and its port, or nothing (14 R266-R269). -/
opaque wire : (dev : Dev) → (port : Nat) → Option (Dev × Fin 32)
/-- The codewords that a port's lanes could not correct, and those that they corrected, by the port's failures so far (14 R263). -/
opaque uncorrectable : (dev : Dev) → (port fails : Nat) → Nat
opaque corrected : (dev : Dev) → (port fails : Nat) → Nat
/-- Whether a read takes the writes of its own round on the `x`-th aligned 8 bytes of the `n`-th admitted read (16 R292). -/
opaque ownRound : (n x : Nat) → Bool
/-- Whether lane `lane` of register `reg`, read or written by the `n`-th command that races for it, takes the later value (08 R176). -/
opaque raceLane : (n reg lane : Nat) → Bool
/-- Whether the home slice has to fetch the line that the `n`-th load from device memory reads from its stack (01 R21). -/
opaque homeMisses : (n : Nat) → Bool
/-- The CACHE bank of its section in which a section-homed line lies (04 R91). -/
opaque lineBank : (sec line : Nat) → Nat
/-- The cycles by which an M or V command of a free-mode quire starts later while its device is over its power cap (23 R423). -/
opaque throttle : (gid : Gid) → (queue num : Nat) → Nat
/-- The actual column slip of the `n`-th matrix command in free mode, reduced to 0 to 8 (09 R198). -/
opaque slip : (n : Nat) → Nat

end Sys2Proof.Config
end

