-- ==== Sys2Proof/Syntax.lean ====
section
/-! DEFINITION. The syntax: one constructor for each row of spec/opcode_table.json, the 223 instructions of
R41 in their operand forms and the 57 events that other agents bring about.  An instruction holds exactly the
fields its description uses; a field the manual fixes at zero is no argument (R40). -/
namespace Sys2Proof

/-- The token and stamp fields every engine command carries (E format, R37): bits 47..26. -/
structure EHead where
  give  : BitVec 3
  take1 : BitVec 3
  take2 : BitVec 3
  take3 : BitVec 3
  stamp : BitVec 10
  deriving DecidableEq, Repr

/-- The masters that write device registers (23 R411-R416); `core` is a system core of the device. -/
inductive Master where
  | host | management | debug | core
  deriving DecidableEq, Repr

/-- The instructions of R41 and the events of the table of operations and events.  An argument `w` is the `.w`
qualifier, `single` the `.s` precision, `rm` a rounding code, `oc` an ordering class, `mask` a class mask,
`mk` a mask register, `f` a format code, `h` the token and stamp fields. -/
inductive Instr where
  -- Class 0, integer operations (06 R141-R143)
  | add (w : Bool) (a b c : Reg)
  | sub (w : Bool) (a b c : Reg)
  | mul (w : Bool) (a b c : Reg)
  | mulh (w : Bool) (a b c : Reg)
  | mulhu (w : Bool) (a b c : Reg)
  | div (w : Bool) (a b c : Reg)
  | divu (w : Bool) (a b c : Reg)
  | rem (w : Bool) (a b c : Reg)
  | remu (w : Bool) (a b c : Reg)
  | andI (w : Bool) (a b c : Reg)
  | orI (w : Bool) (a b c : Reg)
  | xorI (w : Bool) (a b c : Reg)
  | andn (w : Bool) (a b c : Reg)
  | shl (w : Bool) (a b c : Reg)
  | shr (w : Bool) (a b c : Reg)
  | sar (w : Bool) (a b c : Reg)
  | ror (w : Bool) (a b c : Reg)
  | minI (w : Bool) (a b c : Reg)
  | maxI (w : Bool) (a b c : Reg)
  | minu (w : Bool) (a b c : Reg)
  | maxu (w : Bool) (a b c : Reg)
  | seq (w : Bool) (a b c : Reg)
  | sne (w : Bool) (a b c : Reg)
  | slt (w : Bool) (a b c : Reg)
  | sltu (w : Bool) (a b c : Reg)
  | sel (w : Bool) (a b c d : Reg)
  | clz (w : Bool) (a b : Reg)
  | ctz (w : Bool) (a b : Reg)
  | popc (w : Bool) (a b : Reg)
  | bfx (w : Bool) (a b c d : Reg)
  | bfi (w : Bool) (a b c d : Reg)
  | madd (w : Bool) (a b c d : Reg)
  -- Class 1, immediates (06 R144)
  | addi (w : Bool) (a b : Reg) (imm : BitVec 32)
  | andi (a b : Reg) (imm : BitVec 32)
  | ori (a b : Reg) (imm : BitVec 32)
  | xori (a b : Reg) (imm : BitVec 32)
  | shli (w : Bool) (a b : Reg) (amt : BitVec 6)
  | shri (w : Bool) (a b : Reg) (amt : BitVec 6)
  | sari (w : Bool) (a b : Reg) (amt : BitVec 6)
  | slti (a b : Reg) (imm : BitVec 32)
  | sltiu (a b : Reg) (imm : BitVec 32)
  | movi (a : Reg) (imm : BitVec 32)
  | movhi (a b : Reg) (imm : BitVec 32)
  | muli (w : Bool) (a b : Reg) (imm : BitVec 32)
  | lea (a : Reg) (imm : BitVec 32)
  -- Class 2, floating point (06 R145-R148)
  | fadd (single : Bool) (rm : BitVec 2) (a b c : Reg)
  | fsub (single : Bool) (rm : BitVec 2) (a b c : Reg)
  | fmul (single : Bool) (rm : BitVec 2) (a b c : Reg)
  | ffma (single : Bool) (rm : BitVec 2) (a b c d : Reg)
  | fdiv (single : Bool) (rm : BitVec 2) (a b c : Reg)
  | fsqrt (single : Bool) (rm : BitVec 2) (a b : Reg)
  | fmin (single : Bool) (a b c : Reg)
  | fmax (single : Bool) (a b c : Reg)
  | fceq (single : Bool) (a b c : Reg)
  | fclt (single : Bool) (a b c : Reg)
  | fcle (single : Bool) (a b c : Reg)
  | fcvti (sat single : Bool) (rm : BitVec 2) (a b : Reg)
  | fcvtf (single : Bool) (rm : BitVec 2) (a b : Reg) (kind : BitVec 2)
  | fcvtw (sat single : Bool) (rm : BitVec 2) (a b : Reg)
  | fabs (single : Bool) (a b : Reg)
  | fneg (single : Bool) (a b : Reg)
  | fclass (single : Bool) (a b : Reg)
  -- Class 3, control transfer (06 R137-R139, R149-R151)
  | br (off : BitVec 32)
  | beq (a b : Reg) (off : BitVec 32)
  | bne (a b : Reg) (off : BitVec 32)
  | blt (a b : Reg) (off : BitVec 32)
  | bge (a b : Reg) (off : BitVec 32)
  | bltu (a b : Reg) (off : BitVec 32)
  | bgeu (a b : Reg) (off : BitVec 32)
  | call (a : Reg) (off : BitVec 32)
  | callr (a b : Reg)
  | ret (b : Reg)
  | jmpr (b : Reg)
  | loop (cnt : Reg) (len : BitVec 14) (imm : BitVec 16) (base : BitVec 4)
  | loopx (cnt : Reg) (len : BitVec 14) (imm : BitVec 16) (base : BitVec 4)
  | nop
  | brk (code : BitVec 32)
  -- Class 4, memory (04 R85-R95)
  | ld (size : BitVec 2) (sx byp : Bool) (oc : BitVec 4) (a b : Reg) (imm : BitVec 32)
  | st (size : BitVec 2) (oc : BitVec 4) (a b : Reg) (imm : BitVec 32)
  | lds (size : BitVec 2) (sx : Bool) (oc : BitVec 4) (a b : Reg) (imm : BitVec 32)
  | sts (size : BitVec 2) (oc : BitVec 4) (a b : Reg) (imm : BitVec 32)
  | fence (sem : BitVec 2) (scope : BitVec 3) (mask : BitVec 16)
  | l1inv (b c : Reg)
  | pref (oc : BitVec 4) (b c : Reg)
  | bankmode (a b c : Reg)
  | dset (da : DReg) (b : Reg) (q : BitVec 2)
  | dget (a : Reg) (db : DReg) (q : BitVec 2)
  | dld (oc : BitVec 4) (da : DReg) (b : Reg)
  -- Class 5, synchronisation (12 R248-R259, 06 R128-R134)
  | aadd (w : Bool) (sem : BitVec 2) (scope : BitVec 3) (oc : BitVec 4) (mask : BitVec 16) (a b c : Reg)
  | aand (w : Bool) (sem : BitVec 2) (scope : BitVec 3) (oc : BitVec 4) (mask : BitVec 16) (a b c : Reg)
  | aor (w : Bool) (sem : BitVec 2) (scope : BitVec 3) (oc : BitVec 4) (mask : BitVec 16) (a b c : Reg)
  | axor (w : Bool) (sem : BitVec 2) (scope : BitVec 3) (oc : BitVec 4) (mask : BitVec 16) (a b c : Reg)
  | amin (w : Bool) (sem : BitVec 2) (scope : BitVec 3) (oc : BitVec 4) (mask : BitVec 16) (a b c : Reg)
  | amax (w : Bool) (sem : BitVec 2) (scope : BitVec 3) (oc : BitVec 4) (mask : BitVec 16) (a b c : Reg)
  | aminu (w : Bool) (sem : BitVec 2) (scope : BitVec 3) (oc : BitVec 4) (mask : BitVec 16) (a b c : Reg)
  | amaxu (w : Bool) (sem : BitVec 2) (scope : BitVec 3) (oc : BitVec 4) (mask : BitVec 16) (a b c : Reg)
  | aswap (w : Bool) (sem : BitVec 2) (scope : BitVec 3) (oc : BitVec 4) (mask : BitVec 16) (a b c : Reg)
  | acas (w : Bool) (sem : BitVec 2) (scope : BitVec 3) (oc : BitVec 4) (mask : BitVec 16) (a b c d : Reg)
  | afadd (single : Bool) (sem : BitVec 2) (scope : BitVec 3) (oc : BitVec 4) (mask : BitVec 16) (a b c : Reg)
  | barr (scope : BitVec 3) (mask : BitVec 16) (a b c : Reg)
  | bwait (scope : BitVec 3) (mask : BitVec 16) (a b c : Reg)
  | mwait (scope : BitVec 3) (mask : BitVec 16) (a b c : Reg)
  | msig (scope : BitVec 3) (mask : BitVec 16) (b c : Reg)
  | rinit (a b c : Reg)
  | rclaim (a b : Reg)
  | rwaite (a b c : Reg)
  | rcommit (mask : BitVec 16) (b c : Reg)
  | rwaitf (mask : BitVec 16) (a b : Reg)
  | rtake (b c : Reg)
  | rstat (a b : Reg) (k : BitVec 2)
  | twait (a : Reg) (q : BitVec 3)
  | tgive (q : BitVec 3)
  | ypop (a : Reg)
  | ypeek (a b : Reg)
  -- Class 6, vector (08 R178-R183)
  | vadd (h : EHead) (mk : MReg) (f : BitVec 4) (a b c : Reg)
  | vsub (h : EHead) (mk : MReg) (f : BitVec 4) (a b c : Reg)
  | vmul (h : EHead) (mk : MReg) (f : BitVec 4) (a b c : Reg)
  | vfma (h : EHead) (mk : MReg) (f : BitVec 4) (a b c : Reg)
  | vfnma (h : EHead) (mk : MReg) (f : BitVec 4) (a b c : Reg)
  | vmin (h : EHead) (mk : MReg) (f : BitVec 4) (a b c : Reg)
  | vmax (h : EHead) (mk : MReg) (f : BitVec 4) (a b c : Reg)
  | vabs (h : EHead) (mk : MReg) (f : BitVec 4) (a b : Reg)
  | vneg (h : EHead) (mk : MReg) (f : BitVec 4) (a b : Reg)
  | vdiv (h : EHead) (mk : MReg) (f : BitVec 4) (a b c : Reg)
  | vsqrt (h : EHead) (mk : MReg) (f : BitVec 4) (a b : Reg)
  | vrsq (h : EHead) (mk : MReg) (f : BitVec 4) (a b : Reg)
  | vrcp (h : EHead) (mk : MReg) (f : BitVec 4) (a b : Reg)
  | vexp2 (h : EHead) (mk : MReg) (f : BitVec 4) (a b : Reg)
  | vlog2 (h : EHead) (mk : MReg) (f : BitVec 4) (a b : Reg)
  | vand (h : EHead) (mk : MReg) (f : BitVec 4) (a b c : Reg)
  | vor (h : EHead) (mk : MReg) (f : BitVec 4) (a b c : Reg)
  | vxor (h : EHead) (mk : MReg) (f : BitVec 4) (a b c : Reg)
  | vshl (h : EHead) (mk : MReg) (f : BitVec 4) (a b c : Reg)
  | vshr (h : EHead) (mk : MReg) (f : BitVec 4) (a b c : Reg)
  | vsar (h : EHead) (mk : MReg) (f : BitVec 4) (a b c : Reg)
  | vceq (h : EHead) (mk : MReg) (f : BitVec 4) (a : MReg) (b c : Reg)
  | vclt (h : EHead) (mk : MReg) (f : BitVec 4) (a : MReg) (b c : Reg)
  | vcle (h : EHead) (mk : MReg) (f : BitVec 4) (a : MReg) (b c : Reg)
  | vsel (h : EHead) (mk : MReg) (f : BitVec 4) (a b c : Reg)
  | vmov (h : EHead) (mk : MReg) (f : BitVec 4) (a b : Reg)
  | vmovs (h : EHead) (mk : MReg) (f : BitVec 4) (a b : Reg)
  | viota (h : EHead) (mk : MReg) (f : BitVec 4) (a b : Reg)
  | vclamp (h : EHead) (mk : MReg) (f : BitVec 4) (a b c : Reg)
  | vadds (h : EHead) (mk : MReg) (f : BitVec 4) (a b c : Reg)
  | vmulh (h : EHead) (mk : MReg) (f : BitVec 4) (a b c : Reg)
  -- Class 7, vector transfer (08 R184-R195)
  | vcvt (h : EHead) (mk : MReg) (f : BitVec 4) (a b : Reg) (src : BitVec 4) (p : BitVec 2)
  | vpack (h : EHead) (f : BitVec 4) (a b c : Reg)
  | vunpk (h : EHead) (f : BitVec 4) (a b c : Reg)
  | vperm (h : EHead) (mk : MReg) (f : BitVec 4) (a b c : Reg)
  | vgaths (h : EHead) (oc : BitVec 4) (mk : MReg) (f : BitVec 4) (a : Reg) (db : DReg) (c : Reg)
  | vscats (h : EHead) (oc : BitVec 4) (mk : MReg) (f : BitVec 4) (da : DReg) (b c : Reg)
  | vred (h : EHead) (mk : MReg) (f : BitVec 4) (a b : Reg) (op : BitVec 3) (reply : Bool)
  | vscan (h : EHead) (mk : MReg) (f : BitVec 4) (a b : Reg) (op : BitVec 2)
  | vtopk (h : EHead) (mk : MReg) (f : BitVec 4) (a b k : Reg)
  | vcmpr (h : EHead) (mk : MReg) (f : BitVec 4) (a b : Reg)
  | vexpd (h : EHead) (mk : MReg) (f : BitVec 4) (a b : Reg)
  | vld (h : EHead) (oc : BitVec 4) (mk : MReg) (f : BitVec 4) (a : Reg) (db : DReg) (c : Reg)
  | vst (h : EHead) (oc : BitVec 4) (mk : MReg) (f : BitVec 4) (da : DReg) (b c : Reg)
  | vldx (h : EHead) (oc : BitVec 4) (mk : MReg) (f : BitVec 4) (a : Reg) (db : DReg) (c : Reg)
  | mand (h : EHead) (a b c : MReg)
  | mor (h : EHead) (a b c : MReg)
  | mnot (h : EHead) (a b : MReg)
  | mpopc (h : EHead) (b : MReg)
  -- Class 8, matrix (09, 10)
  | mma (h : EHead) (oc : BitVec 4) (da db dc : DReg)
  | mmaz (h : EHead) (oc : BitVec 4) (da db dc : DReg)
  | mmac (h : EHead) (oc fmt : BitVec 4) (sat : Bool) (da db dc : DReg)
  | mmae (h : EHead) (oc : BitVec 4) (da db dc : DReg)
  | mres (h : EHead) (oc : BitVec 4) (da db dc : DReg)
  | mbndLyr (h : EHead) (oc : BitVec 4) (da db dc : DReg)
  | mbndFirst (h : EHead) (oc : BitVec 4) (da db : DReg)
  | mbndSum (h : EHead) (da db dc : DReg)
  | mcomp (h : EHead) (oc : BitVec 4) (reloc : Bool) (da db dc : DReg)
  | mmas (h : EHead) (oc : BitVec 4) (da db dc : DReg)
  | mmab (h : EHead) (oc : BitVec 4) (da db dc : DReg)
  | mzero (h : EHead) (da : DReg)
  | mwr (h : EHead) (oc : BitVec 4) (da db : DReg)
  | mrd (h : EHead) (oc : BitVec 4) (sat clr : Bool) (da db : DReg) (c : Reg)
  | mchk (h : EHead) (oc : BitVec 4) (row : Bool) (da db dc : DReg)
  | mjoinJoin (h : EHead) (da : DReg)
  | mjoinLeave (h : EHead) (da : DReg)
  -- Class 9, copy in (05)
  | cpin (h : EHead) (oc : BitVec 4) (reloc : Bool) (da db : DReg)
  | cprow (h : EHead) (oc : BitVec 4) (reloc oobz : Bool) (da db : DReg)
  | cpexp (h : EHead) (oc : BitVec 4) (reloc : Bool) (da db : DReg)
  | cpfill (h : EHead) (oc : BitVec 4) (reloc : Bool) (da : DReg) (b : Reg)
  | scprobe (h : EHead) (oc : BitVec 4) (reloc : Bool) (da db : DReg) (c : Reg)
  | scrply (h : EHead) (oc : BitVec 4) (reloc : Bool) (da db : DReg) (c : Reg)
  -- Class A, copy out (12, 14)
  | cpout (h : EHead) (oc : BitVec 4) (reloc : Bool) (da db : DReg)
  | cpsct (h : EHead) (oc : BitVec 4) (reloc skip : Bool) (da db : DReg)
  | cppack (h : EHead) (oc : BitVec 4) (reloc : Bool) (da db : DReg)
  | cpred (h : EHead) (oc : BitVec 4) (reloc : Bool) (op : BitVec 3) (ord : Bool) (da db : DReg)
  | cpcoll (h : EHead) (oc : BitVec 4) (kind : BitVec 3) (arr : Bool) (da db : DReg)
  | cpsend (h : EHead) (oc : BitVec 4) (db : DReg) (c : Reg)
  | cppost (h : EHead) (oc : BitVec 4) (da : DReg) (c : Reg)
  | screc (h : EHead) (oc : BitVec 4) (reloc : Bool) (da db : DReg) (c : Reg)
  | cpcnv (h : EHead) (oc : BitVec 4) (reloc : Bool) (da db : DReg)
  -- Class B, edge (17)
  | ebind (h : EHead) (oc : BitVec 4) (da : DReg)
  | erun (h : EHead) (oc : BitVec 4) (mode : BitVec 2) (ord : Bool) (b : Reg)
  | eswp (h : EHead) (pa pb : BitVec 2)
  | efrnt (h : EHead) (oc : BitVec 4) (b : Reg)
  -- Class C, redundancy (20)
  | ndagree (a b : Reg)
  | sigrd (met iso : Bool) (a : Reg) (n : BitVec 3)
  | copen (buffered : Bool) (off : BitVec 32)
  | cclose
  | katstat (a : Reg) (k : BitVec 2)
  -- Class E, system (19, 21)
  | trap (n : BitVec 32)
  | eret
  | mfsr (a : Reg) (idx : BitVec 12)
  | mtsr (idx : BitVec 12) (b : Reg)
  | exit (b : Reg)
  | yieldT (a : Reg)
  | swap
  | swapLoad (b : Reg)
  | frame (n : BitVec 16)
  | drain
  | tlbinv (scope : BitVec 3) (a b : Reg)
  | spawn (a b : Reg)
  | depdec (oc : BitVec 4) (a b : Reg)
  | depdecAll (oc : BitVec 4) (a : Reg)
  | halt
  | clock (a : Reg)
  | kill (a b : Reg)
  | idle (n : BitVec 32)
  | phase (p : BitVec 3)
  -- Events (95_what_each_step_holds.md)
  | instructionFetch (g : Gid)
  | engineCommandPush (g : Gid) (word : Word)
  | instructionCommit (g : Gid)
  | framedStartMiss (g : Gid) (q : BitVec 3) (cycle : BitVec 32)
  | commandSteal (g : Gid) (owner : Gid) (q : BitVec 3)
  | commandRetire (g : Gid) (q : BitVec 3)
  | classQueueLeave (g : Gid) (index : Nat)
  | homeAdmissionRound (home : Nat) (picks : List Nat)
  | horizonWiden (write : Nat) (scope : BitVec 3)
  | l1CopyInstall (g : Gid) (sector : Nat)
  | l1CopyDiscard (g : Gid) (sector : Nat)
  | claspRequestPerform (g : Gid)
  | pageWalkComplete (g : Gid) (va : Word)
  | bankmodeChangeBegin (g : Gid)
  | bankmodeChangeEnd (g : Gid)
  | mwaitRecheck (g : Gid)
  | idleTimeout (g : Gid)
  | plateLoadComplete (g : Gid)
  | trapTake (g : Gid)
  | containmentEvent (g : Gid) (cause : BitVec 8) (q : BitVec 3) (tval : Word)
  | katInject (g : Gid) (unit : BitVec 4) (row : BitVec 12) (pass : Bool)
  | replicaMeeting (g : Gid)
  | meetingTimeout (g : Gid)
  | ndagreeTimeout (g : Gid)
  | taskAccept (dev : Dev)
  | taskPlace (dev : Dev) (id : BitVec 32)
  | taskComplete (dev : Dev) (id : BitVec 32)
  | taskPreempt (dev : Dev) (id : BitVec 32)
  | patrolScrub (sector : Nat)
  | tickBoundary (dev : Dev)
  | tickBatchAdmit (dev : Dev)
  | krytlinkPacketDeliver (src : Dev) (dst : Dev)
  | clockOffsetExceeded (dev : Dev)
  | portFailure (dev : Dev) (port : BitVec 5)
  | hostBar2Write (dev : Dev) (addr : Nat) (data : List Byte)
  | hostBar2Read (dev : Dev) (addr : Nat) (len : Nat)
  | claim (dev : Dev) (master : Master) (value : Word)
  | claimHandover (dev : Dev) (master : Master) (value : Word)
  | devreset (dev : Dev) (master : Master) (value : Word)
  | submit (dev : Dev) (master : Master) (value : Word)
  | bootsrc (dev : Dev) (master : Master) (value : Word)
  | bootdone (dev : Dev) (master : Master) (value : Word)
  | deviceRegisterWrite (dev : Dev) (master : Master) (off : Nat) (value : Word)
  | deviceReset (dev : Dev)
  | bootSourceTimeout (dev : Dev)
  | bootFetchComplete (dev : Dev) (fetched : Option (List Byte)) (selfTest : Bool)
  | bootNetworkTimeout (dev : Dev)
  | bootImageTimeout (dev : Dev)
  | powerCapOvershoot (dev : Dev)
  | thermalThrottle (dev : Dev)
  | thermalTrip (dev : Dev)
  | debugStop (master : Master) (g : Gid)
  | debugStep (master : Master) (g : Gid) (engineStep : Bool)
  | debugResume (master : Master) (g : Gid)
  | ownerKill (dev : Dev) (master : Master) (id : BitVec 32)
  | powerCapExceeded (dev : Dev)
  | powerCapCleared (dev : Dev)
  deriving DecidableEq, Repr

end Sys2Proof
end

