-- ==== Sys2Proof/WellFormed.lean ====
section
/-! DEFINITION. Which field values an instruction word may carry, apart from the bits fixed at zero (02 R27-R40). -/
namespace Sys2Proof

/-- A scope code of R29: 0 to 4. -/
def scopeOk (scope : BitVec 3) : Bool := decide (scope.toNat ≤ 4)
/-- A queue letter of TWAIT and TGIVE (R130): L, M, V, W or E. -/
def engineQueueOk (q : BitVec 3) : Bool := decide (2 ≤ q.toNat ∧ q.toNat ≤ 6)
/-- A format code of R31 that is not the reserved 0xE. -/
def fmtOk (f : BitVec 4) : Bool := f != 0xE#4
/-- A queue field of R28 that may stand in a command of queue `own` (R38): not reserved, not its own queue. -/
def queueFieldOk (own : Nat) (q : BitVec 3) : Bool := q != 7#3 && q.toNat != own
/-- The token rules of R38 for a command of the queue with code `own`. -/
def EHead.ok (h : EHead) (own : Nat) : Bool :=
  queueFieldOk own h.give && queueFieldOk own h.take1 && queueFieldOk own h.take2 && queueFieldOk own h.take3 &&
  (h.take1 != 0 || h.take2 == 0) && (h.take2 != 0 || h.take3 == 0) &&
  (h.take2 == 0 || h.take1 != h.take2) && (h.take3 == 0 || (h.take1 != h.take3 && h.take2 != h.take3))

/-- The field limits of each instruction; an event has none. -/
def Instr.wf : Instr → Bool
  | .shli w _ _ amt => (!w || !amt.getLsbD 5)
  | .shri w _ _ amt => (!w || !amt.getLsbD 5)
  | .sari w _ _ amt => (!w || !amt.getLsbD 5)
  | .fcvtf single _ _ _ kind => !(kind == 2 && !single) && !(kind == 3 && single)
  | .loop cnt len imm _ => len != 0 && (cnt == 0 || imm == 0)
  | .loopx cnt len imm _ => len != 0 && (cnt == 0 || imm == 0)
  | .ld size sx _ _ _ _ _ => !(sx && size == 3)
  | .lds size sx _ _ _ _ => !(sx && size == 3)
  | .fence _ scope _ => scopeOk scope
  | .aadd _ sem scope _ mask _ _ _ => scopeOk scope && (sem != 0 || mask == 0)
  | .aand _ sem scope _ mask _ _ _ => scopeOk scope && (sem != 0 || mask == 0)
  | .aor _ sem scope _ mask _ _ _ => scopeOk scope && (sem != 0 || mask == 0)
  | .axor _ sem scope _ mask _ _ _ => scopeOk scope && (sem != 0 || mask == 0)
  | .amin _ sem scope _ mask _ _ _ => scopeOk scope && (sem != 0 || mask == 0)
  | .amax _ sem scope _ mask _ _ _ => scopeOk scope && (sem != 0 || mask == 0)
  | .aminu _ sem scope _ mask _ _ _ => scopeOk scope && (sem != 0 || mask == 0)
  | .amaxu _ sem scope _ mask _ _ _ => scopeOk scope && (sem != 0 || mask == 0)
  | .aswap _ sem scope _ mask _ _ _ => scopeOk scope && (sem != 0 || mask == 0)
  | .acas _ sem scope _ mask _ _ _ _ => scopeOk scope && (sem != 0 || mask == 0)
  | .afadd _ sem scope _ mask _ _ _ => scopeOk scope && (sem != 0 || mask == 0)
  | .barr scope _ _ _ _ => scopeOk scope
  | .bwait scope _ _ _ _ => scopeOk scope
  | .mwait scope _ _ _ _ => scopeOk scope
  | .msig scope _ _ _ => scopeOk scope
  | .twait _ q => engineQueueOk q
  | .tgive q => engineQueueOk q
  | .vadd h _ f _ _ _ => h.ok 4 && fmtOk f
  | .vsub h _ f _ _ _ => h.ok 4 && fmtOk f
  | .vmul h _ f _ _ _ => h.ok 4 && fmtOk f
  | .vfma h _ f _ _ _ => h.ok 4 && fmtOk f
  | .vfnma h _ f _ _ _ => h.ok 4 && fmtOk f
  | .vmin h _ f _ _ _ => h.ok 4 && fmtOk f
  | .vmax h _ f _ _ _ => h.ok 4 && fmtOk f
  | .vabs h _ f _ _ => h.ok 4 && fmtOk f
  | .vneg h _ f _ _ => h.ok 4 && fmtOk f
  | .vdiv h _ f _ _ _ => h.ok 4 && fmtOk f
  | .vsqrt h _ f _ _ => h.ok 4 && fmtOk f
  | .vrsq h _ f _ _ => h.ok 4 && fmtOk f
  | .vrcp h _ f _ _ => h.ok 4 && fmtOk f
  | .vexp2 h _ f _ _ => h.ok 4 && fmtOk f
  | .vlog2 h _ f _ _ => h.ok 4 && fmtOk f
  | .vand h _ f _ _ _ => h.ok 4 && fmtOk f
  | .vor h _ f _ _ _ => h.ok 4 && fmtOk f
  | .vxor h _ f _ _ _ => h.ok 4 && fmtOk f
  | .vshl h _ f _ _ _ => h.ok 4 && fmtOk f
  | .vshr h _ f _ _ _ => h.ok 4 && fmtOk f
  | .vsar h _ f _ _ _ => h.ok 4 && fmtOk f
  | .vceq h _ f _ _ _ => h.ok 4 && fmtOk f
  | .vclt h _ f _ _ _ => h.ok 4 && fmtOk f
  | .vcle h _ f _ _ _ => h.ok 4 && fmtOk f
  | .vsel h _ f _ _ _ => h.ok 4 && fmtOk f
  | .vmov h _ f _ _ => h.ok 4 && fmtOk f
  | .vmovs h _ f _ _ => h.ok 4 && fmtOk f
  | .viota h _ f _ _ => h.ok 4 && fmtOk f
  | .vclamp h _ f _ _ _ => h.ok 4 && fmtOk f
  | .vadds h _ f _ _ _ => h.ok 4 && fmtOk f
  | .vmulh h _ f _ _ _ => h.ok 4 && fmtOk f
  | .vcvt h _ f _ _ _ _ => h.ok 4 && fmtOk f
  | .vpack h f _ _ _ => h.ok 4 && fmtOk f
  | .vunpk h f _ _ _ => h.ok 4 && fmtOk f
  | .vperm h _ f _ _ _ => h.ok 4 && fmtOk f
  | .vgaths h _ _ f _ _ _ => h.ok 4 && fmtOk f
  | .vscats h _ _ f _ _ _ => h.ok 4 && fmtOk f
  | .vred h _ f _ _ op _ => h.ok 4 && fmtOk f && decide (op.toNat ≤ 5)
  | .vscan h _ f _ _ op => h.ok 4 && fmtOk f && op != 3
  | .vtopk h _ f _ _ _ => h.ok 4 && fmtOk f
  | .vcmpr h _ f _ _ => h.ok 4 && fmtOk f
  | .vexpd h _ f _ _ => h.ok 4 && fmtOk f
  | .vld h _ _ f _ _ _ => h.ok 4 && fmtOk f
  | .vst h _ _ f _ _ _ => h.ok 4 && fmtOk f
  | .vldx h _ _ f _ _ _ => h.ok 4 && fmtOk f
  | .mand h _ _ _ => h.ok 4
  | .mor h _ _ _ => h.ok 4
  | .mnot h _ _ => h.ok 4
  | .mpopc h _ => h.ok 4
  | .mma h _ _ _ _ => h.ok 3
  | .mmaz h _ _ _ _ => h.ok 3
  | .mmac h _ _ _ _ _ _ => h.ok 3
  | .mmae h _ _ _ _ => h.ok 3
  | .mres h _ _ _ _ => h.ok 3
  | .mbndLyr h _ _ _ _ => h.ok 3
  | .mbndFirst h _ _ _ => h.ok 3
  | .mbndSum h _ _ _ => h.ok 3
  | .mcomp h _ _ _ _ _ => h.ok 3
  | .mmas h _ _ _ _ => h.ok 3
  | .mmab h _ _ _ _ => h.ok 3
  | .mzero h _ => h.ok 3
  | .mwr h _ _ _ => h.ok 3
  | .mrd h _ _ _ _ _ _ => h.ok 3
  | .mchk h _ _ _ _ _ => h.ok 3
  | .mjoinJoin h _ => h.ok 3
  | .mjoinLeave h _ => h.ok 3
  | .cpin h _ _ _ _ => h.ok 2
  | .cprow h _ _ _ _ _ => h.ok 2
  | .cpexp h _ _ _ _ => h.ok 2
  | .cpfill h _ _ _ _ => h.ok 2
  | .scprobe h _ _ _ _ _ => h.ok 2
  | .scrply h _ _ _ _ _ => h.ok 2
  | .cpout h _ _ _ _ => h.ok 5
  | .cpsct h _ _ _ _ _ => h.ok 5
  | .cppack h _ _ _ _ => h.ok 5
  | .cpred h _ _ op _ _ _ => h.ok 5 && decide (op.toNat ≤ 5)
  | .cpcoll h _ kind _ _ _ => h.ok 5 && decide (kind.toNat ≤ 4)
  | .cpsend h _ _ _ => h.ok 5
  | .cppost h _ _ _ => h.ok 5
  | .screc h _ _ _ _ _ => h.ok 5
  | .cpcnv h _ _ _ _ => h.ok 5
  | .ebind h _ _ => h.ok 6
  | .erun h _ mode _ _ => h.ok 6 && mode != 3
  | .eswp h _ _ => h.ok 6
  | .efrnt h _ _ => h.ok 6
  | .sigrd met _ _ n => (if met then decide (n.toNat ≤ 2) else decide (1 ≤ n.toNat && n.toNat ≤ 6))
  | .tlbinv scope _ _ => scopeOk scope
  | .add _ _ _ _ => true
  | .sub _ _ _ _ => true
  | .mul _ _ _ _ => true
  | .mulh _ _ _ _ => true
  | .mulhu _ _ _ _ => true
  | .div _ _ _ _ => true
  | .divu _ _ _ _ => true
  | .rem _ _ _ _ => true
  | .remu _ _ _ _ => true
  | .andI _ _ _ _ => true
  | .orI _ _ _ _ => true
  | .xorI _ _ _ _ => true
  | .andn _ _ _ _ => true
  | .shl _ _ _ _ => true
  | .shr _ _ _ _ => true
  | .sar _ _ _ _ => true
  | .ror _ _ _ _ => true
  | .minI _ _ _ _ => true
  | .maxI _ _ _ _ => true
  | .minu _ _ _ _ => true
  | .maxu _ _ _ _ => true
  | .seq _ _ _ _ => true
  | .sne _ _ _ _ => true
  | .slt _ _ _ _ => true
  | .sltu _ _ _ _ => true
  | .sel _ _ _ _ _ => true
  | .clz _ _ _ => true
  | .ctz _ _ _ => true
  | .popc _ _ _ => true
  | .bfx _ _ _ _ _ => true
  | .bfi _ _ _ _ _ => true
  | .madd _ _ _ _ _ => true
  | .addi _ _ _ _ => true
  | .andi _ _ _ => true
  | .ori _ _ _ => true
  | .xori _ _ _ => true
  | .slti _ _ _ => true
  | .sltiu _ _ _ => true
  | .movi _ _ => true
  | .movhi _ _ _ => true
  | .muli _ _ _ _ => true
  | .lea _ _ => true
  | .fadd _ _ _ _ _ => true
  | .fsub _ _ _ _ _ => true
  | .fmul _ _ _ _ _ => true
  | .ffma _ _ _ _ _ _ => true
  | .fdiv _ _ _ _ _ => true
  | .fsqrt _ _ _ _ => true
  | .fmin _ _ _ _ => true
  | .fmax _ _ _ _ => true
  | .fceq _ _ _ _ => true
  | .fclt _ _ _ _ => true
  | .fcle _ _ _ _ => true
  | .fcvti _ _ _ _ _ => true
  | .fcvtw _ _ _ _ _ => true
  | .fabs _ _ _ => true
  | .fneg _ _ _ => true
  | .fclass _ _ _ => true
  | .br _ => true
  | .beq _ _ _ => true
  | .bne _ _ _ => true
  | .blt _ _ _ => true
  | .bge _ _ _ => true
  | .bltu _ _ _ => true
  | .bgeu _ _ _ => true
  | .call _ _ => true
  | .callr _ _ => true
  | .ret _ => true
  | .jmpr _ => true
  | .nop => true
  | .brk _ => true
  | .st _ _ _ _ _ => true
  | .sts _ _ _ _ _ => true
  | .l1inv _ _ => true
  | .pref _ _ _ => true
  | .bankmode _ _ _ => true
  | .dset _ _ _ => true
  | .dget _ _ _ => true
  | .dld _ _ _ => true
  | .rinit _ _ _ => true
  | .rclaim _ _ => true
  | .rwaite _ _ _ => true
  | .rcommit _ _ _ => true
  | .rwaitf _ _ _ => true
  | .rtake _ _ => true
  | .rstat _ _ _ => true
  | .ypop _ => true
  | .ypeek _ _ => true
  | .ndagree _ _ => true
  | .copen _ _ => true
  | .cclose => true
  | .katstat _ _ => true
  | .trap _ => true
  | .eret => true
  | .mfsr _ _ => true
  | .mtsr _ _ => true
  | .exit _ => true
  | .yieldT _ => true
  | .swap => true
  | .swapLoad _ => true
  | .frame _ => true
  | .drain => true
  | .spawn _ _ => true
  | .depdec _ _ _ => true
  | .depdecAll _ _ => true
  | .halt => true
  | .clock _ => true
  | .kill _ _ => true
  | .idle _ => true
  | .phase _ => true
  | .instructionFetch _ => true
  | .engineCommandPush _ _ => true
  | .instructionCommit _ => true
  | .framedStartMiss _ _ _ => true
  | .commandSteal _ _ _ => true
  | .commandRetire _ _ => true
  | .classQueueLeave _ _ => true
  | .homeAdmissionRound _ _ => true
  | .horizonWiden _ _ => true
  | .l1CopyInstall _ _ => true
  | .l1CopyDiscard _ _ => true
  | .claspRequestPerform _ => true
  | .pageWalkComplete _ _ => true
  | .bankmodeChangeBegin _ => true
  | .bankmodeChangeEnd _ => true
  | .mwaitRecheck _ => true
  | .idleTimeout _ => true
  | .plateLoadComplete _ => true
  | .trapTake _ => true
  | .containmentEvent _ _ _ _ => true
  | .katInject _ _ _ _ => true
  | .replicaMeeting _ => true
  | .meetingTimeout _ => true
  | .ndagreeTimeout _ => true
  | .taskAccept _ => true
  | .taskPlace _ _ => true
  | .taskComplete _ _ => true
  | .taskPreempt _ _ => true
  | .patrolScrub _ => true
  | .tickBoundary _ => true
  | .tickBatchAdmit _ => true
  | .krytlinkPacketDeliver _ _ => true
  | .clockOffsetExceeded _ => true
  | .portFailure _ _ => true
  | .hostBar2Write _ _ _ => true
  | .hostBar2Read _ _ _ => true
  | .claim _ _ _ => true
  | .claimHandover _ _ _ => true
  | .devreset _ _ _ => true
  | .submit _ _ _ => true
  | .bootsrc _ _ _ => true
  | .bootdone _ _ _ => true
  | .deviceRegisterWrite _ _ _ _ => true
  | .deviceReset _ => true
  | .bootSourceTimeout _ => true
  | .bootFetchComplete _ _ _ => true
  | .bootNetworkTimeout _ => true
  | .bootImageTimeout _ => true
  | .powerCapOvershoot _ => true
  | .thermalThrottle _ => true
  | .thermalTrip _ => true
  | .debugStop _ _ => true
  | .debugStep _ _ _ => true
  | .debugResume _ _ => true
  | .ownerKill _ _ _ => true
  | .powerCapExceeded _ => true
  | .powerCapCleared _ => true

/-- Whether this is an event of the machine rather than an instruction with a word (R41). -/
def Instr.isEvent : Instr → Bool
  | .instructionFetch _ => true
  | .engineCommandPush _ _ => true
  | .instructionCommit _ => true
  | .framedStartMiss _ _ _ => true
  | .commandSteal _ _ _ => true
  | .commandRetire _ _ => true
  | .classQueueLeave _ _ => true
  | .homeAdmissionRound _ _ => true
  | .horizonWiden _ _ => true
  | .l1CopyInstall _ _ => true
  | .l1CopyDiscard _ _ => true
  | .claspRequestPerform _ => true
  | .pageWalkComplete _ _ => true
  | .bankmodeChangeBegin _ => true
  | .bankmodeChangeEnd _ => true
  | .mwaitRecheck _ => true
  | .idleTimeout _ => true
  | .plateLoadComplete _ => true
  | .trapTake _ => true
  | .containmentEvent _ _ _ _ => true
  | .katInject _ _ _ _ => true
  | .replicaMeeting _ => true
  | .meetingTimeout _ => true
  | .ndagreeTimeout _ => true
  | .taskAccept _ => true
  | .taskPlace _ _ => true
  | .taskComplete _ _ => true
  | .taskPreempt _ _ => true
  | .patrolScrub _ => true
  | .tickBoundary _ => true
  | .tickBatchAdmit _ => true
  | .krytlinkPacketDeliver _ _ => true
  | .clockOffsetExceeded _ => true
  | .portFailure _ _ => true
  | .hostBar2Write _ _ _ => true
  | .hostBar2Read _ _ _ => true
  | .claim _ _ _ => true
  | .claimHandover _ _ _ => true
  | .devreset _ _ _ => true
  | .submit _ _ _ => true
  | .bootsrc _ _ _ => true
  | .bootdone _ _ _ => true
  | .deviceRegisterWrite _ _ _ _ => true
  | .deviceReset _ => true
  | .bootSourceTimeout _ => true
  | .bootFetchComplete _ _ _ => true
  | .bootNetworkTimeout _ => true
  | .bootImageTimeout _ => true
  | .powerCapOvershoot _ => true
  | .thermalThrottle _ => true
  | .thermalTrip _ => true
  | .debugStop _ _ => true
  | .debugStep _ _ _ => true
  | .debugResume _ _ => true
  | .ownerKill _ _ _ => true
  | .powerCapExceeded _ => true
  | .powerCapCleared _ => true
  | _ => false

end Sys2Proof
end

