-- ==== Sys2Proof/Decode.lean ====
section
/-! DEFINITION. The six word formats (02 R32-R39), the opcode map (R41), the decoder and the encoder. -/
namespace Sys2Proof

/-- Why a word is no instruction (R43, R44). -/
inductive Reject where
  | illop | illfld
  deriving DecidableEq, Repr

/-! ### The formats -/

/-- SR, the register format (R32). -/
def encSR (cls : BitVec 4) (op : BitVec 8) (a b c d : Reg) (oc : BitVec 4) (q : BitVec 8) (m : BitVec 16) : Word :=
  cls ++ op ++ a ++ b ++ c ++ d ++ oc ++ q ++ m
/-- SI, the immediate format (R34). -/
def encSI (cls : BitVec 4) (op : BitVec 8) (a b : Reg) (oc q : BitVec 4) (imm : BitVec 32) : Word :=
  cls ++ op ++ a ++ b ++ oc ++ q ++ imm
/-- SB, the branch format (R35). -/
def encSB (op : BitVec 8) (a b : Reg) (off : BitVec 32) : Word := 3#4 ++ op ++ a ++ b ++ 0#8 ++ off
/-- SL, the loop format (R36). -/
def encSL (op : BitVec 8) (cnt : Reg) (len : BitVec 14) (imm : BitVec 16) (base : BitVec 4) : Word :=
  3#4 ++ op ++ cnt ++ len ++ imm ++ base ++ 0#12
/-- E, the engine command format (R37); `sub` is bits 7..1. -/
def encE (cls : BitVec 4) (op : BitVec 8) (oc : BitVec 4) (h : EHead) (a b c : Reg) (sub : BitVec 7) (reloc : Bool) : Word :=
  cls ++ op ++ oc ++ h.give ++ h.take1 ++ h.take2 ++ h.take3 ++ h.stamp ++ a ++ b ++ c ++ sub ++ BitVec.ofBool reloc
/-- X, the format of classes C and E (R39). -/
def encX (cls : BitVec 4) (op : BitVec 8) (a b : Reg) (q : BitVec 8) (imm : BitVec 32) : Word :=
  cls ++ op ++ a ++ b ++ q ++ imm

/-- Class 0 qualifiers: `.w` in bit 16 (R33). -/
def qualW (w : Bool) : BitVec 8 := 0#7 ++ BitVec.ofBool w
/-- Class 1 qualifiers: `.w` in bit 32 (R34). -/
def qualWI (w : Bool) : BitVec 4 := 0#3 ++ BitVec.ofBool w
/-- Class 2 qualifiers: precision, rounding, sat (R33). -/
def qualF (single : Bool) (rm : BitVec 2) (sat : Bool) : BitVec 8 :=
  0#4 ++ BitVec.ofBool sat ++ rm ++ BitVec.ofBool single
/-- The qualifiers of LD, ST, LDS and STS: size, sign, path (R34). -/
def qualM (size : BitVec 2) (sx byp : Bool) : BitVec 4 := size ++ BitVec.ofBool sx ++ BitVec.ofBool byp
/-- Width, semantics and scope of FENCE and class 5 (R33). -/
def qualA (w : Bool) (sem : BitVec 2) (scope : BitVec 3) : BitVec 8 := 0#2 ++ BitVec.ofBool w ++ sem ++ scope

/-- Bits 63..60. -/
def wordClass (w : Word) : BitVec 4 := w.extractLsb' 60 4
/-- Bits 59..52. -/
def wordOp (w : Word) : BitVec 8 := w.extractLsb' 52 8
/-- The token and stamp fields of an E word. -/
def headOf (w : Word) : EHead :=
  { give := w.extractLsb' 45 3, take1 := w.extractLsb' 42 3, take2 := w.extractLsb' 39 3,
    take3 := w.extractLsb' 36 3, stamp := w.extractLsb' 26 10 }

/-! ### The opcode map, read off a word's fields -/

/-- The instruction that the opcode and fields of a class 0 word name; none for an opcode R41 leaves undefined. -/
def fieldsInt (w : Word) : Option Instr :=
  match (wordOp w).toNat with
  | 0x00 => some (.add (w.getLsbD 16) (w.extractLsb' 46 6) (w.extractLsb' 40 6) (w.extractLsb' 34 6))
  | 0x01 => some (.sub (w.getLsbD 16) (w.extractLsb' 46 6) (w.extractLsb' 40 6) (w.extractLsb' 34 6))
  | 0x02 => some (.mul (w.getLsbD 16) (w.extractLsb' 46 6) (w.extractLsb' 40 6) (w.extractLsb' 34 6))
  | 0x03 => some (.mulh (w.getLsbD 16) (w.extractLsb' 46 6) (w.extractLsb' 40 6) (w.extractLsb' 34 6))
  | 0x04 => some (.mulhu (w.getLsbD 16) (w.extractLsb' 46 6) (w.extractLsb' 40 6) (w.extractLsb' 34 6))
  | 0x05 => some (.div (w.getLsbD 16) (w.extractLsb' 46 6) (w.extractLsb' 40 6) (w.extractLsb' 34 6))
  | 0x06 => some (.divu (w.getLsbD 16) (w.extractLsb' 46 6) (w.extractLsb' 40 6) (w.extractLsb' 34 6))
  | 0x07 => some (.rem (w.getLsbD 16) (w.extractLsb' 46 6) (w.extractLsb' 40 6) (w.extractLsb' 34 6))
  | 0x08 => some (.remu (w.getLsbD 16) (w.extractLsb' 46 6) (w.extractLsb' 40 6) (w.extractLsb' 34 6))
  | 0x09 => some (.andI (w.getLsbD 16) (w.extractLsb' 46 6) (w.extractLsb' 40 6) (w.extractLsb' 34 6))
  | 0x0a => some (.orI (w.getLsbD 16) (w.extractLsb' 46 6) (w.extractLsb' 40 6) (w.extractLsb' 34 6))
  | 0x0b => some (.xorI (w.getLsbD 16) (w.extractLsb' 46 6) (w.extractLsb' 40 6) (w.extractLsb' 34 6))
  | 0x0c => some (.andn (w.getLsbD 16) (w.extractLsb' 46 6) (w.extractLsb' 40 6) (w.extractLsb' 34 6))
  | 0x0d => some (.shl (w.getLsbD 16) (w.extractLsb' 46 6) (w.extractLsb' 40 6) (w.extractLsb' 34 6))
  | 0x0e => some (.shr (w.getLsbD 16) (w.extractLsb' 46 6) (w.extractLsb' 40 6) (w.extractLsb' 34 6))
  | 0x0f => some (.sar (w.getLsbD 16) (w.extractLsb' 46 6) (w.extractLsb' 40 6) (w.extractLsb' 34 6))
  | 0x10 => some (.ror (w.getLsbD 16) (w.extractLsb' 46 6) (w.extractLsb' 40 6) (w.extractLsb' 34 6))
  | 0x11 => some (.minI (w.getLsbD 16) (w.extractLsb' 46 6) (w.extractLsb' 40 6) (w.extractLsb' 34 6))
  | 0x12 => some (.maxI (w.getLsbD 16) (w.extractLsb' 46 6) (w.extractLsb' 40 6) (w.extractLsb' 34 6))
  | 0x13 => some (.minu (w.getLsbD 16) (w.extractLsb' 46 6) (w.extractLsb' 40 6) (w.extractLsb' 34 6))
  | 0x14 => some (.maxu (w.getLsbD 16) (w.extractLsb' 46 6) (w.extractLsb' 40 6) (w.extractLsb' 34 6))
  | 0x15 => some (.seq (w.getLsbD 16) (w.extractLsb' 46 6) (w.extractLsb' 40 6) (w.extractLsb' 34 6))
  | 0x16 => some (.sne (w.getLsbD 16) (w.extractLsb' 46 6) (w.extractLsb' 40 6) (w.extractLsb' 34 6))
  | 0x17 => some (.slt (w.getLsbD 16) (w.extractLsb' 46 6) (w.extractLsb' 40 6) (w.extractLsb' 34 6))
  | 0x18 => some (.sltu (w.getLsbD 16) (w.extractLsb' 46 6) (w.extractLsb' 40 6) (w.extractLsb' 34 6))
  | 0x19 => some (.sel (w.getLsbD 16) (w.extractLsb' 46 6) (w.extractLsb' 40 6) (w.extractLsb' 34 6) (w.extractLsb' 28 6))
  | 0x1a => some (.clz (w.getLsbD 16) (w.extractLsb' 46 6) (w.extractLsb' 40 6))
  | 0x1b => some (.ctz (w.getLsbD 16) (w.extractLsb' 46 6) (w.extractLsb' 40 6))
  | 0x1c => some (.popc (w.getLsbD 16) (w.extractLsb' 46 6) (w.extractLsb' 40 6))
  | 0x1d => some (.bfx (w.getLsbD 16) (w.extractLsb' 46 6) (w.extractLsb' 40 6) (w.extractLsb' 34 6) (w.extractLsb' 28 6))
  | 0x1e => some (.bfi (w.getLsbD 16) (w.extractLsb' 46 6) (w.extractLsb' 40 6) (w.extractLsb' 34 6) (w.extractLsb' 28 6))
  | 0x1f => some (.madd (w.getLsbD 16) (w.extractLsb' 46 6) (w.extractLsb' 40 6) (w.extractLsb' 34 6) (w.extractLsb' 28 6))
  | _ => none

/-- The instruction that the opcode and fields of a class 1 word name; none for an opcode R41 leaves undefined. -/
def fieldsImm (w : Word) : Option Instr :=
  match (wordOp w).toNat with
  | 0x00 => some (.addi (w.getLsbD 32) (w.extractLsb' 46 6) (w.extractLsb' 40 6) (w.extractLsb' 0 32))
  | 0x01 => some (.andi (w.extractLsb' 46 6) (w.extractLsb' 40 6) (w.extractLsb' 0 32))
  | 0x02 => some (.ori (w.extractLsb' 46 6) (w.extractLsb' 40 6) (w.extractLsb' 0 32))
  | 0x03 => some (.xori (w.extractLsb' 46 6) (w.extractLsb' 40 6) (w.extractLsb' 0 32))
  | 0x04 => some (.shli (w.getLsbD 32) (w.extractLsb' 46 6) (w.extractLsb' 40 6) (w.extractLsb' 0 6))
  | 0x05 => some (.shri (w.getLsbD 32) (w.extractLsb' 46 6) (w.extractLsb' 40 6) (w.extractLsb' 0 6))
  | 0x06 => some (.sari (w.getLsbD 32) (w.extractLsb' 46 6) (w.extractLsb' 40 6) (w.extractLsb' 0 6))
  | 0x07 => some (.slti (w.extractLsb' 46 6) (w.extractLsb' 40 6) (w.extractLsb' 0 32))
  | 0x08 => some (.sltiu (w.extractLsb' 46 6) (w.extractLsb' 40 6) (w.extractLsb' 0 32))
  | 0x09 => some (.movi (w.extractLsb' 46 6) (w.extractLsb' 0 32))
  | 0x0a => some (.movhi (w.extractLsb' 46 6) (w.extractLsb' 40 6) (w.extractLsb' 0 32))
  | 0x0b => some (.muli (w.getLsbD 32) (w.extractLsb' 46 6) (w.extractLsb' 40 6) (w.extractLsb' 0 32))
  | 0x0c => some (.lea (w.extractLsb' 46 6) (w.extractLsb' 0 32))
  | _ => none

/-- The instruction that the opcode and fields of a class 2 word name; none for an opcode R41 leaves undefined. -/
def fieldsFlt (w : Word) : Option Instr :=
  match (wordOp w).toNat with
  | 0x00 => some (.fadd (w.getLsbD 16) (w.extractLsb' 17 2) (w.extractLsb' 46 6) (w.extractLsb' 40 6) (w.extractLsb' 34 6))
  | 0x01 => some (.fsub (w.getLsbD 16) (w.extractLsb' 17 2) (w.extractLsb' 46 6) (w.extractLsb' 40 6) (w.extractLsb' 34 6))
  | 0x02 => some (.fmul (w.getLsbD 16) (w.extractLsb' 17 2) (w.extractLsb' 46 6) (w.extractLsb' 40 6) (w.extractLsb' 34 6))
  | 0x03 => some (.ffma (w.getLsbD 16) (w.extractLsb' 17 2) (w.extractLsb' 46 6) (w.extractLsb' 40 6) (w.extractLsb' 34 6) (w.extractLsb' 28 6))
  | 0x04 => some (.fdiv (w.getLsbD 16) (w.extractLsb' 17 2) (w.extractLsb' 46 6) (w.extractLsb' 40 6) (w.extractLsb' 34 6))
  | 0x05 => some (.fsqrt (w.getLsbD 16) (w.extractLsb' 17 2) (w.extractLsb' 46 6) (w.extractLsb' 40 6))
  | 0x06 => some (.fmin (w.getLsbD 16) (w.extractLsb' 46 6) (w.extractLsb' 40 6) (w.extractLsb' 34 6))
  | 0x07 => some (.fmax (w.getLsbD 16) (w.extractLsb' 46 6) (w.extractLsb' 40 6) (w.extractLsb' 34 6))
  | 0x08 => some (.fceq (w.getLsbD 16) (w.extractLsb' 46 6) (w.extractLsb' 40 6) (w.extractLsb' 34 6))
  | 0x09 => some (.fclt (w.getLsbD 16) (w.extractLsb' 46 6) (w.extractLsb' 40 6) (w.extractLsb' 34 6))
  | 0x0a => some (.fcle (w.getLsbD 16) (w.extractLsb' 46 6) (w.extractLsb' 40 6) (w.extractLsb' 34 6))
  | 0x0b => some (.fcvti (w.getLsbD 19) (w.getLsbD 16) (w.extractLsb' 17 2) (w.extractLsb' 46 6) (w.extractLsb' 40 6))
  | 0x0c => some (.fcvtf (w.getLsbD 16) (w.extractLsb' 17 2) (w.extractLsb' 46 6) (w.extractLsb' 40 6) (w.extractLsb' 34 2))
  | 0x0d => some (.fcvtw (w.getLsbD 19) (w.getLsbD 16) (w.extractLsb' 17 2) (w.extractLsb' 46 6) (w.extractLsb' 40 6))
  | 0x0e => some (.fabs (w.getLsbD 16) (w.extractLsb' 46 6) (w.extractLsb' 40 6))
  | 0x0f => some (.fneg (w.getLsbD 16) (w.extractLsb' 46 6) (w.extractLsb' 40 6))
  | 0x10 => some (.fclass (w.getLsbD 16) (w.extractLsb' 46 6) (w.extractLsb' 40 6))
  | _ => none

/-- The instruction that the opcode and fields of a class 3 word name; none for an opcode R41 leaves undefined. -/
def fieldsCtl (w : Word) : Option Instr :=
  match (wordOp w).toNat with
  | 0x00 => some (.br (w.extractLsb' 0 32))
  | 0x01 => some (.beq (w.extractLsb' 46 6) (w.extractLsb' 40 6) (w.extractLsb' 0 32))
  | 0x02 => some (.bne (w.extractLsb' 46 6) (w.extractLsb' 40 6) (w.extractLsb' 0 32))
  | 0x03 => some (.blt (w.extractLsb' 46 6) (w.extractLsb' 40 6) (w.extractLsb' 0 32))
  | 0x04 => some (.bge (w.extractLsb' 46 6) (w.extractLsb' 40 6) (w.extractLsb' 0 32))
  | 0x05 => some (.bltu (w.extractLsb' 46 6) (w.extractLsb' 40 6) (w.extractLsb' 0 32))
  | 0x06 => some (.bgeu (w.extractLsb' 46 6) (w.extractLsb' 40 6) (w.extractLsb' 0 32))
  | 0x07 => some (.call (w.extractLsb' 46 6) (w.extractLsb' 0 32))
  | 0x08 => some (.callr (w.extractLsb' 46 6) (w.extractLsb' 40 6))
  | 0x09 => some (.ret (w.extractLsb' 40 6))
  | 0x0a => some (.jmpr (w.extractLsb' 40 6))
  | 0x0b => some (.loop (w.extractLsb' 46 6) (w.extractLsb' 32 14) (w.extractLsb' 16 16) (w.extractLsb' 12 4))
  | 0x0c => some (.loopx (w.extractLsb' 46 6) (w.extractLsb' 32 14) (w.extractLsb' 16 16) (w.extractLsb' 12 4))
  | 0x0d => some (.nop)
  | 0x0e => some (.brk (w.extractLsb' 0 32))
  | _ => none

/-- The instruction that the opcode and fields of a class 4 word name; none for an opcode R41 leaves undefined. -/
def fieldsMem (w : Word) : Option Instr :=
  match (wordOp w).toNat with
  | 0x00 => some (.ld (w.extractLsb' 34 2) (w.getLsbD 33) (w.getLsbD 32) (w.extractLsb' 36 4) (w.extractLsb' 46 6) (w.extractLsb' 40 6) (w.extractLsb' 0 32))
  | 0x01 => some (.st (w.extractLsb' 34 2) (w.extractLsb' 36 4) (w.extractLsb' 46 6) (w.extractLsb' 40 6) (w.extractLsb' 0 32))
  | 0x02 => some (.lds (w.extractLsb' 34 2) (w.getLsbD 33) (w.extractLsb' 36 4) (w.extractLsb' 46 6) (w.extractLsb' 40 6) (w.extractLsb' 0 32))
  | 0x03 => some (.sts (w.extractLsb' 34 2) (w.extractLsb' 36 4) (w.extractLsb' 46 6) (w.extractLsb' 40 6) (w.extractLsb' 0 32))
  | 0x04 => some (.fence (w.extractLsb' 19 2) (w.extractLsb' 16 3) (w.extractLsb' 0 16))
  | 0x05 => some (.l1inv (w.extractLsb' 40 6) (w.extractLsb' 34 6))
  | 0x06 => some (.pref (w.extractLsb' 24 4) (w.extractLsb' 40 6) (w.extractLsb' 34 6))
  | 0x07 => some (.bankmode (w.extractLsb' 46 6) (w.extractLsb' 40 6) (w.extractLsb' 34 6))
  | 0x08 => some (.dset (w.extractLsb' 46 5) (w.extractLsb' 40 6) (w.extractLsb' 28 2))
  | 0x09 => some (.dget (w.extractLsb' 46 6) (w.extractLsb' 40 5) (w.extractLsb' 28 2))
  | 0x0a => some (.dld (w.extractLsb' 24 4) (w.extractLsb' 46 5) (w.extractLsb' 40 6))
  | _ => none

/-- The instruction that the opcode and fields of a class 5 word name; none for an opcode R41 leaves undefined. -/
def fieldsSyn (w : Word) : Option Instr :=
  match (wordOp w).toNat with
  | 0x00 => some (.aadd (w.getLsbD 21) (w.extractLsb' 19 2) (w.extractLsb' 16 3) (w.extractLsb' 24 4) (w.extractLsb' 0 16) (w.extractLsb' 46 6) (w.extractLsb' 40 6) (w.extractLsb' 34 6))
  | 0x01 => some (.aand (w.getLsbD 21) (w.extractLsb' 19 2) (w.extractLsb' 16 3) (w.extractLsb' 24 4) (w.extractLsb' 0 16) (w.extractLsb' 46 6) (w.extractLsb' 40 6) (w.extractLsb' 34 6))
  | 0x02 => some (.aor (w.getLsbD 21) (w.extractLsb' 19 2) (w.extractLsb' 16 3) (w.extractLsb' 24 4) (w.extractLsb' 0 16) (w.extractLsb' 46 6) (w.extractLsb' 40 6) (w.extractLsb' 34 6))
  | 0x03 => some (.axor (w.getLsbD 21) (w.extractLsb' 19 2) (w.extractLsb' 16 3) (w.extractLsb' 24 4) (w.extractLsb' 0 16) (w.extractLsb' 46 6) (w.extractLsb' 40 6) (w.extractLsb' 34 6))
  | 0x04 => some (.amin (w.getLsbD 21) (w.extractLsb' 19 2) (w.extractLsb' 16 3) (w.extractLsb' 24 4) (w.extractLsb' 0 16) (w.extractLsb' 46 6) (w.extractLsb' 40 6) (w.extractLsb' 34 6))
  | 0x05 => some (.amax (w.getLsbD 21) (w.extractLsb' 19 2) (w.extractLsb' 16 3) (w.extractLsb' 24 4) (w.extractLsb' 0 16) (w.extractLsb' 46 6) (w.extractLsb' 40 6) (w.extractLsb' 34 6))
  | 0x06 => some (.aminu (w.getLsbD 21) (w.extractLsb' 19 2) (w.extractLsb' 16 3) (w.extractLsb' 24 4) (w.extractLsb' 0 16) (w.extractLsb' 46 6) (w.extractLsb' 40 6) (w.extractLsb' 34 6))
  | 0x07 => some (.amaxu (w.getLsbD 21) (w.extractLsb' 19 2) (w.extractLsb' 16 3) (w.extractLsb' 24 4) (w.extractLsb' 0 16) (w.extractLsb' 46 6) (w.extractLsb' 40 6) (w.extractLsb' 34 6))
  | 0x08 => some (.aswap (w.getLsbD 21) (w.extractLsb' 19 2) (w.extractLsb' 16 3) (w.extractLsb' 24 4) (w.extractLsb' 0 16) (w.extractLsb' 46 6) (w.extractLsb' 40 6) (w.extractLsb' 34 6))
  | 0x09 => some (.acas (w.getLsbD 21) (w.extractLsb' 19 2) (w.extractLsb' 16 3) (w.extractLsb' 24 4) (w.extractLsb' 0 16) (w.extractLsb' 46 6) (w.extractLsb' 40 6) (w.extractLsb' 34 6) (w.extractLsb' 28 6))
  | 0x0a => some (.afadd (w.getLsbD 21) (w.extractLsb' 19 2) (w.extractLsb' 16 3) (w.extractLsb' 24 4) (w.extractLsb' 0 16) (w.extractLsb' 46 6) (w.extractLsb' 40 6) (w.extractLsb' 34 6))
  | 0x0b => some (.barr (w.extractLsb' 16 3) (w.extractLsb' 0 16) (w.extractLsb' 46 6) (w.extractLsb' 40 6) (w.extractLsb' 34 6))
  | 0x0c => some (.bwait (w.extractLsb' 16 3) (w.extractLsb' 0 16) (w.extractLsb' 46 6) (w.extractLsb' 40 6) (w.extractLsb' 34 6))
  | 0x0d => some (.mwait (w.extractLsb' 16 3) (w.extractLsb' 0 16) (w.extractLsb' 46 6) (w.extractLsb' 40 6) (w.extractLsb' 34 6))
  | 0x0e => some (.msig (w.extractLsb' 16 3) (w.extractLsb' 0 16) (w.extractLsb' 40 6) (w.extractLsb' 34 6))
  | 0x0f => some (.rinit (w.extractLsb' 46 6) (w.extractLsb' 40 6) (w.extractLsb' 34 6))
  | 0x10 => some (.rclaim (w.extractLsb' 46 6) (w.extractLsb' 40 6))
  | 0x11 => some (.rwaite (w.extractLsb' 46 6) (w.extractLsb' 40 6) (w.extractLsb' 34 6))
  | 0x12 => some (.rcommit (w.extractLsb' 0 16) (w.extractLsb' 40 6) (w.extractLsb' 34 6))
  | 0x13 => some (.rwaitf (w.extractLsb' 0 16) (w.extractLsb' 46 6) (w.extractLsb' 40 6))
  | 0x14 => some (.rtake (w.extractLsb' 40 6) (w.extractLsb' 34 6))
  | 0x15 => some (.rstat (w.extractLsb' 46 6) (w.extractLsb' 40 6) (w.extractLsb' 34 2))
  | 0x16 => some (.twait (w.extractLsb' 46 6) (w.extractLsb' 40 3))
  | 0x17 => some (.tgive (w.extractLsb' 40 3))
  | 0x18 => some (.ypop (w.extractLsb' 46 6))
  | 0x19 => some (.ypeek (w.extractLsb' 46 6) (w.extractLsb' 40 6))
  | _ => none

/-- The instruction that the opcode and fields of a class 6 word name; none for an opcode R41 leaves undefined. -/
def fieldsVec (w : Word) : Option Instr :=
  match (wordOp w).toNat with
  | 0x00 => some (.vadd (headOf w) (w.extractLsb' 5 3) (w.extractLsb' 1 4) (w.extractLsb' 20 6) (w.extractLsb' 14 6) (w.extractLsb' 8 6))
  | 0x01 => some (.vsub (headOf w) (w.extractLsb' 5 3) (w.extractLsb' 1 4) (w.extractLsb' 20 6) (w.extractLsb' 14 6) (w.extractLsb' 8 6))
  | 0x02 => some (.vmul (headOf w) (w.extractLsb' 5 3) (w.extractLsb' 1 4) (w.extractLsb' 20 6) (w.extractLsb' 14 6) (w.extractLsb' 8 6))
  | 0x03 => some (.vfma (headOf w) (w.extractLsb' 5 3) (w.extractLsb' 1 4) (w.extractLsb' 20 6) (w.extractLsb' 14 6) (w.extractLsb' 8 6))
  | 0x04 => some (.vfnma (headOf w) (w.extractLsb' 5 3) (w.extractLsb' 1 4) (w.extractLsb' 20 6) (w.extractLsb' 14 6) (w.extractLsb' 8 6))
  | 0x05 => some (.vmin (headOf w) (w.extractLsb' 5 3) (w.extractLsb' 1 4) (w.extractLsb' 20 6) (w.extractLsb' 14 6) (w.extractLsb' 8 6))
  | 0x06 => some (.vmax (headOf w) (w.extractLsb' 5 3) (w.extractLsb' 1 4) (w.extractLsb' 20 6) (w.extractLsb' 14 6) (w.extractLsb' 8 6))
  | 0x07 => some (.vabs (headOf w) (w.extractLsb' 5 3) (w.extractLsb' 1 4) (w.extractLsb' 20 6) (w.extractLsb' 14 6))
  | 0x08 => some (.vneg (headOf w) (w.extractLsb' 5 3) (w.extractLsb' 1 4) (w.extractLsb' 20 6) (w.extractLsb' 14 6))
  | 0x09 => some (.vdiv (headOf w) (w.extractLsb' 5 3) (w.extractLsb' 1 4) (w.extractLsb' 20 6) (w.extractLsb' 14 6) (w.extractLsb' 8 6))
  | 0x0a => some (.vsqrt (headOf w) (w.extractLsb' 5 3) (w.extractLsb' 1 4) (w.extractLsb' 20 6) (w.extractLsb' 14 6))
  | 0x0b => some (.vrsq (headOf w) (w.extractLsb' 5 3) (w.extractLsb' 1 4) (w.extractLsb' 20 6) (w.extractLsb' 14 6))
  | 0x0c => some (.vrcp (headOf w) (w.extractLsb' 5 3) (w.extractLsb' 1 4) (w.extractLsb' 20 6) (w.extractLsb' 14 6))
  | 0x0d => some (.vexp2 (headOf w) (w.extractLsb' 5 3) (w.extractLsb' 1 4) (w.extractLsb' 20 6) (w.extractLsb' 14 6))
  | 0x0e => some (.vlog2 (headOf w) (w.extractLsb' 5 3) (w.extractLsb' 1 4) (w.extractLsb' 20 6) (w.extractLsb' 14 6))
  | 0x0f => some (.vand (headOf w) (w.extractLsb' 5 3) (w.extractLsb' 1 4) (w.extractLsb' 20 6) (w.extractLsb' 14 6) (w.extractLsb' 8 6))
  | 0x10 => some (.vor (headOf w) (w.extractLsb' 5 3) (w.extractLsb' 1 4) (w.extractLsb' 20 6) (w.extractLsb' 14 6) (w.extractLsb' 8 6))
  | 0x11 => some (.vxor (headOf w) (w.extractLsb' 5 3) (w.extractLsb' 1 4) (w.extractLsb' 20 6) (w.extractLsb' 14 6) (w.extractLsb' 8 6))
  | 0x12 => some (.vshl (headOf w) (w.extractLsb' 5 3) (w.extractLsb' 1 4) (w.extractLsb' 20 6) (w.extractLsb' 14 6) (w.extractLsb' 8 6))
  | 0x13 => some (.vshr (headOf w) (w.extractLsb' 5 3) (w.extractLsb' 1 4) (w.extractLsb' 20 6) (w.extractLsb' 14 6) (w.extractLsb' 8 6))
  | 0x14 => some (.vsar (headOf w) (w.extractLsb' 5 3) (w.extractLsb' 1 4) (w.extractLsb' 20 6) (w.extractLsb' 14 6) (w.extractLsb' 8 6))
  | 0x15 => some (.vceq (headOf w) (w.extractLsb' 5 3) (w.extractLsb' 1 4) (w.extractLsb' 20 3) (w.extractLsb' 14 6) (w.extractLsb' 8 6))
  | 0x16 => some (.vclt (headOf w) (w.extractLsb' 5 3) (w.extractLsb' 1 4) (w.extractLsb' 20 3) (w.extractLsb' 14 6) (w.extractLsb' 8 6))
  | 0x17 => some (.vcle (headOf w) (w.extractLsb' 5 3) (w.extractLsb' 1 4) (w.extractLsb' 20 3) (w.extractLsb' 14 6) (w.extractLsb' 8 6))
  | 0x18 => some (.vsel (headOf w) (w.extractLsb' 5 3) (w.extractLsb' 1 4) (w.extractLsb' 20 6) (w.extractLsb' 14 6) (w.extractLsb' 8 6))
  | 0x19 => some (.vmov (headOf w) (w.extractLsb' 5 3) (w.extractLsb' 1 4) (w.extractLsb' 20 6) (w.extractLsb' 14 6))
  | 0x1a => some (.vmovs (headOf w) (w.extractLsb' 5 3) (w.extractLsb' 1 4) (w.extractLsb' 20 6) (w.extractLsb' 14 6))
  | 0x1b => some (.viota (headOf w) (w.extractLsb' 5 3) (w.extractLsb' 1 4) (w.extractLsb' 20 6) (w.extractLsb' 14 6))
  | 0x1c => some (.vclamp (headOf w) (w.extractLsb' 5 3) (w.extractLsb' 1 4) (w.extractLsb' 20 6) (w.extractLsb' 14 6) (w.extractLsb' 8 6))
  | 0x1d => some (.vadds (headOf w) (w.extractLsb' 5 3) (w.extractLsb' 1 4) (w.extractLsb' 20 6) (w.extractLsb' 14 6) (w.extractLsb' 8 6))
  | 0x1e => some (.vmulh (headOf w) (w.extractLsb' 5 3) (w.extractLsb' 1 4) (w.extractLsb' 20 6) (w.extractLsb' 14 6) (w.extractLsb' 8 6))
  | _ => none

/-- The instruction that the opcode and fields of a class 7 word name; none for an opcode R41 leaves undefined. -/
def fieldsVxf (w : Word) : Option Instr :=
  match (wordOp w).toNat with
  | 0x00 => some (.vcvt (headOf w) (w.extractLsb' 5 3) (w.extractLsb' 1 4) (w.extractLsb' 20 6) (w.extractLsb' 14 6) (w.extractLsb' 8 4) (w.extractLsb' 12 2))
  | 0x01 => some (.vpack (headOf w) (w.extractLsb' 1 4) (w.extractLsb' 20 6) (w.extractLsb' 14 6) (w.extractLsb' 8 6))
  | 0x02 => some (.vunpk (headOf w) (w.extractLsb' 1 4) (w.extractLsb' 20 6) (w.extractLsb' 14 6) (w.extractLsb' 8 6))
  | 0x03 => some (.vperm (headOf w) (w.extractLsb' 5 3) (w.extractLsb' 1 4) (w.extractLsb' 20 6) (w.extractLsb' 14 6) (w.extractLsb' 8 6))
  | 0x04 => some (.vgaths (headOf w) (w.extractLsb' 48 4) (w.extractLsb' 5 3) (w.extractLsb' 1 4) (w.extractLsb' 20 6) (w.extractLsb' 14 5) (w.extractLsb' 8 6))
  | 0x05 => some (.vscats (headOf w) (w.extractLsb' 48 4) (w.extractLsb' 5 3) (w.extractLsb' 1 4) (w.extractLsb' 20 5) (w.extractLsb' 14 6) (w.extractLsb' 8 6))
  | 0x06 => some (.vred (headOf w) (w.extractLsb' 5 3) (w.extractLsb' 1 4) (w.extractLsb' 20 6) (w.extractLsb' 14 6) (w.extractLsb' 8 3) (w.getLsbD 13))
  | 0x07 => some (.vscan (headOf w) (w.extractLsb' 5 3) (w.extractLsb' 1 4) (w.extractLsb' 20 6) (w.extractLsb' 14 6) (w.extractLsb' 8 2))
  | 0x08 => some (.vtopk (headOf w) (w.extractLsb' 5 3) (w.extractLsb' 1 4) (w.extractLsb' 20 6) (w.extractLsb' 14 6) (w.extractLsb' 8 6))
  | 0x09 => some (.vcmpr (headOf w) (w.extractLsb' 5 3) (w.extractLsb' 1 4) (w.extractLsb' 20 6) (w.extractLsb' 14 6))
  | 0x0a => some (.vexpd (headOf w) (w.extractLsb' 5 3) (w.extractLsb' 1 4) (w.extractLsb' 20 6) (w.extractLsb' 14 6))
  | 0x0b => some (.vld (headOf w) (w.extractLsb' 48 4) (w.extractLsb' 5 3) (w.extractLsb' 1 4) (w.extractLsb' 20 6) (w.extractLsb' 14 5) (w.extractLsb' 8 6))
  | 0x0c => some (.vst (headOf w) (w.extractLsb' 48 4) (w.extractLsb' 5 3) (w.extractLsb' 1 4) (w.extractLsb' 20 5) (w.extractLsb' 14 6) (w.extractLsb' 8 6))
  | 0x0d => some (.vldx (headOf w) (w.extractLsb' 48 4) (w.extractLsb' 5 3) (w.extractLsb' 1 4) (w.extractLsb' 20 6) (w.extractLsb' 14 5) (w.extractLsb' 8 6))
  | 0x0e => some (.mand (headOf w) (w.extractLsb' 20 3) (w.extractLsb' 14 3) (w.extractLsb' 8 3))
  | 0x0f => some (.mor (headOf w) (w.extractLsb' 20 3) (w.extractLsb' 14 3) (w.extractLsb' 8 3))
  | 0x10 => some (.mnot (headOf w) (w.extractLsb' 20 3) (w.extractLsb' 14 3))
  | 0x11 => some (.mpopc (headOf w) (w.extractLsb' 14 3))
  | _ => none

/-- The instruction that the opcode and fields of a class 8 word name; none for an opcode R41 leaves undefined. -/
def fieldsMtx (w : Word) : Option Instr :=
  match (wordOp w).toNat with
  | 0x00 => some (.mma (headOf w) (w.extractLsb' 48 4) (w.extractLsb' 20 5) (w.extractLsb' 14 5) (w.extractLsb' 8 5))
  | 0x01 => some (.mmaz (headOf w) (w.extractLsb' 48 4) (w.extractLsb' 20 5) (w.extractLsb' 14 5) (w.extractLsb' 8 5))
  | 0x02 => some (.mmac (headOf w) (w.extractLsb' 48 4) (w.extractLsb' 1 4) (w.getLsbD 5) (w.extractLsb' 20 5) (w.extractLsb' 14 5) (w.extractLsb' 8 5))
  | 0x03 => some (.mmae (headOf w) (w.extractLsb' 48 4) (w.extractLsb' 20 5) (w.extractLsb' 14 5) (w.extractLsb' 8 5))
  | 0x04 => some (.mres (headOf w) (w.extractLsb' 48 4) (w.extractLsb' 20 5) (w.extractLsb' 14 5) (w.extractLsb' 8 5))
  | 0x05 =>
    if w.extractLsb' 1 7 == 2#7 then some (.mbndSum (headOf w) (w.extractLsb' 20 5) (w.extractLsb' 14 5) (w.extractLsb' 8 5))
    else if w.extractLsb' 1 7 == 1#7 then some (.mbndFirst (headOf w) (w.extractLsb' 48 4) (w.extractLsb' 20 5) (w.extractLsb' 14 5))
    else some (.mbndLyr (headOf w) (w.extractLsb' 48 4) (w.extractLsb' 20 5) (w.extractLsb' 14 5) (w.extractLsb' 8 5))
  | 0x06 => some (.mcomp (headOf w) (w.extractLsb' 48 4) (w.getLsbD 0) (w.extractLsb' 20 5) (w.extractLsb' 14 5) (w.extractLsb' 8 5))
  | 0x07 => some (.mmas (headOf w) (w.extractLsb' 48 4) (w.extractLsb' 20 5) (w.extractLsb' 14 5) (w.extractLsb' 8 5))
  | 0x08 => some (.mmab (headOf w) (w.extractLsb' 48 4) (w.extractLsb' 20 5) (w.extractLsb' 14 5) (w.extractLsb' 8 5))
  | 0x09 => some (.mzero (headOf w) (w.extractLsb' 20 5))
  | 0x0a => some (.mrd (headOf w) (w.extractLsb' 48 4) (w.getLsbD 1) (w.getLsbD 2) (w.extractLsb' 20 5) (w.extractLsb' 14 5) (w.extractLsb' 8 6))
  | 0x0b => some (.mwr (headOf w) (w.extractLsb' 48 4) (w.extractLsb' 20 5) (w.extractLsb' 14 5))
  | 0x0c => some (.mchk (headOf w) (w.extractLsb' 48 4) (w.getLsbD 1) (w.extractLsb' 20 5) (w.extractLsb' 14 5) (w.extractLsb' 8 5))
  | 0x0d => if w.getLsbD 1 then some (.mjoinLeave (headOf w) (w.extractLsb' 20 5)) else some (.mjoinJoin (headOf w) (w.extractLsb' 20 5))
  | _ => none

/-- The instruction that the opcode and fields of a class 9 word name; none for an opcode R41 leaves undefined. -/
def fieldsCpi (w : Word) : Option Instr :=
  match (wordOp w).toNat with
  | 0x00 => some (.cpin (headOf w) (w.extractLsb' 48 4) (w.getLsbD 0) (w.extractLsb' 20 5) (w.extractLsb' 14 5))
  | 0x01 => some (.cprow (headOf w) (w.extractLsb' 48 4) (w.getLsbD 0) (w.getLsbD 1) (w.extractLsb' 20 5) (w.extractLsb' 14 5))
  | 0x02 => some (.cpexp (headOf w) (w.extractLsb' 48 4) (w.getLsbD 0) (w.extractLsb' 20 5) (w.extractLsb' 14 5))
  | 0x03 => some (.cpfill (headOf w) (w.extractLsb' 48 4) (w.getLsbD 0) (w.extractLsb' 20 5) (w.extractLsb' 14 6))
  | 0x04 => some (.scprobe (headOf w) (w.extractLsb' 48 4) (w.getLsbD 0) (w.extractLsb' 20 5) (w.extractLsb' 14 5) (w.extractLsb' 8 6))
  | 0x05 => some (.scrply (headOf w) (w.extractLsb' 48 4) (w.getLsbD 0) (w.extractLsb' 20 5) (w.extractLsb' 14 5) (w.extractLsb' 8 6))
  | _ => none

/-- The instruction that the opcode and fields of a class A word name; none for an opcode R41 leaves undefined. -/
def fieldsCpo (w : Word) : Option Instr :=
  match (wordOp w).toNat with
  | 0x00 => some (.cpout (headOf w) (w.extractLsb' 48 4) (w.getLsbD 0) (w.extractLsb' 20 5) (w.extractLsb' 14 5))
  | 0x01 => some (.cpsct (headOf w) (w.extractLsb' 48 4) (w.getLsbD 0) (w.getLsbD 1) (w.extractLsb' 20 5) (w.extractLsb' 14 5))
  | 0x02 => some (.cppack (headOf w) (w.extractLsb' 48 4) (w.getLsbD 0) (w.extractLsb' 20 5) (w.extractLsb' 14 5))
  | 0x03 => some (.cpred (headOf w) (w.extractLsb' 48 4) (w.getLsbD 0) (w.extractLsb' 1 3) (w.getLsbD 4) (w.extractLsb' 20 5) (w.extractLsb' 14 5))
  | 0x04 => some (.cpcoll (headOf w) (w.extractLsb' 48 4) (w.extractLsb' 1 3) (w.getLsbD 4) (w.extractLsb' 20 5) (w.extractLsb' 14 5))
  | 0x05 => some (.cpsend (headOf w) (w.extractLsb' 48 4) (w.extractLsb' 14 5) (w.extractLsb' 8 6))
  | 0x06 => some (.cppost (headOf w) (w.extractLsb' 48 4) (w.extractLsb' 20 5) (w.extractLsb' 8 6))
  | 0x07 => some (.screc (headOf w) (w.extractLsb' 48 4) (w.getLsbD 0) (w.extractLsb' 20 5) (w.extractLsb' 14 5) (w.extractLsb' 8 6))
  | 0x08 => some (.cpcnv (headOf w) (w.extractLsb' 48 4) (w.getLsbD 0) (w.extractLsb' 20 5) (w.extractLsb' 14 5))
  | _ => none

/-- The instruction that the opcode and fields of a class B word name; none for an opcode R41 leaves undefined. -/
def fieldsEdg (w : Word) : Option Instr :=
  match (wordOp w).toNat with
  | 0x00 => some (.ebind (headOf w) (w.extractLsb' 48 4) (w.extractLsb' 20 5))
  | 0x01 => some (.erun (headOf w) (w.extractLsb' 48 4) (w.extractLsb' 1 2) (w.getLsbD 3) (w.extractLsb' 14 6))
  | 0x02 => some (.eswp (headOf w) (w.extractLsb' 20 2) (w.extractLsb' 14 2))
  | 0x03 => some (.efrnt (headOf w) (w.extractLsb' 48 4) (w.extractLsb' 14 6))
  | _ => none

/-- The instruction that the opcode and fields of a class C word name; none for an opcode R41 leaves undefined. -/
def fieldsRdn (w : Word) : Option Instr :=
  match (wordOp w).toNat with
  | 0x00 => some (.ndagree (w.extractLsb' 46 6) (w.extractLsb' 40 6))
  | 0x01 => some (.sigrd (w.getLsbD 33) (w.getLsbD 32) (w.extractLsb' 46 6) (w.extractLsb' 0 3))
  | 0x02 => some (.copen (w.getLsbD 32) (w.extractLsb' 0 32))
  | 0x03 => some (.cclose)
  | 0x04 => some (.katstat (w.extractLsb' 46 6) (w.extractLsb' 0 2))
  | _ => none

/-- The instruction that the opcode and fields of a class E word name; none for an opcode R41 leaves undefined. -/
def fieldsSys (w : Word) : Option Instr :=
  match (wordOp w).toNat with
  | 0x00 => some (.trap (w.extractLsb' 0 32))
  | 0x01 => some (.eret)
  | 0x02 => some (.mfsr (w.extractLsb' 46 6) (w.extractLsb' 0 12))
  | 0x03 => some (.mtsr (w.extractLsb' 0 12) (w.extractLsb' 40 6))
  | 0x04 => some (.exit (w.extractLsb' 40 6))
  | 0x05 => some (.yieldT (w.extractLsb' 46 6))
  | 0x06 => if w.getLsbD 32 then some (.swapLoad (w.extractLsb' 40 6)) else some (.swap)
  | 0x07 => some (.frame (w.extractLsb' 0 16))
  | 0x08 => some (.drain)
  | 0x09 => some (.tlbinv (w.extractLsb' 32 3) (w.extractLsb' 46 6) (w.extractLsb' 40 6))
  | 0x0a => some (.spawn (w.extractLsb' 46 6) (w.extractLsb' 40 6))
  | 0x0b => if w.getLsbD 36 then some (.depdecAll (w.extractLsb' 32 4) (w.extractLsb' 46 6)) else some (.depdec (w.extractLsb' 32 4) (w.extractLsb' 46 6) (w.extractLsb' 40 6))
  | 0x0c => some (.halt)
  | 0x0d => some (.clock (w.extractLsb' 46 6))
  | 0x0e => some (.kill (w.extractLsb' 46 6) (w.extractLsb' 40 6))
  | 0x0f => some (.idle (w.extractLsb' 0 32))
  | 0x10 => some (.phase (w.extractLsb' 0 3))
  | _ => none

/-- The instruction named by class and opcode, or none (R41, R43). -/
def instrFields (w : Word) : Option Instr :=
  match (wordClass w).toNat with
  | 0x0 => fieldsInt w
  | 0x1 => fieldsImm w
  | 0x2 => fieldsFlt w
  | 0x3 => fieldsCtl w
  | 0x4 => fieldsMem w
  | 0x5 => fieldsSyn w
  | 0x6 => fieldsVec w
  | 0x7 => fieldsVxf w
  | 0x8 => fieldsMtx w
  | 0x9 => fieldsCpi w
  | 0xa => fieldsCpo w
  | 0xb => fieldsEdg w
  | 0xc => fieldsRdn w
  | 0xe => fieldsSys w
  | _ => none

/-! ### The encoder -/

/-- The word of an instruction; every field it does not use is zero (R40).  An event has no word and encodes as
the reserved word of R45. -/
def encode : Instr → Word
  | .add w a b c => encSR 0 0x0 a b c 0 0 (qualW w) 0
  | .sub w a b c => encSR 0 0x1 a b c 0 0 (qualW w) 0
  | .mul w a b c => encSR 0 0x2 a b c 0 0 (qualW w) 0
  | .mulh w a b c => encSR 0 0x3 a b c 0 0 (qualW w) 0
  | .mulhu w a b c => encSR 0 0x4 a b c 0 0 (qualW w) 0
  | .div w a b c => encSR 0 0x5 a b c 0 0 (qualW w) 0
  | .divu w a b c => encSR 0 0x6 a b c 0 0 (qualW w) 0
  | .rem w a b c => encSR 0 0x7 a b c 0 0 (qualW w) 0
  | .remu w a b c => encSR 0 0x8 a b c 0 0 (qualW w) 0
  | .andI w a b c => encSR 0 0x9 a b c 0 0 (qualW w) 0
  | .orI w a b c => encSR 0 0xa a b c 0 0 (qualW w) 0
  | .xorI w a b c => encSR 0 0xb a b c 0 0 (qualW w) 0
  | .andn w a b c => encSR 0 0xc a b c 0 0 (qualW w) 0
  | .shl w a b c => encSR 0 0xd a b c 0 0 (qualW w) 0
  | .shr w a b c => encSR 0 0xe a b c 0 0 (qualW w) 0
  | .sar w a b c => encSR 0 0xf a b c 0 0 (qualW w) 0
  | .ror w a b c => encSR 0 0x10 a b c 0 0 (qualW w) 0
  | .minI w a b c => encSR 0 0x11 a b c 0 0 (qualW w) 0
  | .maxI w a b c => encSR 0 0x12 a b c 0 0 (qualW w) 0
  | .minu w a b c => encSR 0 0x13 a b c 0 0 (qualW w) 0
  | .maxu w a b c => encSR 0 0x14 a b c 0 0 (qualW w) 0
  | .seq w a b c => encSR 0 0x15 a b c 0 0 (qualW w) 0
  | .sne w a b c => encSR 0 0x16 a b c 0 0 (qualW w) 0
  | .slt w a b c => encSR 0 0x17 a b c 0 0 (qualW w) 0
  | .sltu w a b c => encSR 0 0x18 a b c 0 0 (qualW w) 0
  | .sel w a b c d => encSR 0 0x19 a b c d 0 (qualW w) 0
  | .clz w a b => encSR 0 0x1a a b 0 0 0 (qualW w) 0
  | .ctz w a b => encSR 0 0x1b a b 0 0 0 (qualW w) 0
  | .popc w a b => encSR 0 0x1c a b 0 0 0 (qualW w) 0
  | .bfx w a b c d => encSR 0 0x1d a b c d 0 (qualW w) 0
  | .bfi w a b c d => encSR 0 0x1e a b c d 0 (qualW w) 0
  | .madd w a b c d => encSR 0 0x1f a b c d 0 (qualW w) 0
  | .addi w a b imm => encSI 1 0 a b 0 (qualWI w) imm
  | .andi a b imm => encSI 1 1 a b 0 0 imm
  | .ori a b imm => encSI 1 2 a b 0 0 imm
  | .xori a b imm => encSI 1 3 a b 0 0 imm
  | .shli w a b amt => encSI 1 4 a b 0 (qualWI w) (amt.setWidth 32)
  | .shri w a b amt => encSI 1 5 a b 0 (qualWI w) (amt.setWidth 32)
  | .sari w a b amt => encSI 1 6 a b 0 (qualWI w) (amt.setWidth 32)
  | .slti a b imm => encSI 1 7 a b 0 0 imm
  | .sltiu a b imm => encSI 1 8 a b 0 0 imm
  | .movi a imm => encSI 1 9 a 0 0 0 imm
  | .movhi a b imm => encSI 1 10 a b 0 0 imm
  | .muli w a b imm => encSI 1 11 a b 0 (qualWI w) imm
  | .lea a imm => encSI 1 12 a 0 0 0 imm
  | .fadd single rm a b c => encSR 2 0 a b c 0 0 (qualF single rm false) 0
  | .fsub single rm a b c => encSR 2 1 a b c 0 0 (qualF single rm false) 0
  | .fmul single rm a b c => encSR 2 2 a b c 0 0 (qualF single rm false) 0
  | .ffma single rm a b c d => encSR 2 3 a b c d 0 (qualF single rm false) 0
  | .fdiv single rm a b c => encSR 2 4 a b c 0 0 (qualF single rm false) 0
  | .fsqrt single rm a b => encSR 2 5 a b 0 0 0 (qualF single rm false) 0
  | .fmin single a b c => encSR 2 6 a b c 0 0 (qualF single 0 false) 0
  | .fmax single a b c => encSR 2 7 a b c 0 0 (qualF single 0 false) 0
  | .fceq single a b c => encSR 2 8 a b c 0 0 (qualF single 0 false) 0
  | .fclt single a b c => encSR 2 9 a b c 0 0 (qualF single 0 false) 0
  | .fcle single a b c => encSR 2 10 a b c 0 0 (qualF single 0 false) 0
  | .fcvti sat single rm a b => encSR 2 11 a b 0 0 0 (qualF single rm sat) 0
  | .fcvtf single rm a b kind => encSR 2 12 a b (kind.setWidth 6) 0 0 (qualF single rm false) 0
  | .fcvtw sat single rm a b => encSR 2 13 a b 0 0 0 (qualF single rm sat) 0
  | .fabs single a b => encSR 2 14 a b 0 0 0 (qualF single 0 false) 0
  | .fneg single a b => encSR 2 15 a b 0 0 0 (qualF single 0 false) 0
  | .fclass single a b => encSR 2 16 a b 0 0 0 (qualF single 0 false) 0
  | .br off => encSB 0 0 0 off
  | .beq a b off => encSB 1 a b off
  | .bne a b off => encSB 2 a b off
  | .blt a b off => encSB 3 a b off
  | .bge a b off => encSB 4 a b off
  | .bltu a b off => encSB 5 a b off
  | .bgeu a b off => encSB 6 a b off
  | .call a off => encSB 7 a 0 off
  | .callr a b => encSB 8 a b 0
  | .ret b => encSB 9 0 b 0
  | .jmpr b => encSB 10 0 b 0
  | .loop cnt len imm base => encSL 11 cnt len imm base
  | .loopx cnt len imm base => encSL 12 cnt len imm base
  | .nop => encSB 13 0 0 0
  | .brk code => encSB 14 0 0 code
  | .ld size sx byp oc a b imm => encSI 4 0 a b oc (qualM size sx byp) imm
  | .st size oc a b imm => encSI 4 1 a b oc (qualM size false false) imm
  | .lds size sx oc a b imm => encSI 4 2 a b oc (qualM size sx false) imm
  | .sts size oc a b imm => encSI 4 3 a b oc (qualM size false false) imm
  | .fence sem scope mask => encSR 4 4 0 0 0 0 0 (qualA false sem scope) mask
  | .l1inv b c => encSR 4 5 0 b c 0 0 0 0
  | .pref oc b c => encSR 4 6 0 b c 0 oc 0 0
  | .bankmode a b c => encSR 4 7 a b c 0 0 0 0
  | .dset da b q => encSR 4 8 (da.setWidth 6) b 0 (q.setWidth 6) 0 0 0
  | .dget a db q => encSR 4 9 a (db.setWidth 6) 0 (q.setWidth 6) 0 0 0
  | .dld oc da b => encSR 4 10 (da.setWidth 6) b 0 0 oc 0 0
  | .aadd w sem scope oc mask a b c => encSR 5 0 a b c 0 oc (qualA w sem scope) mask
  | .aand w sem scope oc mask a b c => encSR 5 1 a b c 0 oc (qualA w sem scope) mask
  | .aor w sem scope oc mask a b c => encSR 5 2 a b c 0 oc (qualA w sem scope) mask
  | .axor w sem scope oc mask a b c => encSR 5 3 a b c 0 oc (qualA w sem scope) mask
  | .amin w sem scope oc mask a b c => encSR 5 4 a b c 0 oc (qualA w sem scope) mask
  | .amax w sem scope oc mask a b c => encSR 5 5 a b c 0 oc (qualA w sem scope) mask
  | .aminu w sem scope oc mask a b c => encSR 5 6 a b c 0 oc (qualA w sem scope) mask
  | .amaxu w sem scope oc mask a b c => encSR 5 7 a b c 0 oc (qualA w sem scope) mask
  | .aswap w sem scope oc mask a b c => encSR 5 8 a b c 0 oc (qualA w sem scope) mask
  | .acas w sem scope oc mask a b c d => encSR 5 9 a b c d oc (qualA w sem scope) mask
  | .afadd single sem scope oc mask a b c => encSR 5 10 a b c 0 oc (qualA single sem scope) mask
  | .barr scope mask a b c => encSR 5 11 a b c 0 0 (qualA false 0 scope) mask
  | .bwait scope mask a b c => encSR 5 12 a b c 0 0 (qualA false 0 scope) mask
  | .mwait scope mask a b c => encSR 5 13 a b c 0 0 (qualA false 0 scope) mask
  | .msig scope mask b c => encSR 5 14 0 b c 0 0 (qualA false 0 scope) mask
  | .rinit a b c => encSR 5 15 a b c 0 0 0 0
  | .rclaim a b => encSR 5 16 a b 0 0 0 0 0
  | .rwaite a b c => encSR 5 17 a b c 0 0 0 0
  | .rcommit mask b c => encSR 5 18 0 b c 0 0 0 mask
  | .rwaitf mask a b => encSR 5 19 a b 0 0 0 0 mask
  | .rtake b c => encSR 5 20 0 b c 0 0 0 0
  | .rstat a b k => encSR 5 21 a b (k.setWidth 6) 0 0 0 0
  | .twait a q => encSR 5 22 a (q.setWidth 6) 0 0 0 0 0
  | .tgive q => encSR 5 23 0 (q.setWidth 6) 0 0 0 0 0
  | .ypop a => encSR 5 24 a 0 0 0 0 0 0
  | .ypeek a b => encSR 5 25 a b 0 0 0 0 0
  | .vadd h mk f a b c => encE 6 0x0 0 h a b c (mk ++ f) false
  | .vsub h mk f a b c => encE 6 0x1 0 h a b c (mk ++ f) false
  | .vmul h mk f a b c => encE 6 0x2 0 h a b c (mk ++ f) false
  | .vfma h mk f a b c => encE 6 0x3 0 h a b c (mk ++ f) false
  | .vfnma h mk f a b c => encE 6 0x4 0 h a b c (mk ++ f) false
  | .vmin h mk f a b c => encE 6 0x5 0 h a b c (mk ++ f) false
  | .vmax h mk f a b c => encE 6 0x6 0 h a b c (mk ++ f) false
  | .vabs h mk f a b => encE 6 0x7 0 h a b 0 (mk ++ f) false
  | .vneg h mk f a b => encE 6 0x8 0 h a b 0 (mk ++ f) false
  | .vdiv h mk f a b c => encE 6 0x9 0 h a b c (mk ++ f) false
  | .vsqrt h mk f a b => encE 6 0xa 0 h a b 0 (mk ++ f) false
  | .vrsq h mk f a b => encE 6 0xb 0 h a b 0 (mk ++ f) false
  | .vrcp h mk f a b => encE 6 0xc 0 h a b 0 (mk ++ f) false
  | .vexp2 h mk f a b => encE 6 0xd 0 h a b 0 (mk ++ f) false
  | .vlog2 h mk f a b => encE 6 0xe 0 h a b 0 (mk ++ f) false
  | .vand h mk f a b c => encE 6 0xf 0 h a b c (mk ++ f) false
  | .vor h mk f a b c => encE 6 0x10 0 h a b c (mk ++ f) false
  | .vxor h mk f a b c => encE 6 0x11 0 h a b c (mk ++ f) false
  | .vshl h mk f a b c => encE 6 0x12 0 h a b c (mk ++ f) false
  | .vshr h mk f a b c => encE 6 0x13 0 h a b c (mk ++ f) false
  | .vsar h mk f a b c => encE 6 0x14 0 h a b c (mk ++ f) false
  | .vceq h mk f a b c => encE 6 0x15 0 h (a.setWidth 6) b c (mk ++ f) false
  | .vclt h mk f a b c => encE 6 0x16 0 h (a.setWidth 6) b c (mk ++ f) false
  | .vcle h mk f a b c => encE 6 0x17 0 h (a.setWidth 6) b c (mk ++ f) false
  | .vsel h mk f a b c => encE 6 0x18 0 h a b c (mk ++ f) false
  | .vmov h mk f a b => encE 6 0x19 0 h a b 0 (mk ++ f) false
  | .vmovs h mk f a b => encE 6 0x1a 0 h a b 0 (mk ++ f) false
  | .viota h mk f a b => encE 6 0x1b 0 h a b 0 (mk ++ f) false
  | .vclamp h mk f a b c => encE 6 0x1c 0 h a b c (mk ++ f) false
  | .vadds h mk f a b c => encE 6 0x1d 0 h a b c (mk ++ f) false
  | .vmulh h mk f a b c => encE 6 0x1e 0 h a b c (mk ++ f) false
  | .vcvt h mk f a b src p => encE 7 0 0 h a b (p ++ src) (mk ++ f) false
  | .vpack h f a b c => encE 7 1 0 h a b c (0#3 ++ f) false
  | .vunpk h f a b c => encE 7 2 0 h a b c (0#3 ++ f) false
  | .vperm h mk f a b c => encE 7 3 0 h a b c (mk ++ f) false
  | .vgaths h oc mk f a db c => encE 7 4 oc h a (db.setWidth 6) c (mk ++ f) false
  | .vscats h oc mk f da b c => encE 7 5 oc h (da.setWidth 6) b c (mk ++ f) false
  | .vred h mk f a b op reply => encE 7 6 0 h a b (BitVec.ofBool reply ++ 0#2 ++ op) (mk ++ f) false
  | .vscan h mk f a b op => encE 7 7 0 h a b (op.setWidth 6) (mk ++ f) false
  | .vtopk h mk f a b k => encE 7 8 0 h a b k (mk ++ f) false
  | .vcmpr h mk f a b => encE 7 9 0 h a b 0 (mk ++ f) false
  | .vexpd h mk f a b => encE 7 10 0 h a b 0 (mk ++ f) false
  | .vld h oc mk f a db c => encE 7 11 oc h a (db.setWidth 6) c (mk ++ f) false
  | .vst h oc mk f da b c => encE 7 12 oc h (da.setWidth 6) b c (mk ++ f) false
  | .vldx h oc mk f a db c => encE 7 13 oc h a (db.setWidth 6) c (mk ++ f) false
  | .mand h a b c => encE 7 14 0 h (a.setWidth 6) (b.setWidth 6) (c.setWidth 6) 0 false
  | .mor h a b c => encE 7 15 0 h (a.setWidth 6) (b.setWidth 6) (c.setWidth 6) 0 false
  | .mnot h a b => encE 7 16 0 h (a.setWidth 6) (b.setWidth 6) 0 0 false
  | .mpopc h b => encE 7 17 0 h 0 (b.setWidth 6) 0 0 false
  | .mma h oc da db dc => encE 8 0x0 oc h (da.setWidth 6) (db.setWidth 6) (dc.setWidth 6) 0 false
  | .mmaz h oc da db dc => encE 8 0x1 oc h (da.setWidth 6) (db.setWidth 6) (dc.setWidth 6) 0 false
  | .mmac h oc fmt sat da db dc => encE 8 0x2 oc h (da.setWidth 6) (db.setWidth 6) (dc.setWidth 6) (0#2 ++ BitVec.ofBool sat ++ fmt) false
  | .mmae h oc da db dc => encE 8 0x3 oc h (da.setWidth 6) (db.setWidth 6) (dc.setWidth 6) 0 false
  | .mres h oc da db dc => encE 8 0x4 oc h (da.setWidth 6) (db.setWidth 6) (dc.setWidth 6) 0 false
  | .mbndLyr h oc da db dc => encE 8 0x5 oc h (da.setWidth 6) (db.setWidth 6) (dc.setWidth 6) 0 false
  | .mbndFirst h oc da db => encE 8 0x5 oc h (da.setWidth 6) (db.setWidth 6) 0 1 false
  | .mbndSum h da db dc => encE 8 0x5 0 h (da.setWidth 6) (db.setWidth 6) (dc.setWidth 6) 2 false
  | .mcomp h oc reloc da db dc => encE 8 0x6 oc h (da.setWidth 6) (db.setWidth 6) (dc.setWidth 6) 0 reloc
  | .mmas h oc da db dc => encE 8 0x7 oc h (da.setWidth 6) (db.setWidth 6) (dc.setWidth 6) 0 false
  | .mmab h oc da db dc => encE 8 0x8 oc h (da.setWidth 6) (db.setWidth 6) (dc.setWidth 6) 0 false
  | .mzero h da => encE 8 0x9 0 h (da.setWidth 6) 0 0 0 false
  | .mwr h oc da db => encE 8 0xb oc h (da.setWidth 6) (db.setWidth 6) 0 0 false
  | .mrd h oc sat clr da db c => encE 8 0xa oc h (da.setWidth 6) (db.setWidth 6) c (0#5 ++ BitVec.ofBool clr ++ BitVec.ofBool sat) false
  | .mchk h oc row da db dc => encE 8 0xc oc h (da.setWidth 6) (db.setWidth 6) (dc.setWidth 6) (0#6 ++ BitVec.ofBool row) false
  | .mjoinJoin h da => encE 8 0xd 0 h (da.setWidth 6) 0 0 0 false
  | .mjoinLeave h da => encE 8 0xd 0 h (da.setWidth 6) 0 0 1 false
  | .cpin h oc reloc da db => encE 9 0x0 oc h (da.setWidth 6) (db.setWidth 6) 0 0 reloc
  | .cprow h oc reloc oobz da db => encE 9 0x1 oc h (da.setWidth 6) (db.setWidth 6) 0 (0#6 ++ BitVec.ofBool oobz) reloc
  | .cpexp h oc reloc da db => encE 9 0x2 oc h (da.setWidth 6) (db.setWidth 6) 0 0 reloc
  | .cpfill h oc reloc da b => encE 9 0x3 oc h (da.setWidth 6) b 0 0 reloc
  | .scprobe h oc reloc da db c => encE 9 0x4 oc h (da.setWidth 6) (db.setWidth 6) c 0 reloc
  | .scrply h oc reloc da db c => encE 9 0x5 oc h (da.setWidth 6) (db.setWidth 6) c 0 reloc
  | .cpout h oc reloc da db => encE 10 0x0 oc h (da.setWidth 6) (db.setWidth 6) 0 0 reloc
  | .cpsct h oc reloc skip da db => encE 10 0x1 oc h (da.setWidth 6) (db.setWidth 6) 0 (0#6 ++ BitVec.ofBool skip) reloc
  | .cppack h oc reloc da db => encE 10 0x2 oc h (da.setWidth 6) (db.setWidth 6) 0 0 reloc
  | .cpred h oc reloc op ord da db => encE 10 0x3 oc h (da.setWidth 6) (db.setWidth 6) 0 (0#3 ++ BitVec.ofBool ord ++ op) reloc
  | .cpcoll h oc kind arr da db => encE 10 0x4 oc h (da.setWidth 6) (db.setWidth 6) 0 (0#3 ++ BitVec.ofBool arr ++ kind) false
  | .cpsend h oc db c => encE 10 0x5 oc h 0 (db.setWidth 6) c 0 false
  | .cppost h oc da c => encE 10 0x6 oc h (da.setWidth 6) 0 c 0 false
  | .screc h oc reloc da db c => encE 10 0x7 oc h (da.setWidth 6) (db.setWidth 6) c 0 reloc
  | .cpcnv h oc reloc da db => encE 10 0x8 oc h (da.setWidth 6) (db.setWidth 6) 0 0 reloc
  | .ebind h oc da => encE 11 0x0 oc h (da.setWidth 6) 0 0 0 false
  | .erun h oc mode ord b => encE 11 0x1 oc h 0 b 0 (0#4 ++ BitVec.ofBool ord ++ mode) false
  | .eswp h pa pb => encE 11 0x2 0 h (pa.setWidth 6) (pb.setWidth 6) 0 0 false
  | .efrnt h oc b => encE 11 0x3 oc h 0 b 0 0 false
  | .ndagree a b => encX 12 0 a b 0 0
  | .sigrd met iso a n => encX 12 1 a 0 (0#6 ++ BitVec.ofBool met ++ BitVec.ofBool iso) (n.setWidth 32)
  | .copen buffered off => encX 12 2 0 0 (0#7 ++ BitVec.ofBool buffered) off
  | .cclose => encX 12 3 0 0 0 0
  | .katstat a k => encX 12 4 a 0 0 (k.setWidth 32)
  | .trap n => encX 14 0 0 0 0 n
  | .eret => encX 14 1 0 0 0 0
  | .mfsr a idx => encX 14 2 a 0 0 (idx.setWidth 32)
  | .mtsr idx b => encX 14 3 0 b 0 (idx.setWidth 32)
  | .exit b => encX 14 4 0 b 0 0
  | .yieldT a => encX 14 5 a 0 0 0
  | .swap => encX 14 6 0 0 0 0
  | .swapLoad b => encX 14 6 0 b 1 0
  | .frame n => encX 14 7 0 0 0 (n.setWidth 32)
  | .drain => encX 14 8 0 0 0 0
  | .tlbinv scope a b => encX 14 9 a b (scope.setWidth 8) 0
  | .spawn a b => encX 14 10 a b 0 0
  | .depdec oc a b => encX 14 11 a b (oc.setWidth 8) 0
  | .depdecAll oc a => encX 14 11 a 0 (0#3 ++ 1#1 ++ oc) 0
  | .halt => encX 14 12 0 0 0 0
  | .clock a => encX 14 13 a 0 0 0
  | .kill a b => encX 14 14 a b 0 0
  | .idle n => encX 14 15 0 0 0 n
  | .phase p => encX 14 16 0 0 0 (p.setWidth 32)
  | .instructionFetch _ => 0xFFFFFFFFFFFFFFFF#64
  | .engineCommandPush _ _ => 0xFFFFFFFFFFFFFFFF#64
  | .instructionCommit _ => 0xFFFFFFFFFFFFFFFF#64
  | .framedStartMiss _ _ _ => 0xFFFFFFFFFFFFFFFF#64
  | .commandSteal _ _ _ => 0xFFFFFFFFFFFFFFFF#64
  | .commandRetire _ _ => 0xFFFFFFFFFFFFFFFF#64
  | .classQueueLeave _ _ => 0xFFFFFFFFFFFFFFFF#64
  | .homeAdmissionRound _ _ => 0xFFFFFFFFFFFFFFFF#64
  | .horizonWiden _ _ => 0xFFFFFFFFFFFFFFFF#64
  | .l1CopyInstall _ _ => 0xFFFFFFFFFFFFFFFF#64
  | .l1CopyDiscard _ _ => 0xFFFFFFFFFFFFFFFF#64
  | .claspRequestPerform _ => 0xFFFFFFFFFFFFFFFF#64
  | .pageWalkComplete _ _ => 0xFFFFFFFFFFFFFFFF#64
  | .bankmodeChangeBegin _ => 0xFFFFFFFFFFFFFFFF#64
  | .bankmodeChangeEnd _ => 0xFFFFFFFFFFFFFFFF#64
  | .mwaitRecheck _ => 0xFFFFFFFFFFFFFFFF#64
  | .idleTimeout _ => 0xFFFFFFFFFFFFFFFF#64
  | .plateLoadComplete _ => 0xFFFFFFFFFFFFFFFF#64
  | .trapTake _ => 0xFFFFFFFFFFFFFFFF#64
  | .containmentEvent _ _ _ _ => 0xFFFFFFFFFFFFFFFF#64
  | .katInject _ _ _ _ => 0xFFFFFFFFFFFFFFFF#64
  | .replicaMeeting _ => 0xFFFFFFFFFFFFFFFF#64
  | .meetingTimeout _ => 0xFFFFFFFFFFFFFFFF#64
  | .ndagreeTimeout _ => 0xFFFFFFFFFFFFFFFF#64
  | .taskAccept _ => 0xFFFFFFFFFFFFFFFF#64
  | .taskPlace _ _ => 0xFFFFFFFFFFFFFFFF#64
  | .taskComplete _ _ => 0xFFFFFFFFFFFFFFFF#64
  | .taskPreempt _ _ => 0xFFFFFFFFFFFFFFFF#64
  | .patrolScrub _ => 0xFFFFFFFFFFFFFFFF#64
  | .tickBoundary _ => 0xFFFFFFFFFFFFFFFF#64
  | .tickBatchAdmit _ => 0xFFFFFFFFFFFFFFFF#64
  | .krytlinkPacketDeliver _ _ => 0xFFFFFFFFFFFFFFFF#64
  | .clockOffsetExceeded _ => 0xFFFFFFFFFFFFFFFF#64
  | .portFailure _ _ => 0xFFFFFFFFFFFFFFFF#64
  | .hostBar2Write _ _ _ => 0xFFFFFFFFFFFFFFFF#64
  | .hostBar2Read _ _ _ => 0xFFFFFFFFFFFFFFFF#64
  | .claim _ _ _ => 0xFFFFFFFFFFFFFFFF#64
  | .claimHandover _ _ _ => 0xFFFFFFFFFFFFFFFF#64
  | .devreset _ _ _ => 0xFFFFFFFFFFFFFFFF#64
  | .submit _ _ _ => 0xFFFFFFFFFFFFFFFF#64
  | .bootsrc _ _ _ => 0xFFFFFFFFFFFFFFFF#64
  | .bootdone _ _ _ => 0xFFFFFFFFFFFFFFFF#64
  | .deviceRegisterWrite _ _ _ _ => 0xFFFFFFFFFFFFFFFF#64
  | .deviceReset _ => 0xFFFFFFFFFFFFFFFF#64
  | .bootSourceTimeout _ => 0xFFFFFFFFFFFFFFFF#64
  | .bootFetchComplete _ _ _ => 0xFFFFFFFFFFFFFFFF#64
  | .bootNetworkTimeout _ => 0xFFFFFFFFFFFFFFFF#64
  | .bootImageTimeout _ => 0xFFFFFFFFFFFFFFFF#64
  | .powerCapOvershoot _ => 0xFFFFFFFFFFFFFFFF#64
  | .thermalThrottle _ => 0xFFFFFFFFFFFFFFFF#64
  | .thermalTrip _ => 0xFFFFFFFFFFFFFFFF#64
  | .debugStop _ _ => 0xFFFFFFFFFFFFFFFF#64
  | .debugStep _ _ _ => 0xFFFFFFFFFFFFFFFF#64
  | .debugResume _ _ => 0xFFFFFFFFFFFFFFFF#64
  | .ownerKill _ _ _ => 0xFFFFFFFFFFFFFFFF#64
  | .powerCapExceeded _ => 0xFFFFFFFFFFFFFFFF#64
  | .powerCapCleared _ => 0xFFFFFFFFFFFFFFFF#64

/-! ### The decoder -/

/-- The decoder.  An undefined class or opcode is ILLOP (R43).  A word of a defined class and opcode is ILLFLD when
any bit it does not use is set, which is when it differs from its own encoding, or when a field holds a value that
R27 to R42 reject (R44). -/
def decode (w : Word) : Except Reject Instr :=
  match instrFields w with
  | none => .error .illop
  | some i => if encode i == w && i.wf then .ok i else .error .illfld

/-- The word that a row of the opcode table is asked about; the stream is 64-bit words (R25), so a word of fewer
table bits is filled with zeros above. -/
def decodeTableWord (_nbits w : Nat) : Option Instr :=
  match decode (BitVec.ofNat 64 w) with
  | .ok i => some i
  | .error _ => none

/-! ### Edge-body words (02 R42, 17 R311, R312) -/

/-- An edge-body form; `a`, `b`, `c` are the temporaries of R312. -/
inductive EdgeForm where
  | eget (a : BitVec 3) (what : BitVec 3) (index : BitVec 2)
  | eadd (flt : Bool) (a b c : BitVec 3)
  | emul (flt : Bool) (a b c : BitVec 3)
  | emin (flt : Bool) (a b c : BitVec 3)
  | emax (flt : Bool) (a b c : BitVec 3)
  | esel (a b c : BitVec 3)
  | ecmp (rel : BitVec 2) (flt : Bool) (a b c : BitVec 3)
  | eput (op : BitVec 2) (a b : BitVec 3) (prop : BitVec 2)
  | eact (b : BitVec 3)
  | eend
  deriving DecidableEq, Repr

/-- The index limits of EGET's sources (R311). -/
def EdgeForm.wf : EdgeForm → Bool
  | .eget _ what index =>
    match what.toNat with
    | 0 | 1 | 5 => true
    | 2 => decide (index.toNat ≤ 1)
    | 3 | 4 | 6 | 7 => index == 0
    | _ => false
  | _ => true

/-- The token, stamp and ordering-class fields of a body word are zero (R42, R30). -/
def EHead.none : EHead := { give := 0, take1 := 0, take2 := 0, take3 := 0, stamp := 0 }

/-- The word of an edge-body form (R314). -/
def encodeBody : EdgeForm → Word
  | .eget a what index => encE 11 0x10 0 .none (a.setWidth 6) (what.setWidth 6) (index.setWidth 6) 0 false
  | .eadd flt a b c => encE 11 0x11 0 .none (a.setWidth 6) (b.setWidth 6) (c.setWidth 6) (0#6 ++ BitVec.ofBool flt) false
  | .emul flt a b c => encE 11 0x12 0 .none (a.setWidth 6) (b.setWidth 6) (c.setWidth 6) (0#6 ++ BitVec.ofBool flt) false
  | .emin flt a b c => encE 11 0x13 0 .none (a.setWidth 6) (b.setWidth 6) (c.setWidth 6) (0#6 ++ BitVec.ofBool flt) false
  | .emax flt a b c => encE 11 0x14 0 .none (a.setWidth 6) (b.setWidth 6) (c.setWidth 6) (0#6 ++ BitVec.ofBool flt) false
  | .esel a b c => encE 11 0x15 0 .none (a.setWidth 6) (b.setWidth 6) (c.setWidth 6) 0 false
  | .ecmp rel flt a b c =>
    encE 11 0x16 0 .none (a.setWidth 6) (b.setWidth 6) (c.setWidth 6) (0#4 ++ rel ++ BitVec.ofBool flt) false
  | .eput op a b prop => encE 11 0x17 0 .none (a.setWidth 6) (b.setWidth 6) (prop.setWidth 6) (0#5 ++ op) false
  | .eact b => encE 11 0x18 0 .none 0 (b.setWidth 6) 0 0 false
  | .eend => encE 11 0x19 0 .none 0 0 0 0 false

/-- The form that a body word's opcode and fields name. -/
def bodyFields (w : Word) : Option EdgeForm :=
  let a := w.extractLsb' 20 3
  let b := w.extractLsb' 14 3
  let c := w.extractLsb' 8 3
  match (wordOp w).toNat with
  | 0x10 => some (.eget a b (w.extractLsb' 8 2))
  | 0x11 => some (.eadd (w.getLsbD 1) a b c)
  | 0x12 => some (.emul (w.getLsbD 1) a b c)
  | 0x13 => some (.emin (w.getLsbD 1) a b c)
  | 0x14 => some (.emax (w.getLsbD 1) a b c)
  | 0x15 => some (.esel a b c)
  | 0x16 => some (.ecmp (w.extractLsb' 2 2) (w.getLsbD 1) a b c)
  | 0x17 => some (.eput (w.extractLsb' 1 2) a b (w.extractLsb' 8 2))
  | 0x18 => some (.eact b)
  | 0x19 => some .eend
  | _ => none

/-- Decoding a word inside an edge body: any word that is not an edge-body form is ILLOP (R42). -/
def decodeBody (w : Word) : Except Reject EdgeForm :=
  if wordClass w != 11#4 then .error .illop
  else match bodyFields w with
    | none => .error .illop
    | some form => if encodeBody form == w && form.wf then .ok form else .error .illfld

end Sys2Proof
end

