-- ==== Sys2Proof/Machine/State.lean ====
section
/-! DEFINITION. The state of the machine as plain data: the unit whose turn it is, the other units, the devices,
and the storage of the shelf (INVENTORY.md, State).  The unit and device records hold every register and every
queue the manual names; `agenda` says which agent moves next. -/
namespace Sys2Proof.Machine
open Sys2Proof

/-! ### Why a step stops -/

/-- The reasons the machine stops with a fault. -/
inductive Fault where
  /-- The agenda names a unit or a device that is not on the shelf.  Raised by the events.  Safe: no state follows. -/
  | notPermitted (what : String)
  deriving DecidableEq, Repr

/-- The reasons a step is refused. -/
inductive Refusal where
  /-- The instruction has no meaning yet.  Raised by `exec` only.  Safe. -/
  | notModelled (mnemonic : String)
  deriving DecidableEq, Repr

/-! ### Traps -/

/-- The trap causes of R383 that are delivered.  `bufferFull` and `notYet` are no traps of their own: the first marks a write that does not fit
its release buffer, and ends in a meeting or in containment event 4 (20 R361, R378), the second a read that may not be admitted yet, which its
command tries again (16 R290). -/
inductive Cause where
  | illop | illfld | priv | idivz | fpexc | align | xlatf | protv | secviol | capovf | setviol | phaseovl
  | overrun | shadow | replmism | katfail | cmdmism | uncorr | ringerr | clasperr | linkfail | swtrap | brkpt
  | bufferFull | notYet
  deriving DecidableEq, Repr

/-- A trap that has been raised: its cause, the queue code of R382, whether it goes through the cut, TVAL, the
XSTAT it writes if any, and where TRET points when that is not the oldest uncommitted instruction (SWTRAP, R385). -/
structure Trap where
  cause : Cause
  queue : BitVec 3
  cut   : Bool
  tval  : Word
  xstat : Option Word
  tret  : Option Word
  deriving DecidableEq, Repr

/-! ### Storage -/

/-- Storage as bytes listed at strictly rising addresses.  Addresses below 2^48 are device memory by its
direct-window shelf physical address; from 2^48 on, the section SRAM banks (`sramBase` in Ops). -/
abbrev Memory := List Host.Cell

/-- The place of a contribution in an ordered reduction (12 R244): task, stream, slot, width, and whether it is its
command's last one to the line. -/
structure OrdTag where
  task   : BitVec 32
  stream : Nat
  slot   : Nat
  width  : Nat
  last   : Bool
  deriving DecidableEq, Repr

/-- A release that a write carries (16 R295, R298): who released, at which scope, and the writes of its K that are
transferred (R299), by their ids. -/
structure Release where
  gid   : Gid
  scope : BitVec 3
  ids   : List Nat
  deriving DecidableEq, Repr

/-- A step-cache tag-store entry (17 R327). -/
structure StepEntry where
  valid   : Bool
  tag     : Word
  inFmt   : BitVec 4
  inRows  : Nat
  inCols  : Nat
  outFmt  : BitVec 4
  outRows : Nat
  outCols : Nat
  pins    : List Gid
  recency : Nat
  deriving DecidableEq, Repr

/-- What an access does at its home (16 R288): it writes; it writes the device register at an offset
(03 R67); it is the load of this number, of `n` bytes, or a prefetch, which brings its sector into the L1 or only to its home (04 R88); it is
update `slot` of a started command, which waits for the bytes that it finds (17 R313); it is a reduction of one element of which the first `k`
bytes lie at its address and the others at `addr`, and whether it is its command's last one to that second line (12 R243, R244); it is the request of this number to a clasp engine, on
the entry `key`, which may write there or only reads (16 R303); it is the run of `n` bytes of a send or of a collective that a command moves to another device (14 R264); it writes
both tiles and the tag of a step-cache entry (12 R245); or it stands for the accesses of a started command that have not been made. -/
inductive Want where
  | write
  | load (num n : Nat)
  | register (off : Nat)
  | prefetch (l1 : Bool)
  | atomic (slot : Nat)
  | apart (k addr : Nat) (last : Bool)
  | request (num key : Nat) (writes : Bool)
  | message (n : Nat)
  | record (entry : Nat) (e : StepEntry) (result : List Byte)
  | held
  deriving DecidableEq, Repr

/-- An access of a unit that has not performed: its ordering class, place and bytes (none of a load or a request), the command it belongs
to, the scope and mask of the release it carries when it is a carrier (16 R288, R295), the releases it transports once it has
left, for a reduction its operation and format, the bytes then being the operand (12 R243), whether a task that has left the unit made
it (16 R299), and for a section-homed line the section, counted over the device (03 R68). -/
structure Access where
  gid     : Gid
  want    : Want
  cls     : BitVec 4
  addr    : Nat
  data    : List Byte
  command : Option (BitVec 3 × BitVec 32)
  carrier : Option (BitVec 3 × BitVec 16)
  release : List Release
  reduce  : Option (BitVec 3 × BitVec 4)
  ord     : Option OrdTag
  orphan  : Bool
  sect    : Option Nat := none
  deriving DecidableEq, Repr

/-- A write admitted at its home that the machine has not yet widened to the shelf (16 R292): its horizon, who has
seen which of its bytes regardless of the horizon, the release sequences it stands in (R298), and whether a task that has left its unit made it (R299). -/
structure WriteRec where
  id      : Nat
  gid     : Gid
  cls     : BitVec 4
  addr    : Nat
  data    : List Byte
  command : Option (BitVec 3 × BitVec 32)
  horizon : BitVec 3
  seenBy  : List (Gid × Nat)
  release : List Release
  orphan  : Bool
  deriving DecidableEq, Repr

/-! ### A unit -/

/-- What a load writes: a scalar register, by size and extension, or a descriptor register (04 R85, R94). -/
inductive LoadDest where
  | scalar (a : Reg) (size : BitVec 2) (sx : Bool)
  | descr (a : DReg)
  deriving DecidableEq, Repr

/-- How a load reaches its bytes: the default path through the L1, the home, a scratch bank (04 R79, R83). -/
inductive LoadPath where
  | cached | home | scratch
  deriving DecidableEq, Repr

/-- A load whose access has not returned (06 R125): `n` bytes at home address `addr`; `sent` is its number once it stands in its class
queue or beyond (16 R288), `sect` the section of a section-homed line. (DEDUCED, log 7) -/
structure HeldLoad where
  cls  : BitVec 4
  path : LoadPath
  va   : Word
  addr : Nat
  n    : Nat
  dest : LoadDest
  sent : Option Nat
  sect : Option Nat := none
  deriving DecidableEq, Repr

/-- The registers that an uncommitted sequencer instruction may write (06 R125, R126); `waits` names those that await a load
that has not left, with the load's number. -/
structure SeqRegs where
  waits  : List (BitVec 32 × LoadDest)
  s      : Vector Word 64
  d      : Vector Desc 32
  fstat  : Word
  lcount : Word
  llimit : Word
  lbody  : Word
  ftbase : BitVec 4
  deriving DecidableEq, Repr

/-- The trap and system registers of R381, R385 and R398 that are not in `SeqRegs`. -/
structure SysRegs where
  tlevel  : BitVec 2
  tvec    : Word
  tsave   : Word
  tcause1 : Word
  tret1   : Word
  tval1   : Word
  tsp1    : Word
  tcause2 : Word
  tret2   : Word
  tval2   : Word
  tsp2    : Word
  qcut    : Vector (BitVec 32) 7
  qprogL  : Word
  qprogW  : Word
  qprogE  : Word
  xstat   : Word
  cstat   : Word
  xbase   : Word
  mslip   : Word
  inherit : Word
  remain  : Word
  stephit   : Word
  stepmiss  : Word
  stepevict : Word
  katTests  : Word
  katFails  : Word
  katLast   : Word
  deriving DecidableEq, Repr

/-- One aligned 16-byte piece of a write, as its signature record names it (20 R362); `kind` and `op` are the record's
kind and sub-operation. -/
structure SigPiece where
  base : Nat
  mask : BitVec 16
  cls  : BitVec 4
  kind : BitVec 4
  op   : Byte
  data : List Byte
  deriving DecidableEq, Repr

/-- A command as its push captured it (06 R126, R127): the instruction, its queue and number, its word's address,
the loop registers, the descriptor and scalar snapshots with TBL codes and presets resolved, and the plate data the
command names.  `extra` is the index list of CPROW and CPSCT, the metadata of MMAS or the result tile of SCREC;
`flags` are those of the units a stopped command has completed (07 R159), `resume` its progress when it goes on after
a stop (05 R120), `engine` the quire whose engine runs it (19 R353), `depth` the containment regions it stands in, `due` its
stamped start cycle (06 R135), `empty` that its operands are all empty (02 R50), `carrier` the release that its writes carry
(16 R295), `trace` the pieces it has written for its signature records (20 R364), `deferred` the ordered updates of an ERUN not yet
sent: property, address and operand (17 R320), `counted` that an SCREC has counted its eviction (17 R329), `written` how many bytes of
its present write a full release buffer has let in (20 R360), `placed` that it has passed the check of its ring slots at its start (12 R258),
and `number` the number that a collective took at its start, with the generation that counts it (14 R275). -/
structure Command where
  instr   : Instr
  queue   : BitVec 3
  num     : BitVec 32
  pc      : Word
  lcount  : Word
  llimit  : Word
  lbody   : Word
  handler : Bool
  phase   : BitVec 3
  da      : Desc
  db      : Desc
  dc      : Desc
  extra   : Desc
  scalar  : Word
  fmt     : BitVec 4
  pattern : BitVec 576
  stream  : BitVec 32
  commGen : BitVec 32
  body    : List EdgeForm
  engine  : Gid
  depth   : Nat
  due     : Nat
  empty   : Bool
  flags   : BitVec 5
  resume  : Option Nat
  carrier : Option (BitVec 3 × BitVec 16)
  trace   : List SigPiece
  deferred : List (Nat × Nat × Nat)
  counted : Bool
  written : Nat
  placed  : Bool
  number  : Option (BitVec 32 × Nat)
  deriving DecidableEq, Repr

/-- A started command that has not retired: the replies it still owes, the flags it ORs, the pieces it has written,
whether it still waits for a peer before it can complete (09 R201, 14 R277, R279), whether accesses of its set have still to be made
(16 R288) and the pieces it has read for them, by home address and length, the cycle before which it does not retire (05 R100), that in which a matrix command begins to feed and that in which it has
fed (09 R198), the vector registers as its writes found them (08 R176), the writes that its reads returned, by id and class (16 R297), and the
queue that it gives its token to, and `formerAcc` is the accumulator store as its first write found it (09 R200). -/
structure Inflight where
  command : Command
  replies : List Word
  flags   : BitVec 5
  trace   : List SigPiece
  waiting : Bool
  todo    : Bool
  got     : List (Nat × List Byte)
  until_  : Nat
  feed    : Nat
  fed     : Nat
  former  : List (Nat × BitVec 4096)
  reads   : List (Nat × BitVec 4)
  gives   : BitVec 3
  formerAcc : Option Memory
  deriving DecidableEq, Repr

/-- One entry of the commit window: the address of an instruction that has executed and not committed, the registers
before it, the command it pushed, the store it holds back with its signature records, the load that has not returned, and the cycle in
which it has completed (06 R124, R125). -/
structure WinEntry where
  pc     : Word
  before : SeqRegs
  push   : Option (BitVec 3 × BitVec 32)
  store  : Option (Access × List (List Byte))
  load   : Option HeldLoad
  done   : Nat
  deriving DecidableEq, Repr

/-- A 128-byte sector copy (04 R82), by sector number, with the writes that the home read returned, by id (16 R294, R297); `barred` are its
aligned 8 bytes of which the unit has since read another value at the home, and which answer no load any more (04 R83). -/
structure SectorCopy where
  sector : Nat
  data   : List Byte
  from_  : List Nat
  barred : List Nat
  deriving DecidableEq, Repr

/-- A cached translation (03 R71): the page's virtual base, size and entry, under the table base it was walked from. -/
structure TlbEntry where
  xbase : Word
  vbase : Nat
  size  : Nat
  frame : Nat
  entry : Word
  deriving DecidableEq, Repr

/-- The edge binding that EBIND leaves (17 R315): the record's bytes as read, its address, the body and last mode. -/
structure Binding where
  va       : Word
  record   : BitVec 2048
  body     : List EdgeForm
  lastPull : Bool
  deriving DecidableEq, Repr

/-- An open containment region (20 R376). -/
structure Region where
  handler  : Word
  buffered : Bool
  deriving DecidableEq, Repr

/-- A buffered write of a replica or a buffered region (20 R359, R378); `depth` is the region depth it belongs to. -/
structure BufWrite where
  access : Access
  depth  : Nat
  deriving DecidableEq, Repr

/-- A signature record of a buffered region, which enters its lane when the region's writes reach the quire's own
buffer (20 R380). -/
structure HeldSig where
  queue  : BitVec 3
  record : List Byte
  depth  : Nat
  deriving DecidableEq, Repr

/-- The signature records of a retired command that wait until every earlier command of its queue has entered its own (20 R364); `depth`
is the region depth of the command. -/
structure SigWait where
  queue   : BitVec 3
  num     : BitVec 32
  depth   : Nat
  records : List (List Byte)
  deriving DecidableEq, Repr

/-- A trap whose cut has been formed and whose record waits for the started commands (21 R385): the region depth of what raised it, and
whether what raised it raises it again after the return. -/
structure Cutting where
  trap  : Trap
  depth : Nat
  again : Bool
  deriving DecidableEq, Repr

/-- A request at a clasp engine that has left and waits (12 R254, R255, R259): its number, its granule or ring, the unit's cycle at which it
last looked, whether it was woken, or for a ring its binding was undone, whether it has been served and goes on waiting, its class, and the
releases that it carries as they stood when it left its class queue (16 R299). -/
structure Waiting where
  num    : Nat
  key    : Nat
  since  : Nat
  woken  : Bool
  served : Bool
  cls    : BitVec 4
  releases : List Release
  deriving DecidableEq, Repr

/-- The team join of a quire (09 R201): the region's base, stride, columns and rows, and whether this quire leads. -/
structure TeamJoin where
  lead    : Bool
  base    : Word
  stride  : BitVec 32
  columns : BitVec 24
  rows    : BitVec 24
  deriving DecidableEq, Repr

/-- What a unit is doing. -/
inductive RunState where
  /-- no task is placed -/
  | idle
  /-- executing -/
  | running
  /-- it executed EXIT and waits for the task's other quires, with s[B] (19 R343) -/
  | exited (successor : Word)
  /-- HALT (21 R403) -/
  | halted
  /-- stopped by a context kill; on a system core, until the owner restarts it (21 R394) -/
  | dead
  deriving DecidableEq, Repr

/-- What the debug port holds a unit to (21 R397): nothing; stopped; or one step, by engine step or not, counted from the instructions
executed, the trap level and the queue numbers at its beginning. -/
inductive Debug where
  | off
  | stopped
  | step (engine : Bool) (count : BitVec 32) (level : BitVec 2) (nums : Vector (BitVec 32) 7)
  deriving DecidableEq, Repr

/-- The state of the shadow plate (19 R348). -/
inductive PlateLoad where
  | complete
  | loading (va : Word)
  | failed (trap : Trap)
  deriving DecidableEq, Repr

/-- A quire or a system core (01 R15, R16; 16 R285).  `carrier` is the release that its later writes carry (16 R295),
`handed` that release at each token from S still in its FIFO, `given` the commands whose tokens wait for S and `taken` those
whose token it took (04 R86).  `presented` is the signature it has presented at a replica meeting
that has not been decided, `time` its cycles since placement (DESIGN CHOICE, log 5), `waitingAt` the queue code of what waits for the meeting (0 none, 1 an instruction, else an
engine's command), `met` that the meeting has ended with a match (20 R361).  `busy` is the cycle before which the sequencer issues nothing
(04 R87, 21 R388, R392), `justGiven` the FIFOs that received a token in the present cycle (06 R128), `permute` the cycle in which the
permute slot is free (08 R188), `arrived` that the request it waits with has reached its clasp engine (16 R303), `readGiven` what the
commands of `given` had read, `readRings` the releases that stand in the ring counters it has read (16 R297).  `replyOf` names the commands of the
reply entries, `metBelow` tells for each trap level that is entered whether the instruction it interrupted had met, `unsigned` is the S lane
before the record of the request that is presented (20 R361), `idleSince` the cycle since which each engine has had no command (19 R352), and
`sailing` the classes of the stores that a prompt machine has made, each with the cycle in which it performs (01 R21). -/
structure Unit extends SeqRegs, SysRegs where
  gid      : Gid
  run      : RunState
  debug    : Debug
  pc       : Word
  raised   : Option Trap
  cutting  : Option Cutting
  v        : Vector (BitVec 4096) 64
  m        : Vector Word 8
  acc      : Memory
  accEpoch : Nat
  replies  : List Word
  replyOf  : List (BitVec 3 × BitVec 32)
  tokens   : Vector (Vector Nat 7) 7
  queues   : Vector (List Command) 7
  nextNum  : Vector (BitVec 32) 7
  parked   : List Command
  inflight : List Inflight
  window   : List WinEntry
  committed : BitVec 32
  phase    : BitVec 3
  plate    : BitVec 16384
  shadow   : BitVec 16384
  load     : PlateLoad
  time     : Nat
  frameAt  : Option Nat
  fresh    : Vector Bool 7
  lastStart : Vector Nat 7
  ready    : Vector Nat 64
  dready   : Vector Nat 32
  vready   : Vector Nat 64
  mready   : Vector Nat 8
  binding  : Option Binding
  l1       : List SectorCopy
  l0       : List SectorCopy
  tlb      : List TlbEntry
  classQ   : List Access
  carrier  : Option (BitVec 3 × BitVec 16)
  handed   : List (BitVec 3 × Option (BitVec 3 × BitVec 16))
  given    : List (BitVec 3 × BitVec 32)
  taken    : List (BitVec 3 × BitVec 32)
  justGiven : List (BitVec 3 × BitVec 3)
  readGiven : List (BitVec 3 × List (Nat × BitVec 4))
  busy     : Nat
  permute  : Nat
  arrived  : Bool
  readFrom : List (Nat × BitVec 4)
  readRings : List (BitVec 4 × Release)
  known    : List Nat
  regions  : List Region
  relBuf   : List BufWrite
  heldSigs : List HeldSig
  sigWait  : List SigWait
  meeting  : Nat
  presented : Option (Word × Word)
  waitingAt : BitVec 3
  met      : Bool
  metBelow : List Bool
  unsigned : Option (Word × Word)
  lastSigs : Vector (Word × Word) 3
  lanes    : Vector (Word × Word) 7
  ndCount  : Nat
  ndValue  : Option Word
  ndResult : Option Word
  claspCount : Nat
  binderCount : Nat
  wait     : Option Waiting
  task     : Option (BitVec 32)
  taskDev  : Dev
  rank     : Nat
  replica  : Nat
  secure   : Bool
  join     : Option TeamJoin
  joining  : Option (Bool × TeamJoin)
  live     : Nat
  lost     : List (BitVec 4 × Word)
  idleFrom : Option Nat
  idleSince : Vector Nat 7
  sailing  : List (BitVec 4 × Nat)
  deriving DecidableEq, Repr

/-! ### A device -/

/-- A section bank (04 R78, R89): its mode code, the owning task, the mode of a change in progress with the unit that asked
for it, whether the change has begun, the cycle of its unit in which it ends (04 R92), and whether the unit's BANKMODE has committed.
`epoch` tells one span of undefined contents from another. -/
structure Bank where
  mode     : BitVec 3
  owner    : Option (BitVec 32)
  changing : Option (BitVec 3)
  asker    : Gid
  begun    : Bool
  ends     : Nat
  told     : Bool
  epoch    : Nat
  deriving DecidableEq, Repr

/-- A bound ring (12 R256, R257): configuration, counters, the committed tickets at or beyond tail, and the releases that
its tail, its head and its claimed counter carry (16 R295, R298). -/
structure Ring where
  config    : Word
  claimed   : BitVec 32
  tail      : BitVec 32
  head      : BitVec 32
  committed : List (BitVec 32)
  releases  : List Release
  headReleases  : List Release
  claimReleases : List Release
  deriving DecidableEq, Repr

/-- An open round of an ordered reduction (12 R244); `home` is the slice or the section whose reduction unit holds it. -/
structure OrdEntry where
  home   : Nat
  task   : BitVec 32
  stream : Nat
  line   : Nat
  next   : Nat
  width  : Nat
  deriving DecidableEq, Repr

/-- The state of a task on its binder (19 R334). -/
inductive TaskState where
  | accepted | waiting | eligible | running | checkpointed | completed | killed | rejected
  deriving DecidableEq, Repr

/-- A task of the binder (19 R333-R344): its id, record, fields read at acceptance, plate, and progress.  `order` is the number
of its placement, `units` its quires, the lead replica's first, `former` those of replicas that it has lost, `releases` what the write or the count that made it placeable
carries (R342), `saved`, `sram`, `modes` and `tags` what a checkpoint holds: its quires, and its banks with their modes and step-cache entries, by section of
the task and bank or entry (21 R396). -/
structure Task where
  id        : BitVec 32
  record    : Nat
  fields    : BitVec 2048
  plate     : BitVec 16384
  tvec      : Word
  tsave     : Word
  tstride   : Word
  state     : TaskState
  order     : Nat
  tokens    : Word
  units     : List Gid
  former    : List Gid
  decremented : List Nat
  releases  : List Release
  saved     : List Unit
  sram      : List (Nat × Memory)
  modes     : List (Nat × BitVec 3)
  tags      : List (Nat × StepEntry)
  votes     : Nat
  deriving DecidableEq, Repr

/-- A submitted record that the binder has not yet read: its address and who submitted it (19 R335, R337). -/
structure Submission where
  record : Nat
  secure : Bool
  gid    : Option Gid
  deriving DecidableEq, Repr

/-- An access in flight on a Krytlink flow (14 R265), with the hops of its route, the tick whose batch its last flit belongs to, how many of its
flits that batch carries, the tick of its first flit, the ports of its path in TICK mode, each with its device, and the writes of its command
to the same sector that travel with it (14 R264, R267). -/
structure Packet where
  src    : Dev
  dst    : Dev
  tick   : Nat
  hops   : Nat
  access : Access
  first  : Nat
  flits  : Nat
  ports  : List (Dev × Nat)
  more   : List Access
  deriving DecidableEq, Repr

/-- What has become of a send or a post (14 R279): it is on its flow, it waits for its match, its bytes
enter the buffer, it was matched, or the send exceeds the post. -/
inductive PostState where
  | travelling | pending | filling | matched | tooLong
  deriving DecidableEq, Repr

/-- A posted receive or a waiting send (14 R279); a receive that is being filled names its send and holds its bytes. -/
structure Post where
  gid     : Gid
  comm    : Nat
  tag     : BitVec 32
  any     : Bool
  rank    : Nat
  gen     : BitVec 32
  command : Command
  data    : List Byte
  state   : PostState
  peer    : Option (Gid × BitVec 32)
  deriving DecidableEq, Repr

/-- A member's contribution to a collective (14 R275), with its command's number; `arrived` once it has reached the device of rank 0, `returned`
once the result has reached the member's device (14 R264), and `taken` once that member has the result. -/
structure Contribution where
  comm   : Nat
  gen    : BitVec 32
  number : Nat
  rank   : Nat
  gid    : Gid
  command : BitVec 32
  kind   : BitVec 3
  arr    : Bool
  root   : Nat
  fmt    : BitVec 4
  rows   : Nat
  cols   : Nat
  data   : List Nat
  arrived : Bool
  returned : Bool
  taken  : Bool
  deriving DecidableEq, Repr

/-- A member's own count of collectives on a communicator in a generation (14 R275). -/
structure CollCount where
  comm  : Nat
  gen   : BitVec 32
  count : Nat
  deriving DecidableEq, Repr

/-- A clasp arrival record (12 R254): the granule, the quire and the generation it arrived in. -/
structure Arrival where
  granule : Nat
  gid     : Gid
  gen     : BitVec 32
  deriving DecidableEq, Repr

/-- The latency of a request (01 R21): the typical figure, after which it has returned, and the bound, which framed mode counts (12 R252). -/
structure Latency where
  typical : Nat
  bound   : Nat
  deriving DecidableEq, Repr

/-- A request that a replica has made, in the arrival record that the clasp engine or the binder keeps (20 R368): its number among the quire's
requests to either, and the fields in which it has to agree with its peers'. -/
structure ReplicaArrival where
  gid    : Gid
  binder : Bool
  number : Nat
  record : List Byte
  deriving DecidableEq, Repr

/-- A request that one replica has performed for its peers (20 R368): its arrival, its value, its latency and the flags it raised. -/
structure ReplicaRequest where
  arrival : ReplicaArrival
  value   : Word
  lat     : Latency
  flags   : BitVec 5
  deriving DecidableEq, Repr

/-- The boot progress of a device (23 R419-R422). -/
inductive BootStage where
  /-- waiting for a source; `host` when the host has written BOOTSRC since the previous attempt -/
  | choosing
  | fetching (fromHost : Bool)
  | started (fromHost : Bool) (raiseTo : Option Nat)
  | done
  | minimal
  deriving DecidableEq, Repr

/-- One device of the shelf.  `halted` tells that its clock has drifted and it transmits nothing, `wrote` the cycle of the latest register write with the master that made it (23 R414),
`failures` the ports that have failed, once for each failure (14 R263), `stopped` the flows of a ROUTE device that
failed, each with its port, until their routes are loaded again (14 R268, R269).  `queue` holds the ids of the tasks in the binder's priority queues in the order they entered, `reserved` the
quires that a draining task keeps for a newcomer (19 R335, R355).  `num` tells the devices of the shelf apart, and `number` is what
the owner has written to DEVNUM since the device's reset, which every program sees (01 R19; DESIGN CHOICE, log 21). -/
structure Device where
  num      : Dev
  number   : Option Dev
  regs     : List (Nat × Word)
  boot     : BootStage
  srcWritten : Bool
  image    : List Byte
  since    : Nat
  banks    : List (Nat × Bank)
  steps    : List (Nat × StepEntry)
  stepTick : List (Nat × Nat)
  rings    : List (Nat × Ring)
  ordered  : List OrdEntry
  held     : List Access
  arrivals : List Arrival
  resident : List Nat
  spilled  : List Nat
  tlb      : List (Nat × TlbEntry)
  tasks    : List Task
  submissions : List Submission
  nextId   : BitVec 32
  nextOrder : Nat
  queue    : List (BitVec 32)
  reserved : List (Gid × BitVec 32)
  tick     : Nat
  halted   : Bool
  stopped  : List (Dev × Nat)
  posts    : List Post
  sends    : List Post
  contribs : List Contribution
  collCount : List CollCount
  msix     : List Nat
  hostData : List Byte
  throttle : Bool
  wrote    : Option (Nat × Nat)
  failures : List Nat
  deriving DecidableEq, Repr

/-! ### The shelf -/

/-- Who moves next: a unit takes its turn, or an event of the table happens. (DESIGN CHOICE, log 14) -/
inductive Turn where
  | unit (gid : Gid)
  | event (e : Instr)
  deriving DecidableEq, Repr

/-- The state of the shelf.  `agenda` and `prompt` are the model's own: which agents move next, and whether every
internal step is taken as soon as it may be (DESIGN CHOICE, log 4); `clasps` are the clasp queues, the requests that have arrived by their
unit and the key of their granule or ring (16 R285, R303); `asked` holds the requests of replicas that have arrived, `requests` those performed
(20 R368);
`clock` counts cycles of the 1.25 GHz clock (DESIGN CHOICE, log 5); `free` numbers the free values used so far (DESIGN CHOICE, log 3). -/
structure State where
  cur      : Unit
  others   : List Unit
  devs     : List Device
  mem      : Memory
  poison   : List Nat
  latent   : List (Nat × Nat)
  pend     : List WriteRec
  admQ     : List Access
  flows    : List Packet
  clasps   : List (Gid × Nat)
  asked    : List ReplicaArrival
  requests : List ReplicaRequest
  nextWrite : Nat
  agenda   : List Turn
  prompt   : Bool
  clock    : Nat
  free     : Nat
  deriving DecidableEq, Repr

/-! ### Reset -/

/-- The zero plate: every byte zero except the length, 0x800 (19 R345). -/
def zeroPlate : BitVec 16384 := 0x800#16384

/-- A quire or core right after reset: no task is placed, every queue and cache is empty, and every register the
manual gives no reset value holds zero (DESIGN CHOICE, log 2). -/
def Unit.atReset (gid : Gid) : Unit where
  waits := []
  s := Vector.replicate 64 0
  d := Vector.replicate 32 0
  fstat := 0
  lcount := 0
  llimit := 0
  lbody := 0
  ftbase := 0
  tlevel := 0
  tvec := 0
  tsave := 0
  tcause1 := 0
  tret1 := 0
  tval1 := 0
  tsp1 := 0
  tcause2 := 0
  tret2 := 0
  tval2 := 0
  tsp2 := 0
  qcut := Vector.replicate 7 0
  qprogL := 0
  qprogW := 0
  qprogE := 0
  xstat := 0
  cstat := 0
  xbase := 0
  mslip := 0
  inherit := 0
  remain := 0
  stephit := 0
  stepmiss := 0
  stepevict := 0
  katTests := 0
  katFails := 0
  katLast := 0
  gid := gid
  run := .idle
  debug := .off
  pc := 0
  raised := none
  cutting := none
  v := Vector.replicate 64 0
  m := Vector.replicate 8 0
  acc := []
  accEpoch := 0
  replies := []
  replyOf := []
  tokens := Vector.replicate 7 (Vector.replicate 7 0)
  queues := Vector.replicate 7 []
  nextNum := Vector.replicate 7 0
  parked := []
  inflight := []
  window := []
  committed := 0
  phase := 0
  plate := zeroPlate
  shadow := zeroPlate
  load := .complete
  time := 0
  frameAt := none
  fresh := Vector.replicate 7 true
  lastStart := Vector.replicate 7 0
  ready := Vector.replicate 64 0
  dready := Vector.replicate 32 0
  vready := Vector.replicate 64 0
  mready := Vector.replicate 8 0
  binding := none
  l1 := []
  l0 := []
  tlb := []
  classQ := []
  carrier := none
  handed := []
  given := []
  taken := []
  justGiven := []
  readGiven := []
  busy := 0
  permute := 0
  arrived := false
  readFrom := []
  readRings := []
  known := []
  regions := []
  relBuf := []
  heldSigs := []
  sigWait := []
  meeting := 0
  presented := none
  waitingAt := 0
  met := false
  metBelow := []
  unsigned := none
  lastSigs := Vector.replicate 3 (0, 0)
  lanes := Vector.replicate 7 (0xFFFFFFFFFFFFFFFF, 0xFFFFFFFFFFFFFFFF)
  ndCount := 0
  ndValue := none
  ndResult := none
  claspCount := 0
  binderCount := 0
  wait := none
  task := none
  taskDev := 0
  rank := 0
  replica := 0
  secure := false
  join := none
  joining := none
  live := 1
  lost := []
  idleFrom := none
  idleSince := Vector.replicate 7 0
  sailing := []

/-- A device right after reset (23 R415, R419): every register at its value after reset (an unlisted offset reads
its reset value, Ops), banks in SCRATCH mode (04 R78), nothing bound, queued or cached. -/
def Device.atReset (num : Dev) : Device where
  num := num
  number := none
  regs := []
  boot := .choosing
  srcWritten := false
  image := []
  since := 0
  banks := []
  steps := []
  stepTick := []
  rings := []
  ordered := []
  held := []
  arrivals := []
  resident := []
  spilled := []
  tlb := []
  tasks := []
  submissions := []
  nextId := 1
  nextOrder := 0
  queue := []
  reserved := []
  tick := 0
  halted := false
  stopped := []
  posts := []
  sends := []
  contribs := []
  collCount := []
  msix := []
  hostData := []
  throttle := false
  wrote := none
  failures := []

/-- The shelf right after reset: one device (DESIGN CHOICE, log 79), number 0 (R19), its quire 0 to move, memory with nothing listed. -/
def State.reset : State where
  cur := Unit.atReset 0
  others := []
  devs := [Device.atReset 0]
  mem := []
  poison := []
  latent := []
  pend := []
  admQ := []
  flows := []
  clasps := []
  asked := []
  requests := []
  nextWrite := 0
  agenda := []
  prompt := true
  clock := 0
  free := 0

end Sys2Proof.Machine
end

