-- ==== Sys2Proof/Machine/Bits.lean ====
section
/-! DEFINITION. Bit fields, byte order, integer readings (00 R4, R5, R8) and tables keyed by numbers. -/
namespace Sys2Proof.Machine
open Sys2Proof

/-! ### Bits and bytes (00 R4, R5) -/

/-- Field `lo+len-1 .. lo` of a value, as a number (R4). -/
def fld {n : Nat} (x : BitVec n) (lo len : Nat) : Nat := (x.extractLsb' lo len).toNat

/-- The low `n` bytes of `x`, little-endian (R5). -/
def leBytes (n x : Nat) : List Byte := (List.range n).map fun k => BitVec.ofNat 8 (x >>> (8 * k))

/-- The value of little-endian bytes (R5). -/
def fromLe (bs : List Byte) : Nat := bs.foldr (fun b acc => b.toNat + 256 * acc) 0

/-- `x` rounded up to a multiple of `m`. -/
def roundUp (x m : Nat) : Nat := (x + m - 1) / m * m

/-- `a / b` rounded up. -/
def ceilDiv (a b : Nat) : Nat := (a + b - 1) / b

/-- A two's-complement reading of the low `w` bits of `x`. -/
def toSigned (w x : Nat) : Int := if x % 2 ^ w < 2 ^ (w - 1) then (x % 2 ^ w : Nat) else (x % 2 ^ w : Nat) - (2 ^ w : Nat)

/-- `trunc_w` of an integer (R8). -/
def truncInt (w : Nat) (x : Int) : Nat := (x % (2 ^ w : Nat)).toNat

/-! ### Tables by number -/

/-- The value listed under `k`, or the default. -/
def tableGet {α : Type} (d : α) (l : List (Nat × α)) (k : Nat) : α := (l.lookup k).getD d

/-- Lists `x` under `k`, in rising order of keys. -/
def tablePut {α : Type} (l : List (Nat × α)) (k : Nat) (x : α) : List (Nat × α) :=
  l.filter (fun e => decide (e.1 < k)) ++ (k, x) :: l.filter (fun e => decide (k < e.1))

/-! ### Elements -/

/-- The elements of a run of bytes, in a width of 4 to 64 bits; of two 4-bit elements the low nibble is first (R152). -/
def bytesToElems (w : Nat) (bs : List Byte) : List Nat :=
  if w = 4 then bs.flatMap fun b => [b.toNat % 16, b.toNat / 16]
  else
    let e := w / 8
    (List.range (bs.length / e)).map fun i => fromLe ((bs.drop (e * i)).take e)

/-- Pairs of nibbles as bytes. -/
def nibbleBytes : List Nat → List Byte
  | a :: b :: rest => BitVec.ofNat 8 (a % 16 + 16 * (b % 16)) :: nibbleBytes rest
  | [a] => [BitVec.ofNat 8 (a % 16)]
  | [] => []

/-- The bytes of a run of elements. -/
def elemsToBytes (w : Nat) (xs : List Nat) : List Byte :=
  if w = 4 then nibbleBytes xs else xs.flatMap fun x => leBytes (w / 8) x

end Sys2Proof.Machine
end

