-- ==== Sys2Proof/Machine/Flags.lean ====
section
/-! DEFINITION. The exception flags of FSTAT (06 R146, 07 R159): their bits, how a sequencer instruction and a retiring
command raise them, and when a flag traps instead. -/
namespace Sys2Proof.Machine
open Sys2Proof

/-- A set of raised flags, in the bits of FSTAT 4..0. -/
abbrev Flags := BitVec 5

def flagNV : Flags := 1
def flagDZ : Flags := 2
def flagOVF : Flags := 4
def flagUNF : Flags := 8
def flagNX : Flags := 16

/-- A flag that is raised on a condition. -/
def flagIf (c : Bool) (f : Flags) : Flags := if c then f else 0

/-- The enables of FSTAT, bits 12..8. -/
def Unit.enables (u : Unit) : Flags := u.fstat.extractLsb' 8 5
/-- The sticky flags of FSTAT, bits 4..0. -/
def Unit.sticky (u : Unit) : Flags := u.fstat.extractLsb' 0 5

/-- Raised flags are ORed into FSTAT, which no unit clears (R159). -/
def Unit.orFlags (u : Unit) (f : Flags) : Unit := { u with fstat := u.fstat ||| f.setWidth 64 }

/-- A flag the instruction raises has its enable set: FPEXC (R146). -/
def Unit.fpTraps (u : Unit) (f : Flags) : Bool := u.enables &&& f != 0

/-- What MTSR may write to FSTAT: bits 12..8 and 4..0 (R146, R398). -/
def fstatMask : Word := 0x1F1F

end Sys2Proof.Machine
end

