-- ==== Sys2Proof/Machine/Number.lean ====
section
/-! DEFINITION. The number formats of chapter 07 and the arithmetic on them: a value is an exact dyadic number, an
infinity or a NaN; every operation is exact and one rounding step follows it (R156).  A quotient, root, power or
logarithm that is no dyadic number carries one sticky bit below its leading bits, which is all that rounding reads. -/
namespace Sys2Proof.Machine
open Sys2Proof

/-! ### Formats (R152, R153) -/

/-- Which codes of a floating format are special. -/
inductive Special where
  | ieee | e4m3 | e2m1
  deriving DecidableEq, Repr

/-- A floating format: widths of exponent and fraction, bias, and its special codes. -/
structure FSpec where
  expBits  : Nat
  fracBits : Nat
  bias     : Nat
  special  : Special
  deriving DecidableEq, Repr

def fp64 : FSpec := { expBits := 11, fracBits := 52, bias := 1023, special := .ieee }
def fp32 : FSpec := { expBits := 8, fracBits := 23, bias := 127, special := .ieee }
def bf16 : FSpec := { expBits := 8, fracBits := 7, bias := 127, special := .ieee }
def fp16 : FSpec := { expBits := 5, fracBits := 10, bias := 15, special := .ieee }
def e4m3 : FSpec := { expBits := 4, fracBits := 3, bias := 7, special := .e4m3 }
def e5m2 : FSpec := { expBits := 5, fracBits := 2, bias := 15, special := .ieee }
def e2m1 : FSpec := { expBits := 2, fracBits := 1, bias := 1, special := .e2m1 }

def FSpec.bits (f : FSpec) : Nat := 1 + f.expBits + f.fracBits

/-- The floating format of a format code (R31); a block format's element format. -/
def floatOf (c : BitVec 4) : Option FSpec :=
  match c.toNat with
  | 5 => some fp64 | 6 => some fp32 | 7 => some bf16 | 8 => some fp16 | 9 => some e4m3 | 10 => some e5m2
  | 11 => some e2m1 | 12 => some e4m3 | 13 => some e5m2
  | _ => none

/-- The width in bits of an element of a format code; 8 for the reserved codes. -/
def elemBits (c : BitVec 4) : Nat :=
  match c.toNat with
  | 1 => 16 | 2 => 32 | 3 => 64 | 4 => 4 | 5 => 64 | 6 => 32 | 7 => 16 | 8 => 16 | 11 => 4 | _ => 8

def isIntFmt (c : BitVec 4) : Bool := decide (c.toNat ≤ 4)
def isBlockFmt (c : BitVec 4) : Bool := decide (11 ≤ c.toNat) && decide (c.toNat ≤ 13)

/-! ### Values -/

/-- An exact value: a NaN, an infinity, or `(-1)^neg * m * 2^e`. -/
inductive FpVal where
  | nan (signalling : Bool)
  | inf (neg : Bool)
  | fin (neg : Bool) (m : Nat) (e : Int)
  deriving DecidableEq, Repr

def FpVal.isNan : FpVal → Bool | .nan _ => true | _ => false
def FpVal.isSnan : FpVal → Bool | .nan s => s | _ => false
def FpVal.isInf : FpVal → Bool | .inf _ => true | _ => false
def FpVal.isZero : FpVal → Bool | .fin _ 0 _ => true | _ => false
def FpVal.negative : FpVal → Bool | .nan _ => false | .inf n => n | .fin n _ _ => n
def FpVal.neg : FpVal → FpVal | .nan s => .nan s | .inf n => .inf (!n) | .fin n m e => .fin (!n) m e
def FpVal.abs : FpVal → FpVal | .nan s => .nan s | .inf _ => .inf false | .fin _ m e => .fin false m e
/-- An integer as a value; zero is positive. -/
def FpVal.ofInt (x : Int) : FpVal := .fin (decide (x < 0)) x.natAbs 0
/-- A finite value times a power of two. -/
def FpVal.scale : FpVal → Int → FpVal
  | .fin n m e, k => .fin n m (e + k)
  | x, _ => x

/-- NV for a signalling NaN that is read (R154). -/
def snanFlag (xs : List FpVal) : Flags := flagIf (xs.any FpVal.isSnan) flagNV

/-- The value of the low bits of `b` in a format (R153, R154). -/
def FSpec.val (f : FSpec) (b : Nat) : FpVal :=
  let frac := b % 2 ^ f.fracBits
  let ex := b / 2 ^ f.fracBits % 2 ^ f.expBits
  let neg := (b / 2 ^ (f.fracBits + f.expBits)) % 2 == 1
  let top := 2 ^ f.expBits - 1
  let q : Int := (f.bias : Int) + f.fracBits
  let finite : FpVal := if ex = 0 then .fin neg frac (1 - q) else .fin neg (2 ^ f.fracBits + frac) (ex - q)
  match f.special with
  | .ieee => if ex = top then (if frac = 0 then .inf neg else .nan (frac < 2 ^ (f.fracBits - 1))) else finite
  | .e4m3 => if ex = top ∧ frac = 2 ^ f.fracBits - 1 then .nan false else finite
  | .e2m1 => finite

/-- The default NaN (R154). -/
def FSpec.defaultNan (f : FSpec) : Nat :=
  match f.special with
  | .ieee => (2 ^ f.expBits - 1) * 2 ^ f.fracBits + 2 ^ (f.fracBits - 1)
  | .e4m3 => 0x7F
  | .e2m1 => 0

def FSpec.signBit (f : FSpec) (neg : Bool) : Nat := if neg then 2 ^ (f.expBits + f.fracBits) else 0
def FSpec.infBits (f : FSpec) (neg : Bool) : Nat := f.signBit neg + (2 ^ f.expBits - 1) * 2 ^ f.fracBits
/-- The code of the largest finite magnitude, without its sign. -/
def FSpec.maxBits (f : FSpec) : Nat :=
  match f.special with
  | .ieee => (2 ^ f.expBits - 1) * 2 ^ f.fracBits - 1
  | .e4m3 => 0x7E
  | .e2m1 => 7

/-! ### Rounding (R156-R160) -/

/-- Rounding modes, by the rounding code of class 2. -/
inductive RMode where
  | rne | rtz | rup | rdn
  deriving DecidableEq, Repr

/-- The `rm` field: 0 nearest even, 1 toward zero, 2 up, 3 down (02 R33). -/
def rmodeOf (rm : BitVec 2) : RMode := match rm.toNat with | 0 => .rne | 1 => .rtz | 2 => .rup | _ => .rdn

/-- `m * 2^e` as a whole number of `2^q`, rounded by a mode, for a value of the given sign. -/
def roundAt (mode : RMode) (neg : Bool) (m : Nat) (e q : Int) : Nat :=
  if q ≤ e then m * 2 ^ (e - q).toNat
  else
    let d := (q - e).toNat
    let lo := m >>> d
    let rem := m % 2 ^ d
    let half := 2 ^ (d - 1)
    let up := match mode with
      | .rne => decide (half < rem) || (rem == half && lo % 2 == 1)
      | .rtz => false
      | .rup => !neg && rem != 0
      | .rdn => neg && rem != 0
    if up then lo + 1 else lo

/-- Whether `r * 2^q` differs from `m * 2^e`. -/
def inexact (m : Nat) (e : Int) (r : Nat) (q : Int) : Bool :=
  if q ≤ e then m * 2 ^ (e - q).toNat != r else r * 2 ^ (q - e).toNat != m

/-- The replacement of an overflowing result (R157). -/
def FSpec.overflow (f : FSpec) (mode : RMode) (sat neg : Bool) : Nat :=
  let toMax := sat || f.special == .e2m1 || match mode with
    | .rne => false
    | .rtz => true
    | .rup => neg
    | .rdn => !neg
  if toMax then f.signBit neg + f.maxBits
  else match f.special with
    | .e4m3 => f.signBit neg + 0x7F
    | _ => f.infBits neg

/-- One rounding step: the bits and the flags it raises (R156-R160).  NaN operands raise nothing here; the
operation that reads them does. -/
def FSpec.round (f : FSpec) (mode : RMode) (sat : Bool) (x : FpVal) : Nat × Flags :=
  match x with
  | .nan _ => (f.defaultNan, 0)
  | .inf neg =>
    if sat || f.special == .e2m1 then (f.signBit neg + f.maxBits, flagNX)
    else if f.special == .e4m3 then (f.defaultNan, flagNV)
    else (f.infBits neg, 0)
  | .fin neg m e =>
    if m = 0 then (f.signBit neg, 0)
    else
      let p := f.fracBits + 1
      let emin : Int := 1 - (f.bias : Int)
      let q0 : Int := e + (m.log2 : Int) + 1 - p
      let r0 := roundAt mode neg m e q0
      let tiny := decide (r0 ≠ 0) && decide (q0 < emin - f.fracBits) &&
        decide (r0 < 2 ^ (emin - q0).toNat)
      let q := max q0 (emin - f.fracBits)
      let r := if q = q0 then r0 else roundAt mode neg m e q
      let (r, q) := if r = 2 ^ p then (2 ^ f.fracBits, q + 1) else (r, q)
      let mag := if r < 2 ^ f.fracBits then r
        else (q + f.fracBits + f.bias).toNat * 2 ^ f.fracBits + (r - 2 ^ f.fracBits)
      if f.maxBits < mag then (f.overflow mode sat neg, flagOVF ||| flagNX)
      else
        let nx := inexact m e r q
        (f.signBit neg + mag, flagIf nx flagNX ||| flagIf (nx && tiny && f.special != .e2m1) flagUNF)

/-- Conversion to a floating format with its NaN rule (R160). -/
def FSpec.convert (f : FSpec) (mode : RMode) (sat : Bool) (x : FpVal) : Nat × Flags :=
  let r := f.round mode sat x
  (r.1, r.2 ||| snanFlag [x])

/-- A value rounded to an integer by a mode, and whether it was inexact. -/
def roundInt (mode : RMode) (neg : Bool) (m : Nat) (e : Int) : Int × Bool :=
  let r := roundAt mode neg m e 0
  (if neg then -(r : Int) else r, inexact m e r 0)

def intMin (w : Nat) : Int := -(2 ^ (w - 1) : Nat)
def intMax (w : Nat) : Int := (2 ^ (w - 1) : Nat) - 1
def clampInt (w : Nat) (x : Int) : Int := if x < intMin w then intMin w else if intMax w < x then intMax w else x

/-- A saturating conversion to a signed integer of `w` bits: NaN gives 0 with NV, a value out of range the nearest
limit with NX (R148, 05 R103). -/
def toIntSat (w : Nat) (mode : RMode) (x : FpVal) : Int × Flags :=
  match x with
  | .nan _ => (0, flagNV)
  | .inf neg => (if neg then intMin w else intMax w, flagNX)
  | .fin neg m e =>
    let (r, nx) := roundInt mode neg m e
    let c := clampInt w r
    (c, flagIf (nx || c != r) flagNX)

/-- The conversion of FCVTI and FCVTW without `.sat` (R148). -/
def toIntTrap (w : Nat) (mode : RMode) (x : FpVal) : Int × Flags :=
  match x with
  | .nan _ => (intMin w, flagNV)
  | .inf _ => (intMin w, flagNV)
  | .fin neg m e =>
    let (r, nx) := roundInt mode neg m e
    if clampInt w r != r then (intMin w, flagNV) else (r, flagIf nx flagNX)

/-! ### Exact arithmetic -/

/-- The signed significand of a finite value at exponent `k`, where `k` is at or below its own exponent. -/
def signedAt (neg : Bool) (m : Nat) (e k : Int) : Int :=
  let x : Int := (m * 2 ^ (e - k).toNat : Nat)
  if neg then -x else x

/-- The exact sum, with the sign rule of an exact zero (R156). -/
def FpVal.add (down : Bool) (x y : FpVal) : FpVal × Flags :=
  match x, y with
  | .nan _, _ => (.nan false, snanFlag [x, y])
  | _, .nan _ => (.nan false, snanFlag [x, y])
  | .inf a, .inf b => if a = b then (.inf a, 0) else (.nan false, flagNV)
  | .inf a, _ => (.inf a, 0)
  | _, .inf b => (.inf b, 0)
  | .fin a m e, .fin b n f =>
    if m = 0 ∧ n = 0 then (.fin (if a = b then a else down) 0 0, 0)
    else
      let k := min e f
      let s := signedAt a m e k + signedAt b n f k
      if s = 0 then (.fin down 0 0, 0) else (.fin (decide (s < 0)) s.natAbs k, 0)

/-- The exact product. -/
def FpVal.mul (x y : FpVal) : FpVal × Flags :=
  match x, y with
  | .nan _, _ => (.nan false, snanFlag [x, y])
  | _, .nan _ => (.nan false, snanFlag [x, y])
  | .inf a, .inf b => (.inf (a != b), 0)
  | .inf a, .fin b m _ => if m = 0 then (.nan false, flagNV) else (.inf (a != b), 0)
  | .fin a m _, .inf b => if m = 0 then (.nan false, flagNV) else (.inf (a != b), 0)
  | .fin a m e, .fin b n f => (.fin (a != b) (m * n) (e + f), 0)

/-- The exact value of `x * y + z`; infinity times zero raises NV even when `z` is a NaN (R147). -/
def FpVal.fma (down : Bool) (x y z : FpVal) : FpVal × Flags :=
  let p := x.mul y
  let r := p.1.add down z
  (r.1, p.2 ||| r.2)

/-- The quotient, with a sticky bit below 70 leading bits. -/
def FpVal.div (x y : FpVal) : FpVal × Flags :=
  match x, y with
  | .nan _, _ => (.nan false, snanFlag [x, y])
  | _, .nan _ => (.nan false, snanFlag [x, y])
  | .inf _, .inf _ => (.nan false, flagNV)
  | .inf a, .fin b _ _ => (.inf (a != b), 0)
  | .fin a _ _, .inf b => (.fin (a != b) 0 0, 0)
  | .fin a m e, .fin b n f =>
    if n = 0 then (if m = 0 then (.nan false, flagNV) else (.inf (a != b), flagDZ))
    else if m = 0 then (.fin (a != b) 0 0, 0)
    else
      let k := 70 + n.log2 - m.log2
      let q := m * 2 ^ k / n
      let sticky := if m * 2 ^ k % n = 0 then 0 else 1
      (.fin (a != b) (2 * q + sticky) (e - f - k - 1), 0)

/-- The integer square root, bit by bit from bit `k - 1`. -/
def isqrtFrom (n : Nat) : Nat → Nat → Nat
  | 0, r => r
  | k + 1, r => isqrtFrom n k (if (r + 2 ^ k) * (r + 2 ^ k) ≤ n then r + 2 ^ k else r)

def isqrt (n : Nat) : Nat := isqrtFrom n (n.log2 / 2 + 1) 0

/-- The square root; a negative non-zero operand gives NaN with NV. -/
def FpVal.sqrt (x : FpVal) : FpVal × Flags :=
  match x with
  | .nan _ => (.nan false, snanFlag [x])
  | .inf true => (.nan false, flagNV)
  | .inf false => (.inf false, 0)
  | .fin neg m e =>
    if m = 0 then (.fin neg 0 0, 0)
    else if neg then (.nan false, flagNV)
    else
      let k0 := 140 - m.log2
      let k := if (e - k0) % 2 = 0 then k0 else k0 + 1
      let n := m * 2 ^ k
      let r := isqrt n
      let sticky := if r * r = n then 0 else 1
      (.fin false (2 * r + sticky) ((e - k) / 2 - 1), 0)

/-- `1 / √x` (08 R180). -/
def FpVal.rsqrt (x : FpVal) : FpVal × Flags :=
  match x with
  | .nan _ => (.nan false, snanFlag [x])
  | .inf true => (.nan false, flagNV)
  | .inf false => (.fin false 0 0, 0)
  | .fin neg m e =>
    if m = 0 then (.inf neg, flagDZ)
    else if neg then (.nan false, flagNV)
    else
      let k0 := 142 + m.log2
      let k := if (e + k0) % 2 = 0 then k0 else k0 + 1
      let r := isqrt (2 ^ k / m)
      let sticky := if r * r * m = 2 ^ k then 0 else 1
      (.fin false (2 * r + sticky) ((-(e + k)) / 2 - 1), 0)

/-- `1 / x` (08 R180). -/
def FpVal.recip (x : FpVal) : FpVal × Flags := (FpVal.fin false 1 0).div x

/-! #### Powers of two and logarithms (08 R180), in fixed point with 320 fraction bits (DEDUCED, log 13) -/

def fixBits : Nat := 320
/-- `2 * Σ z^(2k+1) / (2k+1)`, the logarithm of `(1+z)/(1-z)`, for `z` in fixed point. -/
def atanhSum (z2 : Nat) : Nat → Nat → Nat → Nat → Nat
  | 0, _, _, acc => acc
  | n + 1, k, pow, acc => atanhSum z2 n (k + 2) ((pow * z2) >>> fixBits) (acc + pow / k)
/-- The natural logarithm of `num / den`, between 1 and 2, in fixed point. -/
def lnFix (num den : Nat) : Nat :=
  let z := (num - den) * 2 ^ fixBits / (num + den)
  2 * atanhSum ((z * z) >>> fixBits) 110 1 z 0
def ln2Fix : Nat := lnFix 2 1
/-- `Σ t^k / k!` for `t` in fixed point. -/
def expSum (t : Nat) : Nat → Nat → Nat → Nat → Nat
  | 0, _, _, acc => acc
  | n + 1, k, term, acc => expSum t n (k + 1) (term * t / (k * 2 ^ fixBits)) (acc + term)

/-- `2^x`; exact only when `x` is an integer.  An exponent beyond ±20000 is out of the range of every format. -/
def FpVal.exp2 (x : FpVal) : FpVal × Flags :=
  match x with
  | .nan _ => (.nan false, snanFlag [x])
  | .inf true => (.fin false 0 0, 0)
  | .inf false => (.inf false, 0)
  | .fin neg m e =>
    if m = 0 then (.fin false 1 0, 0)
    else if 20 ≤ e + m.log2 then (.fin false 1 (if neg then -20000 else 20000), 0)
    else if 0 ≤ e then (.fin false 1 (signedAt neg m e 0), 0)
    else
      let d := (-e).toNat
      let v := if neg then -(m : Int) else m
      let n := v / (2 ^ d : Nat)
      let f := (v % (2 ^ d : Nat)).toNat
      if f = 0 then (.fin false 1 n, 0)
      else
        let t := (f * ln2Fix) >>> d
        (.fin false (2 * expSum t 100 1 (2 ^ fixBits) 0 + 1) (n - fixBits - 1), 0)

/-- The logarithm to base 2; exact only for a power of two. -/
def FpVal.log2 (x : FpVal) : FpVal × Flags :=
  match x with
  | .nan _ => (.nan false, snanFlag [x])
  | .inf true => (.nan false, flagNV)
  | .inf false => (.inf false, 0)
  | .fin neg m e =>
    if m = 0 then (.inf true, flagDZ)
    else if neg then (.nan false, flagNV)
    else
      let k := m.log2
      let whole : Int := e + k
      if m = 2 ^ k then (FpVal.ofInt whole, 0)
      else
        let l : Int := whole * (2 ^ fixBits : Nat) + (lnFix m (2 ^ k) * 2 ^ fixBits / ln2Fix : Nat)
        if l < 0 then (.fin true (2 * (l.natAbs - 1) + 1) (-(fixBits : Int) - 1), 0)
        else (.fin false (2 * l.natAbs + 1) (-(fixBits : Int) - 1), 0)

/-! ### Order, minimum and maximum (R147) -/

/-- Whether `x < y`, neither being a NaN. -/
def FpVal.lt (x y : FpVal) : Bool :=
  match x, y with
  | .nan _, _ => false
  | _, .nan _ => false
  | .inf a, .inf b => a && !b
  | .inf a, _ => a
  | _, .inf b => !b
  | .fin a m e, .fin b n f => decide (signedAt a m e (min e f) < signedAt b n f (min e f))

/-- Whether `x = y`, neither being a NaN; the two zeros are equal. -/
def FpVal.eq (x y : FpVal) : Bool := !x.isNan && !y.isNan && !x.lt y && !y.lt x

/-- Whether the minimum of two operands is the first: minimumNumber, with −0 below +0. -/
def firstIsMin (x y : FpVal) : Bool :=
  if x.isNan then false
  else if y.isNan then true
  else if x.lt y then true
  else if y.lt x then false
  else x.negative || !y.negative

/-- FMIN and FMAX on encodings: the chosen operand, or the default NaN when both are NaN; NV only for a signalling
NaN. -/
def FSpec.minmax (f : FSpec) (max : Bool) (b c : Nat) : Nat × Flags :=
  let x := f.val b
  let y := f.val c
  let r := if x.isNan && y.isNan then f.defaultNan
    else if max then (if firstIsMin x y && !y.isNan then c else if x.isNan then c else b)
    else if firstIsMin x y then b else c
  (r, snanFlag [x, y])

/-! ### Sums of products (R167-R169) -/

/-- The exact sum of a group of products; infinities of both signs, and any NaN, give NaN with NV; an exact zero sum
is +0 unless every product is −0 (R168). -/
def sumExact (xs : List FpVal) : FpVal × Flags :=
  if xs.any FpVal.isNan then (.nan false, flagNV)
  else
    let pos := xs.any fun x => x.isInf && !x.negative
    let neg := xs.any fun x => x.isInf && x.negative
    if pos && neg then (.nan false, flagNV)
    else if pos then (.inf false, 0)
    else if neg then (.inf true, 0)
    else
      let k : Int := xs.foldl (fun k x => match x with | .fin _ m e => if m = 0 then k else min k e | _ => k) 0
      let s : Int := xs.foldl (fun s x => match x with | .fin n m e => if m = 0 then s else s + signedAt n m e k | _ => s) 0
      if s = 0 then (.fin (xs.all FpVal.negative && !xs.isEmpty) 0 0, 0)
      else (.fin (decide (s < 0)) s.natAbs k, 0)

/-- Products of two lists of operands, exact, with the flags of R168. -/
def products : List FpVal → List FpVal → List FpVal × Flags
  | x :: xs, y :: ys =>
    let p := x.mul y
    let r := products xs ys
    (p.1 :: r.1, p.2 ||| r.2)
  | _, _ => ([], 0)

/-- RNE to a format and back to a value. -/
def FSpec.rne (f : FSpec) (x : FpVal) : Nat × Flags := f.round .rne false x

/-- `acc + x` in a format by RNE, on encodings. -/
def FSpec.accumulate (f : FSpec) (acc : Nat) (x : FpVal) : Nat × Flags :=
  let s := (f.val acc).add false x
  let r := f.rne s.1
  (r.1, s.2 ||| r.2)

/-! ### Elements by format code -/

/-- The value of an element of a format that is not a block format. -/
def elemVal (c : BitVec 4) (b : Nat) : FpVal :=
  match floatOf c with
  | some f => f.val b
  | none => FpVal.ofInt (toSigned (elemBits c) b)

/-- Conversion of a value to an element of a format that is not a block format: RNE or another mode, saturating for
integers always and for floats as `sat` says (R160). -/
def elemConvert (c : BitVec 4) (mode : RMode) (sat : Bool) (x : FpVal) : Nat × Flags :=
  match floatOf c with
  | some f => f.convert mode sat x
  | none =>
    let r := toIntSat (elemBits c) mode x
    (truncInt (elemBits c) r.1, r.2)

/-! ### Operations on elements (08 R179, 12 R243) -/

/-- An operation on integers of a format or on its floating values. -/
def elemOp (f : BitVec 4) (onInt : Int → Int → Int → Int) (onFloat : FSpec → Nat → Nat → Nat → Nat × Flags)
    (a b c : Nat) : Nat × Flags :=
  match floatOf f with
  | some s => onFloat s a b c
  | none =>
    let w := elemBits f
    (truncInt w (onInt (toSigned w a) (toSigned w b) (toSigned w c)), 0)

/-- A floating operation rounded once by RNE. -/
def rounded (s : FSpec) (r : FpVal × Flags) : Nat × Flags :=
  let x := s.rne r.1
  (x.1, r.2 ||| x.2)

def opAdd (f : BitVec 4) := elemOp f (fun _ b c => b + c) fun s _ b c => rounded s ((s.val b).add false (s.val c))
def opMinmax (max : Bool) (f : BitVec 4) :=
  elemOp f (fun _ b c => if max then (if b < c then c else b) else if c < b then c else b) fun s _ b c => s.minmax max b c
/-- A reduction at memory of `x` into `old`: sum, minimum, maximum, and, or, exclusive or (12 R243). -/
def reduceElem (f : BitVec 4) (op old x : Nat) : Nat × Flags :=
  match op with
  | 0 => opAdd f 0 old x
  | 1 => opMinmax false f 0 old x
  | 2 => opMinmax true f 0 old x
  | 3 => (old &&& x, 0)
  | 4 => (old ||| x, 0)
  | _ => (old ^^^ x, 0)

/-! ### Block formats (R161-R166) -/

/-- The extra magnitudes of R163, in quarters. -/
def extraQuarters (x : Nat) : Nat :=
  match x % 8 with | 0 => 32 | 1 => 48 | 2 => 64 | 3 => 96 | 4 => 1 | 5 => 3 | 6 => 20 | _ => 40

/-- The extra value of a code (R163). -/
def extraVal (x : Nat) : FpVal := .fin (decide (8 ≤ x % 16)) (extraQuarters x) (-2)

/-- Whether a record is read as a NaN block (R165). -/
def nanBlock (c : BitVec 4) (rec : Nat) : Bool :=
  rec / 256 % 256 == 255 || rec % 16 != 0 || (c != 0xB && rec / 16 % 16 != 0)

/-- The value of an element code, before the scale (R155, R163). -/
def blockElem (c : BitVec 4) (rec code : Nat) : FpVal :=
  if c == 0xB && code % 16 == 8 then extraVal (rec / 16 % 16)
  else match floatOf c with | some f => f.val code | none => .nan false

/-- The value of an element of a block (R164, R165). -/
def blockVal (c : BitVec 4) (rec code : Nat) : FpVal :=
  if nanBlock c rec then .nan false
  else (blockElem c rec code).scale ((rec / 256 % 256 : Nat) - (127 : Int))

/-- `floor (log2 |x|)` of a finite non-zero value. -/
def FpVal.exponent : FpVal → Int
  | .fin _ m e => e + m.log2
  | _ => 0

/-- The members of V for an extra code, as (code, quarters of the value, signed). -/
def beMembers (x : Nat) : List (Nat × Int) :=
  [(0, 0), (1, 2), (2, 4), (3, 6), (4, 8), (5, 12), (6, 16), (7, 24),
   (8, if 8 ≤ x % 16 then -(extraQuarters x : Int) else extraQuarters x),
   (9, -2), (10, -4), (11, -6), (12, -8), (13, -12), (14, -16), (15, -24)]

/-- Chooses the nearer of two members to `y`, both in units of `2^k`: ties to the even code, then to the smaller
magnitude (R166). -/
def beNearer (y : Int) (p q : Nat × Int) : Nat × Int :=
  let dp := (y - p.2).natAbs
  let dq := (y - q.2).natAbs
  if dp < dq then p
  else if dq < dp then q
  else if p.1 % 2 = 0 ∧ q.1 % 2 ≠ 0 then p
  else if q.1 % 2 = 0 ∧ p.1 % 2 ≠ 0 then q
  else if p.2.natAbs ≤ q.2.natAbs then p else q

/-- The member of V nearest to a scaled element, whose unit is `2^-(2+sh)`. -/
def beNearest (x sh : Nat) (y : Int) : Nat × Int :=
  let ms : List (Nat × Int) := (beMembers x).map fun p => (p.1, p.2 * (2 ^ sh : Nat))
  ms.foldl (beNearer y) (0, 0)

/-- The encoding of one block (R166): the record, the element codes and the flags. (DEDUCED, log 31)  A −0 that BE2M1 takes to +0 raises no NX:
whether it counts as not reproduced exactly is not stated (DESIGN CHOICE, log 109). -/
def encodeBlock (c : BitVec 4) (xs : List FpVal) : Nat × List Nat × Flags :=
  if xs.any FpVal.isNan || (c == 0xB && xs.any FpVal.isInf) then (0xFF00, xs.map fun _ => 0, flagNV)
  else
    let exps := xs.filterMap fun x => match x with | .fin _ m _ => if m = 0 then none else some x.exponent | _ => none
    let emax : Int := if c == 0xB then 2 else if c == 0xC then 8 else 15
    let s : Nat := match exps with
      | [] => 127
      | a :: rest => (max 0 (min 254 (rest.foldl max a - emax + 127))).toNat
    let ys := xs.map fun x => x.scale (127 - (s : Int))
    match floatOf c with
    | none => (0xFF00, xs.map fun _ => 0, flagNV)
    | some f =>
      if c == 0xB then
        let low : Int := ys.foldl (fun k y => match y with | .fin _ m e => if m = 0 then k else min k e | _ => k) (-2)
        let sh := (-2 - low).toNat
        let ints : List Int := ys.map fun y => match y with | .fin n m e => if m = 0 then 0 else signedAt n m e low | _ => 0
        let err (x : Nat) : Nat := ints.foldl (fun t y => t + (y - (beNearest x sh y).2).natAbs) 0
        let best := (List.range 16).foldl (fun b x => if x = 0 then b else if err x < b.2 then (x, err x) else b) (0, err 0)
        let picks := ints.map (beNearest best.1 sh)
        let top := ((beMembers best.1).foldl (fun t p => max t p.2.natAbs) 0) * 2 ^ sh
        let nx := (ints.zip picks).any fun p => p.1 != p.2.2
        let ovf := (ints.zip picks).any fun p => decide (top < p.1.natAbs) && p.2.2.natAbs == top
        (s * 256 + best.1 * 16, picks.map (·.1), flagIf nx flagNX ||| flagIf ovf flagOVF)
      else
        let rs := ys.map (f.round .rne true)
        let top := f.val f.maxBits
        let nx := rs.any fun r => r.2 &&& flagNX != 0
        let ovf := (ys.zip rs).any fun p => !p.1.isInf && top.lt p.1.abs && p.2.1 % 2 ^ (f.bits - 1) == f.maxBits
        (s * 256, rs.map (·.1), flagIf nx flagNX ||| flagIf ovf flagOVF)

end Sys2Proof.Machine
end

