-- ==== Sys2Proof/Machine/Ops.lean ====
section
/-! DEFINITION. The named operations over storage, registers, devices and traps: the one place where a byte is read
or written, an address translated, a trap taken and returned from. -/
namespace Sys2Proof.Machine
open Sys2Proof

/-- What a step or a meaning answers. -/
abbrev Res := Host.Outcome State Fault Refusal

/-! ### Global ids (01 R17) and scopes (16 R287) -/

/-- A system core's id (R17). -/
def isCoreGid (g : Gid) : Bool := fld g 14 2 == 2
def gidDev (g : Gid) : Dev := g.extractLsb' 8 6
/-- The volume and section of a quire, as one number 0 to 63. -/
def gidSection (g : Gid) : Nat := fld g 2 6
def gidVolume (g : Gid) : Nat := fld g 5 3
/-- The local id of a quire within its device (R18). -/
def gidLocal (g : Gid) : Nat := fld g 0 8
/-- The global id of the quire with a local id. -/
def quireGid (dev : Dev) (localId : Nat) : Gid := 0#2 ++ dev ++ BitVec.ofNat 8 localId
/-- The host unit of a device (R17). -/
def hostGid (dev : Dev) : Gid := 1#2 ++ dev ++ 0#8

/-- Whether the instance of `scope` that unit `a` has contains unit `b` (R287). -/
def inScope (scope : Nat) (a b : Gid) : Bool :=
  if scope ≥ 4 then true
  else if scope == 3 then gidDev a == gidDev b
  else if fld a 14 2 != 0 || fld b 14 2 != 0 then a == b
  else if scope == 2 then gidDev a == gidDev b && gidVolume a == gidVolume b
  else if scope == 1 then gidDev a == gidDev b && gidSection a == gidSection b
  else a == b

/-! ### Units -/

def Unit.isCore (u : Unit) : Bool := isCoreGid u.gid
/-- Accesses that secure ranges and banks do not turn away: a secure task's, and a system core's, which runs no task (23 R418). (DEDUCED, log 63) -/
def Unit.trusted (u : Unit) : Bool := u.secure || u.isCore
/-- Handler mode (21 R381). -/
def Unit.handlerMode (u : Unit) : Bool := u.tlevel != 0
/-- The active plate is FRAMED (19 R345). -/
def Unit.framed (u : Unit) : Bool := !u.isCore && u.plate.getLsbD 32
/-- The active plate has CHECK set. -/
def Unit.check (u : Unit) : Bool := !u.isCore && u.plate.getLsbD 33

/-- s[r]: s0 always reads as zero (01 R15). -/
def Unit.rs (u : Unit) (r : Reg) : Word := if r = 0 then 0 else u.s[r.toNat]
/-- Whether a load writes s[r], d[r]. -/
def LoadDest.isReg (l : LoadDest) (r : Reg) : Bool := match l with | .scalar a _ _ => a == r | .descr _ => false
def LoadDest.isDesc (l : LoadDest) (r : DReg) : Bool := match l with | .scalar .. => false | .descr a => a == r
/-- A write of s[r]: a write to s0 is ignored (R15).  The register no longer awaits an earlier load. -/
def Unit.ws (u : Unit) (r : Reg) (x : Word) : Unit :=
  if r = 0 then u else { u with s := u.s.set r.toNat x, waits := u.waits.filter fun w => !w.2.isReg r }
/-- m[r]: m0 always reads as all ones (R15). -/
def Unit.rm (u : Unit) (r : MReg) : Word := if r = 0 then BitVec.allOnes 64 else u.m[r.toNat]
/-- A write of m[r]: a write to m0 is ignored (R15). -/
def Unit.wm (u : Unit) (r : MReg) (x : Word) : Unit := if r = 0 then u else { u with m := u.m.set r.toNat x }
/-- v[r]. -/
def Unit.rv (u : Unit) (r : Reg) : BitVec 4096 := u.v[r.toNat]
def Unit.wv (u : Unit) (r : Reg) (x : BitVec 4096) : Unit := { u with v := u.v.set r.toNat x }
/-- d[r]. -/
def Unit.rd (u : Unit) (r : DReg) : Desc := u.d[r.toNat]
def Unit.wd (u : Unit) (r : DReg) (x : Desc) : Unit :=
  { u with d := u.d.set r.toNat x, waits := u.waits.filter fun w => !w.2.isDesc r }

/-- An entry of a seven-place table indexed by queue code (R28); code 7 is reserved and reads as code 0. -/
def qidx (q : BitVec 3) : Fin 7 := if h : q.toNat < 7 then ⟨q.toNat, h⟩ else 0

def Unit.queue (u : Unit) (q : BitVec 3) : List Command := u.queues[qidx q]
def Unit.setQueue (u : Unit) (q : BitVec 3) (l : List Command) : Unit := { u with queues := u.queues.set (qidx q) l }
/-- The tokens in the FIFO from `x` to `y` (06 R128). -/
def Unit.fifo (u : Unit) (x y : BitVec 3) : Nat := (u.tokens[qidx x])[qidx y]
def Unit.setFifo (u : Unit) (x y : BitVec 3) (n : Nat) : Unit :=
  { u with tokens := u.tokens.set (qidx x) ((u.tokens[qidx x]).set (qidx y) n) }

/-- The engine queues in the order of their codes. -/
def engineQueues : List (BitVec 3) := [2, 3, 4, 5, 6]

/-- The registers a rewind restores. -/
def Unit.rewindTo (u : Unit) (r : SeqRegs) : Unit := { u with toSeqRegs := r }

/-- The unit with global id `g`: the current one, a listed one, or one in its state after reset. -/
def State.unitAt (s : State) (g : Gid) : Unit :=
  if s.cur.gid = g then s.cur else (s.others.find? (fun u => u.gid == g)).getD (Unit.atReset g)

/-- Replaces a unit by its global id. -/
def State.setUnit (s : State) (u : Unit) : State :=
  if s.cur.gid = u.gid then { s with cur := u }
  else { s with others := s.others.filter (fun x => decide (x.gid.toNat < u.gid.toNat)) ++ u ::
                          s.others.filter (fun x => decide (u.gid.toNat < x.gid.toNat)) }

/-- Gives the turn to unit `g`. -/
def State.switchTo (s : State) (g : Gid) : State :=
  if s.cur.gid = g then s
  else
    let u := s.unitAt g
    let s' := { s with others := s.others.filter (fun x => x.gid != g), cur := u }
    s'.setUnit s.cur

/-- Runs `f` with unit `g` as the current one and gives the turn back. -/
def State.onUnit (s : State) (g : Gid) (f : State → State) : State :=
  if s.cur.gid = g then f s else (f (s.switchTo g)).switchTo s.cur.gid

/-- Every unit that is listed. -/
def State.units (s : State) : List Unit := s.cur :: s.others

/-! ### Devices and their registers (23 R413, R415) -/

/-- The device with a number; one that is not listed is as after reset. -/
def State.dev (s : State) (n : Dev) : Device := (s.devs.find? (fun d => d.num == n)).getD (Device.atReset n)
def State.setDev (s : State) (d : Device) : State :=
  { s with devs := s.devs.filter (fun x => decide (x.num.toNat < d.num.toNat)) ++ d ::
                   s.devs.filter (fun x => decide (d.num.toNat < x.num.toNat)) }
def State.onDev (s : State) (n : Dev) (f : Device → Device) : State := s.setDev (f (s.dev n))
/-- The unit exists: a quire or a system core of a device of the shelf (01 R17). -/
def State.hasUnit (s : State) (g : Gid) : Bool :=
  s.devs.any (fun d => d.num == gidDev g) && (fld g 14 2 == 0 || (isCoreGid g && decide (gidLocal g < 8)))
/-- The device of the current unit. -/
def State.myDev (s : State) : Device := s.dev (gidDev s.cur.gid)

/-- Values after reset of the device registers, by offset (R415); every other register reads zero. -/
def resetReg (off : Nat) : Word :=
  if 0x10080 ≤ off ∧ off < 0x10100 then 0xFFFFFFFFFFFFFFFF
  else if off = 0x30000 then 0xFFFFFFFF00000001
  else if off = 0x60048 then 0x10
  else if off = 0x80000 then 3200
  else 0

def Device.reg (d : Device) (off : Nat) : Word := tableGet (resetReg off) d.regs off
def Device.setReg (d : Device) (off : Nat) (x : Word) : Device := { d with regs := tablePut d.regs off x }
/-- VIOLCNT counts an ignored write (R413). -/
def Device.violation (d : Device) : Device := d.setReg 0x10 (d.reg 0x10 + 1)
/-- A byte of the register space. -/
def Device.regByte (d : Device) (off : Nat) : Nat := fld (d.reg (off / 8 * 8)) (8 * (off % 8)) 8
/-- The number a device reads as its own: 0 until the owner has assigned it (01 R19). -/
def Device.seen (d : Device) : Dev := d.number.getD 0

/-- The device that a number names to a device: itself where it reads the number as its own, else the one to which the number has been
assigned, else one without a number that reads as it; where there is none, none that is listed (01 R19; DESIGN CHOICE, log 21). -/
def State.deviceOf (s : State) (d : Device) (n : Dev) : Dev :=
  if n == d.seen then d.num
  else match (s.devs.find? fun e => e.num != d.num && e.number == some n).or (s.devs.find? fun e => e.num != d.num && e.seen == n) with
  | some e => e.num
  | none => if s.devs.all (fun e => e.num != n) then n
    else (((List.range 64).map (BitVec.ofNat 6)).find? fun k => s.devs.all fun e => e.num != k).getD n

/-- A unit's global id as programs and masters see it, with its device's number (01 R17-R19). -/
def State.seenGid (s : State) (g : Gid) : Gid := g.extractLsb' 14 2 ++ (s.dev (gidDev g)).seen ++ g.extractLsb' 0 8
/-- Bits 31..30 of IDENT (R413). -/
def Device.stateCode (d : Device) : Nat := match d.boot with | .done => 1 | .minimal => 2 | _ => 0

/-- The offsets R413 lists; the others read zero and ignore writes. -/
def regListed (off : Nat) : Bool :=
  off % 8 == 0 && (off == 0 || off == 8 || off == 0x10 || off == 0x1000 || off == 0x1008 || off == 0x1010 || off == 0x2000 ||
   (decide (0x3000 ≤ off) && decide (off < 0x3108)) || (decide (0x3200 ≤ off) && decide (off < 0x3328)) ||
   (decide (0x10000 ≤ off) && decide (off < 0x10100)) || (decide (0x20000 ≤ off) && decide (off < 0x20080)) ||
   off == 0x30000 || (decide (0x30100 ≤ off) && decide (off < 0x30200)) ||
   (decide (0x40000 ≤ off) && decide (off < 0x40800)) || (decide (0x50000 ≤ off) && decide (off < 0x52000)) ||
   (decide (0x60000 ≤ off) && decide (off < 0x60070)) || (decide (0x70000 ≤ off) && decide (off < 0x71008)) ||
   off == 0x80000 || off == 0x90000 || off == 0x90008 || off == 0x90010 || (decide (0x90040 ≤ off) && decide (off < 0x90070)))

/-- Registers that still respond in minimal mode (R422). -/
def minimalListed (off : Nat) : Bool :=
  off == 0 || off == 0x10 || off == 0x1000 || off == 0x1008 || off == 0x1010 || decide (0x90000 ≤ off)

/-- How often a port has failed since the device's reset. -/
def Device.portFails (d : Device) (p : Nat) : Nat := d.failures.count p
/-- The codewords that a port's lanes have corrected: counted like those they could not (14 R263), and no register of R413 shows the count.  The line
makes its number (DESIGN CHOICE, log 67). -/
def Device.correctedWords (d : Device) (p : Nat) : Nat := Config.corrected d.num p (d.portFails p)

/-- What a read of the register space returns (R413, R422).  The codewords that a port could not correct are counted by the line, and no rule
makes their number (14 R263; DESIGN CHOICE, log 67). -/
def Device.readReg (d : Device) (off : Nat) : Word :=
  if !regListed off || (d.boot == .minimal && !minimalListed off) then 0
  else if off == 0 then
    BitVec.ofNat 64 (0x0C + 0xB1 * 2 ^ 8 + 0xA2 * 2 ^ 16 + d.seen.toNat * 2 ^ 24 + d.stateCode * 2 ^ 30)
  else if off == 8 then d.seen.setWidth 64
  else if off == 0x1008 || off == 0x1010 || off == 0x2000 || off == 0x90008 then 0
  else if 0x50000 ≤ off ∧ off < 0x52000 ∧ off % 128 ≠ 0 then
    let n := fld (d.reg (off / 128 * 128)) 48 6 + 1
    let used := min 8 (n - 8 * ((off % 128 - 8) / 8))
    d.reg off &&& BitVec.ofNat 64 (2 ^ (8 * used) - 1)
  else if 0x30100 ≤ off ∧ off < 0x30200 then
    let p := (off - 0x30100) / 8
    d.reg off ||| (if (d.reg 0x30000).getLsbD (32 + p) then 1 else 0) ||| (BitVec.ofNat 32 (Config.uncorrectable d.num p (d.portFails p)) ++ 0#32)
  else d.reg off

/-- Whether a section bank, given by volume, section and bank as 11 bits, is marked secure (23 R417). -/
def Device.bankSecure (d : Device) (b : Nat) : Bool := (d.reg (0x3220 + 8 * (b / 64))).getLsbD (b % 64)
def Device.quireSecure (d : Device) (localId : Nat) : Bool := (d.reg (0x3200 + 8 * (localId / 64))).getLsbD (localId % 64)
def Device.quireDisabled (d : Device) (localId : Nat) : Bool := (d.reg (0x60050 + 8 * (localId / 64))).getLsbD (localId % 64)

/-- local[41..39] of a physical address (R60). -/
def paRegion (pa : Nat) : Nat := pa / 2 ^ 39 % 8
def paDev (pa : Nat) : Dev := BitVec.ofNat 6 (pa / 2 ^ 42)
/-- Whether the address lies in the direct or the interleaved window. -/
def paInWindow (pa : Nat) : Bool := paRegion pa == 0 || paRegion pa == 2

/-- The one storage byte an address of a window names, by its direct-window address (R61). -/
def canonAddr (pa : Nat) : Nat :=
  if paRegion pa == 2 then
    let i := pa % 2 ^ 39
    pa / 2 ^ 42 * 2 ^ 42 + (i / 2 ^ 8 % 8) * 2 ^ 36 + (i / 2 ^ 11) * 2 ^ 8 + i % 2 ^ 8
  else pa
/-- The interleaved-window address of the byte that a direct-window address names (R61). -/
def interleavedAddr (pa : Nat) : Nat :=
  let o := pa % 2 ^ 36
  pa / 2 ^ 42 * 2 ^ 42 + 2 ^ 40 + o / 2 ^ 8 * 2 ^ 11 + pa / 2 ^ 36 % 8 * 2 ^ 8 + o % 2 ^ 8
/-- The physical addresses of the byte that one names. -/
def aliases (pa : Nat) : List Nat := if paInWindow pa then [canonAddr pa, interleavedAddr (canonAddr pa)] else [pa]

/-- Whether a REGION register marks secure a physical address of the byte that one names (R418): both windows reach one byte (03 R61).
(DEDUCED, log 11) -/
def Device.regionSecure (d : Device) (pa : Nat) : Bool :=
  (aliases pa).any fun pa => (List.range 16).any fun k =>
    let w0 := d.reg (0x3000 + 16 * k)
    let w1 := d.reg (0x3008 + 16 * k)
    w0.getLsbD 0 && decide (fld w0 18 30 ≤ pa / 2 ^ 18) && decide (pa / 2 ^ 18 ≤ fld w1 18 30)

/-- A bank after reset: SCRATCH, owned by no task (04 R78). -/
def Bank.atReset : Bank := { mode := 1, owner := none, changing := none, asker := 0, begun := false, ends := 0, told := false, epoch := 0 }
def Device.bank (d : Device) (b : Nat) : Bank := tableGet Bank.atReset d.banks b
def Device.setBank (d : Device) (b : Nat) (x : Bank) : Device := { d with banks := tablePut d.banks b x }
/-- Whether a section (0 to 63) has a bank in CACHE mode (03 R68). -/
def Device.hasCache (d : Device) (sec : Nat) : Bool := (List.range 32).any fun b => (d.bank (32 * sec + b)).mode == 0

/-! ### The step cache's tag store (17 R327) -/

/-- The index of a unit's ring or step entry in its device's tables. -/
def ringIndex (sec ring : Nat) : Nat := 64 * sec + ring
def stepIndex (sec entry : Nat) : Nat := 128 * sec + entry

def emptyStep : StepEntry :=
  { valid := false, tag := 0, inFmt := 0, inRows := 0, inCols := 0, outFmt := 0, outRows := 0, outCols := 0,
    pins := [], recency := 0 }
def Device.step (d : Device) (k : Nat) : StepEntry := tableGet emptyStep d.steps k
def Device.setStep (d : Device) (k : Nat) (e : StepEntry) : Device := { d with steps := tablePut d.steps k e }
/-- The next value of a section's probe counter. -/
def Device.tickStep (d : Device) (sec : Nat) : Device × Nat :=
  let n := tableGet 0 d.stepTick sec + 1
  ({ d with stepTick := tablePut d.stepTick sec n }, n)

/-! ### Krytlink paths (14 R263, R266-R270, 23 R415) -/

def Device.routeMode (d : Device) : Bool := (d.reg 0x30000).getLsbD 0
/-- A port that the owner has disabled or that has failed (R263). -/
def Device.portDown (d : Device) (p : Nat) : Bool :=
  (d.reg 0x30000).getLsbD (32 + p) || (d.reg (0x30100 + 8 * p)).getLsbD 0
/-- A port that carries no traffic: it is down at its device or at the neighbour it is wired to, or that neighbour runs the other mode
(R263, R266).  What a port is wired to is not stated (DESIGN CHOICE, log 84). -/
def State.portDown (s : State) (d : Device) (p : Nat) : Bool :=
  d.portDown p || match Config.wire d.num p with
    | none => false
    | some (n, q) => (s.dev n).portDown q || (s.dev n).routeMode != d.routeMode

/-- What a read of a device's register space returns: a port whose neighbour runs the other mode reads as failed (R266, 23 R413). -/
def State.readReg (s : State) (n : Dev) (off : Nat) : Word :=
  let d := s.dev n
  let other : Bool := match Config.wire n ((off - 0x30100) / 8) with
    | some (m, _) => (s.dev m).routeMode != d.routeMode
    | none => false
  d.readReg off ||| (if decide (0x30100 ≤ off) && decide (off < 0x30200) && regListed off && d.boot != .minimal && other then 1 else 0)

/-- The hop count and the ports of the route-table entry for a destination; none where it names no path (R415). -/
def Device.route (d : Device) (dst : Dev) : Option (List Nat) :=
  let base := 0x40000 + 32 * dst.toNat
  let h := d.regByte base
  let ports := (List.range h).map fun k => d.regByte (base + 1 + k)
  if h == 0 || decide (31 < h) || ports.any (fun p => decide (31 < p)) then none else some ports

/-- The first port on a path that carries no traffic, from the device `n` on; past a port whose wiring is unknown the path is not
followed (DESIGN CHOICE, log 84). -/
def State.pathFails (s : State) : Option Dev → List Nat → Option Nat
  | _, [] => none
  | none, _ => none
  | some n, p :: rest =>
    if s.portDown (s.dev n) p then some p else s.pathFails ((Config.wire n p).map (·.1)) rest

/-- The devices one hop further from some devices, over ports that carry traffic (R267). -/
def State.spreadFrom (s : State) (xs : List Dev) : List Dev :=
  (xs ++ xs.flatMap fun n => (List.range 32).filterMap fun p =>
    if s.portDown (s.dev n) p then none else (Config.wire n p).map (·.1)).eraseDups

/-- The route that a device holds for another one, by that one's number (01 R19). -/
def State.routeTo (s : State) (src dst : Dev) : Option (List Nat) := (s.dev src).route (s.dev dst).seen

/-- The length of a shortest path to a destination, of at most `fuel` hops. -/
def State.distance (s : State) (dst : Dev) : Nat → List Dev → Nat → Option Nat
  | 0, _, _ => none
  | fuel + 1, xs, h => if xs.contains dst then some h else s.distance dst fuel (s.spreadFrom xs) (h + 1)

/-- A shortest path from a device over ports that carry traffic, as devices and ports: of those the one with the lowest port at each hop; which
one the device chooses is not stated (R267; DESIGN CHOICE, log 85). -/
def State.minimalPath (s : State) (dst : Dev) : Nat → Dev → List (Dev × Nat)
  | 0, _ => []
  | h + 1, n =>
    match (List.range 32).findSome? fun p =>
      if s.portDown (s.dev n) p then none
      else (Config.wire n p).bind fun e => if s.distance dst (h + 1) [e.1] 0 == some h then some (p, e.1) else none with
    | some (p, m) => (n, p) :: s.minimalPath dst h m
    | none => []

/-- The hops of the flow between two devices: of its route, or in TICK mode of a shortest path (R267, R269).  Where nothing is known of
the wiring, one (DESIGN CHOICE, log 84). -/
def State.flowHops (s : State) (src dst : Dev) : Nat :=
  if (s.dev src).routeMode then match s.routeTo src dst with | some ports => ports.length | none => 1
  else (s.distance dst 64 [src] 0).getD 1

/-- The port that LINKFAIL names when the flow to `dst` is stopped; none when the flow carries traffic.  A stopped flow of a ROUTE device
stays stopped until its route is loaded again (R269), and one to a device of which every port is down has none to arrive by; a TICK device's flow
stops when no path is left (R267). (DESIGN CHOICE, log 67) -/
def State.flowFails (s : State) (src dst : Dev) : Option Nat :=
  let d := s.dev src
  if src == dst then none
  else if d.routeMode then
    match d.stopped.find? fun e => e.1 == dst with
    | some e => some e.2
    | none => match s.routeTo src dst with
      | none => some 0
      | some ports => (s.pathFails (some src) ports).or (if (List.range 32).all (s.dev dst).portDown then ports.getLast? else none)
  else if d.halted then some 0
  else if (s.distance dst 64 [src] 0).isNone then some (((List.range 32).find? (s.portDown d)).getD 0)
  else none

/-! ### Storage at its homes (04 R76, 16 R291, R292) -/

/-- Where the section SRAM begins in `Memory`: the byte at offset `o` of section `sec` of a device lies at
`sramBase + dev * 2^30 + sec * 2^24 + o` (04 R79). -/
def sramBase : Nat := 2 ^ 48
def sramAddr (dev : Dev) (sec off : Nat) : Nat := sramBase + dev.toNat * 2 ^ 30 + sec * 2 ^ 24 + off
/-- The device whose home holds an address of `Memory`. -/
def addrDev (a : Nat) : Dev := if a < sramBase then BitVec.ofNat 6 (a / 2 ^ 42) else BitVec.ofNat 6 ((a - sramBase) / 2 ^ 30)

/-- The byte listed at an address. -/
def Memory.get? (m : Memory) (a : Nat) : Option Byte := m.lookup a

/-- The cells of a run of bytes; a byte of device memory equal to what an unlisted one reads as is not listed. -/
def cellsOf (a : Nat) (data : List Byte) : Memory :=
  (data.zipIdx a).filterMap fun (b, x) => if decide (x < sramBase) && b == 0 then none else some (x, b)

/-- Writes a run of bytes. -/
def Memory.write (m : Memory) (a : Nat) (data : List Byte) : Memory :=
  m.filter (fun c => decide (c.1 < a)) ++ cellsOf a data ++ m.filter (fun c => decide (a + data.length ≤ c.1))

/-- Forgets the bytes from `a` to `a + n - 1`, whose contents become undefined. -/
def Memory.forget (m : Memory) (a n : Nat) : Memory :=
  m.filter (fun c => decide (c.1 < a)) ++ m.filter (fun c => decide (a + n ≤ c.1))

/-- The canonical form: rising addresses, and no device-memory byte listed as zero (DESIGN CHOICE, log 1). -/
def Memory.wf (m : Memory) : Bool :=
  decide (m.Pairwise fun x y => x.1 < y.1) && m.all fun c => decide (sramBase ≤ c.1) || c.2 != 0

/-- What an unlisted address reads as: zero in device memory (DESIGN CHOICE, log 1), a free byte in a section bank (DESIGN CHOICE, log 3). -/
def State.unlisted (s : State) (a : Nat) : Byte :=
  if a < sramBase then 0
  else Config.freeByte ((s.dev (addrDev a)).bank ((a - sramBase) % 2 ^ 30 / 2 ^ 19)).epoch a

def WriteRec.byteAt (r : WriteRec) (a : Nat) : Option Byte := if r.addr ≤ a then r.data[a - r.addr]? else none
/-- The byte that an access with these bytes has for an address. -/
def Access.byteOf (x : Access) (data : List Byte) (a : Nat) : Option Byte :=
  match x.want with
  | .apart k b _ => if x.addr ≤ a ∧ a < x.addr + k then data[a - x.addr]? else if b ≤ a then data[k + (a - b)]? else none
  | _ => if x.addr ≤ a then data[a - x.addr]? else none
/-- The parts of a write, by address and length, each with whether it is its command's last one to the line (12 R244). -/
def Access.parts (x : Access) : List (Nat × Nat × Bool) :=
  let last := match x.ord with | some o => o.last | none => false
  match x.want with
  | .apart k b l => [(x.addr, k, last), (b, x.data.length - k, l)]
  | _ => [(x.addr, x.data.length, last)]

/-! ### Errors in the stacks (03 R58, R59) -/

/-- What the stack makes of a sector that holds erroneous symbols (R58). -/
inductive Decoded where
  | corrected
  | poisoned
  | miscorrected (data : List Byte)
  deriving DecidableEq, Repr

/-- Up to three symbols, or symbols of one pin only, are corrected; four others are detected; of five and more, those that lie near another
codeword are miscorrected (R58). -/
def decodeSector (sector : Nat) (bad : List Nat) : Decoded :=
  match bad with
  | [] => .corrected
  | k :: rest =>
    if bad.length ≤ 3 ∨ rest.all (fun j => j / 4 == k / 4) then .corrected
    else if bad.length = 4 then .poisoned
    else match Config.miscorrect sector bad with
      | some data => .miscorrected data
      | none => .poisoned

/-- The erroneous symbols of a sector that no read has decoded yet. -/
def State.badSymbols (s : State) (sector : Nat) : List Nat := ((s.latent.filter fun e => e.1 == sector).map (·.2)).eraseDups

/-- A byte of storage as a read finds it: that of the listed memory, or of the miscorrected sector (R58). -/
def State.stored (s : State) (a : Nat) : Option Byte :=
  if s.latent.any fun e => e.1 == a / 128 then
    match decodeSector (a / 128) (s.badSymbols (a / 128)) with
    | .miscorrected data => some (data.getD (a % 128) 0)
    | _ => s.mem.get? a
  else s.mem.get? a

/-- The value of a byte to every unit once all horizons reach the shelf: the listed or the unlisted one. -/
def State.settled (s : State) (a : Nat) : Byte := (s.stored a).getD (s.unlisted a)

/-- A stack reads a sector: it corrects, writes back and counts, marks it poisoned, or leaves it miscorrected (R58, R59). -/
def State.scrub (s : State) (sector : Nat) : State :=
  if !(s.latent.any fun e => e.1 == sector) then s
  else
    let a := 128 * sector
    let t := { s with latent := s.latent.filter fun e => e.1 != sector }
    let count (t : State) : State := t.onDev (addrDev a) fun d =>
      let off := 0x60000 + 8 * (a / 2 ^ 36 % 8)
      d.setReg off (d.reg off + 1)
    match decodeSector sector (s.badSymbols sector) with
    | .corrected => count t
    | .poisoned => { t with poison := if t.poison.contains sector then t.poison else t.poison ++ [sector] }
    | .miscorrected data => count { t with mem := t.mem.write a ((List.range 128).map fun k => data.getD k 0) }

/-- A read of `n` bytes decodes their sectors. -/
def State.scrubRun (s : State) (a n : Nat) : State :=
  if s.latent.isEmpty || n == 0 then s
  else ((List.range ((a + n - 1) / 128 - a / 128 + 1)).map (a / 128 + ·)).foldl State.scrub s

/-- The last write of a byte in coherence order: what atomics, reductions and clasp reads return (R292). -/
def State.homeByte (s : State) (a : Nat) : Byte :=
  (s.pend.reverse.findSome? fun r => r.byteAt a).getD (s.settled a)

/-- Whether unit `g` sees a write's byte (R292). -/
def WriteRec.visible (r : WriteRec) (g : Gid) (a : Nat) : Bool :=
  inScope r.horizon.toNat r.gid g || r.seenBy.any fun e => e.1 == g && e.2 == a

/-- A plain read of one byte by unit `g` through the home (R292).  A byte that is mapped section-homed and otherwise too keeps one value for both:
what its two homes then hold is not stated (03 R68; DESIGN CHOICE, log 105). -/
def State.plainByte (s : State) (g : Gid) (a : Nat) : Byte :=
  (s.pend.reverse.findSome? fun r => if r.visible g a then r.byteAt a else none).getD (s.settled a)

/-- The record a plain read of a byte returns, if it still has a horizon of its own. -/
def State.plainRec? (s : State) (g : Gid) (a : Nat) : Option WriteRec :=
  s.pend.reverse.find? fun r => r.visible g a && (r.byteAt a).isSome

/-- A run of bytes as clasp and atomic reads see it. -/
def State.homeBytes (s : State) (a n : Nat) : List Byte := (List.range n).map fun k => s.homeByte (a + k)
def State.plainBytes (s : State) (g : Gid) (a n : Nat) : List Byte := (List.range n).map fun k => s.plainByte g (a + k)

/-- Drops from the front the writes every unit sees (horizon shelf) whose release carries nothing that is still
narrower. -/
def foldPend : List WriteRec → Memory → List WriteRec × Memory
  | [], m => ([], m)
  | r :: rest, m =>
    if r.horizon == 4 && r.release.all (fun x => x.ids.all fun i => rest.all fun y => y.id != i) then
      foldPend rest (m.write r.addr r.data)
    else (r :: rest, m)

def State.fold (s : State) : State :=
  let r := foldPend s.pend s.mem
  { s with pend := r.1, mem := r.2 }

/-- A write that covers a whole 128-byte sector clears its poison and its errors; a narrower one is merged into the sector, which the home
reads for it (03 R57-R59). -/
def State.clearPoison (s : State) (a n : Nat) : State :=
  let whole (x : Nat) : Bool := decide (a ≤ 128 * x) && decide (128 * x + 128 ≤ a + n)
  let s := { s with poison := s.poison.filter fun x => !whole x, latent := s.latent.filter fun e => !whole e.1 }
  s.scrubRun a n

/-- Admits a plain write at its home (R291, R292).  Its horizon starts at the writer's quire, or at the scope of the
release it carries (R296); in prompt mode it is at once widened to the shelf (DESIGN CHOICE, log 4). -/
def State.admitPlain (s : State) (x : Access) (release : List Release) : State :=
  let s := s.clearPoison x.addr x.data.length
  if s.prompt && s.pend.isEmpty then { s with mem := s.mem.write x.addr x.data }
  else
    State.fold { s with
      pend := s.pend ++ [{
        id := s.nextWrite, gid := x.gid, cls := x.cls, addr := x.addr, data := x.data, command := x.command,
        horizon := if s.prompt then 4 else match x.carrier with | some c => c.1 | none => 0,
        seenBy := [], release := x.release ++ release, orphan := x.orphan }],
      nextWrite := s.nextWrite + 1 }

/-- The new bytes of a reduction over the bytes that it finds, element by element, and the flags it raises (12 R243). -/
def Access.reduceOver (x : Access) (path : Nat → Byte) (op : BitVec 3) (f : BitVec 4) : List Byte × Flags :=
  let w := elemBits f
  let old := bytesToElems w (x.parts.flatMap fun p => (List.range p.2.1).map fun k => path (p.1 + k))
  let rs := (old.zip (bytesToElems w x.data)).map fun p => reduceElem f op.toNat p.1 p.2
  (elemsToBytes w (rs.map (·.1)), rs.foldl (fun g r => g ||| r.2) 0)

/-- The release sequences that an atomic, a reduction or a clasp update of a byte joins: those of every carrier before it in coherence
order, whatever plain stores stand between (16 R298). -/
def State.sequence (s : State) (a : Nat) : List Release :=
  ((s.pend.filter fun r => (r.byteAt a).isSome).flatMap (·.release)).eraseDups

/-- Flags of a retiring command enter FSTAT; a rewind of uncommitted instructions does not take them back (R159). -/
def Unit.retireFlags (u : Unit) (f : Flags) : Unit :=
  { u.orFlags f with window := u.window.map fun e => { e with before := { e.before with fstat := e.before.fstat ||| f.setWidth 64 } } }

def Unit.inflight? (u : Unit) (q : BitVec 3) (n : BitVec 32) : Option Inflight :=
  u.inflight.find? fun y => y.command.queue == q && y.command.num == n
/-- Changes a started command's entry. -/
def Unit.onInflight (u : Unit) (q : BitVec 3) (n : BitVec 32) (f : Inflight → Inflight) : Unit :=
  { u with inflight := u.inflight.map fun y => if y.command.queue == q && y.command.num == n then f y else y }

/-- Flags raised at a home travel back to the command that sent the update, or to FSTAT once it has retired
(12 R243). (DEDUCED, log 36) -/
def State.ackFlags (s : State) (x : Access) (f : Flags) : State :=
  let u := s.unitAt x.gid
  if x.orphan then s
  else match x.command with
  | none => s.setUnit (u.retireFlags f)
  | some (q, n) =>
    if (u.inflight? q n).isSome then s.setUnit (u.onInflight q n fun y => { y with flags := y.flags ||| f })
    else s.setUnit (u.retireFlags f)

/-- Admits a write or a reduction.  An element of which the bytes lie apart is updated in one effect too (DESIGN CHOICE, log 18). -/
def State.admitUpdate (s : State) (x : Access) (release : List Release) : State :=
  match x.reduce with
  | none => s.admitPlain x release
  | some (op, f) =>
    let r := x.reduceOver s.homeByte op f
    let t := s.ackFlags x r.2
    match x.want with
    | .apart k b _ =>
      (t.admitPlain { x with want := .write, data := r.1.take k, reduce := none } (s.sequence x.addr ++ release)).admitPlain
        { x with want := .write, addr := b, data := r.1.drop k, reduce := none } (s.sequence b ++ release)
    | _ => t.admitPlain { x with data := r.1, reduce := none } (s.sequence x.addr ++ release)

/-- The entry of the ordered-reduction table for a contribution (12 R244). -/
def Device.ordEntry? (d : Device) (o : OrdTag) (line : Nat) : Option OrdEntry :=
  d.ordered.find? fun e => e.task == o.task && e.stream == o.stream && e.line == line
def Device.ordNext (d : Device) (o : OrdTag) (line : Nat) : Nat := match d.ordEntry? o line with | some e => e.next | none => 0

/-- The table after a contribution was admitted: its last update moves the line to the next slot (12 R244). -/
def Device.ordAdmitted (d : Device) (o : OrdTag) (home line : Nat) : Device :=
  let width := match d.ordEntry? o line with | some e => e.width | none => o.width
  let rest := d.ordered.filter fun e => !(e.task == o.task && e.stream == o.stream && e.line == line)
  let next := if o.last then (o.slot + 1) % width else o.slot
  if o.last && next == 0 then { d with ordered := rest }
  else { d with ordered := rest ++ [{ home := home, task := o.task, stream := o.stream, line := line, next := next, width := width }] }

/-- The home that admits accesses to an address: a home slice of a volume, or a section bank (03 R62, 04 R76, 16 R305). -/
def homeOf (a : Nat) : Nat :=
  if a < sramBase then a / 2 ^ 36 * 8 + ((a / 2 ^ 8 % 8) ^^^ (a / 2 ^ 20 % 8)) else 2 ^ 16 + (a - sramBase) / 2 ^ 19

/-- The home of the lines that are homed in a section, by its number on the device (03 R68). -/
def sectionHome (dev : Dev) (sec : Nat) : Nat := 2 ^ 20 + 64 * dev.toNat + sec
/-- The home that an access reaches. -/
def Access.home (x : Access) : Nat := match x.sect with | some sec => sectionHome (addrDev x.addr) sec | none => homeOf x.addr

/-- The bank that an access reaches, by its number on the device: which one a section-homed line lies in is not stated (04 R91; DESIGN CHOICE, log
88). -/
def Access.bank? (x : Access) : Option Nat :=
  if sramBase ≤ x.addr then some ((x.addr - sramBase) % 2 ^ 30 / 2 ^ 19)
  else x.sect.map fun sec => 32 * sec + Config.lineBank sec (x.addr / 256) % 32

/-- The home of an access is held by a mode change: its bank, or that in which its section-homed line lies (04 R91). -/
def State.homeHeld (s : State) (x : Access) : Bool :=
  match x.bank? with
  | some b =>
    let k := (s.dev (addrDev x.addr)).bank b
    k.begun && (decide (sramBase ≤ x.addr) || k.mode == 0)
  | none => false

/-- The open rounds that a reduction unit holds, and the early contributions that a home holds (12 R244). -/
def ordEntries : Nat := 4096
def ordHeld : Nat := 256

/-- A contribution is at its slot, and its round is open or can be opened (12 R244). -/
def Device.ordReady (d : Device) (o : OrdTag) (home line : Nat) : Bool :=
  d.ordNext o line == o.slot &&
    ((d.ordEntry? o line).isSome || (o.last && o.width == 1) ||
      decide ((d.ordered.filter fun e => e.home == home).length < ordEntries))

/-- Two held updates of one contribution: of one command, to one line. -/
def Access.sameContribution (x y : Access) : Bool := x.gid == y.gid && x.command == y.command && x.addr / 256 == y.addr / 256

/-- The slots of a contribution have come, at each line that it reaches (12 R244). -/
def State.ordCome (s : State) (x : Access) (o : OrdTag) : Bool :=
  x.parts.all fun p => (s.dev (addrDev p.1)).ordReady { o with last := p.2.2 } x.home (p.1 / 256)

/-- The home can take an access now: an early contribution only where there is room to hold it (12 R244). -/
def State.ordRoom (s : State) (x : Access) : Bool :=
  match x.ord with
  | none => true
  | some o =>
    let mine := (s.dev (addrDev x.addr)).held.filter fun y => y.home == x.home
    s.ordCome x o || mine.any (·.sameContribution x) ||
      decide ((mine.foldl (fun (l : List Access) y => if l.any (·.sameContribution y) then l else l ++ [y]) []).length < ordHeld)

/-- Admits a contribution whose slots have come: its lines move on (12 R244). -/
def State.admitOrdered (s : State) (x : Access) (o : OrdTag) (release : List Release) : State :=
  x.parts.foldl (fun s p => s.onDev (addrDev p.1) fun d => d.ordAdmitted { o with last := p.2.2 } x.home (p.1 / 256)) (s.admitUpdate x release)

/-- Admits the held contributions whose slots have come, in the order they arrived. -/
def admitHeld (dev : Dev) : Nat → State → State
  | 0, s => s
  | fuel + 1, s =>
    match (s.dev dev).held.find? fun x => match x.ord with | some o => s.ordCome x o | none => false with
    | none => s
    | some x =>
      match x.ord with
      | none => s
      | some o => admitHeld dev fuel ((s.onDev dev fun d => { d with held := d.held.erase x }).admitOrdered x o [])
def State.admitHeldOf (s : State) (dev : Dev) : State := admitHeld dev (s.dev dev).held.length s

/-- The writes of a command reach at least a scope (16 R293). -/
def State.widenWrites (s : State) (g : Gid) (command : Option (BitVec 3 × BitVec 32)) (scope : BitVec 3) : State :=
  { s with pend := s.pend.map fun r =>
      if r.gid == g && r.command == command && decide (r.horizon.toNat < scope.toNat) then { r with horizon := scope } else r }

/-- A step-cache entry is recorded: both tiles, the tag and the shapes in one effect, and the pin of the unit goes (05 R119, 12 R245). -/
def State.admitRecord (s : State) (x : Access) (entry : Nat) (e : StepEntry) (result : List Byte) (release : List Release) : State :=
  let dev := addrDev x.addr
  let sec := entry / 128
  let s := ((s.admitPlain x release).admitPlain { x with addr := x.addr + 65536, data := result } release).widenWrites x.gid x.command 1
  s.onDev dev fun d =>
    let old := d.step entry
    let t := d.tickStep sec
    t.1.setStep entry { e with valid := true, pins := old.pins.filter (· != x.gid), recency := t.2 }

/-- Admits an access at its home; an ordered contribution waits for its slot (12 R244). (DESIGN CHOICE, log 37) -/
def State.admitAt (s : State) (x : Access) (release : List Release) : State :=
  match x.ord with
  | none => match x.want with
    | .record entry e result => s.admitRecord x entry e result release
    | _ => s.admitUpdate x release
  | some o =>
    let dev := addrDev x.addr
    if s.ordCome x o then x.parts.foldl (fun s p => s.admitHeldOf (addrDev p.1)) (s.admitOrdered x o release)
    else s.onDev dev fun d => { d with held := d.held ++ [x] }

/-- A write of the binder or the host, seen by every unit at once (19 R334, 23 R411). -/
def State.masterWrite (s : State) (a : Nat) (data : List Byte) : State :=
  let s := s.clearPoison a data.length
  if s.pend.isEmpty then { s with mem := s.mem.write a data }
  else
    State.fold { s with
      pend := s.pend ++ [{ id := s.nextWrite, gid := hostGid (addrDev a), cls := 0, addr := a, data := data,
                           command := none, horizon := 4, seenBy := [], release := [], orphan := false }],
      nextWrite := s.nextWrite + 1 }

/-- The sector of an address holds errors that no read has decoded yet. -/
def State.erring (s : State) (a : Nat) : Bool := s.latent.any fun e => e.1 == a / 128

/-- The sector of an address is poisoned, or holds an error that its read will not be able to correct (03 R58, R59). -/
def State.poisoned (s : State) (a : Nat) : Bool :=
  s.poison.contains (a / 128) ||
    (s.erring a && decodeSector (a / 128) (s.badSymbols (a / 128)) == .poisoned)
/-- The lowest of `n` bytes at `a` that lies in a poisoned sector. -/
def State.poisonedIn? (s : State) (a n : Nat) : Option Nat := (List.range n).find? fun k => s.poisoned (a + k)

/-! ### What a unit's classes still hold back (16 R289, R293, R296) -/

def maskHas (mask : BitVec 16) (cls : BitVec 4) : Bool := mask.getLsbD cls.toNat

/-- Whether a write's horizon contains the instance of `scope` that unit `g` has. -/
def WriteRec.reaches (r : WriteRec) (g : Gid) (scope : Nat) : Bool :=
  r.horizon == 4 || (decide (scope ≤ r.horizon.toNat) && inScope r.horizon.toNat r.gid g)

/-- Whether an access is one of the unit's that a FENCE orders: its sequencer's, or one of a command whose give token the
sequencer took (R86). (DEDUCED, log 9) -/
def Unit.ordered (u : Unit) (command : Option (BitVec 3 × BitVec 32)) : Bool :=
  match command with | none => true | some k => u.taken.contains k

/-- Every earlier access of unit `u` in the masked classes has performed at the scope (R86, R293); a store that a prompt machine has made
performs after its cycles (01 R21). -/
def State.performed (s : State) (u : Unit) (mask : BitVec 16) (scope : Nat) : Bool :=
  let earlier (x : Access) : Bool := x.gid == u.gid && !x.orphan && maskHas mask x.cls && u.ordered x.command
  u.classQ.all (fun x => !earlier x) && s.admQ.all (fun x => !earlier x) && s.flows.all (fun p => !earlier p.access) &&
  s.devs.all (fun d => d.held.all fun x => !earlier x) && u.sailing.all (fun e => !maskHas mask e.1 || decide (e.2 ≤ u.time)) &&
  s.pend.all (fun r => !(r.gid == u.gid && !r.orphan && maskHas mask r.cls && u.ordered r.command) || r.reaches u.gid scope)

/-- Every write of a command has performed: at its home for the quire, in section storage for the section (05 R99, 12 R236, 16 R293). -/
def State.landed (s : State) (u : Unit) (c : Command) : Bool :=
  let mine (x : Access) : Bool := x.gid == u.gid && !x.orphan && x.command == some (c.queue, c.num)
  u.classQ.all (fun x => !mine x) && s.admQ.all (fun x => !mine x) && s.flows.all (fun p => !mine p.access) &&
  s.devs.all (fun d => d.held.all fun x => !mine x) &&
  s.pend.all fun r => !(r.gid == u.gid && !r.orphan && r.command == some (c.queue, c.num) && decide (sramBase ≤ r.addr)) || r.reaches u.gid 1

/-- The unit's cumulative set has every masked write widened to the scope: with `performed`, what a carrier waits for
(R296, R299). -/
def State.knownWide (s : State) (u : Unit) (mask : BitVec 16) (scope : Nat) : Bool :=
  s.pend.all fun r => !(((r.gid == u.gid && !r.orphan) || u.known.contains r.id) && maskHas mask r.cls) || r.reaches u.gid scope

/-- No earlier access of a unit, of the class and to the line, is still on its way to the home, is held there, or waits at a clasp engine; those
of the command `own` are of one set with it (16 R289, R290). -/
def State.lineFree (s : State) (u : Unit) (cls : BitVec 4) (addr : Nat) (own : Option (BitVec 3 × BitVec 32)) : Bool :=
  let blocks (x : Access) : Bool := x.gid == u.gid && x.cls == cls && x.addr / 256 == addr / 256 && !(own.isSome && x.command == own)
  s.admQ.all (fun x => !blocks x) && s.flows.all (fun p => !blocks p.access) && s.devs.all (fun d => d.held.all fun x => !blocks x) &&
  !(u.wait.any fun w => w.cls == cls && decide (w.key < 2 ^ 42) && w.key / 4 == addr / 256 && s.clasps.contains (u.gid, w.key))

/-- The ids of the writes that a release by `u` transfers (R299). -/
def State.transferred (s : State) (u : Unit) (mask : BitVec 16) : List Nat :=
  (s.pend.filter fun r => ((r.gid == u.gid && !r.orphan) || u.known.contains r.id) && maskHas mask r.cls).map (·.id)

/-- The release a carrier transports, as it leaves. -/
def State.releaseOf (s : State) (u : Unit) (scope : BitVec 3) (mask : BitVec 16) : Release :=
  { gid := u.gid, scope := scope, ids := s.transferred u mask }

/-- The writes of a unit, performed or not, are no longer those of its task, and its reads return to nobody: it has left the task (R299, 21
R394). -/
def State.disown (s : State) (g : Gid) : State :=
  let f (x : Access) : Option Access := if x.gid == g then (if x.data.isEmpty then none else some { x with orphan := true }) else some x
  let u := s.unitAt g
  { s.setUnit { u with classQ := u.classQ.filterMap f } with
    pend := s.pend.map fun r => if r.gid == g then { r with orphan := true } else r
    admQ := s.admQ.filterMap f
    flows := s.flows.filterMap fun p => (f p.access).map fun x => { p with access := x, more := p.more.filterMap f } }

/-- The writes unit `g` takes on when its acquire at `scope` reads a write standing in these releases (R298, R299). -/
def acquiredFrom (g : Gid) (scope : Nat) (rs : List Release) : List Nat :=
  rs.flatMap fun x => if inScope x.scope.toNat x.gid g && inScope scope g x.gid then x.ids else []

/-- The acquire of a unit through the writes last in coherence order of a run of bytes (R297, R298). -/
def State.acquireAt (s : State) (g : Gid) (scope a n : Nat) : State :=
  let ids := (List.range n).flatMap fun k =>
    match s.pend.reverse.find? fun r => (r.byteAt (a + k)).isSome with
    | some r => acquiredFrom g scope r.release
    | none => []
  let u := s.unitAt g
  s.setUnit { u with known := (u.known ++ ids).eraseDups }

/-! ### Physical addresses and translation (03 R60-R70) -/

/-- Access codes of XSTAT (R70). -/
inductive AccessKind where
  | read | store | fetch | atomic | copyRead | copyWrite
  deriving DecidableEq, Repr

def AccessKind.code : AccessKind → Nat
  | .read => 0 | .store => 1 | .fetch => 2 | .atomic => 3 | .copyRead => 4 | .copyWrite => 5
/-- Accesses that need W = 1 (R65). -/
def AccessKind.writes : AccessKind → Bool
  | .store | .atomic | .copyWrite => true
  | _ => false

/-- XSTAT of R70. -/
def xstatOf (q : BitVec 3) (k : AccessKind) (level reason : Nat) : Word :=
  BitVec.ofNat 64 (q.toNat * 2 ^ 12 + k.code * 2 ^ 8 + level * 2 ^ 4 + reason)

/-- The device that a physical address names to a device (01 R19). -/
def State.target (s : State) (d : Device) (pa : Nat) : Dev := s.deviceOf d (paDev pa)

/-- The storage byte that a physical address names to a device: an address with the number that the device reads as its own is local
(01 R19). -/
def State.addrOf (s : State) (d : Device) (pa : Nat) : Nat := canonAddr ((s.target d pa).toNat * 2 ^ 42 + pa % 2 ^ 42)

/-- How a walk ends early: a fault with its reason and level (R70), or a poisoned entry (R59). -/
inductive WalkEnd where
  | reason (code level : Nat)
  | poison (level : Nat)
  deriving DecidableEq, Repr

/-- Bits of an entry that must be zero (R65). -/
def entryReserved (e : Word) : Bool :=
  fld e 48 7 != 0 || fld e 0 14 != 0 || (fld e 58 2 != 1 && fld e 55 3 != 0)

/-- The checks on the entry that maps the page, in the order of R69: reasons 8, 9, 6, 7. -/
def mapReason (d : Device) (e : Word) (pa : Nat) : Option Nat :=
  let region := paRegion pa
  let own := paDev pa == d.seen
  let mtype := fld e 14 3
  let home := fld e 58 2
  if !(region == 0 || region == 2 || region == 7) then some 8
  else if decide (3 < mtype) || (mtype == 3) != (region == 7) then some 9
  else if !(match home with
      | 0 => own && (region == 0 || region == 7)
      | 1 => own && region == 0
      | 2 => own && region == 2
      | _ => !own) then some 6
  else if home == 1 && !d.hasCache (8 * (pa / 2 ^ 36 % 8) + fld e 55 3) then some 7
  else none

/-- The translation of a page: entry, physical base, virtual base and size. -/
structure Mapping where
  entry : Word
  frame : Nat
  vbase : Nat
  size  : Nat
  level : Nat
  deriving DecidableEq, Repr

/-- The physical address of a virtual one under its mapping. -/
def Mapping.pa (m : Mapping) (va : Word) : Nat := m.frame + va.toNat % m.size

/-- One table entry, read at its home as a bypass read of the unit (R72); none when its sector is poisoned. -/
def State.tableEntry (s : State) (g : Gid) (pa : Nat) : Option Word :=
  let a := s.addrOf (s.dev (gidDev g)) pa
  if s.poisoned a then none else some (BitVec.ofNat 64 (fromLe (s.plainBytes g a 8)))

/-- A table must lie on the walking device, in a window (R63). -/
def tableOk (d : Device) (pa : Nat) : Bool := paDev pa == d.seen && paInWindow pa

/-- The walk of R64 to R68 from a table base. (DEDUCED, log 39) -/
def State.walk (s : State) (g : Gid) (xbase va : Word) : Except WalkEnd Mapping :=
  let d := s.dev (gidDev g)
  if !(fld va 47 17 == 0 || fld va 47 17 == 2 ^ 17 - 1) then .error (.reason 1 0)
  else
    let t1 := fld xbase 18 30 * 2 ^ 18
    if !tableOk d t1 then .error (.reason 8 0)
    else match s.tableEntry g (t1 + 8 * fld va 33 15) with
    | none => .error (.poison 1)
    | some e1 =>
      let f1 := fld e1 18 30 * 2 ^ 18
      if !e1.getLsbD 63 then .error (.reason 2 1)
      else if e1.getLsbD 17 then
        if fld e1 48 15 != 0 || fld e1 0 17 != 0 then .error (.reason 4 1)
        else if !tableOk d f1 then .error (.reason 8 1)
        else match s.tableEntry g (f1 + 8 * fld va 18 15) with
        | none => .error (.poison 2)
        | some e2 =>
          let f2 := fld e2 18 30 * 2 ^ 18
          if !e2.getLsbD 63 then .error (.reason 3 2)
          else if entryReserved e2 then .error (.reason 4 2)
          else if e2.getLsbD 17 && fld e2 18 7 != fld va 18 7 then .error (.reason 5 2)
          else
            let size := if e2.getLsbD 17 then 2 ^ 25 else 2 ^ 18
            let m : Mapping := { entry := e2, frame := f2 / size * size, vbase := va.toNat / size * size, size := size, level := 2 }
            match mapReason d e2 (m.pa va) with
            | some r => .error (.reason r 2)
            | none => .ok m
      else if entryReserved e1 then .error (.reason 4 1)
      else if fld e1 18 15 != 0 then .error (.reason 5 1)
      else
        let m : Mapping := { entry := e1, frame := f1, vbase := va.toNat / 2 ^ 33 * 2 ^ 33, size := 2 ^ 33, level := 1 }
        match mapReason d e1 (m.pa va) with
        | some r => .error (.reason r 1)
        | none => .ok m

def TlbEntry.covers (t : TlbEntry) (xbase va : Word) : Bool :=
  t.xbase == xbase && decide (t.vbase ≤ va.toNat) && decide (va.toNat < t.vbase + t.size)
def TlbEntry.mapping (t : TlbEntry) : Mapping :=
  { entry := t.entry, frame := t.frame, vbase := t.vbase, size := t.size, level := if t.size = 2 ^ 33 then 1 else 2 }

/-- A page that a TLB holds: a section-homed one still needs a bank of its section in CACHE mode (04 R90, R68). -/
def Mapping.cached (d : Device) (va : Word) (m : Mapping) : Except WalkEnd Mapping :=
  if fld m.entry 58 2 == 1 && !d.hasCache (8 * (m.pa va / 2 ^ 36 % 8) + fld m.entry 55 3) then .error (.reason 7 m.level) else .ok m

/-- Translation through the L1 TLB, the section TLB, then a walk (R71). -/
def State.lookup (s : State) (g : Gid) (va : Word) : Except WalkEnd Mapping :=
  let u := s.unitAt g
  let d := s.dev (gidDev g)
  match u.tlb.find? (fun t => t.covers u.xbase va) with
  | some t => t.mapping.cached d va
  | none =>
    match d.tlb.find? (fun t => t.1 == gidSection g && t.2.covers u.xbase va) with
    | some t => t.2.mapping.cached d va
    | none => s.walk g u.xbase va

/-- The storage addresses of the table entries that a walk reads (R64). -/
def State.tableReads (s : State) (g : Gid) (xbase va : Word) : List Nat :=
  let d := s.dev (gidDev g)
  let t1 := fld xbase 18 30 * 2 ^ 18 + 8 * fld va 33 15
  match s.tableEntry g t1 with
  | some e => if e.getLsbD 63 && e.getLsbD 17 then [s.addrOf d t1, s.addrOf d (fld e 18 30 * 2 ^ 18 + 8 * fld va 18 15)] else [s.addrOf d t1]
  | none => [s.addrOf d t1]
/-- Those that a translation reads: none where a TLB holds the page (R71). -/
def State.walkReads (s : State) (g : Gid) (va : Word) : List Nat :=
  let u := s.unitAt g
  let d := s.dev (gidDev g)
  if u.tlb.any (·.covers u.xbase va) || d.tlb.any (fun t => t.1 == gidSection g && t.2.covers u.xbase va) then []
  else s.tableReads g u.xbase va

/-- A walk decodes the sectors that it reads (R58, R72). -/
def State.scrubWalk (s : State) (g : Gid) (va : Word) : State :=
  if s.latent.isEmpty then s else (s.walkReads g va).foldl (fun s a => s.scrub (a / 128)) s

/-- A translated access: the physical address as mapped, its storage byte, the page's memory type, and the section of a section-homed page
(03 R68). -/
structure Place where
  pa    : Nat
  addr  : Nat
  mtype : Nat
  home  : Option Nat
  deriving DecidableEq, Repr

/-- A trap raised by the sequencer, precise. -/
def seqTrap (cause : Cause) (tval : Word) : Trap :=
  { cause := cause, queue := 1, cut := false, tval := tval, xstat := none, tret := none }

/-- Translation and protection of one access, in the order of R69: XLATF, SECVIOL, PROTV.  `q` is the queue code
XSTAT reports; only LD and ST (`regs`) reach a device-register page (R67). -/
def State.translate (s : State) (g : Gid) (q : BitVec 3) (k : AccessKind) (regs : Bool) (va : Word) : Except Trap Place :=
  let u := s.unitAt g
  let trap (c : Cause) (level reason : Nat) : Trap :=
    { cause := c, queue := q, cut := q != 1, tval := va, xstat := some (xstatOf q k level reason), tret := none }
  match s.lookup g va with
  | .error (.reason r l) => .error (trap .xlatf l r)
  | .error (.poison l) => .error (trap .uncorr l 0)
  | .ok m =>
    let pa := m.pa va
    let mtype := fld m.entry 14 3
    if !u.trusted && (m.entry.getLsbD 60 || (s.dev (gidDev g)).regionSecure pa) then .error (trap .secviol 0 0)
    else if (k.writes && !m.entry.getLsbD 62) || (k == .fetch && !m.entry.getLsbD 61) || (mtype == 3 && !regs) then
      .error (trap .protv 0 0)
    else .ok { pa := pa, addr := s.addrOf (s.dev (gidDev g)) pa, mtype := mtype,
               home := if fld m.entry 58 2 == 1 then some (8 * (pa / 2 ^ 36 % 8) + fld m.entry 55 3) else none }

/-- A section-homed access waits for a change of the bank in which its line lies; which one that is is not stated (04 R91; DESIGN CHOICE,
log 88). -/
def State.lineHeld (s : State) (g : Gid) (p : Place) : Bool :=
  match p.home with
  | some sec =>
    let b := (s.dev (gidDev g)).bank (32 * sec + Config.lineBank sec (p.addr / 256) % 32)
    b.begun && b.mode == 0
  | none => false

/-! ### The scratch window (04 R79, R80) -/

/-- Checks one byte of the scratch window for a task: its bank must be in the wanted mode and owned by the task;
a secure bank raises SECVIOL to a non-secure task first.  Whether a system core, which runs no task, has to own the bank is not stated: it
has not (DESIGN CHOICE, log 97).  Answers the address in `Memory`. -/
def State.scratchByte (s : State) (u : Unit) (q : BitVec 3) (k : AccessKind) (mode : BitVec 3) (sec off : Nat) :
    Except Trap Nat :=
  let d := s.dev (gidDev u.gid)
  let trap (c : Cause) : Trap :=
    { cause := c, queue := q, cut := q != 1, tval := BitVec.ofNat 64 off,
      xstat := some (xstatOf q k 0 0), tret := none }
  if 2 ^ 24 ≤ off then .error (trap .protv)
  else
    let b := 32 * sec + off / 2 ^ 19
    let bank := d.bank b
    if d.bankSecure b && !u.trusted then .error (trap .secviol)
    else if bank.mode != mode || (!u.isCore && bank.owner != u.task) then .error (trap .protv)
    else .ok (sramAddr d.num sec off)

/-! ### Signatures (20 R362, R363) -/

/-- One byte into a lane. -/
def laneByte (poly : Word) (x : Word) (b : Byte) : Word :=
  (List.range 8).foldl (fun x _ => if x.getLsbD 63 then (x <<< 1) ^^^ poly else x <<< 1)
    (x ^^^ (b.setWidth 64 <<< 56))

/-- A 32-byte record into both lanes (R363). -/
def laneRecord (l : Word × Word) (rec : List Byte) : Word × Word :=
  (rec.foldl (laneByte 0x42F0E1EBA9EA3693) l.1, rec.foldl (laneByte 0x1B) l.2)

/-- The signature record of R362. -/
def sigRecord (va : Word) (mask : BitVec 16) (cls kind : BitVec 4) (req : Byte) (tail lo16 : List Byte) : List Byte :=
  leBytes 8 va.toNat ++ leBytes 2 mask.toNat ++ [kind ++ cls, req] ++ tail ++ lo16

/-- The pieces of a write: one for each aligned 16 bytes it touches, in ascending address. -/
def sigPieces (va : Word) (cls kind : BitVec 4) (op : Byte) (data : List Byte) : List SigPiece :=
  let a := va.toNat
  let first := a / 16
  (List.range ((a + data.length - 1) / 16 - first + 1)).map fun k =>
    let base := 16 * (first + k)
    let has (i : Nat) : Bool := decide (a ≤ base + i) && decide (base + i < a + data.length)
    let mask := (List.range 16).foldl (fun m i => if has i then m + 2 ^ i else m) 0
    let bytes := (List.range 16).map fun i => if has i then data.getD (base + i - a) 0 else 0
    { base := base, mask := BitVec.ofNat 16 mask, cls := cls, kind := kind, op := op, data := bytes }

def SigPiece.record (p : SigPiece) : List Byte :=
  sigRecord (BitVec.ofNat 64 p.base) p.mask p.cls p.kind p.op (leBytes 4 0) p.data

/-- The records of a scalar store. -/
def storeRecords (va : Word) (cls : BitVec 4) (data : List Byte) : List (List Byte) :=
  (sigPieces va cls 0 0 data).map SigPiece.record

/-- Adds a piece to the pieces of a command: a store to a piece already stored to replaces its bytes, a reduction adds
a piece of its own (R359, R364). -/
def addPiece (l : List SigPiece) (p : SigPiece) : List SigPiece :=
  if p.kind == 0 && l.any (fun x => x.kind == 0 && x.base == p.base) then
    l.map fun x =>
      if x.kind == 0 && x.base == p.base then
        { x with mask := x.mask ||| p.mask,
                 data := (List.range 16).map fun i => if p.mask.getLsbD i then p.data.getD i 0 else x.data.getD i 0 }
      else x
  else l ++ [p]

/-- The pieces in ascending address. -/
def insertPiece (p : SigPiece) : List SigPiece → List SigPiece
  | [] => [p]
  | x :: rest => if x.base ≤ p.base then x :: insertPiece p rest else p :: x :: rest
def traceRecords (l : List SigPiece) : List (List Byte) := (l.foldl (fun acc p => insertPiece p acc) []).map SigPiece.record

/-- A buffered region is open among the outermost `depth` regions (20 R376, R378). -/
def Unit.bufferedAt (u : Unit) (depth : Nat) : Bool := (u.regions.take depth).any (·.buffered)

/-- Enters records of an instruction or command at a region depth into the lanes of a queue (R364); inside a buffered region they wait for its
close (R380). -/
def Unit.signAt (u : Unit) (depth : Nat) (q : BitVec 3) (recs : List (List Byte)) : Unit :=
  if u.bufferedAt depth then { u with heldSigs := u.heldSigs ++ recs.map fun r => { queue := q, record := r, depth := depth } }
  else { u with lanes := u.lanes.set (qidx q) (recs.foldl laneRecord u.lanes[qidx q]) }
/-- The records of an instruction. -/
def Unit.sign (u : Unit) (q : BitVec 3) (recs : List (List Byte)) : Unit := u.signAt u.regions.length q recs

/-- A started command of the queue that has not retired stands before number `n` (R364). -/
def Unit.unsignedBefore (u : Unit) (q : BitVec 3) (n : BitVec 32) : Bool :=
  let earlier (c : Command) : Bool := c.queue == q && c.num != n && decide ((n - c.num).toNat < 2 ^ 31)
  u.inflight.any (fun y => earlier y.command) || u.parked.any earlier || (u.queue q).any fun c => earlier c && c.resume.isSome

/-- The records that wait no longer enter their lanes, in queue order (R364). -/
def Unit.flushSigs (u : Unit) : Unit :=
  let waits (e : SigWait) : Bool := u.unsignedBefore e.queue e.num
  (u.sigWait.filter fun e => !waits e).foldl (fun v e => v.signAt e.depth e.queue e.records) { u with sigWait := u.sigWait.filter waits }

/-- Records in the order of their commands' numbers. -/
def insertSig (e : SigWait) : List SigWait → List SigWait
  | [] => [e]
  | x :: rest => if x.queue == e.queue && decide ((x.num - e.num).toNat < 2 ^ 31) then e :: x :: rest else x :: insertSig e rest

/-- The records of a retired command enter its queue's lane, once those of the earlier commands of the queue have (R364). -/
def Unit.signCommand (u : Unit) (c : Command) (recs : List (List Byte)) : Unit :=
  ({ u with sigWait := insertSig { queue := c.queue, num := c.num, depth := c.depth, records := recs } u.sigWait }).flushSigs

/-- Every lane at its starting value (R363). -/
def Unit.resetLanes (u : Unit) : Unit := { u with lanes := Vector.replicate 7 (BitVec.allOnes 64, BitVec.allOnes 64) }

/-- The combined signature (G₀, G₁) of R363. -/
def Unit.signature (u : Unit) : Word × Word :=
  let g (pick : Word × Word → Word) : Word :=
    ([1, 2, 3, 4, 5, 6] : List (BitVec 3)).foldl (fun x q => x ^^^ (pick u.lanes[qidx q]).rotateLeft (8 * q.toNat)) 0
  (g (·.1), g (·.2))

/-! ### A unit's own writes (12 R236, 16 R288, 20 R358, R378) -/

/-- Writes go to the release buffer: in a replicated task, or inside a buffered region (R358, R378). -/
def Unit.buffering (u : Unit) : Bool := decide (1 < u.live) || u.regions.any (·.buffered)

/-- The bytes a quire of a section may buffer (20 R359), from its RELB banks. -/
def State.bufferRoom (s : State) (u : Unit) : Nat :=
  let d := s.dev (gidDev u.gid)
  let record := (s.dev u.taskDev).tasks.find? fun t => some t.id == u.task
  let relb := ((List.range 32).filter fun b =>
    (d.bank (32 * gidSection u.gid + b)).mode == 4 && (d.bank (32 * gidSection u.gid + b)).owner == u.task).length * 2 ^ 19
  let mine := record.map (·.fields)
  let perSection := match mine with | some f => fld f 576 2 + 1 | none => 1
  let total := match mine with
    | some f => (fld f 576 2 + 1) * (fld f 578 3 + 1) * (fld f 581 3 + 1) * (fld f 584 6 + 1)
    | none => 1
  min (relb / perSection) (2 ^ 22 / total) / 32 * 32

/-- The region depth of an access: that of its command, or the present one (R376). -/
def Unit.depthOf (u : Unit) (x : Access) : Nat :=
  match x.command with
  | some (q, n) => match u.inflight? q n with | some y => y.command.depth | none => u.regions.length
  | none => u.regions.length

/-- An access goes to the release buffer: in a replicated task, or inside a buffered region that contains it (R358, R378). -/
def Unit.buffers (u : Unit) (x : Access) : Bool := decide (1 < u.live) || u.bufferedAt (u.depthOf x)
/-- The same of a command's writes. -/
def Unit.buffersFor (u : Unit) (c : Command) : Bool := decide (1 < u.live) || u.bufferedAt c.depth

/-- The region depth a buffered write belongs to: 0 outside every buffered region. -/
def Unit.writeDepth (u : Unit) (x : Access) : Nat := if u.bufferedAt (u.depthOf x) then u.depthOf x else 0

/-- The aligned 16-byte pieces that an access writes. -/
def Access.slots (x : Access) : List Nat :=
  (x.parts ++ match x.want with | .record _ _ r => [(x.addr + 65536, r.length, false)] | _ => []).flatMap fun p => if p.2.1 = 0 then [] else (List.range ((p.1 + p.2.1 - 1) / 16 - p.1 / 16 + 1)).map (p.1 / 16 + ·)

/-- The bytes in use, in slots of 32: one for each distinct piece that stores write, and one for each piece of each reduction (R359). -/
def Unit.bufferUsed (u : Unit) : Nat :=
  let of (reductions : Bool) : List Nat := (u.relBuf.filter fun w => w.access.reduce.isSome == reductions).flatMap fun w => w.access.slots
  32 * ((of false).eraseDups.length + (of true).length)

/-- Whether the current unit's buffer has room for more writes; always where writes are not buffered.  A replica's empty buffer takes a piece
that alone exceeds it (DESIGN CHOICE, log 82). -/
def State.bufferFits (s : State) (xs : List Access) : Bool :=
  let u := s.cur
  xs.all (fun x => !u.buffers x) || (u.relBuf.isEmpty && !u.regions.any (·.buffered)) ||
    decide (({ u with relBuf := u.relBuf ++ xs.map fun x => { access := x, depth := u.writeDepth x } } : Unit).bufferUsed ≤ s.bufferRoom u)

/-! ### Batches (14 R267) -/

/-- The flits of a packet of `n` bytes, and of the packets of a run: each carries at most 256 bytes (R264). -/
def packetFlits (n : Nat) : Nat := 1 + (n + 63) / 64
def runFlits (n : Nat) : Nat := n / 256 * packetFlits 256 + if n % 256 = 0 ∧ n ≠ 0 then 0 else packetFlits (n % 256)
/-- The flits that one tick carries over a port, and the cycles of a tick (R267). -/
def tickFlits : Nat := 6144
def tickCycles : Nat := 2500

/-- The device's cycle counter: from the end of its reset on, and in TICK mode set so that tick boundaries fall at multiples of a tick's cycles
(21 R404; DEDUCED, log 5). -/
def Device.counter (d : Device) (clock : Nat) : Nat := clock - (if d.routeMode then d.since else d.since / tickCycles * tickCycles)

/-- The tick in which a device stands: a prompt machine's ticks follow its clock, else the event TICK_BOUNDARY ends them (R267). -/
def State.tickOf (s : State) (d : Device) : Nat := if s.prompt then max d.tick (s.clock / tickCycles) else d.tick

/-- The flits that a port carries in a tick, of every flow (R267). -/
def State.portLoad (s : State) (e : Dev × Nat) (t : Nat) : Nat :=
  (s.flows.map fun x =>
    match x.ports.findIdx? (· == e) with
    | none => 0
    | some j => if x.tick + j = t then x.flits else if x.first + j ≤ t ∧ t < x.tick + j then tickFlits else 0).sum

/-- The first of some ticks in which every port of a path has room, at the hop's tick, and the flits that are taken there. -/
def State.roomTick (s : State) (ports : List (Dev × Nat)) : Nat → Nat → Nat × Nat
  | 0, t => (t, 0)
  | fuel + 1, t =>
    let used := ports.zipIdx.foldl (fun n e => max n (s.portLoad e.1 (t + e.2))) 0
    if tickFlits ≤ used then s.roomTick ports fuel (t + 1) else (t, used)

/-- An access enters the flow to its home's device (14 R265).  In TICK mode its flits join the batch of the present tick, or of the next one with
room, behind the flow's earlier packets, and carry over from it (R267; DESIGN CHOICE, log 85). -/
def State.sendFar (s : State) (x : Access) (more : List Access := []) : State :=
  let src := gidDev x.gid
  let dst := addrDev x.addr
  let ports := if (s.dev src).routeMode then [] else s.minimalPath dst (s.flowHops src dst) src
  let mine := s.flows.filter fun p => p.src == src && p.dst == dst
  let last := s.flows.foldl (fun t p => max t p.tick) 0
  let (t, used) := s.roomTick ports (last + 1) (mine.foldl (fun t p => max t p.tick) (s.tickOf (s.dev src)))
  let flits := match x.want with | .message n => runFlits n | _ => packetFlits (x.data.length + (more.map (·.data.length)).sum)
  { s with flows := s.flows ++
      [{ src := src, dst := dst, tick := t + (used + flits - 1) / tickFlits, hops := s.flowHops src dst, access := x, first := t,
         flits := (used + flits - 1) % tickFlits + 1, ports := ports, more := more }] }

/-- The unit's accesses in a running machine go out by steps of the class queues; a prompt machine makes them at once, but for those that
a TICK batch carries or that stand behind others on their flow (16 R288, 14 R265, R267). -/
def State.reachesNow (s : State) (g : Gid) (addr : Nat) : Bool :=
  let src := gidDev g
  let dst := addrDev addr
  s.prompt && (dst == src || ((s.dev src).routeMode && s.flows.all fun p => !(p.src == src && p.dst == dst)))
def State.atOnce (s : State) (x : Access) : Bool := s.reachesNow x.gid x.addr

/-- An access has to follow others of its unit in its class queue: an entry of its class that is not of its own command, or that stands
before the place of its command (16 R289). -/
def Unit.behind (u : Unit) (x : Access) : Bool :=
  let mine (y : Access) : Bool := x.command.isSome && y.command == x.command
  let before := if x.command.isSome && u.classQ.any (fun y => mine y && y.want == .held) then u.classQ.takeWhile fun y => !(mine y && y.want == .held)
    else u.classQ
  before.any fun y => y.cls == x.cls && !mine y

/-- The aligned 8-byte parts of a write to a section bank, each of which is admitted in a round of its own (05 R98, 12 R236, 16 R305);
a write to device memory is one access. -/
def Access.grains (x : Access) : List Access :=
  if x.addr < sramBase || x.data.isEmpty || x.want != .write then [x]
  else (List.range ((x.addr + x.data.length - 1) / 8 - x.addr / 8 + 1)).map fun k =>
    let lo := max x.addr (8 * (x.addr / 8 + k))
    let hi := min (x.addr + x.data.length) (8 * (x.addr / 8 + k) + 8)
    { x with addr := lo, data := (x.data.drop (lo - x.addr)).take (hi - lo) }

/-- The class queues with an access's parts at their place: those of a command that has more to make stand before that (16 R288). -/
def Unit.beforeHeld (u : Unit) (x : Access) (parts : List Access) : List Access :=
  let mine (y : Access) : Bool := y.want == .held && x.command.isSome && y.command == x.command
  u.classQ.takeWhile (fun y => !mine y) ++ parts ++ u.classQ.dropWhile fun y => !mine y

/-- The cycles after which a store or a reduction performs: the figure of its home, and the hops one way (01 R21, R23). -/
def State.storeLatency (s : State) (u : Unit) (addr : Nat) : Nat :=
  if sramBase ≤ addr then 16
  else 110 + (if addrDev addr != gidDev u.gid then 1500 * s.flowHops (gidDev u.gid) (addrDev addr)
    else if !u.isCore && addr / 2 ^ 36 % 8 != gidVolume u.gid then 70 else 0)

/-- A write of a device register. -/
def Access.isRegister (x : Access) : Bool := match x.want with | .register _ => true | _ => false

/-- A scalar store of a class that a release of the unit's FENCE names carries it (16 R295). -/
def Unit.fenced (u : Unit) (x : Access) : Access :=
  match u.carrier with | some c => if maskHas c.2 x.cls && x.command.isNone then { x with carrier := some c } else x | none => x

/-- A write leaves its unit: to the home when the machine is prompt, else to its class queue (16 R288).  A write on
a stopped flow does not perform and LINKFAIL waits for the next release (14 R270). -/
def State.emit (s : State) (x : Access) : State :=
  let u := s.unitAt x.gid
  let x := u.fenced x
  match if addrDev x.addr == gidDev x.gid then none else s.flowFails (gidDev x.gid) (addrDev x.addr) with
  | some port => s.setUnit { u with lost := u.lost ++ [(x.cls, BitVec.ofNat 64 port)] }
  | none =>
    if s.atOnce x && !u.behind x && !x.isRegister then
      let sailing := if x.command.isSome then u.sailing
        else u.sailing.filter (fun e => decide (u.time < e.2)) ++ [(x.cls, u.time + s.storeLatency u x.addr)]
      (s.setUnit { u with sailing := sailing }).admitAt x []
    else if s.prompt && !u.behind x && addrDev x.addr != gidDev x.gid && x.command.isNone && !x.isRegister then s.sendFar x
    else s.setUnit { u with classQ := u.beforeHeld x (if x.command.isSome then x.grains else [x]) }

/-- A write of the current unit, kept in its release buffer where writes are buffered. -/
def State.put (s : State) (x : Access) : State :=
  if s.cur.buffers x then
    { s with cur := { s.cur with relBuf := s.cur.relBuf ++ [{ access := x, depth := s.cur.writeDepth x }] } }
  else s.emit x

/-- The bytes of an address space with a buffered write over them: a store replaces them, a reduction updates them (20 R359; DEDUCED, log
17). -/
def BufWrite.over (w : BufWrite) (path : Nat → Byte) : Nat → Byte :=
  let data := match w.access.reduce with
    | none => w.access.data
    | some (op, f) => (w.access.reduceOver path op f).1
  fun a => (w.access.byteOf data a).getD (path a)

/-- A byte that a unit reads: its buffered writes, in their order, over what its path shows it (20 R359). -/
def Unit.over (u : Unit) (path : Nat → Byte) : Nat → Byte := u.relBuf.foldl (fun p w => w.over p) path

/-- Bytes that a unit reads at their homes: its release buffer over what the homes show it (20 R359). -/
def State.seenBytes (s : State) (u : Unit) (a n : Nat) : List Byte :=
  (List.range n).map fun k => u.over (s.plainByte u.gid) (a + k)

/-! ### Reads in a round (16 R292) -/

/-- What a read admitted in a round sees beside the machine after the round: the machine before it, and, by aligned 8 bytes, whether it takes
the round's writes. -/
structure View where
  before : State
  late   : Nat → Bool

/-- A read outside any round of writes. -/
def State.view (s : State) : View := { before := s, late := fun _ => true }

/-- A write of unit `g` in the round reaches a byte, or in device memory its sector. -/
def State.ownIn (s : State) (v : View) (g : Gid) (x : Nat) : Bool :=
  s.pend.any fun r => r.gid == g && decide (v.before.nextWrite ≤ r.id) &&
    if x < sramBase then decide (r.addr / 128 ≤ x / 128) && decide (x / 128 ≤ (r.addr + r.data.length - 1) / 128) else (r.byteAt x).isSome

/-- Bytes that a unit reads at their home, with the ids of the writes that they come from: of the round's writes all or none on each aligned 8
bytes, and its own in any case (R292). -/
def State.viewed (s : State) (v : View) (u : Unit) (a n : Nat) : List Nat × List Byte :=
  let at_ (x : Nat) : State := if v.late (x / 8) || s.ownIn v u.gid x then s else v.before
  ((List.range n).filterMap (fun k => ((at_ (a + k)).plainRec? u.gid (a + k)).map (·.id)),
   (List.range n).map fun k => u.over (fun x => (at_ x).plainByte u.gid x) (a + k))

/-- Bytes as an atomic update of the current unit finds them: the last writes in coherence order, with the unit's own
buffered writes and reductions replayed over them (20 R359, DEDUCED, log 17). -/
def State.replayed (s : State) (a n : Nat) : List Byte := (List.range n).map fun k => s.cur.over s.homeByte (a + k)

/-! ### The commit window (06 R124, R125) -/

/-- The first word of the loop body and its length in words (R138). -/
def Unit.bodyAt (u : Unit) : Word := BitVec.ofInt 64 (toSigned 48 (fld u.lbody 3 45 * 8))
def Unit.bodyLen (u : Unit) : Nat := fld u.lbody 48 14
/-- Whether a loop is active and an address lies in its body. -/
def Unit.inBody (u : Unit) (pc : Word) : Bool :=
  u.lbody.getLsbD 63 && decide ((pc - u.bodyAt).toNat < 8 * u.bodyLen)

/-- The next PC after a word that does not transfer control, with the end of a loop body (R138). -/
def Unit.advance (u : Unit) : Unit :=
  if u.lbody.getLsbD 63 && u.pc == u.bodyAt + BitVec.ofNat 64 (8 * u.bodyLen - 8) then
    let c := u.lcount + 1
    if c.toNat < u.llimit.toNat then { u with lcount := c, pc := u.bodyAt }
    else { u with lcount := c, lbody := u.lbody &&& 0x7FFFFFFFFFFFFFFF, pc := u.pc + 8 }
  else { u with pc := u.pc + 8 }

/-- Records an executed instruction, which completes in cycle `done`: with an empty window it commits when its cycle passes, else it takes
an entry until it has completed (R124). -/
def Unit.record (before after : Unit) (push : Option (BitVec 3 × BitVec 32)) (store : Option (Access × List (List Byte)))
    (load : Option HeldLoad) (done : Nat) : Unit :=
  if before.window.isEmpty && push.isNone && load.isNone && decide (done ≤ before.time + 1) then { after with committed := after.committed + 1 }
  else { after with window := before.window ++
    [{ pc := before.pc, before := before.toSeqRegs, push := push, store := store, load := load, done := done }] }

/-! ### Tasks, kills and reports (19 R334, 21 R394, R395) -/

def TaskState.code : TaskState → Nat
  | .accepted => 0 | .waiting => 1 | .eligible => 2 | .running => 3 | .checkpointed => 4 | .completed => 5
  | .killed => 6 | .rejected => 7

/-- The status word of R334. -/
def statusWord (st : TaskState) (reason : Nat) (id : BitVec 32) : Word :=
  BitVec.ofNat 64 (st.code * 2 ^ 60 + reason * 2 ^ 52 + id.toNat)

/-- Writes a task's status word at offset 160 of its record, at the record's home (R334); records are named by their storage address. -/
def State.writeStatus (s : State) (record : Nat) (st : TaskState) (reason : Nat) (id : BitVec 32) : State :=
  s.masterWrite (record + 160) (leBytes 8 (statusWord st reason id).toNat)

def Device.task? (d : Device) (id : BitVec 32) : Option Task := d.tasks.find? fun t => t.id == id
def Device.setTask (d : Device) (t : Task) : Device :=
  { d with tasks := d.tasks.map fun x => if x.id == t.id then t else x }

/-- A kill report enters KILLLOG, a ring of 64, and signals MSI-X vector 1 (R395, 23 R411, R413). -/
def Device.killReport (d : Device) (id : BitVec 32) (quire : Gid) (cause reason : Nat) (words : List Word) : Device :=
  let n := (d.reg 0x71000).toNat
  let base := 0x70000 + 64 * (n % 64)
  let w0 := BitVec.ofNat 64 (id.toNat + quire.toNat * 2 ^ 32 + cause * 2 ^ 48 + reason * 2 ^ 56)
  let d := (w0 :: words).zipIdx.foldl (fun d e => d.setReg (base + 8 * e.2) e.1) d
  { d.setReg 0x71000 (BitVec.ofNat 64 (n + 1)) with msix := d.msix ++ [1] }

/-- The request that the unit waits with is given up: it is none any more where it reaches a clasp engine. -/
def Unit.dropRequest (u : Unit) : Unit :=
  { u with wait := none, arrived := false, classQ := u.classQ.filter fun x => match x.want with | .request .. => false | _ => true }

/-- The quire leaves its task: nothing is placed on it. -/
def Unit.free (u : Unit) : Unit :=
  { u.dropRequest with
           run := .idle, task := none, queues := Vector.replicate 7 [], parked := [], inflight := [], window := [], waits := [],
           raised := none, cutting := none, regions := [], relBuf := [], heldSigs := [], sigWait := [], live := 1, presented := none,
           waitingAt := 0, met := false, metBelow := [], unsigned := none, ndValue := none, ndResult := none }

/-- Releases what a task holds on a device: banks, step-cache pins, ordered rounds, the quires reserved for it, posts and waiting sends (19 R344,
R355, 17 R327, 12 R244, 14 R279). -/
def Device.releaseTask (d : Device) (id : BitVec 32) (units : List Gid) : Device :=
  { d with
    banks := d.banks.map fun e => (e.1, if e.2.owner == some id then { e.2 with owner := none } else e.2),
    steps := d.steps.map fun e => (e.1, { e.2 with pins := e.2.pins.filter fun g => !units.contains g }),
    ordered := d.ordered.filter fun o => o.task != id,
    reserved := d.reserved.filter fun e => e.2 != id,
    held := d.held.filter (fun x => match x.ord with | some o => o.task != id | none => true),
    posts := d.posts.filter fun p => !units.contains p.gid,
    sends := d.sends.filter fun p => !units.contains p.gid }

/-- The same on every device; held contributions of other tasks may then go on (12 R244). -/
def State.releaseTask (s : State) (id : BitVec 32) (units : List Gid) : State :=
  (s.devs.map (·.num)).foldl (fun s n => (s.onDev n fun d => d.releaseTask id units).admitHeldOf n) s

/-- Ends a task's context (R394, R405): every quire of it stops, the status word takes state 6 with its reason, no
successor is decremented; a task that held quires is reported. (DEDUCED, log 59) -/
def State.killTask (s : State) (dev : Dev) (id : BitVec 32) (reason : Nat) (quire : Option Gid) (words : List Word) : State :=
  match (s.dev dev).task? id with
  | none => s
  | some t =>
    let s := t.units.foldl (fun s g => s.setUnit (s.unitAt g).free) s
    let s := s.releaseTask id t.units
    let s := s.onDev dev fun d =>
      let d := { d.setTask { t with state := .killed, units := [], saved := [], sram := [], modes := [], tags := [] } with
        queue := d.queue.filter (· != id) }
      if t.units.isEmpty then d else d.killReport id (s.seenGid (quire.getD (t.units.headD 0))) 0x7F reason words
    s.writeStatus t.record .killed reason id

/-! ### Taking a trap (21 R382-R389) and returning (R392) -/

/-- Cause codes (R383). -/
def Cause.code : Cause → Nat
  | .illop => 0x01 | .illfld => 0x02 | .priv => 0x03 | .idivz => 0x04 | .fpexc => 0x05 | .align => 0x06
  | .xlatf => 0x10 | .protv => 0x11 | .secviol => 0x12 | .capovf => 0x20 | .setviol => 0x21 | .phaseovl => 0x22
  | .overrun => 0x23 | .shadow => 0x24 | .replmism => 0x30 | .katfail => 0x32 | .cmdmism => 0x33 | .uncorr => 0x34
  | .ringerr => 0x40 | .clasperr => 0x41 | .linkfail => 0x50 | .swtrap => 0x60 | .brkpt => 0x61 | .bufferFull | .notYet => 0

/-- TCAUSE of R382. -/
def Trap.tcause (t : Trap) : Word :=
  BitVec.ofNat 64 (t.queue.toNat * 2 ^ 9 + (if t.cut then 2 ^ 8 else 0) + t.cause.code)

/-- Whether a queued command has started before: it goes on after a stop, and its push has committed. -/
def Command.started (c : Command) : Bool := c.resume.isSome

/-- An instruction that had presented a signature and waited for its peers has presented none (20 R361). (DEDUCED, log 10) -/
def Unit.unpresent (u : Unit) : Unit :=
  if u.waitingAt = 1 && !u.met then
    { u with waitingAt := 0, presented := none, unsigned := none,
             lanes := match u.unsigned with | some x => u.lanes.set 1 x | none => u.lanes }
  else u

/-- Step 1 of R385: every uncommitted entry of the window is dropped, with the registers it wrote, and every command
that has not started is discarded; QCUT and the next push numbers name the first command not started.  A command that
went back to its queue head to go on is parked again (R386), but for one that a full release buffer holds there
(20 R361) and one pushed in handler mode. (DEDUCED, log 10) -/
def Unit.formCut (u : Unit) : Unit :=
  let first (q : BitVec 3) : BitVec 32 := match (u.queue q).find? fun c => !c.started with
    | some c => c.num
    | none => u.nextNum[qidx q]
  let nums : Vector (BitVec 32) 7 :=
    Vector.ofFn fun i => if i.val = 1 then u.committed else first (BitVec.ofNat 3 i.val)
  let stays (c : Command) : Bool := c.started && (c.handler || u.waitingAt == c.queue)
  let back := engineQueues.flatMap fun q => (u.queue q).filter fun c => c.started && !stays c
  let u := match u.window with
    | [] => u
    | e :: _ => { u.rewindTo e.before with pc := e.pc }
  { u.unpresent.dropRequest with
           window := [], ndValue := none, idleFrom := none, queues := u.queues.map fun l => l.filter stays, qcut := nums,
           idleSince := Vector.ofFn fun i => if u.queues[i].isEmpty then u.idleSince[i] else u.time, parked := back ++ u.parked,
           nextNum := Vector.ofFn fun i => if i.val = 1 then u.nextNum[1] else nums[i] }

/-- Every result has landed (R385, R387). -/
def Unit.allLanded (u : Unit) : Unit :=
  { u with ready := u.ready.map (min · u.time), dready := u.dready.map (min · u.time),
           vready := u.vready.map (min · u.time), mready := u.mready.map (min · u.time) }

/-- An interrupted instruction that has met goes on after the return; the handler meets for itself (20 R361). -/
def Unit.setMetAside (u : Unit) : Unit :=
  let mine := u.met && u.waitingAt == 1
  { u with metBelow := mine :: u.metBelow, met := u.met && !mine, waitingAt := if mine then 0 else u.waitingAt }
def Unit.takeMetBack (u : Unit) : Unit :=
  let mine := u.metBelow.headD false
  { u with metBelow := u.metBelow.drop 1, met := u.met || mine, waitingAt := if mine then 1 else u.waitingAt }

/-- The record of R385 and the entry of R388 at level `n`; the handler's first word issues 12 cycles later. -/
def Unit.enterLevel (u : Unit) (t : Trap) : Unit :=
  let tret := t.tret.getD u.pc
  let u := match t.xstat with | some x => { u with xstat := x } | none => u
  let sp := u.rs 63
  let base := { u.allLanded.setMetAside with raised := none, cutting := none, idleFrom := none, busy := u.time + 12 }
  if u.tlevel = 0 then
    { (base.ws 63 u.tsave) with
      tcause1 := t.tcause, tret1 := tret, tval1 := t.tval, tsp1 := sp, tlevel := 1, pc := u.tvec }
  else
    { (base.ws 63 (u.tsave + 512)) with
      tcause2 := t.tcause, tret2 := tret, tval2 := t.tval, tsp2 := sp, tlevel := 2, pc := u.tvec }

/-- A boot attempt fails (23 R422): the reason and the count enter BOOTSTAT, the attempt enters BOOTLOG with its source and the
cycle, and the third failure in a row is minimal mode; else the next attempt begins, from the host where BOOTSRC has been
written since. -/
def Device.bootFailed (d : Device) (fromHost : Bool) (reason cycle : Nat) : Device :=
  let stat := d.reg 0x90010
  let n := fld stat 8 4
  let d := ((d.setReg (0x90040 + 16 * n) (BitVec.ofNat 64 ((if fromHost then 1 else 2) + reason * 2 ^ 8))).setReg (0x90048 + 16 * n)
    (BitVec.ofNat 64 cycle)).setReg 0x90010 (stat.extractLsb' 12 52 ++ BitVec.ofNat 4 (n + 1) ++ BitVec.ofNat 8 reason)
  if 2 ≤ n then { d with boot := .minimal }
  else if d.srcWritten then { d with boot := .fetching true, srcWritten := false }
  else { d with boot := .choosing }

/-- The device's boot attempt fails, and its system cores go back to the boot ROM. -/
def State.bootFailed (s : State) (n : Dev) (fromHost : Bool) (reason : Nat) : State :=
  let back (u : Unit) : Unit := if u.isCore && gidDev u.gid == n then { u with run := .idle } else u
  { s with cur := back s.cur, others := s.others.map back }.onDev n fun d => d.bootFailed fromHost reason (d.counter s.clock)

/-- The current unit's context ends (R389, R394): the task is killed with reason 0x11 and the report carries the
escalating trap; a system core stops. -/
def State.escalate (s : State) (t : Trap) : State :=
  let u := s.cur
  if u.isCore then
    let s' := { s with cur := { u with run := .dead, raised := none } }
    match s.myDev.boot with
    | .started fromHost _ => s'.bootFailed (gidDev u.gid) fromHost 8
    | _ => s'
  else match u.task with
    | none => { s with cur := { u with run := .dead, raised := none } }
    | some id => s.killTask u.taskDev id 0x11 (some u.gid)
        [t.tcause, t.tret.getD u.pc, t.tval, u.tcause1, u.tret1, u.tcause2, u.tret2]

/-- A started command that has done all of its own and waits only for room for its token or its reply entries (06 R128, R132). -/
def State.onlyRoom (s : State) (y : Inflight) : Bool :=
  let u := s.cur
  !y.waiting && !y.todo && decide (y.until_ ≤ u.time) && s.landed u y.command &&
  ((y.gives != 0 && decide (8 ≤ u.fifo y.command.queue y.gives)) ||
    (!y.replies.isEmpty && u.inflight.any fun x => x.command.queue == y.command.queue && !x.replies.isEmpty &&
      decide (16 < u.replies.length + x.replies.length)))

/-- Step 2 of R385 is over: no started command runs any more.  One that only waits for room that the interrupted program has to make stays in
flight (DEDUCED, log 10). -/
def State.cutDone (s : State) : Bool := s.cur.queues.all (·.isEmpty) && s.cur.inflight.all s.onlyRoom

/-- The record is formed and the handler entered, once step 2 is over (R385, R388). -/
def State.endCut (s : State) : State :=
  match s.cur.cutting with
  | some x => if s.cutDone then { s with cur := s.cur.enterLevel x.trap } else s
  | none => s

/-- Of two traps of one cut the one that is recorded: one that nothing would raise again, else that of the lowest queue code (R385; DEDUCED,
log 10). -/
def Cutting.merge (x y : Cutting) : Cutting :=
  if x.again != y.again then (if x.again then y else x)
  else if y.trap.queue.toNat < x.trap.queue.toNat then y else x

/-- Taking a trap (R385, R388, R389, R394): the one operation every trap ends in.  It forms the cut; the record follows when every started
command has retired, stopped or been abandoned. -/
def State.takeTrapAt (s : State) (x : Cutting) : State :=
  let u := s.cur.formCut
  let s := { s with cur := u }
  if u.tlevel = 2 || u.tvec = 0 then s.escalate x.trap
  else State.endCut { s with cur := { u with raised := none, cutting := some (match u.cutting with | some y => y.merge x | none => x) } }

/-- What raises the trap raises it again after the return: an instruction that is executed again, a command that is pushed again (R384, R385).
(DEDUCED, log 10) -/
def Trap.again (t : Trap) : Bool :=
  match t.cause with
  | .uncorr | .katfail | .cmdmism | .replmism | .swtrap | .linkfail => false
  | _ => true

def State.takeTrap (s : State) (t : Trap) : State := s.takeTrapAt { trap := t, depth := 0, again := t.again }

/-- The innermost region that contains what happened: a region of depth `k` contains the commands pushed at depth
`k` or deeper (20 R376, R377). -/
def containing (u : Unit) (depth : Nat) : Nat := min depth u.regions.length

/-- A containment event (R377): the region's commands and uncommitted effects are discarded, it and the regions inside it
close, its buffered writes are dropped, CSTAT is written and the quire continues at the handler.  Commands pushed before the region
go on, and QCUT and the push numbers stay as they were (DEDUCED, log 83). -/
def State.contain (s : State) (event depth : Nat) (q : BitVec 3) (tval : Word) : State :=
  let old := s.cur
  match old.regions[depth - 1]? with
  | none => s
  | some r =>
    let u := old.formCut
    let outside (c : Command) : Bool := decide (c.depth < depth)
    let kept := u.inflight.filter fun x => outside x.command
    let dropped (k : BitVec 3 × BitVec 32) : Bool := u.inflight.any fun x => x.command.queue == k.1 && x.command.num == k.2 && !outside x.command
    let entries := (old.replies.zip old.replyOf).filter fun e => !dropped e.2
    let gone (p : Post) : Bool := p.gid == u.gid && u.inflight.any fun x =>
      x.command.num == p.command.num && x.command.queue == 5 && !outside x.command
    { s with
      devs := s.devs.map fun d => { d with posts := d.posts.filter fun p => !gone p, sends := d.sends.filter fun p => !gone p }
      cur := { u with
        pc := r.handler, raised := none, qcut := old.qcut, nextNum := old.nextNum,
        joining := if kept.any fun x => x.command.queue == 3 && x.waiting then u.joining else none,
        replies := entries.map (·.1), replyOf := entries.map (·.2),
        classQ := u.classQ.filter fun x => x.want == .write || !(x.command.any dropped),
        cutting := old.cutting.filter fun x => decide (x.depth < depth),
        regions := u.regions.take (depth - 1),
        inflight := kept,
        parked := old.parked.filter outside,
        queues := old.queues.map fun l => l.filter outside,
        relBuf := u.relBuf.filter fun w => decide (w.depth < depth),
        heldSigs := u.heldSigs.filter fun h => decide (h.depth < depth),
        cstat := BitVec.ofNat 64 (event * 2 ^ 60 + depth * 2 ^ 56 + q.toNat * 2 ^ 53 + tval.toNat % 2 ^ 32) } }

/-- The event code of CSTAT for the causes that containment takes (R377). -/
def Cause.containEvent : Cause → Option Nat
  | .uncorr => some 1
  | .katfail => some 2
  | .cmdmism => some 3
  | _ => none

/-- What a trap does when it is delivered at region depth `depth`: a containment event inside an open region for the
causes of R377, else the trap. -/
def State.deliverAs (s : State) (t : Trap) (depth : Nat) (again : Bool) : State :=
  let x : Cutting := { trap := t, depth := depth, again := again }
  match t.cause.containEvent with
  | some e => if 0 < containing s.cur depth then s.contain e (containing s.cur depth) t.queue t.tval else s.takeTrapAt x
  | none => s.takeTrapAt x
def State.deliver (s : State) (t : Trap) (depth : Nat) : State := s.deliverAs t depth t.again

/-- A trap the sequencer raises (R384): it is taken once every earlier instruction has committed; a cut cause is taken
as soon as it arises.  Where the machine is not prompt a precise one waits for the step TRAP_TAKE (DESIGN CHOICE, log 4). -/
def State.raise (s : State) (t : Trap) : State :=
  if t.cut || (s.prompt && s.cur.window.isEmpty) then s.deliver t s.cur.regions.length
  else { s with cur := { s.cur with raised := some t } }

/-- The answer of a meaning that raises a trap. -/
def trapNow (s : State) (t : Trap) : Res := .next (s.raise t)

/-- The next push to an engine queue takes the number that QCUT holds (R386). -/
def Unit.renumberQueues (u : Unit) : Unit :=
  { u with nextNum := Vector.ofFn fun i => if i.val < 2 then u.nextNum[i] else u.qcut[i] }

/-- ERET's return from level `n` (R392), once its waits are over: s63, PC and TLEVEL, and the numbers of the next pushes (R386). -/
def Unit.leaveLevel (u : Unit) : Unit :=
  let u := u.renumberQueues.takeMetBack
  if u.tlevel = 2 then { (u.ws 63 u.tsp2) with pc := u.tret2, tlevel := 1 }
  else { (u.ws 63 u.tsp1) with pc := u.tret1, tlevel := 0 }

/-- The state field of the progress register of a queue (05 R120, 12 R247, 17 R325); V and M keep none. -/
def Unit.progress (u : Unit) (q : BitVec 3) : Option Word :=
  if q = 2 then some u.qprogL else if q = 5 then some u.qprogW else if q = 6 then some u.qprogE else none

/-- Returning to level 0 puts each parked command back at its queue head, to go on from the progress its QPROG
holds; a copy or edge command whose QPROG state is 0 is discarded instead (R392, R121).  Where QPROG was written with another
value, the continuation is undefined (R401): it goes on from the free value numbered `n`. -/
def Unit.unpark (u : Unit) (n : Nat) : Unit :=
  let keep := u.parked.filter fun c => match u.progress c.queue with | some p => fld p 62 2 != 0 | none => true
  let from_ (c : Command) : Nat := match u.progress c.queue with
    | some p => if p == BitVec.ofNat 64 (2 ^ 62 + c.resume.getD 0) then fld p 0 62 else fld (Config.freeWord n) 0 62
    | none => c.resume.getD 0
  let again (c : Command) : Command := { c with resume := some (from_ c) }
  let u := { u with parked := [] }
  keep.reverse.foldl (fun u c => u.setQueue c.queue (again c :: u.queue c.queue)) u

end Sys2Proof.Machine
end

