-- ==== Sys2Proof/Machine/Board.lean ====
section
/-! DEFINITION. Writes of device registers (23 R413-R418), the reset of a device (23 R415, R419), and the mode change of a
section bank (04 R90). -/
namespace Sys2Proof.Machine
open Sys2Proof

/-! ### Banks (04 R90) -/

/-- The contents of a bank become undefined: nothing of it stays listed, nor of what was written to it and has not reached the shelf, and a new
span begins. -/
def State.clearBank (s : State) (dev : Dev) (b : Nat) : State :=
  let a := sramAddr dev (b / 32) (b % 32 * 524288)
  let there (x : Nat) : Bool := decide (a ≤ x) && decide (x < a + 524288)
  { s with mem := s.mem.forget a 524288, pend := s.pend.filter fun r => !there r.addr, poison := s.poison.filter fun x => !(decide (a / 128 ≤ x) && decide (x < (a + 524288) / 128)) }

/-- The effect of a mode change once its waits are over: step-cache entries and rings of the bank go, and its contents
are undefined. -/
def State.changeMode (s : State) (dev : Dev) (b : Nat) (mode : BitVec 3) : State :=
  let old := (s.dev dev).bank b
  if old.mode = mode then s
  else
    (s.clearBank dev b).onDev dev fun d =>
      let sec := b / 32
      let k := b % 32
      let d := d.setBank b { old with mode := mode, epoch := old.epoch + 1 }
      let d := if old.mode = 3 then { d with steps := d.steps.filter fun e => !(e.1 / 128 == sec && e.1 % 128 / 4 == k) } else d
      if old.mode = 2 then { d with rings := d.rings.filter fun e =>
          !(e.1 / 64 == sec && decide (fld e.2.config 0 5 ≤ k) && decide (k ≤ fld e.2.config 0 5 + fld e.2.config 5 5)) }
      else d

/-- A bank leaves RELB mode only when no buffered write lies in it (R90).  Which RELB bank of its section holds a quire's buffer is not stated:
each waits for the buffers of all the section's quires (DESIGN CHOICE, log 98). -/
def State.relbClear (s : State) (dev : Dev) (b : Nat) : Bool :=
  s.units.all fun u => u.isCore || !(gidDev u.gid == dev && gidSection u.gid == b / 32) || u.relBuf.isEmpty

/-! ### Communicators (14 R270, R271) -/

/-- An entry of the communicator table, as read (R271). -/
structure Comm where
  state  : Nat
  size   : Nat
  rank   : Nat
  issuer : Nat
  gen    : BitVec 32
  devs   : List Dev
  deriving DecidableEq, Repr

def commBase (k : Nat) : Nat := 0x50000 + 128 * k

/-- Entry `k` of a device's communicator table. -/
def Device.comm (d : Device) (k : Nat) : Comm :=
  let w := d.reg (commBase k)
  let n := fld w 48 6 + 1
  { state := fld w 62 2, size := n, rank := fld w 40 6, issuer := fld w 32 8, gen := w.extractLsb' 0 32,
    devs := (List.range n).map fun r => BitVec.ofNat 6 (d.regByte (commBase k + 8 + r)) }

/-- The same with its members as devices of the shelf, whose numbers the entry holds (01 R19). -/
def State.comm (s : State) (d : Device) (k : Nat) : Comm := { d.comm k with devs := (d.comm k).devs.map (s.deviceOf d) }

/-- An active communicator with both devices as members. -/
def Comm.joins (c : Comm) (a b : Dev) : Bool := c.state == 1 && c.devs.contains a && c.devs.contains b

/-- The flow from one device to another has stopped: every active communicator with both as members is broken, on every device (R271). -/
def State.breakBetween (s : State) (a b : Dev) : State :=
  (s.devs.map (·.num)).foldl (fun s n => s.onDev n fun d =>
    (List.range 64).foldl (fun d k =>
      if (s.comm d k).joins a b then
        let w := d.reg (commBase k)
        d.setReg (commBase k) (2#2 ++ w.extractLsb' 0 62)
      else d) d) s

/-- The flows that stop between two states of the shelf: source, destination and port (14 R269, R270). -/
def newlyStopped (s t : State) : List (Dev × Dev × Nat) :=
  (t.devs.map (·.num)).flatMap fun a => (t.devs.map (·.num)).filterMap fun b =>
    if (s.flowFails a b).isSome then none else (t.flowFails a b).map fun p => (a, b, p)

/-- A flow of a ROUTE device stays stopped until its route is loaded again (14 R269). -/
def State.markStopped (s : State) (src dst : Dev) (port : Nat) : State :=
  s.onDev src fun d => if d.routeMode then { d with stopped := d.stopped ++ [(dst, port)] } else d

/-! ### Who may write what (R413, R416) -/

def Master.id : Master → Nat
  | .host => 1 | .management => 2 | .debug => 3 | .core => 0

/-- Access classes of the register table: read-only, owner and cores, secure, and the registers with a rule of their own. -/
inductive RegClass where
  | readOnly | owner | secure | claim | bootsrc | bootdone | none
  deriving DecidableEq, Repr

def regClass (off : Nat) : RegClass :=
  if !regListed off then .none
  else if off = 0x1008 then .claim
  else if off = 0x90000 then .bootsrc
  else if off = 0x90008 then .bootdone
  else if off = 0 ∨ off = 0x10 ∨ off = 0x1000 ∨ (0x30100 ≤ off ∧ off < 0x30200) ∨ (0x60000 ≤ off ∧ off < 0x60048) ∨
      (0x70000 ≤ off ∧ off < 0x80000) ∨ 0x90010 ≤ off then .readOnly
  else if 0x3000 ≤ off ∧ off < 0x4000 then .secure
  else .owner

def Device.owner (d : Device) : Nat := fld (d.reg 0x1000) 0 4

/-- The bits of a register that a write reaches; reserved ones read zero (00 R6).  Those of a communicator that lie beyond its size read
zero too (`Device.readReg`): one that is written while it lies there is kept, and shows where the size is enlarged later, in whatever order the
entry's words are written (DESIGN CHOICE, log 103). -/
def writeMask (off : Nat) (x : Word) : Word :=
  if off = 8 then x &&& 0x3F
  else if 0x3000 ≤ off ∧ off < 0x3100 then x &&& (if off % 16 = 0 then 0x0000FFFFFFFC0001 else 0x0000FFFFFFFC0000)
  else if off = 0x3100 then x &&& 1
  else if off = 0x3320 then x &&& 0xFFFF
  else if off = 0x30000 then x &&& 0xFFFFFFFF00003F01
  else if off = 0x60048 then x &&& 0xFF
  else if off = 0x80000 then BitVec.ofNat 64 (min 3200 (max 1000 (fld x 0 16)))
  else if 0x50000 ≤ off ∧ off < 0x52000 then x &&& (if off % 128 = 0 then 0xC03F3FFFFFFFFFFF else 0x3F3F3F3F3F3F3F3F)
  else x

/-- CLAIM (R416): a claim of a free device, or the owner's hand-over; anything else changes nothing, and a write that is
ignored is counted. -/
def Device.claim (d : Device) (by_ : Master) (x : Word) : Device :=
  let me := Master.id by_
  let low := fld x 0 4
  let next := fld x 4 4
  if by_ = .core ∨ x.toNat / 256 ≠ 0 then d.violation
  else if low ≠ 0 then
    if low ≠ me ∨ next ≠ 0 then d.violation
    else if d.owner = 0 then d.setReg 0x1000 (BitVec.ofNat 64 me) else d
  else if me ≠ d.owner then d.violation
  else if next ≤ 3 then d.setReg 0x1000 (BitVec.ofNat 64 next)
  else d.violation

/-- BOOTSRC was written (R419, R421): an attempt that still chooses takes the host as its source; else the write is kept for the next. -/
def Device.sourceWritten (d : Device) : Device :=
  if d.boot = .choosing then { d with boot := .fetching true, srcWritten := false } else { d with srcWritten := true }

/-- BOOTDONE (R419, R420, R422): boot ends, vector 3 is signalled, the count of failures returns to 0, and the fused counter
rises where the image asks for it. -/
def Device.bootDone (d : Device) : Device :=
  match d.boot with
  | .started _ raise =>
    let stat := d.reg 0x90010
    let fused := match raise with | some v => max v (fld stat 32 32) | none => fld stat 32 32
    { (d.setReg 0x90010 (BitVec.ofNat 32 fused ++ (stat.extractLsb' 12 20) ++ 0#4 ++ stat.extractLsb' 0 8)) with
      boot := .done, msix := d.msix ++ [3] }
  | _ => d

/-- A task holds quires of the device (R413: DEVNUM and KCONF are then fixed). -/
def State.taskPlaced (s : State) (n : Dev) : Bool := s.units.any fun u => gidDev u.gid == n && u.task.isSome

/-- DEVNUM: the device uses the assigned number everywhere (01 R19). -/
def State.assignNumber (s : State) (n x : Dev) : State := s.onDev n fun d => { d with number := some x }

/-! ### Resetting a device (R419) -/

/-- A device and its units right after a reset: every register at its value after reset, but for the fused counter and the
cause of a reset that the device made itself; the device reads as number 0 again (R19); every bank in SCRATCH mode with undefined contents; no task, nothing queued.
Device memory keeps its bytes (DESIGN CHOICE, log 20).  What is on its way to it from other devices is left to the flows, which the reset stops
(R415, 14 R270). (DEDUCED, log 73) -/
def State.resetDevice (s : State) (n : Dev) (cause : Nat) : State :=
  let old := s.dev n
  let mine (u : Unit) : Bool := gidDev u.gid == n
  let stat : Word := ((old.reg 0x90010).extractLsb' 32 32) ++ (if cause = 0 then (old.reg 0x90010).extractLsb' 24 8 else BitVec.ofNat 8 cause) ++ 0#24
  let fresh := { Device.atReset n with
    regs := (if old.srcWritten then [(0x90000, old.reg 0x90000)] else []) ++ [(0x90010, stat)], since := s.clock, msix := old.msix,
    boot := if old.srcWritten then .fetching true else .choosing,
    banks := (List.range 2048).filterMap fun b => if (old.bank b).epoch = 0 ∧ !old.banks.any (·.1 == b) then none
      else some (b, { Bank.atReset with epoch := (old.bank b).epoch + 1 }) }
  let s := { s with
    mem := s.mem.filter fun c => !(decide (sramBase ≤ c.1) && addrDev c.1 == n),
    pend := (s.pend.filter fun (r : WriteRec) => !(decide (sramBase ≤ r.addr) && addrDev r.addr == n)).map fun (r : WriteRec) =>
      if gidDev r.gid == n then { r with horizon := 4 } else r,
    admQ := s.admQ.filter fun x => gidDev x.gid != n && addrDev x.addr != n,
    flows := s.flows.filter fun p => p.src != n,
    clasps := s.clasps.filter fun r => gidDev r.1 != n,
    asked := s.asked.filter fun r => gidDev r.gid != n,
    requests := s.requests.filter fun r => gidDev r.arrival.gid != n,
    others := s.others.filter fun u => !mine u,
    cur := if mine s.cur then Unit.atReset s.cur.gid else s.cur }
  (s.setDev fresh).fold

/-- A port counts as failed no longer. -/
def Device.portReturned (d : Device) (p : Nat) : Device := d.setReg (0x30100 + 8 * p) (d.reg (0x30100 + 8 * p) &&& ~~~(1 : Word))
/-- A port that the owner enables again counts as failed no longer, nor does one that a route uses which the owner loads while tasks are placed: how
a failure is cleared is not stated (14 R272; DESIGN CHOICE, log 86). -/
def Device.portsReturned (d : Device) (old new_ : Word) : Device :=
  (List.range 32).foldl (fun d p =>
    if old.getLsbD (32 + p) && !new_.getLsbD (32 + p) then d.portReturned p else d) d
def Device.routeLoaded (d : Device) (dst : Nat) : Device :=
  match d.route (BitVec.ofNat 6 dst) with | some (p :: _) => d.portReturned p | _ => d

/-- A write of an owner register that the table lets through. -/
def State.ownerWrite (s : State) (n : Dev) (by_ : Master) (off : Nat) (x : Word) : State :=
  if off = 0x1010 then (if x.getLsbD 0 then s.resetDevice n 0 else s)
  else if off = 0x2000 then
    let pa := x.toNat
    if pa % 256 ≠ 0 ∨ 2 ^ 48 ≤ pa ∨ paDev pa ≠ (s.dev n).seen ∨ !paInWindow pa then s.onDev n Device.violation
    else s.onDev n fun d => { d with submissions := d.submissions ++ [{ record := s.addrOf (s.dev n) pa, secure := by_ == .core, gid := none }] }
  else if off = 8 then (if s.taskPlaced n then s else s.assignNumber n (x.setWidth 6))
  else if off = 0x30000 ∧ s.taskPlaced n then s
  else
    let write (d : Device) : Device := d.setReg off (writeMask off x)
    s.onDev n fun d =>
      if off = 0x30000 then (write d).portsReturned (d.reg off) x
      else if 0x40000 ≤ off ∧ off < 0x40800 then
        { (write d).routeLoaded ((off - 0x40000) / 32) with stopped := d.stopped.filter fun e => (s.dev e.1).seen.toNat != (off - 0x40000) / 32 }
      else write d

/-- A write of 8 bytes to the device registers by a master or a system core (R413, R416, R421). (DEDUCED, log 50) -/
def State.regWrite (s : State) (n : Dev) (by_ : Master) (off : Nat) (x : Word) : State :=
  let d := s.dev n
  let owns := by_ == .core || (d.owner != 0 && d.owner == Master.id by_)
  if d.boot = .minimal ∧ !minimalListed off then (if owns then s else s.onDev n Device.violation)
  else match regClass off with
  | .none => if owns then s else s.onDev n Device.violation
  | .readOnly => if owns then s else s.onDev n Device.violation
  | .claim => s.onDev n fun d => d.claim by_ x
  | .secure =>
    if by_ = .core ∧ !(d.reg 0x3100).getLsbD 0 then s.onDev n fun d => d.setReg off (writeMask off x)
    else s.onDev n Device.violation
  | .bootsrc =>
    if by_ = .host then s.onDev n fun d => (d.setReg off (x &&& ~~~(0xFFF : Word))).sourceWritten
    else s.onDev n Device.violation
  | .bootdone =>
    if by_ = .core then (if x = 1 then s.onDev n Device.bootDone else s) else s.onDev n Device.violation
  | .owner => if owns then s.ownerWrite n by_ off x else s.onDev n Device.violation

/-- Where the device registers begin in a device's local address space (03 R60, 23 R413). -/
def regBase : Nat := 0x38000000000
/-- The offset of a physical address in region 0b111. -/
def regOffset (pa : Nat) : Nat := pa % 2 ^ 42 - regBase

/-! ### Entries of the clasp engines (12 R248, R249) -/

/-- The key of the entry of an address's 64-byte granule, and of a ring of a device. -/
def granuleKey (addr : Nat) : Nat := addr / 64
def ringKey (dev : Dev) (index : Nat) : Nat := 2 ^ 42 + dev.toNat * 4096 + index
/-- The volume whose clasp engine holds an entry. -/
def keyVolume (key : Nat) : Nat := if key < 2 ^ 42 then key / 2 ^ 30 % 8 else (key - 2 ^ 42) / 512 % 8

/-- The entries a volume's clasp engine keeps resident (R248). -/
def claspEntries : Nat := 65536

/-- The device once an entry is resident, and whether it was spilled; none where a spill finds the overflow table full
(R249).  The least recently used entry stands first. -/
def Device.touch (d : Device) (key : Nat) : Option (Device × Bool) :=
  if d.resident.contains key then some ({ d with resident := d.resident.filter (· != key) ++ [key] }, false)
  else
    let mine (l : List Nat) : List Nat := l.filter fun k => keyVolume k == keyVolume key
    let spilled := d.spilled.filter (· != key)
    if (mine d.resident).length < claspEntries then
      some ({ d with resident := d.resident ++ [key], spilled := spilled }, d.spilled.contains key)
    else match mine d.resident with
      | [] => none
      | old :: _ =>
        if (mine spilled).length < (d.reg (0x20008 + 16 * keyVolume key)).toNat then
          some ({ d with resident := d.resident.filter (· != old) ++ [key], spilled := spilled ++ [old] }, d.spilled.contains key)
        else none

end Sys2Proof.Machine
end

