-- ==== Sys2Proof/Machine/Commit.lean ====
section
/-! DEFINITION. The commit window (06 R124, R125): what lets an entry commit, and the loads that it holds back. -/
namespace Sys2Proof.Machine
open Sys2Proof

/-- The sequencer instructions a unit has executed since placement, committed or not. -/
def Unit.executed (u : Unit) : BitVec 32 := u.committed + BitVec.ofNat 32 u.window.length

/-! ### Loads (04 R83-R85, 16 R289, R290) -/

/-- A load's value: the bytes read, sign- or zero-extended (R85). -/
def loadValue (size : BitVec 2) (sx : Bool) (bs : List Byte) : Word :=
  if sx then BitVec.ofInt 64 (toSigned (8 * 2 ^ size.toNat) (fromLe bs)) else BitVec.ofNat 64 (fromLe bs)

/-- Entries of the window hold back no access of the class: every store of it has committed, every load of it stands in its class queue or has
left it (06 R125). -/
def windowFree (l : List WinEntry) (cls : BitVec 4) : Bool :=
  l.all fun e =>
    (match e.store with | some x => x.1.cls != cls | none => true) && (match e.load with | some h => h.cls != cls || h.sent.isSome | none => true)

/-- Every earlier access of the class has left its queue, those that still wait in the window included (06 R125, 16 R289). -/
def Unit.classFree (u : Unit) (cls : BitVec 4) : Bool := windowFree u.window cls && u.classQ.all fun x => x.cls != cls

/-- A plain read through the home by the current unit: its own release buffer first, and the writes it read noted for a
later acquire (16 R292, R297). -/
def State.readHome (s : State) (v : View) (cls : BitVec 4) (a n : Nat) : State × List Byte :=
  let u := s.cur
  let r := s.viewed v u a n
  ({ s with cur := { u with readFrom := (u.readFrom ++ r.1.map fun i => (i, cls)).eraseDups } }, r.2)

/-- LINKFAIL of a scalar access to a remote home whose flow is stopped (14 R270). -/
def State.linkTrap (s : State) (addr : Nat) : Option Trap :=
  (s.flowFails (gidDev s.cur.gid) (addrDev addr)).map fun port => seqTrap .linkfail (BitVec.ofNat 64 port)

/-! ### Sector copies (04 R82, R83; 06 R122; 16 R294) -/

/-- Drops the copies of a sector, from the level-zero cache too. -/
def Unit.dropSector (u : Unit) (sector : Nat) : Unit :=
  { u with l1 := u.l1.filter fun c => c.sector != sector, l0 := u.l0.filter fun c => c.sector != sector }

/-- The sector copies that a level-zero cache of 16 KiB and an L1 hold (06 R122, 04 R82, 01 R16). -/
def l0Copies : Nat := 128
def Unit.l1Copies (u : Unit) : Nat := if u.isCore then 512 else 1024

/-- A copy answers a read of `n` bytes at `a`: no later value of the same aligned 8 bytes has been read (R83). -/
def SectorCopy.serves (c : SectorCopy) (a n : Nat) : Bool :=
  c.sector == a / 128 && c.barred.all fun g => !(decide (a / 8 ≤ g) && decide (g ≤ (a + n - 1) / 8))

/-- The aligned 8 bytes that a run of bytes touches. -/
def grainsOf (a n : Nat) : List Nat := if n = 0 then [] else (List.range ((a + n - 1) / 8 - a / 8 + 1)).map (a / 8 + ·)

/-- A copy that is barred in those of some aligned 8 bytes that `old` tells of. -/
def SectorCopy.bar (c : SectorCopy) (a n : Nat) (old : Nat → List Byte → Bool) : SectorCopy :=
  if c.sector == a / 128 then
    { c with barred := (c.barred ++ (grainsOf a n).filter fun g => old g ((c.data.drop (8 * g % 128)).take 8)).eraseDups }
  else c

/-- A load at the home has read `n` bytes at `a`: copies that differ from what the home holds, and held before the round, answer no later read
of them (R83). -/
def State.barCopies (s : State) (v : View) (a n : Nat) : State :=
  let u := s.cur
  let old (g : Nat) (bs : List Byte) : Bool := bs != s.plainBytes u.gid (8 * g) 8 && bs != v.before.plainBytes u.gid (8 * g) 8
  { s with cur := { u with l1 := u.l1.map (·.bar a n old), l0 := u.l0.map (·.bar a n old) } }

/-- A default-path load has returned bytes of a copy: the level-zero cache answers no later fetch with older ones (R83; 06 R122). -/
def Unit.barFetches (u : Unit) (c : SectorCopy) (a n : Nat) : Unit :=
  { u with l0 := u.l0.map (·.bar a n fun g bs => bs != (c.data.drop (8 * g % 128)).take 8) }

/-- A copy joins a full or a partly full set; the oldest copy of a full one goes (04 R82, 16 R294). -/
def installCopy (limit : Nat) (l : List SectorCopy) (c : SectorCopy) : List SectorCopy :=
  if l.any (fun x => x.sector == c.sector) then l else (if limit ≤ l.length then l.drop 1 else l) ++ [c]

/-- The copy of a sector that a unit would make at its home now: none of a poisoned one (04 R82), and none of storage that is no device
memory (04 R80). -/
def State.freshCopy (s : State) (sector : Nat) : Option SectorCopy :=
  let a := 128 * sector
  if sramBase ≤ a ∨ s.poisoned a then none
  else some { sector := sector, data := s.plainBytes s.cur.gid a 128,
              from_ := ((List.range 128).filterMap fun k => (s.plainRec? s.cur.gid (a + k)).map (·.id)).eraseDups, barred := [] }

/-- The copy of a sector by the default path: the L1's, else one from the home. -/
def State.copyOf (s : State) (sector : Nat) : Option SectorCopy :=
  (s.freshCopy sector).map fun c => (s.cur.l1.find? fun c => c.sector == sector).getD c

/-- The sector that a default-path load reads at its home enters the L1, in the place of an older copy (04 R82). -/
def State.fillL1 (s : State) (a n : Nat) : State :=
  match s.freshCopy (a / 128) with
  | some c =>
    let u := s.cur.barFetches c a n
    { s with cur := { u with l1 := installCopy u.l1Copies (u.l1.filter fun x => x.sector != c.sector) c } }
  | none => s

/-- A prefetched sector enters the L1, where no copy of it stands (04 R82, R88). -/
def State.prefetched (s : State) (sector : Nat) (l1 : Bool) : State :=
  let s := s.scrub sector
  match if l1 then s.copyOf sector else none with
  | some c => { s with cur := { s.cur with l1 := installCopy s.cur.l1Copies s.cur.l1 c } }
  | none => s

/-- One latency after another. -/
def Latency.plus (x y : Latency) : Latency := { typical := x.typical + y.typical, bound := x.bound + y.bound }
/-- A latency of one figure. -/
def Latency.exact (n : Nat) : Latency := { typical := n, bound := n }
/-- The cycle in which a register that is written with a latency holds its value: framed code reads it only after the bound (01 R21, 04 R95, 06
R123; DESIGN CHOICE, log 5). -/
def Unit.landsAt (u : Unit) (lat : Latency) : Nat := u.time + if u.framed then lat.bound else lat.typical

/-- The latency of a read at its home: at its home slice or from its stack, in another volume, and over its hops there and back (01 R21,
R23).  Whether the home slice holds the line is not stated (DESIGN CHOICE, log 89); a system core lies in no volume (DESIGN CHOICE, log 90). -/
def State.homeLatency (s : State) (addr : Nat) : Latency :=
  let u := s.cur
  ((if addrDev addr != gidDev u.gid then
      let hops := s.flowHops (gidDev u.gid) (addrDev addr)
      { typical := 2 * 1500 * hops, bound := 2 * 1750 * hops }
    else if !u.isCore && addr / 2 ^ 36 % 8 != gidVolume u.gid then { typical := 70, bound := 90 } else .exact 0) : Latency).plus
  (if Config.homeMisses s.free then { typical := 340, bound := 460 } else { typical := 110, bound := 140 })

/-- The typical cycles of a read at its home. -/
def State.loadLatency (s : State) (addr : Nat) : Nat := (s.homeLatency addr).typical

/-- The latency of the table entries that a translation reads (01 R21). -/
def State.walkLatency (s : State) (va : Word) : Latency := (s.walkReads s.cur.gid va).foldl (fun t a => t.plus (s.homeLatency a)) (.exact 0)

/-- What comes of a load that is tried: it waits, traps, leaves for its home, or gives its value and latency. -/
inductive LoadTry where
  | wait
  | trap (t : Trap)
  | sent (s : State) (num : Nat)
  | done (s : State) (value : Desc) (lat : Latency)

/-- The value for a load's destination. -/
def LoadDest.value (l : LoadDest) (bs : List Byte) : Desc :=
  match l with
  | .scalar _ size sx => (loadValue size sx bs).setWidth 256
  | .descr _ => BitVec.ofNat 256 (fromLe bs)

/-- The bank of a scratch load is in a mode change, or no longer admits the load (04 R79, R91). -/
def State.scratchHeld (s : State) (addr : Nat) : Bool := ((s.dev (addrDev addr)).bank ((addr - sramBase) % 2 ^ 30 / 2 ^ 19)).begun
def State.scratchTrap (s : State) (k : AccessKind) (addr : Nat) : Option Trap :=
  let u := s.cur
  let off := (addr - sramBase) % 2 ^ 24
  let sec := (addr - sramBase) % 2 ^ 30 / 2 ^ 24
  match s.scratchByte u 1 k 1 sec off with
  | .error t => some { t with tval := BitVec.ofNat 64 (if u.isCore then 2 ^ 24 * sec + off else off) }
  | .ok _ => none

/-- A load reads at its home: its value and its latency, that of its walk included, and what becomes of the copies of its sector (04 R82-R84). -/
def State.loadAt (s : State) (v : View) (h : HeldLoad) : State × Desc × Latency :=
  let s := s.scrubRun h.addr h.n
  let r := s.readHome v h.cls h.addr h.n
  let x := h.dest.value r.2
  match h.path with
  | .scratch => (r.1, x, .exact 16)
  | .cached => ({ r.1.fillL1 h.addr h.n with free := s.free + 1 }, x, (r.1.walkLatency h.va).plus (r.1.homeLatency h.addr))
  | .home => ({ r.1.barCopies v h.addr h.n with free := s.free + 1 }, x, (r.1.walkLatency h.va).plus (r.1.homeLatency h.addr))

/-- An access of a sequencer. -/
def scalarAccess (g : Gid) (want : Want) (cls : BitVec 4) (addr : Nat) (data : List Byte) (sect : Option Nat) : Access :=
  { gid := g, want := want, cls := cls, addr := addr, data := data, command := none, carrier := none, release := [], reduce := none,
    ord := none, orphan := false, sect := sect }

/-- A load, a prefetch or a request of the current unit enters its class queue, under the next number (16 R288). -/
def State.sendOut (s : State) (want : Want) (cls : BitVec 4) (addr : Nat) (sect : Option Nat := none) : State :=
  { s with nextWrite := s.nextWrite + 1, cur := { s.cur with classQ := s.cur.classQ ++ [scalarAccess s.cur.gid want cls addr [] sect] } }

/-- The L1 copy that answers a default-path load (R83). -/
def Unit.l1Hit (u : Unit) (h : HeldLoad) : Option SectorCopy := if h.path == .cached then u.l1.find? (·.serves h.addr h.n) else none

/-- A load answered from a copy: its value, and what the unit has read with it (R83, 16 R294, R297). -/
def State.answerFrom (s : State) (c : SectorCopy) (h : HeldLoad) : State × Desc :=
  let u := s.cur.barFetches c h.addr h.n
  ({ s with cur := { u with readFrom := (u.readFrom ++ c.from_.map fun i => (i, h.cls)).eraseDups } },
   h.dest.value ((List.range h.n).map fun k => u.over (fun x => (c.data.drop (x % 128)).headD 0) (h.addr + k)))

/-- A load by another path or of another class has not returned from the sector: a default-path load may not return an older value than it (R83). -/
def sectorPending (earlier : List WinEntry) (h : HeldLoad) : Bool :=
  h.path == .cached && earlier.any fun e => e.load.any fun x => x.path != .scratch && x.addr / 128 == h.addr / 128

/-- A load behind the entries `earlier`: from an L1 copy where the default path finds one, else at the home (R83, R84); in a running machine
its access enters its class queue (16 R288). -/
def State.tryLoad (s : State) (earlier : List WinEntry) (h : HeldLoad) : LoadTry :=
  let u := s.cur
  if !windowFree earlier h.cls || sectorPending earlier h || (s.prompt && u.classQ.any fun x => x.cls == h.cls) then .wait
  else match if u.classQ.any (fun x => x.cls == h.cls) then none else u.l1Hit h with
  | some c => let r := s.answerFrom c h; .done r.1 r.2 (.exact 8)
  | none =>
    match if h.path == .scratch then (if s.scratchHeld h.addr then none else s.scratchTrap .read h.addr) else s.linkTrap h.addr with
    | some t => .trap t
    | none =>
      match s.poisonedIn? h.addr h.n with
      | some k => .trap (seqTrap .uncorr (h.va + BitVec.ofNat 64 k))
      | none =>
        if h.path == .scratch && s.scratchHeld h.addr then .wait
        else if !s.reachesNow u.gid h.addr then
          .sent (s.sendOut (.load s.nextWrite h.n) h.cls h.addr h.sect) s.nextWrite
        else if !s.lineFree u h.cls h.addr none then .wait
        else let r := s.loadAt (s.view) h; .done r.1 r.2.1 r.2.2

/-! ### Loads that were held back -/

/-- A load's register awaits it, under the load's number. -/
def Unit.await (u : Unit) (n : BitVec 32) (l : LoadDest) : Unit :=
  match l with
  | .scalar a _ _ => if a = 0 then u else { u with waits := (u.waits.filter fun w => !w.2.isReg a) ++ [(n, l)] }
  | .descr d => { u with waits := (u.waits.filter fun w => !w.2.isDesc d) ++ [(n, l)] }

/-- The registers after load `n` has landed: its value where no later instruction has written the register. -/
def SeqRegs.fill (r : SeqRegs) (n : BitVec 32) (x : Desc) : SeqRegs :=
  match r.waits.find? fun w => w.1 == n with
  | none => r
  | some (_, .scalar a _ _) => { r with s := r.s.set a.toNat (x.setWidth 64), waits := r.waits.filter fun w => w.1 != n }
  | some (_, .descr d) => { r with d := r.d.set d.toNat x, waits := r.waits.filter fun w => w.1 != n }

/-- Load `n`, at place `k` of the window, lands, and completes as it does (R124). -/
def Unit.fillLoad (u : Unit) (k : Nat) (n : BitVec 32) (x : Desc) (lat : Latency) : Unit :=
  let late := u.landsAt lat
  let u := match u.waits.find? fun w => w.1 == n with
    | some (_, .scalar a _ _) => { u with ready := u.ready.set a.toNat late }
    | some (_, .descr d) => { u with dready := u.dready.set d.toNat late }
    | none => u
  { u with toSeqRegs := u.toSeqRegs.fill n x,
           window := u.window.zipIdx.map fun e =>
             { e.1 with before := e.1.before.fill n x, load := if e.2 = k then none else e.1.load,
                        done := if e.2 = k then late else e.1.done } }

/-- Notes that the load at place `k` of the window has left, under a number. -/
def Unit.sentLoad (u : Unit) (k num : Nat) : Unit :=
  { u with window := u.window.zipIdx.map fun e =>
      if e.2 = k then { e.1 with load := e.1.load.map fun h => { h with sent := some num } } else e.1 }

/-- Makes the loads of the window that may leave now, from place `k` on. -/
def loadPass : Nat → Nat → State → State
  | 0, _, s => s
  | n + 1, k, s =>
    loadPass n (k + 1) (match (s.cur.window.drop k).head?.bind (·.load) with
      | some h =>
        if h.sent.isSome then s
        else match s.tryLoad (s.cur.window.take k) h with
          | .done t x lat => { t with cur := t.cur.fillLoad k (t.cur.committed + BitVec.ofNat 32 k) x lat }
          | .sent t num => { t with cur := t.cur.sentLoad k num }
          | _ => s
      | none => s)

def State.makeLoads (s : State) : State :=
  if s.cur.window.all fun e => e.load.isNone then s else loadPass s.cur.window.length 0 s

/-- The current unit's load of a number is admitted at its home (16 R292, R293): its value is fixed.  One that meets an error there is tried
again, and traps where it is the oldest instruction (04 R85); one that a trap has dropped reads nothing. -/
def State.arriveLoad (s : State) (v : View) (num : Nat) : State :=
  match s.cur.window.zipIdx.find? fun e => e.1.load.any fun h => h.sent == some num with
  | some ({ load := some h, .. }, k) =>
    if (s.poisonedIn? h.addr h.n).isSome || (h.path == .scratch && (s.scratchTrap .read h.addr).isSome) then
      { s with cur := { s.cur with window := s.cur.window.zipIdx.map fun e =>
          if e.2 = k then { e.1 with load := e.1.load.map fun h => { h with sent := none } } else e.1 } }
    else
      let r := s.loadAt v h
      { r.1 with cur := r.1.cur.fillLoad k (r.1.cur.committed + BitVec.ofNat 32 k) r.2.1 r.2.2 }
  | _ => s

/-- A default-path load that leaves its class queue and finds a copy in the L1 is answered from it (16 R289). -/
def State.answerLeaving (s : State) (num : Nat) : Option State :=
  match s.cur.window.zipIdx.find? fun e => e.1.load.any fun h => h.sent == some num with
  | some ({ load := some h, .. }, k) => (s.cur.l1Hit h).map fun c =>
      let r := s.answerFrom c h
      { r.1 with cur := r.1.cur.fillLoad k (r.1.cur.committed + BitVec.ofNat 32 k) r.2 (.exact 8) }
  | _ => none

/-- The trap of the oldest entry: its load's (04 R85), or that of a scratch store whose bank no longer admits it (04 R91). -/
def State.oldestTrap (s : State) : Option Trap :=
  match s.cur.window with
  | [] => none
  | e :: _ => match e.load, e.store with
    | some h, _ => if h.sent.isSome then none else match s.tryLoad [] h with | .trap t => some t | _ => none
    | none, some x => if x.1.addr < sramBase ∨ s.scratchHeld x.1.addr then none else s.scratchTrap .store x.1.addr
    | none, none => none

/-! ### Commit -/

/-- An entry may commit when it has completed, its load has been made, and the command it pushed has started: it is no longer in its queue
(R124). (DEDUCED, log 43) -/
def Unit.canCommit (u : Unit) (e : WinEntry) : Bool :=
  e.load.isNone && decide (e.done ≤ u.time) &&
  match e.push with
  | none => true
  | some (q, n) => (u.queue q).all fun c => c.num != n || c.resume.isSome

/-- The bank of a held store is in a mode change, or turns the store away (04 R91). -/
def State.storeHeld (s : State) (e : WinEntry) : Bool :=
  match e.store with
  | some x => s.homeHeld x.1 || (decide (sramBase ≤ x.1.addr) && (s.scratchTrap .store x.1.addr).isSome)
  | none => false

/-- A held store has room in the release buffer, where writes are buffered (20 R359). -/
def State.storeFits (s : State) (e : WinEntry) : Bool := match e.store with | some x => s.bufferFits [x.1] | none => true

/-- The oldest store leaves: the meeting that made room for it is over (20 R361). -/
def Unit.roomMade (u : Unit) : Unit := if u.met && u.waitingAt == 1 then { u with met := false, waitingAt := 0 } else u

/-- Commits the oldest entry if it may commit; its store leaves now (R125), into a release buffer only where it fits. -/
def State.commitOldest (s : State) : Option State :=
  match s.cur.window with
  | [] => none
  | e :: rest =>
    if s.cur.canCommit e && !s.storeHeld e && s.storeFits e then
      let s' := { s with cur := { s.cur with window := rest, committed := s.cur.committed + 1 } }
      some (match e.store with
        | some x => State.put { s' with cur := s'.cur.roomMade.sign 1 x.2 } x.1
        | none => s')
    else none

/-- Commits as many entries as may commit, and makes the loads that this lets leave. -/
def commitAll : Nat → State → State
  | 0, s => s
  | n + 1, s => match s.makeLoads.commitOldest with | some s' => commitAll n s' | none => s.makeLoads

def State.commit (s : State) : State := commitAll s.cur.window.length s

end Sys2Proof.Machine
end

