-- ==== Sys2Proof/Machine/Fetch.lean ====
section
/-! DEFINITION. Fetching the word at the PC and what a step does when there is no instruction to run (06 R122, 02 R43-R46). -/
namespace Sys2Proof.Machine
open Sys2Proof

/-- The words R16 marks ILLOP on a system core, by class and opcode. -/
def coreIllopWord (w : Word) : Bool :=
  let c := fld w 60 4
  let op := fld w 52 8
  (decide (6 ≤ c) && decide (c ≤ 12)) ||
  (c == 4 && decide (8 ≤ op) && decide (op ≤ 10)) ||
  (c == 5 && decide (0x16 ≤ op) && decide (op ≤ 0x19)) ||
  (c == 14 && [4, 5, 6, 7, 8, 0xB, 0x10].contains op)

/-- The trap of a word that does not decode: ILLOP before ILLFLD (R43, R44, R47). -/
def rejectTrap (core : Bool) (w : Word) (r : Reject) : Trap :=
  seqTrap (if core && coreIllopWord w then .illop else match r with | .illop => .illop | .illfld => .illfld) w

/-- The copy that answers a fetch of 8 bytes: the level-zero cache's, else the L1's (R122, 04 R82, R83). -/
def Unit.fetchCopy (u : Unit) (a : Nat) : Option SectorCopy := (u.l0.find? (·.serves a 8)).or (u.l1.find? (·.serves a 8))

/-- The bytes a unit fetches: those of a copy, else of the home. -/
def State.fetchBytes (s : State) (a : Nat) : List Byte :=
  match s.cur.fetchCopy a with
  | some c => (c.data.drop (a % 128)).take 8
  | none => s.plainBytes s.cur.gid a 8

/-- The word at a virtual address of the running program, or the trap of its fetch. -/
def State.fetchAt (s : State) (va : Word) : Except Trap Word :=
  match s.translate s.cur.gid 1 .fetch false va with
  | .error t => .error t
  | .ok p =>
    if (s.cur.fetchCopy p.addr).isNone && s.poisoned p.addr then .error (seqTrap .uncorr va)
    else .ok (BitVec.ofNat 64 (fromLe (s.fetchBytes p.addr)))

/-- The fetch of a word decodes the sectors that it and its walk read (03 R58). -/
def State.scrubFetch (s : State) (va : Word) : State :=
  if s.latent.isEmpty then s
  else
    let t := s.scrubWalk s.cur.gid va
    match s.translate s.cur.gid 1 .fetch false va with
    | .ok p => if (t.cur.fetchCopy p.addr).isNone then t.scrub (p.addr / 128) else t
    | .error _ => t

/-- What the sequencer finds at its PC. -/
inductive Fetched where
  | run (i : Instr)
  | trap (t : Trap)
  deriving DecidableEq, Repr

/-- The word at the PC, decoded. -/
def State.fetched (s : State) : Fetched :=
  match s.fetchAt s.cur.pc with
  | .error t => .trap t
  | .ok w =>
    match decode w with
    | .ok i => .run i
    | .error r => .trap (rejectTrap s.cur.isCore w r)

/-- A byte range at which nothing is held back, poisoned or copied: used to lay a program down. -/
def State.lay (s : State) (a : Nat) (data : List Byte) : State :=
  { s with mem := s.mem.write a data,
           poison := s.poison.filter fun x => !(decide (a / 128 ≤ x) && decide (x ≤ (a + data.length) / 128)),
           latent := s.latent.filter fun e => !(decide (a / 128 ≤ e.1) && decide (e.1 ≤ (a + data.length) / 128)) }

/-- Where the program that `withFetchWord` lays down lies: the second 8 GiB of the unit's device. -/
def State.programAt (s : State) : Nat := (gidDev s.cur.gid).toNat * 2 ^ 42 + 2 ^ 33
/-- Its level-1 table: the first page of the device. -/
def State.tableAt (s : State) : Nat := (gidDev s.cur.gid).toNat * 2 ^ 42

/-- The machine with one word in memory at virtual address 0 of the current unit, which runs there: what boot,
submission, acceptance and placement lead to (DESIGN CHOICE, log 6).  The level-1 block maps 8 GiB, writable and executable; the table base
and the block's frame hold the number that the device reads as its own (01 R19). -/
def State.withWord (s : State) (w : Word) : State :=
  let u := s.cur
  let own := s.myDev.seen.toNat * 2 ^ 42
  let s' := { s with
    cur := { u with run := .running, debug := .off, raised := none, cutting := none, pc := 0, xbase := BitVec.ofNat 64 own,
                    tlb := [], l0 := [], l1 := [], window := [], waits := [], busy := 0 },
    devs := s.devs.map fun (d : Device) => if d.num == gidDev u.gid then { d with tlb := [] } else d,
    pend := [], agenda := [] }
  (s'.lay s.programAt (leBytes 8 w.toNat)).lay s.tableAt
    (leBytes 8 (0xE000000000000000 + own + 2 ^ 33))

end Sys2Proof.Machine
end

