-- ==== Sys2Proof/Machine/Operands.lean ====
section
/-! DEFINITION. The operand forms of descriptors and vector registers: fields (02 R49-R51), places in the six spaces
(02 R50, 05 R96-R98, 12 R258, 17 R326), rows and elements. -/
namespace Sys2Proof.Machine
open Sys2Proof

/-! ### Descriptor fields (R49) -/

def dBase (d : Desc) : Word := d.extractLsb' 192 64
def dSpace (d : Desc) : Nat := fld d 188 4
def dFmt (d : Desc) : BitVec 4 := d.extractLsb' 184 4
def dRows (d : Desc) : Nat := fld d 160 24
def dCols (d : Desc) : Nat := fld d 136 24
def dStride (d : Desc) : Int := toSigned 32 (fld d 104 32)
def dAux (d : Desc) : BitVec 32 := d.extractLsb' 72 32
def dMicro (d : Desc) : BitVec 32 := d.extractLsb' 40 32
def dFlags (d : Desc) : BitVec 8 := d.extractLsb' 32 8
def dScale (d : Desc) : BitVec 32 := d.extractLsb' 0 32

/-- `d` with another format, microword or flags: a push resolves TBL codes and presets (R31, 05 R101). -/
def dWithFmt (d : Desc) (f : BitVec 4) : Desc := d.extractLsb' 188 68 ++ f ++ d.extractLsb' 0 184
def dWithMicro (d : Desc) (m : BitVec 32) : Desc := d.extractLsb' 72 184 ++ m ++ d.extractLsb' 0 40

/-- The layout flags (R51), as bits of `dFlags`. -/
def flagRanked : BitVec 8 := 0x80
def flagTransposed : BitVec 8 := 0x40
def flagBlockscaled : BitVec 8 := 0x20
def flagPacked : BitVec 8 := 0x10
def flagCsr : BitVec 8 := 0x08
def flagCsc : BitVec 8 := 0x04
def flagTeam : BitVec 8 := 0x02
def flagResid : BitVec 8 := 0x01
def hasFlag (d : Desc) (f : BitVec 8) : Bool := dFlags d &&& f != 0
/-- No flag is set outside `f`. -/
def onlyFlags (d : Desc) (f : BitVec 8) : Bool := dFlags d &&& ~~~f == 0
/-- Zero rows or zero columns: an empty operand (R50). -/
def dEmpty (d : Desc) : Bool := dRows d == 0 || dCols d == 0

/-- Space codes (R50). -/
def spMem : Nat := 0
def spScr : Nat := 1
def spAcc : Nat := 2
def spVrf : Nat := 3
def spRing : Nat := 4
def spStep : Nat := 5

/-- The bits of one row, and its bytes, the last one perhaps in part (05 R97). -/
def rowBits (d : Desc) : Nat := dCols d * elemBits (dFmt d)
def rowBytes (d : Desc) : Nat := ceilDiv (rowBits d) 8

/-! ### Vector registers (08 R172, R173) -/

/-- Element `i` of width `w`. -/
def vElem (w : Nat) (x : BitVec 4096) (i : Nat) : Nat := fld x (w * i) w
/-- How many elements of width `w` a register holds. -/
def vCount (w : Nat) : Nat := 4096 / w
def vElems (w : Nat) (x : BitVec 4096) : List Nat := (List.range (vCount w)).map (vElem w x)
/-- A register from its elements, element 0 first; elements that are not given are zero. -/
def vOf (w : Nat) (xs : List Nat) : BitVec 4096 :=
  BitVec.ofNat 4096 (xs.foldr (fun x acc => x % 2 ^ w + 2 ^ w * acc) 0)
/-- Whether the lane of element `i` of width `w` is active. -/
def laneOn (mask : Word) (w i : Nat) : Bool := mask.getLsbD (w * i / 64)
/-- A register element by element: active elements from `f`, the others from `old`; the flags of the active ones. -/
def vMap (w : Nat) (mask : Word) (old : BitVec 4096) (f : Nat → Nat × Flags) : BitVec 4096 × Flags :=
  let rs := (List.range (vCount w)).map fun i => if laneOn mask w i then f i else (vElem w old i, 0)
  (vOf w (rs.map (·.1)), rs.foldl (fun g r => g ||| r.2) 0)

/-! ### Places (R50) -/

/-- Where an operand lies: virtual memory, a run `lo` to `hi - 1` of the section window in banks of one mode, the
accumulator store, or the vector registers as one run of bytes. -/
inductive PlaceKind where
  | mem
  | sram (mode : BitVec 3) (lo hi : Nat)
  | acc
  | vrf
  deriving DecidableEq, Repr

/-- A place; `turn` tells apart the reads of a row that is gathered more than once (05 R111). -/
structure Loc where
  kind : PlaceKind
  base : Int
  turn : Nat := 0
  deriving DecidableEq, Repr

def Loc.shift (l : Loc) (k : Int) : Loc := { l with base := l.base + k }


def Ring.firstBank (r : Ring) : Nat := fld r.config 0 5
def Ring.banks (r : Ring) : Nat := fld r.config 5 5 + 1
def Ring.slotSize (r : Ring) : Nat := 64 * 2 ^ fld r.config 10 4
def Ring.slots (r : Ring) : Nat := r.banks * 524288 / r.slotSize

/-- The check a command that reads or writes a ring slot makes at its start (12 R258). -/
def Ring.admits (r : Ring) (write : Bool) (ticket : BitVec 32) : Bool :=
  if write then
    decide ((ticket - r.head).toNat < r.slots) && decide ((ticket - r.head).toNat < (r.claimed - r.head).toNat) &&
      decide ((r.tail - r.head).toNat ≤ (ticket - r.head).toNat) && !r.committed.contains ticket
  else decide ((ticket - r.head).toNat < (r.tail - r.head).toNat)

/-- A trap of an engine command, through the cut. -/
def cmdTrap (q : BitVec 3) (cause : Cause) (tval : Word) : Trap :=
  { cause := cause, queue := q, cut := true, tval := tval, xstat := none, tret := none }
def accessTrap (q : BitVec 3) (k : AccessKind) (cause : Cause) (tval : Word) : Trap :=
  { cause := cause, queue := q, cut := true, tval := tval, xstat := some (xstatOf q k 0 0), tret := none }

/-- Whether a step entry exists: its bank is in STEP mode and owned by the task (17 R326). -/
def State.stepExists (s : State) (u : Unit) (entry : Nat) : Bool :=
  decide (entry < 128) &&
    ((s.dev (gidDev u.gid)).bank (32 * gidSection u.gid + entry / 4)).mode == 3 &&
    ((s.dev (gidDev u.gid)).bank (32 * gidSection u.gid + entry / 4)).owner == u.task

/-- The window offset of a step entry's input tile (17 R326). -/
def stepOffset (entry : Nat) : Nat := entry / 4 * 524288 + entry % 4 * 131072

/-- The place of a descriptor's first byte, with the checks made at the start of a command on a ring slot (12 R258), and there only: not where
it has `passed` them. -/
def State.place (s : State) (u : Unit) (q : BitVec 3) (write : Bool) (d : Desc) (passed : Bool := false) : Except Trap Loc :=
  let base := dBase d
  if dSpace d = spMem then .ok { kind := .mem, base := base.toNat }
  else if dSpace d = spAcc then .ok { kind := .acc, base := base.toNat }
  else if dSpace d = spVrf then .ok { kind := .vrf, base := 512 * (base.toNat % 64 : Nat) }
  else if dSpace d = spRing then
    match (s.dev (gidDev u.gid)).rings.lookup (ringIndex (gidSection u.gid) (fld base 0 6)) with
    | none => .error (cmdTrap q .ringerr base)
    | some r =>
      let ticket := base.extractLsb' 32 32
      if !passed && !r.admits write ticket then .error (cmdTrap q .ringerr base)
      else
        let lo := r.firstBank * 524288 + ticket.toNat % r.slots * r.slotSize
        .ok { kind := .sram 2 lo (lo + r.slotSize), base := lo + fld base 8 24 }
  else .ok { kind := .sram 1 0 (2 ^ 24), base := base.toNat }

/-! ### The active plate (19 R345) -/

/-- A little-endian field of `n` bytes at an offset of a plate. -/
def plateField (p : BitVec 16384) (off n : Nat) : Nat := fld p (8 * off) (8 * n)

/-- Whether one 2-byte range of a phase set covers a bank. -/
def rangeHas (x bank : Nat) : Bool :=
  decide (2 ^ 15 ≤ x) && decide (x % 32 ≤ bank) && decide (bank ≤ x / 32 % 32)

/-- The ranges of a phase for the engine with queue code `q`: the first four are read ranges, the others write ranges. -/
def phaseRanges (p : BitVec 16384) (phase q : Nat) : List Nat :=
  (List.range 8).map fun k => plateField p (0x480 + 80 * phase + 16 * (q - 2) + 2 * k) 2

/-- Whether phase-set checking lets an engine's command reach a bank (19 R351). -/
def Unit.rangeAllows (u : Unit) (q : BitVec 3) (write : Bool) (bank : Nat) : Bool :=
  !u.check || ((phaseRanges u.plate u.phase.toNat q.toNat).zipIdx.any fun e => (decide (4 ≤ e.2) == write) && rangeHas e.1 bank)

/-- The pieces of a run of bytes that stay within aligned 128 bytes. -/
def piecesFrom : Nat → Int → Nat → List (Int × Nat)
  | 0, _, _ => []
  | fuel + 1, a, n =>
    if n = 0 then []
    else
      let k := min n (128 - (a % 128).toNat)
      (a, k) :: piecesFrom fuel (a + k) (n - k)
def pieces (a : Int) (n : Nat) : List (Int × Nat) := piecesFrom (n / 128 + 2) a n

/-- An access that a command waits for: a read of `n` bytes in turn `turn`, or its update `slot` with operation, format and operand.  One of no
bytes waits for the stack to decode the sector of a table entry (03 R58). -/
structure Ask where
  addr   : Nat
  n      : Nat
  turn   : Nat
  sect   : Option Nat
  update : Option (Nat × BitVec 3 × BitVec 4 × Nat)
  deriving DecidableEq, Repr

/-- The key under which a started command keeps what a read, or an update, has returned. -/
def Ask.key (x : Ask) : Nat :=
  match x.update with | some (slot, _) => 2 ^ 120 + slot | none => 2 ^ 80 * x.turn + 2 ^ 20 * x.addr + x.n

/-- The mark of a command that waits, with the access that it waits for: none where an earlier access to the line, or a bank in a mode change, is
in its way.  The mark is the model's own; it stands in the fields of a trap. -/
def notYet (q : BitVec 3) (ask : Option Ask) : Trap :=
  match ask with
  | none => cmdTrap q .notYet 0
  | some x =>
    let sect := match x.sect with | some k => k + 1 | none => 0
    { cmdTrap q .notYet (BitVec.ofNat 64 x.addr) with
      xstat := some (BitVec.ofNat 64 (x.n + 2 ^ 20 * sect + match x.update with
        | some (slot, op, f, _) => 2 ^ 28 * f.toNat + 2 ^ 32 * op.toNat + 2 ^ 35 * (slot + 1)
        | none => 0)),
      tret := some (BitVec.ofNat 64 (match x.update with | some (_, _, _, y) => y | none => x.turn)) }

/-- The access that a mark names. -/
def Trap.ask? (t : Trap) : Option Ask :=
  match t.xstat, t.tret with
  | some w, some y =>
    let sect := fld w 20 8
    let slot := fld w 35 29
    some { addr := t.tval.toNat, n := fld w 0 20, turn := if slot = 0 then y.toNat else 0, sect := if sect = 0 then none else some (sect - 1),
           update := if slot = 0 then none else some (slot - 1, w.extractLsb' 32 3, w.extractLsb' 28 4, y.toNat) }
  | _, _ => none

/-- Translates and checks one piece; answers its address in `Memory`.  Traffic on a stopped flow raises LINKFAIL (14 R270), and
an access to a bank in a mode change waits (04 R91).  While a command runs, the unit's phase is the one
in force at its push (19 R351). (DEDUCED, log 33) -/
def State.pieceAddr (s : State) (u : Unit) (q : BitVec 3) (k : AccessKind) (kind : PlaceKind) (a : Int) (n : Nat) :
    Except Trap Nat :=
  match kind with
  | .mem =>
    match if s.latent.isEmpty then none else (s.walkReads u.gid (BitVec.ofInt 64 a)).find? s.erring with
    | some x => .error (notYet q (some { addr := x, n := 0, turn := 0, sect := none, update := none }))
    | none =>
    match s.translate u.gid q k false (BitVec.ofInt 64 a) with
    | .error t => .error t
    | .ok p =>
      if s.lineHeld u.gid p then .error (notYet q none) else
      match s.flowFails (gidDev u.gid) (addrDev p.addr) with
      | some port => .error (cmdTrap q .linkfail (BitVec.ofNat 64 port))
      | none => .ok p.addr
  | .sram mode lo hi =>
    if a < lo ∨ (hi : Int) < a + n then .error (accessTrap q k .protv (BitVec.ofInt 64 a))
    else
      if a.toNat < 2 ^ 24 ∧ ((s.dev (gidDev u.gid)).bank (32 * gidSection u.gid + a.toNat / 2 ^ 19)).begun then .error (notYet q none) else
      match s.scratchByte u q k mode (gidSection u.gid) a.toNat with
      | .error t => .error t
      | .ok x => if u.rangeAllows q k.writes (a.toNat / 524288) then .ok x else .error (cmdTrap q .setviol (BitVec.ofInt 64 a))
  | _ => .error (accessTrap q k .protv (BitVec.ofInt 64 a))

/-- Where byte `a` of the accumulator store stands in `acc`, whose unlisted bytes are free (DESIGN CHOICE, log 3). -/
def accAddr (a : Nat) : Nat := sramBase + a
/-- The bytes the accumulator store of a unit holds; unlisted ones are free (DESIGN CHOICE, log 3). -/
def Unit.accByte (u : Unit) (a : Nat) : Byte := (u.acc.get? (accAddr a)).getD (Config.freeByte u.accEpoch (2 ^ 60 + u.gid.toNat * 2 ^ 20 + a))
def accSize : Nat := 786432

/-- Whether bytes of the accumulator store lie in the region a team partner has lent (09 R201). -/
def Unit.lent (u : Unit) (a : Int) (n : Nat) : Bool :=
  match u.join with
  | none => false
  | some j => !j.lead && (List.range j.rows.toNat).any fun r =>
      let b : Int := j.base.toNat + r * toSigned 32 j.stride.toNat
      decide (b < a + n) && decide (a < b + 8 * j.columns.toNat)

/-- The check of a run of bytes of the accumulator store: inside it (05 R96, 08 R190) and not lent.  What an operand outside the store
raises is stated for V commands only; a copy that reaches outside raises PROTV at the access too (DESIGN CHOICE, log 87). -/
def Unit.accCheck (u : Unit) (q : BitVec 3) (k : AccessKind) (a : Int) (n : Nat) : Except Trap Nat :=
  if a < 0 ∨ (accSize : Int) ≤ a then .error (accessTrap q k .protv (BitVec.ofInt 64 a))
  else if (accSize : Int) < a + n then .error (accessTrap q k .protv (BitVec.ofNat 64 accSize))
  else if u.lent a n then .error (accessTrap q k .protv (BitVec.ofInt 64 a))
  else .ok a.toNat

def Unit.vrfByte (u : Unit) (a : Nat) : Byte :=
  match u.v[a / 512]? with
  | some x => x.extractLsb' (8 * (a % 512)) 8
  | none => 0

/-- A register with a run of its bytes replaced. -/
def vPutBytes (x : BitVec 4096) (off : Nat) (data : List Byte) : BitVec 4096 :=
  data.zipIdx.foldl (fun (x : BitVec 4096) (e : Byte × Nat) =>
    (x &&& ~~~((0xFF : BitVec 4096) <<< (8 * (off + e.2)))) ||| ((e.1.setWidth 4096) <<< (8 * (off + e.2)))) x

/-- Writes a run of bytes of the vector registers; pieces never cross a register. -/
def Unit.putVrf (u : Unit) (a : Nat) (data : List Byte) : Unit :=
  if h : a / 512 < 64 then { u with v := u.v.set (a / 512) (vPutBytes u.v[a / 512] (a % 512) data) } else u

/-- The ordering class of an engine command's accesses (02 R30); c0 where its word has none. -/
def Command.cls (c : Command) : BitVec 4 :=
  match c.instr with
  | .vgaths _ oc .. | .vscats _ oc .. | .vld _ oc .. | .vst _ oc .. | .vldx _ oc ..
  | .mma _ oc .. | .mmaz _ oc .. | .mmac _ oc .. | .mmae _ oc .. | .mres _ oc .. | .mbndLyr _ oc .. | .mbndFirst _ oc .. | .mcomp _ oc ..
  | .mmas _ oc .. | .mmab _ oc .. | .mwr _ oc .. | .mrd _ oc .. | .mchk _ oc ..
  | .cpin _ oc .. | .cprow _ oc .. | .cpexp _ oc .. | .cpfill _ oc .. | .scprobe _ oc .. | .scrply _ oc ..
  | .cpout _ oc .. | .cpsct _ oc .. | .cppack _ oc .. | .cpred _ oc .. | .cpcoll _ oc .. | .cpsend _ oc .. | .cppost _ oc .. | .screc _ oc ..
  | .cpcnv _ oc .. | .ebind _ oc .. | .erun _ oc .. | .efrnt _ oc .. => oc
  | _ => 0

/-! ### Accesses that a command has still to make (16 R288) -/

/-- The section of a section-homed line at a virtual address, for the accesses to it (03 R68). -/
def State.sectOf (s : State) (g : Gid) (kind : PlaceKind) (a : Int) : Option Nat :=
  match kind with
  | .mem => match s.lookup g (BitVec.ofInt 64 a) with
    | .ok m => if fld m.entry 58 2 == 1 then some (8 * (m.pa (BitVec.ofInt 64 a) / 2 ^ 36 % 8) + fld m.entry 55 3) else none
    | .error _ => none
  | _ => none

/-- What a started command has read, or found at an update. -/
def Unit.gotAt (u : Unit) (c : Command) (key : Nat) : Option (List Byte) := (u.inflight? c.queue c.num).bind fun y => y.got.lookup key
def State.noteGot (s : State) (c : Command) (key : Nat) (bs : List Byte) : State :=
  { s with cur := s.cur.onInflight c.queue c.num fun y => { y with got := y.got ++ [(key, bs)] } }

/-- The read that brings a piece: of the whole sector where a copy reads device memory (05 R98), else of the piece alone. -/
def Command.askFor (c : Command) (kind : PlaceKind) (turn x n : Nat) (sect : Option Nat) : Ask :=
  if kind == .mem && (c.queue == 2 || c.queue == 5) then { addr := x / 128 * 128, n := 128, turn := turn, sect := sect, update := none }
  else { addr := x, n := n, turn := turn, sect := sect, update := none }

/-- Reads one piece of an operand of a command of the current unit.  A prompt machine reads it at once where its home is within reach; else it
is read in a step of its own, and the command goes on with it (16 R288, R291); so is one that the stack has to correct (03 R58). -/
def State.readPiece (s : State) (c : Command) (k : AccessKind) (kind : PlaceKind) (turn : Nat) (a : Int) (n : Nat) : Except Trap (List Byte) :=
  let u := s.cur
  match kind with
  | .acc =>
    (u.accCheck c.queue k a n).map fun x => (List.range n).map fun i => u.accByte (x + i)
  | .vrf => .ok ((List.range n).map fun i => u.vrfByte (a.toNat + i))
  | _ =>
    match s.pieceAddr u c.queue k kind a n with
    | .error t => .error t
    | .ok x =>
      let ask := c.askFor kind turn x n (s.sectOf u.gid kind a)
      match u.gotAt c ask.key with
      | some bs => .ok ((bs.drop (x - ask.addr)).take n)
      | none =>
        match s.poisonedIn? x n with
        | some i => .error (cmdTrap c.queue .uncorr (BitVec.ofInt 64 (a + i)))
        | none =>
          if !s.reachesNow u.gid x || s.erring x then .error (notYet c.queue (some ask))
          else if !s.lineFree u c.cls x (some (c.queue, c.num)) then .error (notYet c.queue none)
          else .ok (s.seenBytes u x n)

def readPieces (s : State) (c : Command) (k : AccessKind) (kind : PlaceKind) (turn : Nat) : List (Int × Nat) → Except Trap (List Byte)
  | [] => .ok []
  | (a, n) :: rest =>
    match s.readPiece c k kind turn a n with
    | .error t => .error t
    | .ok bs => (readPieces s c k kind turn rest).map (bs ++ ·)

/-- Checks every piece of an access and answers their addresses. -/
def checkPieces (s : State) (q : BitVec 3) (k : AccessKind) (kind : PlaceKind) : List (Int × Nat) → Except Trap (List (Nat × Nat))
  | [] => .ok []
  | (a, n) :: rest =>
    let here : Except Trap Nat := match kind with
      | .acc => s.cur.accCheck q k a n
      | .vrf => .ok a.toNat
      | _ => s.pieceAddr s.cur q k kind a n
    match here with
    | .error t => .error t
    | .ok x => (checkPieces s q k kind rest).map ((x, n) :: ·)

/-- The pieces that a read is admitted in: a stored tile of the step cache is read whole (05 R116), a run of a bank by 8 bytes where it is not
read at once (05 R98, 16 R305). -/
def State.readParts (s : State) (l : Loc) (n : Nat) : List (Int × Nat) :=
  match l.kind with
  | .sram 3 _ _ => if n = 0 then [] else [(l.base, n)]
  | .sram .. => if s.prompt then pieces l.base n else (pieces l.base n).flatMap fun (a, m) =>
      (List.range (((a % 8).toNat + m + 7) / 8)).map fun (k : Nat) =>
        let at_ : Int := a - a % 8 + 8 * k
        (max a at_, (min (a + m) (at_ + 8) - max a at_).toNat)
  | _ => pieces l.base n

/-- Reads `n` bytes at a place; the trap is the one of the lowest faulting piece, UNCORR after the others (05 R121). -/
def State.readAt (s : State) (c : Command) (k : AccessKind) (l : Loc) (n : Nat) : Except Trap (List Byte) :=
  match (match l.kind with | .vrf => .ok [] | kind => checkPieces s c.queue k kind (pieces l.base n) : Except Trap (List (Nat × Nat))) with
  | .error t => .error t
  | .ok _ => readPieces s c k l.kind l.turn (s.readParts l n)

/-- The current unit reads a piece for a started command, which keeps it (16 R291, R297). -/
def State.readFor (s : State) (v : View) (q : BitVec 3) (num : BitVec 32) (cls : BitVec 4) (key x n : Nat) : State :=
  let s := s.scrubRun x n
  let r := s.viewed v s.cur x n
  { s with cur := s.cur.onInflight q num fun y =>
    { y with got := y.got ++ [(key, r.2)], reads := (y.reads ++ r.1.map fun i => (i, cls)).eraseDups } }

/-- The current unit's update of an element for a started command, which keeps the bytes that it found and is a read of the writes that they come
from (16 R291, R297). -/
def State.updateFor (s : State) (q : BitVec 3) (num : BitVec 32) (key : Nat) (x : Access) : State :=
  let n := x.data.length
  let ids := (List.range n).filterMap fun k => (s.pend.reverse.find? fun r => (r.byteAt (x.addr + k)).isSome).map (·.id)
  let old := s.homeBytes x.addr n
  { s with cur := s.cur.onInflight q num fun y =>
    { y with got := y.got ++ [(key, old)], reads := (y.reads ++ ids.map fun i => (i, x.cls)).eraseDups } }.admitAt x x.release

/-- A write of a command to storage outside the quire. -/
def cmdAccess (c : Command) (cls : BitVec 4) (g : Gid) (a : Nat) (data : List Byte) : Access :=
  { gid := g, want := .write, cls := cls, addr := a, data := data, command := some (c.queue, c.num), orphan := false,
    carrier := (match c.carrier with | some k => if maskHas k.2 cls then some k else none | none => none),
    release := [], reduce := none, ord := none }

/-- Nothing of the unit's class that has left its class queue is still on its way to a home (16 R290). -/
def State.classLanded (s : State) (u : Unit) (cls : BitVec 4) : Bool :=
  s.admQ.all (fun x => !(x.gid == u.gid && x.cls == cls)) && s.flows.all fun p => !(p.access.gid == u.gid && p.access.cls == cls)

/-- Writes the pieces of a run of bytes from virtual address or offset `a` on. -/
def storePieces (s : State) (c : Command) (cls : BitVec 4) (kind : PlaceKind) (a : Int) : List (Nat × Nat) → List Byte → State
  | [], _ => s
  | (x, n) :: rest, data =>
    let here := data.take n
    let s' := match kind with
      | .acc => { s with cur := { s.cur with acc := s.cur.acc.write (accAddr x) here } }
      | .vrf => { s with cur := s.cur.putVrf x here }
      | _ => s.put { cmdAccess c cls s.cur.gid x here with sect := s.sectOf s.cur.gid kind a }
    storePieces s' c cls kind (a + n) rest (data.drop n)

/-- Every access of a command has left the machine's ways: the steps of a command that wait for its earlier ones (12 R242, 14 R279, 17 R318).
(16 R293) -/
def State.ownClear (s : State) (c : Command) : Bool :=
  let mine (x : Access) : Bool := x.gid == s.cur.gid && x.want != .held && x.command == some (c.queue, c.num)
  s.cur.classQ.all (fun x => !mine x) && s.admQ.all (fun x => !mine x) && s.flows.all (fun p => !mine p.access) &&
  s.devs.all fun d => d.held.all fun x => !mine x

/-- The signature pieces of a command's writes to storage outside the quire (20 R358, R362, R364). -/
def tracePieces (c : Command) (kind : PlaceKind) (ps : List SigPiece) (u : Unit) : Unit :=
  match kind with
  | .acc | .vrf => u
  | _ => u.onInflight c.queue c.num fun x => { x with trace := ps.foldl addPiece x.trace }

/-- A command has written every byte of the sector in which a piece lies (12 R236). -/
def Inflight.wholeSector (y : Inflight) (a : Int) : Bool :=
  let base := (BitVec.ofInt 64 a).toNat / 128 * 128
  (List.range 8).all fun k => y.trace.any fun p => p.kind == 0 && p.base == base + 16 * k && p.mask == 0xFFFF

/-- The poisoned sectors that a command has now written whole are poisoned no longer (03 R59, 12 R236). -/
def State.healSectors (s : State) (c : Command) (ps : List (Int × Nat)) (xs : List (Nat × Nat)) : State :=
  match s.cur.inflight? c.queue c.num with
  | none => s
  | some y =>
    let healed := (ps.zip xs).filterMap fun e => if s.poison.contains (e.2.1 / 128) && y.wholeSector e.1.1 then some (e.2.1 / 128) else none
    { s with poison := s.poison.filter fun x => !healed.contains x }

/-- The mark of a write that does not fit the release buffer; its TVAL is the buffer's capacity (20 R361, R378). -/
def State.fullTrap (s : State) (q : BitVec 3) : Trap := cmdTrap q .bufferFull (BitVec.ofNat 64 (s.bufferRoom s.cur))

/-- The accesses of a write of a command from virtual address `a` on. -/
def pieceAccesses (s : State) (c : Command) (cls : BitVec 4) (a : Int) : List (Nat × Nat) → List Byte → List Access
  | [], _ => []
  | (x, n) :: rest, data =>
    { cmdAccess c cls s.cur.gid x (data.take n) with sect := s.sectOf s.cur.gid .mem a } :: pieceAccesses s c cls (a + n) rest (data.drop n)

/-- How many bytes of its present write a full release buffer has let in. -/
def State.writtenOf (s : State) (c : Command) : Nat := match s.cur.inflight? c.queue c.num with | some y => y.command.written | none => 0
def State.setWritten (s : State) (c : Command) (n : Nat) : State :=
  { s with cur := s.cur.onInflight c.queue c.num fun y => { y with command := { y.command with written := n } } }

/-- Enters the aligned 16-byte pieces of a buffered write one by one, from byte `done` on; one that does not fit waits for a meeting, and the
write goes on with it (20 R359, R360). -/
def bufferPieces (c : Command) (cls : BitVec 4) (kind : PlaceKind) (a : Int) : Nat → Nat → List (Nat × Nat) → List Byte → State → Except (Trap × State) State
  | 0, _, _, _, s => .ok s
  | _, _, [], _, s => .ok s
  | fuel + 1, done, (x, n) :: rest, data, s =>
    if n = 0 then bufferPieces c cls kind a fuel done rest data s
    else
      let k := min n (16 - x % 16)
      let here := data.take k
      let acc : Access := { cmdAccess c cls s.cur.gid x here with sect := s.sectOf s.cur.gid kind (a + done) }
      if !s.bufferFits [acc] then .error (s.fullTrap c.queue, s.setWritten c done)
      else
        let s := { s with cur := tracePieces c kind (sigPieces (BitVec.ofInt 64 (a + done)) cls 0 0 here) s.cur }
        bufferPieces c cls kind a fuel (done + k) ((x + k, n - k) :: rest) (data.drop k) (s.put acc)

/-- The pieces from byte `k` on. -/
def dropPieces : Nat → List (Nat × Nat) → List (Nat × Nat)
  | _, [] => []
  | k, (x, n) :: rest => if n ≤ k then dropPieces (k - n) rest else (x + k, n - k) :: rest

/-- Writes bytes at a place for a command: nothing is written when a piece faults. -/
def State.writeAt (s : State) (c : Command) (cls : BitVec 4) (k : AccessKind) (l : Loc) (data : List Byte) : Except (Trap × State) State :=
  match checkPieces s c.queue k l.kind (pieces l.base data.length) with
  | .error t => .error (t, s)
  | .ok xs =>
    let outside := match l.kind with | .acc | .vrf => false | _ => true
    if outside && s.cur.buffersFor c then
      let done := s.writtenOf c
      (bufferPieces c cls l.kind l.base (2 * data.length + 2) done (dropPieces done xs) (data.drop done) s).map fun s => s.setWritten c 0
    else
      let t := storePieces { s with cur := tracePieces c l.kind (sigPieces (BitVec.ofInt 64 l.base) cls 0 0 data) s.cur } c cls l.kind l.base xs data
      .ok (if outside && s.prompt then t.healSectors c (pieces l.base data.length) xs else t)

/-! ### Writes of one command to one sector (12 R236) -/

/-- Two plain writes of one command to one sector of device memory, which one round admits together (12 R236). -/
def Access.oneSector (x y : Access) : Bool :=
  x.want == .write && y.want == .write && x.command.isSome && x.command == y.command && x.gid == y.gid && x.orphan == y.orphan &&
    x.reduce.isNone && y.reduce.isNone && decide (x.addr < sramBase) && x.addr / 128 == y.addr / 128

/-- The sectors that the writes of one command in a round cover whole: they are merged at the home, and hold no error any more (03 R59). -/
def wholeSectors (xs : List Access) : List Nat :=
  (xs.filterMap fun x =>
    let mine := xs.filter fun y => x.oneSector y
    let base := x.addr / 128 * 128
    if x.oneSector x && (List.range 128).all (fun k => mine.any fun y => (y.byteOf y.data (base + k)).isSome) then some (x.addr / 128) else none).eraseDups

/-- Sectors whose errors go, because one round writes them whole. -/
def State.healWhole (s : State) (xs : List Access) : State :=
  let gone := wholeSectors xs
  { s with poison := s.poison.filter (fun x => !gone.contains x), latent := s.latent.filter fun e => !gone.contains e.1 }

/-- Writes of the current unit leave a release buffer, in its order: those that reach their homes at once heal the sectors that they cover whole
(03 R59, 20 R365); one whose home is held waits in its class queue (04 R91). -/
def State.emitAll (s : State) (xs : List Access) : State :=
  xs.foldl (fun s x =>
    if s.homeHeld x then
      let u := s.unitAt x.gid
      s.setUnit { u with classQ := u.beforeHeld x [x] }
    else s.emit x) (s.healWhole (xs.filter s.atOnce))

/-! ### Rows -/

/-- The results of a list of reads, or the first trap. -/
def collect {α : Type} : List (Except Trap α) → Except Trap (List α)
  | [] => .ok []
  | .error t :: _ => .error t
  | .ok x :: rest => (collect rest).map (x :: ·)

/-- A list in runs of `n`, the last one perhaps shorter; `fuel` bounds the runs. -/
def chunksFrom {α : Type} (n : Nat) : Nat → List α → List (List α)
  | 0, _ => []
  | _, [] => []
  | fuel + 1, xs => xs.take n :: chunksFrom n fuel (xs.drop n)
def chunks {α : Type} (n : Nat) (xs : List α) : List (List α) := chunksFrom n xs.length xs

/-- Columns of a matrix given by rows. -/
def transposeRows {α : Type} (dflt : α) (n : Nat) (rows : List (List α)) : List (List α) :=
  (List.range n).map fun j => rows.map fun r => r.getD j dflt

/-- The first and the last byte, relative to its base, of a descriptor with `rows` rows (one past the last). -/
def spanLo (d : Desc) (rows : Nat) : Int := min 0 ((rows - 1 : Nat) * dStride d)
def spanHi (d : Desc) (rows : Nat) : Int := max 0 ((rows - 1 : Nat) * dStride d) + rowBytes d
/-- A VRF operand: base bits above 5 zero, and its run stays within the register file, a checksum row of 4 bytes a column included
(R50, 05 R96, R105). -/
def vrfOk (d : Desc) (checksum : Bool) : Bool :=
  let base : Int := 512 * (dBase d).toNat
  let extra : Int := dRows d * dStride d
  decide ((dBase d).toNat < 64) && decide (0 ≤ spanLo d (dRows d) + base) && decide (spanHi d (dRows d) + base ≤ 32768) &&
  (!checksum || (decide (0 ≤ extra + base) && decide (extra + 4 * (dCols d : Nat) + base ≤ 32768)))
/-- An ACC operand lies within the store (05 R96, 09 R200). -/
def accSpanOk (d : Desc) (rows : Nat) : Bool :=
  decide (0 ≤ (dBase d).toNat + spanLo d rows) && decide ((dBase d).toNat + spanHi d rows ≤ (accSize : Int))

/-- The place of row `r` of a descriptor that starts at `l`. -/
def rowLoc (d : Desc) (l : Loc) (r : Nat) : Loc := l.shift (r * dStride d)

def State.readRow (s : State) (c : Command) (k : AccessKind) (d : Desc) (l : Loc) (r : Nat) : Except Trap (List Nat) :=
  (s.readAt c k (rowLoc d l r) (rowBytes d)).map fun bs => (bytesToElems (elemBits (dFmt d)) bs).take (dCols d)

/-! ### What an engine command does once it has started -/

/-- Progress in whole units, bits 55..32 of QPROG. -/
def unitProgress (r : Nat) : Nat := r * 2 ^ 32
/-- The unit a stopped command goes on from; 0 for a fresh one. -/
def Command.unit (c : Command) : Nat := match c.resume with | some p => p / 2 ^ 32 % 2 ^ 24 | none => 0

/-- What a command that has no units records when its write `k` does not succeed: a fault restarts it from the beginning (05 R120, 12 R247);
one that met a full release buffer goes on with that write after the meeting (20 R361). -/
def Trap.restart (t : Trap) (k : Nat) : Nat := if t.cause = .bufferFull then unitProgress k else 0

/-- The outcome of running a command: it completes, with its reply entries and flags; it stops on a fault of its own
with what it has done so far (its progress, bits 55..0 of QPROG, and flags); it is discarded with its trap, as under UNCORR
(21 R385) or on a mismatched collective (14 R275); it cannot complete before a peer acts, with its replies and flags
so far; or it has done one unit and goes on with the next (16 R288). -/
inductive Ran where
  | done (s : State) (replies : List Word) (flags : Flags)
  | stopped (s : State) (t : Trap) (progress : Nat) (flags : Flags)
  | abandoned (s : State) (t : Trap)
  | waiting (s : State) (replies : List Word) (flags : Flags)
  | partly (s : State) (progress : Nat) (flags : Flags)
  deriving DecidableEq, Repr

end Sys2Proof.Machine
end

