-- ==== Sys2Proof/Machine/Replica.lean ====
section
/-! DEFINITION. Replica meetings (20 R357-R368): presenting signatures, the vote, the selected buffer, and requests
performed once. -/
namespace Sys2Proof.Machine
open Sys2Proof

/-! ### Peers -/

/-- The peers of a unit: the quires of its rank in its task's replicas, itself included, by replica number (R357). -/
def State.peers (s : State) (u : Unit) : List Unit :=
  let all := s.units.filter fun x => x.gid == u.gid || (x.task.isSome && x.task == u.task && x.taskDev == u.taskDev && x.rank == u.rank)
  (List.range 3).filterMap fun r => all.find? fun x => x.replica == r

/-- Replica 0 of the unit's peers, under whose id requests and writes are performed (20 R304, R365). -/
def State.leadGid (s : State) : Gid :=
  if s.cur.live ≤ 1 then s.cur.gid else match s.peers s.cur with | p :: _ => p.gid | [] => s.cur.gid
/-- The unit whose writes those of the current one are. -/
def State.actor (s : State) : Unit := if s.cur.live ≤ 1 then s.cur else s.unitAt s.leadGid

/-- Changes every one of a list of units. -/
def State.onUnits (s : State) (gs : List Gid) (f : Unit → Unit) : State := gs.foldl (fun s g => s.setUnit (f (s.unitAt g))) s

/-! ### The end of a meeting (R361) -/

/-- The unit after a meeting: its buffer empty, its lanes reset, one meeting more. -/
def Unit.afterMeeting (u : Unit) : Unit :=
  { u.resetLanes with relBuf := u.relBuf.filter fun w => decide (0 < w.depth && u.regions.any (·.buffered)),
                      presented := none, unsigned := none, meeting := u.meeting + 1 }

/-- The buffer of `from` performs under the global id `g`, in buffer order (R365). -/
def State.performBuffer (s : State) (src : Unit) (g : Gid) : State :=
  s.emitAll (src.relBuf.map fun w => { w.access with gid := g })

/-- The signatures as SIGRD `.met` shows them, by replica number (R372). -/
def signaturesOf (ps : List Unit) : Vector (Word × Word) 3 :=
  Vector.ofFn fun i => match ps.find? fun p => p.replica == i.val with
    | some p => p.presented.getD (0, 0)
    | none => (0, 0)

/-- VOTECNT counts a removal by vote (R366, 23 R413). -/
def Device.voteCounted (d : Device) : Device := d.setReg 0x60040 (d.reg 0x60040 + 1)

/-- Removes a replica from its task (R366): its quires stop, the survivors are renumbered, the binder reports it and
counts a vote. (DEDUCED, log 44) -/
def State.removeReplica (s : State) (u : Unit) : State :=
  match u.task with
  | none => s
  | some id =>
    let mine := s.units.filter fun x => x.task == u.task && x.taskDev == u.taskDev
    let gone := (mine.filter fun x => x.replica == u.replica).map (·.gid)
    let left := (mine.filter fun x => x.replica != u.replica).map (·.gid)
    let s := gone.foldl State.disown (s.onUnits gone Unit.free)
    let s := s.onUnits left fun x =>
      { x with live := x.live - 1, replica := if u.replica < x.replica then x.replica - 1 else x.replica }
    s.onDev u.taskDev fun d =>
      match d.task? id with
      | none => d
      | some t => (d.setTask { t with units := t.units.filter fun g => !gone.contains g, former := t.former ++ gone, votes := t.votes + 1 }).voteCounted.killReport id (s.seenGid u.gid) 0x31 0 []

/-- REPLMISM at a peer (R367): for a full buffer through the cut, where the command that filled it is named. -/
def mismatchTrap (u : Unit) (tval : Word) : Trap :=
  let q := u.waitingAt
  if q.toNat ≤ 1 then seqTrap .replmism tval
  else { cause := .replmism, queue := q, cut := true, tval := tval, xstat := none,
         tret := (u.queue q).head?.map (·.pc) }

/-- REPLMISM at every peer (R367): buffers discarded, lanes reset, the trap at each one's next level. -/
def State.mismatch (s : State) (gs : List Gid) (tval : Word) : State :=
  gs.foldl (fun s g =>
    s.onUnit g fun s =>
      let u := s.cur
      let v := ({ u.afterMeeting with
        relBuf := [], waitingAt := 0, met := false,
        queues := u.queues.map fun l => l.filter fun c => c.queue != u.waitingAt || !c.started } : Unit).formCut
      let v := match (u.queue u.waitingAt).head? with
        | some c => if u.waitingAt.toNat ≤ 1 then v else { v with lcount := c.lcount, llimit := c.llimit, lbody := c.lbody }
        | none => v
      ({ s with cur := v }).takeTrap (mismatchTrap u tval)) s

/-- The peers that go on, and the one whose buffer performs, once all have presented (R365, R366); none where nothing
performs.  The signature a majority of the presented ones share is the selected one. -/
def selected (ps : List Unit) : Option Unit :=
  ps.find? fun p => p.presented.isSome && decide ((ps.filter fun x => x.presented == p.presented).length * 2 > ps.length)

/-- The cycles a meeting takes after its last presentation: the nominal figure (R361). -/
def meetingCycles : Nat := 300

/-- The unit once its meeting has ended with a match: what waits may go on, the sequencer after the meeting's cycles (R361). -/
def Unit.meetingOver (u : Unit) : Unit :=
  { u.afterMeeting with met := true, busy := if u.waitingAt = 1 then max u.busy (u.time + meetingCycles) else u.busy }

/-- The vote of a meeting (R361, R365, R366). -/
def State.vote (s : State) : State :=
  let ps := s.peers s.cur
  let shown := signaturesOf ps
  let s := s.onUnits (ps.map (·.gid)) fun u => { u with lastSigs := shown }
  match selected ps with
  | none => s.mismatch (ps.map (·.gid)) (BitVec.ofNat 64 (s.cur.meeting + 1))
  | some win =>
    let lost := ps.filter fun p => p.presented != win.presented
    let kept := ps.filter fun p => p.presented == win.presented
    let s := lost.foldl (fun s p => s.removeReplica (s.unitAt p.gid)) s
    let lead := (kept.head?.map (·.gid)).getD win.gid
    let s := s.performBuffer win lead
    s.onUnits (kept.map (·.gid)) Unit.meetingOver

/-- Whether every live peer has presented. -/
def State.allPresented (s : State) : Bool := (s.peers s.cur).all (·.presented.isSome)

/-- What reaching a meeting point leads to: the meeting is over and the unit goes on, or it waits or traps. -/
inductive Met where
  | go (s : State)
  | stay (s : State)
  deriving DecidableEq, Repr

/-- A meeting point of the current unit, for `who` (1 an instruction, else the queue of an engine's command), with the
signature records of its own request (R360, R361).  An unreplicated task meets with nobody. -/
def State.meet (s : State) (who : BitVec 3) (recs : List (List Byte)) : Met :=
  let u := s.cur
  if u.live ≤ 1 then
    let u' := u.sign 1 recs
    .go { s with cur := { u'.afterMeeting with lastSigs := (Vector.replicate 3 (0, 0)).set 0 u'.signature } }
  else if u.met && u.waitingAt == who then .go { s with cur := { u with met := false, waitingAt := 0 } }
  else if u.waitingAt != 0 then .stay s
  else
    let u' := u.sign 1 recs
    let s' := { s with cur := { u' with presented := some u'.signature, waitingAt := who, unsigned := some u.lanes[1] } }
    .stay (if s'.prompt && s'.allPresented then s'.vote else s')

/-- The signature record of a request to the clasp engine or the binder (R362): address, ordering class, kind, class and
opcode, SR bits 23..16, class mask, s[C] and s[D]. -/
def requestRecord (va : Word) (cls : BitVec 4) (kind : BitVec 4) (op qual : Nat) (mask : BitVec 16) (c d : Word) : List Byte :=
  sigRecord va 0xFFFF cls kind (BitVec.ofNat 8 op) (leBytes 1 qual ++ leBytes 2 mask.toNat ++ [0]) (leBytes 8 c.toNat ++ leBytes 8 d.toNat)

/-! ### Requests performed once (R368) -/

/-- How many requests of a kind the unit has made: to the binder, or to the clasp engine. -/
def Unit.requestsMade (u : Unit) (binder : Bool) : Nat := if binder then u.binderCount else u.claspCount
def Unit.countRequest (u : Unit) (binder : Bool) : Unit :=
  if binder then { u with binderCount := u.binderCount + 1 } else { u with claspCount := u.claspCount + 1 }

/-- The arrival of this unit's next request of a kind, with the fields in which it must agree with its peers' (R362, R368). -/
def Unit.arrival (u : Unit) (binder : Bool) (record : List Byte) : ReplicaArrival :=
  { gid := u.gid, binder := binder, number := u.requestsMade binder + 1, record := record }

/-- The arrivals of the unit's present request and of its peers' of the same number. -/
def State.arrived (s : State) (binder : Bool) : List ReplicaArrival :=
  let u := s.cur
  s.asked.filter fun x => x.binder == binder && x.number == u.requestsMade binder + 1 && (s.peers u).any fun p => p.gid == x.gid

/-- What a request of a replica comes to when it arrives (R368): it is performed, it takes the result of the one that was, it waits for its
peers', or its replicas disagree. -/
inductive Agreed where
  | perform (s : State)
  | answer (s : State) (r : ReplicaRequest)
  | wait (s : State)
  | gone (s : State)
  deriving DecidableEq, Repr

/-- The replicas whose requests disagree with the one that is performed are removed (R366, R368). -/
def State.removeOthers (s : State) (xs : List ReplicaArrival) (record : List Byte) : State :=
  (xs.filter fun x => x.record != record).foldl (fun s x => s.removeReplica (s.unitAt x.gid)) s

/-- The request of the current unit arrives (R368): it is performed once the requests of all live peers have arrived and agree, or in triple mode
as soon as two agree; a request that arrives later takes the result, or its replica goes.  Two that disagree in dual mode, or three of which
no two agree, are not performed, and raise REPLMISM at every peer. (DEDUCED, log 55) -/
def State.agree (s : State) (binder : Bool) (record : List Byte) : Agreed :=
  let u := s.cur
  if u.live ≤ 1 then .perform s
  else
    let mine := u.arrival binder record
    match s.requests.find? fun r => r.arrival.binder == binder && r.arrival.number == mine.number && (s.peers u).any fun p => p.gid == r.arrival.gid with
    | some r => if r.arrival.record == record then .answer s r else .gone (s.removeReplica u)
    | none =>
      let s : State := { s with asked := (s.asked.filter fun x => !(x.gid == u.gid && x.binder == binder && x.number == mine.number)) ++ [mine] }
      let xs := s.arrived binder
      let agreeing := xs.filter fun x => x.record == record
      if u.live = 2 && xs.length = 2 && agreeing.length = 1 || u.live = 3 && xs.length = 3 && xs.all fun x => (xs.filter fun y => y.record == x.record).length = 1 then
        .gone (s.mismatch ((s.peers u).map (·.gid)) (BitVec.ofNat 64 (u.meeting + 1)))
      else if agreeing.length < 2 then .wait s
      else .perform (s.removeOthers xs record)

/-- Takes note of a request that this unit has performed, for its peers, and counts it. -/
def State.noteRequest (s : State) (binder : Bool) (record : List Byte) (value : Word) (lat : Latency) (flags : Flags) : State :=
  let mine := s.cur.arrival binder record
  let u := (s.cur.countRequest binder).retireFlags flags
  let s := { s with cur := u }
  if u.live ≤ 1 then s
  else { s with requests := s.requests ++ [{ arrival := mine, value := value, lat := lat, flags := flags }] }

/-- Takes a peer's result; the request is forgotten once every peer has it. -/
def State.takeAnswer (s : State) (r : ReplicaRequest) : State :=
  let x := r.arrival
  let s := { s with cur := (s.cur.countRequest x.binder).retireFlags r.flags }
  let ps := s.peers s.cur
  if ps.all fun p => decide (x.number ≤ p.requestsMade x.binder) then
    { s with requests := s.requests.filter (· != r),
             asked := s.asked.filter fun y => !(y.binder == x.binder && y.number == x.number && ps.any fun p => p.gid == y.gid) }
  else s

end Sys2Proof.Machine
end

