-- ==== Sys2Proof/Machine/CopyEngine.lean ====
section
/-! DEFINITION. The load engine (chapter 05): stage microwords, extraction patterns, and the class 9 commands with their
stops.  The stages and row loops serve the store engine too. -/
namespace Sys2Proof.Machine
open Sys2Proof

/-! ### Stage microwords (R101-R103) -/

def mwExt (m : BitVec 32) : Bool := m.getLsbD 0
def mwCvt (m : BitVec 32) : Bool := m.getLsbD 1
def mwTgt (m : BitVec 32) : BitVec 4 := m.extractLsb' 2 4
def mwRnd (m : BitVec 32) : RMode := rmodeOf (m.extractLsb' 6 2)
def mwSat (m : BitVec 32) : Bool := m.getLsbD 8
def mwScl (m : BitVec 32) : Bool := m.getLsbD 9
def mwBmx (m : BitVec 32) : Bool := m.getLsbD 10
def mwTrn (m : BitVec 32) : Bool := m.getLsbD 12
def mwCks (m : BitVec 32) : Bool := m.getLsbD 13

/-- Stages by name, as masks of a microword. -/
def stExt : BitVec 32 := 0x1
def stCvt : BitVec 32 := 0x2
def stScl : BitVec 32 := 0x200
def stBmx : BitVec 32 := 0x400
def stCmp : BitVec 32 := 0x800
def stTrn : BitVec 32 := 0x1000
def stCks : BitVec 32 := 0x2000
def stPack : BitVec 32 := 0x4000
def stAll : BitVec 32 := 0x7E03

/-- A microword with its preset and TBL target resolved at the push; none when that push raises ILLFLD. -/
def resolveMicro (plate : BitVec 16384) (tbl : BitVec 4) (m : BitVec 32) : Option (BitVec 32) :=
  let r : Option (BitVec 32) :=
    if m.getLsbD 31 then
      if fld m 3 28 != 0 then none
      else
        let p := BitVec.ofNat 32 (plateField plate (0x180 + 4 * (m.toNat % 8)) 4)
        if p.getLsbD 31 then none else some p
    else some m
  match r with
  | none => none
  | some m =>
    let m := if mwCvt m && mwTgt m == 0xF then (m &&& ~~~(0x3C : BitVec 32)) ||| (tbl.setWidth 32 <<< 2) else m
    if fld m 15 16 != 0 then none
    else if !mwCvt m && (mwTgt m != 0 || (!mwScl m && m &&& 0x1C0 != 0)) then none
    else some m

/-- The accepted and required stages of a command (R102). -/
def stagesOk (m accepted required : BitVec 32) : Bool := m &&& stAll &&& ~~~accepted == 0 && required &&& ~~~m == 0

/-! ### Extraction patterns (R106, R107) -/

def patPeriod (p : BitVec 576) : Nat := 8 * fld p 0 8
def patCount (p : BitVec 576) : Nat := fld p 8 8
def patFmt (p : BitVec 576) : BitVec 4 := p.extractLsb' 16 4
/-- Field `f` of a pattern: shift, width and sign. -/
def patField (p : BitVec 576) (f : Nat) : Nat × Nat × Bool :=
  let e := fld p (64 + 16 * f) 16
  (e / 512, e / 32 % 16 + 1, e / 16 % 2 == 1)
def patternOk (p : BitVec 576) : Bool :=
  decide (8 ≤ patPeriod p) && decide (patPeriod p ≤ 128) && decide (1 ≤ patCount p) && decide (patCount p ≤ 32) &&
  decide ((patFmt p).toNat ≤ 2) && fld p 20 4 == 0 && fld p 24 40 == 0 &&
  (List.range 32).all fun f =>
    let e := fld p (64 + 16 * f) 16
    if patCount p ≤ f then e == 0
    else e % 16 == 0 && decide ((patField p f).1 + (patField p f).2.1 ≤ patPeriod p)

/-- The elements that a row of bytes yields.  A field that is wider than the output format loses its high bits: what becomes of one is not
stated (DESIGN CHOICE, log 91). -/
def extractRow (p : BitVec 576) (bs : List Byte) : List Nat :=
  let x := fromLe bs
  let groups := if patPeriod p = 0 then 0 else bs.length * 8 / patPeriod p
  (List.range groups).flatMap fun g => (List.range (patCount p)).map fun f =>
    let (sh, w, sg) := patField p f
    let v := x / 2 ^ (g * patPeriod p + sh) % 2 ^ w
    if sg then truncInt (elemBits (patFmt p)) (toSigned w v) else v
/-- How many elements a row of `cols` bytes yields; none when it holds no whole number of groups. -/
def extractCount (p : BitVec 576) (cols : Nat) : Option Nat :=
  if cols * 8 % patPeriod p = 0 then some (cols * 8 / patPeriod p * patCount p) else none

/-! ### Stages on rows (R102-R105) -/

/-- One element through CVT and SCL: one rounding of the exact value (R103). -/
def stageElem (m scale : BitVec 32) (src : BitVec 4) (x : Nat) : Nat × Flags :=
  if !mwCvt m && !mwScl m then (x, 0)
  else
    let tgt := if mwCvt m then mwTgt m else src
    let v := if mwScl m then (elemVal src x).mul (fp32.val scale.toNat) else (elemVal src x, snanFlag [elemVal src x])
    let r := elemConvert tgt (mwRnd m) (mwSat m) v.1
    (r.1, v.2 ||| r.2)

def stageRow (m scale : BitVec 32) (src : BitVec 4) (xs : List Nat) : List Nat × Flags :=
  let rs := xs.map (stageElem m scale src)
  (rs.map (·.1), rs.foldl (fun g r => g ||| r.2) 0)

/-- The format after the stages. -/
def stagedFmt (m : BitVec 32) (src : BitVec 4) : BitVec 4 := if mwCvt m then mwTgt m else src

/-- CVT and SCL take no block format, and a target is a format (R103). -/
def stageFmtOk (m : BitVec 32) (src : BitVec 4) : Bool :=
  if mwCvt m || mwScl m then !isBlockFmt src && !isBlockFmt (stagedFmt m src) && decide ((stagedFmt m src).toNat ≤ 10) else true

/-- The checksum of a column of written elements (R105). (DEDUCED, log 28)  Of a block format it sums the element values without their scales,
which a copy does not move (DESIGN CHOICE, log 92). -/
def columnSum (f : BitVec 4) (xs : List Nat) : Nat × Flags :=
  if isIntFmt f then (truncInt 32 (xs.foldl (fun (t : Int) x => t + toSigned (elemBits f) x) 0), 0)
  else xs.foldl (fun (t : Nat × Flags) x =>
    let a := fp32.accumulate t.1 (elemVal f x)
    (a.1, t.2 ||| a.2)) (0, 0)
def checksumRow (f : BitVec 4) (cols : Nat) (rows : List (List Nat)) : List Nat × Flags :=
  let rs := (transposeRows 0 cols rows).map (columnSum f)
  (rs.map (·.1), rs.foldl (fun g r => g ||| r.2) 0)

/-! ### Operand checks (R96, R97) -/

def packable (f : BitVec 4) : Bool := decide (f.toNat ≤ 10) && f != 4

/-- The base of a descriptor suits its space (R50, R96, 12 R258, R115). -/
def baseOk (d : Desc) (checksum : Bool) : Bool :=
  if dSpace d = spVrf then vrfOk d checksum
  else if dSpace d = spRing then fld (dBase d) 6 2 == 0
  else if dSpace d = spStep then fld (dBase d) 32 32 == 0
  else true

/-- Rows of 4 bytes to 64 KiB, a multiple of 4 bytes each, and INT4 columns even (R97).  An empty operand has no row to hold to the limits:
a command whose operands are all empty is pushed whatever their shapes, and meets every other check (02 R50). (DEDUCED, log 27) -/
def rowsOk (d : Desc) : Bool :=
  (dEmpty d || (rowBits d % 32 == 0 && decide (32 ≤ rowBits d) && decide (rowBits d ≤ 524288))) && (dFmt d != 4 || dCols d % 2 == 0)

/-- A dense operand of a copy in one of the given spaces: no flag, rows of 4 bytes to 64 KiB, and `checksum` tells whether a checksum row
is written behind them. -/
def denseOk (d : Desc) (spaces : List Nat) (checksum : Bool) : Bool :=
  spaces.contains (dSpace d) && dFlags d == 0 && rowsOk d && baseOk d checksum

/-- The index list of CPROW and CPSCT (R97, R110); it reads no aux (02 R52). -/
def indexListOk (l : Desc) : Bool :=
  (dSpace l == spMem || dSpace l == spScr) && (dFmt l == 2 || dFmt l == 3) && (dEmpty l || dRows l == 1) && dMicro l == 0 && dFlags l == 0 &&
  dAux l == 0 && rowsOk l

/-- The destination's format, shape and stride after the stages, from rows of `n` elements (R102, R104, R105). -/
def shapeAfter (m : BitVec 32) (a : Desc) (src : BitVec 4) (rows n : Nat) : Bool :=
  stageFmtOk m src && dFmt a == stagedFmt m src &&
  (dEmpty a || if mwTrn m then rows % 128 == 0 && n % 128 == 0 && dRows a == n && dCols a == rows else dRows a == rows && dCols a == n) &&
  (!mwCks m || decide ((dCols a * 4 : Nat) ≤ dStride a))

/-- A record capacity (R113, R240). -/
def capacityOk (d : Desc) : Bool :=
  (dAux d).toNat % 128 == 0 && dAux d != 0 && decide ((dAux d).toNat ≤ (dStride d).natAbs)

/-- A threshold of SCPROBE: BF16, neither negative, NaN nor infinite (R116). -/
def thresholdOk (x : Nat) : Bool := match bf16.val x with | .fin neg m _ => !neg || m == 0 | _ => false

/-- The push-time checks of a class 9 word: `a` and `b` as snapshotted with the microword resolved, `list` the index
list, `pat` the pattern. -/
def copyInCheck (i : Instr) (a b list : Desc) (pat : BitVec 576) : Bool :=
  let m := dMicro a
  let dest := [spScr, spAcc, spVrf, spRing]
  match i with
  | .cpin .. =>
    denseOk a dest (mwCks m) && denseOk b [spMem, spScr, spRing] false && dAux b == 0 &&
    stagesOk m (stExt ||| stCvt ||| stScl ||| stTrn ||| stCks) 0 &&
    (if mwExt m then
       decide ((dAux a).toNat < 8) && patternOk pat && dFmt b == 0 &&
       (match extractCount pat (dCols b) with | some n => shapeAfter m a (patFmt pat) (dRows b) n | none => dEmpty a)
     else dAux a == 0 && shapeAfter m a (dFmt b) (dRows b) (dCols b))
  | .cprow .. =>
    denseOk a dest (mwCks m) && denseOk b [spMem, spScr] false && dAux a == 0 && decide ((dAux b).toNat < 32) &&
    indexListOk list && stagesOk m (stCvt ||| stScl ||| stCks) 0 && shapeAfter m a (dFmt b) (dCols list) (dCols b)
  | .cpexp .. =>
    denseOk a dest (mwCks m) && (dSpace b == spMem || dSpace b == spScr) && dFlags b == flagPacked &&
    packable (dFmt b) && capacityOk b && dAux a == 0 &&
    stagesOk m (stBmx ||| stCvt ||| stScl ||| stTrn ||| stCks) stBmx && shapeAfter m a (dFmt b) (dRows b) (dCols b)
  | .cpfill .. => denseOk a dest false && m == 0 && dAux a == 0 && !isBlockFmt (dFmt a)
  | .scprobe .. =>
    dSpace a == spStep && baseOk a false && dFlags a == 0 && m == stCmp && thresholdOk (fld (dAux a) 16 16) &&
    thresholdOk (fld (dAux a) 0 16) && denseOk b [spMem, spScr] false && dAux b == 0
  | .scrply .. =>
    denseOk a dest false && m == 0 && dAux a == 0 && dSpace b == spStep && baseOk b false && dFlags b == 0 && dAux b == 0
  | _ => true

/-! ### Row loops (R109, R120) -/

def State.writeRow (s : State) (c : Command) (cls : BitVec 4) (d : Desc) (l : Loc) (r : Nat) (xs : List Nat) : Except (Trap × State) State :=
  s.writeAt c cls .copyWrite (rowLoc d l r) (elemsToBytes (elemBits (dFmt d)) xs)

/-- Where a command that has done a unit goes on: a prompt machine does the rest at once, else the next unit is a step of its own
(16 R288). -/
def nextUnit (s : State) (rest : List Nat) : Option Nat := if s.prompt then none else rest.head?

/-- Reads, converts and writes unit by unit: a unit that faults is the one recorded, and the units before it stay
written. (DEDUCED, log 34)  Rows, index-list entries and records may be taken in any order (05 R99): they are taken by rising number (DESIGN
CHOICE, log 101), so that of destination rows that overlap the highest stands (05 R109; DESIGN CHOICE, log 102). -/
def copyLoop (c : Command) (cls : BitVec 4) (d : Desc) (l : Loc) (get : State → Nat → Except Trap (List Nat × Flags)) :
    List Nat → State → Flags → Ran
  | [], s, f => .done s [] f
  | r :: rest, s, f =>
    match get s r with
    | .error t => .stopped s t (unitProgress r) f
    | .ok (x, g) =>
      match s.writeRow c cls d l r x with
      | .error (t, s) => .stopped s t (unitProgress r) f
      | .ok s' =>
        match nextUnit s' rest with
        | some k => .partly s' (unitProgress k) (f ||| g)
        | none => copyLoop c cls d l get rest s' (f ||| g)

/-- Writes rows that were all read before, for TRN and CKS, which restart from unit 0; a row that is not written answers what to record. -/
def putRows (c : Command) (cls : BitVec 4) (d : Desc) (l : Loc) : List (List Nat × Nat) → State → Except (State × Trap × Nat) State
  | [], s => .ok s
  | (x, r) :: rest, s =>
    match s.writeRow c cls d l r x with
    | .error (t, s) => .error (s, t, t.restart r)
    | .ok s' => putRows c cls d l rest s'

/-- All rows, through TRN and CKS (R104, R105). -/
def copyWhole (s : State) (c : Command) (cls : BitVec 4) (d : Desc) (l : Loc) (m : BitVec 32)
    (get : State → Nat → Except Trap (List Nat × Flags)) (n width : Nat) : Ran :=
  match collect ((List.range n).map (get s)) with
  | .error t => .stopped s t 0 0
  | .ok xs =>
    let f := xs.foldl (fun g x => g ||| x.2) 0
    let rows := if mwTrn m then transposeRows 0 width (xs.map (·.1)) else xs.map (·.1)
    match putRows c cls d l (rows.zipIdx.drop c.unit) s with
    | .error (s', t, k) => .stopped s' t k 0
    | .ok s' =>
      if mwCks m then
        let k := checksumRow (dFmt d) (dCols d) rows
        match s'.writeAt c cls .copyWrite (rowLoc d l (dRows d)) (elemsToBytes 32 k.1) with
        | .error (t, s') => .stopped s' t (t.restart (dRows d)) 0
        | .ok s'' => .done s'' [] (f ||| k.2)
      else .done s' [] f

/-- A copy of `n` rows, each read by `get`; `width` is the element count of a row after the stages. -/
def copyRows (s : State) (c : Command) (cls : BitVec 4) (d : Desc) (l : Loc) (get : State → Nat → Except Trap (List Nat × Flags))
    (n width : Nat) : Ran :=
  let m := dMicro d
  if mwTrn m || mwCks m then copyWhole s c cls d l m get n width
  else copyLoop c cls d l get ((List.range n).drop c.unit) s c.flags

/-- One row of a dense source through the stages. -/
def getRow (c : Command) (src : Desc) (l : Loc) (m scale : BitVec 32) (s : State) (r : Nat) : Except Trap (List Nat × Flags) :=
  if mwExt m then
    (s.readAt c .copyRead (rowLoc src l r) (rowBytes src)).map fun bs => stageRow m scale (patFmt c.pattern) (extractRow c.pattern bs)
  else (s.readRow c .copyRead src l r).map (stageRow m scale (dFmt src))

/-- Both places of a copy, source before destination (R121). -/
def copyPlaces (s : State) (c : Command) : Except Trap (Loc × Loc) :=
  match s.place s.cur c.queue false c.db c.placed with
  | .error t => .error t
  | .ok l => (s.place s.cur c.queue true c.da c.placed).map fun d => (l, d)

/-- CPIN and CPOUT (R109, 12 R238). -/
def runCopy (s : State) (c : Command) (cls : BitVec 4) : Ran :=
  match copyPlaces s c with
  | .error t => .stopped s t 0 c.flags
  | .ok (src, dst) =>
    let m := dMicro c.da
    let width := if mwTrn m then dRows c.da else dCols c.da
    copyRows s c cls c.da dst (getRow c c.db src m (dScale c.da)) (dRows c.db) width

/-! ### Index lists (R110) -/

/-- The address of entry `i` of an index list, and its value. -/
def indexEntry (s : State) (c : Command) (list : Desc) (l : Loc) (i : Nat) : Except Trap Int :=
  let e := elemBits (dFmt list) / 8
  (s.readAt c .copyRead (l.shift (e * i : Nat)) e).map fun bs => toSigned (8 * e) (fromLe bs)

def entryTrap (q : BitVec 3) (list : Desc) (l : Loc) (i : Nat) : Trap :=
  accessTrap q .copyRead .protv (BitVec.ofInt 64 (l.base + (elemBits (dFmt list) / 8 * i : Nat)))

/-- CPROW (R110, R111): each occurrence of an index is read anew. -/
def runGatherRows (s : State) (c : Command) (cls : BitVec 4) (zeroFill : Bool) : Ran :=
  match s.place s.cur c.queue false c.extra with
  | .error t => .stopped s t 0 c.flags
  | .ok list =>
    match copyPlaces s c with
    | .error t => .stopped s t 0 c.flags
    | .ok (src, dst) =>
      let get (s : State) (i : Nat) : Except Trap (List Nat × Flags) :=
        match indexEntry s c c.extra list i with
        | .error t => .error t
        | .ok k =>
          if k < 0 ∨ (dRows c.db : Int) ≤ k then
            if zeroFill then .ok (List.replicate (dCols c.db) 0, 0) else .error (entryTrap c.queue c.extra list i)
          else getRow c c.db { src with turn := i + 1 } (dMicro c.da) (dScale c.da) s k.toNat
      copyRows s c cls c.da dst get (dCols c.extra) (dCols c.da)

/-! ### Packed records (R112, R113) -/

/-- The bytes of the mask of a record of `n` elements. -/
def maskBytes (n : Nat) : Nat := roundUp (ceilDiv n 8) 16
def recordLength (n nnz e : Nat) : Nat := roundUp (16 + maskBytes n + nnz * e) 128

/-- Whether a header is that of a record of `n` elements of a format within a capacity. -/
def headerOk (d : Desc) (h : List Byte) : Bool :=
  let len := fromLe (h.take 4)
  let nnz := fromLe ((h.drop 4).take 4)
  let n := fromLe ((h.drop 8).take 4)
  decide (len ≤ (dAux d).toNat) && len % 128 == 0 && n == dCols d && (h.getD 12 0).toNat == (dFmt d).toNat &&
  decide (nnz ≤ n) && fromLe (h.drop 13) == 0 && len == recordLength n nnz (elemBits (dFmt d) / 8)

/-- The stored values spread over the mask's positions. -/
def spread : List Bool → List Nat → List Nat
  | [], _ => []
  | true :: ms, v :: vs => v :: spread ms vs
  | true :: ms, [] => 0 :: spread ms []
  | false :: ms, vs => 0 :: spread ms vs

def maskBits (bs : List Byte) : List Bool := bs.flatMap fun b => (List.range 8).map b.getLsbD

/-- The elements of a packed record (R113).  What becomes of a record that does not start on 128 bytes is not stated: it is read where it
starts (DESIGN CHOICE, log 93). -/
def readRecord (c : Command) (src : Desc) (l : Loc) (s : State) (r : Nat) : Except Trap (List Nat) :=
  let at0 := rowLoc src l r
  let bad := cmdTrap c.queue .capovf (BitVec.ofInt 64 at0.base)
  let e := elemBits (dFmt src) / 8
  let n := dCols src
  match s.readAt c .copyRead at0 16 with
  | .error t => .error t
  | .ok h =>
    if !headerOk src h then .error bad
    else
      let nnz := fromLe ((h.drop 4).take 4)
      match s.readAt c .copyRead (at0.shift 16) (maskBytes n) with
      | .error t => .error t
      | .ok mb =>
        let bits := maskBits mb
        if (bits.filter id).length != nnz || (bits.drop n).any id then .error bad
        else
          (s.readAt c .copyRead (at0.shift (16 + maskBytes n : Nat)) (nnz * e)).map fun vs =>
            spread (bits.take n) (bytesToElems (8 * e) vs)

def runExpand (s : State) (c : Command) (cls : BitVec 4) : Ran :=
  match copyPlaces s c with
  | .error t => .stopped s t 0 c.flags
  | .ok (src, dst) =>
    let m := dMicro c.da
    let get (s : State) (r : Nat) : Except Trap (List Nat × Flags) :=
      (readRecord c c.db src s r).map (stageRow m (dScale c.da) (dFmt c.db))
    copyRows s c cls c.da dst get (dRows c.db) (if mwTrn m then dRows c.da else dCols c.da)

/-! ### CPFILL (R114) -/

def runFill (s : State) (c : Command) (cls : BitVec 4) : Ran :=
  match s.place s.cur c.queue true c.da c.placed with
  | .error t => .stopped s t 0 c.flags
  | .ok dst =>
    let x := c.scalar.toNat % 2 ^ elemBits (dFmt c.da)
    copyLoop c cls c.da dst (fun _ _ => .ok (List.replicate (dCols c.da) x, 0)) ((List.range (dRows c.da)).drop c.unit) s c.flags

/-! ### The step cache (R115-R119, 17 R326-R329) -/

def tileBytes (f : BitVec 4) (rows cols : Nat) : Nat := ceilDiv (rows * cols * elemBits f) 8
/-- The stored tile of a step entry: input at 0, result at 65536. -/
def stepLoc (entry off : Nat) : Loc :=
  { kind := .sram 3 (stepOffset entry + off) (stepOffset entry + off + 65536), base := stepOffset entry + off }

/-- How many entries of the section a quire pins. -/
def Device.pinCount (d : Device) (sec : Nat) (g : Gid) : Nat :=
  ((List.range 128).filter fun x => (d.step (stepIndex sec x)).pins.contains g).length

/-- The verdict of a probe of comparable tiles (R116). -/
def probeClose (f : BitVec 4) (aux : BitVec 32) (xs ys : List Nat) : Bool :=
  let far := (xs.zip ys).map fun p => ((elemVal f p.1).add false (elemVal f p.2).neg).1.abs
  let top (l : List FpVal) : FpVal := l.foldl (fun t x => if t.lt x then x else t) (.fin false 0 0)
  let limit := ((bf16.val (fld aux 0 16)).fma false (top (ys.map fun y => (elemVal f y).abs)) (bf16.val (fld aux 16 16))).1
  !limit.lt (top far)

/-- The tag-store entry as the current unit finds it: that of a record which it still buffers, else the section's (20 R359). -/
def State.stepFor (s : State) (k : Nat) : StepEntry :=
  let mine := s.cur.relBuf.reverse.findSome? fun w => match w.access.want with | .record i e _ => if i == k then some e else none | _ => none
  match mine with | some e => { e with valid := true } | none => (s.dev (gidDev s.cur.gid)).step k

/-- Changes a tag-store entry: that of a record which the unit still buffers, else the section's. -/
def State.onStep (s : State) (k : Nat) (f : StepEntry → StepEntry) : State :=
  let mine (w : BufWrite) : Bool := match w.access.want with | .record i _ _ => i == k | _ => false
  if s.cur.relBuf.any mine then
    { s with cur := { s.cur with relBuf := s.cur.relBuf.map fun w => match w.access.want with
        | .record i e r => if i == k then { w with access := { w.access with want := .record i (f e) r } } else w
        | _ => w } }
  else s.onDev (gidDev s.cur.gid) fun d => d.setStep k (f (d.step k))

/-- The bytes of a tile that the current unit still buffers in a record; `off` is 0 for the input, 65536 for the result. -/
def State.bufferedTile (s : State) (k off n : Nat) : Option (List Byte) :=
  s.cur.relBuf.reverse.findSome? fun w => match w.access.want with
    | .record i _ r => if i == k then some ((if off = 0 then w.access.data else r).take n) else none
    | _ => none

/-- A stored tile is read in one step, with the tag that stands with it (05 R116); one whose entry has changed since it was read is read again, so
that it is seen wholly before or wholly after a record (05 R119). -/
def State.readTile (s : State) (c : Command) (x off n : Nat) : Except Trap (List Byte) :=
  let k := stepIndex (gidSection s.cur.gid) x
  match s.bufferedTile k off n with
  | some bs => .ok bs
  | none => s.readAt c .copyRead { stepLoc x off with turn := (s.stepFor k).recency } n

/-- SCPROBE (05 R115-R119): it reads, then decides and updates in one step; in a release buffer it changes the tag of a record that waits there,
else the section's at once (DESIGN CHOICE, log 35).  Whether the PROTV of an absent entry writes XSTAT is not stated: it does not (DESIGN
CHOICE, log 94). -/
def runProbe (s : State) (c : Command) : Ran :=
  let u := s.cur
  let q := c.queue
  let x := fld (dBase c.da) 0 32
  let sec := gidSection u.gid
  let k := stepIndex sec x
  match s.place u q false c.db with
  | .error t => .stopped s t 0 0
  | .ok src =>
    match collect ((List.range (dRows c.db)).map fun r => s.readRow c .copyRead c.db src r) with
    | .error t => .stopped s t 0 0
    | .ok rows =>
      if !s.stepExists u x then .stopped s (cmdTrap q .protv (BitVec.ofNat 64 x)) 0 0
      else
        let d := s.dev (gidDev u.gid)
        let e := s.stepFor k
        let t := c.scalar
        let f := dFmt c.db
        match s.readTile c x 0 (if e.valid then tileBytes e.inFmt e.inRows e.inCols else 0) with
        | .error t => .stopped s t 0 0
        | .ok old =>
          let xs := rows.flatMap id
          let ys := (bytesToElems (elemBits f) old).take (dRows c.db * dCols c.db)
          let infinite (v : Nat) : Bool := (elemVal f v).isNan || (elemVal f v).isInf
          let verdict :=
            if !e.valid || fld t 0 16 == 0 || e.tag != t - 1 then 0
            else if e.inFmt != f || e.inRows != dRows c.db || e.inCols != dCols c.db || xs.any infinite || ys.any infinite ||
                    d.pinCount sec u.gid == 8 then 3
            else if probeClose f (dAux c.da) xs ys then 2 else 1
          let (d, n) := d.tickStep sec
          let mark (e : StepEntry) : StepEntry :=
            if verdict = 2 then { e with tag := t, pins := if e.pins.contains u.gid then e.pins else e.pins ++ [u.gid], recency := n }
            else { e with recency := n }
          let u' := if verdict = 2 then { u with stephit := u.stephit + 1 } else { u with stepmiss := u.stepmiss + 1 }
          let s' := ({ s with cur := u' }.setDev d).onStep k mark
          .done s' [BitVec.ofNat 64 (verdict * 2 ^ 62 + (if e.valid then fld e.tag 0 16 else 0) * 2 ^ 32 + x)] 0

/-- Writes a dense tile row by row, from the row a command goes on with. -/
def putTile (c : Command) (cls : BitVec 4) (d : Desc) (l : Loc) (xs : List Nat) (s : State) : Except (State × Trap × Nat) State :=
  putRows c cls d l (((List.range (dRows d)).map fun r => ((xs.drop (r * dCols d)).take (dCols d), r)).drop c.unit) s

/-- SCRPLY (05 R118): its faults arise before its first write (R120); the entry's pin goes at its retirement. -/
def runReplay (s : State) (c : Command) (cls : BitVec 4) : Ran :=
  let u := s.cur
  let q := c.queue
  let x := fld (dBase c.db) 0 32
  let sec := gidSection u.gid
  let k := stepIndex sec x
  let bad := cmdTrap q .protv (BitVec.ofNat 64 x)
  if !s.stepExists u x then .stopped s bad 0 0
  else
    let e := s.stepFor k
    if !e.valid || e.tag != c.scalar || e.outFmt != dFmt c.da || e.outRows != dRows c.da || e.outCols != dCols c.da then
      .stopped s bad 0 0
    else
      match s.readTile c x 65536 (tileBytes e.outFmt e.outRows e.outCols), s.place u q true c.da c.placed with
      | .error t, _ => .stopped s t 0 0
      | _, .error t => .stopped s t 0 0
      | .ok bs, .ok dst =>
        match putTile c cls c.da dst (bytesToElems (elemBits e.outFmt) bs) s with
        | .error (s', t, k) => .stopped (if t.cause = .bufferFull then s' else s) t k 0
        | .ok s' =>
          .done s' [] 0

/-! ### The commands -/

/-- What a started L command does. -/
def runLoad (s : State) (c : Command) : Ran :=
  match c.instr with
  | .cpin _ oc _ _ _ => runCopy s c oc
  | .cprow _ oc _ oobz _ _ => runGatherRows s c oc oobz
  | .cpexp _ oc _ _ _ => runExpand s c oc
  | .cpfill _ oc _ _ _ => runFill s c oc
  | .scprobe .. => runProbe s c
  | .scrply _ oc _ _ _ _ => runReplay s c oc
  | _ => .done s [] 0

end Sys2Proof.Machine
end

