-- ==== Sys2Proof/Machine/VecEngine.lean ====
section
/-! DEFINITION. The vector engine (chapter 08): the push checks of classes 6 and 7, what each command does once it has
started, and the exact latencies that framed mode tests. -/
namespace Sys2Proof.Machine
open Sys2Proof

/-! ### Format sets (R174) -/

def setF (f : BitVec 4) : Bool := decide (5 ≤ f.toNat) && decide (f.toNat ≤ 8)
def setI (f : BitVec 4) : Bool := decide (f.toNat ≤ 3)
def setFI (f : BitVec 4) : Bool := setF f || setI f
def setW (f : BitVec 4) : Bool := f == 5 || f == 6 || f == 2 || f == 3
def setB (f : BitVec 4) : Bool := isBlockFmt f
def setAll (f : BitVec 4) : Bool := decide (f.toNat ≤ 13)
def setN (f : BitVec 4) : Bool := setAll f && f != 4 && f != 0xB

/-- A run of `k` vector registers from `r` ends at v63 or earlier (R184). -/
def runOk (r : Reg) (k : Nat) : Bool := decide (r.toNat + k ≤ 64)
/-- Whether register `x` lies in the run of `k` registers from `r`. -/
def inRun (r : Reg) (k : Nat) (x : Reg) : Bool := decide (r.toNat ≤ x.toNat) && decide (x.toNat < r.toNat + k)

/-- The element size in bytes of a format of at least a byte. -/
def elemBytes (f : BitVec 4) : Nat := elemBits f / 8

/-- The descriptor of VGATHS and VSCATS (R189). -/
def gatherOk (f : BitVec 4) (d : Desc) : Bool :=
  dSpace d == spScr && dFmt d == f && dMicro d == 0 && dAux d == 0 && dFlags d == 0 &&
  (dBase d).toNat % elemBytes f == 0 && dStride d % (elemBytes f : Int) == 0

/-- The descriptor of VLD, VST and VLDX (R190). -/
def rowDescOk (f : BitVec 4) (d : Desc) : Bool :=
  (dSpace d == spScr || dSpace d == spAcc) && dFmt d == f && dMicro d == 0 && dAux d == 0 &&
  onlyFlags d flagBlockscaled && (dBase d).toNat % 8 == 0 && dStride d % 8 == 0 &&
  (dCols d * elemBits f) % 64 == 0 && decide (dCols d * elemBits f ≤ 4096)

/-- The formats of VCVT (R185). -/
def cvtOk (src dst : BitVec 4) (p : BitVec 2) : Bool :=
  let r := max (elemBits src) (elemBits dst) / min (elemBits src) (elemBits dst)
  decide (src.toNat ≤ 10) && decide (dst.toNat ≤ 10) && src != dst && decide (r ≤ 4) && decide (p.toNat < r)

/-- Registers of FP32 runs in VPACK and VUNPK (R186). -/
def packRun (f : BitVec 4) : Nat := if f == 0xB then 8 else 4
/-- Index registers of VGATHS and VSCATS (R189). -/
def indexRun (f : BitVec 4) : Nat := ceilDiv (vCount (elemBits f)) 128

/-- The push-time checks of a class 6 or 7 word, with its format resolved and its descriptor as snapshotted.  The TBL code in VCVT's
source-format field names no format: whether a push resolves it there is not stated (02 R31; DESIGN CHOICE, log 104). -/
def vecCheck (i : Instr) (f : BitVec 4) (d : Desc) : Bool :=
  match i with
  | .vadd .. | .vsub .. | .vmul .. | .vfma .. | .vfnma .. | .vmin .. | .vmax .. | .vabs .. | .vneg ..
  | .vceq .. | .vclt .. | .vcle .. | .vclamp .. => setFI f
  | .vdiv .. | .vsqrt .. | .vrsq .. | .vrcp .. | .vexp2 .. | .vlog2 .. => setF f
  | .vand .. | .vor .. | .vxor .. | .vsel .. | .vmov .. | .vcmpr .. | .vexpd .. => setAll f
  | .vshl .. | .vshr .. | .vsar .. | .viota .. | .vadds .. | .vmulh .. => setI f
  | .vmovs .. => setAll f && !setB f
  | .vcvt _ _ _ _ _ src p => cvtOk src f p
  | .vpack _ _ a b c => setB f && runOk b (packRun f) && a != c && !inRun b (packRun f) a && !inRun b (packRun f) c
  | .vunpk _ _ a b c => setB f && runOk a (packRun f) && b != c && !inRun a (packRun f) b && !inRun a (packRun f) c
  | .vperm _ _ _ _ _ c => setN f && runOk c (if vCount (elemBits f) > 256 then 2 else 1)
  | .vgaths _ _ _ _ a _ c => setN f && gatherOk f d && runOk c (indexRun f) && !inRun c (indexRun f) a
  | .vscats _ _ _ _ _ _ c => setN f && gatherOk f d && runOk c (indexRun f)
  | .vred _ _ _ _ _ op _ => if op.toNat ≤ 2 then setFI f else setI f
  | .vscan .. => setFI f
  | .vtopk _ _ _ a b _ => setW f && runOk a 2 && runOk b 2
  | .vld .. | .vst .. => setAll f && rowDescOk f d
  | .vldx .. => setN f && rowDescOk f d
  | _ => true

/-! ### Element operations (R179-R183) -/

def opSub (f : BitVec 4) := elemOp f (fun _ b c => b - c) fun s _ b c => rounded s ((s.val b).add false (s.val c).neg)
def opMul (f : BitVec 4) := elemOp f (fun _ b c => b * c) fun s _ b c => rounded s ((s.val b).mul (s.val c))
def opFma (f : BitVec 4) := elemOp f (fun a b c => b * c + a) fun s a b c => rounded s ((s.val b).fma false (s.val c) (s.val a))
def opFnma (f : BitVec 4) :=
  elemOp f (fun a b c => a - b * c) fun s a b c => rounded s ((s.val b).neg.fma false (s.val c) (s.val a))
def opAbs (f : BitVec 4) := elemOp f (fun _ b _ => b.natAbs) fun s _ b _ => (b % 2 ^ (s.bits - 1), 0)
def opNeg (f : BitVec 4) := elemOp f (fun _ b _ => -b) fun s _ b _ => (b ^^^ 2 ^ (s.bits - 1), 0)
def opFloat (g : FpVal → FpVal × Flags) (f : BitVec 4) := elemOp f (fun _ b _ => b) fun s _ b _ => rounded s (g (s.val b))
def opDiv (f : BitVec 4) := elemOp f (fun _ b _ => b) fun s _ b c => rounded s ((s.val b).div (s.val c))
/-- `min (max (a, b), c)` with the VMIN and VMAX rules (R183). -/
def opClamp (f : BitVec 4) (a b c : Nat) : Nat × Flags :=
  let m := opMinmax true f a a b
  let r := opMinmax false f a m.1 c
  (r.1, m.2 ||| r.2)
/-- An operation on bits that raises no flag (R181). -/
def opBits (g : Nat → Nat → Nat) (_ b c : Nat) : Nat × Flags := (g b c, 0)
def opAdds (f : BitVec 4) (_ b c : Nat) : Nat × Flags :=
  let w := elemBits f
  (truncInt w (clampInt w (toSigned w b + toSigned w c)), 0)
def opMulh (f : BitVec 4) (_ b c : Nat) : Nat × Flags :=
  let w := elemBits f
  (truncInt w ((toSigned w b * toSigned w c) / (2 ^ w : Nat)), 0)
def shiftLeft (w b c : Nat) : Nat := b * 2 ^ (c % w) % 2 ^ w
def shiftRight (w b c : Nat) : Nat := b / 2 ^ (c % w)
def shiftArith (w b c : Nat) : Nat := truncInt w (toSigned w b / (2 ^ (c % w) : Nat))

/-! ### Writing registers -/

/-- One destination register by elements, under the predicate. -/
def vApply (s : State) (f : BitVec 4) (mk : MReg) (a b c : Reg) (op : Nat → Nat → Nat → Nat × Flags) : Ran :=
  let u := s.cur
  let w := elemBits f
  let r := vMap w (u.rm mk) (u.rv a) fun i => op (vElem w (u.rv a) i) (vElem w (u.rv b) i) (vElem w (u.rv c) i)
  .done { s with cur := u.wv a r.1 } [] r.2

/-- A relation over the elements of each active lane, into a mask register (R182). -/
def vCompare (s : State) (f : BitVec 4) (mk : MReg) (a : MReg) (b c : Reg) (onInt : Int → Int → Bool)
    (onFloat : FpVal → FpVal → Bool) (quiet : Bool) : Ran :=
  let u := s.cur
  let w := elemBits f
  let rel (x y : Nat) : Bool × Flags :=
    match floatOf f with
    | some sp =>
      let p := sp.val x
      let q := sp.val y
      (onFloat p q, if quiet then snanFlag [p, q] else flagIf (p.isNan || q.isNan) flagNV)
    | none => (onInt (toSigned w x) (toSigned w y), 0)
  let elems := (List.range (vCount w)).filter fun i => laneOn (u.rm mk) w i
  let rs := elems.map fun i => (w * i / 64, rel (vElem w (u.rv b) i) (vElem w (u.rv c) i))
  let out : Word := (List.range 64).foldl (fun m l =>
    if (u.rm mk).getLsbD l then
      (if (rs.filter fun r => r.1 == l).all (fun r => r.2.1) then m ||| (1 <<< l) else m)
    else m ||| (u.rm a &&& (1 <<< l))) 0
  .done { s with cur := u.wm a out } [] (rs.foldl (fun g r => g ||| r.2.2) 0)

/-- Lanes as 64-bit elements. -/
def vLanes (x : BitVec 4096) : List Nat := vElems 64 x

/-- VCMPR: the chosen lanes, packed; VEXPD: the next lanes, spread (R194). -/
def compressLanes (mask : Word) (b : BitVec 4096) : BitVec 4096 :=
  vOf 64 ((List.range 64).filterMap fun l => if mask.getLsbD l then some (vElem 64 b l) else none)
def expandLanes (mask : Word) (b : BitVec 4096) : BitVec 4096 :=
  vOf 64 ((List.range 64).map fun l =>
    if mask.getLsbD l then vElem 64 b ((List.range l).filter fun k => mask.getLsbD k).length else 0)

/-! ### Conversion and packing (R185, R186) -/

def vConvert (s : State) (f src : BitVec 4) (p : BitVec 2) (mk : MReg) (a b : Reg) : Ran :=
  let u := s.cur
  let ws := elemBits src
  let wd := elemBits f
  let cvt (x : Nat) : Nat × Flags := elemConvert f .rne false (elemVal src x)
  let r :=
    if ws ≤ wd then vMap wd (u.rm mk) (u.rv a) fun i => cvt (vElem ws (u.rv b) (p.toNat * vCount wd + i))
    else
      let n := vCount ws
      vMap wd (u.rm mk) (u.rv a) fun i =>
        if p.toNat * n ≤ i ∧ i < p.toNat * n + n then cvt (vElem ws (u.rv b) (i - p.toNat * n)) else (vElem wd (u.rv a) i, 0)
  .done { s with cur := u.wv a r.1 } [] r.2

def vPack (s : State) (f : BitVec 4) (a b c : Reg) : Ran :=
  let u := s.cur
  let blocks := (List.range (packRun f)).map fun j =>
    encodeBlock f ((vElems 32 (u.rv (b + BitVec.ofNat 6 j))).map fp32.val)
  let codes := vOf (elemBits f) (blocks.flatMap fun x => x.2.1)
  let recs := vOf 16 (blocks.map (·.1))
  .done { s with cur := (u.wv a codes).wv c recs } [] (blocks.foldl (fun g x => g ||| x.2.2) 0)

/-- VUNPK (08 R186): each element to FP32 (DEDUCED, log 38). -/
def vUnpack (s : State) (f : BitVec 4) (a b c : Reg) : Ran :=
  let u := s.cur
  let w := elemBits f
  let block (j : Nat) : BitVec 4096 × Flags :=
    let rec16 := vElem 16 (u.rv c) j
    let rs := (List.range 128).map fun i => fp32.convert .rne false (blockVal f rec16 (vElem w (u.rv b) (128 * j + i)))
    (vOf 32 (rs.map (·.1)), flagIf (nanBlock f rec16) flagNV ||| rs.foldl (fun g r => g ||| r.2) 0)
  let r := (List.range (packRun f)).foldl (fun (t : Unit × Flags) j =>
    let x := block j
    (t.1.wv (a + BitVec.ofNat 6 j) x.1, t.2 ||| x.2)) (u, 0)
  .done { s with cur := r.1 } [] r.2

/-! ### Permutation, gather and scatter (R187-R189) -/

/-- The signed index `i` among the elements of width `w` of the run of registers from `c`. -/
def indexAt (u : Unit) (w : Nat) (c : Reg) (i : Nat) : Int :=
  toSigned w (vElem w (u.rv (c + BitVec.ofNat 6 (i / vCount w))) (i % vCount w))

def vPermute (s : State) (f : BitVec 4) (mk : MReg) (a b c : Reg) : Ran :=
  let u := s.cur
  let w := elemBits f
  let r := vMap w (u.rm mk) (u.rv a) fun i =>
    let j := indexAt u 16 c i
    (if 0 ≤ j ∧ j < vCount w then vElem w (u.rv b) j.toNat else 0, 0)
  .done { s with cur := u.wv a r.1 } [] 0

/-- The place of the element at flat index `j` (R189). -/
def flatLoc (d : Desc) (l : Loc) (j : Nat) : Loc :=
  l.shift ((j / dCols d : Nat) * dStride d + (j % dCols d * elemBytes (dFmt d) : Nat))

/-- The active indices in ascending order. -/
def activeElems (u : Unit) (w : Nat) (mk : MReg) : List Nat := (List.range (vCount w)).filter fun i => laneOn (u.rm mk) w i

def gatherFrom (s : State) (cmd : Command) (d : Desc) (l : Loc) (c : Reg) : List Nat → Except Trap (List (Nat × Nat))
  | [] => .ok []
  | i :: rest =>
    let j := indexAt s.cur 32 c i
    if j < 0 ∨ (dRows d * dCols d : Nat) ≤ j then .error (accessTrap cmd.queue .read .protv (BitVec.ofInt 64 j))
    else
      match s.readAt cmd .read (flatLoc d l j.toNat) (elemBytes (dFmt d)) with
      | .error t => .error t
      | .ok bs => (gatherFrom s cmd d l c rest).map ((i, fromLe bs) :: ·)

def vGather (s : State) (cmd : Command) (mk : MReg) (a c : Reg) (d : Desc) : Ran :=
  let u := s.cur
  let w := elemBits cmd.fmt
  match s.place u cmd.queue false d with
  | .error t => .stopped s t 0 0
  | .ok l =>
    match gatherFrom s cmd d l c (activeElems u w mk) with
    | .error t => .stopped s t 0 0
    | .ok xs =>
      let r := vMap w (u.rm mk) (u.rv a) fun i => ((xs.lookup i).getD 0, 0)
      .done { s with cur := u.wv a r.1 } [] 0

/-- Scatters element by element; a fault leaves the elements before it written (R177). -/
def scatterTo (cmd : Command) (cls : BitVec 4) (d : Desc) (l : Loc) (b c : Reg) : List (Nat × Nat) → State → Ran
  | [], s => .done s [] 0
  | (i, k) :: rest, s =>
    let j := indexAt s.cur 32 c i
    let w := elemBits cmd.fmt
    if j < 0 ∨ (dRows d * dCols d : Nat) ≤ j then .stopped s (accessTrap cmd.queue .store .protv (BitVec.ofInt 64 j)) 0 0
    else
      match s.writeAt cmd cls .store (flatLoc d l j.toNat) (leBytes (w / 8) (vElem w (s.cur.rv b) i)) with
      | .error (t, s) => .stopped s t (t.restart k) 0
      | .ok s' => scatterTo cmd cls d l b c rest s'

def vScatter (s : State) (cmd : Command) (cls : BitVec 4) (mk : MReg) (b c : Reg) (d : Desc) : Ran :=
  match s.place s.cur cmd.queue true d with
  | .error t => .stopped s t 0 0
  | .ok l => scatterTo cmd cls d l b c ((activeElems s.cur (elemBits cmd.fmt) mk).zipIdx.drop cmd.unit) s

/-! ### Rows (R190) -/

/-- VLD.  With no active lane it still meets a row out of range: the spec does not say whether it does (08 R173, R190; DESIGN CHOICE, log 106). -/
def vLoadRow (s : State) (cmd : Command) (mk : MReg) (a : Reg) (d : Desc) : Ran :=
  let u := s.cur
  let r := cmd.scalar.toNat
  if dRows d ≤ r then .stopped s (accessTrap cmd.queue .read .protv cmd.scalar) 0 0
  else
    match s.place u cmd.queue false d with
    | .error t => .stopped s t 0 0
    | .ok l =>
      let lanes := dCols d * elemBits cmd.fmt / 64
      let active := (List.range lanes).filter fun k => (u.rm mk).getLsbD k
      let step (acc : Except Trap (List (Nat × Nat))) (k : Nat) : Except Trap (List (Nat × Nat)) :=
        match acc with
        | .error t => .error t
        | .ok xs => (s.readAt cmd .read ((rowLoc d l r).shift (8 * k : Nat)) 8).map fun bs => xs ++ [(k, fromLe bs)]
      match active.foldl step (.ok []) with
      | .error t => .stopped s t 0 0
      | .ok xs =>
        let v := vMap 64 (u.rm mk) (u.rv a) fun k => ((xs.lookup k).getD 0, 0)
        .done { s with cur := u.wv a v.1 } [] 0

def storeLanes (cmd : Command) (cls : BitVec 4) (l : Loc) (b : Reg) : List (Nat × Nat) → State → Ran
  | [], s => .done s [] 0
  | (k, n) :: rest, s =>
    match s.writeAt cmd cls .store (l.shift (8 * k : Nat)) (leBytes 8 (vElem 64 (s.cur.rv b) k)) with
    | .error (t, s) => .stopped s t (t.restart n) 0
    | .ok s' => storeLanes cmd cls l b rest s'

/-- VST.  With no active lane it still meets a row out of range (08 R173, R190; DESIGN CHOICE, log 106). -/
def vStoreRow (s : State) (cmd : Command) (cls : BitVec 4) (mk : MReg) (b : Reg) (d : Desc) : Ran :=
  let u := s.cur
  let r := cmd.scalar.toNat
  if dRows d ≤ r then .stopped s (accessTrap cmd.queue .store .protv cmd.scalar) 0 0
  else
    match s.place u cmd.queue true d with
    | .error t => .stopped s t 0 0
    | .ok l =>
      let lanes := dCols d * elemBits cmd.fmt / 64
      storeLanes cmd cls (rowLoc d l r) b (((List.range lanes).filter fun k => (u.rm mk).getLsbD k).zipIdx.drop cmd.unit) s

/-- VLDX.  With no active lane it still meets an index out of range and reads its element, and can fault there (08 R173, R190; DESIGN CHOICE, log
106). -/
def vLoadElem (s : State) (cmd : Command) (mk : MReg) (a : Reg) (d : Desc) : Ran :=
  let u := s.cur
  let j := cmd.scalar.toNat
  if dRows d * dCols d ≤ j then .stopped s (accessTrap cmd.queue .read .protv cmd.scalar) 0 0
  else
    match s.place u cmd.queue false d with
    | .error t => .stopped s t 0 0
    | .ok l =>
      match s.readAt cmd .read (flatLoc d l j) (elemBytes cmd.fmt) with
      | .error t => .stopped s t 0 0
      | .ok bs =>
        let v := vMap (elemBits cmd.fmt) (u.rm mk) (u.rv a) fun _ => (fromLe bs, 0)
        .done { s with cur := u.wv a v.1 } [] 0

/-! ### Reductions and scans (R191, R192) -/

/-- The format of a reduction: FP64 stays, narrower floats widen to FP32, integers to INT64. -/
def wideFmt (f : BitVec 4) : BitVec 4 := if f == 5 then 5 else if setF f then 6 else 3
/-- An element in the wide format. -/
def widen (f : BitVec 4) (x : Nat) : Nat × Flags :=
  if f == wideFmt f then (x, 0) else elemConvert (wideFmt f) .rne false (elemVal f x)
def redIdentity (f : BitVec 4) (op : Nat) : Nat :=
  match floatOf (wideFmt f), op with
  | some s, 0 => s.signBit true
  | some s, 1 => s.infBits false
  | some s, _ => s.infBits true
  | none, 1 => 2 ^ 63 - 1
  | none, 2 => 2 ^ 63
  | none, 3 => 2 ^ 64 - 1
  | none, _ => 0
def redOp (f : BitVec 4) (op x y : Nat) : Nat × Flags :=
  match op with
  | 0 => opAdd (wideFmt f) 0 x y
  | 1 => opMinmax false (wideFmt f) 0 x y
  | 2 => opMinmax true (wideFmt f) 0 x y
  | 3 => (x &&& y, 0)
  | 4 => (x ||| y, 0)
  | _ => (x ^^^ y, 0)

/-- One level of the tree. -/
def redLevel (f : BitVec 4) (op : Nat) : List Nat → List Nat × Flags
  | a :: b :: rest =>
    let r := redOp f op a b
    let t := redLevel f op rest
    (r.1 :: t.1, r.2 ||| t.2)
  | xs => (xs, 0)
/-- The tree over `2^k` values. -/
def redTree (f : BitVec 4) (op : Nat) : Nat → List Nat → Nat × Flags
  | 0, xs => (xs.headD 0, 0)
  | k + 1, xs =>
    let l := redLevel f op xs
    let t := redTree f op k l.1
    (t.1, l.2 ||| t.2)

/-- The elements that enter a reduction, widened, inactive ones as the identity. -/
def redInputs (u : Unit) (f : BitVec 4) (mk : MReg) (b : Reg) (op : Nat) : List (Nat × Flags) :=
  (List.range (vCount (elemBits f))).map fun i =>
    if laneOn (u.rm mk) (elemBits f) i then widen f (vElem (elemBits f) (u.rv b) i) else (redIdentity f op, 0)

def vReduce (s : State) (f : BitVec 4) (mk : MReg) (a b : Reg) (op : BitVec 3) (reply : Bool) : Ran :=
  let u := s.cur
  let xs := redInputs u f mk b op.toNat
  let r := redTree f op.toNat (vCount (elemBits f)).log2 (xs.map (·.1))
  .done { s with cur := u.wv a (BitVec.ofNat 4096 r.1) } (if reply then [BitVec.ofNat 64 r.1] else [])
    (xs.foldl (fun g x => g ||| x.2) r.2)

/-- The running values of a scan: each element's result, in order. -/
def scanFrom (f : BitVec 4) (op : Nat) : Nat → List (Nat × Flags) → List Nat × Flags
  | _, [] => ([], 0)
  | run, x :: rest =>
    let r := redOp f op run x.1
    let t := scanFrom f op r.1 rest
    (r.1 :: t.1, x.2 ||| r.2 ||| t.2)

def vScan (s : State) (f : BitVec 4) (mk : MReg) (a b : Reg) (op : BitVec 2) : Ran :=
  let u := s.cur
  let w := elemBits f
  let r := scanFrom f op.toNat (redIdentity f op.toNat) (redInputs u f mk b op.toNat)
  let back (x : Nat) : Nat × Flags :=
    match floatOf f, floatOf (wideFmt f) with
    | some sp, some wide => if sp = wide then (x, 0) else sp.convert .rne false (wide.val x)
    | _, _ => (x % 2 ^ w, 0)
  let v := vMap w (u.rm mk) (u.rv a) fun i => back (r.1.getD i 0)
  .done { s with cur := u.wv a v.1 } [] (r.2 ||| v.2)

/-! ### Ranking (R193) -/

/-- Whether a pair comes strictly before another in the total order: (value, index). -/
def rankBefore (f : BitVec 4) (x y : Nat × Nat) : Bool :=
  let keyLess (a b : Nat) : Bool :=  -- `b` before `a`
    match floatOf f with
    | some s =>
      let p := s.val a
      let q := s.val b
      if q.isNan then !p.isNan
      else if p.isNan then false
      else if p.lt q then true
      else if q.lt p then false
      else p.negative && !q.negative
    | none => decide (toSigned (elemBits f) a < toSigned (elemBits f) b)
  if keyLess y.1 x.1 then true
  else if keyLess x.1 y.1 then false
  else decide (x.2 < y.2)

/-- Inserts a pair behind those that come before it or equal it. -/
def rankInsert (f : BitVec 4) (x : Nat × Nat) : List (Nat × Nat) → List (Nat × Nat)
  | [] => [x]
  | y :: rest => if rankBefore f x y then x :: y :: rest else y :: rankInsert f x rest

def vTopk (s : State) (f : BitVec 4) (mk : MReg) (a b : Reg) (k : Nat) : Ran :=
  let u := s.cur
  let w := elemBits f
  let pairs := (activeElems u w mk).map fun i => (vElem w (u.rv b) i, vElem 32 (u.rv (b + 1)) i)
  let best := (pairs.foldl (fun l x => rankInsert f x l) []).take k
  let vals := vOf w (best.map (·.1))
  let idxs := vOf 32 (best.map (·.2) ++ List.replicate (128 - best.length) (2 ^ 32 - 1))
  .done { s with cur := (u.wv a vals).wv (a + 1) idxs } [] 0

def popCount (m : Word) : Nat := ((List.range 64).filter fun l => m.getLsbD l).length

/-! ### The commands -/

/-- What a started V command does (R178-R195). -/
def runVector (s : State) (c : Command) : Ran :=
  let u := s.cur
  let f := c.fmt
  let w := elemBits f
  match c.instr with
  | .vadd _ mk _ a b d => vApply s f mk a b d (opAdd f)
  | .vsub _ mk _ a b d => vApply s f mk a b d (opSub f)
  | .vmul _ mk _ a b d => vApply s f mk a b d (opMul f)
  | .vfma _ mk _ a b d => vApply s f mk a b d (opFma f)
  | .vfnma _ mk _ a b d => vApply s f mk a b d (opFnma f)
  | .vmin _ mk _ a b d => vApply s f mk a b d (opMinmax false f)
  | .vmax _ mk _ a b d => vApply s f mk a b d (opMinmax true f)
  | .vabs _ mk _ a b => vApply s f mk a b b (opAbs f)
  | .vneg _ mk _ a b => vApply s f mk a b b (opNeg f)
  | .vdiv _ mk _ a b d => vApply s f mk a b d (opDiv f)
  | .vsqrt _ mk _ a b => vApply s f mk a b b (opFloat FpVal.sqrt f)
  | .vrsq _ mk _ a b => vApply s f mk a b b (opFloat FpVal.rsqrt f)
  | .vrcp _ mk _ a b => vApply s f mk a b b (opFloat FpVal.recip f)
  | .vexp2 _ mk _ a b => vApply s f mk a b b (opFloat FpVal.exp2 f)
  | .vlog2 _ mk _ a b => vApply s f mk a b b (opFloat FpVal.log2 f)
  | .vand _ mk _ a b d => vApply s f mk a b d (opBits (· &&& ·))
  | .vor _ mk _ a b d => vApply s f mk a b d (opBits (· ||| ·))
  | .vxor _ mk _ a b d => vApply s f mk a b d (opBits (· ^^^ ·))
  | .vshl _ mk _ a b d => vApply s f mk a b d (opBits (shiftLeft w))
  | .vshr _ mk _ a b d => vApply s f mk a b d (opBits (shiftRight w))
  | .vsar _ mk _ a b d => vApply s f mk a b d (opBits (shiftArith w))
  | .vadds _ mk _ a b d => vApply s f mk a b d (opAdds f)
  | .vmulh _ mk _ a b d => vApply s f mk a b d (opMulh f)
  | .vceq _ mk _ a b d => vCompare s f mk a b d (fun x y => x == y) FpVal.eq true
  | .vclt _ mk _ a b d => vCompare s f mk a b d (fun x y => decide (x < y)) FpVal.lt false
  | .vcle _ mk _ a b d => vCompare s f mk a b d (fun x y => decide (x ≤ y)) (fun x y => x.lt y || x.eq y) false
  | .vsel _ mk _ a b d =>
    .done { s with cur := u.wv a (vOf 64 ((List.range 64).map fun l =>
      if (u.rm mk).getLsbD l then vElem 64 (u.rv b) l else vElem 64 (u.rv d) l)) } [] 0
  | .vmov _ mk _ a b => vApply s 3 mk a b b fun _ x _ => (x, 0)
  | .vmovs _ mk _ a _ => vApply s f mk a a a fun _ _ _ => (c.scalar.toNat % 2 ^ w, 0)
  | .viota _ mk _ a _ =>
    let r := vMap w (u.rm mk) (u.rv a) fun i => ((c.scalar.toNat + i) % 2 ^ w, 0)
    .done { s with cur := u.wv a r.1 } [] 0
  | .vclamp _ mk _ a b d => vApply s f mk a b d (opClamp f)
  | .vcvt _ mk _ a b src p => vConvert s f src p mk a b
  | .vpack _ _ a b d => vPack s f a b d
  | .vunpk _ _ a b d => vUnpack s f a b d
  | .vperm _ mk _ a b d => vPermute s f mk a b d
  | .vgaths _ _ mk _ a _ d => vGather s c mk a d c.db
  | .vscats _ oc mk _ _ b d => vScatter s c oc mk b d c.da
  | .vred _ mk _ a b op reply => vReduce s f mk a b op reply
  | .vscan _ mk _ a b op => vScan s f mk a b op
  | .vtopk _ mk _ a b k => vTopk s f mk a b (k.toNat + 1)
  | .vcmpr _ mk _ a b => .done { s with cur := u.wv a (compressLanes (u.rm mk) (u.rv b)) } [] 0
  | .vexpd _ mk _ a b => .done { s with cur := u.wv a (expandLanes (u.rm mk) (u.rv b)) } [] 0
  | .vld _ _ mk _ a _ _ => vLoadRow s c mk a c.db
  | .vst _ oc mk _ _ b _ => vStoreRow s c oc mk b c.da
  | .vldx _ _ mk _ a _ _ => vLoadElem s c mk a c.db
  | .mand _ a b d => .done { s with cur := u.wm a (u.rm b &&& u.rm d) } [] 0
  | .mor _ a b d => .done { s with cur := u.wm a (u.rm b ||| u.rm d) } [] 0
  | .mnot _ a b => .done { s with cur := u.wm a (~~~(u.rm b)) } [] 0
  | .mpopc _ b => .done s [BitVec.ofNat 64 (popCount (u.rm b))] 0
  | _ => .done s [] 0

/-! ### Registers and latencies (R175, R179-R195) -/

/-- The registers a V command reads and writes: (vectors read, vectors written, masks read, masks written). -/
structure VRegs where
  vr : List Nat
  vw : List Nat
  mr : List Nat
  mw : List Nat
  deriving DecidableEq, Repr

/-- A run of register numbers. -/
def regRun (r : Reg) (k : Nat) : List Nat := (List.range k).map (r.toNat + ·)

def vecRegs (i : Instr) (f : BitVec 4) : VRegs :=
  let r3 (mk : MReg) (a b c : Reg) : VRegs := { vr := [b.toNat, c.toNat], vw := [a.toNat], mr := [mk.toNat], mw := [] }
  let r2 (mk : MReg) (a b : Reg) : VRegs := { vr := [b.toNat], vw := [a.toNat], mr := [mk.toNat], mw := [] }
  let acc (mk : MReg) (a b c : Reg) : VRegs := { vr := [a.toNat, b.toNat, c.toNat], vw := [a.toNat], mr := [mk.toNat], mw := [] }
  let cmp (mk a : MReg) (b c : Reg) : VRegs := { vr := [b.toNat, c.toNat], vw := [], mr := [mk.toNat], mw := [a.toNat] }
  match i with
  | .vadd _ mk _ a b c | .vsub _ mk _ a b c | .vmul _ mk _ a b c | .vmin _ mk _ a b c | .vmax _ mk _ a b c
  | .vdiv _ mk _ a b c | .vand _ mk _ a b c | .vor _ mk _ a b c | .vxor _ mk _ a b c | .vshl _ mk _ a b c
  | .vshr _ mk _ a b c | .vsar _ mk _ a b c | .vadds _ mk _ a b c | .vmulh _ mk _ a b c | .vsel _ mk _ a b c => r3 mk a b c
  | .vfma _ mk _ a b c | .vfnma _ mk _ a b c | .vclamp _ mk _ a b c => acc mk a b c
  | .vabs _ mk _ a b | .vneg _ mk _ a b | .vsqrt _ mk _ a b | .vrsq _ mk _ a b | .vrcp _ mk _ a b | .vexp2 _ mk _ a b
  | .vlog2 _ mk _ a b | .vmov _ mk _ a b | .vcmpr _ mk _ a b | .vexpd _ mk _ a b => r2 mk a b
  | .vcvt _ mk _ a b _ _ | .vred _ mk _ a b _ _ | .vscan _ mk _ a b _ => r2 mk a b
  | .vceq _ mk _ a b c | .vclt _ mk _ a b c | .vcle _ mk _ a b c => cmp mk a b c
  | .vmovs _ mk _ a _ | .viota _ mk _ a _ => { vr := [], vw := [a.toNat], mr := [mk.toNat], mw := [] }
  | .vpack _ _ a b c => { vr := regRun b (packRun f), vw := [a.toNat, c.toNat], mr := [], mw := [] }
  | .vunpk _ _ a b c => { vr := [b.toNat, c.toNat], vw := regRun a (packRun f), mr := [], mw := [] }
  | .vperm _ mk _ a b c =>
    { vr := b.toNat :: regRun c (if vCount (elemBits f) > 256 then 2 else 1), vw := [a.toNat], mr := [mk.toNat], mw := [] }
  | .vgaths _ _ mk _ a _ c => { vr := regRun c (indexRun f), vw := [a.toNat], mr := [mk.toNat], mw := [] }
  | .vscats _ _ mk _ _ b c => { vr := b.toNat :: regRun c (indexRun f), vw := [], mr := [mk.toNat], mw := [] }
  | .vtopk _ mk _ a b _ => { vr := regRun b 2, vw := regRun a 2, mr := [mk.toNat], mw := [] }
  | .vld _ _ mk _ a _ _ | .vldx _ _ mk _ a _ _ => { vr := [], vw := [a.toNat], mr := [mk.toNat], mw := [] }
  | .vst _ _ mk _ _ b _ => { vr := [b.toNat], vw := [], mr := [mk.toNat], mw := [] }
  | .mand _ a b c | .mor _ a b c => { vr := [], vw := [], mr := [b.toNat, c.toNat], mw := [a.toNat] }
  | .mnot _ a b => { vr := [], vw := [], mr := [b.toNat], mw := [a.toNat] }
  | .mpopc _ b => { vr := [], vw := [], mr := [b.toNat], mw := [] }
  | _ => { vr := [], vw := [], mr := [], mw := [] }

/-- The latency of a V command in cycles, by the tables of chapter 08. -/
def vecLatency (i : Instr) (f : BitVec 4) (d : Desc) : Nat :=
  let by3 (x y z : Nat) : Nat := if setI f then x else if f == 5 then z else y
  match i with
  | .vadd .. | .vsub .. | .vmin .. | .vmax .. | .vclamp .. | .vceq .. | .vclt .. | .vcle .. => by3 2 4 6
  | .vmul .. | .vfma .. | .vfnma .. => by3 4 4 6
  | .vdiv .. => by3 14 14 20
  | .vsqrt .. => by3 18 18 24
  | .vrsq .. | .vrcp .. | .vexp2 .. | .vlog2 .. => 10
  | .vmulh .. | .vcvt .. | .vunpk .. => 4
  | .vpack .. => 8
  | .vperm .. | .vcmpr .. | .vexpd .. => 6
  | .vgaths .. | .vscats .. => 16 + ceilDiv (vCount (elemBits f)) 16
  | .vred .. => 12
  | .vscan .. => 16
  | .vtopk .. => 24
  | .vld .. | .vst .. | .vldx .. => if dSpace d = spScr then 20 else 8
  | _ => 2

end Sys2Proof.Machine
end

