-- ==== Sys2Proof/Machine/StoreEngine.lean ====
section
/-! DEFINITION. The store engine (12 R234-R247) and the fabric commands of its queue (14 R271-R279): checks at the push,
and what a started command does. -/
namespace Sys2Proof.Machine
open Sys2Proof

/-! ### Communicators (14 R270, R271) -/

/-- LINKFAIL's TVAL where a communicator is involved (R270). -/
def commTval (port k : Nat) : Word := BitVec.ofNat 64 (port + 2 ^ 16 + k * 2 ^ 8)

/-- The flows between a device and the members of a communicator. -/
def Comm.flows (c : Comm) (d : Dev) : List (Dev × Dev) := c.devs.flatMap fun x => [(d, x), (x, d)]

/-- The first of some flows that has stopped, by its port (R270). -/
def State.flowsFail (s : State) (fs : List (Dev × Dev)) : Option Nat := fs.findSome? fun e => s.flowFails e.1 e.2

/-- The checks on a communicator at a command's start (R274, R278); `extra` is the condition that adds PROTV, and `own` the flows that the command
itself uses.  LINKFAIL names the port of a flow of the communicator that is stopped, and port 0 where all carry traffic again (DESIGN CHOICE,
log 67). -/
def commTrap (s : State) (q : BitVec 3) (d : Device) (k : Nat) (gen : BitVec 32) (aux : Word) (extra : Bool) (own : List (Dev × Dev)) : Option Trap :=
  let c := s.comm d k
  if c.state == 0 || c.state == 3 || extra then some (cmdTrap q .protv aux)
  else if c.state == 2 || c.gen != gen then some (cmdTrap q .linkfail (commTval ((s.flowsFail (c.flows d.num)).getD 0) k))
  else (s.flowsFail own).map fun p => cmdTrap q .linkfail (commTval p k)

/-! ### Checks at the push -/

/-- A time-slot entry that is valid under R244: slot and width. -/
def slotOf (e : Nat) : Option (Nat × Nat) :=
  let s := e % 2 ^ 8
  let w := e / 2 ^ 16 % 2 ^ 9
  if e / 2 ^ 31 = 1 ∧ s < w ∧ w ≤ 256 then some (s, w) else none
/-- The time-slot entry of stream `t` of a plate (19 R345). -/
def streamSlot (plate : BitVec 16384) (t : Nat) : Option (Nat × Nat) := slotOf (plateField plate (0x100 + 4 * t) 4)

/-- An operand of a fabric command: no flag, no microword, aux as given, at most 8 MiB where `bounded`. -/
def fabricOk (d : Desc) (spaces : List Nat) (bounded : Bool) : Bool :=
  spaces.contains (dSpace d) && dFlags d == 0 && dMicro d == 0 && (dFmt d != 4 || dCols d % 2 == 0) && baseOk d false &&
  (!bounded || decide (dRows d * rowBytes d ≤ 2 ^ 23))

/-- Where the rows of a descriptor start in its space. -/
def spaceBase (d : Desc) : Int := if dSpace d = spVrf then 512 * ((dBase d).toNat % 64 : Nat) else (dBase d).toNat
/-- A row of a descriptor reaches a byte from `lo` up to `hi`. -/
def rowMeets (d : Desc) (lo hi : Int) : Bool :=
  let t := dStride d
  let n : Int := dRows d
  let a := lo - rowBytes d - spaceBase d  -- the row's offset lies strictly between `a` and `b`
  let b := hi - spaceBase d
  if t = 0 then decide (0 < n) && decide (a < 0) && decide (0 < b)
  else
    let k := if 0 < t then max 0 (a / t + 1) else max 0 ((-b) / (-t) + 1)
    decide (k < n) && decide (a < k * t) && decide (k * t < b)
/-- Two operands of one space share a byte. -/
def spansMeet (a b : Desc) : Bool :=
  dSpace a == dSpace b && (List.range (dRows a)).any fun r =>
    let lo := spaceBase a + r * dStride a
    rowMeets b lo (lo + rowBytes a)

/-- The push-time checks of a class A word: `a` and `b` as snapshotted with the microword resolved, `x` the index list
of CPSCT or the result tile of SCREC, `key` the scalar of CPSEND and CPPOST. -/
def copyOutCheck (i : Instr) (a b x : Desc) (key : Word) (u : Unit) (d : Device) : Bool :=
  let m := dMicro a
  let src := [spScr, spAcc, spVrf]
  let packs := packable (dFmt a) && (dAux a).toNat % 128 == 0 && dAux a != 0
  match i with
  | .cpout .. =>
    denseOk a [spMem, spScr, spRing] (mwCks m) && denseOk b (spRing :: src) false && dAux a == 0 && dAux b == 0 &&
    stagesOk m (stCvt ||| stScl ||| stTrn ||| stCks) 0 && shapeAfter m a (dFmt b) (dRows b) (dCols b)
  | .cpsct .. =>
    denseOk a [spMem, spScr] false && denseOk b src false && decide ((dAux a).toNat < 32) && dAux b == 0 &&
    indexListOk x && (dEmpty a || dRows b == dCols x) && stagesOk m (stCvt ||| stScl) 0 && shapeAfter m a (dFmt b) (dRows a) (dCols b)
  | .cppack .. =>
    (dSpace a == spMem || dSpace a == spScr) && dFlags a == flagPacked && packs &&
    decide ((dAux a).toNat ≤ (dStride a).natAbs) && denseOk b src false && dAux b == 0 &&
    stagesOk m (stCvt ||| stScl ||| stPack) stPack && shapeAfter m a (dFmt b) (dRows b) (dCols b)
  | .cpred _ _ _ op ord _ _ =>
    let f := dFmt a
    denseOk a [spMem] false && denseOk b src false && dAux b == 0 &&
    stagesOk m (stCvt ||| stScl) 0 && shapeAfter m a (dFmt b) (dRows b) (dCols b) &&
    (setI f || (setF f && decide (op.toNat ≤ 2))) &&
    (if ord then decide ((dAux a).toNat < 16) && (streamSlot u.plate (dAux a).toNat).isSome
     else dAux a == 0 && !(setF f && ((op == 0 && u.framed) || decide (1 < u.live))))
  | .screc .. =>
    dSpace a == spStep && baseOk a false && dFlags a == 0 && m == 0 && dAux a == 0 && dFmt a == dFmt b && denseOk b src false &&
    decide ((dAux b).toNat < 32) && denseOk x src false && dMicro x == 0 && dAux x == 0
  | .cpcnv .. =>
    (dSpace a == spMem || dSpace a == spScr) && (dFlags a == flagCsr || dFlags a == flagCsc) && packs &&
    fld (dBase a) 0 7 == 0 && denseOk b (spMem :: src) false && dAux b == 0 &&
    stagesOk m (stCvt ||| stScl) 0 && shapeAfter m a (dFmt b) (dRows b) (dCols b)
  | .cpcoll _ _ kind arr _ _ =>
    let f := dFmt a
    let c := d.comm ((dAux b).toNat % 64)
    fabricOk a [spMem, spScr, spVrf] false && fabricOk b (spMem :: src) true && dAux a == 0 &&
    (dAux b &&& ~~~(if kind == 3 then 0x3F3F else 0x3F : BitVec 32)) == 0 &&
    f == dFmt b && (decide (3 ≤ kind.toNat) || f == 2 || f == 3 || f == 5 || f == 6) &&
    (dEmpty a || (dCols a == dCols b && dRows a == (if kind == 4 then c.size * dRows b else dRows b))) && !spansMeet a b && !(arr && u.framed)
  | .cpsend .. => fabricOk b (spMem :: src) true && dAux b == 0 && fld key 6 2 == 0 && fld key 14 18 == 0
  | .cppost .. =>
    fabricOk a [spMem, spScr] false && dAux a == 0 && fld key 6 2 == 0 && fld key 15 17 == 0 &&
    (!key.getLsbD 14 || fld key 8 6 == 0)
  | _ => true

/-- The number of the communicator a command names. -/
def commOf (i : Instr) (b : Desc) (key : Word) : Nat :=
  match i with
  | .cpcoll .. => (dAux b).toNat % 64
  | _ => fld key 0 6

/-! ### CPSCT (R239) -/

def scatterRows (c : Command) (cls : BitVec 4) (skip : Bool) (list src dst : Loc) : List Nat → State → Flags → Ran
  | [], s, f => .done s [] f
  | i :: rest, s, f =>
    match indexEntry s c c.extra list i with
    | .error t => .stopped s t (unitProgress i) f
    | .ok k =>
      if k < 0 ∨ (dRows c.da : Int) ≤ k then
        if skip then scatterRows c cls skip list src dst rest s f
        else .stopped s (entryTrap c.queue c.extra list i) (unitProgress i) f
      else
        match getRow c c.db src (dMicro c.da) (dScale c.da) s i with
        | .error t => .stopped s t (unitProgress i) f
        | .ok (x, g) =>
          match s.writeRow c cls c.da dst k.toNat x with
          | .error (t, s) => .stopped s t (unitProgress i) f
          | .ok s' =>
            match nextUnit s' rest with
            | some k => .partly s' (unitProgress k) (f ||| g)
            | none => scatterRows c cls skip list src dst rest s' (f ||| g)

def runScatterRows (s : State) (c : Command) (cls : BitVec 4) (skip : Bool) : Ran :=
  match s.place s.cur c.queue false c.extra with
  | .error t => .stopped s t 0 c.flags
  | .ok list =>
    match copyPlaces s c with
    | .error t => .stopped s t 0 c.flags
    | .ok (src, dst) => scatterRows c cls skip list src dst ((List.range (dCols c.extra)).drop c.unit) s c.flags

/-! ### CPPACK (R112, R240) -/

/-- The bytes of a mask, from the positions of the stored elements. -/
def maskOf (stored : List Bool) : List Byte :=
  leBytes (maskBytes stored.length) (stored.foldr (fun b acc => (if b then 1 else 0) + 2 * acc) 0)

/-- A packed record of a row (R112). -/
def packRecord (f : BitVec 4) (xs : List Nat) : List Byte :=
  let w := elemBits f
  let kept := xs.filter (· != 0)
  let len := recordLength xs.length kept.length (w / 8)
  let body := leBytes 4 len ++ leBytes 4 kept.length ++ leBytes 4 xs.length ++ [BitVec.ofNat 8 f.toNat, 0, 0, 0] ++
    maskOf (xs.map (· != 0)) ++ elemsToBytes w kept
  body ++ List.replicate (len - body.length) 0

def packLoop (c : Command) (cls : BitVec 4) (src dst : Loc) : List Nat → State → Flags → Ran
  | [], s, f => .done s [] f
  | r :: rest, s, f =>
    match getRow c c.db src (dMicro c.da) (dScale c.da) s r with
    | .error t => .stopped s t (unitProgress r) f
    | .ok (x, g) =>
      let rec' := packRecord (dFmt c.da) x
      let place := rowLoc c.da dst r
      if (dAux c.da).toNat < rec'.length then
        .stopped s (cmdTrap c.queue .capovf (BitVec.ofInt 64 place.base)) (unitProgress r + rec'.length) f
      else
        match s.writeAt c cls .copyWrite place rec' with
        | .error (t, s) => .stopped s t (unitProgress r) f
        | .ok s' =>
          match nextUnit s' rest with
          | some k => .partly s' (unitProgress k) (f ||| g)
          | none => packLoop c cls src dst rest s' (f ||| g)

def runPack (s : State) (c : Command) (cls : BitVec 4) : Ran :=
  match copyPlaces s c with
  | .error t => .stopped s t 0 c.flags
  | .ok (src, dst) => packLoop c cls src dst ((List.range (dRows c.db)).drop c.unit) s c.flags

/-! ### CPCNV (R241, R242) -/

/-- A compressed record: its values, inner indices and pointers, in outer order. -/
structure Compressed where
  pointers : List Nat
  indices  : List Nat
  values   : List Nat
  deriving DecidableEq, Repr

def compress (outer : List (List Nat)) : Compressed :=
  let kept := outer.map fun xs => (xs.zipIdx).filter (·.1 != 0)
  { pointers := (List.range (outer.length + 1)).map fun o => ((kept.take o).map (·.length)).sum,
    indices := kept.flatMap (·.map (·.2)), values := kept.flatMap (·.map (·.1)) }

/-- The writes of a record, as offsets and bytes, in the order of R242, and its length. (DEDUCED, log 46) -/
def cnvWrites (f : BitVec 4) (csc : Bool) (inner : Nat) (k : Compressed) : List (Nat × List Byte) × Nat :=
  let e := elemBits f / 8
  let nnz := k.values.length
  let p := 32 + 4 * k.pointers.length
  let v := roundUp (p + 4 * nnz) 8
  let len := roundUp (v + e * nnz) 128
  let header := leBytes 4 nnz ++ leBytes 4 (k.pointers.length - 1) ++ leBytes 4 inner ++
    [BitVec.ofNat 8 (f.toNat + if csc then 16 else 0)] ++ List.replicate 15 0
  ([(v, elemsToBytes (8 * e) k.values ++ List.replicate (len - (v + e * nnz)) 0), (p, k.indices.flatMap (leBytes 4)),
    (4, header ++ k.pointers.flatMap (leBytes 4)), (0, leBytes 4 len)], len)

/-- Writes parts at their places in order, each once those before it have performed at their homes (R242); a part that is not written answers what
to record, its number being the third entry. -/
def writeParts (c : Command) (cls : BitVec 4) : List (Loc × List Byte × Nat) → State → Except (State × Trap × Nat) State
  | [], s => .ok s
  | (l, data, k) :: rest, s =>
    if !s.ownClear c then .error (s, notYet c.queue none, unitProgress k)
    else match s.writeAt c cls .copyWrite l data with
    | .error (t, s) => .error (s, t, t.restart k)
    | .ok s' => writeParts c cls rest s'

def runConvert (s : State) (c : Command) (cls : BitVec 4) : Ran :=
  match copyPlaces s c with
  | .error t => .stopped s t 0 0
  | .ok (src, dst) =>
    match collect ((List.range (dRows c.db)).map (getRow c c.db src (dMicro c.da) (dScale c.da) s)) with
    | .error t => .stopped s t 0 0
    | .ok xs =>
      let f := xs.foldl (fun g x => g ||| x.2) 0
      let csc := hasFlag c.da flagCsc
      let rows := xs.map (·.1)
      let outer := if csc then transposeRows 0 (dCols c.da) rows else rows
      let w := cnvWrites (dFmt c.da) csc (if csc then dRows c.da else dCols c.da) (compress outer)
      match writeParts c cls ([(dst, leBytes 4 0, 0)].drop c.unit) s with
      | .error (s1, t, k) => .stopped s1 t k 0
      | .ok s1 =>
        if !s1.ownClear c then .stopped s1 (notYet c.queue none) (unitProgress (max 1 c.unit)) 0
        else if (dAux c.da).toNat < w.2 then .stopped s1 (cmdTrap c.queue .capovf (dBase c.da)) w.2 0
        else
          match writeParts c cls ((w.1.zipIdx.map fun x => (dst.shift x.1.1, x.1.2, x.2 + 1)).drop (c.unit - 1)) s1 with
          | .error (s2, t, k) => .stopped s2 t k 0
          | .ok s2 => .done s2 [] f

/-! ### CPRED (R243, R244) -/

/-- The address of an element's first byte, and its pieces checked for a reduction; UNCORR names the lowest poisoned byte (03 R59). -/
def reduceTarget (s : State) (c : Command) (dst : Loc) (r j : Nat) : Except Trap (Int × List (Nat × Nat)) :=
  let e := elemBits (dFmt c.da) / 8
  let l := (rowLoc c.da dst r).shift (e * j : Nat)
  match checkPieces s c.queue .copyWrite l.kind (pieces l.base e) with
  | .error t => .error t
  | .ok ps =>
    match (ps.zip (pieces l.base e)).findSome? fun p => (s.poisonedIn? p.1.1 p.1.2).map fun k => p.2.1 + (k : Int) with
    | some va => .error (cmdTrap c.queue .uncorr (BitVec.ofInt 64 va))
    | none => .ok (l.base, ps)

/-- Whether pieces lie one after the other. -/
def contiguous : List (Nat × Nat) → Bool
  | (x, n) :: (y, k) :: rest => x + n == y && contiguous ((y, k) :: rest)
  | _ => true

/-- The access that updates one element: at one place, or at two that lie apart, or in two lines of an ordered reduction, of which each has its slot
(R244; DESIGN CHOICE, log 18).  `last` tells of a line whether it is the command's last update to it. -/
def updateAccess (s : State) (c : Command) (cls : BitVec 4) (op : BitVec 3) (f : BitVec 4) (ord : Option OrdTag) (last : Nat → Bool) (va : Int)
    (ps : List (Nat × Nat)) (x : Nat) : Access :=
  let a := (ps.headD (0, 0)).1
  let tag := ord.map fun o => { o with last := last (a / 256) }
  let acc : Access := { cmdAccess c cls s.cur.gid a (leBytes (elemBits f / 8) x) with
    reduce := some (op, f), ord := tag, sect := s.sectOf s.cur.gid .mem va }
  match ps with
  | (a, n) :: (b, _) :: _ =>
    if contiguous ps && (ord.isNone || a / 256 == b / 256) then acc else { acc with want := .apart n b (last (b / 256)) }
  | _ => acc

/-- One update of a command, with its signature record. -/
def State.putUpdate (s : State) (c : Command) (cls : BitVec 4) (op : BitVec 3) (va : Int) (acc : Access) : Except Trap State :=
  if !s.bufferFits [acc] then .error (s.fullTrap c.queue)
  else .ok ({ s with cur := tracePieces c .mem (sigPieces (BitVec.ofInt 64 va) cls 2 (op.setWidth 8) acc.data) s.cur }.put acc)

/-- The updates of one row from element `j` on. -/
def updateRow (c : Command) (cls : BitVec 4) (op : BitVec 3) (dst : Loc) (r : Nat) : List (Nat × Nat) → State → Except (State × Trap × Nat) State
  | [], s => .ok s
  | (x, j) :: rest, s =>
    match reduceTarget s c dst r j with
    | .error t => .error (s, t, j)
    | .ok (va, ps) =>
      match s.putUpdate c cls op va (updateAccess s c cls op (dFmt c.da) none (fun _ => false) va ps x) with
      | .error t => .error (s, t, j)
      | .ok s' => updateRow c cls op dst r rest s'

/-- The element a stopped CPRED goes on from within its unit. -/
def Command.element (c : Command) : Nat := match c.resume with | some p => p % 2 ^ 32 | none => 0

def updateRows (c : Command) (cls : BitVec 4) (op : BitVec 3) (src dst : Loc) : List Nat → State → Flags → Ran
  | [], s, f => .done s [] f
  | r :: rest, s, f =>
    let start := if r == c.unit then c.element else 0
    match getRow c c.db src (dMicro c.da) (dScale c.da) s r with
    | .error t => .stopped s t (unitProgress r + start) f
    | .ok (x, g) =>
      match updateRow c cls op dst r (x.zipIdx.drop start) s with
      | .error (s', t, j) => .stopped s' t (unitProgress r + j) f
      | .ok s' =>
        match nextUnit s' rest with
        | some k => .partly s' (unitProgress k) (f ||| g)
        | none => updateRows c cls op src dst rest s' (f ||| g)

/-- An update of an ordered contribution: where it goes and its operand. -/
structure OrdUpdate where
  va     : Int
  pieces : List (Nat × Nat)
  x      : Nat
  deriving DecidableEq, Repr

/-- The lines that an update reaches. -/
def OrdUpdate.lines (o : OrdUpdate) : List Nat := (o.pieces.map fun p => p.1 / 256).eraseDups

/-- An update as a started command keeps it, once it may no longer stop (R247): its virtual address, its place with the length of its first part
and the place of its second, and its operand. -/
def OrdUpdate.keep (o : OrdUpdate) : Nat × Nat × Nat :=
  ((BitVec.ofInt 64 o.va).toNat, (match o.pieces with | (a, n) :: (b, _) :: _ => a + 2 ^ 60 * n + 2 ^ 64 * b | (a, n) :: _ => a + 2 ^ 60 * n | [] => 0), o.x)
def OrdUpdate.kept (width : Nat) (e : Nat × Nat × Nat) : OrdUpdate :=
  let n := e.2.1 / 2 ^ 60 % 16
  { va := e.1, x := e.2.2, pieces := (e.2.1 % 2 ^ 60, n) :: if n < width then [(e.2.1 / 2 ^ 64, width - n)] else [] }

/-- What stops a command that has sent a contribution: a stopped flow, or poison (R247). -/
def State.updateFails (s : State) (c : Command) (o : OrdUpdate) : Option Trap :=
  match o.pieces.findSome? fun p => s.flowFails (gidDev s.cur.gid) (addrDev p.1) with
  | some port => some (cmdTrap c.queue .linkfail (BitVec.ofNat 64 port))
  | none => if o.pieces.any fun p => (s.poisonedIn? p.1 p.2).isSome then some (cmdTrap c.queue .uncorr (BitVec.ofInt 64 o.va)) else none

/-- Sends the updates of an ordered CPRED from number `k` on; the last one to each line closes its contribution.  One that its home has no
room to hold, and what follows it, is sent later (12 R244). -/
def sendOrdered (c : Command) (cls : BitVec 4) (op : BitVec 3) (tag : OrdTag) : List (OrdUpdate × Nat) → State → Except (State × Trap × Nat) State
  | [], s => .ok s
  | (o, k) :: rest, s =>
    let x := updateAccess s c cls op (dFmt c.da) (some tag) (fun l => rest.all fun y => !y.1.lines.contains l) o.va o.pieces o.x
    match s.updateFails c o with
    | some t => .error (s, t, k)
    | none =>
      if s.prompt && !s.cur.buffersFor c && !s.ordRoom x then .error (s, notYet c.queue none, k)
      else match s.putUpdate c cls op o.va x with
        | .error t => .error (s, t, k)
        | .ok s' => sendOrdered c cls op tag rest s'

/-- A command's ordered contributions are all admitted. -/
def State.contributed (s : State) (c : Command) : Bool :=
  s.devs.all fun d => d.held.all fun x => !(x.gid == s.cur.gid && x.command == some (c.queue, c.num))

/-- The updates of an ordered CPRED and their flags: every check is made before the first contribution (R247). -/
def orderedUpdates (s : State) (c : Command) (src dst : Loc) : Except Trap (List OrdUpdate × Flags) :=
  match collect ((List.range (dRows c.db)).map (getRow c c.db src (dMicro c.da) (dScale c.da) s)) with
  | .error t => .error t
  | .ok xs =>
    (collect (xs.zipIdx.flatMap fun row => row.1.1.zipIdx.map fun e =>
        (reduceTarget s c dst row.2 e.2).map fun t => ({ va := t.1, pieces := t.2, x := e.1 } : OrdUpdate))).map fun us =>
      (us, xs.foldl (fun g x => g ||| x.2) 0)

/-- CPRED with `.ord`: once a contribution has been sent, it goes on with the updates that it has kept (R247). -/
def runOrdered (s : State) (c : Command) (cls : BitVec 4) (op : BitVec 3) : Ran :=
  let send (s : State) (us : List OrdUpdate) (f : Flags) : Ran :=
    match slotOf c.stream.toNat with
    | none => .done s [] f
    | some (slot, width) =>
      let tag : OrdTag := { task := s.cur.task.getD 0, stream := (dAux c.da).toNat, slot := slot, width := width, last := false }
      match sendOrdered c cls op tag (us.zipIdx.drop c.unit) s with
      | .error (s', t, k) =>
        if t.cause = .bufferFull || t.cause = .notYet then .stopped s' t (unitProgress k) f
        else if k = 0 then .stopped s t 0 0
        else .abandoned s' t
      | .ok s' => if s'.contributed c then .done s' [] f else .waiting s' [] f
  if !c.deferred.isEmpty then send s (c.deferred.map (OrdUpdate.kept (elemBits (dFmt c.da) / 8))) 0
  else match copyPlaces s c with
  | .error t => .stopped s t 0 0
  | .ok (src, dst) =>
    match orderedUpdates s c src dst with
    | .error t => .stopped s t 0 0
    | .ok (us, f) =>
      send { s with cur := s.cur.onInflight c.queue c.num fun y => { y with command := { y.command with deferred := us.map OrdUpdate.keep } } } us f

def runReduce (s : State) (c : Command) (cls : BitVec 4) (op : BitVec 3) (ord : Bool) : Ran :=
  if ord then runOrdered s c cls op
  else match copyPlaces s c with
  | .error t => .stopped s t 0 c.flags
  | .ok (src, dst) => updateRows c cls op src dst ((List.range (dRows c.db)).drop c.unit) s c.flags

/-! ### SCREC (R245, R246, R328) -/

/-- The entry SCREC chooses and its reply code. -/
def chooseStep (s : State) (named : Nat) (t : Word) : Option (Nat × Nat) :=
  let u := s.cur
  let sec := gidSection u.gid
  let e (x : Nat) : StepEntry := s.stepFor (stepIndex sec x)
  let ours (x : Nat) : Bool := (e x).pins.all (· == u.gid)
  if named != 2 ^ 32 - 1 then
    if s.stepExists u named && ours named then some (named, 0) else none
  else
    let all := (List.range 128).filter fun x => s.stepExists u x && ours x
    match all.find? fun x => (e x).valid && (e x).tag.extractLsb' 16 48 == t.extractLsb' 16 48 with
    | some x => some (x, 1)
    | none =>
      match all.find? fun x => !(e x).valid with
      | some x => some (x, 1)
      | none =>
        let free := all.filter fun x => (e x).pins.isEmpty
        let least := free.foldl (fun (m : Option Nat) x => match m with
          | none => some x
          | some y => if (e x).recency < (e y).recency then some x else some y) none
        least.map fun x => (x, 2)

/-- The result of an eviction's choice is counted when it is made, once for the command (R245, 17 R329). -/
def State.countEvict (s : State) (c : Command) (code : Nat) : State :=
  if code = 2 ∧ !c.counted then
    { s with cur := { s.cur with stepevict := s.cur.stepevict + 1 }.onInflight c.queue c.num fun y => { y with command := { y.command with counted := true } } }
  else s

/-- SCREC (12 R245, R246): a fault leaves the entry as it was; the tiles and the tag change in one effect (05 R119), at the entry or in the
release buffer. -/
def runRecord (s : State) (c : Command) (cls : BitVec 4) : Ran :=
  let u := s.cur
  let q := c.queue
  let named := fld (dBase c.da) 0 32
  let bad := cmdTrap q .protv (BitVec.ofNat 64 named)
  let inBytes := tileBytes (dFmt c.db) (dRows c.db) (dCols c.db)
  let outBytes := tileBytes (dFmt c.extra) (dRows c.extra) (dCols c.extra)
  match chooseStep s named c.scalar with
  | none => .stopped s bad 0 0
  | some (x, code) =>
    let stop (t : Trap) : Ran := .stopped (if t.cause = .notYet || t.cause = .bufferFull then s else s.countEvict c code) t 0 0
    let k := stepIndex (gidSection u.gid) x
    if 65536 < inBytes ∨ 65536 < outBytes then stop bad
    else
      match s.place u q false c.db, s.place u q false c.extra with
      | .error t, _ => stop t
      | _, .error t => stop t
      | .ok li, .ok lo =>
        match collect ((List.range (dRows c.db)).map (s.readRow c .copyRead c.db li)),
              collect ((List.range (dRows c.extra)).map (s.readRow c .copyRead c.extra lo)) with
        | .error t, _ => stop t
        | _, .error t => stop t
        | .ok xs, .ok ys =>
          let input := elemsToBytes (elemBits (dFmt c.db)) (xs.flatMap id)
          let result := elemsToBytes (elemBits (dFmt c.extra)) (ys.flatMap id)
          let la := stepLoc x 0
          let lb := stepLoc x 65536
          match checkPieces s q .copyWrite la.kind (pieces la.base input.length), checkPieces s q .copyWrite lb.kind (pieces lb.base result.length) with
          | .error t, _ => stop t
          | _, .error t => stop t
          | .ok _, .ok _ =>
            let e : StepEntry := {
              valid := true, tag := c.scalar, inFmt := dFmt c.db, inRows := dRows c.db, inCols := dCols c.db,
              outFmt := dFmt c.extra, outRows := dRows c.extra, outCols := dCols c.extra, pins := [],
              recency := tableGet 0 (s.dev (gidDev u.gid)).stepTick (gidSection u.gid) + 1 }
            let acc : Access := { cmdAccess c cls u.gid (sramAddr (gidDev u.gid) (gidSection u.gid) (stepOffset x)) input with want := .record k e result }
            let old := s.stepFor k
            let buffered := u.buffersFor c
            if buffered && !s.bufferFits [acc] then stop (s.fullTrap q)
            else if !buffered && !s.classLanded u cls then
              stop (notYet q none)
            else
              let signed := tracePieces c lb.kind (sigPieces (BitVec.ofInt 64 lb.base) cls 0 0 result)
                (tracePieces c la.kind (sigPieces (BitVec.ofInt 64 la.base) cls 0 0 input) u)
              let t := { s with cur := signed }.countEvict c code
              .done (if buffered then t.put acc else t.admitAt acc [])
                [BitVec.ofNat 64 (code * 2 ^ 62 + (if old.valid then fld old.tag 0 16 else 0) * 2 ^ 32 + x)] 0

/-! ### Parts of sends and collectives on their flows (R264, R265, R279) -/

/-- A send meets a post by communicator, tag and rank (R278, R279; DEDUCED, log 47). -/
def Post.matches (p x : Post) : Bool :=
  p.state == .pending && p.comm == x.comm && p.tag == x.tag && (p.any || p.rank == x.rank)

/-- A post's own entry, and a send's. -/
def Post.of (p : Post) (g : Gid) (c : Command) : Bool := p.gid == g && p.command.num == c.num

/-- A send that finds no post waits at its destination, which holds 256 of them; one more stays on its flow (R279). -/
def State.messageStuck (s : State) (x : Access) : Bool :=
  let d := s.dev (addrDev x.addr)
  match d.sends.find? fun p => p.state == .travelling && p.gid == x.gid && some (p.command.queue, p.command.num) == x.command with
  | none => false
  | some p => decide (256 ≤ (d.sends.filter fun y => y.state == .pending).length) && d.posts.all fun y => !y.matches p

/-- The part of a send or of a collective that a command moves to a device, as a run of `n` bytes. -/
def partAccess (g : Gid) (cls : BitVec 4) (command : BitVec 3 × BitVec 32) (dst : Dev) (n : Nat) : Access :=
  { gid := g, want := .message n, cls := cls, addr := dst.toNat * 2 ^ 42, data := [], command := some command, carrier := none, release := [],
    reduce := none, ord := none, orphan := false }

/-! ### CPCOLL (R274-R277) -/

def collIdentity (f : BitVec 4) (op : Nat) : Nat :=
  match floatOf f, op with
  | some s, 0 => s.signBit true
  | some s, 1 => s.infBits false
  | some s, _ => s.infBits true
  | none, 0 => 0
  | none, 1 => 2 ^ (elemBits f - 1) - 1
  | none, _ => 2 ^ (elemBits f - 1)

def collLevel (f : BitVec 4) (op : Nat) : List Nat → List Nat × Flags
  | a :: b :: rest =>
    let r := reduceElem f op a b
    let t := collLevel f op rest
    (r.1 :: t.1, r.2 ||| t.2)
  | xs => (xs, 0)
def collTree (f : BitVec 4) (op : Nat) : Nat → List Nat → Nat × Flags
  | 0, xs => (xs.headD 0, 0)
  | k + 1, xs =>
    let l := collLevel f op xs
    let t := collTree f op k l.1
    (t.1, l.2 ||| t.2)

/-- The levels of the tree: the exponent of the smallest power of two not below `n`. -/
def treeDepth (n : Nat) : Nat := if n ≤ 1 then 0 else (n - 1).log2 + 1

/-- The result of a tree: of one member's value alone, a NaN is the default NaN too (R275). -/
def collCanonical (f : BitVec 4) (x : Nat) : Nat :=
  match floatOf f with | some sp => if (sp.val x).isNan then sp.defaultNan else x | none => x

/-- Element by element, the members' values in rank order padded with the identity. -/
def collReduce (f : BitVec 4) (op : Nat) (members : List (List Nat)) : List Nat × Flags :=
  let k := treeDepth members.length
  let count := (members.headD []).length
  let rs := (List.range count).map fun i =>
    collTree f op k ((members.map (·.getD i 0)) ++ List.replicate (2 ^ k - members.length) (collIdentity f op))
  (rs.map fun r => collCanonical f r.1, rs.foldl (fun g r => g ||| r.2) 0)

/-- The members' values folded in arrival order. (DEDUCED, log 42) -/
def collArrive (f : BitVec 4) (op : Nat) (members : List (List Nat)) : List Nat × Flags :=
  let count := (members.headD []).length
  let rs := (List.range count).map fun i =>
    members.foldl (fun (t : Nat × Flags) m =>
      let r := reduceElem f op t.1 (m.getD i 0)
      (r.1, t.2 ||| r.2)) (collIdentity f op, 0)
  (rs.map (·.1), rs.foldl (fun g r => g ||| r.2) 0)

/-- What a collective leaves in A, from its contributions in arrival order at rank 0. -/
def collResult (c : Comm) (cs : List Contribution) (x : Contribution) : List Nat × Flags :=
  let ranked := (List.range c.size).map fun r => match cs.find? fun y => y.rank == r with | some y => y.data | none => []
  if x.kind == 3 then (ranked.getD x.root [], 0)
  else if x.kind == 4 then (ranked.flatMap id, 0)
  else if x.arr then collArrive x.fmt x.kind.toNat (cs.map (·.data))
  else collReduce x.fmt x.kind.toNat ranked

/-- The device that holds the contributions of a communicator: that of rank 0. -/
def Comm.lead (c : Comm) : Dev := c.devs.headD 0

/-- The contributions of the collective a member is in. -/
def State.collective (s : State) (c : Comm) (k : Nat) (gen : BitVec 32) (m : Nat) : List Contribution :=
  (s.dev c.lead).contribs.filter fun x => x.arrived && x.comm == k && x.gen == gen && x.number == m

/-- The bytes that a member of a collective receives. -/
def Contribution.resultBytes (x : Contribution) (size : Nat) : Nat :=
  ceilDiv (x.rows * x.cols * elemBits x.fmt) 8 * if x.kind = 4 then size else 1

/-- A result has reached the member `x` (R264). -/
def State.returnResult (s : State) (lead : Dev) (x : Contribution) : State :=
  s.onDev lead fun d => { d with contribs := d.contribs.map fun y => if y == x then { y with returned := true } else y }

/-- Once the last contribution to a collective has reached the device of rank 0, its result leaves for every member (R264, R277); it is that of no
queue of the member of rank 0, whose id it has. -/
def State.returnResults (s : State) (lead : Dev) (x : Contribution) : State :=
  let cs := (s.dev lead).contribs.filter fun y => y.arrived && y.comm == x.comm && y.gen == x.gen && y.number == x.number
  let size := (s.comm (s.dev lead) x.comm).size
  if cs.length < size then s
  else cs.foldl (fun s y =>
    let a := partAccess (((cs.find? fun z => z.rank == 0).map (·.gid)).getD y.gid) 0 (7, y.command) (gidDev y.gid) (y.resultBytes size)
    if gidDev y.gid == lead || s.atOnce a then s.returnResult lead y else s.sendFar a) s

/-- The part that a send or a collective moves has reached the device it was sent to, or never left its own. -/
def State.arriveMessage (s : State) (x : Access) : State :=
  let n := addrDev x.addr
  let send (p : Post) : Bool := p.state == .travelling && p.gid == x.gid && some (p.command.queue, p.command.num) == x.command
  let part (p : Contribution) : Bool := !p.arrived && p.gid == x.gid && some ((5 : BitVec 3), p.command) == x.command
  let result (p : Contribution) : Bool := p.arrived && !p.returned && p.gid != x.gid && gidDev p.gid == n && some ((7 : BitVec 3), p.command) == x.command
  match (s.dev n).contribs.find? part, (s.dev (gidDev x.gid)).contribs.find? result with
  | some p, _ =>
    (s.onDev n fun d => { d with contribs := d.contribs.filter (fun y => !part y) ++ [{ p with arrived := true }] }).returnResults n { p with arrived := true }
  | none, some p => s.returnResult (gidDev x.gid) p
  | none, none => s.onDev n fun d =>
      { d with sends := d.sends.filter (fun p => !send p) ++ (d.sends.filter send).map fun p => { p with state := .pending } }

/-- A command moves a part of `n` bytes to a device. -/
def State.message (s : State) (c : Command) (cls : BitVec 4) (dst : Dev) (n : Nat) : State :=
  let x := partAccess s.cur.gid cls (c.queue, c.num) dst n
  if dst == gidDev s.cur.gid || s.atOnce x then (if s.messageStuck x then (if dst == gidDev s.cur.gid then s else s.sendFar x) else s.arriveMessage x)
  else s.sendFar x

/-- Marks a member's contribution as served, and forgets the collective once every member is. -/
def State.collDone (s : State) (c : Comm) (k : Nat) (gen : BitVec 32) (m : Nat) : State :=
  s.onDev c.lead fun d =>
    let here (x : Contribution) : Bool := x.comm == k && x.gen == gen && x.number == m
    let l := d.contribs.map fun x => if here x && x.rank == c.rank then { x with taken := true } else x
    if (l.filter here).all (·.taken) && (l.filter here).length == c.size then { d with contribs := l.filter fun x => !here x }
    else { d with contribs := l }

/-- A command's own contribution that it has not been served for. -/
def State.myContribution (s : State) (c : Comm) (k : Nat) (gen num : BitVec 32) : Option Contribution :=
  (s.dev c.lead).contribs.find? fun x => x.comm == k && x.gen == gen && x.gid == s.cur.gid && x.command == num && !x.taken

/-- A joined CPCOLL: once every member has joined it completes, or raises PROTV where they disagree (R275, R277). -/
def pollCollective (s : State) (c : Command) (cls : BitVec 4) : Ran :=
  let k := commOf c.instr c.db c.scalar
  let m := s.comm (s.dev (gidDev s.cur.gid)) k
  match s.myContribution m k c.commGen c.num with
  | none => .waiting s [] 0
  | some x =>
    let cs := s.collective m k c.commGen x.number
    if cs.length < m.size || !x.returned then .waiting s [] 0
    else
      let s' := s.collDone m k c.commGen x.number
      if cs.any fun y => y.kind != x.kind || y.arr != x.arr || y.fmt != x.fmt || y.rows != x.rows || y.cols != x.cols ||
                          (x.kind == 3 && y.root != x.root) then
        .abandoned s' (cmdTrap c.queue .protv (BitVec.ofNat 64 (x.number * 2 ^ 32 + (dAux c.db).toNat)))
      else
        let r := collResult m cs x
        match s.place s.cur c.queue true c.da with
        | .error t => .stopped s t 0 0
        | .ok dst =>
          match putTile c cls c.da dst r.1 s' with
          | .error (_, t, _) => .stopped s t 0 0
          | .ok s'' => .done s'' [] r.2

/-- Krytlink commands do not run in a replicated task or a buffered region (20 R358, R378). -/
def fabricBarred (u : Unit) (c : Command) : Bool := u.buffersFor c

/-- A starting CPCOLL takes its number on its communicator (R275). -/
def State.takeNumber (s : State) (c : Command) (k : Nat) : State × Nat :=
  match c.number with
  | some (g, n) => if g == c.commGen then (s, n) else fresh
  | none => fresh
where
  fresh : State × Nat :=
    let d := s.dev (gidDev s.cur.gid)
    let n := match d.collCount.find? fun x => x.comm == k && x.gen == c.commGen with | some x => x.count + 1 | none => 1
    let s := s.setDev { d with collCount := (d.collCount.filter fun x => x.comm != k) ++ [{ comm := k, gen := c.commGen, count := n }] }
    ({ s with cur := s.cur.onInflight c.queue c.num fun y => { y with command := { y.command with number := some (c.commGen, n) } } }, n)

def runCollective (s : State) (c : Command) (cls : BitVec 4) (kind : BitVec 3) (arr : Bool) : Ran :=
  let u := s.cur
  let d := s.dev (gidDev u.gid)
  let k := commOf c.instr c.db c.scalar
  let m := s.comm d k
  let root := fld (dAux c.db) 8 6
  if fabricBarred u c then .stopped s (cmdTrap c.queue .protv (encode c.instr)) 0 0
  else
    match commTrap s c.queue d k c.commGen ((dAux c.db).setWidth 64) ((kind == 3 && decide (m.size ≤ root)) || gidLocal u.gid != m.issuer)
      (m.flows d.num) with
    | some t => .stopped s t 0 0
    | none =>
      if (s.myContribution m k c.commGen c.num).isSome then pollCollective s c cls
      else
        let (s, n) := s.takeNumber c k
        match copyPlaces s c with
        | .error t => .stopped s t 0 0
        | .ok (src, dst) =>
          match collect ((List.range (dRows c.db)).map (s.readRow c .copyRead c.db src)),
                collect ((List.range (dRows c.da)).map fun r =>
                  let l := rowLoc c.da dst r
                  checkPieces s c.queue .copyWrite l.kind (pieces l.base (rowBytes c.da))) with
          | .error t, _ => .stopped s t 0 0
          | _, .error t => .stopped s t 0 0
          | .ok xs, .ok _ =>
            let x : Contribution := {
              comm := k, gen := c.commGen, number := n, rank := m.rank, gid := u.gid, command := c.num, kind := kind, arr := arr,
              root := if kind == 3 then root else 0, fmt := dFmt c.db, rows := dRows c.db, cols := dCols c.db,
              data := xs.flatMap id, arrived := false, returned := false, taken := false }
            pollCollective ((s.onDev m.lead fun l => { l with contribs := l.contribs ++ [x] }).message c cls m.lead
              (tileBytes (dFmt c.db) (dRows c.db) (dCols c.db))) c cls

/-! ### CPSEND and CPPOST (R278, R279) -/

/-- Writes a run of bytes row by row (R279). -/
def fillRows (c : Command) (cls : BitVec 4) (dst : Loc) : List (List Byte × Nat) → State → Except (Trap × State) State
  | [], s => .ok s
  | (bs, r) :: rest, s =>
    match s.writeAt c cls .copyWrite (rowLoc c.da dst r) bs with
    | .error t => .error t
    | .ok s' => fillRows c cls dst rest s'

/-- A posted receive: it takes the first waiting send of which it is the oldest matching post; the bytes enter the buffer, and once they have
performed there the send is matched and the post replies. -/
def pollPost (s : State) (c : Command) (cls : BitVec 4) : Ran :=
  let u := s.cur
  let d := s.dev (gidDev u.gid)
  let mark (peer : Option (Gid × BitVec 32)) (st : PostState) (d : Device) : Device :=
    { d with sends := d.sends.map fun y => if some (y.gid, y.command.num) == peer then { y with state := st } else y }
  let unpost (d : Device) : Device := { d with posts := d.posts.filter fun p => !p.of u.gid c }
  match d.posts.find? fun p => p.of u.gid c && p.state == .filling with
  | some p =>
    if !s.ownClear c then .waiting s [] 0
    else .done (s.onDev d.num fun d => unpost (mark p.peer .matched d)) [BitVec.ofNat 64 (p.tag.toNat * 2 ^ 32 + p.rank * 2 ^ 24 + p.data.length)] 0
  | none =>
  match d.sends.find? fun x => x.state == .pending && (match d.posts.find? fun p => p.matches x with | some p => p.of u.gid c | none => false) with
  | none => .waiting s [] 0
  | some x =>
    let n := x.data.length
    if dRows c.da * rowBytes c.da < n then .waiting (s.onDev d.num (mark (some (x.gid, x.command.num)) .tooLong)) [] 0
    else
      match s.place u c.queue true c.da with
      | .error t => .stopped (s.onDev d.num unpost) t 0 0
      | .ok dst =>
        match fillRows c cls dst (chunks (rowBytes c.da) x.data).zipIdx s with
        | .error (t, _) => if t.cause = .notYet then .waiting s [] 0 else .stopped (s.onDev d.num unpost) t 0 0
        | .ok s' =>
          let peer := some (x.gid, x.command.num)
          let full (p : Post) : Post :=
            if p.of u.gid c then { p with state := .filling, tag := x.tag, rank := x.rank, data := x.data, peer := peer } else p
          .waiting (s'.onDev d.num fun d => { mark peer .filling d with posts := d.posts.map full }) [] 0

/-- A send: whether its post has taken it. -/
def pollSend (s : State) (c : Command) : Ran :=
  let u := s.cur
  let m := s.comm (s.dev (gidDev u.gid)) (fld c.scalar 0 6)
  let dst := m.devs.getD (fld c.scalar 8 6) 0
  match (s.dev dst).sends.find? fun x => x.of u.gid c with
  | none => .waiting s [] 0
  | some x =>
    let gone := s.onDev dst fun d => { d with sends := d.sends.filter fun y => !y.of u.gid c }
    match x.state with
    | .travelling =>
      let a := partAccess u.gid c.cls (c.queue, c.num) dst x.data.length
      .waiting (if dst == gidDev u.gid && !s.messageStuck a then s.arriveMessage a else s) [] 0
    | .pending | .filling => .waiting s [] 0
    | .matched => .done gone [] 0
    | .tooLong => .stopped gone (cmdTrap c.queue .capovf (dBase c.db)) x.data.length 0

def newPost (u : Unit) (c : Command) (any : Bool) (rank : Nat) (data : List Byte) : Post :=
  { gid := u.gid, comm := fld c.scalar 0 6, tag := c.scalar.extractLsb' 32 32, any := any, rank := rank, gen := c.commGen,
    command := c, data := data, state := .travelling, peer := none }

/-- The start of a CPSEND or CPPOST: the checks, or what it stops on.  The flow that a send uses is that to its destination, and a post's that
from its source, or those from every member. (DEDUCED, log 40) -/
def postTrap (s : State) (c : Command) (send : Bool) : Option Trap :=
  let d := s.dev (gidDev s.cur.gid)
  let m := s.comm d (fld c.scalar 0 6)
  let peer := m.devs.getD (fld c.scalar 8 6) d.num
  let own := if send then [(d.num, peer)] else if c.scalar.getLsbD 14 then m.devs.map fun x => (x, d.num) else [(peer, d.num)]
  if fabricBarred s.cur c then some (cmdTrap c.queue .protv (encode c.instr))
  else commTrap s c.queue d (fld c.scalar 0 6) c.commGen 0 (!c.scalar.getLsbD 14 && decide (m.size ≤ fld c.scalar 8 6)) own

def runSend (s : State) (c : Command) : Ran :=
  let u := s.cur
  let m := s.comm (s.dev (gidDev u.gid)) (fld c.scalar 0 6)
  match postTrap s c true with
  | some t => .stopped s t 0 0
  | none =>
    match s.place u c.queue false c.db with
    | .error t => .stopped s t 0 0
    | .ok src =>
      match collect ((List.range (dRows c.db)).map fun r => s.readAt c .copyRead (rowLoc c.db src r) (rowBytes c.db)) with
      | .error t => .stopped s t 0 0
      | .ok rows =>
        let p := newPost u c false m.rank (rows.flatMap id)
        let dst := m.devs.getD (fld c.scalar 8 6) 0
        pollSend ((s.onDev dst fun d => { d with sends := d.sends ++ [p] }).message c c.cls dst p.data.length) c

def runPost (s : State) (c : Command) (cls : BitVec 4) : Ran :=
  match postTrap s c false with
  | some t => .stopped s t 0 0
  | none =>
    let p := newPost s.cur c (c.scalar.getLsbD 14) (fld c.scalar 8 6) []
    pollPost (s.onDev (gidDev s.cur.gid) fun d => { d with posts := d.posts ++ [{ p with state := .pending }] }) c cls

/-! ### The commands -/

/-- What a started W command does. -/
def runStore (s : State) (c : Command) : Ran :=
  match c.instr with
  | .cpout _ oc _ _ _ => runCopy s c oc
  | .cpsct _ oc _ skip _ _ => runScatterRows s c oc skip
  | .cppack _ oc _ _ _ => runPack s c oc
  | .cpred _ oc _ op ord _ _ => runReduce s c oc op ord
  | .screc _ oc _ _ _ _ => runRecord s c oc
  | .cpcnv _ oc _ _ _ => runConvert s c oc
  | .cpcoll _ oc kind arr _ _ => runCollective s c oc kind arr
  | .cpsend .. => runSend s c
  | .cppost _ oc _ _ => runPost s c oc
  | _ => .done s [] 0

/-- What a started W command that waits for others does when it looks again. -/
def pollStore (s : State) (c : Command) : Ran :=
  match c.instr with
  | .cpred _ _ _ _ _ _ _ => if s.contributed c then .done s [] 0 else .waiting s [] 0
  | .cpcoll _ oc _ _ _ _ => pollCollective s c oc
  | .cpsend .. => pollSend s c
  | .cppost _ oc _ _ => pollPost s c oc
  | _ => .waiting s [] 0

end Sys2Proof.Machine
end

