-- ==== Sys2Proof/Machine/EdgeEngine.lean ====
section
/-! DEFINITION. The edge engine (17 R308-R325): graph records, bindings, edge bodies and supersteps. -/
namespace Sys2Proof.Machine
open Sys2Proof

/-! ### The graph record (R308) -/

/-- A little-endian field of `n` bytes of a record. -/
def gField (r : BitVec 2048) (off n : Nat) : Nat := fld r (8 * off) (8 * n)
def gVertices (r : BitVec 2048) : Nat := gField r 0 4
def gEdges (r : BitVec 2048) : Nat := gField r 4 4
def gParts (r : BitVec 2048) : Nat := gField r 8 1
def gSettle (r : BitVec 2048) : Bool := r.getLsbD 72
def gUp (r : BitVec 2048) : Nat := gField r 10 2
def gDown (r : BitVec 2048) : Nat := gField r 12 2
def gRowPtr (r : BitVec 2048) : Nat := gField r 16 8
def gDests (r : BitVec 2048) : Nat := gField r 24 8
def gColPtr (r : BitVec 2048) : Nat := gField r 32 8
def gSources (r : BitVec 2048) : Nat := gField r 40 8
def gEdgeIds (r : BitVec 2048) : Nat := gField r 48 8
def gBitmap (r : BitVec 2048) (k : Nat) : Nat := gField r (104 + 8 * (k % 3)) 8
def gSettled (r : BitVec 2048) : Nat := gField r 128 8
def gConst (r : BitVec 2048) (k : Nat) : Nat := gField r (144 + 8 * k) 8
/-- Properties by one index: P0 to P3 are 0 to 3, W0 and W1 are 4 and 5. -/
def gPropOff (k : Nat) : Nat := if k < 4 then 72 + 8 * k else 56 + 8 * (k - 4)
def gPropBase (r : BitVec 2048) (k : Nat) : Nat := gField r (gPropOff k) 8
def gPropByte (r : BitVec 2048) (k : Nat) : Nat := gField r (136 + k) 1
def gPresent (r : BitVec 2048) (k : Nat) : Bool := decide (128 ≤ gPropByte r k)
def gPropFmt (r : BitVec 2048) (k : Nat) : BitVec 4 := BitVec.ofNat 4 (gPropByte r k)
def gPropBytes (r : BitVec 2048) (k : Nat) : Nat := elemBits (gPropFmt r k) / 8
/-- The address of element `i` of a property. -/
def gElem (r : BitVec 2048) (k i : Nat) : Nat := gPropBase r k + i * gPropBytes r k
/-- The address of a counter slot (R308). -/
def gSlot (va : Word) (k : Nat) : Nat := va.toNat + 176 + 16 * (k % 3)

/-- Whether a record is one that EBIND accepts (R308, R315); the bases of absent properties are checked too. (DEDUCED, log 41) -/
def recordOk (r : BitVec 2048) : Bool :=
  decide (1 ≤ gVertices r) && decide (gVertices r < 2 ^ 31) && decide (1 ≤ gParts r) && decide (gParts r ≤ 64) &&
  decide (gDown r ≤ gUp r) && fld r 73 7 == 0 && gField r 14 2 == 0 && gField r 142 2 == 0 && gField r 224 32 == 0 &&
  (List.range 6).all (fun k =>
    if gPresent r k then
      fld r (8 * (136 + k) + 4) 3 == 0 && setW (gPropFmt r k) && gPropBase r k % gPropBytes r k == 0
    else gPropByte r k == 0 && gPropBase r k % 4 == 0) &&
  [gRowPtr r, gDests r, gColPtr r, gSources r, gEdgeIds r].all (· % 4 == 0) &&
  [gBitmap r 0, gBitmap r 1, gBitmap r 2, gSettled r].all (· % 8 == 0)

/-- The last sentence of R312. -/
def formOk (r : BitVec 2048) : EdgeForm → Bool
  | .eget _ what index =>
    if what == 0 || what == 1 then gPresent r index.toNat else if what == 2 then gPresent r (4 + index.toNat) else true
  | .eput op _ _ prop => gPresent r prop.toNat && !(op == 2 && (floatOf (gPropFmt r prop.toNat)).isSome)
  | _ => true

/-! ### Checks at the push (R315, R317, R323) -/

def edgeCheck (i : Instr) (a : Desc) (x : Word) (u : Unit) : Bool :=
  match i with
  | .ebind .. =>
    dSpace a == spMem && dFmt a == 0 && dRows a == 1 && dCols a == 256 && fld (dBase a) 0 8 == 0 && dStride a == 0 &&
    dAux a == 0 && dMicro a == 0 && dFlags a == 0 && dScale a == 0
  | .erun _ _ _ ord _ =>
    fld x 0 12 != 0 && fld x 22 10 == 0 && (!(ord || u.framed) || (streamSlot u.plate (fld x 18 4)).isSome)
  | .efrnt .. => fld x 0 32 == 0
  | _ => true

/-! ### Memory accesses of the engine (R309, R313, R324) -/

def edgeLoc (va : Nat) : Loc := { kind := .mem, base := (va % 2 ^ 64 : Nat) }

def edgeRead (s : State) (c : Command) (va n : Nat) : Except Trap Nat := (s.readAt c .copyRead (edgeLoc va) n).map fromLe

/-- A pointer or an index, which must stay below `limit` (R309). -/
def edgeIndex (s : State) (c : Command) (base i limit : Nat) : Except Trap Nat :=
  let va := base + 4 * i
  match edgeRead s c va 4 with
  | .error t => .error t
  | .ok x => if x < limit then .ok x else .error (accessTrap c.queue .copyRead .protv (BitVec.ofNat 64 va))

/-- The edge positions of a vertex in a pointer array. -/
def edgeSpan (s : State) (c : Command) (r : BitVec 2048) (base v : Nat) : Except Trap (Nat × Nat) :=
  match edgeIndex s c base v (gEdges r + 1), edgeIndex s c base (v + 1) (gEdges r + 1) with
  | .error t, _ => .error t
  | _, .error t => .error t
  | .ok a, .ok b => if b < a then .error (accessTrap c.queue .copyRead .protv (BitVec.ofNat 64 (base + 4 * (v + 1)))) else .ok (a, b)

/-- Translates and checks an update or a write of aligned bytes. -/
def edgeTarget (s : State) (c : Command) (k : AccessKind) (va n : Nat) : Except Trap Nat :=
  match checkPieces s c.queue k .mem (pieces (edgeLoc va).base n) with
  | .error t => .error t
  | .ok ((a, _) :: _) => .ok a
  | .ok [] => .ok 0

/-- Checks a list of targets. -/
def edgeTargets (s : State) (c : Command) (k : AccessKind) : List (Nat × Nat) → Option Trap
  | [] => none
  | (va, n) :: rest =>
    match edgeTarget s c k va n with
    | .error t => some t
    | .ok _ => edgeTargets s c k rest

/-- A plain store of `n` bytes, after its page was checked. -/
def edgeStore (s : State) (c : Command) (cls : BitVec 4) (va n x : Nat) : Except (Trap × State) State :=
  match edgeTarget s c .copyWrite va n with
  | .error t => .error (t, s)
  | .ok a =>
    let acc := { cmdAccess c cls s.cur.gid a (leBytes n x) with sect := s.sectOf s.cur.gid .mem (edgeLoc va).base }
    if !s.bufferFits [acc] then .error (s.fullTrap c.queue, s)
    else .ok ({ s with cur := tracePieces c .mem (sigPieces (BitVec.ofNat 64 va) cls 0 0 (leBytes n x)) s.cur }.put acc)

/-- The places in which a started E command keeps that an update was asked for, what the forms of an edge have read, and the counts of a group of
which the stores have been made. -/
def askedKey (slot : Nat) : Nat := 2 ^ 121 + slot
def formKey (form : Nat) : Nat := 2 ^ 122 + form
def groupKey : Nat := 2 ^ 123

/-- One atomic update at the home, update `slot` of an edge or a group: the old and new values and the state (R313).  It is made once: at once where
its home is within reach or in the release buffer, else through its class queue, and the command goes on with what it found (R324). -/
def edgeUpdate (s : State) (c : Command) (cls : BitVec 4) (slot va : Nat) (f : BitVec 4) (op : BitVec 3) (x : Nat) :
    Except (Trap × State) (Nat × Nat × State) :=
  let n := elemBits f / 8
  let key := 2 ^ 120 + slot
  let found (old : Nat) (t : State) : Except (Trap × State) (Nat × Nat × State) := .ok (old, (reduceElem f op.toNat old x).1, t)
  match s.cur.gotAt c key with
  | some bs => found (fromLe bs) s
  | none =>
    match edgeTarget s c .atomic va n with
    | .error t => .error (t, s)
    | .ok a =>
      let sect := s.sectOf s.cur.gid .mem (edgeLoc va).base
      let acc := { cmdAccess c cls s.cur.gid a (leBytes n x) with reduce := some (op, f), sect := sect }
      let signed : State := { s with cur := tracePieces c .mem (sigPieces (BitVec.ofNat 64 va) cls 2 (op.setWidth 8) (leBytes n x)) s.cur }
      if (s.cur.gotAt c (askedKey slot)).isSome then .error (notYet c.queue none, s)
      else if s.poisoned a then .error (cmdTrap c.queue .uncorr (BitVec.ofNat 64 va), s)
      else if s.cur.buffersFor c then
        if !s.bufferFits [acc] then .error (s.fullTrap c.queue, s)
        else found (fromLe (s.replayed a n)) ((signed.put acc).noteGot c key (s.replayed a n))
      else if !s.lineFree s.cur cls a (some (c.queue, c.num)) then .error (notYet c.queue none, s)
      else if s.reachesNow s.cur.gid a then found (fromLe (s.homeBytes a n)) ((signed.updateFor c.queue c.num key acc))
      else .error (notYet c.queue (some { addr := a, n := n, turn := 0, sect := sect, update := some (slot, op, f, x) }),
        signed.noteGot c (askedKey slot) [])

/-- Bit `v` of a bitmap, read at its home. -/
def edgeBit (s : State) (c : Command) (base v : Nat) : Except Trap Bool :=
  (edgeRead s c (base + 8 * (v / 64)) 8).map fun w => w.testBit (v % 64)

/-- Whether a vertex is settled during superstep `k` (R310). -/
def edgeSettled (s : State) (c : Command) (r : BitVec 2048) (k v : Nat) : Except Trap Bool :=
  if !gSettle r then .ok false
  else
    match edgeBit s c (gSettled r) v with
    | .error t => .error t
    | .ok true => .ok true
    | .ok false => edgeBit s c (gBitmap r k) v

/-! ### The edge body (R311-R313) -/

/-- The edge that a body runs for: source, CSR position, destination and superstep; `pull` selects the running values. -/
structure Edge where
  src  : Nat
  pos  : Nat
  dst  : Nat
  step : Nat
  pull : Bool
  deriving DecidableEq, Repr

/-- What a body has done so far: temporaries, running values of the destination's properties, ordered additions, and whether it activated the
destination. -/
structure BodyRun where
  temps   : List Nat
  running : List Nat
  adds    : List (Nat × Nat)
  active  : Bool
  flags   : Flags
  deriving DecidableEq, Repr

/-- A body that has done nothing, with the running values it starts from. -/
def BodyRun.start (running : List Nat) : BodyRun := { temps := List.replicate 8 0, running := running, adds := [], active := false, flags := 0 }

/-- A property's value as the temporaries hold it (R311). -/
def widenProp (f : BitVec 4) (x : Nat) : Nat × Flags :=
  if f == 2 then (truncInt 64 (toSigned 32 x), 0) else if f == 6 then fp64.convert .rne false (fp32.val x) else (x, 0)

/-- A temporary in the format of a property (R313). -/
def narrowProp (f : BitVec 4) (x : Nat) : Nat × Flags :=
  match floatOf f with
  | some g => if f == 5 then (x, 0) else g.convert .rne false (fp64.val x)
  | none => elemConvert f .rne true (elemVal 3 x)

/-- EPUT's operation as a reduction (12 R243). -/
def putOp (op : BitVec 2) : BitVec 3 := match op.toNat with | 0 => 1 | 1 => 2 | 2 => 4 | _ => 0

/-- The value that EGET names, read from storage; none where it is a running value. -/
def egetRead (s : State) (c : Command) (r : BitVec 2048) (e : Edge) (what : BitVec 3) (index : BitVec 2) :
    Except Trap (Option (Nat × Flags)) :=
  let prop (k i : Nat) := (edgeRead s c (gElem r k i) (gPropBytes r k)).map fun x => some (widenProp (gPropFmt r k) x)
  match what.toNat with
  | 0 => prop index.toNat e.src
  | 1 => if e.pull then .ok none else prop index.toNat e.dst
  | 2 => prop (4 + index.toNat) e.pos
  | 3 => .ok (some (e.src, 0))
  | 4 => .ok (some (e.dst, 0))
  | 5 => .ok (some (gConst r index.toNat, 0))
  | 6 => .ok (some (e.step, 0))
  | _ => (edgeSpan s c r (gRowPtr r) e.src).map fun p => some (p.2 - p.1, 0)

/-- The reads of a body, which come before its EPUT and EACT (R318). -/
def bodyReads (s : State) (c : Command) (r : BitVec 2048) (e : Edge) (body : List EdgeForm) :
    Except Trap (List (EdgeForm × Option (Nat × Flags))) :=
  collect (body.map fun form => match form with
    | .eget _ what index => (egetRead s c r e what index).map fun x => (form, x)
    | _ => .ok (form, none))

def BodyRun.temp (b : BodyRun) (k : BitVec 3) : Nat := b.temps.getD k.toNat 0
def BodyRun.set (b : BodyRun) (k : BitVec 3) (x : Nat) (f : Flags) : BodyRun :=
  { b with temps := b.temps.set k.toNat (x % 2 ^ 64), flags := b.flags ||| f }

/-- An operation on two temporaries (R312). -/
def BodyRun.op (b : BodyRun) (flt : Bool) (k x y : BitVec 3) (g : BitVec 4 → Nat → Nat → Nat → Nat × Flags) : BodyRun :=
  let r := g (if flt then 5 else 3) 0 (b.temp x) (b.temp y)
  b.set k r.1 r.2

/-- ECMP (R312). -/
def edgeCompare (rel : BitVec 2) (flt : Bool) (x y : Nat) : Bool × Flags :=
  if flt then
    let p := fp64.val x
    let q := fp64.val y
    match rel.toNat with
    | 0 => (p.eq q, snanFlag [p, q])
    | 1 => (p.lt q, flagIf (p.isNan || q.isNan) flagNV)
    | 2 => (p.lt q || p.eq q, flagIf (p.isNan || q.isNan) flagNV)
    | _ => (!p.eq q, snanFlag [p, q])
  else
    let p := toSigned 64 x
    let q := toSigned 64 y
    (match rel.toNat with | 0 => p == q | 1 => decide (p < q) | 2 => decide (p ≤ q) | _ => p != q, 0)

/-- EPUT on the running value; an ordered addition is kept for its contribution, whose home raises its flags (R320). -/
def BodyRun.put (b : BodyRun) (r : BitVec 2048) (ordered : Bool) (op : BitVec 2) (k x : BitVec 3) (prop : Nat) : BodyRun :=
  let f := gPropFmt r prop
  let n := narrowProp f (b.temp x)
  let old := b.running.getD prop 0
  let new := reduceElem f (putOp op).toNat old n.1
  if ordered && op == 3 && (floatOf f).isSome then
    { b.set k (if new.1 = old then 0 else 1) n.2 with running := b.running.set prop new.1, adds := b.adds ++ [(prop, n.1)] }
  else
    { b.set k (if new.1 = old then 0 else 1) (n.2 ||| new.2) with running := b.running.set prop new.1 }

/-- One form of a body, with what it read. -/
def BodyRun.form (r : BitVec 2048) (ordered : Bool) (b : BodyRun) (x : EdgeForm × Option (Nat × Flags)) : BodyRun :=
  match x.1 with
  | .eget k _ index =>
    let v := match x.2 with | some v => v | none => widenProp (gPropFmt r index.toNat) (b.running.getD index.toNat 0)
    b.set k v.1 v.2
  | .eadd flt k p q => b.op flt k p q opAdd
  | .emul flt k p q => b.op flt k p q opMul
  | .emin flt k p q => b.op flt k p q (opMinmax false)
  | .emax flt k p q => b.op flt k p q (opMinmax true)
  | .esel k p q => b.set k (if b.temp k ≠ 0 then b.temp p else b.temp q) 0
  | .ecmp rel flt k p q =>
    let h := edgeCompare rel flt (b.temp p) (b.temp q)
    b.set k (if h.1 then 1 else 0) h.2
  | .eput op k p prop => b.put r ordered op k p prop.toNat
  | .eact p => if b.temp p ≠ 0 then { b with active := true } else b
  | .eend => b

def runBody (r : BitVec 2048) (ordered : Bool) (start : BodyRun) (forms : List (EdgeForm × Option (Nat × Flags))) : BodyRun :=
  forms.foldl (BodyRun.form r ordered) { start with temps := List.replicate 8 0 }

/-- Properties that a body's EPUTs name, and those it needs a running value of. -/
def putProps (body : List EdgeForm) : List Nat :=
  (List.range 4).filter fun k => body.any fun x => match x with | .eput _ _ _ p => p.toNat == k | _ => false
def runProps (body : List EdgeForm) : List Nat :=
  (List.range 4).filter fun k => body.any fun x => match x with
    | .eput _ _ _ p => p.toNat == k
    | .eget _ what p => what == 1 && p.toNat == k
    | _ => false
/-- A form reads a temporary. -/
def EdgeForm.reads (k : BitVec 3) : EdgeForm → Bool
  | .eadd _ _ p q | .emul _ _ p q | .emin _ _ p q | .emax _ _ p q | .ecmp _ _ _ p q => p == k || q == k
  | .esel t p q => t == k || p == k || q == k
  | .eput _ _ p _ => p == k
  | .eact p => p == k
  | _ => false
/-- Floating properties that a body adds to. -/
def addProps (r : BitVec 2048) (body : List EdgeForm) : List Nat :=
  (List.range 4).filter fun k => body.any fun x => match x with
    | .eput op _ _ p => op == 3 && p.toNat == k && (floatOf (gPropFmt r k)).isSome
    | _ => false

/-- A body asks whether an addition of it to a floating property changed the stored value. -/
def asksChange (r : BitVec 2048) (body : List EdgeForm) : Bool :=
  body.any fun x => match x with
    | .eput op k _ p => op == 3 && (floatOf (gPropFmt r p.toNat)).isSome && body.any (EdgeForm.reads k)
    | _ => false

/-- The destination's values of some properties, in a list of four. -/
def readProps (r : BitVec 2048) (read : Nat → Nat → Nat → Except Trap Nat) (v : Nat) (ks : List Nat) :
    Except Trap (List Nat) :=
  collect ((List.range 4).map fun k => if ks.contains k then read k (gElem r k v) (gPropBytes r k) else .ok 0)

/-! ### A superstep (R318) -/

/-- Where a superstep stands: the state, the lowest position not complete, the flags, and whether it has come further in this step. -/
structure Super where
  s     : State
  pos   : Nat
  flags : Flags
  moved : Bool
  deriving DecidableEq, Repr

/-- A running machine makes each edge, or each group of a pull, in a step of its own (16 R288, DESIGN CHOICE, log 4). -/
def Super.pauses (x : Super) : Bool := x.moved && !x.s.prompt

/-- Activates a vertex in push mode: the bit by an atomic OR, and the counts where the bit was clear (R313). -/
def activate (c : Command) (cls : BitVec 4) (va : Word) (r : BitVec 2048) (k u degree : Nat) (s : State) : Except (Trap × State) State :=
  match edgeUpdate s c cls 32 (gBitmap r (k + 1) + 8 * (u / 64)) 3 4 (2 ^ (u % 64)) with
  | .error t => .error t
  | .ok (old, _, s1) =>
    if old.testBit (u % 64) then .ok s1
    else
      match edgeUpdate s1 c cls 33 (gSlot va (k + 1)) 3 0 1 with
      | .error t => .error t
      | .ok (_, _, s2) => (edgeUpdate s2 c cls 34 (gSlot va (k + 1) + 8) 3 0 degree).map fun x => x.2.2

/-- The place of an ERUN's contributions to one property, the last update not marked (R320). -/
def erunTag (s : State) (c : Command) : Option OrdTag :=
  (slotOf c.stream.toNat).map fun p =>
    { task := s.cur.task.getD 0, stream := fld c.scalar 18 4, slot := p.1, width := p.2, last := false }

/-- The value to which an ordered addition adds: that of the property with the contributions of the partitions before this one, and with the
updates kept for this one (R320, R321).  Where a body asks whether its addition changed the value, the edge waits for those
contributions; else the value is not read. (DEDUCED, log 19) -/
def orderedValue (s : State) (c : Command) (r : BitVec 2048) (body : List EdgeForm) (k va n : Nat) : Except Trap Nat :=
  if !asksChange r body then .ok 0
  else match edgeTarget s c .atomic va n with
  | .error t => .error t
  | .ok a =>
    let first := match erunTag s c with | some t => (s.dev (addrDev a)).ordNext t (a / 256) == t.slot | none => true
    if !first then .error (notYet c.queue none)
    else
      let kept : List (Nat × Nat × Nat) :=
        match s.cur.inflight? c.queue c.num with | some y => y.command.deferred.filter fun e => e.1 == k && e.2.1 == va | none => []
      (edgeRead s c va n).map fun x => kept.foldl (fun x e => (reduceElem (gPropFmt r k) 0 x e.2.2).1) x

/-- One form of a body in push mode, the update that an EPUT makes at the home among them (R313). -/
def edgePushForm (c : Command) (cls : BitVec 4) (r : BitVec 2048) (ordered : Bool) (u slot : Nat) (x : EdgeForm × Option (Nat × Flags)) (b : BodyRun)
    (s : State) : Except (Trap × State) (BodyRun × State) :=
  match x.1 with
  | .eput op k p prop =>
    let f := gPropFmt r prop.toNat
    if ordered && op == 3 && (floatOf f).isSome then .ok (b.form r ordered x, s)
    else
      let n := narrowProp f (b.temp p)
      (edgeUpdate s c cls slot (gElem r prop.toNat u) f (putOp op) n.1).map fun y =>
        (b.set k (if y.2.1 = y.1 then 0 else 1) (n.2 ||| (reduceElem f (putOp op).toNat y.1 n.1).2), y.2.2)
  | _ => .ok (b.form r ordered x, s)

/-- The forms of a body in push mode, in order. -/
def edgePushForms (c : Command) (cls : BitVec 4) (r : BitVec 2048) (ordered : Bool) (u : Nat) :
    List ((EdgeForm × Option (Nat × Flags)) × Nat) → BodyRun → State → Except (Trap × State) (BodyRun × State)
  | [], b, s => .ok (b, s)
  | (x, slot) :: rest, b, s =>
    match edgePushForm c cls r ordered u slot x b s with
    | .error t => .error t
    | .ok (b', s') => edgePushForms c cls r ordered u rest b' s'

/-- What the forms of an edge have read, as a command keeps it once the edge's updates have begun. -/
def keepForms (c : Command) (forms : List (EdgeForm × Option (Nat × Flags))) (s : State) : State :=
  forms.zipIdx.foldl (fun s e => match e.1.2 with
    | some (x, f) => s.noteGot c (formKey e.2) (leBytes 8 x ++ [f.setWidth 8])
    | none => s) (s.noteGot c (formKey forms.length) [])
def keptForms (s : State) (c : Command) (body : List EdgeForm) : Option (List (EdgeForm × Option (Nat × Flags))) :=
  (s.cur.gotAt c (formKey body.length)).map fun _ => body.zipIdx.map fun e =>
    (e.1, (s.cur.gotAt c (formKey e.2)).map fun bs => (fromLe (bs.take 8), (bs.getD 8 0).setWidth 5))

/-- Nothing of what the command has read is kept any more. -/
def State.forgetGot (s : State) (c : Command) : State := { s with cur := s.cur.onInflight c.queue c.num fun y => { y with got := [] } }

/-- One edge in push mode: reads, checks of every page it touches, then its updates (R318, R325). -/
def pushEdge (c : Command) (cls : BitVec 4) (b : Binding) (ordered : Bool) (e : Edge) (x : Super) : Except (Trap × State) Super :=
  let s := x.s
  let r := b.record
  let ks := putProps b.body
  let begun := keptForms s c b.body
  match if begun.isSome then none else edgeTargets s c .atomic (ks.map fun k => (gElem r k e.dst, gPropBytes r k)) with
  | some t => .error (t, s)
  | none =>
    let value (k va n : Nat) : Except Trap Nat :=
      if ordered && (addProps r b.body).contains k then orderedValue s c r b.body k va n else .ok 0
    match readProps r value e.dst ks, (match begun with | some forms => .ok forms | none => bodyReads s c r e b.body : Except Trap _) with
    | .error t, _ => .error (t, s)
    | _, .error t => .error (t, s)
    | .ok start, .ok forms =>
      let s := if begun.isSome then s else keepForms c forms s
      match edgePushForms c cls r ordered e.dst forms.zipIdx (BodyRun.start start) s with
      | .error t => .error t
      | .ok (run, s1) =>
        let degree : Except Trap Nat :=
          if run.active then
            match edgeTargets s1 c .atomic [(gBitmap r (e.step + 1) + 8 * (e.dst / 64), 8), (gSlot b.va (e.step + 1), 16)] with
            | some t => .error t
            | none => (edgeSpan s1 c r (gRowPtr r) e.dst).map fun p => p.2 - p.1
          else .ok 0
        match degree with
        | .error t => .error (t, s1)
        | .ok n =>
          let kept := run.adds.map fun p => (p.1, gElem r p.1 e.dst, p.2)
          let done (s : State) : Super :=
            let s : State := { s with cur := s.cur.onInflight c.queue c.num fun y =>
              { y with command := { y.command with deferred := y.command.deferred ++ kept } } }
            { s := s.forgetGot c, pos := e.pos + 1, flags := x.flags ||| run.flags, moved := true }
          if run.active then (activate c cls b.va r e.step e.dst n s1).map done else .ok (done s1)

/-- The edges of one source in push mode. -/
def pushEdges (c : Command) (cls : BitVec 4) (b : Binding) (ordered : Bool) (k v : Nat) : List Nat → Super → Except (Trap × Super) Super
  | [], x => .ok x
  | q :: rest, x =>
    let here : Except (Trap × State) Super :=
      if x.pauses then .error (notYet c.queue none, x.s)
      else match edgeIndex x.s c (gDests b.record) q (gVertices b.record) with
      | .error t => .error (t, x.s)
      | .ok u =>
        match if (keptForms x.s c b.body).isSome then .ok false else edgeSettled x.s c b.record k u with
        | .error t => .error (t, x.s)
        | .ok true => .ok { x with pos := q + 1 }
        | .ok false => pushEdge c cls b ordered { src := v, pos := q, dst := u, step := k, pull := false } x
    match here with
    | .error (t, s) => .error (t, { x with s := s, pos := q })
    | .ok x' => pushEdges c cls b ordered k v rest x'

def pushAll (c : Command) (cls : BitVec 4) (b : Binding) (ordered : Bool) (k : Nat) : List Nat → Super → Except (Trap × Super) Super
  | [], x => .ok x
  | v :: rest, x =>
    match edgeBit x.s c (gBitmap b.record k) v with
    | .error t => .error (t, x)
    | .ok false => pushAll c cls b ordered k rest x
    | .ok true =>
      match edgeSpan x.s c b.record (gRowPtr b.record) v with
      | .error t => .error (t, x)
      | .ok (lo, hi) =>
        match pushEdges c cls b ordered k v ((List.range hi).drop (max lo x.pos)) x with
        | .error e => .error e
        | .ok x' => pushAll c cls b ordered k rest x'

/-- What a destination's scan in pull mode leaves: its values before and after, and whether it became active. -/
structure Scan where
  vertex : Nat
  before : List Nat
  run    : BodyRun
  deriving DecidableEq, Repr

/-- The in-edges of one destination, in CSC order. -/
def scanEdges (s : State) (c : Command) (b : Binding) (k u : Nat) : List Nat → BodyRun → Except Trap BodyRun
  | [], run => .ok run
  | q :: rest, run =>
    match edgeIndex s c (gSources b.record) q (gVertices b.record) with
    | .error t => .error t
    | .ok v =>
      match edgeBit s c (gBitmap b.record k) v with
      | .error t => .error t
      | .ok false => scanEdges s c b k u rest run
      | .ok true =>
        match edgeIndex s c (gEdgeIds b.record) q (gEdges b.record) with
        | .error t => .error t
        | .ok id =>
          match bodyReads s c b.record { src := v, pos := id, dst := u, step := k, pull := true } b.body with
          | .error t => .error t
          | .ok forms => scanEdges s c b k u rest (runBody b.record false run forms)

def scanVertex (s : State) (c : Command) (b : Binding) (k u : Nat) : Except Trap (Option Scan) :=
  match edgeSettled s c b.record k u with
  | .error t => .error t
  | .ok true => .ok none
  | .ok false =>
    match readProps b.record (fun _ => edgeRead s c) u (runProps b.body), edgeSpan s c b.record (gColPtr b.record) u with
    | .error t, _ => .error t
    | _, .error t => .error t
    | .ok start, .ok (lo, hi) =>
      (scanEdges s c b k u ((List.range hi).drop lo) (BodyRun.start start)).map fun run => some { vertex := u, before := start, run := run }

/-- Stores, each of which is made again where the list is gone through again after a full release buffer. -/
def storeAll (c : Command) (cls : BitVec 4) : List (Nat × Nat × Nat) → State → Except (Trap × State) State
  | [], s => .ok s
  | (va, n, x) :: rest, s =>
    match edgeStore s c cls va n x with
    | .error t => .error t
    | .ok s' => storeAll c cls rest s'

/-- What a group of 64 vertices in pull mode comes to: its stores, the vertices that it activates with the sum of their degrees, and its flags. -/
structure Group where
  writes : List (Nat × Nat × Nat)
  active : Nat
  degree : Nat
  flags  : Flags
  deriving DecidableEq, Repr

/-- The scans of a group, and the checks of the pages it writes (R325). -/
def scanGroup (s : State) (c : Command) (b : Binding) (k hi g : Nat) : Except Trap Group :=
  let r := b.record
  match collect ((List.range (min 64 (hi - g))).map fun i => scanVertex s c b k (g + i)) with
  | .error t => .error t
  | .ok found =>
    let scans := found.filterMap id
    let active := scans.filter (·.run.active)
    match collect (active.map fun y => (edgeSpan s c r (gRowPtr r) y.vertex).map fun p => p.2 - p.1) with
    | .error t => .error t
    | .ok degrees =>
      let changed := scans.flatMap fun y => (runProps b.body).filterMap fun p =>
        let v := y.run.running.getD p 0
        if v == y.before.getD p 0 then none else some (gElem r p y.vertex, gPropBytes r p, v)
      let word := active.foldl (fun w y => w + 2 ^ (y.vertex % 64)) 0
      let writes := changed ++ [(gBitmap r (k + 1) + 8 * (g / 64), 8, word)]
      match edgeTargets s c .copyWrite (writes.map fun w => (w.1, w.2.1)),
            edgeTargets s c .atomic (if active.isEmpty then [] else [(gSlot b.va (k + 1), 16)]) with
      | some t, _ => .error t
      | _, some t => .error t
      | none, none =>
        .ok { writes := writes, active := active.length, degree := degrees.sum, flags := scans.foldl (fun f y => f ||| y.run.flags) 0 }

/-- The counts of a group whose stores have been made, as its command keeps them. -/
def keepGroup (c : Command) (y : Group) (s : State) : State := s.noteGot c groupKey (leBytes 8 y.active ++ leBytes 8 y.degree ++ [y.flags.setWidth 8])
def keptGroup (s : State) (c : Command) : Option Group :=
  (s.cur.gotAt c groupKey).map fun bs =>
    { writes := [], active := fromLe (bs.take 8), degree := fromLe ((bs.drop 8).take 8), flags := (bs.getD 16 0).setWidth 5 }

/-- The two counts of a group find room in a release buffer together, so that a meeting leaves none of them made alone (20 R360). -/
def countsFit (s : State) (c : Command) (cls : BitVec 4) (va : Word) (k : Nat) : Bool :=
  match edgeTarget s c .atomic (gSlot va k) 16 with
  | .ok a => s.bufferFits ([a, a + 8].map fun x => { cmdAccess c cls s.cur.gid x (leBytes 8 0) with reduce := some (0, 3) })
  | .error _ => true

/-- One group of 64 vertices in pull mode: scans, checks, stores, and its counts (R313, R318, R325). -/
def pullGroup (c : Command) (cls : BitVec 4) (b : Binding) (k hi g : Nat) (x : Super) : Except (Trap × State) Super :=
  let s := x.s
  match (match keptGroup s c with | some y => .ok y | none => scanGroup s c b k hi g : Except Trap Group) with
  | .error t => .error (t, s)
  | .ok y =>
    match storeAll c cls y.writes s with
    | .error t => .error t
    | .ok s1 =>
      let done (s : State) : Super := { s := s.forgetGot c, pos := g + 64, flags := x.flags ||| y.flags, moved := true }
      if y.active = 0 then .ok (done s1)
      else if (keptGroup s c).isNone && !countsFit s1 c cls b.va (k + 1) then .error (s1.fullTrap c.queue, s1)
      else
        match edgeUpdate (if (keptGroup s c).isSome then s1 else keepGroup c y s1) c cls 0 (gSlot b.va (k + 1)) 3 0 y.active with
        | .error t => .error t
        | .ok (_, _, s2) => (edgeUpdate s2 c cls 1 (gSlot b.va (k + 1) + 8) 3 0 y.degree).map fun z => done z.2.2

def pullAll (c : Command) (cls : BitVec 4) (b : Binding) (k hi : Nat) : List Nat → Super → Except (Trap × Super) Super
  | [], x => .ok x
  | g :: rest, x =>
    match if x.pauses then .error (notYet c.queue none, x.s) else pullGroup c cls b k hi g x with
    | .error (t, s) => .error (t, { x with s := s, pos := g })
    | .ok x' => pullAll c cls b k hi rest x'

/-- The vertices of partition `i`: from `lo` up to `hi` (R310). -/
def partLo (r : BitVec 2048) (i : Nat) : Nat := i * roundUp (ceilDiv (gVertices r) (gParts r)) 64
def partHi (r : BitVec 2048) (i : Nat) : Nat := min (partLo r i + roundUp (ceilDiv (gVertices r) (gParts r)) 64) (gVertices r)

/-- The share of active edges in 65 536ths (R318). -/
def density (r : BitVec 2048) (edges : Nat) : Nat := if gEdges r = 0 then 0 else min 65536 (65536 * edges / gEdges r)

/-- The mode AUTO takes (R319). -/
def autoPull (b : Binding) (d : Nat) : Bool :=
  if b.lastPull then !decide (d < gDown b.record) else decide (gUp b.record < d)

/-- The words of a bitmap that cover a partition's range, by number. -/
def partWords (r : BitVec 2048) (i : Nat) : List Nat :=
  (List.range ((partHi r i + 63) / 64)).drop (partLo r i / 64)

/-- Sets the settled bits of a partition's range (R318). -/
def settleAll (c : Command) (cls : BitVec 4) (r : BitVec 2048) (k : Nat) (ws : List Nat) (s : State) : Except (Trap × State) State :=
  match collect (ws.map fun w => match edgeRead s c (gSettled r + 8 * w) 8, edgeRead s c (gBitmap r k + 8 * w) 8 with
    | .error t, _ => .error t
    | _, .error t => .error t
    | .ok x, .ok f => .ok (gSettled r + 8 * w, 8, x ||| f)) with
  | .error t => .error (t, s)
  | .ok writes => match edgeTargets s c .copyWrite (writes.map fun w => (w.1, w.2.1)) with
    | some t => .error (t, s)
    | none => storeAll c cls writes s

/-- The command as its started entry holds it now. -/
def State.entryOf (s : State) (c : Command) : Command := match s.cur.inflight? c.queue c.num with | some y => y.command | none => c

/-- One line of a property to which a superstep adds in order: the property, its first byte in the line by virtual address, its place, and the
updates kept for it, by place and operand (R320). -/
structure Line where
  prop    : Nat
  va      : Nat
  addr    : Nat
  updates : List (Nat × Nat)
  deriving DecidableEq, Repr

/-- The accesses of one line's contribution: its updates, or an empty one, and last the one that closes it (R320). -/
def lineAccesses (s : State) (c : Command) (cls f : BitVec 4) (tag : OrdTag) (l : Line) : List Access :=
  let x : Access := { cmdAccess c cls s.cur.gid l.addr [] with ord := some tag, sect := s.sectOf s.cur.gid .mem (edgeLoc l.va).base }
  (l.updates.map fun e => { x with addr := e.1, data := leBytes (elemBits f / 8) e.2, reduce := some (0, f) }) ++ [{ x with ord := some { tag with last := true } }]

/-- The lines of the properties that a superstep adds to in order, by property and virtual address. -/
def addLines (r : BitVec 2048) (props : List Nat) : List (Nat × Nat) :=
  props.flatMap fun k =>
    ((List.range ((gElem r k (gVertices r) + 255) / 256)).drop (gPropBase r k / 256)).map fun l => (k, max (gPropBase r k) (256 * l))

/-- Translates the lines and finds the updates kept for each, before any is sent (R325). -/
def lineUpdates (s : State) (c : Command) (adds : List (Nat × Nat × Nat)) : List (Nat × Nat) → Except Trap (List Line)
  | [] => .ok []
  | (k, va) :: rest =>
    match edgeTarget s c .atomic va 1 with
    | .error t => .error t
    | .ok a =>
      let mine := adds.filterMap fun x => if x.1 == k && x.2.1 / 256 == va / 256 then some (a / 256 * 256 + x.2.1 % 256, x.2.2) else none
      match mine.find? fun x => s.poisoned x.1 with
      | some x => .error (cmdTrap c.queue .uncorr (BitVec.ofNat 64 (va / 256 * 256 + x.1 % 256)))
      | none => (lineUpdates s c adds rest).map ({ prop := k, va := va, addr := a, updates := mine } :: ·)

/-- Sends the contributions from line `k` on, while their homes have room for them (12 R244). -/
def sendLines (c : Command) (cls : BitVec 4) (r : BitVec 2048) (tag : OrdTag) : List (Line × Nat) → State → Except (State × Trap × Nat) State
  | [], s => .ok s
  | (l, k) :: rest, s =>
    let xs := lineAccesses s c cls (gPropFmt r l.prop) tag l
    if !s.bufferFits xs then .error (s, s.fullTrap c.queue, k)
    else if s.prompt && !s.cur.buffersFor c && xs.any fun x => !s.ordRoom x then .error (s, notYet c.queue none, k)
    else sendLines c cls r tag rest (xs.foldl State.put s)

/-- The stop of an ERUN (R325): mode, supersteps completed and position. (DEDUCED, log 77) -/
def erunProgress (pull : Bool) (done pos : Nat) : Nat := (if pull then 2 else 1) * 2 ^ 60 + done * 2 ^ 48 + pos

/-- Where a superstep goes on: in which mode and at which position, whether its start steps are done, and its end: 0, or 1 once the settled bits
are set, and 1 more for each contribution that has been sent; the last two are the engine's own, and nothing of them enters QPROG. -/
structure At where
  pull  : Bool
  pos   : Nat
  begun : Bool
  sent  : Nat
  deriving DecidableEq, Repr

/-- The position at which the edges of a superstep are complete (R325). -/
def edgesDone : Nat := 2 ^ 32 - 1

/-- One superstep from where it stands; the last position marks that the edges are complete.  The settled bitmap is written before the
ordered contributions leave, so that nothing can fault once one has; it ends when all its accesses have performed (R318). -/
def superstep (c : Command) (cls : BitVec 4) (b : Binding) (ordered : Bool) (i k : Nat) (p : At) (s : State) :
    Except (State × Trap × At × Flags) State :=
  let r := b.record
  let first := (if i = 0 then [(gSlot b.va (k + 2), 8, 0), (gSlot b.va (k + 2) + 8, 8, 0)] else []) ++
    (partWords r i).map fun w => (gBitmap r (k + 2) + 8 * w, 8, 0)
  let start : Except (Trap × State) State := if p.begun then .ok s
    else match edgeTargets s c .copyWrite (first.map fun w => (w.1, w.2.1)) with
      | some t => .error (t, s)
      | none => storeAll c cls first s
  match start with
  | .error (t, s) => .error (s, t, p, 0)
  | .ok s1 =>
    let vs := (List.range (partHi r i)).drop (partLo r i)
    let here : Super := { s := s1, pos := p.pos, flags := 0, moved := false }
    let edges : Except (Trap × Super) Super :=
      if p.pos = edgesDone then .ok here
      else if p.pull then pullAll c cls b k (partHi r i) (vs.filter fun v => v % 64 == 0 && decide (p.pos ≤ v)) here
      else pushAll c cls b ordered k vs here
    match edges with
    | .error (t, x) => .error (x.s, t, { p with pos := x.pos, begun := t.cause == .notYet }, x.flags)
    | .ok x =>
      let s2 : State := { x.s with cur := x.s.cur.onInflight c.queue c.num fun y => { y with flags := y.flags ||| x.flags } }
      let stands (t : Trap) (sent : Nat) : At :=
        let again := t.cause == .notYet || t.cause == .bufferFull
        { p with pos := edgesDone, begun := again, sent := sent }
      match if gSettle r && p.sent == 0 then settleAll c cls r k (partWords r i) s2 else .ok s2 with
      | .error (t, s) => .error (s, t, stands t 0, 0)
      | .ok s3 =>
        let sent : Except (State × Trap × Nat) (State × Nat) :=
          match if ordered && !p.pull then erunTag s3 c else none with
          | none => .ok (s3, 0)
          | some tag =>
            match lineUpdates s3 c (s3.entryOf c).deferred (addLines r (addProps r b.body)) with
            | .error t => .error (s3, t, p.sent - 1)
            | .ok ls => (sendLines c cls r tag (ls.zipIdx.drop (p.sent - 1)) s3).map fun s => (s, ls.length)
        match sent with
        | .error (s4, t, n) => .error (s4, t, stands t (n + 1), 0)
        | .ok (s4, n) =>
          if !s4.ownClear c && gParts r = 1 then .error (s4, notYet c.queue none, stands (notYet c.queue none) (n + 1), 0)
          else .ok { s4 with cur := s4.cur.onInflight c.queue c.num fun y => { y with command := { y.command with deferred := [] } } }

/-- The values of a superstep that met UNCORR are undefined (R325): those of the properties it puts to, of the frontier it makes and the one it
clears, of their counters and of the settled bits are free. -/
def blurSuperstep (c : Command) (cls : BitVec 4) (b : Binding) (k : Nat) (s : State) : State :=
  let r := b.record
  let words := (gVertices r + 63) / 64 * 8
  let bytes := (putProps b.body).flatMap (fun p => (List.range (gVertices r * gPropBytes r p)).map (gPropBase r p + ·)) ++
    [k + 1, k + 2].flatMap (fun k => (List.range words).map (gBitmap r k + ·) ++ (List.range 16).map (gSlot b.va k + ·)) ++
    (if gSettle r then (List.range words).map (gSettled r + ·) else [])
  bytes.foldl (fun s va => match edgeTarget s c .copyWrite va 1 with
    | .error _ => s
    | .ok a =>
      let x := cmdAccess c cls s.cur.gid a [Config.freeByte (2 ^ 40 + s.free) va]
      { (if s.cur.buffersFor c then s.put x else s.admitAt x []) with free := s.free + 1 }) s

/-! ### The commands -/

/-- The counters of a slot (R308). -/
def slotCounts (s : State) (c : Command) (va : Word) (k : Nat) : Except Trap (Nat × Nat) :=
  match edgeRead s c (gSlot va k) 8, edgeRead s c (gSlot va k + 8) 8 with
  | .error t, _ => .error t
  | _, .error t => .error t
  | .ok x, .ok y => .ok (x, y)

/-- The reply of an ERUN (R322): the next superstep, the last mode (0 where none ran), how it ended and the supersteps run. -/
def erunReply (start done mode finish : Nat) : Word :=
  BitVec.ofNat 64 ((start + done) % 2 ^ 32 * 2 ^ 32 + mode * 2 ^ 30 + finish * 2 ^ 28 + done)

/-- How an ERUN ends: it owes its reply, and waits while a contribution of it is held (R320, R322). -/
def erunEnd (s : State) (c : Command) (reply : Word) : Ran :=
  if s.devs.any fun d => d.held.any fun x => x.gid == s.cur.gid && x.command == some (c.queue, c.num) then .waiting s [reply] 0
  else .done s [reply] 0

/-- The supersteps of an ERUN: `left` bounds them, `done` counts them, `at?` is where a stopped superstep goes on. -/
def erunFrom (c : Command) (cls : BitVec 4) (forced : Option Bool) (ordered : Bool) (i start : Nat) :
    Nat → Nat → Nat → Option At → State → Ran
  | 0, done, mode, _, s => erunEnd s c (erunReply start done mode 0)
  | left + 1, done, mode, at?, s =>
    match s.cur.binding with
    | none => .stopped s (cmdTrap c.queue .protv c.scalar) 0 0
    | some b =>
      let k := (start + done) % 2 ^ 32
      match if (match at? with | some p => p.begun | none => false) then .ok (1, 0) else slotCounts s c b.va k with
      | .error t =>
        if t.cause = .uncorr then .abandoned (blurSuperstep c cls b k s) t
        else .stopped s t (match at?, forced with
          | some p, _ => erunProgress p.pull done p.pos
          | none, some m => erunProgress m done (if m then partLo b.record i else 0)
          | none, none => done * 2 ^ 48) 0
      | .ok (vertices, edges) =>
        if vertices = 0 then erunEnd s c (erunReply start done mode 1)
        else
          let p : At := match at? with
            | some p => p
            | none =>
              let pull := match forced with | some m => m | none => autoPull b (density b.record edges)
              { pull := pull, pos := if pull then partLo b.record i else 0, begun := false, sent := 0 }
          match superstep c cls b ordered i k p s with
          | .error (s', t, p, f) =>
            if t.cause = .uncorr then .abandoned (blurSuperstep c cls b k s') t
            else if ordered && t.cause = .linkfail then .abandoned s' t
            else if p.begun then .stopped s' t (erunProgress p.pull done p.pos + 2 ^ 62 + p.sent * 2 ^ 64) f
            else if 1 < p.sent then .abandoned s' t
            else .stopped s' t (erunProgress p.pull done p.pos) f
          | .ok s' =>
            let s'' := { s' with cur := { s'.cur with binding := some { b with lastPull := p.pull } } }
            let mode := if p.pull then 2 else 1
            if 1 < gParts b.record then erunEnd s'' c (erunReply start (done + 1) mode 2)
            else if s.prompt then erunFrom c cls forced ordered i start left (done + 1) mode none s''
            else .partly s'' ((done + 1) * 2 ^ 48) 0

/-- ERUN (R317, R318, R358). -/
def runErun (s : State) (c : Command) (cls : BitVec 4) (mode : BitVec 2) (ord : Bool) : Ran :=
  let u := s.cur
  let x := c.scalar
  let i := fld x 12 6
  let ordered := ord || u.framed
  let bad := cmdTrap c.queue .protv x
  match u.binding with
  | none => .stopped s bad (c.resume.getD 0) 0
  | some b =>
    if gParts b.record ≤ i then .stopped s bad (c.resume.getD 0) 0
    else if ordered && slotOf c.stream.toNat != some (i, gParts b.record) then .stopped s bad (c.resume.getD 0) 0
    else
      let p := c.resume.getD 0
      let done := p / 2 ^ 48 % 2 ^ 12
      let at? : Option At := if p / 2 ^ 60 % 4 = 0 then none
        else some { pull := p / 2 ^ 60 % 4 == 2, pos := p % 2 ^ 32, begun := p / 2 ^ 62 % 2 == 1, sent := p / 2 ^ 64 }
      let forced := if 1 < u.live then some true else if mode == 0 then none else some (mode == 2)
      erunFrom c cls forced ordered i (fld x 32 32) (fld x 0 12 - done) done
        (if done = 0 then 0 else if b.lastPull then 2 else 1) at? s

/-- EBIND (R315). -/
def runBind (s : State) (c : Command) : Ran :=
  let va := dBase c.da
  match s.readAt c .copyRead (edgeLoc va.toNat) 256 with
  | .error t => if t.cause = .uncorr then .abandoned s t else .stopped s t 0 0
  | .ok bs =>
    let r := BitVec.ofNat 2048 (fromLe bs)
    if recordOk r && c.body.all (formOk r) then
      .done { s with cur := { s.cur with binding := some { va := va, record := r, body := c.body, lastPull := false } } } [] 0
    else .stopped s (cmdTrap c.queue .protv va) 0 0

/-- A field of a record replaced. -/
def gSet (r : BitVec 2048) (off n x : Nat) : BitVec 2048 :=
  (r &&& ~~~(BitVec.ofNat 2048 ((2 ^ (8 * n) - 1) * 2 ^ (8 * off)))) ||| BitVec.ofNat 2048 (x * 2 ^ (8 * off))

/-- ESWP (R316). -/
def runSwapProps (s : State) (c : Command) (pa pb : Nat) : Ran :=
  let bad := cmdTrap c.queue .protv (encode c.instr)
  match s.cur.binding with
  | none => .stopped s bad 0 0
  | some b =>
    let r := b.record
    if gPropByte r pa != gPropByte r pb then .stopped s bad 0 0
    else
      let r' := gSet (gSet r (gPropOff pa) 8 (gPropBase r pb)) (gPropOff pb) 8 (gPropBase r pa)
      .done { s with cur := { s.cur with binding := some { b with record := r' } } } [] 0

/-- EFRNT (R323). -/
def runFrontier (s : State) (c : Command) : Ran :=
  match s.cur.binding with
  | none => .stopped s (cmdTrap c.queue .protv c.scalar) 0 0
  | some b =>
    match slotCounts s c b.va (fld c.scalar 32 32) with
    | .error t => if t.cause = .uncorr then .abandoned s t else .stopped s t 0 0
    | .ok (v, e) =>
      let d := density b.record e
      .done s [BitVec.ofNat 64 (min v (2 ^ 32 - 1) * 2 ^ 32 + (if autoPull b d then 2 else 1) * 2 ^ 30 + d)] 0

/-- What a started E command does. -/
def runEdge (s : State) (c : Command) : Ran :=
  match c.instr with
  | .ebind .. => runBind s c
  | .erun _ oc mode ord _ => runErun s c oc mode ord
  | .eswp _ pa pb => runSwapProps s c pa.toNat pb.toNat
  | .efrnt .. => runFrontier s c
  | _ => .done s [] 0

/-- An ERUN that waits for its contributions. -/
def pollEdge (s : State) (c : Command) : Ran :=
  if s.devs.any fun d => d.held.any fun x => x.gid == s.cur.gid && x.command == some (c.queue, c.num) then .waiting s [] 0
  else .done s [] 0

end Sys2Proof.Machine
end

