-- ==== Sys2Proof/Machine/MatEngine.lean ====
section
/-! DEFINITION. The matrix engine (chapters 09 and 10): the push checks of class 8, operand tiles, accumulator regions,
products, energy-bounded products with their bounds and headers, checksums and teams. -/
namespace Sys2Proof.Machine
open Sys2Proof

/-! ### Formats and groups (07 R169, 09 R199, 10 R216) -/

/-- The accumulator format of an operand format. -/
def accFmtOf (f : BitVec 4) : BitVec 4 := if f == 4 || f == 0 then 2 else if f == 5 then 5 else 6
/-- The number of products summed exactly before one rounding. -/
def groupOf (f : BitVec 4) : Nat := if isBlockFmt f then 128 else if f == 4 then 4 else if f == 0 || f == 9 || f == 10 then 2 else 1
/-- The dense formats of a product. -/
def denseFmt (f : BitVec 4) : Bool := f == 4 || f == 0 || (decide (5 ≤ f.toNat) && decide (f.toNat ≤ 10))
/-- An accumulator format. -/
def regionFmt (f : BitVec 4) : Bool := f == 2 || f == 6 || f == 5
/-- A format of set N (08 R174) that is not a block format. -/
def plainN (f : BitVec 4) : Bool := decide (f.toNat ≤ 10) && f != 4
/-- Quanta per column per pass. -/
def quantaOf (f : BitVec 4) : Nat :=
  if f == 4 || f == 0xB then 1 else if f == 0 || f == 9 || f == 10 || f == 0xC || f == 0xD then 2
  else if f == 7 || f == 8 then 4 else if f == 6 then 16 else 64
def passesOf (m n : Nat) : Nat := ceilDiv m 128 * ceilDiv n 128

/-! ### Push checks (R199-R210, 10 R214, R222, R227) -/

/-- The elements of a stored row: a ranked operand in a block format is stored by outputs, of K elements each (10 R213). -/
def storedCols (d : Desc) : Nat := if hasFlag d flagRanked && isBlockFmt (dFmt d) then dRows d else dCols d

/-- Base and stride are multiples of 8 bytes and stored rows hold whole bytes. -/
def alignedOk (d : Desc) : Bool :=
  (dBase d).toNat % 8 == 0 && dStride d % 8 == 0 && (elemBits (dFmt d) != 4 || storedCols d % 2 == 0)

/-- Rows of the tile of MWR and MRD hold whole bytes; R199's alignment is for the operands of products (DEDUCED, log 25). -/
def wholeRows (d : Desc) : Bool := elemBits (dFmt d) != 4 || dCols d % 2 == 0

/-- An accumulator region (R200); with TEAM its bound applies to each half (R201). -/
def regionOk (d : Desc) (flags : BitVec 8) : Bool :=
  dSpace d == spAcc && regionFmt (dFmt d) && onlyFlags d flags && dMicro d == 0 &&
  (dBase d).toNat % 8 == 0 && dStride d % 8 == 0 &&
  (if hasFlag d flagTeam then
     dFmt d == 5 && accSpanOk d (min (dRows d) 256) && (decide (dRows d ≤ 256) || accSpanOk d (dRows d - 256))
   else accSpanOk d (dRows d))

/-- The scratch operand A of a product, of M × K (its stored shape transposed with TRANSPOSED). -/
def opRows (d : Desc) : Nat := if hasFlag d flagTransposed then dCols d else dRows d
def opCols (d : Desc) : Nat := if hasFlag d flagTransposed then dRows d else dCols d
/-- A ranked operand is rows K and columns M whatever its storage (10 R214). -/
def bK (d : Desc) : Nat := if hasFlag d flagRanked then dRows d else opRows d
def bN (d : Desc) : Nat := if hasFlag d flagRanked then dCols d else opCols d

def blockPair (b c : Desc) : Bool := isBlockFmt (dFmt b) && isBlockFmt (dFmt c)

/-- Formats, block rules and alignment of a pair of scratch operands. -/
def pairOk (b c : Desc) : Bool :=
  dSpace b == spScr && dSpace c == spScr && dMicro b == 0 && dMicro c == 0 && alignedOk b && alignedOk c &&
  (if blockPair b c then
     hasFlag b flagBlockscaled && hasFlag c flagBlockscaled && !hasFlag b flagTransposed && hasFlag c flagTransposed &&
     dCols b % 128 == 0 && (if hasFlag c flagRanked then dRows c % 128 == 0 else dCols c % 128 == 0) &&
     (dAux b).toNat % 2 == 0 && (dAux c).toNat % 2 == 0
   else
     dFmt b == dFmt c && denseFmt (dFmt b) && !hasFlag b flagBlockscaled && !hasFlag c flagBlockscaled &&
     dAux b == 0 && dAux c == 0)

/-- A ranked operand but for its flags (10 R214): scratch, base a multiple of 128. (DEDUCED, log 29)  Of a block format its rows, the K of a record
run, are held to a multiple of 128, and its columns to none: R161 and R213 name the one and the other (DESIGN CHOICE, log 108). -/
def rankedShape (d : Desc) : Bool :=
  dSpace d == spScr && (dBase d).toNat % 128 == 0 && dStride d % 8 == 0 && dMicro d == 0 && (denseFmt (dFmt d) || isBlockFmt (dFmt d)) &&
  (if isBlockFmt (dFmt d) then dRows d % 128 == 0 && (dAux d).toNat % 2 == 0 else dAux d == 0)

/-- A ranked operand that a product reads: TRANSPOSED and BLOCKSCALED just for block formats (R213). -/
def rankedOk (d : Desc) : Bool :=
  rankedShape d && hasFlag d flagTransposed == isBlockFmt (dFmt d) && hasFlag d flagBlockscaled == isBlockFmt (dFmt d)

/-- The ranked operand of MBND, of which no flag but RANKED is set, in a block format too (R227 against R161 and R213; DEDUCED, log 113). -/
def boundOk (d : Desc) : Bool := rankedShape d && dFlags d == flagRanked

/-- The shapes of a product (R196, R199); a command whose operands are all empty has none (02 R50). -/
def shapeOk (a : Desc) (m k k2 n : Nat) : Bool :=
  dEmpty a || dRows a == m && dCols a == n && k == k2 && decide (1 ≤ m) && decide (m ≤ 512) && decide (1 ≤ n) && decide (n ≤ 256) &&
  decide (1 ≤ k)

def productOk (a b c : Desc) (resid : Bool) : Bool :=
  regionOk a (flagTeam ||| (if resid then flagResid else 0)) && dAux a == 0 &&
  onlyFlags b (flagTransposed ||| flagBlockscaled) && onlyFlags c (flagTransposed ||| flagBlockscaled ||| flagRanked) &&
  pairOk b c && (!hasFlag c flagRanked || rankedOk c) && dFmt a == accFmtOf (dFmt b) &&
  (!hasFlag a flagResid || dFmt b == 5) && shapeOk a (opRows b) (opCols b) (bK c) (bN c)

def energyOk (a b c : Desc) : Bool :=
  regionOk a flagTeam && decide (16 ≤ (dBase a).toNat) &&
  onlyFlags b (flagTransposed ||| flagBlockscaled) && onlyFlags c (flagTransposed ||| flagBlockscaled ||| flagRanked) &&
  hasFlag c flagRanked && pairOk b c && rankedOk c && dFmt a == accFmtOf (dFmt b) &&
  shapeOk a (opRows b) (opCols b) (bK c) (bN c)

/-- The formats of compressed sparsity (R205). -/
def sparseFmt (f : BitVec 4) : Bool := f == 0 || f == 9 || f == 10 || f == 7 || f == 8 || f == 6

/-- A plain scratch tile with no flag, microword or aux. -/
def tileOk (d : Desc) : Bool :=
  dSpace d == spScr && dFlags d == 0 && dMicro d == 0 && dAux d == 0 && alignedOk d

/-- The Lipschitz factor of MBND: FP32, finite and not negative (10 R227). -/
def lipschitzOk (x : BitVec 32) : Bool :=
  match fp32.val x.toNat with
  | .fin neg m _ => !neg || m == 0
  | _ => false

/-- The push-time checks of a class 8 word on its snapshot; `md` is the descriptor MMAS names through aux.  The TBL code as MMAC's target is none
of R204's formats: whether a push resolves it there is not stated (02 R31; DESIGN CHOICE, log 112). -/
def matCheck (i : Instr) (a b c md : Desc) : Bool :=
  match i with
  | .mma .. => productOk a b c true
  | .mmaz .. => productOk a b c false
  | .mmac _ _ fmt _ _ _ _ =>
    regionOk a flagTeam && dAux a == 0 && regionOk b 0 && dAux b == 0 &&
    dSpace c == spScr && onlyFlags c flagTransposed && dMicro c == 0 && dAux c == 0 && alignedOk c &&
    dFmt c == fmt && denseFmt fmt && fmt != 5 && dFmt a == accFmtOf fmt &&
    shapeOk a (dRows b) (dCols b) (opRows c) (opCols c)
  | .mmae .. => energyOk a b c
  | .mres .. => energyOk a b c
  | .mbndLyr .. =>
    regionOk a 0 && regionOk c 0 && dAux c == 0 && boundOk b && lipschitzOk (dAux a)
  | .mbndFirst .. => regionOk a 0 && boundOk b && lipschitzOk (dAux a)
  | .mbndSum .. => regionOk a 0 && regionOk b 0 && regionOk c 0 && dAux a == 0 && dAux b == 0 && dAux c == 0
  | .mcomp .. =>
    tileOk a && tileOk b && tileOk c && sparseFmt (dFmt b) && dFmt a == dFmt b && dFmt c == 4 &&
    (dEmpty a || (dRows b % 4 == 0 && dRows a == dRows b / 2 && dCols a == dCols b && dRows c == dRows b / 4 && dCols c == dCols b))
  | .mmas .. =>
    regionOk a flagTeam && dAux a == 0 && tileOk b && dSpace c == spScr && dFlags c == 0 && dMicro c == 0 && alignedOk c &&
    (dAux c).toNat < 32 && tileOk md && dFmt md == 4 && sparseFmt (dFmt b) && dFmt c == dFmt b &&
    dFmt a == accFmtOf (dFmt b) && (dEmpty a || (dCols b % 4 == 0 && dRows md == dCols b / 4 && dCols md == dCols c)) &&
    shapeOk a (dRows b) (dCols b) (2 * dRows c) (dCols c)
  | .mmab .. =>
    regionOk a flagTeam && dAux a == 0 && dSpace b == spScr && dSpace c == spScr && onlyFlags b flagTransposed &&
    onlyFlags c flagTransposed && dMicro b == 0 && dMicro c == 0 && alignedOk b && alignedOk c && dFmt b == dFmt c &&
    denseFmt (dFmt b) && (dAux b).toNat % 8 == 0 && (dAux c).toNat % 8 == 0 && dFmt a == accFmtOf (dFmt b) &&
    shapeOk a (opRows b) (opCols b) (opRows c) (opCols c)
  | .mzero .. => regionOk a flagTeam && dAux a == 0
  | .mwr .. =>
    regionOk a flagTeam && dAux a == 0 && (dSpace b == spScr || (dSpace b == spVrf && vrfOk b false)) &&
    dFlags b == 0 && dMicro b == 0 && dAux b == 0 && wholeRows b && plainN (dFmt b) && (dEmpty a || (dRows a == dRows b && dCols a == dCols b))
  | .mrd .. =>
    regionOk b flagTeam && dAux b == 0 && (dSpace a == spScr || (dSpace a == spVrf && vrfOk a false)) &&
    dFlags a == 0 && dMicro a == 0 && dAux a == 0 && wholeRows a && plainN (dFmt a) && (dEmpty a || (dRows a == dRows b && dCols a == dCols b))
  | .mchk _ _ row _ _ _ =>
    let sum := if row then c else b
    let op := if row then b else c
    regionOk a 0 && dAux a == 0 && tileOk b && tileOk c &&
    (if dFmt a == 2 then (dFmt op == 4 || dFmt op == 0) && dFmt sum == 2
     else decide (5 ≤ (dFmt op).toNat) && denseFmt (dFmt op) && (dFmt sum == 6 || dFmt sum == 5)) &&
    (dEmpty a || if row then dRows b == dRows a && dRows c == dCols b && dCols c == 1
     else dRows b == 1 && dRows c == dCols b && dCols c == dCols a)
  | .mjoinJoin .. => regionOk a 0 && dFmt a == 5 && dAux a == 0
  | .mjoinLeave .. => regionOk a 0 && dFmt a == 5 && dAux a == 0
  | _ => true

/-! ### Reading operands (R199, R205-R207, R212) -/

/-- Where a command reads in scratch: runs of bytes. -/
def tileRuns (d : Desc) (l : Loc) : List (Loc × Nat) := (List.range (dRows d)).map fun r => (rowLoc d l r, rowBytes d)

/-- The start check of a matrix command on runs of scratch: banks, ownership and security (R212). (DEDUCED, log 32) -/
def startCheck (s : State) (q : BitVec 3) (k : AccessKind) : List (Loc × Nat) → Option Trap
  | [] => none
  | (l, n) :: rest =>
    match checkPieces s q k l.kind (pieces l.base n) with
    | .error t => some t
    | .ok _ => startCheck s q k rest

/-- The stored elements of a tile. -/
def readTile (s : State) (c : Command) (d : Desc) (l : Loc) : Except Trap (List (List Nat)) :=
  collect ((List.range (dRows d)).map fun r => s.readRow c .read d l r)

/-- The block records of an operand of `rows` rows of `cols` elements (07 R161). -/
def recordRun (d : Desc) (l : Loc) (rows cols : Nat) : Loc × Nat :=
  (l.shift (toSigned 32 (dAux d).toNat), 2 * (rows * (cols / 128)))

/-- Values of stored rows: by format, or with the records of their blocks. -/
def rowValues (f : BitVec 4) (recs : List Nat) (cols r : Nat) (row : List Nat) : List FpVal :=
  if isBlockFmt f then row.zipIdx.map fun e => blockVal f (recs.getD (r * (cols / 128) + e.2 / 128) 0) e.1
  else row.map (elemVal f)

/-- The values of a scratch operand as it is stored. -/
def readValues (s : State) (c : Command) (d : Desc) (l : Loc) : Except Trap (List (List FpVal)) :=
  match readTile s c d l with
  | .error t => .error t
  | .ok rows =>
    if isBlockFmt (dFmt d) then
      let r := recordRun d l (dRows d) (dCols d)
      (s.readAt c .read r.1 r.2).map fun bs =>
        rows.zipIdx.map fun e => rowValues (dFmt d) (bytesToElems 16 bs) (dCols d) e.2 e.1
    else .ok (rows.zipIdx.map fun e => rowValues (dFmt d) [] (dCols d) e.2 e.1)

def FpVal.zero : FpVal := .fin false 0 0

/-- The A operand by rows of K values. -/
def aRows (d : Desc) (vals : List (List FpVal)) : List (List FpVal) :=
  if hasFlag d flagTransposed then transposeRows FpVal.zero (dCols d) vals else vals
/-- The B operand by columns of K values. -/
def bColumns (d : Desc) (vals : List (List FpVal)) : List (List FpVal) :=
  if hasFlag d flagTransposed then vals else transposeRows FpVal.zero (dCols d) vals

/-- The element bitmap of an operand (R207): where it lies, and its effect on a row. -/
def bitmapRuns (d : Desc) (l : Loc) : List (Loc × Nat) :=
  (List.range (dRows d)).map fun r =>
    (l.shift (toSigned 32 (dAux d).toNat + (r * (ceilDiv (dCols d) 64 * 8) : Nat)), ceilDiv (dCols d) 8)
def maskRow (row : List FpVal) (bits : List Byte) : List FpVal :=
  row.zipIdx.map fun e => if (bits.getD (e.2 / 8) 0).getLsbD (e.2 % 8) then e.1 else FpVal.zero

/-! ### The ranked layout (10 R213-R215) -/

/-- Where the values of a ranked operand of K columns begin. -/
def rankedValues (k : Nat) : Nat := roundUp (32 + 8 * k) 128

/-- The parts of a ranked operand that a command reads: header, P, norms, values and records. -/
def rankedRuns (d : Desc) (l : Loc) : List (Loc × Nat) :=
  let k := dRows d
  let m := dCols d
  let v := l.shift (rankedValues k)
  let w := elemBits (dFmt d)
  (l, 32 + 8 * k) ::
  (if isBlockFmt (dFmt d) then
     (List.range m).map (fun r => (rowLoc d v r, k * w / 8)) ++ [recordRun d l m k]
   else (List.range k).map fun j => (rowLoc d v j, m * w / 8))

/-- The first byte of the header that disagrees with the descriptor (R214). -/
def rankedFault (d : Desc) (h : List Byte) : Option Nat :=
  if fromLe (h.take 4) ≠ dRows d then some 0
  else if fromLe ((h.drop 4).take 4) ≠ dCols d then some 4
  else if (h.getD 8 0).toNat ≠ (dFmt d).toNat then some 8
  else ((List.range 7).map (· + 9) ++ (List.range 8).map (· + 24)).find? fun k => h.getD k 0 != 0

/-- The entries of P from column `from` that lie outside 0 to K − 1: the offset of the first. -/
def permFault (k start : Nat) (p : List Nat) : Option Nat :=
  ((List.range k).drop start).find? fun j => decide (k ≤ p.getD j 0)

/-- A ranked operand as read. -/
structure Ranked where
  perm  : List Nat
  norms : List Nat
  cols  : List (List FpVal)
  deriving DecidableEq, Repr

/-- Reads the fed part of a ranked operand: P from column `lo`, the norms where they are asked for, and by output the values of columns
`lo` to `hi - 1`. -/
def readRanked (s : State) (c : Command) (d : Desc) (l : Loc) (norms : Bool) (lo hi : Nat) : Except Trap Ranked :=
  let k := dRows d
  let m := dCols d
  let w := elemBits (dFmt d)
  let v := l.shift (rankedValues k)
  let values : Except Trap (List (List FpVal)) :=
    if isBlockFmt (dFmt d) then
      let at_ := lo * w / 8  -- the byte of column `lo`, whose code may be the byte's upper half
      collect ((List.range m).map fun r =>
        match s.readAt c .read ((recordRun d l m k).1.shift (2 * (r * (k / 128) + lo / 128) : Nat)) (2 * (ceilDiv hi 128 - lo / 128)),
              s.readAt c .read ((rowLoc d v r).shift (at_ : Nat)) (ceilDiv (hi * w) 8 - at_) with
        | .error t, _ => .error t
        | _, .error t => .error t
        | .ok recs, .ok bs =>
          let rs := bytesToElems 16 recs
          .ok ((((bytesToElems w bs).drop (lo - at_ * 8 / w)).take (hi - lo)).zipIdx.map fun e =>
            blockVal (dFmt d) (rs.getD ((lo + e.2) / 128 - lo / 128) 0) e.1))
    else
      (collect (((List.range hi).drop lo).map fun j =>
        (s.readAt c .read (rowLoc d v j) (ceilDiv (m * w) 8)).map fun bs =>
          ((bytesToElems w bs).take m).map (elemVal (dFmt d)))).map (transposeRows FpVal.zero m)
  match s.readAt c .read (l.shift (32 + 4 * lo : Nat)) (4 * (k - lo)),
        s.readAt c .read (l.shift (32 + 4 * k : Nat)) (if norms then 4 * k else 0), values with
  | .error t, _, _ => .error t
  | _, .error t, _ => .error t
  | _, _, .error t => .error t
  | .ok p, .ok n, .ok cols =>
    .ok { perm := List.replicate lo 0 ++ bytesToElems 32 p, norms := bytesToElems 32 n, cols := cols }

/-- The checks of R214 on the header at the start of a command. -/
def headerCheck (s : State) (c : Command) (d : Desc) (l : Loc) : Option Trap :=
  match s.readAt c .read l 32 with
  | .error t => some t
  | .ok h => (rankedFault d h).map fun k => accessTrap c.queue .read .protv (BitVec.ofInt 64 (l.base + k))

/-- The checks of R214 on P from the command's starting column. -/
def permCheck (s : State) (c : Command) (d : Desc) (l : Loc) (start : Nat) : Option Trap :=
  match s.readAt c .read (l.shift (32 + 4 * start : Nat)) (4 * (dRows d - start)) with
  | .error t => some t
  | .ok p => (permFault (dRows d) start (List.replicate start 0 ++ bytesToElems 32 p)).map fun j =>
      accessTrap c.queue .read .protv (BitVec.ofInt 64 (l.base + 32 + (4 * j : Nat)))

/-- A row of A in ranked order. -/
def permuteRow (perm : List Nat) (row : List FpVal) : List FpVal := perm.map fun p => row.getD p FpVal.zero

/-! ### Accumulation (07 R167-R171) -/

def FpVal.toInt : FpVal → Int
  | .fin n m e => signedAt n m e 0
  | _ => 0

/-- The exact integer sum of products, modulo 2^32 (R170). -/
def intGroup (acc : Nat) (xs ys : List FpVal) : Nat :=
  truncInt 32 ((xs.zip ys).foldl (fun (t : Int) p => t + p.1.toInt * p.2.toInt) (toSigned 32 acc))

/-- The exact sum of a group's products. -/
def groupSum (xs ys : List FpVal) : FpVal × Flags :=
  let p := products xs ys
  let g := sumExact p.1
  (g.1, p.2 ||| g.2)

/-- One group onto an accumulator (R169); `resid` subtracts it (R171). -/
def accGroup (f : BitVec 4) (resid : Bool) (acc : Nat) (xs ys : List FpVal) : Nat × Flags :=
  match floatOf f with
  | none => (intGroup acc xs ys, 0)
  | some sp =>
    let g := groupSum xs ys
    let r := sp.rne g.1
    let x := if resid then (sp.val r.1).neg else sp.val r.1
    let a := sp.accumulate acc x
    (a.1, g.2 ||| r.2 ||| a.2)

def accGroups (f : BitVec 4) (resid : Bool) : Nat → List (List FpVal × List FpVal) → Nat × Flags
  | acc, [] => (acc, 0)
  | acc, g :: rest =>
    let a := accGroup f resid acc g.1 g.2
    let t := accGroups f resid a.1 rest
    (t.1, a.2 ||| t.2)

/-- A row of A times a column of B onto an accumulator, in groups of `n`. -/
def accumulateAll (f : BitVec 4) (resid : Bool) (n acc : Nat) (xs ys : List FpVal) : Nat × Flags :=
  accGroups f resid acc ((chunks n xs).zip (chunks n ys))

/-- The result of a product: for each row of A and column of B, onto `init`. -/
def productRows (f : BitVec 4) (resid : Bool) (n : Nat) (as bs : List (List FpVal)) (init : Nat → Nat → Nat) :
    List (List Nat) × Flags :=
  let rows := as.zipIdx.map fun a => bs.zipIdx.map fun b => accumulateAll f resid n (init a.2 b.2) a.1 b.1
  (rows.map fun r => r.map (·.1), rows.foldl (fun g r => r.foldl (fun g x => g ||| x.2) g) 0)

/-! ### Accumulator regions (R200, R201) -/

/-- The quire whose store holds row `i` of a region, and the row there. -/
def regionRowAt (g : Gid) (d : Desc) (i : Nat) : Gid × Nat :=
  if hasFlag d flagTeam && decide (256 ≤ i) then (g ||| 1, i - 256) else (g, i)

def State.regionElem (s : State) (d : Desc) (i j : Nat) : Nat :=
  let (g, r) := regionRowAt s.cur.gid d i
  let e := elemBits (dFmt d) / 8
  let a := ((dBase d).toNat + r * dStride d + (j * e : Nat)).toNat
  fromLe ((List.range e).map fun k => (s.unitAt g).accByte (a + k))

def State.regionRows (s : State) (d : Desc) : List (List Nat) :=
  (List.range (dRows d)).map fun i => (List.range (dCols d)).map fun j => s.regionElem d i j

def State.putAcc (s : State) (g : Gid) (a : Nat) (data : List Byte) : State :=
  let u := s.unitAt g
  s.setUnit { u with acc := u.acc.write (accAddr a) data }

/-- Writes a block of elements whose first one is (`i`, `j`). -/
def State.putBlock (s : State) (d : Desc) (i j : Nat) (rows : List (List Nat)) : State :=
  rows.zipIdx.foldl (fun s e =>
    let (g, r) := regionRowAt s.cur.gid d (i + e.2)
    s.putAcc g ((dBase d).toNat + r * dStride d + (j * (elemBits (dFmt d) / 8) : Nat)).toNat (elemsToBytes (elemBits (dFmt d)) e.1)) s
def State.putRegion (s : State) (d : Desc) (rows : List (List Nat)) : State := s.putBlock d 0 0 rows

/-- Free values in a region whose elements a stop leaves undefined (R212). -/
def State.blurRegion (s : State) (d : Desc) : State :=
  let w := elemBits (dFmt d)
  let rows := (List.range (dRows d)).map fun i => (List.range (dCols d)).map fun j =>
    fld (Config.freeWord (s.free + i * dCols d + j)) 0 w
  { s.putRegion d rows with free := s.free + dRows d * dCols d }

/-- A TEAM command needs a join in effect on the lead with the same base and stride; a partner's own commands keep
off the lent region (R201).  Answers the trap at start. -/
def teamCheck (s : State) (q : BitVec 3) (d : Desc) : Option Trap :=
  let u := s.cur
  if hasFlag d flagTeam then
    match u.join with
    | some j => if j.lead && j.base == dBase d && toSigned 32 j.stride.toNat == dStride d then none
                else some (cmdTrap q .protv (dBase d))
    | none => some (cmdTrap q .protv (dBase d))
  else if (List.range (dRows d)).any fun r => u.lent ((dBase d).toNat + r * dStride d) (rowBytes d) then
    some (cmdTrap q .protv (dBase d))
  else none
/-- The same of the resume header below a region. -/
def headerLent (s : State) (q : BitVec 3) (d : Desc) : Option Trap :=
  if s.cur.lent ((dBase d).toNat - 16) 16 then some (cmdTrap q .protv (dBase d)) else none

/-- The slip a product ORs into MSLIP (R198). (DESIGN CHOICE, log 76) -/
def State.slipped (s : State) : State :=
  { s with cur := { s.cur with mslip := s.cur.mslip ||| BitVec.ofNat 64 (Config.slip s.free % 9) }, free := s.free + 1 }

/-! ### Products (R203-R207) -/

/-- What ends a matrix command that cannot read its operands: a fault at start stops it; poison met during the feed
abandons it and leaves the region undefined (R212). -/
def matStop (s : State) (d : Desc) (t : Trap) : Ran :=
  if t.cause = .uncorr then .abandoned (s.blurRegion d) t else .stopped s t 0 0
/-- The same of a command that writes no region. -/
def readStop (s : State) (t : Trap) : Ran := if t.cause = .uncorr then .abandoned s t else .stopped s t 0 0

/-- The passes over a region of `m` rows and `n` columns, in order, each by its first row and column (R196). -/
def passList (m n : Nat) : List (Nat × Nat) :=
  (List.range (ceilDiv m 128)).flatMap fun u => (List.range (ceilDiv n 128)).map fun w => (128 * u, 128 * w)

/-- One pass: its elements accumulate onto the region as the passes before it left it, and are written when it completes (R200, R203). -/
def passProduct (a : Desc) (resid : Bool) (n : Nat) (fresh : Bool) (as bs : List (List FpVal)) (x : State × Flags) (p : Nat × Nat) : State × Flags :=
  let r := productRows (dFmt a) resid n ((as.drop p.1).take 128) ((bs.drop p.2).take 128) fun i j =>
    if fresh then 0 else x.1.regionElem a (p.1 + i) (p.2 + j)
  (x.1.putBlock a p.1 p.2 r.1, x.2 ||| r.2)

/-- All passes of a product. -/
def allPasses (a : Desc) (resid : Bool) (n : Nat) (fresh : Bool) (as bs : List (List FpVal)) (x : State × Flags) : State × Flags :=
  (passList (dRows a) (dCols a)).foldl (passProduct a resid n fresh as bs) x

/-- A product of rows and columns that are already in the order of K. -/
def finishProduct (s : State) (a : Desc) (f : BitVec 4) (fresh : Bool) (as bs : List (List FpVal)) : Ran :=
  let resid := hasFlag a flagResid
  let r := allPasses a resid (if resid then 8 else groupOf f) fresh as bs (s.slipped, 0)
  .done r.1 [] r.2

def scrLoc (d : Desc) : Loc := { kind := .sram 1 0 (2 ^ 24), base := (dBase d).toNat }

/-- The runs of an operand that is not ranked. -/
def operandRuns (d : Desc) : List (Loc × Nat) :=
  tileRuns d (scrLoc d) ++ (if isBlockFmt (dFmt d) then [recordRun d (scrLoc d) (dRows d) (dCols d)] else [])

/-- MMA and MMAZ. -/
def runProduct (s : State) (c : Command) (fresh : Bool) : Ran :=
  let q := c.queue
  let ranked := hasFlag c.dc flagRanked
  match startCheck s q .read (operandRuns c.db ++ if ranked then rankedRuns c.dc (scrLoc c.dc) else operandRuns c.dc) with
  | some t => .stopped s t 0 0
  | none =>
    match teamCheck s q c.da with
    | some t => .stopped s t 0 0
    | none =>
      if ranked then
        match (headerCheck s c c.dc (scrLoc c.dc)).or (permCheck s c c.dc (scrLoc c.dc) 0) with
        | some t => matStop s c.da t
        | none =>
          match readValues s c c.db (scrLoc c.db), readRanked s c c.dc (scrLoc c.dc) false 0 (dRows c.dc) with
          | .ok x, .ok y => finishProduct s c.da (dFmt c.db) fresh ((aRows c.db x).map (permuteRow y.perm)) y.cols
          | .error t, _ => matStop s c.da t
          | _, .error t => matStop s c.da t
      else
        match readValues s c c.db (scrLoc c.db), readValues s c c.dc (scrLoc c.dc) with
        | .ok x, .ok y => finishProduct s c.da (dFmt c.db) fresh (aRows c.db x) (bColumns c.dc y)
        | .error t, _ => matStop s c.da t
        | _, .error t => matStop s c.da t

/-- The down-converter of MMAC (R204). -/
def downConvert (region target : BitVec 4) (sat : Bool) (scale : BitVec 32) (x : Nat) : Nat × Flags :=
  let p := (elemVal region x).mul (fp32.val scale.toNat)
  let r := elemConvert target .rne sat p.1
  (r.1, p.2 ||| r.2)

def runChained (s : State) (c : Command) (target : BitVec 4) (sat : Bool) : Ran :=
  let q := c.queue
  match startCheck s q .read (operandRuns c.dc) with
  | some t => .stopped s t 0 0
  | none =>
    match (teamCheck s q c.da).or (teamCheck s q c.db) with
    | some t => .stopped s t 0 0
    | none =>
      match readValues s c c.dc (scrLoc c.dc) with
      | .error t => matStop s c.da t
      | .ok y =>
        let conv := (s.regionRows c.db).map fun r => r.map (downConvert (dFmt c.db) target sat (dScale c.db))
        let fl := conv.foldl (fun g r => r.foldl (fun g x => g ||| x.2) g) (0 : Flags)
        match finishProduct s c.da target false (conv.map fun r => r.map fun x => elemVal target x.1) (bColumns c.dc y) with
        | .done s' rs g => .done s' rs (g ||| fl)
        | r => r

/-- The rebuilt column of a compressed operand (R206): kept values and metadata nibbles by groups of four rows. -/
def rebuildColumn (kept : List FpVal) (nibbles : List Nat) : List FpVal :=
  nibbles.zipIdx.flatMap fun e =>
    let v0 := kept.getD (2 * e.2) FpVal.zero
    let v1 := kept.getD (2 * e.2 + 1) FpVal.zero
    (List.range 4).map fun k => if e.1 / 4 % 4 = k then v1 else if e.1 % 4 = k then v0 else FpVal.zero

def runSparse (s : State) (c : Command) : Ran :=
  let q := c.queue
  match startCheck s q .read (operandRuns c.db ++ operandRuns c.dc ++ operandRuns c.extra) with
  | some t => .stopped s t 0 0
  | none =>
    match teamCheck s q c.da with
    | some t => .stopped s t 0 0
    | none =>
      match readValues s c c.db (scrLoc c.db), readValues s c c.dc (scrLoc c.dc), readTile s c c.extra (scrLoc c.extra) with
      | .ok x, .ok y, .ok z =>
        let cols := (transposeRows FpVal.zero (dCols c.dc) y).zip (transposeRows 0 (dCols c.dc) z)
        finishProduct s c.da (dFmt c.db) false x (cols.map fun p => rebuildColumn p.1 p.2)
      | .error t, _, _ => matStop s c.da t
      | _, .error t, _ => matStop s c.da t
      | _, _, .error t => matStop s c.da t

def runBitmap (s : State) (c : Command) : Ran :=
  let q := c.queue
  let mapRuns (d : Desc) := bitmapRuns d (scrLoc d)
  match startCheck s q .read (operandRuns c.db ++ mapRuns c.db ++ operandRuns c.dc ++ mapRuns c.dc) with
  | some t => .stopped s t 0 0
  | none =>
    match teamCheck s q c.da with
    | some t => .stopped s t 0 0
    | none =>
      let bits (d : Desc) := collect ((mapRuns d).map fun r => s.readAt c .read r.1 r.2)
      let masked (rows : List (List FpVal)) (ms : List (List Byte)) := (rows.zip ms).map fun p => maskRow p.1 p.2
      match readValues s c c.db (scrLoc c.db), bits c.db, readValues s c c.dc (scrLoc c.dc), bits c.dc with
      | .ok x, .ok mx, .ok y, .ok my =>
        finishProduct s c.da (dFmt c.db) false (aRows c.db (masked x mx)) (bColumns c.dc (masked y my))
      | .error t, _, _, _ => matStop s c.da t
      | _, .error t, _, _ => matStop s c.da t
      | _, _, .error t, _ => matStop s c.da t
      | _, _, _, .error t => matStop s c.da t

/-! ### MCOMP (R205) -/

/-- Whether element `x` comes strictly before `y` in magnitude: NaN, then infinity, then the finite values. -/
def magBefore (f : BitVec 4) (x y : Nat) : Bool :=
  let p := elemVal f x
  let q := elemVal f y
  if p.isNan then !q.isNan
  else if q.isNan then false
  else q.abs.lt p.abs

/-- The index of the largest of a group other than `skip`, the lowest among equals. -/
def largest (f : BitVec 4) (g : List Nat) (skip : Option Nat) : Nat :=
  (List.range 4).foldl (fun best k =>
    if skip == some k then best
    else if skip == some best then k
    else if magBefore f (g.getD k 0) (g.getD best 0) then k else best) 0

/-- The two kept indices of a group of four, ascending. -/
def keptPair (f : BitVec 4) (g : List Nat) : Nat × Nat :=
  let i := largest f g none
  let j := largest f g (some i)
  (min i j, max i j)

/-- The rows of a tile as writes, numbered from `first`. -/
def tileRows (d : Desc) (l : Loc) (rows : List (List Nat)) (first : Nat) : List (Loc × List Byte × Nat) :=
  rows.zipIdx.map fun x => (rowLoc d l x.2, elemsToBytes (elemBits (dFmt d)) x.1, first + x.2)

/-- The writes of a command, from the one it goes on with; a fault leaves none of them. -/
def writeTile (c : Command) (cls : BitVec 4) (ws : List (Loc × List Byte × Nat)) (s : State) : Except (State × Trap × Nat) State :=
  let rec go : List (Loc × List Byte × Nat) → State → Except (State × Trap × Nat) State
    | [], s => .ok s
    | (l, data, k) :: rest, s' =>
      match s'.writeAt c cls .store l data with
      | .error (t, s') => .error (if t.cause = .bufferFull then s' else s, t, t.restart k)
      | .ok s' => go rest s'
  go (ws.drop c.unit) s

def runCompress (s : State) (c : Command) (cls : BitVec 4) : Ran :=
  let q := c.queue
  match (startCheck s q .read (operandRuns c.db)).or (startCheck s q .store (operandRuns c.da ++ operandRuns c.dc)) with
  | some t => .stopped s t 0 0
  | none =>
    match readTile s c c.db (scrLoc c.db) with
    | .error t => readStop s t
    | .ok rows =>
      let f := dFmt c.db
      let groups := chunks 4 rows
      let picks := groups.map fun g => (transposeRows 0 (dCols c.db) g).map fun col => (col, keptPair f col)
      let values := picks.flatMap fun r =>
        [r.map fun p => p.1.getD p.2.1 0, r.map fun p => p.1.getD p.2.2 0]
      let metas := picks.map fun r => r.map fun p => p.2.1 + 4 * p.2.2
      match writeTile c cls (tileRows c.da (scrLoc c.da) values 0 ++ tileRows c.dc (scrLoc c.dc) metas values.length) s with
      | .error (s', t, k) => .stopped s' t k 0
      | .ok s' => .done s' [] 0

/-! ### Writing and reading regions (R208, R209) -/

def runZero (s : State) (c : Command) : Ran :=
  match teamCheck s c.queue c.da with
  | some t => .stopped s t 0 0
  | none => .done (s.putRegion c.da (List.replicate (dRows c.da) (List.replicate (dCols c.da) 0))) [] 0

def matPlace (d : Desc) : Loc :=
  if dSpace d = spVrf then { kind := .vrf, base := 512 * (dBase d).toNat } else scrLoc d

def runWriteRegion (s : State) (c : Command) : Ran :=
  let q := c.queue
  match (startCheck s q .read (tileRuns c.db (matPlace c.db))).or (teamCheck s q c.da) with
  | some t => .stopped s t 0 0
  | none =>
    match readTile s c c.db (matPlace c.db) with
    | .error t => matStop s c.da t
    | .ok rows =>
      let conv := rows.map fun r => r.map fun x => elemConvert (dFmt c.da) .rne false (elemVal (dFmt c.db) x)
      .done (s.putRegion c.da (conv.map fun r => r.map (·.1))) []
        (conv.foldl (fun g r => r.foldl (fun g x => g ||| x.2) g) 0)

/-- One element of MRD: the exact product with `t`, converted once. -/
def readOut (region target : BitVec 4) (sat : Bool) (t x : Nat) : Nat × Flags :=
  let p := (elemVal region x).mul (fp32.val t)
  let r := elemConvert target .rne sat p.1
  (r.1, p.2 ||| r.2)

def runReadRegion (s : State) (c : Command) (cls : BitVec 4) (sat clr : Bool) : Ran :=
  let q := c.queue
  match (startCheck s q .store (tileRuns c.da (matPlace c.da))).or (teamCheck s q c.db) with
  | some t => .stopped s t 0 0
  | none =>
    let p := (fp32.val (fld c.scalar 32 32)).mul (fp32.val (fld c.scalar 0 32))
    let t := fp32.rne p.1
    let conv := (s.regionRows c.db).map fun r => r.map (readOut (dFmt c.db) (dFmt c.da) sat t.1)
    let fl := conv.foldl (fun g r => r.foldl (fun g x => g ||| x.2) g) (p.2 ||| t.2)
    match writeTile c cls (tileRows c.da (matPlace c.da) (conv.map fun r => r.map (·.1)) 0) s with
    | .error (s', t, k) => .stopped s' t k 0
    | .ok s' =>
      .done (if clr then s'.putRegion c.db (List.replicate (dRows c.db) (List.replicate (dCols c.db) 0)) else s') [] fl

/-! ### MCHK (R210, R211) -/

/-- The class of one comparison: 0 failed, 1 unchecked, 2 passed. -/
def checkOne (region sum : BitVec 4) (k extent : Nat) (xs ys obs : List FpVal) : Nat :=
  if region == 2 then
    let ref := intGroup 0 xs ys
    let o := truncInt 32 (obs.foldl (fun (t : Int) x => t + x.toInt) 0)
    if ref = o then 2 else 0
  else if (xs ++ ys ++ obs).any fun x => x.isNan || x.isInf then 1
  else
    let prods := (products xs ys).1
    let diff := ((sumExact obs).1.add false (sumExact prods).1.neg).1.abs
    let p : Int := if region == 6 || sum == 6 then 24 else 53
    let mags := sumExact (prods.map FpVal.abs ++ obs.map FpVal.abs)
    let limit := ((FpVal.ofInt (k + extent + 2)).mul mags.1).1.scale (-p)
    if limit.lt diff then 0 else 2

def runCheck (s : State) (c : Command) (row : Bool) : Ran :=
  let q := c.queue
  match (startCheck s q .read (operandRuns c.db ++ operandRuns c.dc)).or (teamCheck s q c.da) with
  | some t => .stopped s t 0 0
  | none =>
    match readValues s c c.db (scrLoc c.db), readValues s c c.dc (scrLoc c.dc) with
    | .ok x, .ok y =>
      let region := (s.regionRows c.da).map fun r => r.map (elemVal (dFmt c.da))
      let k := dCols c.db
      let results :=
        if row then
          let w := y.map fun r => r.headD FpVal.zero
          (x.zip region).map fun p => checkOne (dFmt c.da) (dFmt c.dc) k (dCols c.da) p.1 w p.2
        else
          let cols := (transposeRows FpVal.zero (dCols c.dc) y).zip (transposeRows FpVal.zero (dCols c.da) region)
          cols.map fun p => checkOne (dFmt c.da) (dFmt c.db) k (dRows c.da) (x.headD []) p.1 p.2
      let count (v : Nat) := (results.filter (· == v)).length
      let low := (results.findIdx? (· == 0)).getD 0xFFFF
      .done s [BitVec.ofNat 64 (count 0 * 2 ^ 48 + count 1 * 2 ^ 32 + count 2 * 2 ^ 16 + low)] 0
    | .error t, _ => readStop s t
    | _, .error t => readStop s t

/-! ### Energy-bounded products (10 R216-R227) -/

/-- The resume header below a region, as a number of 128 bits (R221). -/
def State.header (s : State) (d : Desc) : Nat :=
  fromLe ((List.range 16).map fun k => s.cur.accByte ((dBase d).toNat - 16 + k))
def headerOf (eps : Nat) (comp valid : Bool) (k kk : Nat) : Nat :=
  eps * 2 ^ 64 + (if comp then 2 ^ 57 else 0) + (if valid then 2 ^ 56 else 0) + k * 2 ^ 32 + kk
def hEps (h : Nat) : Nat := h / 2 ^ 64
def hComposed (h : Nat) : Bool := h / 2 ^ 57 % 2 == 1
def hValid (h : Nat) : Bool := h / 2 ^ 56 % 2 == 1
def hk (h : Nat) : Nat := h / 2 ^ 32 % 2 ^ 24
def hK (h : Nat) : Nat := h % 2 ^ 24
def hReserved (h : Nat) : Bool := h / 2 ^ 58 % 64 != 0 || h / 2 ^ 24 % 256 != 0
def State.putHeader (s : State) (d : Desc) (h : Nat) : State :=
  s.putAcc s.cur.gid ((dBase d).toNat - 16) (leBytes 16 h)

/-- A norm as this chapter reads it: negative, NaN or infinite counts as +Inf (R215). -/
def normVal (f : FSpec) (x : Nat) : FpVal :=
  match f.val x with
  | .fin neg m e => if neg && m != 0 then .inf false else .fin false m e
  | _ => .inf false

/-- The columns that a budget buys from column `k`: how many steps, and what is left (R216, R217). -/
def spend (u cost1 kk : Nat) : Nat → Nat → Nat → Nat × Nat
  | 0, k, e => (k, e)
  | fuel + 1, k, e =>
    let w := min u (kk - k)
    if kk ≤ k ∨ e < w * cost1 then (k, e) else spend u cost1 kk fuel (k + w) (e - w * cost1)

/-- `b + |x|·c` rounded up twice. -/
def rupStep (b : Nat) (c a : FpVal) : Nat :=
  let t := (fp64.round .rup false (c.mul a.abs).1).1
  (fp64.round .rup false ((fp64.val b).add false (fp64.val t)).1).1

/-- The residual bound over rows already in ranked order (R218). -/
def residualBound (k : Nat) (norms : List FpVal) (rows : List (List FpVal)) : Nat :=
  let bad := rows.any fun r => ((norms.zip r).drop k).any fun p => p.1.isInf || p.2.isNan || p.2.isInf
  if bad then fp64.infBits false
  else
    let bounds := rows.map fun r => ((norms.zip r).drop k).foldl (fun b p => rupStep b p.1 p.2) 0
    bounds.foldl max 0

/-- The coverage at `k` (R219). -/
def coverage (k : Nat) (norms : List FpVal) : Nat :=
  if norms.any FpVal.isInf then (if k = norms.length then 65536 else 0)
  else
    let low : Int := norms.foldl (fun t x => match x with | .fin _ m e => if m = 0 then t else min t e | _ => t) 0
    let total (xs : List FpVal) : Nat := (xs.foldl (fun (t : Int) x => match x with | .fin n m e => if m = 0 then t else t + signedAt n m e low | _ => t) 0).toNat
    if total norms = 0 then 65536 else 65536 * total (norms.take k) / total norms

/-- Poison met during the feed leaves the resume header undefined too (R226). -/
def energyStop (s : State) (d : Desc) (t : Trap) : Ran :=
  if t.cause = .uncorr then
    let s := s.blurRegion d
    .abandoned { s.putHeader d ((Config.freeWord s.free).toNat + 2 ^ 64 * (Config.freeWord (s.free + 1)).toNat) with free := s.free + 2 } t
  else .stopped s t 0 0

/-- The steps of an energy-bounded product, from column `lo` on: in each, every pass adds the step's columns as one group (R223). -/
def energySteps (d : Desc) (n : Nat) (as bs : List (List FpVal)) : Nat → Nat → State × Flags → State × Flags
  | 0, _, x => x
  | fuel + 1, lo, x =>
    let cut (xs : List FpVal) : List FpVal := (xs.drop lo).take n
    energySteps d n as bs fuel (lo + n) (allPasses d false n false (as.map cut) (bs.map cut) x)

def runEnergy (s : State) (c : Command) (resume : Bool) : Ran :=
  let q := c.queue
  let d := c.da
  let f := dFmt c.dc
  let kk := dRows c.dc
  match ((startCheck s q .read (operandRuns c.db ++ rankedRuns c.dc (scrLoc c.dc))).or (teamCheck s q d)).or (headerLent s q d) with
  | some t => .stopped s t 0 0
  | none =>
    match headerCheck s c c.dc (scrLoc c.dc) with
    | some t => energyStop s d t
    | none =>
      let h := s.header d
      if resume && (!hValid h || hK h == 0 || hK h != kk || decide (hK h < hk h) || hReserved h) then
        .stopped s (cmdTrap q .protv (dBase d - 16)) 0 0
      else
        let k0 := if resume then hk h else 0
        match permCheck s c c.dc (scrLoc c.dc) k0 with
        | some t => energyStop s d t
        | none =>
          let (k1, left) := spend (groupOf f) (quantaOf f * passesOf (dRows d) (dCols d)) kk kk k0 (dAux d).toNat
          match readValues s c c.db (scrLoc c.db), readRanked s c c.dc (scrLoc c.dc) true k0 k1 with
          | .ok x, .ok y =>
            let rows := (aRows c.db x).map (permuteRow y.perm)
            let s1 := if resume then s.slipped else s.slipped.putRegion d (List.replicate (dRows d) (List.replicate (dCols d) 0))
            let r := energySteps d (groupOf f) (rows.map fun xs => (xs.take k1).drop k0) y.cols (ceilDiv (k1 - k0) (groupOf f)) 0 (s1, 0)
            let norms := y.norms.map (normVal fp32)
            let eps := residualBound k1 norms rows
            .done (r.1.putHeader d (headerOf eps false true k1 kk))
              [BitVec.ofNat 64 (k1 * 2 ^ 32 + kk), BitVec.ofNat 64 eps, BitVec.ofNat 64 (left * 2 ^ 32 + coverage k1 norms)] r.2
          | .error t, _ => energyStop s d t
          | _, .error t => energyStop s d t

/-- `RUP64` of a product or sum of non-negative values; `0 × ∞` gives +Inf (R227). -/
def rupMul (x y : FpVal) : FpVal :=
  match x.mul y with
  | (.nan _, _) => .inf false
  | (p, _) => fp64.val (fp64.round .rup false p).1
def rupAdd (x y : FpVal) : FpVal := fp64.val (fp64.round .rup false (x.add false y).1).1

/-- An ε as it is read; a NaN makes the bound +Inf (R227). -/
def epsVal (h : Nat) : FpVal := fp64.val (hEps h)

/-- The end of MBND: the header and one reply entry. (DEDUCED, log 30) -/
def finishBound (s : State) (d : Desc) (e : FpVal) (k kk : Nat) : Ran :=
  let bits := (fp64.round .rup false (if e.isNan then .inf false else e)).1
  .done (s.putHeader d (headerOf bits true true k kk)) [BitVec.ofNat 64 bits] 0

def headerTrap (q : BitVec 3) (d : Desc) : Trap := cmdTrap q .protv (dBase d - 16)
def headerIn (d : Desc) : Bool := decide (16 ≤ (dBase d).toNat) && decide ((dBase d).toNat ≤ accSize)

/-- The start checks of a header that MBND reads or writes: it lies in the store, and is not lent to the lead (R201, R227). -/
def boundTrap (s : State) (q : BitVec 3) (d : Desc) (ok : Bool) : Option Trap :=
  (headerLent s q d).or (if headerIn d && ok then none else some (headerTrap q d))

def runBoundLayer (s : State) (c : Command) (first : Bool) : Ran :=
  let q := c.queue
  match startCheck s q .read (rankedRuns c.db (scrLoc c.db)) with
  | some t => .stopped s t 0 0
  | none =>
    match s.readAt c .read (scrLoc c.db) 32 with
    | .error t => readStop s t
    | .ok hb =>
      match rankedFault c.db hb with
      | some k => .stopped s (accessTrap q .read .protv (BitVec.ofInt 64 ((scrLoc c.db).base + k))) 0 0
      | none =>
        let ha := s.header c.da
        let hc := s.header c.dc
        match (boundTrap s q c.da (hValid ha && !hComposed ha && hK ha != 0)).or
              (if first then none else boundTrap s q c.dc (hValid hc)) with
        | some t => .stopped s t 0 0
        | none =>
          let rho := normVal fp64 (fromLe ((hb.drop 16).take 8))
          let ein := if first then FpVal.zero else epsVal hc
          let e := rupMul (fp32.val (dAux c.da).toNat) (rupAdd (rupMul rho ein) (epsVal ha))
          finishBound s c.da e (hk ha) (hK ha)

def runBoundSum (s : State) (c : Command) : Ran :=
  let hb := s.header c.db
  let hc := s.header c.dc
  match ((boundTrap s c.queue c.db (hValid hb)).or (boundTrap s c.queue c.dc (hValid hc))).or (boundTrap s c.queue c.da true) with
  | some t => .stopped s t 0 0
  | none => finishBound s c.da (rupAdd (epsVal hb) (epsVal hc)) 0 0

/-! ### MJOIN (R201) -/

def joinOf (g : Gid) (d : Desc) : TeamJoin :=
  { lead := !g.getLsbD 0, base := dBase d, stride := d.extractLsb' 104 32, columns := d.extractLsb' 136 24,
    rows := d.extractLsb' 160 24 }
/-- Two quires name the region with equal base, stride and columns. -/
def TeamJoin.matches (x y : TeamJoin) : Bool := x.base == y.base && x.stride == y.stride && x.columns == y.columns

def partnerGid (g : Gid) : Gid := g ^^^ 1

/-- A started command has waited for its peer, and the peer's start has ended the wait. -/
def peerCame (u : Unit) (c : Command) : Bool :=
  u.joining.isNone && u.inflight.any fun y => y.command.queue == c.queue && y.command.num == c.num && y.waiting

/-- MJOIN .join (R201).  Joins that name unequal regions, or that quires of different tasks make, wait on: no outcome is stated (DESIGN CHOICE,
log 111). -/
def runJoin (s : State) (c : Command) : Ran :=
  let u := s.cur
  let j := joinOf u.gid c.da
  let p := s.unitAt (partnerGid u.gid)
  if peerCame u c then .done s [] 0
  else
    match p.joining with
    | some (true, k) =>
      if k.matches j && p.task == u.task then
        let s := { s with cur := { u with join := some j, joining := none } }
        .done (s.setUnit { p with join := some k, joining := none }) [] 0
      else .waiting { s with cur := { u with joining := some (true, j) } } [] 0
    | _ => .waiting { s with cur := { u with joining := some (true, j) } } [] 0

/-- Whether a started lead command on the team region has not retired. -/
def leadBusy (s : State) (g : Gid) : Bool :=
  (s.unitAt (g &&& 0xFFFE)).inflight.any fun x =>
    x.command.queue == 3 && (hasFlag x.command.da flagTeam || hasFlag x.command.db flagTeam)

/-- MJOIN .leave (R201).  Leaves that agree end the join, also where they name another region than the joined one; leaves that do not agree wait
(DESIGN CHOICE, log 111). -/
def runLeave (s : State) (c : Command) : Ran :=
  let u := s.cur
  let j := joinOf u.gid c.da
  let p := s.unitAt (partnerGid u.gid)
  if peerCame u c then .done s [] 0
  else
    match p.joining with
    | some (false, k) =>
      if k.matches j && !leadBusy s u.gid then
        let s := { s with cur := { u with join := none, joining := none } }
        .done (s.setUnit { p with join := none, joining := none }) [] 0
      else .waiting { s with cur := { u with joining := some (false, j) } } [] 0
    | _ => .waiting { s with cur := { u with joining := some (false, j) } } [] 0

/-! ### The commands -/

/-- What a started M command does. -/
def runMatrix (s : State) (c : Command) : Ran :=
  match c.instr with
  | .mma .. => runProduct s c false
  | .mmaz .. => runProduct s c true
  | .mmac _ _ fmt sat _ _ _ => runChained s c fmt sat
  | .mmae .. => runEnergy s c false
  | .mres .. => runEnergy s c true
  | .mbndLyr .. => runBoundLayer s c false
  | .mbndFirst .. => runBoundLayer s c true
  | .mbndSum .. => runBoundSum s c
  | .mcomp _ oc _ _ _ _ => runCompress s c oc
  | .mmas .. => runSparse s c
  | .mmab .. => runBitmap s c
  | .mzero .. => runZero s c
  | .mwr .. => runWriteRegion s c
  | .mrd _ oc sat clr _ _ _ => runReadRegion s c oc sat clr
  | .mchk _ _ row _ _ _ => runCheck s c row
  | .mjoinJoin .. => runJoin s c
  | .mjoinLeave .. => runLeave s c
  | _ => .done s [] 0

end Sys2Proof.Machine
end

