-- ==== Sys2Proof/Machine/Timing.lean ====
section
/-! DEFINITION. When a started command completes: the figures of the copy engines (05 R100, 12 R236), of the fabric commands (14 R277), of
the matrix engine (09 R197-R210, 10 R224, R227), of the vector engine (08 R175) and of the edge engine (17 R315, R316).  What a command's
time in memory is beyond R21's figures is not stated (DESIGN CHOICE, log 5). -/
namespace Sys2Proof.Machine
open Sys2Proof

/-! ### Copies (05 R100) -/

/-- The bytes of a dense operand. -/
def tileSize (d : Desc) : Nat := dRows d * rowBytes d

/-- The latency of the first access to an operand; that of one that faults is the home's. -/
def State.firstLatency (s : State) (c : Command) (k : AccessKind) (d : Desc) : Nat :=
  if dSpace d = spAcc ∨ dSpace d = spVrf then 4
  else if dSpace d = spMem then
    match s.translate s.cur.gid c.queue k false (dBase d) with
    | .ok p => s.loadLatency p.addr
    | .error _ => 110
  else 16

/-- The latency of the stages that a microword enables (R101). -/
def stageLatency (m : BitVec 32) : Nat :=
  [(stExt, 4), (stCvt, 3), (stScl, 2), (stBmx, 6), (stCmp, 8), (stTrn, 130), (stCks, 2), (stPack, 6)].foldl
    (fun (t : Nat) (e : BitVec 32 × Nat) => if m &&& e.1 != 0 then t + e.2 else t) 0

/-- The bytes of the records that a CPEXP reads, each as long as its header says. -/
def State.recordsRead (s : State) (c : Command) : Nat :=
  match s.place s.cur c.queue false c.db with
  | .error _ => 0
  | .ok l => ((List.range (dRows c.db)).map fun r =>
      match s.readAt c .copyRead (rowLoc c.db l r) 16 with
      | .error _ => 0
      | .ok h => 16 + maskBytes (dCols c.db) + fromLe ((h.drop 4).take 4) * (elemBits (dFmt c.db) / 8)).sum

/-- The bytes that a command has written outside its quire. -/
def Unit.bytesWritten (u : Unit) (c : Command) : Nat :=
  match u.inflight? c.queue c.num with
  | none => 0
  | some y => (y.trace.map fun p => ((List.range 16).filter p.mask.getLsbD).length).sum

/-- The bytes that a copy reads and writes; records count at their capacity in framed mode, and as they are in free mode and after a
CAPOVF (R100). -/
def State.copyBytes (s : State) (c : Command) (t : Option Cause) : Nat × Nat :=
  let a := c.da
  let b := c.db
  let sums := if mwCks (dMicro a) then 4 * dCols a else 0
  let framed := s.cur.framed && t != some .capovf
  match c.instr with
  | .cpfill .. => (0, tileSize a)
  | .cprow .. => (dCols c.extra * rowBytes b + rowBytes c.extra, tileSize a + sums)
  | .cpexp .. => (if framed then dRows b * (dAux b).toNat else s.recordsRead c, tileSize a + sums)
  | .cpsct .. => (tileSize b + rowBytes c.extra, dRows b * rowBytes a)
  | .cppack .. => (tileSize b, if framed then dRows b * (dAux a).toNat else s.cur.bytesWritten c)
  | .cpcnv .. => (2 * tileSize b, if framed then (dAux a).toNat else s.cur.bytesWritten c)
  | .screc .. => (tileSize b + tileSize c.extra, tileSize b + tileSize c.extra)
  | .scprobe .. => (2 * tileSize b, 0)
  | .scrply .. => (tileSize a, tileSize a)
  | _ => (tileSize b, tileSize a + sums)

/-- The cycles of a copy from its start to its completion. -/
def State.copyCycles (s : State) (c : Command) (t : Option Cause) : Nat :=
  let bytes := s.copyBytes c t
  let first := match c.instr with
    | .cpfill .. => 0
    | .cprow .. | .cpsct .. => s.firstLatency c .copyRead c.db + s.firstLatency c .copyRead c.extra
    | .cpexp .. => 2 * s.firstLatency c .copyRead c.db
    | _ => s.firstLatency c .copyRead c.db
  let last := if c.queue == 5 then s.firstLatency c .copyWrite c.da else 0
  first + last + max 1 (ceilDiv (max bytes.1 bytes.2) 128) + stageLatency (dMicro c.da)

/-! ### Fabric commands (14 R277) -/

/-- The largest hop count between members. -/
def State.commHops (s : State) (m : Comm) : Nat :=
  (m.devs.flatMap fun x => m.devs.map fun y => if x == y then 0 else s.flowHops x y).foldl max 0

/-- The cycles of a collective after its last member has started. -/
def State.collCycles (s : State) (c : Command) : Nat :=
  let d := s.dev (gidDev s.cur.gid)
  let m := s.comm d (commOf c.instr c.db c.scalar)
  if m.size ≤ 1 then 16 + ceilDiv (tileSize c.db) 128
  else
    let step := 1500 * s.commHops m + ceilDiv (tileSize c.db) 160
    2 * treeDepth m.size * (if d.routeMode then step else roundUp step 2500)

/-- The cycles of a send after its match. -/
def State.sendCycles (s : State) (src dst : Dev) (bytes : Nat) : Nat := 1500 * (if src == dst then 0 else s.flowHops src dst) + ceilDiv bytes 160

/-- The cycles of a receive after the match it is about to make: those of its send. -/
def State.postCycles (s : State) (c : Command) : Nat :=
  let d := s.dev (gidDev s.cur.gid)
  match d.sends.find? fun x => x.state == .pending && (match d.posts.find? fun p => p.matches x with | some p => p.of s.cur.gid c | none => false) with
  | some x => s.sendCycles (gidDev x.gid) d.num x.data.length
  | none => 0

/-! ### The matrix engine -/

/-- A command that feeds the array (R197). -/
def feeds (i : Instr) : Bool :=
  match i with
  | .mma .. | .mmaz .. | .mmac .. | .mmae .. | .mres .. | .mmas .. | .mmab .. => true
  | _ => false

/-- The format and the reduction length of a product. -/
def Command.feedFmt (c : Command) : BitVec 4 := match c.instr with | .mmac _ _ f .. => f | _ => dFmt c.db
def Command.depthK (c : Command) : Nat :=
  match c.instr with
  | .mmac .. | .mmas .. => dCols c.db
  | _ => opCols c.db

/-- The feed cycles of `k` columns of a dense product (R197). -/
def denseFeed (f : BitVec 4) (k : Nat) : Nat :=
  if f == 4 || f == 0xB then ceilDiv k 4
  else if f == 0 || f == 9 || f == 10 || f == 0xC || f == 0xD then ceilDiv k 2
  else if f == 6 then 4 * k else if f == 5 then 16 * k else k
/-- The same of a compressed operand. -/
def sparseFeed (f : BitVec 4) (k : Nat) : Nat :=
  if f == 0 || f == 9 || f == 10 then ceilDiv k 4 else if f == 6 then 2 * k else ceilDiv k 2

/-- The feed cycles of an MMAB in free mode, over its passes (R207): dense ones where its bitmaps cannot be read. -/
def State.bitmapFeed (s : State) (c : Command) : Nat :=
  let k := c.depthK
  let m := dRows c.da
  let n := dCols c.da
  let f := dFmt c.db
  let bits (d : Desc) : Except Trap (List (List Bool)) :=
    (collect ((bitmapRuns d (scrLoc d)).map fun r => s.readAt c .read r.1 r.2)).map fun rows => rows.map fun bs => (maskBits bs).take (dCols d)
  match bits c.db, bits c.dc with
  | .ok x, .ok y =>
    let as := if hasFlag c.db flagTransposed then x else transposeRows false k x
    let bs := if hasFlag c.dc flagTransposed then transposeRows false k y else y
    let count (row : List Bool) (i : Nat) : Nat := (((row.drop i).take 128).filter id).length
    ((passList m n).map fun p =>
      let both := ((as.zip bs).map fun e => count e.1 p.1 * count e.2 p.2).sum
      let perCell := if f == 4 then 4 else if f == 0 || f == 9 || f == 10 then 2 else 1
      let slow := if f == 6 then 4 else if f == 5 then 16 else 1
      max (ceilDiv (denseFeed f k) 4) (ceilDiv (both * slow) (16384 * perCell))).sum
  | _, _ => passesOf m n * denseFeed f k

/-- The columns that an energy-bounded product covers, from its starting one on (10 R217). -/
def State.energyColumns (s : State) (c : Command) : Nat × Nat :=
  let k0 := match c.instr with | .mres .. => hk (s.header c.da) | _ => 0
  let kk := dRows c.dc
  ((spend (groupOf (dFmt c.dc)) (quantaOf (dFmt c.dc) * passesOf (dRows c.da) (dCols c.da)) kk kk k0 (dAux c.da).toNat).1 - k0, kk - k0)

/-- The feed cycles of a product over all its passes, and what it needs after them beside 262 and the slip (R198, 10 R224). -/
def State.feedCycles (s : State) (c : Command) : Nat × Nat :=
  let p := passesOf (dRows c.da) (dCols c.da)
  match c.instr with
  | .mmae .. | .mres .. =>
    let e := s.energyColumns c
    (p * denseFeed (dFmt c.dc) e.1, 24 + ceilDiv e.2 8)
  | .mmas .. => (p * sparseFeed (dFmt c.db) c.depthK, 0)
  | .mmab .. => (if s.cur.framed then p * denseFeed (dFmt c.db) c.depthK else s.bitmapFeed c, 0)
  | _ => (p * denseFeed c.feedFmt c.depthK, 0)

/-- The cycles of an M command that does not feed, from its start and the landing of what it reads (R205, R208-R210, 10 R227). -/
def Command.stillCycles (c : Command) : Nat :=
  let space (d : Desc) : Nat := if dSpace d = spVrf then 4 else 16
  match c.instr with
  | .mcomp .. => 16 + ceilDiv (tileSize c.db) 256
  | .mzero .. => 4 + ceilDiv (tileSize c.da) 1024
  | .mwr .. => space c.db + ceilDiv (max (tileSize c.da) (tileSize c.db)) 512
  | .mrd .. => space c.da + ceilDiv (max (tileSize c.da) (tileSize c.db)) 512
  | .mchk _ _ row .. =>
    denseFeed (dFmt (if row then c.db else c.dc)) (dCols c.db) + 262 + 2 * passesOf (dRows c.da) (dCols c.da)
  | .mbndLyr .. | .mbndFirst .. | .mbndSum .. => 24
  | _ => 0

/-- The bytes of the store that a region spans, from its lowest to the one past its highest; `header` adds its resume header. -/
def regionSpan (d : Desc) (header : Bool) : Int × Int :=
  let rows := if hasFlag d flagTeam then min 256 (dRows d) else dRows d
  ((dBase d).toNat + spanLo d rows - (if header then 16 else 0), (dBase d).toNat + spanHi d rows)
/-- A resume header alone. -/
def headerSpan (d : Desc) : Int × Int := ((dBase d).toNat - 16, (dBase d).toNat)

/-- The spans of the store that an M command writes, and those that it reads (R200). -/
def Command.accWrites (c : Command) : List (Int × Int) :=
  match c.instr with
  | .mma .. | .mmaz .. | .mmac .. | .mmas .. | .mmab .. | .mzero .. | .mwr .. => [regionSpan c.da false]
  | .mmae .. | .mres .. => [regionSpan c.da true]
  | .mbndLyr .. | .mbndFirst .. | .mbndSum .. => [headerSpan c.da]
  | .mrd _ _ _ clr .. => if clr then [regionSpan c.db false] else []
  | _ => []
def Command.accReads (c : Command) : List (Int × Int) :=
  match c.instr with
  | .mmac .. | .mrd .. => [regionSpan c.db false]
  | .mchk .. => [regionSpan c.da false]
  | .mbndLyr .. => [headerSpan c.dc]
  | .mbndSum .. => [headerSpan c.db, headerSpan c.dc]
  | _ => []

def spansCross (xs ys : List (Int × Int)) : Bool := xs.any fun x => ys.any fun y => decide (x.1 < y.2) && decide (y.1 < x.2)

/-- The M commands in flight before a command, in queue order. -/
def Unit.earlierM (u : Unit) (c : Command) : List Inflight :=
  (u.inflight.takeWhile fun y => !(y.command.queue == 3 && y.command.num == c.num)).filter fun y => y.command.queue == 3

/-- The cycle in which the earlier M commands' writes to what a command reaches in the store have landed, not before its start (R200). -/
def Unit.landing (u : Unit) (c : Command) (start : Nat) : Nat :=
  (u.earlierM c).foldl (fun t y => if spansCross y.command.accWrites (c.accReads ++ c.accWrites) then max t y.until_ else t) start

/-- The engine accepts an M command when at most one earlier one is still feeding (R198); one that has been accepted and has not begun to feed
counts too: whether it does is not stated (DESIGN CHOICE, log 110). -/
def Unit.feedRoom (u : Unit) : Bool :=
  decide ((u.inflight.filter fun y => y.command.queue == 3 && feeds y.command.instr && decide (u.time < y.fed)).length ≤ 1)

/-! ### All commands -/

/-- The cycle in which what a V command writes has landed: not before the earlier commands' writes to the same registers (R175). -/
def Unit.vecDone (u : Unit) (c : Command) (at_ : Nat) : Nat :=
  let r := vecRegs c.instr c.fmt
  ((u.inflight.takeWhile fun y => !(y.command.queue == 4 && y.command.num == c.num)).filter fun y => y.command.queue == 4).foldl (fun t y =>
    let x := vecRegs y.command.instr y.command.fmt
    if x.vw.any r.vw.contains || x.mw.any (fun k => k != 0 && r.mw.contains k) then max t y.until_ else t) at_


/-- When a command that started at `start` completes, and for a product the first cycle of its feed and that after its last (R198).  The
state is the one in which it has run, but for what a collective or a receive was about to meet. -/
structure Finish where
  at_  : Nat
  feed : Nat
  fed  : Nat
  deriving DecidableEq, Repr

def State.finish (before s : State) (c : Command) (start : Nat) (t : Option Cause) : Finish :=
  let u := s.cur
  let at_ (n : Nat) : Finish := { at_ := start + n, feed := start, fed := start }
  if c.empty then at_ 0
  else match c.queue.toNat with
  | 2 => at_ (before.copyCycles c t)
  | 3 =>
    let landed := u.landing c start
    if feeds c.instr then
      let feed := (u.earlierM c).foldl (fun t y => max t y.fed) landed
      let n := before.feedCycles c
      let slip := if u.framed then 8 else Config.slip before.free % 9
      { at_ := feed + slip + n.1 + n.2 + 262, feed := feed, fed := feed + n.1 }
    else { at_ := landed + c.stillCycles, feed := landed, fed := start }
  | 4 => { at_ := u.vecDone c (start + vecLatency c.instr c.fmt (if dSpace c.da = 0 then c.db else c.da)), feed := start, fed := start }
  | 5 =>
    let now (n : Nat) : Finish := { at_ := u.time + n, feed := start, fed := start }
    match c.instr with
    | .cpcoll .. => now (s.collCycles c)
    | .cpsend .. =>
      let m := s.comm (s.dev (gidDev u.gid)) (fld c.scalar 0 6)
      now (s.sendCycles (gidDev u.gid) (m.devs.getD (fld c.scalar 8 6) 0) (tileSize c.db))
    | .cppost .. => now (before.postCycles c)
    | _ => { at_ := start + (s.copyCycles c t), feed := start, fed := start }
  | _ =>
    match c.instr with
    | .ebind .. => at_ (before.firstLatency c .copyRead c.da + c.body.length)
    | .eswp .. => at_ 1
    | .efrnt .. => at_ 110
    | _ => at_ 0

end Sys2Proof.Machine
end

