-- ==== Sys2Proof/Machine/Engine.lean ====
section
/-! DEFINITION. The engine queues: what a push captures and checks (06 R126-R129), when the head of a queue starts
(06 R128, R135, R136; 19 R351-R353), what becomes of a command that has run (21 R385, R391; 20 R361, R377), and its retirement
(05 R99, 06 R132). -/
namespace Sys2Proof.Machine
open Sys2Proof

/-! ### What a word pushes -/

/-- The parts of an engine command's word that its push reads: token and stamp fields, queue, format code, reloc, and
the descriptors and the scalar register it names (02 R37). -/
structure PushForm where
  head   : EHead
  queue  : BitVec 3
  fmt    : BitVec 4
  reloc  : Bool
  da     : Option DReg
  db     : Option DReg
  dc     : Option DReg
  scalar : Option Reg
  deriving DecidableEq, Repr

def pushForm0 (h : EHead) (q : BitVec 3) : PushForm :=
  { head := h, queue := q, fmt := 0, reloc := false, da := none, db := none, dc := none, scalar := none }

/-- The push of an instruction; none where it is no engine command. -/
def pushForm (i : Instr) : Option PushForm :=
  match i with
  | .vadd h _ f _ _ _ | .vsub h _ f _ _ _ | .vmul h _ f _ _ _ | .vfma h _ f _ _ _ | .vfnma h _ f _ _ _
  | .vmin h _ f _ _ _ | .vmax h _ f _ _ _ | .vabs h _ f _ _ | .vneg h _ f _ _ | .vdiv h _ f _ _ _
  | .vsqrt h _ f _ _ | .vrsq h _ f _ _ | .vrcp h _ f _ _ | .vexp2 h _ f _ _ | .vlog2 h _ f _ _
  | .vand h _ f _ _ _ | .vor h _ f _ _ _ | .vxor h _ f _ _ _ | .vshl h _ f _ _ _ | .vshr h _ f _ _ _
  | .vsar h _ f _ _ _ | .vceq h _ f _ _ _ | .vclt h _ f _ _ _ | .vcle h _ f _ _ _ | .vsel h _ f _ _ _
  | .vmov h _ f _ _ | .vclamp h _ f _ _ _ | .vadds h _ f _ _ _ | .vmulh h _ f _ _ _ | .vcvt h _ f _ _ _ _
  | .vpack h f _ _ _ | .vunpk h f _ _ _ | .vperm h _ f _ _ _ | .vred h _ f _ _ _ _ | .vscan h _ f _ _ _
  | .vtopk h _ f _ _ _ | .vcmpr h _ f _ _ | .vexpd h _ f _ _ =>
    some { pushForm0 h 4 with fmt := f }
  | .vmovs h _ f _ b | .viota h _ f _ b =>
    some { pushForm0 h 4 with fmt := f, scalar := some b }
  | .vgaths h _ _ f _ db _ =>
    some { pushForm0 h 4 with fmt := f, db := some db }
  | .vscats h _ _ f da _ _ =>
    some { pushForm0 h 4 with fmt := f, da := some da }
  | .vld h _ _ f _ db c | .vldx h _ _ f _ db c =>
    some { pushForm0 h 4 with fmt := f, db := some db, scalar := some c }
  | .vst h _ _ f da _ c =>
    some { pushForm0 h 4 with fmt := f, da := some da, scalar := some c }
  | .mand h _ _ _ | .mor h _ _ _ | .mnot h _ _ | .mpopc h _ =>
    some (pushForm0 h 4)
  | .mma h _ da db dc | .mmaz h _ da db dc | .mmac h _ _ _ da db dc | .mmae h _ da db dc | .mres h _ da db dc
  | .mbndLyr h _ da db dc | .mbndSum h da db dc | .mmas h _ da db dc | .mmab h _ da db dc
  | .mchk h _ _ da db dc =>
    some { pushForm0 h 3 with da := some da, db := some db, dc := some dc }
  | .mbndFirst h _ da db | .mwr h _ da db =>
    some { pushForm0 h 3 with da := some da, db := some db }
  | .mcomp h _ reloc da db dc =>
    some { pushForm0 h 3 with reloc := reloc, da := some da, db := some db, dc := some dc }
  | .mzero h da | .mjoinJoin h da | .mjoinLeave h da =>
    some { pushForm0 h 3 with da := some da }
  | .mrd h _ _ _ da db c =>
    some { pushForm0 h 3 with da := some da, db := some db, scalar := some c }
  | .cpin h _ reloc da db | .cprow h _ reloc _ da db | .cpexp h _ reloc da db =>
    some { pushForm0 h 2 with reloc := reloc, da := some da, db := some db }
  | .cpfill h _ reloc da b =>
    some { pushForm0 h 2 with reloc := reloc, da := some da, scalar := some b }
  | .scprobe h _ reloc da db c | .scrply h _ reloc da db c =>
    some { pushForm0 h 2 with reloc := reloc, da := some da, db := some db, scalar := some c }
  | .cpout h _ reloc da db | .cpsct h _ reloc _ da db | .cppack h _ reloc da db | .cpred h _ reloc _ _ da db
  | .cpcnv h _ reloc da db =>
    some { pushForm0 h 5 with reloc := reloc, da := some da, db := some db }
  | .cpcoll h _ _ _ da db =>
    some { pushForm0 h 5 with da := some da, db := some db }
  | .cpsend h _ db c =>
    some { pushForm0 h 5 with db := some db, scalar := some c }
  | .cppost h _ da c =>
    some { pushForm0 h 5 with da := some da, scalar := some c }
  | .screc h _ reloc da db c =>
    some { pushForm0 h 5 with reloc := reloc, da := some da, db := some db, scalar := some c }
  | .ebind h _ da =>
    some { pushForm0 h 6 with da := some da }
  | .erun h _ _ _ b | .efrnt h _ b =>
    some { pushForm0 h 6 with scalar := some b }
  | .eswp h _ _ =>
    some (pushForm0 h 6)
  | _ => none

/-- The queues a command takes tokens from (02 R37). -/
def takesOf (h : EHead) : List (BitVec 3) := [h.take1, h.take2, h.take3].filter (· != 0)

def Command.head (c : Command) : EHead :=
  match pushForm c.instr with | some p => p.head | none => { give := 0, take1 := 0, take2 := 0, take3 := 0, stamp := 0 }
def Command.reloc (c : Command) : Bool := match pushForm c.instr with | some p => p.reloc | none => false

/-! ### The snapshot (02 R31, R49-R53) -/

/-- The plate's format-table entry (FTBASE + LCOUNT) mod 16 (02 R31). -/
def Unit.tblFormat (u : Unit) : BitVec 4 :=
  BitVec.ofNat 4 (plateField u.plate (0x40 + (u.ftbase.toNat + u.lcount.toNat) % 16) 1)

/-- A format code as resolved at the push; none where it is reserved. -/
def Unit.resolveFmt (u : Unit) (f : BitVec 4) : Option (BitVec 4) :=
  let r := if f == 0xF then u.tblFormat else f
  if 14 ≤ r.toNat then none else some r

/-- A named descriptor as snapshotted: its format resolved, its space defined, not both CSR and CSC (02 R49-R51). -/
def Unit.snapshot (u : Unit) (r : Option DReg) : Option Desc :=
  match r with
  | none => some 0
  | some r =>
    let d := u.rd r
    if 5 < dSpace d || (hasFlag d flagCsr && hasFlag d flagCsc) then none else (u.resolveFmt (dFmt d)).map (dWithFmt d)

/-- The descriptor that a command names through an aux field: the index list of CPROW and CPSCT, the metadata of MMAS,
the result tile of SCREC (02 R52). -/
def extraReg (i : Instr) (a b c : Desc) : Option DReg :=
  match i with
  | .cprow .. => some ((dAux b).setWidth 5)
  | .cpsct .. => some ((dAux a).setWidth 5)
  | .mmas .. => some ((dAux c).setWidth 5)
  | .screc .. => some ((dAux b).setWidth 5)
  | _ => none

/-- The commands whose descriptor A carries a microword that a push resolves (05 R101, 12 R235).  Whether PRE is resolved in one of SCPROBE,
CPFILL or SCRPLY, whose accepted microword is fixed, is not stated: it is not, and raises ILLFLD (DESIGN CHOICE, log 95). -/
def hasMicro (i : Instr) : Bool :=
  match i with
  | .cpin .. | .cprow .. | .cpexp .. | .cpout .. | .cpsct .. | .cppack .. | .cpred .. | .cpcnv .. => true
  | _ => false

/-- The entry of the plate's stream table that an ordered command names (12 R244, 17 R320). -/
def streamOf (u : Unit) (i : Instr) (a : Desc) (x : Word) : Nat :=
  match i with
  | .cpred .. => plateField u.plate (0x100 + 4 * ((dAux a).toNat % 16)) 4
  | .erun .. => plateField u.plate (0x100 + 4 * fld x 18 4) 4
  | _ => 0

/-- The communicator a command names (14 R274, R278). -/
def commNumber (i : Instr) (b : Desc) (x : Word) : Nat :=
  match i with
  | .cpcoll .. => (dAux b).toNat % 64
  | _ => fld x 0 6

/-- The checks of the command's own description at the push. -/
def formCheck (i : Instr) (f : BitVec 4) (a b c x : Desc) (key : Word) (pat : BitVec 576) (u : Unit) (d : Device) : Bool :=
  match (pushForm i).map (·.queue.toNat) with
  | some 2 => copyInCheck i a b x pat
  | some 3 => matCheck i a b c x
  | some 4 => vecCheck i f (if (pushForm i).any (·.da.isSome) then a else b)
  | some 5 => copyOutCheck i a b x key u d
  | _ => edgeCheck i a key u

/-- The cycle a push's stamp names: after the last command of its queue, or from FRAME; 0 where none is named
(06 R135). -/
def Unit.stampedStart (u : Unit) (q : BitVec 3) (stamp : Nat) : Nat :=
  match (u.queue q).getLast? with
  | some c => c.due + 1 + stamp
  | none =>
    if u.fresh[qidx q] then (match u.frameAt with | some f => if u.framed then f + stamp else 0 | none => 0)
    else u.lastStart[qidx q] + 1 + stamp

/-- The command a push enqueues: every check at the push, then the snapshot (06 R126, R127); none is ILLFLD.  A command whose operands are
all empty, those named through an aux field among them, meets every check but those of its sizes and shapes (02 R50). (DEDUCED, log 27) -/
def State.pushCommand (s : State) (i : Instr) (p : PushForm) (body : List EdgeForm) : Option Command :=
  let u := s.cur
  match u.resolveFmt p.fmt, u.snapshot p.da, u.snapshot p.db, u.snapshot p.dc with
  | some f, some a, some b, some c =>
    match u.snapshot (extraReg i a b c),
          if hasMicro i then resolveMicro u.plate u.tblFormat (dMicro a) else some (dMicro a) with
    | some x, some m =>
      let a := dWithMicro a m
      let key := match p.scalar with | some r => u.rs r | none => 0
      let pat : BitVec 576 := u.plate.extractLsb' (8 * (0x200 + 72 * ((dAux a).toNat % 8))) 576
      let named := (if p.da.isSome then [a] else []) ++ (if p.db.isSome then [b] else []) ++ (if p.dc.isSome then [c] else [])
      let operands := named ++ if (extraReg i a b c).isSome then [x] else []
      let movable := operands.all fun d => dSpace d == spMem || dSpace d == spScr
      let allEmpty := !operands.isEmpty && operands.all dEmpty
      let d := s.dev (gidDev u.gid)
      if u.framed && u.frameAt.isNone then none
      else if p.reloc && (p.scalar.isSome || !movable) then none
      else if !allEmpty && operands.any dEmpty then none
      else if !formCheck i f a b c x key pat u d then none
      else some {
        instr := i, queue := p.queue, num := u.nextNum[qidx p.queue], pc := u.pc, lcount := u.lcount, llimit := u.llimit,
        lbody := u.lbody, handler := u.handlerMode, phase := u.phase, da := a, db := b, dc := c, extra := x, scalar := key,
        fmt := f, pattern := pat, stream := BitVec.ofNat 32 (streamOf u i a key), commGen := (d.comm (commNumber i b key)).gen,
        body := body, engine := u.gid, depth := u.regions.length, due := u.stampedStart p.queue p.head.stamp.toNat,
        empty := allEmpty, flags := 0, resume := none, carrier := none, trace := [], deferred := [], counted := false, written := 0,
        placed := false, number := none }
    | _, _ => none
  | _, _, _, _ => none

/-- Values of a scalar register that an instruction reads at its push, of which it accepts one where it accepts any (14 R278, 17 R317, R323). -/
def someKeys (i : Instr) : List Word :=
  match i with | .erun .. => (List.range 16).map fun t => BitVec.ofNat 64 (1 + 2 ^ 18 * t) | _ => [0]

/-- A push raises ILLFLD whatever the registers hold that it does not know yet (02 R47): by its format, a descriptor, the missing FRAME, its reloc
bit, the microword, or, where it knows every descriptor, any of its checks. -/
def State.surelyIllfld (s : State) (i : Instr) (p : PushForm) (known : Reg → Bool) (knownD : DReg → Bool) (body : List EdgeForm) : Bool :=
  let u := s.cur
  let seen (r : Option DReg) : Option DReg := r.filter knownD
  let bad (r : Option DReg) : Bool := (seen r).isSome && (u.snapshot r).isNone
  let fixed (r : Option DReg) : Bool := match (seen r).bind fun r => u.snapshot (some r) with
    | some d => dSpace d != spMem && dSpace d != spScr
    | none => false
  let desc (r : Option DReg) : Desc := match r with | some r => u.rd r | none => 0
  let ds := p.da.toList ++ p.db.toList ++ p.dc.toList
  let extra := (extraReg i (desc p.da) (desc p.db) (desc p.dc)).toList
  (u.resolveFmt p.fmt).isNone || bad p.da || bad p.db || bad p.dc || (u.framed && u.frameAt.isNone) ||
  (p.reloc && (p.scalar.isSome || fixed p.da || fixed p.db || fixed p.dc)) ||
  (hasMicro i && (seen p.da).isSome && (resolveMicro u.plate u.tblFormat (dMicro (desc p.da))).isNone) ||
  ((ds ++ extra).all knownD && match p.scalar with
    | some r => if known r then (s.pushCommand i p body).isNone
      else (someKeys i).all fun x => (State.pushCommand { s with cur := u.ws r x } i p body).isNone
    | none => (s.pushCommand i p body).isNone)

/-! ### Shadows of vector registers (08 R175, 21 R387) -/

/-- The register a framed V command would read before its value lands, as SHADOW reports it. -/
def Unit.vecShadow (u : Unit) (c : Command) : Option Word :=
  let r := vecRegs c.instr c.fmt
  if c.queue != 4 || c.empty || !u.framed then none
  else match r.vr.find? fun k => decide (c.due < (u.vready.toArray[k]?).getD 0) with
    | some k => some (BitVec.ofNat 64 (64 + k))
    | none => (r.mr.find? fun k => decide (c.due < (u.mready.toArray[k]?).getD 0)).map fun k => BitVec.ofNat 64 (128 + k)

/-- A V command finds every register it reads landed (R175); a started one that has still to make its accesses has landed nothing, and nothing
overtakes it on a register that it writes. -/
def Unit.vecLanded (u : Unit) (c : Command) : Bool :=
  let r := vecRegs c.instr c.fmt
  c.queue != 4 || (r.vr.all (fun k => decide ((u.vready.toArray[k]?).getD 0 ≤ u.time)) && (r.mr.all fun k => decide ((u.mready.toArray[k]?).getD 0 ≤ u.time)) &&
    u.inflight.all fun y => y.command.queue != 4 || !y.todo || (vecRegs y.command.instr y.command.fmt).vw.all fun k => !(r.vr ++ r.vw).contains k)

/-- Notes when the registers a V command writes will hold their values: writes to one register land in start order (R175); those to m0 are
discarded. (DESIGN CHOICE, log 74) -/
def Unit.vecLand (u : Unit) (c : Command) (start : Nat) : Unit :=
  if c.queue != 4 || c.empty then u
  else
    let r := vecRegs c.instr c.fmt
    let at_ := start + vecLatency c.instr c.fmt (if dSpace c.da = 0 then c.db else c.da)
    let late {n : Nat} (ks : List Nat) (v : Vector Nat n) : Vector Nat n := ks.foldl (fun v k => v.setIfInBounds k (max at_ ((v.toArray[k]?).getD 0))) v
    { u with vready := late r.vw u.vready, mready := late (r.mw.filter (· != 0)) u.mready }

/-- The cycles for which a V command holds the permute slot (R188). -/
def Command.permuteCycles (c : Command) : Nat :=
  if c.empty then 0
  else match c.instr with
  | .vperm .. => 1
  | .vgaths .. | .vscats .. => ceilDiv (vCount (elemBits c.fmt)) 16
  | _ => 0

/-- Enters a command at the tail of its queue (06 R127). -/
def Unit.enqueue (u : Unit) (c : Command) : Unit :=
  let u := { u with nextNum := u.nextNum.set (qidx c.queue) (c.num + 1) }
  u.setQueue c.queue (u.queue c.queue ++ [c])

/-! ### When the head starts -/

/-- The tokens of a FIFO that were given before the present cycle (R128). -/
def Unit.ripe (u : Unit) (x y : BitVec 3) : Nat := u.fifo x y - (u.justGiven.filter fun e => e == (x, y)).length

/-- Each FIFO the command takes from holds a token; one that goes on after a stop has taken its tokens (R128). -/
def Unit.hasTokens (u : Unit) (c : Command) : Bool := c.started || (takesOf c.head).all fun x => decide (0 < u.ripe x c.queue)

/-- Takes the command's tokens, all together (R128). -/
def Unit.takeTokens (u : Unit) (c : Command) : Unit :=
  if c.started then u else (takesOf c.head).foldl (fun u x => u.setFifo x c.queue (u.fifo x c.queue - 1)) u

/-- The first entry of a keyed list taken out: its value and the rest. -/
def takeKey {α : Type} (q : BitVec 3) : List (BitVec 3 × α) → Option α × List (BitVec 3 × α)
  | [] => (none, [])
  | e :: rest => if e.1 == q then (some e.2, rest) else let r := takeKey q rest; (r.1, e :: r.2)

/-- The release that the writes of a starting command carry: the one in force when its token from S was given
(04 R86, 16 R295). -/
def Unit.carry (u : Unit) (c : Command) : Unit × Command :=
  if c.started || !(takesOf c.head).contains 1 then (u, c)
  else
    let r := takeKey c.queue u.handed
    ({ u with handed := r.2 }, { c with carrier := r.1.getD none })

/-- A bank that an operand touches is held by a BANKMODE change (04 R91). -/
def State.bankHeld (s : State) (u : Unit) (d : Desc) : Bool :=
  let dev := s.dev (gidDev u.gid)
  let held (b : Nat) : Bool := (dev.bank (32 * gidSection u.gid + b % 32)).begun
  if dEmpty d then false
  else if dSpace d = spScr then
    let lo := ((dBase d).toNat + spanLo d (dRows d)).toNat / 524288
    let hi := ((dBase d).toNat + spanHi d (dRows d) - 1).toNat / 524288
    decide (hi < 32) && (List.range (hi + 1 - lo)).any fun k => held (lo + k)
  else if dSpace d = spStep then held ((dBase d).toNat / 4)
  else if dSpace d = spRing then
    match dev.rings.lookup (ringIndex (gidSection u.gid) (fld (dBase d) 0 6)) with
    | some r => (List.range r.banks).any fun k => held (r.firstBank + k)
    | none => false
  else false

/-- The engine can take the command now: the conditions of its own description, R91, R175, R188, R198, R353 and R361.  A command whose operands
are all empty reaches no bank and no register, but is accepted like any other (02 R50). -/
def State.accepts (s : State) (c : Command) : Bool :=
  let u := s.cur
  let d := s.dev (gidDev u.gid)
  (u.waitingAt == 0 || (u.met && u.waitingAt == c.queue)) &&
  s.others.all (fun x => x.inflight.all fun y => !(y.command.engine == u.gid && y.command.queue == c.queue)) &&
  (c.empty ||
    (!(s.bankHeld u c.da || s.bankHeld u c.db || s.bankHeld u c.dc || s.bankHeld u c.extra) &&
     (c.permuteCycles == 0 || decide (u.permute ≤ u.time)) && (u.framed || u.vecLanded c) &&
     (match c.instr with | .cppost .. => decide ((d.posts.filter fun p => p.state == .pending).length < 256) | _ => true))) &&
  (c.queue != 6 || u.inflight.all fun y => y.command.queue != 6) &&
  (c.queue != 3 || (u.feedRoom && u.inflight.all fun y => y.command.queue != 3 || !(y.waiting || y.todo)))

/-- Two sets of phase ranges clash: a write range of either overlaps a range of the other (19 R351). -/
def rangesMeet (x y : Nat) : Bool :=
  decide (2 ^ 15 ≤ x) && decide (2 ^ 15 ≤ y) && decide (x % 32 ≤ y / 32 % 32) && decide (y % 32 ≤ x / 32 % 32)
def phasesClash (a b : List Nat) : Bool :=
  ((a.drop 4).any fun x => b.any fun y => rangesMeet x y) || ((b.drop 4).any fun x => a.any fun y => rangesMeet x y)

/-- Commands that went back to their queue heads to go on: started and not retired, like those in flight (21 R391). -/
def Unit.resumed (u : Unit) : List Command := engineQueues.flatMap fun q => (u.queue q).filter Command.started

/-- The commands of a unit that have started and not retired, those that a fault has parked among them (19 R351, 21 R391). -/
def Unit.unretired (u : Unit) : List Command := u.inflight.map (·.command) ++ u.parked ++ u.resumed

/-- PHASEOVL at a command's start (19 R351). -/
def State.phaseClash (s : State) (c : Command) : Option Trap :=
  let u := s.cur
  let mine := phaseRanges u.plate c.phase.toNat c.queue.toNat
  let rivals := s.units.filter fun x => x.check && gidDev x.gid == gidDev u.gid && gidSection x.gid == gidSection u.gid && !x.isCore
  let clash := u.check && rivals.any fun x => x.unretired.any fun y =>
    !(x.gid == u.gid && y.queue == c.queue) && phasesClash mine (phaseRanges x.plate y.phase.toNat y.queue.toNat)
  if clash then some (cmdTrap c.queue .phaseovl (BitVec.ofNat 64 (c.queue.toNat + 2 ^ 8 * c.phase.toNat))) else none

/-! ### What becomes of a command that has run -/

/-- The place in its class queue that a started command holds while it has accesses to make (16 R288). -/
def Command.place (c : Command) (g : Gid) : Access := { cmdAccess c c.cls g 0 [] with want := .held, carrier := none }
def Access.isPlace (c : Command) (x : Access) : Bool := x.want == .held && x.command == some (c.queue, c.num)
def Unit.dropPlace (u : Unit) (c : Command) : Unit := { u with classQ := u.classQ.filter fun x => !x.isPlace c }

/-- A command leaves the engine. -/
def Unit.dropInflight (u : Unit) (c : Command) : Unit :=
  { u.dropPlace c with inflight := u.inflight.filter fun y => !(y.command.queue == c.queue && y.command.num == c.num) }

/-- A command has left the engine that ran it, which has no command any more (19 R352). -/
def State.engineFreed (s : State) (c : Command) : State :=
  let u := s.unitAt c.engine
  s.setUnit { u with idleSince := u.idleSince.set (qidx c.queue) u.time }

/-- The progress register of a queue, where it has one. -/
def Unit.setProgress (u : Unit) (q : BitVec 3) (x : Word) : Unit :=
  if q = 2 then { u with qprogL := x } else if q = 5 then { u with qprogW := x } else if q = 6 then { u with qprogE := x } else u

/-- The innermost open buffered region's depth; 0 where none is. -/
def Unit.bufferedDepth (u : Unit) : Nat :=
  (List.range u.regions.length).foldl (fun k i => match u.regions[i]? with | some r => if r.buffered then i + 1 else k | none => k) 0

/-- A command that met a full release buffer stops there until a meeting (20 R361), or ends its region (20 R378). -/
def State.bufferFull (s : State) (c : Command) (t : Trap) : State :=
  if 0 < s.cur.bufferedDepth then s.contain 4 s.cur.bufferedDepth c.queue t.tval
  else
    match ({ s with cur := s.cur.setQueue c.queue (c :: s.cur.queue c.queue) }).meet c.queue [] with
    | .go s => s
    | .stay s => s

/-- A command that stopped on a fault of its own (21 R385, R391): in a region that contains the cause it is discarded;
pushed in handler mode it is discarded; else it is parked with its progress. -/
def State.stopCommand (s : State) (c : Command) (t : Trap) (progress : Nat) : State :=
  let contained := t.cause.containEvent.isSome && decide (0 < containing s.cur c.depth)
  if contained || c.handler then State.deliverAs { s with cur := s.cur.flushSigs } t c.depth false
  else
    let p := if t.cause = .linkfail && c.queue == 5 then 0 else progress
    let u := { s.cur with parked := s.cur.parked ++ [{ c with resume := some p, engine := s.cur.gid }] }
    ({ s with cur := u.setProgress c.queue (BitVec.ofNat 64 (2 ^ 62 + p)) }).deliverAs t c.depth true

/-- A command that has run as far as it can for now goes on later, from its progress. -/
def State.goOn (s : State) (c : Command) (p : Nat) (f : Flags) : State :=
  { s with cur := s.cur.onInflight c.queue c.num fun y =>
      { y with todo := true, command := { y.command with resume := some p, flags := y.command.flags ||| f, placed := true } } }

/-- What a command waits for enters its class queue, once: the read of a piece, or an update; a prompt machine makes a read that reaches its home at
once (16 R288). -/
def State.askPiece (s : State) (c : Command) (x : Ask) : State :=
  let a : Access := match x.update with
    | some (slot, op, f, y) => { cmdAccess c c.cls s.cur.gid x.addr (leBytes x.n y) with want := .atomic slot, reduce := some (op, f), sect := x.sect }
    | none => { cmdAccess c c.cls s.cur.gid x.addr [] with want := .load x.key x.n, carrier := none, sect := x.sect }
  if x.n = 0 then s.scrub (x.addr / 128)
  else if x.update.isNone && s.reachesNow s.cur.gid x.addr then s.readFor s.view c.queue c.num c.cls x.key x.addr x.n
  else if s.cur.classQ.contains a || s.admQ.contains a || s.flows.any (fun p => p.access == a) then s
  else { s with cur := { s.cur with classQ := s.cur.beforeHeld a [a] } }

/-- The state once a started command has run from the state `before`. -/
def State.conclude (before : State) (c : Command) (r : Ran) : State :=
  match r with
  | .done s replies f =>
    let start := match s.cur.inflight? c.queue c.num with | some y => y.feed | none => s.cur.time
    let t := before.finish s c start none
    { s with cur := (s.cur.onInflight c.queue c.num fun y =>
      { y with replies := y.replies ++ replies, flags := y.flags ||| f ||| y.command.flags, waiting := false, todo := false,
               until_ := t.at_, feed := t.feed, fed := t.fed }).dropPlace c }
  | .waiting s replies f =>
    let u := s.cur.onInflight c.queue c.num fun y =>
      { y with replies := y.replies ++ replies, flags := y.flags ||| f ||| y.command.flags, waiting := true, todo := false,
               command := { y.command with placed := true } }
    { s with cur := match c.instr with | .cpcoll .. => u | _ => u.dropPlace c }
  | .abandoned s t => (State.engineFreed { s with cur := (s.cur.dropInflight c).flushSigs } c).deliverAs t c.depth false
  | .partly s p f =>
    let s := s.goOn c p f
    { s with cur := s.cur.onInflight c.queue c.num fun y => { y with got := [] } }
  | .stopped s t p f =>
    if t.cause = .notYet then
      let s := s.goOn c p f
      match t.ask? with | some x => s.askPiece c x | none => s
    else match s.cur.inflight? c.queue c.num with
    | none => s
    | some y =>
      let c' := { y.command with flags := f ||| y.command.flags ||| y.flags, trace := y.trace, placed := y.command.placed || t.cause != .ringerr }
      let s := State.engineFreed { s with cur := s.cur.dropInflight c } c
      if t.cause = .bufferFull then s.bufferFull { c' with resume := some p } t else s.stopCommand c' t p

/-! ### Races for vector registers and the accumulator store (08 R176, 09 R200) -/

/-- The operands that a command names, one through an aux field among them. -/
def Command.operands (c : Command) : List Desc :=
  match pushForm c.instr with
  | some p => (if p.da.isSome then [c.da] else []) ++ (if p.db.isSome then [c.db] else []) ++ (if p.dc.isSome then [c.dc] else []) ++
      (match c.instr with | .cprow .. | .cpsct .. | .mmas .. | .screc .. => [c.extra] | _ => [])
  | none => []

/-- An operand outside the quire: the accumulator store and the vector registers enter no class queue (16 R288). -/
def outside (d : Desc) : Bool := dSpace d != spAcc && dSpace d != spVrf

/-- The vector registers of a descriptor's run. -/
def runRegs (d : Desc) : List Nat :=
  if dSpace d != spVrf || dEmpty d then []
  else
    let base : Int := 512 * (dBase d).toNat
    let lo := (base + spanLo d (dRows d)).toNat / 512
    let hi := (base + spanHi d (dRows d) - 1).toNat / 512
    (List.range (hi + 1 - lo)).map (lo + ·)

/-- The vector registers that a command reads, and those that it writes. -/
def Command.vrfReads (c : Command) : List Nat :=
  if c.queue == 4 then (vecRegs c.instr c.fmt).vr else runRegs c.db ++ runRegs c.extra
def Command.vrfWrites (c : Command) : List Nat := if c.queue == 4 then (vecRegs c.instr c.fmt).vw else runRegs c.da

/-- A register whose lanes are each of one of two values, the `n`-th such choice for it. -/
def mixLanes (n r : Nat) (x y : BitVec 4096) : BitVec 4096 :=
  vOf 64 ((List.range 64).map fun l => if Config.raceLane n r l then vElem 64 x l else vElem 64 y l)

def Unit.vAt (u : Unit) (r : Nat) : BitVec 4096 := (u.v.toArray[r]?).getD 0
def Unit.setVAt (u : Unit) (r : Nat) (x : BitVec 4096) : Unit := { u with v := u.v.setIfInBounds r x }

/-- The registers that a command reaches and that unretired commands of other queues have written, each as it was before. -/
def Unit.races (u : Unit) (c : Command) : List (Nat × BitVec 4096) :=
  let mine := c.vrfReads ++ c.vrfWrites
  (u.inflight.filter fun y => y.command.queue != c.queue).flatMap fun y => y.former.filter fun e => mine.contains e.1

def Ran.mapState (f : State → State) : Ran → Ran
  | .done s rs g => .done (f s) rs g
  | .stopped s t p g => .stopped (f s) t p g
  | .abandoned s t => .abandoned (f s) t
  | .waiting s rs g => .waiting (f s) rs g
  | .partly s p g => .partly (f s) p g

/-- The command names the accumulator store. -/
def Command.usesAcc (c : Command) : Bool := c.operands.any fun d => dSpace d == spAcc

/-- The accumulator stores that unretired commands of other queues found, where a command reaches the store too (09 R200). -/
def Unit.accRaces (u : Unit) (c : Command) : List Memory :=
  if c.usesAcc then (u.inflight.filter fun y => y.command.queue != c.queue).filterMap (·.formerAcc) else []

/-- A store of which the aligned 8 bytes that `p` holds of are those of `x`, and the others those of `y`. -/
def pickAcc (p : Nat → Bool) (x y : Memory) : Memory :=
  List.merge (x.filter fun c => p (c.1 / 8)) (y.filter fun c => !p (c.1 / 8)) fun a b => decide (a.1 ≤ b.1)

/-- The two stores hold different bytes somewhere in an aligned 8 bytes. -/
def accDiffer (x y : Memory) (g : Nat) : Bool := (List.range 8).any fun k => x.get? (8 * g + k) != y.get? (8 * g + k)

/-- Runs a command among its races: each lane that it reads is the old or the written one, and each lane that it writes beside another
command is that of one of them; what it writes may race with later commands (08 R176).  The same holds by 8 bytes for the accumulator store
(09 R200).  A V command that stops writes no register (08 R177). -/
def State.racing (s : State) (c : Command) (f : State → Ran) : Ran :=
  let old := s.cur
  let rs := old.races c
  let as := old.accRaces c
  let n := s.free
  let view := rs.zipIdx.foldl (fun (u : Unit) e => u.setVAt e.1.1 (mixLanes (n + e.2) e.1.1 (u.vAt e.1.1) e.1.2)) old
  let chosen (k g : Nat) : Bool := Config.raceLane (n + 2 * rs.length + k) g (g % 64)
  let seen := as.zipIdx.foldl (fun (m : Memory) e => pickAcc (chosen e.2) m e.1) old.acc
  let ran := f (if rs.isEmpty && as.isEmpty then s
    else { s with cur := { view with acc := seen }, free := n + 2 * (rs.length + as.length) + 1 })
  let silent := c.queue == 4 && match ran with | .stopped .. => true | _ => false
  ran.mapState fun t =>
    let u := rs.zipIdx.foldl (fun (u : Unit) e =>
      let k := e.1.1
      u.setVAt k (if c.vrfWrites.contains k && !silent then mixLanes (n + rs.length + e.2) k (u.vAt k) (old.vAt k) else old.vAt k)) t.cur
    let u := if as.isEmpty then u
      else { u with acc := pickAcc (fun g => accDiffer u.acc seen g &&
        (chosen as.length g || as.all fun m => !accDiffer old.acc m g)) u.acc old.acc }
    { t with cur := u.onInflight c.queue c.num fun y =>
      { y with former := y.former ++ (c.vrfWrites.filter fun k => y.former.all fun e => e.1 != k).map fun k => (k, old.vAt k),
               formerAcc := if c.usesAcc && y.formerAcc.isNone then some old.acc else y.formerAcc } }

/-! ### Start, poll, retire -/

/-- What a started command does. -/
def runCommand (s : State) (c : Command) : Ran :=
  if c.empty then .done s [] 0
  else match c.queue.toNat with
    | 2 => runLoad s c
    | 3 => runMatrix s c
    | 4 => runVector s c
    | 5 => runStore s c
    | _ => runEdge s c

/-- What a started command that waits for others does when it looks again. -/
def pollCommand (s : State) (c : Command) : Ran :=
  match c.queue.toNat with
  | 3 => runMatrix s c
  | 5 => pollStore s c
  | 6 => pollEdge s c
  | _ => .waiting s [] 0

/-- Runs `f` on the unit with a command's phase in force (19 R351). -/
def State.inPhase (s : State) (c : Command) (f : State → State) : State :=
  let p := s.cur.phase
  let s' := f { s with cur := { s.cur with phase := c.phase } }
  { s' with cur := { s'.cur with phase := p } }

/-- The commands that make accesses in an ordering class. -/
def Command.ordered (c : Command) : Bool :=
  !c.empty && match c.instr with
  | .mzero .. | .mjoinJoin .. | .mjoinLeave .. | .mbndSum .. | .eswp .. => false
  | .cpcoll .. | .cpsend .. | .cppost .. | .ebind .. | .erun .. | .efrnt .. => true
  | _ => c.operands.any outside

/-- A command whose figure is exact: one that reaches no memory outside its section (05 R100, 08 R175, 09 R198). -/
def Command.exact (c : Command) : Bool :=
  match c.instr with
  | .cpcoll .. | .cpsend .. | .cppost .. | .ebind .. | .erun .. | .efrnt .. | .mjoinJoin .. | .mjoinLeave .. => false
  | _ => c.empty || c.operands.all fun d => dSpace d != spMem

/-- The unit as a command leaves its queue head: tokens taken, the start noted, the command in flight and its set in its class queue. -/
def Unit.launch (u : Unit) (c : Command) (start : Nat) : Unit :=
  let u := u.takeTokens c
  let u := if c.started && !c.handler then u.setProgress c.queue 0 else u
  let u := if u.waitingAt == c.queue then { u with waitingAt := 0, met := false } else u
  let u := u.setQueue c.queue ((u.queue c.queue).drop 1)
  let u := if c.ordered then { u with classQ := u.classQ ++ [c.place u.gid] } else u
  (({ u with lastStart := u.lastStart.set (qidx c.queue) start, fresh := u.fresh.set (qidx c.queue) false,
             permute := if c.permuteCycles = 0 then u.permute else max u.permute (start + c.permuteCycles),
             inflight := u.inflight ++ [{ command := c, replies := [], flags := 0, trace := c.trace, waiting := false, todo := true, got := [],
                                          until_ := 0, feed := start, fed := start, former := [], reads := [], gives := c.head.give,
                                          formerAcc := none }] }) : Unit).vecLand c start

/-- A started command may make accesses: none of its class that entered before its set is left (16 R289). -/
def State.mayRun (s : State) (c : Command) : Bool :=
  !c.ordered || (s.cur.classQ.takeWhile fun x => !x.isPlace c).all fun x => x.cls != c.cls || x.command == some (c.queue, c.num)

/-- The entry of a ring that an operand names becomes the last used one; none where a spill that this needs finds no room (12 R249). -/
def State.touchRing (s : State) (d : Desc) : Option State :=
  if dSpace d != spRing || dEmpty d then some s
  else
    let dev := gidDev s.cur.gid
    let index := ringIndex (gidSection s.cur.gid) (fld (dBase d) 0 6)
    if ((s.dev dev).rings.lookup index).isNone then some s
    else ((s.dev dev).touch (ringKey dev index)).map fun e => s.setDev e.1

/-- What a command meets at its start before anything of its own: no room for a ring's entry (12 R249), or a lent region (09 R201), which a V
command meets at its one access. -/
def State.startTrap (s : State) (c : Command) : Except Trap State :=
  let q := c.queue
  let lent (d : Desc) : Option Trap :=
    if q == 3 || q == 4 || dSpace d != spAcc || dEmpty d then none
    else (((List.range (dRows d)).filterMap fun (r : Nat) =>
        let a := (dBase d).toNat + r * dStride d
        if s.cur.lent a (rowBytes d) then some a else none).foldl
      (fun (t : Option Int) a => match t with | some x => some (min x a) | none => some a) none).map fun a =>
        accessTrap q (if d == c.da && q != 4 then .copyWrite else .copyRead) .protv (BitVec.ofInt 64 a)
  if c.empty then .ok s
  else match ((lent c.db).or (lent c.dc)).or (lent c.da) with
  | some t => .error t
  | none => match (s.touchRing c.db).bind fun s => s.touchRing c.da with
    | some s => .ok s
    | none => .error (cmdTrap q .clasperr (Config.freeWord s.free))

/-- A started command runs. -/
def State.runStarted (s : State) (y : Inflight) : State :=
  let c := y.command
  s.inPhase c fun s =>
    match s.startTrap c with
    | .error t => s.conclude c (.stopped { s with free := s.free + 1 } t 0 0)
    | .ok s => s.conclude c (s.racing c fun s => runCommand s c)

/-- A command that goes on after a stop runs under the communicator generation now in force (14 R272). -/
def State.regenerated (s : State) (c : Command) : Command :=
  if c.started then { c with commGen := ((s.dev (gidDev s.cur.gid)).comm (commNumber c.instr c.db c.scalar)).gen } else c

/-- A started command goes on, or looks again. -/
def State.poll (s : State) (y : Inflight) : State :=
  if y.todo then (if s.mayRun y.command then s.runStarted y else s)
  else if y.waiting then s.inPhase y.command fun s => s.conclude y.command (pollCommand s y.command)
  else s

/-- The head of a queue starts (R9, R124, R128).  A running machine makes the accesses of its set in steps of their own. -/
def State.start (s : State) (c : Command) : State :=
  match s.phaseClash c with
  | some t => s.deliver t c.depth
  | none =>
    let (u, c) := s.cur.carry (s.regenerated c)
    let s := ({ s with cur := u.launch c (max u.time c.due) }).commit
    match s.cur.inflight? c.queue c.num with
    | some y => if s.prompt || !c.ordered then s.poll y else s
    | none => s

/-- The earliest cycle a queue's head may start: its stamp in framed mode, else after the queue's last start. -/
def Unit.earliest (u : Unit) (c : Command) : Nat :=
  if c.started then 0
  else if u.framed then c.due
  else if u.fresh[qidx c.queue] then 0 else u.lastStart[qidx c.queue] + 1 + c.head.stamp.toNat

/-- The cycles by which the start of an M or V command of a free-mode quire is delayed while its device is over its power cap or too hot (23
R423); how many is not stated (DESIGN CHOICE, log 100). -/
def State.throttleDelay (s : State) (c : Command) : Nat :=
  if s.myDev.throttle && !s.cur.framed && !c.started && (c.queue == 3 || c.queue == 4) then
    Config.throttle s.cur.gid c.queue.toNat c.num.toNat
  else 0

/-- OVERRUN (06 R136): the missed cycle is counted from F. -/
def overrunTrap (q : BitVec 3) (missed frame : Nat) : Trap :=
  cmdTrap q .overrun (BitVec.ofNat 64 ((missed - frame) % 2 ^ 32 * 2 ^ 32 + q.toNat))

/-- A queue's turn: its head starts if it may, and misses its stamp if it should have (R128, R136).  A framed head is looked at in its cycle, in
a running machine too (`State.exactTurn`). -/
def State.turnQueue (s : State) (q : BitVec 3) : State :=
  match s.cur.queue q with
  | [] => s
  | c :: _ =>
    let miss := s.cur.framed && !c.started
    if s.cur.time < s.cur.earliest c + s.throttleDelay c then s
    else if s.cur.hasTokens c && s.accepts c && !(miss && decide (c.due < s.cur.time)) then
      s.start { c with due := if s.cur.framed then c.due else 0 }
    else if miss then s.deliver (overrunTrap q c.due (s.cur.frameAt.getD 0)) c.depth
    else s

def State.pollAll (s : State) : State :=
  s.cur.inflight.foldl (fun s y => match s.cur.inflight? y.command.queue y.command.num with | some y => s.poll y | none => s) s

/-- A started command still owes a reply entry (06 R133). -/
def Inflight.owes (y : Inflight) : Bool :=
  !y.replies.isEmpty || (y.waiting && match y.command.instr with | .cppost .. => true | _ => false)

/-- Whether a command pushes a reply entry (06 R132). -/
def replying (i : Instr) : Bool :=
  match i with
  | .vred _ _ _ _ _ _ reply => reply
  | .mpopc .. | .mchk .. | .mmae .. | .mres .. | .mbndSum .. | .mbndLyr .. | .mbndFirst .. | .scprobe .. | .screc .. | .erun ..
  | .cppost .. => true
  | _ => false

/-- A started, unretired command of a queue gives to S (06 R130). -/
def Unit.willGive (u : Unit) (q : BitVec 3) : Bool :=
  (u.inflight.any fun y => y.command.queue == q && y.gives == 1) || u.resumed.any fun c => c.queue == q && c.head.give == 1
/-- A started, unretired command owes a reply entry (06 R133). -/
def Unit.willReply (u : Unit) : Bool := u.inflight.any Inflight.owes || u.resumed.any fun c => replying c.instr && !c.empty

/-- A command's cycles are over (05 R100, 08 R175, 09 R198): outside framed mode those of a command that accesses memory are nominal, and a
running machine may retire it at any time (DESIGN CHOICE, log 5). -/
def State.timely (s : State) (y : Inflight) : Bool :=
  decide (y.until_ ≤ s.cur.time) || !(s.prompt || s.cur.framed || y.command.queue == 4 || y.command.exact)

/-- Its reply entries enter the reply queue, behind those of the earlier commands of its queue (06 R132). -/
def State.pushReplies (s : State) (earlier : List Inflight) (y : Inflight) : Unit :=
  let u := s.cur
  if s.timely y && !y.waiting && !y.todo && !(earlier.any fun x => x.command.queue == y.command.queue && x.owes) && decide (u.replies.length + y.replies.length ≤ 16) then
    ({ u with replies := u.replies ++ y.replies,
              replyOf := u.replyOf ++ y.replies.map fun _ => (y.command.queue, y.command.num) }).onInflight y.command.queue y.command.num fun z => { z with replies := [] }
  else u

/-- Whether a command can retire: done, its writes landed, its replies in, room for its token. -/
def State.mayRetire (s : State) (y : Inflight) : Bool :=
  let g := y.gives
  !y.waiting && !y.todo && s.timely y && y.replies.isEmpty && s.landed s.cur y.command && (g == 0 || decide (s.cur.fifo y.command.queue g < 8))

/-- The unit after a command's retirement: flags into FSTAT, records into its lane, its token given (R99, R128, R159, R364). -/
def Unit.retire (u : Unit) (y : Inflight) : Unit :=
  let u := (u.dropInflight y.command).retireFlags y.flags
  let u := if y.trace.isEmpty && u.sigWait.isEmpty then u else u.signCommand y.command (traceRecords y.trace)
  let g := y.gives
  let u := if g == 1 then { u with given := u.given ++ [(y.command.queue, y.command.num)], readGiven := u.readGiven ++ [(y.command.queue, y.reads)] }
    else u
  if g == 0 then u
  else { u.setFifo y.command.queue g (u.fifo y.command.queue g + 1) with justGiven := u.justGiven ++ [(y.command.queue, g)] }

/-- A retiring SCRPLY lets go of the entry its quire has pinned (05 R118). -/
def State.unpin (s : State) (c : Command) : State :=
  match c.instr with
  | .scrply .. =>
    if c.empty then s
    else
      let k := stepIndex (gidSection s.cur.gid) (fld (dBase c.db) 0 32)
      s.onDev (gidDev s.cur.gid) fun d => d.setStep k { d.step k with pins := (d.step k).pins.filter (· != s.cur.gid) }
  | _ => s

def retirePass : List Inflight → List Inflight → State → (Inflight → Bool) → State
  | _, [], s, _ => s
  | earlier, y :: rest, s, p =>
    if !p y then retirePass (earlier ++ [y]) rest s p
    else
      let s := { s with cur := s.pushReplies earlier y }
      match s.cur.inflight? y.command.queue y.command.num with
      | none => retirePass earlier rest s p
      | some y => if s.mayRetire y then retirePass earlier rest ((State.engineFreed { s with cur := s.cur.retire y } y.command).unpin y.command) p
                  else retirePass (earlier ++ [y]) rest s p

def State.retireAll (s : State) : State := retirePass [] s.cur.inflight s fun _ => true

/-- The oldest store waits for room in a full release buffer: the buffer meets, or its region ends (20 R361, R378). -/
def State.storeFull (s : State) : State :=
  if 0 < s.cur.bufferedDepth then s.contain 4 s.cur.bufferedDepth 1 (BitVec.ofNat 64 (s.bufferRoom s.cur))
  else match s.meet 1 [] with | .go s => s | .stay s => s

/-- What the oldest entry of the window raises: the trap of an access that was held back, or ILLFLD of a push whose command can
never start (06 R129). -/
def State.stuckPush (s : State) : State :=
  match s.cur.window with
  | [] => s
  | e :: _ =>
    match s.oldestTrap with
    | some t => s.deliver t s.cur.regions.length
    | none =>
    if e.store.isSome && s.cur.canCommit e && !s.storeHeld e && !s.storeFits e then s.storeFull
    else match e.push with
    | none => s
    | some (q, n) =>
      match s.cur.queue q with
      | [] => s
      | c :: _ =>
        if c.num == n && !c.started && (takesOf c.head).contains 1 && s.cur.fifo 1 q == 0 then
          s.deliver (seqTrap .illfld (encode c.instr)) c.depth
        else s

/-- What a cycle brings of itself in a running machine too: the starts of framed heads (06 R135, R136), and the retirement of commands whose
figures are exact (05 R100, 08 R175, 09 R198). -/
def State.exactTurn (s : State) : State :=
  if s.cur.inflight.isEmpty && s.cur.queues.all (·.isEmpty) then s
  else
    let s := if s.cur.framed then engineQueues.foldl State.turnQueue s else s
    retirePass [] s.cur.inflight s fun y => y.command.exact || s.cur.framed

/-- One cycle of the current unit's engines, in a prompt machine (DESIGN CHOICE, log 4): each queue's turn, then completions,
retirements and commits. -/
def State.settle (s : State) : State :=
  if !s.prompt then s.exactTurn
  else if s.cur.window.isEmpty && s.cur.inflight.isEmpty && s.cur.queues.all (·.isEmpty) then s
  else if s.cur.inflight.isEmpty && s.cur.queues.all (·.isEmpty) then s.commit.stuckPush
  else (((engineQueues.foldl State.turnQueue s).pollAll.retireAll).commit).stuckPush

end Sys2Proof.Machine
end

