-- ==== Sys2Proof/Machine/Links.lean ====
section
/-! DEFINITION. The ways of accesses: out of the class queues (16 R289, R296), to the homes and the clasp engines (16 R291, R303), over the
flows between devices (14 R264-R268), and what becomes of them when a flow stops (14 R269-R271). -/
namespace Sys2Proof.Machine
open Sys2Proof

/-! ### When a flow stops (14 R263, R268-R271) -/

/-- The communicator of a Krytlink command. -/
def Command.comm? (c : Command) : Option Nat :=
  match c.instr with
  | .cpcoll .. | .cpsend .. | .cppost .. => some (commNumber c.instr c.db c.scalar)
  | _ => none

/-- LINKFAIL's TVAL for a command whose traffic meets a stopped flow (R270). -/
def Command.linkTval (c : Command) (port : Nat) : Word := match c.comm? with | some k => commTval port k | none => BitVec.ofNat 64 port

/-- LINKFAIL of a started command when the flow between two devices has stopped, with its TVAL: its packets are lost, or it stands on a
communicator that the stop has broken (R270, R272). -/
def State.linkBroken (s : State) (u : Unit) (y : Inflight) (lost : List Packet) (src dst : Dev) (port : Nat) : Option Word :=
  let c := y.command
  let broken := match c.comm? with
    | some k =>
      let devs := (s.comm (s.dev (gidDev u.gid)) k).devs
      y.waiting && devs.contains src && devs.contains dst
    | none => false
  if broken || lost.any fun p => p.access.gid == u.gid && p.access.command == some (c.queue, c.num) then some (c.linkTval port) else none

/-- What a Krytlink command left at other devices goes when it stops (R279). -/
def State.withdraw (s : State) (u : Unit) (c : Command) : State :=
  (s.devs.map (·.num)).foldl (fun s n => s.onDev n fun d =>
    { d with posts := d.posts.filter fun p => !p.of u.gid c, sends := d.sends.filter fun p => !p.of u.gid c,
             contribs := d.contribs.filter fun x => x.taken || x.command != c.num || x.gid != u.gid }) s

/-- An ordered reduction that has sent a contribution: LINKFAIL abandons it (12 R247). -/
def Inflight.committed (y : Inflight) : Bool :=
  match y.command.instr with | .cpred _ _ _ _ ord _ _ => ord && !y.trace.isEmpty | _ => false

/-- The current unit's commands that a stopped flow stops: all are parked, but for those that it abandons, and the one of the lowest queue
code raises the trap (R270, 21 R385, R391). -/
def State.stopAll (s : State) (ys : List (Inflight × Word)) : State :=
  let u := s.cur
  let s := ys.foldl (fun s e => s.withdraw u e.1.command) s
  let s := ys.foldl (fun (s : State) (e : Inflight × Word) =>
    let c := { e.1.command with flags := e.1.command.flags ||| e.1.flags, trace := e.1.trace, engine := u.gid }
    let p := if c.queue = 5 then 0 else c.resume.getD 0
    let v := s.cur.dropInflight c
    if c.handler || e.1.committed then { s with cur := v }
    else { s with cur := ({ v with parked := v.parked ++ [{ c with resume := some p }] }).setProgress c.queue (BitVec.ofNat 64 (2 ^ 62 + p)) }) s
  match engineQueues.findSome? fun q => ys.find? fun e => e.1.command.queue == q with
  | some e => s.deliver (cmdTrap e.1.command.queue .linkfail e.2) e.1.command.depth
  | none => s

/-- An access of the current unit meets a stopped flow: a store is lost, and LINKFAIL waits for the next release; a load or a request is made
again, and traps; a command stops (R270). -/
def State.linkLost (s : State) (x : Access) (port : Nat) : State :=
  let u := s.cur
  if x.orphan then s
  else match x.command, x.want with
  | some (q, n), _ => match u.inflight? q n with | some y => s.stopAll [(y, y.command.linkTval port)] | none => s
  | none, .write | none, .register _ => { s with cur := { u with lost := u.lost ++ [(x.cls, BitVec.ofNat 64 port)] } }
  | none, .load num _ => { s with cur := { u with window := u.window.map fun e =>
      { e with load := e.load.map fun h => if h.sent == some num then { h with sent := none } else h } } }
  | none, .request .. => { s with cur := u.dropRequest }
  | none, _ => s

/-- A flow stops (R270): its packets are lost, communicators break, and the commands that use it stop. -/
def State.stopFlow (s : State) (src dst : Dev) (port : Nat) : State :=
  let gone (p : Packet) : Bool := p.src == src && p.dst == dst
  let lost := s.flows.filter gone
  let s := ({ s with flows := s.flows.filter fun p => !gone p }.markStopped src dst port).breakBetween src dst
  let s := (lost.filter fun p => p.access.command.isNone).foldl (fun s p => s.onUnit p.access.gid fun s => s.linkLost p.access port) s
  (s.units.map (·.gid)).foldl (fun s g =>
    let u := s.unitAt g
    match u.inflight.filterMap fun y => (s.linkBroken u y lost src dst port).map fun x => (y, x) with
    | [] => s
    | ys => s.onUnit g fun s => s.stopAll ys) s

/-- The flows that have stopped since `before` stop their traffic. -/
def State.linksDown (before s : State) : State := (newlyStopped before s).foldl (fun s e => s.stopFlow e.1 e.2.1 e.2.2) s

/-- A write of a device register with what it does to the flows (R269, R270; 23 R413).  Of the writes of different masters that arrive in one
cycle those of lower ids are admitted first: one that comes after a write of a higher id has come a cycle later (23 R414). -/
def State.registerWrite (s : State) (n : Dev) (by_ : Master) (off : Nat) (x : Word) : State :=
  if by_ == .core then s.linksDown (s.regWrite n by_ off x)
  else
    let late := (s.dev n).wrote.any fun e => e.1 == s.clock && decide (Master.id by_ < e.2)
    let s := if late then { s with clock := s.clock + 1 } else s
    (s.linksDown (s.regWrite n by_ off x)).onDev n fun d => { d with wrote := some (s.clock, Master.id by_) }

/-! ### Arriving (16 R291-R293, R303) -/

/-- A request reaches its clasp engine, behind those that have arrived on its entry; one that its unit has given up does not. -/
def State.arriveRequest (s : State) (num : Nat) : State :=
  match s.cur.wait with
  | some w =>
    if w.num = num then
      { s with clasps := s.clasps.filter (fun e => e.1 != s.cur.gid) ++ [(s.cur.gid, w.key)], cur := { s.cur with arrived := true } }
    else s
  | none => s

/-- A store to a device register reaches it; one of 4 bytes keeps the other half (03 R67, 23 R413). -/
def State.arriveRegister (s : State) (x : Access) (off : Nat) : State :=
  let n := addrDev x.addr
  let old := leBytes 8 (s.readReg n (off / 8 * 8)).toNat
  s.registerWrite n .core (off / 8 * 8) (BitVec.ofNat 64 (fromLe (old.take (off % 8) ++ x.data ++ old.drop (off % 8 + x.data.length))))

/-- The fault of an access of the current unit whose bank has left the mode, or the task, under which it was checked (04 R79, R80, R91). -/
def State.turnedAway (s : State) (x : Access) : Option Trap :=
  if x.addr < sramBase then none
  else match x.command with
  | none => s.scratchTrap .store x.addr
  | some (q, _) =>
    let b := (s.dev (addrDev x.addr)).bank ((x.addr - sramBase) % 2 ^ 30 / 2 ^ 19)
    if b.mode == 0 || b.mode == 4 || b.owner != s.cur.task then
      some (accessTrap q (if x.data.isEmpty then .copyRead else .copyWrite) .protv (BitVec.ofNat 64 ((x.addr - sramBase) % 2 ^ 24)))
    else none

/-- A write whose bank turns it away is not made: its command stops, to be redone from its beginning, and that of the sequencer, which has
committed, traps where the sequencer stands (04 R91; DESIGN CHOICE, log 88). -/
def State.refuseWrite (s : State) (x : Access) (t : Trap) : State :=
  match x.command with
  | none => s.raise t
  | some (q, n) => match s.cur.inflight? q n with
    | some y => s.conclude y.command (.stopped s t 0 0)
    | none => s

/-- A write reaches its home. -/
def State.arriveWrite (s : State) (x : Access) : State :=
  match if x.addr < sramBase then none else (s.switchTo x.gid).turnedAway x with
  | some t => if x.orphan then s else s.onUnit x.gid fun s => s.refuseWrite x t
  | none => s.admitAt x x.release

/-- An access is admitted at its home, a request reaches its clasp engine, a part of a command its device. -/
def State.arriveIn (s : State) (v : View) (x : Access) : State :=
  match x.want, x.command with
  | .write, _ | .apart .., _ | .record .., _ => s.arriveWrite x
  | .register off, _ => s.arriveRegister x off
  | .load key n, some (q, num) => s.onUnit x.gid fun s => if (s.turnedAway x).isSome then s else s.readFor v q num x.cls key x.addr n
  | .load num _, none => s.onUnit x.gid fun s => s.arriveLoad v num
  | .prefetch l1, _ => s.onUnit x.gid fun s => s.prefetched (x.addr / 128) l1
  | .atomic slot, some (q, num) => s.onUnit x.gid fun s => s.updateFor q num (2 ^ 120 + slot) x
  | .request num .., _ => s.onUnit x.gid fun s => s.arriveRequest num
  | .message _, _ => s.arriveMessage x
  | .atomic _, none | .held, _ => s
def State.arrive (s : State) (x : Access) : State := s.arriveIn s.view x

/-- The place where an access arrives can take it: there is room for an early contribution (12 R244) and for a send without a match (14
R279), and no mode change holds its bank (04 R91). -/
def State.admits (s : State) (x : Access) : Bool :=
  match x.want with
  | .write | .apart .. | .record .. => s.ordRoom x && !s.homeHeld x
  | .load .. | .atomic .. | .prefetch .. => !s.homeHeld x
  | .message _ => !s.messageStuck x
  | .register .. | .request .. | .held => true

/-! ### Writes of one command to one sector (12 R236) -/

/-- Rows of a command's result may share a sector of device memory: an entry of a list may repeat a row, else their strides tell. -/
def Command.sharesSectors (c : Command) : Bool :=
  match c.instr with
  | .cpsct .. | .vscats .. => true
  | _ => decide (1 < dRows c.da) && decide ((dStride c.da).natAbs < rowBytes c.da + 128)

/-- A command of the unit may still write to the sector of one of its writes. -/
def Unit.mayAdd (u : Unit) (x : Access) : Bool :=
  u.classQ.any fun y => y.want == .held && x.want == .write && x.command.isSome && y.command == x.command && x.reduce.isNone && decide (x.addr < sramBase) &&
    match y.command.bind fun k => u.inflight? k.1 k.2 with | some z => z.command.sharesSectors | none => false

/-- A packet arrives, with the writes to the same sector that travel with it. -/
def State.arrivePacket (s : State) (p : Packet) : State := p.more.foldl State.arrive ((s.healWhole (p.access :: p.more)).arrive p.access)

/-! ### Leaving the class queues (16 R289, R290, R296) -/

/-- The commands whose writes to one line keep their order (08 R189, 12 R239, R244, 17 R320). -/
def Command.inSequence (c : Command) : Bool :=
  match c.instr with
  | .cpsct .. | .vscats .. | .erun .. => true
  | .cpred _ _ _ _ ord _ _ => ord
  | _ => false
def Unit.keepsOrder (u : Unit) (x : Access) : Bool :=
  match x.command.bind fun k => u.inflight? k.1 k.2 with | some y => y.command.inSequence | none => true

/-- The releases that a write of the current unit carries: its own, and that of the FENCE that governs its class (R295). -/
def Unit.carried (u : Unit) (cls : BitVec 4) (own : Option (BitVec 3 × BitVec 16)) : List (BitVec 3 × BitVec 16) :=
  own.toList ++ (match u.carrier with | some c => if maskHas c.2 cls then [c] else [] | none => [])

/-- The releases that an access carries: a request's write carries those of its unit too (R295). -/
def Access.carries (x : Access) (u : Unit) : List (BitVec 3 × BitVec 16) :=
  match x.want with | .request _ _ writes => if writes then u.carried x.cls x.carrier else [] | _ => x.carrier.toList

/-- An access may leave: every entry of its class that entered before it has left, but for its own set, and what it carries is ready
(R289, R296); where it arrives at once, its home takes it; a write to another device takes its command's other writes to the sector along (12
R236). -/
def State.mayLeave (s : State) (u : Unit) (before : List Access) (x : Access) : Bool :=
  let set (y : Access) : Bool :=
    x.command.isSome && y.command == x.command && (y.want == .held || y.addr / 256 != x.addr / 256 || !u.keepsOrder x)
  x.want != .held && before.all (fun y => y.cls != x.cls || set y) && (!s.atOnce x || s.admits x) &&
  (addrDev x.addr == gidDev x.gid || s.atOnce x || !u.mayAdd x) && (x.carries u).all fun c => s.knownWide (if u.live ≤ 1 then u else s.actor) c.2 c.1.toNat

/-- A carrier transports its releases as they stand when it leaves (R299). -/
def State.loaded (s : State) (x : Access) : Access :=
  match x.carrier with
  | some c => { x with release := x.release ++ [s.releaseOf s.cur c.1 c.2] }
  | none => x
/-- The same of the request that the current unit waits with. -/
def State.loadRequest (s : State) (x : Access) : State :=
  match x.want with
  | .request .. =>
    let rs := (x.carries s.cur).map fun c => s.releaseOf s.actor c.1 c.2
    { s with cur := { s.cur with wait := s.cur.wait.map fun w => { w with releases := rs } } }
  | _ => s

/-- An access leaves its class queue for its home's admission queue, its clasp engine, or the flow to its home's device (R289, R303, 14
R265); a default-path load that finds a copy in the L1 is answered from it. -/
def State.leave (s : State) (x : Access) : State :=
  let s := s.loadRequest x
  let src := gidDev s.cur.gid
  let dst := addrDev x.addr
  match match x.want, x.command with | .load num _, none => s.answerLeaving num | _, _ => none with
  | some t => t
  | none =>
  match s.flowFails src dst with
  | some port => s.linkLost x port
  | none =>
    let y := s.loaded x
    if s.atOnce x then s.arrive y
    else if src == dst then (match x.want with | .request .. | .message _ | .register _ => s.arrive y | _ => { s with admQ := s.admQ ++ [y] })
    else
      let more := s.cur.classQ.filter x.oneSector
      State.sendFar { s with cur := { s.cur with classQ := s.cur.classQ.filter fun z => !x.oneSector z } } y (more.map s.loaded)

/-- The accesses of the current unit that may leave do, from place `k` of its class queues on. -/
def leaveAll : Nat → Nat → State → State
  | 0, _, s => s
  | fuel + 1, k, s =>
    match s.cur.classQ[k]? with
    | none => s
    | some x =>
      if s.mayLeave s.cur (s.cur.classQ.take k) x then
        leaveAll fuel k (({ s with cur := { s.cur with classQ := s.cur.classQ.eraseIdx k } } : State).leave x)
      else leaveAll fuel (k + 1) s

/-! ### The end of a mode change (04 R91, R92) -/

/-- A change that has begun ends: the bank is in its new mode. -/
def State.endChange (s : State) (dev : Dev) (b : Nat) : State :=
  let x := (s.dev dev).bank b
  (s.changeMode dev b (x.changing.getD x.mode)).onDev dev fun d => d.setBank b { d.bank b with changing := none, begun := false, told := false }

/-- In a prompt machine the changes of the current unit's device end when their cycles have passed. -/
def State.endChanges (s : State) : State :=
  if !s.prompt then s
  else
    let due (x : Bank) : Bool := x.changing.isSome && x.begun &&
      ((x.asker == s.cur.gid && decide (x.ends ≤ s.cur.time)) || (x.asker != s.cur.gid && (s.unitAt x.asker).run == .idle))
    (s.myDev.banks.filter fun e => due e.2).foldl (fun s e => s.endChange s.myDev.num e.1) s

/-! ### The flows (14 R265-R269) -/

/-- A packet is the first of its flow, runs in the mode of both its devices, and its place at the other end is free. -/
def State.deliverable (s : State) (p : Packet) : Bool :=
  (s.flows.find? fun x => x.src == p.src && x.dst == p.dst) == some p && (s.dev p.src).routeMode == (s.dev p.dst).routeMode && s.admits p.access

/-- Packets are delivered one after the other; one that finds no room keeps those behind it on its flow, and of a batch all that come after it in
the device's order (R268). -/
def deliverAll (batch : Bool) : List Packet → State → State
  | [], s => s
  | p :: rest, s =>
    if s.deliverable p then deliverAll batch rest (({ s with flows := s.flows.erase p } : State).arrivePacket p)
    else if batch then s else deliverAll batch rest s

/-- The packets of a flow's destination by rising source, each source's in flow order (R268). -/
def State.bySource (s : State) (ps : List Packet) : List Packet :=
  (List.range 64).flatMap fun k => ps.filter fun p => (s.dev p.src).seen.toNat == k

/-- The packets on their way to a device in TICK mode. -/
def State.batched (s : State) (dst : Dev) : List Packet := s.flows.filter fun p => p.dst == dst && !(s.dev p.src).routeMode

/-- The oldest tick of which packets are on their way to a device, and the boundary by which all of them have arrived: batch `n` over `h`
hops by boundary `n + 1 + h` (R267, R268). -/
def State.nextBatch (s : State) (dst : Dev) : Option (Nat × Nat) :=
  match s.batched dst with
  | [] => none
  | p :: ps =>
    let n := ps.foldl (fun n p => min n p.tick) p.tick
    some (n, ((p :: ps).filter fun p => p.tick == n).foldl (fun b p => max b (n + 1 + p.hops)) 0)

/-- The batches of one tick are admitted by rising source (R268). -/
def State.admitBatch (s : State) (dst : Dev) (n : Nat) : State := deliverAll true (s.bySource ((s.batched dst).filter fun p => p.tick == n)) s

/-- The batches that have arrived at a device by the shelf's clock. -/
def State.admitDue (dst : Dev) : Nat → State → State
  | 0, s => s
  | fuel + 1, s =>
    match s.nextBatch dst with
    | some (n, b) => if tickCycles * b ≤ s.clock then State.admitDue dst fuel (s.admitBatch dst n) else s
    | none => s

/-- What travels in a prompt machine: the current unit's accesses leave, ROUTE flows deliver, and TICK batches arrive by the clock (DESIGN
CHOICE, log 4). -/
def State.pump (s : State) : State :=
  if !s.prompt || (s.flows.isEmpty && s.cur.classQ.all fun x => x.want == .held) then s
  else
    let s := leaveAll s.cur.classQ.length 0 s
    if s.flows.isEmpty then s
    else
      let s := deliverAll false (s.flows.filter fun p => (s.dev p.src).routeMode) s
      (s.devs.map (·.num)).foldl (fun s n => State.admitDue n s.flows.length s) s

/-- The cycles until the next batch that the machine waits for arrives. -/
def State.nextArrival (s : State) : Option Nat :=
  match (s.devs.filterMap fun d => s.nextBatch d.num).map fun e => tickCycles * e.2 - s.clock with
  | [] => none
  | t :: ts => some (ts.foldl min t)

end Sys2Proof.Machine
end

