-- ==== Sys2Proof/Machine/Issue.lean ====
section
/-! DEFINITION. Issue, completion and the commit point (06 R122-R127): what every sequencer instruction does around its own
effect, and the push of an engine command. -/
namespace Sys2Proof.Machine
open Sys2Proof

/-! ### Cycles (06 R123, DESIGN CHOICE, log 5) -/

/-- A cycle passes for the current unit, and with it one cycle of its engines and of what travels. -/
def State.tick (s : State) : State :=
  ({ s with cur := { s.cur with time := s.cur.time + 1, justGiven := [] }, clock := s.clock + 1 }).endChanges.pump.settle

/-- Cycles pass in which the current unit issues nothing. -/
def State.pass (s : State) (n : Nat) : State :=
  { s with cur := { s.cur with time := s.cur.time + n, justGiven := if n = 0 then s.cur.justGiven else [] }, clock := s.clock + n }

/-- No engine of the unit has anything to do. -/
def Unit.still (u : Unit) : Bool := u.inflight.isEmpty && u.queues.all (·.isEmpty)

/-- The cycles after which a waiting MWAIT reads again (12 R255). -/
def monitorPeriod : Nat := 4096

/-- The later cycles in which something that the unit waits for may come about: a queue head's start, a command's end, an instruction's
completion, a register's landing. -/
def Unit.events (u : Unit) : List Nat :=
  let heads := engineQueues.filterMap fun q => (u.queue q).head?
  let regs := heads.flatMap fun c =>
    let r := vecRegs c.instr c.fmt
    if c.queue = 4 then r.vr.map (fun k => (u.vready.toArray[k]?).getD 0) ++ r.mr.map fun k => (u.mready.toArray[k]?).getD 0 else []
  (heads.map u.earliest ++ regs ++ u.inflight.flatMap (fun y => [y.until_, y.fed]) ++ (u.window.take 1).map (·.done) ++
    u.wait.toList.map (fun w => w.since + monitorPeriod) ++ u.sailing.map (·.2) ++ [u.busy, u.permute]).filter
    fun t => decide (u.time < t)

/-- How long a sequencer that waits can skip: to the cycle before the first of those. -/
def State.slack (s : State) : Nat :=
  let u := s.cur
  let delayed := ((engineQueues.filterMap fun q => (u.queue q).head?).map fun c => u.earliest c + s.throttleDelay c).filter fun t => decide (u.time < t)
  match u.events ++ delayed ++ (s.nextArrival.map fun n => u.time + n).toList with
  | [] => 0
  | t :: ts => if u.justGiven.isEmpty then ts.foldl min t - 1 - u.time else 0

/-- Nothing issues this cycle. -/
def State.wait (s : State) : State := if s.prompt then (s.pass s.slack).tick else s.tick

/-- The sequencer waits: it issues nothing this cycle, and the instruction at the PC is tried again. -/
def stall (s : State) : Res := .next s.wait

/-- The sequencer waits for a cycle, and skips to it where no engine has work. -/
def stallUntil (t : Nat) (s : State) : Res :=
  if s.prompt && s.cur.still && s.flows.isEmpty then .next (s.pass (t - 1 - s.cur.time)).tick else stall s

/-- Goes on in a later cycle: at once where no engine of a prompt machine has work meanwhile. -/
def after (t : Nat) (f : State → Res) (s : State) : Res :=
  if t ≤ s.cur.time then f s
  else if (s.prompt || s.cur.framed) && !(s.cur.still && s.flows.isEmpty) then stall s
  else f (s.pass (t - s.cur.time))

/-! ### Turns in which nothing issues -/

/-- The debug port lets the sequencer issue: it is not stopped, and of a step it has not executed the instruction nor reached the handler's
first word (21 R397). -/
def Unit.released (u : Unit) : Bool :=
  match u.debug with
  | .off => true
  | .stopped => false
  | .step _ n l _ => u.executed == n && u.tlevel == l

/-- The sequencer issues: it runs, no trap waits to be taken, the debug port lets it, and it is not busy with what it has begun (04 R87, 21
R388, R392). -/
def Unit.issues (u : Unit) : Bool := u.run == .running && u.raised.isNone && u.cutting.isNone && u.released && decide (u.busy ≤ u.time)

/-- A step is over: its instruction has committed, or pushed its command, or the handler's first word is reached (21 R397). -/
def Unit.stepOver (u : Unit) : Bool :=
  match u.debug with
  | .step _ n l _ => u.tlevel != l || (u.executed != n && (u.executed == u.committed || u.window.getLast?.any (·.push.isSome)))
  | _ => false

/-- The commands that a step has pushed have retired (21 R397). -/
def Unit.pushesDone (u : Unit) (nums : Vector (BitVec 32) 7) : Bool :=
  let mine (c : Command) : Bool := decide ((c.num - nums[qidx c.queue]).toNat < (u.nextNum[qidx c.queue] - nums[qidx c.queue]).toNat)
  u.queues.all (fun l => l.all fun c => !mine c) && u.inflight.all fun y => !mine y.command

/-- The engines stand still: between engine steps (21 R397). -/
def Unit.held (u : Unit) : Bool :=
  match u.debug with
  | .step true _ _ nums => u.stepOver && u.pushesDone nums
  | _ => false

/-- A turn in which the current unit issues nothing: a trap that waits is taken once the window is empty (21 R384), one that is being taken is
recorded once its cut is formed (21 R385), else cycles pass; a unit that the debug port holds stands still (21 R397). -/
def rest (s : State) : Res :=
  match s.cur.raised with
  | some t => if s.prompt && s.cur.window.isEmpty then .next (s.deliver t s.cur.regions.length) else .next s.tick
  | none =>
    if s.prompt && s.cur.cutting.isSome && s.cutDone then .next s.endCut
    else .next (if s.cur.held then { s with clock := s.clock + 1 } else s.wait)

/-! ### Issue (02 R43-R47, 06 R124, R139) -/

/-- A class 3 word that the body of an active loop may not hold (R139). -/
def Unit.bodyBreach (u : Unit) (i : Instr) : Bool :=
  u.inBody u.pc &&
  match i with
  | .br .. | .beq .. | .bne .. | .blt .. | .bge .. | .bltu .. | .bgeu .. => !u.lbody.getLsbD 62
  | .call .. | .callr .. | .ret .. | .jmpr .. | .loop .. | .loopx .. => true
  | _ => false

/-- Entries of the commit window (R124). -/
def windowSize : Nat := 256

/-- What precedes every instruction: ILLOP of a system core (01 R16), ILLFLD in a loop body, a full window. -/
def issue (i : Instr) (f : State → Res) (s : State) : Res :=
  if s.cur.isCore && coreIllopWord (encode i) then trapNow s (seqTrap .illop (encode i))
  else if s.cur.bodyBreach i then trapNow s (seqTrap .illfld (encode i))
  else if windowSize ≤ s.cur.window.length then stall s
  else f s

/-- The cycle in which every register read holds its value. -/
def Unit.readyAt (u : Unit) (rs : List Reg) (ds : List DReg) : Nat :=
  ds.foldl (fun t (d : DReg) => max t u.dready[d.toNat])
    (rs.foldl (fun t (r : Reg) => max t (if r = 0 then 0 else u.ready[r.toNat])) 0)

/-- The register SHADOW names: the first read before its value has landed (21 R387). -/
def Unit.shadowed (u : Unit) (rs : List Reg) (ds : List DReg) : Word :=
  match rs.find? fun r => r != 0 && (decide (u.time < u.ready[r.toNat]) || u.waits.any fun w => w.2.isReg r) with
  | some r => r.setWidth 64
  | none =>
    match ds.find? fun d => decide (u.time < u.dready[d.toNat]) || u.waits.any fun w => w.2.isDesc d with
    | some d => BitVec.ofNat 64 (192 + d.toNat)
    | none => 0

/-- A register read awaits a load that has not left (06 R125). -/
def Unit.awaits (u : Unit) (rs : List Reg) (ds : List DReg) : Bool :=
  u.waits.any fun w => rs.any w.2.isReg || ds.any w.2.isDesc

/-- Reads registers: a read inside a write's latency waits, or in framed mode raises SHADOW (R123). -/
def reading (rs : List Reg) (ds : List DReg) (f : State → Res) (s : State) : Res :=
  if s.cur.framed && (s.cur.awaits rs ds || decide (s.cur.time < s.cur.readyAt rs ds)) then trapNow s (seqTrap .shadow (s.cur.shadowed rs ds))
  else if s.cur.awaits rs ds then stall s
  else after (s.cur.readyAt rs ds) f s

/-- An instruction that executes only at the commit point (R125): every earlier one has completed and committed (R124). (DEDUCED, log 26) -/
def atCommit (f : State → Res) (s : State) : Res := if s.cur.window.isEmpty then f s else stall s

/-- Reads registers whose values may break a rule that stands before SHADOW (02 R47): `vet` says what the values break, told which of them are
known; a framed read of a register that awaits a load knows nothing of it. (DEDUCED, log 75) -/
def vetting (rs : List Reg) (vet : (Reg → Bool) → State → Option Trap) (f : State → Res) (s : State) : Res :=
  match if s.cur.framed then vet (fun r => !s.cur.awaits (rs.filter (· == r)) []) s else none with
  | some t => trapNow s t
  | none => reading rs [] (fun s => match vet (fun _ => true) s with | some t => trapNow s t | none => f s) s

/-! ### Completion -/

/-- A write of s[a] whose value lands after `lat` cycles (R123). -/
def Unit.land (u : Unit) (a : Reg) (x : Word) (lat : Nat) : Unit :=
  if a = 0 then u else { u.ws a x with ready := u.ready.set a.toNat (u.time + lat) }
/-- A write of d[a]. -/
def Unit.landDesc (u : Unit) (a : DReg) (x : Desc) (lat : Nat) : Unit := { u.wd a x with dready := u.dready.set a.toNat (u.time + lat) }

/-- A load's value lands (04 R85, R94, R95). -/
def Unit.landLoad (u : Unit) (l : LoadDest) (x : Desc) (lat : Latency) : Unit :=
  match l with
  | .scalar a _ _ => u.land a (x.setWidth 64) (u.landsAt lat - u.time)
  | .descr d => u.landDesc d x (u.landsAt lat - u.time)

/-- A store leaves at once: nothing before it waits to commit, and it finds room (R125). -/
def State.storeNow (s : State) (store : Option (Access × List (List Byte))) : Bool :=
  match store with
  | some x => s.cur.window.isEmpty && s.bufferFits [x.1] && (decide (x.1.addr < sramBase) || !s.scratchHeld x.1.addr)
  | none => false

/-- An instruction has executed and leaves the unit `after`: it commits, or takes its place in the window until it has completed, `lat`
cycles on (R124, R125), and its cycle passes.  A store that finds no room waits in the window (20 R360). -/
def State.execute (s : State) (after : Unit) (store : Option (Access × List (List Byte))) (lat : Nat) : State :=
  let held := store.isSome && !s.storeNow store
  let s' := { s with cur := s.cur.record after none store none (s.cur.time + if held then max 2 lat else lat) }
  State.tick (match store with
    | some x => if held then s' else State.put { s' with cur := s'.cur.sign 1 x.2 } x.1
    | none => s')

/-- A load whose access has not returned has executed: its register awaits it (06 R125). -/
def State.executeLoad (s : State) (h : HeldLoad) : State :=
  ({ s with cur := s.cur.record (s.cur.advance.await s.cur.executed h.dest) none none (some h) (s.cur.time + 1) }).tick

/-- A push has executed: its command stands in its queue, and a head whose cycle has come starts (R127, R135). -/
def State.executePush (s : State) (after : Unit) (c : Command) : State :=
  let s' := { s with cur := s.cur.record after (some (c.queue, c.num)) none none (s.cur.time + 1) }
  (if s.cur.framed && c.due == s.cur.time then s'.turnQueue c.queue else s').tick

/-- An instruction that only changes registers, and goes on with the next word. -/
def finishIn (lat : Nat) (s : State) (after : Unit) : Res := .next (s.execute after.advance none lat)
def finish (s : State) (after : Unit) : Res := finishIn 1 s after

/-- An instruction that writes s[a]. -/
def finishReg (s : State) (a : Reg) (x : Word) (lat : Nat) : Res := finishIn lat s (s.cur.land a x lat)

/-- An instruction that commits at once and writes s[a], whose value lands after a latency (R125). -/
def finishValue (s : State) (a : Reg) (x : Word) (lat : Latency) : Res := finish s (s.cur.land a x (s.cur.landsAt lat - s.cur.time))

/-- The sequencer issues nothing before `n` cycles have passed from the present one on. -/
def Unit.busyFor (u : Unit) (n : Nat) : Unit := { u with busy := u.time + n }

/-- A request that writes s[a] takes effect and commits at once; nothing issues before it has returned, and its value lands after the bound of its
latency (R123-R125, 12 R252; DEDUCED, log 26). -/
def finishRequest (s : State) (a : Reg) (x : Word) (lat : Latency) : Res := finish s ((s.cur.land a x lat.bound).busyFor lat.typical)

/-! ### Meeting points (20 R360, R361) -/

/-- A meeting point of the instruction at the PC: it waits for what must precede the meeting, meets, and goes on once the
buffer has performed. -/
def State.meetFor (s : State) (recs : List (List Byte)) (ready : State → Bool) : Met :=
  let u := s.cur
  if decide (1 < u.live) && u.met && u.waitingAt == 1 then
    if ready s then .go { s with cur := { u with met := false, waitingAt := 0 } } else .stay s
  else if !ready s then .stay s
  else match s.meet 1 recs with
    | .stay t => .stay t
    | .go t => if ready t then .go t else .stay { t with cur := { t.cur with met := true, waitingAt := 1 } }

/-- PROTV of a release, a request or EXIT inside a buffered region (20 R378); else `f`. -/
def unbuffered (i : Instr) (f : State → Res) (s : State) : Res :=
  if s.cur.regions.any (·.buffered) then trapNow s (seqTrap .protv (encode i)) else f s

/-- Waits or goes on, as a meeting decides.  A unit that a vote has trapped or removed does nothing more. -/
def meeting (recs : List (List Byte)) (ready : State → Bool) (f : State → Res) (s : State) : Res :=
  match s.meetFor recs ready with
  | .go t => f t
  | .stay t => if t.cur.tlevel != s.cur.tlevel || t.cur.run != s.cur.run || t.cur.cutting != s.cur.cutting then .next t else stall t

/-! ### Pushing (R127, R129, R136) -/

/-- The push of an engine command's word, with the edge body of an EBIND and the address of its last word.  It reads its registers, waits
for them outside framed mode, and checks what it has read before a framed read raises SHADOW (02 R47, R95). (DEDUCED, log 75) (DESIGN
CHOICE, log 78) -/
def push (i : Instr) (body : List EdgeForm) (last : Word) (s : State) : Res :=
  match pushForm i with
  | none => trapNow s (seqTrap .illop (encode i))
  | some p =>
    let desc (r : Option DReg) : Desc := match r with | some r => s.cur.rd r | none => 0
    let rs := p.scalar.toList
    let ds := p.da.toList ++ p.db.toList ++ p.dc.toList ++ (extraReg i (desc p.da) (desc p.db) (desc p.dc)).toList
    if 64 ≤ (s.cur.queue p.queue).length then stall s
    else if s.cur.awaits rs ds then
      (if !s.cur.framed then stall s
       else if s.surelyIllfld i p (fun r => !s.cur.awaits [r] []) (fun d => !s.cur.awaits [] [d]) body then trapNow s (seqTrap .illfld (encode i))
       else trapNow s (seqTrap .shadow (s.cur.shadowed rs ds)))
    else after (if s.cur.framed then s.cur.time else s.cur.readyAt rs ds) (fun s =>
      match s.pushCommand i p body with
      | none => trapNow s (seqTrap .illfld (encode i))
      | some c =>
        reading rs ds (fun s =>
          if s.cur.framed && decide (c.due < s.cur.time) then
            .next (s.deliver (overrunTrap c.queue c.due (s.cur.frameAt.getD 0)) s.cur.regions.length)
          else match s.cur.vecShadow c with
            | some x => trapNow s (seqTrap .shadow x)
            | none =>
              let u := s.cur.enqueue c
              let u := if s.cur.framed then u.vecLand c c.due else u
              .next (s.executePush ({ u with pc := last } : Unit).advance c)) s) s

/-- The meaning of an engine command's word. -/
def execPush (i : Instr) (s : State) : Res := issue i (fun s => push i [] s.cur.pc s) s

/-! ### The edge body of an EBIND (02 R42, 17 R315) -/

/-- What stands after an EBIND: its forms and the address of the EEND, or the trap at the word that breaks R42, with
that word's address. -/
inductive BodyWords where
  | body (forms : List EdgeForm) (last : Word)
  | trap (t : Trap) (at_ : Word)
  deriving DecidableEq, Repr

/-- Reads the body words from an address on; at most `fuel` forms may still follow. -/
def readBody (s : State) : Nat → Word → List EdgeForm → BodyWords
  | fuel, va, forms =>
    match s.fetchAt va with
    | .error t => .trap t va
    | .ok w =>
      match decodeBody w with
      | .error r => .trap (rejectTrap false w r) va
      | .ok .eend => .body forms va
      | .ok x =>
        match fuel with
        | 0 => .trap (seqTrap .illfld w) va
        | fuel + 1 => readBody s fuel (va + 8) (forms ++ [x])

/-- EBIND: a trap on a body word has TRET at that word (R46). -/
def pushBind (i : Instr) (s : State) : Res :=
  let body := readBody s 16 (s.cur.pc + 8) []
  let last := match body with | .body _ last => last | .trap _ va => va
  let s := (List.range ((last - s.cur.pc).toNat / 8)).foldl (fun t k => t.scrubFetch (s.cur.pc + BitVec.ofNat 64 (8 * (k + 1)))) s
  match body with
  | .body forms last => push i forms last s
  | .trap t va => trapNow s { t with tret := some va }

end Sys2Proof.Machine
end

