-- ==== Sys2Proof/Machine/Cpi.lean ====
section
/-! DEFINITION. Class 9, copy in (05): each word pushes a command (06 R127); what the command does once it starts is in CopyEngine. -/
namespace Sys2Proof.Machine
open Sys2Proof

/-- CPIN (R109). -/
def execCpin (h : EHead) (oc : BitVec 4) (reloc : Bool) (da db : DReg) (s : State) : Res :=
  execPush (.cpin h oc reloc da db) s

/-- CPROW (R110). -/
def execCprow (h : EHead) (oc : BitVec 4) (reloc oobz : Bool) (da db : DReg) (s : State) : Res :=
  execPush (.cprow h oc reloc oobz da db) s

/-- CPEXP (R113). -/
def execCpexp (h : EHead) (oc : BitVec 4) (reloc : Bool) (da db : DReg) (s : State) : Res :=
  execPush (.cpexp h oc reloc da db) s

/-- CPFILL (R114). -/
def execCpfill (h : EHead) (oc : BitVec 4) (reloc : Bool) (da : DReg) (b : Reg) (s : State) : Res :=
  execPush (.cpfill h oc reloc da b) s

/-- SCPROBE (R116). -/
def execScprobe (h : EHead) (oc : BitVec 4) (reloc : Bool) (da db : DReg) (c : Reg) (s : State) : Res :=
  execPush (.scprobe h oc reloc da db c) s

/-- SCRPLY (R118). -/
def execScrply (h : EHead) (oc : BitVec 4) (reloc : Bool) (da db : DReg) (c : Reg) (s : State) : Res :=
  execPush (.scrply h oc reloc da db c) s

end Sys2Proof.Machine
end

