-- ==== Sys2Proof/Machine/Cpo.lean ====
section
/-! DEFINITION. Class A, copy out and fabric (12, 14): each word pushes a command (06 R127); what the command does once it starts is in StoreEngine. -/
namespace Sys2Proof.Machine
open Sys2Proof

/-- CPOUT (R238). -/
def execCpout (h : EHead) (oc : BitVec 4) (reloc : Bool) (da db : DReg) (s : State) : Res :=
  execPush (.cpout h oc reloc da db) s

/-- CPSCT (R239). -/
def execCpsct (h : EHead) (oc : BitVec 4) (reloc skip : Bool) (da db : DReg) (s : State) : Res :=
  execPush (.cpsct h oc reloc skip da db) s

/-- CPPACK (R240). -/
def execCppack (h : EHead) (oc : BitVec 4) (reloc : Bool) (da db : DReg) (s : State) : Res :=
  execPush (.cppack h oc reloc da db) s

/-- CPRED (R243). -/
def execCpred (h : EHead) (oc : BitVec 4) (reloc : Bool) (op : BitVec 3) (ord : Bool) (da db : DReg) (s : State) : Res :=
  execPush (.cpred h oc reloc op ord da db) s

/-- CPCOLL (R275). -/
def execCpcoll (h : EHead) (oc : BitVec 4) (kind : BitVec 3) (arr : Bool) (da db : DReg) (s : State) : Res :=
  execPush (.cpcoll h oc kind arr da db) s

/-- CPSEND (R279). -/
def execCpsend (h : EHead) (oc : BitVec 4) (db : DReg) (c : Reg) (s : State) : Res :=
  execPush (.cpsend h oc db c) s

/-- CPPOST (R279). -/
def execCppost (h : EHead) (oc : BitVec 4) (da : DReg) (c : Reg) (s : State) : Res :=
  execPush (.cppost h oc da c) s

/-- SCREC (R245). -/
def execScrec (h : EHead) (oc : BitVec 4) (reloc : Bool) (da db : DReg) (c : Reg) (s : State) : Res :=
  execPush (.screc h oc reloc da db c) s

/-- CPCNV (R241). -/
def execCpcnv (h : EHead) (oc : BitVec 4) (reloc : Bool) (da db : DReg) (s : State) : Res :=
  execPush (.cpcnv h oc reloc da db) s

end Sys2Proof.Machine
end

