-- ==== Sys2Proof/Machine/Ctl.lean ====
section
/-! DEFINITION. Class 3, control transfer (06 R137-R139, R149-R151). -/
namespace Sys2Proof.Machine
open Sys2Proof

/-- A taken branch: to a word of an active loop's body it continues the pass, elsewhere it ends the loop (R139). -/
def Unit.jump (u : Unit) (target : Word) : Unit :=
  if u.inBody u.pc && !u.inBody target then { u with pc := target, lbody := u.lbody &&& 0x7FFFFFFFFFFFFFFF }
  else { u with pc := target }

/-- An instruction that has executed and transfers control. -/
def finishJump (s : State) (after : Unit) (target : Word) : Res := .next (s.execute (after.jump target) none 1)

/-- The target of an offset in words (R149). -/
def branchTarget (pc : Word) (off : BitVec 32) : Word := pc + off.signExtend 64 * 8

/-- A conditional branch (R149). -/
def branchOp (i : Instr) (a b : Reg) (off : BitVec 32) (taken : Word → Word → Bool) (s : State) : Res :=
  issue i (reading [a, b] [] fun s =>
    if taken (s.cur.rs a) (s.cur.rs b) then finishJump s s.cur (branchTarget s.cur.pc off) else finish s s.cur) s

/-- A transfer to a register's address, which must be a multiple of 8 (R150). -/
def jumpReg (s : State) (after : Unit) (target : Word) : Res :=
  if target.toNat % 8 ≠ 0 then trapNow s (seqTrap .align target) else finishJump s after target

/-- BR (R149). -/
def execBr (off : BitVec 32) (s : State) : Res :=
  issue (.br off) (fun s => finishJump s s.cur (branchTarget s.cur.pc off)) s

/-- BEQ (R149). -/
def execBeq (a b : Reg) (off : BitVec 32) (s : State) : Res := branchOp (.beq a b off) a b off (fun x y => x == y) s

/-- BNE (R149). -/
def execBne (a b : Reg) (off : BitVec 32) (s : State) : Res := branchOp (.bne a b off) a b off (fun x y => x != y) s

/-- BLT (R149). -/
def execBlt (a b : Reg) (off : BitVec 32) (s : State) : Res := branchOp (.blt a b off) a b off (fun x y => x.slt y) s

/-- BGE (R149). -/
def execBge (a b : Reg) (off : BitVec 32) (s : State) : Res := branchOp (.bge a b off) a b off (fun x y => !x.slt y) s

/-- BLTU (R149). -/
def execBltu (a b : Reg) (off : BitVec 32) (s : State) : Res := branchOp (.bltu a b off) a b off (fun x y => x.ult y) s

/-- BGEU (R149). -/
def execBgeu (a b : Reg) (off : BitVec 32) (s : State) : Res := branchOp (.bgeu a b off) a b off (fun x y => !x.ult y) s

/-- CALL (R150). -/
def execCall (a : Reg) (off : BitVec 32) (s : State) : Res :=
  issue (.call a off) (fun s => finishJump s (s.cur.land a (s.cur.pc + 8) 1) (branchTarget s.cur.pc off)) s

/-- CALLR: the target is read before the link is written (R150). -/
def execCallr (a b : Reg) (s : State) : Res :=
  issue (.callr a b) (reading [b] [] fun s => jumpReg s (s.cur.land a (s.cur.pc + 8) 1) (s.cur.rs b)) s

/-- RET (R150). -/
def execRet (b : Reg) (s : State) : Res := issue (.ret b) (reading [b] [] fun s => jumpReg s s.cur (s.cur.rs b)) s

/-- JMPR (R150). -/
def execJmpr (b : Reg) (s : State) : Res := issue (.jmpr b) (reading [b] [] fun s => jumpReg s s.cur (s.cur.rs b)) s

/-- LBODY of a loop whose body begins at an address (R138). -/
def loopWord (extended : Bool) (len : BitVec 14) (start : Word) : Word :=
  1#1 ++ BitVec.ofBool extended ++ len ++ start.extractLsb' 3 45 ++ 0#3

/-- LOOP and LOOPX (R138); one that traps writes nothing, FTBASE included (02 R46, R125). (DEDUCED, log 72) -/
def loopOp (i : Instr) (extended : Bool) (cnt : Reg) (len : BitVec 14) (imm : BitVec 16) (base : BitVec 4) (s : State) : Res :=
  issue i (reading [cnt] [] fun s =>
    let u := s.cur
    let n := if cnt = 0 then imm.setWidth 64 else u.rs cnt
    let u1 := { u with ftbase := base }
    if u.lbody.getLsbD 63 then trapNow s (seqTrap .illfld (encode i))
    else if n = 0 then
      .next (s.execute { u1 with lcount := 0, llimit := n, pc := u.pc + BitVec.ofNat 64 (8 * (len.toNat + 1)) } none 1)
    else
      .next (s.execute { u1 with lcount := 0, llimit := n, lbody := loopWord extended len (u.pc + 8), pc := u.pc + 8 } none 1)) s

/-- LOOP (R138). -/
def execLoop (cnt : Reg) (len : BitVec 14) (imm : BitVec 16) (base : BitVec 4) (s : State) : Res :=
  loopOp (.loop cnt len imm base) false cnt len imm base s

/-- LOOPX (R138). -/
def execLoopx (cnt : Reg) (len : BitVec 14) (imm : BitVec 16) (base : BitVec 4) (s : State) : Res :=
  loopOp (.loopx cnt len imm base) true cnt len imm base s

/-- NOP (R151). -/
def execNop (s : State) : Res := issue .nop (fun s => finish s s.cur) s

/-- BRK: BRKPT, with its own address in TRET and its code in TVAL (R151). -/
def execBrk (code : BitVec 32) (s : State) : Res :=
  issue (.brk code) (fun s => trapNow s (seqTrap .brkpt (code.setWidth 64))) s

end Sys2Proof.Machine
end

