-- ==== Sys2Proof/Machine/Edg.lean ====
section
/-! DEFINITION. Class B, edge programs (17): each word pushes a command (06 R127); what the command does once it starts is in EdgeEngine. -/
namespace Sys2Proof.Machine
open Sys2Proof

/-- EBIND (R315). -/
def execEbind (h : EHead) (oc : BitVec 4) (da : DReg) (s : State) : Res :=
  issue (.ebind h oc da) (pushBind (.ebind h oc da)) s

/-- ERUN (R317). -/
def execErun (h : EHead) (oc : BitVec 4) (mode : BitVec 2) (ord : Bool) (b : Reg) (s : State) : Res :=
  execPush (.erun h oc mode ord b) s

/-- ESWP (R316). -/
def execEswp (h : EHead) (pa pb : BitVec 2) (s : State) : Res :=
  execPush (.eswp h pa pb) s

/-- EFRNT (R323). -/
def execEfrnt (h : EHead) (oc : BitVec 4) (b : Reg) (s : State) : Res :=
  execPush (.efrnt h oc b) s

end Sys2Proof.Machine
end

