-- ==== Sys2Proof/Machine/Rdn.lean ====
section
/-! DEFINITION. Class C, redundancy (20 R369-R379): agreement on a value, signatures, containment regions, known-answer counts. -/
namespace Sys2Proof.Machine
open Sys2Proof

/-! ### NDAGREE (R371) -/

/-- Every peer of the current unit has presented its value of the same execution. -/
def State.allAgreeing (s : State) : Bool := (s.peers s.cur).all fun p => p.ndValue.isSome && p.ndCount == s.cur.ndCount

/-- The lead's value goes to every peer. -/
def State.shareValue (s : State) : State :=
  match s.peers s.cur with
  | [] => s
  | lead :: rest =>
    s.onUnits ((lead :: rest).map (·.gid)) fun u => { u with ndResult := lead.ndValue, ndValue := none }

/-- NDAGREE (R371): it waits for every live peer; unreplicated it copies s[B]. -/
def execNdagree (a b : Reg) (s : State) : Res :=
  issue (.ndagree a b) (reading [b] [] (atCommit fun s =>
    if s.cur.live ≤ 1 then finishReg { s with cur := { s.cur with ndCount := s.cur.ndCount + 1 } } a (s.cur.rs b) 1
    else
      let s := if s.cur.ndResult.isSome then s else { s with cur := { s.cur with ndValue := some (s.cur.rs b) } }
      let s := if s.cur.ndResult.isNone && s.allAgreeing then s.shareValue else s
      match s.cur.ndResult with
      | some x => finishValue { s with cur := { s.cur with ndCount := s.cur.ndCount + 1, ndResult := none } } a x { typical := 120, bound := 400 }
      | none => stall s)) s

/-! ### SIGRD (R372) -/

/-- SIGRD: a queue's running lane, or what a replica presented at the last meeting. -/
def execSigrd (met iso : Bool) (a : Reg) (n : BitVec 3) (s : State) : Res :=
  issue (.sigrd met iso a n) (atCommit fun s =>
    let pick (x : Word × Word) : Word := if iso then x.2 else x.1
    let shown := (s.cur.lastSigs.toList.getD n.toNat (0, 0))
    finishValue s a (pick (if met then shown else s.cur.lanes[qidx n])) (.exact (if met then 40 else 1))) s

/-! ### Containment regions (R376-R379) -/

/-- COPEN (R376). -/
def execCopen (buffered : Bool) (off : BitVec 32) (s : State) : Res :=
  let i : Instr := .copen buffered off
  issue i (atCommit fun s =>
    let u := s.cur
    if 4 ≤ u.regions.length then trapNow s (seqTrap .illfld (encode i))
    else finish s { u with regions := u.regions ++ [{ handler := u.pc + off.signExtend 64 * 8, buffered := buffered }] }) s

/-- Every command of the innermost region has retired (R379). -/
def Unit.regionDone (u : Unit) : Bool :=
  let mine (c : Command) : Bool := decide (u.regions.length ≤ c.depth)
  u.queues.all (fun l => l.all fun c => !mine c) && u.inflight.all (fun y => !mine y.command) && u.parked.all fun c => !mine c

/-- The innermost region closes: its buffered writes and signature records go to the enclosing buffered region, or to the
quire's own buffer and lanes, which an unreplicated task performs at once (R379, R380). -/
def State.closeRegion (s : State) : State :=
  let k := s.cur.regions.length
  let u : Unit := { s.cur with regions := s.cur.regions.dropLast }
  let b := u.bufferedDepth
  if 0 < b then
    { s with cur := { u with
        relBuf := u.relBuf.map fun w => if k ≤ w.depth then { w with depth := b } else w,
        heldSigs := u.heldSigs.map fun h => if k ≤ h.depth then { h with depth := b } else h } }
  else
    let v : Unit := u.heldSigs.foldl (fun (v : Unit) h => v.signAt 0 h.queue [h.record]) { u with heldSigs := [] }
    if 1 < v.live then { s with cur := { v with relBuf := v.relBuf.map fun w => { w with depth := 0 } } }
    else State.emitAll { s with cur := { v with relBuf := [] } } (v.relBuf.map (·.access))

/-- CCLOSE (R376, R379): two cycles after its wait. -/
def execCclose (s : State) : Res :=
  issue .cclose (atCommit fun s =>
    if s.cur.regions.isEmpty then trapNow s (seqTrap .illfld (encode .cclose))
    else if !s.cur.regionDone then stall s
    else let t := s.closeRegion; finish t (t.cur.busyFor 2)) s

/-! ### KATSTAT (R375) -/

/-- The owner's injection setting (R375, 23 R413). -/
def Device.katSetting (d : Device) : Nat := fld (d.reg 0x60048) 0 8

/-- KATSTAT. -/
def execKatstat (a : Reg) (k : BitVec 2) (s : State) : Res :=
  issue (.katstat a k) (atCommit fun s =>
    finishReg s a (match k.toNat with
      | 0 => s.cur.katTests
      | 1 => s.cur.katFails
      | 2 => s.cur.katLast
      | _ => BitVec.ofNat 64 s.myDev.katSetting) 1) s

end Sys2Proof.Machine
end

