-- ==== Sys2Proof/Machine/Flt.lean ====
section
/-! DEFINITION. Class 2, scalar floating point (06 R145-R148). -/
namespace Sys2Proof.Machine
open Sys2Proof

/-- The format of a precision and an operand read in it (R145). -/
def precision (single : Bool) : FSpec := if single then fp32 else fp64
def fltIn (single : Bool) (x : Word) : Nat := if single then x.toNat % 2 ^ 32 else x.toNat

/-- A result with the flags it raises: written, or FPEXC where an enabled flag is raised; the flags are set in
either case (R146). -/
def finishFlt (s : State) (a : Reg) (r : Nat × Flags) (lat : Nat) : Res :=
  if s.cur.fpTraps r.2 then trapNow { s with cur := s.cur.retireFlags r.2 } (seqTrap .fpexc (r.2.setWidth 64))
  else finishIn lat s ((s.cur.orFlags r.2).land a (BitVec.ofNat 64 r.1) lat)

/-- A rounded result. -/
def roundFlt (single : Bool) (rm : BitVec 2) (r : FpVal × Flags) : Nat × Flags :=
  let x := (precision single).round (rmodeOf rm) false r.1
  (x.1, r.2 ||| x.2)

/-- An operation on two operands' values, rounded once. -/
def fltOp2 (i : Instr) (single : Bool) (rm : BitVec 2) (a b c : Reg) (lat : Nat) (f : FpVal → FpVal → FpVal × Flags) (s : State) : Res :=
  issue i (reading [b, c] [] fun s =>
    let v (r : Reg) : FpVal := (precision single).val (fltIn single (s.cur.rs r))
    finishFlt s a (roundFlt single rm (f (v b) (v c))) lat) s

/-- An operation on one operand's bits. -/
def fltOp1 (i : Instr) (a b : Reg) (lat : Nat) (f : Word → Nat × Flags) (s : State) : Res :=
  issue i (reading [b] [] fun s => finishFlt s a (f (s.cur.rs b)) lat) s

/-- A comparison, or a choice between two operands, on their bits. -/
def fltBits2 (i : Instr) (single : Bool) (a b c : Reg) (f : FSpec → Nat → Nat → Nat × Flags) (s : State) : Res :=
  issue i (reading [b, c] [] fun s =>
    finishFlt s a (f (precision single) (fltIn single (s.cur.rs b)) (fltIn single (s.cur.rs c))) 2) s

/-- NV of a comparison: for a signalling NaN, or for any NaN (R147). -/
def compareFlags (quiet : Bool) (x y : FpVal) : Flags := if quiet then snanFlag [x, y] else flagIf (x.isNan || y.isNan) flagNV
def fltCompare (quiet : Bool) (rel : FpVal → FpVal → Bool) (f : FSpec) (b c : Nat) : Nat × Flags :=
  let x := f.val b
  let y := f.val c
  (if rel x y then 1 else 0, compareFlags quiet x y)

/-- FCLASS (R147): which of ten classes a value is in. -/
def fltClass (f : FSpec) (b : Nat) : Nat :=
  let sub (m : Nat) (e : Int) : Bool := decide ((m.log2 : Int) + e < 1 - (f.bias : Int))
  match f.val b with
  | .inf true => 2 ^ 0
  | .inf false => 2 ^ 7
  | .nan true => 2 ^ 8
  | .nan false => 2 ^ 9
  | .fin true m e => if m = 0 then 2 ^ 3 else if sub m e then 2 ^ 2 else 2 ^ 1
  | .fin false m e => if m = 0 then 2 ^ 4 else if sub m e then 2 ^ 5 else 2 ^ 6

/-- FCVTI and FCVTW to `w` bits, sign-extended (R148). -/
def fltToInt (w : Nat) (sat single : Bool) (rm : BitVec 2) (x : Word) : Nat × Flags :=
  let v := (precision single).val (fltIn single x)
  let r := if sat then toIntSat w (rmodeOf rm) v else toIntTrap w (rmodeOf rm) v
  (truncInt 64 r.1, r.2)

/-- The source of FCVTF by its kind (R148). -/
def fltSource (kind : BitVec 2) (x : Word) : FpVal :=
  match kind.toNat with
  | 0 => FpVal.ofInt x.toInt
  | 1 => .fin false x.toNat 0
  | 2 => fp64.val x.toNat
  | _ => fp32.val (x.toNat % 2 ^ 32)

/-- FADD (R147). -/
def execFadd (single : Bool) (rm : BitVec 2) (a b c : Reg) (s : State) : Res :=
  fltOp2 (.fadd single rm a b c) single rm a b c 4 (fun x y => x.add (rmodeOf rm == .rdn) y) s

/-- FSUB (R147). -/
def execFsub (single : Bool) (rm : BitVec 2) (a b c : Reg) (s : State) : Res :=
  fltOp2 (.fsub single rm a b c) single rm a b c 4 (fun x y => x.add (rmodeOf rm == .rdn) y.neg) s

/-- FMUL (R147). -/
def execFmul (single : Bool) (rm : BitVec 2) (a b c : Reg) (s : State) : Res :=
  fltOp2 (.fmul single rm a b c) single rm a b c 4 (fun x y => x.mul y) s

/-- FFMA (R147). -/
def execFfma (single : Bool) (rm : BitVec 2) (a b c d : Reg) (s : State) : Res :=
  issue (.ffma single rm a b c d) (reading [b, c, d] [] fun s =>
    let v (r : Reg) : FpVal := (precision single).val (fltIn single (s.cur.rs r))
    finishFlt s a (roundFlt single rm ((v b).fma (rmodeOf rm == .rdn) (v c) (v d))) 4) s

/-- FDIV (R147). -/
def execFdiv (single : Bool) (rm : BitVec 2) (a b c : Reg) (s : State) : Res :=
  fltOp2 (.fdiv single rm a b c) single rm a b c 14 (fun x y => x.div y) s

/-- FSQRT (R147). -/
def execFsqrt (single : Bool) (rm : BitVec 2) (a b : Reg) (s : State) : Res :=
  fltOp1 (.fsqrt single rm a b) a b 18 (fun x => roundFlt single rm ((precision single).val (fltIn single x)).sqrt) s

/-- FMIN (R147). -/
def execFmin (single : Bool) (a b c : Reg) (s : State) : Res :=
  fltBits2 (.fmin single a b c) single a b c (fun f => f.minmax false) s

/-- FMAX (R147). -/
def execFmax (single : Bool) (a b c : Reg) (s : State) : Res :=
  fltBits2 (.fmax single a b c) single a b c (fun f => f.minmax true) s

/-- FCEQ (R147). -/
def execFceq (single : Bool) (a b c : Reg) (s : State) : Res :=
  fltBits2 (.fceq single a b c) single a b c (fltCompare true FpVal.eq) s

/-- FCLT (R147). -/
def execFclt (single : Bool) (a b c : Reg) (s : State) : Res :=
  fltBits2 (.fclt single a b c) single a b c (fltCompare false FpVal.lt) s

/-- FCLE (R147). -/
def execFcle (single : Bool) (a b c : Reg) (s : State) : Res :=
  fltBits2 (.fcle single a b c) single a b c (fltCompare false fun x y => x.lt y || x.eq y) s

/-- FCVTI (R148). -/
def execFcvti (sat single : Bool) (rm : BitVec 2) (a b : Reg) (s : State) : Res :=
  fltOp1 (.fcvti sat single rm a b) a b 4 (fltToInt 64 sat single rm) s

/-- FCVTF (R148). -/
def execFcvtf (single : Bool) (rm : BitVec 2) (a b : Reg) (kind : BitVec 2) (s : State) : Res :=
  fltOp1 (.fcvtf single rm a b kind) a b 4 (fun x => (precision single).convert (rmodeOf rm) false (fltSource kind x)) s

/-- FCVTW (R148). -/
def execFcvtw (sat single : Bool) (rm : BitVec 2) (a b : Reg) (s : State) : Res :=
  fltOp1 (.fcvtw sat single rm a b) a b 4 (fltToInt 32 sat single rm) s

/-- FABS (R147). -/
def execFabs (single : Bool) (a b : Reg) (s : State) : Res :=
  fltOp1 (.fabs single a b) a b 1 (fun x => (fltIn single x % 2 ^ ((precision single).bits - 1), 0)) s

/-- FNEG (R147). -/
def execFneg (single : Bool) (a b : Reg) (s : State) : Res :=
  fltOp1 (.fneg single a b) a b 1 (fun x => (fltIn single x ^^^ 2 ^ ((precision single).bits - 1), 0)) s

/-- FCLASS (R147). -/
def execFclass (single : Bool) (a b : Reg) (s : State) : Res :=
  fltOp1 (.fclass single a b) a b 1 (fun x => (fltClass (precision single) (fltIn single x), 0)) s

end Sys2Proof.Machine
end

