-- ==== Sys2Proof/Machine/Mem.lean ====
section
/-! DEFINITION. Class 4, memory (04 R79, R82-R95): loads, stores, fences, the L1, bank modes and descriptor registers. -/
namespace Sys2Proof.Machine
open Sys2Proof

/-! ### Loads (R83-R85, 16 R289, R290) -/

/-- An access of the sequencer to a page: it translates, and the stacks decode what its walk reads (03 R58, R72); a section-homed line waits while its
bank changes its mode (04 R91). -/
def paged (k : AccessKind) (regs : Bool) (va : Word) (f : Place → State → Res) (s : State) : Res :=
  let t := s.scrubWalk s.cur.gid va
  match s.translate s.cur.gid 1 k regs va with
  | .error e => trapNow t e
  | .ok p => if t.lineHeld t.cur.gid p then stall t else f p t

/-- A load executes: it is made at once where its access may leave, else it is held back; it completes as its value lands (06 R124, R125). -/
def loadOut (h : HeldLoad) (s : State) : Res :=
  match s.tryLoad s.cur.window h with
  | .done t x lat => finishIn (t.cur.landsAt lat - t.cur.time) t (t.cur.landLoad h.dest x lat)
  | .sent t num => .next (t.executeLoad { h with sent := some num })
  | .trap t => trapNow s t
  | .wait => .next (s.executeLoad h)

/-- A load from a memory page (R83, R84). -/
def loadMem (cls : BitVec 4) (byp : Bool) (va : Word) (p : Place) (n : Nat) (dest : LoadDest) (s : State) : Res :=
  loadOut { cls := cls, path := if byp || p.mtype = 1 then .home else .cached, va := va, addr := p.addr, n := n, dest := dest, sent := none,
            sect := p.home } s

/-- A load from a device-register page, at the commit point and behind the unit's earlier accesses of the class to the line (03 R67, 06 R125, 16
R290); `.w` reads half a register (DEDUCED, log 12). -/
def loadReg (cls : BitVec 4) (size : BitVec 2) (va : Word) (p : Place) (done : State → List Byte → Nat → Res) (s : State) : Res :=
  if size.toNat < 2 then trapNow s (seqTrap .align va)
  else atCommit (fun s =>
    match s.flowFails (gidDev s.cur.gid) (s.target s.myDev p.pa) with
    | some port => trapNow s (seqTrap .linkfail (BitVec.ofNat 64 port))
    | none =>
      if !s.cur.classFree cls || !s.lineFree s.cur cls p.addr none then stall s
      else
        let off := regOffset p.pa
        let x := s.readReg (s.target s.myDev p.pa) (off / 8 * 8)
        done s ((leBytes 8 x.toNat).drop (off % 8) |>.take (2 ^ size.toNat)) 110) s

/-- LD (R85). -/
def execLd (size : BitVec 2) (sx : Bool) (byp : Bool) (oc : BitVec 4) (a b : Reg) (imm : BitVec 32) (s : State) : Res :=
  issue (.ld size sx byp oc a b imm) (reading [b] [] fun s =>
    let va := s.cur.rs b + imm.signExtend 64
    let n := 2 ^ size.toNat
    if va.toNat % n ≠ 0 then trapNow s (seqTrap .align va)
    else paged .read true va (fun p s =>
      if p.mtype = 3 then loadReg oc size va p (fun s bs lat => finishReg s a (loadValue size sx bs) lat) s
      else loadMem oc byp va p n (.scalar a size sx) s) s) s

/-! ### Stores (R85, 06 R125) -/

/-- A store executes: its access and records are held until it commits (06 R125). -/
def storeOut (want : Want) (cls : BitVec 4) (va : Word) (addr : Nat) (data : List Byte) (sect : Option Nat) (s : State) : Res :=
  .next (s.execute s.cur.advance (some (scalarAccess s.cur.gid want cls addr data sect, storeRecords va cls data)) 1)

/-- A store to a device-register page (03 R67, 06 R125, 23 R413): a system core's is a store like any other, which reaches the register after it
has committed; a quire's is ignored and counted, and raises PROTV as it issues (DEDUCED, log 48). -/
def storeReg (cls : BitVec 4) (size : BitVec 2) (va : Word) (p : Place) (x : Word) (s : State) : Res :=
  if size.toNat < 2 then trapNow s (seqTrap .align va)
  else if s.cur.isCore then storeOut (.register (regOffset p.pa)) cls va p.addr (leBytes (2 ^ size.toNat) x.toNat) none s
  else trapNow (s.onDev (s.target s.myDev p.pa) Device.violation) { seqTrap .protv va with xstat := some (xstatOf 1 .store 0 0) }

/-- ST (R85). -/
def execSt (size : BitVec 2) (oc : BitVec 4) (a b : Reg) (imm : BitVec 32) (s : State) : Res :=
  issue (.st size oc a b imm) (reading [b, a] [] fun s =>
    let va := s.cur.rs b + imm.signExtend 64
    let n := 2 ^ size.toNat
    if va.toNat % n ≠ 0 then trapNow s (seqTrap .align va)
    else paged .store true va (fun p s =>
      if p.mtype = 3 then storeReg oc size va p (s.cur.rs a) s
      else storeOut .write oc va p.addr (leBytes n (s.cur.rs a).toNat) p.home s) s) s

/-! ### The scratch window (R79) -/

/-- The section and the offset an address names: on a quire its own section's, on a system core as the address carries
them; none outside the limits. -/
def windowParts (u : Unit) (a : Word) : Option (Nat × Nat) :=
  if u.isCore then (if a.toNat < 2 ^ 30 then some (a.toNat / 2 ^ 24, a.toNat % 2 ^ 24) else none)
  else some (gidSection u.gid, a.toNat)

/-- The storage byte a scratch access reaches, or its trap; one to a bank in a mode change is checked when the change is over (R91). -/
def State.windowByte (s : State) (k : AccessKind) (a : Word) : Except Trap Nat :=
  match windowParts s.cur a with
  | none => .error { seqTrap .protv a with xstat := some (xstatOf 1 k 0 0) }
  | some (sec, off) =>
    let x := sramAddr (gidDev s.cur.gid) sec off
    if decide (off < 2 ^ 24) && s.scratchHeld x then .ok x
    else match s.scratchByte s.cur 1 k 1 sec off with
    | .error t => .error { t with tval := a }
    | .ok x => .ok x

/-- LDS (R85). -/
def execLds (size : BitVec 2) (sx : Bool) (oc : BitVec 4) (a b : Reg) (imm : BitVec 32) (s : State) : Res :=
  issue (.lds size sx oc a b imm) (reading [b] [] fun s =>
    let va := s.cur.rs b + imm.signExtend 64
    let n := 2 ^ size.toNat
    if va.toNat % n ≠ 0 then trapNow s (seqTrap .align va)
    else match s.windowByte .read va with
    | .error t => trapNow s t
    | .ok x => loadOut { cls := oc, path := .scratch, va := va, addr := x, n := n, dest := .scalar a size sx, sent := none } s) s

/-- STS (R85). -/
def execSts (size : BitVec 2) (oc : BitVec 4) (a b : Reg) (imm : BitVec 32) (s : State) : Res :=
  issue (.sts size oc a b imm) (reading [b, a] [] fun s =>
    let va := s.cur.rs b + imm.signExtend 64
    let n := 2 ^ size.toNat
    if va.toNat % n ≠ 0 then trapNow s (seqTrap .align va)
    else match s.windowByte .store va with
    | .error t => trapNow s t
    | .ok x => storeOut .write oc va x (leBytes n (s.cur.rs a).toNat) none s) s

/-! ### Fences (R86, 16 R295-R300) -/

/-- LINKFAIL of a store lost on a stopped flow, at the next release or FENCE that names its class (14 R270): the port,
and what is then still lost. -/
def Unit.lostIn (u : Unit) (mask : BitVec 16) : Option Word := (u.lost.find? fun e => maskHas mask e.1).map (·.2)
def Unit.forgetLost (u : Unit) (mask : BitVec 16) : Unit := { u with lost := u.lost.filter fun e => !maskHas mask e.1 }

/-- The writes a unit takes on when a FENCE acquires: those transferred by the releases whose writes its earlier reads of the masked
classes returned, and by those that stand in the ring counters it has read (R297-R299). -/
def State.acquireRead (s : State) (scope : Nat) (mask : BitVec 16) : Unit :=
  let u := s.cur
  let ids := u.readFrom.flatMap fun e =>
    if !maskHas mask e.2 then []
    else match s.pend.find? fun r => r.id == e.1 with
      | some r => acquiredFrom u.gid scope r.release
      | none => []
  let rings := acquiredFrom u.gid scope ((u.readRings.filter fun e => maskHas mask e.1).map (·.2))
  { u with known := (u.known ++ ids ++ rings).eraseDups,
           readFrom := u.readFrom.filter fun e => s.pend.any fun r => r.id == e.1 }

/-- LINKFAIL where a masked store was lost, else `f` (R270). -/
def linked (mask : BitVec 16) (f : State → Res) (s : State) : Res :=
  match s.cur.lostIn mask with
  | some port => trapNow { s with cur := s.cur.forgetLost mask } (seqTrap .linkfail port)
  | none => f s

/-- FENCE (R86): it commits when its condition holds; a release is a meeting point, and the later writes of its classes
carry it. -/
def execFence (sem : BitVec 2) (scope : BitVec 3) (mask : BitVec 16) (s : State) : Res :=
  let i : Instr := .fence sem scope mask
  let rel := sem.getLsbD 1
  let ready (s : State) : Bool := s.performed s.cur mask scope.toNat
  let done (s : State) : Res :=
    let u := if sem.getLsbD 0 then s.acquireRead scope.toNat mask else s.cur
    finish s (if rel then { u with carrier := some (scope, mask) } else u)
  issue i (atCommit (linked mask
    (if rel then unbuffered i (meeting [] ready done) else fun s => if ready s then done s else stall s))) s

/-! ### The L1 (R87, R88) -/

/-- The sectors of device memory that a virtual range reaches; pages that do not translate are skipped. -/
def State.rangeSectors (s : State) (va : Nat) (n : Nat) : List Nat :=
  (List.range ((va + n - 1) / 128 - va / 128 + 1)).filterMap fun k =>
    let a := BitVec.ofNat 64 (128 * (va / 128 + k))
    match s.lookup s.cur.gid a with
    | .ok m => some (s.addrOf s.myDev (m.pa a) / 128)
    | .error _ => none

/-- L1INV (R87), which discards level-zero copies as well (06 R122); a range of more than 512 lines clears both.  It takes 4 cycles and one
for each line. -/
def execL1inv (b c : Reg) (s : State) : Res :=
  issue (.l1inv b c) (reading [b, c] [] (atCommit fun s =>
    let va := (s.cur.rs b).toNat
    let n := (s.cur.rs c).toNat
    let lines := if n = 0 then 0 else (va + n - 1) / 256 - va / 256 + 1
    let u := if n = 0 then s.cur
      else if 512 < lines then { s.cur with l1 := [], l0 := [] }
      else
        let gone := s.rangeSectors va n
        { s.cur with l1 := s.cur.l1.filter fun x => !gone.contains x.sector,
                     l0 := s.cur.l0.filter fun x => !gone.contains x.sector }
    finish s (u.busyFor (4 + min 512 lines)))) s

/-- One sector of a prefetch: into the L1 from a page of type 0, else only to its home; none where a read would fault (R88, 03 R75).  It enters
its class queue, and is made at once where nothing stands before it (16 R288). -/
def State.prefetch (s : State) (cls : BitVec 4) (va : Word) : State :=
  let place := s.translate s.cur.gid 1 .read false va
  let s := s.scrubWalk s.cur.gid va
  match place with
  | .error _ => s
  | .ok p =>
    if s.reachesNow s.cur.gid p.addr && (s.cur.classQ.all fun x => x.cls != cls) && !s.lineHeld s.cur.gid p then
      s.prefetched (p.addr / 128) (p.mtype == 0)
    else s.sendOut (.prefetch (p.mtype == 0)) cls (p.addr / 128 * 128) p.home

/-- PREF (R88): a hint that changes no value a program can read, for the sectors of the first 64 KiB. -/
def execPref (oc : BitVec 4) (b c : Reg) (s : State) : Res :=
  issue (.pref oc b c) (reading [b, c] [] fun s =>
    let va := (s.cur.rs b).toNat
    let n := min 65536 (s.cur.rs c).toNat
    let t := if n = 0 then s
      else (List.range ((va + n - 1) / 128 - va / 128 + 1)).foldl (fun s k => s.prefetch oc (BitVec.ofNat 64 (128 * (va / 128 + k)))) s
    finish t t.cur) s

/-! ### Bank modes (R89-R92) -/

/-- The checks of BANKMODE, in order (R89); the bank by volume, section and bank number. -/
def bankTrap (s : State) (i : Instr) (sel mode : Word) : Except Trap Nat :=
  let u := s.cur
  let d := s.dev (gidDev u.gid)
  let b := if u.isCore then sel.toNat else 32 * gidSection u.gid + sel.toNat
  if (if u.isCore then 2048 ≤ sel.toNat else 32 ≤ sel.toNat) ∨ 5 ≤ mode.toNat then .error (seqTrap .illfld (encode i))
  else if !u.isCore && !u.handlerMode && (d.bank b).owner != u.task then .error (seqTrap .priv sel)
  else if d.bankSecure b && !u.trusted then .error (seqTrap .secviol sel)
  else .ok b

/-- The cycles of a change of a bank in a mode: 4 096, and before them 4 to 6 for each dirty sector of one that leaves CACHE mode (R92).  How many
of them it holds, and what each takes, is free (DESIGN CHOICE, log 5). -/
def changeCycles (mode : BitVec 3) (b clock : Nat) : Nat :=
  4096 + if mode = 0 then Config.dirtySectors b clock * (4 + Config.writeBack b clock % 3) else 0

/-- BANKMODE (R89-R92; 02 R47): it commits as the change begins, and the unit issues nothing before its end.  In a prompt machine the change begins
at once, else in a step of its own. -/
def execBankmode (a b c : Reg) (s : State) : Res :=
  let i : Instr := .bankmode a b c
  let vet (known : Reg → Bool) (s : State) : Option Trap :=
    match bankTrap s i (if known b then s.cur.rs b else 0) (if known c then s.cur.rs c else 0) with
    | .error t => if (known b || t.cause == .illfld) && t.cause != .secviol then some t else none
    | .ok _ => none
  issue i (vetting [b, c] vet (atCommit fun s =>
    let mode : BitVec 3 := (s.cur.rs c).setWidth 3
    match bankTrap s i (s.cur.rs b) (s.cur.rs c) with
    | .error t => trapNow s t
    | .ok n =>
      let dev := gidDev s.cur.gid
      let bank := (s.dev dev).bank n
      let set (x : Bank) : State := s.onDev dev fun d => d.setBank n x
      let commit (x : Bank) : Res :=
        finish (set { x with told := true }) ((s.cur.land a (bank.mode.setWidth 64) (x.ends - s.cur.time)).busyFor (x.ends - s.cur.time))
      if bank.changing.isSome then (if bank.begun && !bank.told && bank.asker == s.cur.gid then commit bank else stall s)
      else if bank.mode = mode then finishReg s a (mode.setWidth 64) 1
      else
        let asked : Bank := { bank with changing := some mode, asker := s.cur.gid, begun := s.prompt, ends := s.cur.time + changeCycles bank.mode n s.clock }
        if !s.prompt then stall (set asked)
        else if bank.mode = 4 && !s.relbClear dev n then stall s
        else commit asked)) s

/-! ### Descriptor registers (R93, R94) -/

/-- A descriptor with one quarter replaced (02 R53). -/
def setQuarter (d : Desc) (q : BitVec 2) (x : Word) : Desc :=
  (d &&& ~~~((0xFFFFFFFFFFFFFFFF : Desc) <<< (64 * q.toNat))) ||| (x.setWidth 256 <<< (64 * q.toNat))
/-- One quarter of a descriptor (02 R53). -/
def getQuarter (d : Desc) (q : BitVec 2) : Word := d.extractLsb' (64 * q.toNat) 64

/-- DSET (R93).  It keeps three quarters of its descriptor, so it reads it: whether that waits for an earlier DLD is not stated (DESIGN
CHOICE, log 99). -/
def execDset (da : DReg) (b : Reg) (q : BitVec 2) (s : State) : Res :=
  issue (.dset da b q) (reading [b] [da] fun s => finish s (s.cur.landDesc da (setQuarter (s.cur.rd da) q (s.cur.rs b)) 1)) s

/-- DGET (R93). -/
def execDget (a : Reg) (db : DReg) (q : BitVec 2) (s : State) : Res :=
  issue (.dget a db q) (reading [] [db] fun s => finishReg s a (getQuarter (s.cur.rd db) q) 1) s

/-- DLD (R94): 32 bytes at the home. -/
def execDld (oc : BitVec 4) (da : DReg) (b : Reg) (s : State) : Res :=
  issue (.dld oc da b) (reading [b] [] fun s =>
    let va := s.cur.rs b
    if va.toNat % 32 ≠ 0 then trapNow s (seqTrap .align va)
    else paged .read false va (fun p s => loadMem oc true va p 32 (.descr da) s) s) s

end Sys2Proof.Machine
end

