-- ==== Sys2Proof/Machine/Clasp.lean ====
section
/-! DEFINITION. The clasp engine (12 R248-R250, R303): its entries, a request's way to it and back, and the writes and reads it
makes at the homes. -/
namespace Sys2Proof.Machine
open Sys2Proof

/-- The latency of an atomic (01 R21, 12 R252) by its case; a remote one adds its hops both ways (R23).  A system core lies in no volume, and never pays for another one: the spec does not say (DESIGN CHOICE, log 90). -/
def State.claspLatency (s : State) (u : Unit) (addr : Nat) (spilled : Bool) : Latency :=
  let base : Latency := if spilled then { typical := 750, bound := 1080 } else { typical := 150, bound := 180 }
  let hops := s.flowHops (gidDev u.gid) (addrDev addr)
  if addrDev addr != gidDev u.gid then base.plus { typical := 2 * 1500 * hops, bound := 2 * 1750 * hops }
  else if !u.isCore && addr < sramBase && addr / 2 ^ 36 % 8 != gidVolume u.gid then base.plus { typical := 70, bound := 90 }
  else base

/-! ### Reads and writes of the clasp engine (16 R292, R295, R298) -/

/-- The unit has seen the last writes of a run of bytes, whatever their horizons (16 R292). -/
def State.noteSeen (s : State) (g : Gid) (a n : Nat) : State :=
  let last (x : Nat) : Option Nat := (s.pend.reverse.find? fun r => (r.byteAt x).isSome).map (·.id)
  let seen := (List.range n).filterMap fun k => (last (a + k)).map fun i => (i, a + k)
  { s with pend := s.pend.map fun r =>
      { r with seenBy := r.seenBy ++ (seen.filter fun e => e.1 == r.id && !r.visible g e.2).map fun e => (g, e.2) } }

/-- The current unit has read the last writes of a run of bytes in a class, for a FENCE that acquires later (16 R297). -/
def State.noteRead (s : State) (cls : BitVec 4) (a n : Nat) : State :=
  let ids := (List.range n).filterMap fun k => (s.pend.reverse.find? fun r => (r.byteAt (a + k)).isSome).map fun r => (r.id, cls)
  { s with cur := { s.cur with readFrom := (s.cur.readFrom ++ ids).eraseDups } }

/-- The widest of some scopes with its mask. -/
def widestOf : List (BitVec 3 × BitVec 16) → Option (BitVec 3 × BitVec 16)
  | [] => none
  | c :: rest => match widestOf rest with | some d => if d.1.toNat < c.1.toNat then some c else some d | none => some c

/-- The releases that a write of the current unit in a class transports as they stand now (R295, R299). -/
def State.releasesNow (s : State) (cls : BitVec 4) (own : Option (BitVec 3 × BitVec 16)) : List Release :=
  (s.cur.carried cls own).map fun c => s.releaseOf s.actor c.1 c.2
/-- Those that its request transports: as they stood when it left its class queue (R299). -/
def State.transports (s : State) (cls : BitVec 4) (own : Option (BitVec 3 × BitVec 16)) : List Release :=
  match s.cur.wait with | some w => w.releases | none => s.releasesNow cls own

/-- A write of the clasp engine for the current unit, under global id `g`; one that `joins` is an update of the release
sequences at its place (R298). -/
def State.claspWrite (s : State) (g : Gid) (cls : BitVec 4) (addr : Nat) (data : List Byte) (own : Option (BitVec 3 × BitVec 16))
    (joins : Bool) : State :=
  s.admitPlain { scalarAccess g .write cls addr data none with carrier := widestOf (s.cur.carried cls own) }
    ((if joins then s.sequence addr else []) ++ s.transports cls own)

/-- What must precede a request: its class and line are free, and what the releases that its write carries wait for (R289, R290, R296). -/
def claspReady (cls : BitVec 4) (addr : Nat) (rel : Option (BitVec 3 × BitVec 16)) (writes : Bool) (s : State) : Bool :=
  let u := s.cur
  u.classFree cls && s.lineFree u cls addr none &&
  (match rel with | some c => s.performed s.actor c.2 c.1.toNat | none => true) &&
  (!writes || (u.carried cls rel).all fun c => s.knownWide s.actor c.2 c.1.toNat)

/-- Wakes the units whose monitors wait on a granule (12 R255). -/
def State.wake (s : State) (key : Nat) : State :=
  let f (u : Unit) : Unit := match u.wait with | some w => if w.key == key then { u with wait := some { w with woken := true } } else u | none => u
  { s with cur := f s.cur, others := s.others.map f }

/-! ### A request (R252, 20 R358, R360, R368) -/

/-- What a request comes to: done with the value for s[A], its latency and its flags, still waiting, or a trap. -/
inductive Asked where
  | done (s : State) (x : Word) (lat : Latency) (flags : Flags := 0)
  | wait (s : State)
  | trap (s : State) (t : Trap)
  deriving DecidableEq, Repr

/-- Ends the wait of the current unit. -/
def State.endWait (s : State) : State := { s with cur := { s.cur with wait := none, arrived := false } }

/-- The request of the current unit has been served once and goes on waiting. -/
def State.keepWaiting (s : State) : State :=
  { s with cur := { s.cur with wait := s.cur.wait.map fun w => { w with served := true } } }

/-- A request of the current unit has arrived: it is performed, once for all replicas, and every one takes its result (20 R368). -/
def perform (a : Reg) (rec : List Byte) (f : State → Asked) (s : State) : Res :=
  match s.agree false rec with
  | .answer s r => finishRequest (s.takeAnswer r).endWait a r.value r.lat
  | .wait s => stall s
  | .gone s => .next s
  | .perform s =>
    match f s with
    | .done t x lat g => finishRequest (t.noteRequest false rec x lat g).endWait a x lat
    | .wait t => stall t.keepWaiting
    | .trap t x => trapNow t x

/-- The signature record of a class 5 request (20 R362). -/
def claspRecord (i : Instr) (cls : BitVec 4) (va c d : Word) : List Byte :=
  let w := encode i
  requestRecord va cls 1 ((fld w 60 4 * 32 + fld w 52 8) % 256) (fld w 16 8) (w.setWidth 16) c d

/-- The units whose requests stand in the clasp queue of an entry, in their order (16 R303). -/
def State.queueAt (s : State) (key : Nat) : List Gid :=
  (s.clasps.filter fun e => e.2 == key && ((s.unitAt e.1).wait.any fun w => w.key == key)).map (·.1)

/-- The key of a request to the binder, which needs no clasp entry. -/
def binderKey : Nat := 2 ^ 43

/-- The request of the current unit that waits may be served: it is the binder's, or it has arrived and none stands before it. -/
def State.myTurn (s : State) : Bool :=
  let me := s.cur.gid
  match s.cur.wait with
  | some w => w.key == binderKey || (s.cur.arrived && ((s.queueAt w.key).head? == some me || !(s.queueAt w.key).contains me))
  | none => true

/-- The current unit waits with a request that transports some releases. -/
def State.waitOn (s : State) (num key : Nat) (here : Bool) (cls : BitVec 4) (releases : List Release) : State :=
  let w : Waiting := { num := num, key := key, since := s.cur.time, woken := true, served := false, cls := cls, releases := releases }
  { s with cur := { s.cur with wait := some w, arrived := here } }

/-- A request is served at once: it reaches its clasp engine now, and none waits there on its entry. -/
def State.servedNow (s : State) (key addr : Nat) : Bool := s.reachesNow s.cur.gid addr && (s.queueAt key).isEmpty

/-- The releases of a request that leaves now; one that only reads transports none. -/
def State.leavingWith (s : State) (cls : BitVec 4) (own : Option (BitVec 3 × BitVec 16)) (writes : Bool) : List Release :=
  if writes then s.releasesNow cls own else []

/-- A request sets out for its clasp engine. -/
def State.sendRequest (s : State) (key addr : Nat) (cls : BitVec 4) (own : Option (BitVec 3 × BitVec 16)) (writes : Bool) : State :=
  let n := s.nextWrite
  let s := s.waitOn n key false cls (s.leavingWith cls own writes)
  if s.reachesNow s.cur.gid addr then { s.arriveRequest n with nextWrite := n + 1 }
  else
    let x := scalarAccess s.cur.gid (.request n key writes) cls addr [] none
    { s with nextWrite := n + 1, cur := { s.cur with classQ := s.cur.classQ ++ [{ x with carrier := own }] } }

/-- The current unit's request leaves the clasp queue. -/
def State.leaveQueue (s : State) : State := { s with clasps := s.clasps.filter fun e => e.1 != s.cur.gid }

/-- A class 5 request at the commit point: what must precede it, the meeting, then the way to the clasp engine of its home, where it waits for
those that have arrived before it on its entry (16 R303).  One that has left does not leave again. -/
def claspRequest (i : Instr) (a : Reg) (key addr : Nat) (cls : BitVec 4) (mask : BitVec 16) (own : Option (BitVec 3 × BitVec 16)) (writes : Bool)
    (rec : List Byte) (ready : State → Bool) (f : State → Asked) (s : State) : Res :=
  if s.cur.wait.isSome then (if s.myTurn then perform a rec f s.leaveQueue else stall s)
  else
    linked mask (unbuffered i (meeting [rec] ready fun s =>
      if s.servedNow key addr then perform a rec f (s.waitOn s.nextWrite key true cls (s.leavingWith cls own writes))
      else stall (s.sendRequest key addr cls own writes))) s

/-- A request that needs its clasp entry: CLASPERR where none can be had, else `f` with the latency of its case (R249).  A ring
has no granule address, so its TVAL is a free value (DESIGN CHOICE, log 3). -/
def withEntry (dev : Dev) (key addr : Nat) (tval : Word) (f : State → Latency → Asked) (s : State) : Asked :=
  match (s.dev dev).touch key with
  | none => .trap { s with free := s.free + 1 } (seqTrap .clasperr tval)
  | some (d, spilled) => f (s.setDev d) (s.claspLatency s.cur addr spilled)

/-- The place of a memory request: ALIGN (R252, R253, R255), then R63 to R69, then a stopped flow (14 R270). -/
def claspPlace (s : State) (k : AccessKind) (va : Word) (n : Nat) : Except Trap Place :=
  if va.toNat % n ≠ 0 then .error (seqTrap .align va)
  else match s.translate s.cur.gid 1 k false va with
    | .error t => .error t
    | .ok p => match s.linkTrap p.addr with | some t => .error t | none => .ok p

/-- A request finds its place, and the stacks decode what its walk reads (03 R58, R72); one to a section-homed line waits while the bank of the line
changes its mode (04 R91). -/
def placed (k : AccessKind) (n : Nat) (va : Word) (f : Place → State → Res) (s : State) : Res :=
  let t := if va.toNat % n = 0 then s.scrubWalk s.cur.gid va else s
  match claspPlace s k va n with
  | .error e => trapNow t e
  | .ok p => if t.lineHeld t.cur.gid p then stall t else f p t

/-- The shape of every class 5 memory request: its operands read, its place found, the request made with its entry. (DEDUCED, log 53) -/
def claspOp (i : Instr) (a b c d : Reg) (k : AccessKind) (n : Nat) (cls : BitVec 4) (mask : BitVec 16)
    (rel : Option (BitVec 3 × BitVec 16)) (f : Word → Nat → State → Latency → Asked) (s : State) : Res :=
  issue i (reading [b, c, d] [] (atCommit fun s =>
    let va := s.cur.rs b
    placed k n va (fun p s =>
      claspRequest i a (granuleKey p.addr) p.addr cls mask rel k.writes (claspRecord i cls va (s.cur.rs c) (s.cur.rs d))
        (claspReady cls p.addr rel k.writes)
        (fun s =>
          if s.poisoned p.addr then .trap s (seqTrap .uncorr va)
          else withEntry (addrDev p.addr) (granuleKey p.addr) p.addr (BitVec.ofNat 64 (p.pa / 64 * 64))
            (fun s lat => f va p.addr s ((s.walkLatency va).plus lat)) (s.scrub (p.addr / 128))) s) s)) s

/-! ### Rings (R256, R257) -/

/-- The section and ring number a selector names; none is ILLFLD. -/
def ringSelector (u : Unit) (x : Word) : Option (Nat × Nat) :=
  if u.isCore then (if x.toNat < 2 ^ 12 then some (x.toNat / 64, x.toNat % 64) else none)
  else if x.toNat < 64 then some (gidSection u.gid, x.toNat) else none

/-- A configuration's reserved codes and bits are clear. -/
def ringConfigOk (x : Word) : Bool := decide (x.toNat < 2 ^ 14) && decide (fld x 10 4 ≤ 10)

/-- The ring a configuration binds. -/
def newRing (x : Word) : Ring := { config := x, claimed := 0, tail := 0, head := 0, committed := [], releases := [],
                                      headReleases := [], claimReleases := [] }

/-- The banks of a configuration exist, are in FIFO mode, are owned by the task, and serve no other ring. (DEDUCED, log 52) -/
def State.ringBanksOk (s : State) (u : Unit) (sec ring : Nat) (x : Word) : Bool :=
  let d := s.dev (gidDev u.gid)
  let r := newRing x
  decide (r.firstBank + r.banks ≤ 32) && (List.range r.banks).all fun k =>
    let b := d.bank (32 * sec + r.firstBank + k)
    b.mode == 2 && (u.isCore || b.owner == u.task) &&
      d.rings.all fun e => e.1 / 64 != sec || e.1 == ringIndex sec ring ||
        !(decide (e.2.firstBank ≤ r.firstBank + k) && decide (r.firstBank + k < e.2.firstBank + e.2.banks))

/-- Binds a ring; whoever waits on its earlier binding, its request served once, is told (R257). -/
def State.bindRing (s : State) (dev : Dev) (sec ring : Nat) (x : Word) : State :=
  let s := s.onDev dev fun d => { d with rings := tablePut d.rings (ringIndex sec ring) (newRing x) }
  let lose (u : Unit) : Unit := match u.wait with
    | some w => if w.key == ringKey dev (ringIndex sec ring) && w.served then { u with wait := some { w with woken := false } } else u
    | none => u
  { s with cur := lose s.cur, others := s.others.map lose }

def State.setRing (s : State) (dev : Dev) (index : Nat) (r : Ring) : State :=
  s.onDev dev fun d => { d with rings := tablePut d.rings index r }

/-- Scope of the ring instructions: the section (16 R295, R297). -/
def ringScope : BitVec 3 := 1

/-- What the updates of a ring's counters carry: the release of the FENCE that governs class c0, and RCOMMIT's own (16 R295). -/
def State.ringReleases (s : State) (own : Option (BitVec 3 × BitVec 16)) : List Release :=
  (s.transports 0 own).filter fun (x : Release) => !x.ids.isEmpty

/-- The current unit has read a counter in whose release sequence these stand (16 R297, R298). -/
def State.noteRing (s : State) (rs : List Release) : State :=
  { s with cur := { s.cur with readRings := (s.cur.readRings ++ rs.map fun r => (0, r)).eraseDups } }

/-- The shape of every ring instruction on a bound ring: RINGERR on one that is not bound, or no longer. -/
def ringOp (i : Instr) (a b c : Reg) (mask : BitVec 16) (rel writes : Bool) (f : Ring → Nat → (Ring → State) → Latency → State → Asked) (s : State) : Res :=
  let vet (known : Reg → Bool) (s : State) : Option Trap :=
    if known b && (ringSelector s.cur (s.cur.rs b)).isNone then some (seqTrap .illfld (encode i)) else none
  issue i (vetting [b, c] vet (atCommit fun s =>
    let x := s.cur.rs b
    match ringSelector s.cur x with
    | none => trapNow s (seqTrap .illfld (encode i))
    | some (sec, ring) =>
      let dev := gidDev s.cur.gid
      let index := ringIndex sec ring
      let lost := match s.cur.wait with | some w => !w.woken | none => false
      let own := if rel then some (ringScope, mask) else none
      let ready (s : State) : Bool := s.cur.classFree 0 && (!rel || s.performed s.actor mask ringScope.toNat) &&
        (!writes || (s.cur.carried 0 own).all fun c => s.knownWide s.actor c.2 c.1.toNat)
      if lost then trapNow s (seqTrap .ringerr x)
      else claspRequest i a (ringKey dev index) (sramAddr dev sec 0) 0 mask own writes (claspRecord i 0 x (s.cur.rs c) 0) ready
        (fun s =>
          withEntry dev (ringKey dev index) (sramAddr dev sec 0) (Config.freeWord s.free) (fun s lat =>
            match (s.dev dev).rings.lookup index with
            | none => .trap s (seqTrap .ringerr x)
            | some r => f r ring (s.setRing dev index) lat s) s) s)) s

end Sys2Proof.Machine
end

