-- ==== Sys2Proof/Machine/Syn.lean ====
section
/-! DEFINITION. Class 5, synchronisation (12 R251-R259, 06 R128-R134): atomics, barriers, monitors, rings, tokens, replies. -/
namespace Sys2Proof.Machine
open Sys2Proof

/-! ### Atomics (R252) -/

/-- Whether semantics bits name a release, and an acquire (02 R33). -/
def semRel (sem : BitVec 2) : Bool := sem.getLsbD 1
def semAcq (sem : BitVec 2) : Bool := sem.getLsbD 0

/-- An atomic update: `op` gives the new value from the old one, none where nothing is written, with its flags; `back` is
what s[A] receives. -/
def atomicOp (i : Instr) (small : Bool) (sem : BitVec 2) (scope : BitVec 3) (oc : BitVec 4) (mask : BitVec 16) (a b c d : Reg)
    (op : Nat → Nat → Nat → Option Nat × Flags) (back : Nat → Word) (s : State) : Res :=
  let n := if small then 4 else 8
  let rel := if semRel sem then some (scope, mask) else none
  claspOp i a b c d .atomic n oc (if semRel sem then mask else 0) rel (fun _ addr s lat =>
    let g := s.leadGid
    let low (r : Reg) : Nat := (s.cur.rs r).toNat % 2 ^ (8 * n)
    let old := fromLe (s.homeBytes addr n)
    let r := op old (low c) (low d)
    let s := (s.noteSeen g addr n).noteRead oc addr n
    let t := match r.1 with | some x => s.claspWrite g oc addr (leBytes n x) rel true | none => s
    let known := if semAcq sem then ((s.acquireAt s.cur.gid scope.toNat addr n).cur).known else t.cur.known
    let t := ({ t with cur := { t.cur with known := known } } : State).wake (granuleKey addr)
    .done t (back old) lat r.2) s

/-- The old value in s[A] of an integer atomic. -/
def oldValue (w : Bool) (old : Nat) : Word := if w then BitVec.ofInt 64 (toSigned 32 old) else BitVec.ofNat 64 old

/-- An integer atomic that always writes: the new value from the old one and s[C], at the operation's width. -/
def atomicInt (i : Instr) (w : Bool) (sem : BitVec 2) (scope : BitVec 3) (oc : BitVec 4) (mask : BitVec 16) (a b c : Reg)
    (op : Nat → Nat → Nat → Nat) (s : State) : Res :=
  let bits := if w then 32 else 64
  atomicOp i w sem scope oc mask a b c 0 (fun old x _ => (some (op bits old x % 2 ^ bits), 0)) (oldValue w) s

/-- The signed minimum and maximum at a width. -/
def minSigned (bits x y : Nat) : Nat := if toSigned bits x ≤ toSigned bits y then x else y
def maxSigned (bits x y : Nat) : Nat := if toSigned bits x ≤ toSigned bits y then y else x

/-- AADD (R252). -/
def execAadd (w : Bool) (sem : BitVec 2) (scope : BitVec 3) (oc : BitVec 4) (mask : BitVec 16) (a b c : Reg) (s : State) : Res :=
  atomicInt (.aadd w sem scope oc mask a b c) w sem scope oc mask a b c (fun _ x y => x + y) s

/-- AAND (R252). -/
def execAand (w : Bool) (sem : BitVec 2) (scope : BitVec 3) (oc : BitVec 4) (mask : BitVec 16) (a b c : Reg) (s : State) : Res :=
  atomicInt (.aand w sem scope oc mask a b c) w sem scope oc mask a b c (fun _ x y => x &&& y) s

/-- AOR (R252). -/
def execAor (w : Bool) (sem : BitVec 2) (scope : BitVec 3) (oc : BitVec 4) (mask : BitVec 16) (a b c : Reg) (s : State) : Res :=
  atomicInt (.aor w sem scope oc mask a b c) w sem scope oc mask a b c (fun _ x y => x ||| y) s

/-- AXOR (R252). -/
def execAxor (w : Bool) (sem : BitVec 2) (scope : BitVec 3) (oc : BitVec 4) (mask : BitVec 16) (a b c : Reg) (s : State) : Res :=
  atomicInt (.axor w sem scope oc mask a b c) w sem scope oc mask a b c (fun _ x y => x ^^^ y) s

/-- AMIN (R252). -/
def execAmin (w : Bool) (sem : BitVec 2) (scope : BitVec 3) (oc : BitVec 4) (mask : BitVec 16) (a b c : Reg) (s : State) : Res :=
  atomicInt (.amin w sem scope oc mask a b c) w sem scope oc mask a b c minSigned s

/-- AMAX (R252). -/
def execAmax (w : Bool) (sem : BitVec 2) (scope : BitVec 3) (oc : BitVec 4) (mask : BitVec 16) (a b c : Reg) (s : State) : Res :=
  atomicInt (.amax w sem scope oc mask a b c) w sem scope oc mask a b c maxSigned s

/-- AMINU (R252). -/
def execAminu (w : Bool) (sem : BitVec 2) (scope : BitVec 3) (oc : BitVec 4) (mask : BitVec 16) (a b c : Reg) (s : State) : Res :=
  atomicInt (.aminu w sem scope oc mask a b c) w sem scope oc mask a b c (fun _ x y => min x y) s

/-- AMAXU (R252). -/
def execAmaxu (w : Bool) (sem : BitVec 2) (scope : BitVec 3) (oc : BitVec 4) (mask : BitVec 16) (a b c : Reg) (s : State) : Res :=
  atomicInt (.amaxu w sem scope oc mask a b c) w sem scope oc mask a b c (fun _ x y => max x y) s

/-- ASWAP (R252). -/
def execAswap (w : Bool) (sem : BitVec 2) (scope : BitVec 3) (oc : BitVec 4) (mask : BitVec 16) (a b c : Reg) (s : State) : Res :=
  atomicInt (.aswap w sem scope oc mask a b c) w sem scope oc mask a b c (fun _ _ y => y) s

/-- ACAS: s[D] is written only where the old value is s[C] (R252). -/
def execAcas (w : Bool) (sem : BitVec 2) (scope : BitVec 3) (oc : BitVec 4) (mask : BitVec 16) (a b c d : Reg) (s : State) : Res :=
  atomicOp (.acas w sem scope oc mask a b c d) w sem scope oc mask a b c d
    (fun old x y => (if old = x then some y else none, 0)) (oldValue w) s

/-- AFADD: rounded to nearest even, its flags ORed into FSTAT, never FPEXC (R252). -/
def execAfadd (single : Bool) (sem : BitVec 2) (scope : BitVec 3) (oc : BitVec 4) (mask : BitVec 16) (a b c : Reg) (s : State) : Res :=
  let f := precision single
  atomicOp (.afadd single sem scope oc mask a b c) single sem scope oc mask a b c 0
    (fun old x _ => let r := roundFlt single 0 ((f.val old).add false (f.val x)); (some r.1, r.2)) (BitVec.ofNat 64) s

/-! ### Barriers (R253, R254) -/

/-- The fields of a barrier word. -/
def barrierWord (gen expected arrivals : Nat) : Nat := gen % 2 ^ 32 * 2 ^ 32 + expected * 2 ^ 16 + arrivals

/-- The end of a wait that acquires the masked classes: the reads of `n` bytes at `addr` take on what their writes
release (16 R297). -/
def State.acquired (s : State) (scope : BitVec 3) (addr n : Nat) : State :=
  ((s.noteSeen s.cur.gid addr n).noteRead 0 addr n).acquireAt s.cur.gid scope.toNat addr n

/-- The arrival of a unit at a granule, if one is recorded. -/
def Device.arrival? (d : Device) (key : Nat) (g : Gid) : Option Arrival := d.arrivals.find? fun x => x.granule == key && x.gid == g

/-- BARR (R254): checked once, it arrives once, then waits for the generation to move on; a recorded arrival of an older generation
is over (DEDUCED, log 22).  As an atomic on the granule it wakes the monitors there (R255). -/
def execBarr (scope : BitVec 3) (mask : BitVec 16) (a b c : Reg) (s : State) : Res :=
  claspOp (.barr scope mask a b c) a b c 0 .atomic 64 0 mask (some (scope, mask)) (fun va addr s lat =>
    let g := s.leadGid
    let dev := addrDev addr
    let key := granuleKey addr
    let w := fromLe (s.homeBytes addr 8)
    let gen := w / 2 ^ 32
    let ended (s : State) (x : Nat) : Asked :=
      let s := s.onDev dev fun d => { d with arrivals := d.arrivals.filter fun y => !(y.granule == key && y.gid == g) }
      .done (s.acquired scope addr 8) (BitVec.ofNat 64 x) lat
    let p := (s.cur.rs c).toNat
    let expected := w / 2 ^ 16 % 2 ^ 16
    let count := w % 2 ^ 16 + 1
    let waits := s.cur.wait.any (·.served)
    if !waits && (p == 0 || decide (65535 < p) || (expected != 0 && expected != p)) then .trap s (seqTrap .clasperr va)
    else match (s.dev dev).arrival? key g with
    | some r => if r.gen.toNat != gen then ended s r.gen.toNat else .wait s
    | none =>
      let s := s.noteSeen g addr 8
      let w' := if count = p then barrierWord (gen + 1) 0 0 else barrierWord gen p count
      let t := (s.claspWrite g 0 addr (leBytes 8 w') (some (scope, mask)) true).wake key
      if count = p then ended t gen
      else .wait (t.onDev dev fun d => { d with arrivals := d.arrivals ++ [{ granule := key, gid := g, gen := BitVec.ofNat 32 gen }] })) s

/-- BWAIT (R254). -/
def execBwait (scope : BitVec 3) (mask : BitVec 16) (a b c : Reg) (s : State) : Res :=
  claspOp (.bwait scope mask a b c) a b c 0 .read 64 0 0 none (fun _ addr s lat =>
    let gen := fromLe (s.homeBytes addr 8) / 2 ^ 32
    if gen = (s.cur.rs c).toNat % 2 ^ 32 then .wait (s.noteSeen s.cur.gid addr 8)
    else .done (s.acquired scope addr 8) (BitVec.ofNat 64 gen) lat) s

/-! ### Monitors (R255) -/

/-- MWAIT (R255): it reads at once, then whenever it is woken or its period has passed. -/
def execMwait (scope : BitVec 3) (mask : BitVec 16) (a b c : Reg) (s : State) : Res :=
  claspOp (.mwait scope mask a b c) a b c 0 .read 8 0 0 none (fun _ addr s lat =>
    let looks := match s.cur.wait with | some w => w.woken || decide (w.since + monitorPeriod ≤ s.cur.time) | none => true
    if !looks then .wait s
    else
      let x := BitVec.ofNat 64 (fromLe (s.homeBytes addr 8))
      let s := s.noteSeen s.cur.gid addr 8
      if x = s.cur.rs c then
        .wait { s with cur := { s.cur with wait := s.cur.wait.map fun w => { w with since := s.cur.time, woken := false } } }
      else .done (s.acquired scope addr 8) x lat) s

/-- MSIG: a release, a write at the home, and the monitors of the granule woken (R255). -/
def execMsig (scope : BitVec 3) (mask : BitVec 16) (b c : Reg) (s : State) : Res :=
  claspOp (.msig scope mask b c) 0 b c 0 .atomic 8 0 mask (some (scope, mask)) (fun _ addr s lat =>
    .done ((s.claspWrite s.leadGid 0 addr (leBytes 8 (s.cur.rs c).toNat) (some (scope, mask)) false).wake (granuleKey addr)) 0 lat) s

/-! ### Rings (R256-R259) -/

/-- RINIT (R257). -/
def execRinit (a b c : Reg) (s : State) : Res :=
  let i : Instr := .rinit a b c
  let vet (known : Reg → Bool) (s : State) : Option Trap :=
    if (known b && (ringSelector s.cur (s.cur.rs b)).isNone) || (known c && !ringConfigOk (s.cur.rs c)) then some (seqTrap .illfld (encode i)) else none
  issue i (vetting [b, c] vet (atCommit fun s =>
    let x := s.cur.rs c
    match ringSelector s.cur (s.cur.rs b) with
    | none => trapNow s (seqTrap .illfld (encode i))
    | some (sec, ring) =>
      let dev := gidDev s.cur.gid
      let key := ringKey dev (ringIndex sec ring)
      claspRequest i a key (sramAddr dev sec 0) 0 0 none false (claspRecord i 0 (s.cur.rs b) x 0) (fun s => s.cur.classFree 0) (fun s =>
        if !s.ringBanksOk s.cur sec ring x then .trap s (seqTrap .ringerr (s.cur.rs b))
        else withEntry dev key (sramAddr dev sec 0) (Config.freeWord s.free) (fun s lat =>
          .done (s.bindRing dev sec ring x) (BitVec.ofNat 64 (newRing x).slots) lat) s) s)) s

/-- The word that names a slot of a ring: its ticket and the ring (R259). -/
def slotWord (t : BitVec 32) (ring : Nat) : Word := t ++ BitVec.ofNat 32 ring

/-- A ticket that has been claimed (R259). -/
def Ring.isClaimed (r : Ring) (t : BitVec 32) : Bool := !(r.claimed - t == 0 || decide (2 ^ 31 < (r.claimed - t).toNat))

/-- RCLAIM (R259). -/
def execRclaim (a b : Reg) (s : State) : Res :=
  ringOp (.rclaim a b) a b 0 0 false true (fun r _ put lat s =>
    .done ((put { r with claimed := r.claimed + 1, claimReleases := (r.claimReleases ++ s.ringReleases none).eraseDups }).noteRing r.claimReleases)
      (r.claimed.setWidth 64) lat) s

/-- RWAITE (R259). -/
def execRwaite (a b c : Reg) (s : State) : Res :=
  ringOp (.rwaite a b c) a b c 0 false false (fun r ring _ lat s =>
    let t : BitVec 32 := (s.cur.rs c).setWidth 32
    if !r.isClaimed t then .trap s (seqTrap .ringerr (s.cur.rs b))
    else if (t - r.head).toNat < r.slots then .done (s.noteRing r.headReleases) (slotWord t ring) lat
    else .wait s) s

/-- The tail moved over the committed tickets that follow it (R259). -/
def Ring.advanceTail : Nat → Ring → Ring
  | 0, r => r
  | n + 1, r =>
    if r.committed.contains r.tail then
      Ring.advanceTail n { r with tail := r.tail + 1, committed := r.committed.filter (· != r.tail) }
    else r

/-- RCOMMIT (R259): a release at section scope, carried by the update of the tail, where it moves (16 R295). -/
def execRcommit (mask : BitVec 16) (b c : Reg) (s : State) : Res :=
  ringOp (.rcommit mask b c) 0 b c mask true true (fun r _ put lat s =>
    let t : BitVec 32 := (s.cur.rs c).setWidth 32
    let past := decide ((t - r.head).toNat < (r.tail - r.head).toNat) || r.committed.contains t
    if !r.isClaimed t || past || decide (r.slots ≤ (t - r.head).toNat) then .trap s (seqTrap .ringerr (s.cur.rs b))
    else
      let r' := ({ r with committed := r.committed ++ [t] } : Ring).advanceTail (r.committed.length + 1)
      .done (put (if r'.tail = r.tail then r' else
        { r' with releases := (r'.releases ++ s.ringReleases (some (ringScope, mask))).eraseDups })) 0 lat) s

/-- RWAITF (R259): an acquire at section scope of what the tail carries. -/
def execRwaitf (mask : BitVec 16) (a b : Reg) (s : State) : Res :=
  ringOp (.rwaitf mask a b) a b 0 0 false false (fun r ring _ lat s =>
    if r.tail == r.head then .wait s
    else
      let u := s.cur
      let ids := acquiredFrom u.gid ringScope.toNat r.releases
      .done (({ s with cur := { u with known := (u.known ++ ids).eraseDups } } : State).noteRing r.releases) (slotWord r.head ring) lat) s

/-- RTAKE (R259). -/
def execRtake (b c : Reg) (s : State) : Res :=
  ringOp (.rtake b c) 0 b c 0 false true (fun r _ put lat s =>
    if (s.cur.rs c).setWidth 32 != r.head || r.tail == r.head then .trap s (seqTrap .ringerr (s.cur.rs b))
    else .done (put { r with head := r.head + 1, headReleases := (r.headReleases ++ s.ringReleases none).eraseDups }) 0 lat) s

/-- RSTAT (R259). -/
def execRstat (a b : Reg) (k : BitVec 2) (s : State) : Res :=
  ringOp (.rstat a b k) a b 0 0 false false (fun r _ _ lat s =>
    .done (s.noteRing (match k.toNat with | 0 => r.claimReleases | 1 => r.releases | 2 => r.headReleases | _ => [])) (match k.toNat with
      | 0 => r.claimed.setWidth 64
      | 1 => r.tail.setWidth 64
      | 2 => r.head.setWidth 64
      | _ => BitVec.ofNat 32 r.slots ++ r.config.setWidth 32) lat) s

/-! ### Tokens and replies (06 R128-R134) -/

/-- TWAIT (R130). -/
def execTwait (a : Reg) (q : BitVec 3) (s : State) : Res :=
  let i : Instr := .twait a q
  issue i (atCommit fun s =>
    let u := s.cur
    let n := u.ripe q 1
    if n = 0 then
      if u.fifo q 1 ≠ 0 ∨ u.willGive q then stall s
      else trapNow s (seqTrap .illfld (encode i))
    else
      let r := takeKey q u.given
      let x := takeKey q u.readGiven
      finishReg { s with cur := { u.setFifo q 1 (u.fifo q 1 - 1) with
          given := r.2, taken := u.taken ++ (r.1.map fun k => (q, k)).toList,
          readGiven := x.2, readFrom := (u.readFrom ++ x.1.getD []).eraseDups } }
        a (BitVec.ofNat 64 (u.fifo q 1 - 1)) 1) s

/-- TGIVE (R131); the token hands on the release in force (04 R86). -/
def execTgive (q : BitVec 3) (s : State) : Res :=
  let i : Instr := .tgive q
  issue i (atCommit fun s =>
    let u := s.cur
    if 8 ≤ u.fifo 1 q then trapNow s (seqTrap .illfld (encode i))
    else finish s { u.setFifo 1 q (u.fifo 1 q + 1) with handed := u.handed ++ [(q, u.carrier)] }) s

/-- YPOP (R133). -/
def execYpop (a : Reg) (s : State) : Res :=
  let i : Instr := .ypop a
  issue i (atCommit fun s =>
    match s.cur.replies with
    | x :: rest => finishReg { s with cur := { s.cur with replies := rest, replyOf := s.cur.replyOf.drop 1 } } a x 1
    | [] => if s.cur.willReply then stall s else trapNow s (seqTrap .illfld (encode i))) s

/-- YPEEK: never waits and removes nothing (R134). -/
def execYpeek (a b : Reg) (s : State) : Res :=
  issue (.ypeek a b) (fun s =>
    let u := s.cur
    finish s ((u.land a (u.replies.headD 0) 1).land b (BitVec.ofNat 64 u.replies.length) 1)) s

end Sys2Proof.Machine
end

