-- ==== Sys2Proof/Machine/Binder.lean ====
section
/-! DEFINITION. The binder (19): task records and their checks, plates, placement, completion and inheritance, checkpoints and
pre-emption. -/
namespace Sys2Proof.Machine
open Sys2Proof

/-! ### The record (R333) -/

/-- A field of a task's record: `n` bits from bit `lo` of the bytes from `off`. -/
def recField (r : BitVec 2048) (off lo n : Nat) : Nat := fld r (8 * off + lo) n

def Task.perSection (t : Task) : Nat := recField t.fields 72 0 2 + 1
def Task.perVolume (t : Task) : Nat := recField t.fields 72 2 3 + 1
def Task.perDevice (t : Task) : Nat := recField t.fields 72 5 3 + 1
def Task.onDevices (t : Task) : Nat := recField t.fields 72 8 6 + 1
/-- Quires of one replica. -/
def Task.quires (t : Task) : Nat := t.perSection * t.perVolume * t.perDevice * t.onDevices
def Task.replicas (t : Task) : Nat := recField t.fields 76 0 2
def Task.rule (t : Task) : Nat := recField t.fields 76 2 2
def Task.priority (t : Task) : Nat := recField t.fields 77 0 4
def Task.checkpointable (t : Task) : Bool := t.fields.getLsbD (8 * 77 + 4)
def Task.killable (t : Task) : Bool := t.fields.getLsbD (8 * 77 + 5)
def Task.isSecure (t : Task) : Bool := t.fields.getLsbD (8 * 78)
def Task.successors (t : Task) : Nat := recField t.fields 79 0 8
def Task.successor (t : Task) (i : Nat) : Word := BitVec.ofNat 64 (recField t.fields (176 + 8 * i) 0 64)
def Task.accBytes (t : Task) : Nat := recField t.fields 148 0 32
def Task.checkpointArea (t : Task) : Nat := recField t.fields 152 0 64
/-- The requested banks with their modes. -/
def recordBanks (r : BitVec 2048) : List (Nat × BitVec 3) :=
  (List.range 32).filterMap fun b =>
    if r.getLsbD (8 * 120 + 4 * b + 3) then some (b, r.extractLsb' (8 * 120 + 4 * b) 3) else none
def Task.wants (t : Task) : List (Nat × BitVec 3) := recordBanks t.fields

/-- The shape, replicas and distance rule (R344). -/
def Task.form (t : Task) : Nat × Nat := (recField t.fields 72 0 32, recField t.fields 76 0 8)

/-! ### The binder's reads (R333, R341, R346) -/

/-- XBASE as a device's binder sets it: the table base with the number of the device (03 R63, 01 R19). -/
def xbaseOn (dev : Dev) (x : Word) : Word := BitVec.ofNat 64 (dev.toNat * 2 ^ 42 + fld x 18 24 * 2 ^ 18)

/-- A read of `n` bytes inside one sector through a task's translation; none where it faults. -/
def State.taskPiece (s : State) (dev : Dev) (xbase : Word) (secure : Bool) (va : Word) (n : Nat) : Option (List Byte) :=
  match s.walk (quireGid dev 0) xbase va with
  | .error _ => none
  | .ok m =>
    let pa := m.pa va
    if (!secure && (m.entry.getLsbD 60 || (s.dev dev).regionSecure pa)) || fld m.entry 14 3 == 3 || s.poisoned (s.addrOf (s.dev dev) pa) then none
    else some (s.homeBytes (s.addrOf (s.dev dev) pa) n)

/-- The sectors that such a read decodes (03 R58). -/
def State.taskScrub (s : State) (dev : Dev) (xbase va : Word) (n : Nat) : State :=
  if s.latent.isEmpty then s
  else (List.range (ceilDiv n 128)).foldl (fun s k =>
    match s.walk (quireGid dev 0) xbase (va + BitVec.ofNat 64 (128 * k)) with
    | .error _ => s
    | .ok m => s.scrub (s.addrOf (s.dev dev) (m.pa (va + BitVec.ofNat 64 (128 * k))) / 128)) s

/-- A read of a task's memory by the binder, sector by sector from a sector boundary. -/
def State.taskRead (s : State) (dev : Dev) (xbase : Word) (secure : Bool) (va : Word) (n : Nat) : Option (List Byte) :=
  ((List.range (ceilDiv n 128)).mapM fun k => s.taskPiece dev xbase secure (va + BitVec.ofNat 64 (128 * k)) (min 128 (n - 128 * k))).map
    List.flatten

/-- Whether the record's stack top lies on a section-homed page (R334, reason 0x05). (DEDUCED, log 56) -/
def State.stackHomed (s : State) (dev : Dev) (xbase va : Word) : Bool :=
  match s.walk (quireGid dev 0) xbase va with
  | .ok m => fld m.entry 58 2 == 1
  | .error (.reason 7 _) => true
  | .error _ => false

/-! ### Plates (R345, R346) -/

/-- The offsets of a plate image's bytes that fail a check of the loader. (DEDUCED, log 57) -/
def plateFaults (p : BitVec 16384) : List Nat :=
  let b (off : Nat) : Nat := plateField p off 1
  let zero (lo hi : Nat) : List Nat := (List.range (hi - lo)).filterMap fun k => if b (lo + k) = 0 then none else some (lo + k)
  let length := (List.range 4).filter fun k => b k != (if k = 1 then 8 else 0)
  let mode := if 3 < b 4 ∨ b 4 = 2 then [4] else []
  let rings := (List.range 8).flatMap fun k =>
    let at_ := 0x140 + 8 * k
    (List.range 8).filterMap fun j =>
      let allowed := if j = 0 then 0xFF else if j = 1 then 0x3F else if j = 7 then 0xBF else 0
      if b (at_ + j) &&& (255 - allowed) = 0 then none else some (at_ + j)
  let ranges := (List.range 320).filterMap fun k =>
    let x := plateField p (0x480 + 2 * k) 2
    if x / 1024 % 32 ≠ 0 then some (0x480 + 2 * k + 1) else if x / 32 % 32 < x % 32 then some (0x480 + 2 * k) else none
  length ++ mode ++ zero 0x005 0x040 ++ zero 0x050 0x080 ++ rings ++ zero 0x1A0 0x200 ++ zero 0x440 0x480 ++ ranges ++ zero 0x700 0x800

/-- The lowest byte of an image that fails. -/
def plateFault (p : BitVec 16384) : Option Nat :=
  match plateFaults p with | [] => none | x :: xs => some (xs.foldl min x)

/-- The valid ring bindings of a plate: the binding's offset, its ring and its configuration (R345). -/
def plateRings (p : BitVec 16384) : List (Nat × Nat × Word) :=
  (List.range 8).filterMap fun k =>
    let x := plateField p (0x140 + 8 * k) 8
    if x / 2 ^ 63 = 1 then some (0x140 + 8 * k, x / 2 ^ 56 % 64, BitVec.ofNat 64 (x % 2 ^ 14)) else none

/-! ### Placement (R335, R339) -/

/-- The quire may hold the task: its device has booted (23 R419, R422), it is in use, of the task's secure attribute, held by no task that `holds`,
reserved for no other and not to be avoided. -/
def State.quireFits (s : State) (t : Task) (holds : BitVec 32 → Bool) (avoid : List Gid) (g : Gid) : Bool :=
  let d := s.dev (gidDev g)
  d.boot == .done && !d.quireDisabled (gidLocal g) && d.quireSecure (gidLocal g) == t.isSecure &&
  (match (s.unitAt g).task with | some o => !holds o | none => true) &&
  d.reserved.all (fun e => e.1 != g || e.2 == t.id || !holds e.2) && !avoid.contains g

/-- The requested banks of a section may serve the task. -/
def State.banksFit (s : State) (t : Task) (holds : BitVec 32 → Bool) (d : Dev) (sec : Nat) : Bool :=
  let dv := s.dev d
  t.wants.all fun w =>
    let b := 32 * sec + w.1
    (match (dv.bank b).owner with | some o => !holds o | none => true) && dv.bankSecure b == t.isSecure

/-- The quires of a section that may hold the task; none where its banks are taken. -/
def State.sectionQuires (s : State) (t : Task) (holds : BitVec 32 → Bool) (avoid : List Gid) (d : Dev) (sec : Nat) : List Gid :=
  if s.banksFit t holds d sec then
    ((List.range 4).map fun q => quireGid d (4 * sec + q)).filter (s.quireFits t holds avoid)
  else []

/-- The first `n` of the groups that hold `m` quires each, joined. -/
def firstGroups (n m : Nat) (groups : List (List Gid)) : List Gid :=
  let full := groups.filter fun g => decide (m ≤ g.length)
  if full.length < n then [] else ((full.take n).map fun g => g.take m).flatten

/-- Whether the distance rule lets another replica use a volume of a device (R333). -/
def distanceAllows (rule : Nat) (placed : List Gid) (d : Dev) (vol : Nat) : Bool :=
  placed.all fun g =>
    if rule = 2 then gidDev g != d
    else if rule = 1 then gidDev g != d || gidVolume g / 4 != vol / 4
    else gidDev g != d || gidVolume g != vol

/-- One whole copy of the shape at the lowest-numbered instances, by ascending id; empty where it does not fit. (DESIGN CHOICE, log 62) -/
def State.replicaFit (s : State) (t : Task) (holds : BitVec 32 → Bool) (avoid placed : List Gid) : List Gid :=
  let perVol := t.perSection * t.perVolume
  firstGroups t.onDevices (perVol * t.perDevice) <| s.devs.map fun d =>
    firstGroups t.perDevice perVol <| (List.range 8).map fun v =>
      if distanceAllows t.rule placed d.num v then
        firstGroups t.perVolume t.perSection <| (List.range 8).map fun k => s.sectionQuires t holds avoid d.num (8 * v + k)
      else []

/-- The replicas, by the ascending id of their rank-0 quires (20 R357). -/
def insertReplica (r : List Gid) : List (List Gid) → List (List Gid)
  | [] => [r]
  | x :: xs => if (x.headD 0).toNat ≤ (r.headD 0).toNat then x :: insertReplica r xs else r :: x :: xs

/-- A placement of every replica; none where the task does not fit. -/
def State.fitFrom (s : State) (t : Task) (holds : BitVec 32 → Bool) (avoid : List Gid) : Nat → List (List Gid) → Option (List (List Gid))
  | 0, acc => some acc
  | n + 1, acc =>
    match s.replicaFit t holds (avoid ++ acc.flatten) acc.flatten with
    | [] => none
    | r => s.fitFrom t holds avoid n (insertReplica r acc)
def State.fit (s : State) (t : Task) (holds : BitVec 32 → Bool) (avoid : List Gid) : Option (List (List Gid)) :=
  s.fitFrom t holds avoid t.replicas []

/-- The task of an id, with its device. -/
def State.findTask (s : State) (id : BitVec 32) : Option Task := s.devs.findSome? fun d => d.task? id
/-- Tasks of at least a priority hold what they have. -/
def State.holdsFrom (s : State) (p : Nat) (id : BitVec 32) : Bool :=
  match s.findTask id with | some t => decide (p ≤ t.priority) | none => true

/-- The quires of a volume that a placement may take: those of the sections that hold enough, where enough sections do; else none. -/
def State.volumeQuires (s : State) (t : Task) (holds : BitVec 32 → Bool) (d : Dev) (vol : Nat) : List Gid :=
  let full := ((List.range 8).map fun k => s.sectionQuires t holds [] d (8 * vol + k)).filter fun g => decide (t.perSection ≤ g.length)
  if full.length < t.perVolume then [] else full.flatten

/-- How many replicas of a task a device can hold together, by the volumes that can hold a volume group of it, under the distance rule (R333). -/
def replicasHeld (rule perDevice : Nat) (vols : List Nat) : Nat :=
  let half (h : Nat) : Nat := (vols.filter fun v => v / 4 == h).length
  if perDevice ≤ vols.length then
    (if rule = 0 then vols.length / perDevice
     else if rule = 1 ∧ perDevice ≤ half 0 ∧ perDevice ≤ half 1 then 2 else 1)
  else 0

/-- The quires that a blocked task could use: those of some placement of its shape and replicas, with every task of lower priority removed
(R335).  Replicas never share a volume, each takes a device once, and those that a device can hold together may take any of its volumes: so a
placement exists where the devices together hold every replica's device groups, and each volume that can hold a group then stands in one. (DEDUCED,
log 62) -/
def State.couldUse (s : State) (t : Task) : List Gid :=
  let holds := s.holdsFrom t.priority
  let devs := s.devs.map fun d =>
    let vols := (List.range 8).map fun v => (v, s.volumeQuires t holds d.num v)
    let usable := vols.filter fun e => !e.2.isEmpty
    (replicasHeld t.rule t.perDevice (usable.map (·.1)), usable.flatMap (·.2))
  if (devs.map fun e => min e.1 t.replicas).sum < t.replicas * t.onDevices then []
  else devs.flatMap fun e => if e.1 = 0 then [] else e.2

/-- The queued tasks with their binders, highest priority first, each priority in the order they entered. -/
def State.queued (s : State) : List (Dev × Task) :=
  let all := s.devs.flatMap fun d => d.queue.filterMap fun id => (d.task? id).map fun t => (d.num, t)
  (List.range 16).flatMap fun k => all.filter fun e => e.2.priority + k == 15

/-- The first queued task that fits, and where (R335); `blocked` holds the quires that blocked tasks could use, by priority. -/
def State.nextFrom (s : State) (blocked : List (Nat × List Gid)) : List (Dev × Task) → Option (Dev × Task × List (List Gid))
  | [] => none
  | (d, t) :: rest =>
    let avoid := blocked.flatMap fun b => if t.priority < b.1 then b.2 else []
    match s.fit t (fun _ => true) avoid with
    | some gs => some (d, t, gs)
    | none => s.nextFrom (blocked ++ [(t.priority, s.couldUse t)]) rest
def State.nextPlacement (s : State) : Option (Dev × Task × List (List Gid)) := s.nextFrom [] s.queued

/-! ### Acceptance (R334) -/

/-- The shelf with every device that still boots booted: the limits of a shape are those of the shelf as configured (R334; DEDUCED, log 62). -/
def State.whenBooted (s : State) : State := { s with devs := s.devs.map fun d => if d.boot == .minimal then d else { d with boot := .done } }

/-- Whether a record belongs to a live task (reason 0x07). -/
def State.recordLive (s : State) (record : Nat) : Bool :=
  s.devs.any fun d => d.tasks.any fun t =>
    t.record == record && t.state != .completed && t.state != .killed && t.state != .rejected

/-- A record's fields of R333 that must be zero. -/
def recordReserved (r : BitVec 2048) : Bool :=
  let n := min 10 (recField r 79 0 8)
  recField r 72 14 18 != 0 || recField r 76 4 4 != 0 || recField r 77 6 2 != 0 || recField r 78 1 7 != 0 ||
  recField r (176 + 8 * n) 0 (64 * (10 - n)) != 0

/-- The accepted task of a record, or the reason of the first condition that fails, in the order of R334. -/
def State.validate (s : State) (dev : Dev) (record : Nat) (secureBy : Bool) : Except Nat Task :=
  let r : BitVec 2048 := BitVec.ofNat 2048 (fromLe (s.homeBytes record 256))
  let va (off : Nat) : Word := BitVec.ofNat 64 (recField r off 0 64)
  let secure := r.getLsbD (8 * 78)
  let xbase := xbaseOn (s.dev dev).seen (va 88)
  let block := if va 168 = 0 then some [] else s.taskRead dev xbase secure (va 168) 32
  let part (k : Nat) : Nat := fromLe (((block.getD []).drop (8 * k)).take 8)
  let image := if va 80 = 0 then some zeroPlate
    else (s.taskRead dev xbase secure (va 80) 2048).map fun bs => BitVec.ofNat 16384 (fromLe bs)
  let banks := recordBanks r
  let t : Task := {
    id := 0, record := record, fields := r, plate := image.getD 0, tvec := BitVec.ofNat 64 (part 0), tsave := BitVec.ofNat 64 (part 1),
    tstride := BitVec.ofNat 64 (part 2), state := .accepted, order := 0, tokens := va 112, units := [], former := [], decremented := [],
    releases := [], saved := [], sram := [], modes := [], tags := [], votes := 0 }
  let odd (off n : Nat) : Bool := (va off).toNat % n != 0
  let same := (s.queued.filter fun e => e.1 == dev && e.2.priority == t.priority).length
  if s.recordLive record then .error 0x07
  else if recordReserved r then .error 0x01
  else if 10 < t.successors then .error 0x06
  else if t.replicas = 0 ∨ t.rule = 3 ∨ (1 < t.replicas ∧ banks.all (fun b => b.2 != 4)) then .error 0x03
  else if odd 0 8 || odd 80 256 || odd 136 32 || odd 152 256 || odd 168 32 || recField r 144 0 32 % 32 != 0 ||
      t.accBytes % 1024 != 0 || decide (accSize < t.accBytes) || part 0 % 8 != 0 || part 1 % 1024 != 0 || part 2 % 1024 != 0 then
    .error 0x04
  else if banks.any (fun b => decide (4 < b.2.toNat)) || (banks.all (fun b => b.2 != 0) && s.stackHomed dev xbase (va 136)) then
    .error 0x05
  else if t.checkpointable && t.checkpointArea == 0 then .error 0x0A
  else if secure && !secureBy then .error 0x08
  else if block.isNone || part 3 != 0 then .error 0x0B
  else if image.isNone || (plateFault t.plate).isSome then .error 0x0C
  else if (secure && !((s.dev dev).reg 0x3320).getLsbD t.priority) || (s.whenBooted.fit t (fun _ => false) []).isNone then .error 0x02
  else if 4096 ≤ same then .error 0x09
  else .ok t

/-- Changes a task's state and writes its status word (R334). -/
def State.setStatus (s : State) (dev : Dev) (t : Task) (st : TaskState) : State :=
  (s.onDev dev fun d => d.setTask { t with state := st }).writeStatus t.record st 0 t.id

/-- The predecessor counter of a task (R333). -/
def counterAddr (t : Task) : Nat := t.record + 96

/-- Waiting tasks whose counter has reached zero become eligible and enter their queue (R335, R342). -/
def State.refreshEligible (s : State) : State :=
  let ready := s.devs.flatMap fun d => (d.tasks.filter fun t =>
    t.state == .waiting && fromLe (s.homeBytes (counterAddr t) 8) == 0).map fun t => (d.num, t)
  ready.foldl (fun s (d, t) =>
    let t := { t with releases := t.releases ++ s.sequence (counterAddr t) }
    (s.setStatus d t .eligible).onDev d fun dv => { dv with queue := dv.queue ++ [t.id] }) s

/-- The id of the task that a binder accepts: one more than the last on the shelf (DESIGN CHOICE, log 23). -/
def State.newTaskId (s : State) : BitVec 32 := BitVec.ofNat 32 (s.devs.foldl (fun n d => max n d.nextId.toNat) 0)

/-- What becomes of a record that the binder has read: its id, or the reason of its rejection (R334, R335). -/
def State.accept (s : State) (dev : Dev) (record : Nat) (secureBy : Bool) (releases : List Release) : State × Except Nat (BitVec 32) :=
  let s := s.scrubRun record 256
  let va (off : Nat) : Word := BitVec.ofNat 64 (fromLe (s.homeBytes (record + off) 8))
  let s := (s.taskScrub dev (xbaseOn (s.dev dev).seen (va 88)) (va 168) 32).taskScrub dev (xbaseOn (s.dev dev).seen (va 88)) (va 80) 2048
  match s.validate dev record secureBy with
  | .error 7 => (s, .error 7)
  | .error r => (s.writeStatus record .rejected r 0, .error r)
  | .ok t =>
    let d := s.dev dev
    let t := { t with id := s.newTaskId, state := .waiting, releases := releases }
    let s := s.setDev { d with nextId := t.id + 1, tasks := d.tasks ++ [t] }
    ((s.writeStatus record .waiting 0 t.id).refreshEligible, .ok t.id)

/-! ### Placing a task (R340, R342, R344) -/

/-- Free values for what placement leaves undefined (DESIGN CHOICE, log 3). -/
def freeRegs (n : Nat) : Vector Word 64 := Vector.ofFn fun i => Config.freeWord (n + i.val)
/-- Free values that one placed quire uses. -/
def freeSpan : Nat := 256

/-- A quire as placement leaves it (R340); on inheritance it keeps what R344 names from the quire it was. -/
def placedUnit (u : Unit) (t : Task) (dev num : Dev) (rank replica live n : Nat) (inherit : Bool) : Unit :=
  let r := t.fields
  let arg (k : Nat) : Word := BitVec.ofNat 64 (recField r (8 * k) 0 64)
  let regs := (List.range 8).foldl (fun (v : Vector Word 64) k => v.setIfInBounds (k + 1) (arg (k + 1))) (freeRegs n)
  let regs := ((regs.set 9 (BitVec.ofNat 64 rank)).set 10 (BitVec.ofNat 64 t.quires)).set 63
    (BitVec.ofNat 64 (recField r 136 0 64) - BitVec.ofNat 64 (rank * recField r 144 0 32))
  let new_ := Unit.atReset u.gid
  { new_ with
    s := regs.set 0 0, run := .running, debug := u.debug, pc := arg 0,
    xbase := xbaseOn num (BitVec.ofNat 64 (recField r 88 0 64)), remain := BitVec.ofNat 64 (recField r 104 0 64),
    inherit := if inherit then 1 else 0,
    v := if inherit then u.v else Vector.ofFn fun i => Config.freeVec (n + i.val),
    m := if inherit then u.m else Vector.ofFn fun i => Config.freeWord (n + 64 + i.val),
    d := if inherit then u.d else Vector.ofFn fun i => Config.freeDesc (n + i.val),
    acc := if inherit then u.acc else [], accEpoch := if inherit then u.accEpoch else n,
    tokens := if inherit then u.tokens else new_.tokens, handed := if inherit then u.handed else [],
    given := if inherit then u.given else [], readGiven := if inherit then u.readGiven else [], binding := if inherit then u.binding else none,
    plate := t.plate, shadow := t.plate, tvec := t.tvec, tsave := t.tsave + BitVec.ofNat 64 rank * t.tstride,
    tlb := u.tlb, classQ := u.classQ, known := acquiredFrom u.gid 4 t.releases,
    task := some t.id, taskDev := dev, rank := rank, replica := replica, secure := t.isSecure, live := live }

/-- The sections that a placement reaches, by device and section number. -/
def sectionsOf (gs : List Gid) : List (Dev × Nat) := (gs.map fun g => (gidDev g, gidSection g)).eraseDups

/-- A section's requested banks become the task's (R340, R344): one that `keeps` its mode keeps its contents; every other has undefined
contents. -/
def State.giveBanks (s : State) (t : Task) (keeps : Bool) (at_ : Dev × Nat) : State :=
  t.wants.foldl (fun s w =>
    let b := 32 * at_.2 + w.1
    let old := (s.dev at_.1).bank b
    let s := if old.mode = w.2 then (if keeps then s else (s.clearBank at_.1 b).onDev at_.1 fun d =>
        { d.setBank b { old with epoch := old.epoch + 1 } with
          steps := d.steps.filter fun e => !(e.1 / 128 == at_.2 && e.1 % 128 / 4 == w.1) })
      else s.changeMode at_.1 b w.2
    s.onDev at_.1 fun d => d.setBank b { d.bank b with owner := some t.id }) s

/-- The number of the latest placement on the shelf (R354: the candidates stand in the order of their placements, whichever binder made them). -/
def State.newOrder (s : State) : Nat := s.devs.foldl (fun n d => max n d.nextOrder) 0

/-- Puts a task on its quires, one list for each replica (R340, R342). -/
def State.start_ (s : State) (dev : Dev) (t : Task) (replicas : List (List Gid)) (inherit : Bool) : State :=
  let all := replicas.flatten
  let s := (sectionsOf all).foldl (fun s x => s.giveBanks t inherit x) (all.foldl State.disown s)
  let s := replicas.zipIdx.foldl (fun s (gs, k) =>
    gs.zipIdx.foldl (fun s (g, rank) =>
      let u := placedUnit (s.unitAt g) t dev (s.dev (gidDev g)).seen rank k replicas.length s.free inherit
      { s.setUnit u with free := s.free + freeSpan }) s) s
  let s := s.onDev dev fun d => { d with
    nextOrder := s.newOrder + 1, queue := d.queue.filter (· != t.id) }
  let s := (s.devs.map (·.num)).foldl (fun s n => s.onDev n fun d => { d with
    reserved := d.reserved.filter (fun e => e.2 != t.id),
    arrivals := d.arrivals.filter fun a => !all.contains a.gid }) s
  let s : State := { s with asked := s.asked.filter fun x => !all.contains x.gid, requests := s.requests.filter fun r => !all.contains r.arrival.gid }
  s.setStatus dev { t with units := all, order := (s.dev dev).nextOrder } .running

/-! ### Checkpoint and restore (R355, 21 R396) -/

/-- The unit of a checkpoint's saved state, laid over a freshly placed one (21 R396); the edge binding lasts to the task's end (17 R315), a quire
that has executed EXIT issues nothing more (19 R343), and what a release buffer and open regions hold is kept (DESIGN CHOICE, log 61). -/
def restoredUnit (fresh old : Unit) (accBytes : Nat) : Unit :=
  let owned (w : BufWrite) : BufWrite := { w with access := { w.access with gid := fresh.gid } }
  { fresh.busyFor 8 with
    run := old.run, regions := old.regions, relBuf := old.relBuf.map owned, heldSigs := old.heldSigs, lanes := old.lanes, carrier := old.carrier,
    s := old.s, v := old.v, m := old.m, d := old.d, acc := old.acc.filter fun c => decide (c.1 < accAddr accBytes),
    tokens := old.tokens, handed := old.handed, given := old.given, readGiven := old.readGiven, binding := old.binding, phase := old.phase,
    lcount := old.lcount, llimit := old.llimit, lbody := old.lbody, ftbase := old.ftbase, fstat := old.fstat, remain := old.remain,
    tvec := old.tvec, tsave := old.tsave, pc := old.pc, qcut := old.qcut, committed := old.qcut[1],
    nextNum := old.qcut, parked := old.parked, qprogL := old.qprogL, qprogW := old.qprogW, qprogE := old.qprogE }

/-- What a quire that has left a task made for it is at its home, and reaches the shelf (14 R280, 16 R307). -/
def State.settledFormer (s : State) (g : Gid) : Bool :=
  let mine (x : Access) : Bool := x.gid == g && x.orphan
  (s.unitAt g).classQ.all (fun x => !mine x) && s.admQ.all (fun x => !mine x) && s.flows.all (fun p => !mine p.access) &&
    s.devs.all fun d => d.held.all fun x => !mine x
def State.widenFormer (s : State) (g : Gid) : State :=
  State.fold { s with pend := s.pend.map fun r => if r.gid == g && r.orphan then { r with horizon := 4 } else r }

/-- Every write of a unit reaches the shelf (16 R307). -/
def State.widenAll (s : State) (u : Unit) : State :=
  State.fold { s with pend := s.pend.map fun r => if r.gid == u.gid || u.known.contains r.id then { r with horizon := 4 } else r }

/-- Nothing of the unit's is still on its way to a home (14 R280). -/
def State.settledUnit (s : State) (u : Unit) : Bool :=
  u.classQ.isEmpty && s.admQ.all (fun x => x.gid != u.gid) && s.flows.all (fun p => p.access.gid != u.gid) &&
    s.devs.all fun d => d.held.all fun x => x.gid != u.gid

/-- A quire can be stopped for a checkpoint: no trap level is in progress, nothing started is unretired, and its writes are at
their homes (R355). -/
def State.canCheckpoint (s : State) (u : Unit) : Bool :=
  u.tlevel == 0 && u.inflight.isEmpty && s.settledUnit u

/-- The banks whose contents a checkpoint saves, by the index of the section among the task's and the bank (21 R396). -/
def State.savedBanks (s : State) (t : Task) (secs : List (Dev × Nat)) : List (Nat × Memory) :=
  secs.zipIdx.flatMap fun (x, k) => (List.range 32).filterMap fun b =>
    let bank := (s.dev x.1).bank (32 * x.2 + b)
    let a := sramAddr x.1 x.2 (524288 * b)
    if bank.owner == some t.id && (bank.mode == 1 || bank.mode == 2 || bank.mode == 3) then
      some (32 * k + b, (s.mem.filter fun c => decide (a ≤ c.1) && decide (c.1 < a + 524288)).map fun c => (c.1 - a, c.2))
    else none

/-- The modes of the task's banks, by the same numbers. -/
def State.savedModes (s : State) (t : Task) (secs : List (Dev × Nat)) : List (Nat × BitVec 3) :=
  secs.zipIdx.flatMap fun (x, k) => (List.range 32).filterMap fun b =>
    let bank := (s.dev x.1).bank (32 * x.2 + b)
    if bank.owner == some t.id then some (32 * k + b, bank.mode) else none

/-- The step-cache entries of its banks, by the index of the section and the entry. -/
def State.savedTags (s : State) (t : Task) (secs : List (Dev × Nat)) : List (Nat × StepEntry) :=
  secs.zipIdx.flatMap fun (x, k) => ((s.dev x.1).steps.filter fun e =>
    e.1 / 128 == x.2 && ((s.dev x.1).bank (32 * x.2 + e.1 % 128 / 4)).owner == some t.id).map fun e => (128 * k + e.1 % 128, e.2)

/-- The checkpoint cost in tokens (R354). -/
def State.checkpointCost (s : State) (t : Task) : Nat :=
  t.units.length * ceilDiv (36864 + t.accBytes) 65536 +
  8 * ((sectionsOf t.units).map fun x =>
    ((List.range 32).filter fun b => ((s.dev x.1).bank (32 * x.2 + b)).owner == some t.id).length).sum

/-- The checkpoint area (R355): as many bytes as the cost says, whose layout is not architectural, so each becomes a free value, sector
by sector where the record's address translates. (DESIGN CHOICE, log 61) -/
def State.fillArea (s : State) (dev : Dev) (t : Task) : State :=
  let n := 512 * s.checkpointCost t
  let va (k : Nat) : Word := BitVec.ofNat 64 (t.checkpointArea + 128 * k)
  let filled := (List.range n).foldl (fun s' k =>
    match s.walk (quireGid dev 0) (xbaseOn (s.dev dev).seen (recField t.fields 88 0 64)) (va k) with
    | .error _ => s'
    | .ok m =>
      if fld m.entry 14 3 = 3 then s'
      else s'.masterWrite (s.addrOf (s.dev dev) (m.pa (va k))) ((List.range 128).map fun b => (Config.freeWord (s.free + 128 * k + b)).setWidth 8)) s
  { filled with free := s.free + 128 * n }

/-- Checkpoints a task (R355): every quire stops at a cut, its state is saved, and the task goes back to the head of its queue. (DESIGN CHOICE, log 61) -/
def State.checkpoint (s : State) (dev : Dev) (t : Task) : State :=
  let s := (t.units.foldl (fun s g => s.widenAll (s.unitAt g)) s).fillArea dev t
  let units := t.units.map fun g => (s.unitAt g).formCut
  let secs := sectionsOf t.units
  let t' := { t with units := [], saved := units, sram := s.savedBanks t secs, modes := s.savedModes t secs, tags := s.savedTags t secs }
  let s := t.units.foldl (fun s g => s.setUnit (s.unitAt g).free) s
  let s := s.releaseTask t.id t.units
  (s.setStatus dev t' .checkpointed).onDev dev fun d => { d with queue := t.id :: d.queue }

/-- The new quire that stands in for one of the checkpoint. -/
def Task.standIn (t : Task) (g : Gid) : Option Gid := ((t.units.zip t.saved).find? fun e => e.2.gid == g).map (·.1)

/-- Lays a checkpoint's saved state over the placed quires and banks, and continues as ERET to level 0 would, whose first word issues eight cycles
later (21 R392, R396). -/
def State.restore (s : State) (t : Task) : State :=
  let secs := sectionsOf t.units
  let s := t.modes.foldl (fun s e =>
    match secs[e.1 / 32]? with
    | none => s
    | some x => s.changeMode x.1 (32 * x.2 + e.1 % 32) e.2) s
  let s := t.tags.foldl (fun s e =>
    match secs[e.1 / 128]? with
    | none => s
    | some x => s.onDev x.1 fun d => d.setStep (stepIndex x.2 (e.1 % 128)) { e.2 with pins := e.2.pins.filterMap t.standIn }) s
  let s := t.sram.foldl (fun s e =>
    match secs[e.1 / 32]? with
    | none => s
    | some x =>
      let a := sramAddr x.1 x.2 (524288 * (e.1 % 32))
      { s with mem := e.2.foldl (fun m c => m.write (a + c.1) [c.2]) s.mem }) s
  (t.units.zip t.saved).foldl (fun s (g, old) =>
    let u := restoredUnit (s.unitAt g) old t.accBytes
    let owned (c : Command) : Command := { c with engine := g }
    { (s.setUnit (({ u with parked := u.parked.map owned } : Unit).unpark s.free)) with free := s.free + 1 }) s

/-- Places a queued task: a checkpointed one is restored (R335, R340, R355). -/
def State.placeTask (s : State) (dev : Dev) (t : Task) (replicas : List (List Gid)) : State :=
  let s := s.start_ dev t replicas false
  match (s.dev dev).task? t.id with
  | none => s
  | some t =>
    if t.saved.isEmpty then s
    else (s.restore t).onDev dev fun d => d.setTask { t with saved := [], sram := [], modes := [], tags := [] }

/-! ### Successors (R338) -/

/-- What a request to the binder comes to: done, a trap, or it has to make its way to the clasp engine of an entry first. -/
inductive Dec where
  | done (s : State) (x : Word) (lat : Latency)
  | trap (s : State) (t : Trap)
  | away (s : State) (key addr : Nat)
  deriving DecidableEq, Repr

/-- The decrement of one successor's counter by the current unit, `here` at its clasp engine or on its way to it; a counter of zero stays zero
and raises CLASPERR. -/
def State.decrement (s : State) (cls : BitVec 4) (here : Bool) (va : Word) : Dec :=
  let place := claspPlace s .atomic va 8
  let walk := s.walkLatency va
  let s := if va.toNat % 8 = 0 then s.scrubWalk s.cur.gid va else s
  match place with
  | .error t => .trap s t
  | .ok p =>
    let key := granuleKey p.addr
    if !here && !s.servedNow key p.addr then .away s key p.addr
    else if s.poisoned p.addr then .trap s (seqTrap .uncorr va)
    else
      let s := s.scrub (p.addr / 128)
      match (s.dev (addrDev p.addr)).touch key with
      | none => .trap s (seqTrap .clasperr (BitVec.ofNat 64 (p.pa / 64 * 64)))
      | some (d, spilled) =>
        let s := s.setDev d
        let x := fromLe (s.homeBytes p.addr 8)
        if x = 0 then .trap s (seqTrap .clasperr va)
        else .done ((s.claspWrite s.leadGid cls p.addr (leBytes 8 (x - 1)) none true).wake key) (BitVec.ofNat 64 (x - 1))
          (walk.plus (s.claspLatency s.cur p.addr spilled))

/-- The address of a successor's predecessor counter. -/
def Task.counterVa (t : Task) (i : Nat) : Word := t.successor i + 96

/-- Decrements the successors in a list that the task has not decremented yet, one after another, the first of them `here`; at EXIT the two
cases of R338 are passed over. -/
def State.decrementAll (dev : Dev) (id : BitVec 32) (cls : BitVec 4) (atExit : Bool) : Bool → List Nat → Word → Latency → State → Dec
  | _, [], x, lat, s => .done s x lat
  | here, i :: rest, x, lat, s =>
    match (s.dev dev).task? id with
    | none => .done s x lat
    | some t =>
      if t.decremented.contains i then State.decrementAll dev id cls atExit here rest x lat s
      else match s.decrement cls (here || atExit) (t.counterVa i) with
        | .trap u tr => if atExit then State.decrementAll dev id cls atExit false rest x lat s else .trap u tr
        | .away u key addr => .away u key addr
        | .done u y l =>
          State.decrementAll dev id cls atExit false rest y (lat.plus l) (u.onDev dev fun d => d.setTask { t with decremented := t.decremented ++ [i] })

/-! ### Completion (R343, R344, 14 R280, 16 R307) -/

/-- Every quire of the task has executed EXIT, and all it has written is at its home; a store lost on a stopped flow never is (14 R280). -/
def State.finished (s : State) (t : Task) : Bool :=
  t.state == .running && t.former.all s.settledFormer && t.units.all fun g =>
    (match (s.unitAt g).run with | .exited _ => true | _ => false) && (s.unitAt g).lost.isEmpty && s.settledUnit (s.unitAt g)

/-- The record address that rank 0 of the lead replica named. -/
def State.namedBy (s : State) (t : Task) : Word :=
  match (s.unitAt (t.units.headD 0)).run with | .exited x => x | _ => 0

/-- A record named at EXIT, by its storage address; none is dropped (R343). -/
def State.namedRecord (s : State) (lead : Unit) (va : Word) : Option Nat :=
  if va = 0 ∨ va.toNat % 256 ≠ 0 then none
  else match s.translate lead.gid 1 .read false va with
    | .ok p => some p.addr
    | .error _ => none

/-- Frees the quires of a completed task; those reserved for a newcomer stay reserved (R344, R355). -/
def State.freeTask (s : State) (t : Task) : State :=
  (t.units.foldl (fun s g => s.setUnit (s.unitAt g).free) s).releaseTask t.id t.units

/-- The lists of the replicas of a running task. -/
def State.replicaUnits (s : State) (t : Task) : List (List Gid) :=
  ((List.range 3).map fun k => t.units.filter fun g => (s.unitAt g).replica == k).filter fun l => !l.isEmpty

/-- The conditions under which a named successor inherits (R344). (DEDUCED, log 60) -/
def State.inherits (s : State) (t n : Task) : Bool :=
  fromLe (s.homeBytes (counterAddr n) 8) == 0 && n.form == t.form && n.isSecure == t.isSecure &&
  n.wants.all (fun w => (sectionsOf t.units).all fun x => ((s.dev x.1).bank (32 * x.2 + w.1)).owner == some t.id) &&
  (s.replicaUnits t).length == n.replicas

/-- Completes a task: its writes reach the shelf, its successors are decremented, its status word is written, and the successor
that rank 0 named is submitted, to inherit the quires or to enter its queue. -/
def State.completeTask (s : State) (dev : Dev) (t : Task) : State :=
  let lead := t.units.headD 0
  let va := s.namedBy t
  let s := t.former.foldl State.widenFormer (t.units.foldl (fun s g => s.widenAll (s.unitAt g)) s)
  let s := s.onUnit lead fun s => match State.decrementAll dev t.id 0 true false (List.range t.successors) 0 (.exact 0) s with
    | .done s _ _ => s
    | .trap s _ | .away s _ _ => s
  let record := s.namedRecord (s.unitAt lead) va
  let old := ((s.dev dev).task? t.id).getD t
  let s := (s.setStatus dev old .completed).onDev dev fun d => { d with msix := d.msix ++ [0] }
  let r : State × Option (BitVec 32) := match record with
    | none => (s, none)
    | some pa => match s.accept dev pa t.isSecure [] with | (s, .ok id) => (s, some id) | (s, .error _) => (s, none)
  let s := r.1
  match r.2.bind fun id => (s.dev dev).task? id with
  | none => (s.freeTask t).refreshEligible.onDev dev fun d => d.setTask { old with state := .completed, units := [] }
  | some n =>
    if s.inherits t n then
      let replicas := s.replicaUnits t
      let saved := t.units.map fun g => s.unitAt g
      let kept := n.wants.map (·.1)
      let secs := sectionsOf t.units
      let s := (s.devs.map (·.num)).foldl (fun s dn => (s.onDev dn fun d =>
        let r := d.releaseTask t.id t.units
        { r with banks := d.banks.map fun e =>
            if e.2.owner == some t.id && !(secs.contains (dn, e.1 / 32) && kept.contains (e.1 % 32)) then (e.1, { e.2 with owner := none }) else e }).admitHeldOf dn) s
      let s := saved.foldl State.setUnit s
      (s.start_ dev n replicas true).refreshEligible.onDev dev fun d => d.setTask { old with state := .completed, units := [] }
    else (s.freeTask t).refreshEligible.onDev dev fun d => d.setTask { old with state := .completed, units := [] }

/-! ### Pre-emption (R354, R355) -/

/-- What pre-emption does to a running task. -/
inductive Choice where
  | drain | checkpoint (cost : Nat) | kill (cost : Nat)
  deriving DecidableEq, Repr

/-- The choice for a task, with the newcomer's tokens left. -/
def State.choose (s : State) (d : Device) (n t : Task) (tokens : Nat) : Option Choice :=
  let p := n.priority
  let kill := (d.reg (0x10080 + 8 * p)).toNat
  if (s.unitAt (t.units.headD 0)).remain.toNat ≤ (d.reg (0x10000 + 8 * p)).toNat then some .drain
  else if t.checkpointable && decide (s.checkpointCost t ≤ tokens) then some (.checkpoint (s.checkpointCost t))
  else if t.killable && decide (kill < tokens) then some (.kill kill)
  else none
def Choice.cost : Choice → Nat | .drain => 0 | .checkpoint n => n | .kill n => n

/-- The running tasks that pre-emption considers, in its order: ascending priority, the most recently placed first. -/
def State.candidates (s : State) (n : Task) : List (Dev × Task) :=
  let use := s.couldUse n
  let secs := sectionsOf use
  let all := s.devs.flatMap fun d => (d.tasks.filter fun t => t.state == .running).map fun t => (d.num, t)
  let fits (t : Task) : Bool := decide (t.priority < n.priority) &&
    (t.units.any (fun g => use.contains g) ||
     (sectionsOf t.units).any fun x => secs.contains x && n.wants.any fun w => ((s.dev x.1).bank (32 * x.2 + w.1)).owner == some t.id)
  let mine := all.filter fun e => fits e.2
  let orders := (mine.map fun e => e.2.order).mergeSort (fun a b => decide (b ≤ a))
  (List.range 16).flatMap fun p => orders.flatMap fun o => mine.filter fun e => e.2.priority == p && e.2.order == o

/-- The choices that let the newcomer be placed; none where the whole list does not. -/
def State.plan (s : State) (d : Device) (n : Task) : List (Dev × Task) → List (Dev × Task × Choice) → Nat → Option (List (Dev × Task × Choice))
  | [], _, _ => none
  | (dv, t) :: rest, acc, tokens =>
    match s.choose d n t tokens with
    | none => s.plan d n rest acc tokens
    | some c =>
      let acc := acc ++ [(dv, t, c)]
      if (s.fit n (fun id => !acc.any fun e => e.2.1.id == id) []).isSome then some acc else s.plan d n rest acc (tokens - c.cost)

/-- Carries out one choice (R355). -/
def State.carryOut (s : State) (dev : Dev) (n : Task) (e : Dev × Task × Choice) : State :=
  match e.2.2 with
  | .drain => e.2.1.units.foldl (fun s g => s.onDev (gidDev g) fun d => { d with reserved := d.reserved ++ [(g, n.id)] }) s
  | .checkpoint _ => s.checkpoint e.1 e.2.1
  | .kill _ => s.killTask e.1 e.2.1.id 0x10 none (List.replicate 7 0)

/-- Pre-empts for an eligible task that cannot be placed (R354); a checkpoint waits until its quires can be stopped. -/
def State.preempt (s : State) (dev : Dev) (n : Task) : State :=
  if (s.fit n (fun _ => true) []).isSome then s
  else match s.plan (s.dev dev) n (s.candidates n) [] n.tokens.toNat with
    | none => s
    | some choices =>
      let ready := choices.all fun e => match e.2.2 with
        | .checkpoint _ => e.2.1.units.all fun g => s.canCheckpoint (s.unitAt g)
        | _ => true
      if !ready then s
      else
        let spent := (choices.map fun e => e.2.2.cost).sum
        let tokens := n.tokens - BitVec.ofNat 64 spent
        let s := choices.foldl (fun s e => s.carryOut dev n e) s
        if spent = 0 then s
        else (s.onDev dev fun d => d.setTask { n with tokens := tokens }).masterWrite (n.record + 112) (leBytes 8 tokens.toNat)

/-- Whether some eligible task of at least the task's priority could be placed on the quires it would free (R356). -/
def State.yieldsTo (s : State) (t : Task) : Bool :=
  s.queued.any fun e => decide (t.priority ≤ e.2.priority) &&
    match s.fit e.2 (fun id => id != t.id) [] with
    | some gs => gs.flatten.any fun g => t.units.contains g
    | none => false

end Sys2Proof.Machine
end

