-- ==== Sys2Proof/Machine/Sys.lean ====
section
/-! DEFINITION. Class E, system (19 R335-R356, 21 R398-R406): traps and their return, system registers, tasks, plates, waits. -/
namespace Sys2Proof.Machine
open Sys2Proof

/-! ### Drain points (19 R350) -/

/-- Every engine queue is empty and every started command has retired; a parked one cannot (21 R391, DEDUCED, log 24). -/
def Unit.quiet (u : Unit) : Bool := u.queues.all (·.isEmpty) && u.inflight.isEmpty
/-- A drain point: quiet, and every earlier store of the sequencer has performed at quire scope. -/
def State.drained (s : State) : Bool := s.cur.quiet && s.performed s.cur 0xFFFF 0

/-- A privileged form: PRIV outside handler mode on a quire (02 R48). (DEDUCED, log 51) -/
def privileged (i : Instr) (f : State → Res) (s : State) : Res :=
  if s.cur.isCore || s.cur.handlerMode then f s else trapNow s (seqTrap .priv (encode i))

/-! ### TRAP and ERET (R392, R400) -/

/-- TRAP: SWTRAP, returning to the word after it (R400). -/
def execTrap (n : BitVec 32) (s : State) : Res :=
  issue (.trap n) (atCommit fun s => trapNow s { seqTrap .swtrap (n.setWidth 64) with tret := some (s.cur.pc + 8) }) s

/-- A command pushed in handler mode has not retired (R392). -/
def Unit.handlerBusy (u : Unit) : Bool :=
  u.queues.any (fun l => l.any (·.handler)) || u.inflight.any (·.command.handler)

/-- The return address of the current level. -/
def Unit.tret (u : Unit) : Word := if u.tlevel = 2 then u.tret2 else u.tret1

/-- ERET (R392): its first word issues eight cycles later. -/
def execEret (s : State) : Res :=
  issue .eret (atCommit fun s =>
    let u := s.cur
    if u.tlevel = 0 then trapNow s (seqTrap .illfld (encode .eret))
    else if u.handlerBusy then stall s
    else if u.tret.toNat % 8 ≠ 0 then trapNow s (seqTrap .align u.tret)
    else
      let v := if u.tlevel = 1 then u.unpark s.free else u
      .next (({ s with free := s.free + 1 } : State).execute (v.leaveLevel.busyFor 8) none 1)) s

/-! ### System registers (R398, R401) -/

/-- Access of a system register. -/
inductive SysAccess where
  | read | user | handler
  deriving DecidableEq, Repr

/-- The access of an index; none where the table has no register, or none on this unit. -/
def sysAccess (core : Bool) (idx : Nat) : Option SysAccess :=
  if idx ∈ [0, 1, 0x40] then some .user
  else if idx ∈ [2, 3, 0x20, 0x63, 0x70] then some .read
  else if idx ∈ [0x10, 0x11, 0x12, 0x13, 0x18, 0x19, 0x1A, 0x1B, 0x30, 0x38, 0x48, 0x49, 0x4A] then some .handler
  else if core then none
  else if idx ∈ [0x31, 0x41, 0x51] then some .user
  else if idx ∈ [0x21, 0x22, 0x23, 0x24, 0x25, 0x4C, 0x50, 0x60, 0x61, 0x62] then some .read
  else if idx ∈ [0x28, 0x29, 0x2A, 0x4B] then some .handler
  else none

/-- MODE (R398). -/
def Unit.modeWord (u : Unit) : Word :=
  BitVec.ofNat 64 ((if u.framed then 1 else 0) + (if u.check then 2 else 0) + (if u.handlerMode then 4 else 0) +
    (if u.secure then 8 else 0) + 16 * u.phase.toNat + (if u.isCore then 256 else 0))

/-- CHAIN (19 R347). -/
def Unit.chain (u : Unit) : Word :=
  BitVec.ofNat 64 (plateField u.plate (0x80 + 8 * ((u.ftbase.toNat + u.lcount.toNat) % 16)) 8)

/-- The value of a system register. -/
def Unit.sysReg (u : Unit) (idx : Nat) : Word :=
  match idx with
  | 0x00 => u.tvec | 0x01 => u.tsave | 0x02 => u.tlevel.setWidth 64 | 0x03 => u.modeWord
  | 0x10 => u.tcause1 | 0x11 => u.tret1 | 0x12 => u.tval1 | 0x13 => u.tsp1
  | 0x18 => u.tcause2 | 0x19 => u.tret2 | 0x1A => u.tval2 | 0x1B => u.tsp2
  | 0x20 => u.qcut[1].setWidth 64 | 0x21 => u.qcut[2].setWidth 64 | 0x22 => u.qcut[3].setWidth 64
  | 0x23 => u.qcut[4].setWidth 64 | 0x24 => u.qcut[5].setWidth 64 | 0x25 => u.qcut[6].setWidth 64
  | 0x28 => u.qprogL | 0x29 => u.qprogW | 0x2A => u.qprogE
  | 0x30 => u.xstat | 0x31 => u.cstat | 0x38 => u.xbase | 0x40 => u.fstat | 0x41 => u.mslip
  | 0x48 => u.lcount | 0x49 => u.llimit | 0x4A => u.lbody | 0x4B => u.ftbase.setWidth 64
  | 0x4C => u.chain | 0x50 => u.inherit | 0x51 => u.remain
  | 0x60 => u.stephit | 0x61 => u.stepmiss | 0x62 => u.stepevict | 0x63 => u.katTests
  | 0x70 => u.gid.setWidth 64
  | _ => 0

/-- What MFSR reads: QID has the device's number (01 R18, R19). -/
def State.readSys (s : State) (idx : Nat) : Word := if idx = 0x70 then (s.seenGid s.cur.gid).setWidth 64 else s.cur.sysReg idx

/-- The bits of a system register that a write reaches: the others read as zero. -/
def sysMask (idx : Nat) : Word :=
  match idx with
  | 0x00 => 0xFFFFFFFFFFFFFFF8 | 0x01 => 0xFFFFFFFFFFFFFE00
  | 0x10 | 0x18 => 0xFFF
  | 0x28 | 0x29 => 0xC0FFFFFF00000000
  | 0x2A => 0xFFFF0000FFFFFFFF
  | 0x30 => 0x7FFF | 0x31 => 0xFFE00000FFFFFFFF | 0x38 => 0x0000FFFFFFFC0000
  | 0x40 => fstatMask | 0x41 => 0xF | 0x4A => 0xFFFFFFFFFFFFFFF8 | 0x4B => 0xF
  | _ => 0xFFFFFFFFFFFFFFFF

/-- A write of a system register. -/
def Unit.setSysReg (u : Unit) (idx : Nat) (x : Word) : Unit :=
  let x := x &&& sysMask idx
  match idx with
  | 0x00 => { u with tvec := x } | 0x01 => { u with tsave := x }
  | 0x10 => { u with tcause1 := x } | 0x11 => { u with tret1 := x } | 0x12 => { u with tval1 := x } | 0x13 => { u with tsp1 := x }
  | 0x18 => { u with tcause2 := x } | 0x19 => { u with tret2 := x } | 0x1A => { u with tval2 := x } | 0x1B => { u with tsp2 := x }
  | 0x28 => { u with qprogL := x } | 0x29 => { u with qprogW := x } | 0x2A => { u with qprogE := x }
  | 0x30 => { u with xstat := x } | 0x31 => { u with cstat := x } | 0x38 => { u with xbase := x }
  | 0x40 => { u with fstat := x } | 0x41 => { u with mslip := x }
  | 0x48 => { u with lcount := x } | 0x49 => { u with llimit := x } | 0x4A => { u with lbody := x }
  | 0x4B => { u with ftbase := x.setWidth 4 } | 0x51 => { u with remain := x }
  | _ => u

/-- MFSR (R401). -/
def execMfsr (a : Reg) (idx : BitVec 12) (s : State) : Res :=
  let i : Instr := .mfsr a idx
  issue i (atCommit fun s =>
    match sysAccess s.cur.isCore idx.toNat with
    | none => trapNow s (seqTrap .illfld (encode i))
    | some _ => finishReg s a (s.readSys idx.toNat) 1) s

/-- MTSR (R401); ILLFLD and PRIV stand before SHADOW (02 R47). -/
def execMtsr (idx : BitVec 12) (b : Reg) (s : State) : Res :=
  let i : Instr := .mtsr idx b
  let write : State → Res := reading [b] [] (atCommit fun s => finish s (s.cur.setSysReg idx.toNat (s.cur.rs b)))
  issue i (fun s =>
    match sysAccess s.cur.isCore idx.toNat with
    | none | some .read => trapNow s (seqTrap .illfld (encode i))
    | some .user => write s
    | some .handler => privileged i write s) s

/-! ### Requests to the binder (20 R360, R368) -/

/-- The signature record of a binder request. (DEDUCED, log 54) -/
def binderRecord (op : Nat) (cls : BitVec 4) (operand : Word) : List Byte := requestRecord operand cls 3 ((14 * 32 + op) % 256) 0 0 0 0

/-- The same of an instruction, with its operand. -/
def requestOf (i : Instr) (cls : BitVec 4) (operand : Word) : List Byte := binderRecord (fld (encode i) 52 8) cls operand

/-- A request to the binder: performed once for the peers. -/
def binderRequest (a : Reg) (rec : List Byte) (cls : BitVec 4) (f : State → Dec) (s : State) : Res :=
  let done (s : State) (x : Word) (lat : Latency) : Res := finishRequest s.endWait a x lat
  match s.agree true rec with
  | .answer s r => done (s.takeAnswer r) r.value r.lat
  | .wait s => stall s
  | .gone s => .next s
  | .perform s =>
    match f s with
    | .done t x lat => done (t.noteRequest true rec x lat 0) x lat
    | .trap t x => trapNow t x
    | .away t key addr => stall (t.sendRequest key addr cls none true)

/-- The meeting before a request to the binder: one that has met does not meet again. -/
def binderMeeting (i : Instr) (rec : List Byte) (ready : State → Bool) (f : State → Res) (s : State) : Res :=
  if s.cur.wait.isSome then f s
  else unbuffered i (meeting [rec] ready fun s => f (s.waitOn s.nextWrite binderKey true 0 [])) s

/-- What a write of the binder's queue, or of the counters at some addresses, waits for: the accesses before it in its class and to their
lines, and the releases it carries (16 R289, R290, R296). -/
def binderReady (cls : BitVec 4) (places : State → List Nat) (s : State) : Bool :=
  s.cur.classFree cls && (places s).all (fun a => s.lineFree s.cur cls a none) &&
    (s.cur.carried cls none).all fun c => s.knownWide s.actor c.2 c.1.toNat

/-- SPAWN (R337). (DEDUCED, log 58) -/
def execSpawn (a b : Reg) (s : State) : Res :=
  let i : Instr := .spawn a b
  issue i (reading [b] [] (atCommit fun s =>
    let va := s.cur.rs b
    if va.toNat % 256 ≠ 0 then trapNow s (seqTrap .align va)
    else
    let place := s.translate s.cur.gid 1 .read false va
    let s := s.scrubWalk s.cur.gid va
    match place with
    | .error t => trapNow s t
    | .ok p =>
      match s.poisonedIn? p.addr 256 with
      | some k => trapNow s (seqTrap .uncorr (va + BitVec.ofNat 64 k))
      | none =>
        if s.myDev.boot != .done then stall s
        else binderMeeting i (requestOf i 0 va) (binderReady 0 fun _ => []) (binderRequest a (requestOf i 0 va) 0 fun s =>
          let rels := s.releasesNow 0 none
          match s.accept (gidDev s.cur.gid) p.addr (s.cur.isCore || s.cur.secure) rels with
          | (t, .ok id) => .done t (id.setWidth 64) { typical := 400, bound := 1200 }
          | (t, .error r) => .done t (BitVec.ofNat 64 (2 ^ 63 + r)) { typical := 400, bound := 1200 }) s)) s

/-- The running task of the current unit. -/
def State.myTask (s : State) : Option Task := s.cur.task.bind fun id => (s.dev s.cur.taskDev).task? id

/-- The counters of some successors of the running task, where they translate. -/
def State.counterPlaces (s : State) (pick : Task → List Nat) : List Nat :=
  match s.myTask with
  | none => []
  | some t => (pick t).filterMap fun i => match claspPlace s .atomic (t.counterVa i) 8 with | .ok p => some p.addr | .error _ => none

/-- DEPDEC and its `.all` form (R338), over the listed successors: each entry's request makes its way to the clasp engine of its home in its
turn. -/
def depdecOp (i : Instr) (a : Reg) (oc : BitVec 4) (operand : Word) (pick : Task → List Nat) (s : State) : Res :=
  binderMeeting i (requestOf i oc operand) (binderReady oc fun s => s.counterPlaces pick) (fun s =>
    if !s.myTurn then stall s
    else
      let here := s.cur.wait.any fun w => w.key != binderKey
      binderRequest a (requestOf i oc operand) oc (fun s =>
        match s.myTask with
        | none => .done s 0xFFFFFFFFFFFFFFFF (.exact 1)
        | some t =>
          match State.decrementAll s.cur.taskDev t.id oc false here (pick t) 0xFFFFFFFFFFFFFFFF (.exact 0) s with
          | .done s x lat => .done s.refreshEligible x { typical := max 1 lat.typical, bound := max 1 lat.bound }
          | .trap s t => .trap s.refreshEligible t
          | .away s key addr => .away s.refreshEligible key addr) s.leaveQueue) s

/-- DEPDEC (R338). -/
def execDepdec (oc : BitVec 4) (a b : Reg) (s : State) : Res :=
  let i : Instr := .depdec oc a b
  let outside (s : State) : Bool := match s.myTask with | some t => decide (t.successors ≤ (s.cur.rs b).toNat) | none => true
  let vet (known : Reg → Bool) (s : State) : Option Trap := if known b && outside s then some (seqTrap .illfld (s.cur.rs b)) else none
  issue i (vetting [b] vet (atCommit fun s => depdecOp i a oc (s.cur.rs b) (fun _ => [(s.cur.rs b).toNat]) s)) s

/-- DEPDEC.all (R338). -/
def execDepdecAll (oc : BitVec 4) (a : Reg) (s : State) : Res :=
  let i : Instr := .depdecAll oc a
  issue i (atCommit (depdecOp i a oc 0 fun t => List.range t.successors)) s

/-- EXIT (R343): a release and a meeting point; the sequencer issues nothing more. -/
def execExit (b : Reg) (s : State) : Res :=
  let i : Instr := .exit b
  issue i (reading [b] [] (atCommit fun s =>
    if !s.cur.quiet then stall s
    else linked 0xFFFF (unbuffered i (meeting [] (fun _ => true) fun s =>
      let u := s.cur
      .next (s.execute { u.advance with run := .exited (u.rs b), replies := [] } none 1))) s)) s

/-- The running task, where YIELD gives its quires up: an eligible task could take them and there is an area for the checkpoint (R356).  From
handler mode it gives none up: the trap would have to complete first, which it cannot (R355; DESIGN CHOICE, log 61). -/
def State.yielding (s : State) : Option Task :=
  match s.myTask with
  | some t => if t.checkpointArea ≠ 0 ∧ s.yieldsTo t ∧ s.cur.tlevel = 0 then some t else none
  | none => none

/-- The quires at the YIELD go on behind it when they are restored, with 1 in s[A]. -/
def State.yielded (s : State) (a : Reg) : State :=
  s.onUnits ((s.peers s.cur).map (·.gid)) fun u => { (u.land a 1 0).advance with committed := u.committed + 1 }

/-- YIELD (R356): drained, the binder decides once for every replica.  Where the task gives its quires up it is checkpointed as soon as its other
quires can be stopped, and reads 1 when restored. -/
def execYieldT (a : Reg) (s : State) : Res :=
  let i : Instr := .yieldT a
  issue i (atCommit fun s =>
    if !s.drained then stall s
    else match s.agree true (requestOf i 0 0) with
      | .answer s r => finishReg (s.takeAnswer r) a r.value 1
      | .wait s => stall s
      | .gone s => .next s
      | .perform s =>
        match s.yielding with
        | none => finishReg (s.noteRequest true (requestOf i 0 0) 0 (.exact 1) 0) a 0 1
        | some t =>
          if t.units.all fun g => (s.peers s.cur).any (fun p => p.gid == g) || s.canCheckpoint (s.unitAt g) then
            .next ((s.yielded a).checkpoint s.cur.taskDev t)
          else stall s) s

/-- KILL (R405); ILLFLD of its operand stands before PRIV, and both before SHADOW (02 R47). -/
def execKill (a b : Reg) (s : State) : Res :=
  let i : Instr := .kill a b
  let vet (known : Reg → Bool) (s : State) : Option Trap :=
    if known b && decide (2 ^ 32 ≤ (s.cur.rs b).toNat) then some (seqTrap .illfld (encode i))
    else if s.cur.isCore || s.cur.handlerMode then none
    else some (seqTrap .priv (encode i))
  issue i (vetting [b] vet (atCommit fun s =>
    let x := s.cur.rs b
    let id : BitVec 32 := x.setWidth 32
    let dev := if s.cur.task == some id then s.cur.taskDev else gidDev s.cur.gid
    match (s.dev dev).task? id with
      | none => binderRequest a (requestOf i 0 x) 0 (fun s => .done s 1 { typical := 400, bound := 1200 }) s
      | some t =>
        if t.isSecure && !s.cur.secure && !s.cur.isCore then trapNow s (seqTrap .secviol x)
        else if t.state == .completed || t.state == .killed || t.state == .rejected then binderRequest a (requestOf i 0 x) 0 (fun s => .done s 1 { typical := 400, bound := 1200 }) s
        else
          let kill (s : State) : State := s.killTask dev id 0x12 none (List.replicate 7 0)
          if s.cur.task == some id then .next (kill s)
          else binderRequest a (requestOf i 0 x) 0 (fun s => .done (kill s) 0 { typical := 400, bound := 1200 }) s)) s

/-! ### Plates and phases (R348-R351) -/

/-- What the plate loader makes of an image: the shadow plate, or the fault that SWAP raises (R346, R348). -/
def State.loadImage (s : State) (va : Word) : Except Trap (BitVec 16384) :=
  let piece (k : Nat) : Except Trap (List Byte) :=
    let a := va + BitVec.ofNat 64 (128 * k)
    match s.translate s.cur.gid 1 .read false a with
    | .error t => .error t
    | .ok p => if s.poisoned p.addr then .error (seqTrap .uncorr a) else .ok (s.plainBytes s.cur.gid p.addr 128)
  match (List.range 16).mapM piece with
  | .error t => .error t
  | .ok bs =>
    let p : BitVec 16384 := BitVec.ofNat 16384 (fromLe bs.flatten)
    match plateFault p with
    | some off => .error { seqTrap .protv (va + BitVec.ofNat 64 off) with xstat := some (xstatOf 1 .read 0 0) }
    | none => .ok p

/-- A plate load in progress ends; its reads have decoded the image's sectors (03 R58). -/
def State.finishLoad (s : State) : State :=
  match s.cur.load with
  | .loading va =>
    let r := s.loadImage va
    let s := s.taskScrub (gidDev s.cur.gid) s.cur.xbase va 2048
    match r with
    | .ok p => { s with cur := { s.cur with shadow := p, load := .complete } }
    | .error t => { s with cur := { s.cur with load := .failed t } }
  | _ => s

/-- SWAP.load (R348). -/
def execSwapLoad (b : Reg) (s : State) : Res :=
  issue (.swapLoad b) (reading [b] [] (atCommit fun s =>
    let va := s.cur.rs b
    if va.toNat % 256 ≠ 0 then trapNow s (seqTrap .align va)
    else
      let t : State := { s with cur := { s.cur with load := .loading va } }
      let t := if t.prompt then t.finishLoad else t
      finish t t.cur)) s

/-- Two configurations share a bank. -/
def sharesBank (x y : Word) : Bool :=
  let r := newRing x
  let q := newRing y
  decide (r.firstBank < q.firstBank + q.banks) && decide (q.firstBank < r.firstBank + r.banks)

/-- The byte offset of the first binding of the shadow plate that fails a check of RINIT, before any of them is bound (R348); two rings of one
plate that share a bank fail at the second (DEDUCED, log 52). -/
def State.shadowFault (s : State) (l : List (Nat × Nat × Word)) : Option Nat :=
  (l.zipIdx.find? fun e =>
    let ring := e.1.2.1
    let x := e.1.2.2
    !ringConfigOk x || !s.ringBanksOk s.cur (gidSection s.cur.gid) ring x ||
      (l.take e.2).any fun y => y.2.1 != ring && sharesBank x y.2.2).map (·.1.1)

/-- Binds the rings of the shadow plate in order (R348): the state, and the latency of the bindings. -/
def bindShadow : List (Nat × Nat × Word) → Latency → State → Except Trap (State × Latency)
  | [], lat, s => .ok (s, lat)
  | (_, ring, x) :: rest, lat, s =>
    let sec := gidSection s.cur.gid
    let dev := gidDev s.cur.gid
    match (s.dev dev).touch (ringKey dev (ringIndex sec ring)) with
      | none => .error (seqTrap .clasperr (Config.freeWord s.free))
      | some (d, spilled) =>
        bindShadow rest (lat.plus (s.claspLatency s.cur (sramAddr dev sec 0) spilled)) ((s.setDev d).bindRing dev sec ring x)

/-- SWAP (R348). -/
def execSwap (s : State) : Res :=
  issue .swap (atCommit fun s =>
    match s.cur.load with
    | .loading _ => stall s
    | .failed t => if s.drained then trapNow s t else stall s
    | .complete =>
      if !s.drained then stall s
      else match s.shadowFault (plateRings s.cur.shadow) with
        | some off => trapNow s (seqTrap .ringerr (BitVec.ofNat 64 off))
        | none => match bindShadow (plateRings s.cur.shadow) (.exact 0) s with
          | .error t => trapNow { s with free := s.free + 1 } t
          | .ok (s, lat) =>
            let u := s.cur
            finish s { u.busyFor (4 + lat.typical) with
              plate := u.shadow, shadow := u.plate, phase := 0, frameAt := none, fresh := Vector.replicate 7 true }) s

/-- FRAME (R349): under a FREE plate F is recorded and nothing reads it. -/
def execFrame (n : BitVec 16) (s : State) : Res :=
  issue (.frame n) (atCommit fun s =>
    let u := s.cur
    finish s { u with frameAt := some (u.time + 1 + n.toNat), fresh := if u.framed then Vector.replicate 7 true else u.fresh }) s

/-- DRAIN (R350). -/
def execDrain (s : State) : Res := issue .drain (atCommit fun s => if s.drained then finish s s.cur else stall s) s

/-- PHASE (R351). -/
def execPhase (p : BitVec 3) (s : State) : Res := issue (.phase p) (atCommit fun s => finish s { s.cur with phase := p }) s

/-! ### Translations, time and waits (R402-R406) -/

/-- Two table bases name one task's tables, on whichever devices (03 R63). -/
def sameTables (x y : Word) : Bool := fld x 18 24 == fld y 18 24

/-- A cached translation that TLBINV discards: of the running task, overlapping the range; any where the length is zero. -/
def tlbHit (xbase a n : Word) (t : TlbEntry) : Bool :=
  sameTables t.xbase xbase &&
    (n == 0 || (decide (t.vbase < a.toNat + n.toNat) && decide (a.toNat < t.vbase + t.size)))

/-- TLBINV (R402); PRIV stands before SHADOW (02 R47). -/
def execTlbinv (scope : BitVec 3) (a b : Reg) (s : State) : Res :=
  let i : Instr := .tlbinv scope a b
  issue i (privileged i (reading [a, b] [] (atCommit fun s =>
    let g := s.cur.gid
    let hit := tlbHit s.cur.xbase (s.cur.rs a) (s.cur.rs b)
    let drop (u : Unit) : Unit := if inScope scope.toNat g u.gid then { u with tlb := u.tlb.filter fun t => !hit t } else u
    let keeps (d : Dev) (e : Nat × TlbEntry) : Bool :=
      !(decide (1 ≤ scope.toNat) && inScope scope.toNat g (quireGid d (4 * e.1)) && hit e.2)
    let t : State := { s with
      cur := drop s.cur, others := s.others.map drop,
      devs := s.devs.map fun (d : Device) => { d with tlb := d.tlb.filter (keeps d.num) } }
    finish t (t.cur.busyFor (if scope = 0 then 40 else if scope = 4 then 3000 else 200))))) s

/-- HALT (R403): it drains, then the unit stops before the next word. -/
def execHalt (s : State) : Res :=
  issue .halt (atCommit (privileged .halt fun s =>
    if s.drained then .next (s.execute { s.cur.advance with run := .halted } none 1) else stall s)) s

/-- CLOCK (R404). -/
def execClock (a : Reg) (s : State) : Res :=
  issue (.clock a) (atCommit fun s => finishReg s a (BitVec.ofNat 64 (s.myDev.counter s.clock)) 1) s

/-- IDLE (R406). -/
def execIdle (n : BitVec 32) (s : State) : Res :=
  let i : Instr := .idle n
  issue i (atCommit fun s =>
    let u := s.cur
    let start := u.idleFrom.getD u.time
    let woken := !u.isCore && (engineQueues.any (fun q => decide (0 < u.fifo q 1)) || !u.replies.isEmpty)
    let expired := n != 0 && decide (start + n.toNat ≤ u.time)
    if woken || expired then finish s { u with idleFrom := none }
    else if n = 0 ∧ (u.isCore ∨ !(engineQueues.any u.willGive || u.willReply)) then trapNow s (seqTrap .illfld (encode i))
    else
      let t : State := { s with cur := { u with idleFrom := some start } }
      if n = 0 then stall t else stallUntil (start + n.toNat) t) s

end Sys2Proof.Machine
end

