-- ==== Sys2Proof/Machine/Events.lean ====
section
/-! DEFINITION. The events of units, homes, replicas and the binder (95): each is one step that the agenda names.  An event whose
condition does not hold changes nothing (DESIGN CHOICE, log 15). -/
namespace Sys2Proof.Machine
open Sys2Proof

/-- An event of a unit, with that unit as the current one. -/
def unitEvent (g : Gid) (f : State → State) (s : State) : Res :=
  if s.hasUnit g then .next (s.onUnit g f) else .fault (.notPermitted "no such unit")

/-- An event of a unit that is a turn of it. -/
def unitTurn (g : Gid) (f : State → Res) (s : State) : Res :=
  if s.hasUnit g then
    match f (s.switchTo g) with
    | .next t => .next (t.switchTo s.cur.gid)
    | .fault x => .fault x
    | .refused x => .refused x
  else .fault (.notPermitted "no such unit")

/-- An event of a device of the shelf. -/
def deviceEvent (n : Dev) (f : State → State) (s : State) : Res :=
  if s.devs.any (fun d => d.num == n) then .next (f s) else .fault (.notPermitted "no such device")

/-! ### The sequencer (06 R122, R124, R127) -/

/-- INSTRUCTION_FETCH: the sector of the word at the PC enters the level-zero cache and the L1 (06 R122, 04 R82). -/
def execInstructionFetch (g : Gid) (s : State) : Res :=
  unitEvent g (fun s =>
    let place := s.translate g 1 .fetch false s.cur.pc
    let s := s.scrubWalk g s.cur.pc
    match place with
    | .error _ => s
    | .ok p =>
      let s := s.scrub (p.addr / 128)
      match s.copyOf (p.addr / 128) with
      | none => s
      | some c => { s with cur := { s.cur with l0 := installCopy l0Copies s.cur.l0 c,
                                               l1 := if p.mtype == 0 || p.mtype == 2 then installCopy s.cur.l1Copies s.cur.l1 c else s.cur.l1 } }) s

/-- ENGINE_COMMAND_PUSH: the push of the engine command at the unit's PC (06 R127). -/
def execEngineCommandPush (g : Gid) (word : Word) (s : State) : Res :=
  unitTurn g (fun s =>
    if !s.cur.issues then .next s
    else match s.fetched with
      | .run i =>
        if encode i ≠ word ∨ (pushForm i).isNone then .next s
        else match i with
          | .ebind .. => issue i (pushBind i) (s.scrubFetch s.cur.pc)
          | _ => execPush i (s.scrubFetch s.cur.pc)
      | .trap _ => .next s) s

/-- INSTRUCTION_COMMIT (06 R124, R125); a push whose command can never start traps instead (06 R129). -/
def execInstructionCommit (g : Gid) (s : State) : Res :=
  unitEvent g (fun s => match s.makeLoads.commitOldest with | some t => t | none => s.makeLoads.stuckPush) s

/-! ### Engine queues (06 R128, R136, 19 R352) -/

/-- FRAMED_START_MISS: the head of a queue did not start in its stamped cycle (06 R136). -/
def execFramedStartMiss (g : Gid) (q : BitVec 3) (cycle : BitVec 32) (s : State) : Res :=
  unitEvent g (fun s =>
    match s.cur.queue q with
    | [] => s
    | c :: _ =>
      let u := s.cur
      let frame := u.frameAt.getD 0
      if u.framed && engineQueues.contains q && !c.started && BitVec.ofNat 32 (c.due - frame) == cycle && decide (c.due ≤ u.time) &&
          !(u.hasTokens c && s.accepts c) then
        s.deliver (overrunTrap q c.due frame) c.depth
      else s) s

/-- An engine is idle: for the last 16 cycles no command has stood in its queue, and it has executed none for anyone (19 R352). -/
def State.engineIdle (s : State) (g : Gid) (q : BitVec 3) : Bool :=
  let u := s.unitAt g
  (u.queue q).isEmpty && s.units.all (fun x => x.inflight.all fun y => !(y.command.engine == g && y.command.queue == q)) &&
  decide (u.idleSince[qidx q] + 16 ≤ u.time)

/-- Whether one quire may take the head command of another's queue (19 R352). -/
def State.maySteal (s : State) (thief owner : Gid) (q : BitVec 3) : Bool :=
  let o := s.unitAt owner
  let t := s.unitAt thief
  thief != owner && gidDev thief == gidDev owner && gidSection thief == gidSection owner && !t.isCore && !o.isCore &&
  t.task.isSome && t.task == o.task && t.taskDev == o.taskDev && t.run == .running && !t.framed && !o.framed && engineQueues.contains q &&
  s.engineIdle thief q &&
  (match o.queue q with
   | c :: _ => c.reloc && !c.started && o.hasTokens c && decide (o.earliest c + (s.switchTo owner).throttleDelay c ≤ o.time) && o.waitingAt == 0 &&
      !(s.bankHeld o c.da || s.bankHeld o c.db || s.bankHeld o c.dc) && o.inflight.any fun y => y.command.queue == q && y.command.engine == owner
   | [] => false)

/-- COMMAND_STEAL: among those that qualify, the lowest local id takes, from the lowest local id (19 R352, R353). -/
def execCommandSteal (g : Gid) (owner : Gid) (q : BitVec 3) (s : State) : Res :=
  let siblings := (List.range 4).map fun k => quireGid (gidDev g) (4 * gidSection g + k)
  let first (p : Gid → Bool) (x : Gid) : Bool := siblings.all fun y => decide (x.toNat ≤ y.toNat) || !p y
  unitEvent owner (fun s =>
    match s.cur.queue q with
    | [] => s
    | c :: _ =>
      if s.maySteal g owner q && first (fun y => s.maySteal y owner q) g && first (fun y => s.maySteal g y q) owner then
        s.start { c with engine := g, due := 0 }
      else s) s

/-- One retirement of a queue, in the order its commands started. -/
def State.retireOne (s : State) (q : BitVec 3) : State :=
  retirePass (s.cur.inflight.filter fun y => y.command.queue != q) (s.cur.inflight.filter fun y => y.command.queue == q) s fun _ => true

/-- COMMAND_RETIRE: the engine of a queue goes on: its head starts if it may, else what has started goes on, and what is finished retires and gives
its token (06 R128, 05 R99). -/
def execCommandRetire (g : Gid) (q : BitVec 3) (s : State) : Res :=
  unitEvent g (fun s =>
    if s.cur.held || !engineQueues.contains q then s
    else
      let t := s.turnQueue q
      if s.cur.inflight.length < t.cur.inflight.length then t
      else
      let s := t
      let s := (s.cur.inflight.filter fun y => y.command.queue == q).foldl (fun s y => if s.cur.inflight.contains y then s.poll y else s) s
      s.retireOne q) s

/-! ### Class queues, homes and horizons (16 R289-R296, 14 R265) -/

/-- CLASS_QUEUE_LEAVE. -/
def execClassQueueLeave (g : Gid) (index : Nat) (s : State) : Res :=
  unitEvent g (fun s =>
    match s.cur.classQ[index]? with
    | none => s
    | some x =>
      if s.mayLeave s.cur (s.cur.classQ.take index) x then
        ({ s with cur := { s.cur with classQ := s.cur.classQ.eraseIdx index } } : State).leave x
      else s) s

/-- Accesses by rising global id, those of one unit in their order (16 R292). -/
def insertByGid (s : State) (x : Access) : List Access → List Access
  | [] => [x]
  | y :: ys => if (s.seenGid y.gid).toNat ≤ (s.seenGid x.gid).toNat then y :: insertByGid s x ys else x :: y :: ys

/-- Nothing more of its command's writes to its sector is outside the round (12 R236). -/
def State.sectorWhole (s : State) (picks : List Nat) (x : Access) : Bool :=
  let u := s.unitAt x.gid
  s.admQ.zipIdx.all (fun e => picks.contains e.2 || !x.oneSector e.1) &&
  u.classQ.all (fun y => !x.oneSector y) && !u.mayAdd x

/-- An earlier access of the unit, in the class and to the line, is held at the home or waits at its clasp engine (16 R290). -/
def State.heldBefore (s : State) (x : Access) : Bool :=
  let blocks (y : Access) : Bool := y.gid == x.gid && y.cls == x.cls && y.addr / 256 == x.addr / 256 && !(x.command.isSome && y.command == x.command)
  s.devs.any (fun d => d.held.any blocks) || s.clasps.any fun e => e.1 == x.gid && decide (e.2 < 2 ^ 42) && e.2 / 4 == x.addr / 256 &&
    (s.unitAt x.gid).wait.any fun w => w.cls == x.cls && w.key == e.2

/-- Two accesses whose order the round has to keep: of one unit, class and line (16 R290), or of the host, whose writes are admitted in PCI
Express order (23 R411). -/
def Access.inOrder (x y : Access) : Bool :=
  x.gid == y.gid && ((x.cls == y.cls && x.addr / 256 == y.addr / 256) || x.gid == hostGid (gidDev x.gid))

/-- A round may take the entries of these indices: all are the home's and can be taken, each stands once, none overtakes an earlier access
of its unit and class to its line, and the sectors of each command are whole (16 R290, R291, 12 R236). -/
def State.roundOk (s : State) (home : Nat) (picks : List Nat) : Bool :=
  decide picks.Nodup && picks.all fun k =>
    match s.admQ[k]? with
    | none => false
    | some x =>
      x.home == home && s.admits x && s.sectorWhole picks x && !s.heldBefore x &&
      (List.range k).all fun j => picks.contains j || match s.admQ[j]? with
        | some y => !x.inOrder y
        | none => true

/-- What the reads of unit `g` in a round see: one choice for each aligned 8 bytes (16 R292), in device memory for each sector, which a copy or a
load reads in one round (04 R94, 05 R98). -/
def roundView (before : State) (g : Gid) : View :=
  { before := before
    late := fun x => Config.ownRound (2 ^ 16 * before.free + g.toNat) (if 8 * x < sramBase then x / 16 * 16 else x) }

/-- HOME_ADMISSION_ROUND: the picked accesses are admitted in one round, the writes of the highest global id last (16 R291, R292). -/
def execHomeAdmissionRound (home : Nat) (picks : List Nat) (s : State) : Res :=
  if s.roundOk home picks then
    let taken := s.admQ.zipIdx.filterMap fun e => if picks.contains e.2 then some e.1 else none
    let left := s.admQ.zipIdx.filterMap fun e => if picks.contains e.2 then none else some e.1
    let reads (x : Access) : Bool := match x.want with | .load .. | .prefetch _ => true | _ => false
    let writes := taken.filter fun x => !reads x
    let s : State := { s with admQ := left, free := s.free + 1 }
    let t := (writes.foldl (fun l x => insertByGid s x l) []).foldl State.arrive (s.healWhole writes)
    .next ((taken.filter reads).foldl (fun t x => t.arriveIn (roundView s x.gid) x) t)
  else .next s

/-- HORIZON_WIDEN: the horizon of a write grows to a wider instance of its writer, never shrinks (16 R292). -/
def execHorizonWiden (write : Nat) (scope : BitVec 3) (s : State) : Res :=
  .next (State.fold { s with pend := s.pend.map fun r =>
    if r.id == write && decide (r.horizon.toNat < scope.toNat) && decide (scope.toNat ≤ 4) then { r with horizon := scope } else r })

/-- A unit may fill its L1 with a sector: it lies in a page of memory type 0 or 2 that the unit's table maps and a TLB holds (04 R82). -/
def State.mayFill (s : State) (sector : Nat) : Bool :=
  let u := s.cur
  let dev := addrDev (128 * sector)
  let pas := aliases ((s.dev dev).seen.toNat * 2 ^ 42 + 128 * sector % 2 ^ 42)
  (u.tlb ++ (s.myDev.tlb.filter fun e => e.1 == gidSection u.gid).map (·.2)).any fun t =>
    t.xbase == u.xbase && (fld t.entry 14 3 == 0 || fld t.entry 14 3 == 2) && pas.any fun pa => decide (t.frame ≤ pa) && decide (pa < t.frame + t.size)

/-- L1_COPY_INSTALL (16 R294): of a sector that a load, a fetch or a PREF may fill. (DESIGN CHOICE, log 8) -/
def execL1CopyInstall (g : Gid) (sector : Nat) (s : State) : Res := unitEvent g (fun s => if s.mayFill sector then s.prefetched sector true else s) s

/-- L1_COPY_DISCARD (16 R294). -/
def execL1CopyDiscard (g : Gid) (sector : Nat) (s : State) : Res :=
  unitEvent g (fun s => { s with cur := s.cur.dropSector sector }) s

/-! ### The clasp engine and waits (12 R255, R303, 21 R406) -/

/-- The meaning of a request to the clasp engine; none of any other instruction. -/
def claspMeaning (i : Instr) : Option (State → Res) :=
  match i with
  | .aadd w sem scope oc mask a b c => some (execAadd w sem scope oc mask a b c)
  | .aand w sem scope oc mask a b c => some (execAand w sem scope oc mask a b c)
  | .aor w sem scope oc mask a b c => some (execAor w sem scope oc mask a b c)
  | .axor w sem scope oc mask a b c => some (execAxor w sem scope oc mask a b c)
  | .amin w sem scope oc mask a b c => some (execAmin w sem scope oc mask a b c)
  | .amax w sem scope oc mask a b c => some (execAmax w sem scope oc mask a b c)
  | .aminu w sem scope oc mask a b c => some (execAminu w sem scope oc mask a b c)
  | .amaxu w sem scope oc mask a b c => some (execAmaxu w sem scope oc mask a b c)
  | .aswap w sem scope oc mask a b c => some (execAswap w sem scope oc mask a b c)
  | .acas w sem scope oc mask a b c d => some (execAcas w sem scope oc mask a b c d)
  | .afadd single sem scope oc mask a b c => some (execAfadd single sem scope oc mask a b c)
  | .barr scope mask a b c => some (execBarr scope mask a b c)
  | .bwait scope mask a b c => some (execBwait scope mask a b c)
  | .mwait scope mask a b c => some (execMwait scope mask a b c)
  | .msig scope mask b c => some (execMsig scope mask b c)
  | .rinit a b c => some (execRinit a b c)
  | .rclaim a b => some (execRclaim a b)
  | .rwaite a b c => some (execRwaite a b c)
  | .rcommit mask b c => some (execRcommit mask b c)
  | .rwaitf mask a b => some (execRwaitf mask a b)
  | .rtake b c => some (execRtake b c)
  | .rstat a b k => some (execRstat a b k)
  | .depdec oc a b => some (execDepdec oc a b)
  | .depdecAll oc a => some (execDepdecAll oc a)
  | _ => none

/-- A unit of which a request may be served: it issues, or it waits with one that has left, whatever the debug port holds it to (21 R397). -/
def Unit.requests (u : Unit) : Bool := u.issues || (u.wait.isSome && u.run == .running && u.raised.isNone && u.cutting.isNone)

/-- CLASP_REQUEST_PERFORM: the request of the instruction at the unit's PC sets out, or is served once it is the first of its entry's queue
(16 R303). -/
def execClaspRequestPerform (g : Gid) (s : State) : Res :=
  unitTurn g (fun s =>
    if !s.cur.requests then .next s
    else match s.fetched with
      | .run i => match claspMeaning i with | some f => f (s.scrubFetch s.cur.pc) | none => .next s
      | .trap _ => .next s) s

/-- MWAIT_RECHECK: a waiting monitor reads again at its next turn (12 R255). -/
def execMwaitRecheck (g : Gid) (s : State) : Res :=
  unitEvent g (fun s =>
    match s.cur.wait with
    | some w => if w.key < 2 ^ 42 then { s with cur := { s.cur with wait := some { w with woken := true } } } else s
    | none => s) s

/-- IDLE_TIMEOUT: the cycles up to an IDLE's limit pass (21 R406). -/
def execIdleTimeout (g : Gid) (s : State) : Res :=
  unitEvent g (fun s =>
    match s.cur.idleFrom, s.fetched with
    | some t, .run (.idle n) => if n = 0 then s else s.pass (t + n.toNat - s.cur.time)
    | _, _ => s) s

/-! ### Translation, banks, plates (03 R71-R73, 04 R91, R92, 19 R346) -/

/-- An entry joins a TLB; the oldest entry of a full one goes (03 R71). -/
def installEntry {α : Type} (limit : Nat) (l : List α) (e : α) : List α := (if limit ≤ l.length then l.drop 1 else l) ++ [e]

/-- A walk decodes the sectors that it reads, whatever the TLBs hold (03 R58, R64). -/
def State.walkScrub (s : State) (g : Gid) (xbase va : Word) : State :=
  if s.latent.isEmpty then s else (s.tableReads g xbase va).foldl (fun s a => s.scrub (a / 128)) s

/-- PAGE_WALK_COMPLETE: the walk's entry enters the unit's TLB and its section's; one that faults fills nothing (03 R71, R73). -/
def execPageWalkComplete (g : Gid) (va : Word) (s : State) : Res :=
  unitEvent g (fun s =>
    let u := s.cur
    let s := s.walkScrub g u.xbase va
    match s.walk g u.xbase va with
    | .error _ => s
    | .ok m =>
      let e : TlbEntry := { xbase := u.xbase, vbase := m.vbase, size := m.size, frame := m.frame, entry := m.entry }
      let sec := gidSection g
      let mine (x : Nat × TlbEntry) : Bool := x.1 == sec
      let s := if u.tlb.contains e then s else { s with cur := { u with tlb := installEntry 64 u.tlb e } }
      if u.isCore then s
      else s.onDev (gidDev g) fun d =>
        if d.tlb.contains (sec, e) then d
        else { d with tlb := d.tlb.filter (fun x => !mine x) ++ installEntry 2048 (d.tlb.filter mine) (sec, e) }) s

/-- The bank whose change a unit has asked for, by its number on the device. -/
def Device.changeOf (d : Device) (g : Gid) (begun : Bool) : Option (Nat × Bank) :=
  d.banks.find? fun e => e.2.changing.isSome && e.2.asker == g && e.2.begun == begun

/-- BANKMODE_CHANGE_BEGIN: no access is under way at the bank, and no release buffer lies in a bank that leaves RELB mode (04 R90, R91). -/
def execBankmodeChangeBegin (g : Gid) (s : State) : Res :=
  unitEvent g (fun s =>
    let dev := gidDev g
    match (s.dev dev).changeOf g false with
    | none => s
    | some (b, x) =>
      let under (y : Access) : Bool := addrDev y.addr == dev && y.bank? == some b && (decide (sramBase ≤ y.addr) || x.mode == 0)
      if s.admQ.any under || (x.mode == 4 && !s.relbClear dev b) then s
      else s.onDev dev fun d => d.setBank b { x with begun := true, ends := s.cur.time + changeCycles x.mode b s.clock }) s

/-- BANKMODE_CHANGE_END: 4 096 cycles after its beginning, and once the BANKMODE has committed, the bank is in its new mode (04 R90, R92). -/
def execBankmodeChangeEnd (g : Gid) (s : State) : Res :=
  unitEvent g (fun s =>
    let dev := gidDev g
    match (s.dev dev).changeOf g true with
    | none => s
    | some (b, x) =>
      let waits := s.cur.run == .running && !x.told && match s.fetched with | .run (.bankmode ..) => true | _ => false
      if waits then s else (s.endChange dev b).pass (x.ends - s.cur.time)) s

/-- PLATE_LOAD_COMPLETE (19 R346, R348). -/
def execPlateLoadComplete (g : Gid) (s : State) : Res := unitEvent g State.finishLoad s

/-! ### Traps and containment (21 R384, R385, 20 R373-R377) -/

/-- TRAP_TAKE: a raised trap is taken, once every earlier instruction has committed (21 R384), and the record of one that is being taken is
formed, once no started command runs any more (21 R385). -/
def execTrapTake (g : Gid) (s : State) : Res :=
  unitEvent g (fun s =>
    match s.cur.raised with
    | some t => if s.cur.window.isEmpty then s.deliver t s.cur.regions.length else s
    | none => s.endCut) s

/-- The command that an engine's error is attributed to: one that it executes, else the head of the queue. -/
def Unit.erring (u : Unit) (q : BitVec 3) : Option Command :=
  match u.inflight.find? fun y => y.command.queue == q with
  | some y => some y.command
  | none => (u.queue q).head?

/-- An instruction that the checker sequencer compares at the commit point: a store, or a request to the clasp engine or the binder (R373). -/
def comparedAtCommit (i : Instr) : Bool :=
  (claspMeaning i).isSome || match i with | .st .. | .sts .. | .spawn .. => true | _ => false

/-- The word of the instruction that is compared now: the oldest one that has executed, where that is a store, else the one at the PC. -/
def State.comparedWord (s : State) : Option Word :=
  match s.cur.window with
  | e :: _ => if e.store.isSome then (match s.fetchAt e.pc with | .ok w => some w | .error _ => none) else none
  | [] => match s.fetched with | .run i => if comparedAtCommit i then some (encode i) else none | .trap _ => none

/-- The trap of an error that the hardware finds: UNCORR (03 R59) with its own TVAL, CMDMISM with the one of R373: of a queue it needs a command
at its head, of the sequencer an instruction that is compared. -/
def hardwareTrap (s : State) (cause : BitVec 8) (q : BitVec 3) (tval : Word) : Option (Trap × Nat) :=
  let u := s.cur
  let here := u.regions.length
  let at_ (c : Cause) (cut : Bool) (x : Word) (d : Nat) : Option (Trap × Nat) :=
    some ({ cause := c, queue := q, cut := cut, tval := x, xstat := none, tret := none }, d)
  if q = 1 then
    if cause = 0x34 then at_ .uncorr false tval here
    else if cause = 0x33 then s.comparedWord.bind fun w => at_ .cmdmism false w here
    else none
  else if !engineQueues.contains q then none
  else if cause = 0x33 then
    (u.queue q).head?.bind fun c => at_ .cmdmism true (BitVec.ofNat 64 (c.num.toNat * 2 ^ 32 + q.toNat)) c.depth
  else if cause = 0x34 then (u.erring q).bind fun c => at_ .uncorr true tval c.depth
  else none

/-- The failure record of a known-answer test (20 R375). -/
def katRecord (unit : BitVec 4) (row : BitVec 12) (cycle : Nat) : Word := unit ++ row ++ BitVec.ofNat 48 cycle

/-- A test runs in an idle slot of one of the current quire's units; a failure raises KATFAIL through the cut (20 R374, R375). (DEDUCED, log 64) -/
def State.katTest (s : State) (unit : BitVec 4) (row : BitVec 12) (pass : Bool) : State :=
  let u := s.cur
  if u.isCore || u.run != .running || s.myDev.katSetting == 0 || s.myDev.quireDisabled (gidLocal u.gid) || unit == 0 || decide (3 < unit.toNat) then s
  else
    let u := { u with katTests := u.katTests + 1 }
    if pass then { s with cur := u }
    else
      let x := katRecord unit row u.time
      ({ s with cur := { u with katFails := u.katFails + 1, katLast := x } }).deliver
        { cause := .katfail, queue := 1, cut := true, tval := x, xstat := none, tret := none } u.regions.length

/-- KAT_INJECT. -/
def execKatInject (g : Gid) (unit : BitVec 4) (row : BitVec 12) (pass : Bool) (s : State) : Res := unitEvent g (fun s => s.katTest unit row pass) s

/-- CONTAINMENT_EVENT: an error in an open region closes it and goes to its handler; outside every region it is a trap (20 R377).  A known-answer
failure is a test that fails, of the unit and lane that its record names (R374, R375); an error found in a store that waits to commit is precise
at the store (R373). -/
def execContainmentEvent (g : Gid) (cause : BitVec 8) (q : BitVec 3) (tval : Word) (s : State) : Res :=
  unitEvent g (fun s =>
    if s.cur.run != .running then s
    else if cause = 0x32 then s.katTest (tval.extractLsb' 60 4) (tval.extractLsb' 48 12) false
    else match hardwareTrap s cause q tval with
      | none => s
      | some (t, depth) =>
        if t.cut || 0 < containing s.cur depth || (t.cause == .cmdmism && !s.cur.window.isEmpty) then s.deliver t depth else s.raise t) s

/-! ### Replicas (20 R361, R365, R366, R371) -/

/-- REPLICA_MEETING: every peer has presented, and the meeting is decided (20 R361). -/
def execReplicaMeeting (g : Gid) (s : State) : Res :=
  unitEvent g (fun s => if s.cur.presented.isSome && s.allPresented then s.vote else s) s

/-- MEETING_TIMEOUT: a peer that has not presented counts as presenting a signature that matches none (20 R361). -/
def execMeetingTimeout (g : Gid) (s : State) : Res :=
  unitEvent g (fun s => if s.cur.presented.isSome && !s.allPresented then s.vote else s) s

/-- NDAGREE_TIMEOUT: in a dual task REPLMISM at every peer, with the count; in a triple one the absent replica goes (20 R371). (DEDUCED, log 68) -/
def execNdagreeTimeout (g : Gid) (s : State) : Res :=
  unitEvent g (fun s =>
    let u := s.cur
    if u.ndValue.isNone || s.allAgreeing then s
    else
      let ps := s.peers u
      let absent := ps.filter fun p => p.ndValue.isNone || p.ndCount != u.ndCount
      if u.live = 3 then absent.foldl (fun s p => s.removeReplica (s.unitAt p.gid)) s
      else
        let t := seqTrap .replmism (BitVec.ofNat 64 (u.ndCount + 1))
        ps.foldl (fun s p => s.onUnit p.gid fun s => ({ s with cur := { s.cur with ndValue := none } }).raise t) s) s

/-! ### The binder (19 R334, R340, R343, R354) -/

/-- Boot has ended (23 R419). -/
def State.booted (s : State) (n : Dev) : Bool := (s.dev n).boot == .done

/-- TASK_ACCEPT: the binder validates the oldest submitted record (19 R334, R335). -/
def execTaskAccept (dev : Dev) (s : State) : Res :=
  deviceEvent dev (fun s =>
    if !s.booted dev then s
    else match (s.dev dev).submissions with
      | [] => s
      | x :: rest =>
        let s := s.onDev dev fun d => { d with submissions := rest }
        match s.accept dev x.record x.secure [] with
        | (t, .error r) => if r = 7 then t.onDev dev Device.violation else t
        | (t, .ok _) => t) s

/-- TASK_PLACE: the binder places the task that is next and fits (19 R335, R340). -/
def execTaskPlace (dev : Dev) (id : BitVec 32) (s : State) : Res :=
  deviceEvent dev (fun s =>
    let s := s.refreshEligible
    if !s.booted dev then s
    else match s.nextPlacement with
      | some (d, t, gs) => if d == dev && t.id == id then s.placeTask d t gs else s
      | none => s) s

/-- TASK_COMPLETE: every quire has executed EXIT, and everything it sent has performed (19 R343, R344, 14 R280). -/
def execTaskComplete (dev : Dev) (id : BitVec 32) (s : State) : Res :=
  deviceEvent dev (fun s =>
    match (s.dev dev).task? id with
    | some t => if s.finished t then s.completeTask dev t else s
    | none => s) s

/-- TASK_PREEMPT: the binder makes room for an eligible task that does not fit (19 R354, R355). -/
def execTaskPreempt (dev : Dev) (id : BitVec 32) (s : State) : Res :=
  deviceEvent dev (fun s =>
    match (s.dev dev).task? id with
    | some t => if (s.dev dev).queue.contains id then s.preempt dev t else s
    | none => s) s

/-! ### The patrol scrubber (03 R58) -/

/-- PATROL_SCRUB: a sector is read, corrected and counted, or marked poisoned (03 R58, R59). (DESIGN CHOICE, log 65) -/
def execPatrolScrub (sector : Nat) (s : State) : Res :=
  .next (if sramBase ≤ 128 * sector ∨ !s.devs.any (fun d => d.num == addrDev (128 * sector)) then s else s.scrub sector)

end Sys2Proof.Machine
end

