-- ==== Sys2Proof/Machine/Int.lean ====
section
/-! DEFINITION. Class 0, integer operations (06 R141-R143). -/
namespace Sys2Proof.Machine
open Sys2Proof

/-- A two-operand operation at width 64, or with `.w` at width 32 (R141, R142). (DEDUCED, log 49) -/
def alu2 (w : Bool) (f : (n : Nat) → BitVec n → BitVec n → BitVec n) (b c : Word) : Word :=
  if w then (f 32 (b.setWidth 32) (c.setWidth 32)).signExtend 64 else f 64 b c
def alu1 (w : Bool) (f : (n : Nat) → BitVec n → BitVec n) (b : Word) : Word :=
  if w then (f 32 (b.setWidth 32)).signExtend 64 else f 64 b
def alu3 (w : Bool) (f : (n : Nat) → BitVec n → BitVec n → BitVec n → BitVec n) (b c d : Word) : Word :=
  if w then (f 32 (b.setWidth 32) (c.setWidth 32) (d.setWidth 32)).signExtend 64 else f 64 b c d

/-- A comparison's result (R141). -/
def boolBits (n : Nat) (c : Bool) : BitVec n := if c then 1 else 0

def opMulHigh (n : Nat) (b c : BitVec n) : BitVec n := (b.signExtend (2 * n) * c.signExtend (2 * n)).extractLsb' n n
def opMulHighU (n : Nat) (b c : BitVec n) : BitVec n := (b.setWidth (2 * n) * c.setWidth (2 * n)).extractLsb' n n
/-- Shift amounts are taken modulo the width. -/
def opShl (n : Nat) (b c : BitVec n) : BitVec n := b <<< (c.toNat % n)
def opShr (n : Nat) (b c : BitVec n) : BitVec n := b >>> (c.toNat % n)
def opSar (n : Nat) (b c : BitVec n) : BitVec n := b.sshiftRight (c.toNat % n)
def opRor (n : Nat) (b c : BitVec n) : BitVec n := b.rotateRight (c.toNat % n)
def opMinS (n : Nat) (b c : BitVec n) : BitVec n := if b.slt c then b else c
def opMaxS (n : Nat) (b c : BitVec n) : BitVec n := if b.slt c then c else b
def opMinU (n : Nat) (b c : BitVec n) : BitVec n := if b.ult c then b else c
def opMaxU (n : Nat) (b c : BitVec n) : BitVec n := if b.ult c then c else b

/-- Leading and trailing zeros, the width for 0, and set bits. -/
def opClz (n : Nat) (b : BitVec n) : BitVec n :=
  BitVec.ofNat n (((List.range n).find? fun k => b.getLsbD (n - 1 - k)).getD n)
def opCtz (n : Nat) (b : BitVec n) : BitVec n := BitVec.ofNat n (((List.range n).find? fun k => b.getLsbD k).getD n)
def opPopc (n : Nat) (b : BitVec n) : BitVec n := BitVec.ofNat n ((List.range n).filter fun k => b.getLsbD k).length

/-- The position and the width of a bit-field operation: modulo the width and clamped to it (R141, R142). -/
def fieldPos (n : Nat) (c : BitVec n) : Nat := c.toNat % n
def fieldWidth (n : Nat) (d : BitVec n) : Nat := min (d.toNat % 128) n
def opBfx (n : Nat) (b c d : BitVec n) : BitVec n :=
  let w := fieldWidth n d
  let f := (b >>> fieldPos n c).setWidth w
  if d.getLsbD 7 then f.signExtend n else f.setWidth n
def opBfi (n : Nat) (a b c d : BitVec n) : BitVec n :=
  let m := BitVec.ofNat n (2 ^ fieldWidth n d - 1) <<< fieldPos n c
  (a &&& ~~~m) ||| ((b <<< fieldPos n c) &&& m)

/-- The divisor of a division: the whole register, or its low half (R143). -/
def zeroDivisor (w : Bool) (c : Word) : Bool := if w then c.setWidth 32 == 0#32 else c == 0

/-- A class 0 instruction of two sources. -/
def intOp (i : Instr) (a b c : Reg) (lat : Nat) (f : Word → Word → Word) (s : State) : Res :=
  issue i (reading [b, c] [] fun s => finishReg s a (f (s.cur.rs b) (s.cur.rs c)) lat) s

/-- A division: IDIVZ for a divisor of zero, with the dividend in TVAL (R143).  The unsigned `.w` forms take 12 cycles like the signed ones: R142
names the signed ones only (DESIGN CHOICE, log 107). -/
def divOp (i : Instr) (w : Bool) (a b c : Reg) (f : Word → Word → Word) (s : State) : Res :=
  issue i (reading [b, c] [] fun s =>
    if zeroDivisor w (s.cur.rs c) then trapNow s (seqTrap .idivz (s.cur.rs b))
    else finishReg s a (f (s.cur.rs b) (s.cur.rs c)) (if w then 12 else 20)) s

/-- ADD (R141). -/
def execAdd (w : Bool) (a b c : Reg) (s : State) : Res :=
  intOp (.add w a b c) a b c 1 (alu2 w (fun _ x y => x + y)) s

/-- SUB (R141). -/
def execSub (w : Bool) (a b c : Reg) (s : State) : Res :=
  intOp (.sub w a b c) a b c 1 (alu2 w (fun _ x y => x - y)) s

/-- MUL (R141). -/
def execMul (w : Bool) (a b c : Reg) (s : State) : Res :=
  intOp (.mul w a b c) a b c 3 (alu2 w (fun _ x y => x * y)) s

/-- MULH (R141). -/
def execMulh (w : Bool) (a b c : Reg) (s : State) : Res :=
  intOp (.mulh w a b c) a b c 3 (alu2 w opMulHigh) s

/-- MULHU (R141). -/
def execMulhu (w : Bool) (a b c : Reg) (s : State) : Res :=
  intOp (.mulhu w a b c) a b c 3 (alu2 w opMulHighU) s

/-- DIV (R143). -/
def execDiv (w : Bool) (a b c : Reg) (s : State) : Res :=
  divOp (.div w a b c) w a b c (alu2 w (fun _ x y => x.sdiv y)) s

/-- DIVU (R143). -/
def execDivu (w : Bool) (a b c : Reg) (s : State) : Res :=
  divOp (.divu w a b c) w a b c (alu2 w (fun _ x y => x.udiv y)) s

/-- REM (R143). -/
def execRem (w : Bool) (a b c : Reg) (s : State) : Res :=
  divOp (.rem w a b c) w a b c (alu2 w (fun _ x y => x.srem y)) s

/-- REMU (R143). -/
def execRemu (w : Bool) (a b c : Reg) (s : State) : Res :=
  divOp (.remu w a b c) w a b c (alu2 w (fun _ x y => x.umod y)) s

/-- AND (R141). -/
def execAndI (w : Bool) (a b c : Reg) (s : State) : Res :=
  intOp (.andI w a b c) a b c 1 (alu2 w (fun _ x y => x &&& y)) s

/-- OR (R141). -/
def execOrI (w : Bool) (a b c : Reg) (s : State) : Res :=
  intOp (.orI w a b c) a b c 1 (alu2 w (fun _ x y => x ||| y)) s

/-- XOR (R141). -/
def execXorI (w : Bool) (a b c : Reg) (s : State) : Res :=
  intOp (.xorI w a b c) a b c 1 (alu2 w (fun _ x y => x ^^^ y)) s

/-- ANDN (R141). -/
def execAndn (w : Bool) (a b c : Reg) (s : State) : Res :=
  intOp (.andn w a b c) a b c 1 (alu2 w (fun _ x y => x &&& ~~~y)) s

/-- SHL (R141). -/
def execShl (w : Bool) (a b c : Reg) (s : State) : Res :=
  intOp (.shl w a b c) a b c 1 (alu2 w opShl) s

/-- SHR (R141). -/
def execShr (w : Bool) (a b c : Reg) (s : State) : Res :=
  intOp (.shr w a b c) a b c 1 (alu2 w opShr) s

/-- SAR (R141). -/
def execSar (w : Bool) (a b c : Reg) (s : State) : Res :=
  intOp (.sar w a b c) a b c 1 (alu2 w opSar) s

/-- ROR (R141). -/
def execRor (w : Bool) (a b c : Reg) (s : State) : Res :=
  intOp (.ror w a b c) a b c 1 (alu2 w opRor) s

/-- MIN (R141). -/
def execMinI (w : Bool) (a b c : Reg) (s : State) : Res :=
  intOp (.minI w a b c) a b c 1 (alu2 w opMinS) s

/-- MAX (R141). -/
def execMaxI (w : Bool) (a b c : Reg) (s : State) : Res :=
  intOp (.maxI w a b c) a b c 1 (alu2 w opMaxS) s

/-- MINU (R141). -/
def execMinu (w : Bool) (a b c : Reg) (s : State) : Res :=
  intOp (.minu w a b c) a b c 1 (alu2 w opMinU) s

/-- MAXU (R141). -/
def execMaxu (w : Bool) (a b c : Reg) (s : State) : Res :=
  intOp (.maxu w a b c) a b c 1 (alu2 w opMaxU) s

/-- SEQ (R141). -/
def execSeq (w : Bool) (a b c : Reg) (s : State) : Res :=
  intOp (.seq w a b c) a b c 1 (alu2 w (fun n x y => boolBits n (x == y))) s

/-- SNE (R141). -/
def execSne (w : Bool) (a b c : Reg) (s : State) : Res :=
  intOp (.sne w a b c) a b c 1 (alu2 w (fun n x y => boolBits n (x != y))) s

/-- SLT (R141). -/
def execSlt (w : Bool) (a b c : Reg) (s : State) : Res :=
  intOp (.slt w a b c) a b c 1 (alu2 w (fun n x y => boolBits n (x.slt y))) s

/-- SLTU (R141). -/
def execSltu (w : Bool) (a b c : Reg) (s : State) : Res :=
  intOp (.sltu w a b c) a b c 1 (alu2 w (fun n x y => boolBits n (x.ult y))) s

/-- SEL (R141). -/
def execSel (w : Bool) (a b c d : Reg) (s : State) : Res :=
  issue (.sel w a b c d) (reading [b, c, d] [] fun s =>
    finishReg s a (alu3 w (fun _ x y z => if x = 0 then z else y) (s.cur.rs b) (s.cur.rs c) (s.cur.rs d)) 1) s

/-- CLZ (R141). -/
def execClz (w : Bool) (a b : Reg) (s : State) : Res :=
  issue (.clz w a b) (reading [b] [] fun s => finishReg s a (alu1 w opClz (s.cur.rs b)) 1) s

/-- CTZ (R141). -/
def execCtz (w : Bool) (a b : Reg) (s : State) : Res :=
  issue (.ctz w a b) (reading [b] [] fun s => finishReg s a (alu1 w opCtz (s.cur.rs b)) 1) s

/-- POPC (R141). -/
def execPopc (w : Bool) (a b : Reg) (s : State) : Res :=
  issue (.popc w a b) (reading [b] [] fun s => finishReg s a (alu1 w opPopc (s.cur.rs b)) 1) s

/-- BFX (R141). -/
def execBfx (w : Bool) (a b c d : Reg) (s : State) : Res :=
  issue (.bfx w a b c d) (reading [b, c, d] [] fun s =>
    finishReg s a (alu3 w opBfx (s.cur.rs b) (s.cur.rs c) (s.cur.rs d)) 1) s

/-- BFI (R141; it reads s[a]). -/
def execBfi (w : Bool) (a b c d : Reg) (s : State) : Res :=
  issue (.bfi w a b c d) (reading [a, b, c, d] [] fun s =>
    finishReg s a (if w then (opBfi 32 ((s.cur.rs a).setWidth 32) ((s.cur.rs b).setWidth 32) ((s.cur.rs c).setWidth 32)
        ((s.cur.rs d).setWidth 32)).signExtend 64
      else opBfi 64 (s.cur.rs a) (s.cur.rs b) (s.cur.rs c) (s.cur.rs d)) 1) s

/-- MADD (R141). -/
def execMadd (w : Bool) (a b c d : Reg) (s : State) : Res :=
  issue (.madd w a b c d) (reading [b, c, d] [] fun s =>
    finishReg s a (alu3 w (fun _ x y z => x * y + z) (s.cur.rs b) (s.cur.rs c) (s.cur.rs d)) 3) s

end Sys2Proof.Machine
end

