-- ==== Sys2Proof/Machine/Imm.lean ====
section
/-! DEFINITION. Class 1, immediates (06 R144, 02 R34). -/
namespace Sys2Proof.Machine
open Sys2Proof

/-- A class 1 instruction of one source; `f` gets it. -/
def immOp (i : Instr) (a b : Reg) (lat : Nat) (f : Word → Word) (s : State) : Res :=
  issue i (reading [b] [] fun s => finishReg s a (f (s.cur.rs b)) lat) s

/-- ADDI (R144). -/
def execAddi (w : Bool) (a b : Reg) (imm : BitVec 32) (s : State) : Res :=
  immOp (.addi w a b imm) a b 1 (fun x => alu2 w (fun _ x y => x + y) x (imm.signExtend 64)) s

/-- ANDI (R144). -/
def execAndi (a b : Reg) (imm : BitVec 32) (s : State) : Res :=
  immOp (.andi a b imm) a b 1 (fun x => x &&& imm.setWidth 64) s

/-- ORI (R144). -/
def execOri (a b : Reg) (imm : BitVec 32) (s : State) : Res :=
  immOp (.ori a b imm) a b 1 (fun x => x ||| imm.setWidth 64) s

/-- XORI (R144). -/
def execXori (a b : Reg) (imm : BitVec 32) (s : State) : Res :=
  immOp (.xori a b imm) a b 1 (fun x => x ^^^ imm.setWidth 64) s

/-- SHLI (R144). -/
def execShli (w : Bool) (a b : Reg) (amt : BitVec 6) (s : State) : Res :=
  immOp (.shli w a b amt) a b 1 (fun x => alu2 w opShl x (amt.setWidth 64)) s

/-- SHRI (R144). -/
def execShri (w : Bool) (a b : Reg) (amt : BitVec 6) (s : State) : Res :=
  immOp (.shri w a b amt) a b 1 (fun x => alu2 w opShr x (amt.setWidth 64)) s

/-- SARI (R144). -/
def execSari (w : Bool) (a b : Reg) (amt : BitVec 6) (s : State) : Res :=
  immOp (.sari w a b amt) a b 1 (fun x => alu2 w opSar x (amt.setWidth 64)) s

/-- SLTI (R144). -/
def execSlti (a b : Reg) (imm : BitVec 32) (s : State) : Res :=
  immOp (.slti a b imm) a b 1 (fun x => boolBits 64 (x.slt (imm.signExtend 64))) s

/-- SLTIU (R144). -/
def execSltiu (a b : Reg) (imm : BitVec 32) (s : State) : Res :=
  immOp (.sltiu a b imm) a b 1 (fun x => boolBits 64 (x.ult (imm.signExtend 64))) s

/-- MOVI (R144). -/
def execMovi (a : Reg) (imm : BitVec 32) (s : State) : Res :=
  issue (.movi a imm) (fun s => finishReg s a (imm.signExtend 64) 1) s

/-- MOVHI (R144). -/
def execMovhi (a b : Reg) (imm : BitVec 32) (s : State) : Res :=
  immOp (.movhi a b imm) a b 1 (fun x => imm ++ x.setWidth 32) s

/-- MULI (R144). -/
def execMuli (w : Bool) (a b : Reg) (imm : BitVec 32) (s : State) : Res :=
  immOp (.muli w a b imm) a b 3 (fun x => alu2 w (fun _ x y => x * y) x (imm.signExtend 64)) s

/-- LEA (R144). -/
def execLea (a : Reg) (imm : BitVec 32) (s : State) : Res :=
  issue (.lea a imm) (fun s => finishReg s a (s.cur.pc + imm.signExtend 64) 1) s

end Sys2Proof.Machine
end

