-- ==== Sys2Proof/Machine/Mtx.lean ====
section
/-! DEFINITION. Class 8, matrix operations (09, 10): each word pushes a command (06 R127); what the command does once it starts is in MatEngine. -/
namespace Sys2Proof.Machine
open Sys2Proof

/-- MMA (R203). -/
def execMma (h : EHead) (oc : BitVec 4) (da db dc : DReg) (s : State) : Res :=
  execPush (.mma h oc da db dc) s

/-- MMAZ (R203). -/
def execMmaz (h : EHead) (oc : BitVec 4) (da db dc : DReg) (s : State) : Res :=
  execPush (.mmaz h oc da db dc) s

/-- MMAC (R204). -/
def execMmac (h : EHead) (oc fmt : BitVec 4) (sat : Bool) (da db dc : DReg) (s : State) : Res :=
  execPush (.mmac h oc fmt sat da db dc) s

/-- MMAE (R223). -/
def execMmae (h : EHead) (oc : BitVec 4) (da db dc : DReg) (s : State) : Res :=
  execPush (.mmae h oc da db dc) s

/-- MRES (R223). -/
def execMres (h : EHead) (oc : BitVec 4) (da db dc : DReg) (s : State) : Res :=
  execPush (.mres h oc da db dc) s

/-- MBND_LYR (R227). -/
def execMbndLyr (h : EHead) (oc : BitVec 4) (da db dc : DReg) (s : State) : Res :=
  execPush (.mbndLyr h oc da db dc) s

/-- MBND_FIRST (R227). -/
def execMbndFirst (h : EHead) (oc : BitVec 4) (da db : DReg) (s : State) : Res :=
  execPush (.mbndFirst h oc da db) s

/-- MBND_SUM (R227). -/
def execMbndSum (h : EHead) (da db dc : DReg) (s : State) : Res :=
  execPush (.mbndSum h da db dc) s

/-- MCOMP (R205). -/
def execMcomp (h : EHead) (oc : BitVec 4) (reloc : Bool) (da db dc : DReg) (s : State) : Res :=
  execPush (.mcomp h oc reloc da db dc) s

/-- MMAS (R206). -/
def execMmas (h : EHead) (oc : BitVec 4) (da db dc : DReg) (s : State) : Res :=
  execPush (.mmas h oc da db dc) s

/-- MMAB (R207). -/
def execMmab (h : EHead) (oc : BitVec 4) (da db dc : DReg) (s : State) : Res :=
  execPush (.mmab h oc da db dc) s

/-- MZERO (R208). -/
def execMzero (h : EHead) (da : DReg) (s : State) : Res :=
  execPush (.mzero h da) s

/-- MWR (R208). -/
def execMwr (h : EHead) (oc : BitVec 4) (da db : DReg) (s : State) : Res :=
  execPush (.mwr h oc da db) s

/-- MRD (R209). -/
def execMrd (h : EHead) (oc : BitVec 4) (sat clr : Bool) (da db : DReg) (c : Reg) (s : State) : Res :=
  execPush (.mrd h oc sat clr da db c) s

/-- MCHK (R210). -/
def execMchk (h : EHead) (oc : BitVec 4) (row : Bool) (da db dc : DReg) (s : State) : Res :=
  execPush (.mchk h oc row da db dc) s

/-- MJOIN_JOIN (R201). -/
def execMjoinJoin (h : EHead) (da : DReg) (s : State) : Res :=
  execPush (.mjoinJoin h da) s

/-- MJOIN_LEAVE (R201). -/
def execMjoinLeave (h : EHead) (da : DReg) (s : State) : Res :=
  execPush (.mjoinLeave h da) s

end Sys2Proof.Machine
end

