-- ==== Sys2Proof/Machine/Crypto.lean ====
section
/-! DEFINITION. The check of a boot image's key and signature: SHA-384 and ECDSA P-384 (23 R420), which the manual names and whose
definitions are those of FIPS 180-4 and FIPS 186-4. (PRESUMED, log 16) -/
namespace Sys2Proof.Machine
open Sys2Proof

/-! ### SHA-384 -/

/-- The round constants: the first 64 fractional bits of the cube roots of the first 80 primes. -/
def shaRound : List Word :=
  [0x428A2F98D728AE22, 0x7137449123EF65CD, 0xB5C0FBCFEC4D3B2F, 0xE9B5DBA58189DBBC,
   0x3956C25BF348B538, 0x59F111F1B605D019, 0x923F82A4AF194F9B, 0xAB1C5ED5DA6D8118,
   0xD807AA98A3030242, 0x12835B0145706FBE, 0x243185BE4EE4B28C, 0x550C7DC3D5FFB4E2,
   0x72BE5D74F27B896F, 0x80DEB1FE3B1696B1, 0x9BDC06A725C71235, 0xC19BF174CF692694] ++
  [0xE49B69C19EF14AD2, 0xEFBE4786384F25E3, 0x0FC19DC68B8CD5B5, 0x240CA1CC77AC9C65,
   0x2DE92C6F592B0275, 0x4A7484AA6EA6E483, 0x5CB0A9DCBD41FBD4, 0x76F988DA831153B5,
   0x983E5152EE66DFAB, 0xA831C66D2DB43210, 0xB00327C898FB213F, 0xBF597FC7BEEF0EE4,
   0xC6E00BF33DA88FC2, 0xD5A79147930AA725, 0x06CA6351E003826F, 0x142929670A0E6E70] ++
  [0x27B70A8546D22FFC, 0x2E1B21385C26C926, 0x4D2C6DFC5AC42AED, 0x53380D139D95B3DF,
   0x650A73548BAF63DE, 0x766A0ABB3C77B2A8, 0x81C2C92E47EDAEE6, 0x92722C851482353B,
   0xA2BFE8A14CF10364, 0xA81A664BBC423001, 0xC24B8B70D0F89791, 0xC76C51A30654BE30,
   0xD192E819D6EF5218, 0xD69906245565A910, 0xF40E35855771202A, 0x106AA07032BBD1B8] ++
  [0x19A4C116B8D2D0C8, 0x1E376C085141AB53, 0x2748774CDF8EEB99, 0x34B0BCB5E19B48A8,
   0x391C0CB3C5C95A63, 0x4ED8AA4AE3418ACB, 0x5B9CCA4F7763E373, 0x682E6FF3D6B2B8A3,
   0x748F82EE5DEFB2FC, 0x78A5636F43172F60, 0x84C87814A1F0AB72, 0x8CC702081A6439EC,
   0x90BEFFFA23631E28, 0xA4506CEBDE82BDE9, 0xBEF9A3F7B2C67915, 0xC67178F2E372532B] ++
  [0xCA273ECEEA26619C, 0xD186B8C721C0C207, 0xEADA7DD6CDE0EB1E, 0xF57D4F7FEE6ED178,
   0x06F067AA72176FBA, 0x0A637DC5A2C898A6, 0x113F9804BEF90DAE, 0x1B710B35131C471B,
   0x28DB77F523047D84, 0x32CAAB7B40C72493, 0x3C9EBE0A15C9BEBC, 0x431D67C49C100D4C,
   0x4CC5D4BECB3E42B6, 0x597F299CFC657E2A, 0x5FCB6FAB3AD6FAEC, 0x6C44198C4A475817]

/-- The eight words of a digest under way. -/
structure ShaWords where
  (a b c d e f g h : Word)
  deriving DecidableEq, Repr

/-- The words a digest begins with: the first 64 fractional bits of the square roots of the 9th to the 16th prime. -/
def shaStart : ShaWords :=
  ⟨0xCBBB9D5DC1059ED8, 0x629A292A367CD507, 0x9159015A3070DD17, 0x152FECD8F70E5939,
   0x67332667FFC00B31, 0x8EB44A8768581511, 0xDB0C2E0D64F98FA7, 0x47B5481DBEFA4FA4⟩

/-- The bytes as a big-endian number. -/
def fromBe (bs : List Byte) : Nat := bs.foldl (fun acc b => 256 * acc + b.toNat) 0
/-- The low `n` bytes of `x`, big-endian. -/
def beBytes (n x : Nat) : List Byte := (leBytes n x).reverse

/-- The `n` runs of `m` bytes from the start. -/
def byteRuns (m : Nat) : (n : Nat) → List Byte → List (List Byte)
  | 0, _ => []
  | n + 1, bs => bs.take m :: byteRuns m n (bs.drop m)

/-- A message, a one bit, zeros and the message's length in bits, in whole blocks of 128 bytes. -/
def shaPadded (bs : List Byte) : List Byte :=
  bs ++ 0x80 :: List.replicate ((239 - bs.length % 128) % 128) 0 ++ beBytes 16 (8 * bs.length)

/-- `n` further words of a block's schedule, before those so far, the newest first. -/
def shaSchedule : (n : Nat) → List Word → List Word
  | 0, w => w
  | n + 1, w =>
    let x := w.getD 1 0
    let y := w.getD 14 0
    shaSchedule n (((x.rotateRight 19 ^^^ x.rotateRight 61 ^^^ (x >>> 6)) + w.getD 6 0 +
      (y.rotateRight 1 ^^^ y.rotateRight 8 ^^^ (y >>> 7)) + w.getD 15 0) :: w)

/-- One round. -/
def ShaWords.next (x : ShaWords) (k w : Word) : ShaWords :=
  let t := x.h + (x.e.rotateRight 14 ^^^ x.e.rotateRight 18 ^^^ x.e.rotateRight 41) + ((x.e &&& x.f) ^^^ (~~~x.e &&& x.g)) + k + w
  let u := (x.a.rotateRight 28 ^^^ x.a.rotateRight 34 ^^^ x.a.rotateRight 39) + ((x.a &&& x.b) ^^^ (x.a &&& x.c) ^^^ (x.b &&& x.c))
  ⟨t + u, x.a, x.b, x.c, x.d + t, x.e, x.f, x.g⟩

/-- One block of 128 bytes. -/
def ShaWords.block (x : ShaWords) (bs : List Byte) : ShaWords :=
  let words := (shaSchedule 64 ((byteRuns 8 16 bs).map fun r => BitVec.ofNat 64 (fromBe r)).reverse).reverse
  let y := (shaRound.zip words).foldl (fun y kw => y.next kw.1 kw.2) x
  ⟨x.a + y.a, x.b + y.b, x.c + y.c, x.d + y.d, x.e + y.e, x.f + y.f, x.g + y.g, x.h + y.h⟩

/-- SHA-384: the first six words of the digest. -/
def sha384 (bs : List Byte) : List Byte :=
  let m := shaPadded bs
  let x := (byteRuns 128 (m.length / 128) m).foldl ShaWords.block shaStart
  [x.a, x.b, x.c, x.d, x.e, x.f].flatMap fun w => beBytes 8 w.toNat

/-! ### ECDSA P-384 -/

/-- The prime of the field, the curve's constant b (a is -3), and the order of the base point. -/
def curvePrime : Nat := 2 ^ 384 - 2 ^ 128 - 2 ^ 96 + 2 ^ 32 - 1
def curveB : Nat :=
  0xB3312FA7E23EE7E4988E056BE3F82D19181D9C6EFE8141120314088F5013875AC656398D8A2ED19D2A85C8EDD3EC2AEF
def curveOrder : Nat :=
  0xFFFFFFFFFFFFFFFFFFFFFFFFFFFFFFFFFFFFFFFFFFFFFFFFC7634D81F4372DDF581A0DB248B0A77AECEC196ACCC52973

/-- `a - b` in the field. -/
def fieldSub (a b : Nat) : Nat := (a + (curvePrime - b % curvePrime)) % curvePrime

/-- `b ^ e mod m` of the low `n` bits of `e`. -/
def powMod (b e m : Nat) : (n : Nat) → Nat
  | 0 => 1 % m
  | n + 1 =>
    let r := powMod b (e / 2) m n
    let q := r * r % m
    if e % 2 = 1 then q * b % m else q

/-- The inverse modulo a prime of 384 bits. -/
def invMod (x m : Nat) : Nat := powMod x (m - 2) m 384

/-- The point (x / z², y / z³) of the curve; z = 0 is the point at infinity. -/
structure CurvePoint where
  (x y z : Nat)
  deriving DecidableEq, Repr

/-- The base point. -/
def curveBase : CurvePoint where
  x := 0xAA87CA22BE8B05378EB1C71EF320AD746E1D3B628BA79B9859F741E082542A385502F25DBF55296C3A545E3872760AB7
  y := 0x3617DE4A96262C6F5D9E98BF9292DC29F8F41DBD289A147CE9DA3113B5F0B8C00A60B1CE1D7E819D7A431D7C90EA0E5F
  z := 1

/-- Twice a point. -/
def CurvePoint.double (a : CurvePoint) : CurvePoint :=
  let p := curvePrime
  let zz := a.z * a.z % p
  let yy := a.y * a.y % p
  let b := a.x * yy % p
  let m := 3 * fieldSub a.x zz * (a.x + zz) % p
  let x := fieldSub (m * m) (8 * b)
  ⟨x, fieldSub (m * fieldSub (4 * b) x) (8 * yy * yy), 2 * a.y * a.z % p⟩

/-- The sum of two points. -/
def CurvePoint.add (a b : CurvePoint) : CurvePoint :=
  if a.z = 0 then b
  else if b.z = 0 then a
  else
    let p := curvePrime
    let az := a.z * a.z % p
    let bz := b.z * b.z % p
    let ax := a.x * bz % p
    let bx := b.x * az % p
    let ay := a.y * (b.z * bz % p) % p
    let y := b.y * (a.z * az % p) % p
    if ax = bx then (if ay = y then a.double else ⟨1, 1, 0⟩)
    else
      let h := fieldSub bx ax
      let r := fieldSub y ay
      let hh := h * h % p
      let hhh := h * hh % p
      let x := fieldSub (r * r) (hhh + 2 * ax * hh)
      ⟨x, fieldSub (r * fieldSub (ax * hh) x) (ay * hhh), h * (a.z * b.z % p) % p⟩

/-- The multiple of a point by the `n` highest of the 384 bits of `k`. -/
def CurvePoint.times (a : CurvePoint) (k : Nat) : (n : Nat) → CurvePoint
  | 0 => ⟨1, 1, 0⟩
  | n + 1 =>
    let d := (a.times k n).double
    if k.testBit (383 - n) then d.add a else d

/-- The key that 97 bytes name: an uncompressed SEC1 point of the curve. -/
def curveKey? (key : List Byte) : Option CurvePoint :=
  let x := fromBe ((key.drop 1).take 48)
  let y := fromBe ((key.drop 49).take 48)
  if key.length = 97 ∧ key.head? = some 4 ∧ x < curvePrime ∧ y < curvePrime ∧
      y * y % curvePrime = fieldSub (x * x * x + curveB) (3 * x) then some ⟨x, y, 1⟩ else none

/-- The ECDSA P-384 signature, r then s, big-endian, over SHA-384 of the signed bytes is valid under the key. -/
def signatureOk (key signature signed : List Byte) : Bool :=
  let r := fromBe (signature.take 48)
  let s := fromBe ((signature.drop 48).take 48)
  match curveKey? key with
  | none => false
  | some q =>
    let w := invMod s curveOrder
    let u := fromBe (sha384 signed) * w % curveOrder
    let a := (curveBase.times u 384).add (q.times (r * w % curveOrder) 384)
    0 < r && r < curveOrder && 0 < s && s < curveOrder && a.z != 0 &&
      a.x * invMod (a.z * a.z % curvePrime) curvePrime % curvePrime % curveOrder == r

end Sys2Proof.Machine
end

