-- ==== Sys2Proof/Machine/Shelf.lean ====
section
/-! DEFINITION. The events of the fabric (14), of the host and the other masters (23 R411-R421), of boot (23 R419-R422), of power
(23 R423) and of the debug port (21 R397, R403). -/
namespace Sys2Proof.Machine
open Sys2Proof

/-! ### Ticks and packets (14 R265-R268) -/

/-- TICK_BOUNDARY: the device's tick ends at the next boundary of the clock, and its batch is on its way (R267). -/
def execTickBoundary (dev : Dev) (s : State) : Res :=
  deviceEvent dev (fun s =>
    let d := s.dev dev
    if d.routeMode then s
    else
      let n := s.tickOf d + 1
      ({ s with clock := max s.clock (tickCycles * n) }).setDev { d with tick := n }) s

/-- TICK_BATCH_ADMIT: the batches of the oldest tick of which packets are on their way to a device are admitted, once every device has passed
the boundary by which all of them have arrived (R267, R268). -/
def execTickBatchAdmit (dev : Dev) (s : State) : Res :=
  deviceEvent dev (fun s =>
    match s.nextBatch dev with
    | none => s
    | some (n, b) =>
      if s.devs.any (fun d => !d.routeMode && !d.halted && decide (s.tickOf d < b)) then s else s.admitBatch dev n) s

/-- KRYTLINK_PACKET_DELIVER: in ROUTE mode the oldest packet of a flow reaches its destination (R265, R269). -/
def execKrytlinkPacketDeliver (src : Dev) (dst : Dev) (s : State) : Res :=
  deviceEvent src (fun s =>
    match s.flows.find? fun p => p.src == src && p.dst == dst with
    | some p => if (s.dev src).routeMode then deliverAll false [p] s else s
    | none => s) s

/-! ### Flows that stop (14 R263, R266-R271) -/

/-- CLOCK_OFFSET_EXCEEDED: in TICK mode the device stops transmitting (R268). -/
def execClockOffsetExceeded (dev : Dev) (s : State) : Res :=
  deviceEvent dev (fun s =>
    if (s.dev dev).routeMode then s else State.linksDown s (s.onDev dev fun d => { d with halted := true })) s

/-- PORT_FAILURE: KPORT shows it, and every flow that has no path left stops (R263, R267, R269). -/
def execPortFailure (dev : Dev) (port : BitVec 5) (s : State) : Res :=
  deviceEvent dev (fun s =>
    State.linksDown s (s.onDev dev fun d => { d.setReg (0x30100 + 8 * port.toNat) 1 with failures := d.failures ++ [port.toNat] })) s

/-! ### The host link (23 R411, R418) -/

/-- A byte range of device memory, by its direct-window offset on a device, reaches a secure range. -/
def Device.rangeSecure (d : Device) (addr n : Nat) : Bool :=
  (List.range n).any fun k => d.regionSecure (d.seen.toNat * 2 ^ 42 + addr + k)

/-- Every write of the host to the device's memory has been admitted: what follows it in PCI Express order is behind it (R411). -/
def State.posted (s : State) (dev : Dev) : Bool := s.admQ.all fun x => x.gid != hostGid dev

/-- The runs of a byte range that stay within aligned 256 bytes. -/
def lineRuns (addr : Nat) (data : List Byte) : List (Nat × List Byte) :=
  if data.isEmpty then []
  else (List.range ((addr + data.length - 1) / 256 - addr / 256 + 1)).map fun k =>
    let lo := max addr (256 * (addr / 256 + k))
    (lo, (data.drop (lo - addr)).take (256 * (addr / 256 + k) + 256 - lo))

/-- HOST_BAR2_WRITE: a store of the host unit, line by line, which joins rounds of its homes behind the host's earlier ones, and is widened to the
device at its admission; into a secure range it is dropped and counted. (DESIGN CHOICE, log 70) -/
def execHostBar2Write (dev : Dev) (addr : Nat) (data : List Byte) (s : State) : Res :=
  deviceEvent dev (fun s =>
    if 2 ^ 39 < addr + data.length then s
    else if (s.dev dev).rangeSecure addr data.length then s.onDev dev Device.violation
    else
      (lineRuns addr data).foldl (fun s e =>
        let x : Access := { scalarAccess (hostGid dev) .write 0 (dev.toNat * 2 ^ 42 + e.1) e.2 none with carrier := some (3, 0) }
        if s.prompt then s.admitPlain x [] else { s with admQ := s.admQ ++ [x] }) s) s

/-- HOST_BAR2_READ: what the host reads; all ones from a secure range. -/
def execHostBar2Read (dev : Dev) (addr : Nat) (len : Nat) (s : State) : Res :=
  deviceEvent dev (fun s =>
    if 2 ^ 39 < addr + len ∨ !s.posted dev then s
    else
      let secret := (s.dev dev).rangeSecure addr len
      let s := if secret then s else s.scrubRun (dev.toNat * 2 ^ 42 + addr) len
      let bytes := if secret then List.replicate len 0xFF else s.plainBytes (hostGid dev) (dev.toNat * 2 ^ 42 + addr) len
      s.onDev dev fun d => { d with hostData := bytes }) s

/-! ### Register writes (23 R413-R416, R421) -/

/-- A write of a device register by a master, with what it does to the flows; the host's arrives behind its earlier writes (R411, R413). -/
def masterEvent (dev : Dev) (master : Master) (off : Nat) (value : Word) (s : State) : Res :=
  deviceEvent dev (fun s => if master = .host ∧ !s.posted dev then s else s.registerWrite dev master off value) s

/-- CLAIM: a master names itself (R416). -/
def execClaim (dev : Dev) (master : Master) (value : Word) (s : State) : Res :=
  masterEvent dev master 0x1008 value s
/-- CLAIM_HANDOVER: the owner names its successor (R416). -/
def execClaimHandover (dev : Dev) (master : Master) (value : Word) (s : State) : Res :=
  masterEvent dev master 0x1008 value s
/-- DEVRESET (R413). -/
def execDevreset (dev : Dev) (master : Master) (value : Word) (s : State) : Res :=
  masterEvent dev master 0x1010 value s
/-- SUBMIT (R413, 19 R335). -/
def execSubmit (dev : Dev) (master : Master) (value : Word) (s : State) : Res :=
  masterEvent dev master 0x2000 value s
/-- BOOTSRC (R421). -/
def execBootsrc (dev : Dev) (master : Master) (value : Word) (s : State) : Res :=
  masterEvent dev master 0x90000 value s
/-- BOOTDONE (R419). -/
def execBootdone (dev : Dev) (master : Master) (value : Word) (s : State) : Res :=
  masterEvent dev master 0x90008 value s
/-- DEVICE_REGISTER_WRITE: an aligned 8-byte write (R413). -/
def execDeviceRegisterWrite (dev : Dev) (master : Master) (off : Nat) (value : Word) (s : State) : Res :=
  if off % 8 = 0 then masterEvent dev master off value s else deviceEvent dev id s

/-! ### Boot (23 R419-R422) -/

/-- DEVICE_RESET: a PCI Express conventional reset (R419). -/
def execDeviceReset (dev : Dev) (s : State) : Res := deviceEvent dev (fun s => State.linksDown s (s.resetDevice dev 0)) s

/-- BOOT_SOURCE_TIMEOUT: no write of BOOTSRC, so the source is the network (R419). -/
def execBootSourceTimeout (dev : Dev) (s : State) : Res :=
  deviceEvent dev (fun s => s.onDev dev fun d => if d.boot = .choosing then { d with boot := .fetching false } else d) s

/-- A little-endian field of an image. -/
def imageField (image : List Byte) (off n : Nat) : Nat := fromLe ((image.drop off).take n)

/-- The checks of an image against the fused key hash and the fused counter, in the order of R422: the reason of the first that fails
(R420). (DESIGN CHOICE, log 66) -/
def imageFault (keyHash : List Byte) (image : List Byte) (fused : Nat) : Option Nat :=
  let len := imageField image 8 4
  let entry := imageField image 16 8
  if image.length < 256 ∨ imageField image 0 8 ≠ 0x00004F580009B007 ∨ len < 4096 ∨ 2 ^ 24 < len ∨ image.length < len ∨
      entry % 8 ≠ 0 ∨ len ≤ entry ∨ 2 ≤ imageField image 24 8 ∨ imageField image 129 31 ≠ 0 then some 3
  else if sha384 ((image.drop 32).take 97) ≠ keyHash then some 4
  else if !signatureOk ((image.drop 32).take 97) ((image.drop 160).take 96) (image.take 160 ++ (image.take len).drop 256) then some 5
  else if imageField image 12 4 < fused then some 6
  else none

/-- The eight system cores start the image (R419); what the boot ROM leaves in their registers is not stated (DESIGN CHOICE, log 3). -/
def State.startCores (s : State) (n : Dev) (entry : Nat) : State :=
  (List.range 8).foldl (fun s k =>
    let g : Gid := 2#2 ++ n ++ BitVec.ofNat 8 k
    { s.setUnit { Unit.atReset g with
        s := (freeRegs s.free).set 0 0, run := .running, pc := BitVec.ofNat 64 entry,
        xbase := Config.freeWord (s.free + 64) &&& 0x0000FFFFFFFC0000,
        tvec := Config.freeWord (s.free + 65) &&& 0xFFFFFFFFFFFFFFF8, tsave := Config.freeWord (s.free + 66) &&& 0xFFFFFFFFFFFFFE00 }
      with free := s.free + freeSpan }) s

/-- BOOT_FETCH_COMPLETE: the fetch ends, with the image or an error, and the image is checked and started (R419, R420, R422). -/
def execBootFetchComplete (dev : Dev) (fetched : Option (List Byte)) (selfTest : Bool) (s : State) : Res :=
  deviceEvent dev (fun s =>
    match (s.dev dev).boot, fetched with
    | .fetching host, none => s.bootFailed dev host 2
    | .fetching host, some image =>
      let s := (s.masterWrite (dev.toNat * 2 ^ 42) (image.take (2 ^ 24))).onDev dev fun d => { d with image := image }
      match imageFault (Config.keyHash dev) image (fld ((s.dev dev).reg 0x90010) 32 32) with
      | some r => s.bootFailed dev host r
      | none =>
        if !selfTest then s.bootFailed dev host 7
        else
          let raise := if imageField image 24 8 = 1 then some (imageField image 12 4) else none
          (s.onDev dev fun d => { d with boot := .started host raise }).startCores dev (imageField image 16 8)
    | _, _ => s) s

/-- BOOT_NETWORK_TIMEOUT (R422, reason 0x01). -/
def execBootNetworkTimeout (dev : Dev) (s : State) : Res :=
  deviceEvent dev (fun s => match (s.dev dev).boot with | .fetching false => s.bootFailed dev false 1 | _ => s) s

/-- BOOT_IMAGE_TIMEOUT (R422, reason 0x08). -/
def execBootImageTimeout (dev : Dev) (s : State) : Res :=
  deviceEvent dev (fun s => match (s.dev dev).boot with | .started host _ => s.bootFailed dev host 8 | _ => s) s

/-! ### Power (23 R423) -/

/-- POWER_CAP_OVERSHOOT: MSI-X vector 2. -/
def execPowerCapOvershoot (dev : Dev) (s : State) : Res :=
  deviceEvent dev (fun s => s.onDev dev fun d => { d with msix := d.msix ++ [2] }) s
/-- THERMAL_THROTTLE: as the cap exceeded. -/
def execThermalThrottle (dev : Dev) (s : State) : Res := deviceEvent dev (fun s => s.onDev dev fun d => { d with throttle := true }) s
/-- THERMAL_TRIP: the device resets at once, with the cause in BOOTSTAT. -/
def execThermalTrip (dev : Dev) (s : State) : Res := deviceEvent dev (fun s => State.linksDown s (s.resetDevice dev 1)) s
/-- POWER_CAP_EXCEEDED: M and V starts of free-mode quires are delayed from now on (DESIGN CHOICE, log 100). -/
def execPowerCapExceeded (dev : Dev) (s : State) : Res := deviceEvent dev (fun s => s.onDev dev fun d => { d with throttle := true }) s
/-- POWER_CAP_CLEARED: the delay ends. -/
def execPowerCapCleared (dev : Dev) (s : State) : Res := deviceEvent dev (fun s => s.onDev dev fun d => { d with throttle := false }) s

/-! ### The debug port and the owner (21 R397, R403, R405) -/

/-- The master owns the device (23 R416). -/
def State.owns (s : State) (n : Dev) (m : Master) : Bool := Master.id m != 0 && (s.dev n).owner == Master.id m

/-- DEBUG_STOP: the owner stops a quire through the debug port (R397, 23 R412). (DEDUCED, log 69) -/
def execDebugStop (master : Master) (g : Gid) (s : State) : Res :=
  unitEvent g (fun s =>
    if master == .debug && s.owns (gidDev g) master && !s.cur.isCore then { s with cur := { s.cur with debug := .stopped } } else s) s

/-- The quire stands still under the debug port, and a step of it may begin. -/
def Unit.stepReady (u : Unit) : Bool :=
  match u.debug with
  | .off => false
  | .stopped => true
  | .step engine _ _ nums => u.stepOver && (!engine || u.pushesDone nums)

/-- DEBUG_STEP: a stopped quire executes one instruction (R397). -/
def execDebugStep (master : Master) (g : Gid) (engineStep : Bool) (s : State) : Res :=
  unitEvent g (fun s =>
    let u := s.cur
    if master == .debug && s.owns (gidDev g) master && !u.isCore && u.stepReady then
      { s with cur := { u with debug := .step engineStep u.executed u.tlevel u.nextNum } }
    else s) s

/-- DEBUG_RESUME: the owner resumes a sequencer that HALT or the debug port stopped, or restarts a system core that stopped (R394, R403). -/
def execDebugResume (master : Master) (g : Gid) (s : State) : Res :=
  unitEvent g (fun s =>
    let u := s.cur
    if !s.owns (gidDev g) master then s
    else
      let run := if u.run = .halted ∨ (u.run = .dead ∧ u.isCore) then .running else u.run
      { s with cur := { u with debug := .off, run := run } }) s

/-- OWNER_KILL: the owner kills a task (19 R334, 21 R395, R405). -/
def execOwnerKill (dev : Dev) (master : Master) (id : BitVec 32) (s : State) : Res :=
  deviceEvent dev (fun s =>
    match (s.dev dev).task? id with
    | none => s
    | some t =>
      if !s.owns dev master || t.state == .completed || t.state == .killed || t.state == .rejected then s
      else s.killTask dev id 0x12 none (List.replicate 7 0)) s

end Sys2Proof.Machine
end

