-- ==== Sys2Proof/Machine/Vec.lean ====
section
/-! DEFINITION. Class 6, vector operations (08 R178-R183): each word pushes a command (06 R127); what the command does once it starts is in VecEngine. -/
namespace Sys2Proof.Machine
open Sys2Proof

/-- VADD (R179). -/
def execVadd (h : EHead) (mk : MReg) (f : BitVec 4) (a b c : Reg) (s : State) : Res :=
  execPush (.vadd h mk f a b c) s

/-- VSUB (R179). -/
def execVsub (h : EHead) (mk : MReg) (f : BitVec 4) (a b c : Reg) (s : State) : Res :=
  execPush (.vsub h mk f a b c) s

/-- VMUL (R179). -/
def execVmul (h : EHead) (mk : MReg) (f : BitVec 4) (a b c : Reg) (s : State) : Res :=
  execPush (.vmul h mk f a b c) s

/-- VFMA (R179). -/
def execVfma (h : EHead) (mk : MReg) (f : BitVec 4) (a b c : Reg) (s : State) : Res :=
  execPush (.vfma h mk f a b c) s

/-- VFNMA (R179). -/
def execVfnma (h : EHead) (mk : MReg) (f : BitVec 4) (a b c : Reg) (s : State) : Res :=
  execPush (.vfnma h mk f a b c) s

/-- VMIN (R179). -/
def execVmin (h : EHead) (mk : MReg) (f : BitVec 4) (a b c : Reg) (s : State) : Res :=
  execPush (.vmin h mk f a b c) s

/-- VMAX (R179). -/
def execVmax (h : EHead) (mk : MReg) (f : BitVec 4) (a b c : Reg) (s : State) : Res :=
  execPush (.vmax h mk f a b c) s

/-- VABS (R179). -/
def execVabs (h : EHead) (mk : MReg) (f : BitVec 4) (a b : Reg) (s : State) : Res :=
  execPush (.vabs h mk f a b) s

/-- VNEG (R179). -/
def execVneg (h : EHead) (mk : MReg) (f : BitVec 4) (a b : Reg) (s : State) : Res :=
  execPush (.vneg h mk f a b) s

/-- VDIV (R179). -/
def execVdiv (h : EHead) (mk : MReg) (f : BitVec 4) (a b c : Reg) (s : State) : Res :=
  execPush (.vdiv h mk f a b c) s

/-- VSQRT (R179). -/
def execVsqrt (h : EHead) (mk : MReg) (f : BitVec 4) (a b : Reg) (s : State) : Res :=
  execPush (.vsqrt h mk f a b) s

/-- VRSQ (R180). -/
def execVrsq (h : EHead) (mk : MReg) (f : BitVec 4) (a b : Reg) (s : State) : Res :=
  execPush (.vrsq h mk f a b) s

/-- VRCP (R180). -/
def execVrcp (h : EHead) (mk : MReg) (f : BitVec 4) (a b : Reg) (s : State) : Res :=
  execPush (.vrcp h mk f a b) s

/-- VEXP2 (R180). -/
def execVexp2 (h : EHead) (mk : MReg) (f : BitVec 4) (a b : Reg) (s : State) : Res :=
  execPush (.vexp2 h mk f a b) s

/-- VLOG2 (R180). -/
def execVlog2 (h : EHead) (mk : MReg) (f : BitVec 4) (a b : Reg) (s : State) : Res :=
  execPush (.vlog2 h mk f a b) s

/-- VAND (R181). -/
def execVand (h : EHead) (mk : MReg) (f : BitVec 4) (a b c : Reg) (s : State) : Res :=
  execPush (.vand h mk f a b c) s

/-- VOR (R181). -/
def execVor (h : EHead) (mk : MReg) (f : BitVec 4) (a b c : Reg) (s : State) : Res :=
  execPush (.vor h mk f a b c) s

/-- VXOR (R181). -/
def execVxor (h : EHead) (mk : MReg) (f : BitVec 4) (a b c : Reg) (s : State) : Res :=
  execPush (.vxor h mk f a b c) s

/-- VSHL (R181). -/
def execVshl (h : EHead) (mk : MReg) (f : BitVec 4) (a b c : Reg) (s : State) : Res :=
  execPush (.vshl h mk f a b c) s

/-- VSHR (R181). -/
def execVshr (h : EHead) (mk : MReg) (f : BitVec 4) (a b c : Reg) (s : State) : Res :=
  execPush (.vshr h mk f a b c) s

/-- VSAR (R181). -/
def execVsar (h : EHead) (mk : MReg) (f : BitVec 4) (a b c : Reg) (s : State) : Res :=
  execPush (.vsar h mk f a b c) s

/-- VCEQ (R182). -/
def execVceq (h : EHead) (mk : MReg) (f : BitVec 4) (a : MReg) (b c : Reg) (s : State) : Res :=
  execPush (.vceq h mk f a b c) s

/-- VCLT (R182). -/
def execVclt (h : EHead) (mk : MReg) (f : BitVec 4) (a : MReg) (b c : Reg) (s : State) : Res :=
  execPush (.vclt h mk f a b c) s

/-- VCLE (R182). -/
def execVcle (h : EHead) (mk : MReg) (f : BitVec 4) (a : MReg) (b c : Reg) (s : State) : Res :=
  execPush (.vcle h mk f a b c) s

/-- VSEL (R183). -/
def execVsel (h : EHead) (mk : MReg) (f : BitVec 4) (a b c : Reg) (s : State) : Res :=
  execPush (.vsel h mk f a b c) s

/-- VMOV (R183). -/
def execVmov (h : EHead) (mk : MReg) (f : BitVec 4) (a b : Reg) (s : State) : Res :=
  execPush (.vmov h mk f a b) s

/-- VMOVS (R183). -/
def execVmovs (h : EHead) (mk : MReg) (f : BitVec 4) (a b : Reg) (s : State) : Res :=
  execPush (.vmovs h mk f a b) s

/-- VIOTA (R183). -/
def execViota (h : EHead) (mk : MReg) (f : BitVec 4) (a b : Reg) (s : State) : Res :=
  execPush (.viota h mk f a b) s

/-- VCLAMP (R183). -/
def execVclamp (h : EHead) (mk : MReg) (f : BitVec 4) (a b c : Reg) (s : State) : Res :=
  execPush (.vclamp h mk f a b c) s

/-- VADDS (R181). -/
def execVadds (h : EHead) (mk : MReg) (f : BitVec 4) (a b c : Reg) (s : State) : Res :=
  execPush (.vadds h mk f a b c) s

/-- VMULH (R181). -/
def execVmulh (h : EHead) (mk : MReg) (f : BitVec 4) (a b c : Reg) (s : State) : Res :=
  execPush (.vmulh h mk f a b c) s

end Sys2Proof.Machine
end

