-- ==== Sys2Proof/Machine/Vxf.lean ====
section
/-! DEFINITION. Class 7, vector transfer (08 R184-R195): each word pushes a command (06 R127); what the command does once it starts is in VecEngine. -/
namespace Sys2Proof.Machine
open Sys2Proof

/-- VCVT (R185). -/
def execVcvt (h : EHead) (mk : MReg) (f : BitVec 4) (a b : Reg) (src : BitVec 4) (p : BitVec 2) (s : State) : Res :=
  execPush (.vcvt h mk f a b src p) s

/-- VPACK (R186). -/
def execVpack (h : EHead) (f : BitVec 4) (a b c : Reg) (s : State) : Res :=
  execPush (.vpack h f a b c) s

/-- VUNPK (R186). -/
def execVunpk (h : EHead) (f : BitVec 4) (a b c : Reg) (s : State) : Res :=
  execPush (.vunpk h f a b c) s

/-- VPERM (R187). -/
def execVperm (h : EHead) (mk : MReg) (f : BitVec 4) (a b c : Reg) (s : State) : Res :=
  execPush (.vperm h mk f a b c) s

/-- VGATHS (R189). -/
def execVgaths (h : EHead) (oc : BitVec 4) (mk : MReg) (f : BitVec 4) (a : Reg) (db : DReg) (c : Reg) (s : State) : Res :=
  execPush (.vgaths h oc mk f a db c) s

/-- VSCATS (R189). -/
def execVscats (h : EHead) (oc : BitVec 4) (mk : MReg) (f : BitVec 4) (da : DReg) (b c : Reg) (s : State) : Res :=
  execPush (.vscats h oc mk f da b c) s

/-- VRED (R191). -/
def execVred (h : EHead) (mk : MReg) (f : BitVec 4) (a b : Reg) (op : BitVec 3) (reply : Bool) (s : State) : Res :=
  execPush (.vred h mk f a b op reply) s

/-- VSCAN (R192). -/
def execVscan (h : EHead) (mk : MReg) (f : BitVec 4) (a b : Reg) (op : BitVec 2) (s : State) : Res :=
  execPush (.vscan h mk f a b op) s

/-- VTOPK (R193). -/
def execVtopk (h : EHead) (mk : MReg) (f : BitVec 4) (a b k : Reg) (s : State) : Res :=
  execPush (.vtopk h mk f a b k) s

/-- VCMPR (R194). -/
def execVcmpr (h : EHead) (mk : MReg) (f : BitVec 4) (a b : Reg) (s : State) : Res :=
  execPush (.vcmpr h mk f a b) s

/-- VEXPD (R194). -/
def execVexpd (h : EHead) (mk : MReg) (f : BitVec 4) (a b : Reg) (s : State) : Res :=
  execPush (.vexpd h mk f a b) s

/-- VLD (R190). -/
def execVld (h : EHead) (oc : BitVec 4) (mk : MReg) (f : BitVec 4) (a : Reg) (db : DReg) (c : Reg) (s : State) : Res :=
  execPush (.vld h oc mk f a db c) s

/-- VST (R190). -/
def execVst (h : EHead) (oc : BitVec 4) (mk : MReg) (f : BitVec 4) (da : DReg) (b c : Reg) (s : State) : Res :=
  execPush (.vst h oc mk f da b c) s

/-- VLDX (R190). -/
def execVldx (h : EHead) (oc : BitVec 4) (mk : MReg) (f : BitVec 4) (a : Reg) (db : DReg) (c : Reg) (s : State) : Res :=
  execPush (.vldx h oc mk f a db c) s

/-- MAND (R195). -/
def execMand (h : EHead) (a b c : MReg) (s : State) : Res :=
  execPush (.mand h a b c) s

/-- MOR (R195). -/
def execMor (h : EHead) (a b c : MReg) (s : State) : Res :=
  execPush (.mor h a b c) s

/-- MNOT (R195). -/
def execMnot (h : EHead) (a b : MReg) (s : State) : Res :=
  execPush (.mnot h a b) s

/-- MPOPC (R195). -/
def execMpopc (h : EHead) (b : MReg) (s : State) : Res :=
  execPush (.mpopc h b) s

end Sys2Proof.Machine
end

