-- ==== Sys2Proof/Machine/Dispatch.lean ====
section
/-! DEFINITION. One arm for each instruction and event of spec/opcode_table.json, each one direct call of its meaning. -/
namespace Sys2Proof.Machine
open Sys2Proof

/-- What an instruction does to the unit whose turn it is, and what an event does to the shelf. -/
def exec (i : Instr) (s : State) : Host.Outcome State Fault Refusal :=
  match i with
  -- class 0, integer operations
  | .add w a b c => Sys2Proof.Machine.execAdd w a b c s
  | .sub w a b c => Sys2Proof.Machine.execSub w a b c s
  | .mul w a b c => Sys2Proof.Machine.execMul w a b c s
  | .mulh w a b c => Sys2Proof.Machine.execMulh w a b c s
  | .mulhu w a b c => Sys2Proof.Machine.execMulhu w a b c s
  | .div w a b c => Sys2Proof.Machine.execDiv w a b c s
  | .divu w a b c => Sys2Proof.Machine.execDivu w a b c s
  | .rem w a b c => Sys2Proof.Machine.execRem w a b c s
  | .remu w a b c => Sys2Proof.Machine.execRemu w a b c s
  | .andI w a b c => Sys2Proof.Machine.execAndI w a b c s
  | .orI w a b c => Sys2Proof.Machine.execOrI w a b c s
  | .xorI w a b c => Sys2Proof.Machine.execXorI w a b c s
  | .andn w a b c => Sys2Proof.Machine.execAndn w a b c s
  | .shl w a b c => Sys2Proof.Machine.execShl w a b c s
  | .shr w a b c => Sys2Proof.Machine.execShr w a b c s
  | .sar w a b c => Sys2Proof.Machine.execSar w a b c s
  | .ror w a b c => Sys2Proof.Machine.execRor w a b c s
  | .minI w a b c => Sys2Proof.Machine.execMinI w a b c s
  | .maxI w a b c => Sys2Proof.Machine.execMaxI w a b c s
  | .minu w a b c => Sys2Proof.Machine.execMinu w a b c s
  | .maxu w a b c => Sys2Proof.Machine.execMaxu w a b c s
  | .seq w a b c => Sys2Proof.Machine.execSeq w a b c s
  | .sne w a b c => Sys2Proof.Machine.execSne w a b c s
  | .slt w a b c => Sys2Proof.Machine.execSlt w a b c s
  | .sltu w a b c => Sys2Proof.Machine.execSltu w a b c s
  | .sel w a b c d => Sys2Proof.Machine.execSel w a b c d s
  | .clz w a b => Sys2Proof.Machine.execClz w a b s
  | .ctz w a b => Sys2Proof.Machine.execCtz w a b s
  | .popc w a b => Sys2Proof.Machine.execPopc w a b s
  | .bfx w a b c d => Sys2Proof.Machine.execBfx w a b c d s
  | .bfi w a b c d => Sys2Proof.Machine.execBfi w a b c d s
  | .madd w a b c d => Sys2Proof.Machine.execMadd w a b c d s
  -- class 1, immediates
  | .addi w a b imm => Sys2Proof.Machine.execAddi w a b imm s
  | .andi a b imm => Sys2Proof.Machine.execAndi a b imm s
  | .ori a b imm => Sys2Proof.Machine.execOri a b imm s
  | .xori a b imm => Sys2Proof.Machine.execXori a b imm s
  | .shli w a b amt => Sys2Proof.Machine.execShli w a b amt s
  | .shri w a b amt => Sys2Proof.Machine.execShri w a b amt s
  | .sari w a b amt => Sys2Proof.Machine.execSari w a b amt s
  | .slti a b imm => Sys2Proof.Machine.execSlti a b imm s
  | .sltiu a b imm => Sys2Proof.Machine.execSltiu a b imm s
  | .movi a imm => Sys2Proof.Machine.execMovi a imm s
  | .movhi a b imm => Sys2Proof.Machine.execMovhi a b imm s
  | .muli w a b imm => Sys2Proof.Machine.execMuli w a b imm s
  | .lea a imm => Sys2Proof.Machine.execLea a imm s
  -- class 2, floating point
  | .fadd single rm a b c => Sys2Proof.Machine.execFadd single rm a b c s
  | .fsub single rm a b c => Sys2Proof.Machine.execFsub single rm a b c s
  | .fmul single rm a b c => Sys2Proof.Machine.execFmul single rm a b c s
  | .ffma single rm a b c d => Sys2Proof.Machine.execFfma single rm a b c d s
  | .fdiv single rm a b c => Sys2Proof.Machine.execFdiv single rm a b c s
  | .fsqrt single rm a b => Sys2Proof.Machine.execFsqrt single rm a b s
  | .fmin single a b c => Sys2Proof.Machine.execFmin single a b c s
  | .fmax single a b c => Sys2Proof.Machine.execFmax single a b c s
  | .fceq single a b c => Sys2Proof.Machine.execFceq single a b c s
  | .fclt single a b c => Sys2Proof.Machine.execFclt single a b c s
  | .fcle single a b c => Sys2Proof.Machine.execFcle single a b c s
  | .fcvti sat single rm a b => Sys2Proof.Machine.execFcvti sat single rm a b s
  | .fcvtf single rm a b kind => Sys2Proof.Machine.execFcvtf single rm a b kind s
  | .fcvtw sat single rm a b => Sys2Proof.Machine.execFcvtw sat single rm a b s
  | .fabs single a b => Sys2Proof.Machine.execFabs single a b s
  | .fneg single a b => Sys2Proof.Machine.execFneg single a b s
  | .fclass single a b => Sys2Proof.Machine.execFclass single a b s
  -- class 3, control transfer
  | .br off => Sys2Proof.Machine.execBr off s
  | .beq a b off => Sys2Proof.Machine.execBeq a b off s
  | .bne a b off => Sys2Proof.Machine.execBne a b off s
  | .blt a b off => Sys2Proof.Machine.execBlt a b off s
  | .bge a b off => Sys2Proof.Machine.execBge a b off s
  | .bltu a b off => Sys2Proof.Machine.execBltu a b off s
  | .bgeu a b off => Sys2Proof.Machine.execBgeu a b off s
  | .call a off => Sys2Proof.Machine.execCall a off s
  | .callr a b => Sys2Proof.Machine.execCallr a b s
  | .ret b => Sys2Proof.Machine.execRet b s
  | .jmpr b => Sys2Proof.Machine.execJmpr b s
  | .loop cnt len imm base => Sys2Proof.Machine.execLoop cnt len imm base s
  | .loopx cnt len imm base => Sys2Proof.Machine.execLoopx cnt len imm base s
  | .nop => Sys2Proof.Machine.execNop s
  | .brk code => Sys2Proof.Machine.execBrk code s
  -- class 4, memory
  | .ld size sx byp oc a b imm => Sys2Proof.Machine.execLd size sx byp oc a b imm s
  | .st size oc a b imm => Sys2Proof.Machine.execSt size oc a b imm s
  | .lds size sx oc a b imm => Sys2Proof.Machine.execLds size sx oc a b imm s
  | .sts size oc a b imm => Sys2Proof.Machine.execSts size oc a b imm s
  | .fence sem scope mask => Sys2Proof.Machine.execFence sem scope mask s
  | .l1inv b c => Sys2Proof.Machine.execL1inv b c s
  | .pref oc b c => Sys2Proof.Machine.execPref oc b c s
  | .bankmode a b c => Sys2Proof.Machine.execBankmode a b c s
  | .dset da b q => Sys2Proof.Machine.execDset da b q s
  | .dget a db q => Sys2Proof.Machine.execDget a db q s
  | .dld oc da b => Sys2Proof.Machine.execDld oc da b s
  -- class 5, synchronisation
  | .aadd w sem scope oc mask a b c => Sys2Proof.Machine.execAadd w sem scope oc mask a b c s
  | .aand w sem scope oc mask a b c => Sys2Proof.Machine.execAand w sem scope oc mask a b c s
  | .aor w sem scope oc mask a b c => Sys2Proof.Machine.execAor w sem scope oc mask a b c s
  | .axor w sem scope oc mask a b c => Sys2Proof.Machine.execAxor w sem scope oc mask a b c s
  | .amin w sem scope oc mask a b c => Sys2Proof.Machine.execAmin w sem scope oc mask a b c s
  | .amax w sem scope oc mask a b c => Sys2Proof.Machine.execAmax w sem scope oc mask a b c s
  | .aminu w sem scope oc mask a b c => Sys2Proof.Machine.execAminu w sem scope oc mask a b c s
  | .amaxu w sem scope oc mask a b c => Sys2Proof.Machine.execAmaxu w sem scope oc mask a b c s
  | .aswap w sem scope oc mask a b c => Sys2Proof.Machine.execAswap w sem scope oc mask a b c s
  | .acas w sem scope oc mask a b c d => Sys2Proof.Machine.execAcas w sem scope oc mask a b c d s
  | .afadd single sem scope oc mask a b c => Sys2Proof.Machine.execAfadd single sem scope oc mask a b c s
  | .barr scope mask a b c => Sys2Proof.Machine.execBarr scope mask a b c s
  | .bwait scope mask a b c => Sys2Proof.Machine.execBwait scope mask a b c s
  | .mwait scope mask a b c => Sys2Proof.Machine.execMwait scope mask a b c s
  | .msig scope mask b c => Sys2Proof.Machine.execMsig scope mask b c s
  | .rinit a b c => Sys2Proof.Machine.execRinit a b c s
  | .rclaim a b => Sys2Proof.Machine.execRclaim a b s
  | .rwaite a b c => Sys2Proof.Machine.execRwaite a b c s
  | .rcommit mask b c => Sys2Proof.Machine.execRcommit mask b c s
  | .rwaitf mask a b => Sys2Proof.Machine.execRwaitf mask a b s
  | .rtake b c => Sys2Proof.Machine.execRtake b c s
  | .rstat a b k => Sys2Proof.Machine.execRstat a b k s
  | .twait a q => Sys2Proof.Machine.execTwait a q s
  | .tgive q => Sys2Proof.Machine.execTgive q s
  | .ypop a => Sys2Proof.Machine.execYpop a s
  | .ypeek a b => Sys2Proof.Machine.execYpeek a b s
  -- class 6, vector
  | .vadd h mk f a b c => Sys2Proof.Machine.execVadd h mk f a b c s
  | .vsub h mk f a b c => Sys2Proof.Machine.execVsub h mk f a b c s
  | .vmul h mk f a b c => Sys2Proof.Machine.execVmul h mk f a b c s
  | .vfma h mk f a b c => Sys2Proof.Machine.execVfma h mk f a b c s
  | .vfnma h mk f a b c => Sys2Proof.Machine.execVfnma h mk f a b c s
  | .vmin h mk f a b c => Sys2Proof.Machine.execVmin h mk f a b c s
  | .vmax h mk f a b c => Sys2Proof.Machine.execVmax h mk f a b c s
  | .vabs h mk f a b => Sys2Proof.Machine.execVabs h mk f a b s
  | .vneg h mk f a b => Sys2Proof.Machine.execVneg h mk f a b s
  | .vdiv h mk f a b c => Sys2Proof.Machine.execVdiv h mk f a b c s
  | .vsqrt h mk f a b => Sys2Proof.Machine.execVsqrt h mk f a b s
  | .vrsq h mk f a b => Sys2Proof.Machine.execVrsq h mk f a b s
  | .vrcp h mk f a b => Sys2Proof.Machine.execVrcp h mk f a b s
  | .vexp2 h mk f a b => Sys2Proof.Machine.execVexp2 h mk f a b s
  | .vlog2 h mk f a b => Sys2Proof.Machine.execVlog2 h mk f a b s
  | .vand h mk f a b c => Sys2Proof.Machine.execVand h mk f a b c s
  | .vor h mk f a b c => Sys2Proof.Machine.execVor h mk f a b c s
  | .vxor h mk f a b c => Sys2Proof.Machine.execVxor h mk f a b c s
  | .vshl h mk f a b c => Sys2Proof.Machine.execVshl h mk f a b c s
  | .vshr h mk f a b c => Sys2Proof.Machine.execVshr h mk f a b c s
  | .vsar h mk f a b c => Sys2Proof.Machine.execVsar h mk f a b c s
  | .vceq h mk f a b c => Sys2Proof.Machine.execVceq h mk f a b c s
  | .vclt h mk f a b c => Sys2Proof.Machine.execVclt h mk f a b c s
  | .vcle h mk f a b c => Sys2Proof.Machine.execVcle h mk f a b c s
  | .vsel h mk f a b c => Sys2Proof.Machine.execVsel h mk f a b c s
  | .vmov h mk f a b => Sys2Proof.Machine.execVmov h mk f a b s
  | .vmovs h mk f a b => Sys2Proof.Machine.execVmovs h mk f a b s
  | .viota h mk f a b => Sys2Proof.Machine.execViota h mk f a b s
  | .vclamp h mk f a b c => Sys2Proof.Machine.execVclamp h mk f a b c s
  | .vadds h mk f a b c => Sys2Proof.Machine.execVadds h mk f a b c s
  | .vmulh h mk f a b c => Sys2Proof.Machine.execVmulh h mk f a b c s
  -- class 7, vector transfer
  | .vcvt h mk f a b src p => Sys2Proof.Machine.execVcvt h mk f a b src p s
  | .vpack h f a b c => Sys2Proof.Machine.execVpack h f a b c s
  | .vunpk h f a b c => Sys2Proof.Machine.execVunpk h f a b c s
  | .vperm h mk f a b c => Sys2Proof.Machine.execVperm h mk f a b c s
  | .vgaths h oc mk f a db c => Sys2Proof.Machine.execVgaths h oc mk f a db c s
  | .vscats h oc mk f da b c => Sys2Proof.Machine.execVscats h oc mk f da b c s
  | .vred h mk f a b op reply => Sys2Proof.Machine.execVred h mk f a b op reply s
  | .vscan h mk f a b op => Sys2Proof.Machine.execVscan h mk f a b op s
  | .vtopk h mk f a b k => Sys2Proof.Machine.execVtopk h mk f a b k s
  | .vcmpr h mk f a b => Sys2Proof.Machine.execVcmpr h mk f a b s
  | .vexpd h mk f a b => Sys2Proof.Machine.execVexpd h mk f a b s
  | .vld h oc mk f a db c => Sys2Proof.Machine.execVld h oc mk f a db c s
  | .vst h oc mk f da b c => Sys2Proof.Machine.execVst h oc mk f da b c s
  | .vldx h oc mk f a db c => Sys2Proof.Machine.execVldx h oc mk f a db c s
  | .mand h a b c => Sys2Proof.Machine.execMand h a b c s
  | .mor h a b c => Sys2Proof.Machine.execMor h a b c s
  | .mnot h a b => Sys2Proof.Machine.execMnot h a b s
  | .mpopc h b => Sys2Proof.Machine.execMpopc h b s
  -- class 8, matrix
  | .mma h oc da db dc => Sys2Proof.Machine.execMma h oc da db dc s
  | .mmaz h oc da db dc => Sys2Proof.Machine.execMmaz h oc da db dc s
  | .mmac h oc fmt sat da db dc => Sys2Proof.Machine.execMmac h oc fmt sat da db dc s
  | .mmae h oc da db dc => Sys2Proof.Machine.execMmae h oc da db dc s
  | .mres h oc da db dc => Sys2Proof.Machine.execMres h oc da db dc s
  | .mbndLyr h oc da db dc => Sys2Proof.Machine.execMbndLyr h oc da db dc s
  | .mbndFirst h oc da db => Sys2Proof.Machine.execMbndFirst h oc da db s
  | .mbndSum h da db dc => Sys2Proof.Machine.execMbndSum h da db dc s
  | .mcomp h oc reloc da db dc => Sys2Proof.Machine.execMcomp h oc reloc da db dc s
  | .mmas h oc da db dc => Sys2Proof.Machine.execMmas h oc da db dc s
  | .mmab h oc da db dc => Sys2Proof.Machine.execMmab h oc da db dc s
  | .mzero h da => Sys2Proof.Machine.execMzero h da s
  | .mwr h oc da db => Sys2Proof.Machine.execMwr h oc da db s
  | .mrd h oc sat clr da db c => Sys2Proof.Machine.execMrd h oc sat clr da db c s
  | .mchk h oc row da db dc => Sys2Proof.Machine.execMchk h oc row da db dc s
  | .mjoinJoin h da => Sys2Proof.Machine.execMjoinJoin h da s
  | .mjoinLeave h da => Sys2Proof.Machine.execMjoinLeave h da s
  -- class 9, copy in
  | .cpin h oc reloc da db => Sys2Proof.Machine.execCpin h oc reloc da db s
  | .cprow h oc reloc oobz da db => Sys2Proof.Machine.execCprow h oc reloc oobz da db s
  | .cpexp h oc reloc da db => Sys2Proof.Machine.execCpexp h oc reloc da db s
  | .cpfill h oc reloc da b => Sys2Proof.Machine.execCpfill h oc reloc da b s
  | .scprobe h oc reloc da db c => Sys2Proof.Machine.execScprobe h oc reloc da db c s
  | .scrply h oc reloc da db c => Sys2Proof.Machine.execScrply h oc reloc da db c s
  -- class A, copy out
  | .cpout h oc reloc da db => Sys2Proof.Machine.execCpout h oc reloc da db s
  | .cpsct h oc reloc skip da db => Sys2Proof.Machine.execCpsct h oc reloc skip da db s
  | .cppack h oc reloc da db => Sys2Proof.Machine.execCppack h oc reloc da db s
  | .cpred h oc reloc op ord da db => Sys2Proof.Machine.execCpred h oc reloc op ord da db s
  | .cpcoll h oc kind arr da db => Sys2Proof.Machine.execCpcoll h oc kind arr da db s
  | .cpsend h oc db c => Sys2Proof.Machine.execCpsend h oc db c s
  | .cppost h oc da c => Sys2Proof.Machine.execCppost h oc da c s
  | .screc h oc reloc da db c => Sys2Proof.Machine.execScrec h oc reloc da db c s
  | .cpcnv h oc reloc da db => Sys2Proof.Machine.execCpcnv h oc reloc da db s
  -- class B, edge
  | .ebind h oc da => Sys2Proof.Machine.execEbind h oc da s
  | .erun h oc mode ord b => Sys2Proof.Machine.execErun h oc mode ord b s
  | .eswp h pa pb => Sys2Proof.Machine.execEswp h pa pb s
  | .efrnt h oc b => Sys2Proof.Machine.execEfrnt h oc b s
  -- class C, redundancy
  | .ndagree a b => Sys2Proof.Machine.execNdagree a b s
  | .sigrd met iso a n => Sys2Proof.Machine.execSigrd met iso a n s
  | .copen buffered off => Sys2Proof.Machine.execCopen buffered off s
  | .cclose => Sys2Proof.Machine.execCclose s
  | .katstat a k => Sys2Proof.Machine.execKatstat a k s
  -- class E, system
  | .trap n => Sys2Proof.Machine.execTrap n s
  | .eret => Sys2Proof.Machine.execEret s
  | .mfsr a idx => Sys2Proof.Machine.execMfsr a idx s
  | .mtsr idx b => Sys2Proof.Machine.execMtsr idx b s
  | .exit b => Sys2Proof.Machine.execExit b s
  | .yieldT a => Sys2Proof.Machine.execYieldT a s
  | .swap => Sys2Proof.Machine.execSwap s
  | .swapLoad b => Sys2Proof.Machine.execSwapLoad b s
  | .frame n => Sys2Proof.Machine.execFrame n s
  | .drain => Sys2Proof.Machine.execDrain s
  | .tlbinv scope a b => Sys2Proof.Machine.execTlbinv scope a b s
  | .spawn a b => Sys2Proof.Machine.execSpawn a b s
  | .depdec oc a b => Sys2Proof.Machine.execDepdec oc a b s
  | .depdecAll oc a => Sys2Proof.Machine.execDepdecAll oc a s
  | .halt => Sys2Proof.Machine.execHalt s
  | .clock a => Sys2Proof.Machine.execClock a s
  | .kill a b => Sys2Proof.Machine.execKill a b s
  | .idle n => Sys2Proof.Machine.execIdle n s
  | .phase p => Sys2Proof.Machine.execPhase p s
  -- events
  | .instructionFetch g => Sys2Proof.Machine.execInstructionFetch g s
  | .engineCommandPush g word => Sys2Proof.Machine.execEngineCommandPush g word s
  | .instructionCommit g => Sys2Proof.Machine.execInstructionCommit g s
  | .framedStartMiss g q cycle => Sys2Proof.Machine.execFramedStartMiss g q cycle s
  | .commandSteal g owner q => Sys2Proof.Machine.execCommandSteal g owner q s
  | .commandRetire g q => Sys2Proof.Machine.execCommandRetire g q s
  | .classQueueLeave g index => Sys2Proof.Machine.execClassQueueLeave g index s
  | .homeAdmissionRound home picks => Sys2Proof.Machine.execHomeAdmissionRound home picks s
  | .horizonWiden write scope => Sys2Proof.Machine.execHorizonWiden write scope s
  | .l1CopyInstall g sector => Sys2Proof.Machine.execL1CopyInstall g sector s
  | .l1CopyDiscard g sector => Sys2Proof.Machine.execL1CopyDiscard g sector s
  | .claspRequestPerform g => Sys2Proof.Machine.execClaspRequestPerform g s
  | .pageWalkComplete g va => Sys2Proof.Machine.execPageWalkComplete g va s
  | .bankmodeChangeBegin g => Sys2Proof.Machine.execBankmodeChangeBegin g s
  | .bankmodeChangeEnd g => Sys2Proof.Machine.execBankmodeChangeEnd g s
  | .mwaitRecheck g => Sys2Proof.Machine.execMwaitRecheck g s
  | .idleTimeout g => Sys2Proof.Machine.execIdleTimeout g s
  | .plateLoadComplete g => Sys2Proof.Machine.execPlateLoadComplete g s
  | .trapTake g => Sys2Proof.Machine.execTrapTake g s
  | .containmentEvent g cause q tval => Sys2Proof.Machine.execContainmentEvent g cause q tval s
  | .katInject g unit row pass => Sys2Proof.Machine.execKatInject g unit row pass s
  | .replicaMeeting g => Sys2Proof.Machine.execReplicaMeeting g s
  | .meetingTimeout g => Sys2Proof.Machine.execMeetingTimeout g s
  | .ndagreeTimeout g => Sys2Proof.Machine.execNdagreeTimeout g s
  | .taskAccept dev => Sys2Proof.Machine.execTaskAccept dev s
  | .taskPlace dev id => Sys2Proof.Machine.execTaskPlace dev id s
  | .taskComplete dev id => Sys2Proof.Machine.execTaskComplete dev id s
  | .taskPreempt dev id => Sys2Proof.Machine.execTaskPreempt dev id s
  | .patrolScrub sector => Sys2Proof.Machine.execPatrolScrub sector s
  | .tickBoundary dev => Sys2Proof.Machine.execTickBoundary dev s
  | .tickBatchAdmit dev => Sys2Proof.Machine.execTickBatchAdmit dev s
  | .krytlinkPacketDeliver src dst => Sys2Proof.Machine.execKrytlinkPacketDeliver src dst s
  | .clockOffsetExceeded dev => Sys2Proof.Machine.execClockOffsetExceeded dev s
  | .portFailure dev port => Sys2Proof.Machine.execPortFailure dev port s
  | .hostBar2Write dev addr data => Sys2Proof.Machine.execHostBar2Write dev addr data s
  | .hostBar2Read dev addr len => Sys2Proof.Machine.execHostBar2Read dev addr len s
  | .claim dev master value => Sys2Proof.Machine.execClaim dev master value s
  | .claimHandover dev master value => Sys2Proof.Machine.execClaimHandover dev master value s
  | .devreset dev master value => Sys2Proof.Machine.execDevreset dev master value s
  | .submit dev master value => Sys2Proof.Machine.execSubmit dev master value s
  | .bootsrc dev master value => Sys2Proof.Machine.execBootsrc dev master value s
  | .bootdone dev master value => Sys2Proof.Machine.execBootdone dev master value s
  | .deviceRegisterWrite dev master off value => Sys2Proof.Machine.execDeviceRegisterWrite dev master off value s
  | .deviceReset dev => Sys2Proof.Machine.execDeviceReset dev s
  | .bootSourceTimeout dev => Sys2Proof.Machine.execBootSourceTimeout dev s
  | .bootFetchComplete dev fetched selfTest => Sys2Proof.Machine.execBootFetchComplete dev fetched selfTest s
  | .bootNetworkTimeout dev => Sys2Proof.Machine.execBootNetworkTimeout dev s
  | .bootImageTimeout dev => Sys2Proof.Machine.execBootImageTimeout dev s
  | .powerCapOvershoot dev => Sys2Proof.Machine.execPowerCapOvershoot dev s
  | .thermalThrottle dev => Sys2Proof.Machine.execThermalThrottle dev s
  | .thermalTrip dev => Sys2Proof.Machine.execThermalTrip dev s
  | .debugStop master g => Sys2Proof.Machine.execDebugStop master g s
  | .debugStep master g engineStep => Sys2Proof.Machine.execDebugStep master g engineStep s
  | .debugResume master g => Sys2Proof.Machine.execDebugResume master g s
  | .ownerKill dev master id => Sys2Proof.Machine.execOwnerKill dev master id s
  | .powerCapExceeded dev => Sys2Proof.Machine.execPowerCapExceeded dev s
  | .powerCapCleared dev => Sys2Proof.Machine.execPowerCapCleared dev s

end Sys2Proof.Machine
end

