-- ==== Sys2Proof/Machine/Step.lean ====
section
/-! DEFINITION. One step of the shelf: the agent that the agenda names, else the current unit (DESIGN CHOICE, log 4). -/
namespace Sys2Proof.Machine
open Sys2Proof

/-- A turn of the current unit: nothing while it does not run, a trap that waits, else the instruction at its PC. -/
def turn (s : State) : Host.Outcome State Fault Refusal :=
  if s.cur.issues then
    match s.fetched with
    | .run i => exec i (s.scrubFetch s.cur.pc)
    | .trap t => trapNow (s.scrubFetch s.cur.pc) t
  else rest s

/-- One step. -/
def step (s : State) : Host.Outcome State Fault Refusal :=
  match s.agenda with
  | .event e :: later => exec e { s with agenda := later }
  | .unit g :: later => if s.hasUnit g then turn ({ s with agenda := later }.switchTo g) else .fault (.notPermitted "no such unit")
  | [] => turn s

/-- The machine with the word `w` as the next one it fetches. -/
def State.withFetchWord (s : State) (_nbits w : Nat) : State := s.withWord (BitVec.ofNat 64 w)

end Sys2Proof.Machine
end

