-- ==== Sys2Proof/Safety.lean ====
section
/-! DEFINITION. The terms in which claims speak of a step: when an instruction executes normally, what it may change,
and what a run is. -/
namespace Sys2Proof.Machine
open Sys2Proof

/-- The step answers a next state. -/
def Answers (s : State) : Prop := ∃ t, step s = .next t

/-! ### When an instruction executes -/

/-- Nothing is under way around the sequencer: the machine takes every internal step by an event of the agenda (DESIGN CHOICE, log 4), or the
current unit has no command, and nothing travels or changes its mode. -/
structure State.Quiet (s : State) : Prop where
  engines : s.cur.inflight = []
  queues  : s.cur.queues.all (fun l => l.isEmpty) = true
  classes : s.cur.classQ = []
  flows   : s.flows = []
  banks   : ∀ e ∈ s.myDev.banks, e.2.begun = false

/-- The conditions under which instruction `i`, which reads the registers `rs` and `ds`, executes: it is no ILLOP word of a
system core (01 R16), no word that a loop body forbids (06 R139), the commit window has room (06 R124), no register read
awaits a load (06 R125), and every value read has landed, or in free mode lands while no engine has work (06 R123). -/
structure State.Executes (s : State) (i : Instr) (rs : List Reg) (ds : List DReg) : Prop where
  legal  : s.cur.isCore = true → coreIllopWord (encode i) = false
  inLoop : s.cur.bodyBreach i = false
  room   : s.cur.window.length < 256
  loaded : s.cur.awaits rs ds = false
  landed : s.cur.readyAt rs ds ≤ s.cur.time ∨ (s.cur.framed = false ∧ (s.prompt = true → s.cur.still = true ∧ s.flows = []))

/-- The further condition of an instruction that executes at the commit point (06 R125): every earlier one has completed and committed. -/
def State.AtCommit (s : State) : Prop := s.cur.window = []

/-- Instruction `i` executes, and leaves the machine as `P` says when its cycle passes; with that cycle the unit's engines and what travels
go on (`State.tick`), whose own doing is no part of the instruction's effect (06 R123). -/
def State.Ends (s : State) (i : Instr) (P : State → Prop) : Prop := ∃ t, exec i s = .next t.tick ∧ P t

/-! ### What a step may change -/

/-- The sequencer goes on with the next word, or at the end of a loop body with the next pass (06 R138). -/
def State.NextWord (s t : State) : Prop :=
  t.cur.pc = s.cur.advance.pc ∧ t.cur.lcount = s.cur.advance.lcount ∧ t.cur.lbody = s.cur.advance.lbody

/-- s[a] holds `v`, every other scalar register what it held; a write to s0 is ignored (01 R15). -/
def State.SetsReg (s t : State) (a : Reg) (v : Word) : Prop :=
  ∀ r, t.cur.rs r = if r = a ∧ a ≠ 0 then v else s.cur.rs r

/-- The instruction has its place in program order: where nothing stands before it and it takes one cycle it has committed, else it stands in
the window with the registers before it, until it has completed (06 R124, R125). -/
def State.Recorded (s t : State) : Prop :=
  (s.cur.window = [] ∧ t.cur.window = [] ∧ t.cur.committed = s.cur.committed + 1) ∨
    (t.cur.committed = s.cur.committed ∧ ∃ done, t.cur.time < done ∧ t.cur.window = s.cur.window ++
      [{ pc := s.cur.pc, before := s.cur.toSeqRegs, push := none, store := none, load := none, done := done }])

/-- Nothing but scalar registers, the PC, the loop registers, the window and the model's clocks has changed: no descriptor,
vector, mask or special register, no queue, no other unit, no device, and no byte of memory. -/
def State.OnlyScalars (s t : State) : Prop :=
  t = { s with
    clock := t.clock
    cur := { s.cur with
      s := t.cur.s, waits := t.cur.waits, ready := t.cur.ready, time := t.cur.time, justGiven := t.cur.justGiven,
      pc := t.cur.pc, lcount := t.cur.lcount, lbody := t.cur.lbody, window := t.cur.window,
      committed := t.cur.committed } } ∧
  t.clock + s.cur.time = s.clock + t.cur.time ∧ ∀ g a, t.plainByte g a = s.plainByte g a

/-- Every special register a program can read has the same value. -/
def State.SameSpecials (s t : State) : Prop :=
  t.cur.toSysRegs = s.cur.toSysRegs ∧ t.cur.fstat = s.cur.fstat ∧ t.cur.llimit = s.cur.llimit ∧
    t.cur.ftbase = s.cur.ftbase

/-- An instruction that writes s[a] and goes on: the whole of its effect. -/
def State.Wrote (s t : State) (a : Reg) (v : Word) : Prop :=
  s.SetsReg t a v ∧ s.NextWord t ∧ s.Recorded t ∧ s.OnlyScalars t

/-- Wherever it executes, instruction `i`, which reads `rs`, answers a next state in which s[a] holds the value `v` of the unit
before it, and nothing else is different. -/
def Gives (i : Instr) (rs : List Reg) (a : Reg) (v : Unit → Word) : Prop :=
  ∀ s : State, s.Executes i rs [] → s.Ends i fun t => s.Wrote t a (v s.cur)

/-- Instruction `i`, where it executes in state `s`, raises the trap `t` and does nothing else of its own; in free mode it may
have waited for the registers it reads. -/
def State.Raises (s : State) (i : Instr) (t : Trap) : Prop :=
  ∃ k, (s.cur.framed = true → k = 0) ∧ exec i s = .next ((s.pass k).raise t)

/-- Wherever the class 2 instruction `i` executes: where no flag it raises has its enable set, s[a] holds the result's bits and
the flags enter FSTAT; else FPEXC is raised with the flags in TVAL, and they enter FSTAT too (06 R146). -/
def GivesFlt (i : Instr) (rs : List Reg) (a : Reg) (r : Unit → Nat × Flags) : Prop :=
  ∀ s : State, s.Executes i rs [] →
    ((r s.cur).2 &&& s.cur.enables = 0 → s.Ends i fun t => s.SetsReg t a (BitVec.ofNat 64 (r s.cur).1) ∧
      t.cur.fstat = s.cur.fstat ||| (r s.cur).2.setWidth 64 ∧ s.NextWord t ∧ s.Recorded t ∧
      s.OnlyScalars { t with cur := { t.cur with fstat := s.cur.fstat } }) ∧
    ((r s.cur).2 &&& s.cur.enables ≠ 0 → ∃ k, (s.cur.framed = true → k = 0) ∧
      exec i s = .next (({ s.pass k with cur := (s.pass k).cur.retireFlags (r s.cur).2 } : State).raise
        (seqTrap .fpexc ((r s.cur).2.setWidth 64))))

/-- Every scalar register holds what it held. -/
def State.KeepsRegs (s t : State) : Prop := ∀ r, t.cur.rs r = s.cur.rs r

/-- Control goes to `target`; a word of an active loop's body that goes elsewhere ends the loop (06 R139). -/
def State.JumpsTo (s t : State) (target : Word) : Prop :=
  t.cur.pc = target ∧ t.cur.lcount = s.cur.lcount ∧
  t.cur.lbody = if s.cur.inBody s.cur.pc ∧ ¬ s.cur.inBody target then s.cur.lbody &&& 0x7FFFFFFFFFFFFFFF else s.cur.lbody

/-- Instruction `i`, which reads `rs`, goes to `target` of the unit before it where there is one, else on with the next word;
it changes nothing else. -/
def Branches (i : Instr) (rs : List Reg) (target : Unit → Option Word) : Prop :=
  ∀ s : State, s.Executes i rs [] → s.Ends i fun t => s.KeepsRegs t ∧ s.Recorded t ∧ s.OnlyScalars t ∧
    match target s.cur with
    | some x => s.JumpsTo t x
    | none => s.NextWord t

/-! ### Memory -/

/-- The byte that the current unit reads at a home address: what the stores and reductions of its release buffer make of it (20 R359). -/
def State.reads (s : State) (a : Nat) : Byte := s.cur.over (s.plainByte s.cur.gid) a

/-- `v` is the little-endian number of `n` bytes, zero-extended, or sign-extended (00 R5, 04 R85). -/
def Extends (sx : Bool) (n : Nat) (byte : Nat → Byte) (v : Word) : Prop :=
  ∀ k, k < 64 → v.getLsbD k = if k < 8 * n then (byte (k / 8)).getLsbD (k % 8) else sx && (byte (n - 1)).getLsbD 7

/-- Nothing but what `OnlyScalars` names has changed, the sector copies, the reads an acquire may take on (16 R297) and the numbering of free
values apart. -/
def State.OnlyLoaded (s t : State) : Prop :=
  s.OnlyScalars { t with free := s.free, cur := { t.cur with l1 := s.cur.l1, l0 := s.cur.l0, readFrom := s.cur.readFrom } }

/-- The machine once the current unit has read `n` bytes at `a` for the address `va`: the stacks have decoded the sectors that the walk and the
read reach, and corrected what they could (03 R58). -/
def State.decodedFor (s : State) (va : Word) (a n : Nat) : State := (s.scrubWalk s.cur.gid va).scrubRun a n

/-- Instruction `i` loads `v` into s[a], and goes on; `r` is the machine with what the stacks have corrected. -/
def State.Loads (s : State) (i : Instr) (a : Reg) (v : Word) (r : State) : Prop :=
  s.Ends i fun t => s.SetsReg t a v ∧ s.NextWord t ∧ s.Recorded t ∧ r.OnlyLoaded t

/-- A load of the class is made now at its home: no earlier access of the class or to its line is still on its way (16 R289, R290), the way to
the home is free, and the flow to it carries traffic. -/
structure State.MayLoad (s : State) (cls : BitVec 4) (addr : Nat) : Prop where
  free : s.cur.classFree cls = true
  line : s.lineFree s.cur cls addr none = true
  now  : s.reachesNow s.cur.gid addr = true
  flow : s.linkTrap addr = none

/-- Writes of a class go out at once: they are not buffered, no earlier access stands before them, the way to the home is free, no write
waits for its horizon, and the flow to the home carries traffic. -/
structure State.MayStore (s : State) (cls : BitVec 4) (addr : Nat) : Prop where
  plain  : s.cur.buffering = false
  now    : s.reachesNow s.cur.gid addr = true
  free   : ∀ x ∈ s.cur.classQ, x.cls ≠ cls
  none   : s.pend = []
  flow   : s.linkTrap addr = .none

/-- Every byte of memory that any unit reads is what it was, but for the `n` bytes from `a` on, which are those of `x`. -/
def State.Stores (s t : State) (a n : Nat) (x : Word) : Prop :=
  ∀ g k, t.plainByte g k = if a ≤ k ∧ k < a + n then BitVec.ofNat 8 (x.toNat / 2 ^ (8 * (k - a))) else s.plainByte g k

/-- Nothing but what `OnlyScalars` names has changed, and what a meeting point of an unreplicated task resets: its lanes, its count of
meetings, the signatures it shows, and its release buffer (20 R361). -/
def State.OnlyMet (s t : State) : Prop :=
  s.OnlyScalars { t with cur := { t.cur with
    lanes := s.cur.lanes, meeting := s.cur.meeting, lastSigs := s.cur.lastSigs, presented := s.cur.presented, unsigned := s.cur.unsigned,
    relBuf := s.cur.relBuf } }

/-- A class 5 request of `n` bytes at `p` is performed at once: it translates, no change of its bank holds its line, it is not already waiting, no
masked store was lost, what must precede it has performed, it reaches its clasp engine now and none waits there on its entry, its sector is sound, a
clasp entry can be had, and writes go out at once (12 R249, R252, 16 R296, R303). -/
structure State.MayRequest (s : State) (k : AccessKind) (n : Nat) (cls : BitVec 4) (mask : BitVec 16) (rel : Option (BitVec 3 × BitVec 16))
    (va : Word) (p : Place) : Prop where
  place  : claspPlace s k va n = .ok p
  unheld : s.lineHeld s.cur.gid p = false
  idle   : s.cur.wait = none
  linked : s.cur.lostIn mask = none
  ready  : claspReady cls p.addr rel k.writes s = true
  turn   : s.servedNow (granuleKey p.addr) p.addr = true
  clean  : ∀ b, b < n → s.erring (p.addr + b) = false ∧ s.poisoned (p.addr + b) = false
  entry  : (s.dev (addrDev p.addr)).touch (granuleKey p.addr) ≠ none
  out    : s.MayStore cls p.addr

/-- Nothing but what `OnlyMet` names has changed, and what a request leaves at the clasp engine: its entries, the waits it wakes, the
requests counted, the reads noted, the writes an acquire takes on, the cycle in which it has returned and what the stacks have corrected; memory
and the registers are stated beside it. -/
def State.OnlyRequested (s t : State) : Prop :=
  s.OnlyMet { t with others := s.others, devs := s.devs, mem := s.mem, poison := s.poison, latent := s.latent, cur := { t.cur with
    claspCount := s.cur.claspCount, known := s.cur.known, wait := s.cur.wait, arrived := s.cur.arrived, readFrom := s.cur.readFrom,
    readRings := s.cur.readRings, fstat := s.cur.fstat, busy := s.cur.busy } }

/-- A ring instruction on ring `ring` of section `sec`, named by the selector `x`, is performed at once: it is not already waiting, no masked
store was lost, what its release and the counters it writes wait for has performed, no request waits on the ring, and a clasp entry can be had
(12 R249, R256, R259). -/
structure State.MayRing (s : State) (x : Word) (sec ring : Nat) (mask : BitVec 16) (rel writes : Bool) : Prop where
  place  : ringSelector s.cur x = some (sec, ring)
  idle   : s.cur.wait = none
  linked : s.cur.lostIn mask = none
  free   : s.cur.classFree 0 = true
  ready  : rel = true → s.performed s.cur mask 1 = true
  wide   : writes = true → ∀ c ∈ s.cur.carried 0 (if rel then some (1, mask) else none), s.knownWide s.cur c.2 c.1.toNat = true
  turn   : s.servedNow (ringKey (gidDev s.cur.gid) (ringIndex sec ring)) (sramAddr (gidDev s.cur.gid) sec 0) = true
  entry  : (s.dev (gidDev s.cur.gid)).touch (ringKey (gidDev s.cur.gid) (ringIndex sec ring)) ≠ none
  plain  : s.cur.buffering = false

/-- The rings of the current unit's device are what they were, but for the one of the given number, which is `r`. -/
def State.SetsRing (s t : State) (index : Nat) (r : Ring) : Prop :=
  ∀ k, (t.dev (gidDev s.cur.gid)).rings.lookup k = if k = index then some r else (s.dev (gidDev s.cur.gid)).rings.lookup k

/-- The bytes from `a` on at their homes, as a number. -/
def State.number (s : State) (a n : Nat) : Nat := fromLe (s.homeBytes a n)

/-! ### Traps (21 R385) -/

/-- A trap taken now enters its handler at once: none is being taken, no queue holds a command that has started, and one in flight only waits
for room that the interrupted program has to make (21 R385; DEDUCED, log 10). -/
structure State.CutsNow (s : State) : Prop where
  none   : s.cur.cutting = none
  engines : ∀ y ∈ s.cur.inflight, s.onlyRoom y = true
  queues : ∀ l ∈ s.cur.queues.toList, ∀ c ∈ l, c.started = false

/-! ### Waiting -/

/-- Instruction `i` waits: some cycles pass in which nothing issues, then one with which engines and what travels go on, and it is tried again. -/
def State.WaitsOn (s : State) (i : Instr) : Prop := ∃ n, exec i s = .next (s.pass n).tick

/-- Instruction `i` waits too, and leaves the machine as `P` says before those cycles pass. -/
def State.StaysOn (s : State) (i : Instr) (P : State → Prop) : Prop := ∃ t n, exec i s = .next (t.pass n).tick ∧ P t

/-! ### Engine commands (06 R126-R129) -/

/-- The machine in the cycle after the push of command `c`, before its engines look at it: the command stands in its queue and its word in
the window. -/
def State.pushed (s : State) (c : Command) (last : Word) : State :=
  { s with
    clock := s.clock + 1
    cur := { s.cur.record (({ s.cur.enqueue c with pc := last } : Unit).advance) (some (c.queue, c.num)) none none (s.cur.time + 1) with
      time := s.cur.time + 1, justGiven := [] } }

/-- Instruction `i` pushes the command `c`, whose engine is idle and can take it: in a prompt machine of free mode it starts in the cycle after its push (06
R126-R128, R135). -/
structure State.RunsNow (s : State) (i : Instr) (p : PushForm) (c : Command) (last : Word) (forms : List EdgeForm) : Prop where
  form    : pushForm i = some p
  command : s.pushCommand i p forms = some c
  prompt  : s.prompt = true
  free    : s.cur.framed = false
  quiet   : s.Quiet
  window  : s.cur.window = []
  homes   : s.admQ = []
  meets   : s.cur.waitingAt = 0
  tokens  : ∀ x ∈ takesOf p.head, 0 < s.cur.fifo x p.queue
  start   : s.cur.earliest c + s.throttleDelay c ≤ s.cur.time + 1
  accepts : (s.pushed c last).accepts { c with due := 0 } = true
  noClash : (s.pushed c last).phaseClash c = none

/-- Nothing has changed but vector and mask registers, the commands in flight, the PC and the loop registers, the tokens the command took, its queue's number
and last start, the landing of what it writes and the model's clocks: no scalar, descriptor or special register, no other unit, and no byte of memory. -/
def State.OnlyVectors (s t : State) : Prop :=
  t = { s with
    clock := t.clock
    cur := { s.cur with
      v := t.cur.v, m := t.cur.m, inflight := t.cur.inflight, pc := t.cur.pc, lcount := t.cur.lcount, lbody := t.cur.lbody,
      tokens := t.cur.tokens, handed := t.cur.handed, justGiven := [], nextNum := t.cur.nextNum, lastStart := t.cur.lastStart,
      fresh := t.cur.fresh, permute := t.cur.permute, vready := t.cur.vready, mready := t.cur.mready,
      time := t.cur.time, committed := t.cur.committed } } ∧
  t.cur.committed = s.cur.committed + 1 ∧ t.cur.time = s.cur.time + 1 ∧ ∀ g a, t.plainByte g a = s.plainByte g a

/-- The command has run: it alone is in flight, it owes these reply entries and these flags, and retires in a later cycle (05 R99, 06 R132, R159). -/
def State.HasRun (t : State) (c : Command) (replies : List Word) (flags : Flags → Prop) : Prop :=
  ∃ y, t.cur.inflight = [y] ∧ y.command.instr = c.instr ∧ y.command.queue = c.queue ∧ y.command.num = c.num ∧ y.replies = replies ∧ flags y.flags ∧
    y.waiting = false ∧ y.todo = false ∧ t.cur.time < y.until_

/-- Element `k` of width `w` of a vector register (08 R172). -/
def element (w : Nat) (x : BitVec 4096) (k : Nat) : Nat := x.toNat / 2 ^ (w * k) % 2 ^ w

/-- The flags of the active ones of `n` elements (08 R173). -/
def FlagsOf (active : Nat → Prop) (n : Nat) (flags : Nat → Flags) (g : Flags) : Prop :=
  ∀ b, g.getLsbD b = true ↔ ∃ k, k < n ∧ active k ∧ (flags k).getLsbD b = true

/-- Where instruction `i` pushes a command whose engine can take it, the command has run after the cycle of its start: element `k` of width `w` of v[a] receives
`r k` where its lane is active under the mask `mk` and keeps its value where it is not, the command owes the flags of the active elements, and every other
vector and mask register keeps its value. -/
def Elementwise (i : Instr) (rs : List Reg) (mk : MReg) (a : Reg) (width : BitVec 4 → Nat) (r : Unit → Command → Nat → Nat × Flags) : Prop :=
  ∀ (s : State) (p : PushForm) (c : Command), s.RunsNow i p c s.cur.pc [] → s.Executes i rs [] →
    let w := width c.fmt
    let active (k : Nat) : Prop := (s.cur.rm mk).getLsbD (w * k / 64) = true
    ∃ t, exec i s = .next t ∧
      (∀ k, k < 4096 / w → (active k → element w (t.cur.rv a) k = (r s.cur c k).1 % 2 ^ w) ∧
        (¬ active k → element w (t.cur.rv a) k = element w (s.cur.rv a) k)) ∧
      (∀ x, x ≠ a → t.cur.rv x = s.cur.rv x) ∧ t.cur.m = s.cur.m ∧
      t.HasRun c [] (FlagsOf active (4096 / w) (fun k => (r s.cur c k).2)) ∧ s.NextWord t ∧ s.OnlyVectors t

/-- Where instruction `i` pushes a command whose engine can take it, v[a] receives the register `x`, and no other register changes and no flag is raised. -/
def WritesVector (i : Instr) (a : Reg) (x : Unit → Command → BitVec 4096) : Prop :=
  ∀ (s : State) (p : PushForm) (c : Command), s.RunsNow i p c s.cur.pc [] → s.Executes i [] [] →
    ∃ t, exec i s = .next t ∧ (∀ r, t.cur.rv r = if r = a then x s.cur c else s.cur.rv r) ∧ t.cur.m = s.cur.m ∧
      t.HasRun c [] (· = 0) ∧ s.NextWord t ∧ s.OnlyVectors t

/-- Where instruction `i` pushes a command whose engine can take it, m[a] receives the mask `x`, m0 apart, and no other register changes. -/
def WritesMask (i : Instr) (a : MReg) (x : Unit → Command → Word) : Prop :=
  ∀ (s : State) (p : PushForm) (c : Command), s.RunsNow i p c s.cur.pc [] → s.Executes i [] [] →
    ∃ t, exec i s = .next t ∧ (∀ r, t.cur.rm r = if r = a ∧ a ≠ 0 then x s.cur c else s.cur.rm r) ∧ t.cur.v = s.cur.v ∧
      t.HasRun c [] (· = 0) ∧ s.NextWord t ∧ s.OnlyVectors t

/-! ### Fairness (16 R286) -/

/-- The states of a run, each answered by the step from the one before, but for the choice of who moves next, which every step may make anew. -/
def Run (r : Nat → State) : Prop := ∀ n, ∃ agenda, step { r n with agenda := agenda } = .next (r (n + 1))

/-- A turn is permitted: it changes something. -/
def State.Permits (s : State) (x : Turn) : Prop := ∃ t, step { s with agenda := [x] } = .next t ∧ t ≠ { s with agenda := [] }

/-- A fair run: a turn that stays permitted is taken after finitely many others (16 R286).  The machine of one agenda does not force it; claims about
what comes about in the end are claims about fair runs. (DESIGN CHOICE, log 96) -/
def Fair (r : Nat → State) : Prop :=
  Run r ∧ ∀ x n, (∀ k, n ≤ k → (r k).Permits x) → ∃ k, n ≤ k ∧ step { r k with agenda := [x] } = .next (r (k + 1))

/-! ### Numbers (06 R141, R142) -/

/-- The width of an operation: 64, or 32 with `.w`. -/
def bits (w : Bool) : Nat := if w then 32 else 64
/-- An operand read as a signed number of that width, and as an unsigned one. -/
def sgn (w : Bool) (x : Word) : Int := if w then (x.setWidth 32).toInt else x.toInt
def uns (w : Bool) (x : Word) : Nat := x.toNat % 2 ^ bits w
/-- An exact result as it is written: its low 64 bits, or with `.w` its low 32 bits, sign-extended. -/
def narrow (w : Bool) (x : Int) : Word := if w then BitVec.ofInt 64 (x.bmod (2 ^ 32)) else BitVec.ofInt 64 x

end Sys2Proof.Machine
end

