-- ==== Sys2Proof/Certificates/Slice0/Obligations.lean ====
section
/-! DEFINITION. The statements of this slice. -/
open Sys2Proof Sys2Proof.Machine

/-- ADD, SUB, MUL and MADD give the low bits of the exact result, MULH and MULHU the upper half of the exact product (R141, R142). -/
def Obligations.IntegerSumsAndProducts : Prop := ∀ (w : Bool) (a b c d : Reg),
  Gives (.add w a b c) [b, c] a (fun u => narrow w (sgn w (u.rs b) + sgn w (u.rs c))) ∧
  Gives (.sub w a b c) [b, c] a (fun u => narrow w (sgn w (u.rs b) - sgn w (u.rs c))) ∧
  Gives (.mul w a b c) [b, c] a (fun u => narrow w (sgn w (u.rs b) * sgn w (u.rs c))) ∧
  Gives (.madd w a b c d) [b, c, d] a (fun u => narrow w (sgn w (u.rs b) * sgn w (u.rs c) + sgn w (u.rs d))) ∧
  Gives (.mulh w a b c) [b, c] a (fun u => narrow w (sgn w (u.rs b) * sgn w (u.rs c) / 2 ^ bits w)) ∧
  Gives (.mulhu w a b c) [b, c] a (fun u => narrow w (uns w (u.rs b) * uns w (u.rs c) / 2 ^ bits w : Nat))

/-- AND, OR, XOR and ANDN, and SHL, SHR, SAR and ROR, whose amount is taken modulo the width (R141, R142). -/
def Obligations.IntegerBitwiseAndShifts : Prop := ∀ (w : Bool) (a b c : Reg),
  let sh (u : Machine.Unit) : Nat := (u.rs c).toNat % bits w
  Gives (.andI w a b c) [b, c] a (fun u => narrow w (u.rs b &&& u.rs c).toInt) ∧
  Gives (.orI w a b c) [b, c] a (fun u => narrow w (u.rs b ||| u.rs c).toInt) ∧
  Gives (.xorI w a b c) [b, c] a (fun u => narrow w (u.rs b ^^^ u.rs c).toInt) ∧
  Gives (.andn w a b c) [b, c] a (fun u => narrow w (u.rs b &&& ~~~(u.rs c)).toInt) ∧
  Gives (.shl w a b c) [b, c] a (fun u => narrow w (sgn w (u.rs b) * 2 ^ sh u)) ∧
  Gives (.shr w a b c) [b, c] a (fun u => narrow w (uns w (u.rs b) / 2 ^ sh u : Nat)) ∧
  Gives (.sar w a b c) [b, c] a (fun u => narrow w (sgn w (u.rs b) / 2 ^ sh u)) ∧
  Gives (.ror w a b c) [b, c] a (fun u =>
    narrow w (uns w (u.rs b) / 2 ^ sh u + uns w (u.rs b) % 2 ^ sh u * 2 ^ (bits w - sh u) : Nat))

/-- The comparisons write 1 or 0; the minima and maxima and SEL choose an operand; CLZ, CTZ and POPC; BFX and BFI, whose position is taken modulo the width
and whose field's width is clamped to it (R141, R142). -/
def Obligations.IntegerChoicesAndFields : Prop := ∀ (w : Bool) (a b c d : Reg),
  let pos (u : Machine.Unit) : Nat := (u.rs c).toNat % bits w
  let wd (u : Machine.Unit) : Nat := min ((u.rs d).toNat % 128) (bits w)
  let field (u : Machine.Unit) : Nat := uns w (u.rs b) / 2 ^ pos u % 2 ^ wd u
  Gives (.seq w a b c) [b, c] a (fun u => if sgn w (u.rs b) = sgn w (u.rs c) then 1 else 0) ∧
  Gives (.sne w a b c) [b, c] a (fun u => if sgn w (u.rs b) = sgn w (u.rs c) then 0 else 1) ∧
  Gives (.slt w a b c) [b, c] a (fun u => if sgn w (u.rs b) < sgn w (u.rs c) then 1 else 0) ∧
  Gives (.sltu w a b c) [b, c] a (fun u => if uns w (u.rs b) < uns w (u.rs c) then 1 else 0) ∧
  Gives (.minI w a b c) [b, c] a (fun u => narrow w (min (sgn w (u.rs b)) (sgn w (u.rs c)))) ∧
  Gives (.maxI w a b c) [b, c] a (fun u => narrow w (max (sgn w (u.rs b)) (sgn w (u.rs c)))) ∧
  Gives (.minu w a b c) [b, c] a (fun u => narrow w (min (uns w (u.rs b)) (uns w (u.rs c)) : Nat)) ∧
  Gives (.maxu w a b c) [b, c] a (fun u => narrow w (max (uns w (u.rs b)) (uns w (u.rs c)) : Nat)) ∧
  Gives (.sel w a b c d) [b, c, d] a (fun u => narrow w (if sgn w (u.rs b) = 0 then sgn w (u.rs d) else sgn w (u.rs c))) ∧
  Gives (.clz w a b) [b] a (fun u =>
    BitVec.ofNat 64 (if uns w (u.rs b) = 0 then bits w else bits w - 1 - (uns w (u.rs b)).log2)) ∧
  (∃ ctz : Nat → Nat, (∀ x, x ≠ 0 → 2 ^ ctz x ∣ x ∧ ¬ 2 ^ (ctz x + 1) ∣ x) ∧
    Gives (.ctz w a b) [b] a (fun u => BitVec.ofNat 64 (if uns w (u.rs b) = 0 then bits w else ctz (uns w (u.rs b))))) ∧
  Gives (.popc w a b) [b] a (fun u => BitVec.ofNat 64 ((List.range (bits w)).countP fun k => (uns w (u.rs b)).testBit k)) ∧
  Gives (.bfx w a b c d) [b, c, d] a (fun u =>
    narrow w (if (u.rs d).getLsbD 7 ∧ 2 ^ wd u ≤ 2 * field u then (field u : Int) - 2 ^ wd u else field u)) ∧
  ∀ s : State, s.Executes (.bfi w a b c d) [a, b, c, d] [] → s.Ends (.bfi w a b c d) fun t => ∃ x, s.Wrote t a x ∧
    (∀ k, k < bits w → x.getLsbD k =
      if pos s.cur ≤ k ∧ k < pos s.cur + wd s.cur then (s.cur.rs b).getLsbD (k - pos s.cur) else (s.cur.rs a).getLsbD k) ∧
    (w = true → ∀ k, 32 ≤ k → k < 64 → x.getLsbD k = x.getLsbD 31)

/-- DIV, DIVU, REM and REMU: the quotient is rounded toward zero and the remainder has the dividend's sign; the most negative value divided by -1 gives
itself and the remainder 0; a divisor of zero, with `.w` one whose low 32 bits are zero, raises IDIVZ with all 64 bits of s[B] in TVAL, and s[A] keeps its value; and
the words that the rule writes out (R141-R143). -/
def Obligations.IntegerDivision : Prop := ∀ (w : Bool) (a b c : Reg) (s : State),
  let zero : Prop := uns w (s.cur.rs c) = 0
  let gives (i : Instr) (x : Int) : Prop := s.Executes i [b, c] [] →
    (¬ zero → s.Ends i fun t => s.Wrote t a (narrow w x)) ∧ (zero → s.Raises i (seqTrap .idivz (s.cur.rs b)))
  let least : Int := -(2 ^ (bits w - 1))
  gives (.div w a b c) ((sgn w (s.cur.rs b)).tdiv (sgn w (s.cur.rs c))) ∧
  gives (.divu w a b c) (uns w (s.cur.rs b) / uns w (s.cur.rs c) : Nat) ∧
  gives (.rem w a b c) ((sgn w (s.cur.rs b)).tmod (sgn w (s.cur.rs c))) ∧
  gives (.remu w a b c) (uns w (s.cur.rs b) % uns w (s.cur.rs c) : Nat) ∧
  (sgn w (s.cur.rs b) = least → sgn w (s.cur.rs c) = -1 →
    gives (.div w a b c) least ∧ gives (.rem w a b c) 0) ∧
  decode 0x0001461C00000000 = .ok (.add false 5 6 7) ∧ decode 0x0051841400010000 = .ok (.div true 6 4 5)

/-- The operations of class 1, ADDI to LEA, with the immediate sign-extended, but for ANDI, ORI, XORI and MOVHI (R144). -/
def Obligations.Immediates : Prop := ∀ (w : Bool) (a b : Reg) (imm : BitVec 32) (amt : BitVec 6),
  let sh : Nat := amt.toNat % bits w
  Gives (.addi w a b imm) [b] a (fun u => narrow w (sgn w (u.rs b) + imm.toInt)) ∧
  Gives (.muli w a b imm) [b] a (fun u => narrow w (sgn w (u.rs b) * imm.toInt)) ∧
  Gives (.andi a b imm) [b] a (fun u => BitVec.ofNat 64 ((u.rs b).toNat &&& imm.toNat)) ∧
  Gives (.ori a b imm) [b] a (fun u => BitVec.ofNat 64 ((u.rs b).toNat ||| imm.toNat)) ∧
  Gives (.xori a b imm) [b] a (fun u => BitVec.ofNat 64 ((u.rs b).toNat ^^^ imm.toNat)) ∧
  Gives (.slti a b imm) [b] a (fun u => if (u.rs b).toInt < imm.toInt then 1 else 0) ∧
  Gives (.sltiu a b imm) [b] a (fun u => if (u.rs b).toNat < (BitVec.ofInt 64 imm.toInt).toNat then 1 else 0) ∧
  Gives (.movi a imm) [] a (fun _ => BitVec.ofInt 64 imm.toInt) ∧
  Gives (.movhi a b imm) [b] a (fun u => BitVec.ofNat 64 (imm.toNat * 2 ^ 32 + (u.rs b).toNat % 2 ^ 32)) ∧
  Gives (.lea a imm) [] a (fun u => u.pc + BitVec.ofInt 64 imm.toInt) ∧
  Gives (.shli w a b amt) [b] a (fun u => narrow w (sgn w (u.rs b) * 2 ^ sh)) ∧
  Gives (.shri w a b amt) [b] a (fun u => narrow w (uns w (u.rs b) / 2 ^ sh : Nat)) ∧
  Gives (.sari w a b amt) [b] a (fun u => narrow w (sgn w (u.rs b) / 2 ^ sh))

/-- FADD, FSUB, FMUL, FFMA, FDIV and FSQRT: the exact result of the operands' values, rounded once (R145-R147). -/
def Obligations.FloatArithmetic : Prop := ∀ (single : Bool) (rm : BitVec 2) (a b c d : Reg),
  let f := if single then fp32 else fp64
  let val (u : Machine.Unit) (r : Reg) : FpVal := f.val ((u.rs r).toNat % 2 ^ f.bits)
  let down : Bool := rm == 3
  let rounded (x : FpVal × Flags) : Nat × Flags :=
    ((f.round (rmodeOf rm) false x.1).1, x.2 ||| (f.round (rmodeOf rm) false x.1).2)
  GivesFlt (.fadd single rm a b c) [b, c] a (fun u => rounded ((val u b).add down (val u c))) ∧
  GivesFlt (.fsub single rm a b c) [b, c] a (fun u => rounded ((val u b).add down (val u c).neg)) ∧
  GivesFlt (.fmul single rm a b c) [b, c] a (fun u => rounded ((val u b).mul (val u c))) ∧
  GivesFlt (.ffma single rm a b c d) [b, c, d] a (fun u => rounded ((val u b).fma down (val u c) (val u d))) ∧
  GivesFlt (.fdiv single rm a b c) [b, c] a (fun u => rounded ((val u b).div (val u c))) ∧
  GivesFlt (.fsqrt single rm a b) [b] a (fun u => rounded (val u b).sqrt)

/-- FABS and FNEG change the sign bit and raise nothing, NaNs included; FMIN and FMAX choose an operand; FCEQ, FCLT and FCLE
write 1 or 0, with NV for a signalling NaN, or for any NaN; FCLASS sets the bit of
the operand's class (R145-R147). -/
def Obligations.FloatChoices : Prop := ∀ (single : Bool) (a b c : Reg),
  let f := if single then fp32 else fp64
  let low (u : Machine.Unit) (r : Reg) : Nat := (u.rs r).toNat % 2 ^ f.bits
  let val (u : Machine.Unit) (r : Reg) : FpVal := f.val (low u r)
  let quiet (u : Machine.Unit) : Flags := if (val u b).isSnan ∨ (val u c).isSnan then flagNV else 0
  let loud (u : Machine.Unit) : Flags := if (val u b).isNan ∨ (val u c).isNan then flagNV else 0
  let neg (u : Machine.Unit) : Bool := (low u b).testBit (f.bits - 1)
  let ex (u : Machine.Unit) : Nat := low u b / 2 ^ f.fracBits % 2 ^ f.expBits
  let frac (u : Machine.Unit) : Nat := low u b % 2 ^ f.fracBits
  GivesFlt (.fabs single a b) [b] a (fun u => (low u b % 2 ^ (f.bits - 1), 0)) ∧
  GivesFlt (.fneg single a b) [b] a (fun u => (low u b ^^^ 2 ^ (f.bits - 1), 0)) ∧
  GivesFlt (.fceq single a b c) [b, c] a (fun u => (if (val u b).eq (val u c) then 1 else 0, quiet u)) ∧
  GivesFlt (.fclt single a b c) [b, c] a (fun u => (if (val u b).lt (val u c) then 1 else 0, loud u)) ∧
  GivesFlt (.fcle single a b c) [b, c] a
    (fun u => (if (val u b).lt (val u c) ∨ (val u b).eq (val u c) then 1 else 0, loud u)) ∧
  GivesFlt (.fmin single a b c) [b, c] a (fun u =>
    (if (val u b).isNan then (if (val u c).isNan then f.defaultNan else low u c)
     else if (val u c).isNan then low u b
     else if (val u b).lt (val u c) ∨ ((val u b).eq (val u c) ∧ ((val u b).negative = true ∨ (val u c).negative = false))
       then low u b else low u c, quiet u)) ∧
  GivesFlt (.fmax single a b c) [b, c] a (fun u =>
    (if (val u b).isNan then (if (val u c).isNan then f.defaultNan else low u c)
     else if (val u c).isNan then low u b
     else if (val u b).lt (val u c) ∨ ((val u b).eq (val u c) ∧ ((val u b).negative = true ∨ (val u c).negative = false))
       then low u c else low u b, quiet u)) ∧
  GivesFlt (.fclass single a b) [b] a (fun u =>
    (if ex u = 2 ^ f.expBits - 1 then
       (if frac u = 0 then (if neg u then 2 ^ 0 else 2 ^ 7) else if frac u < 2 ^ (f.fracBits - 1) then 2 ^ 8 else 2 ^ 9)
     else if ex u = 0 then
       (if frac u = 0 then (if neg u then 2 ^ 3 else 2 ^ 4) else if neg u then 2 ^ 2 else 2 ^ 5)
     else if neg u then 2 ^ 1 else 2 ^ 6, 0))

/-- FCVTI and FCVTW: the operand rounded to an integer; out of range NV and the most negative integer, with `.sat` the nearest
limit and NX; a NaN gives NV.  FCVTF: the source by its kind, rounded (R148). -/
def Obligations.FloatConversions : Prop := ∀ (sat single : Bool) (rm : BitVec 2) (a b : Reg),
  let f := if single then fp32 else fp64
  let val (u : Machine.Unit) : FpVal := f.val ((u.rs b).toNat % 2 ^ f.bits)
  let toInt (w : Nat) (x : FpVal) : Int × Flags :=
    match x with
    | .nan _ => (if sat then 0 else -(2 ^ (w - 1)), flagNV)
    | .inf n => if sat then (if n then -(2 ^ (w - 1)) else 2 ^ (w - 1) - 1, flagNX) else (-(2 ^ (w - 1)), flagNV)
    | .fin n m e =>
      let r : Int := (if n then -1 else 1) * (roundAt (rmodeOf rm) n m e 0 : Int)
      if r < -(2 ^ (w - 1)) then (-(2 ^ (w - 1)), if sat then flagNX else flagNV)
      else if 2 ^ (w - 1) ≤ r then (if sat then (2 ^ (w - 1) - 1, flagNX) else (-(2 ^ (w - 1)), flagNV))
      else (r, if inexact m e (roundAt (rmodeOf rm) n m e 0) 0 then flagNX else 0)
  let written (x : Int × Flags) : Nat × Flags := ((BitVec.ofInt 64 x.1).toNat, x.2)
  let convert (x : FpVal) : Nat × Flags :=
    ((f.round (rmodeOf rm) false x).1, (f.round (rmodeOf rm) false x).2 ||| if x.isSnan then flagNV else 0)
  GivesFlt (.fcvti sat single rm a b) [b] a (fun u => written (toInt 64 (val u))) ∧
  GivesFlt (.fcvtw sat single rm a b) [b] a (fun u => written (toInt 32 (val u))) ∧
  GivesFlt (.fcvtf single rm a b 0) [b] a (fun u => convert (FpVal.ofInt (u.rs b).toInt)) ∧
  GivesFlt (.fcvtf single rm a b 1) [b] a (fun u => convert (.fin false (u.rs b).toNat 0)) ∧
  GivesFlt (.fcvtf single rm a b 2) [b] a (fun u => convert (fp64.val (u.rs b).toNat)) ∧
  GivesFlt (.fcvtf single rm a b 3) [b] a (fun u => convert (fp32.val ((u.rs b).toNat % 2 ^ 32)))

/-- Rounding.  The four modes: a magnitude `m * 2^e` is rounded to a whole number `r` of `2^(e+d)`; toward zero, up and down it is the nearest one on
the side the mode names, for the value's sign, and in the nearest mode it is the nearest one, a tie going to an even `r`.  Every result that is a NaN is the
default NaN, whatever is rounded, but for an overflow to E4M3, which keeps its sign; and rounding leaves what a format represents as it is: the value of every
finite code rounds, in every mode, to that code and raises no flag, and so does an infinity where the conversion does not saturate (07 R152-R154, R156, R157,
06 R145). -/
def Obligations.Rounding : Prop :=
  (∀ (neg : Bool) (m d : Nat) (e : Int),
    let r (mode : RMode) : Nat := roundAt mode neg m e (e + d)
    (r .rtz * 2 ^ d ≤ m ∧ m < (r .rtz + 1) * 2 ^ d) ∧
    (if neg then r .rup * 2 ^ d ≤ m ∧ m < (r .rup + 1) * 2 ^ d else m ≤ r .rup * 2 ^ d ∧ r .rup * 2 ^ d < m + 2 ^ d) ∧
    (if neg then m ≤ r .rdn * 2 ^ d ∧ r .rdn * 2 ^ d < m + 2 ^ d else r .rdn * 2 ^ d ≤ m ∧ m < (r .rdn + 1) * 2 ^ d) ∧
    (2 * (r .rne * 2 ^ d) ≤ 2 * m + 2 ^ d ∧ 2 * m ≤ 2 * (r .rne * 2 ^ d) + 2 ^ d ∧
      (2 * (r .rne * 2 ^ d) = 2 * m + 2 ^ d ∨ 2 * m = 2 * (r .rne * 2 ^ d) + 2 ^ d → r .rne % 2 = 0))) ∧
  ∀ (f : FSpec) (mode : RMode), f ∈ [fp64, fp32, bf16, fp16, e4m3, e5m2, e2m1] →
    (∀ sat x, (f.val (f.round mode sat x).1).isNan = true →
      (f.round mode sat x).1 = f.defaultNan ∨ (f = e4m3 ∧ (f.round mode sat x).1 = 0xFF ∧ (f.round mode sat x).2 = flagOVF ||| flagNX)) ∧
    ∀ b, b < 2 ^ f.bits →
      (∀ sat n m e, f.val b = .fin n m e → f.round mode sat (f.val b) = (b, 0)) ∧
      (∀ n, f.val b = .inf n → f.round mode false (f.val b) = (b, 0))

/-- BR and the conditional branches: a taken one goes to PC + 8 * offset (R149, R139). -/
def Obligations.BranchesGoToTheirTargets : Prop := ∀ (a b : Reg) (off : BitVec 32),
  let target (u : Machine.Unit) : Word := u.pc + BitVec.ofInt 64 (8 * off.toInt)
  Branches (.br off) [] (fun u => some (target u)) ∧
  Branches (.beq a b off) [a, b] (fun u => if u.rs a = u.rs b then some (target u) else none) ∧
  Branches (.bne a b off) [a, b] (fun u => if u.rs a = u.rs b then none else some (target u)) ∧
  Branches (.blt a b off) [a, b] (fun u => if (u.rs a).toInt < (u.rs b).toInt then some (target u) else none) ∧
  Branches (.bge a b off) [a, b] (fun u => if (u.rs b).toInt ≤ (u.rs a).toInt then some (target u) else none) ∧
  Branches (.bltu a b off) [a, b] (fun u => if (u.rs a).toNat < (u.rs b).toNat then some (target u) else none) ∧
  Branches (.bgeu a b off) [a, b] (fun u => if (u.rs b).toNat ≤ (u.rs a).toNat then some (target u) else none)

/-- CALL and CALLR write the address of the next word, CALLR after it has read its target; CALLR, RET and JMPR go to s[b], and raise
ALIGN with the target in TVAL where it is no multiple of 8 (R150). -/
def Obligations.CallsAndReturns : Prop := ∀ (a b : Reg) (off : BitVec 32) (s : State),
  let link (s t : State) : Prop := s.SetsReg t a (s.cur.pc + 8) ∧ s.Recorded t ∧ s.OnlyScalars t
  let aligned : Prop := (s.cur.rs b).toNat % 8 = 0
  (s.Executes (.call a off) [] [] → s.Ends (.call a off) fun t => link s t ∧
    s.JumpsTo t (s.cur.pc + BitVec.ofInt 64 (8 * off.toInt))) ∧
  (s.Executes (.callr a b) [b] [] →
    (aligned → s.Ends (.callr a b) fun t => link s t ∧ s.JumpsTo t (s.cur.rs b)) ∧
    (¬ aligned → s.Raises (.callr a b) (seqTrap .align (s.cur.rs b)))) ∧
  (∀ i, i = .ret b ∨ i = .jmpr b → s.Executes i [b] [] →
    (aligned → s.Ends i fun t => s.KeepsRegs t ∧ s.Recorded t ∧ s.OnlyScalars t ∧ s.JumpsTo t (s.cur.rs b)) ∧
    (¬ aligned → s.Raises i (seqTrap .align (s.cur.rs b))))

/-- LOOP and LOOPX: the loop registers they set up, the body skipped where the count is zero, ILLFLD inside an active loop (R137, R138), which leaves FTBASE
as it was (the model's choice: DEDUCED, log 72). -/
def Obligations.LoopWords : Prop := ∀ (extended : Bool) (cnt : Reg) (len : BitVec 14) (imm : BitVec 16) (base : BitVec 4) (s : State),
  let i : Instr := if extended then .loopx cnt len imm base else .loop cnt len imm base
  let n : Word := if cnt = 0 then BitVec.ofNat 64 imm.toNat else s.cur.rs cnt
  s.Executes i [cnt] [] →
    (s.cur.lbody.getLsbD 63 = true → s.Raises i (seqTrap .illfld (encode i))) ∧
    (s.cur.lbody.getLsbD 63 = false → s.Ends i fun t => s.KeepsRegs t ∧ s.Recorded t ∧
      t.cur.ftbase = base ∧ t.cur.lcount = 0 ∧ t.cur.llimit = n ∧
      (n = 0 → t.cur.pc = s.cur.pc + BitVec.ofNat 64 (8 * (len.toNat + 1)) ∧ t.cur.lbody = s.cur.lbody) ∧
      (n ≠ 0 → t.cur.pc = s.cur.pc + 8 ∧ t.cur.lbody.getLsbD 63 = true ∧ t.cur.lbody.getLsbD 62 = extended ∧
        t.cur.bodyLen = len.toNat ∧
        ((s.cur.pc + 8).toNat % 8 = 0 ∧ (s.cur.pc + 8).toInt < 2 ^ 47 ∧ -(2 ^ 47) ≤ (s.cur.pc + 8).toInt → t.cur.bodyAt = s.cur.pc + 8)) ∧
      s.OnlyScalars { t with cur := { t.cur with ftbase := s.cur.ftbase, llimit := s.cur.llimit } })

/-- NOP does nothing but go on; after the last word of an active loop's body LCOUNT counts the pass, and the next pass begins while LCOUNT is
below LLIMIT, else the loop ends and the word after the body follows (R138, R151). -/
def Obligations.LoopPasses : Prop := ∀ s : State, s.Executes .nop [] [] →
  let last : Prop := s.cur.lbody.getLsbD 63 = true ∧ s.cur.pc = s.cur.bodyAt + BitVec.ofNat 64 (8 * s.cur.bodyLen - 8)
  s.Ends .nop fun t => s.KeepsRegs t ∧ s.Recorded t ∧ s.OnlyScalars t ∧
    (¬ last → t.cur.pc = s.cur.pc + 8 ∧ t.cur.lcount = s.cur.lcount ∧ t.cur.lbody = s.cur.lbody) ∧
    (last → t.cur.lcount = s.cur.lcount + 1 ∧
      if (s.cur.lcount + 1).toNat < s.cur.llimit.toNat then t.cur.pc = s.cur.bodyAt ∧ t.cur.lbody = s.cur.lbody
      else t.cur.pc = s.cur.pc + 8 ∧ t.cur.lbody = s.cur.lbody &&& 0x7FFFFFFFFFFFFFFF)

/-- BRK raises BRKPT with its code in TVAL and its own address in TRET, and NOP's word is the one the manual writes out (R151). -/
def Obligations.BreakpointTraps : Prop := ∀ (code : BitVec 32) (s : State),
  s.Executes (.brk code) [] [] → s.cur.run = .running → s.cur.tlevel = 0 → s.cur.tvec ≠ 0 → s.prompt = true → s.cur.window = [] → s.CutsNow →
    ∃ t, exec (.brk code) s = .next t ∧ t.cur.tcause1 = 0x261 ∧ t.cur.tval1 = BitVec.ofNat 64 code.toNat ∧
      t.cur.tret1 = s.cur.pc ∧ t.cur.pc = s.cur.tvec ∧ t.cur.tlevel = 1

/-- A class 3 word that the body of an active loop may not hold raises ILLFLD: in any body a call, a return, a jump or a loop word, in the body
of a LOOP a branch as well (R139). -/
def Obligations.LoopBodiesForbidTransfers : Prop := ∀ (s : State) (i : Instr),
  s.cur.inBody s.cur.pc = true → (s.cur.isCore = true → coreIllopWord (encode i) = false) →
    ((∃ a b off, i = .call a off ∨ i = .callr a b ∨ i = .ret b ∨ i = .jmpr b) ∨
      (∃ c n m e, i = .loop c n m e ∨ i = .loopx c n m e) ∨
      (s.cur.lbody.getLsbD 62 = false ∧ ∃ a b off, i = .br off ∨ i = .beq a b off ∨ i = .bne a b off ∨ i = .blt a b off ∨
        i = .bge a b off ∨ i = .bltu a b off ∨ i = .bgeu a b off)) →
    exec i s = .next (s.raise (seqTrap .illfld (encode i)))

/-- LD from a memory page: the value comes from the home, or on the default path from an L1 copy of the sector that no later value of its bytes has been
read past, with what the unit itself has buffered over it; a poisoned sector raises UNCORR with the address of the lowest byte in it.  Where the access cannot
reach its home at once it sets out, and behind an earlier access of its class that waits in the commit window it is held there: s[a] awaits it (R83-R85,
R59, 06 R125). -/
def Obligations.LoadsFromMemory : Prop := ∀ (size : BitVec 2) (sx byp : Bool) (oc : BitVec 4) (a b : Reg) (imm : BitVec 32) (s : State) (p : Place),
  let i : Instr := .ld size sx byp oc a b imm
  let va : Word := s.cur.rs b + imm.signExtend 64
  let n : Nat := 2 ^ size.toNat
  let copy : Option SectorCopy := if byp || p.mtype == 1 then none else s.cur.l1.find? fun c => c.serves p.addr n
  let walked : State := s.scrubWalk s.cur.gid va
  let load (sent : Option Nat) : HeldLoad := {
    cls := oc, path := if byp || p.mtype = 1 then .home else .cached, va := va, addr := p.addr, n := n, dest := .scalar a size sx, sent := sent, sect := p.home }
  let waits (t : State) (sent : Option Nat) : Prop := s.NextWord t ∧
    (∃ e, t.cur.window = s.cur.window ++ [e] ∧ e.load = some (load sent) ∧ e.before = s.cur.toSeqRegs) ∧
    (a ≠ 0 → t.cur.awaits [a] [] = true) ∧ s.KeepsRegs t ∧ ∀ g k, t.plainByte g k = s.plainByte g k
  s.Executes i [b] [] → va.toNat % n = 0 → s.translate s.cur.gid 1 .read true va = .ok p → p.mtype ≠ 3 → s.lineHeld s.cur.gid p = false →
    (windowFree s.cur.window oc = false → s.Ends i fun t => waits t none ∧ walked.OnlyScalars t) ∧
    (s.cur.classFree oc = true → (∀ e ∈ s.cur.window, ∀ x, e.load = some x → x.addr / 128 ≠ p.addr / 128) →
      (copy = none → s.linkTrap p.addr = none →
        (∀ k, s.poisonedIn? p.addr n = some k → ∃ m, (s.cur.framed = true → m = 0) ∧
          exec i s = .next (((s.pass m).scrubWalk s.cur.gid va).raise (seqTrap .uncorr (va + BitVec.ofNat 64 k)))) ∧
        (s.poisonedIn? p.addr n = none → s.MayLoad oc p.addr → ∃ v, Extends sx n (fun k => s.reads (p.addr + k)) v ∧
          s.Loads i a v (s.decodedFor va p.addr n)) ∧
        (s.poisonedIn? p.addr n = none → s.reachesNow s.cur.gid p.addr = false → s.Ends i fun t => waits t (some s.nextWrite) ∧
          ∃ x, t.cur.classQ = s.cur.classQ ++ [x] ∧ x.want = .load s.nextWrite n ∧ x.cls = oc ∧ x.addr = p.addr)) ∧
      (∀ c, copy = some c →
        ∃ v, Extends sx n (fun k => s.cur.over (fun x => c.data.getD (x % 128) 0) (p.addr + k)) v ∧
          s.Ends i fun t => s.SetsReg t a v ∧ s.NextWord t ∧ s.Recorded t ∧
            walked.OnlyScalars { t with cur := { t.cur with l0 := s.cur.l0, readFrom := s.cur.readFrom } }))

/-- LDS reads the scratch bank (R79, R85). -/
def Obligations.LoadsFromScratch : Prop := ∀ (size : BitVec 2) (sx : Bool) (oc : BitVec 4) (a b : Reg) (imm : BitVec 32) (s : State) (x : Nat),
  let i : Instr := .lds size sx oc a b imm
  let va : Word := s.cur.rs b + imm.signExtend 64
  let n : Nat := 2 ^ size.toNat
  s.Executes i [b] [] → va.toNat % n = 0 → s.windowByte .read va = .ok x → s.scratchHeld x = false → s.MayLoad oc x →
    (s.poisonedIn? x n = none → ∃ v, Extends sx n (fun k => s.reads (x + k)) v ∧ s.Loads i a v (s.scrubRun x n)) ∧
    (∀ k, s.poisonedIn? x n = some k → s.Raises i (seqTrap .uncorr (va + BitVec.ofNat 64 k)))

/-- ST and STS: where nothing waits to commit, the low bytes of s[a] stand in memory, no other byte of it changes, and no register; behind an instruction that
has not committed the store is held in the commit window, and no byte of memory changes (R79, R85, 06 R125). -/
def Obligations.Stores : Prop := ∀ (size : BitVec 2) (oc : BitVec 4) (a b : Reg) (imm : BitVec 32) (s : State),
  let va : Word := s.cur.rs b + imm.signExtend 64
  let n : Nat := 2 ^ size.toNat
  let walked : State := s.scrubWalk s.cur.gid va
  let done (i : Instr) (r : State) (addr : Nat) : Prop := s.Ends i fun t => s.Stores t addr n (s.cur.rs a) ∧ s.KeepsRegs t ∧ s.NextWord t ∧ s.Recorded t ∧
    (r.scrubRun addr n).OnlyScalars { t with
      mem := (r.scrubRun addr n).mem, cur := { t.cur with lanes := s.cur.lanes, heldSigs := s.cur.heldSigs, sailing := s.cur.sailing } }
  let held (i : Instr) (r : State) (addr : Nat) (sect : Option Nat) : Prop := s.Ends i fun t =>
    (∃ e recs, t.cur.window = s.cur.window ++ [e] ∧ e.pc = s.cur.pc ∧ e.before = s.cur.toSeqRegs ∧ e.push = none ∧ e.load = none ∧
      e.store = some (scalarAccess s.cur.gid .write oc addr (leBytes n (s.cur.rs a).toNat) sect, recs)) ∧
    s.KeepsRegs t ∧ s.NextWord t ∧ r.OnlyScalars t
  va.toNat % n = 0 → s.cur.buffering = false →
    (∀ p, s.Executes (.st size oc a b imm) [b, a] [] → s.translate s.cur.gid 1 .store true va = .ok p → p.mtype ≠ 3 → s.lineHeld s.cur.gid p = false →
      (s.cur.window = [] → s.MayStore oc p.addr → done (.st size oc a b imm) walked p.addr) ∧
      (s.cur.window ≠ [] → held (.st size oc a b imm) walked p.addr p.home)) ∧
    (∀ x, s.Executes (.sts size oc a b imm) [b, a] [] → s.windowByte .store va = .ok x →
      (s.cur.window = [] → s.scratchHeld x = false → s.MayStore oc x → done (.sts size oc a b imm) s x) ∧
      (s.cur.window ≠ [] ∨ s.scratchHeld x = true → held (.sts size oc a b imm) s x none))

/-- The traps of LD, ST, LDS and STS come in the order ALIGN, then those of the translation and of the window (R85, R79, 03 R69). -/
def Obligations.AccessTraps : Prop := ∀ (size : BitVec 2) (sx byp : Bool) (oc : BitVec 4) (a b : Reg) (imm : BitVec 32) (s : State),
  let va : Word := s.cur.rs b + imm.signExtend 64
  let aligned : Prop := va.toNat % 2 ^ size.toNat = 0
  let faults (i : Instr) (walks : Bool) (why : Option Trap) : Prop := (¬ aligned → s.Raises i (seqTrap .align va)) ∧
    (aligned → ∀ t, why = some t → ∃ k, (s.cur.framed = true → k = 0) ∧
      exec i s = .next ((if walks then (s.pass k).scrubWalk s.cur.gid va else s.pass k).raise t))
  let page (k : AccessKind) : Option Trap := match s.translate s.cur.gid 1 k true va with | .error t => some t | .ok _ => none
  let bank (k : AccessKind) : Option Trap := match s.windowByte k va with | .error t => some t | .ok _ => none
  (s.Executes (.ld size sx byp oc a b imm) [b] [] → faults (.ld size sx byp oc a b imm) true (page .read)) ∧
  (s.Executes (.st size oc a b imm) [b, a] [] → faults (.st size oc a b imm) true (page .store)) ∧
  (s.Executes (.lds size sx oc a b imm) [b] [] → faults (.lds size sx oc a b imm) false (bank .read)) ∧
  (s.Executes (.sts size oc a b imm) [b, a] [] → faults (.sts size oc a b imm) false (bank .store))

/-- DSET replaces one quarter of d[A] and keeps the others, DGET copies one, DLD loads all four from 32 bytes at the home; a DLD
address that is no multiple of 32 raises ALIGN (R93, R94, 02 R53). -/
def Obligations.DescriptorRegisters : Prop := ∀ (da : DReg) (a b : Reg) (q : BitVec 2) (oc : BitVec 4) (s : State),
  let desc (t : State) (x : Desc) (rest : State → Prop) : Prop := (∀ r, t.cur.rd r = if r = da then x else s.cur.rd r) ∧ s.KeepsRegs t ∧ s.NextWord t ∧ s.Recorded t ∧
    rest { t with cur := { t.cur with d := s.cur.d, dready := s.cur.dready } }
  (s.Executes (.dset da b q) [b] [da] → s.Ends (.dset da b q) fun t => ∃ x, desc t x s.OnlyScalars ∧
    ∀ k : Nat, k < 4 → x.extractLsb' (64 * k) 64 = if k = q.toNat then s.cur.rs b else (s.cur.rd da).extractLsb' (64 * k) 64) ∧
  (s.Executes (.dget a da q) [] [da] → s.Ends (.dget a da q) fun t => s.Wrote t a ((s.cur.rd da).extractLsb' (64 * q.toNat) 64)) ∧
  (s.Executes (.dld oc da b) [b] [] →
    ((s.cur.rs b).toNat % 32 ≠ 0 → s.Raises (.dld oc da b) (seqTrap .align (s.cur.rs b))) ∧
    ((s.cur.rs b).toNat % 32 = 0 → ∀ p, s.translate s.cur.gid 1 .read false (s.cur.rs b) = .ok p → s.lineHeld s.cur.gid p = false → s.MayLoad oc p.addr → s.poisonedIn? p.addr 32 = none →
      s.Ends (.dld oc da b) fun t => ∃ x, desc t x (s.decodedFor (s.cur.rs b) p.addr 32).OnlyLoaded ∧ ∀ k, k < 256 → x.getLsbD k = (s.reads (p.addr + k / 8)).getLsbD (k % 8)))

/-- FENCE goes on once every earlier access of the masked classes has performed at the scope, and waits until then; a release is carried by the later writes of
the classes, and nothing else that a program sees changes (R86). -/
def Obligations.Fences : Prop := ∀ (sem : BitVec 2) (scope : BitVec 3) (mask : BitVec 16) (s : State),
  let i : Instr := .fence sem scope mask
  s.Executes i [] [] → s.AtCommit → s.cur.lostIn mask = none → (sem.getLsbD 1 = true → s.cur.buffering = false) →
    (s.performed s.cur mask scope.toNat = true → s.Ends i fun t => s.KeepsRegs t ∧ s.NextWord t ∧ s.Recorded t ∧
      t.cur.carrier = (if sem.getLsbD 1 then some (scope, mask) else s.cur.carrier) ∧
      (sem.getLsbD 0 = false → t.cur.known = s.cur.known ∧ t.cur.readFrom = s.cur.readFrom) ∧
      (∀ k ∈ s.cur.known, k ∈ t.cur.known) ∧
      (sem.getLsbD 1 = false → t.cur.lanes = s.cur.lanes ∧ t.cur.meeting = s.cur.meeting ∧ t.cur.lastSigs = s.cur.lastSigs) ∧
      s.OnlyMet { t with cur := { t.cur with carrier := s.cur.carrier, known := s.cur.known, readFrom := s.cur.readFrom } }) ∧
    (s.performed s.cur mask scope.toNat = false → s.WaitsOn i)

/-- L1INV discards the copies of the sectors that its range reaches, no copy is added, and the unit issues nothing before 4 cycles and one for each line have passed;
PREF changes no register and no byte that a unit reads at a home; the copies that it adds hold what the home shows, and what cannot be fetched at once
enters the class queue as prefetches of its class (R87, R88). -/
def Obligations.CacheHints : Prop := ∀ (b c : Reg) (oc : BitVec 4) (s : State),
  let va : Nat := (s.cur.rs b).toNat
  let n : Nat := (s.cur.rs c).toNat
  let lines : Nat := if n = 0 then 0 else (va + n - 1) / 256 - va / 256 + 1
  (s.Executes (.l1inv b c) [b, c] [] → s.AtCommit → s.Ends (.l1inv b c) fun t => s.KeepsRegs t ∧ s.NextWord t ∧ s.Recorded t ∧
    (∀ x ∈ t.cur.l1, x ∈ s.cur.l1) ∧ (∀ x ∈ t.cur.l0, x ∈ s.cur.l0) ∧ t.cur.busy = t.cur.time + 4 + min 512 lines ∧
    (∀ x, x ∈ t.cur.l1 ∨ x ∈ t.cur.l0 → ∀ q m, 0 < n → va / 128 ≤ q → q ≤ (va + n - 1) / 128 →
      s.lookup s.cur.gid (BitVec.ofNat 64 (128 * q)) = .ok m → x.sector ≠ s.addrOf s.myDev (m.pa (BitVec.ofNat 64 (128 * q))) / 128) ∧
    s.OnlyScalars { t with cur := { t.cur with l1 := s.cur.l1, l0 := s.cur.l0, busy := s.cur.busy } }) ∧
  (s.Executes (.pref oc b c) [b, c] [] → s.Ends (.pref oc b c) fun t => s.KeepsRegs t ∧ s.NextWord t ∧ s.Recorded t ∧
    (∀ g a, t.plainByte g a = s.plainByte g a) ∧ (∀ x ∈ t.cur.l1, x ∈ s.cur.l1 ∨ x.data = s.plainBytes s.cur.gid (128 * x.sector) 128) ∧
    (∃ l, t.cur.classQ = s.cur.classQ ++ l ∧ ∀ x ∈ l, x.cls = oc ∧ x.data = [] ∧ ∃ fills, x.want = .prefetch fills) ∧
    s.OnlyScalars { t with
      devs := s.devs, mem := s.mem, poison := s.poison, latent := s.latent, nextWrite := s.nextWrite
      cur := { t.cur with l1 := s.cur.l1, classQ := s.cur.classQ } })

/-- BANKMODE to the mode the bank has completes and returns it; to another one it commits as the change begins, returns the former mode, and the unit issues
nothing before the cycles of the change are over, 4096 and those of the dirty sectors of a bank that leaves CACHE mode: in a prompt machine at once, else once the change's own step has come; the traps come in the order
ILLFLD, PRIV, SECVIOL (R89-R92). -/
def Obligations.BankModes : Prop := ∀ (a b c : Reg) (s : State),
  let i : Instr := .bankmode a b c
  let dev : Dev := gidDev s.cur.gid
  let d : Device := s.dev dev
  let sel : Word := s.cur.rs b
  let mode : Word := s.cur.rs c
  let n : Nat := if s.cur.isCore then sel.toNat else 32 * gidSection s.cur.gid + sel.toNat
  let bank : Bank := d.bank n
  let reserved : Prop := (if s.cur.isCore then 2 ^ 11 else 2 ^ 5) ≤ sel.toNat ∨ 5 ≤ mode.toNat
  let denied : Prop := s.cur.isCore = false ∧ s.cur.handlerMode = false ∧ bank.owner ≠ s.cur.task
  let secret : Prop := d.bankSecure n = true ∧ s.cur.trusted = false
  let others (t : State) : Prop := ∀ k, k ≠ n → (t.dev dev).bank k = d.bank k
  s.Executes i [b, c] [] → s.AtCommit →
    (reserved → s.Raises i (seqTrap .illfld (encode i))) ∧
    (¬ reserved → denied → s.Raises i (seqTrap .priv sel)) ∧
    (¬ reserved → ¬ denied → secret → s.Raises i (seqTrap .secviol sel)) ∧
    (¬ reserved → ¬ denied → ¬ secret →
      (bank.changing = none → bank.mode = mode.setWidth 3 → s.Ends i fun t => s.Wrote t a mode) ∧
      (bank.changing = none → bank.mode ≠ mode.setWidth 3 → s.prompt = true → bank.mode ≠ 4 → s.Ends i fun t =>
        s.SetsReg t a (bank.mode.setWidth 64) ∧ s.NextWord t ∧ s.Recorded t ∧ others t ∧ ∃ cycles, 4096 ≤ cycles ∧ (bank.mode ≠ 0 → cycles = 4096) ∧ t.cur.busy = t.cur.time + cycles ∧
        (t.dev dev).bank n = { bank with changing := some (mode.setWidth 3), asker := s.cur.gid, begun := true, ends := t.cur.time + cycles, told := true }) ∧
      (bank.changing = none → bank.mode ≠ mode.setWidth 3 → s.prompt = false → s.StaysOn i fun t => s.KeepsRegs t ∧ t.cur.pc = s.cur.pc ∧ others t ∧
        ((t.dev dev).bank n).changing = some (mode.setWidth 3) ∧ ((t.dev dev).bank n).asker = s.cur.gid ∧ ((t.dev dev).bank n).begun = false ∧
        ((t.dev dev).bank n).mode = bank.mode) ∧
      (bank.changing ≠ none → bank.begun = true → bank.told = false → bank.asker = s.cur.gid → s.Ends i fun t =>
        s.SetsReg t a (bank.mode.setWidth 64) ∧ s.NextWord t ∧ s.Recorded t ∧ others t ∧ (t.dev dev).bank n = { bank with told := true } ∧
        t.cur.busy = max t.cur.time bank.ends))

/-- The integer atomics: s[A] receives the old value, and memory the new one computed from it and s[C], at the operation's width; no other
byte changes (R252). -/
def Obligations.IntegerAtomics : Prop := ∀ (w : Bool) (sem : BitVec 2) (scope : BitVec 3) (oc : BitVec 4) (mask : BitVec 16) (a b c : Reg) (s : State) (p : Place),
  let n : Nat := if w then 4 else 8
  let old : Word := BitVec.ofNat 64 (s.number p.addr n)
  let x : Word := s.cur.rs c
  let ends (i : Instr) (new : Word) : Prop := s.Executes i [b, c, 0] [] → s.AtCommit →
    s.MayRequest .atomic n oc (if semRel sem then mask else 0) (if semRel sem then some (scope, mask) else none) (s.cur.rs b) p →
    s.Ends i fun t => s.SetsReg t a (narrow w (sgn w old)) ∧ s.Stores t p.addr n new ∧ t.cur.fstat = s.cur.fstat ∧ s.NextWord t ∧ s.Recorded t ∧
      s.OnlyRequested t
  ends (.aadd w sem scope oc mask a b c) (old + x) ∧
  ends (.aand w sem scope oc mask a b c) (old &&& x) ∧
  ends (.aor w sem scope oc mask a b c) (old ||| x) ∧
  ends (.axor w sem scope oc mask a b c) (old ^^^ x) ∧
  ends (.amin w sem scope oc mask a b c) (if sgn w old ≤ sgn w x then old else x) ∧
  ends (.amax w sem scope oc mask a b c) (if sgn w old ≤ sgn w x then x else old) ∧
  ends (.aminu w sem scope oc mask a b c) (if uns w old ≤ uns w x then old else x) ∧
  ends (.amaxu w sem scope oc mask a b c) (if uns w old ≤ uns w x then x else old) ∧
  ends (.aswap w sem scope oc mask a b c) x

/-- ACAS writes s[D] only where the old value is s[C], and AFADD the sum rounded to nearest even, whose flags enter FSTAT and never trap; s[A]
receives the old value (R252). -/
def Obligations.OtherAtomics : Prop := ∀ (w : Bool) (sem : BitVec 2) (scope : BitVec 3) (oc : BitVec 4) (mask : BitVec 16) (a b c d : Reg) (s : State) (p : Place),
  let n : Nat := if w then 4 else 8
  let old : Nat := s.number p.addr n
  let low (r : Reg) : Nat := (s.cur.rs r).toNat % 2 ^ (8 * n)
  let f := if w then fp32 else fp64
  let exact := (f.val old).add false (f.val (low c))
  let sum := f.round .rne false exact.1
  let ready : Prop := s.AtCommit ∧
    s.MayRequest .atomic n oc (if semRel sem then mask else 0) (if semRel sem then some (scope, mask) else none) (s.cur.rs b) p
  (s.Executes (.acas w sem scope oc mask a b c d) [b, c, d] [] → ready →
    s.Ends (.acas w sem scope oc mask a b c d) fun t => s.SetsReg t a (narrow w (sgn w (BitVec.ofNat 64 old))) ∧
      s.Stores t p.addr n (if old = low c then s.cur.rs d else BitVec.ofNat 64 old) ∧ t.cur.fstat = s.cur.fstat ∧ s.NextWord t ∧ s.Recorded t ∧
      s.OnlyRequested t) ∧
  (s.Executes (.afadd w sem scope oc mask a b c) [b, c, 0] [] → ready →
    s.Ends (.afadd w sem scope oc mask a b c) fun t => s.SetsReg t a (BitVec.ofNat 64 old) ∧
      s.Stores t p.addr n (BitVec.ofNat 64 sum.1) ∧ t.cur.fstat = s.cur.fstat ||| (exact.2 ||| sum.2).setWidth 64 ∧ s.NextWord t ∧ s.Recorded t ∧
      s.OnlyRequested t)

/-- BARR: the last arrival moves the generation on, clears the count and returns the old generation; an earlier one counts itself and waits; a
participant count that is zero, above 65535 or at odds with the one recorded raises CLASPERR (R253, R254). -/
def Obligations.Barriers : Prop := ∀ (scope : BitVec 3) (mask : BitVec 16) (a b c : Reg) (s : State) (p : Place),
  let i : Instr := .barr scope mask a b c
  let w : Nat := s.number p.addr 8
  let gen : Nat := w / 2 ^ 32
  let expected : Nat := w / 2 ^ 16 % 2 ^ 16
  let arrived : Nat := w % 2 ^ 16 + 1
  let parts : Nat := (s.cur.rs c).toNat
  let bad : Prop := parts = 0 ∨ 65535 < parts ∨ (expected ≠ 0 ∧ expected ≠ parts)
  s.Executes i [b, c, 0] [] → s.AtCommit → s.MayRequest .atomic 64 0 mask (some (scope, mask)) (s.cur.rs b) p →
    (bad → ∃ u : State, exec i s = .next (u.raise (seqTrap .clasperr (s.cur.rs b))) ∧ u.cur.toSeqRegs = s.cur.toSeqRegs ∧ ∀ g k, u.plainByte g k = s.plainByte g k) ∧
    (¬ bad → (s.dev (addrDev p.addr)).arrival? (granuleKey p.addr) s.cur.gid = none →
      (arrived = parts → s.Ends i fun t => s.SetsReg t a (BitVec.ofNat 64 gen) ∧
        s.Stores t p.addr 8 (BitVec.ofNat 64 ((gen + 1) % 2 ^ 32 * 2 ^ 32)) ∧ s.NextWord t ∧ s.Recorded t ∧ s.OnlyRequested t) ∧
      (arrived ≠ parts → s.StaysOn i fun t => s.KeepsRegs t ∧ t.cur.pc = s.cur.pc ∧ t.cur.wait ≠ none ∧
        s.Stores t p.addr 8 (BitVec.ofNat 64 (gen * 2 ^ 32 + parts * 2 ^ 16 + arrived)) ∧
        (t.dev (addrDev p.addr)).arrival? (granuleKey p.addr) s.cur.gid =
          some { granule := granuleKey p.addr, gid := s.cur.gid, gen := BitVec.ofNat 32 gen }))

/-- BWAIT goes on where the generation is not the one s[C] names, and returns it; MWAIT where the word is not s[C], and returns it; neither
changes memory.  MSIG stores s[C] and wakes every unit that waits on the granule (R254, R255). -/
def Obligations.WaitsAndSignals : Prop := ∀ (scope : BitVec 3) (mask : BitVec 16) (a b c : Reg) (s : State) (p : Place),
  let w : Nat := s.number p.addr 8
  let ends (i : Instr) (n : Nat) (x : Nat) (go : Prop) : Prop :=
    s.Executes i [b, c, 0] [] → s.AtCommit → s.MayRequest .read n 0 0 none (s.cur.rs b) p →
      (go → s.Ends i fun t => s.SetsReg t a (BitVec.ofNat 64 x) ∧ s.NextWord t ∧ s.Recorded t ∧ (∀ g k, t.plainByte g k = s.plainByte g k) ∧
        s.OnlyRequested t) ∧
      (¬ go → s.StaysOn i fun t => s.KeepsRegs t ∧ t.cur.pc = s.cur.pc ∧ t.cur.wait ≠ none ∧ (∀ g k, t.plainByte g k = s.plainByte g k))
  ends (.bwait scope mask a b c) 64 (w / 2 ^ 32) (w / 2 ^ 32 ≠ (s.cur.rs c).toNat % 2 ^ 32) ∧
  ends (.mwait scope mask a b c) 8 w (w ≠ (s.cur.rs c).toNat) ∧
  (let i : Instr := .msig scope mask b c
   s.Executes i [b, c, 0] [] → s.AtCommit → s.MayRequest .atomic 8 0 mask (some (scope, mask)) (s.cur.rs b) p →
    s.Ends i fun t => s.KeepsRegs t ∧ s.Stores t p.addr 8 (s.cur.rs c) ∧ s.NextWord t ∧ s.Recorded t ∧
      (∀ u ∈ s.others, ∀ x, u.wait = some x → x.key = granuleKey p.addr → { u with wait := some { x with woken := true } } ∈ t.others) ∧
      s.OnlyRequested t)

/-- The ring instructions on a bound ring (R259), and RINIT, which binds one (R257): what s[A] receives and what becomes of the ring's counters; no
byte of memory changes.  RCOMMIT of a ticket behind the tail is noted, and one at the tail moves it over the tickets that follow. -/
def Obligations.Rings : Prop := ∀ (a b c : Reg) (k : BitVec 2) (mask : BitVec 16) (s : State) (sec ring : Nat) (r : Ring),
  let index : Nat := ringIndex sec ring
  let ticket : BitVec 32 := (s.cur.rs c).setWidth 32
  let config : Word := s.cur.rs c
  let ends (i : Instr) (third : Reg) (m : BitVec 16) (rel writes : Bool) (v : Option Word) (want : Ring) : Prop :=
    s.Executes i [b, third] [] → s.AtCommit → s.MayRing (s.cur.rs b) sec ring m rel writes →
      s.Ends i fun t => (match v with | some x => s.SetsReg t a x | none => s.KeepsRegs t) ∧
        (∃ r', s.SetsRing t index r' ∧ r'.config = want.config ∧ r'.claimed = want.claimed ∧ r'.tail = want.tail ∧ r'.head = want.head ∧
          r'.committed = want.committed) ∧
        s.NextWord t ∧ s.Recorded t ∧ (∀ g n, t.plainByte g n = s.plainByte g n) ∧ s.OnlyRequested t
  let bound : Prop := (s.dev (gidDev s.cur.gid)).rings.lookup index = some r
  let claimed : Prop := 1 ≤ (r.claimed - ticket).toNat ∧ (r.claimed - ticket).toNat ≤ 2 ^ 31
  let fits : Prop := (ticket - r.head).toNat < r.slots
  let fresh : Prop := (r.tail - r.head).toNat ≤ (ticket - r.head).toNat ∧ r.committed.contains ticket = false
  (ringConfigOk config = true → s.ringBanksOk s.cur sec ring config = true →
    ends (.rinit a b c) c 0 false false (some (BitVec.ofNat 64 ((fld config 5 5 + 1) * 524288 / (64 * 2 ^ fld config 10 4)))) (newRing config)) ∧
  (bound →
    ends (.rclaim a b) 0 0 false true (some (r.claimed.setWidth 64)) { r with claimed := r.claimed + 1 } ∧
    (claimed → fits → ends (.rwaite a b c) c 0 false false (some (ticket ++ BitVec.ofNat 32 ring)) r) ∧
    (claimed → fits → fresh → r.tail = ticket → r.committed.contains (ticket + 1) = false →
      ends (.rcommit mask b c) c mask true true none { r with tail := r.tail + 1, committed := r.committed.filter (· != ticket) }) ∧
    (claimed → fits → fresh → r.tail ≠ ticket → r.committed.contains r.tail = false →
      ends (.rcommit mask b c) c mask true true none { r with committed := r.committed ++ [ticket] }) ∧
    (r.tail ≠ r.head → ends (.rwaitf mask a b) 0 0 false false (some (r.head ++ BitVec.ofNat 32 ring)) r) ∧
    (ticket = r.head → r.tail ≠ r.head → ends (.rtake b c) c 0 false true none { r with head := r.head + 1 }) ∧
    ends (.rstat a b k) 0 0 false false (some (match k.toNat with
      | 0 => r.claimed.setWidth 64 | 1 => r.tail.setWidth 64 | 2 => r.head.setWidth 64 | _ => BitVec.ofNat 32 r.slots ++ r.config.setWidth 32)) r)

/-- The traps of the ring instructions: ILLFLD for a selector or a configuration with a bit that must be zero, RINGERR for a ring that is not bound,
for banks that RINIT may not bind, for a ticket that is not claimed, already committed or does not fit, and for a slot that is not the
head (R256, R257, R259). -/
def Obligations.RingTraps : Prop := ∀ (a b c : Reg) (mask : BitVec 16) (s : State) (sec ring : Nat) (r : Ring),
  let index : Nat := ringIndex sec ring
  let ticket : BitVec 32 := (s.cur.rs c).setWidth 32
  let traps (i : Instr) (third : Reg) (m : BitVec 16) (rel writes : Bool) : Prop :=
    s.Executes i [b, third] [] → s.AtCommit → s.MayRing (s.cur.rs b) sec ring m rel writes →
      ∃ u : State, exec i s = .next (u.raise (seqTrap .ringerr (s.cur.rs b))) ∧ u.cur.toSeqRegs = s.cur.toSeqRegs ∧ u.mem = s.mem
  let lookup : Option Ring := (s.dev (gidDev s.cur.gid)).rings.lookup index
  let unclaimed : Prop := ¬ (1 ≤ (r.claimed - ticket).toNat ∧ (r.claimed - ticket).toNat ≤ 2 ^ 31)
  (∀ i third, i = .rclaim a b ∧ third = 0 ∨ i = .rwaite a b c ∧ third = c ∨ i = .rtake b c ∧ third = c ∨ i = .rinit a b c ∧ third = c →
    s.Executes i [b, third] [] → s.AtCommit → ringSelector s.cur (s.cur.rs b) = none → s.Raises i (seqTrap .illfld (encode i))) ∧
  (s.Executes (.rinit a b c) [b, c] [] → s.AtCommit → (ringSelector s.cur (s.cur.rs b)).isSome = true → ringConfigOk (s.cur.rs c) = false →
    s.Raises (.rinit a b c) (seqTrap .illfld (encode (.rinit a b c)))) ∧
  (ringConfigOk (s.cur.rs c) = true → s.ringBanksOk s.cur sec ring (s.cur.rs c) = false → traps (.rinit a b c) c 0 false false) ∧
  (lookup = none → traps (.rclaim a b) 0 0 false true ∧ traps (.rwaite a b c) c 0 false false ∧ traps (.rcommit mask b c) c mask true true ∧
    traps (.rwaitf mask a b) 0 0 false false ∧ traps (.rtake b c) c 0 false true) ∧
  (lookup = some r → (unclaimed → traps (.rwaite a b c) c 0 false false ∧ traps (.rcommit mask b c) c mask true true) ∧
    (r.committed.contains ticket = true ∨ (ticket - r.head).toNat < (r.tail - r.head).toNat ∨ r.slots ≤ (ticket - r.head).toNat → traps (.rcommit mask b c) c mask true true) ∧
    (ticket ≠ r.head ∨ r.tail = r.head → traps (.rtake b c) c 0 false true))

/-- One step is exec of the instruction that the word at the PC encodes, nothing else, where no event is due and the unit issues, in the machine whose stacks
have decoded the sectors that the fetch reads, which is the machine itself where no sector holds an undecoded error; a word that is no instruction raises ILLOP or
ILLFLD and a fetch that faults its own trap; while the unit is busy nothing issues; an event of the agenda, and a unit named there, move first (06 R122,
21 R388, 03 R58, DESIGN CHOICE, log 4). -/
def Obligations.StepRunsDecoded : Prop := ∀ (s : State),
  let issues (u : Machine.Unit) : Prop := u.run = .running ∧ u.raised = none ∧ u.cutting = none ∧ u.debug = .off ∧ u.busy ≤ u.time
  (∀ i w, s.agenda = [] → issues s.cur → s.fetchAt s.cur.pc = .ok w → decode w = .ok i → step s = exec i (s.scrubFetch s.cur.pc)) ∧
  (∀ va, s.latent = [] → s.scrubFetch va = s) ∧
  (∀ w r, s.agenda = [] → issues s.cur → s.fetchAt s.cur.pc = .ok w → decode w = .error r →
    step s = .next ((s.scrubFetch s.cur.pc).raise (rejectTrap s.cur.isCore w r))) ∧
  (∀ t, s.agenda = [] → issues s.cur → s.fetchAt s.cur.pc = .error t → step s = .next ((s.scrubFetch s.cur.pc).raise t)) ∧
  (s.agenda = [] → s.cur.raised = none → s.cur.cutting = none → s.cur.debug = .off → s.cur.time < s.cur.busy → ∃ n, step s = .next (s.pass n).tick) ∧
  (∀ e later, s.agenda = .event e :: later → step s = exec e { s with agenda := later }) ∧
  (∀ g later i w, s.agenda = .unit g :: later → s.hasUnit g = true →
    let u : State := ({ s with agenda := later } : State).switchTo g
    issues u.cur → u.fetchAt u.cur.pc = .ok w → decode w = .ok i → step s = exec i (u.scrubFetch u.cur.pc))

/-- A cycle of a machine in which nothing is under way changes nothing but the clocks; and with one instruction in the commit window, which has no access of its
own to make, that instruction commits with the cycle in which it has completed, and not before (06 R123, R124; log 4). -/
def Obligations.QuietCycles : Prop := ∀ s : State,
  let later (u : Machine.Unit) : State := { s with clock := s.clock + 1, cur := { u with time := s.cur.time + 1, justGiven := [] } }
  s.Quiet → s.prompt = true →
    (s.cur.window = [] → s.tick = later s.cur) ∧
    (∀ e, s.cur.window = [e] → e.push = none → e.store = none → e.load = none →
      s.tick = later (if e.done ≤ s.cur.time + 1 then { s.cur with window := [], committed := s.cur.committed + 1 } else s.cur))

/-- A command that has run and waits for its end retires with the cycle in which its time is over, and not before: its flags enter FSTAT, its reply entries the
reply queue, and its token, which nothing takes before the next cycle, the FIFO that it gives to (05 R99, 06 R128, R132, 07 R159; a command that has
written nothing outside its quire, whose records and writes are none, and which its own engine has executed). -/
def Obligations.Retirements : Prop := ∀ (s : State) (y : Inflight),
  let c := y.command
  let g := y.gives
  let t := s.tick
  s.prompt = true → s.cur.window = [] → s.cur.inflight = [y] → (∀ q ∈ engineQueues, s.cur.queue q = []) → c.queue ∈ engineQueues → s.cur.classQ = [] → s.admQ = [] →
    s.flows = [] → s.pend = [] → (∀ d ∈ s.devs, d.held = []) → (∀ e ∈ s.myDev.banks, e.2.begun = false) → y.trace = [] → y.waiting = false → y.todo = false → c.engine = s.cur.gid →
    (∀ h oc r a b x, c.instr ≠ .scrply h oc r a b x) → s.cur.replies.length + y.replies.length ≤ 16 → g ≠ 7 → (g ≠ 0 → s.cur.fifo c.queue g < 8) →
    (s.cur.time + 1 < y.until_ → t.cur.inflight = [y] ∧ t.cur.replies = s.cur.replies ∧ t.cur.fstat = s.cur.fstat ∧ t.cur.tokens = s.cur.tokens) ∧
    (y.until_ ≤ s.cur.time + 1 → t.cur.inflight = [] ∧ t.cur.replies = s.cur.replies ++ y.replies ∧ t.cur.fstat = s.cur.fstat ||| y.flags.setWidth 64 ∧
      (∀ a b : BitVec 3, a ≠ 7 → b ≠ 7 → t.cur.fifo a b = if a = c.queue ∧ b = g ∧ g ≠ 0 then s.cur.fifo a b + 1 else s.cur.fifo a b) ∧
      (g ≠ 0 → t.cur.ripe c.queue g = s.cur.fifo c.queue g)) ∧
    t.cur.s = s.cur.s ∧ t.cur.v = s.cur.v ∧ t.cur.m = s.cur.m ∧ t.cur.d = s.cur.d ∧ t.cur.pc = s.cur.pc ∧ t.cur.time = s.cur.time + 1 ∧ t.mem = s.mem ∧
    t.devs = s.devs ∧ t.others = s.others

/-- A fetch reads the eight bytes of the word at their home, or in the level-zero cache or the L1 where a copy of the sector stands there
that may answer; it translates as a fetch, and a poisoned sector of which there is no copy raises UNCORR (06 R122, 04 R82, 03 R59). -/
def Obligations.Fetches : Prop := ∀ (s : State) (va : Word) (p : Place),
  let copy (l : List SectorCopy) : Option SectorCopy := l.find? fun c => c.serves p.addr 8
  (∀ t, s.translate s.cur.gid 1 .fetch false va = .error t → s.fetchAt va = .error t) ∧
  (s.translate s.cur.gid 1 .fetch false va = .ok p →
    (∀ c, copy s.cur.l0 = some c → s.fetchAt va = .ok (BitVec.ofNat 64 (fromLe ((c.data.drop (p.addr % 128)).take 8)))) ∧
    (∀ c, copy s.cur.l0 = none → copy s.cur.l1 = some c → s.fetchAt va = .ok (BitVec.ofNat 64 (fromLe ((c.data.drop (p.addr % 128)).take 8)))) ∧
    (copy s.cur.l0 = none → copy s.cur.l1 = none →
      (s.poisoned p.addr = true → s.fetchAt va = .error (seqTrap .uncorr va)) ∧
      (s.poisoned p.addr = false → ∃ w, s.fetchAt va = .ok w ∧
        ∀ k, k < 64 → w.getLsbD k = (s.plainByte s.cur.gid (p.addr + k / 8)).getLsbD (k % 8))))

/-- Decoding the word of a well-formed instruction gives the instruction back, with every operand at every value the encoding admits; and the same of
the forms of an edge body (02 R32-R42). -/
def Obligations.DecodeEncode : Prop :=
  (∀ i : Instr, i.isEvent = false → i.wf = true → decode (encode i) = .ok i) ∧
  (∀ x : EdgeForm, x.wf = true → decodeBody (encodeBody x) = .ok x)

/-- Words written out from the encodings of 02 R32 to R41, one of each class and format, and the instructions they stand for. -/
def Obligations.SpecWords : Prop :=
  decode 0x0001461C00000000 = .ok (.add false 5 6 7) ∧
  decode 0x10914000FFFFFFFE = .ok (.movi 5 0xFFFFFFFE) ∧
  decode 0x20328B30D0040000 = .ok (.ffma false 2 10 11 12 13) ∧
  decode 0x30114000FFFFFFFD = .ok (.beq 5 0 0xFFFFFFFD) ∧
  decode 0x30D0000000000000 = .ok .nop ∧
  decode 0x4001C50D00000000 = .ok (.ld 3 false true 0 7 5 0) ∧
  decode 0x50010518000B0001 = .ok (.aadd false 1 3 0 1 4 5 6) ∧
  decode 0x5160020000000000 = .ok (.twait 0 2) ∧
  decode 0xE010000000000000 = .ok .eret ∧
  decode 0xE0C0000000000000 = .ok .halt ∧
  decode 0xFFFFFFFFFFFFFFFF = .error .illop ∧
  decode 0xD000000000000000 = .error .illop

/-- A word of class 0xD or 0xF, or whose opcode is undefined in its class, is ILLOP, and so is on a system core a word that R16 marks; TVAL holds the
word; and in an edge body a word that is no edge-body form is ILLOP, with TRET at that word (R43, R45, R46). -/
def Obligations.UndefinedWords : Prop := ∀ (s : State) (w : Word),
  let cls : Nat := w.toNat / 2 ^ 60
  let op : Nat := w.toNat / 2 ^ 52 % 256
  let defined : Nat := [0x20, 0x0D, 0x11, 0x0F, 0x0B, 0x1A, 0x1F, 0x12, 0x0E, 0x06, 0x09, 0x04, 0x05, 0, 0x11, 0].getD cls 0
  s.agenda = [] → s.cur.run = .running → s.cur.raised = none → s.cur.cutting = none → s.cur.debug = .off → s.cur.busy ≤ s.cur.time → s.fetchAt s.cur.pc = .ok w →
    (defined ≤ op → decode w = .error .illop ∧ step s = .next ((s.scrubFetch s.cur.pc).raise (seqTrap .illop w))) ∧
    (op < defined → s.cur.isCore = true →
      (6 ≤ cls ∧ cls ≤ 12 ∨ cls = 4 ∧ 8 ≤ op ∧ op ≤ 10 ∨ cls = 5 ∧ 0x16 ≤ op ∧ op ≤ 0x19 ∨ cls = 14 ∧ op ∈ [4, 5, 6, 7, 8, 0xB, 0x10]) →
      step s = .next ((s.scrubFetch s.cur.pc).raise (seqTrap .illop w))) ∧
    (cls ≠ 11 ∨ op < 0x10 ∨ 0x19 < op → decodeBody w = .error .illop) ∧
    (∀ h oc da (forms : List EdgeForm) x, decode w = .ok (.ebind h oc da) → s.latent = [] → s.Executes (.ebind h oc da) [] [] → forms.length ≤ 16 →
      (∀ k, (hk : k < forms.length) → ∃ y, s.fetchAt (s.cur.pc + BitVec.ofNat 64 (8 * (k + 1))) = .ok y ∧ decodeBody y = .ok forms[k]) →
      EdgeForm.eend ∉ forms →
      s.fetchAt (s.cur.pc + BitVec.ofNat 64 (8 * (forms.length + 1))) = .ok x → decodeBody x = .error .illop →
      step s = .next (s.raise { seqTrap .illop x with tret := some (s.cur.pc + BitVec.ofNat 64 (8 * (forms.length + 1))) }))

/-- A walk without a cached translation: the level-1 entry at XBASE + 8 VA[47..33] is a block of 8 GiB or points to the table whose entry VA[32..18]
maps 256 KiB or, with the hint set, 32 MiB; an address or an entry that breaks a rule ends the walk with its reason and level (R63-R66, R70). -/
def Obligations.PageWalks : Prop := ∀ (s : State) (g : Gid) (va : Word),
  let u := s.unitAt g
  let d := s.dev (gidDev g)
  let table1 : Nat := u.xbase.toNat / 2 ^ 18 % 2 ^ 30 * 2 ^ 18
  let frame (e : Word) : Nat := e.toNat / 2 ^ 18 % 2 ^ 30 * 2 ^ 18
  let sound (e : Word) : Prop := e.toNat / 2 ^ 48 % 128 = 0 ∧ e.toNat % 2 ^ 14 = 0 ∧ (e.toNat / 2 ^ 58 % 4 = 1 ∨ e.toNat / 2 ^ 55 % 8 = 0)
  let gives (e : Word) (pa size level : Nat) : Prop :=
    (mapReason d e pa = none → ∃ m, s.lookup g va = .ok m ∧ m.entry = e ∧ m.size = size ∧ m.level = level ∧ m.pa va = pa) ∧
    (∀ r, mapReason d e pa = some r → s.lookup g va = .error (.reason r level))
  (∀ t ∈ u.tlb, t.covers u.xbase va = false) → (∀ t ∈ d.tlb, t.1 = gidSection g → t.2.covers u.xbase va = false) →
    (va.toNat / 2 ^ 47 ≠ 0 ∧ va.toNat / 2 ^ 47 ≠ 2 ^ 17 - 1 → s.lookup g va = .error (.reason 1 0)) ∧
    (va.toNat / 2 ^ 47 = 0 ∨ va.toNat / 2 ^ 47 = 2 ^ 17 - 1 →
      (tableOk d table1 = false → s.lookup g va = .error (.reason 8 0)) ∧
      (tableOk d table1 = true → ∀ e, s.tableEntry g (table1 + 8 * (va.toNat / 2 ^ 33 % 2 ^ 15)) = some e →
        (e.getLsbD 63 = false → s.lookup g va = .error (.reason 2 1)) ∧
        (e.getLsbD 63 = true → e.getLsbD 17 = false → sound e → e.toNat / 2 ^ 18 % 2 ^ 15 = 0 → gives e (frame e + va.toNat % 2 ^ 33) (2 ^ 33) 1) ∧
        (e.getLsbD 63 = true → e.getLsbD 17 = true → e.toNat / 2 ^ 48 % 2 ^ 15 = 0 → e.toNat % 2 ^ 17 = 0 → tableOk d (frame e) = true →
          ∀ e', s.tableEntry g (frame e + 8 * (va.toNat / 2 ^ 18 % 2 ^ 15)) = some e' →
            (e'.getLsbD 63 = false → s.lookup g va = .error (.reason 3 2)) ∧
            (e'.getLsbD 63 = true → sound e' → e'.getLsbD 17 = false → gives e' (frame e' + va.toNat % 2 ^ 18) (2 ^ 18) 2) ∧
            (e'.getLsbD 63 = true → sound e' → e'.getLsbD 17 = true →
              (e'.toNat / 2 ^ 18 % 128 = va.toNat / 2 ^ 18 % 128 →
                gives e' (frame e' / 2 ^ 25 * 2 ^ 25 + va.toNat % 2 ^ 25) (2 ^ 25) 2) ∧
              (e'.toNat / 2 ^ 18 % 128 ≠ va.toNat / 2 ^ 18 % 128 → s.lookup g va = .error (.reason 5 2))))))

/-- The checks of an access come in the order XLATF, SECVIOL, PROTV; TVAL holds the address, and XSTAT the queue, the access and the reason (R69, R70). -/
def Obligations.PageChecks : Prop := ∀ (s : State) (g : Gid) (q : BitVec 3) (k : AccessKind) (regs : Bool) (va : Word),
  let u := s.unitAt g
  let code : Nat := match k with | .read => 0 | .store => 1 | .fetch => 2 | .atomic => 3 | .copyRead => 4 | .copyWrite => 5
  let faults (c : Cause) (level reason : Nat) : Prop := ∃ t, s.translate g q k regs va = .error t ∧ t.cause = c ∧ t.tval = va ∧ t.queue = q ∧
    t.xstat = some (BitVec.ofNat 64 (q.toNat * 4096 + code * 256 + level * 16 + reason))
  (∀ r l, s.lookup g va = .error (.reason r l) → faults .xlatf l r) ∧
  (∀ l, s.lookup g va = .error (.poison l) → faults .uncorr l 0) ∧
  (∀ m, s.lookup g va = .ok m →
    let secure : Prop := m.entry.getLsbD 60 = true ∨ (s.dev (gidDev g)).regionSecure (m.pa va) = true
    let denied : Prop := ((k = .store ∨ k = .atomic ∨ k = .copyWrite) ∧ m.entry.getLsbD 62 = false) ∨
      (k = .fetch ∧ m.entry.getLsbD 61 = false) ∨ (m.entry.toNat / 2 ^ 14 % 8 = 3 ∧ regs = false)
    (u.trusted = false → secure → faults .secviol 0 0) ∧
    (u.trusted = true ∨ ¬ secure → denied → faults .protv 0 0) ∧
    (u.trusted = true ∨ ¬ secure → ¬ denied →
      s.translate g q k regs va = .ok {
        pa := m.pa va, addr := s.addrOf (s.dev (gidDev g)) (m.pa va), mtype := m.entry.toNat / 2 ^ 14 % 8,
        home := if m.entry.toNat / 2 ^ 58 % 4 = 1 then some (8 * (m.pa va / 2 ^ 36 % 8) + m.entry.toNat / 2 ^ 55 % 8) else none }))

/-- TWAIT takes a token for S from the FIFO of the queue and returns how many are left; TGIVE gives one, and the release in force goes with it; YPOP
takes the oldest reply entry; YPEEK copies it, or 0, and the count of entries, and removes nothing.  A token given in the very cycle is taken in a later one.  A TWAIT or a YPOP that nothing under way can
satisfy, and a TGIVE to a full FIFO, raise ILLFLD (R128-R134; where YPEEK names one register twice it holds the count: the model's choice, DESIGN CHOICE, log 45). -/
def Obligations.TokensAndReplies : Prop := ∀ (a b : Reg) (q : BitVec 3) (s : State),
  let n : Nat := s.cur.fifo q 1
  let ripe : Nat := s.cur.ripe q 1
  let keeps (t : State) : Prop := s.NextWord t ∧ s.Recorded t ∧ s.OnlyScalars { t with cur := { t.cur with
    tokens := s.cur.tokens, given := s.cur.given, taken := s.cur.taken, handed := s.cur.handed, replies := s.cur.replies,
    readGiven := s.cur.readGiven, readFrom := s.cur.readFrom } }
  let fifos (t : State) (from_ to_ : BitVec 3) (m : Nat) : Prop := ∀ x y : BitVec 3, x ≠ 7 → y ≠ 7 →
    t.cur.fifo x y = if x = from_ ∧ y = to_ then m else s.cur.fifo x y
  (s.Executes (.twait a q) [] [] → s.AtCommit → q ≠ 7 →
    (ripe ≠ 0 → s.Ends (.twait a q) fun t => s.SetsReg t a (BitVec.ofNat 64 (n - 1)) ∧ fifos t q 1 (n - 1) ∧ t.cur.replies = s.cur.replies ∧ keeps t) ∧
    (ripe = 0 → n ≠ 0 ∨ s.cur.willGive q = true → s.WaitsOn (.twait a q)) ∧
    (n = 0 → s.cur.willGive q = false → s.Raises (.twait a q) (seqTrap .illfld (encode (.twait a q))))) ∧
  (s.Executes (.tgive q) [] [] → s.AtCommit → q ≠ 7 →
    (s.cur.fifo 1 q < 8 → s.Ends (.tgive q) fun t => s.KeepsRegs t ∧ fifos t 1 q (s.cur.fifo 1 q + 1) ∧
      t.cur.handed = s.cur.handed ++ [(q, s.cur.carrier)] ∧ keeps t) ∧
    (8 ≤ s.cur.fifo 1 q → s.Raises (.tgive q) (seqTrap .illfld (encode (.tgive q))))) ∧
  (s.Executes (.ypop a) [] [] → s.AtCommit →
    (∀ x rest, s.cur.replies = x :: rest → s.Ends (.ypop a) fun t => s.SetsReg t a x ∧ t.cur.replies = rest ∧ t.cur.tokens = s.cur.tokens ∧ keeps t) ∧
    (s.cur.replies = [] → s.cur.willReply = true → s.WaitsOn (.ypop a)) ∧
    (s.cur.replies = [] → s.cur.willReply = false → s.Raises (.ypop a) (seqTrap .illfld (encode (.ypop a))))) ∧
  (s.Executes (.ypeek a b) [] [] → s.Ends (.ypeek a b) fun t => t.cur.replies = s.cur.replies ∧ t.cur.tokens = s.cur.tokens ∧ keeps t ∧
    ∀ r, t.cur.rs r = if r = b ∧ b ≠ 0 then BitVec.ofNat 64 s.cur.replies.length else if r = a ∧ a ≠ 0 then s.cur.replies.headD 0 else s.cur.rs r)

/-- The word of an engine command pushes it: the command, with its operands as they stand, enters the tail of its class's queue under the next number of
the queue, and its place in the commit window; no register changes, no byte of memory, and no other queue.  A full queue waits, and a command whose
descriptors, formats or loop do not fit raises ILLFLD; one whose stamp is the present cycle is looked at in it too.  An EBIND takes the forms up to the EEND with it, and the word after the EEND follows
(R126, R127, R129, 02 R42).  It is said of every engine instruction: class 6 (VADD to VMULH), class 7 (VCVT, VPACK, VUNPK, VPERM, VGATHS, VSCATS, VRED, VSCAN, VTOPK, VCMPR,
VEXPD, VLD, VST, VLDX, MAND, MOR, MNOT, MPOPC), class 8 (MMA, MMAZ, MMAC, MMAE, MRES, MBND_LYR, MBND_FIRST, MBND_SUM, MCOMP, MMAS, MMAB, MZERO, MWR, MRD, MCHK, MJOIN_JOIN,
MJOIN_LEAVE), class 9 (CPIN, CPROW, CPEXP, CPFILL, SCPROBE, SCRPLY), class A (CPOUT, CPSCT, CPPACK, CPRED, CPCOLL, CPSEND, CPPOST, SCREC, CPCNV) and class B (EBIND, ERUN, ESWP,
EFRNT). -/
def Obligations.EngineCommandsArePushed : Prop := ∀ (i : Instr) (s : State) (p : PushForm) (forms : List EdgeForm) (last : Word),
  let cls : Nat := (encode i).toNat / 2 ^ 60
  let desc (r : Option DReg) : Desc := match r with | some r => s.cur.rd r | none => 0
  let regs : List Reg := p.scalar.toList
  let binds : Prop := ∃ h oc da, i = .ebind h oc da
  let word (k : Nat) : Word := s.cur.pc + BitVec.ofNat 64 (8 * k)
  pushForm i = some p →
    (binds → s.latent = [] ∧ forms.length ≤ 16 ∧ EdgeForm.eend ∉ forms ∧ last = word (forms.length + 1) ∧
      (∀ k, (hk : k < forms.length) → ∃ y, s.fetchAt (word (k + 1)) = .ok y ∧ decodeBody y = .ok forms[k]) ∧
      ∃ y, s.fetchAt last = .ok y ∧ decodeBody y = .ok .eend) →
    (¬ binds → forms = [] ∧ last = s.cur.pc) →
    p.queue.toNat = (if cls = 6 ∨ cls = 7 then 4 else if cls = 8 then 3 else if cls = 9 then 2 else if cls = 10 then 5 else 6) ∧
    (∀ c, s.pushCommand i p forms = some c →
      s.Executes i regs (p.da.toList ++ p.db.toList ++ p.dc.toList ++ (extraReg i c.da c.db c.dc).toList) →
      (s.cur.queue p.queue).length < 64 → (s.cur.framed = true → s.cur.time ≤ c.due) → s.cur.vecShadow c = none →
      (∃ t, exec i s = .next t) ∧ c.instr = i ∧ c.queue = p.queue ∧ c.num = s.cur.nextNum[qidx p.queue] ∧ c.pc = s.cur.pc ∧ c.body = forms ∧ c.phase = s.cur.phase ∧
        (∀ r, p.scalar = some r → c.scalar = s.cur.rs r) ∧ (∀ r, p.db = some r → dWithFmt c.db 0 = dWithFmt (s.cur.rd r) 0) ∧
      ((s.cur.framed = true → s.cur.time < c.due) → s.Ends i fun t => s.KeepsRegs t ∧
        (∀ q, q ≠ 7 → t.cur.queue q = if q = p.queue then s.cur.queue q ++ [c] else s.cur.queue q) ∧
        t.cur.nextNum = s.cur.nextNum.set (qidx p.queue) (c.num + 1) ∧
        t.cur.window = s.cur.window ++ [{
          pc := s.cur.pc, before := s.cur.toSeqRegs,
          push := some (p.queue, c.num), store := none, load := none, done := t.cur.time + 1 }] ∧
        t.cur.pc = ({ s.cur with pc := last } : Machine.Unit).advance.pc ∧ (last = s.cur.pc → s.NextWord t) ∧
        s.OnlyScalars { t with cur := { t.cur with
          queues := s.cur.queues, nextNum := s.cur.nextNum, vready := s.cur.vready, mready := s.cur.mready } })) ∧
    (s.pushCommand i p forms = none → s.Executes i regs (p.da.toList ++ p.db.toList ++ p.dc.toList ++ (extraReg i (desc p.da) (desc p.db) (desc p.dc)).toList) →
      (s.cur.queue p.queue).length < 64 → s.Raises i (seqTrap .illfld (encode i))) ∧
    (s.Executes i [] [] → 64 ≤ (s.cur.queue p.queue).length → s.WaitsOn i)

/-- The arithmetic of class 6: each active element receives the exact result of its operation on the elements of v[A], v[B] and v[C], rounded once to
nearest even, or taken modulo the width for integers; floating minima, maxima and signs follow FMIN, FMAX, FABS and FNEG (R178-R181, R183). -/
def Obligations.VectorArithmetic : Prop := ∀ (h : EHead) (mk : MReg) (f : BitVec 4) (a b c : Reg),
  let each (i : Instr) (onInt : Nat → Int → Int → Int → Int) (onFloat : FSpec → Nat → Nat → Nat → Nat × Flags) : Prop :=
    Elementwise i [] mk a elemBits (fun u cmd k =>
      let w := elemBits cmd.fmt
      let x := element w (u.rv a) k
      let y := element w (u.rv b) k
      let z := element w (u.rv c) k
      match floatOf cmd.fmt with
      | some sp => onFloat sp x y z
      | none => ((onInt w (toSigned w x) (toSigned w y) (toSigned w z) % 2 ^ w).toNat, 0))
  let does (i : Instr) (onInt : Int → Int → Int → Int) (onFloat : FpVal → FpVal → FpVal → FpVal × Flags) : Prop :=
    each i (fun _ => onInt) (fun sp x y z =>
      let e := onFloat (sp.val x) (sp.val y) (sp.val z)
      let r := sp.round .rne false e.1
      (r.1, e.2 ||| r.2))
  let bits (i : Instr) (op : Nat → Nat → Nat → Nat) : Prop :=
    Elementwise i [] mk a elemBits (fun u cmd k =>
      let w := elemBits cmd.fmt
      (op w (element w (u.rv b) k) (element w (u.rv c) k), 0))
  let one (i : Instr) (op : FpVal → FpVal × Flags) : Prop := does i (fun _ y _ => y) (fun _ y _ => op y)
  let clamp (w : Nat) (x : Int) : Int := max (-(2 ^ (w - 1))) (min (2 ^ (w - 1) - 1) x)
  does (.vadd h mk f a b c) (fun _ y z => y + z) (fun _ y z => y.add false z) ∧
  does (.vsub h mk f a b c) (fun _ y z => y - z) (fun _ y z => y.add false z.neg) ∧
  does (.vmul h mk f a b c) (fun _ y z => y * z) (fun _ y z => y.mul z) ∧
  does (.vfma h mk f a b c) (fun x y z => y * z + x) (fun x y z => y.fma false z x) ∧
  does (.vfnma h mk f a b c) (fun x y z => x - y * z) (fun x y z => y.neg.fma false z x) ∧
  does (.vdiv h mk f a b c) (fun _ y _ => y) (fun _ y z => y.div z) ∧
  one (.vsqrt h mk f a b) FpVal.sqrt ∧ one (.vrsq h mk f a b) FpVal.rsqrt ∧ one (.vrcp h mk f a b) FpVal.recip ∧
  one (.vexp2 h mk f a b) FpVal.exp2 ∧ one (.vlog2 h mk f a b) FpVal.log2 ∧
  each (.vmin h mk f a b c) (fun _ _ y z => min y z) (fun sp _ y z => sp.minmax false y z) ∧
  each (.vmax h mk f a b c) (fun _ _ y z => max y z) (fun sp _ y z => sp.minmax true y z) ∧
  each (.vabs h mk f a b) (fun _ _ y _ => y.natAbs) (fun sp _ y _ => (y % 2 ^ (sp.bits - 1), 0)) ∧
  each (.vneg h mk f a b) (fun _ _ y _ => -y) (fun sp _ y _ => (y ^^^ 2 ^ (sp.bits - 1), 0)) ∧
  each (.vclamp h mk f a b c) (fun _ x y z => min (max x y) z) (fun sp x y z =>
    ((sp.minmax false (sp.minmax true x y).1 z).1, (sp.minmax true x y).2 ||| (sp.minmax false (sp.minmax true x y).1 z).2)) ∧
  bits (.vand h mk f a b c) (fun _ y z => y &&& z) ∧ bits (.vor h mk f a b c) (fun _ y z => y ||| z) ∧ bits (.vxor h mk f a b c) (fun _ y z => y ^^^ z) ∧
  bits (.vshl h mk f a b c) (fun w y z => y * 2 ^ (z % w)) ∧ bits (.vshr h mk f a b c) (fun w y z => y / 2 ^ (z % w)) ∧
  bits (.vsar h mk f a b c) (fun w y z => (toSigned w y / (2 ^ (z % w) : Nat) % 2 ^ w).toNat) ∧
  bits (.vadds h mk f a b c) (fun w y z => (clamp w (toSigned w y + toSigned w z) % 2 ^ w).toNat) ∧
  bits (.vmulh h mk f a b c) (fun w y z => (toSigned w y * toSigned w z / (2 ^ w : Nat) % 2 ^ w).toNat)

/-- The moves, comparisons, selections, permutations and mask operations of classes 6 and 7 (R181-R183, R187, R194, R195). -/
def Obligations.VectorMoves : Prop := ∀ (h : EHead) (mk : MReg) (f : BitVec 4) (a b c : Reg) (ma mb mc : MReg),
  let lanes (g : Machine.Unit → Nat → Nat) (u : Machine.Unit) (_ : Command) : BitVec 4096 :=
    BitVec.ofNat 4096 ((List.range 64).foldr (fun l acc => g u l % 2 ^ 64 + 2 ^ 64 * acc) 0)
  let below (u : Machine.Unit) (l : Nat) : Nat := (List.range l).countP fun k => (u.rm mk).getLsbD k
  let relates (i : Instr) (onInt : Int → Int → Prop) (onFloat : FpVal → FpVal → Bool) (quiet : Bool) : Prop :=
    ∀ (s : State) (p : PushForm) (cmd : Command), s.RunsNow i p cmd s.cur.pc [] → s.Executes i [] [] →
      let w := elemBits cmd.fmt
      let y (k : Nat) : Nat := element w (s.cur.rv b) k
      let z (k : Nat) : Nat := element w (s.cur.rv c) k
      let holds (k : Nat) : Prop := match floatOf cmd.fmt with
        | some sp => onFloat (sp.val (y k)) (sp.val (z k)) = true
        | none => onInt (toSigned w (y k)) (toSigned w (z k))
      let invalid (k : Nat) : Prop := match floatOf cmd.fmt with
        | some sp => if quiet then snanFlag [sp.val (y k), sp.val (z k)] ≠ 0 else (sp.val (y k)).isNan = true ∨ (sp.val (z k)).isNan = true
        | none => False
      ∃ t, exec i s = .next t ∧ t.cur.v = s.cur.v ∧ s.NextWord t ∧ s.OnlyVectors t ∧
        t.HasRun cmd [] (fun g => ∀ n, g.getLsbD n = true ↔
          flagNV.getLsbD n = true ∧ ∃ k, k < 4096 / w ∧ (s.cur.rm mk).getLsbD (w * k / 64) = true ∧ invalid k) ∧
        (∀ r, r ≠ ma → t.cur.rm r = s.cur.rm r) ∧
        (ma ≠ 0 → ∀ l, l < 64 → ((t.cur.rm ma).getLsbD l = true ↔
          if (s.cur.rm mk).getLsbD l then ∀ k, k < 4096 / w → w * k / 64 = l → holds k else (s.cur.rm ma).getLsbD l = true))
  relates (.vceq h mk f ma b c) (fun x y => x = y) FpVal.eq true ∧
  relates (.vclt h mk f ma b c) (fun x y => x < y) FpVal.lt false ∧
  relates (.vcle h mk f ma b c) (fun x y => x ≤ y) (fun x y => x.lt y || x.eq y) false ∧
  Elementwise (.vmov h mk f a b) [] mk a (fun _ => 64) (fun u _ k => (element 64 (u.rv b) k, 0)) ∧
  Elementwise (.vmovs h mk f a b) [b] mk a elemBits (fun u _ _ => ((u.rs b).toNat, 0)) ∧
  Elementwise (.viota h mk f a b) [b] mk a elemBits (fun u _ k => ((u.rs b).toNat + k, 0)) ∧
  Elementwise (.vperm h mk f a b c) [] mk a elemBits (fun u cmd k =>
    let n := 4096 / elemBits cmd.fmt
    let j := toSigned 16 (element 16 (u.rv (c + BitVec.ofNat 6 (k / 256))) (k % 256))
    (if 0 ≤ j ∧ j < n then element (elemBits cmd.fmt) (u.rv b) j.toNat else 0, 0)) ∧
  WritesVector (.vsel h mk f a b c) a (lanes fun u l => if (u.rm mk).getLsbD l then element 64 (u.rv b) l else element 64 (u.rv c) l) ∧
  WritesVector (.vexpd h mk f a b) a (lanes fun u l => if (u.rm mk).getLsbD l then element 64 (u.rv b) (below u l) else 0) ∧
  WritesMask (.mand h ma mb mc) ma (fun u _ => u.rm mb &&& u.rm mc) ∧
  WritesMask (.mor h ma mb mc) ma (fun u _ => u.rm mb ||| u.rm mc) ∧
  WritesMask (.mnot h ma mb) ma (fun u _ => ~~~(u.rm mb)) ∧
  (∀ (s : State) (p : PushForm) (cmd : Command), s.RunsNow (.vcmpr h mk f a b) p cmd s.cur.pc [] → s.Executes (.vcmpr h mk f a b) [] [] →
    ∃ t, exec (.vcmpr h mk f a b) s = .next t ∧ (∀ r, r ≠ a → t.cur.rv r = s.cur.rv r) ∧ t.cur.m = s.cur.m ∧ t.HasRun cmd [] (· = 0) ∧
      (∀ l, l < 64 → (s.cur.rm mk).getLsbD l = true → element 64 (t.cur.rv a) (below s.cur l) = element 64 (s.cur.rv b) l) ∧
      (∀ k, below s.cur 64 ≤ k → k < 64 → element 64 (t.cur.rv a) k = 0) ∧ s.NextWord t ∧ s.OnlyVectors t) ∧
  (∀ (s : State) (p : PushForm) (cmd : Command), s.RunsNow (.mpopc h mb) p cmd s.cur.pc [] → s.Executes (.mpopc h mb) [] [] →
    ∃ t, exec (.mpopc h mb) s = .next t ∧ t.HasRun cmd [BitVec.ofNat 64 ((List.range 64).countP fun l => (s.cur.rm mb).getLsbD l)] (· = 0) ∧
      t.cur.v = s.cur.v ∧ t.cur.m = s.cur.m ∧ s.NextWord t ∧ s.OnlyVectors t)

/-- NDAGREE copies s[B] in an unreplicated task, and in a replicated one writes the lead's value once it is known; SIGRD reads a lane of a queue, or what a replica
presented at the last meeting; COPEN opens a region whose handler is PC + 8 * imm, at most four deep, and CCLOSE closes the innermost one once its
commands have retired; KATSTAT reads the known-answer counts and the owner's setting (R371, R372, R375, R376, R379). -/
def Obligations.Redundancy : Prop := ∀ (a b : Reg) (met iso buffered : Bool) (n : BitVec 3) (k : BitVec 2) (off : BitVec 32) (s : State),
  let keeps (t : State) : Prop := s.NextWord t ∧ s.Recorded t ∧ s.OnlyScalars { t with cur := { t.cur with
    ndCount := s.cur.ndCount, ndResult := s.cur.ndResult, regions := s.cur.regions, busy := s.cur.busy } }
  let lane : Word × Word := if met then s.cur.lastSigs.toList.getD n.toNat (0, 0) else s.cur.lanes[qidx n]
  s.AtCommit →
  (s.Executes (.ndagree a b) [b] [] →
    (s.cur.live ≤ 1 → s.Ends (.ndagree a b) fun t => s.SetsReg t a (s.cur.rs b) ∧ t.cur.ndCount = s.cur.ndCount + 1 ∧ keeps t) ∧
    (∀ x, 1 < s.cur.live → s.cur.ndResult = some x → s.Ends (.ndagree a b) fun t => s.SetsReg t a x ∧ t.cur.ndCount = s.cur.ndCount + 1 ∧
      t.cur.ndResult = none ∧ keeps t)) ∧
  (s.Executes (.sigrd met iso a n) [] [] → (met = true → n.toNat ≤ 2) → (met = false → 1 ≤ n.toNat ∧ n.toNat ≤ 6) →
    s.Ends (.sigrd met iso a n) fun t => s.Wrote t a (if iso then lane.2 else lane.1)) ∧
  (s.Executes (.copen buffered off) [] [] →
    (s.cur.regions.length < 4 → s.Ends (.copen buffered off) fun t => s.KeepsRegs t ∧
      t.cur.regions = s.cur.regions ++ [{ handler := s.cur.pc + BitVec.ofInt 64 (8 * off.toInt), buffered := buffered }] ∧ keeps t) ∧
    (4 ≤ s.cur.regions.length → s.Raises (.copen buffered off) (seqTrap .illfld (encode (.copen buffered off))))) ∧
  (s.Executes .cclose [] [] →
    (s.cur.regions = [] → s.Raises .cclose (seqTrap .illfld (encode .cclose))) ∧
    (∀ outer r, s.cur.regions = outer ++ [r] → s.cur.regionDone = true → r.buffered = false → s.cur.relBuf = [] → s.cur.heldSigs = [] →
      s.Ends .cclose fun t => s.KeepsRegs t ∧ t.cur.regions = outer ∧ t.cur.busy = t.cur.time + 2 ∧ keeps t) ∧
    (s.cur.regions ≠ [] → s.cur.regionDone = false → s.WaitsOn .cclose)) ∧
  (s.Executes (.katstat a k) [] [] → s.Ends (.katstat a k) fun t => s.Wrote t a (match k.toNat with
    | 0 => s.cur.katTests | 1 => s.cur.katFails | 2 => s.cur.katLast
    | _ => BitVec.ofNat 64 (((s.dev (gidDev s.cur.gid)).reg 0x60048).toNat % 256)))

/-- TRAP n raises SWTRAP, and completes in every state in which it executes: at level 0 it enters level 1 and at level 1 level 2, with TCAUSE, TVAL, TRET and TSP
of that level written, s63 at its save area and the PC at TVEC; the other level's registers, every other scalar, vector, mask and descriptor register, FSTAT, the
loop registers and memory stay.  While a started command still runs the record waits for it, and where the machine is not prompt the trap waits for its step
(R382, R385, R388, R400; that a command which only waits for room in a FIFO or the reply queue does not hold the record up is the model's choice, log 10). -/
def Obligations.SoftwareTraps : Prop := ∀ (n : BitVec 32) (s : State),
  let x : Trap := { seqTrap .swtrap (n.setWidth 64) with tret := some (s.cur.pc + 8) }
  let handled : Prop := s.cur.tvec ≠ 0 ∧ (s.cur.tlevel = 0 ∨ s.cur.tlevel = 1)
  s.Executes (.trap n) [] [] → s.AtCommit →
    (∃ t, exec (.trap n) s = .next t) ∧
    (s.prompt = false → exec (.trap n) s = .next { s with cur := { s.cur with raised := some x } }) ∧
    (s.prompt = true → handled → (∃ y ∈ s.cur.inflight, State.onlyRoom { s with cur := s.cur.dropRequest } y = false) → ∃ t, exec (.trap n) s = .next t ∧ t.cur.cutting.isSome = true ∧
      t.cur.tlevel = s.cur.tlevel ∧ t.cur.pc = s.cur.pc ∧ s.KeepsRegs t ∧ t.cur.inflight = s.cur.inflight ∧ ∀ g k, t.plainByte g k = s.plainByte g k) ∧
    (s.prompt = true → handled → s.CutsNow →
      ∃ t, exec (.trap n) s = .next t ∧ t.cur.tlevel = s.cur.tlevel + 1 ∧ t.cur.pc = s.cur.tvec ∧ t.cur.busy = s.cur.time + 12 ∧ t.cur.cutting = none ∧
        s.SetsReg t 63 (s.cur.tsave + 512 * s.cur.tlevel.setWidth 64) ∧
        (if s.cur.tlevel = 0 then
          t.cur.tcause1 = 0x260 ∧ t.cur.tval1 = n.setWidth 64 ∧ t.cur.tret1 = s.cur.pc + 8 ∧ t.cur.tsp1 = s.cur.rs 63 ∧
            t.cur.tcause2 = s.cur.tcause2 ∧ t.cur.tval2 = s.cur.tval2 ∧ t.cur.tret2 = s.cur.tret2 ∧ t.cur.tsp2 = s.cur.tsp2
        else
          t.cur.tcause2 = 0x260 ∧ t.cur.tval2 = n.setWidth 64 ∧ t.cur.tret2 = s.cur.pc + 8 ∧ t.cur.tsp2 = s.cur.rs 63 ∧
            t.cur.tcause1 = s.cur.tcause1 ∧ t.cur.tval1 = s.cur.tval1 ∧ t.cur.tret1 = s.cur.tret1 ∧ t.cur.tsp1 = s.cur.tsp1) ∧
        t.cur.d = s.cur.d ∧ t.cur.v = s.cur.v ∧ t.cur.m = s.cur.m ∧ t.cur.fstat = s.cur.fstat ∧ t.cur.lcount = s.cur.lcount ∧ t.cur.llimit = s.cur.llimit ∧
        t.cur.lbody = s.cur.lbody ∧ t.cur.ftbase = s.cur.ftbase ∧ t.cur.xstat = s.cur.xstat ∧ t.cur.cstat = s.cur.cstat ∧ t.cur.xbase = s.cur.xbase ∧
        t.cur.tvec = s.cur.tvec ∧ t.cur.tsave = s.cur.tsave ∧ t.cur.tokens = s.cur.tokens ∧ t.cur.replies = s.cur.replies ∧ t.cur.inflight = s.cur.inflight ∧
        t.devs = s.devs ∧ t.others = s.others ∧ ∀ g k, t.plainByte g k = s.plainByte g k)

/-- Taking a trap through the cut at level 0 or 1: every uncommitted instruction is undone, its registers and the oldest one's PC come back; every command that has
not started is discarded, and QCUT of its queue and the next push number name the first of them.  The record follows when no started command runs any more: TRET
holds that PC, and s63 of that moment is in TSP.  At level 2, or without a handler, a system core stops (R384-R386, R388, R389, R394; that a command which only
waits for room in a FIFO or the reply queue stays in flight is the model's choice, log 10). -/
def Obligations.TrapsFormTheCut : Prop := ∀ (s : State) (x : Trap),
  let t : State := s.raise x
  let before : SeqRegs := match s.cur.window with | [] => s.cur.toSeqRegs | e :: _ => e.before
  let at_ : Word := match s.cur.window with | [] => s.cur.pc | e :: _ => e.pc
  let level : Word := if s.cur.tlevel = 0 then 1 else 2
  x.cut = true ∨ (s.prompt = true ∧ s.cur.window = []) → x.cause.containEvent = none →
    (s.cur.tlevel = 0 ∨ s.cur.tlevel = 1 → s.cur.tvec ≠ 0 →
      (t.cur.window = [] ∧ t.cur.committed = s.cur.committed ∧ t.cur.raised = none ∧ t.cur.d = before.d ∧
        t.cur.fstat = before.fstat ∧ t.cur.lcount = before.lcount ∧ t.cur.llimit = before.llimit ∧ t.cur.lbody = before.lbody ∧
        t.cur.qcut[1] = s.cur.committed ∧
        (∀ q ∈ engineQueues, (∀ c ∈ t.cur.queue q, c ∈ s.cur.queue q ∧ c.started = true) ∧ t.cur.nextNum[qidx q] = t.cur.qcut[qidx q] ∧
          t.cur.qcut[qidx q] = (match (s.cur.queue q).find? fun c => !c.started with | some c => c.num | none => s.cur.nextNum[qidx q])) ∧
        t.cur.inflight = s.cur.inflight ∧ t.cur.tokens = s.cur.tokens ∧ t.cur.v = s.cur.v ∧ t.cur.m = s.cur.m ∧
        ∀ g k, t.plainByte g k = s.plainByte g k) ∧
      (s.CutsNow → t.cur.pc = s.cur.tvec ∧ t.cur.tlevel.setWidth 64 = level ∧ t.cur.cutting = none ∧
        (∀ r : Reg, r ≠ 0 → t.cur.rs r = if r = 63 then s.cur.tsave + 512 * (level - 1) else before.s[r.toNat]) ∧
        (if level = 1 then t.cur.tcause1 = x.tcause ∧ t.cur.tval1 = x.tval ∧ t.cur.tret1 = x.tret.getD at_ ∧ t.cur.tsp1 = before.s[63]
         else t.cur.tcause2 = x.tcause ∧ t.cur.tval2 = x.tval ∧ t.cur.tret2 = x.tret.getD at_ ∧ t.cur.tsp2 = before.s[63]) ∧
        ∀ y, x.xstat = some y → t.cur.xstat = y) ∧
      ((∃ y ∈ s.cur.inflight, State.onlyRoom { s with cur := s.cur.dropRequest } y = false) → t.cur.cutting.isSome = true ∧ t.cur.pc = at_ ∧ t.cur.tlevel = s.cur.tlevel ∧
        ∀ r : Reg, r ≠ 0 → t.cur.rs r = before.s[r.toNat])) ∧
    (s.cur.isCore = true → s.cur.tlevel = 2 ∨ s.cur.tvec = 0 →
      (∀ host r, (s.dev (gidDev s.cur.gid)).boot ≠ .started host r) → t.cur.run = .dead)

/-- ERET at level n puts TSPn back into s63 and goes to TRETn at level n - 1; at level 1 each parked command goes back to its queue head, to go on where its QPROG
says, or is discarded where the state field of its QPROG is zero; the next pushes take the numbers of QCUT.  At level 0 it raises ILLFLD, a TRETn that is no multiple of 8 raises ALIGN,
and it waits for the commands pushed in handler mode (R386, R392, R400, R121). -/
def Obligations.ReturnsFromTraps : Prop := ∀ (s : State),
  let u := s.cur
  let sp : Word := if u.tlevel = 2 then u.tsp2 else u.tsp1
  let ret : Word := if u.tlevel = 2 then u.tret2 else u.tret1
  let qprog (c : Command) : Word := if c.queue = 2 then u.qprogL else if c.queue = 5 then u.qprogW else u.qprogE
  let goesOn (c : Command) : Prop := c.queue = 3 ∨ c.queue = 4 ∨ (qprog c).toNat / 2 ^ 62 ≠ 0
  let untouched : Prop := ∀ c ∈ u.parked, c.queue ∈ engineQueues ∧ ∃ k, c.resume = some k ∧
    (c.queue = 3 ∨ c.queue = 4 ∨ (qprog c).toNat / 2 ^ 62 = 0 ∨ qprog c = BitVec.ofNat 64 (2 ^ 62 + k) ∧ k < 2 ^ 62)
  s.Executes .eret [] [] → s.AtCommit →
    (u.tlevel = 0 → s.Raises .eret (seqTrap .illfld (encode .eret))) ∧
    (u.tlevel ≠ 0 → u.handlerBusy = true → s.WaitsOn .eret) ∧
    (u.tlevel ≠ 0 → u.handlerBusy = false → ret.toNat % 8 ≠ 0 → s.Raises .eret (seqTrap .align ret)) ∧
    (u.tlevel = 1 ∨ u.tlevel = 2 → u.handlerBusy = false → ret.toNat % 8 = 0 → (u.tlevel = 1 → untouched) →
      s.Ends .eret fun t => s.SetsReg t 63 sp ∧ t.cur.pc = ret ∧ t.cur.tlevel = u.tlevel - 1 ∧ t.cur.busy = t.cur.time + 8 ∧ s.Recorded t ∧
        (∀ q ∈ engineQueues, ∀ c, c ∈ t.cur.queue q ↔ c ∈ u.queue q ∨ u.tlevel = 1 ∧ c ∈ u.parked ∧ c.queue = q ∧ goesOn c) ∧
        (u.tlevel = 1 → t.cur.parked = []) ∧ (u.tlevel = 2 → t.cur.parked = u.parked) ∧ (∀ q ∈ engineQueues, t.cur.nextNum[qidx q] = u.qcut[qidx q]) ∧
        s.OnlyScalars { t with
          free := s.free
          cur := { t.cur with
            tlevel := u.tlevel, queues := u.queues, parked := u.parked, busy := u.busy, nextNum := u.nextNum, met := u.met, metBelow := u.metBelow,
            waitingAt := u.waitingAt } })

/-- MFSR reads the register that its index names, and a system core has only some of them; MTSR writes a writable one, without the bits that read as zero; a read-only
or unlisted index raises ILLFLD, and a handler register outside handler mode on a quire PRIV (R398, R401, 02 R48,
01 R16). -/
def Obligations.SystemRegisters : Prop := ∀ (a b : Reg) (idx : BitVec 12) (s : State),
  let u := s.cur
  let x : Word := u.rs b
  let onBoth : List (Nat × Word) := [(0x00, u.tvec), (0x01, u.tsave), (0x02, u.tlevel.setWidth 64),
    (0x10, u.tcause1), (0x11, u.tret1), (0x12, u.tval1), (0x13, u.tsp1), (0x18, u.tcause2), (0x19, u.tret2), (0x1A, u.tval2), (0x1B, u.tsp2),
    (0x20, u.qcut[1].setWidth 64), (0x30, u.xstat), (0x38, u.xbase), (0x40, u.fstat), (0x48, u.lcount), (0x49, u.llimit), (0x4A, u.lbody),
    (0x63, u.katTests), (0x70, (s.seenGid u.gid).setWidth 64),
    (0x03, BitVec.ofNat 64 ((if u.framed then 1 else 0) + (if u.check then 2 else 0) + (if u.tlevel ≠ 0 then 4 else 0) + (if u.secure then 8 else 0) +
      16 * u.phase.toNat + (if u.isCore then 256 else 0)))]
  let onQuires : List (Nat × Word) := [(0x21, u.qcut[2].setWidth 64), (0x22, u.qcut[3].setWidth 64), (0x23, u.qcut[4].setWidth 64),
    (0x24, u.qcut[5].setWidth 64), (0x25, u.qcut[6].setWidth 64), (0x28, u.qprogL), (0x29, u.qprogW), (0x2A, u.qprogE), (0x31, u.cstat), (0x41, u.mslip),
    (0x4B, u.ftbase.setWidth 64), (0x50, u.inherit), (0x51, u.remain), (0x60, u.stephit), (0x61, u.stepmiss), (0x62, u.stepevict),
    (0x4C, BitVec.ofNat 64 (u.plate.toNat / 2 ^ (8 * (0x80 + 8 * ((u.ftbase.toNat + u.lcount.toNat) % 16))) % 2 ^ 64))]
  let table : List (Nat × Word) := if u.isCore then onBoth else onBoth ++ onQuires
  let readOnly : Prop := idx.toNat ∈ [0x02, 0x03, 0x20, 0x21, 0x22, 0x23, 0x24, 0x25, 0x4C, 0x50, 0x60, 0x61, 0x62, 0x63, 0x70]
  let anyLevel : Prop := idx.toNat ∈ [0x00, 0x01, 0x31, 0x40, 0x41, 0x51]
  let listed : Prop := ∃ v, (idx.toNat, v) ∈ table
  let w (n : Nat) (mask : Word) (t : State) (get : Machine.Unit → Word) : Prop := get t.cur = if idx.toNat = n then x &&& mask else get u
  s.AtCommit →
  (s.Executes (.mfsr a idx) [] [] →
    (∀ v, (idx.toNat, v) ∈ table → s.Ends (.mfsr a idx) fun t => s.Wrote t a v) ∧
    (¬ listed → s.Raises (.mfsr a idx) (seqTrap .illfld (encode (.mfsr a idx))))) ∧
  (s.Executes (.mtsr idx b) [b] [] →
    (¬ listed ∨ readOnly → s.Raises (.mtsr idx b) (seqTrap .illfld (encode (.mtsr idx b)))) ∧
    (listed → ¬ readOnly → ¬ anyLevel → u.isCore = false → u.tlevel = 0 → s.Raises (.mtsr idx b) (seqTrap .priv (encode (.mtsr idx b)))) ∧
    (listed → ¬ readOnly → anyLevel ∨ u.isCore = true ∨ u.tlevel ≠ 0 → s.Ends (.mtsr idx b) fun t => s.KeepsRegs t ∧ s.Recorded t ∧
      s.OnlyScalars { t with cur := { t.cur with toSysRegs := u.toSysRegs, fstat := u.fstat, llimit := u.llimit, ftbase := u.ftbase } } ∧
      w 0x00 0xFFFFFFFFFFFFFFF8 t (·.tvec) ∧ w 0x01 0xFFFFFFFFFFFFFE00 t (·.tsave) ∧
      w 0x10 0xFFF t (·.tcause1) ∧ w 0x11 (-1) t (·.tret1) ∧ w 0x12 (-1) t (·.tval1) ∧
      w 0x13 (-1) t (·.tsp1) ∧ w 0x18 0xFFF t (·.tcause2) ∧ w 0x19 (-1) t (·.tret2) ∧
      w 0x1A (-1) t (·.tval2) ∧ w 0x1B (-1) t (·.tsp2) ∧
      w 0x28 0xC0FFFFFF00000000 t (·.qprogL) ∧ w 0x29 0xC0FFFFFF00000000 t (·.qprogW) ∧
      w 0x2A 0xFFFF0000FFFFFFFF t (·.qprogE) ∧ w 0x30 0x7FFF t (·.xstat) ∧
      w 0x31 0xFFE00000FFFFFFFF t (·.cstat) ∧ w 0x38 0x0000FFFFFFFC0000 t (·.xbase) ∧
      w 0x40 fstatMask t (·.fstat) ∧ w 0x41 0xF t (·.mslip) ∧ w 0x49 (-1) t (·.llimit) ∧
      w 0x51 (-1) t (·.remain) ∧ t.cur.ftbase = (if idx.toNat = 0x4B then x.setWidth 4 else u.ftbase) ∧
      t.cur.tlevel = u.tlevel ∧ t.cur.qcut = u.qcut ∧
      (idx.toNat ∉ [0x48, 0x49, 0x4A] → s.NextWord t) ∧
      (idx.toNat = 0x48 → u.lbody.getLsbD 63 = false → t.cur.lcount = x ∧ t.cur.lbody = u.lbody ∧ t.cur.pc = u.pc + 8) ∧
      (idx.toNat = 0x4A → x.getLsbD 63 = false → t.cur.lbody = x &&& 0xFFFFFFFFFFFFFFF8 ∧ t.cur.lcount = u.lcount ∧ t.cur.pc = u.pc + 8)))

/-- SPAWN has the binder accept the record at s[B] and returns the task's id, or bit 63 and the reason; DEPDEC decrements the counter of the successor it names, once
for each, and returns what is left, DEPDEC.all those of the listed successors not yet decremented (said of none and of one); EXIT stops the sequencer with the successor it names; YIELD returns 0 where no task could take the quires; KILL
ends a live task and returns 0, or returns 1 (R337, R338, R343, R356, 21 R405).  The unreplicated forms; a misaligned record raises ALIGN, a
successor the record does not list and a task id of more than 32 bits ILLFLD, KILL in user mode PRIV after it. -/
def Obligations.Tasks : Prop := ∀ (a b : Reg) (oc : BitVec 4) (s : State),
  let u := s.cur
  let x : Word := u.rs b
  let here : Device := s.dev (gidDev u.gid)
  let open_ : Prop := u.live ≤ 1 ∧ ∀ r ∈ u.regions, r.buffered = false
  let keeps (t : State) : Prop := s.NextWord t ∧ s.Recorded t ∧ s.OnlyScalars { t with cur := { t.cur with binderCount := u.binderCount, busy := u.busy } }
  let id : BitVec 32 := x.setWidth 32
  let ended (k : Task) : Prop := k.state = .completed ∨ k.state = .killed ∨ k.state = .rejected
  let idle : Prop := u.wait = none
  let quiet : Prop := ∀ d ∈ s.devs, ∀ w ∈ d.tasks, w.state ≠ .waiting
  let counts (i : Instr) (k : Task) (j : Nat) : Prop := ∀ p, claspPlace s .atomic (k.successor j + 96) 8 = .ok p →
    s.servedNow (granuleKey p.addr) p.addr = true → (∀ n, n < 8 → s.erring (p.addr + n) = false ∧ s.poisoned (p.addr + n) = false) →
    (s.dev (addrDev p.addr)).touch (granuleKey p.addr) ≠ none → s.number p.addr 8 ≠ 0 → s.MayStore oc p.addr →
      s.Ends i fun t => s.SetsReg t a (BitVec.ofNat 64 (s.number p.addr 8 - 1)) ∧ s.NextWord t ∧ s.Recorded t ∧
        (quiet → s.Stores t p.addr 8 (BitVec.ofNat 64 (s.number p.addr 8 - 1)) ∧
          (t.dev u.taskDev).task? k.id = some { k with decremented := k.decremented ++ [j] })
  s.AtCommit → idle →
  (s.Executes (.spawn a b) [b] [] →
    (x.toNat % 256 ≠ 0 → s.Raises (.spawn a b) (seqTrap .align x)) ∧
    (x.toNat % 256 = 0 → (∀ t, s.translate u.gid 1 .read false x = .error t → ∃ k, (u.framed = true → k = 0) ∧
        exec (.spawn a b) s = .next (((s.pass k).scrubWalk u.gid x).raise t)) ∧
      ∀ p, s.translate u.gid 1 .read false x = .ok p → s.poisonedIn? p.addr 256 = none → here.boot = .done → open_ →
        binderReady 0 (fun _ => []) s = true → s.Ends (.spawn a b) fun t => ∃ (v : State) (rels : List Release),
          (s.scrubWalk u.gid x).OnlyMet { v with cur := { v.cur with wait := u.wait, arrived := u.arrived } } ∧
          s.SetsReg t a (match (v.accept (gidDev u.gid) p.addr (u.isCore || u.secure) rels).2 with
            | .ok k => k.setWidth 64 | .error r => BitVec.ofNat 64 (2 ^ 63 + r)) ∧
          t.mem = (v.accept (gidDev u.gid) p.addr (u.isCore || u.secure) rels).1.mem ∧
          t.devs = (v.accept (gidDev u.gid) p.addr (u.isCore || u.secure) rels).1.devs ∧ t.cur.busy = t.cur.time + 400 ∧ s.NextWord t ∧ s.Recorded t)) ∧
  (∀ k, s.myTask = some k → open_ →
    (s.Executes (.depdec oc a b) [b] [] →
      (k.successors ≤ x.toNat → s.Raises (.depdec oc a b) (seqTrap .illfld x)) ∧
      (x.toNat < k.successors → binderReady oc (fun s => s.counterPlaces fun _ => [x.toNat]) s = true →
        (x.toNat ∈ k.decremented → s.Ends (.depdec oc a b) fun t => s.SetsReg t a (-1) ∧ s.NextWord t ∧ s.Recorded t) ∧
        (x.toNat ∉ k.decremented → counts (.depdec oc a b) k x.toNat))) ∧
    (s.Executes (.depdecAll oc a) [] [] → binderReady oc (fun s => s.counterPlaces fun k => List.range k.successors) s = true →
      ((∀ i, i < k.successors → i ∈ k.decremented) → s.Ends (.depdecAll oc a) fun t => s.SetsReg t a (-1) ∧ s.NextWord t ∧ s.Recorded t) ∧
      (∀ j, j < k.successors → j ∉ k.decremented → (∀ i, i < k.successors → i ≠ j → i ∈ k.decremented) → counts (.depdecAll oc a) k j))) ∧
  (s.Executes (.exit b) [b] [] →
    (u.quiet = false → s.WaitsOn (.exit b)) ∧
    (u.quiet = true → u.lost = [] → open_ → s.Ends (.exit b) fun t => t.cur.run = .exited x ∧ t.cur.replies = [] ∧ s.KeepsRegs t ∧ s.NextWord t ∧
      s.Recorded t ∧ s.OnlyMet { t with cur := { t.cur with run := u.run, replies := u.replies } })) ∧
  (s.Executes (.yieldT a) [] [] →
    (s.drained = false → s.WaitsOn (.yieldT a)) ∧
    (s.drained = true → u.live ≤ 1 → (∀ k, s.myTask = some k → k.checkpointArea = 0 ∨ s.yieldsTo k = false ∨ u.tlevel ≠ 0) →
      s.Ends (.yieldT a) fun t => s.SetsReg t a 0 ∧ keeps t)) ∧
  (s.Executes (.kill a b) [b] [] →
    (x.toNat / 2 ^ 32 ≠ 0 → s.Raises (.kill a b) (seqTrap .illfld (encode (.kill a b)))) ∧
    (x.toNat / 2 ^ 32 = 0 → u.isCore = false → u.tlevel = 0 → s.Raises (.kill a b) (seqTrap .priv (encode (.kill a b)))) ∧
    (x.toNat / 2 ^ 32 = 0 → u.isCore = true ∨ u.tlevel ≠ 0 → u.live ≤ 1 →
      let answers (n : Word) (t : State) : Prop := s.SetsReg t a n ∧ t.cur.busy = t.cur.time + 400 ∧ s.NextWord t ∧ s.Recorded t
      let same (t : State) : Prop := s.OnlyScalars { t with cur := { t.cur with
        binderCount := u.binderCount, wait := u.wait, arrived := u.arrived, busy := u.busy } }
      let binder : Device := s.dev (if u.task = some id then u.taskDev else gidDev u.gid)
      (binder.task? id = none → s.Ends (.kill a b) fun t => answers 1 t ∧ same t) ∧
      (∀ k, binder.task? id = some k →
        (k.isSecure = true → u.secure = false → u.isCore = false → s.Raises (.kill a b) (seqTrap .secviol x)) ∧
        (k.isSecure = false ∨ u.secure = true ∨ u.isCore = true →
          (ended k → s.Ends (.kill a b) fun t => answers 1 t ∧ same t) ∧
          (¬ ended k → u.task ≠ some id → u.gid ∉ k.units → k.id = id → (∀ d ∈ s.devs, d.held = []) →
            s.Ends (.kill a b) fun t => answers 0 t ∧ ∃ k', (t.dev (gidDev u.gid)).task? id = some k' ∧ k'.state = .killed)))))

/-- SWAP.load reads a plate image into the shadow plate, and SWAP, once it is loaded and the quire has drained, exchanges it with the plate in force and begins at
phase 0 without a frame; a fault of the load, or of a ring binding of the plate, is raised by SWAP, an image not at a multiple of 256 raises ALIGN.  FRAME n begins the schedule n
cycles after it; PHASE sets the phase; DRAIN and SWAP wait until the quire has drained (R346, R348-R351). -/
def Obligations.Plates : Prop := ∀ (b : Reg) (n : BitVec 16) (ph : BitVec 3) (s : State),
  let u := s.cur
  let x : Word := u.rs b
  let keeps (t : State) : Prop := s.KeepsRegs t ∧ s.NextWord t ∧ s.Recorded t
  s.AtCommit →
  (s.Executes (.swapLoad b) [b] [] →
    (x.toNat % 256 ≠ 0 → s.Raises (.swapLoad b) (seqTrap .align x)) ∧
    (x.toNat % 256 = 0 → s.prompt = false → s.Ends (.swapLoad b) fun t => t.cur.load = .loading x ∧ t.cur.shadow = u.shadow ∧ keeps t ∧
      s.OnlyScalars { t with cur := { t.cur with load := u.load } }) ∧
    (x.toNat % 256 = 0 → s.prompt = true → s.latent = [] →
      (∀ f, s.loadImage x = .error f → s.Ends (.swapLoad b) fun t => t.cur.load = .failed f ∧ t.cur.shadow = u.shadow ∧ keeps t ∧
        s.OnlyScalars { t with cur := { t.cur with load := u.load } }) ∧
      (∀ p, s.loadImage x = .ok p → s.Ends (.swapLoad b) fun t => t.cur.load = .complete ∧ t.cur.shadow = p ∧ keeps t ∧
        s.OnlyScalars { t with cur := { t.cur with load := u.load, shadow := u.shadow } }))) ∧
  (∀ (place : Nat → Place) (p : BitVec 16384),
    (∀ k, k < 16 → s.translate u.gid 1 .read false (x + BitVec.ofNat 64 (128 * k)) = .ok (place k) ∧ s.poisoned (place k).addr = false) →
    (∀ k, k < 16 → ∀ j, j < 128 → p.extractLsb' (8 * (128 * k + j)) 8 = s.plainByte u.gid ((place k).addr + j)) → plateFault p = none →
      s.loadImage x = .ok p) ∧
  (s.Executes .swap [] [] →
    (∀ va, u.load = .loading va → s.WaitsOn .swap) ∧
    (s.drained = false → (∀ va, u.load ≠ .loading va) → s.WaitsOn .swap) ∧
    (∀ f, u.load = .failed f → s.drained = true → s.Raises .swap f) ∧
    (∀ off, u.load = .complete → s.drained = true → s.shadowFault (plateRings u.shadow) = some off →
      s.Raises .swap (seqTrap .ringerr (BitVec.ofNat 64 off))) ∧
    (u.load = .complete → s.drained = true → s.shadowFault (plateRings u.shadow) = none → ∀ v lat, bindShadow (plateRings u.shadow) (.exact 0) s = .ok (v, lat) →
      s.Ends .swap fun t => t.cur.plate = u.shadow ∧ t.cur.shadow = u.plate ∧ t.cur.phase = 0 ∧ t.cur.frameAt = none ∧ t.cur.busy = t.cur.time + (4 + lat.typical) ∧ keeps t ∧
        (∀ g k, t.plainByte g k = s.plainByte g k) ∧
        (plateRings u.shadow = [] → s.OnlyScalars { t with cur := { t.cur with
          plate := u.plate, shadow := u.shadow, phase := u.phase, frameAt := u.frameAt, fresh := u.fresh, busy := u.busy } }))) ∧
  (s.Executes (.frame n) [] [] → s.Ends (.frame n) fun t => t.cur.frameAt = some (t.cur.time + 1 + n.toNat) ∧
    t.cur.fresh = (if u.framed then Vector.replicate 7 true else u.fresh) ∧ keeps t ∧
    s.OnlyScalars { t with cur := { t.cur with frameAt := u.frameAt, fresh := u.fresh } }) ∧
  (s.Executes (.phase ph) [] [] → s.Ends (.phase ph) fun t => t.cur.phase = ph ∧ keeps t ∧
    s.OnlyScalars { t with cur := { t.cur with phase := u.phase } }) ∧
  (s.Executes .drain [] [] →
    (s.drained = true → s.Ends .drain fun t => keeps t ∧ s.OnlyScalars t) ∧ (s.drained = false → s.WaitsOn .drain))

/-- TLBINV discards the cached translations of the running task's tables that overlap the range, at every unit and section of the scope; HALT stops a drained
sequencer before the next word; both are privileged.  CLOCK reads the device's cycle counter.  IDLE goes on when a token for S or a reply entry is
there, or n cycles have passed, and else waits; a wait that nothing can end raises ILLFLD (R402-R404, R406, 02 R48). -/
def Obligations.TranslationsAndTime : Prop := ∀ (scope : BitVec 3) (a b : Reg) (n : BitVec 32) (s : State),
  let u := s.cur
  let base : Nat := (u.rs a).toNat
  let len : Nat := (u.rs b).toNat
  let keeps (t : State) : Prop := s.NextWord t ∧ s.Recorded t
  let user : Prop := u.isCore = false ∧ u.tlevel = 0
  let hit (e : TlbEntry) : Prop := e.xbase.toNat / 2 ^ 18 % 2 ^ 24 = u.xbase.toNat / 2 ^ 18 % 2 ^ 24 ∧
    (len = 0 ∨ (e.vbase < base + len ∧ base < e.vbase + e.size))
  let awake : Prop := u.isCore = false ∧ ((∃ q ∈ engineQueues, 0 < u.fifo q 1) ∨ u.replies ≠ [])
  let underWay : Prop := u.isCore = false ∧ ((∃ q ∈ engineQueues, u.willGive q = true) ∨ u.willReply = true)
  s.AtCommit →
  (s.Executes (.tlbinv scope a b) [a, b] [] →
    (user → s.Raises (.tlbinv scope a b) (seqTrap .priv (encode (.tlbinv scope a b)))) ∧
    (¬ user → s.Ends (.tlbinv scope a b) fun t => s.KeepsRegs t ∧ keeps t ∧
      t.cur.busy = t.cur.time + (if scope = 0 then 40 else if scope = 4 then 3000 else 200) ∧
      (∀ e, e ∈ t.cur.tlb ↔ e ∈ u.tlb ∧ ¬ (inScope scope.toNat u.gid u.gid = true ∧ hit e)) ∧
      (∀ v ∈ s.others, ∃ v' ∈ t.others, v'.gid = v.gid ∧ ∀ e, e ∈ v'.tlb ↔ e ∈ v.tlb ∧ ¬ (inScope scope.toNat u.gid v.gid = true ∧ hit e)) ∧
      (∀ sec e, (sec, e) ∈ (t.dev (gidDev u.gid)).tlb ↔ (sec, e) ∈ (s.dev (gidDev u.gid)).tlb ∧
        ¬ (1 ≤ scope.toNat ∧ inScope scope.toNat u.gid (quireGid (s.dev (gidDev u.gid)).num (4 * sec)) = true ∧ hit e)) ∧
      s.OnlyScalars { t with others := s.others, devs := s.devs, cur := { t.cur with tlb := u.tlb, busy := u.busy } })) ∧
  (s.Executes .halt [] [] →
    (user → s.Raises .halt (seqTrap .priv (encode .halt))) ∧
    (¬ user → s.drained = false → s.WaitsOn .halt) ∧
    (¬ user → s.drained = true → s.Ends .halt fun t => t.cur.run = .halted ∧ s.KeepsRegs t ∧ keeps t ∧
      s.OnlyScalars { t with cur := { t.cur with run := u.run } })) ∧
  (s.Executes (.clock a) [] [] → s.Ends (.clock a) fun t => s.Wrote t a (BitVec.ofNat 64 ((s.dev (gidDev u.gid)).counter s.clock))) ∧
  (s.Executes (.idle n) [] [] →
    (awake ∨ (n ≠ 0 ∧ ∃ x, u.idleFrom = some x ∧ x + n.toNat ≤ u.time) → s.Ends (.idle n) fun t => t.cur.idleFrom = none ∧ s.KeepsRegs t ∧ keeps t ∧
      s.OnlyScalars { t with cur := { t.cur with idleFrom := u.idleFrom } }) ∧
    (¬ awake → n = 0 → ¬ underWay → s.Raises (.idle n) (seqTrap .illfld (encode (.idle n)))) ∧
    (¬ awake → u.idleFrom = none → (n = 0 → underWay) → s.StaysOn (.idle n) fun t => t.cur.pc = u.pc ∧ s.KeepsRegs t ∧ t.cur.idleFrom = some u.time ∧
      s.OnlyScalars { t with cur := { t.cur with idleFrom := none } }))

/-- The events of a unit's sequencer, caches, walks, banks and plate, as the event table names them (95): each, where its condition holds for the unit, has
the effect stated, and the unit that had the turn keeps it; an event of a unit that does not exist is not permitted (DESIGN CHOICE, log 15). -/
def Obligations.SequencerEvents : Prop := ∀ (s : State) (g owner : Gid) (q : BitVec 3) (word va : Word) (sector : Nat) (cycle : BitVec 32),
  let v : State := s.switchTo g
  let u := v.cur
  let happens (e : Instr) (holds : Prop) (P : State → Prop) : Prop := holds → ∃ w, exec e s = .next (w.switchTo s.cur.gid) ∧ P w
  let runs (e i : Instr) : Prop := ∀ w, exec i (v.scrubFetch u.pc) = .next w → exec e s = .next (w.switchTo s.cur.gid)
  let copies (P : Machine.Unit → Prop) (w : State) : Prop := w = { v with cur := { u with l0 := w.cur.l0, l1 := w.cur.l1 } } ∧ P w.cur
  let plain (k : Nat) : Prop := 128 * k < sramBase ∧ v.poisoned (128 * k) = false ∧ v.erring (128 * k) = false ∧ u.l1.find? (fun c => c.sector == k) = none
  let holding (l : List SectorCopy) (k : Nat) : Prop := ∃ c ∈ l, c.sector = k ∧ c.data = v.plainBytes g (128 * k) 128
  (s.hasUnit g = false → exec (.instructionFetch g) s = .fault (.notPermitted "no such unit")) ∧
  (s.hasUnit g = true → s.hasUnit owner = true →
    (∀ p, happens (.instructionFetch g) (v.latent = [] ∧ v.translate g 1 .fetch false u.pc = .ok p ∧ plain (p.addr / 128) ∧ u.l0.all (fun c => c.sector != p.addr / 128) = true)
      (copies fun x => holding x.l0 (p.addr / 128))) ∧
    (∀ i, u.issues = true → v.fetched = .run i → encode i = word → (pushForm i).isSome = true → runs (.engineCommandPush g word) i) ∧
    (∀ i, u.requests = true → v.fetched = .run i → (claspMeaning i).isSome = true → runs (.claspRequestPerform g) i) ∧
    (∀ i p c, u.issues = true → v.fetched = .run i → encode i = word → pushForm i = some p → (∀ h oc da, i ≠ .ebind h oc da) → v.latent = [] → v.pushCommand i p [] = some c →
      v.Executes i p.scalar.toList (p.da.toList ++ p.db.toList ++ p.dc.toList ++ (extraReg i c.da c.db c.dc).toList) → (u.queue p.queue).length < 64 →
      (u.framed = true → u.time < c.due) → u.vecShadow c = none →
        ∃ w : State, exec (.engineCommandPush g word) s = .next (w.tick.switchTo s.cur.gid) ∧ w.cur.queue p.queue = u.queue p.queue ++ [c] ∧
          w.cur.nextNum = u.nextNum.set (qidx p.queue) (c.num + 1) ∧ v.KeepsRegs w ∧ v.NextWord w) ∧
    (∀ (small : Bool) (sem : BitVec 2) (scope : BitVec 3) (oc : BitVec 4) (mask : BitVec 16) (a b c : Reg) (p : Place),
      let i : Instr := .aadd small sem scope oc mask a b c
      let n : Nat := if small then 4 else 8
      let old : Word := BitVec.ofNat 64 (v.number p.addr n)
      u.issues = true → v.fetched = .run i → v.latent = [] → v.Executes i [b, c, 0] [] → v.AtCommit →
      v.MayRequest .atomic n oc (if semRel sem then mask else 0) (if semRel sem then some (scope, mask) else none) (u.rs b) p →
        ∃ w : State, exec (.claspRequestPerform g) s = .next (w.tick.switchTo s.cur.gid) ∧ v.SetsReg w a (narrow small (sgn small old)) ∧
          v.Stores w p.addr n (old + u.rs c) ∧ v.NextWord w ∧ v.OnlyRequested w) ∧
    (∀ e rest, happens (.instructionCommit g) (u.window = e :: rest ∧ (u.window.all fun x => x.load.isNone) = true ∧ u.canCommit e = true ∧ e.store = none)
      (fun w => w = { v with cur := { u with window := rest, committed := u.committed + 1 } })) ∧
    (∀ c rest, happens (.framedStartMiss g q cycle) (u.framed = true ∧ q ∈ engineQueues ∧ u.queue q = c :: rest ∧ c.started = false ∧ c.due ≤ u.time ∧ ¬ (u.hasTokens c = true ∧ v.accepts c = true) ∧
        cycle = BitVec.ofNat 32 (c.due - u.frameAt.getD 0))
      (fun w => w = v.deliver (overrunTrap q c.due (u.frameAt.getD 0)) c.depth)) ∧
    ((s.switchTo owner).maySteal g owner q = false → exec (.commandSteal g owner q) s = .next ((s.switchTo owner).switchTo s.cur.gid)) ∧
    (∀ c rest, let o : State := s.switchTo owner
      o.cur.queue q = c :: rest → o.maySteal g owner q = true → (∀ k, k ≠ g → o.maySteal k owner q = false) →
        (∀ k, k ≠ owner → o.maySteal g k q = false) → c.empty = true → c.started = false → o.phaseClash { c with engine := g, due := 0 } = none →
        ∃ w : State, exec (.commandSteal g owner q) s = .next (w.switchTo s.cur.gid) ∧ w.cur.queue q = rest ∧
          ∃ y ∈ w.cur.inflight, y.command.num = c.num ∧ y.command.queue = c.queue ∧ y.command.engine = g) ∧
    (∀ y, happens (.commandRetire g q) (q ∈ engineQueues ∧ u.held = false ∧ u.queue q = [] ∧ u.inflight = [y] ∧ y.command.queue = q ∧ y.replies = [] ∧
        y.trace = [] ∧ y.waiting = false ∧ v.mayRetire y = true)
      (fun w => w.cur.inflight = [] ∧ w.cur.fstat = u.fstat ||| y.flags.setWidth 64 ∧ w.cur.s = u.s ∧ w.mem = v.mem ∧
        (y.gives ≠ 0 → y.gives ≠ 7 → w.cur.fifo q y.gives = u.fifo q y.gives + 1))) ∧
    happens (.l1CopyInstall g sector) (plain sector ∧ v.mayFill sector = true) (copies fun x => holding x.l1 sector) ∧
    happens (.l1CopyDiscard g sector) True (copies fun x => (∀ c, c ∈ x.l1 ↔ c ∈ u.l1 ∧ c.sector ≠ sector) ∧ ∀ c, c ∈ x.l0 ↔ c ∈ u.l0 ∧ c.sector ≠ sector) ∧
    (∀ m, happens (.pageWalkComplete g va) (v.latent = [] ∧ v.walk g u.xbase va = .ok m) (fun w => (∃ e ∈ w.cur.tlb, e.xbase = u.xbase ∧ e.vbase = m.vbase ∧ e.size = m.size ∧
      e.frame = m.frame ∧ e.entry = m.entry) ∧ w.mem = v.mem)) ∧
    (∀ e, happens (.pageWalkComplete g va) (v.latent = [] ∧ v.walk g u.xbase va = .error e) (fun w => w = v)) ∧
    (∀ x, happens (.mwaitRecheck g) (u.wait = some x ∧ x.key < 2 ^ 42) (fun w => w = { v with cur := { u with wait := some { x with woken := true } } })) ∧
    (∀ t n, happens (.idleTimeout g) (u.idleFrom = some t ∧ v.fetched = .run (.idle n) ∧ n ≠ 0) (fun w => w = v.pass (t + n.toNat - u.time))) ∧
    (∀ a p, happens (.plateLoadComplete g) (v.latent = [] ∧ u.load = .loading a ∧ v.loadImage a = .ok p) (fun w => w = { v with cur := { u with shadow := p, load := .complete } })) ∧
    (∀ a t, happens (.plateLoadComplete g) (v.latent = [] ∧ u.load = .loading a ∧ v.loadImage a = .error t) (fun w => w = { v with cur := { u with load := .failed t } })) ∧
    (∀ b x, happens (.bankmodeChangeBegin g) ((v.dev (gidDev g)).changeOf g false = some (b, x) ∧ v.admQ = [] ∧ x.mode ≠ 4)
      (fun w => w.dev (gidDev g) = (v.dev (gidDev g)).setBank b { x with begun := true, ends := u.time + changeCycles x.mode b v.clock } ∧ w.cur = u ∧ w.mem = v.mem)) ∧
    (∀ b x m, happens (.bankmodeChangeEnd g) ((v.dev (gidDev g)).changeOf g true = some (b, x) ∧ (v.dev (gidDev g)).bank b = x ∧ x.changing = some m ∧ x.told = true)
      (fun w => ((w.dev (gidDev g)).bank b).mode = m ∧ ((w.dev (gidDev g)).bank b).changing = none ∧ ((w.dev (gidDev g)).bank b).begun = false ∧
        ((w.dev (gidDev g)).bank b).told = false ∧ w.clock = v.clock + (x.ends - u.time))))

/-- The events of traps, containment, known-answer tests, replicas and the debug port (95; R361, R371, R374-R377, R384, R397, R403). -/
def Obligations.TrapEvents : Prop := ∀ (s : State) (g : Gid) (tval : Word) (unit : BitVec 4) (row : BitVec 12) (master : Master) (engineStep : Bool),
  let v : State := s.switchTo g
  let u := v.cur
  let happens (e : Instr) (holds : Prop) (P : State → Prop) : Prop := holds → ∃ w, exec e s = .next (w.switchTo s.cur.gid) ∧ P w
  let owned : Prop := s.owns (gidDev g) master = true
  s.hasUnit g = true →
    (∀ t, happens (.trapTake g) (u.raised = some t ∧ u.window = [] ∧ t.cause.containEvent = none ∧ u.tlevel = 0 ∧ u.tvec ≠ 0 ∧ v.CutsNow)
      (fun w => w.cur.tlevel = 1 ∧ w.cur.pc = u.tvec ∧ w.cur.raised = none ∧ w.cur.tcause1 = t.tcause ∧ w.cur.tval1 = t.tval ∧
        w.cur.tret1 = t.tret.getD u.pc ∧ w.cur.tsp1 = u.rs 63 ∧ w.cur.rs 63 = u.tsave)) ∧
    happens (.trapTake g) ((u.raised = none ∧ (u.cutting = none ∨ v.cutDone = false)) ∨ (u.raised.isSome = true ∧ u.window ≠ [])) (fun w => w = v) ∧
    (∀ x, happens (.trapTake g) (u.raised = none ∧ u.cutting = some x ∧ v.cutDone = true ∧ u.tlevel = 0)
      (fun w => w.cur.tlevel = 1 ∧ w.cur.pc = u.tvec ∧ w.cur.cutting = none ∧ w.cur.tcause1 = x.trap.tcause ∧ w.cur.tval1 = x.trap.tval ∧
        w.cur.tret1 = x.trap.tret.getD u.pc ∧ w.cur.tsp1 = u.rs 63 ∧ w.cur.rs 63 = u.tsave ∧ w.mem = v.mem)) ∧
    (∀ outer r, happens (.containmentEvent g 0x34 1 tval) (u.run = .running ∧ u.regions = outer ++ [r])
      (fun w => w.cur.pc = r.handler ∧ w.cur.regions = outer ∧ w.cur.window = [] ∧ w.cur.tlevel = u.tlevel ∧ w.cur.tokens = u.tokens ∧
        w.cur.cstat = BitVec.ofNat 64 (1 * 2 ^ 60 + (outer.length + 1) * 2 ^ 56 + 1 * 2 ^ 53 + tval.toNat % 2 ^ 32) ∧
        (∀ y ∈ w.cur.inflight, y.command.depth < outer.length + 1) ∧ w.mem = v.mem)) ∧
    happens (.containmentEvent g 0x34 1 tval) (u.run = .running ∧ u.regions = [])
      (fun w => w = v.raise (seqTrap .uncorr tval)) ∧
    happens (.katInject g unit row true) (u.isCore = false ∧ u.run = .running ∧ ((s.dev (gidDev g)).reg 0x60048).toNat % 256 ≠ 0 ∧
        (s.dev (gidDev g)).quireDisabled (gidLocal g) = false ∧ 1 ≤ unit.toNat ∧ unit.toNat ≤ 3)
      (fun w => w = { v with cur := { u with katTests := u.katTests + 1 } }) ∧
    happens (.katInject g unit row true) (((s.dev (gidDev g)).reg 0x60048).toNat % 256 = 0) (fun w => w = v) ∧
    happens (.replicaMeeting g) (u.presented = none) (fun w => w = v) ∧
    (u.presented.isSome = true ∧ v.allPresented = true → exec (.replicaMeeting g) s = .next (s.onUnit g State.vote)) ∧
    (u.presented.isSome = true ∧ v.allPresented = false → exec (.meetingTimeout g) s = .next (s.onUnit g State.vote)) ∧
    happens (.meetingTimeout g) (u.presented = none) (fun w => w = v) ∧
    happens (.ndagreeTimeout g) (u.ndValue = none ∨ v.allAgreeing = true) (fun w => w = v) ∧
    (∀ x p, happens (.ndagreeTimeout g) (u.ndValue = some x ∧ p.ndValue = none ∧ u.live = 2 ∧ v.peers u = [u, p] ∧ p.gid ≠ u.gid ∧ v.prompt = false)
      (fun w => w.cur.ndValue = none ∧ w.cur.raised = some (seqTrap .replmism (BitVec.ofNat 64 (u.ndCount + 1))))) ∧
    happens (.debugStop master g) (master = .debug ∧ owned ∧ u.isCore = false) (fun w => w = { v with cur := { u with debug := .stopped } }) ∧
    happens (.debugStop master g) (¬ owned) (fun w => w = v) ∧
    happens (.debugStep master g engineStep) (master = .debug ∧ owned ∧ u.isCore = false ∧ u.debug = .stopped)
      (fun w => w = { v with cur := { u with debug := .step engineStep u.executed u.tlevel u.nextNum } }) ∧
    happens (.debugStep master g engineStep) (¬ owned ∨ u.debug = .off) (fun w => w = v) ∧
    happens (.debugResume master g) owned (fun w => w = { v with cur := { u with
      debug := .off, run := if u.run = .halted ∨ (u.run = .dead ∧ u.isCore) then .running else u.run } }) ∧
    happens (.debugResume master g) (¬ owned) (fun w => w = v)

/-- The events of class queues, homes, horizons, the patrol scrubber, the fabric and the host link (95; 16 R289-R292, 03 R58, 14 R263-R270, 23 R411). -/
def Obligations.MemoryEvents : Prop := ∀ (s : State) (g : Gid) (k home sector addr len : Nat) (scope : BitVec 3) (dev dst : Dev) (port : BitVec 5)
    (picks : List Nat) (data : List Byte),
  let v : State := s.switchTo g
  let happens (e : Instr) (holds : Prop) (P : State → Prop) : Prop := holds → ∃ w, exec e s = .next w ∧ P w
  let listed : Prop := s.devs.any (fun d => d.num == dev) = true
  let d : Device := s.dev dev
  let at_ : Nat := dev.toNat * 2 ^ 42 + addr
  (∀ x, s.hasUnit g = true → s.prompt = false → v.cur.classQ[k]? = some x → x.want = .write → x.carrier = none → x.command = none →
    (v.cur.classQ.take k).all (fun y => y.cls != x.cls) = true → gidDev g = addrDev x.addr →
      ∃ w : State, exec (.classQueueLeave g k) s = .next (w.switchTo s.cur.gid) ∧ w.admQ = v.admQ ++ [x] ∧ w.cur.classQ = v.cur.classQ.eraseIdx k ∧ w.mem = v.mem) ∧
  (∀ x, s.hasUnit g = true → v.cur.classQ[k]? = some x → (v.cur.classQ.take k).any (fun y => y.cls == x.cls) = true → x.command = none →
    exec (.classQueueLeave g k) s = .next (v.switchTo s.cur.gid)) ∧
  happens (.homeAdmissionRound home picks) (s.roundOk home picks = false) (fun w => w = s) ∧
  (∀ x rest, happens (.homeAdmissionRound home [0]) (s.roundOk home [0] = true ∧ s.admQ = x :: rest ∧ x.want = .write ∧ x.ord = none ∧ x.reduce = none ∧
      s.prompt = false ∧ x.carrier = none ∧ s.pend = [] ∧ s.latent = [] ∧ (s.switchTo x.gid).turnedAway x = none)
    (fun w => w.admQ = rest ∧ w.mem = s.mem ∧ ∀ j, j < x.data.length → w.plainByte x.gid (x.addr + j) = x.data.getD j 0)) ∧
  (∀ r, happens (.horizonWiden r.id scope) (r ∈ s.pend ∧ r.horizon.toNat < scope.toNat ∧ scope.toNat ≤ 3) (fun w => { r with horizon := scope } ∈ w.pend)) ∧
  happens (.horizonWiden k scope) True (fun w => ∀ r ∈ w.pend, ∃ r' ∈ s.pend, r'.id = r.id ∧ r'.horizon.toNat ≤ r.horizon.toNat) ∧
  happens (.patrolScrub sector) ((s.latent.filter fun e => e.1 == sector) = []) (fun w => w = s) ∧
  (∀ e, happens (.patrolScrub sector) ((s.latent.filter fun e => e.1 == sector) = [e] ∧ 128 * sector < sramBase ∧
      (s.devs.any fun d => d.num == addrDev (128 * sector)) = true)
    (fun w => w.mem = s.mem ∧ w.poison = s.poison ∧ w.latent = s.latent.filter (fun e => e.1 != sector) ∧
      (w.dev (addrDev (128 * sector))).reg (0x60000 + 8 * (128 * sector / 2 ^ 36 % 8)) =
        (s.dev (addrDev (128 * sector))).reg (0x60000 + 8 * (128 * sector / 2 ^ 36 % 8)) + 1)) ∧
  happens (.tickBoundary dev) (listed ∧ d.routeMode = false)
    (fun w => (w.dev dev).tick = s.tickOf d + 1 ∧ w.clock = max s.clock (2500 * (s.tickOf d + 1)) ∧ w.mem = s.mem) ∧
  happens (.tickBatchAdmit dev) (listed ∧ (s.flows.filter fun p => p.dst == dev) = []) (fun w => w = s) ∧
  (∀ p, happens (.tickBatchAdmit dev) (listed ∧ d.routeMode = false ∧ s.flows = [p] ∧ p.dst = dev ∧ (s.dev p.src).routeMode = false ∧ s.admits p.access = true ∧
      (∀ x ∈ s.devs, x.routeMode = false → x.halted = false → p.tick + 1 + p.hops ≤ s.tickOf x))
    (fun w => w = ({ s with flows := [] } : State).arrivePacket p)) ∧
  (∀ p, happens (.krytlinkPacketDeliver dev dst) (listed ∧ d.routeMode = true ∧ (s.dev dst).routeMode = true ∧ s.admits p.access = true ∧
      (s.flows.find? fun p => p.src == dev && p.dst == dst) = some p)
    (fun w => w = ({ s with flows := s.flows.erase p } : State).arrivePacket p)) ∧
  happens (.krytlinkPacketDeliver dev dst) (listed ∧ (s.flows.find? fun p => p.src == dev && p.dst == dst) = none) (fun w => w = s) ∧
  happens (.clockOffsetExceeded dev) (listed ∧ d.routeMode = true) (fun w => w = s) ∧
  (let t : State := s.onDev dev fun d => { d with halted := true };
    happens (.clockOffsetExceeded dev) (listed ∧ d.routeMode = false) (fun w => w = State.linksDown s t) ∧
    happens (.clockOffsetExceeded dev) (listed ∧ d.routeMode = false ∧ newlyStopped s t = [])
      (fun w => (w.dev dev).halted = true ∧ w.mem = s.mem ∧ w.cur = s.cur)) ∧
  (let off : Nat := 0x30100 + 8 * port.toNat;
    let t : State := s.onDev dev fun d => { d.setReg off 1 with failures := d.failures ++ [port.toNat] };
    happens (.portFailure dev port) listed (fun w => w = State.linksDown s t) ∧
    happens (.portFailure dev port) (listed ∧ newlyStopped s t = [])
      (fun w => ((w.dev dev).reg off).getLsbD 0 = true ∧ w.mem = s.mem ∧ w.cur = s.cur)) ∧
  happens (.hostBar2Write dev addr data) (listed ∧ addr + data.length ≤ 2 ^ 39 ∧ d.rangeSecure addr data.length = false ∧ s.pend = [] ∧ s.latent = [] ∧
      s.prompt = true)
    (fun w => ∀ a, w.plainByte s.cur.gid a = if at_ ≤ a ∧ a < at_ + data.length then data.getD (a - at_) 0 else s.plainByte s.cur.gid a) ∧
  happens (.hostBar2Write dev addr data) (listed ∧ addr + data.length ≤ 2 ^ 39 ∧ d.rangeSecure addr data.length = false ∧ s.prompt = false)
    (fun w => ∃ l, w = { s with admQ := s.admQ ++ l } ∧
      (∀ x ∈ l, x.gid = hostGid dev ∧ x.want = .write ∧ x.data ≠ [] ∧ at_ ≤ x.addr ∧ x.addr + x.data.length ≤ at_ + data.length ∧
        x.addr / 256 = (x.addr + x.data.length - 1) / 256 ∧ x.data = (data.drop (x.addr - at_)).take x.data.length) ∧
      ∀ k, at_ ≤ k → k < at_ + data.length → ∃ x ∈ l, x.addr ≤ k ∧ k < x.addr + x.data.length) ∧
  happens (.hostBar2Write dev addr data) (listed ∧ addr + data.length ≤ 2 ^ 39 ∧ d.rangeSecure addr data.length = true)
    (fun w => w.mem = s.mem ∧ w.pend = s.pend ∧ w.dev dev = d.violation) ∧
  happens (.hostBar2Read dev addr len) (listed ∧ addr + len ≤ 2 ^ 39 ∧ s.posted dev = true ∧ s.latent = [])
    (fun w => w.mem = s.mem ∧ (w.dev dev).hostData = if d.rangeSecure addr len then List.replicate len 0xFF else s.plainBytes (hostGid dev) at_ len) ∧
  happens (.hostBar2Read dev addr len) (listed ∧ s.posted dev = false) (fun w => w = s)

/-- The events of a device's binder, registers, boot and power supply (95; 19 R334-R343, 23 R413-R423, 21 R405). -/
def Obligations.DeviceEvents : Prop := ∀ (s : State) (dev : Dev) (id : BitVec 32) (master : Master) (x : Word) (off : Nat) (selfTest : Bool),
  let happens (e : Instr) (holds : Prop) (P : State → Prop) : Prop := holds → s.devs.any (fun d => d.num == dev) = true → s.posted dev = true → ∃ w, exec e s = .next w ∧ P w
  let d : Device := s.dev dev
  let me : Nat := Master.id master
  let owner : Nat := (d.reg 0x1000).toNat % 16
  let owns : Prop := master = .core ∨ (owner ≠ 0 ∧ owner = me)
  let same : State → Prop := fun w => w = s
  let now : State := if d.wrote.any (fun e => e.1 == s.clock && decide (me < e.2)) then { s with clock := s.clock + 1 } else s
  let refused : State → Prop := fun w => (∃ x, w.dev dev = { d.violation with wrote := x }) ∧ w.mem = s.mem ∧ w.cur = s.cur
  happens (.taskAccept dev) (d.submissions = [] ∨ d.boot ≠ .done) same ∧
  (∀ y rest r, happens (.taskAccept dev) (d.boot = .done ∧ s.latent = [] ∧ d.submissions = y :: rest ∧
      (s.onDev dev fun d => { d with submissions := rest }).validate dev y.record y.secure = .error r ∧ r ≠ 7)
    (fun w => (w.dev dev).submissions = rest ∧ (w.dev dev).tasks = d.tasks)) ∧
  (∀ y rest t, happens (.taskAccept dev) (d.boot = .done ∧ s.latent = [] ∧ d.submissions = y :: rest ∧ (∀ k ∈ d.tasks, k.id ≠ s.newTaskId) ∧
      (s.onDev dev fun d => { d with submissions := rest }).validate dev y.record y.secure = .ok t)
    (fun w => (w.dev dev).submissions = rest ∧ (w.dev dev).nextId = s.newTaskId + 1 ∧ ∃ k ∈ (w.dev dev).tasks, k.id = s.newTaskId ∧
      k.record = t.record ∧ k.fields = t.fields ∧ (k.state = .waiting ∨ k.state = .eligible))) ∧
  (∀ t gs, happens (.taskPlace dev id) (d.boot = .done ∧ s.refreshEligible.booted dev = true ∧ s.refreshEligible.nextPlacement = some (dev, t, gs) ∧ t.id = id)
    (fun w => w = s.refreshEligible.placeTask dev t gs)) ∧
  (∀ u t num rank replica live n inherit, let p := placedUnit u t dev num rank replica live n inherit
    p.run = .running ∧ p.pc.toNat = t.fields.toNat % 2 ^ 64 ∧ p.tvec = t.tvec ∧ p.task = some t.id ∧ p.rank = rank ∧ p.replica = replica ∧ p.tlevel = 0 ∧
      p.fstat = 0 ∧ p.plate = t.plate ∧ p.secure = t.isSecure ∧
      (∀ k : Nat, 1 ≤ k → k ≤ 8 → p.s.toList.getD k 0 = BitVec.ofNat 64 (t.fields.toNat / 2 ^ (64 * k))) ∧
      p.s[9] = BitVec.ofNat 64 rank ∧ p.s[10] = BitVec.ofNat 64 t.quires) ∧
  happens (.taskComplete dev id) (d.task? id = none) same ∧
  (∀ t, happens (.taskComplete dev id) (d.task? id = some t ∧ s.finished t = true) (fun w => w = s.completeTask dev t)) ∧
  (∀ t, happens (.taskPreempt dev id) (d.task? id = some t ∧ id ∈ d.queue ∧ (s.fit t (fun _ => true) []).isSome = true) same) ∧
  (∀ t e, happens (.taskPreempt dev id) (d.task? id = some t ∧ id ∈ d.queue ∧ s.fit t (fun _ => true) [] = none ∧
      s.plan d t (s.candidates t) [] t.tokens.toNat = some [e] ∧ e.2.2 = .drain)
    (fun w => (∀ n, s.devs.any (fun d => d.num == n) = true →
        (w.dev n).reserved = (s.dev n).reserved ++ (e.2.1.units.filter fun g => gidDev g == n).map (fun g => (g, id))) ∧
      (w.dev dev).tasks = d.tasks ∧ w.mem = s.mem)) ∧
  (∀ t e cost, happens (.taskPreempt dev id) (d.task? id = some t ∧ id ∈ d.queue ∧ s.fit t (fun _ => true) [] = none ∧
      s.plan d t (s.candidates t) [] t.tokens.toNat = some [e] ∧ e.2.2 = .kill cost ∧ e.2.1.id ≠ id ∧ ((s.dev e.1).task? e.2.1.id).isSome = true)
    (fun w => (∃ k, (w.dev e.1).task? e.2.1.id = some k ∧ k.state = .killed) ∧
      ∃ k, (w.dev dev).task? id = some k ∧ k.tokens = t.tokens - BitVec.ofNat 64 cost)) ∧
  (∀ t, happens (.ownerKill dev master id) (d.task? id = some t ∧ owner ≠ 0 ∧ owner = me ∧ (t.state = .running ∨ t.state = .waiting ∨ t.state = .eligible))
    (fun w => ∃ t', (w.dev dev).task? id = some t' ∧ t'.state = .killed)) ∧
  (∀ t, happens (.ownerKill dev master id) (d.task? id = some t ∧ (t.state = .completed ∨ t.state = .killed ∨ t.state = .rejected)) same) ∧
  happens (.claim dev master x) (d.boot ≠ .minimal ∧ owner = 0 ∧ master ≠ .core ∧ x = BitVec.ofNat 64 me) (fun w => ((w.dev dev).reg 0x1000).toNat % 16 = me ∧ w.mem = s.mem) ∧
  happens (.claim dev master x) (d.boot ≠ .minimal ∧ master = .core) refused ∧
  happens (.claimHandover dev master x) (d.boot ≠ .minimal ∧ owner ≠ 0 ∧ owner = me ∧ x.toNat % 16 = 0 ∧ x.toNat / 16 ≤ 3)
    (fun w => ((w.dev dev).reg 0x1000).toNat % 16 = x.toNat / 16 ∧ w.mem = s.mem) ∧
  happens (.devreset dev master x) (d.boot ≠ .minimal ∧ owns ∧ x.getLsbD 0 = true)
    (fun w => w = if master = .core then State.linksDown s (s.resetDevice dev 0)
      else (State.linksDown now (now.resetDevice dev 0)).onDev dev fun d => { d with wrote := some (now.clock, me) }) ∧
  happens (.devreset dev master x) (d.boot ≠ .minimal ∧ ¬ owns) refused ∧
  happens (.submit dev master x) (d.boot ≠ .minimal ∧ owns ∧ x.toNat % 256 = 0 ∧ x.toNat < 2 ^ 48 ∧ paDev x.toNat = d.seen ∧ paInWindow x.toNat = true)
    (fun w => (w.dev dev).submissions = d.submissions ++ [{ record := s.addrOf d x.toNat, secure := master == .core, gid := none }] ∧ w.mem = s.mem) ∧
  happens (.bootsrc dev master x) (master = .host ∧ d.boot = .choosing) (fun w => (w.dev dev).boot = .fetching true ∧ w.mem = s.mem) ∧
  happens (.bootsrc dev master x) (master ≠ .host ∧ d.boot ≠ .minimal) refused ∧
  (∀ host raise, happens (.bootdone dev master x) (master = .core ∧ x = 1 ∧ d.boot = .started host raise)
    (fun w => (w.dev dev).boot = .done ∧ (w.dev dev).msix = d.msix ++ [3] ∧ w.mem = s.mem)) ∧
  happens (.deviceRegisterWrite dev master off x) (off % 8 ≠ 0) same ∧
  happens (.deviceRegisterWrite dev master off x) (off % 8 = 0 ∧ d.boot ≠ .minimal ∧ regClass off = .owner ∧ ¬ owns) refused ∧
  happens (.deviceRegisterWrite dev master off x) (off = 0x60048 ∧ d.boot ≠ .minimal ∧ owns) (fun w => (w.dev dev).reg 0x60048 = x &&& 0xFF ∧ w.mem = s.mem) ∧
  happens (.deviceReset dev) True (fun w => w = State.linksDown s (s.resetDevice dev 0)) ∧
  happens (.thermalTrip dev) True (fun w => w = State.linksDown s (s.resetDevice dev 1)) ∧
  (dev = 0 → ∀ cause, let w := s.resetDevice 0 cause
    (w.dev 0).boot = (if d.srcWritten then .fetching true else .choosing) ∧ (w.dev 0).tasks = [] ∧ ((w.dev 0).reg 0x1000) = 0 ∧
      (∀ u ∈ w.units, gidDev u.gid = 0 → u = Unit.atReset u.gid) ∧ (s.pend = [] → ∀ c ∈ w.mem, c.1 < sramBase ∨ addrDev c.1 ≠ 0)) ∧
  happens (.bootSourceTimeout dev) (d.boot = .choosing) (fun w => (w.dev dev).boot = .fetching false) ∧
  (∀ host, happens (.bootFetchComplete dev none selfTest) (d.boot = .fetching host) (fun w => w = s.bootFailed dev host 2)) ∧
  (∀ host image, let entry := imageField image 16 8
    happens (.bootFetchComplete dev (some image) true) (d.boot = .fetching host ∧ imageFault (Config.keyHash dev) image ((d.reg 0x90010).toNat / 2 ^ 32 % 2 ^ 32) = none)
      (fun w => (w.dev dev).boot = .started host (if imageField image 24 8 = 1 then some (imageField image 12 4) else none) ∧
        ∀ k, k < 8 → (w.unitAt (2#2 ++ dev ++ BitVec.ofNat 8 k)).run = .running ∧ (w.unitAt (2#2 ++ dev ++ BitVec.ofNat 8 k)).pc = BitVec.ofNat 64 entry)) ∧
  happens (.bootNetworkTimeout dev) (d.boot = .fetching false) (fun w => w = s.bootFailed dev false 1) ∧
  (∀ host raise, happens (.bootImageTimeout dev) (d.boot = .started host raise) (fun w => w = s.bootFailed dev host 8)) ∧
  happens (.powerCapOvershoot dev) True (fun w => (w.dev dev).msix = d.msix ++ [2] ∧ w.mem = s.mem) ∧
  happens (.thermalThrottle dev) True (fun w => (w.dev dev).throttle = true ∧ w.mem = s.mem) ∧
  happens (.powerCapExceeded dev) True (fun w => (w.dev dev).throttle = true ∧ w.mem = s.mem) ∧
  happens (.powerCapCleared dev) True (fun w => (w.dev dev).throttle = false ∧ w.mem = s.mem)

/-- What reset leaves (23 R413, R415, R419, 01 R19, 04 R78, 19 R345): one device, number 0, without an owner and at the beginning of boot, no unit runs, memory
lists nothing and has its form; every queue, cache and window is empty, the plate is the zero plate, and the registers hold 0 (for those without a
reset value the model's choice, DESIGN CHOICE, log 2); a byte of the stacks that nothing has written reads 0 (the model's choice, DESIGN CHOICE, log 1), one of
section storage has no stated value. -/
def Obligations.ResetState : Prop :=
  let s := State.reset
  let d := s.dev 0
  s.devs = [d] ∧ d.num = 0 ∧ d.boot = .choosing ∧ d.owner = 0 ∧ d.tasks = [] ∧ d.rings = [] ∧ d.submissions = [] ∧ s.others = [] ∧
  (∀ b, (d.bank b).mode = 1 ∧ (d.bank b).owner = none) ∧
  s.cur.gid = 0 ∧ s.cur.run = .idle ∧ s.cur.pc = 0 ∧ s.cur.tlevel = 0 ∧ s.cur.plate = 0x800#16384 ∧ s.cur.fstat = 0 ∧ s.cur.tvec = 0 ∧ s.cur.xbase = 0 ∧
  (∀ r, s.cur.rs r = 0) ∧ (∀ r, s.cur.rd r = 0) ∧ (∀ r, s.cur.rv r = 0) ∧ s.cur.window = [] ∧ s.cur.inflight = [] ∧
  (∀ q ∈ engineQueues, s.cur.queue q = []) ∧ s.cur.tlb = [] ∧ s.cur.l1 = [] ∧ s.pend = [] ∧ s.agenda = [] ∧
  s.mem = [] ∧ s.mem.wf ∧ (∀ g a, a < sramBase → s.plainByte g a = 0)

/-- Every step keeps memory in its one form: the addresses rise, and no entry holds what an unlisted address reads as. -/
def Obligations.MemoryFormIsKept : Prop := ∀ s t : State, s.mem.wf → step s = .next t → t.mem.wf

/-- VCVT converts each active element, in the part named, rounded once; VRED reduces the active integer elements, sign-extended to 64 bits, into element 0 of
v[A], the rest of it zero, and replies with the result; VSCAN gives each active element the result over the active elements up to it (R185, R191, R192; the
forms of the integer formats). -/
def Obligations.VectorReductions : Prop := ∀ (h : EHead) (mk : MReg) (f : BitVec 4) (a b : Reg) (src : BitVec 4) (part : BitVec 2) (op : BitVec 3) (sop : BitVec 2)
    (reply : Bool) (s : State) (p : PushForm) (cmd : Command),
  let w := elemBits cmd.fmt
  let on (k : Nat) : Bool := (s.cur.rm mk).getLsbD (w * k / 64)
  let value (k : Nat) : Word := BitVec.ofInt 64 (toSigned w (element w (s.cur.rv b) k))
  let total (o n : Nat) : Word := ((List.range n).filter on).foldl (fun acc k => match o with
    | 0 => acc + value k
    | 1 => if (value k).slt acc then value k else acc
    | 2 => if acc.slt (value k) then value k else acc
    | 3 => acc &&& value k
    | 4 => acc ||| value k
    | _ => acc ^^^ value k) (match o with | 1 => BitVec.ofNat 64 (2 ^ 63 - 1) | 2 => BitVec.ofNat 64 (2 ^ 63) | 3 => -1 | _ => 0)
  let rest (t : State) : Prop := (∀ x, x ≠ a → t.cur.rv x = s.cur.rv x) ∧ t.cur.m = s.cur.m ∧ s.NextWord t ∧ s.OnlyVectors t
  Elementwise (.vcvt h mk f a b src part) [] mk a elemBits (fun u c k =>
    let ws := elemBits src
    let wd := elemBits c.fmt
    if ws ≤ wd then elemConvert c.fmt .rne false (elemVal src (element ws (u.rv b) (part.toNat * (4096 / wd) + k)))
    else if k / (4096 / ws) = part.toNat then elemConvert c.fmt .rne false (elemVal src (element ws (u.rv b) (k % (4096 / ws))))
    else (element wd (u.rv a) k, 0)) ∧
  (s.RunsNow (.vred h mk f a b op reply) p cmd s.cur.pc [] → s.Executes (.vred h mk f a b op reply) [] [] → setI cmd.fmt = true →
    ∃ t, exec (.vred h mk f a b op reply) s = .next t ∧ t.cur.rv a = (total op.toNat (4096 / w)).setWidth 4096 ∧
      t.HasRun cmd (if reply then [total op.toNat (4096 / w)] else []) (· = 0) ∧ rest t) ∧
  (s.RunsNow (.vscan h mk f a b sop) p cmd s.cur.pc [] → s.Executes (.vscan h mk f a b sop) [] [] → setI cmd.fmt = true → sop.toNat ≤ 2 →
    ∃ t, exec (.vscan h mk f a b sop) s = .next t ∧ t.HasRun cmd [] (· = 0) ∧ rest t ∧
      ∀ k, k < 4096 / w → element w (t.cur.rv a) k = if on k then (total sop.toNat (k + 1)).toNat % 2 ^ w else element w (s.cur.rv a) k)

/-- MMA adds the exact product of two integer tiles to its region modulo 2^32, MMAZ writes the product alone, and MZERO writes zeros; each element of the region
is row `r`, column `j`, and no byte of memory and no scalar, vector or mask register changes (R196, R202, R203, R208, 07 R170; tiles that are not ranked and
regions of one quire, whose rows do not overlap). -/
def Obligations.MatrixProducts : Prop := ∀ (fresh : Bool) (h : EHead) (oc : BitVec 4) (da db dc : DReg) (s : State) (p : PushForm) (c : Command) (x y : List (List Nat)),
  let i : Instr := if fresh then .mmaz h oc da db dc else .mma h oc da db dc
  let w := elemBits (dFmt c.db)
  let at_ (d : Desc) (rows : List (List Nat)) (r k : Nat) : Int :=
    toSigned w (if hasFlag d flagTransposed then (rows.getD k []).getD r 0 else (rows.getD r []).getD k 0)
  let apart : Prop := dRows c.da ≤ 1 ∨ rowBytes c.da ≤ (dStride c.da).natAbs
  let same (t : State) : Prop := s.KeepsRegs t ∧ t.cur.v = s.cur.v ∧ t.cur.m = s.cur.m ∧ t.HasRun c [] (· = 0) ∧
    s.NextWord t ∧ (∀ g a, t.plainByte g a = s.plainByte g a) ∧ t.devs = s.devs
  (s.RunsNow i p c s.cur.pc [] → s.Executes i [] [da, db, dc] → s.latent = [] → dFmt c.db = 0 ∨ dFmt c.db = 4 → hasFlag c.da flagTeam = false → hasFlag c.dc flagRanked = false → apart →
    startCheck s 3 .read (operandRuns c.db ++ operandRuns c.dc) = none → s.startTrap c = .ok s → teamCheck s 3 c.da = none →
    readTile s c c.db (scrLoc c.db) = .ok x → readTile s c c.dc (scrLoc c.dc) = .ok y → c.empty = false →
    ∃ t, exec i s = .next t ∧ same t ∧ ∀ r j, r < dRows c.da → j < dCols c.da →
      t.regionElem c.da r j = (((if fresh then 0 else s.regionElem c.da r j : Nat) +
        ((List.range (opCols c.db)).map fun k => at_ c.db x r k * at_ c.dc y k j).sum : Int) % 2 ^ 32).toNat) ∧
  (s.RunsNow (.mzero h da) p c s.cur.pc [] → s.Executes (.mzero h da) [] [da] → s.latent = [] → hasFlag c.da flagTeam = false → apart → s.startTrap c = .ok s → teamCheck s 3 c.da = none → c.empty = false →
    ∃ t, exec (.mzero h da) s = .next t ∧ same t ∧ ∀ r j, r < dRows c.da → j < dCols c.da → t.regionElem c.da r j = 0)

/-- An engine command whose operands are all empty runs where its engine is idle and its tokens are there: it accesses nothing, writes nothing, pushes no reply
entry, and retires in the cycle of its start, where nothing of an earlier command of its number is on its way; it has taken its tokens and given its
own, which can be taken in a later cycle (02 R50, 06 R128).  It is said of the engine instructions of EngineCommandsArePushed that
name a descriptor, EBIND apart, whose record is never empty. -/
def Obligations.EmptyCommands : Prop := ∀ (i : Instr) (s : State) (p : PushForm) (c : Command),
  s.RunsNow i p c s.cur.pc [] → i.wf = true → c.empty = true →
    s.Executes i p.scalar.toList (p.da.toList ++ p.db.toList ++ p.dc.toList ++ (extraReg i c.da c.db c.dc).toList) →
    (p.head.give ≠ 0 → s.cur.fifo p.queue p.head.give < 8) → s.landed s.cur c = true → s.cur.sigWait = [] →
    ∃ t, exec i s = .next t ∧ s.KeepsRegs t ∧ t.cur.v = s.cur.v ∧ t.cur.m = s.cur.m ∧ t.cur.fstat = s.cur.fstat ∧ t.cur.replies = s.cur.replies ∧
      t.cur.inflight = [] ∧ s.NextWord t ∧ t.cur.committed = s.cur.committed + 1 ∧
      (t.cur.justGiven = if p.head.give = 0 then [] else [(p.queue, p.head.give)]) ∧
      s.OnlyVectors { t with cur := { t.cur with justGiven := [], given := s.cur.given, readGiven := s.cur.readGiven, idleSince := s.cur.idleSince } } ∧
      ∀ x y : BitVec 3, x ≠ 7 → y ≠ 7 → t.cur.fifo x y =
        if y = p.queue ∧ x ∈ takesOf p.head then s.cur.fifo x y - 1 else if x = p.queue ∧ y = p.head.give ∧ y ≠ 0 then s.cur.fifo x y + 1 else s.cur.fifo x y

/-- CPIN, CPOUT and CPFILL without stages, to memory, the scratch window or a ring slot: row `r` of the destination receives the bytes of row `r` of the source, or the low bits
of s[B] in every element, at the addresses `into r` that the write of the row reaches; every other byte, and every register, keeps its value (02 R50, 05 R109, R114, 12 R238;
where the source lies apart from the destination, its rows apart from each other, and the translation of a row cannot change under the rows before it). -/
def Obligations.Copies : Prop := ∀ (i : Instr) (h : EHead) (oc : BitVec 4) (reloc : Bool) (da db : DReg) (b : Reg) (s : State) (p : PushForm) (c : Command) (src dst : Loc)
    (z : State) (x : Nat → List Nat) (from_ into : Nat → List (Nat × Nat)),
  let fills : Prop := i = .cpfill h oc reloc da b
  let copies : Prop := i = .cpin h oc reloc da db ∨ i = .cpout h oc reloc da db
  let n : Nat := dRows c.da
  let row (d : Desc) (l : Loc) (r : Nat) : List (Int × Nat) := pieces (rowLoc d l r).base (rowBytes d)
  let apart (y z : Nat × Nat) : Prop := y.1 + y.2 ≤ z.1 ∨ z.1 + z.2 ≤ y.1
  let cached (d : Desc) (l : Loc) : Prop := l.kind = .mem → ∀ r, r < n → ∀ y ∈ row d l r, ∃ e ∈ s.cur.tlb, e.covers s.cur.xbase (BitVec.ofInt 64 y.1) = true
  fills ∨ copies → s.RunsNow i p c s.cur.pc [] → s.latent = [] → s.startTrap c = .ok z → s.Executes i p.scalar.toList (p.da.toList ++ p.db.toList) → c.empty = false → dMicro c.da = 0 →
    (s.cur.carry c).2.carrier = none → s.cur.buffering = false → s.pend = [] →
    s.place s.cur c.queue true c.da = .ok dst → dst.kind ≠ .acc → dst.kind ≠ .vrf →
    (∀ r, r < n → checkPieces s c.queue .copyWrite dst.kind (row c.da dst r) = .ok (into r)) → ((List.range n).flatMap into).Pairwise apart →
    (∀ r, r < n → ∀ y ∈ into r, s.reachesNow s.cur.gid y.1 = true) →
    (n = 1 ∨ dst.kind ≠ .mem ∨ (cached c.da dst ∧ (copies → cached c.db src))) →
    (copies → s.place s.cur c.queue false c.db = .ok src ∧
      ∀ r, r < n → s.readRow c .copyRead c.db src r = .ok (x r) ∧
        (src.kind ≠ .acc → src.kind ≠ .vrf → checkPieces s c.queue .copyRead src.kind (row c.db src r) = .ok (from_ r) ∧
          ∀ y ∈ from_ r, ∀ k, k < n → ∀ z ∈ into k, apart y z)) →
    (fills → ∀ r, r < n → x r = List.replicate (dCols c.da) ((s.cur.rs b).toNat % 2 ^ elemBits (dFmt c.da))) →
    ∃ t, exec i s = .next t ∧ s.KeepsRegs t ∧ t.cur.v = s.cur.v ∧ t.cur.m = s.cur.m ∧ t.HasRun c [] (· = 0) ∧ s.NextWord t ∧
      (∀ r, r < n → (into r).flatMap (fun y => t.plainBytes s.cur.gid y.1 y.2) = elemsToBytes (elemBits (dFmt c.da)) (x r)) ∧
      (∀ g k, (∀ r, r < n → ∀ y ∈ into r, ¬ (y.1 ≤ k ∧ k < y.1 + y.2)) → t.plainByte g k = s.plainByte g k) ∧
      t = { z with
        clock := t.clock, mem := t.mem, poison := t.poison
        cur := { s.cur with
          inflight := t.cur.inflight, pc := t.cur.pc, lcount := t.cur.lcount, lbody := t.cur.lbody, tokens := t.cur.tokens,
          handed := t.cur.handed, justGiven := [], nextNum := t.cur.nextNum, lastStart := t.cur.lastStart, fresh := t.cur.fresh,
          time := t.cur.time, committed := t.cur.committed } }
end

