-- ==== Sys2Proof/Laws/Exec.lean ====
section
/-! SUPPORT. One equation for each arm of `exec`: the instruction's meaning. -/
namespace Sys2Proof.Machine
open Sys2Proof

theorem exec_add w a b c s : exec (.add w a b c) s = execAdd w a b c s := rfl
theorem exec_sub w a b c s : exec (.sub w a b c) s = execSub w a b c s := rfl
theorem exec_mul w a b c s : exec (.mul w a b c) s = execMul w a b c s := rfl
theorem exec_mulh w a b c s : exec (.mulh w a b c) s = execMulh w a b c s := rfl
theorem exec_mulhu w a b c s : exec (.mulhu w a b c) s = execMulhu w a b c s := rfl
theorem exec_div w a b c s : exec (.div w a b c) s = execDiv w a b c s := rfl
theorem exec_divu w a b c s : exec (.divu w a b c) s = execDivu w a b c s := rfl
theorem exec_rem w a b c s : exec (.rem w a b c) s = execRem w a b c s := rfl
theorem exec_remu w a b c s : exec (.remu w a b c) s = execRemu w a b c s := rfl
theorem exec_andI w a b c s : exec (.andI w a b c) s = execAndI w a b c s := rfl
theorem exec_orI w a b c s : exec (.orI w a b c) s = execOrI w a b c s := rfl
theorem exec_xorI w a b c s : exec (.xorI w a b c) s = execXorI w a b c s := rfl
theorem exec_andn w a b c s : exec (.andn w a b c) s = execAndn w a b c s := rfl
theorem exec_shl w a b c s : exec (.shl w a b c) s = execShl w a b c s := rfl
theorem exec_shr w a b c s : exec (.shr w a b c) s = execShr w a b c s := rfl
theorem exec_sar w a b c s : exec (.sar w a b c) s = execSar w a b c s := rfl
theorem exec_ror w a b c s : exec (.ror w a b c) s = execRor w a b c s := rfl
theorem exec_minI w a b c s : exec (.minI w a b c) s = execMinI w a b c s := rfl
theorem exec_maxI w a b c s : exec (.maxI w a b c) s = execMaxI w a b c s := rfl
theorem exec_minu w a b c s : exec (.minu w a b c) s = execMinu w a b c s := rfl
theorem exec_maxu w a b c s : exec (.maxu w a b c) s = execMaxu w a b c s := rfl
theorem exec_seq w a b c s : exec (.seq w a b c) s = execSeq w a b c s := rfl
theorem exec_sne w a b c s : exec (.sne w a b c) s = execSne w a b c s := rfl
theorem exec_slt w a b c s : exec (.slt w a b c) s = execSlt w a b c s := rfl
theorem exec_sltu w a b c s : exec (.sltu w a b c) s = execSltu w a b c s := rfl
theorem exec_sel w a b c d s : exec (.sel w a b c d) s = execSel w a b c d s := rfl
theorem exec_clz w a b s : exec (.clz w a b) s = execClz w a b s := rfl
theorem exec_ctz w a b s : exec (.ctz w a b) s = execCtz w a b s := rfl
theorem exec_popc w a b s : exec (.popc w a b) s = execPopc w a b s := rfl
theorem exec_bfx w a b c d s : exec (.bfx w a b c d) s = execBfx w a b c d s := rfl
theorem exec_bfi w a b c d s : exec (.bfi w a b c d) s = execBfi w a b c d s := rfl
theorem exec_madd w a b c d s : exec (.madd w a b c d) s = execMadd w a b c d s := rfl
theorem exec_addi w a b imm s : exec (.addi w a b imm) s = execAddi w a b imm s := rfl
theorem exec_andi a b imm s : exec (.andi a b imm) s = execAndi a b imm s := rfl
theorem exec_ori a b imm s : exec (.ori a b imm) s = execOri a b imm s := rfl
theorem exec_xori a b imm s : exec (.xori a b imm) s = execXori a b imm s := rfl
theorem exec_shli w a b amt s : exec (.shli w a b amt) s = execShli w a b amt s := rfl
theorem exec_shri w a b amt s : exec (.shri w a b amt) s = execShri w a b amt s := rfl
theorem exec_sari w a b amt s : exec (.sari w a b amt) s = execSari w a b amt s := rfl
theorem exec_slti a b imm s : exec (.slti a b imm) s = execSlti a b imm s := rfl
theorem exec_sltiu a b imm s : exec (.sltiu a b imm) s = execSltiu a b imm s := rfl
theorem exec_movi a imm s : exec (.movi a imm) s = execMovi a imm s := rfl
theorem exec_movhi a b imm s : exec (.movhi a b imm) s = execMovhi a b imm s := rfl
theorem exec_muli w a b imm s : exec (.muli w a b imm) s = execMuli w a b imm s := rfl
theorem exec_lea a imm s : exec (.lea a imm) s = execLea a imm s := rfl
theorem exec_fadd single rm a b c s : exec (.fadd single rm a b c) s = execFadd single rm a b c s := rfl
theorem exec_fsub single rm a b c s : exec (.fsub single rm a b c) s = execFsub single rm a b c s := rfl
theorem exec_fmul single rm a b c s : exec (.fmul single rm a b c) s = execFmul single rm a b c s := rfl
theorem exec_ffma single rm a b c d s : exec (.ffma single rm a b c d) s = execFfma single rm a b c d s := rfl
theorem exec_fdiv single rm a b c s : exec (.fdiv single rm a b c) s = execFdiv single rm a b c s := rfl
theorem exec_fsqrt single rm a b s : exec (.fsqrt single rm a b) s = execFsqrt single rm a b s := rfl
theorem exec_fmin single a b c s : exec (.fmin single a b c) s = execFmin single a b c s := rfl
theorem exec_fmax single a b c s : exec (.fmax single a b c) s = execFmax single a b c s := rfl
theorem exec_fceq single a b c s : exec (.fceq single a b c) s = execFceq single a b c s := rfl
theorem exec_fclt single a b c s : exec (.fclt single a b c) s = execFclt single a b c s := rfl
theorem exec_fcle single a b c s : exec (.fcle single a b c) s = execFcle single a b c s := rfl
theorem exec_fcvti sat single rm a b s : exec (.fcvti sat single rm a b) s = execFcvti sat single rm a b s := rfl
theorem exec_fcvtf single rm a b kind s : exec (.fcvtf single rm a b kind) s = execFcvtf single rm a b kind s := rfl
theorem exec_fcvtw sat single rm a b s : exec (.fcvtw sat single rm a b) s = execFcvtw sat single rm a b s := rfl
theorem exec_fabs single a b s : exec (.fabs single a b) s = execFabs single a b s := rfl
theorem exec_fneg single a b s : exec (.fneg single a b) s = execFneg single a b s := rfl
theorem exec_fclass single a b s : exec (.fclass single a b) s = execFclass single a b s := rfl
theorem exec_br off s : exec (.br off) s = execBr off s := rfl
theorem exec_beq a b off s : exec (.beq a b off) s = execBeq a b off s := rfl
theorem exec_bne a b off s : exec (.bne a b off) s = execBne a b off s := rfl
theorem exec_blt a b off s : exec (.blt a b off) s = execBlt a b off s := rfl
theorem exec_bge a b off s : exec (.bge a b off) s = execBge a b off s := rfl
theorem exec_bltu a b off s : exec (.bltu a b off) s = execBltu a b off s := rfl
theorem exec_bgeu a b off s : exec (.bgeu a b off) s = execBgeu a b off s := rfl
theorem exec_call a off s : exec (.call a off) s = execCall a off s := rfl
theorem exec_callr a b s : exec (.callr a b) s = execCallr a b s := rfl
theorem exec_ret b s : exec (.ret b) s = execRet b s := rfl
theorem exec_jmpr b s : exec (.jmpr b) s = execJmpr b s := rfl
theorem exec_loop cnt len imm base s : exec (.loop cnt len imm base) s = execLoop cnt len imm base s := rfl
theorem exec_loopx cnt len imm base s : exec (.loopx cnt len imm base) s = execLoopx cnt len imm base s := rfl
theorem exec_nop s : exec (.nop) s = execNop s := rfl
theorem exec_brk code s : exec (.brk code) s = execBrk code s := rfl
theorem exec_ld size sx byp oc a b imm s : exec (.ld size sx byp oc a b imm) s = execLd size sx byp oc a b imm s := rfl
theorem exec_st size oc a b imm s : exec (.st size oc a b imm) s = execSt size oc a b imm s := rfl
theorem exec_lds size sx oc a b imm s : exec (.lds size sx oc a b imm) s = execLds size sx oc a b imm s := rfl
theorem exec_sts size oc a b imm s : exec (.sts size oc a b imm) s = execSts size oc a b imm s := rfl
theorem exec_fence sem scope mask s : exec (.fence sem scope mask) s = execFence sem scope mask s := rfl
theorem exec_l1inv b c s : exec (.l1inv b c) s = execL1inv b c s := rfl
theorem exec_pref oc b c s : exec (.pref oc b c) s = execPref oc b c s := rfl
theorem exec_bankmode a b c s : exec (.bankmode a b c) s = execBankmode a b c s := rfl
theorem exec_dset da b q s : exec (.dset da b q) s = execDset da b q s := rfl
theorem exec_dget a db q s : exec (.dget a db q) s = execDget a db q s := rfl
theorem exec_dld oc da b s : exec (.dld oc da b) s = execDld oc da b s := rfl
theorem exec_aadd w sem scope oc mask a b c s : exec (.aadd w sem scope oc mask a b c) s = execAadd w sem scope oc mask a b c s := rfl
theorem exec_aand w sem scope oc mask a b c s : exec (.aand w sem scope oc mask a b c) s = execAand w sem scope oc mask a b c s := rfl
theorem exec_aor w sem scope oc mask a b c s : exec (.aor w sem scope oc mask a b c) s = execAor w sem scope oc mask a b c s := rfl
theorem exec_axor w sem scope oc mask a b c s : exec (.axor w sem scope oc mask a b c) s = execAxor w sem scope oc mask a b c s := rfl
theorem exec_amin w sem scope oc mask a b c s : exec (.amin w sem scope oc mask a b c) s = execAmin w sem scope oc mask a b c s := rfl
theorem exec_amax w sem scope oc mask a b c s : exec (.amax w sem scope oc mask a b c) s = execAmax w sem scope oc mask a b c s := rfl
theorem exec_aminu w sem scope oc mask a b c s : exec (.aminu w sem scope oc mask a b c) s = execAminu w sem scope oc mask a b c s := rfl
theorem exec_amaxu w sem scope oc mask a b c s : exec (.amaxu w sem scope oc mask a b c) s = execAmaxu w sem scope oc mask a b c s := rfl
theorem exec_aswap w sem scope oc mask a b c s : exec (.aswap w sem scope oc mask a b c) s = execAswap w sem scope oc mask a b c s := rfl
theorem exec_acas w sem scope oc mask a b c d s : exec (.acas w sem scope oc mask a b c d) s = execAcas w sem scope oc mask a b c d s := rfl
theorem exec_afadd single sem scope oc mask a b c s : exec (.afadd single sem scope oc mask a b c) s = execAfadd single sem scope oc mask a b c s := rfl
theorem exec_barr scope mask a b c s : exec (.barr scope mask a b c) s = execBarr scope mask a b c s := rfl
theorem exec_bwait scope mask a b c s : exec (.bwait scope mask a b c) s = execBwait scope mask a b c s := rfl
theorem exec_mwait scope mask a b c s : exec (.mwait scope mask a b c) s = execMwait scope mask a b c s := rfl
theorem exec_msig scope mask b c s : exec (.msig scope mask b c) s = execMsig scope mask b c s := rfl
theorem exec_rinit a b c s : exec (.rinit a b c) s = execRinit a b c s := rfl
theorem exec_rclaim a b s : exec (.rclaim a b) s = execRclaim a b s := rfl
theorem exec_rwaite a b c s : exec (.rwaite a b c) s = execRwaite a b c s := rfl
theorem exec_rcommit mask b c s : exec (.rcommit mask b c) s = execRcommit mask b c s := rfl
theorem exec_rwaitf mask a b s : exec (.rwaitf mask a b) s = execRwaitf mask a b s := rfl
theorem exec_rtake b c s : exec (.rtake b c) s = execRtake b c s := rfl
theorem exec_rstat a b k s : exec (.rstat a b k) s = execRstat a b k s := rfl
theorem exec_twait a q s : exec (.twait a q) s = execTwait a q s := rfl
theorem exec_tgive q s : exec (.tgive q) s = execTgive q s := rfl
theorem exec_ypop a s : exec (.ypop a) s = execYpop a s := rfl
theorem exec_ypeek a b s : exec (.ypeek a b) s = execYpeek a b s := rfl
theorem exec_vadd h mk f a b c s : exec (.vadd h mk f a b c) s = execVadd h mk f a b c s := rfl
theorem exec_vsub h mk f a b c s : exec (.vsub h mk f a b c) s = execVsub h mk f a b c s := rfl
theorem exec_vmul h mk f a b c s : exec (.vmul h mk f a b c) s = execVmul h mk f a b c s := rfl
theorem exec_vfma h mk f a b c s : exec (.vfma h mk f a b c) s = execVfma h mk f a b c s := rfl
theorem exec_vfnma h mk f a b c s : exec (.vfnma h mk f a b c) s = execVfnma h mk f a b c s := rfl
theorem exec_vmin h mk f a b c s : exec (.vmin h mk f a b c) s = execVmin h mk f a b c s := rfl
theorem exec_vmax h mk f a b c s : exec (.vmax h mk f a b c) s = execVmax h mk f a b c s := rfl
theorem exec_vabs h mk f a b s : exec (.vabs h mk f a b) s = execVabs h mk f a b s := rfl
theorem exec_vneg h mk f a b s : exec (.vneg h mk f a b) s = execVneg h mk f a b s := rfl
theorem exec_vdiv h mk f a b c s : exec (.vdiv h mk f a b c) s = execVdiv h mk f a b c s := rfl
theorem exec_vsqrt h mk f a b s : exec (.vsqrt h mk f a b) s = execVsqrt h mk f a b s := rfl
theorem exec_vrsq h mk f a b s : exec (.vrsq h mk f a b) s = execVrsq h mk f a b s := rfl
theorem exec_vrcp h mk f a b s : exec (.vrcp h mk f a b) s = execVrcp h mk f a b s := rfl
theorem exec_vexp2 h mk f a b s : exec (.vexp2 h mk f a b) s = execVexp2 h mk f a b s := rfl
theorem exec_vlog2 h mk f a b s : exec (.vlog2 h mk f a b) s = execVlog2 h mk f a b s := rfl
theorem exec_vand h mk f a b c s : exec (.vand h mk f a b c) s = execVand h mk f a b c s := rfl
theorem exec_vor h mk f a b c s : exec (.vor h mk f a b c) s = execVor h mk f a b c s := rfl
theorem exec_vxor h mk f a b c s : exec (.vxor h mk f a b c) s = execVxor h mk f a b c s := rfl
theorem exec_vshl h mk f a b c s : exec (.vshl h mk f a b c) s = execVshl h mk f a b c s := rfl
theorem exec_vshr h mk f a b c s : exec (.vshr h mk f a b c) s = execVshr h mk f a b c s := rfl
theorem exec_vsar h mk f a b c s : exec (.vsar h mk f a b c) s = execVsar h mk f a b c s := rfl
theorem exec_vceq h mk f a b c s : exec (.vceq h mk f a b c) s = execVceq h mk f a b c s := rfl
theorem exec_vclt h mk f a b c s : exec (.vclt h mk f a b c) s = execVclt h mk f a b c s := rfl
theorem exec_vcle h mk f a b c s : exec (.vcle h mk f a b c) s = execVcle h mk f a b c s := rfl
theorem exec_vsel h mk f a b c s : exec (.vsel h mk f a b c) s = execVsel h mk f a b c s := rfl
theorem exec_vmov h mk f a b s : exec (.vmov h mk f a b) s = execVmov h mk f a b s := rfl
theorem exec_vmovs h mk f a b s : exec (.vmovs h mk f a b) s = execVmovs h mk f a b s := rfl
theorem exec_viota h mk f a b s : exec (.viota h mk f a b) s = execViota h mk f a b s := rfl
theorem exec_vclamp h mk f a b c s : exec (.vclamp h mk f a b c) s = execVclamp h mk f a b c s := rfl
theorem exec_vadds h mk f a b c s : exec (.vadds h mk f a b c) s = execVadds h mk f a b c s := rfl
theorem exec_vmulh h mk f a b c s : exec (.vmulh h mk f a b c) s = execVmulh h mk f a b c s := rfl
theorem exec_vcvt h mk f a b src p s : exec (.vcvt h mk f a b src p) s = execVcvt h mk f a b src p s := rfl
theorem exec_vpack h f a b c s : exec (.vpack h f a b c) s = execVpack h f a b c s := rfl
theorem exec_vunpk h f a b c s : exec (.vunpk h f a b c) s = execVunpk h f a b c s := rfl
theorem exec_vperm h mk f a b c s : exec (.vperm h mk f a b c) s = execVperm h mk f a b c s := rfl
theorem exec_vgaths h oc mk f a db c s : exec (.vgaths h oc mk f a db c) s = execVgaths h oc mk f a db c s := rfl
theorem exec_vscats h oc mk f da b c s : exec (.vscats h oc mk f da b c) s = execVscats h oc mk f da b c s := rfl
theorem exec_vred h mk f a b op reply s : exec (.vred h mk f a b op reply) s = execVred h mk f a b op reply s := rfl
theorem exec_vscan h mk f a b op s : exec (.vscan h mk f a b op) s = execVscan h mk f a b op s := rfl
theorem exec_vtopk h mk f a b k s : exec (.vtopk h mk f a b k) s = execVtopk h mk f a b k s := rfl
theorem exec_vcmpr h mk f a b s : exec (.vcmpr h mk f a b) s = execVcmpr h mk f a b s := rfl
theorem exec_vexpd h mk f a b s : exec (.vexpd h mk f a b) s = execVexpd h mk f a b s := rfl
theorem exec_vld h oc mk f a db c s : exec (.vld h oc mk f a db c) s = execVld h oc mk f a db c s := rfl
theorem exec_vst h oc mk f da b c s : exec (.vst h oc mk f da b c) s = execVst h oc mk f da b c s := rfl
theorem exec_vldx h oc mk f a db c s : exec (.vldx h oc mk f a db c) s = execVldx h oc mk f a db c s := rfl
theorem exec_mand h a b c s : exec (.mand h a b c) s = execMand h a b c s := rfl
theorem exec_mor h a b c s : exec (.mor h a b c) s = execMor h a b c s := rfl
theorem exec_mnot h a b s : exec (.mnot h a b) s = execMnot h a b s := rfl
theorem exec_mpopc h b s : exec (.mpopc h b) s = execMpopc h b s := rfl
theorem exec_mma h oc da db dc s : exec (.mma h oc da db dc) s = execMma h oc da db dc s := rfl
theorem exec_mmaz h oc da db dc s : exec (.mmaz h oc da db dc) s = execMmaz h oc da db dc s := rfl
theorem exec_mmac h oc fmt sat da db dc s : exec (.mmac h oc fmt sat da db dc) s = execMmac h oc fmt sat da db dc s := rfl
theorem exec_mmae h oc da db dc s : exec (.mmae h oc da db dc) s = execMmae h oc da db dc s := rfl
theorem exec_mres h oc da db dc s : exec (.mres h oc da db dc) s = execMres h oc da db dc s := rfl
theorem exec_mbndLyr h oc da db dc s : exec (.mbndLyr h oc da db dc) s = execMbndLyr h oc da db dc s := rfl
theorem exec_mbndFirst h oc da db s : exec (.mbndFirst h oc da db) s = execMbndFirst h oc da db s := rfl
theorem exec_mbndSum h da db dc s : exec (.mbndSum h da db dc) s = execMbndSum h da db dc s := rfl
theorem exec_mcomp h oc reloc da db dc s : exec (.mcomp h oc reloc da db dc) s = execMcomp h oc reloc da db dc s := rfl
theorem exec_mmas h oc da db dc s : exec (.mmas h oc da db dc) s = execMmas h oc da db dc s := rfl
theorem exec_mmab h oc da db dc s : exec (.mmab h oc da db dc) s = execMmab h oc da db dc s := rfl
theorem exec_mzero h da s : exec (.mzero h da) s = execMzero h da s := rfl
theorem exec_mwr h oc da db s : exec (.mwr h oc da db) s = execMwr h oc da db s := rfl
theorem exec_mrd h oc sat clr da db c s : exec (.mrd h oc sat clr da db c) s = execMrd h oc sat clr da db c s := rfl
theorem exec_mchk h oc row da db dc s : exec (.mchk h oc row da db dc) s = execMchk h oc row da db dc s := rfl
theorem exec_mjoinJoin h da s : exec (.mjoinJoin h da) s = execMjoinJoin h da s := rfl
theorem exec_mjoinLeave h da s : exec (.mjoinLeave h da) s = execMjoinLeave h da s := rfl
theorem exec_cpin h oc reloc da db s : exec (.cpin h oc reloc da db) s = execCpin h oc reloc da db s := rfl
theorem exec_cprow h oc reloc oobz da db s : exec (.cprow h oc reloc oobz da db) s = execCprow h oc reloc oobz da db s := rfl
theorem exec_cpexp h oc reloc da db s : exec (.cpexp h oc reloc da db) s = execCpexp h oc reloc da db s := rfl
theorem exec_cpfill h oc reloc da b s : exec (.cpfill h oc reloc da b) s = execCpfill h oc reloc da b s := rfl
theorem exec_scprobe h oc reloc da db c s : exec (.scprobe h oc reloc da db c) s = execScprobe h oc reloc da db c s := rfl
theorem exec_scrply h oc reloc da db c s : exec (.scrply h oc reloc da db c) s = execScrply h oc reloc da db c s := rfl
theorem exec_cpout h oc reloc da db s : exec (.cpout h oc reloc da db) s = execCpout h oc reloc da db s := rfl
theorem exec_cpsct h oc reloc skip da db s : exec (.cpsct h oc reloc skip da db) s = execCpsct h oc reloc skip da db s := rfl
theorem exec_cppack h oc reloc da db s : exec (.cppack h oc reloc da db) s = execCppack h oc reloc da db s := rfl
theorem exec_cpred h oc reloc op ord da db s : exec (.cpred h oc reloc op ord da db) s = execCpred h oc reloc op ord da db s := rfl
theorem exec_cpcoll h oc kind arr da db s : exec (.cpcoll h oc kind arr da db) s = execCpcoll h oc kind arr da db s := rfl
theorem exec_cpsend h oc db c s : exec (.cpsend h oc db c) s = execCpsend h oc db c s := rfl
theorem exec_cppost h oc da c s : exec (.cppost h oc da c) s = execCppost h oc da c s := rfl
theorem exec_screc h oc reloc da db c s : exec (.screc h oc reloc da db c) s = execScrec h oc reloc da db c s := rfl
theorem exec_cpcnv h oc reloc da db s : exec (.cpcnv h oc reloc da db) s = execCpcnv h oc reloc da db s := rfl
theorem exec_ebind h oc da s : exec (.ebind h oc da) s = execEbind h oc da s := rfl
theorem exec_erun h oc mode ord b s : exec (.erun h oc mode ord b) s = execErun h oc mode ord b s := rfl
theorem exec_eswp h pa pb s : exec (.eswp h pa pb) s = execEswp h pa pb s := rfl
theorem exec_efrnt h oc b s : exec (.efrnt h oc b) s = execEfrnt h oc b s := rfl
theorem exec_ndagree a b s : exec (.ndagree a b) s = execNdagree a b s := rfl
theorem exec_sigrd met iso a n s : exec (.sigrd met iso a n) s = execSigrd met iso a n s := rfl
theorem exec_copen buffered off s : exec (.copen buffered off) s = execCopen buffered off s := rfl
theorem exec_cclose s : exec (.cclose) s = execCclose s := rfl
theorem exec_katstat a k s : exec (.katstat a k) s = execKatstat a k s := rfl
theorem exec_trap n s : exec (.trap n) s = execTrap n s := rfl
theorem exec_eret s : exec (.eret) s = execEret s := rfl
theorem exec_mfsr a idx s : exec (.mfsr a idx) s = execMfsr a idx s := rfl
theorem exec_mtsr idx b s : exec (.mtsr idx b) s = execMtsr idx b s := rfl
theorem exec_exit b s : exec (.exit b) s = execExit b s := rfl
theorem exec_yieldT a s : exec (.yieldT a) s = execYieldT a s := rfl
theorem exec_swap s : exec (.swap) s = execSwap s := rfl
theorem exec_swapLoad b s : exec (.swapLoad b) s = execSwapLoad b s := rfl
theorem exec_frame n s : exec (.frame n) s = execFrame n s := rfl
theorem exec_drain s : exec (.drain) s = execDrain s := rfl
theorem exec_tlbinv scope a b s : exec (.tlbinv scope a b) s = execTlbinv scope a b s := rfl
theorem exec_spawn a b s : exec (.spawn a b) s = execSpawn a b s := rfl
theorem exec_depdec oc a b s : exec (.depdec oc a b) s = execDepdec oc a b s := rfl
theorem exec_depdecAll oc a s : exec (.depdecAll oc a) s = execDepdecAll oc a s := rfl
theorem exec_halt s : exec (.halt) s = execHalt s := rfl
theorem exec_clock a s : exec (.clock a) s = execClock a s := rfl
theorem exec_kill a b s : exec (.kill a b) s = execKill a b s := rfl
theorem exec_idle n s : exec (.idle n) s = execIdle n s := rfl
theorem exec_phase p s : exec (.phase p) s = execPhase p s := rfl
theorem exec_instructionFetch g s : exec (.instructionFetch g) s = execInstructionFetch g s := rfl
theorem exec_engineCommandPush g word s : exec (.engineCommandPush g word) s = execEngineCommandPush g word s := rfl
theorem exec_instructionCommit g s : exec (.instructionCommit g) s = execInstructionCommit g s := rfl
theorem exec_framedStartMiss g q cycle s : exec (.framedStartMiss g q cycle) s = execFramedStartMiss g q cycle s := rfl
theorem exec_commandSteal g owner q s : exec (.commandSteal g owner q) s = execCommandSteal g owner q s := rfl
theorem exec_commandRetire g q s : exec (.commandRetire g q) s = execCommandRetire g q s := rfl
theorem exec_classQueueLeave g index s : exec (.classQueueLeave g index) s = execClassQueueLeave g index s := rfl
theorem exec_homeAdmissionRound home picks s : exec (.homeAdmissionRound home picks) s = execHomeAdmissionRound home picks s := rfl
theorem exec_horizonWiden write scope s : exec (.horizonWiden write scope) s = execHorizonWiden write scope s := rfl
theorem exec_l1CopyInstall g sector s : exec (.l1CopyInstall g sector) s = execL1CopyInstall g sector s := rfl
theorem exec_l1CopyDiscard g sector s : exec (.l1CopyDiscard g sector) s = execL1CopyDiscard g sector s := rfl
theorem exec_claspRequestPerform g s : exec (.claspRequestPerform g) s = execClaspRequestPerform g s := rfl
theorem exec_pageWalkComplete g va s : exec (.pageWalkComplete g va) s = execPageWalkComplete g va s := rfl
theorem exec_bankmodeChangeBegin g s : exec (.bankmodeChangeBegin g) s = execBankmodeChangeBegin g s := rfl
theorem exec_bankmodeChangeEnd g s : exec (.bankmodeChangeEnd g) s = execBankmodeChangeEnd g s := rfl
theorem exec_mwaitRecheck g s : exec (.mwaitRecheck g) s = execMwaitRecheck g s := rfl
theorem exec_idleTimeout g s : exec (.idleTimeout g) s = execIdleTimeout g s := rfl
theorem exec_plateLoadComplete g s : exec (.plateLoadComplete g) s = execPlateLoadComplete g s := rfl
theorem exec_trapTake g s : exec (.trapTake g) s = execTrapTake g s := rfl
theorem exec_containmentEvent g cause q tval s : exec (.containmentEvent g cause q tval) s = execContainmentEvent g cause q tval s := rfl
theorem exec_katInject g unit row pass s : exec (.katInject g unit row pass) s = execKatInject g unit row pass s := rfl
theorem exec_replicaMeeting g s : exec (.replicaMeeting g) s = execReplicaMeeting g s := rfl
theorem exec_meetingTimeout g s : exec (.meetingTimeout g) s = execMeetingTimeout g s := rfl
theorem exec_ndagreeTimeout g s : exec (.ndagreeTimeout g) s = execNdagreeTimeout g s := rfl
theorem exec_taskAccept dev s : exec (.taskAccept dev) s = execTaskAccept dev s := rfl
theorem exec_taskPlace dev id s : exec (.taskPlace dev id) s = execTaskPlace dev id s := rfl
theorem exec_taskComplete dev id s : exec (.taskComplete dev id) s = execTaskComplete dev id s := rfl
theorem exec_taskPreempt dev id s : exec (.taskPreempt dev id) s = execTaskPreempt dev id s := rfl
theorem exec_patrolScrub sector s : exec (.patrolScrub sector) s = execPatrolScrub sector s := rfl
theorem exec_tickBoundary dev s : exec (.tickBoundary dev) s = execTickBoundary dev s := rfl
theorem exec_tickBatchAdmit dev s : exec (.tickBatchAdmit dev) s = execTickBatchAdmit dev s := rfl
theorem exec_krytlinkPacketDeliver src dst s : exec (.krytlinkPacketDeliver src dst) s = execKrytlinkPacketDeliver src dst s := rfl
theorem exec_clockOffsetExceeded dev s : exec (.clockOffsetExceeded dev) s = execClockOffsetExceeded dev s := rfl
theorem exec_portFailure dev port s : exec (.portFailure dev port) s = execPortFailure dev port s := rfl
theorem exec_hostBar2Write dev addr data s : exec (.hostBar2Write dev addr data) s = execHostBar2Write dev addr data s := rfl
theorem exec_hostBar2Read dev addr len s : exec (.hostBar2Read dev addr len) s = execHostBar2Read dev addr len s := rfl
theorem exec_claim dev master value s : exec (.claim dev master value) s = execClaim dev master value s := rfl
theorem exec_claimHandover dev master value s : exec (.claimHandover dev master value) s = execClaimHandover dev master value s := rfl
theorem exec_devreset dev master value s : exec (.devreset dev master value) s = execDevreset dev master value s := rfl
theorem exec_submit dev master value s : exec (.submit dev master value) s = execSubmit dev master value s := rfl
theorem exec_bootsrc dev master value s : exec (.bootsrc dev master value) s = execBootsrc dev master value s := rfl
theorem exec_bootdone dev master value s : exec (.bootdone dev master value) s = execBootdone dev master value s := rfl
theorem exec_deviceRegisterWrite dev master off value s : exec (.deviceRegisterWrite dev master off value) s = execDeviceRegisterWrite dev master off value s := rfl
theorem exec_deviceReset dev s : exec (.deviceReset dev) s = execDeviceReset dev s := rfl
theorem exec_bootSourceTimeout dev s : exec (.bootSourceTimeout dev) s = execBootSourceTimeout dev s := rfl
theorem exec_bootFetchComplete dev fetched selfTest s : exec (.bootFetchComplete dev fetched selfTest) s = execBootFetchComplete dev fetched selfTest s := rfl
theorem exec_bootNetworkTimeout dev s : exec (.bootNetworkTimeout dev) s = execBootNetworkTimeout dev s := rfl
theorem exec_bootImageTimeout dev s : exec (.bootImageTimeout dev) s = execBootImageTimeout dev s := rfl
theorem exec_powerCapOvershoot dev s : exec (.powerCapOvershoot dev) s = execPowerCapOvershoot dev s := rfl
theorem exec_thermalThrottle dev s : exec (.thermalThrottle dev) s = execThermalThrottle dev s := rfl
theorem exec_thermalTrip dev s : exec (.thermalTrip dev) s = execThermalTrip dev s := rfl
theorem exec_debugStop master g s : exec (.debugStop master g) s = execDebugStop master g s := rfl
theorem exec_debugStep master g engineStep s : exec (.debugStep master g engineStep) s = execDebugStep master g engineStep s := rfl
theorem exec_debugResume master g s : exec (.debugResume master g) s = execDebugResume master g s := rfl
theorem exec_ownerKill dev master id s : exec (.ownerKill dev master id) s = execOwnerKill dev master id s := rfl
theorem exec_powerCapExceeded dev s : exec (.powerCapExceeded dev) s = execPowerCapExceeded dev s := rfl
theorem exec_powerCapCleared dev s : exec (.powerCapCleared dev) s = execPowerCapCleared dev s := rfl
end Sys2Proof.Machine
end

