-- ==== Sys2Proof/Laws/Memory.lean ====
section
/-! SUPPORT. Storage as a list of cells: what is read after a write, and that every operation keeps the canonical form. -/
namespace Sys2Proof.Machine
open Sys2Proof

/-! ### Reading after writing -/

theorem lookup_filter (p : Nat → Bool) (m : Memory) (x : Nat) :
    List.lookup x (m.filter fun c => p c.1) = if p x then List.lookup x m else none := by
  induction m with
  | nil => simp
  | cons c m ih =>
    by_cases hp : p c.1 = true
    · rw [List.filter_cons_of_pos (p := fun c : Host.Cell => p c.1) hp, List.lookup_cons, List.lookup_cons, ih]
      by_cases hx : x = c.1
      · subst hx; simp [hp]
      · rw [show (x == c.1) = false by simpa using hx]
    · rw [List.filter_cons_of_neg (p := fun c : Host.Cell => p c.1) hp, ih, List.lookup_cons]
      by_cases hx : x = c.1
      · subst hx; simp [hp]
      · rw [show (x == c.1) = false by simpa using hx]

theorem cellsOf_get (a : Nat) (data : List Byte) (x : Nat) : List.lookup x (cellsOf a data) =
    if h : a ≤ x ∧ x < a + data.length then
      (if x < sramBase ∧ data[x - a] = 0 then none else some data[x - a]) else none := by
  induction data generalizing a with
  | nil => simp [cellsOf]
  | cons b data ih =>
    have e : cellsOf a (b :: data) =
        (if decide (a < sramBase) && b == 0 then [] else [(a, b)]) ++ cellsOf (a + 1) data := by
      simp only [cellsOf, List.zipIdx_cons, List.filterMap_cons]
      by_cases hc : (decide (a < sramBase) && b == 0) = true
      · simp only [if_pos hc, List.nil_append]
      · simp only [if_neg hc, List.singleton_append]
    have hn : x = a → List.lookup x (cellsOf (a + 1) data) = none := fun hx => by
      rw [ih, dif_neg (by omega)]
    rw [e, List.lookup_append]
    by_cases hx : x = a
    · rw [hn hx]; subst hx
      rw [Option.or_none, dif_pos (by simp)]
      by_cases hc : (decide (x < sramBase) && b == 0) = true
      · rw [if_pos hc, if_pos (by simpa using hc)]; rfl
      · rw [if_neg hc, if_neg (by simpa using hc)]; simp
    · have h0 : List.lookup x (if (decide (a < sramBase) && b == 0) = true then ([] : Memory) else [(a, b)]) = none := by
        by_cases hc : (decide (a < sramBase) && b == 0) = true
        · rw [if_pos hc]; rfl
        · rw [if_neg hc, List.lookup_cons, show (x == a) = false by simpa using hx]; rfl
      rw [h0, Option.none_or, ih]
      by_cases hi : a + 1 ≤ x ∧ x < a + 1 + data.length
      · have hi' : a ≤ x ∧ x < a + (b :: data).length := by simp only [List.length_cons]; omega
        rw [dif_pos hi, dif_pos hi']
        have hg : (b :: data)[x - a]'(by simp only [List.length_cons] at hi' ⊢; omega) = data[x - (a + 1)]'(by omega) := by
          rw [List.getElem_cons, dif_neg (by omega)]
          congr 1
        rw [hg]
      · rw [dif_neg hi, dif_neg (by simp only [List.length_cons]; omega)]

theorem Memory.write_get (m : Memory) (a : Nat) (data : List Byte) (x : Nat) : (m.write a data).get? x =
    if h : a ≤ x ∧ x < a + data.length then
      (if x < sramBase ∧ data[x - a] = 0 then none else some data[x - a]) else m.get? x := by
  simp only [Memory.get?, Memory.write]
  rw [List.lookup_append, List.lookup_append, lookup_filter (fun k => decide (k < a)),
    lookup_filter (fun k => decide (a + data.length ≤ k)), cellsOf_get]
  by_cases h : a ≤ x ∧ x < a + data.length
  · rw [dif_pos h, dif_pos h]
    have h1 : ¬ decide (x < a) = true := by simp; omega
    have h2 : ¬ decide (a + data.length ≤ x) = true := by simp; omega
    rw [if_neg h1, if_neg h2, Option.none_or, Option.or_none]
  · rw [dif_neg h, dif_neg h, Option.or_none]
    by_cases h1 : x < a
    · rw [if_pos (by simpa using h1), if_neg (by simp; omega), Option.or_none]
    · rw [if_neg (by simpa using h1), if_pos (by simp; omega), Option.none_or]

theorem Memory.forget_get (m : Memory) (a n x : Nat) : (m.forget a n).get? x = if a ≤ x ∧ x < a + n then none else m.get? x := by
  simp only [Memory.get?, Memory.forget]
  rw [List.lookup_append, lookup_filter (fun k => decide (k < a)), lookup_filter (fun k => decide (a + n ≤ k))]
  by_cases h1 : x < a
  · rw [if_pos (by simpa using h1), if_neg (by simp; omega), Option.or_none, if_neg (by omega)]
  · rw [if_neg (by simpa using h1), Option.none_or]
    by_cases h2 : a + n ≤ x
    · rw [if_pos (by simpa using h2), if_neg (by omega)]
    · rw [if_neg (by simpa using h2), if_pos (by omega)]

/-! ### The canonical form -/

theorem Memory.wf_iff (m : Memory) : m.wf = true ↔
    m.Pairwise (fun x y => x.1 < y.1) ∧ ∀ c ∈ m, sramBase ≤ c.1 ∨ c.2 ≠ 0 := by
  simp [Memory.wf]

theorem Memory.wf_nil : Memory.wf [] = true := rfl

theorem Memory.wf_filter {m : Memory} (h : m.wf = true) (p : Host.Cell → Bool) : Memory.wf (m.filter p) = true := by
  rw [Memory.wf_iff] at *
  exact ⟨h.1.filter p, fun c hc => h.2 c ((List.mem_filter.mp hc).1)⟩

/-- Two lists of cells in canonical form, the second above the first. -/
theorem Memory.wf_append {m n : Memory} (hm : m.wf = true) (hn : n.wf = true) (h : ∀ x ∈ m, ∀ y ∈ n, x.1 < y.1) :
    Memory.wf (m ++ n) = true := by
  rw [Memory.wf_iff] at *
  refine ⟨List.pairwise_append.mpr ⟨hm.1, hn.1, h⟩, fun c hc => ?_⟩
  rcases List.mem_append.mp hc with hc | hc
  · exact hm.2 c hc
  · exact hn.2 c hc

theorem mem_cellsOf {a : Nat} {data : List Byte} {c : Host.Cell} (h : c ∈ cellsOf a data) :
    a ≤ c.1 ∧ c.1 < a + data.length ∧ (sramBase ≤ c.1 ∨ c.2 ≠ 0) := by
  rw [cellsOf, List.mem_filterMap] at h
  obtain ⟨⟨b, x⟩, h1, h2⟩ := h
  have h3 := List.mem_zipIdx h1
  dsimp only at h2
  split at h2
  · cases h2
  · cases h2
    refine ⟨h3.1, by omega, ?_⟩
    rename_i hc
    simp only [Bool.and_eq_true, decide_eq_true_eq, beq_iff_eq, not_and] at hc
    by_cases hs : sramBase ≤ x
    · exact .inl hs
    · exact .inr (hc (by omega))

theorem cellsOf_wf (a : Nat) (data : List Byte) : (cellsOf a data).wf = true := by
  induction data generalizing a with
  | nil => rfl
  | cons b data ih =>
    simp only [cellsOf, List.zipIdx_cons, List.filterMap_cons]
    by_cases hc : (decide (a < sramBase) && b == 0) = true
    · simp only [if_pos hc]; exact ih (a + 1)
    · simp only [if_neg hc]
      have h0 : Memory.wf [(a, b)] = true := by
        rw [Memory.wf_iff]
        refine ⟨List.pairwise_singleton .., fun c h => ?_⟩
        cases List.mem_singleton.mp h
        simp only [Bool.and_eq_true, decide_eq_true_eq, beq_iff_eq, not_and] at hc
        by_cases hs : sramBase ≤ a
        · exact .inl hs
        · exact .inr (hc (by omega))
      refine Memory.wf_append h0 (ih (a + 1)) fun x hx y hy => ?_
      cases List.mem_singleton.mp hx
      have := (mem_cellsOf hy).1
      omega

theorem Memory.write_wf {m : Memory} (h : m.wf = true) (a : Nat) (data : List Byte) : (m.write a data).wf = true := by
  refine Memory.wf_append (Memory.wf_append (Memory.wf_filter h _) (cellsOf_wf a data) ?_) (Memory.wf_filter h _) ?_
  · intro x hx y hy
    have h1 := (List.mem_filter.mp hx).2
    have h2 := mem_cellsOf hy
    simp only [decide_eq_true_eq] at h1
    omega
  · intro x hx y hy
    have h2 := (List.mem_filter.mp hy).2
    simp only [decide_eq_true_eq] at h2
    rcases List.mem_append.mp hx with hx | hx
    · have h1 := (List.mem_filter.mp hx).2
      simp only [decide_eq_true_eq] at h1
      omega
    · have h1 := mem_cellsOf hx
      omega

theorem Memory.forget_wf {m : Memory} (h : m.wf = true) (a n : Nat) : (m.forget a n).wf = true := by
  refine Memory.wf_append (Memory.wf_filter h _) (Memory.wf_filter h _) ?_
  intro x hx y hy
  have h1 := (List.mem_filter.mp hx).2
  have h2 := (List.mem_filter.mp hy).2
  simp only [decide_eq_true_eq] at h1 h2
  omega

/-! ### Bytes of a run -/

theorem leBytes_length (n x : Nat) : (leBytes n x).length = n := by simp [leBytes]
theorem leBytes_getElem (n x k : Nat) (h : k < (leBytes n x).length) : (leBytes n x)[k] = BitVec.ofNat 8 (x >>> (8 * k)) := by
  simp [leBytes]

/-- A bit of a little-endian number (00 R5). -/
theorem fromLe_testBit (bs : List Byte) (k : Nat) : (fromLe bs).testBit k = (bs.getD (k / 8) 0).getLsbD (k % 8) := by
  induction bs generalizing k with
  | nil => simp [fromLe]
  | cons b bs ih =>
    have e : fromLe (b :: bs) = b.toNat + 2 ^ 8 * fromLe bs := rfl
    rw [e, Nat.add_comm, Nat.testBit_two_pow_mul_add (b_lt := b.isLt)]
    by_cases h : k < 8
    · rw [if_pos h, Nat.div_eq_of_lt h, Nat.mod_eq_of_lt h]; rfl
    · rw [if_neg h, ih, show k / 8 = (k - 8) / 8 + 1 by omega, show k % 8 = (k - 8) % 8 by omega]; rfl

/-! ### Devices -/

theorem lookup_table {α : Type} (p : Nat → Bool) (l : List (Nat × α)) (k : Nat) :
    (l.filter fun e => p e.1).lookup k = if p k then l.lookup k else none := by
  induction l with
  | nil => simp
  | cons c m ih =>
    by_cases hp : p c.1 = true
    · rw [List.filter_cons_of_pos (p := fun c : Nat × α => p c.1) hp, List.lookup_cons, List.lookup_cons, ih]
      by_cases hx : k = c.1
      · subst hx; simp [hp]
      · rw [show (k == c.1) = false by simpa using hx]
    · rw [List.filter_cons_of_neg (p := fun c : Nat × α => p c.1) hp, ih, List.lookup_cons]
      by_cases hx : k = c.1
      · subst hx; simp [hp]
      · rw [show (k == c.1) = false by simpa using hx]

theorem tableGet_put {α : Type} (d : α) (l : List (Nat × α)) (k : Nat) (x : α) (j : Nat) :
    tableGet d (tablePut l k x) j = if j = k then x else tableGet d l j := by
  rw [tableGet, tablePut, List.lookup_append, lookup_table (fun i => decide (i < k)), List.lookup_cons, lookup_table (fun i => decide (k < i))]
  by_cases h : j = k
  · subst h; simp
  · rw [if_neg h, show (j == k) = false by simpa using h, tableGet]
    by_cases h1 : j < k
    · rw [if_pos (by simpa using h1), if_neg (by simp; omega), Option.or_none]
    · rw [if_neg (by simpa using h1), if_pos (by simp; omega), Option.none_or]

theorem dev_num (s : State) (n : Dev) : (s.dev n).num = n := by
  rw [State.dev]
  cases h : s.devs.find? fun d => d.num == n with
  | none => rfl
  | some d => have := List.find?_some h; simpa using this

theorem dev_setDev (s : State) (d : Device) (m : Dev) : (s.setDev d).dev m = if m = d.num then d else s.dev m := by
  simp only [State.setDev, State.dev, List.find?_append, List.find?_cons]
  have h1 : ∀ l : List Device, (l.filter fun x => decide (x.num.toNat < d.num.toNat)).find? (fun x => x.num == m) =
      if m.toNat < d.num.toNat then l.find? (fun x => x.num == m) else none := by
    intro l
    rw [List.find?_filter]
    induction l with
    | nil => simp
    | cons x l ih =>
      rw [List.find?_cons, List.find?_cons, ih]
      by_cases hx : x.num = m
      · subst hx; by_cases hl : x.num.toNat < d.num.toNat <;> simp [hl]
      · simp [show (x.num == m) = false by simpa using hx]
  have h2 : ∀ l : List Device, (l.filter fun x => decide (d.num.toNat < x.num.toNat)).find? (fun x => x.num == m) =
      if d.num.toNat < m.toNat then l.find? (fun x => x.num == m) else none := by
    intro l
    rw [List.find?_filter]
    induction l with
    | nil => simp
    | cons x l ih =>
      rw [List.find?_cons, List.find?_cons, ih]
      by_cases hx : x.num = m
      · subst hx; by_cases hl : d.num.toNat < x.num.toNat <;> simp [hl]
      · simp [show (x.num == m) = false by simpa using hx]
  rw [h1, h2]
  by_cases h : m = d.num
  · subst h; simp
  · have hne : m.toNat ≠ d.num.toNat := fun e => h (BitVec.eq_of_toNat_eq e)
    rw [if_neg h, show (d.num == m) = false by simpa using fun e => h e.symm]
    by_cases hl : m.toNat < d.num.toNat
    · rw [if_pos hl, if_neg (show ¬ d.num.toNat < m.toNat by omega), Option.or_none]
    · rw [if_neg hl, if_pos (show d.num.toNat < m.toNat by omega), Option.none_or]

/-- The device once it has been changed, its number kept. -/
theorem dev_onDev (s : State) (n : Dev) (f : Device → Device) (hf : (f (s.dev n)).num = n) (m : Dev) :
    (s.onDev n f).dev m = if m = n then f (s.dev n) else s.dev m := by
  rw [State.onDev, dev_setDev, hf]

/-! ### What a unit reads -/

/-- With nothing pending, every unit reads what is listed. -/
theorem plainByte_settled {s : State} (h : s.pend = []) (g : Gid) (a : Nat) : s.plainByte g a = s.settled a := by
  simp [State.plainByte, h]

/-- With no undecoded error, a byte is stored as it is listed. -/
theorem stored_clean {s : State} (h : s.latent = []) (a : Nat) : s.stored a = s.mem.get? a := by
  simp [State.stored, h]

/-- A byte of a sector without errors is stored as it is listed. -/
theorem stored_sound {s : State} {a : Nat} (h : s.erring a = false) : s.stored a = s.mem.get? a := by
  rw [State.stored, if_neg (by rw [show (s.latent.any fun e => e.1 == a / 128) = false from h]; decide)]

/-- A write to sectors without errors: its bytes, and every other byte as it was. -/
theorem settled_write {s t : State} {a : Nat} {data : List Byte} (hm : t.mem = s.mem.write a data)
    (hu : ∀ x, t.unlisted x = s.unlisted x) (hl : t.latent = s.latent) (he : ∀ b, b < data.length → s.erring (a + b) = false) (x : Nat) :
    t.settled x = if h : a ≤ x ∧ x < a + data.length then data[x - a] else s.settled x := by
  by_cases h : a ≤ x ∧ x < a + data.length
  · have hx : t.erring x = false := by
      have := he (x - a) (by omega)
      rw [show a + (x - a) = x by omega] at this
      rw [State.erring, hl]; exact this
    rw [dif_pos h, State.settled, stored_sound hx, hm, Memory.write_get, dif_pos h]
    by_cases hz : x < sramBase ∧ data[x - a] = 0
    · rw [if_pos hz, hz.2, Option.getD_none, State.unlisted, if_pos hz.1]
    · rw [if_neg hz, Option.getD_some]
  · have hs : t.stored x = s.stored x := by
      simp only [State.stored, State.badSymbols, hl]
      rw [hm, Memory.write_get, dif_neg h]
    rw [dif_neg h, State.settled, State.settled, hs, hu]

/-! ### What a stack's decoding leaves (03 R58) -/

theorem setReg_frame (d : Device) (off : Nat) (x : Word) : (d.setReg off x).banks = d.banks ∧ (d.setReg off x).num = d.num := ⟨rfl, rfl⟩

/-- Banks are those of before: what an unlisted byte reads as is the same. -/
theorem unlisted_congr {s t : State} (h : ∀ m, (t.dev m).banks = (s.dev m).banks) (a : Nat) : t.unlisted a = s.unlisted a := by
  simp only [State.unlisted, Device.bank, h]

/-- Two devices differ in nothing but the counters of what their stacks have corrected (23 R413). -/
def Device.Alike (d e : Device) : Prop := e = { d with regs := e.regs } ∧ ∀ off, off < 0x60000 ∨ 0x60040 ≤ off → e.reg off = d.reg off

theorem Device.Alike.rfl (d : Device) : d.Alike d := ⟨Eq.refl _, fun _ _ => Eq.refl _⟩

theorem Device.Alike.trans {d e f : Device} (h : d.Alike e) (h' : e.Alike f) : d.Alike f :=
  ⟨by rw [h'.1, h.1], fun off ho => (h'.2 off ho).trans (h.2 off ho)⟩

theorem setReg_alike (d : Device) (k : Nat) (hk : k < 8) (x : Word) : d.Alike (d.setReg (0x60000 + 8 * k) x) :=
  ⟨Eq.refl _, fun off ho => by rw [Device.reg, Device.setReg, tableGet_put, if_neg (by omega)]; rfl⟩

/-- A listed device was listed before, or nothing was known of it, but for what `Alike` tells. -/
def State.Lists (s t : State) : Prop := ∀ d ∈ t.devs, ∃ e, (e ∈ s.devs ∨ e = Device.atReset e.num) ∧ e.Alike d

theorem lists_rfl (s : State) : s.Lists s := fun d hd => ⟨d, .inl hd, Device.Alike.rfl d⟩

theorem onDev_lists {s : State} {n : Dev} {f : Device → Device} (hf : (s.dev n).Alike (f (s.dev n))) : s.Lists (s.onDev n f) := by
  intro d hd
  rw [State.onDev, State.setDev] at hd
  rcases List.mem_append.mp hd with h | h
  · exact ⟨d, .inl (List.mem_filter.mp h).1, Device.Alike.rfl d⟩
  · rcases List.mem_cons.mp h with h | h
    · refine ⟨s.dev n, ?_, h ▸ hf⟩
      rw [State.dev]
      cases hq : s.devs.find? (fun d => d.num == n) with
      | none => exact .inr rfl
      | some e => exact .inl (List.mem_of_find?_eq_some hq)
    · exact ⟨d, .inl (List.mem_filter.mp h).1, Device.Alike.rfl d⟩

/-- Decoding one sector: nothing a unit reads changes, and of the machine only the devices' counters, the sector's poison and errors, and its
listed bytes. -/
theorem scrub_frame (s : State) (k : Nat) : ∃ devs mem poison latent, s.scrub k = { s with devs := devs, mem := mem, poison := poison, latent := latent } ∧
    (∀ m, (s.dev m).Alike ((s.scrub k).dev m)) ∧ (latent = s.latent.filter fun e => e.1 != k) ∧ s.Lists (s.scrub k) := by
  rw [State.scrub]
  split
  · rename_i h
    refine ⟨s.devs, s.mem, s.poison, s.latent, rfl, fun _ => Device.Alike.rfl _, (List.filter_eq_self.mpr fun e he => ?_).symm, lists_rfl s⟩
    simp only [Bool.not_eq_eq_eq_not, Bool.not_true, List.any_eq_false, beq_iff_eq] at h
    simpa using h e he
  · have hd : ∀ (t : State) (n : Dev) (j : Nat), j < 8 → ∀ m : Dev,
        (t.dev m).Alike ((t.onDev n fun d => let off := 0x60000 + 8 * j; d.setReg off (d.reg off + 1)).dev m) := by
      intro t n j hj m
      rw [dev_onDev _ _ _ (dev_num t n)]
      split
      · rename_i e; subst e; exact setReg_alike _ _ hj _
      · exact Device.Alike.rfl _
    have h8 : 128 * k / 2 ^ 36 % 8 < 8 := Nat.mod_lt _ (by decide)
    have hl : ∀ (t : State) (n : Dev), t.Lists (t.onDev n fun d => let off := 0x60000 + 8 * (128 * k / 2 ^ 36 % 8); d.setReg off (d.reg off + 1)) :=
      fun t n => onDev_lists (setReg_alike _ _ h8 _)
    dsimp only
    split
    · exact ⟨_, _, _, _, rfl, fun m => hd _ _ _ h8 m, rfl, hl _ _⟩
    · exact ⟨_, _, _, _, rfl, fun m => Device.Alike.rfl _, rfl, lists_rfl _⟩
    · exact ⟨_, _, _, _, rfl, fun m => hd _ _ _ h8 m, rfl, hl _ _⟩

theorem Device.Alike.banks {d e : Device} (h : d.Alike e) : e.banks = d.banks := by rw [h.1]

theorem scrub_settled (s : State) (k x : Nat) : (s.scrub k).settled x = s.settled x := by
  obtain ⟨devs, mem, poison, latent, e, hb, hl, -⟩ := scrub_frame s k
  have hu := unlisted_congr (fun m => (hb m).banks) x
  rw [State.settled, State.settled, hu]
  by_cases hk : s.latent.any (fun e => e.1 == k) = true
  · have hl' : (s.scrub k).latent = s.latent.filter fun e => e.1 != k := by rw [e]; exact hl
    by_cases hx : x / 128 = k
    · have h1 : ((s.scrub k).latent.any fun e => e.1 == x / 128) = false := by
        rw [hl', hx, List.any_eq_false]; intro y hy
        have := (List.mem_filter.mp hy).2
        simpa using this
      rw [State.stored, State.stored, h1, hx, hk, if_neg (by decide), if_pos rfl, State.scrub, if_neg (by rw [hk]; decide)]
      dsimp only
      cases hd : decodeSector k (s.badSymbols k) with
      | corrected => rfl
      | poisoned => rfl
      | miscorrected data =>
        dsimp only
        have hm : ∀ (t : State) (n : Dev) (f : Device → Device), (t.onDev n f).mem = t.mem := fun _ _ _ => rfl
        rw [hm]
        dsimp only
        rw [Memory.write_get, dif_pos (by simp; omega)]
        have hg : ((List.range 128).map fun j => data.getD j 0)[x - 128 * k]'(by simp; omega) = data.getD (x % 128) 0 := by
          rw [List.getElem_map, List.getElem_range, show x - 128 * k = x % 128 by omega]
        rw [hg]
        split
        · rename_i hz; rw [hz.2, Option.getD_none, Option.getD_some, State.unlisted, if_pos hz.1]
        · rfl
    · have h1 : ((s.scrub k).latent.any fun e => e.1 == x / 128) = s.latent.any fun e => e.1 == x / 128 := by
        rw [hl', List.any_filter]; congr 1; funext y
        by_cases hy : y.1 = x / 128
        · simp [hy, hx]
        · simp [hy]
      have h2 : (s.scrub k).badSymbols (x / 128) = s.badSymbols (x / 128) := by
        rw [State.badSymbols, State.badSymbols, hl', List.filter_filter]; congr 3; funext y
        by_cases hy : y.1 = x / 128
        · simp [hy, hx]
        · simp [hy]
      have h3 : (s.scrub k).mem.get? x = s.mem.get? x := by
        rw [State.scrub, if_neg (by rw [hk]; decide)]
        dsimp only
        cases hd : decodeSector k (s.badSymbols k) with
        | corrected => rfl
        | poisoned => rfl
        | miscorrected data =>
          show (s.mem.write _ _).get? x = _
          rw [Memory.write_get, dif_neg (by simp; omega)]
      rw [State.stored, State.stored, h1, h2, h3]
  · rw [State.scrub, if_pos (by rw [Bool.eq_false_iff.mpr hk]; rfl)]

theorem scrub_poisoned (s : State) (k x : Nat) : (s.scrub k).poisoned x = s.poisoned x := by
  rw [State.scrub]
  by_cases hk : s.latent.any (fun e => e.1 == k) = true
  · rw [if_neg (by rw [hk]; decide)]
    have hl : ∀ t : State, t.latent = s.latent.filter (fun e => e.1 != k) → t.poison.contains (x / 128) =
        (s.poison.contains (x / 128) || decide (x / 128 = k ∧ decodeSector k (s.badSymbols k) = .poisoned)) → t.poisoned x = s.poisoned x := by
      intro t ht hp
      rw [State.poisoned, State.poisoned, hp]
      by_cases hx : x / 128 = k
      · have h1 : t.erring x = false := by
          rw [State.erring, ht, hx, List.any_eq_false]; intro y hy
          have := (List.mem_filter.mp hy).2
          simpa using this
        have h2 : s.erring x = true := by rw [State.erring, hx]; exact hk
        rw [h1, h2, hx, Bool.true_and, Bool.false_and, Bool.or_false]
        congr 1
        cases decodeSector k (s.badSymbols k) <;> simp
      · have h1 : t.erring x = s.erring x := by
          rw [State.erring, State.erring, ht, List.any_filter]; congr 1; funext y
          by_cases hy : y.1 = x / 128
          · simp [hy, hx]
          · simp [hy]
        have h2 : t.badSymbols (x / 128) = s.badSymbols (x / 128) := by
          rw [State.badSymbols, State.badSymbols, ht, List.filter_filter]; congr 3; funext y
          by_cases hy : y.1 = x / 128
          · simp [hy, hx]
          · simp [hy]
        rw [h1, h2]; simp [hx]
    dsimp only
    cases hd : decodeSector k (s.badSymbols k) with
    | corrected => exact hl _ rfl (by rw [hd]; simp; rfl)
    | miscorrected data => exact hl _ rfl (by rw [hd]; simp; rfl)
    | poisoned =>
      refine hl _ rfl ?_
      rw [hd]
      by_cases hc : s.poison.contains k = true
      · simp only [hc, if_true]
        by_cases hx : x / 128 = k
        · rw [hx, hc]; rfl
        · simp [hx]
      · simp only [hc]
        by_cases hx : x / 128 = k
        · simp [hx]
        · simp [hx]
  · rw [if_pos (by rw [Bool.eq_false_iff.mpr hk]; rfl)]

/-- What decoding does to a machine: of it only the devices' counters, the sectors' poison and errors and the listed bytes change, and every unit
reads the same bytes and finds the same sectors poisoned. -/
def State.Decodes (s t : State) : Prop :=
  (∃ devs mem poison latent, t = { s with devs := devs, mem := mem, poison := poison, latent := latent }) ∧
    (∀ m, (s.dev m).Alike (t.dev m)) ∧ (∀ x, t.settled x = s.settled x) ∧ (∀ x, t.poisoned x = s.poisoned x) ∧ s.Lists t ∧ ∀ e ∈ t.latent, e ∈ s.latent

theorem State.Decodes.rfl (s : State) : s.Decodes s := ⟨⟨_, _, _, _, Eq.refl _⟩, fun _ => Device.Alike.rfl _, fun _ => Eq.refl _, fun _ => Eq.refl _, lists_rfl s, fun _ h => h⟩

theorem State.Decodes.trans {s t r : State} (h : s.Decodes t) (h' : t.Decodes r) : s.Decodes r := by
  obtain ⟨⟨_, _, _, _, e⟩, b, c, d, l, n⟩ := h
  obtain ⟨⟨_, _, _, _, e'⟩, b', c', d', l', n'⟩ := h'
  refine ⟨⟨_, _, _, _, by rw [e', e]⟩, fun m => (b m).trans (b' m), fun x => (c' x).trans (c x), fun x => (d' x).trans (d x), fun x hx => ?_, fun x hx => n x (n' x hx)⟩
  obtain ⟨y, hy, ay⟩ := l' x hx
  rcases hy with hy | hy
  · obtain ⟨z, hz, az⟩ := l y hy
    exact ⟨z, hz, az.trans ay⟩
  · exact ⟨y, .inr hy, ay⟩

theorem scrub_decoded (s : State) (k : Nat) : s.Decodes (s.scrub k) := by
  obtain ⟨d, m, p, l, e, b, hl, h⟩ := scrub_frame s k
  exact ⟨⟨d, m, p, l, e⟩, b, scrub_settled s k, scrub_poisoned s k, h, fun x hx => by rw [e, hl] at hx; exact (List.mem_filter.mp hx).1⟩

theorem scrubAll_decoded (l : List Nat) (s : State) : s.Decodes (l.foldl State.scrub s) := by
  induction l generalizing s with
  | nil => exact State.Decodes.rfl s
  | cons k l ih => exact (scrub_decoded s k).trans (ih _)

/-- A read of a run, and a walk, decode. -/
theorem scrubRun_decoded (s : State) (a n : Nat) : s.Decodes (s.scrubRun a n) := by
  rw [State.scrubRun]
  split
  · exact State.Decodes.rfl s
  · exact scrubAll_decoded _ s

theorem scrubWalk_eq (s : State) (g : Gid) (va : Word) : s.scrubWalk g va =
    if s.latent.isEmpty = true then s else ((s.walkReads g va).map (· / 128)).foldl State.scrub s := by
  rw [State.scrubWalk, List.foldl_map]

theorem scrubWalk_decoded (s : State) (g : Gid) (va : Word) : s.Decodes (s.scrubWalk g va) := by
  rw [scrubWalk_eq]
  split
  · exact State.Decodes.rfl s
  · exact scrubAll_decoded _ s

theorem scrubRun_frame (s : State) (a n : Nat) : ∃ devs mem poison latent, s.scrubRun a n = { s with
      devs := devs, mem := mem, poison := poison, latent := latent } ∧
    (∀ m, (s.dev m).Alike ((s.scrubRun a n).dev m)) ∧ ∀ x, (s.scrubRun a n).settled x = s.settled x := by
  obtain ⟨⟨d, m, p, l, e⟩, b, c, -⟩ := scrubRun_decoded s a n
  exact ⟨d, m, p, l, e, b, c⟩

/-- Every unit reads the same bytes once the machine has decoded. -/
theorem State.Decodes.plainByte {s t : State} (h : s.Decodes t) (g : Gid) (x : Nat) : t.plainByte g x = s.plainByte g x := by
  obtain ⟨⟨_, _, _, _, e⟩, -, h, -⟩ := h
  rw [State.plainByte, State.plainByte, h, show t.pend = s.pend by rw [e]]

theorem scrubRun_plainByte (s : State) (a n : Nat) (g : Gid) (x : Nat) : (s.scrubRun a n).plainByte g x = s.plainByte g x :=
  (scrubRun_decoded s a n).plainByte g x

/-! ### Every operation on the machine's storage keeps the form -/

theorem foldPend_wf (l : List WriteRec) {m : Memory} (h : m.wf = true) : (foldPend l m).2.wf = true := by
  induction l generalizing m with
  | nil => exact h
  | cons r rest ih =>
    rw [foldPend]
    split
    · exact ih (Memory.write_wf h _ _)
    · exact h

theorem fold_wf {s : State} (h : s.mem.wf = true) : s.fold.mem.wf = true := foldPend_wf _ h

theorem scrub_wf {s : State} (h : s.mem.wf = true) (k : Nat) : (s.scrub k).mem.wf = true := by
  rw [State.scrub]
  split
  · exact h
  · dsimp only
    split
    · exact h
    · exact h
    · exact Memory.write_wf h _ _

theorem scrubAll_wf (l : List Nat) {s : State} (h : s.mem.wf = true) : (l.foldl State.scrub s).mem.wf = true := by
  induction l generalizing s with
  | nil => exact h
  | cons k l ih => exact ih (scrub_wf h k)

theorem scrubRun_wf {s : State} (h : s.mem.wf = true) (a n : Nat) : (s.scrubRun a n).mem.wf = true := by
  rw [State.scrubRun]
  split
  · exact h
  · exact scrubAll_wf _ h

theorem clearPoison_wf {s : State} (h : s.mem.wf = true) (a n : Nat) : (s.clearPoison a n).mem.wf = true :=
  scrubRun_wf (by exact h) a n

theorem admitPlain_wf {s : State} (h : s.mem.wf = true) (x : Access) (rs : List Release) : (s.admitPlain x rs).mem.wf = true := by
  have hc := clearPoison_wf h x.addr x.data.length
  rw [State.admitPlain]
  split
  · exact Memory.write_wf hc _ _
  · exact fold_wf (by exact hc)

theorem masterWrite_wf {s : State} (h : s.mem.wf = true) (a : Nat) (data : List Byte) : (s.masterWrite a data).mem.wf = true := by
  have hc := clearPoison_wf h a data.length
  rw [State.masterWrite]
  split
  · exact Memory.write_wf hc _ _
  · exact fold_wf (by exact hc)
end Sys2Proof.Machine
end

