-- ==== Sys2Proof/Laws/State.lean ====
section
/-! SUPPORT. What the updates of the unit and of the state do to each field. -/
namespace Sys2Proof.Machine
open Sys2Proof

/-! ### A queue -/

@[simp] theorem Unit.setQueue_toSeqRegs (u : Unit) (q : BitVec 3) (l : List Command) : (u.setQueue q l).toSeqRegs = u.toSeqRegs := rfl
@[simp] theorem Unit.setQueue_toSysRegs (u : Unit) (q : BitVec 3) (l : List Command) : (u.setQueue q l).toSysRegs = u.toSysRegs := rfl
@[simp] theorem Unit.setQueue_gid (u : Unit) (q : BitVec 3) (l : List Command) : (u.setQueue q l).gid = u.gid := rfl
@[simp] theorem Unit.setQueue_run (u : Unit) (q : BitVec 3) (l : List Command) : (u.setQueue q l).run = u.run := rfl
@[simp] theorem Unit.setQueue_debug (u : Unit) (q : BitVec 3) (l : List Command) : (u.setQueue q l).debug = u.debug := rfl
@[simp] theorem Unit.setQueue_pc (u : Unit) (q : BitVec 3) (l : List Command) : (u.setQueue q l).pc = u.pc := rfl
@[simp] theorem Unit.setQueue_raised (u : Unit) (q : BitVec 3) (l : List Command) : (u.setQueue q l).raised = u.raised := rfl
@[simp] theorem Unit.setQueue_cutting (u : Unit) (q : BitVec 3) (l : List Command) : (u.setQueue q l).cutting = u.cutting := rfl
@[simp] theorem Unit.setQueue_v (u : Unit) (q : BitVec 3) (l : List Command) : (u.setQueue q l).v = u.v := rfl
@[simp] theorem Unit.setQueue_m (u : Unit) (q : BitVec 3) (l : List Command) : (u.setQueue q l).m = u.m := rfl
@[simp] theorem Unit.setQueue_acc (u : Unit) (q : BitVec 3) (l : List Command) : (u.setQueue q l).acc = u.acc := rfl
@[simp] theorem Unit.setQueue_accEpoch (u : Unit) (q : BitVec 3) (l : List Command) : (u.setQueue q l).accEpoch = u.accEpoch := rfl
@[simp] theorem Unit.setQueue_replies (u : Unit) (q : BitVec 3) (l : List Command) : (u.setQueue q l).replies = u.replies := rfl
@[simp] theorem Unit.setQueue_replyOf (u : Unit) (q : BitVec 3) (l : List Command) : (u.setQueue q l).replyOf = u.replyOf := rfl
@[simp] theorem Unit.setQueue_tokens (u : Unit) (q : BitVec 3) (l : List Command) : (u.setQueue q l).tokens = u.tokens := rfl
@[simp] theorem Unit.setQueue_nextNum (u : Unit) (q : BitVec 3) (l : List Command) : (u.setQueue q l).nextNum = u.nextNum := rfl
@[simp] theorem Unit.setQueue_parked (u : Unit) (q : BitVec 3) (l : List Command) : (u.setQueue q l).parked = u.parked := rfl
@[simp] theorem Unit.setQueue_inflight (u : Unit) (q : BitVec 3) (l : List Command) : (u.setQueue q l).inflight = u.inflight := rfl
@[simp] theorem Unit.setQueue_window (u : Unit) (q : BitVec 3) (l : List Command) : (u.setQueue q l).window = u.window := rfl
@[simp] theorem Unit.setQueue_committed (u : Unit) (q : BitVec 3) (l : List Command) : (u.setQueue q l).committed = u.committed := rfl
@[simp] theorem Unit.setQueue_phase (u : Unit) (q : BitVec 3) (l : List Command) : (u.setQueue q l).phase = u.phase := rfl
@[simp] theorem Unit.setQueue_plate (u : Unit) (q : BitVec 3) (l : List Command) : (u.setQueue q l).plate = u.plate := rfl
@[simp] theorem Unit.setQueue_shadow (u : Unit) (q : BitVec 3) (l : List Command) : (u.setQueue q l).shadow = u.shadow := rfl
@[simp] theorem Unit.setQueue_load (u : Unit) (q : BitVec 3) (l : List Command) : (u.setQueue q l).load = u.load := rfl
@[simp] theorem Unit.setQueue_time (u : Unit) (q : BitVec 3) (l : List Command) : (u.setQueue q l).time = u.time := rfl
@[simp] theorem Unit.setQueue_frameAt (u : Unit) (q : BitVec 3) (l : List Command) : (u.setQueue q l).frameAt = u.frameAt := rfl
@[simp] theorem Unit.setQueue_fresh (u : Unit) (q : BitVec 3) (l : List Command) : (u.setQueue q l).fresh = u.fresh := rfl
@[simp] theorem Unit.setQueue_lastStart (u : Unit) (q : BitVec 3) (l : List Command) : (u.setQueue q l).lastStart = u.lastStart := rfl
@[simp] theorem Unit.setQueue_ready (u : Unit) (q : BitVec 3) (l : List Command) : (u.setQueue q l).ready = u.ready := rfl
@[simp] theorem Unit.setQueue_dready (u : Unit) (q : BitVec 3) (l : List Command) : (u.setQueue q l).dready = u.dready := rfl
@[simp] theorem Unit.setQueue_vready (u : Unit) (q : BitVec 3) (l : List Command) : (u.setQueue q l).vready = u.vready := rfl
@[simp] theorem Unit.setQueue_mready (u : Unit) (q : BitVec 3) (l : List Command) : (u.setQueue q l).mready = u.mready := rfl
@[simp] theorem Unit.setQueue_binding (u : Unit) (q : BitVec 3) (l : List Command) : (u.setQueue q l).binding = u.binding := rfl
@[simp] theorem Unit.setQueue_l1 (u : Unit) (q : BitVec 3) (l : List Command) : (u.setQueue q l).l1 = u.l1 := rfl
@[simp] theorem Unit.setQueue_l0 (u : Unit) (q : BitVec 3) (l : List Command) : (u.setQueue q l).l0 = u.l0 := rfl
@[simp] theorem Unit.setQueue_tlb (u : Unit) (q : BitVec 3) (l : List Command) : (u.setQueue q l).tlb = u.tlb := rfl
@[simp] theorem Unit.setQueue_classQ (u : Unit) (q : BitVec 3) (l : List Command) : (u.setQueue q l).classQ = u.classQ := rfl
@[simp] theorem Unit.setQueue_carrier (u : Unit) (q : BitVec 3) (l : List Command) : (u.setQueue q l).carrier = u.carrier := rfl
@[simp] theorem Unit.setQueue_handed (u : Unit) (q : BitVec 3) (l : List Command) : (u.setQueue q l).handed = u.handed := rfl
@[simp] theorem Unit.setQueue_given (u : Unit) (q : BitVec 3) (l : List Command) : (u.setQueue q l).given = u.given := rfl
@[simp] theorem Unit.setQueue_taken (u : Unit) (q : BitVec 3) (l : List Command) : (u.setQueue q l).taken = u.taken := rfl
@[simp] theorem Unit.setQueue_justGiven (u : Unit) (q : BitVec 3) (l : List Command) : (u.setQueue q l).justGiven = u.justGiven := rfl
@[simp] theorem Unit.setQueue_readGiven (u : Unit) (q : BitVec 3) (l : List Command) : (u.setQueue q l).readGiven = u.readGiven := rfl
@[simp] theorem Unit.setQueue_busy (u : Unit) (q : BitVec 3) (l : List Command) : (u.setQueue q l).busy = u.busy := rfl
@[simp] theorem Unit.setQueue_permute (u : Unit) (q : BitVec 3) (l : List Command) : (u.setQueue q l).permute = u.permute := rfl
@[simp] theorem Unit.setQueue_arrived (u : Unit) (q : BitVec 3) (l : List Command) : (u.setQueue q l).arrived = u.arrived := rfl
@[simp] theorem Unit.setQueue_readFrom (u : Unit) (q : BitVec 3) (l : List Command) : (u.setQueue q l).readFrom = u.readFrom := rfl
@[simp] theorem Unit.setQueue_readRings (u : Unit) (q : BitVec 3) (l : List Command) : (u.setQueue q l).readRings = u.readRings := rfl
@[simp] theorem Unit.setQueue_known (u : Unit) (q : BitVec 3) (l : List Command) : (u.setQueue q l).known = u.known := rfl
@[simp] theorem Unit.setQueue_regions (u : Unit) (q : BitVec 3) (l : List Command) : (u.setQueue q l).regions = u.regions := rfl
@[simp] theorem Unit.setQueue_relBuf (u : Unit) (q : BitVec 3) (l : List Command) : (u.setQueue q l).relBuf = u.relBuf := rfl
@[simp] theorem Unit.setQueue_heldSigs (u : Unit) (q : BitVec 3) (l : List Command) : (u.setQueue q l).heldSigs = u.heldSigs := rfl
@[simp] theorem Unit.setQueue_sigWait (u : Unit) (q : BitVec 3) (l : List Command) : (u.setQueue q l).sigWait = u.sigWait := rfl
@[simp] theorem Unit.setQueue_meeting (u : Unit) (q : BitVec 3) (l : List Command) : (u.setQueue q l).meeting = u.meeting := rfl
@[simp] theorem Unit.setQueue_presented (u : Unit) (q : BitVec 3) (l : List Command) : (u.setQueue q l).presented = u.presented := rfl
@[simp] theorem Unit.setQueue_waitingAt (u : Unit) (q : BitVec 3) (l : List Command) : (u.setQueue q l).waitingAt = u.waitingAt := rfl
@[simp] theorem Unit.setQueue_met (u : Unit) (q : BitVec 3) (l : List Command) : (u.setQueue q l).met = u.met := rfl
@[simp] theorem Unit.setQueue_metBelow (u : Unit) (q : BitVec 3) (l : List Command) : (u.setQueue q l).metBelow = u.metBelow := rfl
@[simp] theorem Unit.setQueue_unsigned (u : Unit) (q : BitVec 3) (l : List Command) : (u.setQueue q l).unsigned = u.unsigned := rfl
@[simp] theorem Unit.setQueue_lastSigs (u : Unit) (q : BitVec 3) (l : List Command) : (u.setQueue q l).lastSigs = u.lastSigs := rfl
@[simp] theorem Unit.setQueue_lanes (u : Unit) (q : BitVec 3) (l : List Command) : (u.setQueue q l).lanes = u.lanes := rfl
@[simp] theorem Unit.setQueue_ndCount (u : Unit) (q : BitVec 3) (l : List Command) : (u.setQueue q l).ndCount = u.ndCount := rfl
@[simp] theorem Unit.setQueue_ndValue (u : Unit) (q : BitVec 3) (l : List Command) : (u.setQueue q l).ndValue = u.ndValue := rfl
@[simp] theorem Unit.setQueue_ndResult (u : Unit) (q : BitVec 3) (l : List Command) : (u.setQueue q l).ndResult = u.ndResult := rfl
@[simp] theorem Unit.setQueue_claspCount (u : Unit) (q : BitVec 3) (l : List Command) : (u.setQueue q l).claspCount = u.claspCount := rfl
@[simp] theorem Unit.setQueue_binderCount (u : Unit) (q : BitVec 3) (l : List Command) : (u.setQueue q l).binderCount = u.binderCount := rfl
@[simp] theorem Unit.setQueue_wait (u : Unit) (q : BitVec 3) (l : List Command) : (u.setQueue q l).wait = u.wait := rfl
@[simp] theorem Unit.setQueue_task (u : Unit) (q : BitVec 3) (l : List Command) : (u.setQueue q l).task = u.task := rfl
@[simp] theorem Unit.setQueue_taskDev (u : Unit) (q : BitVec 3) (l : List Command) : (u.setQueue q l).taskDev = u.taskDev := rfl
@[simp] theorem Unit.setQueue_rank (u : Unit) (q : BitVec 3) (l : List Command) : (u.setQueue q l).rank = u.rank := rfl
@[simp] theorem Unit.setQueue_replica (u : Unit) (q : BitVec 3) (l : List Command) : (u.setQueue q l).replica = u.replica := rfl
@[simp] theorem Unit.setQueue_secure (u : Unit) (q : BitVec 3) (l : List Command) : (u.setQueue q l).secure = u.secure := rfl
@[simp] theorem Unit.setQueue_join (u : Unit) (q : BitVec 3) (l : List Command) : (u.setQueue q l).join = u.join := rfl
@[simp] theorem Unit.setQueue_joining (u : Unit) (q : BitVec 3) (l : List Command) : (u.setQueue q l).joining = u.joining := rfl
@[simp] theorem Unit.setQueue_live (u : Unit) (q : BitVec 3) (l : List Command) : (u.setQueue q l).live = u.live := rfl
@[simp] theorem Unit.setQueue_lost (u : Unit) (q : BitVec 3) (l : List Command) : (u.setQueue q l).lost = u.lost := rfl
@[simp] theorem Unit.setQueue_idleFrom (u : Unit) (q : BitVec 3) (l : List Command) : (u.setQueue q l).idleFrom = u.idleFrom := rfl
@[simp] theorem Unit.setQueue_idleSince (u : Unit) (q : BitVec 3) (l : List Command) : (u.setQueue q l).idleSince = u.idleSince := rfl
@[simp] theorem Unit.setQueue_sailing (u : Unit) (q : BitVec 3) (l : List Command) : (u.setQueue q l).sailing = u.sailing := rfl
@[simp] theorem Unit.setQueue_queues (u : Unit) (q : BitVec 3) (l : List Command) : (u.setQueue q l).queues = u.queues.set (qidx q) l := rfl

/-! ### A token FIFO -/

@[simp] theorem Unit.setFifo_toSeqRegs (u : Unit) (x y : BitVec 3) (n : Nat) : (u.setFifo x y n).toSeqRegs = u.toSeqRegs := rfl
@[simp] theorem Unit.setFifo_toSysRegs (u : Unit) (x y : BitVec 3) (n : Nat) : (u.setFifo x y n).toSysRegs = u.toSysRegs := rfl
@[simp] theorem Unit.setFifo_gid (u : Unit) (x y : BitVec 3) (n : Nat) : (u.setFifo x y n).gid = u.gid := rfl
@[simp] theorem Unit.setFifo_run (u : Unit) (x y : BitVec 3) (n : Nat) : (u.setFifo x y n).run = u.run := rfl
@[simp] theorem Unit.setFifo_debug (u : Unit) (x y : BitVec 3) (n : Nat) : (u.setFifo x y n).debug = u.debug := rfl
@[simp] theorem Unit.setFifo_pc (u : Unit) (x y : BitVec 3) (n : Nat) : (u.setFifo x y n).pc = u.pc := rfl
@[simp] theorem Unit.setFifo_raised (u : Unit) (x y : BitVec 3) (n : Nat) : (u.setFifo x y n).raised = u.raised := rfl
@[simp] theorem Unit.setFifo_cutting (u : Unit) (x y : BitVec 3) (n : Nat) : (u.setFifo x y n).cutting = u.cutting := rfl
@[simp] theorem Unit.setFifo_v (u : Unit) (x y : BitVec 3) (n : Nat) : (u.setFifo x y n).v = u.v := rfl
@[simp] theorem Unit.setFifo_m (u : Unit) (x y : BitVec 3) (n : Nat) : (u.setFifo x y n).m = u.m := rfl
@[simp] theorem Unit.setFifo_acc (u : Unit) (x y : BitVec 3) (n : Nat) : (u.setFifo x y n).acc = u.acc := rfl
@[simp] theorem Unit.setFifo_accEpoch (u : Unit) (x y : BitVec 3) (n : Nat) : (u.setFifo x y n).accEpoch = u.accEpoch := rfl
@[simp] theorem Unit.setFifo_replies (u : Unit) (x y : BitVec 3) (n : Nat) : (u.setFifo x y n).replies = u.replies := rfl
@[simp] theorem Unit.setFifo_replyOf (u : Unit) (x y : BitVec 3) (n : Nat) : (u.setFifo x y n).replyOf = u.replyOf := rfl
@[simp] theorem Unit.setFifo_queues (u : Unit) (x y : BitVec 3) (n : Nat) : (u.setFifo x y n).queues = u.queues := rfl
@[simp] theorem Unit.setFifo_nextNum (u : Unit) (x y : BitVec 3) (n : Nat) : (u.setFifo x y n).nextNum = u.nextNum := rfl
@[simp] theorem Unit.setFifo_parked (u : Unit) (x y : BitVec 3) (n : Nat) : (u.setFifo x y n).parked = u.parked := rfl
@[simp] theorem Unit.setFifo_inflight (u : Unit) (x y : BitVec 3) (n : Nat) : (u.setFifo x y n).inflight = u.inflight := rfl
@[simp] theorem Unit.setFifo_window (u : Unit) (x y : BitVec 3) (n : Nat) : (u.setFifo x y n).window = u.window := rfl
@[simp] theorem Unit.setFifo_committed (u : Unit) (x y : BitVec 3) (n : Nat) : (u.setFifo x y n).committed = u.committed := rfl
@[simp] theorem Unit.setFifo_phase (u : Unit) (x y : BitVec 3) (n : Nat) : (u.setFifo x y n).phase = u.phase := rfl
@[simp] theorem Unit.setFifo_plate (u : Unit) (x y : BitVec 3) (n : Nat) : (u.setFifo x y n).plate = u.plate := rfl
@[simp] theorem Unit.setFifo_shadow (u : Unit) (x y : BitVec 3) (n : Nat) : (u.setFifo x y n).shadow = u.shadow := rfl
@[simp] theorem Unit.setFifo_load (u : Unit) (x y : BitVec 3) (n : Nat) : (u.setFifo x y n).load = u.load := rfl
@[simp] theorem Unit.setFifo_time (u : Unit) (x y : BitVec 3) (n : Nat) : (u.setFifo x y n).time = u.time := rfl
@[simp] theorem Unit.setFifo_frameAt (u : Unit) (x y : BitVec 3) (n : Nat) : (u.setFifo x y n).frameAt = u.frameAt := rfl
@[simp] theorem Unit.setFifo_fresh (u : Unit) (x y : BitVec 3) (n : Nat) : (u.setFifo x y n).fresh = u.fresh := rfl
@[simp] theorem Unit.setFifo_lastStart (u : Unit) (x y : BitVec 3) (n : Nat) : (u.setFifo x y n).lastStart = u.lastStart := rfl
@[simp] theorem Unit.setFifo_ready (u : Unit) (x y : BitVec 3) (n : Nat) : (u.setFifo x y n).ready = u.ready := rfl
@[simp] theorem Unit.setFifo_dready (u : Unit) (x y : BitVec 3) (n : Nat) : (u.setFifo x y n).dready = u.dready := rfl
@[simp] theorem Unit.setFifo_vready (u : Unit) (x y : BitVec 3) (n : Nat) : (u.setFifo x y n).vready = u.vready := rfl
@[simp] theorem Unit.setFifo_mready (u : Unit) (x y : BitVec 3) (n : Nat) : (u.setFifo x y n).mready = u.mready := rfl
@[simp] theorem Unit.setFifo_binding (u : Unit) (x y : BitVec 3) (n : Nat) : (u.setFifo x y n).binding = u.binding := rfl
@[simp] theorem Unit.setFifo_l1 (u : Unit) (x y : BitVec 3) (n : Nat) : (u.setFifo x y n).l1 = u.l1 := rfl
@[simp] theorem Unit.setFifo_l0 (u : Unit) (x y : BitVec 3) (n : Nat) : (u.setFifo x y n).l0 = u.l0 := rfl
@[simp] theorem Unit.setFifo_tlb (u : Unit) (x y : BitVec 3) (n : Nat) : (u.setFifo x y n).tlb = u.tlb := rfl
@[simp] theorem Unit.setFifo_classQ (u : Unit) (x y : BitVec 3) (n : Nat) : (u.setFifo x y n).classQ = u.classQ := rfl
@[simp] theorem Unit.setFifo_carrier (u : Unit) (x y : BitVec 3) (n : Nat) : (u.setFifo x y n).carrier = u.carrier := rfl
@[simp] theorem Unit.setFifo_handed (u : Unit) (x y : BitVec 3) (n : Nat) : (u.setFifo x y n).handed = u.handed := rfl
@[simp] theorem Unit.setFifo_given (u : Unit) (x y : BitVec 3) (n : Nat) : (u.setFifo x y n).given = u.given := rfl
@[simp] theorem Unit.setFifo_taken (u : Unit) (x y : BitVec 3) (n : Nat) : (u.setFifo x y n).taken = u.taken := rfl
@[simp] theorem Unit.setFifo_justGiven (u : Unit) (x y : BitVec 3) (n : Nat) : (u.setFifo x y n).justGiven = u.justGiven := rfl
@[simp] theorem Unit.setFifo_readGiven (u : Unit) (x y : BitVec 3) (n : Nat) : (u.setFifo x y n).readGiven = u.readGiven := rfl
@[simp] theorem Unit.setFifo_busy (u : Unit) (x y : BitVec 3) (n : Nat) : (u.setFifo x y n).busy = u.busy := rfl
@[simp] theorem Unit.setFifo_permute (u : Unit) (x y : BitVec 3) (n : Nat) : (u.setFifo x y n).permute = u.permute := rfl
@[simp] theorem Unit.setFifo_arrived (u : Unit) (x y : BitVec 3) (n : Nat) : (u.setFifo x y n).arrived = u.arrived := rfl
@[simp] theorem Unit.setFifo_readFrom (u : Unit) (x y : BitVec 3) (n : Nat) : (u.setFifo x y n).readFrom = u.readFrom := rfl
@[simp] theorem Unit.setFifo_readRings (u : Unit) (x y : BitVec 3) (n : Nat) : (u.setFifo x y n).readRings = u.readRings := rfl
@[simp] theorem Unit.setFifo_known (u : Unit) (x y : BitVec 3) (n : Nat) : (u.setFifo x y n).known = u.known := rfl
@[simp] theorem Unit.setFifo_regions (u : Unit) (x y : BitVec 3) (n : Nat) : (u.setFifo x y n).regions = u.regions := rfl
@[simp] theorem Unit.setFifo_relBuf (u : Unit) (x y : BitVec 3) (n : Nat) : (u.setFifo x y n).relBuf = u.relBuf := rfl
@[simp] theorem Unit.setFifo_heldSigs (u : Unit) (x y : BitVec 3) (n : Nat) : (u.setFifo x y n).heldSigs = u.heldSigs := rfl
@[simp] theorem Unit.setFifo_sigWait (u : Unit) (x y : BitVec 3) (n : Nat) : (u.setFifo x y n).sigWait = u.sigWait := rfl
@[simp] theorem Unit.setFifo_meeting (u : Unit) (x y : BitVec 3) (n : Nat) : (u.setFifo x y n).meeting = u.meeting := rfl
@[simp] theorem Unit.setFifo_presented (u : Unit) (x y : BitVec 3) (n : Nat) : (u.setFifo x y n).presented = u.presented := rfl
@[simp] theorem Unit.setFifo_waitingAt (u : Unit) (x y : BitVec 3) (n : Nat) : (u.setFifo x y n).waitingAt = u.waitingAt := rfl
@[simp] theorem Unit.setFifo_met (u : Unit) (x y : BitVec 3) (n : Nat) : (u.setFifo x y n).met = u.met := rfl
@[simp] theorem Unit.setFifo_metBelow (u : Unit) (x y : BitVec 3) (n : Nat) : (u.setFifo x y n).metBelow = u.metBelow := rfl
@[simp] theorem Unit.setFifo_unsigned (u : Unit) (x y : BitVec 3) (n : Nat) : (u.setFifo x y n).unsigned = u.unsigned := rfl
@[simp] theorem Unit.setFifo_lastSigs (u : Unit) (x y : BitVec 3) (n : Nat) : (u.setFifo x y n).lastSigs = u.lastSigs := rfl
@[simp] theorem Unit.setFifo_lanes (u : Unit) (x y : BitVec 3) (n : Nat) : (u.setFifo x y n).lanes = u.lanes := rfl
@[simp] theorem Unit.setFifo_ndCount (u : Unit) (x y : BitVec 3) (n : Nat) : (u.setFifo x y n).ndCount = u.ndCount := rfl
@[simp] theorem Unit.setFifo_ndValue (u : Unit) (x y : BitVec 3) (n : Nat) : (u.setFifo x y n).ndValue = u.ndValue := rfl
@[simp] theorem Unit.setFifo_ndResult (u : Unit) (x y : BitVec 3) (n : Nat) : (u.setFifo x y n).ndResult = u.ndResult := rfl
@[simp] theorem Unit.setFifo_claspCount (u : Unit) (x y : BitVec 3) (n : Nat) : (u.setFifo x y n).claspCount = u.claspCount := rfl
@[simp] theorem Unit.setFifo_binderCount (u : Unit) (x y : BitVec 3) (n : Nat) : (u.setFifo x y n).binderCount = u.binderCount := rfl
@[simp] theorem Unit.setFifo_wait (u : Unit) (x y : BitVec 3) (n : Nat) : (u.setFifo x y n).wait = u.wait := rfl
@[simp] theorem Unit.setFifo_task (u : Unit) (x y : BitVec 3) (n : Nat) : (u.setFifo x y n).task = u.task := rfl
@[simp] theorem Unit.setFifo_taskDev (u : Unit) (x y : BitVec 3) (n : Nat) : (u.setFifo x y n).taskDev = u.taskDev := rfl
@[simp] theorem Unit.setFifo_rank (u : Unit) (x y : BitVec 3) (n : Nat) : (u.setFifo x y n).rank = u.rank := rfl
@[simp] theorem Unit.setFifo_replica (u : Unit) (x y : BitVec 3) (n : Nat) : (u.setFifo x y n).replica = u.replica := rfl
@[simp] theorem Unit.setFifo_secure (u : Unit) (x y : BitVec 3) (n : Nat) : (u.setFifo x y n).secure = u.secure := rfl
@[simp] theorem Unit.setFifo_join (u : Unit) (x y : BitVec 3) (n : Nat) : (u.setFifo x y n).join = u.join := rfl
@[simp] theorem Unit.setFifo_joining (u : Unit) (x y : BitVec 3) (n : Nat) : (u.setFifo x y n).joining = u.joining := rfl
@[simp] theorem Unit.setFifo_live (u : Unit) (x y : BitVec 3) (n : Nat) : (u.setFifo x y n).live = u.live := rfl
@[simp] theorem Unit.setFifo_lost (u : Unit) (x y : BitVec 3) (n : Nat) : (u.setFifo x y n).lost = u.lost := rfl
@[simp] theorem Unit.setFifo_idleFrom (u : Unit) (x y : BitVec 3) (n : Nat) : (u.setFifo x y n).idleFrom = u.idleFrom := rfl
@[simp] theorem Unit.setFifo_idleSince (u : Unit) (x y : BitVec 3) (n : Nat) : (u.setFifo x y n).idleSince = u.idleSince := rfl
@[simp] theorem Unit.setFifo_sailing (u : Unit) (x y : BitVec 3) (n : Nat) : (u.setFifo x y n).sailing = u.sailing := rfl

/-! ### A vector register -/

@[simp] theorem Unit.wv_toSeqRegs (u : Unit) (r : Reg) (x : BitVec 4096) : (u.wv r x).toSeqRegs = u.toSeqRegs := rfl
@[simp] theorem Unit.wv_toSysRegs (u : Unit) (r : Reg) (x : BitVec 4096) : (u.wv r x).toSysRegs = u.toSysRegs := rfl
@[simp] theorem Unit.wv_gid (u : Unit) (r : Reg) (x : BitVec 4096) : (u.wv r x).gid = u.gid := rfl
@[simp] theorem Unit.wv_run (u : Unit) (r : Reg) (x : BitVec 4096) : (u.wv r x).run = u.run := rfl
@[simp] theorem Unit.wv_debug (u : Unit) (r : Reg) (x : BitVec 4096) : (u.wv r x).debug = u.debug := rfl
@[simp] theorem Unit.wv_pc (u : Unit) (r : Reg) (x : BitVec 4096) : (u.wv r x).pc = u.pc := rfl
@[simp] theorem Unit.wv_raised (u : Unit) (r : Reg) (x : BitVec 4096) : (u.wv r x).raised = u.raised := rfl
@[simp] theorem Unit.wv_cutting (u : Unit) (r : Reg) (x : BitVec 4096) : (u.wv r x).cutting = u.cutting := rfl
@[simp] theorem Unit.wv_m (u : Unit) (r : Reg) (x : BitVec 4096) : (u.wv r x).m = u.m := rfl
@[simp] theorem Unit.wv_acc (u : Unit) (r : Reg) (x : BitVec 4096) : (u.wv r x).acc = u.acc := rfl
@[simp] theorem Unit.wv_accEpoch (u : Unit) (r : Reg) (x : BitVec 4096) : (u.wv r x).accEpoch = u.accEpoch := rfl
@[simp] theorem Unit.wv_replies (u : Unit) (r : Reg) (x : BitVec 4096) : (u.wv r x).replies = u.replies := rfl
@[simp] theorem Unit.wv_replyOf (u : Unit) (r : Reg) (x : BitVec 4096) : (u.wv r x).replyOf = u.replyOf := rfl
@[simp] theorem Unit.wv_tokens (u : Unit) (r : Reg) (x : BitVec 4096) : (u.wv r x).tokens = u.tokens := rfl
@[simp] theorem Unit.wv_queues (u : Unit) (r : Reg) (x : BitVec 4096) : (u.wv r x).queues = u.queues := rfl
@[simp] theorem Unit.wv_nextNum (u : Unit) (r : Reg) (x : BitVec 4096) : (u.wv r x).nextNum = u.nextNum := rfl
@[simp] theorem Unit.wv_parked (u : Unit) (r : Reg) (x : BitVec 4096) : (u.wv r x).parked = u.parked := rfl
@[simp] theorem Unit.wv_inflight (u : Unit) (r : Reg) (x : BitVec 4096) : (u.wv r x).inflight = u.inflight := rfl
@[simp] theorem Unit.wv_window (u : Unit) (r : Reg) (x : BitVec 4096) : (u.wv r x).window = u.window := rfl
@[simp] theorem Unit.wv_committed (u : Unit) (r : Reg) (x : BitVec 4096) : (u.wv r x).committed = u.committed := rfl
@[simp] theorem Unit.wv_phase (u : Unit) (r : Reg) (x : BitVec 4096) : (u.wv r x).phase = u.phase := rfl
@[simp] theorem Unit.wv_plate (u : Unit) (r : Reg) (x : BitVec 4096) : (u.wv r x).plate = u.plate := rfl
@[simp] theorem Unit.wv_shadow (u : Unit) (r : Reg) (x : BitVec 4096) : (u.wv r x).shadow = u.shadow := rfl
@[simp] theorem Unit.wv_load (u : Unit) (r : Reg) (x : BitVec 4096) : (u.wv r x).load = u.load := rfl
@[simp] theorem Unit.wv_time (u : Unit) (r : Reg) (x : BitVec 4096) : (u.wv r x).time = u.time := rfl
@[simp] theorem Unit.wv_frameAt (u : Unit) (r : Reg) (x : BitVec 4096) : (u.wv r x).frameAt = u.frameAt := rfl
@[simp] theorem Unit.wv_fresh (u : Unit) (r : Reg) (x : BitVec 4096) : (u.wv r x).fresh = u.fresh := rfl
@[simp] theorem Unit.wv_lastStart (u : Unit) (r : Reg) (x : BitVec 4096) : (u.wv r x).lastStart = u.lastStart := rfl
@[simp] theorem Unit.wv_ready (u : Unit) (r : Reg) (x : BitVec 4096) : (u.wv r x).ready = u.ready := rfl
@[simp] theorem Unit.wv_dready (u : Unit) (r : Reg) (x : BitVec 4096) : (u.wv r x).dready = u.dready := rfl
@[simp] theorem Unit.wv_vready (u : Unit) (r : Reg) (x : BitVec 4096) : (u.wv r x).vready = u.vready := rfl
@[simp] theorem Unit.wv_mready (u : Unit) (r : Reg) (x : BitVec 4096) : (u.wv r x).mready = u.mready := rfl
@[simp] theorem Unit.wv_binding (u : Unit) (r : Reg) (x : BitVec 4096) : (u.wv r x).binding = u.binding := rfl
@[simp] theorem Unit.wv_l1 (u : Unit) (r : Reg) (x : BitVec 4096) : (u.wv r x).l1 = u.l1 := rfl
@[simp] theorem Unit.wv_l0 (u : Unit) (r : Reg) (x : BitVec 4096) : (u.wv r x).l0 = u.l0 := rfl
@[simp] theorem Unit.wv_tlb (u : Unit) (r : Reg) (x : BitVec 4096) : (u.wv r x).tlb = u.tlb := rfl
@[simp] theorem Unit.wv_classQ (u : Unit) (r : Reg) (x : BitVec 4096) : (u.wv r x).classQ = u.classQ := rfl
@[simp] theorem Unit.wv_carrier (u : Unit) (r : Reg) (x : BitVec 4096) : (u.wv r x).carrier = u.carrier := rfl
@[simp] theorem Unit.wv_handed (u : Unit) (r : Reg) (x : BitVec 4096) : (u.wv r x).handed = u.handed := rfl
@[simp] theorem Unit.wv_given (u : Unit) (r : Reg) (x : BitVec 4096) : (u.wv r x).given = u.given := rfl
@[simp] theorem Unit.wv_taken (u : Unit) (r : Reg) (x : BitVec 4096) : (u.wv r x).taken = u.taken := rfl
@[simp] theorem Unit.wv_justGiven (u : Unit) (r : Reg) (x : BitVec 4096) : (u.wv r x).justGiven = u.justGiven := rfl
@[simp] theorem Unit.wv_readGiven (u : Unit) (r : Reg) (x : BitVec 4096) : (u.wv r x).readGiven = u.readGiven := rfl
@[simp] theorem Unit.wv_busy (u : Unit) (r : Reg) (x : BitVec 4096) : (u.wv r x).busy = u.busy := rfl
@[simp] theorem Unit.wv_permute (u : Unit) (r : Reg) (x : BitVec 4096) : (u.wv r x).permute = u.permute := rfl
@[simp] theorem Unit.wv_arrived (u : Unit) (r : Reg) (x : BitVec 4096) : (u.wv r x).arrived = u.arrived := rfl
@[simp] theorem Unit.wv_readFrom (u : Unit) (r : Reg) (x : BitVec 4096) : (u.wv r x).readFrom = u.readFrom := rfl
@[simp] theorem Unit.wv_readRings (u : Unit) (r : Reg) (x : BitVec 4096) : (u.wv r x).readRings = u.readRings := rfl
@[simp] theorem Unit.wv_known (u : Unit) (r : Reg) (x : BitVec 4096) : (u.wv r x).known = u.known := rfl
@[simp] theorem Unit.wv_regions (u : Unit) (r : Reg) (x : BitVec 4096) : (u.wv r x).regions = u.regions := rfl
@[simp] theorem Unit.wv_relBuf (u : Unit) (r : Reg) (x : BitVec 4096) : (u.wv r x).relBuf = u.relBuf := rfl
@[simp] theorem Unit.wv_heldSigs (u : Unit) (r : Reg) (x : BitVec 4096) : (u.wv r x).heldSigs = u.heldSigs := rfl
@[simp] theorem Unit.wv_sigWait (u : Unit) (r : Reg) (x : BitVec 4096) : (u.wv r x).sigWait = u.sigWait := rfl
@[simp] theorem Unit.wv_meeting (u : Unit) (r : Reg) (x : BitVec 4096) : (u.wv r x).meeting = u.meeting := rfl
@[simp] theorem Unit.wv_presented (u : Unit) (r : Reg) (x : BitVec 4096) : (u.wv r x).presented = u.presented := rfl
@[simp] theorem Unit.wv_waitingAt (u : Unit) (r : Reg) (x : BitVec 4096) : (u.wv r x).waitingAt = u.waitingAt := rfl
@[simp] theorem Unit.wv_met (u : Unit) (r : Reg) (x : BitVec 4096) : (u.wv r x).met = u.met := rfl
@[simp] theorem Unit.wv_metBelow (u : Unit) (r : Reg) (x : BitVec 4096) : (u.wv r x).metBelow = u.metBelow := rfl
@[simp] theorem Unit.wv_unsigned (u : Unit) (r : Reg) (x : BitVec 4096) : (u.wv r x).unsigned = u.unsigned := rfl
@[simp] theorem Unit.wv_lastSigs (u : Unit) (r : Reg) (x : BitVec 4096) : (u.wv r x).lastSigs = u.lastSigs := rfl
@[simp] theorem Unit.wv_lanes (u : Unit) (r : Reg) (x : BitVec 4096) : (u.wv r x).lanes = u.lanes := rfl
@[simp] theorem Unit.wv_ndCount (u : Unit) (r : Reg) (x : BitVec 4096) : (u.wv r x).ndCount = u.ndCount := rfl
@[simp] theorem Unit.wv_ndValue (u : Unit) (r : Reg) (x : BitVec 4096) : (u.wv r x).ndValue = u.ndValue := rfl
@[simp] theorem Unit.wv_ndResult (u : Unit) (r : Reg) (x : BitVec 4096) : (u.wv r x).ndResult = u.ndResult := rfl
@[simp] theorem Unit.wv_claspCount (u : Unit) (r : Reg) (x : BitVec 4096) : (u.wv r x).claspCount = u.claspCount := rfl
@[simp] theorem Unit.wv_binderCount (u : Unit) (r : Reg) (x : BitVec 4096) : (u.wv r x).binderCount = u.binderCount := rfl
@[simp] theorem Unit.wv_wait (u : Unit) (r : Reg) (x : BitVec 4096) : (u.wv r x).wait = u.wait := rfl
@[simp] theorem Unit.wv_task (u : Unit) (r : Reg) (x : BitVec 4096) : (u.wv r x).task = u.task := rfl
@[simp] theorem Unit.wv_taskDev (u : Unit) (r : Reg) (x : BitVec 4096) : (u.wv r x).taskDev = u.taskDev := rfl
@[simp] theorem Unit.wv_rank (u : Unit) (r : Reg) (x : BitVec 4096) : (u.wv r x).rank = u.rank := rfl
@[simp] theorem Unit.wv_replica (u : Unit) (r : Reg) (x : BitVec 4096) : (u.wv r x).replica = u.replica := rfl
@[simp] theorem Unit.wv_secure (u : Unit) (r : Reg) (x : BitVec 4096) : (u.wv r x).secure = u.secure := rfl
@[simp] theorem Unit.wv_join (u : Unit) (r : Reg) (x : BitVec 4096) : (u.wv r x).join = u.join := rfl
@[simp] theorem Unit.wv_joining (u : Unit) (r : Reg) (x : BitVec 4096) : (u.wv r x).joining = u.joining := rfl
@[simp] theorem Unit.wv_live (u : Unit) (r : Reg) (x : BitVec 4096) : (u.wv r x).live = u.live := rfl
@[simp] theorem Unit.wv_lost (u : Unit) (r : Reg) (x : BitVec 4096) : (u.wv r x).lost = u.lost := rfl
@[simp] theorem Unit.wv_idleFrom (u : Unit) (r : Reg) (x : BitVec 4096) : (u.wv r x).idleFrom = u.idleFrom := rfl
@[simp] theorem Unit.wv_idleSince (u : Unit) (r : Reg) (x : BitVec 4096) : (u.wv r x).idleSince = u.idleSince := rfl
@[simp] theorem Unit.wv_sailing (u : Unit) (r : Reg) (x : BitVec 4096) : (u.wv r x).sailing = u.sailing := rfl

/-! ### A descriptor register -/

@[simp] theorem Unit.wd_toSysRegs (u : Unit) (r : DReg) (x : Desc) : (u.wd r x).toSysRegs = u.toSysRegs := rfl
@[simp] theorem Unit.wd_gid (u : Unit) (r : DReg) (x : Desc) : (u.wd r x).gid = u.gid := rfl
@[simp] theorem Unit.wd_run (u : Unit) (r : DReg) (x : Desc) : (u.wd r x).run = u.run := rfl
@[simp] theorem Unit.wd_debug (u : Unit) (r : DReg) (x : Desc) : (u.wd r x).debug = u.debug := rfl
@[simp] theorem Unit.wd_pc (u : Unit) (r : DReg) (x : Desc) : (u.wd r x).pc = u.pc := rfl
@[simp] theorem Unit.wd_raised (u : Unit) (r : DReg) (x : Desc) : (u.wd r x).raised = u.raised := rfl
@[simp] theorem Unit.wd_cutting (u : Unit) (r : DReg) (x : Desc) : (u.wd r x).cutting = u.cutting := rfl
@[simp] theorem Unit.wd_v (u : Unit) (r : DReg) (x : Desc) : (u.wd r x).v = u.v := rfl
@[simp] theorem Unit.wd_m (u : Unit) (r : DReg) (x : Desc) : (u.wd r x).m = u.m := rfl
@[simp] theorem Unit.wd_acc (u : Unit) (r : DReg) (x : Desc) : (u.wd r x).acc = u.acc := rfl
@[simp] theorem Unit.wd_accEpoch (u : Unit) (r : DReg) (x : Desc) : (u.wd r x).accEpoch = u.accEpoch := rfl
@[simp] theorem Unit.wd_replies (u : Unit) (r : DReg) (x : Desc) : (u.wd r x).replies = u.replies := rfl
@[simp] theorem Unit.wd_replyOf (u : Unit) (r : DReg) (x : Desc) : (u.wd r x).replyOf = u.replyOf := rfl
@[simp] theorem Unit.wd_tokens (u : Unit) (r : DReg) (x : Desc) : (u.wd r x).tokens = u.tokens := rfl
@[simp] theorem Unit.wd_queues (u : Unit) (r : DReg) (x : Desc) : (u.wd r x).queues = u.queues := rfl
@[simp] theorem Unit.wd_nextNum (u : Unit) (r : DReg) (x : Desc) : (u.wd r x).nextNum = u.nextNum := rfl
@[simp] theorem Unit.wd_parked (u : Unit) (r : DReg) (x : Desc) : (u.wd r x).parked = u.parked := rfl
@[simp] theorem Unit.wd_inflight (u : Unit) (r : DReg) (x : Desc) : (u.wd r x).inflight = u.inflight := rfl
@[simp] theorem Unit.wd_window (u : Unit) (r : DReg) (x : Desc) : (u.wd r x).window = u.window := rfl
@[simp] theorem Unit.wd_committed (u : Unit) (r : DReg) (x : Desc) : (u.wd r x).committed = u.committed := rfl
@[simp] theorem Unit.wd_phase (u : Unit) (r : DReg) (x : Desc) : (u.wd r x).phase = u.phase := rfl
@[simp] theorem Unit.wd_plate (u : Unit) (r : DReg) (x : Desc) : (u.wd r x).plate = u.plate := rfl
@[simp] theorem Unit.wd_shadow (u : Unit) (r : DReg) (x : Desc) : (u.wd r x).shadow = u.shadow := rfl
@[simp] theorem Unit.wd_load (u : Unit) (r : DReg) (x : Desc) : (u.wd r x).load = u.load := rfl
@[simp] theorem Unit.wd_time (u : Unit) (r : DReg) (x : Desc) : (u.wd r x).time = u.time := rfl
@[simp] theorem Unit.wd_frameAt (u : Unit) (r : DReg) (x : Desc) : (u.wd r x).frameAt = u.frameAt := rfl
@[simp] theorem Unit.wd_fresh (u : Unit) (r : DReg) (x : Desc) : (u.wd r x).fresh = u.fresh := rfl
@[simp] theorem Unit.wd_lastStart (u : Unit) (r : DReg) (x : Desc) : (u.wd r x).lastStart = u.lastStart := rfl
@[simp] theorem Unit.wd_ready (u : Unit) (r : DReg) (x : Desc) : (u.wd r x).ready = u.ready := rfl
@[simp] theorem Unit.wd_dready (u : Unit) (r : DReg) (x : Desc) : (u.wd r x).dready = u.dready := rfl
@[simp] theorem Unit.wd_vready (u : Unit) (r : DReg) (x : Desc) : (u.wd r x).vready = u.vready := rfl
@[simp] theorem Unit.wd_mready (u : Unit) (r : DReg) (x : Desc) : (u.wd r x).mready = u.mready := rfl
@[simp] theorem Unit.wd_binding (u : Unit) (r : DReg) (x : Desc) : (u.wd r x).binding = u.binding := rfl
@[simp] theorem Unit.wd_l1 (u : Unit) (r : DReg) (x : Desc) : (u.wd r x).l1 = u.l1 := rfl
@[simp] theorem Unit.wd_l0 (u : Unit) (r : DReg) (x : Desc) : (u.wd r x).l0 = u.l0 := rfl
@[simp] theorem Unit.wd_tlb (u : Unit) (r : DReg) (x : Desc) : (u.wd r x).tlb = u.tlb := rfl
@[simp] theorem Unit.wd_classQ (u : Unit) (r : DReg) (x : Desc) : (u.wd r x).classQ = u.classQ := rfl
@[simp] theorem Unit.wd_carrier (u : Unit) (r : DReg) (x : Desc) : (u.wd r x).carrier = u.carrier := rfl
@[simp] theorem Unit.wd_handed (u : Unit) (r : DReg) (x : Desc) : (u.wd r x).handed = u.handed := rfl
@[simp] theorem Unit.wd_given (u : Unit) (r : DReg) (x : Desc) : (u.wd r x).given = u.given := rfl
@[simp] theorem Unit.wd_taken (u : Unit) (r : DReg) (x : Desc) : (u.wd r x).taken = u.taken := rfl
@[simp] theorem Unit.wd_justGiven (u : Unit) (r : DReg) (x : Desc) : (u.wd r x).justGiven = u.justGiven := rfl
@[simp] theorem Unit.wd_readGiven (u : Unit) (r : DReg) (x : Desc) : (u.wd r x).readGiven = u.readGiven := rfl
@[simp] theorem Unit.wd_busy (u : Unit) (r : DReg) (x : Desc) : (u.wd r x).busy = u.busy := rfl
@[simp] theorem Unit.wd_permute (u : Unit) (r : DReg) (x : Desc) : (u.wd r x).permute = u.permute := rfl
@[simp] theorem Unit.wd_arrived (u : Unit) (r : DReg) (x : Desc) : (u.wd r x).arrived = u.arrived := rfl
@[simp] theorem Unit.wd_readFrom (u : Unit) (r : DReg) (x : Desc) : (u.wd r x).readFrom = u.readFrom := rfl
@[simp] theorem Unit.wd_readRings (u : Unit) (r : DReg) (x : Desc) : (u.wd r x).readRings = u.readRings := rfl
@[simp] theorem Unit.wd_known (u : Unit) (r : DReg) (x : Desc) : (u.wd r x).known = u.known := rfl
@[simp] theorem Unit.wd_regions (u : Unit) (r : DReg) (x : Desc) : (u.wd r x).regions = u.regions := rfl
@[simp] theorem Unit.wd_relBuf (u : Unit) (r : DReg) (x : Desc) : (u.wd r x).relBuf = u.relBuf := rfl
@[simp] theorem Unit.wd_heldSigs (u : Unit) (r : DReg) (x : Desc) : (u.wd r x).heldSigs = u.heldSigs := rfl
@[simp] theorem Unit.wd_sigWait (u : Unit) (r : DReg) (x : Desc) : (u.wd r x).sigWait = u.sigWait := rfl
@[simp] theorem Unit.wd_meeting (u : Unit) (r : DReg) (x : Desc) : (u.wd r x).meeting = u.meeting := rfl
@[simp] theorem Unit.wd_presented (u : Unit) (r : DReg) (x : Desc) : (u.wd r x).presented = u.presented := rfl
@[simp] theorem Unit.wd_waitingAt (u : Unit) (r : DReg) (x : Desc) : (u.wd r x).waitingAt = u.waitingAt := rfl
@[simp] theorem Unit.wd_met (u : Unit) (r : DReg) (x : Desc) : (u.wd r x).met = u.met := rfl
@[simp] theorem Unit.wd_metBelow (u : Unit) (r : DReg) (x : Desc) : (u.wd r x).metBelow = u.metBelow := rfl
@[simp] theorem Unit.wd_unsigned (u : Unit) (r : DReg) (x : Desc) : (u.wd r x).unsigned = u.unsigned := rfl
@[simp] theorem Unit.wd_lastSigs (u : Unit) (r : DReg) (x : Desc) : (u.wd r x).lastSigs = u.lastSigs := rfl
@[simp] theorem Unit.wd_lanes (u : Unit) (r : DReg) (x : Desc) : (u.wd r x).lanes = u.lanes := rfl
@[simp] theorem Unit.wd_ndCount (u : Unit) (r : DReg) (x : Desc) : (u.wd r x).ndCount = u.ndCount := rfl
@[simp] theorem Unit.wd_ndValue (u : Unit) (r : DReg) (x : Desc) : (u.wd r x).ndValue = u.ndValue := rfl
@[simp] theorem Unit.wd_ndResult (u : Unit) (r : DReg) (x : Desc) : (u.wd r x).ndResult = u.ndResult := rfl
@[simp] theorem Unit.wd_claspCount (u : Unit) (r : DReg) (x : Desc) : (u.wd r x).claspCount = u.claspCount := rfl
@[simp] theorem Unit.wd_binderCount (u : Unit) (r : DReg) (x : Desc) : (u.wd r x).binderCount = u.binderCount := rfl
@[simp] theorem Unit.wd_wait (u : Unit) (r : DReg) (x : Desc) : (u.wd r x).wait = u.wait := rfl
@[simp] theorem Unit.wd_task (u : Unit) (r : DReg) (x : Desc) : (u.wd r x).task = u.task := rfl
@[simp] theorem Unit.wd_taskDev (u : Unit) (r : DReg) (x : Desc) : (u.wd r x).taskDev = u.taskDev := rfl
@[simp] theorem Unit.wd_rank (u : Unit) (r : DReg) (x : Desc) : (u.wd r x).rank = u.rank := rfl
@[simp] theorem Unit.wd_replica (u : Unit) (r : DReg) (x : Desc) : (u.wd r x).replica = u.replica := rfl
@[simp] theorem Unit.wd_secure (u : Unit) (r : DReg) (x : Desc) : (u.wd r x).secure = u.secure := rfl
@[simp] theorem Unit.wd_join (u : Unit) (r : DReg) (x : Desc) : (u.wd r x).join = u.join := rfl
@[simp] theorem Unit.wd_joining (u : Unit) (r : DReg) (x : Desc) : (u.wd r x).joining = u.joining := rfl
@[simp] theorem Unit.wd_live (u : Unit) (r : DReg) (x : Desc) : (u.wd r x).live = u.live := rfl
@[simp] theorem Unit.wd_lost (u : Unit) (r : DReg) (x : Desc) : (u.wd r x).lost = u.lost := rfl
@[simp] theorem Unit.wd_idleFrom (u : Unit) (r : DReg) (x : Desc) : (u.wd r x).idleFrom = u.idleFrom := rfl
@[simp] theorem Unit.wd_idleSince (u : Unit) (r : DReg) (x : Desc) : (u.wd r x).idleSince = u.idleSince := rfl
@[simp] theorem Unit.wd_sailing (u : Unit) (r : DReg) (x : Desc) : (u.wd r x).sailing = u.sailing := rfl
@[simp] theorem Unit.wd_s (u : Unit) (r : DReg) (x : Desc) : (u.wd r x).s = u.s := rfl
@[simp] theorem Unit.wd_fstat (u : Unit) (r : DReg) (x : Desc) : (u.wd r x).fstat = u.fstat := rfl
@[simp] theorem Unit.wd_lcount (u : Unit) (r : DReg) (x : Desc) : (u.wd r x).lcount = u.lcount := rfl
@[simp] theorem Unit.wd_llimit (u : Unit) (r : DReg) (x : Desc) : (u.wd r x).llimit = u.llimit := rfl
@[simp] theorem Unit.wd_lbody (u : Unit) (r : DReg) (x : Desc) : (u.wd r x).lbody = u.lbody := rfl
@[simp] theorem Unit.wd_ftbase (u : Unit) (r : DReg) (x : Desc) : (u.wd r x).ftbase = u.ftbase := rfl

/-! ### Cycles that pass, and a device -/

@[simp] theorem State.pass_cur_toSeqRegs (s : State) (n : Nat) : (s.pass n).cur.toSeqRegs = s.cur.toSeqRegs := rfl
@[simp] theorem State.pass_cur_toSysRegs (s : State) (n : Nat) : (s.pass n).cur.toSysRegs = s.cur.toSysRegs := rfl
@[simp] theorem State.pass_cur_gid (s : State) (n : Nat) : (s.pass n).cur.gid = s.cur.gid := rfl
@[simp] theorem State.pass_cur_run (s : State) (n : Nat) : (s.pass n).cur.run = s.cur.run := rfl
@[simp] theorem State.pass_cur_debug (s : State) (n : Nat) : (s.pass n).cur.debug = s.cur.debug := rfl
@[simp] theorem State.pass_cur_pc (s : State) (n : Nat) : (s.pass n).cur.pc = s.cur.pc := rfl
@[simp] theorem State.pass_cur_raised (s : State) (n : Nat) : (s.pass n).cur.raised = s.cur.raised := rfl
@[simp] theorem State.pass_cur_cutting (s : State) (n : Nat) : (s.pass n).cur.cutting = s.cur.cutting := rfl
@[simp] theorem State.pass_cur_v (s : State) (n : Nat) : (s.pass n).cur.v = s.cur.v := rfl
@[simp] theorem State.pass_cur_m (s : State) (n : Nat) : (s.pass n).cur.m = s.cur.m := rfl
@[simp] theorem State.pass_cur_acc (s : State) (n : Nat) : (s.pass n).cur.acc = s.cur.acc := rfl
@[simp] theorem State.pass_cur_accEpoch (s : State) (n : Nat) : (s.pass n).cur.accEpoch = s.cur.accEpoch := rfl
@[simp] theorem State.pass_cur_replies (s : State) (n : Nat) : (s.pass n).cur.replies = s.cur.replies := rfl
@[simp] theorem State.pass_cur_replyOf (s : State) (n : Nat) : (s.pass n).cur.replyOf = s.cur.replyOf := rfl
@[simp] theorem State.pass_cur_tokens (s : State) (n : Nat) : (s.pass n).cur.tokens = s.cur.tokens := rfl
@[simp] theorem State.pass_cur_queues (s : State) (n : Nat) : (s.pass n).cur.queues = s.cur.queues := rfl
@[simp] theorem State.pass_cur_nextNum (s : State) (n : Nat) : (s.pass n).cur.nextNum = s.cur.nextNum := rfl
@[simp] theorem State.pass_cur_parked (s : State) (n : Nat) : (s.pass n).cur.parked = s.cur.parked := rfl
@[simp] theorem State.pass_cur_inflight (s : State) (n : Nat) : (s.pass n).cur.inflight = s.cur.inflight := rfl
@[simp] theorem State.pass_cur_window (s : State) (n : Nat) : (s.pass n).cur.window = s.cur.window := rfl
@[simp] theorem State.pass_cur_committed (s : State) (n : Nat) : (s.pass n).cur.committed = s.cur.committed := rfl
@[simp] theorem State.pass_cur_phase (s : State) (n : Nat) : (s.pass n).cur.phase = s.cur.phase := rfl
@[simp] theorem State.pass_cur_plate (s : State) (n : Nat) : (s.pass n).cur.plate = s.cur.plate := rfl
@[simp] theorem State.pass_cur_shadow (s : State) (n : Nat) : (s.pass n).cur.shadow = s.cur.shadow := rfl
@[simp] theorem State.pass_cur_load (s : State) (n : Nat) : (s.pass n).cur.load = s.cur.load := rfl
@[simp] theorem State.pass_cur_frameAt (s : State) (n : Nat) : (s.pass n).cur.frameAt = s.cur.frameAt := rfl
@[simp] theorem State.pass_cur_fresh (s : State) (n : Nat) : (s.pass n).cur.fresh = s.cur.fresh := rfl
@[simp] theorem State.pass_cur_lastStart (s : State) (n : Nat) : (s.pass n).cur.lastStart = s.cur.lastStart := rfl
@[simp] theorem State.pass_cur_ready (s : State) (n : Nat) : (s.pass n).cur.ready = s.cur.ready := rfl
@[simp] theorem State.pass_cur_dready (s : State) (n : Nat) : (s.pass n).cur.dready = s.cur.dready := rfl
@[simp] theorem State.pass_cur_vready (s : State) (n : Nat) : (s.pass n).cur.vready = s.cur.vready := rfl
@[simp] theorem State.pass_cur_mready (s : State) (n : Nat) : (s.pass n).cur.mready = s.cur.mready := rfl
@[simp] theorem State.pass_cur_binding (s : State) (n : Nat) : (s.pass n).cur.binding = s.cur.binding := rfl
@[simp] theorem State.pass_cur_l1 (s : State) (n : Nat) : (s.pass n).cur.l1 = s.cur.l1 := rfl
@[simp] theorem State.pass_cur_l0 (s : State) (n : Nat) : (s.pass n).cur.l0 = s.cur.l0 := rfl
@[simp] theorem State.pass_cur_tlb (s : State) (n : Nat) : (s.pass n).cur.tlb = s.cur.tlb := rfl
@[simp] theorem State.pass_cur_classQ (s : State) (n : Nat) : (s.pass n).cur.classQ = s.cur.classQ := rfl
@[simp] theorem State.pass_cur_carrier (s : State) (n : Nat) : (s.pass n).cur.carrier = s.cur.carrier := rfl
@[simp] theorem State.pass_cur_handed (s : State) (n : Nat) : (s.pass n).cur.handed = s.cur.handed := rfl
@[simp] theorem State.pass_cur_given (s : State) (n : Nat) : (s.pass n).cur.given = s.cur.given := rfl
@[simp] theorem State.pass_cur_taken (s : State) (n : Nat) : (s.pass n).cur.taken = s.cur.taken := rfl
@[simp] theorem State.pass_cur_readGiven (s : State) (n : Nat) : (s.pass n).cur.readGiven = s.cur.readGiven := rfl
@[simp] theorem State.pass_cur_busy (s : State) (n : Nat) : (s.pass n).cur.busy = s.cur.busy := rfl
@[simp] theorem State.pass_cur_permute (s : State) (n : Nat) : (s.pass n).cur.permute = s.cur.permute := rfl
@[simp] theorem State.pass_cur_arrived (s : State) (n : Nat) : (s.pass n).cur.arrived = s.cur.arrived := rfl
@[simp] theorem State.pass_cur_readFrom (s : State) (n : Nat) : (s.pass n).cur.readFrom = s.cur.readFrom := rfl
@[simp] theorem State.pass_cur_readRings (s : State) (n : Nat) : (s.pass n).cur.readRings = s.cur.readRings := rfl
@[simp] theorem State.pass_cur_known (s : State) (n : Nat) : (s.pass n).cur.known = s.cur.known := rfl
@[simp] theorem State.pass_cur_regions (s : State) (n : Nat) : (s.pass n).cur.regions = s.cur.regions := rfl
@[simp] theorem State.pass_cur_relBuf (s : State) (n : Nat) : (s.pass n).cur.relBuf = s.cur.relBuf := rfl
@[simp] theorem State.pass_cur_heldSigs (s : State) (n : Nat) : (s.pass n).cur.heldSigs = s.cur.heldSigs := rfl
@[simp] theorem State.pass_cur_sigWait (s : State) (n : Nat) : (s.pass n).cur.sigWait = s.cur.sigWait := rfl
@[simp] theorem State.pass_cur_meeting (s : State) (n : Nat) : (s.pass n).cur.meeting = s.cur.meeting := rfl
@[simp] theorem State.pass_cur_presented (s : State) (n : Nat) : (s.pass n).cur.presented = s.cur.presented := rfl
@[simp] theorem State.pass_cur_waitingAt (s : State) (n : Nat) : (s.pass n).cur.waitingAt = s.cur.waitingAt := rfl
@[simp] theorem State.pass_cur_met (s : State) (n : Nat) : (s.pass n).cur.met = s.cur.met := rfl
@[simp] theorem State.pass_cur_metBelow (s : State) (n : Nat) : (s.pass n).cur.metBelow = s.cur.metBelow := rfl
@[simp] theorem State.pass_cur_unsigned (s : State) (n : Nat) : (s.pass n).cur.unsigned = s.cur.unsigned := rfl
@[simp] theorem State.pass_cur_lastSigs (s : State) (n : Nat) : (s.pass n).cur.lastSigs = s.cur.lastSigs := rfl
@[simp] theorem State.pass_cur_lanes (s : State) (n : Nat) : (s.pass n).cur.lanes = s.cur.lanes := rfl
@[simp] theorem State.pass_cur_ndCount (s : State) (n : Nat) : (s.pass n).cur.ndCount = s.cur.ndCount := rfl
@[simp] theorem State.pass_cur_ndValue (s : State) (n : Nat) : (s.pass n).cur.ndValue = s.cur.ndValue := rfl
@[simp] theorem State.pass_cur_ndResult (s : State) (n : Nat) : (s.pass n).cur.ndResult = s.cur.ndResult := rfl
@[simp] theorem State.pass_cur_claspCount (s : State) (n : Nat) : (s.pass n).cur.claspCount = s.cur.claspCount := rfl
@[simp] theorem State.pass_cur_binderCount (s : State) (n : Nat) : (s.pass n).cur.binderCount = s.cur.binderCount := rfl
@[simp] theorem State.pass_cur_wait (s : State) (n : Nat) : (s.pass n).cur.wait = s.cur.wait := rfl
@[simp] theorem State.pass_cur_task (s : State) (n : Nat) : (s.pass n).cur.task = s.cur.task := rfl
@[simp] theorem State.pass_cur_taskDev (s : State) (n : Nat) : (s.pass n).cur.taskDev = s.cur.taskDev := rfl
@[simp] theorem State.pass_cur_rank (s : State) (n : Nat) : (s.pass n).cur.rank = s.cur.rank := rfl
@[simp] theorem State.pass_cur_replica (s : State) (n : Nat) : (s.pass n).cur.replica = s.cur.replica := rfl
@[simp] theorem State.pass_cur_secure (s : State) (n : Nat) : (s.pass n).cur.secure = s.cur.secure := rfl
@[simp] theorem State.pass_cur_join (s : State) (n : Nat) : (s.pass n).cur.join = s.cur.join := rfl
@[simp] theorem State.pass_cur_joining (s : State) (n : Nat) : (s.pass n).cur.joining = s.cur.joining := rfl
@[simp] theorem State.pass_cur_live (s : State) (n : Nat) : (s.pass n).cur.live = s.cur.live := rfl
@[simp] theorem State.pass_cur_lost (s : State) (n : Nat) : (s.pass n).cur.lost = s.cur.lost := rfl
@[simp] theorem State.pass_cur_idleFrom (s : State) (n : Nat) : (s.pass n).cur.idleFrom = s.cur.idleFrom := rfl
@[simp] theorem State.pass_cur_idleSince (s : State) (n : Nat) : (s.pass n).cur.idleSince = s.cur.idleSince := rfl
@[simp] theorem State.pass_cur_sailing (s : State) (n : Nat) : (s.pass n).cur.sailing = s.cur.sailing := rfl
@[simp] theorem State.pass_cur_time (s : State) (n : Nat) : (s.pass n).cur.time = s.cur.time + n := rfl
@[simp] theorem State.setDev_cur (s : State) (d : Device) : (s.setDev d).cur = s.cur := rfl
@[simp] theorem State.pass_others (s : State) (n : Nat) : (s.pass n).others = s.others := rfl
@[simp] theorem State.setDev_others (s : State) (d : Device) : (s.setDev d).others = s.others := rfl
@[simp] theorem State.pass_devs (s : State) (n : Nat) : (s.pass n).devs = s.devs := rfl
@[simp] theorem State.pass_mem (s : State) (n : Nat) : (s.pass n).mem = s.mem := rfl
@[simp] theorem State.setDev_mem (s : State) (d : Device) : (s.setDev d).mem = s.mem := rfl
@[simp] theorem State.pass_poison (s : State) (n : Nat) : (s.pass n).poison = s.poison := rfl
@[simp] theorem State.setDev_poison (s : State) (d : Device) : (s.setDev d).poison = s.poison := rfl
@[simp] theorem State.pass_latent (s : State) (n : Nat) : (s.pass n).latent = s.latent := rfl
@[simp] theorem State.setDev_latent (s : State) (d : Device) : (s.setDev d).latent = s.latent := rfl
@[simp] theorem State.pass_pend (s : State) (n : Nat) : (s.pass n).pend = s.pend := rfl
@[simp] theorem State.setDev_pend (s : State) (d : Device) : (s.setDev d).pend = s.pend := rfl
@[simp] theorem State.pass_admQ (s : State) (n : Nat) : (s.pass n).admQ = s.admQ := rfl
@[simp] theorem State.setDev_admQ (s : State) (d : Device) : (s.setDev d).admQ = s.admQ := rfl
@[simp] theorem State.pass_flows (s : State) (n : Nat) : (s.pass n).flows = s.flows := rfl
@[simp] theorem State.setDev_flows (s : State) (d : Device) : (s.setDev d).flows = s.flows := rfl
@[simp] theorem State.pass_clasps (s : State) (n : Nat) : (s.pass n).clasps = s.clasps := rfl
@[simp] theorem State.setDev_clasps (s : State) (d : Device) : (s.setDev d).clasps = s.clasps := rfl
@[simp] theorem State.pass_requests (s : State) (n : Nat) : (s.pass n).requests = s.requests := rfl
@[simp] theorem State.pass_asked (s : State) (n : Nat) : (s.pass n).asked = s.asked := rfl
@[simp] theorem State.setDev_requests (s : State) (d : Device) : (s.setDev d).requests = s.requests := rfl
@[simp] theorem State.setDev_asked (s : State) (d : Device) : (s.setDev d).asked = s.asked := rfl
@[simp] theorem State.pass_nextWrite (s : State) (n : Nat) : (s.pass n).nextWrite = s.nextWrite := rfl
@[simp] theorem State.setDev_nextWrite (s : State) (d : Device) : (s.setDev d).nextWrite = s.nextWrite := rfl
@[simp] theorem State.pass_agenda (s : State) (n : Nat) : (s.pass n).agenda = s.agenda := rfl
@[simp] theorem State.setDev_agenda (s : State) (d : Device) : (s.setDev d).agenda = s.agenda := rfl
@[simp] theorem State.pass_prompt (s : State) (n : Nat) : (s.pass n).prompt = s.prompt := rfl
@[simp] theorem State.setDev_prompt (s : State) (d : Device) : (s.setDev d).prompt = s.prompt := rfl
@[simp] theorem State.setDev_clock (s : State) (d : Device) : (s.setDev d).clock = s.clock := rfl
@[simp] theorem State.pass_free (s : State) (n : Nat) : (s.pass n).free = s.free := rfl
@[simp] theorem State.setDev_free (s : State) (d : Device) : (s.setDev d).free = s.free := rfl

end Sys2Proof.Machine
end

