-- ==== Sys2Proof/Laws/Sequencer.lean ====
section
/-! SUPPORT. What the shared operations around every sequencer instruction do: issue, reading, the commit point, completion. -/
namespace Sys2Proof.Machine
open Sys2Proof

/-- The unit once an instruction that pushes and holds back nothing has executed, and completes in cycle `done`. -/
theorem record_none (before after : Unit) (done : Nat) : before.record after none none none done =
    if before.window = [] ∧ done ≤ before.time + 1 then { after with committed := after.committed + 1 }
    else { after with window := before.window ++
      [{ pc := before.pc, before := before.toSeqRegs, push := none, store := none, load := none, done := done }] } := by
  rw [Unit.record]
  by_cases h : before.window = [] ∧ done ≤ before.time + 1
  · rw [if_pos h, if_pos (by simp [h])]
  · rw [if_neg h, if_neg (by simpa using h)]

theorem ws_zero (u : Unit) (x : Word) : u.ws 0 x = u := rfl
theorem ws_pos (u : Unit) {a : Reg} (ha : a ≠ 0) (x : Word) : u.ws a x =
    { u with s := u.s.set a.toNat x, waits := u.waits.filter fun w => !w.2.isReg a } := if_neg ha
theorem rs_zero (u : Unit) : u.rs 0 = 0 := rfl
theorem rs_pos (u : Unit) {r : Reg} (hr : r ≠ 0) : u.rs r = u.s[r.toNat] := if_neg hr

theorem rs_ws (u : Unit) (a r : Reg) (x : Word) : (u.ws a x).rs r = if r = a ∧ a ≠ 0 then x else u.rs r := by
  by_cases ha : a = 0
  · subst ha; rw [ws_zero, if_neg (fun h => h.2 rfl)]
  · rw [ws_pos u ha]
    by_cases hr : r = 0
    · subst hr; rw [if_neg (fun h => ha h.1.symm)]; rfl
    · rw [rs_pos _ hr, rs_pos _ hr]
      by_cases h : r = a
      · subst h; rw [if_pos ⟨rfl, ha⟩]; exact Vector.getElem_set_self ..
      · rw [if_neg (fun e => h e.1)]
        exact Vector.getElem_set_ne a.isLt _ (fun e => h (BitVec.eq_of_toNat_eq e.symm))

theorem advance_congr {u v : Unit} (h1 : v.pc = u.pc) (h2 : v.lcount = u.lcount) (h3 : v.lbody = u.lbody) (h4 : v.llimit = u.llimit) :
   v.advance.pc = u.advance.pc ∧ v.advance.lcount = u.advance.lcount ∧ v.advance.lbody = u.advance.lbody := by
  have hb : v.bodyAt = u.bodyAt := by simp only [Unit.bodyAt, h3]
  have hl : v.bodyLen = u.bodyLen := by simp only [Unit.bodyLen, h3]
  unfold Unit.advance
  rw [h1, h2, h3, h4, hb, hl]
  by_cases hc : (u.lbody.getLsbD 63 && u.pc == u.bodyAt + BitVec.ofNat 64 (8 * u.bodyLen - 8)) = true
  · simp only [if_pos hc]
    by_cases hd : (u.lcount + 1).toNat < u.llimit.toNat
    · simp only [if_pos hd, and_self]
    · simp only [if_neg hd, and_self]
  · simp only [if_neg hc, true_and]; exact ⟨h2, h3⟩

theorem advance_eq (u : Unit) : u.advance = { u with pc := u.advance.pc, lcount := u.advance.lcount, lbody := u.advance.lbody } := by
  simp only [Unit.advance]
  split
  · split <;> rfl
  · rfl

theorem land_zero (u : Unit) (x : Word) (lat : Nat) : u.land 0 x lat = u := rfl
theorem land_pos (u : Unit) {a : Reg} (ha : a ≠ 0) (x : Word) (lat : Nat) : u.land a x lat =
    { u with s := u.s.set a.toNat x, waits := u.waits.filter fun w => !w.2.isReg a, ready := u.ready.set a.toNat (u.time + lat) } := by
  rw [Unit.land, if_neg ha, ws_pos u ha]
theorem land_eq (u : Unit) (a : Reg) (x : Word) (lat : Nat) : u.land a x lat =
    { u with s := (u.ws a x).s, waits := (u.ws a x).waits, ready := (u.land a x lat).ready } := by
  by_cases ha : a = 0
  · subst ha; rfl
  · rw [land_pos u ha, ws_pos u ha]
theorem rs_congr {u v : Unit} (h : v.s = u.s) (r : Reg) : v.rs r = u.rs r := by simp only [Unit.rs, h]
theorem rs_land (u : Unit) (a r : Reg) (x : Word) (lat : Nat) :
    (u.land a x lat).rs r = if r = a ∧ a ≠ 0 then x else u.rs r := by
  rw [rs_congr (v := u.land a x lat) (u := u.ws a x) (by rw [land_eq]), rs_ws]

/-- What an instruction does that leaves the unit `v`: `v` with its window moved on, and nothing else, before its cycle passes. -/
theorem execute_eq (s : State) (k : Nat) (v : Unit) {lat : Nat} (hl : 1 ≤ lat) (hw : v.window = s.cur.window) (hm : v.committed = s.cur.committed)
    (ht : v.time = s.cur.time + k) :
    ∃ t, (s.pass k).execute v none lat = t.tick ∧ s.Recorded t ∧
      t = { s with clock := s.clock + k, cur := { v with window := t.cur.window, committed := t.cur.committed } } := by
  refine ⟨_, rfl, ?_⟩
  have hd : ∀ n, ((s.pass k).cur.time + if (Option.isSome (none : Option (Access × List (List Byte))) && !(s.pass k).storeNow none) then n else lat) =
    s.cur.time + k + lat := fun _ => rfl
  rw [hd, record_none]
  by_cases he : (s.pass k).cur.window = [] ∧ s.cur.time + k + lat ≤ (s.pass k).cur.time + 1
  · simp only [if_pos he]
    refine ⟨.inl ⟨he.1, hw.trans he.1, ?_⟩, rfl⟩
    rw [← hm]
  · simp only [if_neg he]
    exact ⟨.inr ⟨hm, _, by rw [ht]; exact Nat.lt_add_of_pos_right hl, rfl⟩, rfl⟩

/-- What an instruction does that leaves the unit `u` and goes on with the next word: `u` with its PC, loop registers and
window moved on, and nothing else, before its cycle passes. -/
theorem finish_eq (s : State) (k : Nat) (u : Unit) {lat : Nat} (hl : 1 ≤ lat) (hpc : u.pc = s.cur.pc) (hc : u.lcount = s.cur.lcount)
    (hb : u.lbody = s.cur.lbody) (hm : u.llimit = s.cur.llimit) (hw : u.window = s.cur.window) (hn : u.committed = s.cur.committed)
    (ht : u.time = s.cur.time + k) :
    ∃ t, finishIn lat (s.pass k) u = .next t.tick ∧ s.NextWord t ∧ s.Recorded t ∧
      t = { s with clock := s.clock + k, cur := { u with
        pc := t.cur.pc, lcount := t.cur.lcount, lbody := t.cur.lbody, window := t.cur.window, committed := t.cur.committed } } := by
  have ha := advance_eq u
  have hg := advance_congr (u := s.cur) (v := u) hpc hc hb hm
  obtain ⟨t, h1, h2, h3⟩ := execute_eq s k u.advance hl (by rw [ha]; exact hw) (by rw [ha]; exact hn) (by rw [ha]; exact ht)
  refine ⟨t, by rw [finishIn, h1], ⟨?_, ?_, ?_⟩, h2, ?_⟩
  · rw [← hg.1, h3]
  · rw [← hg.2.1, h3]
  · rw [← hg.2.2, h3]
  · rw [h3, ha]

/-- An instruction that leaves a unit which differs from the unit before it in scalar registers only. -/
theorem finish_spec (s : State) (k : Nat) (u : Unit) {lat : Nat} (hl : 1 ≤ lat)
    (hu : u = { (s.pass k).cur with s := u.s, waits := u.waits, ready := u.ready }) :
    ∃ t, finishIn lat (s.pass k) u = .next t.tick ∧ t.cur.s = u.s ∧ s.NextWord t ∧ s.Recorded t ∧ s.OnlyScalars t := by
  obtain ⟨t, h1, h2, h3, h4⟩ := finish_eq s k u hl (by rw [hu]; rfl) (by rw [hu]; rfl) (by rw [hu]; rfl) (by rw [hu]; rfl)
    (by rw [hu]; rfl) (by rw [hu]; rfl) (by rw [hu]; rfl)
  refine ⟨t, h1, by rw [h4], h2, h3, ?_, ?_, fun g a => by rw [h4]; rfl⟩
  · rw [h4, hu]; rfl
  · rw [h4, hu]; simp only [State.pass]; omega

/-- What an instruction does that writes one scalar register. -/
theorem finishReg_spec (s : State) (k : Nat) (a : Reg) (x : Word) {lat : Nat} (hl : 1 ≤ lat) :
    ∃ t, finishReg (s.pass k) a x lat = .next t.tick ∧ s.Wrote t a x := by
  obtain ⟨t, h1, h2, h3, h4, h5⟩ := finish_spec s k ((s.pass k).cur.land a x lat) hl (by rw [land_eq])
  refine ⟨t, h1, fun r => ?_, h3, h4, h5⟩
  rw [rs_congr h2, rs_land]; rfl

/-! ### What precedes the effect -/

theorem pass_zero (s : State) : s.pass 0 = s := rfl

theorem issue_spec {i : Instr} {rs ds} {s : State} (h : s.Executes i rs ds) (f : State → Res) : issue i f s = f s := by
  have h1 : (s.cur.isCore && coreIllopWord (encode i)) = false := by
    cases hc : s.cur.isCore
    · rfl
    · exact h.legal hc
  have h3 : ¬ windowSize ≤ s.cur.window.length := Nat.not_le.mpr h.room
  rw [issue, if_neg (by rw [h1]; decide), if_neg (by rw [h.inLoop]; decide), if_neg h3]

theorem pass_sum (s : State) (m n : Nat) : (s.pass m).pass n = s.pass (m + n) := by
  simp only [State.pass, Nat.add_assoc]
  by_cases hn : n = 0
  · subst hn; rfl
  · rw [if_neg hn, if_neg (by omega)]

/-- An instruction whose registers are ready reads them, in free mode after it has waited for their values. -/
theorem reading_spec {i : Instr} {rs ds} {s : State} (h : s.Executes i rs ds) (f : State → Res) :
    ∃ k, (s.cur.framed = true → k = 0) ∧ reading rs ds f s = f (s.pass k) := by
  have hl : ¬ s.cur.awaits rs ds = true := by rw [h.loaded]; decide
  by_cases hr : s.cur.readyAt rs ds ≤ s.cur.time
  · refine ⟨0, fun _ => rfl, ?_⟩
    rw [reading, h.loaded, if_neg (by simp; omega), if_neg (by decide), after, if_pos hr, pass_zero]
  · obtain ⟨hf, hq⟩ := h.landed.resolve_left hr
    refine ⟨s.cur.readyAt rs ds - s.cur.time, fun hf' => absurd hf' (by rw [hf]; decide), ?_⟩
    rw [reading, if_neg (by simp [hf]), if_neg hl, after, if_neg hr, if_neg]
    intro hc
    obtain ⟨hp, hb⟩ := Bool.and_eq_true_iff.mp hc
    obtain ⟨h1, h2⟩ := hq (by rw [hf, Bool.or_false] at hp; exact hp)
    simp [h1, h2] at hb

theorem issue_reading {i : Instr} {rs ds} {s : State} (h : s.Executes i rs ds) (f : State → Res) :
    ∃ k, (s.cur.framed = true → k = 0) ∧ issue i (reading rs ds f) s = f (s.pass k) := by
  rw [issue_spec h]; exact reading_spec h f

/-- An instruction that vets what it reads: it traps where the vetting finds something, else goes on. -/
theorem vetting_spec {i : Instr} {rs} {s : State} (h : s.Executes i rs []) (vet : (Reg → Bool) → State → Option Trap) (f : State → Res) :
    ∃ k, (s.cur.framed = true → k = 0) ∧ vetting rs vet f s =
      match vet (fun _ => true) (s.pass k) with | some t => trapNow (s.pass k) t | none => f (s.pass k) := by
  obtain ⟨k, hk, e⟩ := reading_spec h fun s => match vet (fun _ => true) s with | some t => trapNow s t | none => f s
  have known : (fun r => !s.cur.awaits (rs.filter (· == r)) []) = fun _ => true := by
    funext r
    have hl := h.loaded
    simp only [Unit.awaits, List.any_nil, Bool.or_false, List.any_eq_false, List.mem_filter, Bool.not_eq_eq_eq_not, Bool.not_true,
      and_imp, Bool.not_eq_true] at hl ⊢
    exact fun w hw r hr _ => hl w hw r hr
  rw [vetting, known]
  by_cases hf : s.cur.framed = true
  · rw [if_pos hf]
    cases hv : vet (fun _ => true) s with
    | none => exact ⟨k, hk, e⟩
    | some t => exact ⟨0, fun _ => rfl, by rw [pass_zero, hv]⟩
  · rw [if_neg hf]; exact ⟨k, hk, e⟩

theorem issue_vetting_atCommit {i : Instr} {rs} {s : State} (h : s.Executes i rs []) (hc : s.AtCommit) (vet : (Reg → Bool) → State → Option Trap)
    (f : State → Res) : ∃ k, (s.cur.framed = true → k = 0) ∧ issue i (vetting rs vet (atCommit f)) s =
      match vet (fun _ => true) (s.pass k) with | some t => trapNow (s.pass k) t | none => f (s.pass k) := by
  rw [issue_spec h]
  obtain ⟨k, hk, e⟩ := vetting_spec h vet (atCommit f)
  refine ⟨k, hk, e.trans ?_⟩
  rw [show atCommit f (s.pass k) = f (s.pass k) from if_pos (by simp [State.pass, show s.cur.window = [] from hc])]

/-- An instruction of the commit point goes on once the window is empty. -/
theorem atCommit_spec {s : State} (h : s.AtCommit) (k : Nat) (f : State → Res) : atCommit f (s.pass k) = f (s.pass k) :=
  if_pos (by simp [State.pass, show s.cur.window = [] from h])

theorem issue_atCommit {i : Instr} {s : State} (h : s.Executes i [] []) (hc : s.AtCommit) (f : State → Res) :
    issue i (atCommit f) s = f s := by
  rw [issue_spec h]; exact atCommit_spec hc 0 f

theorem issue_reading_atCommit {i : Instr} {rs ds} {s : State} (h : s.Executes i rs ds) (hc : s.AtCommit) (f : State → Res) :
    ∃ n, (s.cur.framed = true → n = 0) ∧ issue i (reading rs ds (atCommit f)) s = f (s.pass n) := by
  obtain ⟨k, hk, e⟩ := issue_reading h (atCommit f)
  rw [e, atCommit_spec hc k f]; exact ⟨k, hk, rfl⟩

/-! ### Jumps -/

theorem jump_eq (u : Unit) (x : Word) : u.jump x = { u with
    pc := x, lbody := if u.inBody u.pc ∧ ¬ u.inBody x then u.lbody &&& 0x7FFFFFFFFFFFFFFF else u.lbody } := by
  have e : (u.inBody u.pc && !u.inBody x) = true ↔ (u.inBody u.pc = true ∧ ¬ u.inBody x = true) := by simp
  by_cases h : u.inBody u.pc = true ∧ ¬ u.inBody x = true
  · rw [Unit.jump, if_pos (e.mpr h), if_pos h]
  · rw [Unit.jump, if_neg (fun c => h (e.mp c)), if_neg h]
theorem inBody_congr {u v : Unit} (h : v.lbody = u.lbody) (x : Word) : v.inBody x = u.inBody x := by
  unfold Unit.inBody Unit.bodyAt Unit.bodyLen; rw [h]

/-- An instruction that leaves a unit which differs from the unit before it in scalar registers only, and jumps. -/
theorem finishJump_spec (s : State) (k : Nat) (u : Unit) (x : Word)
    (hu : u = { (s.pass k).cur with s := u.s, waits := u.waits, ready := u.ready }) :
    ∃ t, finishJump (s.pass k) u x = .next t.tick ∧ t.cur.s = u.s ∧ s.Recorded t ∧ s.OnlyScalars t ∧ s.JumpsTo t x := by
  have hb : u.lbody = s.cur.lbody := by rw [hu]; rfl
  have hp : u.pc = s.cur.pc := by rw [hu]; rfl
  have hj := jump_eq u x
  obtain ⟨t, h1, h2, h3⟩ := execute_eq s k (u.jump x) (Nat.le_refl 1) (by rw [hj, hu]; rfl) (by rw [hj, hu]; rfl) (by rw [hj, hu]; rfl)
  refine ⟨t, by rw [finishJump, h1], by rw [h3, hj], h2, ⟨?_, ?_, fun g a => by rw [h3]; rfl⟩, by rw [h3, hj], by rw [h3, hj, hu]; rfl, ?_⟩
  · rw [h3, hj, hu]; rfl
  · rw [h3, hj, hu]; simp only [State.pass]; omega
  · rw [h3, hj]
    simp only [inBody_congr hb, hb, hp]
end Sys2Proof.Machine
end

