-- ==== Sys2Proof/Laws/Access.lean ====
section
/-! SUPPORT. Lemmas about class 4: what a load finds, what a store does at the commit point and before it, descriptor registers, fences and bank modes. -/
namespace Sys2Proof.Machine
open Sys2Proof

theorem unitAt_cur (s : State) : s.unitAt s.cur.gid = s.cur := if_pos rfl

theorem dev_pass (s : State) (k : Nat) (n : Dev) : (s.pass k).dev n = s.dev n := rfl

theorem tableEntry_pass (s : State) (k : Nat) (g : Gid) (a : Nat) : (s.pass k).tableEntry g a = s.tableEntry g a := rfl

theorem walk_pass (s : State) (k : Nat) (g : Gid) (x va : Word) : (s.pass k).walk g x va = s.walk g x va := by
  simp only [State.walk, dev_pass, tableEntry_pass]; rfl

theorem lookup_pass (s : State) (k : Nat) (va : Word) : (s.pass k).lookup s.cur.gid va = s.lookup s.cur.gid va := by
  have e : (s.pass k).unitAt s.cur.gid = (s.pass k).cur := unitAt_cur (s.pass k)
  simp only [State.lookup, e, unitAt_cur, dev_pass, walk_pass]; rfl

theorem translate_pass (s : State) (k : Nat) (q kind regs va) : (s.pass k).translate s.cur.gid q kind regs va =
    s.translate s.cur.gid q kind regs va := by
  have e : (s.pass k).unitAt s.cur.gid = (s.pass k).cur := unitAt_cur (s.pass k)
  simp only [State.translate, lookup_pass, e, unitAt_cur, dev_pass]; rfl

theorem ofInt_toSigned (n x : Nat) (hn : n ≤ 64) : (BitVec.ofInt 64 (toSigned n x)) = (BitVec.ofNat n x).signExtend 64 := by
  apply BitVec.eq_of_toInt_eq
  rw [BitVec.toInt_signExtend_of_le hn, BitVec.toInt_ofInt]
  have h : toSigned n x = (BitVec.ofNat n x).toInt := by
    have hp : 0 < 2 ^ n := Nat.pow_pos (by decide)
    simp only [toSigned, BitVec.toInt_eq_toNat_cond, BitVec.toNat_ofNat]
    have : 2 * (x % 2 ^ n) < 2 ^ n ↔ x % 2 ^ n < 2 ^ (n - 1) := by
      rcases n with _ | n
      · simp
      · simp [Nat.pow_succ]; omega
    simp only [this]
  rw [h]
  have h1 := BitVec.toInt_lt (x := BitVec.ofNat n x)
  have h2 := BitVec.le_toInt (x := BitVec.ofNat n x)
  have h3 : (2 : Int) ^ (n - 1) ≤ 2 ^ 63 := by
    have := Nat.pow_le_pow_right (n := 2) (by decide) (show n - 1 ≤ 63 by omega)
    exact_mod_cast this
  refine Int.bmod_eq_of_le ?_ ?_ <;> omega

theorem fromLe_lt (bs : List Byte) : fromLe bs < 2 ^ (8 * bs.length) := by
  induction bs with
  | nil => decide
  | cons b bs ih =>
    have := b.isLt
    have e : fromLe (b :: bs) = b.toNat + 2 ^ 8 * fromLe bs := rfl
    rw [e, List.length_cons, Nat.mul_add, Nat.pow_add]
    omega

/-- What a scalar load makes of its bytes. -/
theorem loadValue_extends (size : BitVec 2) (sx : Bool) (bs : List Byte) (byte : Nat → Byte) (hl : bs.length = 2 ^ size.toNat)
    (hb : ∀ k, k < 2 ^ size.toNat → bs.getD k 0 = byte k) : Extends sx (2 ^ size.toNat) byte (loadValue size sx bs) := by
  have hs : 2 ^ size.toNat ≤ 2 ^ 3 := Nat.pow_le_pow_right (by decide) (by have := size.isLt; omega)
  have hs0 : 0 < 2 ^ size.toNat := Nat.pow_pos (by decide)
  intro k hk
  have hbit : ∀ j, j < 8 * 2 ^ size.toNat → (fromLe bs).testBit j = (byte (j / 8)).getLsbD (j % 8) := by
    intro j hj; rw [fromLe_testBit, hb _ (by omega)]
  cases sx
  · simp only [loadValue, Bool.false_eq_true, if_false, Bool.false_and]
    rw [BitVec.getLsbD_ofNat]
    by_cases h : k < 8 * 2 ^ size.toNat
    · rw [if_pos h, hbit k h]; simp [hk]
    · rw [if_neg h]
      have := fromLe_lt bs
      rw [hl] at this
      rw [Nat.testBit_lt_two_pow (Nat.lt_of_lt_of_le this (Nat.pow_le_pow_right (by decide) (Nat.not_lt.mp h)))]; simp
  · simp only [loadValue, if_true, Bool.true_and]
    rw [ofInt_toSigned _ _ (by omega), BitVec.getLsbD_signExtend]
    simp only [hk, decide_true, Bool.true_and]
    by_cases h : k < 8 * 2 ^ size.toNat
    · rw [if_pos h, if_pos h, BitVec.getLsbD_ofNat, hbit k h]; simp [h]
    · rw [if_neg h, if_neg h, BitVec.msb_eq_getLsbD_last, BitVec.getLsbD_ofNat, hbit _ (by omega)]
      rw [show (8 * 2 ^ size.toNat - 1) / 8 = 2 ^ size.toNat - 1 by omega, show (8 * 2 ^ size.toNat - 1) % 8 = 7 by omega]
      simp

/-- What has performed has performed in a later cycle too. -/
theorem performed_pass {s : State} {mask : BitVec 16} {n : Nat} (h : s.performed s.cur mask n = true) (k : Nat) :
    (s.pass k).performed (s.pass k).cur mask n = true := by
  rw [State.performed, Bool.and_eq_true, Bool.and_eq_true] at h ⊢
  refine ⟨⟨h.1.1, List.all_eq_true.mpr fun e he => ?_⟩, h.2⟩
  have := List.all_eq_true.mp h.1.2 e he
  simp only [Bool.or_eq_true, decide_eq_true_eq] at this ⊢
  exact this.imp id fun h => Nat.le_trans h (Nat.le_add_right ..)

theorem buffering_false {u : Unit} (h : u.buffering = false) : u.live ≤ 1 ∧ u.regions.any (·.buffered) = false := by
  simp only [Unit.buffering, Bool.or_eq_false_iff, decide_eq_false_iff_not] at h
  exact ⟨by omega, h.2⟩

/-- What a meeting leaves of a unit. -/
theorem afterMeeting_eq (u : Unit) : u.afterMeeting = { u with
    lanes := u.resetLanes.lanes, meeting := u.meeting + 1, presented := none, unsigned := none,
    relBuf := u.relBuf.filter fun w => decide (0 < w.depth && u.regions.any (·.buffered)) } := rfl

/-- After a meeting a unit that differed from `v` in its lanes differs from it in what belongs to meetings. -/
theorem afterMeeting_of_lanes {v w : Unit} {L : Vector (Word × Word) 7} (hw : w = { v with lanes := L }) (G : Vector (Word × Word) 3) :
    ({ w.afterMeeting with lastSigs := G } : Unit) = { v with
      lanes := w.afterMeeting.lanes, lastSigs := G, meeting := w.afterMeeting.meeting, presented := w.afterMeeting.presented,
      unsigned := w.afterMeeting.unsigned, relBuf := w.afterMeeting.relBuf } := by
  subst hw
  simp only [afterMeeting_eq]

/-- The meeting point of a request in an unreplicated task, outside every buffered region. -/
theorem meeting_alone {s : State} (hb : s.cur.buffering = false) (i : Instr) (recs : List (List Byte)) (ready : State → Bool) (f : State → Res)
    (h1 : ready s = true)
    (h2 : ∀ u : Unit, u = { s.cur with
        lanes := u.lanes, lastSigs := u.lastSigs, meeting := u.meeting, presented := u.presented, unsigned := u.unsigned, relBuf := u.relBuf } →
      ready { s with cur := u } = true) :
    ∃ u : Unit, unbuffered i (meeting recs ready f) s = f { s with cur := u } ∧
      u = { s.cur with
        lanes := u.lanes, lastSigs := u.lastSigs, meeting := u.meeting, presented := u.presented, unsigned := u.unsigned, relBuf := u.relBuf } ∧
      u.meeting = s.cur.meeting + 1 := by
  obtain ⟨hl, hr⟩ := buffering_false hb
  have hs : s.cur.sign 1 recs = { s.cur with lanes := (s.cur.sign 1 recs).lanes } := by
    have hd : s.cur.bufferedAt s.cur.regions.length = false := by rw [Unit.bufferedAt, List.take_length]; exact hr
    rw [Unit.sign, Unit.signAt, if_neg (by rw [hd]; decide)]
  have hn : ¬ (decide (1 < s.cur.live) && s.cur.met && s.cur.waitingAt == 1) = true := by
    simp only [Bool.and_eq_true, decide_eq_true_eq]; omega
  let u' := s.cur.sign 1 recs
  let u : Unit := { u'.afterMeeting with lastSigs := (Vector.replicate 3 (0, 0)).set 0 u'.signature }
  have hu : u = { s.cur with
        lanes := u.lanes, lastSigs := u.lastSigs, meeting := u.meeting, presented := u.presented, unsigned := u.unsigned, relBuf := u.relBuf } := by
    exact afterMeeting_of_lanes hs ((Vector.replicate 3 (0, 0)).set 0 u'.signature)
  have hm : s.meet 1 recs = .go { s with cur := u } := by
    rw [State.meet]; dsimp only; rw [if_pos hl]
  refine ⟨u, ?_, hu, ?_⟩
  · rw [unbuffered, if_neg (by rw [hr]; decide), meeting, State.meetFor]
    dsimp only
    rw [if_neg hn, if_neg (by rw [h1]; decide), hm]
    dsimp only
    rw [if_pos (h2 u hu)]
  · show (s.cur.sign 1 recs).meeting + 1 = _
    rw [hs]

theorem clearBank_dev (s : State) (dev : Dev) (n : Nat) (m : Dev) : (s.clearBank dev n).dev m = s.dev m := rfl

/-- The mode of a bank after a change of mode (04 R90). -/
theorem changeMode_bank (s : State) (dev : Dev) (n : Nat) (mode : BitVec 3) (k : Nat) :
    (((s.changeMode dev n mode).dev dev).bank k).mode = if k = n then mode else ((s.dev dev).bank k).mode := by
  rw [State.changeMode]
  dsimp only
  by_cases hm : ((s.dev dev).bank n).mode = mode
  · rw [if_pos hm]
    by_cases hk : k = n
    · subst hk; rw [if_pos rfl, hm]
    · rw [if_neg hk]
  · rw [if_neg hm, dev_onDev _ _ _ ?_, if_pos rfl]
    · have key : ∀ d : Device, d.banks = ((s.dev dev).setBank n { (s.dev dev).bank n with mode := mode, epoch := ((s.dev dev).bank n).epoch + 1 }).banks →
          (d.bank k).mode = if k = n then mode else ((s.dev dev).bank k).mode := by
        intro d hd
        rw [Device.bank, hd, Device.setBank, tableGet_put]
        by_cases hk : k = n
        · rw [if_pos hk, if_pos hk]
        · rw [if_neg hk, if_neg hk]; rfl
      apply key
      rw [clearBank_dev]
      split <;> split <;> rfl
    · rw [clearBank_dev]
      have := dev_num s dev
      split <;> split <;> exact this

theorem changeMode_frame (s : State) (dev : Dev) (n : Nat) (mode : BitVec 3) :
    (s.changeMode dev n mode).cur = s.cur ∧ (s.changeMode dev n mode).prompt = s.prompt := by
  rw [State.changeMode]; dsimp only; split <;> exact ⟨rfl, rfl⟩

/-- A write of one register in a state whose unit is the one before it but for its clock. -/
theorem finishReg_other {s : State} (s1 : State) (a : Reg) (x : Word) {lat : Nat} (hl : 1 ≤ lat)
    (h1 : s1.cur = { s.cur with time := s1.cur.time, justGiven := s1.cur.justGiven }) :
    ∃ t, finishReg s1 a x lat = .next t.tick ∧ s.SetsReg t a x ∧ s.NextWord t ∧ s.Recorded t ∧ s1.OnlyScalars t := by
  obtain ⟨t, h2, h3, h4, h5, h6⟩ := finishReg_spec s1 0 a x hl
  have hadv := advance_congr (u := s.cur) (v := s1.cur) (by rw [h1]) (by rw [h1]) (by rw [h1]) (by rw [h1])
  refine ⟨t, h2, fun r => ?_, ⟨h4.1.trans hadv.1, h4.2.1.trans hadv.2.1, h4.2.2.trans hadv.2.2⟩, ?_, h6⟩
  · rw [h3 r, rs_congr (v := s1.cur) (u := s.cur) (by rw [h1])]
  · have e2 : s1.cur.window = s.cur.window := by rw [h1]
    have e3 : s1.cur.committed = s.cur.committed := by rw [h1]
    have e4 : s1.cur.pc = s.cur.pc := by rw [h1]
    have e5 : s1.cur.toSeqRegs = s.cur.toSeqRegs := by rw [h1]
    simp only [State.Recorded, e2, e3, e4, e5] at h5; exact h5

theorem seenBytes_getD (s : State) (u : Unit) (a n k : Nat) (h : k < n) :
    (s.seenBytes u a n).getD k 0 = u.over (s.plainByte u.gid) (a + k) := by
  simp [State.seenBytes, h]

theorem seenBytes_length (s : State) (u : Unit) (a n : Nat) : (s.seenBytes u a n).length = n := by simp [State.seenBytes]

theorem scrub_pass (s : State) (k j : Nat) : (s.pass k).scrub j = (s.scrub j).pass k := by
  rw [State.scrub, State.scrub]
  by_cases h : (!(s.latent.any fun e => e.1 == j)) = true
  · rw [if_pos h, if_pos (by exact h)]
  · rw [if_neg h, if_neg (by exact h)]
    show (match decodeSector j (s.badSymbols j) with | .corrected => _ | .poisoned => _ | .miscorrected data => _) = _
    dsimp only
    cases decodeSector j (s.badSymbols j) <;> rfl

theorem scrubRun_pass (s : State) (k a n : Nat) : (s.pass k).scrubRun a n = (s.scrubRun a n).pass k := by
  have all : ∀ (l : List Nat) (s : State), l.foldl State.scrub (s.pass k) = (l.foldl State.scrub s).pass k := by
    intro l
    induction l with
    | nil => exact fun _ => rfl
    | cons j l ih => intro s; rw [List.foldl_cons, List.foldl_cons, scrub_pass, ih]
  rw [State.scrubRun, State.scrubRun]
  by_cases h : (s.latent.isEmpty || n == 0) = true
  · rw [if_pos h, if_pos (by exact h)]
  · rw [if_neg h, if_neg (by exact h)]; exact all _ s

theorem scrubRun_cur (s : State) (a n : Nat) : (s.scrubRun a n).cur = s.cur := by
  obtain ⟨_, _, _, _, e, -⟩ := scrubRun_frame s a n; rw [e]

/-- What a load reads at its home: the bytes that the unit sees there, whatever the stack corrects on the way. -/
theorem loadAt_value (s : State) (h : HeldLoad) : (s.loadAt s.view h).2.1 = h.dest.value (s.seenBytes s.cur h.addr h.n) := by
  have key : ((s.scrubRun h.addr h.n).viewed s.view (s.scrubRun h.addr h.n).cur h.addr h.n).2 = s.seenBytes s.cur h.addr h.n := by
    rw [scrubRun_cur]
    have hv : (fun x => (if (s.view.late (x / 8) || (s.scrubRun h.addr h.n).ownIn s.view s.cur.gid x) = true then s.scrubRun h.addr h.n
        else s.view.before).plainByte s.cur.gid x) = s.plainByte s.cur.gid := by
      funext x
      rw [if_pos (show (s.view.late (x / 8) || _) = true from rfl)]
      exact scrubRun_plainByte ..
    exact congrArg (fun p => (List.range h.n).map fun k => s.cur.over p (h.addr + k)) hv
  obtain ⟨cls, path, va, addr, n, dest, sent⟩ := h
  cases path <;> exact congrArg dest.value key

theorem loadAt_frame (s : State) (h : HeldLoad) : ∃ l1 l0 from' fr, (s.loadAt s.view h).1 = { s.scrubRun h.addr h.n with
    free := fr, cur := { s.cur with l1 := l1, l0 := l0, readFrom := from' } } := by
  have hc := scrubRun_cur s h.addr h.n
  have fill : ∀ (t : State) (a n : Nat), ∃ l1 l0, t.fillL1 a n = { t with cur := { t.cur with l1 := l1, l0 := l0 } } := by
    intro t a n; rw [State.fillL1]; split <;> exact ⟨_, _, rfl⟩
  obtain ⟨cls, path, va, addr, n, dest, sent⟩ := h
  dsimp only at hc ⊢
  cases path
  · obtain ⟨l1, l0, e⟩ := fill ((s.scrubRun addr n).readHome s.view cls addr n).1 addr n
    refine ⟨l1, l0, ((s.scrubRun addr n).readHome s.view cls addr n).1.cur.readFrom, (s.scrubRun addr n).free + 1, ?_⟩
    rw [State.loadAt]
    dsimp only
    rw [e]; simp only [State.readHome, hc]
  · refine ⟨(((s.scrubRun addr n).readHome s.view cls addr n).1.barCopies s.view addr n).cur.l1,
      (((s.scrubRun addr n).readHome s.view cls addr n).1.barCopies s.view addr n).cur.l0,
      ((s.scrubRun addr n).readHome s.view cls addr n).1.cur.readFrom, (s.scrubRun addr n).free + 1, ?_⟩
    simp only [State.loadAt, State.readHome, State.barCopies, hc]
  · refine ⟨s.cur.l1, s.cur.l0, ((s.scrubRun addr n).readHome s.view cls addr n).1.cur.readFrom, (s.scrubRun addr n).free, ?_⟩
    simp only [State.loadAt, State.readHome, hc]

theorem homeLatency_pos (s : State) (a : Nat) : 1 ≤ (s.homeLatency a).typical := by
  rw [State.homeLatency]
  dsimp only [Latency.plus]
  have : 1 ≤ (if Config.homeMisses s.free = true then ({ typical := 340, bound := 460 } : Latency) else { typical := 110, bound := 140 }).typical := by
    split <;> decide
  omega

theorem loadLatency_pos (s : State) (a : Nat) : 1 ≤ s.loadLatency a := homeLatency_pos s a

theorem loadAt_latency (s : State) (h : HeldLoad) : 1 ≤ (s.loadAt s.view h).2.2.typical := by
  obtain ⟨cls, path, va, addr, n, dest, sent⟩ := h
  cases path
  · exact Nat.le_trans (homeLatency_pos _ _) (Nat.le_add_left ..)
  · exact Nat.le_trans (homeLatency_pos _ _) (Nat.le_add_left ..)
  · exact (by decide : 1 ≤ 16)

theorem class_clear {s : State} {cls : BitVec 4} (hf : s.cur.classFree cls = true) : windowFree s.cur.window cls = true ∧
    (s.cur.classQ.any fun x => x.cls == cls) = false := by
  obtain ⟨h1, h2⟩ := Bool.and_eq_true_iff.mp (show (windowFree s.cur.window cls && s.cur.classQ.all fun x => x.cls != cls) = true from hf)
  exact ⟨h1, by rw [List.any_eq_false]; intro x hx; simpa using (List.all_eq_true.mp h2) x hx⟩

/-- A load finds a copy of its sector in the L1: its class is free, and no load of the sector by another way is on its way. -/
theorem tryLoad_copied {s : State} (h : HeldLoad) (c : SectorCopy) (hf : s.cur.classFree h.cls = true)
    (hq : sectorPending s.cur.window h = false) (hc : s.cur.l1Hit h = some c) :
    ∃ l0 from', s.tryLoad s.cur.window h = .done { s with cur := { s.cur with l0 := l0, readFrom := from' } } (h.dest.value
      ((List.range h.n).map fun k => s.cur.over (fun x => (c.data.drop (x % 128)).headD 0) (h.addr + k))) (.exact 8) := by
  obtain ⟨h1, h3⟩ := class_clear hf
  refine ⟨(s.cur.barFetches c h.addr h.n).l0, (s.cur.readFrom ++ c.from_.map fun i => (i, h.cls)).eraseDups, ?_⟩
  rw [State.tryLoad]
  dsimp only
  rw [if_neg (by rw [h1, h3, hq]; simp), if_neg (by rw [h3]; decide), hc]
  rfl

/-- A load that finds no copy, and may be made at its home, is made there. -/
theorem tryLoad_home {s : State} (h : HeldLoad) (hm : s.MayLoad h.cls h.addr) (hp : s.poisonedIn? h.addr h.n = none)
    (hs : h.path = .scratch → s.scratchHeld h.addr = false ∧ s.scratchTrap .read h.addr = none)
    (hq : sectorPending s.cur.window h = false) (hc : s.cur.l1Hit h = none) :
    s.tryLoad s.cur.window h = .done (s.loadAt s.view h).1 (s.loadAt s.view h).2.1 (s.loadAt s.view h).2.2 := by
  obtain ⟨h1, h3⟩ := class_clear hm.free
  have ht : (if h.path == .scratch then (if s.scratchHeld h.addr then none else s.scratchTrap .read h.addr) else s.linkTrap h.addr) = none := by
    by_cases hk : h.path = .scratch
    · rw [if_pos (by rw [hk]; rfl), (hs hk).1, (hs hk).2]; rfl
    · rw [if_neg (by simpa using hk)]; exact hm.flow
  rw [State.tryLoad]
  dsimp only
  rw [if_neg (by rw [h1, h3, hq]; simp), if_neg (by rw [h3]; decide), hc]
  dsimp only
  rw [ht]
  dsimp only
  rw [hp]
  dsimp only
  rw [if_neg (by
      intro hk
      obtain ⟨hk1, hk2⟩ := Bool.and_eq_true_iff.mp hk
      rw [(hs (by simpa using hk1)).1] at hk2; cases hk2),
    if_neg (by rw [hm.now]; decide), if_neg (by rw [hm.line]; decide)]

theorem tryLoad_poisoned {s : State} (h : HeldLoad) (hm : s.MayLoad h.cls h.addr) {k : Nat} (hp : s.poisonedIn? h.addr h.n = some k)
    (hs : h.path = .scratch → s.scratchHeld h.addr = false ∧ s.scratchTrap .read h.addr = none)
    (hq : sectorPending s.cur.window h = false) (hc : s.cur.l1Hit h = none) :
    s.tryLoad s.cur.window h = .trap (seqTrap .uncorr (h.va + BitVec.ofNat 64 k)) := by
  obtain ⟨h1, h3⟩ := class_clear hm.free
  have ht : (if h.path == .scratch then (if s.scratchHeld h.addr then none else s.scratchTrap .read h.addr) else s.linkTrap h.addr) = none := by
    by_cases hk : h.path = .scratch
    · rw [if_pos (by rw [hk]; rfl), (hs hk).1, (hs hk).2]; rfl
    · rw [if_neg (by simpa using hk)]; exact hm.flow
  rw [State.tryLoad]
  dsimp only
  rw [if_neg (by rw [h1, h3, hq]; simp), if_neg (by rw [h3]; decide), hc]
  dsimp only
  rw [ht]
  dsimp only
  rw [hp]

theorem pathFails_congr {s t : State} (h : t.devs = s.devs) (n : Option Dev) (l : List Nat) : t.pathFails n l = s.pathFails n l := by
  have hd : ∀ m, t.dev m = s.dev m := fun m => by simp only [State.dev, h]
  have hp : ∀ d p, t.portDown d p = s.portDown d p := fun d p => by simp only [State.portDown, hd]
  induction l generalizing n with
  | nil => rfl
  | cons p l ih =>
    cases n with
    | none => rfl
    | some n => rw [State.pathFails, State.pathFails, hd, hp, ih]

/-- Whether a flow carries traffic depends on the devices only. -/
theorem flowFails_congr {s t : State} (h : t.devs = s.devs) (src dst : Dev) : t.flowFails src dst = s.flowFails src dst := by
  have hd : ∀ m, t.dev m = s.dev m := fun m => by simp only [State.dev, h]
  have hp : ∀ d, t.portDown d = s.portDown d := fun d => funext fun p => by simp only [State.portDown, hd]
  have hs : ∀ xs, t.spreadFrom xs = s.spreadFrom xs := fun xs => by simp only [State.spreadFrom, hd, hp]
  have hl : ∀ n xs k, t.distance dst n xs k = s.distance dst n xs k := by
    intro n
    induction n with
    | zero => exact fun _ _ => rfl
    | succ n ih => intro xs k; rw [State.distance, State.distance, hs, ih]
  simp only [State.flowFails, State.routeTo, hd, hp, hl, pathFails_congr h]

theorem MayLoad.pass {s : State} {cls : BitVec 4} {a : Nat} (h : s.MayLoad cls a) (k : Nat) : (s.pass k).MayLoad cls a :=
  ⟨h.free, h.line, h.now, by
    have e := flowFails_congr (s := s) (t := s.pass k) rfl (gidDev s.cur.gid) (addrDev a)
    exact (congrArg (Option.map fun port => seqTrap .linkfail (BitVec.ofNat 64 port)) e).trans h.flow⟩

/-! ### What decoding leaves (03 R58) -/

theorem Device.Alike.reg {d e : Device} (h : d.Alike e) {off : Nat} (ho : off < 0x60000) : e.reg off = d.reg off := h.2 off (.inl ho)
theorem Device.Alike.routeMode {d e : Device} (h : d.Alike e) : e.routeMode = d.routeMode := by simp only [Device.routeMode, h.reg (off := 0x30000) (by decide)]
theorem Device.Alike.seen {d e : Device} (h : d.Alike e) : e.seen = d.seen := by rw [h.1]; rfl
theorem Device.Alike.portDown {d e : Device} (h : d.Alike e) {p : Nat} (hp : p < 32) : e.portDown p = d.portDown p := by
  simp only [Device.portDown, h.reg (off := 0x30000) (by decide), h.reg (off := 0x30100 + 8 * p) (by omega)]
theorem Device.Alike.bank {d e : Device} (h : d.Alike e) (b : Nat) : e.bank b = d.bank b := by simp only [Device.bank, h.banks]

theorem Device.Alike.route {d e : Device} (h : d.Alike e) (dst : Dev) : e.route dst = d.route dst := by
  have hb : ∀ off, off < 0x60000 → e.regByte off = d.regByte off := fun off ho => by
    simp only [Device.regByte, h.reg (off := off / 8 * 8) (by omega)]
  have hd := dst.isLt
  have h0 : e.regByte (0x40000 + 32 * dst.toNat) = d.regByte (0x40000 + 32 * dst.toNat) := hb _ (by omega)
  have hm : (List.range (d.regByte (0x40000 + 32 * dst.toNat))).map (fun k => e.regByte (0x40000 + 32 * dst.toNat + 1 + k)) =
      (List.range (d.regByte (0x40000 + 32 * dst.toNat))).map (fun k => d.regByte (0x40000 + 32 * dst.toNat + 1 + k)) := by
    refine List.map_congr_left fun k hk => hb _ ?_
    have h1 := List.mem_range.mp hk
    have h2 : d.regByte (0x40000 + 32 * dst.toNat) < 2 ^ 8 := BitVec.isLt _
    omega
  rw [Device.route, Device.route]
  rw [h0, hm]

/-- The ports of a route are ports of a device. -/
theorem route_ports {d : Device} {dst : Dev} {l : List Nat} (h : d.route dst = some l) : ∀ p ∈ l, p < 32 := by
  rw [Device.route] at h
  split at h
  · cases h
  · rename_i hn
    injection h with h
    simp only [Bool.or_eq_true, List.any_eq_true, decide_eq_true_eq, not_or, not_exists, not_and] at hn
    intro p hp
    rw [← h] at hp
    have := hn.2 p hp
    omega

theorem portDown_decodes {s t : State} (h : s.Decodes t) (n : Dev) {p : Nat} (hp : p < 32) : t.portDown (t.dev n) p = s.portDown (s.dev n) p := by
  have hn : (t.dev n).num = (s.dev n).num := by rw [dev_num, dev_num]
  rw [State.portDown, State.portDown, (h.2.1 n).portDown hp, hn, (h.2.1 n).routeMode]
  cases Config.wire (s.dev n).num p with
  | none => rfl
  | some e => dsimp only; rw [(h.2.1 e.1).portDown e.2.isLt, (h.2.1 e.1).routeMode]

theorem pathFails_decodes {s t : State} (h : s.Decodes t) (n : Option Dev) (l : List Nat) (hl : ∀ p ∈ l, p < 32) : t.pathFails n l = s.pathFails n l := by
  induction l generalizing n with
  | nil => rfl
  | cons p l ih =>
    cases n with
    | none => rfl
    | some n => rw [State.pathFails, State.pathFails, portDown_decodes h n (hl p (by simp)), ih _ fun q hq => hl q (by simp [hq])]

/-- Whether a flow carries traffic is no matter of what the stacks have corrected. -/
theorem flowFails_decodes {s t : State} (h : s.Decodes t) (src dst : Dev) : t.flowFails src dst = s.flowFails src dst := by
  have hp : ∀ n, ∀ p ∈ List.range 32, t.portDown (t.dev n) p = s.portDown (s.dev n) p := fun n p hp => portDown_decodes h n (List.mem_range.mp hp)
  have hs : ∀ xs, t.spreadFrom xs = s.spreadFrom xs := by
    intro xs
    rw [State.spreadFrom, State.spreadFrom]
    congr 2
    refine congrArg (fun f => List.flatMap f xs) (funext fun n => List.filterMap_congr fun p hq => ?_)
    rw [hp n p hq]
  have hl : ∀ n xs k, t.distance dst n xs k = s.distance dst n xs k := by
    intro n
    induction n with
    | zero => exact fun _ _ => rfl
    | succ n ih => intro xs k; rw [State.distance, State.distance, hs, ih]
  have hfind : ∀ n, ∀ l : List Nat, (∀ p ∈ l, p < 32) → l.find? (t.portDown (t.dev n)) = l.find? (s.portDown (s.dev n)) := by
    intro n l
    induction l with
    | nil => exact fun _ => rfl
    | cons p l ih =>
      intro hq
      rw [List.find?_cons, List.find?_cons, portDown_decodes h n (hq p (by simp)), ih fun x hx => hq x (by simp [hx])]
  have hall : ∀ n, (List.range 32).all (t.dev n).portDown = (List.range 32).all (s.dev n).portDown := fun n => by
    rw [Bool.eq_iff_iff, List.all_eq_true, List.all_eq_true]
    exact forall_congr' fun p => forall_congr' fun hq => by rw [(h.2.1 n).portDown (List.mem_range.mp hq)]
  have hst : (t.dev src).stopped = (s.dev src).stopped := by rw [(h.2.1 src).1]
  have hh : (t.dev src).halted = (s.dev src).halted := by rw [(h.2.1 src).1]
  have hr : t.routeTo src dst = s.routeTo src dst := by rw [State.routeTo, State.routeTo, (h.2.1 dst).seen, (h.2.1 src).route]
  rw [State.flowFails, State.flowFails]
  rw [(h.2.1 src).routeMode, hst, hh, hr, hl, hall, hfind src _ fun p hp => List.mem_range.mp hp]
  cases hrt : s.routeTo src dst with
  | none => rfl
  | some ports => dsimp only; rw [pathFails_decodes h _ _ (route_ports hrt)]

theorem linkTrap_decodes {s t : State} (h : s.Decodes t) (a : Nat) : t.linkTrap a = s.linkTrap a := by
  obtain ⟨_, _, _, _, e⟩ := h.1
  rw [State.linkTrap, State.linkTrap, flowFails_decodes h, show t.cur = s.cur by rw [e]]

/-- Nothing is held back at the homes of the devices that was not held before. -/
theorem held_decodes {s t : State} (h : s.Decodes t) {p : Access → Bool} (hs : (s.devs.all fun d => d.held.all p) = true) :
    (t.devs.all fun d => d.held.all p) = true := by
  rw [List.all_eq_true] at hs ⊢
  intro d hd
  obtain ⟨e, he, ha⟩ := h.2.2.2.2.1 d hd
  rw [ha.1]
  rcases he with he | he
  · exact hs e he
  · rw [he]; rfl

theorem lineFree_decodes {s t : State} (h : s.Decodes t) {u : Unit} {cls : BitVec 4} {a : Nat} {own : Option (BitVec 3 × BitVec 32)}
    (hs : s.lineFree u cls a own = true) : t.lineFree u cls a own = true := by
  obtain ⟨_, _, _, _, e⟩ := h.1
  rw [State.lineFree, show t.admQ = s.admQ by rw [e], show t.flows = s.flows by rw [e], show t.clasps = s.clasps by rw [e]]
  rw [State.lineFree] at hs
  simp only [Bool.and_eq_true] at hs ⊢
  exact ⟨⟨hs.1.1, held_decodes h hs.1.2⟩, hs.2⟩

theorem performed_decodes {s t : State} (h : s.Decodes t) {u : Unit} {mask : BitVec 16} {n : Nat} (hs : s.performed u mask n = true) :
    t.performed u mask n = true := by
  obtain ⟨_, _, _, _, e⟩ := h.1
  rw [State.performed, show t.admQ = s.admQ by rw [e], show t.flows = s.flows by rw [e], show t.pend = s.pend by rw [e]]
  rw [State.performed] at hs
  simp only [Bool.and_eq_true] at hs ⊢
  exact ⟨⟨⟨hs.1.1.1, held_decodes h hs.1.1.2⟩, hs.1.2⟩, hs.2⟩

theorem lineHeld_decodes {s t : State} (h : s.Decodes t) (g : Gid) (p : Place) : t.lineHeld g p = s.lineHeld g p := by
  rw [State.lineHeld, State.lineHeld]
  split
  · rw [(h.2.1 _).bank]
  · rfl

theorem erring_decodes {s t : State} (h : s.Decodes t) {a : Nat} (ha : s.erring a = false) : t.erring a = false := by
  rw [State.erring, List.any_eq_false] at ha ⊢
  exact fun e he => ha e (h.2.2.2.2.2 e he)

theorem poisonedIn_decodes {s t : State} (h : s.Decodes t) (a n : Nat) : t.poisonedIn? a n = s.poisonedIn? a n := by
  rw [State.poisonedIn?, State.poisonedIn?]; simp only [h.2.2.2.1]

theorem reachesNow_decodes {s t : State} (h : s.Decodes t) (g : Gid) (a : Nat) : t.reachesNow g a = s.reachesNow g a := by
  obtain ⟨_, _, _, _, e⟩ := h.1
  rw [State.reachesNow, State.reachesNow, (h.2.1 _).routeMode, show t.prompt = s.prompt by rw [e], show t.flows = s.flows by rw [e]]

theorem State.MayLoad.decodes {s t : State} (h : s.Decodes t) {cls : BitVec 4} {a : Nat} (hm : s.MayLoad cls a) : t.MayLoad cls a := by
  obtain ⟨_, _, _, _, e⟩ := h.1
  have hc : t.cur = s.cur := by rw [e]
  exact ⟨hc ▸ hm.free, hc ▸ lineFree_decodes h hm.line, by rw [hc, reachesNow_decodes h]; exact hm.now, (linkTrap_decodes h a).trans hm.flow⟩

theorem State.MayStore.decodes {s t : State} (h : s.Decodes t) {cls : BitVec 4} {a : Nat} (hm : s.MayStore cls a) : t.MayStore cls a := by
  obtain ⟨_, _, _, _, e⟩ := h.1
  have hc : t.cur = s.cur := by rw [e]
  exact ⟨hc ▸ hm.plain, by rw [hc, reachesNow_decodes h]; exact hm.now, hc ▸ hm.free, by rw [e]; exact hm.none, (linkTrap_decodes h a).trans hm.flow⟩

theorem scrubAll_pass (l : List Nat) (s : State) (k : Nat) : l.foldl State.scrub (s.pass k) = (l.foldl State.scrub s).pass k := by
  induction l generalizing s with
  | nil => rfl
  | cons j l ih => rw [List.foldl_cons, List.foldl_cons, scrub_pass, ih]

theorem walkReads_pass (s : State) (k : Nat) (va : Word) : (s.pass k).walkReads s.cur.gid va = s.walkReads s.cur.gid va := by
  have e : (s.pass k).unitAt s.cur.gid = (s.pass k).cur := unitAt_cur (s.pass k)
  simp only [State.walkReads, State.tableReads, e, unitAt_cur, dev_pass, tableEntry_pass]; rfl

theorem scrubWalk_pass (s : State) (k : Nat) (va : Word) : (s.pass k).scrubWalk s.cur.gid va = (s.scrubWalk s.cur.gid va).pass k := by
  rw [scrubWalk_eq, scrubWalk_eq, walkReads_pass]
  by_cases h : s.latent.isEmpty = true
  · rw [if_pos h, if_pos (by exact h)]
  · rw [if_neg h, if_neg (by exact h)]; exact scrubAll_pass _ s k

/-- What a walk and a read decode. -/
theorem decodedFor_decoded (s : State) (va : Word) (a n : Nat) : s.Decodes (s.decodedFor va a n) :=
  (scrubWalk_decoded s s.cur.gid va).trans (scrubRun_decoded _ a n)

/-- An access to a page that translates goes on with what its walk has decoded. -/
theorem paged_spec {s : State} (q : Nat) {k : AccessKind} {regs : Bool} {va : Word} {p : Place} (f : Place → State → Res)
    (ht : s.translate s.cur.gid 1 k regs va = .ok p) (hh : s.lineHeld s.cur.gid p = false) :
    paged k regs va f (s.pass q) = f p ((s.scrubWalk s.cur.gid va).pass q) := by
  have e1 : (s.pass q).translate s.cur.gid 1 k regs va = .ok p := (translate_pass s q 1 k regs va).trans ht
  have e2 : ((s.scrubWalk s.cur.gid va).pass q).lineHeld s.cur.gid p = false := (lineHeld_decodes (scrubWalk_decoded s s.cur.gid va) _ p).trans hh
  have e3 : (s.scrubWalk s.cur.gid va).cur = s.cur := by
    obtain ⟨⟨_, _, _, _, e⟩, -⟩ := scrubWalk_decoded s s.cur.gid va
    rw [e]
  rw [paged]
  rw [show (s.pass q).cur.gid = s.cur.gid from rfl, scrubWalk_pass, e1]
  dsimp only
  rw [show ((s.scrubWalk s.cur.gid va).pass q).cur.gid = s.cur.gid by show (s.scrubWalk s.cur.gid va).cur.gid = _; rw [e3], e2]
  rfl

/-- One that does not translate traps with what its walk has decoded. -/
theorem paged_trap {s : State} (q : Nat) {k : AccessKind} {regs : Bool} {va : Word} {t : Trap} (f : Place → State → Res)
    (ht : s.translate s.cur.gid 1 k regs va = .error t) : paged k regs va f (s.pass q) = trapNow ((s.pass q).scrubWalk s.cur.gid va) t := by
  have e1 : (s.pass q).translate s.cur.gid 1 k regs va = .error t := (translate_pass s q 1 k regs va).trans ht
  rw [paged]
  rw [show (s.pass q).cur.gid = s.cur.gid from rfl, e1]

/-- What a load does once its value is known: it lands in its register; `r` is the machine with what the stacks have corrected. -/
theorem finish_load {s r : State} (hr : s.Decodes r) (k : Nat) {s1 : State} {l1 l0 : List SectorCopy} {from' : List (Nat × BitVec 4)} {fr : Nat}
    (h1 : s1 = { r.pass k with free := fr, cur := { (r.pass k).cur with l1 := l1, l0 := l0, readFrom := from' } })
    (a : Reg) (x : Word) (lands : Nat) {lat : Nat} (hl : 1 ≤ lat) :
    ∃ t, finishIn lat s1 (s1.cur.land a x lands) = .next t.tick ∧ s.SetsReg t a x ∧ s.NextWord t ∧ s.Recorded t ∧ r.OnlyLoaded t := by
  obtain ⟨⟨_, _, _, _, er⟩, -⟩ := hr
  obtain ⟨t, h2, h3, h4, h5⟩ := finish_eq s1 0 (s1.cur.land a x lands) hl (by rw [land_eq]) (by rw [land_eq]) (by rw [land_eq])
    (by rw [land_eq]) (by rw [land_eq]) (by rw [land_eq]) (by rw [land_eq]; rfl)
  rw [pass_zero] at h2
  have hadv := advance_congr (u := s.cur) (v := s1.cur) (by rw [h1, er]; rfl) (by rw [h1, er]; rfl) (by rw [h1, er]; rfl) (by rw [h1, er]; rfl)
  refine ⟨t, h2, fun r => ?_, ⟨h3.1.trans hadv.1, h3.2.1.trans hadv.2.1, h3.2.2.trans hadv.2.2⟩, ?_, ?_, ?_, ?_⟩
  · rw [rs_congr (v := t.cur) (u := s1.cur.land a x lands) (by rw [h5]), rs_land, rs_congr (v := s1.cur) (u := s.cur) (by rw [h1, er]; rfl)]
  · have e1 : s1.cur.window = s.cur.window := by rw [h1, er]; rfl
    have e2 : s1.cur.committed = s.cur.committed := by rw [h1, er]; rfl
    have e3 : s1.cur.pc = s.cur.pc := by rw [h1, er]; rfl
    have e4 : s1.cur.toSeqRegs = s.cur.toSeqRegs := by rw [h1, er]; rfl
    simp only [State.Recorded, e1, e2, e3, e4] at h4
    exact h4
  · rw [h5, land_eq, h1]; rfl
  · have c1 : t.clock = s1.clock + 0 := by rw [h5]
    have c2 : s1.clock = r.clock + k := by rw [h1]; rfl
    have c3 : t.cur.time = s1.cur.time := by rw [h5, land_eq]
    have c4 : s1.cur.time = r.cur.time + k := by rw [h1]; rfl
    show t.clock + r.cur.time = r.clock + t.cur.time
    omega
  · intro g b; rw [h5, h1]; rfl

theorem windowByte_pass (s : State) (k : Nat) (kind va) : (s.pass k).windowByte kind va = s.windowByte kind va := rfl

theorem extractLsb'_ext (x : BitVec 256) (k : Nat) (i : Nat) : (x.extractLsb' (64 * k) 64).getLsbD i = (decide (i < 64) && x.getLsbD (64 * k + i)) := by
  simp [BitVec.getLsbD_extractLsb']

theorem setQuarter_get (d : Desc) (q : BitVec 2) (x : Word) (k : Nat) (hk : k < 4) :
    (setQuarter d q x).extractLsb' (64 * k) 64 = if k = q.toNat then x else d.extractLsb' (64 * k) 64 := by
  have hq := q.isLt
  apply BitVec.eq_of_getLsbD_eq
  intro i hi
  have ones : ∀ j, (0xFFFFFFFFFFFFFFFF#256).getLsbD j = decide (j < 64) := by
    intro j
    rw [show (0xFFFFFFFFFFFFFFFF#256) = (BitVec.allOnes 64).setWidth 256 by decide, BitVec.getLsbD_setWidth, BitVec.getLsbD_allOnes]
    by_cases h : j < 64 <;> simp [h]; omega
  rw [extractLsb'_ext]
  simp only [hi, decide_true, Bool.true_and, setQuarter, BitVec.getLsbD_or, BitVec.getLsbD_and, BitVec.getLsbD_not, BitVec.getLsbD_shiftLeft,
    BitVec.getLsbD_setWidth]
  have h256 : 64 * k + i < 256 := by omega
  rw [show (0xFFFFFFFFFFFFFFFF : Desc) = 0xFFFFFFFFFFFFFFFF#256 from rfl, ones]
  simp only [h256, decide_true, Bool.true_and]
  by_cases h : k = q.toNat
  · subst h
    rw [if_pos rfl]
    simp [hi, show ¬ 64 * q.toNat + i < 64 * q.toNat by omega, show 64 * q.toNat + i - 64 * q.toNat = i by omega]; omega
  · rw [if_neg h, extractLsb'_ext]
    by_cases hlt : k < q.toNat
    · simp [hi, show 64 * k + i < 64 * q.toNat by omega]
    · have e1 : ¬ 64 * k + i < 64 * q.toNat := by omega
      have e2 : ¬ 64 * k + i - 64 * q.toNat < 64 := by omega
      simp [hi, e1, e2]
      intro _ hh
      rw [BitVec.getLsbD_of_ge x (64 * k + i - 64 * q.toNat) (by omega)] at hh; cases hh

theorem landDesc_eq (u : Unit) (a : DReg) (x : Desc) (lat : Nat) : u.landDesc a x lat =
    { u with d := u.d.set a.toNat x, waits := u.waits.filter (fun w => !w.2.isDesc a), dready := u.dready.set a.toNat (u.time + lat) } := rfl

theorem rd_landDesc (u : Unit) (a r : DReg) (x : Desc) (lat : Nat) : (u.landDesc a x lat).rd r = if r = a then x else u.rd r := by
  simp only [Unit.rd, landDesc_eq]
  by_cases h : r = a
  · subst h; rw [if_pos rfl]; exact Vector.getElem_set_self ..
  · rw [if_neg h]; exact Vector.getElem_set_ne a.isLt _ (fun e => h (BitVec.eq_of_toNat_eq e.symm))

/-- What an instruction does that writes a descriptor register. -/
theorem finish_desc {s r : State} (hr : s.Decodes r) (k : Nat) {s1 : State} {l1 l0 : List SectorCopy} {from' : List (Nat × BitVec 4)} {fr : Nat}
    (h1 : s1 = { r.pass k with free := fr, cur := { (r.pass k).cur with l1 := l1, l0 := l0, readFrom := from' } })
    (a : DReg) (x : Desc) (lands : Nat) {lat : Nat} (hl : 1 ≤ lat) :
    ∃ t, finishIn lat s1 (s1.cur.landDesc a x lands) = .next t.tick ∧ (∀ r, t.cur.rd r = if r = a then x else s.cur.rd r) ∧ s.KeepsRegs t ∧
      s.NextWord t ∧ s.Recorded t ∧ r.OnlyLoaded { t with cur := { t.cur with d := s.cur.d, dready := s.cur.dready } } := by
  obtain ⟨⟨_, _, _, _, er⟩, -⟩ := hr
  obtain ⟨t, h2, h3, h4, h5⟩ := finish_eq s1 0 (s1.cur.landDesc a x lands) hl rfl rfl rfl rfl rfl rfl rfl
  rw [pass_zero] at h2
  have hadv := advance_congr (u := s.cur) (v := s1.cur) (by rw [h1, er]; rfl) (by rw [h1, er]; rfl) (by rw [h1, er]; rfl) (by rw [h1, er]; rfl)
  refine ⟨t, h2, fun r => ?_, fun r => ?_, ⟨h3.1.trans hadv.1, h3.2.1.trans hadv.2.1, h3.2.2.trans hadv.2.2⟩, ?_, ?_, ?_, ?_⟩
  · have : t.cur.rd r = (s1.cur.landDesc a x lands).rd r := by rw [h5]; rfl
    rw [this, rd_landDesc]
    have : s1.cur.rd r = s.cur.rd r := by rw [h1, er]; rfl
    rw [this]
  · rw [h5, landDesc_eq, h1, er]; rfl
  · have e1 : s1.cur.window = s.cur.window := by rw [h1, er]; rfl
    have e2 : s1.cur.committed = s.cur.committed := by rw [h1, er]; rfl
    have e3 : s1.cur.pc = s.cur.pc := by rw [h1, er]; rfl
    have e4 : s1.cur.toSeqRegs = s.cur.toSeqRegs := by rw [h1, er]; rfl
    simp only [State.Recorded, e1, e2, e3, e4] at h4
    exact h4
  · rw [h5, landDesc_eq, h1, er]; rfl
  · have c1 : t.clock = s1.clock + 0 := by rw [h5]
    have c2 : s1.clock = r.clock + k := by rw [h1]; rfl
    have c3 : t.cur.time = s1.cur.time := by rw [h5, landDesc_eq]
    have c4 : s1.cur.time = r.cur.time + k := by rw [h1]; rfl
    show t.clock + r.cur.time = r.clock + t.cur.time
    omega
  · intro g b; rw [h5, h1]; rfl

/-- A store that leaves at once: its access, its records, and the unit that its instruction leaves. -/
theorem execute_store (s : State) (k : Nat) (v : Unit) (x : Access × List (List Byte)) (hw : s.cur.window = []) (hn : (s.pass k).storeNow (some x) = true) :
    (s.pass k).execute v (some x) 1 =
      State.tick (State.put { s.pass k with cur := ({ v with committed := v.committed + 1 } : Unit).sign 1 x.2 } x.1) := by
  have hr : (s.pass k).cur.record v none (some x) none ((s.pass k).cur.time + 1) = { v with committed := v.committed + 1 } := by
    rw [Unit.record, if_pos (by simp [State.pass, hw])]
  rw [State.execute]
  simp only [hn, Bool.not_true, Bool.and_false, Bool.false_eq_true, if_false, hr]

/-- The release of a FENCE changes what a store carries, and nothing else of it. -/
theorem fenced_eq (u : Unit) (x : Access) : ∃ c, u.fenced x = { x with carrier := c } := by
  rw [Unit.fenced]
  split
  · split <;> exact ⟨_, rfl⟩
  · exact ⟨x.carrier, rfl⟩

/-- A scalar store of a machine whose writes go out at once is in memory; its class performs in a later cycle (01 R21). -/
theorem emit_now {s : State} (x : Access) (hx : x.gid = s.cur.gid) (hk : x.want = .write) (hc : x.command = none) (hr : x.reduce = none)
    (ho : x.ord = none) (hm : s.MayStore x.cls x.addr) : ∃ sailing, s.emit x =
      (let t := State.clearPoison { s with cur := { s.cur with sailing := sailing } } x.addr x.data.length; { t with mem := t.mem.write x.addr x.data }) := by
  have hu : s.unitAt x.gid = s.cur := by rw [hx]; exact unitAt_cur s
  have hf : (if addrDev x.addr == gidDev x.gid then none else s.flowFails (gidDev x.gid) (addrDev x.addr)) = none := by
    have := hm.flow
    rw [State.linkTrap, Option.map_eq_none_iff] at this
    rw [hx, this]; split <;> rfl
  have hpr : s.prompt = true := by
    have := hm.now; rw [State.reachesNow] at this; exact (Bool.and_eq_true_iff.mp this).1
  obtain ⟨c, hy⟩ := fenced_eq s.cur x
  have hnow : s.atOnce { x with carrier := c } = true := by rw [State.atOnce, hx]; exact hm.now
  have hbeh : s.cur.behind { x with carrier := c } = false := by
    rw [Unit.behind]
    simp only [hc, Option.isSome_none, Bool.false_and, Bool.false_eq_true, if_false]
    rw [List.any_eq_false]
    intro z hz
    have := hm.free z hz
    simp [this]
  have hreg : ({ x with carrier := c } : Access).isRegister = false := by rw [Access.isRegister, hk]
  rw [State.emit]
  dsimp only
  rw [hu, hy]
  dsimp only
  rw [hf]
  dsimp only
  rw [if_pos (by rw [hnow, hbeh, hreg]; rfl)]
  let sailing := if x.command.isSome then s.cur.sailing
    else s.cur.sailing.filter (fun e => decide (s.cur.time < e.2)) ++ [(x.cls, s.cur.time + s.storeLatency s.cur x.addr)]
  refine ⟨sailing, ?_⟩
  have hset : s.setUnit { s.cur with sailing := sailing } = { s with cur := { s.cur with sailing := sailing } } := if_pos rfl
  show (s.setUnit { s.cur with sailing := sailing }).admitAt { x with carrier := c } [] = _
  rw [hset]
  generalize hs' : ({ s with cur := { s.cur with sailing := sailing } } : State) = s'
  rw [State.admitAt]
  dsimp only
  rw [ho]
  dsimp only
  rw [hk]
  dsimp only
  rw [State.admitUpdate]
  dsimp only
  rw [hr]
  dsimp only
  have hp : ((s'.clearPoison x.addr x.data.length).prompt && (s'.clearPoison x.addr x.data.length).pend.isEmpty) = true := by
    obtain ⟨_, _, _, _, e, -⟩ := scrubRun_frame { s' with
      poison := s'.poison.filter fun z => !(decide (x.addr ≤ 128 * z) && decide (128 * z + 128 ≤ x.addr + x.data.length)),
      latent := s'.latent.filter fun e => !(decide (x.addr ≤ 128 * e.1) && decide (128 * e.1 + 128 ≤ x.addr + x.data.length)) } x.addr x.data.length
    rw [State.clearPoison, e, Bool.and_eq_true, List.isEmpty_iff, ← hs']
    exact ⟨hpr, hm.none⟩
  rw [State.admitPlain]
  dsimp only
  rw [if_pos hp]

/-- A store that waits in the window: because something stands before it, or its bank is in a change. -/
theorem execute_held (s : State) (k : Nat) (v : Unit) (x : Access × List (List Byte)) (hn : (s.pass k).storeNow (some x) = false) :
    (s.pass k).execute v (some x) 1 = State.tick { s.pass k with cur := { v with window := s.cur.window ++
      [{ pc := s.cur.pc, before := s.cur.toSeqRegs, push := none, store := some x, load := none, done := s.cur.time + k + 2 }] } } := by
  have hr : (s.pass k).cur.record v none (some x) none (s.cur.time + k + 2) = { v with window := s.cur.window ++
      [{ pc := s.cur.pc, before := s.cur.toSeqRegs, push := none, store := some x, load := none, done := s.cur.time + k + 2 }] } := by
    rw [Unit.record, if_neg (by simp [State.pass])]; rfl
  rw [State.execute]
  simp only [hn, Option.isSome_some, Bool.not_false, Bool.and_true, if_true]
  exact congrArg State.tick (congrArg (fun u => ({ s.pass k with cur := u } : State)) hr)

theorem keeps_of_sets {s t : State} {x : Word} (h : s.SetsReg t 0 x) : s.KeepsRegs t := fun r => by
  rw [h r, if_neg (fun c => c.2 rfl)]

end Sys2Proof.Machine
end

