-- ==== Sys2Proof/Laws/Integer.lean ====
section
/-! SUPPORT. Lemmas about class 0 and class 1: how an instruction that reads, computes and writes one register meets its statement, and the values of the operations. -/
namespace Sys2Proof.Machine
open Sys2Proof

/-- An instruction that reads, computes and writes one register. -/
theorem gives_of {i : Instr} {rs : List Reg} {a : Reg} {g : Unit → Word} (f : Unit → Word) (lat : Nat) (hl : 1 ≤ lat)
    (he : ∀ s, exec i s = issue i (reading rs [] fun s => finishReg s a (f s.cur) lat) s)
    (hf : ∀ (s : State) k, f (s.pass k).cur = f s.cur) (hv : ∀ u, f u = g u) : Gives i rs a g := by
  intro s h
  obtain ⟨k, -, e⟩ := issue_reading h (fun s => finishReg s a (f s.cur) lat)
  rw [State.Ends, he, e, hf, hv]
  exact finishReg_spec s k a _ hl

theorem gives_int {i : Instr} {a b c : Reg} {lat : Nat} {f : Word → Word → Word} {g : Unit → Word} (hl : 1 ≤ lat)
    (he : ∀ s, exec i s = intOp i a b c lat f s) (hv : ∀ u : Unit, f (u.rs b) (u.rs c) = g u) : Gives i [b, c] a g :=
  gives_of (fun u => f (u.rs b) (u.rs c)) lat hl he (fun _ _ => rfl) hv

theorem gives_imm {i : Instr} {a b : Reg} {lat : Nat} {f : Word → Word} {g : Unit → Word} (hl : 1 ≤ lat)
    (he : ∀ s, exec i s = immOp i a b lat f s) (hv : ∀ u : Unit, f (u.rs b) = g u) : Gives i [b] a g :=
  gives_of (fun u => f (u.rs b)) lat hl he (fun _ _ => rfl) hv

theorem sgn_eq (w : Bool) (x : Word) : sgn w x = (x.setWidth (bits w)).toInt := by cases w <;> simp [sgn, bits]

theorem uns_eq (w : Bool) (x : Word) : uns w x = (x.setWidth (bits w)).toNat := by
  cases w
  · simp [uns, bits, Nat.mod_eq_of_lt x.isLt]
  · simp [uns, bits]

/-- A result at the operation's width, sign-extended. -/
theorem narrow_ofInt (w : Bool) (y : BitVec (bits w)) (x : Int) (h : y = BitVec.ofInt (bits w) x) : y.signExtend 64 = narrow w x := by
  subst h; cases w
  · simp [narrow, bits]
  · simp only [narrow, if_true, bits]
    apply BitVec.eq_of_toInt_eq
    rw [BitVec.toInt_signExtend_of_le (by decide), BitVec.toInt_ofInt, BitVec.toInt_ofInt]
    have h1 := Int.le_bmod (x := x) (m := 2 ^ 32) (by decide)
    have h2 := Int.bmod_lt (x := x) (m := 2 ^ 32) (by decide)
    rw [if_pos rfl]
    exact (Int.bmod_eq_of_le (by omega) (by omega)).symm

theorem alu2_narrow {w : Bool} {f : (n : Nat) → BitVec n → BitVec n → BitVec n} {b c : Word} {x : Int}
    (h : f (bits w) (b.setWidth _) (c.setWidth _) = BitVec.ofInt (bits w) x) : alu2 w f b c = narrow w x := by
  rw [← narrow_ofInt w _ x h]; cases w <;> simp [alu2, bits]

theorem alu1_narrow {w : Bool} {f : (n : Nat) → BitVec n → BitVec n} {b : Word} {x : Int}
    (h : f (bits w) (b.setWidth _) = BitVec.ofInt (bits w) x) : alu1 w f b = narrow w x := by
  rw [← narrow_ofInt w _ x h]; cases w <;> simp [alu1, bits]

theorem alu3_narrow {w : Bool} {f : (n : Nat) → BitVec n → BitVec n → BitVec n → BitVec n} {b c d : Word} {x : Int}
    (h : f (bits w) (b.setWidth _) (c.setWidth _) (d.setWidth _) = BitVec.ofInt (bits w) x) : alu3 w f b c d = narrow w x := by
  rw [← narrow_ofInt w _ x h]; cases w <;> simp [alu3, bits]

theorem ofInt_toInt_low {m n : Nat} (h : n ≤ m) (x : BitVec m) : BitVec.ofInt n x.toInt = x.setWidth n :=
  (BitVec.signExtend_eq_setWidth_of_le x h)

theorem bits_le (w : Bool) : bits w ≤ 64 := by cases w <;> decide

/-- The upper half of an exact result. -/
theorem upper_half (n : Nat) (p : Int) : (BitVec.ofInt (2 * n) p).extractLsb' n n = BitVec.ofInt n (p / 2 ^ n) := by
  apply BitVec.eq_of_toNat_eq
  rw [BitVec.extractLsb'_toNat, BitVec.toNat_ofInt, BitVec.toNat_ofInt, Nat.shiftRight_eq_div_pow]
  have hp : (0 : Int) < 2 ^ n := Int.pow_pos (by decide)
  have e : ((2 ^ (2 * n) : Nat) : Int) = 2 ^ n * 2 ^ n := by push_cast; rw [Nat.two_mul, Int.pow_add]
  apply Int.ofNat_inj.mp
  have h0 : 0 ≤ p % ((2 ^ (2 * n) : Nat) : Int) := Int.emod_nonneg _ (by rw [e]; exact (Int.ne_of_gt (Int.mul_pos hp hp)))
  have h1 : 0 ≤ p / 2 ^ n % ((2 ^ n : Nat) : Int) := Int.emod_nonneg _ (by push_cast; exact Int.ne_of_gt hp)
  rw [Int.natCast_emod, Int.natCast_ediv, Int.toNat_of_nonneg h0, Int.toNat_of_nonneg h1, e]
  push_cast
  rw [Int.emod_def p, Int.mul_assoc, Int.sub_eq_add_neg, ← Int.mul_neg, Int.add_mul_ediv_left _ _ (Int.ne_of_gt hp), ← Int.mul_neg,
    Int.add_mul_emod_self_left]

theorem shamt (w : Bool) (c : Word) : (c.setWidth (bits w)).toNat % bits w = c.toNat % bits w := by
  rw [BitVec.toNat_setWidth, Nat.mod_mod_of_dvd _ (by cases w <;> decide)]

theorem ofInt_two_pow (n k : Nat) : BitVec.ofInt n (2 ^ k) = BitVec.twoPow n k := by
  apply BitVec.eq_of_toNat_eq
  have : (2 : Int) ^ k = ((2 ^ k : Nat) : Int) := by push_cast; rfl
  rw [this, BitVec.ofInt_natCast, BitVec.toNat_ofNat, BitVec.toNat_twoPow]

theorem shl_val {n} (x : BitVec n) (k : Nat) : x <<< k = BitVec.ofInt n (x.toInt * 2 ^ k) := by
  rw [BitVec.ofInt_mul, BitVec.ofInt_toInt, ofInt_two_pow, BitVec.shiftLeft_eq_mul_twoPow]

theorem shr_val {n} (x : BitVec n) (k : Nat) : x >>> k = BitVec.ofInt n (x.toNat / 2 ^ k : Nat) := by
  apply BitVec.eq_of_toNat_eq
  rw [BitVec.ofInt_natCast, BitVec.toNat_ofNat, BitVec.toNat_ushiftRight, Nat.shiftRight_eq_div_pow, Nat.mod_eq_of_lt]
  exact Nat.lt_of_le_of_lt (Nat.div_le_self _ _) x.isLt

theorem sar_val {n} (x : BitVec n) (k : Nat) : x.sshiftRight k = BitVec.ofInt n (x.toInt / 2 ^ k) := by
  rw [← BitVec.ofInt_toInt (x := x.sshiftRight k), BitVec.toInt_sshiftRight, Int.shiftRight_eq_div_pow]; push_cast; rfl

theorem ror_val {n} (x : BitVec n) (k : Nat) (hk : k < n) :
    x.rotateRight k = BitVec.ofInt n (x.toNat / 2 ^ k + x.toNat % 2 ^ k * 2 ^ (n - k) : Nat) := by
  apply BitVec.eq_of_toNat_eq
  have hx := x.isLt
  have hp : 2 ^ n = 2 ^ k * 2 ^ (n - k) := by rw [← Nat.pow_add]; congr 1; omega
  have h1 : x.toNat / 2 ^ k < 2 ^ (n - k) := by
    apply Nat.div_lt_of_lt_mul; rw [← hp]; exact hx
  have h2 : x.toNat % 2 ^ k < 2 ^ k := Nat.mod_lt _ (Nat.two_pow_pos k)
  have h3 : x.toNat / 2 ^ k + x.toNat % 2 ^ k * 2 ^ (n - k) < 2 ^ k * 2 ^ (n - k) :=
    calc _ < (x.toNat % 2 ^ k + 1) * 2 ^ (n - k) := by rw [Nat.add_mul]; omega
      _ ≤ _ := Nat.mul_le_mul_right _ h2
  rw [BitVec.ofInt_natCast, BitVec.toNat_ofNat, BitVec.toNat_rotateRight, Nat.mod_eq_of_lt hk, Nat.shiftRight_eq_div_pow,
    Nat.shiftLeft_eq, hp, Nat.mod_eq_of_lt h3, Nat.mul_mod_mul_right, Nat.or_comm, ← Nat.shiftLeft_eq,
    ← Nat.shiftLeft_add_eq_or_of_lt h1, Nat.shiftLeft_eq, Nat.add_comm]

theorem narrow_small (w : Bool) (k : Nat) (hk : k ≤ 64) : narrow w k = BitVec.ofNat 64 k := by
  cases w
  · simp [narrow]
  · simp only [narrow, if_true]
    rw [Int.bmod_eq_of_le (by omega) (by omega), BitVec.ofInt_natCast]

theorem narrow_bool (w : Bool) (c : Bool) : narrow w (if c then 1 else 0) = if c then 1 else 0 := by
  cases c
  · exact narrow_small w 0 (by decide)
  · exact narrow_small w 1 (by decide)

theorem alu2_bool {w : Bool} {f : (n : Nat) → BitVec n → BitVec n → Bool} {b c : Word} {p : Prop} [Decidable p]
    (h : f (bits w) (b.setWidth _) (c.setWidth _) = decide p) : alu2 w (fun n x y => boolBits n (f n x y)) b c = if p then 1 else 0 := by
  have := alu2_narrow (w := w) (f := fun n x y => boolBits n (f n x y)) (b := b) (c := c) (x := if p then 1 else 0) (by
    simp only [h, boolBits]; by_cases hp : p <;> simp [hp])
  rw [this]; simpa using narrow_bool w (decide p)

theorem min_val {n} (x y : BitVec n) : opMinS n x y = BitVec.ofInt n (min x.toInt y.toInt) := by
  by_cases h : x.toInt < y.toInt
  · rw [opMinS, BitVec.slt, if_pos (by simpa using h), Int.min_eq_left (Int.le_of_lt h), BitVec.ofInt_toInt]
  · rw [opMinS, BitVec.slt, if_neg (by simpa using h), Int.min_eq_right (Int.not_lt.mp h), BitVec.ofInt_toInt]

theorem max_val {n} (x y : BitVec n) : opMaxS n x y = BitVec.ofInt n (max x.toInt y.toInt) := by
  by_cases h : x.toInt < y.toInt
  · rw [opMaxS, BitVec.slt, if_pos (by simpa using h), Int.max_eq_right (Int.le_of_lt h), BitVec.ofInt_toInt]
  · rw [opMaxS, BitVec.slt, if_neg (by simpa using h), Int.max_eq_left (Int.not_lt.mp h), BitVec.ofInt_toInt]

theorem minu_val {n} (x y : BitVec n) : opMinU n x y = BitVec.ofInt n (min x.toNat y.toNat : Nat) := by
  by_cases h : x.toNat < y.toNat
  · rw [opMinU, BitVec.ult, if_pos (by simpa using h), Nat.min_eq_left (Nat.le_of_lt h), BitVec.ofInt_natCast, BitVec.ofNat_toNat]; simp
  · rw [opMinU, BitVec.ult, if_neg (by simpa using h), Nat.min_eq_right (Nat.not_lt.mp h), BitVec.ofInt_natCast, BitVec.ofNat_toNat]; simp

theorem maxu_val {n} (x y : BitVec n) : opMaxU n x y = BitVec.ofInt n (max x.toNat y.toNat : Nat) := by
  by_cases h : x.toNat < y.toNat
  · rw [opMaxU, BitVec.ult, if_pos (by simpa using h), Nat.max_eq_right (Nat.le_of_lt h), BitVec.ofInt_natCast, BitVec.ofNat_toNat]; simp
  · rw [opMaxU, BitVec.ult, if_neg (by simpa using h), Nat.max_eq_left (Nat.not_lt.mp h), BitVec.ofInt_natCast, BitVec.ofNat_toNat]; simp

theorem zero_divisor (w : Bool) (c : Word) : zeroDivisor w c = decide (uns w c = 0) := by
  cases w
  · have h : uns false c = c.toNat := Nat.mod_eq_of_lt c.isLt
    rw [h]
    exact Bool.eq_iff_iff.mpr (by simp [zeroDivisor, BitVec.toNat_eq])
  · have h : uns true c = (c.setWidth 32).toNat := (BitVec.toNat_setWidth ..).symm
    rw [h]; simp only [zeroDivisor, if_true]
    exact Bool.eq_iff_iff.mpr (by simp [BitVec.toNat_eq])

theorem div_gives {i : Instr} {w : Bool} {a b c : Reg} {f : Word → Word → Word} {s : State} {x : Word}
    (he : exec i s = divOp i w a b c f s) (h : s.Executes i [b, c] []) (hz : uns w (s.cur.rs c) ≠ 0)
    (hv : f (s.cur.rs b) (s.cur.rs c) = x) : s.Ends i fun t => s.Wrote t a x := by
  obtain ⟨k, -, e⟩ := issue_reading h (fun s => if zeroDivisor w (s.cur.rs c) then trapNow s (seqTrap .idivz (s.cur.rs b))
    else finishReg s a (f (s.cur.rs b) (s.cur.rs c)) (if w then 12 else 20))
  have hz' : ¬ zeroDivisor w ((s.pass k).cur.rs c) = true := by
    rw [zero_divisor, decide_eq_true_eq]; exact hz
  rw [State.Ends, he, divOp, e, if_neg hz', ← hv]
  exact finishReg_spec s k a _ (by cases w <;> decide)

theorem div_traps {i : Instr} {w : Bool} {a b c : Reg} {f : Word → Word → Word} {s : State}
    (he : exec i s = divOp i w a b c f s) (h : s.Executes i [b, c] []) (hz : uns w (s.cur.rs c) = 0) :
    ∃ k, exec i s = .next ((s.pass k).raise (seqTrap .idivz (s.cur.rs b))) := by
  obtain ⟨k, -, e⟩ := issue_reading h (fun s => if zeroDivisor w (s.cur.rs c) then trapNow s (seqTrap .idivz (s.cur.rs b))
    else finishReg s a (f (s.cur.rs b) (s.cur.rs c)) (if w then 12 else 20))
  have hz' : zeroDivisor w ((s.pass k).cur.rs c) = true := by
    rw [zero_divisor, decide_eq_true_eq]; exact hz
  exact ⟨k, by rw [he, divOp, e, if_pos hz']; rfl⟩

theorem sext_val (w : Bool) (x : BitVec 32) : (x.signExtend 64).setWidth (bits w) = BitVec.ofInt (bits w) x.toInt := by
  rw [← BitVec.toInt_signExtend_of_le (v := 64) (x := x) (by decide), ofInt_toInt_low (bits_le w)]

theorem narrow_nat (w : Bool) (f : (n : Nat) → BitVec n → BitVec n) (b : Word) (k : Nat) (hk : k ≤ 64)
    (h : f (bits w) (b.setWidth _) = BitVec.ofNat (bits w) k) : alu1 w f b = BitVec.ofNat 64 k := by
  rw [← narrow_small w k hk]; exact alu1_narrow (by rw [h, BitVec.ofInt_natCast])

theorem gives_un {i : Instr} {a b : Reg} {w : Bool} {f : (n : Nat) → BitVec n → BitVec n} {g : Machine.Unit → Word}
    (he : ∀ s, exec i s = issue i (reading [b] [] fun s => finishReg s a (alu1 w f (s.cur.rs b)) 1) s)
    (hv : ∀ u : Machine.Unit, alu1 w f (u.rs b) = g u) : Gives i [b] a g :=
  gives_of (fun u => alu1 w f (u.rs b)) 1 (Nat.le_refl 1) he (fun _ _ => rfl) hv

theorem find_range_some {p : Nat → Bool} {n k : Nat} (hk : k < n) (h : p k = true) (hl : ∀ j, j < k → p j = false) :
    (List.range n).find? p = some k := by
  rw [List.find?_range_eq_some]
  exact ⟨h, List.mem_range.mpr hk, fun j hj => by simp [hl j hj]⟩

theorem find_range_none {p : Nat → Bool} {n : Nat} (h : ∀ j, j < n → p j = false) : (List.range n).find? p = none := by
  rw [List.find?_eq_none]; intro x hx; simp [h x (List.mem_range.mp hx)]

theorem clz_val {n} (x : BitVec n) : opClz n x = BitVec.ofNat n (if x.toNat = 0 then n else n - 1 - x.toNat.log2) := by
  unfold opClz
  congr 1
  by_cases h : x.toNat = 0
  · rw [if_pos h, find_range_none]; · rfl
    intro j _; rw [BitVec.getLsbD, h]; simp
  · have h1 : x.toNat.log2 < n := (Nat.log2_lt h).mpr x.isLt
    rw [if_neg h, find_range_some (k := n - 1 - x.toNat.log2) (by omega)]
    · rfl
    · rw [show n - 1 - (n - 1 - x.toNat.log2) = x.toNat.log2 by omega, BitVec.getLsbD]
      exact Nat.testBit_log2 h
    · intro j hj; rw [BitVec.getLsbD]
      apply Nat.testBit_lt_two_pow
      exact Nat.lt_of_lt_of_le Nat.lt_log2_self (Nat.pow_le_pow_right (by decide) (by omega))

theorem mod_two_pow_of_first {x k : Nat} (h : ∀ j, j < k → x.testBit j = false) : x % 2 ^ k = 0 := by
  apply Nat.eq_of_testBit_eq; intro i
  rw [Nat.testBit_mod_two_pow, Nat.zero_testBit]
  by_cases hi : i < k
  · simp [h i hi]
  · simp [hi]

def ctzOf (x : Nat) : Nat := ((List.range (x.log2 + 1)).find? fun k => x.testBit k).getD 0

theorem ctz_first {x n : Nat} (hx : x ≠ 0) (hn : x.log2 < n) :
    (List.range n).find? (fun k => x.testBit k) = some (ctzOf x) ∧ x.testBit (ctzOf x) = true ∧ ∀ j, j < ctzOf x → x.testBit j = false := by
  have hn : ∃ k, (List.range (x.log2 + 1)).find? (fun k => x.testBit k) = some k := by
    rw [← Option.isSome_iff_exists, List.find?_isSome]
    exact ⟨_, List.mem_range.mpr (Nat.lt_succ_self _), Nat.testBit_log2 hx⟩
  obtain ⟨k, hk⟩ := hn
  have hc : ctzOf x = k := by rw [ctzOf, hk]; rfl
  rw [List.find?_range_eq_some] at hk
  obtain ⟨h1, h2, h3⟩ := hk
  have h3' : ∀ j, j < k → x.testBit j = false := fun j hj => by simpa using h3 j hj
  rw [hc]
  exact ⟨find_range_some (by have := List.mem_range.mp h2; omega) h1 h3', h1, h3'⟩

theorem ctz_spec {x : Nat} (hx : x ≠ 0) : 2 ^ ctzOf x ∣ x ∧ ¬ 2 ^ (ctzOf x + 1) ∣ x := by
  obtain ⟨-, h1, h2⟩ := ctz_first hx (Nat.lt_succ_self _)
  refine ⟨Nat.dvd_of_mod_eq_zero (mod_two_pow_of_first h2), fun hd => ?_⟩
  obtain ⟨y, hy⟩ := hd
  generalize ctzOf x = k at h1 hy
  rw [hy, Nat.testBit_two_pow_mul] at h1
  simp only [Bool.and_eq_true, decide_eq_true_eq] at h1
  omega

theorem ctz_val {n} (x : BitVec n) : opCtz n x = BitVec.ofNat n (if x.toNat = 0 then n else ctzOf x.toNat) := by
  unfold opCtz
  congr 1
  by_cases h : x.toNat = 0
  · rw [if_pos h, find_range_none]; · rfl
    intro j _; rw [BitVec.getLsbD, h]; simp
  · have h1 : x.toNat.log2 < n := (Nat.log2_lt h).mpr x.isLt
    rw [if_neg h]
    have := (ctz_first h h1).1
    simp only [BitVec.getLsbD] at this ⊢
    rw [this]; rfl

theorem ctz_le (w : Bool) (x : Word) : ctzOf (uns w x) ≤ 64 := by
  by_cases h : uns w x = 0
  · rw [h]; decide
  · have h1 := (ctz_first h (Nat.lt_succ_self _)).1
    rw [List.find?_range_eq_some] at h1
    have h2 := List.mem_range.mp h1.2.1
    have h3 : uns w x < 2 ^ 64 := Nat.lt_of_lt_of_le (Nat.mod_lt _ (Nat.two_pow_pos _)) (Nat.pow_le_pow_right (by decide) (bits_le w))
    have := (Nat.log2_lt h).mpr h3
    omega

theorem field_width (w : Bool) (d : Word) : fieldWidth (bits w) (d.setWidth _) = min (d.toNat % 128) (bits w) := by
  rw [fieldWidth, BitVec.toNat_setWidth, Nat.mod_mod_of_dvd _ (by cases w <;> decide)]

theorem bfx_val {n} (b c d : BitVec n) : opBfx n b c d =
    let k := fieldWidth n d
    let f := b.toNat / 2 ^ fieldPos n c % 2 ^ k
    BitVec.ofInt n (if d.getLsbD 7 = true ∧ 2 ^ k ≤ 2 * f then (f : Int) - 2 ^ k else f) := by
  have hf : ((b >>> fieldPos n c).setWidth (fieldWidth n d)).toNat = b.toNat / 2 ^ fieldPos n c % 2 ^ fieldWidth n d := by
    rw [BitVec.toNat_setWidth, BitVec.toNat_ushiftRight, Nat.shiftRight_eq_div_pow]
  simp only [opBfx]
  generalize hg : (b >>> fieldPos n c).setWidth (fieldWidth n d) = f at hf
  rw [← hf]
  by_cases h7 : d.getLsbD 7 = true
  · simp only [h7, if_true, true_and]
    change BitVec.ofInt n f.toInt = _
    rw [BitVec.toInt]
    by_cases h : 2 * f.toNat < 2 ^ fieldWidth n d
    · rw [if_pos h, if_neg (by omega)]
    · rw [if_neg h, if_pos (by omega)]; push_cast; rfl
  · simp only [h7, false_and, if_false, Bool.false_eq_true]
    rw [BitVec.ofInt_natCast, BitVec.ofNat_toNat]

theorem bfi_bit {n} (a b c d : BitVec n) (k : Nat) (hk : k < n) : (opBfi n a b c d).getLsbD k =
    if fieldPos n c ≤ k ∧ k < fieldPos n c + fieldWidth n d then b.getLsbD (k - fieldPos n c) else a.getLsbD k := by
  generalize hp : fieldPos n c = p
  have hm : ((BitVec.ofNat n (2 ^ fieldWidth n d - 1)) <<< p).getLsbD k = decide (p ≤ k ∧ k < p + fieldWidth n d) := by
    rw [BitVec.getLsbD_shiftLeft, BitVec.getLsbD_ofNat, Nat.testBit_two_pow_sub_one]
    by_cases h1 : k < p
    · simp [hk, h1]
    · simp only [hk, h1, decide_true, decide_false, Bool.not_false, Bool.true_and]
      have h2 : k - p < n := by omega
      simp only [h2, decide_true, Bool.true_and]
      rw [decide_eq_decide]; omega
  simp only [opBfi, hp, BitVec.getLsbD_or, BitVec.getLsbD_and, BitVec.getLsbD_not, hm]
  by_cases h : p ≤ k ∧ k < p + fieldWidth n d
  · have h1 : ¬ k < p := by omega
    simp only [h, hk, h1, and_self, decide_true, Bool.not_true, Bool.and_false, Bool.false_or, Bool.and_true, if_true,
      BitVec.getLsbD_shiftLeft, decide_false, Bool.not_false, Bool.true_and]
  · simp [h, hk]

end Sys2Proof.Machine
end

