-- ==== Sys2Proof/Laws/PerInstr.lean ====
section
/-! SUPPORT. Facts about every instruction as syntax, one lemma for each constructor. -/
set_option linter.unusedSimpArgs false
namespace Sys2Proof.Laws

/-! ### The fields of a word -/

theorem bitHi {v w : Nat} (x : BitVec v) (y : BitVec w) (i : Nat) (h : w ≤ i) : (x ++ y).getLsbD i = x.getLsbD (i - w) := by
  rw [BitVec.getLsbD_append, if_neg (by omega)]
theorem bitLo {v w : Nat} (x : BitVec v) (y : BitVec w) (i : Nat) (h : i < w) : (x ++ y).getLsbD i = y.getLsbD i := by
  rw [BitVec.getLsbD_append, if_pos h]
theorem bitBool (b : Bool) : (BitVec.ofBool b).getLsbD 0 = b := by simp
theorem cutHi {v w : Nat} (x : BitVec v) (y : BitVec w) (i n : Nat) (h : w ≤ i) :
    (x ++ y).extractLsb' i n = x.extractLsb' (i - w) n := BitVec.extractLsb'_append_eq_of_le h
theorem cutLo {v w : Nat} (x : BitVec v) (y : BitVec w) (i n : Nat) (h : i + n ≤ w) :
    (x ++ y).extractLsb' i n = y.extractLsb' i n := BitVec.extractLsb'_append_eq_of_add_le h
theorem cutAll {w : Nat} (x : BitVec w) : x.extractLsb' 0 w = x := BitVec.extractLsb'_eq_self
theorem cutWide {w n : Nat} (x : BitVec w) (h : w ≤ n) : (x.setWidth n).extractLsb' 0 w = x := by
  apply BitVec.eq_of_getLsbD_eq
  intro i hi
  simp only [BitVec.getLsbD_extractLsb', Nat.zero_add, BitVec.getLsbD_setWidth]
  simp [hi, show i < n by omega]

section
variable (cls : BitVec 4) (op : BitVec 8) (a b c d : Reg) (oc : BitVec 4)

theorem classSR (q : BitVec 8) (m : BitVec 16) : wordClass (encSR cls op a b c d oc q m) = cls := by
  simp (disch := decide) only [wordClass, encSR, cutHi, cutAll, Nat.reduceSub]
theorem opSR (q : BitVec 8) (m : BitVec 16) : wordOp (encSR cls op a b c d oc q m) = op := by
  simp (disch := decide) only [wordOp, encSR, cutHi, cutLo, cutAll, Nat.reduceSub]
theorem classSI (q : BitVec 4) (imm : BitVec 32) : wordClass (encSI cls op a b oc q imm) = cls := by
  simp (disch := decide) only [wordClass, encSI, cutHi, cutAll, Nat.reduceSub]
theorem opSI (q : BitVec 4) (imm : BitVec 32) : wordOp (encSI cls op a b oc q imm) = op := by
  simp (disch := decide) only [wordOp, encSI, cutHi, cutLo, cutAll, Nat.reduceSub]
theorem classSB (off : BitVec 32) : wordClass (encSB op a b off) = 3 := by
  simp (disch := decide) only [wordClass, encSB, cutHi, cutAll, Nat.reduceSub]; rfl
theorem opSB (off : BitVec 32) : wordOp (encSB op a b off) = op := by
  simp (disch := decide) only [wordOp, encSB, cutHi, cutLo, cutAll, Nat.reduceSub]
theorem classSL (len : BitVec 14) (imm : BitVec 16) (base : BitVec 4) : wordClass (encSL op a len imm base) = 3 := by
  simp (disch := decide) only [wordClass, encSL, cutHi, cutAll, Nat.reduceSub]; rfl
theorem opSL (len : BitVec 14) (imm : BitVec 16) (base : BitVec 4) : wordOp (encSL op a len imm base) = op := by
  simp (disch := decide) only [wordOp, encSL, cutHi, cutLo, cutAll, Nat.reduceSub]
theorem classE (h : EHead) (sub : BitVec 7) (reloc : Bool) : wordClass (encE cls op oc h a b c sub reloc) = cls := by
  simp (disch := decide) only [wordClass, encE, cutHi, cutAll, Nat.reduceSub]
theorem opE (h : EHead) (sub : BitVec 7) (reloc : Bool) : wordOp (encE cls op oc h a b c sub reloc) = op := by
  simp (disch := decide) only [wordOp, encE, cutHi, cutLo, cutAll, Nat.reduceSub]
theorem headE (h : EHead) (sub : BitVec 7) (reloc : Bool) : headOf (encE cls op oc h a b c sub reloc) = h := by
  simp (disch := decide) only [headOf, encE, cutHi, cutLo, cutAll, Nat.reduceSub]
theorem classX (q : BitVec 8) (imm : BitVec 32) : wordClass (encX cls op a b q imm) = cls := by
  simp (disch := decide) only [wordClass, encX, cutHi, cutAll, Nat.reduceSub]
theorem opX (q : BitVec 8) (imm : BitVec 32) : wordOp (encX cls op a b q imm) = op := by
  simp (disch := decide) only [wordOp, encX, cutHi, cutLo, cutAll, Nat.reduceSub]
end

/-! ### Which reader a class has -/

section
variable {w : Word}
theorem atInt (h : wordClass w = 0) : instrFields w = fieldsInt w := by unfold instrFields; rw [h]; rfl
theorem atImm (h : wordClass w = 1) : instrFields w = fieldsImm w := by unfold instrFields; rw [h]; rfl
theorem atFlt (h : wordClass w = 2) : instrFields w = fieldsFlt w := by unfold instrFields; rw [h]; rfl
theorem atCtl (h : wordClass w = 3) : instrFields w = fieldsCtl w := by unfold instrFields; rw [h]; rfl
theorem atMem (h : wordClass w = 4) : instrFields w = fieldsMem w := by unfold instrFields; rw [h]; rfl
theorem atSyn (h : wordClass w = 5) : instrFields w = fieldsSyn w := by unfold instrFields; rw [h]; rfl
theorem atVec (h : wordClass w = 6) : instrFields w = fieldsVec w := by unfold instrFields; rw [h]; rfl
theorem atVxf (h : wordClass w = 7) : instrFields w = fieldsVxf w := by unfold instrFields; rw [h]; rfl
theorem atMtx (h : wordClass w = 8) : instrFields w = fieldsMtx w := by unfold instrFields; rw [h]; rfl
theorem atCpi (h : wordClass w = 9) : instrFields w = fieldsCpi w := by unfold instrFields; rw [h]; rfl
theorem atCpo (h : wordClass w = 10) : instrFields w = fieldsCpo w := by unfold instrFields; rw [h]; rfl
theorem atEdg (h : wordClass w = 11) : instrFields w = fieldsEdg w := by unfold instrFields; rw [h]; rfl
theorem atRdn (h : wordClass w = 12) : instrFields w = fieldsRdn w := by unfold instrFields; rw [h]; rfl
theorem atSys (h : wordClass w = 14) : instrFields w = fieldsSys w := by unfold instrFields; rw [h]; rfl
end

namespace Decodes

/-- Decoding its word gives back a well-formed instruction (02 R44). -/
def Statement (i : Instr) : Prop := i.isEvent = false → i.wf = true → decode (encode i) = .ok i

theorem decodes {i : Instr} (w : Word) (he : encode i = w) (hf : instrFields w = some i) : Statement i := by
  intro _ hw
  rw [decode, he, hf]
  simp [he, hw]

theorem add (w : Bool) (a b c : Reg) : Statement (.add w a b c) := by
  refine decodes (encSR 0 0x0 a b c 0 0 (qualW w) 0) rfl ?_
  rw [atInt (classSR ..), fieldsInt, opSR]
  show some (Instr.add _ _ _ _) = _
  simp (disch := decide) only [encSR, qualW, bitHi, bitLo, bitBool, cutHi, cutLo, cutAll, cutWide, Nat.reduceSub] <;> simp (disch := decide) only [Nat.reduceAdd, Nat.reduceSub, bitHi, bitLo, bitBool, cutAll, cutWide]

theorem sub (w : Bool) (a b c : Reg) : Statement (.sub w a b c) := by
  refine decodes (encSR 0 0x1 a b c 0 0 (qualW w) 0) rfl ?_
  rw [atInt (classSR ..), fieldsInt, opSR]
  show some (Instr.sub _ _ _ _) = _
  simp (disch := decide) only [encSR, qualW, bitHi, bitLo, bitBool, cutHi, cutLo, cutAll, cutWide, Nat.reduceSub] <;> simp (disch := decide) only [Nat.reduceAdd, Nat.reduceSub, bitHi, bitLo, bitBool, cutAll, cutWide]

theorem mul (w : Bool) (a b c : Reg) : Statement (.mul w a b c) := by
  refine decodes (encSR 0 0x2 a b c 0 0 (qualW w) 0) rfl ?_
  rw [atInt (classSR ..), fieldsInt, opSR]
  show some (Instr.mul _ _ _ _) = _
  simp (disch := decide) only [encSR, qualW, bitHi, bitLo, bitBool, cutHi, cutLo, cutAll, cutWide, Nat.reduceSub] <;> simp (disch := decide) only [Nat.reduceAdd, Nat.reduceSub, bitHi, bitLo, bitBool, cutAll, cutWide]

theorem mulh (w : Bool) (a b c : Reg) : Statement (.mulh w a b c) := by
  refine decodes (encSR 0 0x3 a b c 0 0 (qualW w) 0) rfl ?_
  rw [atInt (classSR ..), fieldsInt, opSR]
  show some (Instr.mulh _ _ _ _) = _
  simp (disch := decide) only [encSR, qualW, bitHi, bitLo, bitBool, cutHi, cutLo, cutAll, cutWide, Nat.reduceSub] <;> simp (disch := decide) only [Nat.reduceAdd, Nat.reduceSub, bitHi, bitLo, bitBool, cutAll, cutWide]

theorem mulhu (w : Bool) (a b c : Reg) : Statement (.mulhu w a b c) := by
  refine decodes (encSR 0 0x4 a b c 0 0 (qualW w) 0) rfl ?_
  rw [atInt (classSR ..), fieldsInt, opSR]
  show some (Instr.mulhu _ _ _ _) = _
  simp (disch := decide) only [encSR, qualW, bitHi, bitLo, bitBool, cutHi, cutLo, cutAll, cutWide, Nat.reduceSub] <;> simp (disch := decide) only [Nat.reduceAdd, Nat.reduceSub, bitHi, bitLo, bitBool, cutAll, cutWide]

theorem div (w : Bool) (a b c : Reg) : Statement (.div w a b c) := by
  refine decodes (encSR 0 0x5 a b c 0 0 (qualW w) 0) rfl ?_
  rw [atInt (classSR ..), fieldsInt, opSR]
  show some (Instr.div _ _ _ _) = _
  simp (disch := decide) only [encSR, qualW, bitHi, bitLo, bitBool, cutHi, cutLo, cutAll, cutWide, Nat.reduceSub] <;> simp (disch := decide) only [Nat.reduceAdd, Nat.reduceSub, bitHi, bitLo, bitBool, cutAll, cutWide]

theorem divu (w : Bool) (a b c : Reg) : Statement (.divu w a b c) := by
  refine decodes (encSR 0 0x6 a b c 0 0 (qualW w) 0) rfl ?_
  rw [atInt (classSR ..), fieldsInt, opSR]
  show some (Instr.divu _ _ _ _) = _
  simp (disch := decide) only [encSR, qualW, bitHi, bitLo, bitBool, cutHi, cutLo, cutAll, cutWide, Nat.reduceSub] <;> simp (disch := decide) only [Nat.reduceAdd, Nat.reduceSub, bitHi, bitLo, bitBool, cutAll, cutWide]

theorem rem (w : Bool) (a b c : Reg) : Statement (.rem w a b c) := by
  refine decodes (encSR 0 0x7 a b c 0 0 (qualW w) 0) rfl ?_
  rw [atInt (classSR ..), fieldsInt, opSR]
  show some (Instr.rem _ _ _ _) = _
  simp (disch := decide) only [encSR, qualW, bitHi, bitLo, bitBool, cutHi, cutLo, cutAll, cutWide, Nat.reduceSub] <;> simp (disch := decide) only [Nat.reduceAdd, Nat.reduceSub, bitHi, bitLo, bitBool, cutAll, cutWide]

theorem remu (w : Bool) (a b c : Reg) : Statement (.remu w a b c) := by
  refine decodes (encSR 0 0x8 a b c 0 0 (qualW w) 0) rfl ?_
  rw [atInt (classSR ..), fieldsInt, opSR]
  show some (Instr.remu _ _ _ _) = _
  simp (disch := decide) only [encSR, qualW, bitHi, bitLo, bitBool, cutHi, cutLo, cutAll, cutWide, Nat.reduceSub] <;> simp (disch := decide) only [Nat.reduceAdd, Nat.reduceSub, bitHi, bitLo, bitBool, cutAll, cutWide]

theorem andI (w : Bool) (a b c : Reg) : Statement (.andI w a b c) := by
  refine decodes (encSR 0 0x9 a b c 0 0 (qualW w) 0) rfl ?_
  rw [atInt (classSR ..), fieldsInt, opSR]
  show some (Instr.andI _ _ _ _) = _
  simp (disch := decide) only [encSR, qualW, bitHi, bitLo, bitBool, cutHi, cutLo, cutAll, cutWide, Nat.reduceSub] <;> simp (disch := decide) only [Nat.reduceAdd, Nat.reduceSub, bitHi, bitLo, bitBool, cutAll, cutWide]

theorem orI (w : Bool) (a b c : Reg) : Statement (.orI w a b c) := by
  refine decodes (encSR 0 0xa a b c 0 0 (qualW w) 0) rfl ?_
  rw [atInt (classSR ..), fieldsInt, opSR]
  show some (Instr.orI _ _ _ _) = _
  simp (disch := decide) only [encSR, qualW, bitHi, bitLo, bitBool, cutHi, cutLo, cutAll, cutWide, Nat.reduceSub] <;> simp (disch := decide) only [Nat.reduceAdd, Nat.reduceSub, bitHi, bitLo, bitBool, cutAll, cutWide]

theorem xorI (w : Bool) (a b c : Reg) : Statement (.xorI w a b c) := by
  refine decodes (encSR 0 0xb a b c 0 0 (qualW w) 0) rfl ?_
  rw [atInt (classSR ..), fieldsInt, opSR]
  show some (Instr.xorI _ _ _ _) = _
  simp (disch := decide) only [encSR, qualW, bitHi, bitLo, bitBool, cutHi, cutLo, cutAll, cutWide, Nat.reduceSub] <;> simp (disch := decide) only [Nat.reduceAdd, Nat.reduceSub, bitHi, bitLo, bitBool, cutAll, cutWide]

theorem andn (w : Bool) (a b c : Reg) : Statement (.andn w a b c) := by
  refine decodes (encSR 0 0xc a b c 0 0 (qualW w) 0) rfl ?_
  rw [atInt (classSR ..), fieldsInt, opSR]
  show some (Instr.andn _ _ _ _) = _
  simp (disch := decide) only [encSR, qualW, bitHi, bitLo, bitBool, cutHi, cutLo, cutAll, cutWide, Nat.reduceSub] <;> simp (disch := decide) only [Nat.reduceAdd, Nat.reduceSub, bitHi, bitLo, bitBool, cutAll, cutWide]

theorem shl (w : Bool) (a b c : Reg) : Statement (.shl w a b c) := by
  refine decodes (encSR 0 0xd a b c 0 0 (qualW w) 0) rfl ?_
  rw [atInt (classSR ..), fieldsInt, opSR]
  show some (Instr.shl _ _ _ _) = _
  simp (disch := decide) only [encSR, qualW, bitHi, bitLo, bitBool, cutHi, cutLo, cutAll, cutWide, Nat.reduceSub] <;> simp (disch := decide) only [Nat.reduceAdd, Nat.reduceSub, bitHi, bitLo, bitBool, cutAll, cutWide]

theorem shr (w : Bool) (a b c : Reg) : Statement (.shr w a b c) := by
  refine decodes (encSR 0 0xe a b c 0 0 (qualW w) 0) rfl ?_
  rw [atInt (classSR ..), fieldsInt, opSR]
  show some (Instr.shr _ _ _ _) = _
  simp (disch := decide) only [encSR, qualW, bitHi, bitLo, bitBool, cutHi, cutLo, cutAll, cutWide, Nat.reduceSub] <;> simp (disch := decide) only [Nat.reduceAdd, Nat.reduceSub, bitHi, bitLo, bitBool, cutAll, cutWide]

theorem sar (w : Bool) (a b c : Reg) : Statement (.sar w a b c) := by
  refine decodes (encSR 0 0xf a b c 0 0 (qualW w) 0) rfl ?_
  rw [atInt (classSR ..), fieldsInt, opSR]
  show some (Instr.sar _ _ _ _) = _
  simp (disch := decide) only [encSR, qualW, bitHi, bitLo, bitBool, cutHi, cutLo, cutAll, cutWide, Nat.reduceSub] <;> simp (disch := decide) only [Nat.reduceAdd, Nat.reduceSub, bitHi, bitLo, bitBool, cutAll, cutWide]

theorem ror (w : Bool) (a b c : Reg) : Statement (.ror w a b c) := by
  refine decodes (encSR 0 0x10 a b c 0 0 (qualW w) 0) rfl ?_
  rw [atInt (classSR ..), fieldsInt, opSR]
  show some (Instr.ror _ _ _ _) = _
  simp (disch := decide) only [encSR, qualW, bitHi, bitLo, bitBool, cutHi, cutLo, cutAll, cutWide, Nat.reduceSub] <;> simp (disch := decide) only [Nat.reduceAdd, Nat.reduceSub, bitHi, bitLo, bitBool, cutAll, cutWide]

theorem minI (w : Bool) (a b c : Reg) : Statement (.minI w a b c) := by
  refine decodes (encSR 0 0x11 a b c 0 0 (qualW w) 0) rfl ?_
  rw [atInt (classSR ..), fieldsInt, opSR]
  show some (Instr.minI _ _ _ _) = _
  simp (disch := decide) only [encSR, qualW, bitHi, bitLo, bitBool, cutHi, cutLo, cutAll, cutWide, Nat.reduceSub] <;> simp (disch := decide) only [Nat.reduceAdd, Nat.reduceSub, bitHi, bitLo, bitBool, cutAll, cutWide]

theorem maxI (w : Bool) (a b c : Reg) : Statement (.maxI w a b c) := by
  refine decodes (encSR 0 0x12 a b c 0 0 (qualW w) 0) rfl ?_
  rw [atInt (classSR ..), fieldsInt, opSR]
  show some (Instr.maxI _ _ _ _) = _
  simp (disch := decide) only [encSR, qualW, bitHi, bitLo, bitBool, cutHi, cutLo, cutAll, cutWide, Nat.reduceSub] <;> simp (disch := decide) only [Nat.reduceAdd, Nat.reduceSub, bitHi, bitLo, bitBool, cutAll, cutWide]

theorem minu (w : Bool) (a b c : Reg) : Statement (.minu w a b c) := by
  refine decodes (encSR 0 0x13 a b c 0 0 (qualW w) 0) rfl ?_
  rw [atInt (classSR ..), fieldsInt, opSR]
  show some (Instr.minu _ _ _ _) = _
  simp (disch := decide) only [encSR, qualW, bitHi, bitLo, bitBool, cutHi, cutLo, cutAll, cutWide, Nat.reduceSub] <;> simp (disch := decide) only [Nat.reduceAdd, Nat.reduceSub, bitHi, bitLo, bitBool, cutAll, cutWide]

theorem maxu (w : Bool) (a b c : Reg) : Statement (.maxu w a b c) := by
  refine decodes (encSR 0 0x14 a b c 0 0 (qualW w) 0) rfl ?_
  rw [atInt (classSR ..), fieldsInt, opSR]
  show some (Instr.maxu _ _ _ _) = _
  simp (disch := decide) only [encSR, qualW, bitHi, bitLo, bitBool, cutHi, cutLo, cutAll, cutWide, Nat.reduceSub] <;> simp (disch := decide) only [Nat.reduceAdd, Nat.reduceSub, bitHi, bitLo, bitBool, cutAll, cutWide]

theorem seq (w : Bool) (a b c : Reg) : Statement (.seq w a b c) := by
  refine decodes (encSR 0 0x15 a b c 0 0 (qualW w) 0) rfl ?_
  rw [atInt (classSR ..), fieldsInt, opSR]
  show some (Instr.seq _ _ _ _) = _
  simp (disch := decide) only [encSR, qualW, bitHi, bitLo, bitBool, cutHi, cutLo, cutAll, cutWide, Nat.reduceSub] <;> simp (disch := decide) only [Nat.reduceAdd, Nat.reduceSub, bitHi, bitLo, bitBool, cutAll, cutWide]

theorem sne (w : Bool) (a b c : Reg) : Statement (.sne w a b c) := by
  refine decodes (encSR 0 0x16 a b c 0 0 (qualW w) 0) rfl ?_
  rw [atInt (classSR ..), fieldsInt, opSR]
  show some (Instr.sne _ _ _ _) = _
  simp (disch := decide) only [encSR, qualW, bitHi, bitLo, bitBool, cutHi, cutLo, cutAll, cutWide, Nat.reduceSub] <;> simp (disch := decide) only [Nat.reduceAdd, Nat.reduceSub, bitHi, bitLo, bitBool, cutAll, cutWide]

theorem slt (w : Bool) (a b c : Reg) : Statement (.slt w a b c) := by
  refine decodes (encSR 0 0x17 a b c 0 0 (qualW w) 0) rfl ?_
  rw [atInt (classSR ..), fieldsInt, opSR]
  show some (Instr.slt _ _ _ _) = _
  simp (disch := decide) only [encSR, qualW, bitHi, bitLo, bitBool, cutHi, cutLo, cutAll, cutWide, Nat.reduceSub] <;> simp (disch := decide) only [Nat.reduceAdd, Nat.reduceSub, bitHi, bitLo, bitBool, cutAll, cutWide]

theorem sltu (w : Bool) (a b c : Reg) : Statement (.sltu w a b c) := by
  refine decodes (encSR 0 0x18 a b c 0 0 (qualW w) 0) rfl ?_
  rw [atInt (classSR ..), fieldsInt, opSR]
  show some (Instr.sltu _ _ _ _) = _
  simp (disch := decide) only [encSR, qualW, bitHi, bitLo, bitBool, cutHi, cutLo, cutAll, cutWide, Nat.reduceSub] <;> simp (disch := decide) only [Nat.reduceAdd, Nat.reduceSub, bitHi, bitLo, bitBool, cutAll, cutWide]

theorem sel (w : Bool) (a b c d : Reg) : Statement (.sel w a b c d) := by
  refine decodes (encSR 0 0x19 a b c d 0 (qualW w) 0) rfl ?_
  rw [atInt (classSR ..), fieldsInt, opSR]
  show some (Instr.sel _ _ _ _ _) = _
  simp (disch := decide) only [encSR, qualW, bitHi, bitLo, bitBool, cutHi, cutLo, cutAll, cutWide, Nat.reduceSub] <;> simp (disch := decide) only [Nat.reduceAdd, Nat.reduceSub, bitHi, bitLo, bitBool, cutAll, cutWide]

theorem clz (w : Bool) (a b : Reg) : Statement (.clz w a b) := by
  refine decodes (encSR 0 0x1a a b 0 0 0 (qualW w) 0) rfl ?_
  rw [atInt (classSR ..), fieldsInt, opSR]
  show some (Instr.clz _ _ _) = _
  simp (disch := decide) only [encSR, qualW, bitHi, bitLo, bitBool, cutHi, cutLo, cutAll, cutWide, Nat.reduceSub] <;> simp (disch := decide) only [Nat.reduceAdd, Nat.reduceSub, bitHi, bitLo, bitBool, cutAll, cutWide]

theorem ctz (w : Bool) (a b : Reg) : Statement (.ctz w a b) := by
  refine decodes (encSR 0 0x1b a b 0 0 0 (qualW w) 0) rfl ?_
  rw [atInt (classSR ..), fieldsInt, opSR]
  show some (Instr.ctz _ _ _) = _
  simp (disch := decide) only [encSR, qualW, bitHi, bitLo, bitBool, cutHi, cutLo, cutAll, cutWide, Nat.reduceSub] <;> simp (disch := decide) only [Nat.reduceAdd, Nat.reduceSub, bitHi, bitLo, bitBool, cutAll, cutWide]

theorem popc (w : Bool) (a b : Reg) : Statement (.popc w a b) := by
  refine decodes (encSR 0 0x1c a b 0 0 0 (qualW w) 0) rfl ?_
  rw [atInt (classSR ..), fieldsInt, opSR]
  show some (Instr.popc _ _ _) = _
  simp (disch := decide) only [encSR, qualW, bitHi, bitLo, bitBool, cutHi, cutLo, cutAll, cutWide, Nat.reduceSub] <;> simp (disch := decide) only [Nat.reduceAdd, Nat.reduceSub, bitHi, bitLo, bitBool, cutAll, cutWide]

theorem bfx (w : Bool) (a b c d : Reg) : Statement (.bfx w a b c d) := by
  refine decodes (encSR 0 0x1d a b c d 0 (qualW w) 0) rfl ?_
  rw [atInt (classSR ..), fieldsInt, opSR]
  show some (Instr.bfx _ _ _ _ _) = _
  simp (disch := decide) only [encSR, qualW, bitHi, bitLo, bitBool, cutHi, cutLo, cutAll, cutWide, Nat.reduceSub] <;> simp (disch := decide) only [Nat.reduceAdd, Nat.reduceSub, bitHi, bitLo, bitBool, cutAll, cutWide]

theorem bfi (w : Bool) (a b c d : Reg) : Statement (.bfi w a b c d) := by
  refine decodes (encSR 0 0x1e a b c d 0 (qualW w) 0) rfl ?_
  rw [atInt (classSR ..), fieldsInt, opSR]
  show some (Instr.bfi _ _ _ _ _) = _
  simp (disch := decide) only [encSR, qualW, bitHi, bitLo, bitBool, cutHi, cutLo, cutAll, cutWide, Nat.reduceSub] <;> simp (disch := decide) only [Nat.reduceAdd, Nat.reduceSub, bitHi, bitLo, bitBool, cutAll, cutWide]

theorem madd (w : Bool) (a b c d : Reg) : Statement (.madd w a b c d) := by
  refine decodes (encSR 0 0x1f a b c d 0 (qualW w) 0) rfl ?_
  rw [atInt (classSR ..), fieldsInt, opSR]
  show some (Instr.madd _ _ _ _ _) = _
  simp (disch := decide) only [encSR, qualW, bitHi, bitLo, bitBool, cutHi, cutLo, cutAll, cutWide, Nat.reduceSub] <;> simp (disch := decide) only [Nat.reduceAdd, Nat.reduceSub, bitHi, bitLo, bitBool, cutAll, cutWide]

theorem addi (w : Bool) (a b : Reg) (imm : BitVec 32) : Statement (.addi w a b imm) := by
  refine decodes (encSI 1 0 a b 0 (qualWI w) imm) rfl ?_
  rw [atImm (classSI ..), fieldsImm, opSI]
  show some (Instr.addi _ _ _ _) = _
  simp (disch := decide) only [encSI, qualWI, bitHi, bitLo, bitBool, cutHi, cutLo, cutAll, cutWide, Nat.reduceSub] <;> simp (disch := decide) only [Nat.reduceAdd, Nat.reduceSub, bitHi, bitLo, bitBool, cutAll, cutWide]

theorem andi (a b : Reg) (imm : BitVec 32) : Statement (.andi a b imm) := by
  refine decodes (encSI 1 1 a b 0 0 imm) rfl ?_
  rw [atImm (classSI ..), fieldsImm, opSI]
  show some (Instr.andi _ _ _) = _
  simp (disch := decide) only [encSI, bitHi, bitLo, bitBool, cutHi, cutLo, cutAll, cutWide, Nat.reduceSub] <;> simp (disch := decide) only [Nat.reduceAdd, Nat.reduceSub, bitHi, bitLo, bitBool, cutAll, cutWide]

theorem ori (a b : Reg) (imm : BitVec 32) : Statement (.ori a b imm) := by
  refine decodes (encSI 1 2 a b 0 0 imm) rfl ?_
  rw [atImm (classSI ..), fieldsImm, opSI]
  show some (Instr.ori _ _ _) = _
  simp (disch := decide) only [encSI, bitHi, bitLo, bitBool, cutHi, cutLo, cutAll, cutWide, Nat.reduceSub] <;> simp (disch := decide) only [Nat.reduceAdd, Nat.reduceSub, bitHi, bitLo, bitBool, cutAll, cutWide]

theorem xori (a b : Reg) (imm : BitVec 32) : Statement (.xori a b imm) := by
  refine decodes (encSI 1 3 a b 0 0 imm) rfl ?_
  rw [atImm (classSI ..), fieldsImm, opSI]
  show some (Instr.xori _ _ _) = _
  simp (disch := decide) only [encSI, bitHi, bitLo, bitBool, cutHi, cutLo, cutAll, cutWide, Nat.reduceSub] <;> simp (disch := decide) only [Nat.reduceAdd, Nat.reduceSub, bitHi, bitLo, bitBool, cutAll, cutWide]

theorem shli (w : Bool) (a b : Reg) (amt : BitVec 6) : Statement (.shli w a b amt) := by
  refine decodes (encSI 1 4 a b 0 (qualWI w) (amt.setWidth 32)) rfl ?_
  rw [atImm (classSI ..), fieldsImm, opSI]
  show some (Instr.shli _ _ _ _) = _
  simp (disch := decide) only [encSI, qualWI, bitHi, bitLo, bitBool, cutHi, cutLo, cutAll, cutWide, Nat.reduceSub] <;> simp (disch := decide) only [Nat.reduceAdd, Nat.reduceSub, bitHi, bitLo, bitBool, cutAll, cutWide]

theorem shri (w : Bool) (a b : Reg) (amt : BitVec 6) : Statement (.shri w a b amt) := by
  refine decodes (encSI 1 5 a b 0 (qualWI w) (amt.setWidth 32)) rfl ?_
  rw [atImm (classSI ..), fieldsImm, opSI]
  show some (Instr.shri _ _ _ _) = _
  simp (disch := decide) only [encSI, qualWI, bitHi, bitLo, bitBool, cutHi, cutLo, cutAll, cutWide, Nat.reduceSub] <;> simp (disch := decide) only [Nat.reduceAdd, Nat.reduceSub, bitHi, bitLo, bitBool, cutAll, cutWide]

theorem sari (w : Bool) (a b : Reg) (amt : BitVec 6) : Statement (.sari w a b amt) := by
  refine decodes (encSI 1 6 a b 0 (qualWI w) (amt.setWidth 32)) rfl ?_
  rw [atImm (classSI ..), fieldsImm, opSI]
  show some (Instr.sari _ _ _ _) = _
  simp (disch := decide) only [encSI, qualWI, bitHi, bitLo, bitBool, cutHi, cutLo, cutAll, cutWide, Nat.reduceSub] <;> simp (disch := decide) only [Nat.reduceAdd, Nat.reduceSub, bitHi, bitLo, bitBool, cutAll, cutWide]

theorem slti (a b : Reg) (imm : BitVec 32) : Statement (.slti a b imm) := by
  refine decodes (encSI 1 7 a b 0 0 imm) rfl ?_
  rw [atImm (classSI ..), fieldsImm, opSI]
  show some (Instr.slti _ _ _) = _
  simp (disch := decide) only [encSI, bitHi, bitLo, bitBool, cutHi, cutLo, cutAll, cutWide, Nat.reduceSub] <;> simp (disch := decide) only [Nat.reduceAdd, Nat.reduceSub, bitHi, bitLo, bitBool, cutAll, cutWide]

theorem sltiu (a b : Reg) (imm : BitVec 32) : Statement (.sltiu a b imm) := by
  refine decodes (encSI 1 8 a b 0 0 imm) rfl ?_
  rw [atImm (classSI ..), fieldsImm, opSI]
  show some (Instr.sltiu _ _ _) = _
  simp (disch := decide) only [encSI, bitHi, bitLo, bitBool, cutHi, cutLo, cutAll, cutWide, Nat.reduceSub] <;> simp (disch := decide) only [Nat.reduceAdd, Nat.reduceSub, bitHi, bitLo, bitBool, cutAll, cutWide]

theorem movi (a : Reg) (imm : BitVec 32) : Statement (.movi a imm) := by
  refine decodes (encSI 1 9 a 0 0 0 imm) rfl ?_
  rw [atImm (classSI ..), fieldsImm, opSI]
  show some (Instr.movi _ _) = _
  simp (disch := decide) only [encSI, bitHi, bitLo, bitBool, cutHi, cutLo, cutAll, cutWide, Nat.reduceSub] <;> simp (disch := decide) only [Nat.reduceAdd, Nat.reduceSub, bitHi, bitLo, bitBool, cutAll, cutWide]

theorem movhi (a b : Reg) (imm : BitVec 32) : Statement (.movhi a b imm) := by
  refine decodes (encSI 1 10 a b 0 0 imm) rfl ?_
  rw [atImm (classSI ..), fieldsImm, opSI]
  show some (Instr.movhi _ _ _) = _
  simp (disch := decide) only [encSI, bitHi, bitLo, bitBool, cutHi, cutLo, cutAll, cutWide, Nat.reduceSub] <;> simp (disch := decide) only [Nat.reduceAdd, Nat.reduceSub, bitHi, bitLo, bitBool, cutAll, cutWide]

theorem muli (w : Bool) (a b : Reg) (imm : BitVec 32) : Statement (.muli w a b imm) := by
  refine decodes (encSI 1 11 a b 0 (qualWI w) imm) rfl ?_
  rw [atImm (classSI ..), fieldsImm, opSI]
  show some (Instr.muli _ _ _ _) = _
  simp (disch := decide) only [encSI, qualWI, bitHi, bitLo, bitBool, cutHi, cutLo, cutAll, cutWide, Nat.reduceSub] <;> simp (disch := decide) only [Nat.reduceAdd, Nat.reduceSub, bitHi, bitLo, bitBool, cutAll, cutWide]

theorem lea (a : Reg) (imm : BitVec 32) : Statement (.lea a imm) := by
  refine decodes (encSI 1 12 a 0 0 0 imm) rfl ?_
  rw [atImm (classSI ..), fieldsImm, opSI]
  show some (Instr.lea _ _) = _
  simp (disch := decide) only [encSI, bitHi, bitLo, bitBool, cutHi, cutLo, cutAll, cutWide, Nat.reduceSub] <;> simp (disch := decide) only [Nat.reduceAdd, Nat.reduceSub, bitHi, bitLo, bitBool, cutAll, cutWide]

theorem fadd (single : Bool) (rm : BitVec 2) (a b c : Reg) : Statement (.fadd single rm a b c) := by
  refine decodes (encSR 2 0 a b c 0 0 (qualF single rm false) 0) rfl ?_
  rw [atFlt (classSR ..), fieldsFlt, opSR]
  show some (Instr.fadd _ _ _ _ _) = _
  simp (disch := decide) only [encSR, qualF, bitHi, bitLo, bitBool, cutHi, cutLo, cutAll, cutWide, Nat.reduceSub] <;> simp (disch := decide) only [Nat.reduceAdd, Nat.reduceSub, bitHi, bitLo, bitBool, cutAll, cutWide]

theorem fsub (single : Bool) (rm : BitVec 2) (a b c : Reg) : Statement (.fsub single rm a b c) := by
  refine decodes (encSR 2 1 a b c 0 0 (qualF single rm false) 0) rfl ?_
  rw [atFlt (classSR ..), fieldsFlt, opSR]
  show some (Instr.fsub _ _ _ _ _) = _
  simp (disch := decide) only [encSR, qualF, bitHi, bitLo, bitBool, cutHi, cutLo, cutAll, cutWide, Nat.reduceSub] <;> simp (disch := decide) only [Nat.reduceAdd, Nat.reduceSub, bitHi, bitLo, bitBool, cutAll, cutWide]

theorem fmul (single : Bool) (rm : BitVec 2) (a b c : Reg) : Statement (.fmul single rm a b c) := by
  refine decodes (encSR 2 2 a b c 0 0 (qualF single rm false) 0) rfl ?_
  rw [atFlt (classSR ..), fieldsFlt, opSR]
  show some (Instr.fmul _ _ _ _ _) = _
  simp (disch := decide) only [encSR, qualF, bitHi, bitLo, bitBool, cutHi, cutLo, cutAll, cutWide, Nat.reduceSub] <;> simp (disch := decide) only [Nat.reduceAdd, Nat.reduceSub, bitHi, bitLo, bitBool, cutAll, cutWide]

theorem ffma (single : Bool) (rm : BitVec 2) (a b c d : Reg) : Statement (.ffma single rm a b c d) := by
  refine decodes (encSR 2 3 a b c d 0 (qualF single rm false) 0) rfl ?_
  rw [atFlt (classSR ..), fieldsFlt, opSR]
  show some (Instr.ffma _ _ _ _ _ _) = _
  simp (disch := decide) only [encSR, qualF, bitHi, bitLo, bitBool, cutHi, cutLo, cutAll, cutWide, Nat.reduceSub] <;> simp (disch := decide) only [Nat.reduceAdd, Nat.reduceSub, bitHi, bitLo, bitBool, cutAll, cutWide]

theorem fdiv (single : Bool) (rm : BitVec 2) (a b c : Reg) : Statement (.fdiv single rm a b c) := by
  refine decodes (encSR 2 4 a b c 0 0 (qualF single rm false) 0) rfl ?_
  rw [atFlt (classSR ..), fieldsFlt, opSR]
  show some (Instr.fdiv _ _ _ _ _) = _
  simp (disch := decide) only [encSR, qualF, bitHi, bitLo, bitBool, cutHi, cutLo, cutAll, cutWide, Nat.reduceSub] <;> simp (disch := decide) only [Nat.reduceAdd, Nat.reduceSub, bitHi, bitLo, bitBool, cutAll, cutWide]

theorem fsqrt (single : Bool) (rm : BitVec 2) (a b : Reg) : Statement (.fsqrt single rm a b) := by
  refine decodes (encSR 2 5 a b 0 0 0 (qualF single rm false) 0) rfl ?_
  rw [atFlt (classSR ..), fieldsFlt, opSR]
  show some (Instr.fsqrt _ _ _ _) = _
  simp (disch := decide) only [encSR, qualF, bitHi, bitLo, bitBool, cutHi, cutLo, cutAll, cutWide, Nat.reduceSub] <;> simp (disch := decide) only [Nat.reduceAdd, Nat.reduceSub, bitHi, bitLo, bitBool, cutAll, cutWide]

theorem fmin (single : Bool) (a b c : Reg) : Statement (.fmin single a b c) := by
  refine decodes (encSR 2 6 a b c 0 0 (qualF single 0 false) 0) rfl ?_
  rw [atFlt (classSR ..), fieldsFlt, opSR]
  show some (Instr.fmin _ _ _ _) = _
  simp (disch := decide) only [encSR, qualF, bitHi, bitLo, bitBool, cutHi, cutLo, cutAll, cutWide, Nat.reduceSub] <;> simp (disch := decide) only [Nat.reduceAdd, Nat.reduceSub, bitHi, bitLo, bitBool, cutAll, cutWide]

theorem fmax (single : Bool) (a b c : Reg) : Statement (.fmax single a b c) := by
  refine decodes (encSR 2 7 a b c 0 0 (qualF single 0 false) 0) rfl ?_
  rw [atFlt (classSR ..), fieldsFlt, opSR]
  show some (Instr.fmax _ _ _ _) = _
  simp (disch := decide) only [encSR, qualF, bitHi, bitLo, bitBool, cutHi, cutLo, cutAll, cutWide, Nat.reduceSub] <;> simp (disch := decide) only [Nat.reduceAdd, Nat.reduceSub, bitHi, bitLo, bitBool, cutAll, cutWide]

theorem fceq (single : Bool) (a b c : Reg) : Statement (.fceq single a b c) := by
  refine decodes (encSR 2 8 a b c 0 0 (qualF single 0 false) 0) rfl ?_
  rw [atFlt (classSR ..), fieldsFlt, opSR]
  show some (Instr.fceq _ _ _ _) = _
  simp (disch := decide) only [encSR, qualF, bitHi, bitLo, bitBool, cutHi, cutLo, cutAll, cutWide, Nat.reduceSub] <;> simp (disch := decide) only [Nat.reduceAdd, Nat.reduceSub, bitHi, bitLo, bitBool, cutAll, cutWide]

theorem fclt (single : Bool) (a b c : Reg) : Statement (.fclt single a b c) := by
  refine decodes (encSR 2 9 a b c 0 0 (qualF single 0 false) 0) rfl ?_
  rw [atFlt (classSR ..), fieldsFlt, opSR]
  show some (Instr.fclt _ _ _ _) = _
  simp (disch := decide) only [encSR, qualF, bitHi, bitLo, bitBool, cutHi, cutLo, cutAll, cutWide, Nat.reduceSub] <;> simp (disch := decide) only [Nat.reduceAdd, Nat.reduceSub, bitHi, bitLo, bitBool, cutAll, cutWide]

theorem fcle (single : Bool) (a b c : Reg) : Statement (.fcle single a b c) := by
  refine decodes (encSR 2 10 a b c 0 0 (qualF single 0 false) 0) rfl ?_
  rw [atFlt (classSR ..), fieldsFlt, opSR]
  show some (Instr.fcle _ _ _ _) = _
  simp (disch := decide) only [encSR, qualF, bitHi, bitLo, bitBool, cutHi, cutLo, cutAll, cutWide, Nat.reduceSub] <;> simp (disch := decide) only [Nat.reduceAdd, Nat.reduceSub, bitHi, bitLo, bitBool, cutAll, cutWide]

theorem fcvti (sat single : Bool) (rm : BitVec 2) (a b : Reg) : Statement (.fcvti sat single rm a b) := by
  refine decodes (encSR 2 11 a b 0 0 0 (qualF single rm sat) 0) rfl ?_
  rw [atFlt (classSR ..), fieldsFlt, opSR]
  show some (Instr.fcvti _ _ _ _ _) = _
  simp (disch := decide) only [encSR, qualF, bitHi, bitLo, bitBool, cutHi, cutLo, cutAll, cutWide, Nat.reduceSub] <;> simp (disch := decide) only [Nat.reduceAdd, Nat.reduceSub, bitHi, bitLo, bitBool, cutAll, cutWide]

theorem fcvtf (single : Bool) (rm : BitVec 2) (a b : Reg) (kind : BitVec 2) : Statement (.fcvtf single rm a b kind) := by
  refine decodes (encSR 2 12 a b (kind.setWidth 6) 0 0 (qualF single rm false) 0) rfl ?_
  rw [atFlt (classSR ..), fieldsFlt, opSR]
  show some (Instr.fcvtf _ _ _ _ _) = _
  simp (disch := decide) only [encSR, qualF, bitHi, bitLo, bitBool, cutHi, cutLo, cutAll, cutWide, Nat.reduceSub] <;> simp (disch := decide) only [Nat.reduceAdd, Nat.reduceSub, bitHi, bitLo, bitBool, cutAll, cutWide]

theorem fcvtw (sat single : Bool) (rm : BitVec 2) (a b : Reg) : Statement (.fcvtw sat single rm a b) := by
  refine decodes (encSR 2 13 a b 0 0 0 (qualF single rm sat) 0) rfl ?_
  rw [atFlt (classSR ..), fieldsFlt, opSR]
  show some (Instr.fcvtw _ _ _ _ _) = _
  simp (disch := decide) only [encSR, qualF, bitHi, bitLo, bitBool, cutHi, cutLo, cutAll, cutWide, Nat.reduceSub] <;> simp (disch := decide) only [Nat.reduceAdd, Nat.reduceSub, bitHi, bitLo, bitBool, cutAll, cutWide]

theorem fabs (single : Bool) (a b : Reg) : Statement (.fabs single a b) := by
  refine decodes (encSR 2 14 a b 0 0 0 (qualF single 0 false) 0) rfl ?_
  rw [atFlt (classSR ..), fieldsFlt, opSR]
  show some (Instr.fabs _ _ _) = _
  simp (disch := decide) only [encSR, qualF, bitHi, bitLo, bitBool, cutHi, cutLo, cutAll, cutWide, Nat.reduceSub] <;> simp (disch := decide) only [Nat.reduceAdd, Nat.reduceSub, bitHi, bitLo, bitBool, cutAll, cutWide]

theorem fneg (single : Bool) (a b : Reg) : Statement (.fneg single a b) := by
  refine decodes (encSR 2 15 a b 0 0 0 (qualF single 0 false) 0) rfl ?_
  rw [atFlt (classSR ..), fieldsFlt, opSR]
  show some (Instr.fneg _ _ _) = _
  simp (disch := decide) only [encSR, qualF, bitHi, bitLo, bitBool, cutHi, cutLo, cutAll, cutWide, Nat.reduceSub] <;> simp (disch := decide) only [Nat.reduceAdd, Nat.reduceSub, bitHi, bitLo, bitBool, cutAll, cutWide]

theorem fclass (single : Bool) (a b : Reg) : Statement (.fclass single a b) := by
  refine decodes (encSR 2 16 a b 0 0 0 (qualF single 0 false) 0) rfl ?_
  rw [atFlt (classSR ..), fieldsFlt, opSR]
  show some (Instr.fclass _ _ _) = _
  simp (disch := decide) only [encSR, qualF, bitHi, bitLo, bitBool, cutHi, cutLo, cutAll, cutWide, Nat.reduceSub] <;> simp (disch := decide) only [Nat.reduceAdd, Nat.reduceSub, bitHi, bitLo, bitBool, cutAll, cutWide]

theorem br (off : BitVec 32) : Statement (.br off) := by
  refine decodes (encSB 0 0 0 off) rfl ?_
  rw [atCtl (classSB ..), fieldsCtl, opSB]
  show some (Instr.br _) = _
  simp (disch := decide) only [encSB, bitHi, bitLo, bitBool, cutHi, cutLo, cutAll, cutWide, Nat.reduceSub] <;> simp (disch := decide) only [Nat.reduceAdd, Nat.reduceSub, bitHi, bitLo, bitBool, cutAll, cutWide]

theorem beq (a b : Reg) (off : BitVec 32) : Statement (.beq a b off) := by
  refine decodes (encSB 1 a b off) rfl ?_
  rw [atCtl (classSB ..), fieldsCtl, opSB]
  show some (Instr.beq _ _ _) = _
  simp (disch := decide) only [encSB, bitHi, bitLo, bitBool, cutHi, cutLo, cutAll, cutWide, Nat.reduceSub] <;> simp (disch := decide) only [Nat.reduceAdd, Nat.reduceSub, bitHi, bitLo, bitBool, cutAll, cutWide]

theorem bne (a b : Reg) (off : BitVec 32) : Statement (.bne a b off) := by
  refine decodes (encSB 2 a b off) rfl ?_
  rw [atCtl (classSB ..), fieldsCtl, opSB]
  show some (Instr.bne _ _ _) = _
  simp (disch := decide) only [encSB, bitHi, bitLo, bitBool, cutHi, cutLo, cutAll, cutWide, Nat.reduceSub] <;> simp (disch := decide) only [Nat.reduceAdd, Nat.reduceSub, bitHi, bitLo, bitBool, cutAll, cutWide]

theorem blt (a b : Reg) (off : BitVec 32) : Statement (.blt a b off) := by
  refine decodes (encSB 3 a b off) rfl ?_
  rw [atCtl (classSB ..), fieldsCtl, opSB]
  show some (Instr.blt _ _ _) = _
  simp (disch := decide) only [encSB, bitHi, bitLo, bitBool, cutHi, cutLo, cutAll, cutWide, Nat.reduceSub] <;> simp (disch := decide) only [Nat.reduceAdd, Nat.reduceSub, bitHi, bitLo, bitBool, cutAll, cutWide]

theorem bge (a b : Reg) (off : BitVec 32) : Statement (.bge a b off) := by
  refine decodes (encSB 4 a b off) rfl ?_
  rw [atCtl (classSB ..), fieldsCtl, opSB]
  show some (Instr.bge _ _ _) = _
  simp (disch := decide) only [encSB, bitHi, bitLo, bitBool, cutHi, cutLo, cutAll, cutWide, Nat.reduceSub] <;> simp (disch := decide) only [Nat.reduceAdd, Nat.reduceSub, bitHi, bitLo, bitBool, cutAll, cutWide]

theorem bltu (a b : Reg) (off : BitVec 32) : Statement (.bltu a b off) := by
  refine decodes (encSB 5 a b off) rfl ?_
  rw [atCtl (classSB ..), fieldsCtl, opSB]
  show some (Instr.bltu _ _ _) = _
  simp (disch := decide) only [encSB, bitHi, bitLo, bitBool, cutHi, cutLo, cutAll, cutWide, Nat.reduceSub] <;> simp (disch := decide) only [Nat.reduceAdd, Nat.reduceSub, bitHi, bitLo, bitBool, cutAll, cutWide]

theorem bgeu (a b : Reg) (off : BitVec 32) : Statement (.bgeu a b off) := by
  refine decodes (encSB 6 a b off) rfl ?_
  rw [atCtl (classSB ..), fieldsCtl, opSB]
  show some (Instr.bgeu _ _ _) = _
  simp (disch := decide) only [encSB, bitHi, bitLo, bitBool, cutHi, cutLo, cutAll, cutWide, Nat.reduceSub] <;> simp (disch := decide) only [Nat.reduceAdd, Nat.reduceSub, bitHi, bitLo, bitBool, cutAll, cutWide]

theorem call (a : Reg) (off : BitVec 32) : Statement (.call a off) := by
  refine decodes (encSB 7 a 0 off) rfl ?_
  rw [atCtl (classSB ..), fieldsCtl, opSB]
  show some (Instr.call _ _) = _
  simp (disch := decide) only [encSB, bitHi, bitLo, bitBool, cutHi, cutLo, cutAll, cutWide, Nat.reduceSub] <;> simp (disch := decide) only [Nat.reduceAdd, Nat.reduceSub, bitHi, bitLo, bitBool, cutAll, cutWide]

theorem callr (a b : Reg) : Statement (.callr a b) := by
  refine decodes (encSB 8 a b 0) rfl ?_
  rw [atCtl (classSB ..), fieldsCtl, opSB]
  show some (Instr.callr _ _) = _
  simp (disch := decide) only [encSB, bitHi, bitLo, bitBool, cutHi, cutLo, cutAll, cutWide, Nat.reduceSub] <;> simp (disch := decide) only [Nat.reduceAdd, Nat.reduceSub, bitHi, bitLo, bitBool, cutAll, cutWide]

theorem ret (b : Reg) : Statement (.ret b) := by
  refine decodes (encSB 9 0 b 0) rfl ?_
  rw [atCtl (classSB ..), fieldsCtl, opSB]
  show some (Instr.ret _) = _
  simp (disch := decide) only [encSB, bitHi, bitLo, bitBool, cutHi, cutLo, cutAll, cutWide, Nat.reduceSub] <;> simp (disch := decide) only [Nat.reduceAdd, Nat.reduceSub, bitHi, bitLo, bitBool, cutAll, cutWide]

theorem jmpr (b : Reg) : Statement (.jmpr b) := by
  refine decodes (encSB 10 0 b 0) rfl ?_
  rw [atCtl (classSB ..), fieldsCtl, opSB]
  show some (Instr.jmpr _) = _
  simp (disch := decide) only [encSB, bitHi, bitLo, bitBool, cutHi, cutLo, cutAll, cutWide, Nat.reduceSub] <;> simp (disch := decide) only [Nat.reduceAdd, Nat.reduceSub, bitHi, bitLo, bitBool, cutAll, cutWide]

theorem loop (cnt : Reg) (len : BitVec 14) (imm : BitVec 16) (base : BitVec 4) : Statement (.loop cnt len imm base) := by
  refine decodes (encSL 11 cnt len imm base) rfl ?_
  rw [atCtl (classSL ..), fieldsCtl, opSL]
  show some (Instr.loop _ _ _ _) = _
  simp (disch := decide) only [encSL, bitHi, bitLo, bitBool, cutHi, cutLo, cutAll, cutWide, Nat.reduceSub] <;> simp (disch := decide) only [Nat.reduceAdd, Nat.reduceSub, bitHi, bitLo, bitBool, cutAll, cutWide]

theorem loopx (cnt : Reg) (len : BitVec 14) (imm : BitVec 16) (base : BitVec 4) : Statement (.loopx cnt len imm base) := by
  refine decodes (encSL 12 cnt len imm base) rfl ?_
  rw [atCtl (classSL ..), fieldsCtl, opSL]
  show some (Instr.loopx _ _ _ _) = _
  simp (disch := decide) only [encSL, bitHi, bitLo, bitBool, cutHi, cutLo, cutAll, cutWide, Nat.reduceSub] <;> simp (disch := decide) only [Nat.reduceAdd, Nat.reduceSub, bitHi, bitLo, bitBool, cutAll, cutWide]

theorem nop : Statement (.nop) := by
  refine decodes (encSB 13 0 0 0) rfl ?_
  rw [atCtl (classSB ..), fieldsCtl, opSB]
  show some (Instr.nop) = _
  rfl

theorem brk (code : BitVec 32) : Statement (.brk code) := by
  refine decodes (encSB 14 0 0 code) rfl ?_
  rw [atCtl (classSB ..), fieldsCtl, opSB]
  show some (Instr.brk _) = _
  simp (disch := decide) only [encSB, bitHi, bitLo, bitBool, cutHi, cutLo, cutAll, cutWide, Nat.reduceSub] <;> simp (disch := decide) only [Nat.reduceAdd, Nat.reduceSub, bitHi, bitLo, bitBool, cutAll, cutWide]

theorem ld (size : BitVec 2) (sx byp : Bool) (oc : BitVec 4) (a b : Reg) (imm : BitVec 32) : Statement (.ld size sx byp oc a b imm) := by
  refine decodes (encSI 4 0 a b oc (qualM size sx byp) imm) rfl ?_
  rw [atMem (classSI ..), fieldsMem, opSI]
  show some (Instr.ld _ _ _ _ _ _ _) = _
  simp (disch := decide) only [encSI, qualM, bitHi, bitLo, bitBool, cutHi, cutLo, cutAll, cutWide, Nat.reduceSub] <;> simp (disch := decide) only [Nat.reduceAdd, Nat.reduceSub, bitHi, bitLo, bitBool, cutAll, cutWide]

theorem st (size : BitVec 2) (oc : BitVec 4) (a b : Reg) (imm : BitVec 32) : Statement (.st size oc a b imm) := by
  refine decodes (encSI 4 1 a b oc (qualM size false false) imm) rfl ?_
  rw [atMem (classSI ..), fieldsMem, opSI]
  show some (Instr.st _ _ _ _ _) = _
  simp (disch := decide) only [encSI, qualM, bitHi, bitLo, bitBool, cutHi, cutLo, cutAll, cutWide, Nat.reduceSub] <;> simp (disch := decide) only [Nat.reduceAdd, Nat.reduceSub, bitHi, bitLo, bitBool, cutAll, cutWide]

theorem lds (size : BitVec 2) (sx : Bool) (oc : BitVec 4) (a b : Reg) (imm : BitVec 32) : Statement (.lds size sx oc a b imm) := by
  refine decodes (encSI 4 2 a b oc (qualM size sx false) imm) rfl ?_
  rw [atMem (classSI ..), fieldsMem, opSI]
  show some (Instr.lds _ _ _ _ _ _) = _
  simp (disch := decide) only [encSI, qualM, bitHi, bitLo, bitBool, cutHi, cutLo, cutAll, cutWide, Nat.reduceSub] <;> simp (disch := decide) only [Nat.reduceAdd, Nat.reduceSub, bitHi, bitLo, bitBool, cutAll, cutWide]

theorem sts (size : BitVec 2) (oc : BitVec 4) (a b : Reg) (imm : BitVec 32) : Statement (.sts size oc a b imm) := by
  refine decodes (encSI 4 3 a b oc (qualM size false false) imm) rfl ?_
  rw [atMem (classSI ..), fieldsMem, opSI]
  show some (Instr.sts _ _ _ _ _) = _
  simp (disch := decide) only [encSI, qualM, bitHi, bitLo, bitBool, cutHi, cutLo, cutAll, cutWide, Nat.reduceSub] <;> simp (disch := decide) only [Nat.reduceAdd, Nat.reduceSub, bitHi, bitLo, bitBool, cutAll, cutWide]

theorem fence (sem : BitVec 2) (scope : BitVec 3) (mask : BitVec 16) : Statement (.fence sem scope mask) := by
  refine decodes (encSR 4 4 0 0 0 0 0 (qualA false sem scope) mask) rfl ?_
  rw [atMem (classSR ..), fieldsMem, opSR]
  show some (Instr.fence _ _ _) = _
  simp (disch := decide) only [encSR, qualA, bitHi, bitLo, bitBool, cutHi, cutLo, cutAll, cutWide, Nat.reduceSub] <;> simp (disch := decide) only [Nat.reduceAdd, Nat.reduceSub, bitHi, bitLo, bitBool, cutAll, cutWide]

theorem l1inv (b c : Reg) : Statement (.l1inv b c) := by
  refine decodes (encSR 4 5 0 b c 0 0 0 0) rfl ?_
  rw [atMem (classSR ..), fieldsMem, opSR]
  show some (Instr.l1inv _ _) = _
  simp (disch := decide) only [encSR, bitHi, bitLo, bitBool, cutHi, cutLo, cutAll, cutWide, Nat.reduceSub] <;> simp (disch := decide) only [Nat.reduceAdd, Nat.reduceSub, bitHi, bitLo, bitBool, cutAll, cutWide]

theorem pref (oc : BitVec 4) (b c : Reg) : Statement (.pref oc b c) := by
  refine decodes (encSR 4 6 0 b c 0 oc 0 0) rfl ?_
  rw [atMem (classSR ..), fieldsMem, opSR]
  show some (Instr.pref _ _ _) = _
  simp (disch := decide) only [encSR, bitHi, bitLo, bitBool, cutHi, cutLo, cutAll, cutWide, Nat.reduceSub] <;> simp (disch := decide) only [Nat.reduceAdd, Nat.reduceSub, bitHi, bitLo, bitBool, cutAll, cutWide]

theorem bankmode (a b c : Reg) : Statement (.bankmode a b c) := by
  refine decodes (encSR 4 7 a b c 0 0 0 0) rfl ?_
  rw [atMem (classSR ..), fieldsMem, opSR]
  show some (Instr.bankmode _ _ _) = _
  simp (disch := decide) only [encSR, bitHi, bitLo, bitBool, cutHi, cutLo, cutAll, cutWide, Nat.reduceSub] <;> simp (disch := decide) only [Nat.reduceAdd, Nat.reduceSub, bitHi, bitLo, bitBool, cutAll, cutWide]

theorem dset (da : DReg) (b : Reg) (q : BitVec 2) : Statement (.dset da b q) := by
  refine decodes (encSR 4 8 (da.setWidth 6) b 0 (q.setWidth 6) 0 0 0) rfl ?_
  rw [atMem (classSR ..), fieldsMem, opSR]
  show some (Instr.dset _ _ _) = _
  simp (disch := decide) only [encSR, bitHi, bitLo, bitBool, cutHi, cutLo, cutAll, cutWide, Nat.reduceSub] <;> simp (disch := decide) only [Nat.reduceAdd, Nat.reduceSub, bitHi, bitLo, bitBool, cutAll, cutWide]

theorem dget (a : Reg) (db : DReg) (q : BitVec 2) : Statement (.dget a db q) := by
  refine decodes (encSR 4 9 a (db.setWidth 6) 0 (q.setWidth 6) 0 0 0) rfl ?_
  rw [atMem (classSR ..), fieldsMem, opSR]
  show some (Instr.dget _ _ _) = _
  simp (disch := decide) only [encSR, bitHi, bitLo, bitBool, cutHi, cutLo, cutAll, cutWide, Nat.reduceSub] <;> simp (disch := decide) only [Nat.reduceAdd, Nat.reduceSub, bitHi, bitLo, bitBool, cutAll, cutWide]

theorem dld (oc : BitVec 4) (da : DReg) (b : Reg) : Statement (.dld oc da b) := by
  refine decodes (encSR 4 10 (da.setWidth 6) b 0 0 oc 0 0) rfl ?_
  rw [atMem (classSR ..), fieldsMem, opSR]
  show some (Instr.dld _ _ _) = _
  simp (disch := decide) only [encSR, bitHi, bitLo, bitBool, cutHi, cutLo, cutAll, cutWide, Nat.reduceSub] <;> simp (disch := decide) only [Nat.reduceAdd, Nat.reduceSub, bitHi, bitLo, bitBool, cutAll, cutWide]

theorem aadd (w : Bool) (sem : BitVec 2) (scope : BitVec 3) (oc : BitVec 4) (mask : BitVec 16) (a b c : Reg) : Statement (.aadd w sem scope oc mask a b c) := by
  refine decodes (encSR 5 0 a b c 0 oc (qualA w sem scope) mask) rfl ?_
  rw [atSyn (classSR ..), fieldsSyn, opSR]
  show some (Instr.aadd _ _ _ _ _ _ _ _) = _
  simp (disch := decide) only [encSR, qualA, bitHi, bitLo, bitBool, cutHi, cutLo, cutAll, cutWide, Nat.reduceSub] <;> simp (disch := decide) only [Nat.reduceAdd, Nat.reduceSub, bitHi, bitLo, bitBool, cutAll, cutWide]

theorem aand (w : Bool) (sem : BitVec 2) (scope : BitVec 3) (oc : BitVec 4) (mask : BitVec 16) (a b c : Reg) : Statement (.aand w sem scope oc mask a b c) := by
  refine decodes (encSR 5 1 a b c 0 oc (qualA w sem scope) mask) rfl ?_
  rw [atSyn (classSR ..), fieldsSyn, opSR]
  show some (Instr.aand _ _ _ _ _ _ _ _) = _
  simp (disch := decide) only [encSR, qualA, bitHi, bitLo, bitBool, cutHi, cutLo, cutAll, cutWide, Nat.reduceSub] <;> simp (disch := decide) only [Nat.reduceAdd, Nat.reduceSub, bitHi, bitLo, bitBool, cutAll, cutWide]

theorem aor (w : Bool) (sem : BitVec 2) (scope : BitVec 3) (oc : BitVec 4) (mask : BitVec 16) (a b c : Reg) : Statement (.aor w sem scope oc mask a b c) := by
  refine decodes (encSR 5 2 a b c 0 oc (qualA w sem scope) mask) rfl ?_
  rw [atSyn (classSR ..), fieldsSyn, opSR]
  show some (Instr.aor _ _ _ _ _ _ _ _) = _
  simp (disch := decide) only [encSR, qualA, bitHi, bitLo, bitBool, cutHi, cutLo, cutAll, cutWide, Nat.reduceSub] <;> simp (disch := decide) only [Nat.reduceAdd, Nat.reduceSub, bitHi, bitLo, bitBool, cutAll, cutWide]

theorem axor (w : Bool) (sem : BitVec 2) (scope : BitVec 3) (oc : BitVec 4) (mask : BitVec 16) (a b c : Reg) : Statement (.axor w sem scope oc mask a b c) := by
  refine decodes (encSR 5 3 a b c 0 oc (qualA w sem scope) mask) rfl ?_
  rw [atSyn (classSR ..), fieldsSyn, opSR]
  show some (Instr.axor _ _ _ _ _ _ _ _) = _
  simp (disch := decide) only [encSR, qualA, bitHi, bitLo, bitBool, cutHi, cutLo, cutAll, cutWide, Nat.reduceSub] <;> simp (disch := decide) only [Nat.reduceAdd, Nat.reduceSub, bitHi, bitLo, bitBool, cutAll, cutWide]

theorem amin (w : Bool) (sem : BitVec 2) (scope : BitVec 3) (oc : BitVec 4) (mask : BitVec 16) (a b c : Reg) : Statement (.amin w sem scope oc mask a b c) := by
  refine decodes (encSR 5 4 a b c 0 oc (qualA w sem scope) mask) rfl ?_
  rw [atSyn (classSR ..), fieldsSyn, opSR]
  show some (Instr.amin _ _ _ _ _ _ _ _) = _
  simp (disch := decide) only [encSR, qualA, bitHi, bitLo, bitBool, cutHi, cutLo, cutAll, cutWide, Nat.reduceSub] <;> simp (disch := decide) only [Nat.reduceAdd, Nat.reduceSub, bitHi, bitLo, bitBool, cutAll, cutWide]

theorem amax (w : Bool) (sem : BitVec 2) (scope : BitVec 3) (oc : BitVec 4) (mask : BitVec 16) (a b c : Reg) : Statement (.amax w sem scope oc mask a b c) := by
  refine decodes (encSR 5 5 a b c 0 oc (qualA w sem scope) mask) rfl ?_
  rw [atSyn (classSR ..), fieldsSyn, opSR]
  show some (Instr.amax _ _ _ _ _ _ _ _) = _
  simp (disch := decide) only [encSR, qualA, bitHi, bitLo, bitBool, cutHi, cutLo, cutAll, cutWide, Nat.reduceSub] <;> simp (disch := decide) only [Nat.reduceAdd, Nat.reduceSub, bitHi, bitLo, bitBool, cutAll, cutWide]

theorem aminu (w : Bool) (sem : BitVec 2) (scope : BitVec 3) (oc : BitVec 4) (mask : BitVec 16) (a b c : Reg) : Statement (.aminu w sem scope oc mask a b c) := by
  refine decodes (encSR 5 6 a b c 0 oc (qualA w sem scope) mask) rfl ?_
  rw [atSyn (classSR ..), fieldsSyn, opSR]
  show some (Instr.aminu _ _ _ _ _ _ _ _) = _
  simp (disch := decide) only [encSR, qualA, bitHi, bitLo, bitBool, cutHi, cutLo, cutAll, cutWide, Nat.reduceSub] <;> simp (disch := decide) only [Nat.reduceAdd, Nat.reduceSub, bitHi, bitLo, bitBool, cutAll, cutWide]

theorem amaxu (w : Bool) (sem : BitVec 2) (scope : BitVec 3) (oc : BitVec 4) (mask : BitVec 16) (a b c : Reg) : Statement (.amaxu w sem scope oc mask a b c) := by
  refine decodes (encSR 5 7 a b c 0 oc (qualA w sem scope) mask) rfl ?_
  rw [atSyn (classSR ..), fieldsSyn, opSR]
  show some (Instr.amaxu _ _ _ _ _ _ _ _) = _
  simp (disch := decide) only [encSR, qualA, bitHi, bitLo, bitBool, cutHi, cutLo, cutAll, cutWide, Nat.reduceSub] <;> simp (disch := decide) only [Nat.reduceAdd, Nat.reduceSub, bitHi, bitLo, bitBool, cutAll, cutWide]

theorem aswap (w : Bool) (sem : BitVec 2) (scope : BitVec 3) (oc : BitVec 4) (mask : BitVec 16) (a b c : Reg) : Statement (.aswap w sem scope oc mask a b c) := by
  refine decodes (encSR 5 8 a b c 0 oc (qualA w sem scope) mask) rfl ?_
  rw [atSyn (classSR ..), fieldsSyn, opSR]
  show some (Instr.aswap _ _ _ _ _ _ _ _) = _
  simp (disch := decide) only [encSR, qualA, bitHi, bitLo, bitBool, cutHi, cutLo, cutAll, cutWide, Nat.reduceSub] <;> simp (disch := decide) only [Nat.reduceAdd, Nat.reduceSub, bitHi, bitLo, bitBool, cutAll, cutWide]

theorem acas (w : Bool) (sem : BitVec 2) (scope : BitVec 3) (oc : BitVec 4) (mask : BitVec 16) (a b c d : Reg) : Statement (.acas w sem scope oc mask a b c d) := by
  refine decodes (encSR 5 9 a b c d oc (qualA w sem scope) mask) rfl ?_
  rw [atSyn (classSR ..), fieldsSyn, opSR]
  show some (Instr.acas _ _ _ _ _ _ _ _ _) = _
  simp (disch := decide) only [encSR, qualA, bitHi, bitLo, bitBool, cutHi, cutLo, cutAll, cutWide, Nat.reduceSub] <;> simp (disch := decide) only [Nat.reduceAdd, Nat.reduceSub, bitHi, bitLo, bitBool, cutAll, cutWide]

theorem afadd (single : Bool) (sem : BitVec 2) (scope : BitVec 3) (oc : BitVec 4) (mask : BitVec 16) (a b c : Reg) : Statement (.afadd single sem scope oc mask a b c) := by
  refine decodes (encSR 5 10 a b c 0 oc (qualA single sem scope) mask) rfl ?_
  rw [atSyn (classSR ..), fieldsSyn, opSR]
  show some (Instr.afadd _ _ _ _ _ _ _ _) = _
  simp (disch := decide) only [encSR, qualA, bitHi, bitLo, bitBool, cutHi, cutLo, cutAll, cutWide, Nat.reduceSub] <;> simp (disch := decide) only [Nat.reduceAdd, Nat.reduceSub, bitHi, bitLo, bitBool, cutAll, cutWide]

theorem barr (scope : BitVec 3) (mask : BitVec 16) (a b c : Reg) : Statement (.barr scope mask a b c) := by
  refine decodes (encSR 5 11 a b c 0 0 (qualA false 0 scope) mask) rfl ?_
  rw [atSyn (classSR ..), fieldsSyn, opSR]
  show some (Instr.barr _ _ _ _ _) = _
  simp (disch := decide) only [encSR, qualA, bitHi, bitLo, bitBool, cutHi, cutLo, cutAll, cutWide, Nat.reduceSub] <;> simp (disch := decide) only [Nat.reduceAdd, Nat.reduceSub, bitHi, bitLo, bitBool, cutAll, cutWide]

theorem bwait (scope : BitVec 3) (mask : BitVec 16) (a b c : Reg) : Statement (.bwait scope mask a b c) := by
  refine decodes (encSR 5 12 a b c 0 0 (qualA false 0 scope) mask) rfl ?_
  rw [atSyn (classSR ..), fieldsSyn, opSR]
  show some (Instr.bwait _ _ _ _ _) = _
  simp (disch := decide) only [encSR, qualA, bitHi, bitLo, bitBool, cutHi, cutLo, cutAll, cutWide, Nat.reduceSub] <;> simp (disch := decide) only [Nat.reduceAdd, Nat.reduceSub, bitHi, bitLo, bitBool, cutAll, cutWide]

theorem mwait (scope : BitVec 3) (mask : BitVec 16) (a b c : Reg) : Statement (.mwait scope mask a b c) := by
  refine decodes (encSR 5 13 a b c 0 0 (qualA false 0 scope) mask) rfl ?_
  rw [atSyn (classSR ..), fieldsSyn, opSR]
  show some (Instr.mwait _ _ _ _ _) = _
  simp (disch := decide) only [encSR, qualA, bitHi, bitLo, bitBool, cutHi, cutLo, cutAll, cutWide, Nat.reduceSub] <;> simp (disch := decide) only [Nat.reduceAdd, Nat.reduceSub, bitHi, bitLo, bitBool, cutAll, cutWide]

theorem msig (scope : BitVec 3) (mask : BitVec 16) (b c : Reg) : Statement (.msig scope mask b c) := by
  refine decodes (encSR 5 14 0 b c 0 0 (qualA false 0 scope) mask) rfl ?_
  rw [atSyn (classSR ..), fieldsSyn, opSR]
  show some (Instr.msig _ _ _ _) = _
  simp (disch := decide) only [encSR, qualA, bitHi, bitLo, bitBool, cutHi, cutLo, cutAll, cutWide, Nat.reduceSub] <;> simp (disch := decide) only [Nat.reduceAdd, Nat.reduceSub, bitHi, bitLo, bitBool, cutAll, cutWide]

theorem rinit (a b c : Reg) : Statement (.rinit a b c) := by
  refine decodes (encSR 5 15 a b c 0 0 0 0) rfl ?_
  rw [atSyn (classSR ..), fieldsSyn, opSR]
  show some (Instr.rinit _ _ _) = _
  simp (disch := decide) only [encSR, bitHi, bitLo, bitBool, cutHi, cutLo, cutAll, cutWide, Nat.reduceSub] <;> simp (disch := decide) only [Nat.reduceAdd, Nat.reduceSub, bitHi, bitLo, bitBool, cutAll, cutWide]

theorem rclaim (a b : Reg) : Statement (.rclaim a b) := by
  refine decodes (encSR 5 16 a b 0 0 0 0 0) rfl ?_
  rw [atSyn (classSR ..), fieldsSyn, opSR]
  show some (Instr.rclaim _ _) = _
  simp (disch := decide) only [encSR, bitHi, bitLo, bitBool, cutHi, cutLo, cutAll, cutWide, Nat.reduceSub] <;> simp (disch := decide) only [Nat.reduceAdd, Nat.reduceSub, bitHi, bitLo, bitBool, cutAll, cutWide]

theorem rwaite (a b c : Reg) : Statement (.rwaite a b c) := by
  refine decodes (encSR 5 17 a b c 0 0 0 0) rfl ?_
  rw [atSyn (classSR ..), fieldsSyn, opSR]
  show some (Instr.rwaite _ _ _) = _
  simp (disch := decide) only [encSR, bitHi, bitLo, bitBool, cutHi, cutLo, cutAll, cutWide, Nat.reduceSub] <;> simp (disch := decide) only [Nat.reduceAdd, Nat.reduceSub, bitHi, bitLo, bitBool, cutAll, cutWide]

theorem rcommit (mask : BitVec 16) (b c : Reg) : Statement (.rcommit mask b c) := by
  refine decodes (encSR 5 18 0 b c 0 0 0 mask) rfl ?_
  rw [atSyn (classSR ..), fieldsSyn, opSR]
  show some (Instr.rcommit _ _ _) = _
  simp (disch := decide) only [encSR, bitHi, bitLo, bitBool, cutHi, cutLo, cutAll, cutWide, Nat.reduceSub] <;> simp (disch := decide) only [Nat.reduceAdd, Nat.reduceSub, bitHi, bitLo, bitBool, cutAll, cutWide]

theorem rwaitf (mask : BitVec 16) (a b : Reg) : Statement (.rwaitf mask a b) := by
  refine decodes (encSR 5 19 a b 0 0 0 0 mask) rfl ?_
  rw [atSyn (classSR ..), fieldsSyn, opSR]
  show some (Instr.rwaitf _ _ _) = _
  simp (disch := decide) only [encSR, bitHi, bitLo, bitBool, cutHi, cutLo, cutAll, cutWide, Nat.reduceSub] <;> simp (disch := decide) only [Nat.reduceAdd, Nat.reduceSub, bitHi, bitLo, bitBool, cutAll, cutWide]

theorem rtake (b c : Reg) : Statement (.rtake b c) := by
  refine decodes (encSR 5 20 0 b c 0 0 0 0) rfl ?_
  rw [atSyn (classSR ..), fieldsSyn, opSR]
  show some (Instr.rtake _ _) = _
  simp (disch := decide) only [encSR, bitHi, bitLo, bitBool, cutHi, cutLo, cutAll, cutWide, Nat.reduceSub] <;> simp (disch := decide) only [Nat.reduceAdd, Nat.reduceSub, bitHi, bitLo, bitBool, cutAll, cutWide]

theorem rstat (a b : Reg) (k : BitVec 2) : Statement (.rstat a b k) := by
  refine decodes (encSR 5 21 a b (k.setWidth 6) 0 0 0 0) rfl ?_
  rw [atSyn (classSR ..), fieldsSyn, opSR]
  show some (Instr.rstat _ _ _) = _
  simp (disch := decide) only [encSR, bitHi, bitLo, bitBool, cutHi, cutLo, cutAll, cutWide, Nat.reduceSub] <;> simp (disch := decide) only [Nat.reduceAdd, Nat.reduceSub, bitHi, bitLo, bitBool, cutAll, cutWide]

theorem twait (a : Reg) (q : BitVec 3) : Statement (.twait a q) := by
  refine decodes (encSR 5 22 a (q.setWidth 6) 0 0 0 0 0) rfl ?_
  rw [atSyn (classSR ..), fieldsSyn, opSR]
  show some (Instr.twait _ _) = _
  simp (disch := decide) only [encSR, bitHi, bitLo, bitBool, cutHi, cutLo, cutAll, cutWide, Nat.reduceSub] <;> simp (disch := decide) only [Nat.reduceAdd, Nat.reduceSub, bitHi, bitLo, bitBool, cutAll, cutWide]

theorem tgive (q : BitVec 3) : Statement (.tgive q) := by
  refine decodes (encSR 5 23 0 (q.setWidth 6) 0 0 0 0 0) rfl ?_
  rw [atSyn (classSR ..), fieldsSyn, opSR]
  show some (Instr.tgive _) = _
  simp (disch := decide) only [encSR, bitHi, bitLo, bitBool, cutHi, cutLo, cutAll, cutWide, Nat.reduceSub] <;> simp (disch := decide) only [Nat.reduceAdd, Nat.reduceSub, bitHi, bitLo, bitBool, cutAll, cutWide]

theorem ypop (a : Reg) : Statement (.ypop a) := by
  refine decodes (encSR 5 24 a 0 0 0 0 0 0) rfl ?_
  rw [atSyn (classSR ..), fieldsSyn, opSR]
  show some (Instr.ypop _) = _
  simp (disch := decide) only [encSR, bitHi, bitLo, bitBool, cutHi, cutLo, cutAll, cutWide, Nat.reduceSub] <;> simp (disch := decide) only [Nat.reduceAdd, Nat.reduceSub, bitHi, bitLo, bitBool, cutAll, cutWide]

theorem ypeek (a b : Reg) : Statement (.ypeek a b) := by
  refine decodes (encSR 5 25 a b 0 0 0 0 0) rfl ?_
  rw [atSyn (classSR ..), fieldsSyn, opSR]
  show some (Instr.ypeek _ _) = _
  simp (disch := decide) only [encSR, bitHi, bitLo, bitBool, cutHi, cutLo, cutAll, cutWide, Nat.reduceSub] <;> simp (disch := decide) only [Nat.reduceAdd, Nat.reduceSub, bitHi, bitLo, bitBool, cutAll, cutWide]

theorem vadd (h : EHead) (mk : MReg) (f : BitVec 4) (a b c : Reg) : Statement (.vadd h mk f a b c) := by
  refine decodes (encE 6 0x0 0 h a b c (mk ++ f) false) rfl ?_
  rw [atVec (classE ..), fieldsVec, opE]
  show some (Instr.vadd _ _ _ _ _ _) = _
  rw [headE]
  simp (disch := decide) only [encE, bitHi, bitLo, bitBool, cutHi, cutLo, cutAll, cutWide, Nat.reduceSub] <;> simp (disch := decide) only [Nat.reduceAdd, Nat.reduceSub, bitHi, bitLo, bitBool, cutAll, cutWide]

theorem vsub (h : EHead) (mk : MReg) (f : BitVec 4) (a b c : Reg) : Statement (.vsub h mk f a b c) := by
  refine decodes (encE 6 0x1 0 h a b c (mk ++ f) false) rfl ?_
  rw [atVec (classE ..), fieldsVec, opE]
  show some (Instr.vsub _ _ _ _ _ _) = _
  rw [headE]
  simp (disch := decide) only [encE, bitHi, bitLo, bitBool, cutHi, cutLo, cutAll, cutWide, Nat.reduceSub] <;> simp (disch := decide) only [Nat.reduceAdd, Nat.reduceSub, bitHi, bitLo, bitBool, cutAll, cutWide]

theorem vmul (h : EHead) (mk : MReg) (f : BitVec 4) (a b c : Reg) : Statement (.vmul h mk f a b c) := by
  refine decodes (encE 6 0x2 0 h a b c (mk ++ f) false) rfl ?_
  rw [atVec (classE ..), fieldsVec, opE]
  show some (Instr.vmul _ _ _ _ _ _) = _
  rw [headE]
  simp (disch := decide) only [encE, bitHi, bitLo, bitBool, cutHi, cutLo, cutAll, cutWide, Nat.reduceSub] <;> simp (disch := decide) only [Nat.reduceAdd, Nat.reduceSub, bitHi, bitLo, bitBool, cutAll, cutWide]

theorem vfma (h : EHead) (mk : MReg) (f : BitVec 4) (a b c : Reg) : Statement (.vfma h mk f a b c) := by
  refine decodes (encE 6 0x3 0 h a b c (mk ++ f) false) rfl ?_
  rw [atVec (classE ..), fieldsVec, opE]
  show some (Instr.vfma _ _ _ _ _ _) = _
  rw [headE]
  simp (disch := decide) only [encE, bitHi, bitLo, bitBool, cutHi, cutLo, cutAll, cutWide, Nat.reduceSub] <;> simp (disch := decide) only [Nat.reduceAdd, Nat.reduceSub, bitHi, bitLo, bitBool, cutAll, cutWide]

theorem vfnma (h : EHead) (mk : MReg) (f : BitVec 4) (a b c : Reg) : Statement (.vfnma h mk f a b c) := by
  refine decodes (encE 6 0x4 0 h a b c (mk ++ f) false) rfl ?_
  rw [atVec (classE ..), fieldsVec, opE]
  show some (Instr.vfnma _ _ _ _ _ _) = _
  rw [headE]
  simp (disch := decide) only [encE, bitHi, bitLo, bitBool, cutHi, cutLo, cutAll, cutWide, Nat.reduceSub] <;> simp (disch := decide) only [Nat.reduceAdd, Nat.reduceSub, bitHi, bitLo, bitBool, cutAll, cutWide]

theorem vmin (h : EHead) (mk : MReg) (f : BitVec 4) (a b c : Reg) : Statement (.vmin h mk f a b c) := by
  refine decodes (encE 6 0x5 0 h a b c (mk ++ f) false) rfl ?_
  rw [atVec (classE ..), fieldsVec, opE]
  show some (Instr.vmin _ _ _ _ _ _) = _
  rw [headE]
  simp (disch := decide) only [encE, bitHi, bitLo, bitBool, cutHi, cutLo, cutAll, cutWide, Nat.reduceSub] <;> simp (disch := decide) only [Nat.reduceAdd, Nat.reduceSub, bitHi, bitLo, bitBool, cutAll, cutWide]

theorem vmax (h : EHead) (mk : MReg) (f : BitVec 4) (a b c : Reg) : Statement (.vmax h mk f a b c) := by
  refine decodes (encE 6 0x6 0 h a b c (mk ++ f) false) rfl ?_
  rw [atVec (classE ..), fieldsVec, opE]
  show some (Instr.vmax _ _ _ _ _ _) = _
  rw [headE]
  simp (disch := decide) only [encE, bitHi, bitLo, bitBool, cutHi, cutLo, cutAll, cutWide, Nat.reduceSub] <;> simp (disch := decide) only [Nat.reduceAdd, Nat.reduceSub, bitHi, bitLo, bitBool, cutAll, cutWide]

theorem vabs (h : EHead) (mk : MReg) (f : BitVec 4) (a b : Reg) : Statement (.vabs h mk f a b) := by
  refine decodes (encE 6 0x7 0 h a b 0 (mk ++ f) false) rfl ?_
  rw [atVec (classE ..), fieldsVec, opE]
  show some (Instr.vabs _ _ _ _ _) = _
  rw [headE]
  simp (disch := decide) only [encE, bitHi, bitLo, bitBool, cutHi, cutLo, cutAll, cutWide, Nat.reduceSub] <;> simp (disch := decide) only [Nat.reduceAdd, Nat.reduceSub, bitHi, bitLo, bitBool, cutAll, cutWide]

theorem vneg (h : EHead) (mk : MReg) (f : BitVec 4) (a b : Reg) : Statement (.vneg h mk f a b) := by
  refine decodes (encE 6 0x8 0 h a b 0 (mk ++ f) false) rfl ?_
  rw [atVec (classE ..), fieldsVec, opE]
  show some (Instr.vneg _ _ _ _ _) = _
  rw [headE]
  simp (disch := decide) only [encE, bitHi, bitLo, bitBool, cutHi, cutLo, cutAll, cutWide, Nat.reduceSub] <;> simp (disch := decide) only [Nat.reduceAdd, Nat.reduceSub, bitHi, bitLo, bitBool, cutAll, cutWide]

theorem vdiv (h : EHead) (mk : MReg) (f : BitVec 4) (a b c : Reg) : Statement (.vdiv h mk f a b c) := by
  refine decodes (encE 6 0x9 0 h a b c (mk ++ f) false) rfl ?_
  rw [atVec (classE ..), fieldsVec, opE]
  show some (Instr.vdiv _ _ _ _ _ _) = _
  rw [headE]
  simp (disch := decide) only [encE, bitHi, bitLo, bitBool, cutHi, cutLo, cutAll, cutWide, Nat.reduceSub] <;> simp (disch := decide) only [Nat.reduceAdd, Nat.reduceSub, bitHi, bitLo, bitBool, cutAll, cutWide]

theorem vsqrt (h : EHead) (mk : MReg) (f : BitVec 4) (a b : Reg) : Statement (.vsqrt h mk f a b) := by
  refine decodes (encE 6 0xa 0 h a b 0 (mk ++ f) false) rfl ?_
  rw [atVec (classE ..), fieldsVec, opE]
  show some (Instr.vsqrt _ _ _ _ _) = _
  rw [headE]
  simp (disch := decide) only [encE, bitHi, bitLo, bitBool, cutHi, cutLo, cutAll, cutWide, Nat.reduceSub] <;> simp (disch := decide) only [Nat.reduceAdd, Nat.reduceSub, bitHi, bitLo, bitBool, cutAll, cutWide]

theorem vrsq (h : EHead) (mk : MReg) (f : BitVec 4) (a b : Reg) : Statement (.vrsq h mk f a b) := by
  refine decodes (encE 6 0xb 0 h a b 0 (mk ++ f) false) rfl ?_
  rw [atVec (classE ..), fieldsVec, opE]
  show some (Instr.vrsq _ _ _ _ _) = _
  rw [headE]
  simp (disch := decide) only [encE, bitHi, bitLo, bitBool, cutHi, cutLo, cutAll, cutWide, Nat.reduceSub] <;> simp (disch := decide) only [Nat.reduceAdd, Nat.reduceSub, bitHi, bitLo, bitBool, cutAll, cutWide]

theorem vrcp (h : EHead) (mk : MReg) (f : BitVec 4) (a b : Reg) : Statement (.vrcp h mk f a b) := by
  refine decodes (encE 6 0xc 0 h a b 0 (mk ++ f) false) rfl ?_
  rw [atVec (classE ..), fieldsVec, opE]
  show some (Instr.vrcp _ _ _ _ _) = _
  rw [headE]
  simp (disch := decide) only [encE, bitHi, bitLo, bitBool, cutHi, cutLo, cutAll, cutWide, Nat.reduceSub] <;> simp (disch := decide) only [Nat.reduceAdd, Nat.reduceSub, bitHi, bitLo, bitBool, cutAll, cutWide]

theorem vexp2 (h : EHead) (mk : MReg) (f : BitVec 4) (a b : Reg) : Statement (.vexp2 h mk f a b) := by
  refine decodes (encE 6 0xd 0 h a b 0 (mk ++ f) false) rfl ?_
  rw [atVec (classE ..), fieldsVec, opE]
  show some (Instr.vexp2 _ _ _ _ _) = _
  rw [headE]
  simp (disch := decide) only [encE, bitHi, bitLo, bitBool, cutHi, cutLo, cutAll, cutWide, Nat.reduceSub] <;> simp (disch := decide) only [Nat.reduceAdd, Nat.reduceSub, bitHi, bitLo, bitBool, cutAll, cutWide]

theorem vlog2 (h : EHead) (mk : MReg) (f : BitVec 4) (a b : Reg) : Statement (.vlog2 h mk f a b) := by
  refine decodes (encE 6 0xe 0 h a b 0 (mk ++ f) false) rfl ?_
  rw [atVec (classE ..), fieldsVec, opE]
  show some (Instr.vlog2 _ _ _ _ _) = _
  rw [headE]
  simp (disch := decide) only [encE, bitHi, bitLo, bitBool, cutHi, cutLo, cutAll, cutWide, Nat.reduceSub] <;> simp (disch := decide) only [Nat.reduceAdd, Nat.reduceSub, bitHi, bitLo, bitBool, cutAll, cutWide]

theorem vand (h : EHead) (mk : MReg) (f : BitVec 4) (a b c : Reg) : Statement (.vand h mk f a b c) := by
  refine decodes (encE 6 0xf 0 h a b c (mk ++ f) false) rfl ?_
  rw [atVec (classE ..), fieldsVec, opE]
  show some (Instr.vand _ _ _ _ _ _) = _
  rw [headE]
  simp (disch := decide) only [encE, bitHi, bitLo, bitBool, cutHi, cutLo, cutAll, cutWide, Nat.reduceSub] <;> simp (disch := decide) only [Nat.reduceAdd, Nat.reduceSub, bitHi, bitLo, bitBool, cutAll, cutWide]

theorem vor (h : EHead) (mk : MReg) (f : BitVec 4) (a b c : Reg) : Statement (.vor h mk f a b c) := by
  refine decodes (encE 6 0x10 0 h a b c (mk ++ f) false) rfl ?_
  rw [atVec (classE ..), fieldsVec, opE]
  show some (Instr.vor _ _ _ _ _ _) = _
  rw [headE]
  simp (disch := decide) only [encE, bitHi, bitLo, bitBool, cutHi, cutLo, cutAll, cutWide, Nat.reduceSub] <;> simp (disch := decide) only [Nat.reduceAdd, Nat.reduceSub, bitHi, bitLo, bitBool, cutAll, cutWide]

theorem vxor (h : EHead) (mk : MReg) (f : BitVec 4) (a b c : Reg) : Statement (.vxor h mk f a b c) := by
  refine decodes (encE 6 0x11 0 h a b c (mk ++ f) false) rfl ?_
  rw [atVec (classE ..), fieldsVec, opE]
  show some (Instr.vxor _ _ _ _ _ _) = _
  rw [headE]
  simp (disch := decide) only [encE, bitHi, bitLo, bitBool, cutHi, cutLo, cutAll, cutWide, Nat.reduceSub] <;> simp (disch := decide) only [Nat.reduceAdd, Nat.reduceSub, bitHi, bitLo, bitBool, cutAll, cutWide]

theorem vshl (h : EHead) (mk : MReg) (f : BitVec 4) (a b c : Reg) : Statement (.vshl h mk f a b c) := by
  refine decodes (encE 6 0x12 0 h a b c (mk ++ f) false) rfl ?_
  rw [atVec (classE ..), fieldsVec, opE]
  show some (Instr.vshl _ _ _ _ _ _) = _
  rw [headE]
  simp (disch := decide) only [encE, bitHi, bitLo, bitBool, cutHi, cutLo, cutAll, cutWide, Nat.reduceSub] <;> simp (disch := decide) only [Nat.reduceAdd, Nat.reduceSub, bitHi, bitLo, bitBool, cutAll, cutWide]

theorem vshr (h : EHead) (mk : MReg) (f : BitVec 4) (a b c : Reg) : Statement (.vshr h mk f a b c) := by
  refine decodes (encE 6 0x13 0 h a b c (mk ++ f) false) rfl ?_
  rw [atVec (classE ..), fieldsVec, opE]
  show some (Instr.vshr _ _ _ _ _ _) = _
  rw [headE]
  simp (disch := decide) only [encE, bitHi, bitLo, bitBool, cutHi, cutLo, cutAll, cutWide, Nat.reduceSub] <;> simp (disch := decide) only [Nat.reduceAdd, Nat.reduceSub, bitHi, bitLo, bitBool, cutAll, cutWide]

theorem vsar (h : EHead) (mk : MReg) (f : BitVec 4) (a b c : Reg) : Statement (.vsar h mk f a b c) := by
  refine decodes (encE 6 0x14 0 h a b c (mk ++ f) false) rfl ?_
  rw [atVec (classE ..), fieldsVec, opE]
  show some (Instr.vsar _ _ _ _ _ _) = _
  rw [headE]
  simp (disch := decide) only [encE, bitHi, bitLo, bitBool, cutHi, cutLo, cutAll, cutWide, Nat.reduceSub] <;> simp (disch := decide) only [Nat.reduceAdd, Nat.reduceSub, bitHi, bitLo, bitBool, cutAll, cutWide]

theorem vceq (h : EHead) (mk : MReg) (f : BitVec 4) (a : MReg) (b c : Reg) : Statement (.vceq h mk f a b c) := by
  refine decodes (encE 6 0x15 0 h (a.setWidth 6) b c (mk ++ f) false) rfl ?_
  rw [atVec (classE ..), fieldsVec, opE]
  show some (Instr.vceq _ _ _ _ _ _) = _
  rw [headE]
  simp (disch := decide) only [encE, bitHi, bitLo, bitBool, cutHi, cutLo, cutAll, cutWide, Nat.reduceSub] <;> simp (disch := decide) only [Nat.reduceAdd, Nat.reduceSub, bitHi, bitLo, bitBool, cutAll, cutWide]

theorem vclt (h : EHead) (mk : MReg) (f : BitVec 4) (a : MReg) (b c : Reg) : Statement (.vclt h mk f a b c) := by
  refine decodes (encE 6 0x16 0 h (a.setWidth 6) b c (mk ++ f) false) rfl ?_
  rw [atVec (classE ..), fieldsVec, opE]
  show some (Instr.vclt _ _ _ _ _ _) = _
  rw [headE]
  simp (disch := decide) only [encE, bitHi, bitLo, bitBool, cutHi, cutLo, cutAll, cutWide, Nat.reduceSub] <;> simp (disch := decide) only [Nat.reduceAdd, Nat.reduceSub, bitHi, bitLo, bitBool, cutAll, cutWide]

theorem vcle (h : EHead) (mk : MReg) (f : BitVec 4) (a : MReg) (b c : Reg) : Statement (.vcle h mk f a b c) := by
  refine decodes (encE 6 0x17 0 h (a.setWidth 6) b c (mk ++ f) false) rfl ?_
  rw [atVec (classE ..), fieldsVec, opE]
  show some (Instr.vcle _ _ _ _ _ _) = _
  rw [headE]
  simp (disch := decide) only [encE, bitHi, bitLo, bitBool, cutHi, cutLo, cutAll, cutWide, Nat.reduceSub] <;> simp (disch := decide) only [Nat.reduceAdd, Nat.reduceSub, bitHi, bitLo, bitBool, cutAll, cutWide]

theorem vsel (h : EHead) (mk : MReg) (f : BitVec 4) (a b c : Reg) : Statement (.vsel h mk f a b c) := by
  refine decodes (encE 6 0x18 0 h a b c (mk ++ f) false) rfl ?_
  rw [atVec (classE ..), fieldsVec, opE]
  show some (Instr.vsel _ _ _ _ _ _) = _
  rw [headE]
  simp (disch := decide) only [encE, bitHi, bitLo, bitBool, cutHi, cutLo, cutAll, cutWide, Nat.reduceSub] <;> simp (disch := decide) only [Nat.reduceAdd, Nat.reduceSub, bitHi, bitLo, bitBool, cutAll, cutWide]

theorem vmov (h : EHead) (mk : MReg) (f : BitVec 4) (a b : Reg) : Statement (.vmov h mk f a b) := by
  refine decodes (encE 6 0x19 0 h a b 0 (mk ++ f) false) rfl ?_
  rw [atVec (classE ..), fieldsVec, opE]
  show some (Instr.vmov _ _ _ _ _) = _
  rw [headE]
  simp (disch := decide) only [encE, bitHi, bitLo, bitBool, cutHi, cutLo, cutAll, cutWide, Nat.reduceSub] <;> simp (disch := decide) only [Nat.reduceAdd, Nat.reduceSub, bitHi, bitLo, bitBool, cutAll, cutWide]

theorem vmovs (h : EHead) (mk : MReg) (f : BitVec 4) (a b : Reg) : Statement (.vmovs h mk f a b) := by
  refine decodes (encE 6 0x1a 0 h a b 0 (mk ++ f) false) rfl ?_
  rw [atVec (classE ..), fieldsVec, opE]
  show some (Instr.vmovs _ _ _ _ _) = _
  rw [headE]
  simp (disch := decide) only [encE, bitHi, bitLo, bitBool, cutHi, cutLo, cutAll, cutWide, Nat.reduceSub] <;> simp (disch := decide) only [Nat.reduceAdd, Nat.reduceSub, bitHi, bitLo, bitBool, cutAll, cutWide]

theorem viota (h : EHead) (mk : MReg) (f : BitVec 4) (a b : Reg) : Statement (.viota h mk f a b) := by
  refine decodes (encE 6 0x1b 0 h a b 0 (mk ++ f) false) rfl ?_
  rw [atVec (classE ..), fieldsVec, opE]
  show some (Instr.viota _ _ _ _ _) = _
  rw [headE]
  simp (disch := decide) only [encE, bitHi, bitLo, bitBool, cutHi, cutLo, cutAll, cutWide, Nat.reduceSub] <;> simp (disch := decide) only [Nat.reduceAdd, Nat.reduceSub, bitHi, bitLo, bitBool, cutAll, cutWide]

theorem vclamp (h : EHead) (mk : MReg) (f : BitVec 4) (a b c : Reg) : Statement (.vclamp h mk f a b c) := by
  refine decodes (encE 6 0x1c 0 h a b c (mk ++ f) false) rfl ?_
  rw [atVec (classE ..), fieldsVec, opE]
  show some (Instr.vclamp _ _ _ _ _ _) = _
  rw [headE]
  simp (disch := decide) only [encE, bitHi, bitLo, bitBool, cutHi, cutLo, cutAll, cutWide, Nat.reduceSub] <;> simp (disch := decide) only [Nat.reduceAdd, Nat.reduceSub, bitHi, bitLo, bitBool, cutAll, cutWide]

theorem vadds (h : EHead) (mk : MReg) (f : BitVec 4) (a b c : Reg) : Statement (.vadds h mk f a b c) := by
  refine decodes (encE 6 0x1d 0 h a b c (mk ++ f) false) rfl ?_
  rw [atVec (classE ..), fieldsVec, opE]
  show some (Instr.vadds _ _ _ _ _ _) = _
  rw [headE]
  simp (disch := decide) only [encE, bitHi, bitLo, bitBool, cutHi, cutLo, cutAll, cutWide, Nat.reduceSub] <;> simp (disch := decide) only [Nat.reduceAdd, Nat.reduceSub, bitHi, bitLo, bitBool, cutAll, cutWide]

theorem vmulh (h : EHead) (mk : MReg) (f : BitVec 4) (a b c : Reg) : Statement (.vmulh h mk f a b c) := by
  refine decodes (encE 6 0x1e 0 h a b c (mk ++ f) false) rfl ?_
  rw [atVec (classE ..), fieldsVec, opE]
  show some (Instr.vmulh _ _ _ _ _ _) = _
  rw [headE]
  simp (disch := decide) only [encE, bitHi, bitLo, bitBool, cutHi, cutLo, cutAll, cutWide, Nat.reduceSub] <;> simp (disch := decide) only [Nat.reduceAdd, Nat.reduceSub, bitHi, bitLo, bitBool, cutAll, cutWide]

theorem vcvt (h : EHead) (mk : MReg) (f : BitVec 4) (a b : Reg) (src : BitVec 4) (p : BitVec 2) : Statement (.vcvt h mk f a b src p) := by
  refine decodes (encE 7 0 0 h a b (p ++ src) (mk ++ f) false) rfl ?_
  rw [atVxf (classE ..), fieldsVxf, opE]
  show some (Instr.vcvt _ _ _ _ _ _ _) = _
  rw [headE]
  simp (disch := decide) only [encE, bitHi, bitLo, bitBool, cutHi, cutLo, cutAll, cutWide, Nat.reduceSub] <;> simp (disch := decide) only [Nat.reduceAdd, Nat.reduceSub, bitHi, bitLo, bitBool, cutAll, cutWide]

theorem vpack (h : EHead) (f : BitVec 4) (a b c : Reg) : Statement (.vpack h f a b c) := by
  refine decodes (encE 7 1 0 h a b c (0#3 ++ f) false) rfl ?_
  rw [atVxf (classE ..), fieldsVxf, opE]
  show some (Instr.vpack _ _ _ _ _) = _
  rw [headE]
  simp (disch := decide) only [encE, bitHi, bitLo, bitBool, cutHi, cutLo, cutAll, cutWide, Nat.reduceSub] <;> simp (disch := decide) only [Nat.reduceAdd, Nat.reduceSub, bitHi, bitLo, bitBool, cutAll, cutWide]

theorem vunpk (h : EHead) (f : BitVec 4) (a b c : Reg) : Statement (.vunpk h f a b c) := by
  refine decodes (encE 7 2 0 h a b c (0#3 ++ f) false) rfl ?_
  rw [atVxf (classE ..), fieldsVxf, opE]
  show some (Instr.vunpk _ _ _ _ _) = _
  rw [headE]
  simp (disch := decide) only [encE, bitHi, bitLo, bitBool, cutHi, cutLo, cutAll, cutWide, Nat.reduceSub] <;> simp (disch := decide) only [Nat.reduceAdd, Nat.reduceSub, bitHi, bitLo, bitBool, cutAll, cutWide]

theorem vperm (h : EHead) (mk : MReg) (f : BitVec 4) (a b c : Reg) : Statement (.vperm h mk f a b c) := by
  refine decodes (encE 7 3 0 h a b c (mk ++ f) false) rfl ?_
  rw [atVxf (classE ..), fieldsVxf, opE]
  show some (Instr.vperm _ _ _ _ _ _) = _
  rw [headE]
  simp (disch := decide) only [encE, bitHi, bitLo, bitBool, cutHi, cutLo, cutAll, cutWide, Nat.reduceSub] <;> simp (disch := decide) only [Nat.reduceAdd, Nat.reduceSub, bitHi, bitLo, bitBool, cutAll, cutWide]

theorem vgaths (h : EHead) (oc : BitVec 4) (mk : MReg) (f : BitVec 4) (a : Reg) (db : DReg) (c : Reg) : Statement (.vgaths h oc mk f a db c) := by
  refine decodes (encE 7 4 oc h a (db.setWidth 6) c (mk ++ f) false) rfl ?_
  rw [atVxf (classE ..), fieldsVxf, opE]
  show some (Instr.vgaths _ _ _ _ _ _ _) = _
  rw [headE]
  simp (disch := decide) only [encE, bitHi, bitLo, bitBool, cutHi, cutLo, cutAll, cutWide, Nat.reduceSub] <;> simp (disch := decide) only [Nat.reduceAdd, Nat.reduceSub, bitHi, bitLo, bitBool, cutAll, cutWide]

theorem vscats (h : EHead) (oc : BitVec 4) (mk : MReg) (f : BitVec 4) (da : DReg) (b c : Reg) : Statement (.vscats h oc mk f da b c) := by
  refine decodes (encE 7 5 oc h (da.setWidth 6) b c (mk ++ f) false) rfl ?_
  rw [atVxf (classE ..), fieldsVxf, opE]
  show some (Instr.vscats _ _ _ _ _ _ _) = _
  rw [headE]
  simp (disch := decide) only [encE, bitHi, bitLo, bitBool, cutHi, cutLo, cutAll, cutWide, Nat.reduceSub] <;> simp (disch := decide) only [Nat.reduceAdd, Nat.reduceSub, bitHi, bitLo, bitBool, cutAll, cutWide]

theorem vred (h : EHead) (mk : MReg) (f : BitVec 4) (a b : Reg) (op : BitVec 3) (reply : Bool) : Statement (.vred h mk f a b op reply) := by
  refine decodes (encE 7 6 0 h a b (BitVec.ofBool reply ++ 0#2 ++ op) (mk ++ f) false) rfl ?_
  rw [atVxf (classE ..), fieldsVxf, opE]
  show some (Instr.vred _ _ _ _ _ _ _) = _
  rw [headE]
  simp (disch := decide) only [encE, bitHi, bitLo, bitBool, cutHi, cutLo, cutAll, cutWide, Nat.reduceSub] <;> simp (disch := decide) only [Nat.reduceAdd, Nat.reduceSub, bitHi, bitLo, bitBool, cutAll, cutWide]

theorem vscan (h : EHead) (mk : MReg) (f : BitVec 4) (a b : Reg) (op : BitVec 2) : Statement (.vscan h mk f a b op) := by
  refine decodes (encE 7 7 0 h a b (op.setWidth 6) (mk ++ f) false) rfl ?_
  rw [atVxf (classE ..), fieldsVxf, opE]
  show some (Instr.vscan _ _ _ _ _ _) = _
  rw [headE]
  simp (disch := decide) only [encE, bitHi, bitLo, bitBool, cutHi, cutLo, cutAll, cutWide, Nat.reduceSub] <;> simp (disch := decide) only [Nat.reduceAdd, Nat.reduceSub, bitHi, bitLo, bitBool, cutAll, cutWide]

theorem vtopk (h : EHead) (mk : MReg) (f : BitVec 4) (a b k : Reg) : Statement (.vtopk h mk f a b k) := by
  refine decodes (encE 7 8 0 h a b k (mk ++ f) false) rfl ?_
  rw [atVxf (classE ..), fieldsVxf, opE]
  show some (Instr.vtopk _ _ _ _ _ _) = _
  rw [headE]
  simp (disch := decide) only [encE, bitHi, bitLo, bitBool, cutHi, cutLo, cutAll, cutWide, Nat.reduceSub] <;> simp (disch := decide) only [Nat.reduceAdd, Nat.reduceSub, bitHi, bitLo, bitBool, cutAll, cutWide]

theorem vcmpr (h : EHead) (mk : MReg) (f : BitVec 4) (a b : Reg) : Statement (.vcmpr h mk f a b) := by
  refine decodes (encE 7 9 0 h a b 0 (mk ++ f) false) rfl ?_
  rw [atVxf (classE ..), fieldsVxf, opE]
  show some (Instr.vcmpr _ _ _ _ _) = _
  rw [headE]
  simp (disch := decide) only [encE, bitHi, bitLo, bitBool, cutHi, cutLo, cutAll, cutWide, Nat.reduceSub] <;> simp (disch := decide) only [Nat.reduceAdd, Nat.reduceSub, bitHi, bitLo, bitBool, cutAll, cutWide]

theorem vexpd (h : EHead) (mk : MReg) (f : BitVec 4) (a b : Reg) : Statement (.vexpd h mk f a b) := by
  refine decodes (encE 7 10 0 h a b 0 (mk ++ f) false) rfl ?_
  rw [atVxf (classE ..), fieldsVxf, opE]
  show some (Instr.vexpd _ _ _ _ _) = _
  rw [headE]
  simp (disch := decide) only [encE, bitHi, bitLo, bitBool, cutHi, cutLo, cutAll, cutWide, Nat.reduceSub] <;> simp (disch := decide) only [Nat.reduceAdd, Nat.reduceSub, bitHi, bitLo, bitBool, cutAll, cutWide]

theorem vld (h : EHead) (oc : BitVec 4) (mk : MReg) (f : BitVec 4) (a : Reg) (db : DReg) (c : Reg) : Statement (.vld h oc mk f a db c) := by
  refine decodes (encE 7 11 oc h a (db.setWidth 6) c (mk ++ f) false) rfl ?_
  rw [atVxf (classE ..), fieldsVxf, opE]
  show some (Instr.vld _ _ _ _ _ _ _) = _
  rw [headE]
  simp (disch := decide) only [encE, bitHi, bitLo, bitBool, cutHi, cutLo, cutAll, cutWide, Nat.reduceSub] <;> simp (disch := decide) only [Nat.reduceAdd, Nat.reduceSub, bitHi, bitLo, bitBool, cutAll, cutWide]

theorem vst (h : EHead) (oc : BitVec 4) (mk : MReg) (f : BitVec 4) (da : DReg) (b c : Reg) : Statement (.vst h oc mk f da b c) := by
  refine decodes (encE 7 12 oc h (da.setWidth 6) b c (mk ++ f) false) rfl ?_
  rw [atVxf (classE ..), fieldsVxf, opE]
  show some (Instr.vst _ _ _ _ _ _ _) = _
  rw [headE]
  simp (disch := decide) only [encE, bitHi, bitLo, bitBool, cutHi, cutLo, cutAll, cutWide, Nat.reduceSub] <;> simp (disch := decide) only [Nat.reduceAdd, Nat.reduceSub, bitHi, bitLo, bitBool, cutAll, cutWide]

theorem vldx (h : EHead) (oc : BitVec 4) (mk : MReg) (f : BitVec 4) (a : Reg) (db : DReg) (c : Reg) : Statement (.vldx h oc mk f a db c) := by
  refine decodes (encE 7 13 oc h a (db.setWidth 6) c (mk ++ f) false) rfl ?_
  rw [atVxf (classE ..), fieldsVxf, opE]
  show some (Instr.vldx _ _ _ _ _ _ _) = _
  rw [headE]
  simp (disch := decide) only [encE, bitHi, bitLo, bitBool, cutHi, cutLo, cutAll, cutWide, Nat.reduceSub] <;> simp (disch := decide) only [Nat.reduceAdd, Nat.reduceSub, bitHi, bitLo, bitBool, cutAll, cutWide]

theorem mand (h : EHead) (a b c : MReg) : Statement (.mand h a b c) := by
  refine decodes (encE 7 14 0 h (a.setWidth 6) (b.setWidth 6) (c.setWidth 6) 0 false) rfl ?_
  rw [atVxf (classE ..), fieldsVxf, opE]
  show some (Instr.mand _ _ _ _) = _
  rw [headE]
  simp (disch := decide) only [encE, bitHi, bitLo, bitBool, cutHi, cutLo, cutAll, cutWide, Nat.reduceSub] <;> simp (disch := decide) only [Nat.reduceAdd, Nat.reduceSub, bitHi, bitLo, bitBool, cutAll, cutWide]

theorem mor (h : EHead) (a b c : MReg) : Statement (.mor h a b c) := by
  refine decodes (encE 7 15 0 h (a.setWidth 6) (b.setWidth 6) (c.setWidth 6) 0 false) rfl ?_
  rw [atVxf (classE ..), fieldsVxf, opE]
  show some (Instr.mor _ _ _ _) = _
  rw [headE]
  simp (disch := decide) only [encE, bitHi, bitLo, bitBool, cutHi, cutLo, cutAll, cutWide, Nat.reduceSub] <;> simp (disch := decide) only [Nat.reduceAdd, Nat.reduceSub, bitHi, bitLo, bitBool, cutAll, cutWide]

theorem mnot (h : EHead) (a b : MReg) : Statement (.mnot h a b) := by
  refine decodes (encE 7 16 0 h (a.setWidth 6) (b.setWidth 6) 0 0 false) rfl ?_
  rw [atVxf (classE ..), fieldsVxf, opE]
  show some (Instr.mnot _ _ _) = _
  rw [headE]
  simp (disch := decide) only [encE, bitHi, bitLo, bitBool, cutHi, cutLo, cutAll, cutWide, Nat.reduceSub] <;> simp (disch := decide) only [Nat.reduceAdd, Nat.reduceSub, bitHi, bitLo, bitBool, cutAll, cutWide]

theorem mpopc (h : EHead) (b : MReg) : Statement (.mpopc h b) := by
  refine decodes (encE 7 17 0 h 0 (b.setWidth 6) 0 0 false) rfl ?_
  rw [atVxf (classE ..), fieldsVxf, opE]
  show some (Instr.mpopc _ _) = _
  rw [headE]
  simp (disch := decide) only [encE, bitHi, bitLo, bitBool, cutHi, cutLo, cutAll, cutWide, Nat.reduceSub] <;> simp (disch := decide) only [Nat.reduceAdd, Nat.reduceSub, bitHi, bitLo, bitBool, cutAll, cutWide]

theorem mma (h : EHead) (oc : BitVec 4) (da db dc : DReg) : Statement (.mma h oc da db dc) := by
  refine decodes (encE 8 0x0 oc h (da.setWidth 6) (db.setWidth 6) (dc.setWidth 6) 0 false) rfl ?_
  rw [atMtx (classE ..), fieldsMtx, opE]
  show some (Instr.mma _ _ _ _ _) = _
  rw [headE]
  simp (disch := decide) only [encE, bitHi, bitLo, bitBool, cutHi, cutLo, cutAll, cutWide, Nat.reduceSub] <;> simp (disch := decide) only [Nat.reduceAdd, Nat.reduceSub, bitHi, bitLo, bitBool, cutAll, cutWide]

theorem mmaz (h : EHead) (oc : BitVec 4) (da db dc : DReg) : Statement (.mmaz h oc da db dc) := by
  refine decodes (encE 8 0x1 oc h (da.setWidth 6) (db.setWidth 6) (dc.setWidth 6) 0 false) rfl ?_
  rw [atMtx (classE ..), fieldsMtx, opE]
  show some (Instr.mmaz _ _ _ _ _) = _
  rw [headE]
  simp (disch := decide) only [encE, bitHi, bitLo, bitBool, cutHi, cutLo, cutAll, cutWide, Nat.reduceSub] <;> simp (disch := decide) only [Nat.reduceAdd, Nat.reduceSub, bitHi, bitLo, bitBool, cutAll, cutWide]

theorem mmac (h : EHead) (oc fmt : BitVec 4) (sat : Bool) (da db dc : DReg) : Statement (.mmac h oc fmt sat da db dc) := by
  refine decodes (encE 8 0x2 oc h (da.setWidth 6) (db.setWidth 6) (dc.setWidth 6) (0#2 ++ BitVec.ofBool sat ++ fmt) false) rfl ?_
  rw [atMtx (classE ..), fieldsMtx, opE]
  show some (Instr.mmac _ _ _ _ _ _ _) = _
  rw [headE]
  simp (disch := decide) only [encE, bitHi, bitLo, bitBool, cutHi, cutLo, cutAll, cutWide, Nat.reduceSub] <;> simp (disch := decide) only [Nat.reduceAdd, Nat.reduceSub, bitHi, bitLo, bitBool, cutAll, cutWide]

theorem mmae (h : EHead) (oc : BitVec 4) (da db dc : DReg) : Statement (.mmae h oc da db dc) := by
  refine decodes (encE 8 0x3 oc h (da.setWidth 6) (db.setWidth 6) (dc.setWidth 6) 0 false) rfl ?_
  rw [atMtx (classE ..), fieldsMtx, opE]
  show some (Instr.mmae _ _ _ _ _) = _
  rw [headE]
  simp (disch := decide) only [encE, bitHi, bitLo, bitBool, cutHi, cutLo, cutAll, cutWide, Nat.reduceSub] <;> simp (disch := decide) only [Nat.reduceAdd, Nat.reduceSub, bitHi, bitLo, bitBool, cutAll, cutWide]

theorem mres (h : EHead) (oc : BitVec 4) (da db dc : DReg) : Statement (.mres h oc da db dc) := by
  refine decodes (encE 8 0x4 oc h (da.setWidth 6) (db.setWidth 6) (dc.setWidth 6) 0 false) rfl ?_
  rw [atMtx (classE ..), fieldsMtx, opE]
  show some (Instr.mres _ _ _ _ _) = _
  rw [headE]
  simp (disch := decide) only [encE, bitHi, bitLo, bitBool, cutHi, cutLo, cutAll, cutWide, Nat.reduceSub] <;> simp (disch := decide) only [Nat.reduceAdd, Nat.reduceSub, bitHi, bitLo, bitBool, cutAll, cutWide]

theorem mbndLyr (h : EHead) (oc : BitVec 4) (da db dc : DReg) : Statement (.mbndLyr h oc da db dc) := by
  refine decodes (encE 8 0x5 oc h (da.setWidth 6) (db.setWidth 6) (dc.setWidth 6) 0 false) rfl ?_
  rw [atMtx (classE ..), fieldsMtx, opE]
  show (if _ then _ else _) = _
  simp only [headE]
  simp (disch := decide) only [encE, bitHi, bitLo, bitBool, cutHi, cutLo, cutAll, cutWide, Nat.reduceSub]
  rfl

theorem mbndFirst (h : EHead) (oc : BitVec 4) (da db : DReg) : Statement (.mbndFirst h oc da db) := by
  refine decodes (encE 8 0x5 oc h (da.setWidth 6) (db.setWidth 6) 0 1 false) rfl ?_
  rw [atMtx (classE ..), fieldsMtx, opE]
  show (if _ then _ else _) = _
  simp only [headE]
  simp (disch := decide) only [encE, bitHi, bitLo, bitBool, cutHi, cutLo, cutAll, cutWide, Nat.reduceSub]
  rfl

theorem mbndSum (h : EHead) (da db dc : DReg) : Statement (.mbndSum h da db dc) := by
  refine decodes (encE 8 0x5 0 h (da.setWidth 6) (db.setWidth 6) (dc.setWidth 6) 2 false) rfl ?_
  rw [atMtx (classE ..), fieldsMtx, opE]
  show (if _ then _ else _) = _
  simp only [headE]
  simp (disch := decide) only [encE, bitHi, bitLo, bitBool, cutHi, cutLo, cutAll, cutWide, Nat.reduceSub]
  rfl

theorem mcomp (h : EHead) (oc : BitVec 4) (reloc : Bool) (da db dc : DReg) : Statement (.mcomp h oc reloc da db dc) := by
  refine decodes (encE 8 0x6 oc h (da.setWidth 6) (db.setWidth 6) (dc.setWidth 6) 0 reloc) rfl ?_
  rw [atMtx (classE ..), fieldsMtx, opE]
  show some (Instr.mcomp _ _ _ _ _ _) = _
  rw [headE]
  simp (disch := decide) only [encE, bitHi, bitLo, bitBool, cutHi, cutLo, cutAll, cutWide, Nat.reduceSub] <;> simp (disch := decide) only [Nat.reduceAdd, Nat.reduceSub, bitHi, bitLo, bitBool, cutAll, cutWide]

theorem mmas (h : EHead) (oc : BitVec 4) (da db dc : DReg) : Statement (.mmas h oc da db dc) := by
  refine decodes (encE 8 0x7 oc h (da.setWidth 6) (db.setWidth 6) (dc.setWidth 6) 0 false) rfl ?_
  rw [atMtx (classE ..), fieldsMtx, opE]
  show some (Instr.mmas _ _ _ _ _) = _
  rw [headE]
  simp (disch := decide) only [encE, bitHi, bitLo, bitBool, cutHi, cutLo, cutAll, cutWide, Nat.reduceSub] <;> simp (disch := decide) only [Nat.reduceAdd, Nat.reduceSub, bitHi, bitLo, bitBool, cutAll, cutWide]

theorem mmab (h : EHead) (oc : BitVec 4) (da db dc : DReg) : Statement (.mmab h oc da db dc) := by
  refine decodes (encE 8 0x8 oc h (da.setWidth 6) (db.setWidth 6) (dc.setWidth 6) 0 false) rfl ?_
  rw [atMtx (classE ..), fieldsMtx, opE]
  show some (Instr.mmab _ _ _ _ _) = _
  rw [headE]
  simp (disch := decide) only [encE, bitHi, bitLo, bitBool, cutHi, cutLo, cutAll, cutWide, Nat.reduceSub] <;> simp (disch := decide) only [Nat.reduceAdd, Nat.reduceSub, bitHi, bitLo, bitBool, cutAll, cutWide]

theorem mzero (h : EHead) (da : DReg) : Statement (.mzero h da) := by
  refine decodes (encE 8 0x9 0 h (da.setWidth 6) 0 0 0 false) rfl ?_
  rw [atMtx (classE ..), fieldsMtx, opE]
  show some (Instr.mzero _ _) = _
  rw [headE]
  simp (disch := decide) only [encE, bitHi, bitLo, bitBool, cutHi, cutLo, cutAll, cutWide, Nat.reduceSub] <;> simp (disch := decide) only [Nat.reduceAdd, Nat.reduceSub, bitHi, bitLo, bitBool, cutAll, cutWide]

theorem mwr (h : EHead) (oc : BitVec 4) (da db : DReg) : Statement (.mwr h oc da db) := by
  refine decodes (encE 8 0xb oc h (da.setWidth 6) (db.setWidth 6) 0 0 false) rfl ?_
  rw [atMtx (classE ..), fieldsMtx, opE]
  show some (Instr.mwr _ _ _ _) = _
  rw [headE]
  simp (disch := decide) only [encE, bitHi, bitLo, bitBool, cutHi, cutLo, cutAll, cutWide, Nat.reduceSub] <;> simp (disch := decide) only [Nat.reduceAdd, Nat.reduceSub, bitHi, bitLo, bitBool, cutAll, cutWide]

theorem mrd (h : EHead) (oc : BitVec 4) (sat clr : Bool) (da db : DReg) (c : Reg) : Statement (.mrd h oc sat clr da db c) := by
  refine decodes (encE 8 0xa oc h (da.setWidth 6) (db.setWidth 6) c (0#5 ++ BitVec.ofBool clr ++ BitVec.ofBool sat) false) rfl ?_
  rw [atMtx (classE ..), fieldsMtx, opE]
  show some (Instr.mrd _ _ _ _ _ _ _) = _
  rw [headE]
  simp (disch := decide) only [encE, bitHi, bitLo, bitBool, cutHi, cutLo, cutAll, cutWide, Nat.reduceSub] <;> simp (disch := decide) only [Nat.reduceAdd, Nat.reduceSub, bitHi, bitLo, bitBool, cutAll, cutWide]

theorem mchk (h : EHead) (oc : BitVec 4) (row : Bool) (da db dc : DReg) : Statement (.mchk h oc row da db dc) := by
  refine decodes (encE 8 0xc oc h (da.setWidth 6) (db.setWidth 6) (dc.setWidth 6) (0#6 ++ BitVec.ofBool row) false) rfl ?_
  rw [atMtx (classE ..), fieldsMtx, opE]
  show some (Instr.mchk _ _ _ _ _ _) = _
  rw [headE]
  simp (disch := decide) only [encE, bitHi, bitLo, bitBool, cutHi, cutLo, cutAll, cutWide, Nat.reduceSub] <;> simp (disch := decide) only [Nat.reduceAdd, Nat.reduceSub, bitHi, bitLo, bitBool, cutAll, cutWide]

theorem mjoinJoin (h : EHead) (da : DReg) : Statement (.mjoinJoin h da) := by
  refine decodes (encE 8 0xd 0 h (da.setWidth 6) 0 0 0 false) rfl ?_
  rw [atMtx (classE ..), fieldsMtx, opE]
  show (if _ then _ else _) = _
  simp only [headE]
  simp (disch := decide) only [encE, bitHi, bitLo, bitBool, cutHi, cutLo, cutAll, cutWide, Nat.reduceSub]
  rfl

theorem mjoinLeave (h : EHead) (da : DReg) : Statement (.mjoinLeave h da) := by
  refine decodes (encE 8 0xd 0 h (da.setWidth 6) 0 0 1 false) rfl ?_
  rw [atMtx (classE ..), fieldsMtx, opE]
  show (if _ then _ else _) = _
  simp only [headE]
  simp (disch := decide) only [encE, bitHi, bitLo, bitBool, cutHi, cutLo, cutAll, cutWide, Nat.reduceSub]
  rfl

theorem cpin (h : EHead) (oc : BitVec 4) (reloc : Bool) (da db : DReg) : Statement (.cpin h oc reloc da db) := by
  refine decodes (encE 9 0x0 oc h (da.setWidth 6) (db.setWidth 6) 0 0 reloc) rfl ?_
  rw [atCpi (classE ..), fieldsCpi, opE]
  show some (Instr.cpin _ _ _ _ _) = _
  rw [headE]
  simp (disch := decide) only [encE, bitHi, bitLo, bitBool, cutHi, cutLo, cutAll, cutWide, Nat.reduceSub] <;> simp (disch := decide) only [Nat.reduceAdd, Nat.reduceSub, bitHi, bitLo, bitBool, cutAll, cutWide]

theorem cprow (h : EHead) (oc : BitVec 4) (reloc oobz : Bool) (da db : DReg) : Statement (.cprow h oc reloc oobz da db) := by
  refine decodes (encE 9 0x1 oc h (da.setWidth 6) (db.setWidth 6) 0 (0#6 ++ BitVec.ofBool oobz) reloc) rfl ?_
  rw [atCpi (classE ..), fieldsCpi, opE]
  show some (Instr.cprow _ _ _ _ _ _) = _
  rw [headE]
  simp (disch := decide) only [encE, bitHi, bitLo, bitBool, cutHi, cutLo, cutAll, cutWide, Nat.reduceSub] <;> simp (disch := decide) only [Nat.reduceAdd, Nat.reduceSub, bitHi, bitLo, bitBool, cutAll, cutWide]

theorem cpexp (h : EHead) (oc : BitVec 4) (reloc : Bool) (da db : DReg) : Statement (.cpexp h oc reloc da db) := by
  refine decodes (encE 9 0x2 oc h (da.setWidth 6) (db.setWidth 6) 0 0 reloc) rfl ?_
  rw [atCpi (classE ..), fieldsCpi, opE]
  show some (Instr.cpexp _ _ _ _ _) = _
  rw [headE]
  simp (disch := decide) only [encE, bitHi, bitLo, bitBool, cutHi, cutLo, cutAll, cutWide, Nat.reduceSub] <;> simp (disch := decide) only [Nat.reduceAdd, Nat.reduceSub, bitHi, bitLo, bitBool, cutAll, cutWide]

theorem cpfill (h : EHead) (oc : BitVec 4) (reloc : Bool) (da : DReg) (b : Reg) : Statement (.cpfill h oc reloc da b) := by
  refine decodes (encE 9 0x3 oc h (da.setWidth 6) b 0 0 reloc) rfl ?_
  rw [atCpi (classE ..), fieldsCpi, opE]
  show some (Instr.cpfill _ _ _ _ _) = _
  rw [headE]
  simp (disch := decide) only [encE, bitHi, bitLo, bitBool, cutHi, cutLo, cutAll, cutWide, Nat.reduceSub] <;> simp (disch := decide) only [Nat.reduceAdd, Nat.reduceSub, bitHi, bitLo, bitBool, cutAll, cutWide]

theorem scprobe (h : EHead) (oc : BitVec 4) (reloc : Bool) (da db : DReg) (c : Reg) : Statement (.scprobe h oc reloc da db c) := by
  refine decodes (encE 9 0x4 oc h (da.setWidth 6) (db.setWidth 6) c 0 reloc) rfl ?_
  rw [atCpi (classE ..), fieldsCpi, opE]
  show some (Instr.scprobe _ _ _ _ _ _) = _
  rw [headE]
  simp (disch := decide) only [encE, bitHi, bitLo, bitBool, cutHi, cutLo, cutAll, cutWide, Nat.reduceSub] <;> simp (disch := decide) only [Nat.reduceAdd, Nat.reduceSub, bitHi, bitLo, bitBool, cutAll, cutWide]

theorem scrply (h : EHead) (oc : BitVec 4) (reloc : Bool) (da db : DReg) (c : Reg) : Statement (.scrply h oc reloc da db c) := by
  refine decodes (encE 9 0x5 oc h (da.setWidth 6) (db.setWidth 6) c 0 reloc) rfl ?_
  rw [atCpi (classE ..), fieldsCpi, opE]
  show some (Instr.scrply _ _ _ _ _ _) = _
  rw [headE]
  simp (disch := decide) only [encE, bitHi, bitLo, bitBool, cutHi, cutLo, cutAll, cutWide, Nat.reduceSub] <;> simp (disch := decide) only [Nat.reduceAdd, Nat.reduceSub, bitHi, bitLo, bitBool, cutAll, cutWide]

theorem cpout (h : EHead) (oc : BitVec 4) (reloc : Bool) (da db : DReg) : Statement (.cpout h oc reloc da db) := by
  refine decodes (encE 10 0x0 oc h (da.setWidth 6) (db.setWidth 6) 0 0 reloc) rfl ?_
  rw [atCpo (classE ..), fieldsCpo, opE]
  show some (Instr.cpout _ _ _ _ _) = _
  rw [headE]
  simp (disch := decide) only [encE, bitHi, bitLo, bitBool, cutHi, cutLo, cutAll, cutWide, Nat.reduceSub] <;> simp (disch := decide) only [Nat.reduceAdd, Nat.reduceSub, bitHi, bitLo, bitBool, cutAll, cutWide]

theorem cpsct (h : EHead) (oc : BitVec 4) (reloc skip : Bool) (da db : DReg) : Statement (.cpsct h oc reloc skip da db) := by
  refine decodes (encE 10 0x1 oc h (da.setWidth 6) (db.setWidth 6) 0 (0#6 ++ BitVec.ofBool skip) reloc) rfl ?_
  rw [atCpo (classE ..), fieldsCpo, opE]
  show some (Instr.cpsct _ _ _ _ _ _) = _
  rw [headE]
  simp (disch := decide) only [encE, bitHi, bitLo, bitBool, cutHi, cutLo, cutAll, cutWide, Nat.reduceSub] <;> simp (disch := decide) only [Nat.reduceAdd, Nat.reduceSub, bitHi, bitLo, bitBool, cutAll, cutWide]

theorem cppack (h : EHead) (oc : BitVec 4) (reloc : Bool) (da db : DReg) : Statement (.cppack h oc reloc da db) := by
  refine decodes (encE 10 0x2 oc h (da.setWidth 6) (db.setWidth 6) 0 0 reloc) rfl ?_
  rw [atCpo (classE ..), fieldsCpo, opE]
  show some (Instr.cppack _ _ _ _ _) = _
  rw [headE]
  simp (disch := decide) only [encE, bitHi, bitLo, bitBool, cutHi, cutLo, cutAll, cutWide, Nat.reduceSub] <;> simp (disch := decide) only [Nat.reduceAdd, Nat.reduceSub, bitHi, bitLo, bitBool, cutAll, cutWide]

theorem cpred (h : EHead) (oc : BitVec 4) (reloc : Bool) (op : BitVec 3) (ord : Bool) (da db : DReg) : Statement (.cpred h oc reloc op ord da db) := by
  refine decodes (encE 10 0x3 oc h (da.setWidth 6) (db.setWidth 6) 0 (0#3 ++ BitVec.ofBool ord ++ op) reloc) rfl ?_
  rw [atCpo (classE ..), fieldsCpo, opE]
  show some (Instr.cpred _ _ _ _ _ _ _) = _
  rw [headE]
  simp (disch := decide) only [encE, bitHi, bitLo, bitBool, cutHi, cutLo, cutAll, cutWide, Nat.reduceSub] <;> simp (disch := decide) only [Nat.reduceAdd, Nat.reduceSub, bitHi, bitLo, bitBool, cutAll, cutWide]

theorem cpcoll (h : EHead) (oc : BitVec 4) (kind : BitVec 3) (arr : Bool) (da db : DReg) : Statement (.cpcoll h oc kind arr da db) := by
  refine decodes (encE 10 0x4 oc h (da.setWidth 6) (db.setWidth 6) 0 (0#3 ++ BitVec.ofBool arr ++ kind) false) rfl ?_
  rw [atCpo (classE ..), fieldsCpo, opE]
  show some (Instr.cpcoll _ _ _ _ _ _) = _
  rw [headE]
  simp (disch := decide) only [encE, bitHi, bitLo, bitBool, cutHi, cutLo, cutAll, cutWide, Nat.reduceSub] <;> simp (disch := decide) only [Nat.reduceAdd, Nat.reduceSub, bitHi, bitLo, bitBool, cutAll, cutWide]

theorem cpsend (h : EHead) (oc : BitVec 4) (db : DReg) (c : Reg) : Statement (.cpsend h oc db c) := by
  refine decodes (encE 10 0x5 oc h 0 (db.setWidth 6) c 0 false) rfl ?_
  rw [atCpo (classE ..), fieldsCpo, opE]
  show some (Instr.cpsend _ _ _ _) = _
  rw [headE]
  simp (disch := decide) only [encE, bitHi, bitLo, bitBool, cutHi, cutLo, cutAll, cutWide, Nat.reduceSub] <;> simp (disch := decide) only [Nat.reduceAdd, Nat.reduceSub, bitHi, bitLo, bitBool, cutAll, cutWide]

theorem cppost (h : EHead) (oc : BitVec 4) (da : DReg) (c : Reg) : Statement (.cppost h oc da c) := by
  refine decodes (encE 10 0x6 oc h (da.setWidth 6) 0 c 0 false) rfl ?_
  rw [atCpo (classE ..), fieldsCpo, opE]
  show some (Instr.cppost _ _ _ _) = _
  rw [headE]
  simp (disch := decide) only [encE, bitHi, bitLo, bitBool, cutHi, cutLo, cutAll, cutWide, Nat.reduceSub] <;> simp (disch := decide) only [Nat.reduceAdd, Nat.reduceSub, bitHi, bitLo, bitBool, cutAll, cutWide]

theorem screc (h : EHead) (oc : BitVec 4) (reloc : Bool) (da db : DReg) (c : Reg) : Statement (.screc h oc reloc da db c) := by
  refine decodes (encE 10 0x7 oc h (da.setWidth 6) (db.setWidth 6) c 0 reloc) rfl ?_
  rw [atCpo (classE ..), fieldsCpo, opE]
  show some (Instr.screc _ _ _ _ _ _) = _
  rw [headE]
  simp (disch := decide) only [encE, bitHi, bitLo, bitBool, cutHi, cutLo, cutAll, cutWide, Nat.reduceSub] <;> simp (disch := decide) only [Nat.reduceAdd, Nat.reduceSub, bitHi, bitLo, bitBool, cutAll, cutWide]

theorem cpcnv (h : EHead) (oc : BitVec 4) (reloc : Bool) (da db : DReg) : Statement (.cpcnv h oc reloc da db) := by
  refine decodes (encE 10 0x8 oc h (da.setWidth 6) (db.setWidth 6) 0 0 reloc) rfl ?_
  rw [atCpo (classE ..), fieldsCpo, opE]
  show some (Instr.cpcnv _ _ _ _ _) = _
  rw [headE]
  simp (disch := decide) only [encE, bitHi, bitLo, bitBool, cutHi, cutLo, cutAll, cutWide, Nat.reduceSub] <;> simp (disch := decide) only [Nat.reduceAdd, Nat.reduceSub, bitHi, bitLo, bitBool, cutAll, cutWide]

theorem ebind (h : EHead) (oc : BitVec 4) (da : DReg) : Statement (.ebind h oc da) := by
  refine decodes (encE 11 0x0 oc h (da.setWidth 6) 0 0 0 false) rfl ?_
  rw [atEdg (classE ..), fieldsEdg, opE]
  show some (Instr.ebind _ _ _) = _
  rw [headE]
  simp (disch := decide) only [encE, bitHi, bitLo, bitBool, cutHi, cutLo, cutAll, cutWide, Nat.reduceSub] <;> simp (disch := decide) only [Nat.reduceAdd, Nat.reduceSub, bitHi, bitLo, bitBool, cutAll, cutWide]

theorem erun (h : EHead) (oc : BitVec 4) (mode : BitVec 2) (ord : Bool) (b : Reg) : Statement (.erun h oc mode ord b) := by
  refine decodes (encE 11 0x1 oc h 0 b 0 (0#4 ++ BitVec.ofBool ord ++ mode) false) rfl ?_
  rw [atEdg (classE ..), fieldsEdg, opE]
  show some (Instr.erun _ _ _ _ _) = _
  rw [headE]
  simp (disch := decide) only [encE, bitHi, bitLo, bitBool, cutHi, cutLo, cutAll, cutWide, Nat.reduceSub] <;> simp (disch := decide) only [Nat.reduceAdd, Nat.reduceSub, bitHi, bitLo, bitBool, cutAll, cutWide]

theorem eswp (h : EHead) (pa pb : BitVec 2) : Statement (.eswp h pa pb) := by
  refine decodes (encE 11 0x2 0 h (pa.setWidth 6) (pb.setWidth 6) 0 0 false) rfl ?_
  rw [atEdg (classE ..), fieldsEdg, opE]
  show some (Instr.eswp _ _ _) = _
  rw [headE]
  simp (disch := decide) only [encE, bitHi, bitLo, bitBool, cutHi, cutLo, cutAll, cutWide, Nat.reduceSub] <;> simp (disch := decide) only [Nat.reduceAdd, Nat.reduceSub, bitHi, bitLo, bitBool, cutAll, cutWide]

theorem efrnt (h : EHead) (oc : BitVec 4) (b : Reg) : Statement (.efrnt h oc b) := by
  refine decodes (encE 11 0x3 oc h 0 b 0 0 false) rfl ?_
  rw [atEdg (classE ..), fieldsEdg, opE]
  show some (Instr.efrnt _ _ _) = _
  rw [headE]
  simp (disch := decide) only [encE, bitHi, bitLo, bitBool, cutHi, cutLo, cutAll, cutWide, Nat.reduceSub] <;> simp (disch := decide) only [Nat.reduceAdd, Nat.reduceSub, bitHi, bitLo, bitBool, cutAll, cutWide]

theorem ndagree (a b : Reg) : Statement (.ndagree a b) := by
  refine decodes (encX 12 0 a b 0 0) rfl ?_
  rw [atRdn (classX ..), fieldsRdn, opX]
  show some (Instr.ndagree _ _) = _
  simp (disch := decide) only [encX, bitHi, bitLo, bitBool, cutHi, cutLo, cutAll, cutWide, Nat.reduceSub] <;> simp (disch := decide) only [Nat.reduceAdd, Nat.reduceSub, bitHi, bitLo, bitBool, cutAll, cutWide]

theorem sigrd (met iso : Bool) (a : Reg) (n : BitVec 3) : Statement (.sigrd met iso a n) := by
  refine decodes (encX 12 1 a 0 (0#6 ++ BitVec.ofBool met ++ BitVec.ofBool iso) (n.setWidth 32)) rfl ?_
  rw [atRdn (classX ..), fieldsRdn, opX]
  show some (Instr.sigrd _ _ _ _) = _
  simp (disch := decide) only [encX, bitHi, bitLo, bitBool, cutHi, cutLo, cutAll, cutWide, Nat.reduceSub] <;> simp (disch := decide) only [Nat.reduceAdd, Nat.reduceSub, bitHi, bitLo, bitBool, cutAll, cutWide]

theorem copen (buffered : Bool) (off : BitVec 32) : Statement (.copen buffered off) := by
  refine decodes (encX 12 2 0 0 (0#7 ++ BitVec.ofBool buffered) off) rfl ?_
  rw [atRdn (classX ..), fieldsRdn, opX]
  show some (Instr.copen _ _) = _
  simp (disch := decide) only [encX, bitHi, bitLo, bitBool, cutHi, cutLo, cutAll, cutWide, Nat.reduceSub] <;> simp (disch := decide) only [Nat.reduceAdd, Nat.reduceSub, bitHi, bitLo, bitBool, cutAll, cutWide]

theorem cclose : Statement (.cclose) := by
  refine decodes (encX 12 3 0 0 0 0) rfl ?_
  rw [atRdn (classX ..), fieldsRdn, opX]
  show some (Instr.cclose) = _
  rfl

theorem katstat (a : Reg) (k : BitVec 2) : Statement (.katstat a k) := by
  refine decodes (encX 12 4 a 0 0 (k.setWidth 32)) rfl ?_
  rw [atRdn (classX ..), fieldsRdn, opX]
  show some (Instr.katstat _ _) = _
  simp (disch := decide) only [encX, bitHi, bitLo, bitBool, cutHi, cutLo, cutAll, cutWide, Nat.reduceSub] <;> simp (disch := decide) only [Nat.reduceAdd, Nat.reduceSub, bitHi, bitLo, bitBool, cutAll, cutWide]

theorem trap (n : BitVec 32) : Statement (.trap n) := by
  refine decodes (encX 14 0 0 0 0 n) rfl ?_
  rw [atSys (classX ..), fieldsSys, opX]
  show some (Instr.trap _) = _
  simp (disch := decide) only [encX, bitHi, bitLo, bitBool, cutHi, cutLo, cutAll, cutWide, Nat.reduceSub] <;> simp (disch := decide) only [Nat.reduceAdd, Nat.reduceSub, bitHi, bitLo, bitBool, cutAll, cutWide]

theorem eret : Statement (.eret) := by
  refine decodes (encX 14 1 0 0 0 0) rfl ?_
  rw [atSys (classX ..), fieldsSys, opX]
  show some (Instr.eret) = _
  rfl

theorem mfsr (a : Reg) (idx : BitVec 12) : Statement (.mfsr a idx) := by
  refine decodes (encX 14 2 a 0 0 (idx.setWidth 32)) rfl ?_
  rw [atSys (classX ..), fieldsSys, opX]
  show some (Instr.mfsr _ _) = _
  simp (disch := decide) only [encX, bitHi, bitLo, bitBool, cutHi, cutLo, cutAll, cutWide, Nat.reduceSub] <;> simp (disch := decide) only [Nat.reduceAdd, Nat.reduceSub, bitHi, bitLo, bitBool, cutAll, cutWide]

theorem mtsr (idx : BitVec 12) (b : Reg) : Statement (.mtsr idx b) := by
  refine decodes (encX 14 3 0 b 0 (idx.setWidth 32)) rfl ?_
  rw [atSys (classX ..), fieldsSys, opX]
  show some (Instr.mtsr _ _) = _
  simp (disch := decide) only [encX, bitHi, bitLo, bitBool, cutHi, cutLo, cutAll, cutWide, Nat.reduceSub] <;> simp (disch := decide) only [Nat.reduceAdd, Nat.reduceSub, bitHi, bitLo, bitBool, cutAll, cutWide]

theorem exit (b : Reg) : Statement (.exit b) := by
  refine decodes (encX 14 4 0 b 0 0) rfl ?_
  rw [atSys (classX ..), fieldsSys, opX]
  show some (Instr.exit _) = _
  simp (disch := decide) only [encX, bitHi, bitLo, bitBool, cutHi, cutLo, cutAll, cutWide, Nat.reduceSub] <;> simp (disch := decide) only [Nat.reduceAdd, Nat.reduceSub, bitHi, bitLo, bitBool, cutAll, cutWide]

theorem yieldT (a : Reg) : Statement (.yieldT a) := by
  refine decodes (encX 14 5 a 0 0 0) rfl ?_
  rw [atSys (classX ..), fieldsSys, opX]
  show some (Instr.yieldT _) = _
  simp (disch := decide) only [encX, bitHi, bitLo, bitBool, cutHi, cutLo, cutAll, cutWide, Nat.reduceSub] <;> simp (disch := decide) only [Nat.reduceAdd, Nat.reduceSub, bitHi, bitLo, bitBool, cutAll, cutWide]

theorem swap : Statement (.swap) := by
  refine decodes (encX 14 6 0 0 0 0) rfl ?_
  rw [atSys (classX ..), fieldsSys, opX]
  show (if _ then _ else _) = _
  simp (disch := decide) only [encX, bitHi, bitLo, bitBool, cutHi, cutLo, cutAll, cutWide, Nat.reduceSub]
  rfl

theorem swapLoad (b : Reg) : Statement (.swapLoad b) := by
  refine decodes (encX 14 6 0 b 1 0) rfl ?_
  rw [atSys (classX ..), fieldsSys, opX]
  show (if _ then _ else _) = _
  simp (disch := decide) only [encX, bitHi, bitLo, bitBool, cutHi, cutLo, cutAll, cutWide, Nat.reduceSub]
  rfl

theorem frame (n : BitVec 16) : Statement (.frame n) := by
  refine decodes (encX 14 7 0 0 0 (n.setWidth 32)) rfl ?_
  rw [atSys (classX ..), fieldsSys, opX]
  show some (Instr.frame _) = _
  simp (disch := decide) only [encX, bitHi, bitLo, bitBool, cutHi, cutLo, cutAll, cutWide, Nat.reduceSub] <;> simp (disch := decide) only [Nat.reduceAdd, Nat.reduceSub, bitHi, bitLo, bitBool, cutAll, cutWide]

theorem drain : Statement (.drain) := by
  refine decodes (encX 14 8 0 0 0 0) rfl ?_
  rw [atSys (classX ..), fieldsSys, opX]
  show some (Instr.drain) = _
  rfl

theorem tlbinv (scope : BitVec 3) (a b : Reg) : Statement (.tlbinv scope a b) := by
  refine decodes (encX 14 9 a b (scope.setWidth 8) 0) rfl ?_
  rw [atSys (classX ..), fieldsSys, opX]
  show some (Instr.tlbinv _ _ _) = _
  simp (disch := decide) only [encX, bitHi, bitLo, bitBool, cutHi, cutLo, cutAll, cutWide, Nat.reduceSub] <;> simp (disch := decide) only [Nat.reduceAdd, Nat.reduceSub, bitHi, bitLo, bitBool, cutAll, cutWide]

theorem spawn (a b : Reg) : Statement (.spawn a b) := by
  refine decodes (encX 14 10 a b 0 0) rfl ?_
  rw [atSys (classX ..), fieldsSys, opX]
  show some (Instr.spawn _ _) = _
  simp (disch := decide) only [encX, bitHi, bitLo, bitBool, cutHi, cutLo, cutAll, cutWide, Nat.reduceSub] <;> simp (disch := decide) only [Nat.reduceAdd, Nat.reduceSub, bitHi, bitLo, bitBool, cutAll, cutWide]

theorem depdec (oc : BitVec 4) (a b : Reg) : Statement (.depdec oc a b) := by
  refine decodes (encX 14 11 a b (oc.setWidth 8) 0) rfl ?_
  rw [atSys (classX ..), fieldsSys, opX]
  show (if _ then _ else _) = _
  simp (disch := decide) only [encX, bitHi, bitLo, bitBool, cutHi, cutLo, cutAll, cutWide, Nat.reduceSub]
  simp [Nat.reduceAdd, Nat.reduceSub, cutAll]

theorem depdecAll (oc : BitVec 4) (a : Reg) : Statement (.depdecAll oc a) := by
  refine decodes (encX 14 11 a 0 (0#3 ++ 1#1 ++ oc) 0) rfl ?_
  rw [atSys (classX ..), fieldsSys, opX]
  show (if _ then _ else _) = _
  simp (disch := decide) only [encX, bitHi, bitLo, bitBool, cutHi, cutLo, cutAll, cutWide, Nat.reduceSub]
  simp [Nat.reduceAdd, Nat.reduceSub, cutAll]

theorem halt : Statement (.halt) := by
  refine decodes (encX 14 12 0 0 0 0) rfl ?_
  rw [atSys (classX ..), fieldsSys, opX]
  show some (Instr.halt) = _
  rfl

theorem clock (a : Reg) : Statement (.clock a) := by
  refine decodes (encX 14 13 a 0 0 0) rfl ?_
  rw [atSys (classX ..), fieldsSys, opX]
  show some (Instr.clock _) = _
  simp (disch := decide) only [encX, bitHi, bitLo, bitBool, cutHi, cutLo, cutAll, cutWide, Nat.reduceSub] <;> simp (disch := decide) only [Nat.reduceAdd, Nat.reduceSub, bitHi, bitLo, bitBool, cutAll, cutWide]

theorem kill (a b : Reg) : Statement (.kill a b) := by
  refine decodes (encX 14 14 a b 0 0) rfl ?_
  rw [atSys (classX ..), fieldsSys, opX]
  show some (Instr.kill _ _) = _
  simp (disch := decide) only [encX, bitHi, bitLo, bitBool, cutHi, cutLo, cutAll, cutWide, Nat.reduceSub] <;> simp (disch := decide) only [Nat.reduceAdd, Nat.reduceSub, bitHi, bitLo, bitBool, cutAll, cutWide]

theorem idle (n : BitVec 32) : Statement (.idle n) := by
  refine decodes (encX 14 15 0 0 0 n) rfl ?_
  rw [atSys (classX ..), fieldsSys, opX]
  show some (Instr.idle _) = _
  simp (disch := decide) only [encX, bitHi, bitLo, bitBool, cutHi, cutLo, cutAll, cutWide, Nat.reduceSub] <;> simp (disch := decide) only [Nat.reduceAdd, Nat.reduceSub, bitHi, bitLo, bitBool, cutAll, cutWide]

theorem phase (p : BitVec 3) : Statement (.phase p) := by
  refine decodes (encX 14 16 0 0 0 (p.setWidth 32)) rfl ?_
  rw [atSys (classX ..), fieldsSys, opX]
  show some (Instr.phase _) = _
  simp (disch := decide) only [encX, bitHi, bitLo, bitBool, cutHi, cutLo, cutAll, cutWide, Nat.reduceSub] <;> simp (disch := decide) only [Nat.reduceAdd, Nat.reduceSub, bitHi, bitLo, bitBool, cutAll, cutWide]

theorem instructionFetch (_g : Gid) : Statement (.instructionFetch _g) := nofun

theorem engineCommandPush (_g : Gid) (_word : Word) : Statement (.engineCommandPush _g _word) := nofun

theorem instructionCommit (_g : Gid) : Statement (.instructionCommit _g) := nofun

theorem framedStartMiss (_g : Gid) (_q : BitVec 3) (_cycle : BitVec 32) : Statement (.framedStartMiss _g _q _cycle) := nofun

theorem commandSteal (_g : Gid) (_owner : Gid) (_q : BitVec 3) : Statement (.commandSteal _g _owner _q) := nofun

theorem commandRetire (_g : Gid) (_q : BitVec 3) : Statement (.commandRetire _g _q) := nofun

theorem classQueueLeave (_g : Gid) (_index : Nat) : Statement (.classQueueLeave _g _index) := nofun

theorem homeAdmissionRound (_home : Nat) (_picks : List Nat) : Statement (.homeAdmissionRound _home _picks) := nofun

theorem horizonWiden (_write : Nat) (_scope : BitVec 3) : Statement (.horizonWiden _write _scope) := nofun

theorem l1CopyInstall (_g : Gid) (_sector : Nat) : Statement (.l1CopyInstall _g _sector) := nofun

theorem l1CopyDiscard (_g : Gid) (_sector : Nat) : Statement (.l1CopyDiscard _g _sector) := nofun

theorem claspRequestPerform (_g : Gid) : Statement (.claspRequestPerform _g) := nofun

theorem pageWalkComplete (_g : Gid) (_va : Word) : Statement (.pageWalkComplete _g _va) := nofun

theorem bankmodeChangeBegin (_g : Gid) : Statement (.bankmodeChangeBegin _g) := nofun

theorem bankmodeChangeEnd (_g : Gid) : Statement (.bankmodeChangeEnd _g) := nofun

theorem mwaitRecheck (_g : Gid) : Statement (.mwaitRecheck _g) := nofun

theorem idleTimeout (_g : Gid) : Statement (.idleTimeout _g) := nofun

theorem plateLoadComplete (_g : Gid) : Statement (.plateLoadComplete _g) := nofun

theorem trapTake (_g : Gid) : Statement (.trapTake _g) := nofun

theorem containmentEvent (_g : Gid) (_cause : BitVec 8) (_q : BitVec 3) (_tval : Word) : Statement (.containmentEvent _g _cause _q _tval) := nofun

theorem katInject (_g : Gid) (_unit : BitVec 4) (_row : BitVec 12) (_pass : Bool) : Statement (.katInject _g _unit _row _pass) := nofun

theorem replicaMeeting (_g : Gid) : Statement (.replicaMeeting _g) := nofun

theorem meetingTimeout (_g : Gid) : Statement (.meetingTimeout _g) := nofun

theorem ndagreeTimeout (_g : Gid) : Statement (.ndagreeTimeout _g) := nofun

theorem taskAccept (_dev : Dev) : Statement (.taskAccept _dev) := nofun

theorem taskPlace (_dev : Dev) (_id : BitVec 32) : Statement (.taskPlace _dev _id) := nofun

theorem taskComplete (_dev : Dev) (_id : BitVec 32) : Statement (.taskComplete _dev _id) := nofun

theorem taskPreempt (_dev : Dev) (_id : BitVec 32) : Statement (.taskPreempt _dev _id) := nofun

theorem patrolScrub (_sector : Nat) : Statement (.patrolScrub _sector) := nofun

theorem tickBoundary (_dev : Dev) : Statement (.tickBoundary _dev) := nofun

theorem tickBatchAdmit (_dev : Dev) : Statement (.tickBatchAdmit _dev) := nofun

theorem krytlinkPacketDeliver (_src : Dev) (_dst : Dev) : Statement (.krytlinkPacketDeliver _src _dst) := nofun

theorem clockOffsetExceeded (_dev : Dev) : Statement (.clockOffsetExceeded _dev) := nofun

theorem portFailure (_dev : Dev) (_port : BitVec 5) : Statement (.portFailure _dev _port) := nofun

theorem hostBar2Write (_dev : Dev) (_addr : Nat) (_data : List Byte) : Statement (.hostBar2Write _dev _addr _data) := nofun

theorem hostBar2Read (_dev : Dev) (_addr : Nat) (_len : Nat) : Statement (.hostBar2Read _dev _addr _len) := nofun

theorem claim (_dev : Dev) (_master : Master) (_value : Word) : Statement (.claim _dev _master _value) := nofun

theorem claimHandover (_dev : Dev) (_master : Master) (_value : Word) : Statement (.claimHandover _dev _master _value) := nofun

theorem devreset (_dev : Dev) (_master : Master) (_value : Word) : Statement (.devreset _dev _master _value) := nofun

theorem submit (_dev : Dev) (_master : Master) (_value : Word) : Statement (.submit _dev _master _value) := nofun

theorem bootsrc (_dev : Dev) (_master : Master) (_value : Word) : Statement (.bootsrc _dev _master _value) := nofun

theorem bootdone (_dev : Dev) (_master : Master) (_value : Word) : Statement (.bootdone _dev _master _value) := nofun

theorem deviceRegisterWrite (_dev : Dev) (_master : Master) (_off : Nat) (_value : Word) : Statement (.deviceRegisterWrite _dev _master _off _value) := nofun

theorem deviceReset (_dev : Dev) : Statement (.deviceReset _dev) := nofun

theorem bootSourceTimeout (_dev : Dev) : Statement (.bootSourceTimeout _dev) := nofun

theorem bootFetchComplete (_dev : Dev) (_fetched : Option (List Byte)) (_selfTest : Bool) : Statement (.bootFetchComplete _dev _fetched _selfTest) := nofun

theorem bootNetworkTimeout (_dev : Dev) : Statement (.bootNetworkTimeout _dev) := nofun

theorem bootImageTimeout (_dev : Dev) : Statement (.bootImageTimeout _dev) := nofun

theorem powerCapOvershoot (_dev : Dev) : Statement (.powerCapOvershoot _dev) := nofun

theorem thermalThrottle (_dev : Dev) : Statement (.thermalThrottle _dev) := nofun

theorem thermalTrip (_dev : Dev) : Statement (.thermalTrip _dev) := nofun

theorem debugStop (_master : Master) (_g : Gid) : Statement (.debugStop _master _g) := nofun

theorem debugStep (_master : Master) (_g : Gid) (_engineStep : Bool) : Statement (.debugStep _master _g _engineStep) := nofun

theorem debugResume (_master : Master) (_g : Gid) : Statement (.debugResume _master _g) := nofun

theorem ownerKill (_dev : Dev) (_master : Master) (_id : BitVec 32) : Statement (.ownerKill _dev _master _id) := nofun

theorem powerCapExceeded (_dev : Dev) : Statement (.powerCapExceeded _dev) := nofun

theorem powerCapCleared (_dev : Dev) : Statement (.powerCapCleared _dev) := nofun

end Decodes

end Sys2Proof.Laws
end

