-- ==== Sys2Proof/Laws/Branch.lean ====
section
/-! SUPPORT. Lemmas about class 3 and the entry into a trap level: branches, jumps, loop words and the cut with an empty window. -/
namespace Sys2Proof.Machine
open Sys2Proof

theorem target_eq (pc : Word) (off : BitVec 32) : branchTarget pc off = pc + BitVec.ofInt 64 (8 * off.toInt) := by
  rw [branchTarget, BitVec.ofInt_mul, BitVec.mul_comm (BitVec.ofInt 64 8)]; rfl

theorem branch_gives {i : Instr} {a b : Reg} {off : BitVec 32} {c : Word → Word → Bool} {g : Machine.Unit → Option Word}
    (he : ∀ s, exec i s = branchOp i a b off c s)
    (hg : ∀ u : Machine.Unit, g u = if c (u.rs a) (u.rs b) = true then some (u.pc + BitVec.ofInt 64 (8 * off.toInt)) else none) :
    Branches i [a, b] g := by
  intro s h
  obtain ⟨k, -, e⟩ := issue_reading h (fun s => if c (s.cur.rs a) (s.cur.rs b) then finishJump s s.cur (branchTarget s.cur.pc off) else finish s s.cur)
  rw [State.Ends, he, branchOp, e, hg]
  have hr : ∀ r, (s.pass k).cur.rs r = s.cur.rs r := fun _ => rfl
  simp only [hr]
  by_cases hc : c (s.cur.rs a) (s.cur.rs b) = true
  · simp only [if_pos hc]
    obtain ⟨t, h1, h2, h3, h4, h5⟩ := finishJump_spec s k (s.pass k).cur (branchTarget s.cur.pc off) rfl
    exact ⟨t, h1, fun r => rs_congr h2 r, h3, h4, target_eq _ _ ▸ h5⟩
  · simp only [if_neg hc]
    obtain ⟨t, h1, h2, h3, h4, h5⟩ := finish_spec s k (s.pass k).cur (Nat.le_refl 1) rfl
    exact ⟨t, h1, fun r => rs_congr h2 r, h4, h5, h3⟩

theorem ite_ext {α} {p q : Prop} [Decidable p] [Decidable q] (h : p ↔ q) (x y : α) : (if p then x else y) = if q then x else y := by
  by_cases hp : p
  · rw [if_pos hp, if_pos (h.mp hp)]
  · rw [if_neg hp, if_neg (fun c => hp (h.mpr c))]

theorem jumpReg_spec {i : Instr} {b : Reg} {s : State} (h : s.Executes i [b] []) (v : State → Machine.Unit)
    (hv : ∀ k, v (s.pass k) = { (s.pass k).cur with s := (v (s.pass k)).s, waits := (v (s.pass k)).waits, ready := (v (s.pass k)).ready })
    (he : exec i s = issue i (reading [b] [] fun s => jumpReg s (v s) (s.cur.rs b)) s) :
    ((s.cur.rs b).toNat % 8 = 0 → ∃ k, ∃ t, exec i s = .next t.tick ∧ t.cur.s = (v (s.pass k)).s ∧ s.Recorded t ∧ s.OnlyScalars t ∧ s.JumpsTo t (s.cur.rs b)) ∧
    (¬ (s.cur.rs b).toNat % 8 = 0 → s.Raises i (seqTrap .align (s.cur.rs b))) := by
  obtain ⟨k, hk, e⟩ := issue_reading h (fun s => jumpReg s (v s) (s.cur.rs b))
  rw [State.Raises, he, e]
  refine ⟨fun h0 => ?_, fun h0 => ⟨k, hk, ?_⟩⟩
  · obtain ⟨t, h1, h2⟩ := finishJump_spec s k (v (s.pass k)) (s.cur.rs b) (hv k)
    have hn : ¬ ((s.pass k).cur.rs b).toNat % 8 ≠ 0 := fun c => c h0
    exact ⟨k, t, by rw [jumpReg, if_neg hn, ← h1]; rfl, h2⟩
  · have hn : ((s.pass k).cur.rs b).toNat % 8 ≠ 0 := h0
    rw [jumpReg, if_pos hn]; rfl

theorem loopWord_bits (x : Bool) (len : BitVec 14) (p : Word) : (loopWord x len p).getLsbD 63 = true ∧ (loopWord x len p).getLsbD 62 = x ∧
    fld (loopWord x len p) 48 14 = len.toNat ∧ fld (loopWord x len p) 3 45 = p.toNat / 8 % 2 ^ 45 := by
  refine ⟨?_, ?_, ?_, ?_⟩
  · rw [loopWord]; simp (disch := decide) only [Laws.bitHi, Nat.reduceSub]; rfl
  · rw [loopWord]; simp (disch := decide) only [Laws.bitHi, Laws.bitLo, Nat.reduceSub, Laws.bitBool]
  · rw [fld, loopWord]; simp (disch := decide) only [Laws.cutHi, Laws.cutLo, Laws.cutAll, Nat.reduceSub]
  · rw [fld, loopWord]; simp (disch := decide) only [Laws.cutHi, Laws.cutLo, Laws.cutAll, Nat.reduceSub]
    rw [BitVec.extractLsb'_toNat, Nat.shiftRight_eq_div_pow]

theorem canonical_addr (p : Word) (h1 : p.toNat % 8 = 0) (h2 : p.toInt < 2 ^ 47) (h3 : -(2 ^ 47) ≤ p.toInt) :
    BitVec.ofInt 64 (toSigned 48 (p.toNat / 8 % 2 ^ 45 * 8)) = p := by
  have hp := p.isLt
  have e : toSigned 48 (p.toNat / 8 % 2 ^ 45 * 8) = p.toInt := by
    rw [BitVec.toInt] at *
    simp only [toSigned]
    split at h2 <;> split <;> omega
  rw [e, BitVec.ofInt_toInt]

theorem raise_now {s : State} {t : Trap} (hp : s.prompt = true) (hw : s.cur.window = []) (hc : t.cause.containEvent = none) :
    s.raise t = s.takeTrapAt { trap := t, depth := s.cur.regions.length, again := t.again } := by
  rw [State.raise, if_pos (by simp [hp, hw]), State.deliver, State.deliverAs, hc]

theorem enterLevel_zero (u : Machine.Unit) (t : Trap) (h : u.tlevel = 0) : ∃ v, u.enterLevel t = v ∧
    v.tcause1 = t.tcause ∧ v.tret1 = t.tret.getD u.pc ∧ v.tval1 = t.tval ∧ v.tsp1 = u.rs 63 ∧ v.tlevel = 1 ∧ v.pc = u.tvec := by
  refine ⟨_, rfl, ?_⟩
  cases hx : t.xstat <;> simp [Unit.enterLevel, hx, h, Unit.rs]

theorem unpresent_eq (u : Machine.Unit) : u.unpresent = { u with
    waitingAt := u.unpresent.waitingAt, presented := u.unpresent.presented, unsigned := u.unpresent.unsigned, lanes := u.unpresent.lanes } := by
  rw [Unit.unpresent]; split <;> rfl

theorem formCut_empty (u : Machine.Unit) (h : u.window = []) : u.formCut = { u with
    window := [], wait := none, arrived := false, classQ := u.formCut.classQ, ndValue := none, idleFrom := none, queues := u.formCut.queues, qcut := u.formCut.qcut,
    parked := u.formCut.parked, nextNum := u.formCut.nextNum, idleSince := u.formCut.idleSince, waitingAt := u.formCut.waitingAt,
    presented := u.formCut.presented, unsigned := u.formCut.unsigned, lanes := u.formCut.lanes } := by
  simp only [Unit.formCut, Unit.dropRequest, h]
  rw [unpresent_eq]

end Sys2Proof.Machine
end

