-- ==== Sys2Proof/Laws/Fetch.lean ====
section
/-! SUPPORT. Lemmas about a unit that issues runs the instruction it fetches. -/
namespace Sys2Proof.Machine
open Sys2Proof

theorem turn_run {s : State} (h : s.cur.run = .running ∧ s.cur.raised = none ∧ s.cur.cutting = none ∧ s.cur.debug = .off ∧ s.cur.busy ≤ s.cur.time) :
    turn s = match s.fetched with | .run i => exec i (s.scrubFetch s.cur.pc) | .trap t => trapNow (s.scrubFetch s.cur.pc) t := by
  have : s.cur.issues = true := by
    unfold Unit.issues Unit.released; rw [h.1, h.2.1, h.2.2.1, h.2.2.2.1, decide_eq_true h.2.2.2.2]; rfl
  rw [turn, if_pos this] <;> rfl

/-- Where no sector holds an error, a fetch decodes nothing. -/
theorem scrubFetch_clean {s : State} (h : s.latent = []) (va : Word) : s.scrubFetch va = s := by rw [State.scrubFetch, h]; rfl

theorem fld_eq {n : Nat} (x : BitVec n) (lo len : Nat) : fld x lo len = x.toNat / 2 ^ lo % 2 ^ len := by
  simp [fld, BitVec.extractLsb'_toNat, Nat.shiftRight_eq_div_pow]

end Sys2Proof.Machine
end

