-- ==== Sys2Proof/Laws/Float.lean ====
section
/-! SUPPORT. Lemmas about class 2: how a floating-point instruction meets its statement, and rounding at a position. -/
namespace Sys2Proof.Machine
open Sys2Proof

theorem givesFlt_of {i : Instr} {rs : List Reg} {a : Reg} {g : Unit → Nat × Flags} (r : Unit → Nat × Flags) (lat : Nat) (hl : 1 ≤ lat)
    (he : ∀ s, exec i s = issue i (reading rs [] fun s => finishFlt s a (r s.cur) lat) s)
    (hr : ∀ (s : State) k, r (s.pass k).cur = r s.cur) (hv : ∀ u, r u = g u) : GivesFlt i rs a g := by
  intro s h
  obtain ⟨k, hk, e⟩ := issue_reading h (fun s => finishFlt s a (r s.cur) lat)
  rw [State.Ends, ← hv s.cur, he, e, hr]
  generalize r s.cur = x
  refine ⟨fun h0 => ?_, fun h0 => ⟨k, hk, ?_⟩⟩
  · have hn : ¬ (s.pass k).cur.fpTraps x.2 = true := by
      rw [Unit.fpTraps, BitVec.and_comm]; simp [show x.2 &&& (s.pass k).cur.enables = 0 from h0]
    obtain ⟨t, h1, h2, h3, h4⟩ := finish_eq s k (((s.pass k).cur.orFlags x.2).land a (BitVec.ofNat 64 x.1) lat) hl
      (by rw [land_eq]; rfl) (by rw [land_eq]; rfl) (by rw [land_eq]; rfl) (by rw [land_eq]; rfl) (by rw [land_eq]; rfl)
      (by rw [land_eq]; rfl) (by rw [land_eq]; rfl)
    refine ⟨t, (by rw [finishFlt, if_neg hn]; exact h1), fun q => ?_, by rw [h4, land_eq]; rfl, h2, h3,
      by rw [h4, land_eq]; rfl, by rw [h4, land_eq]; simp only [State.pass, Unit.orFlags]; omega, fun g b => by rw [h4]; rfl⟩
    have : t.cur.rs q = (((s.pass k).cur.orFlags x.2).land a (BitVec.ofNat 64 x.1) lat).rs q := rs_congr (by rw [h4]) q
    rw [this, rs_land]; rfl
  · have hn : (s.pass k).cur.fpTraps x.2 = true := by
      rw [Unit.fpTraps, BitVec.and_comm, bne_iff_ne]; exact h0
    rw [finishFlt, if_pos hn]; rfl

theorem fltIn_eq (single : Bool) (x : Word) : fltIn single x = x.toNat % 2 ^ (if single then fp32 else fp64).bits := by
  cases single
  · exact (Nat.mod_eq_of_lt x.isLt).symm
  · rfl

theorem flags_or_ite (c : Bool) : flagIf c flagNV = if c = true then flagNV else 0 := rfl

theorem min_choice (x y : FpVal) (p q n : Nat) : (if x.isNan && y.isNan then n else if firstIsMin x y then p else q) =
    if x.isNan = true then (if y.isNan = true then n else q) else if y.isNan = true then p
    else if x.lt y = true ∨ (x.eq y = true ∧ (x.negative = true ∨ y.negative = false)) then p else q := by
  simp only [firstIsMin, FpVal.eq]
  rcases Bool.eq_false_or_eq_true x.isNan with h1 | h1 <;> rcases Bool.eq_false_or_eq_true y.isNan with h2 | h2 <;>
    rcases Bool.eq_false_or_eq_true (x.lt y) with h3 | h3 <;> rcases Bool.eq_false_or_eq_true (y.lt x) with h4 | h4 <;>
    simp [h1, h2, h3, h4]

theorem max_choice (x y : FpVal) (p q n : Nat) : (if x.isNan && y.isNan then n
      else if firstIsMin x y && !y.isNan then q else if x.isNan then q else p) =
    if x.isNan = true then (if y.isNan = true then n else q) else if y.isNan = true then p
    else if x.lt y = true ∨ (x.eq y = true ∧ (x.negative = true ∨ y.negative = false)) then q else p := by
  simp only [firstIsMin, FpVal.eq]
  rcases Bool.eq_false_or_eq_true x.isNan with h1 | h1 <;> rcases Bool.eq_false_or_eq_true y.isNan with h2 | h2 <;>
    rcases Bool.eq_false_or_eq_true (x.lt y) with h3 | h3 <;> rcases Bool.eq_false_or_eq_true (y.lt x) with h4 | h4 <;>
    simp [h1, h2, h3, h4]

theorem fclass_val (f : FSpec) (hs : f.special = .ieee) (b : Nat) : fltClass f b =
    let neg := b / 2 ^ (f.fracBits + f.expBits) % 2 == 1
    let ex := b / 2 ^ f.fracBits % 2 ^ f.expBits
    let frac := b % 2 ^ f.fracBits
    if ex = 2 ^ f.expBits - 1 then
       (if frac = 0 then (if neg then 2 ^ 0 else 2 ^ 7) else if frac < 2 ^ (f.fracBits - 1) then 2 ^ 8 else 2 ^ 9)
     else if ex = 0 then
       (if frac = 0 then (if neg then 2 ^ 3 else 2 ^ 4) else if neg then 2 ^ 2 else 2 ^ 5)
     else if neg then 2 ^ 1 else 2 ^ 6 := by
  simp only [fltClass, FSpec.val, hs]
  generalize (b / 2 ^ (f.fracBits + f.expBits) % 2 == 1) = neg
  have hx : b / 2 ^ f.fracBits % 2 ^ f.expBits < 2 ^ f.expBits := Nat.mod_lt _ (Nat.two_pow_pos _)
  have hf : b % 2 ^ f.fracBits < 2 ^ f.fracBits := Nat.mod_lt _ (Nat.two_pow_pos _)
  generalize b / 2 ^ f.fracBits % 2 ^ f.expBits = ex at hx
  generalize b % 2 ^ f.fracBits = fr at hf
  by_cases h1 : ex = 2 ^ f.expBits - 1
  · simp only [h1, if_true]
    by_cases h2 : fr = 0
    · simp only [h2, if_true]; cases neg <;> rfl
    · simp only [h2, if_false]
      by_cases h3 : fr < 2 ^ (f.fracBits - 1) <;> simp only [h3, decide_true, decide_false, if_true, if_false]
  · simp only [h1, if_false]
    by_cases h2 : ex = 0
    · simp only [h2, if_true]
      by_cases h3 : fr = 0
      · subst h3; cases neg <;> rfl
      · have h4 : (fr.log2 : Int) + (1 - ((f.bias : Int) + f.fracBits)) < 1 - f.bias := by
          have := (Nat.log2_lt h3).mpr hf; omega
        cases neg <;> simp [h3, h4]
    · simp only [h2, if_false]
      have h3 : 2 ^ f.fracBits + fr ≠ 0 := by have := Nat.two_pow_pos f.fracBits; omega
      have h4 : (2 ^ f.fracBits + fr).log2 = f.fracBits := by
        rw [Nat.log2_eq_iff h3, Nat.pow_succ]; omega
      have h5 : ¬ ((2 ^ f.fracBits + fr).log2 : Int) + ((ex : Int) - ((f.bias : Int) + f.fracBits)) < 1 - f.bias := by
        rw [h4]; omega
      cases neg <;> simp [h5]

theorem to_int_val (sat : Bool) (w : Nat) (mode : RMode) (x : FpVal) :
    (if sat then toIntSat w mode x else toIntTrap w mode x) =
    (match x with
    | .nan _ => (if sat then 0 else -(2 ^ (w - 1)), flagNV)
    | .inf n => if sat then (if n then -(2 ^ (w - 1)) else 2 ^ (w - 1) - 1, flagNX) else (-(2 ^ (w - 1)), flagNV)
    | .fin n m e =>
      let r : Int := (if n then -1 else 1) * (roundAt mode n m e 0 : Int)
      if r < -(2 ^ (w - 1)) then (-(2 ^ (w - 1)), if sat then flagNX else flagNV)
      else if 2 ^ (w - 1) ≤ r then (if sat then (2 ^ (w - 1) - 1, flagNX) else (-(2 ^ (w - 1)), flagNV))
      else (r, if inexact m e (roundAt mode n m e 0) 0 then flagNX else 0)) := by
  have hmin : intMin w = -(2 ^ (w - 1)) := by simp [intMin]
  have hmax : intMax w = 2 ^ (w - 1) - 1 := by simp [intMax]
  cases x with
  | nan s => cases sat <;> simp [toIntSat, toIntTrap, hmin]
  | inf n => cases sat <;> cases n <;> simp [toIntSat, toIntTrap, hmin, hmax]
  | fin n m e =>
    have hr : (roundInt mode n m e).1 = (if n then -1 else 1) * (roundAt mode n m e 0 : Int) := by
      cases n <;> simp [roundInt]
    have hi : (roundInt mode n m e).2 = inexact m e (roundAt mode n m e 0) 0 := rfl
    simp only [toIntSat, toIntTrap, hr, hi]
    generalize hR : (if n then -1 else 1) * (roundAt mode n m e 0 : Int) = r
    have hp : (0 : Int) < 2 ^ (w - 1) := Int.pow_pos (by decide)
    by_cases h1 : r < -(2 ^ (w - 1))
    · have hc : clampInt w r = -(2 ^ (w - 1)) := by rw [clampInt, hmin, if_pos h1]
      have hne : (-(2 ^ (w - 1)) != r) = true := by rw [bne_iff_ne]; omega
      cases sat <;> simp [hc, hne, hmin, h1, flagIf]
    · by_cases h2 : 2 ^ (w - 1) ≤ r
      · have hc : clampInt w r = 2 ^ (w - 1) - 1 := by rw [clampInt, hmin, hmax, if_neg h1, if_pos (by omega)]
        have hne : (2 ^ (w - 1) - 1 != r) = true := by rw [bne_iff_ne]; omega
        cases sat <;> simp [hc, hne, hmin, h1, h2, flagIf]
      · have hc : clampInt w r = r := by rw [clampInt, hmin, hmax, if_neg h1, if_neg (by omega)]
        cases sat <;> simp [hc, h1, h2, flagIf]

theorem trunc_toNat (x : Int) : truncInt 64 x = (BitVec.ofInt 64 x).toNat := by
  rw [BitVec.toNat_ofInt]; rfl

theorem roundAt_eq (mode : RMode) (neg : Bool) (m d : Nat) (e : Int) : roundAt mode neg m e (e + d) =
    m / 2 ^ d + if (match mode with
      | .rne => decide (2 ^ d < 2 * (m % 2 ^ d)) || (2 * (m % 2 ^ d) == 2 ^ d && m / 2 ^ d % 2 == 1)
      | .rtz => false
      | .rup => !neg && m % 2 ^ d != 0
      | .rdn => neg && m % 2 ^ d != 0) = true then 1 else 0 := by
  cases d with
  | zero =>
    have h1 : m % 1 = 0 := Nat.mod_one m
    rw [roundAt, if_pos (by omega)]
    cases mode <;> cases neg <;> simp [h1]
  | succ d =>
    rw [roundAt, if_neg (by omega)]
    have hd : (e + ((d + 1 : Nat) : Int) - e).toNat = d + 1 := by omega
    simp only [hd, Nat.shiftRight_eq_div_pow, Nat.add_sub_cancel]
    have hp : 2 ^ (d + 1) = 2 * 2 ^ d := by rw [Nat.pow_succ, Nat.mul_comm]
    rw [hp]
    have e1 : ∀ h r : Nat, decide (2 * h < 2 * r) = decide (h < r) := by intro h r; rw [decide_eq_decide]; omega
    have e2 : ∀ h r : Nat, (2 * r == 2 * h) = (r == h) := by
      intro h r; rw [Bool.eq_iff_iff, beq_iff_eq, beq_iff_eq]; omega
    cases mode
    · simp only [e1, e2]; split <;> rfl
    · rfl
    · simp only []; split <;> rfl
    · simp only []; split <;> rfl

end Sys2Proof.Machine
end

