-- ==== Sys2Proof/Laws/Request.lean ====
section
/-! SUPPORT. Lemmas about class 5: what a request at the clasp engine and at a ring does. -/
namespace Sys2Proof.Machine
open Sys2Proof

theorem linkTrap_pass (s : State) (k a : Nat) : (s.pass k).linkTrap a = s.linkTrap a :=
  congrArg (Option.map fun port => seqTrap .linkfail (BitVec.ofNat 64 port)) (flowFails_congr (s := s) (t := s.pass k) rfl (gidDev s.cur.gid) (addrDev a))

theorem claspPlace_pass (s : State) (k : Nat) (n va kind) : claspPlace (s.pass k) kind va n = claspPlace s kind va n := by
  simp only [claspPlace, linkTrap_pass]
  rw [show (s.pass k).cur.gid = s.cur.gid from rfl, translate_pass]

/-- The clasp queue of an entry depends on the requests that wait. -/
theorem queueAt_congr {s t : State} (h1 : t.clasps = s.clasps) (h2 : t.others = s.others) (h3 : t.cur.gid = s.cur.gid)
    (h4 : t.cur.wait = s.cur.wait) (key : Nat) : t.queueAt key = s.queueAt key := by
  have hw : ∀ g, (t.unitAt g).wait = (s.unitAt g).wait := by
    intro g
    rw [State.unitAt, State.unitAt, h2, h3]
    split
    · exact h4
    · rfl
  simp only [State.queueAt, h1, hw]

/-- A sector without errors is decoded to itself. -/
theorem scrub_clean {s : State} {k : Nat} (h : (s.latent.any fun e => e.1 == k) = false) : s.scrub k = s := by
  rw [State.scrub, if_pos (by rw [h]; rfl)]

theorem touch_frame {d d' : Device} {key : Nat} {b : Bool} (h : d.touch key = some (d', b)) :
    d'.num = d.num ∧ d'.banks = d.banks ∧ d'.arrivals = d.arrivals ∧ d'.rings = d.rings := by
  rw [Device.touch] at h
  split at h
  · injection h with h; injection h with h1 h2; subst h1; exact ⟨rfl, rfl, rfl, rfl⟩
  · dsimp only at h
    split at h
    · injection h with h; injection h with h1 h2; subst h1; exact ⟨rfl, rfl, rfl, rfl⟩
    · split at h
      · cases h
      · split at h
        · injection h with h; injection h with h1 h2; subst h1; exact ⟨rfl, rfl, rfl, rfl⟩
        · cases h

/-- A state that differs from `s` as a request that has been made does. -/
structure Asking (s s1 : State) (w : Waiting) : Prop where
  eq : ∃ k L S M P U R, s1 = { s.pass k with devs := s1.devs, cur := { (s.pass k).cur with
    lanes := L, lastSigs := S, meeting := M, presented := P, unsigned := U, relBuf := R, wait := some w, arrived := true } }
  dev : ∀ m, (s1.dev m).banks = (s.dev m).banks ∧ (s1.dev m).arrivals = (s.dev m).arrivals

/-- A unit of a task without replicas performs its requests itself. -/
theorem perform_alone {s : State} (hl : s.cur.live ≤ 1) (a : Reg) (rec' : List Byte) (f : State → Asked) : perform a rec' f s = (match f s with
    | .done t x lat g => finishRequest (t.noteRequest false rec' x lat g).endWait a x lat
    | .wait t => stall t.keepWaiting
    | .trap t x => trapNow t x) := by
  have e : s.agree false rec' = .perform s := by rw [State.agree, if_pos hl]
  rw [perform, e] <;> rfl

/-- What a request does that takes effect: its value in s[A], its commit at once, and the cycle from which the sequencer issues again. -/
theorem finishRequest_spec {s : State} (hw : s.cur.window = []) (a : Reg) (x : Word) (lat : Latency) :
    ∃ t, finishRequest s a x lat = .next t.tick ∧ s.SetsReg t a x ∧ s.NextWord t ∧ t.cur.window = [] ∧ t.cur.committed = s.cur.committed + 1 ∧
      t = { s with cur := { s.cur with
        s := t.cur.s, waits := t.cur.waits, ready := t.cur.ready, pc := t.cur.pc, lcount := t.cur.lcount, lbody := t.cur.lbody, committed := t.cur.committed, busy := s.cur.time + lat.typical } } := by
  let u := (s.cur.land a x lat.bound).busyFor lat.typical
  have hu : u = { s.cur with s := u.s, waits := u.waits, ready := u.ready, busy := s.cur.time + lat.typical } := by
    have hl := land_eq s.cur a x lat.bound
    show Unit.busyFor (s.cur.land a x lat.bound) lat.typical = _
    simp only [u]
    generalize s.cur.land a x lat.bound = v at hl
    generalize v.ready = Y at hl
    subst hl; rfl
  have ha := advance_eq u
  have hg := advance_congr (u := s.cur) (v := u) (by rw [hu]) (by rw [hu]) (by rw [hu]) (by rw [hu])
  let t : State := { s with cur := { u.advance with committed := u.advance.committed + 1 } }
  have ht : t = { s with cur := { u with pc := u.advance.pc, lcount := u.advance.lcount, lbody := u.advance.lbody, committed := u.committed + 1 } } := by
    show ({ s with cur := { u.advance with committed := u.advance.committed + 1 } } : State) = _
    generalize u.advance.pc = P, u.advance.lcount = L, u.advance.lbody = B at ha
    rw [ha]
  have hr : s.cur.record u.advance none none none (s.cur.time + 1) = t.cur := by
    rw [record_none, if_pos ⟨hw, Nat.le_refl _⟩]
  refine ⟨t, ?_, fun r => ?_, ⟨hg.1, hg.2.1, hg.2.2⟩, ?_, ?_, ?_⟩
  · exact congrArg (fun v => Host.Outcome.next (State.tick { s with cur := v })) hr
  · rw [rs_congr (v := t.cur) (u := u) (by rw [ht]), ← rs_land s.cur a r x lat.bound]; rfl
  · rw [ht, hu]; exact hw
  · rw [ht, hu]
  · rw [ht]
    generalize u.advance.pc = P, u.advance.lcount = L, u.advance.lbody = B, u.committed + 1 = C
    dsimp only
    rw [hu]

/-- A request that is served at once: it is performed, alone, with the unit that its meeting leaves. -/
theorem claspRequest_spec {s : State} (q : Nat) (i : Instr) (a : Reg) {key addr : Nat} (cls : BitVec 4) {mask : BitVec 16}
    (own : Option (BitVec 3 × BitVec 16)) (writes : Bool) (rec' : List Byte)
    (ready : State → Bool) (g : State → Asked) (hb : s.cur.buffering = false) (hi : s.cur.wait = none) (hl : s.cur.lostIn mask = none)
    (ht : s.servedNow key addr = true)
    (hr : ∀ L S M P U R, ready { s.pass q with cur := { (s.pass q).cur with
      lanes := L, lastSigs := S, meeting := M, presented := P, unsigned := U, relBuf := R } } = true) :
    ∃ s0 w, claspRequest i a key addr cls mask own writes rec' ready g (s.pass q) = (match g s0 with
        | .done t x lat f => finishRequest (t.noteRequest false rec' x lat f).endWait a x lat
        | .wait t => stall t.keepWaiting
        | .trap t x => trapNow t x) ∧
      Asking s s0 w ∧ s0.devs = s.devs ∧ s0.latent = s.latent ∧ s0.cur.live ≤ 1 ∧ w.key = key ∧ w.woken = true ∧ w.served = false := by
  obtain ⟨u, h1, h2, -⟩ := meeting_alone (s := s.pass q) hb i [rec'] ready (fun s =>
      if s.servedNow key addr then perform a rec' g (s.waitOn s.nextWrite key true cls (s.leavingWith cls own writes))
      else stall (s.sendRequest key addr cls own writes))
    (hr (s.pass q).cur.lanes (s.pass q).cur.lastSigs (s.pass q).cur.meeting (s.pass q).cur.presented (s.pass q).cur.unsigned (s.pass q).cur.relBuf)
    (fun u hu => by rw [hu]; exact hr ..)
  generalize u.lanes = L, u.lastSigs = S, u.meeting = M, u.presented = P, u.unsigned = U, u.relBuf = R at h2
  subst h2
  let t : State := { s.pass q with cur := { (s.pass q).cur with
    lanes := L, lastSigs := S, meeting := M, presented := P, unsigned := U, relBuf := R } }
  have hserved : t.servedNow key addr = true := by
    obtain ⟨h3, h4⟩ := Bool.and_eq_true_iff.mp ht
    refine Bool.and_eq_true_iff.mpr ⟨h3, ?_⟩
    rw [queueAt_congr (s := s) (t := t) rfl rfl rfl rfl]; exact h4
  have hlive : s.cur.live ≤ 1 := (buffering_false hb).1
  refine ⟨t.waitOn t.nextWrite key true cls (t.leavingWith cls own writes), _, ?_, ⟨⟨q, L, S, M, P, U, R, rfl⟩, fun m => ⟨rfl, rfl⟩⟩, rfl, rfl, hlive,
    rfl, rfl, rfl⟩
  rw [claspRequest, if_neg (by rw [show (s.pass q).cur.wait = s.cur.wait from rfl, hi]; decide), linked,
    show (s.pass q).cur.lostIn mask = none from hl]
  exact h1.trans ((if_pos hserved).trans (perform_alone (s := t.waitOn t.nextWrite key true cls (t.leavingWith cls own writes)) hlive a rec' g))

/-- The entry of a request that finds one. -/
theorem withEntry_spec {s s0 : State} {w : Waiting} (hA : Asking s s0 w) (hd : s0.devs = s.devs) {dev : Dev} {key addr : Nat} {tv : Word}
    (he : (s.dev dev).touch key ≠ none) (f : State → Latency → Asked) :
    ∃ s1 lat, withEntry dev key addr tv f s0 = f s1 lat ∧ Asking s s1 w ∧ ∀ m, (s1.dev m).rings = (s.dev m).rings := by
  obtain ⟨⟨d', sp⟩, ht⟩ := Option.ne_none_iff_exists'.mp he
  have hds : ∀ m, s0.dev m = s.dev m := by intro m; simp only [State.dev, hd]
  obtain ⟨f1, f2, f3, f4⟩ := touch_frame ht
  have hn : d'.num = dev := f1.trans (dev_num ..)
  have hdev : ∀ m, (s0.setDev d').dev m = if m = dev then d' else s.dev m := by
    intro m; rw [dev_setDev, hn, hds]
  refine ⟨s0.setDev d', s0.claspLatency s0.cur addr sp, ?_, ⟨?_, fun m => ?_⟩, fun m => ?_⟩
  · rw [withEntry, hds, ht]
  · obtain ⟨k, L, S, M, P, U, R, e⟩ := hA.eq
    refine ⟨k, L, S, M, P, U, R, ?_⟩
    generalize s0.devs = D at e
    subst e; rfl
  · rw [hdev]
    by_cases hmd : m = dev
    · subst hmd; rw [if_pos rfl]; exact ⟨f2, f3⟩
    · rw [if_neg hmd]; exact ⟨rfl, rfl⟩
  · rw [hdev]
    by_cases hmd : m = dev
    · subst hmd; rw [if_pos rfl]; exact f4
    · rw [if_neg hmd]

/-- What the walk of an access has decoded, with the unit as it was. -/
theorem scrubWalk_cur (s : State) (va : Word) : (s.scrubWalk s.cur.gid va).cur = s.cur := by
  obtain ⟨⟨_, _, _, _, e⟩, -⟩ := scrubWalk_decoded s s.cur.gid va
  rw [e]

theorem touch_decodes {s t : State} (h : s.Decodes t) {n : Dev} {key : Nat} (he : (s.dev n).touch key ≠ none) : (t.dev n).touch key ≠ none := by
  have ha := (h.2.1 n).1
  have hr : (t.dev n).resident = (s.dev n).resident := by rw [ha]
  have hs : (t.dev n).spilled = (s.dev n).spilled := by rw [ha]
  have hk : keyVolume key < 8 := by rw [keyVolume]; split <;> omega
  have hg : (t.dev n).reg (0x20008 + 16 * keyVolume key) = (s.dev n).reg (0x20008 + 16 * keyVolume key) := (h.2.1 n).reg (by omega)
  have : ((t.dev n).touch key).isSome = ((s.dev n).touch key).isSome := by
    rw [Device.touch, Device.touch, hr, hs, hg]
    split
    · rfl
    · dsimp only
      split
      · rfl
      · split
        · rfl
        · split <;> rfl
  rw [← Option.isSome_iff_ne_none] at he ⊢
  rw [this]; exact he

/-- A request that finds its place goes on with what its walk has decoded. -/
theorem placed_spec {s : State} (q : Nat) {k : AccessKind} {n : Nat} {va : Word} {p : Place} (f : Place → State → Res)
    (hp : claspPlace s k va n = .ok p) (hh : s.lineHeld s.cur.gid p = false) :
    placed k n va f (s.pass q) = f p ((s.scrubWalk s.cur.gid va).pass q) := by
  have hal : va.toNat % n = 0 := by
    rw [claspPlace] at hp
    by_cases hz : va.toNat % n = 0
    · exact hz
    · rw [if_pos hz] at hp; cases hp
  have e1 : claspPlace (s.pass q) k va n = .ok p := (claspPlace_pass s q n va k).trans hp
  have e2 : ((s.scrubWalk s.cur.gid va).pass q).lineHeld (s.scrubWalk s.cur.gid va).cur.gid p = false := by
    rw [scrubWalk_cur]; exact (lineHeld_decodes (scrubWalk_decoded s s.cur.gid va) _ p).trans hh
  rw [placed]
  rw [show (s.pass q).cur.gid = s.cur.gid from rfl, if_pos hal, scrubWalk_pass, e1]
  exact if_neg (by rw [show ((s.scrubWalk s.cur.gid va).pass q).cur.gid = (s.scrubWalk s.cur.gid va).cur.gid from rfl, e2]; decide)

/-- What a class 5 request comes to that may be performed at once; `r` is the machine with what its walk has decoded. -/
theorem claspOp_spec {s : State} {i : Instr} {a b c d : Reg} {k : AccessKind} {n : Nat} {cls : BitVec 4} {mask : BitVec 16}
    {rel : Option (BitVec 3 × BitVec 16)} {p : Place} (h : s.Executes i [b, c, d] []) (hc : s.AtCommit) (hn0 : 0 < n)
    (hm : s.MayRequest k n cls mask rel (s.cur.rs b) p) (f : Word → Nat → State → Latency → Asked) :
    let r := s.scrubWalk s.cur.gid (s.cur.rs b)
    ∃ s1 lat w rec', claspOp i a b c d k n cls mask rel f s = (match f (s.cur.rs b) p.addr s1 lat with
        | .done t x lat f => finishRequest (t.noteRequest false rec' x lat f).endWait a x lat
        | .wait t => stall t.keepWaiting
        | .trap t x => trapNow t x) ∧
      Asking r s1 w ∧ w.key = granuleKey p.addr ∧ w.woken = true ∧ w.served = false := by
  intro r
  have hD : s.Decodes r := scrubWalk_decoded s s.cur.gid (s.cur.rs b)
  have hcur : r.cur = s.cur := scrubWalk_cur s (s.cur.rs b)
  obtain ⟨_, _, _, _, er⟩ := hD.1
  obtain ⟨q, -, e⟩ := issue_reading_atCommit h hc fun s =>
    placed k n (s.cur.rs b) (fun p z =>
      claspRequest i a (granuleKey p.addr) p.addr cls mask rel k.writes (claspRecord i cls (s.cur.rs b) (z.cur.rs c) (z.cur.rs d))
        (claspReady cls p.addr rel k.writes)
        (fun z =>
          if z.poisoned p.addr then .trap z (seqTrap .uncorr (s.cur.rs b))
          else withEntry (addrDev p.addr) (granuleKey p.addr) p.addr (BitVec.ofNat 64 (p.pa / 64 * 64))
            (fun z lat => f (s.cur.rs b) p.addr z ((z.walkLatency (s.cur.rs b)).plus lat)) (z.scrub (p.addr / 128))) z) s
  let va := s.cur.rs b
  let rec' := claspRecord i cls va (s.cur.rs c) (s.cur.rs d)
  let g : State → Asked := fun s =>
    if s.poisoned p.addr then .trap s (seqTrap .uncorr va)
    else withEntry (addrDev p.addr) (granuleKey p.addr) p.addr (BitVec.ofNat 64 (p.pa / 64 * 64))
      (fun s lat => f va p.addr s ((s.walkLatency va).plus lat)) (s.scrub (p.addr / 128))
  have hl1 : s.cur.live ≤ 1 := (buffering_false hm.out.plain).1
  have hready : ∀ L S M P U R, claspReady cls p.addr rel k.writes ({ r.pass q with cur := { (r.pass q).cur with
      lanes := L, lastSigs := S, meeting := M, presented := P, unsigned := U, relBuf := R } } : State) = true := by
    intro L S M P U R
    generalize hz : ({ r.pass q with cur := { (r.pass q).cur with
      lanes := L, lastSigs := S, meeting := M, presented := P, unsigned := U, relBuf := R } } : State) = z
    have hr := hm.ready
    unfold claspReady at hr
    rw [State.actor, if_pos hl1] at hr
    have hzl : z.cur.live ≤ 1 := by rw [← hz]; show r.cur.live ≤ 1; rw [hcur]; exact hl1
    unfold claspReady
    rw [State.actor, if_pos hzl]
    simp only [Bool.and_eq_true] at hr ⊢
    obtain ⟨⟨⟨r1, r2⟩, r3⟩, r4⟩ := hr
    refine ⟨⟨⟨?_, ?_⟩, ?_⟩, ?_⟩
    · rw [← hz]; show r.cur.classFree cls = true; rw [hcur]; exact r1
    · have := lineFree_decodes hD r2
      rw [← hz]; show r.lineFree r.cur cls p.addr none = true; rw [hcur]; exact this
    · cases rel with
      | none => rfl
      | some c =>
        have h1 : r.performed r.cur c.2 c.1.toNat = true := hcur ▸ performed_decodes hD r3
        rw [← hz]; exact performed_pass h1 q
    · have : (!k.writes || (s.cur.carried cls rel).all fun c => s.knownWide s.cur c.2 c.1.toNat) = true := r4
      rw [← hz]
      show (!k.writes || (r.cur.carried cls rel).all fun c => r.knownWide r.cur c.2 c.1.toNat) = true
      rw [hcur]
      have hp : r.pend = s.pend := by rw [er]
      simp only [State.knownWide, hp] at this ⊢
      exact this
  have hturn : r.servedNow (granuleKey p.addr) p.addr = true := by
    obtain ⟨h3, h4⟩ := Bool.and_eq_true_iff.mp hm.turn
    refine Bool.and_eq_true_iff.mpr ⟨by rw [hcur, reachesNow_decodes hD]; exact h3, ?_⟩
    rw [queueAt_congr (s := s) (t := r) (by rw [er]) (by rw [er]) (by rw [er]) (by rw [er])]; exact h4
  obtain ⟨s0, w, h1, hA, hd, hl, -, hw⟩ := claspRequest_spec (s := r) q i a cls rel k.writes rec' (claspReady cls p.addr rel k.writes) g
    (hcur ▸ hm.out.plain) (hcur ▸ hm.idle) (hcur ▸ hm.linked) hturn hready
  obtain ⟨hc1, hc2⟩ := hm.clean 0 hn0
  have hp : s0.poisoned p.addr = false := by
    have : s0.poisoned p.addr = r.poisoned p.addr := by
      obtain ⟨k, L, S, M, P, U, R, e0⟩ := hA.eq
      rw [e0]; rfl
    rw [this, hD.2.2.2.1]; exact hc2
  have hs : s0.scrub (p.addr / 128) = s0 := by
    refine scrub_clean ?_
    rw [hl]
    exact erring_decodes hD hc1
  obtain ⟨s1, lat, h2, hA1, -⟩ := withEntry_spec hA hd (addr := p.addr) (tv := BitVec.ofNat 64 (p.pa / 64 * 64)) (touch_decodes hD hm.entry)
    (fun s lat => f va p.addr s ((s.walkLatency va).plus lat))
  refine ⟨s1, (s1.walkLatency va).plus lat, w, rec', ?_, hA1, hw⟩
  have hg : g s0 = f va p.addr s1 ((s1.walkLatency va).plus lat) := by
    show (if s0.poisoned p.addr = true then _ else _) = _
    rw [hp, if_neg (by decide), hs]; exact h2
  rw [← hg, ← h1]
  refine e.trans ?_
  refine (placed_spec q _ hm.place hm.unheld).trans ?_
  have hrs : ∀ x, (r.pass q).cur.rs x = s.cur.rs x := fun x => rs_congr (by show r.cur.s = _; rw [hcur]) x
  rw [hrs, hrs]
  rfl

/-- The bytes at their homes are those before the request. -/
theorem asking_bytes {s s1 : State} {w : Waiting} (h : Asking s s1 w) (a n : Nat) : s1.homeBytes a n = s.homeBytes a n := by
  have : ∀ k, s1.homeByte k = s.homeByte k := by
    intro k
    obtain ⟨k', L, S, M, P, U, R, e⟩ := h.eq
    have hmem : s1.mem = s.mem := by rw [e]; rfl
    have hlat : s1.latent = s.latent := by rw [e]; rfl
    have hp2 : s1.pend = s.pend := by rw [e]; rfl
    simp only [State.homeByte, State.settled, State.stored, State.badSymbols, hmem, hlat, hp2, unlisted_congr (fun m => (h.dev m).1)]
  simp only [State.homeBytes, this]

theorem homeBytes_decodes {s r : State} (h : s.Decodes r) (a n : Nat) : r.homeBytes a n = s.homeBytes a n := by
  have hp : r.pend = s.pend := by obtain ⟨⟨_, _, _, _, e⟩, -⟩ := h; rw [e]
  simp only [State.homeBytes, State.homeByte, hp, h.2.2.1]

theorem noteSeen_nil {s : State} (h : s.pend = []) (g : Gid) (a n : Nat) : s.noteSeen g a n = s := by
  rw [State.noteSeen]; simp only [h]; cases s; simp at h ⊢; exact h

theorem acquireAt_nil {s : State} (h : s.pend = []) (sc a n : Nat) : s.acquireAt s.cur.gid sc a n =
    { s with cur := { s.cur with known := (s.cur.known ++ []).eraseDups } } := by
  rw [State.acquireAt]
  have : ((List.range n).flatMap fun k => match s.pend.reverse.find? (fun r => (r.byteAt (a + k)).isSome) with
      | some r => acquiredFrom s.cur.gid sc r.release | none => ([] : List Nat)) = [] := by
    simp [h]
  dsimp only
  rw [unitAt_cur, State.setUnit, if_pos rfl]
  congr 3
  exact congrArg _ this

theorem homeBytes_nil {s : State} (h : s.pend = []) (g : Gid) (a n : Nat) : s.homeBytes a n = (List.range n).map fun k => s.plainByte g (a + k) := by
  simp [State.homeBytes, State.homeByte, State.plainByte, h]

/-- A run without errors is decoded to itself. -/
theorem scrubRun_clean {s : State} {a n : Nat} (h : ∀ b, b < n → s.erring (a + b) = false) : s.scrubRun a n = s := by
  have all : ∀ l : List Nat, (∀ k ∈ l, (s.latent.any fun e => e.1 == k) = false) → l.foldl State.scrub s = s := by
    intro l
    induction l with
    | nil => exact fun _ => rfl
    | cons k l ih =>
      intro hl
      rw [List.foldl_cons, scrub_clean (hl k (by simp)), ih fun j hj => hl j (by simp [hj])]
  rw [State.scrubRun]
  split
  · rfl
  · rename_i hn
    have hn0 : n ≠ 0 := by intro h0; simp [h0] at hn
    refine all _ fun k hk => ?_
    obtain ⟨j, hj, rfl⟩ := List.mem_map.mp hk
    have hj' := List.mem_range.mp hj
    have := h (max a (128 * (a / 128 + j)) - a) (by omega)
    rw [State.erring, show (a + (max a (128 * (a / 128 + j)) - a)) / 128 = a / 128 + j by omega] at this
    exact this

/-- A short write leaves the poison and the errors of its sector as they are, where it has none. -/
theorem clearPoison_short {s : State} {a n : Nat} (hn : n < 128) (h : ∀ b, b < n → s.erring (a + b) = false) : s.clearPoison a n = s := by
  have hno : ∀ x : Nat, (!(decide (a ≤ 128 * x) && decide (128 * x + 128 ≤ a + n))) = true := by intro x; simp; omega
  have h1 : (s.poison.filter fun x => !(decide (a ≤ 128 * x) && decide (128 * x + 128 ≤ a + n))) = s.poison :=
    List.filter_eq_self.mpr fun x _ => hno x
  have h2 : (s.latent.filter fun e => !(decide (a ≤ 128 * e.1) && decide (128 * e.1 + 128 ≤ a + n))) = s.latent :=
    List.filter_eq_self.mpr fun e _ => hno e.1
  rw [State.clearPoison]
  dsimp only
  rw [h1, h2]
  exact scrubRun_clean h

theorem claspWrite_now {s : State} (hp : s.prompt = true) (hn : s.pend = []) (g : Gid) (cls : BitVec 4) (a : Nat) (data : List Byte)
    (rel : Option (BitVec 3 × BitVec 16)) (j : Bool) (hl : data.length ≤ 8) (he : ∀ b, b < data.length → s.erring (a + b) = false) :
    s.claspWrite g cls a data rel j = { s with mem := s.mem.write a data } := by
  have h := clearPoison_short (s := s) (a := a) (n := data.length) (by omega) he
  simp only [State.claspWrite, State.admitPlain, scalarAccess, h, hp, hn, List.isEmpty_nil, Bool.and_self, ↓reduceIte]

/-- A request of a unit of a task without replicas is counted, and its flags enter FSTAT. -/
theorem noteRequest_alone {s : State} (hl : s.cur.live ≤ 1) (hw : s.cur.window = []) (rec' : List Byte) (x : Word) (lat : Latency) (g : Flags) :
    s.noteRequest false rec' x lat g =
      { s with cur := { s.cur with claspCount := s.cur.claspCount + 1, fstat := s.cur.fstat ||| g.setWidth 64 } } := by
  have h : (s.cur.countRequest false).retireFlags g =
      { s.cur with claspCount := s.cur.claspCount + 1, fstat := s.cur.fstat ||| g.setWidth 64 } := by
    simp only [Unit.countRequest, Bool.false_eq_true, ↓reduceIte, Unit.retireFlags, Unit.orFlags, hw, List.map_nil]
  rw [State.noteRequest]
  dsimp only
  rw [if_pos (by rw [h]; exact hl), h]

/-- What a request comes to that the clasp engine has done: its value in s[A], its flags in FSTAT, and what it left at the homes. -/
theorem asking_done {s s1 s2 : State} {w : Waiting} (hc : s.AtCommit) (hA : Asking s s1 w) (hb : s.cur.buffering = false) (rec' : List Byte) (a : Reg)
    (x : Word) (lat : Latency) (g : Flags)
    (h2 : ∃ K W F G, s2 = { s1 with
      mem := s2.mem, devs := s2.devs, others := s2.others
      cur := { s1.cur with known := K, wait := W, readFrom := F, readRings := G } }) :
    ∃ t, finishRequest (s2.noteRequest false rec' x lat g).endWait a x lat = .next t.tick ∧ s.SetsReg t a x ∧ s.NextWord t ∧ s.Recorded t ∧
      s.OnlyRequested t ∧ t.mem = s2.mem ∧ t.devs = s2.devs ∧ t.others = s2.others ∧ t.pend = s.pend ∧ t.latent = s.latent ∧
      t.cur.fstat = s.cur.fstat ||| g.setWidth 64 := by
  obtain ⟨K, W, F, G, h2⟩ := h2
  generalize s2.mem = M, s2.devs = D, s2.others = O at h2 ⊢
  subst h2
  obtain ⟨k, L, S, N, P, U, R, e⟩ := hA.eq
  generalize s1.devs = D1 at e
  subst e
  have hwin : s.cur.window = [] := hc
  let s3 : State := { s.pass k with
    mem := M, devs := D, others := O
    cur := { (s.pass k).cur with
      lanes := L, lastSigs := S, meeting := N, presented := P, unsigned := U, relBuf := R, wait := none, arrived := false
      known := K, readFrom := F, readRings := G, claspCount := s.cur.claspCount + 1, fstat := s.cur.fstat ||| g.setWidth 64 } }
  have hs3 := fun z (hz : z = ({ s.pass k with
      mem := M, devs := D, others := O
      cur := { (s.pass k).cur with
        lanes := L, lastSigs := S, meeting := N, presented := P, unsigned := U, relBuf := R, arrived := true
        known := K, wait := W, readFrom := F, readRings := G } } : State)) =>
    noteRequest_alone (s := z) (by rw [hz]; exact (buffering_false hb).1) (by rw [hz]; exact hwin) rec' x lat g
  obtain ⟨t, t1, t2, t3, t4, t5, t6⟩ := finishRequest_spec (s := s3) hwin a x lat
  refine ⟨t, (congrArg (fun z => finishRequest (State.endWait z) a x lat) (hs3 _ rfl)).trans t1, t2, ?_, .inl ⟨hwin, t4, t5⟩, ⟨?_, ?_, fun g k => ?_⟩, ?_, ?_, ?_, ?_, ?_, ?_⟩
  · have e := advance_congr (u := s.cur) (v := s3.cur) rfl rfl rfl rfl
    exact ⟨t3.1.trans e.1, t3.2.1.trans e.2.1, t3.2.2.trans e.2.2⟩
  · rw [t6]
    simp only [s3, State.pass, hwin]
  · rw [t6]; simp only [s3, State.pass]; omega
  · rw [t6]; rfl
  all_goals rw [t6]
  all_goals rfl

theorem noteRead_nil {s : State} (h : s.pend = []) (cls : BitVec 4) (a n : Nat) :
    s.noteRead cls a n = { s with cur := { s.cur with readFrom := (s.cur.readFrom ++ []).eraseDups } } := by
  have : ((List.range n).filterMap fun k => (s.pend.reverse.find? fun r => (r.byteAt (a + k)).isSome).map fun r => (r.id, cls)) = [] := by
    simp [h]
  rw [State.noteRead]
  exact congrArg (fun l => ({ s with cur := { s.cur with readFrom := (s.cur.readFrom ++ l).eraseDups } } : State)) this

/-- The unit's own wait, and those of other units, are all that a wake changes. -/
theorem wake_eq (s : State) (key : Nat) : ∃ W O, s.wake key = { s with others := O, cur := { s.cur with wait := W } } := by
  cases h : s.cur.wait with
  | none =>
    refine ⟨none, (s.wake key).others, ?_⟩
    simp only [State.wake, h]; rw [← h]
  | some w =>
    by_cases hk : (w.key == key) = true
    · exact ⟨some { w with woken := true }, (s.wake key).others, by simp only [State.wake, h, if_pos hk]⟩
    · refine ⟨some w, (s.wake key).others, ?_⟩
      simp only [State.wake, h, if_neg hk]; rw [← h]

/-- A request's write, or its leaving memory alone, as every unit reads it. -/
theorem wrote_bytes {s t : State} (hs : s.pend = []) (ht : t.pend = []) (hl : t.latent = s.latent) (hu : ∀ y, t.unlisted y = s.unlisted y)
    {a n : Nat} {x : Option Nat} (he : ∀ b, b < n → s.erring (a + b) = false) (g : Gid) (k : Nat) :
    (t.mem = match x with | some x => s.mem.write a (leBytes n x) | none => s.mem) → t.plainByte g k = match x with
      | some x => if a ≤ k ∧ k < a + n then BitVec.ofNat 8 (x / 2 ^ (8 * (k - a))) else s.plainByte g k
      | none => s.plainByte g k := by
  intro hm
  rw [plainByte_settled ht, plainByte_settled hs]
  cases x with
  | none =>
    dsimp only at hm ⊢
    simp only [State.settled, State.stored, State.badSymbols, hl, hm, hu]
  | some x =>
    dsimp only at hm ⊢
    rw [settled_write hm hu hl (by rw [leBytes_length]; exact he)]
    simp only [leBytes_length, leBytes_getElem, Nat.shiftRight_eq_div_pow]
    split <;> rfl

theorem same_bytes {s t : State} (hs : s.pend = []) (ht : t.pend = []) (hl : t.latent = s.latent) (hm : t.mem = s.mem)
    (hu : ∀ y, t.unlisted y = s.unlisted y) (g : Gid) (k : Nat) : t.plainByte g k = s.plainByte g k := by
  rw [plainByte_settled ht, plainByte_settled hs]
  simp only [State.settled, State.stored, State.badSymbols, hl, hm, hu]

theorem stores_write {s t : State} {a n : Nat} {x : Word} (hs : s.pend = []) (ht : t.pend = []) (hl : t.latent = s.latent)
    (hm : t.mem = s.mem.write a (leBytes n x.toNat)) (hu : ∀ y, t.unlisted y = s.unlisted y) (he : ∀ b, b < n → s.erring (a + b) = false) :
    s.Stores t a n x := fun g k => wrote_bytes (x := some x.toNat) hs ht hl hu he g k hm

theorem byte_congr {x y n j : Nat} (hj : j < n) (h : x % 2 ^ (8 * n) = y % 2 ^ (8 * n)) : BitVec.ofNat 8 (x / 2 ^ (8 * j)) = BitVec.ofNat 8 (y / 2 ^ (8 * j)) := by
  apply BitVec.eq_of_getLsbD_eq
  intro k hk
  rw [BitVec.getLsbD_ofNat, BitVec.getLsbD_ofNat, Nat.testBit_div_two_pow, Nat.testBit_div_two_pow]
  have e : ∀ z : Nat, (z % 2 ^ (8 * n)).testBit (k + 8 * j) = z.testBit (k + 8 * j) := by
    intro z; rw [Nat.testBit_mod_two_pow]; simp; omega
  rw [← e x, ← e y, h]

theorem sgn_toSigned (w : Bool) (x : Nat) : toSigned (bits w) x = sgn w (BitVec.ofNat 64 x) := by
  cases w
  · simp only [bits, sgn, Bool.false_eq_true, if_false]
    rw [BitVec.toInt_eq_toNat_cond, BitVec.toNat_ofNat, toSigned]
    have : x % 2 ^ 64 < 2 ^ 64 := Nat.mod_lt _ (by decide)
    split <;> split <;> omega
  · simp only [bits, sgn, if_true]
    rw [show (BitVec.ofNat 64 x).setWidth 32 = BitVec.ofNat 32 x by apply BitVec.eq_of_toNat_eq; simp, BitVec.toInt_eq_toNat_cond, BitVec.toNat_ofNat, toSigned]
    have : x % 2 ^ 32 < 2 ^ 32 := Nat.mod_lt _ (by decide)
    split <;> split <;> omega

theorem oldValue_eq (w : Bool) (x : Nat) : oldValue w x = narrow w (sgn w (BitVec.ofNat 64 x)) := by
  cases w
  · simp [oldValue, narrow, sgn]
  · simp only [oldValue, if_true, narrow, ← sgn_toSigned, bits]
    have h : (toSigned 32 x).bmod (2 ^ 32) = toSigned 32 x := by
      apply Int.bmod_eq_of_le <;> simp only [toSigned] <;> omega
    rw [h]

theorem number_lt (s : State) (a n : Nat) : s.number a n < 2 ^ (8 * n) := by
  have := fromLe_lt (s.homeBytes a n)
  rwa [State.homeBytes, List.length_map, List.length_range] at this

theorem leBytes_mod (x : Nat) : leBytes 8 (x % 2 ^ 64) = leBytes 8 x := by
  refine List.ext_getElem (by rw [leBytes_length, leBytes_length]) fun j h1 h2 => ?_
  rw [leBytes_getElem, leBytes_getElem, Nat.shiftRight_eq_div_pow, Nat.shiftRight_eq_div_pow]
  rw [leBytes_length] at h1
  exact byte_congr (n := 8) h1 (Nat.mod_mod ..)

/-- A barrier's arrivals, and nothing else, have changed on a device. -/
theorem onDev_arrivals {s : State} (n : Dev) (f : List Arrival → List Arrival) (m : Dev) :
    let t := s.onDev n fun d => { d with arrivals := f d.arrivals }
    (t.dev m).banks = (s.dev m).banks ∧ (t.dev m).arrivals = if m = n then f (s.dev n).arrivals else (s.dev m).arrivals := by
  intro t
  have := dev_onDev s n (fun d => { d with arrivals := f d.arrivals }) (dev_num s n) m
  show ((s.onDev n _).dev m).banks = _ ∧ ((s.onDev n _).dev m).arrivals = _
  rw [this]
  by_cases h : m = n
  · subst h; rw [if_pos rfl, if_pos rfl]; exact ⟨rfl, rfl⟩
  · rw [if_neg h, if_neg h]; exact ⟨rfl, rfl⟩

theorem tablePut_lookup {α : Type} (l : List (Nat × α)) (k : Nat) (x : α) (j : Nat) :
    (tablePut l k x).lookup j = if j = k then some x else l.lookup j := by
  rw [tablePut, List.lookup_append, lookup_table (fun i => decide (i < k)), List.lookup_cons, lookup_table (fun i => decide (k < i))]
  by_cases h : j = k
  · subst h; simp
  · rw [if_neg h, show (j == k) = false by simpa using h]
    by_cases h1 : j < k
    · rw [if_pos (by simpa using h1), if_neg (by simp; omega), Option.or_none]
    · rw [if_neg (by simpa using h1), if_pos (by simp; omega), Option.none_or]

theorem setRing_dev (s : State) (dev : Dev) (k : Nat) (r : Ring) (m : Dev) :
    ((s.setRing dev k r).dev m).banks = (s.dev m).banks ∧
      ((s.setRing dev k r).dev m).rings = if m = dev then tablePut (s.dev dev).rings k r else (s.dev m).rings := by
  have := dev_onDev s dev (fun d => { d with rings := tablePut d.rings k r }) (dev_num s dev) m
  rw [State.setRing, this]
  by_cases h : m = dev
  · subst h; rw [if_pos rfl, if_pos rfl]; exact ⟨rfl, rfl⟩
  · rw [if_neg h, if_neg h]; exact ⟨rfl, rfl⟩

/-- What an instruction does to the machine that its walk has decoded, it does to the machine before it. -/
theorem requested_decodes {s r t : State} (h : s.Decodes r) {a : Reg} {x : Word} (h1 : r.SetsReg t a x) (h2 : r.NextWord t) (h3 : r.Recorded t)
    (h4 : r.OnlyRequested t) : s.SetsReg t a x ∧ s.NextWord t ∧ s.Recorded t ∧ s.OnlyRequested t := by
  obtain ⟨⟨_, _, _, _, e⟩, -⟩ := h
  subst e
  obtain ⟨e, hc, -⟩ := h4
  have hp := congrArg State.pend e
  replace hp : t.pend = s.pend := hp
  have e' := congrArg (fun z : State => { z with devs := s.devs, mem := s.mem, poison := s.poison, latent := s.latent }) e
  refine ⟨h1, h2, h3, e', hc, fun g k => ?_⟩
  simp only [State.plainByte, hp]
  rfl

/-- What an atomic does that may be performed at once: s[A] receives the old value, the new one is written, and the flags enter FSTAT. -/
theorem atomicOp_spec {s : State} {i : Instr} {small : Bool} {sem : BitVec 2} {scope : BitVec 3} {oc : BitVec 4} {mask : BitVec 16}
    {a b c d : Reg} {op : Nat → Nat → Nat → Option Nat × Flags} {back : Nat → Word} {p : Place}
    (h : s.Executes i [b, c, d] []) (hc : s.AtCommit)
    (hm : s.MayRequest .atomic (if small then 4 else 8) oc (if semRel sem then mask else 0) (if semRel sem then some (scope, mask) else none)
      (s.cur.rs b) p) :
    let n := if small then 4 else 8
    let old := s.number p.addr n
    let low (r : Reg) : Nat := (s.cur.rs r).toNat % 2 ^ (8 * n)
    let r := op old (low c) (low d)
    ∃ t, atomicOp i small sem scope oc mask a b c d op back s = .next t.tick ∧ s.SetsReg t a (back old) ∧
      (∀ g k, t.plainByte g k = match r.1 with
        | some x => if p.addr ≤ k ∧ k < p.addr + n then BitVec.ofNat 8 (x / 2 ^ (8 * (k - p.addr))) else s.plainByte g k
        | none => s.plainByte g k) ∧
      t.cur.fstat = s.cur.fstat ||| r.2.setWidth 64 ∧ s.NextWord t ∧ s.Recorded t ∧ s.OnlyRequested t := by
  intro n old low r
  let rel := if semRel sem then some (scope, mask) else none
  let f : Word → Nat → State → Latency → Asked := fun _ addr s lat =>
    let g := s.leadGid
    let low (r : Reg) : Nat := (s.cur.rs r).toNat % 2 ^ (8 * n)
    let old := fromLe (s.homeBytes addr n)
    let r := op old (low c) (low d)
    let s := (s.noteSeen g addr n).noteRead oc addr n
    let t := match r.1 with | some x => s.claspWrite g oc addr (leBytes n x) rel true | none => s
    let known := if semAcq sem then ((s.acquireAt s.cur.gid scope.toNat addr n).cur).known else t.cur.known
    let t := ({ t with cur := { t.cur with known := known } } : State).wake (granuleKey addr)
    .done t (back old) lat r.2
  have hn : n ≤ 8 ∧ 0 < n := by show (if small then 4 else 8) ≤ 8 ∧ 0 < (if small then 4 else 8); cases small <;> decide
  obtain ⟨s1, lat, w, rec', e1, hA, -, -, -⟩ := claspOp_spec (a := a) h hc hn.2 hm f
  let v := s.scrubWalk s.cur.gid (s.cur.rs b)
  have hD : s.Decodes v := scrubWalk_decoded s s.cur.gid (s.cur.rs b)
  have hcur : v.cur = s.cur := scrubWalk_cur s (s.cur.rs b)
  have hout := hm.out.decodes hD
  have hcv : v.AtCommit := by show v.cur.window = []; rw [hcur]; exact hc
  obtain ⟨k, L, S, M, P, U, R, e⟩ := hA.eq
  have hpend : s1.pend = [] := by rw [e]; exact hout.none
  have hprompt : s1.prompt = true := by
    have := hout.now
    rw [State.reachesNow, Bool.and_eq_true] at this
    rw [e]; exact this.1
  have hrs : ∀ r, s1.cur.rs r = s.cur.rs r := fun r => rs_congr (by rw [e]; show v.cur.s = _; rw [hcur]) r
  have hlat : s1.latent = v.latent := by rw [e]; rfl
  have hmem : s1.mem = v.mem := by rw [e]; rfl
  have hclean : ∀ j, j < n → v.erring (p.addr + j) = false := fun j hj => erring_decodes hD (hm.clean j hj).1
  have he : ∀ j, j < n → s1.erring (p.addr + j) = false := by
    intro j hj
    rw [State.erring, hlat]; exact hclean j hj
  let mem' : Memory := match r.1 with | some x => v.mem.write p.addr (leBytes n x) | none => v.mem
  obtain ⟨z, hz⟩ : ∃ z : State, z = { s1 with cur := { s1.cur with readFrom := (s1.cur.readFrom ++ []).eraseDups } } := ⟨_, rfl⟩
  have hwr : (match r.1 with | some x => z.claspWrite s1.leadGid oc p.addr (leBytes n x) rel true | none => z) = { z with mem := mem' } := by
    show (match r.1 with | some x => _ | none => z) = { z with mem := match r.1 with | some x => _ | none => v.mem }
    cases r.1 with
    | none => dsimp only; rw [← hmem, hz]
    | some x =>
      dsimp only
      rw [claspWrite_now (s := z) (by rw [hz]; exact hprompt) (by rw [hz]; exact hpend) _ _ _ _ _ _ (by rw [leBytes_length]; exact hn.1)
        (by rw [leBytes_length, hz]; exact he), ← hmem]; rw [hz]
  have hf : ∃ K, f (s.cur.rs b) p.addr s1 lat = .done (({ z with mem := mem', cur := { z.cur with known := K } } : State).wake
      (granuleKey p.addr)) (back old) lat r.2 := by
    have ho : fromLe (s1.homeBytes p.addr n) = old := by rw [asking_bytes hA, homeBytes_decodes hD]; rfl
    have hr : op (fromLe (s1.homeBytes p.addr n)) ((s1.cur.rs c).toNat % 2 ^ (8 * n)) ((s1.cur.rs d).toNat % 2 ^ (8 * n)) = r := by
      rw [ho, hrs, hrs]
    refine ⟨if semAcq sem then ((z.acquireAt z.cur.gid scope.toNat p.addr n).cur).known else z.cur.known, ?_⟩
    simp only [f]
    rw [hr, ho, noteSeen_nil hpend, noteRead_nil hpend, ← hz]
    simp only [hwr]
  obtain ⟨K, hf⟩ := hf
  obtain ⟨W, O, hw⟩ := wake_eq ({ z with mem := mem', cur := { z.cur with known := K } } : State) (granuleKey p.addr)
  rw [hw] at hf
  obtain ⟨t, t1, t2, t3, t4, t5, t6, t7, t8, t9, t10, t11⟩ := asking_done (s2 := { z with mem := mem', others := O, cur := { z.cur with known := K, wait := W } })
    hcv hA hout.plain rec' a (back old) lat r.2 ⟨K, W, (s1.cur.readFrom ++ []).eraseDups, s1.cur.readRings, by rw [hz]⟩
  obtain ⟨u2, u3, u4, u5⟩ := requested_decodes hD t2 t3 t4 t5
  refine ⟨t, ?_, u2, ?_, by rw [t11, hcur], u3, u4, u5⟩
  · refine Eq.trans ?_ t1
    show claspOp _ _ _ _ _ _ _ _ _ _ f s = _
    rw [e1, hf]
  · refine fun g k => (wrote_bytes (x := r.1) hout.none (t9.trans hout.none) t10 ?_ hclean g k t6).trans (by simp only [hD.plainByte])
    exact unlisted_congr fun m => by
      have : t.dev m = s1.dev m := by simp only [State.dev, t7, hz]
      rw [this]; exact (hA.dev m).1

/-- What a ring instruction comes to that may be performed at once. -/
theorem ringOp_spec {s : State} {i : Instr} {a b c : Reg} {sec ring : Nat} {mask : BitVec 16} {rel writes : Bool} (h : s.Executes i [b, c] [])
    (hc : s.AtCommit) (hm : s.MayRing (s.cur.rs b) sec ring mask rel writes) (f : Ring → Nat → (Ring → State) → Latency → State → Asked) :
    ∃ s1 lat w rec', ringOp i a b c mask rel writes f s = (match (match (s.dev (gidDev s.cur.gid)).rings.lookup (ringIndex sec ring) with
          | none => Asked.trap s1 (seqTrap .ringerr (s.cur.rs b))
          | some r => f r ring (s1.setRing (gidDev s.cur.gid) (ringIndex sec ring)) lat s1) with
        | .done t x lat f => finishRequest (t.noteRequest false rec' x lat f).endWait a x lat
        | .wait t => stall t.keepWaiting
        | .trap t x => trapNow t x) ∧
      Asking s s1 w ∧ ∀ m, (s1.dev m).rings = (s.dev m).rings := by
  let dev := gidDev s.cur.gid
  let index := ringIndex sec ring
  let x := s.cur.rs b
  let own := if rel then some (ringScope, mask) else none
  let vet (known : Reg → Bool) (s : State) : Option Trap :=
    if known b && (ringSelector s.cur (s.cur.rs b)).isNone then some (seqTrap .illfld (encode i)) else none
  let ready (s : State) : Bool := s.cur.classFree 0 && (!rel || s.performed s.actor mask ringScope.toNat) &&
        (!writes || (s.cur.carried 0 own).all fun c => s.knownWide s.actor c.2 c.1.toNat)
  let g : State → Asked := fun z => withEntry dev (ringKey dev index) (sramAddr dev sec 0) (Config.freeWord z.free) (fun z lat =>
            match (z.dev dev).rings.lookup index with
            | none => .trap z (seqTrap .ringerr x)
            | some r => f r ring (z.setRing dev index) lat z) z
  obtain ⟨q, -, e⟩ := issue_vetting_atCommit h hc vet (fun s =>
    let x := s.cur.rs b
    match ringSelector s.cur x with
    | none => trapNow s (seqTrap .illfld (encode i))
    | some (sec, ring) =>
      let dev := gidDev s.cur.gid
      let index := ringIndex sec ring
      let lost := match s.cur.wait with | some w => !w.woken | none => false
      let own := if rel then some (ringScope, mask) else none
      let ready (s : State) : Bool := s.cur.classFree 0 && (!rel || s.performed s.actor mask ringScope.toNat) &&
        (!writes || (s.cur.carried 0 own).all fun c => s.knownWide s.actor c.2 c.1.toNat)
      if lost then trapNow s (seqTrap .ringerr x)
      else claspRequest i a (ringKey dev index) (sramAddr dev sec 0) 0 mask own writes (claspRecord i 0 x (s.cur.rs c) 0) ready
        (fun s =>
          withEntry dev (ringKey dev index) (sramAddr dev sec 0) (Config.freeWord s.free) (fun s lat =>
            match (s.dev dev).rings.lookup index with
            | none => .trap s (seqTrap .ringerr x)
            | some r => f r ring (s.setRing dev index) lat s) s) s)
  have hsel : ringSelector (s.pass q).cur ((s.pass q).cur.rs b) = some (sec, ring) := hm.place
  have hvet : vet (fun _ => true) (s.pass q) = none := by
    show (if (true && (ringSelector (s.pass q).cur ((s.pass q).cur.rs b)).isNone) = true then _ else none) = none
    rw [hsel, if_neg (by simp)]
  have hlive : s.cur.live ≤ 1 := (buffering_false hm.plain).1
  have hready : ∀ L S M P U R, ready ({ s.pass q with cur := { (s.pass q).cur with
      lanes := L, lastSigs := S, meeting := M, presented := P, unsigned := U, relBuf := R } } : State) = true := by
    intro L S M P U R
    generalize hz : ({ s.pass q with cur := { (s.pass q).cur with
      lanes := L, lastSigs := S, meeting := M, presented := P, unsigned := U, relBuf := R } } : State) = z
    have ha : z.actor = z.cur := by rw [State.actor, if_pos (by rw [← hz]; exact hlive)]
    show (z.cur.classFree 0 && (!rel || z.performed z.actor mask ringScope.toNat) &&
      (!writes || (z.cur.carried 0 own).all fun c => z.knownWide z.actor c.2 c.1.toNat)) = true
    rw [ha, Bool.and_eq_true, Bool.and_eq_true]
    refine ⟨⟨by rw [← hz]; exact hm.free, ?_⟩, ?_⟩
    · cases hr : rel
      · rfl
      · have := performed_pass (hm.ready hr) q
        rw [← hz]; exact this
    · cases hw : writes
      · rfl
      · rw [← hz]; exact List.all_eq_true.mpr (hm.wide hw)
  obtain ⟨s0, w, h1, hA, hd, hl, -, -⟩ := claspRequest_spec q i a 0 own writes (claspRecord i 0 x (s.cur.rs c) 0) ready g
    hm.plain hm.idle hm.linked hm.turn hready
  obtain ⟨s1, lat, h2, hA1, hr1⟩ := withEntry_spec hA hd (addr := sramAddr dev sec 0) (tv := Config.freeWord s0.free) hm.entry (fun z lat =>
            match (z.dev dev).rings.lookup index with
            | none => .trap z (seqTrap .ringerr x)
            | some r => f r ring (z.setRing dev index) lat z)
  refine ⟨s1, lat, w, claspRecord i 0 x (s.cur.rs c) 0, ?_, hA1, hr1⟩
  refine e.trans ?_
  rw [hvet]
  dsimp only
  rw [hsel]
  dsimp only
  rw [show (s.pass q).cur.wait = none from hm.idle]
  refine h1.trans ?_
  rw [show g s0 = _ from h2, hr1]

/-- A ring instruction that leaves the ring `r'` of its device and nothing else. -/
theorem ring_done {s s1 s2 : State} {w : Waiting} {sec ring : Nat} {x0 : Word} {mask : BitVec 16} {rel writes : Bool} {r' : Ring}
    (hc : s.AtCommit) (hm : s.MayRing x0 sec ring mask rel writes) (hA : Asking s s1 w) (hr : ∀ m, (s1.dev m).rings = (s.dev m).rings)
    (rec' : List Byte) (a : Reg) (x : Word) (lat : Latency)
    (h2 : ∃ K W F G, s2 = { s1 with
      mem := s1.mem, devs := s2.devs, others := s2.others
      cur := { s1.cur with known := K, wait := W, readFrom := F, readRings := G } })
    (hd : ∀ m, (s2.dev m).banks = (s1.dev m).banks)
    (hq : ∀ k, (s2.dev (gidDev s.cur.gid)).rings.lookup k = if k = ringIndex sec ring then some r' else (s1.dev (gidDev s.cur.gid)).rings.lookup k) :
    ∃ t, finishRequest (s2.noteRequest false rec' x lat 0).endWait a x lat = .next t.tick ∧ s.SetsReg t a x ∧ s.SetsRing t (ringIndex sec ring) r' ∧
      s.NextWord t ∧ s.Recorded t ∧ (∀ g n, t.plainByte g n = s.plainByte g n) ∧ s.OnlyRequested t := by
  obtain ⟨K, W, F, G, h2⟩ := h2
  have hmem : s2.mem = s.mem := by
    obtain ⟨k, L, S, M, P, U, R, e⟩ := hA.eq
    rw [h2, e]; rfl
  obtain ⟨t, t1, t2, t3, t4, t5, t6, t7, t8, t9, t10, t11⟩ := asking_done (s2 := s2) hc hA hm.plain rec' a x lat 0
    ⟨K, W, F, G, by rw [show s2.mem = s1.mem by rw [h2]]; exact h2⟩
  have hdev : ∀ m, t.dev m = s2.dev m := by intro m; simp only [State.dev, t7]
  refine ⟨t, t1, t2, fun k => ?_, t3, t4, fun g n => ?_, t5⟩
  · rw [hdev, hq, hr]
  · have hu : ∀ y, t.unlisted y = s.unlisted y := unlisted_congr fun m => by rw [hdev, hd]; exact (hA.dev m).1
    have hm' : t.mem = s.mem := t6.trans hmem
    simp only [State.plainByte, State.settled, State.stored, State.badSymbols, hm', t9, t10, hu]

end Sys2Proof.Machine
end

