-- ==== Sys2Proof/Tests/Slice0.lean ====
section
/-! SUPPORT. Tests: ill-formed instructions, words that the manual writes out, single steps on a small state, and a witness for the
hypotheses of each statement. -/
namespace Sys2Proof.Tests
open Sys2Proof Sys2Proof.Machine
set_option Elab.async false

/-! ### Ill-formed terms -/

def head (give take1 take2 take3 : BitVec 3) : EHead := { give := give, take1 := take1, take2 := take2, take3 := take3, stamp := 0 }
/-- No token is taken or given. -/
def h0 : EHead := head 0 0 0 0

/-- A `.w` shift of 32 or more (R144). -/
theorem smoke_shift_amount : [Instr.shli true 1 2 32, .shri true 1 2 63, .sari true 1 2 32].all (fun i => !i.wf) = true := by decide
/-- FCVTF of the precision it writes (06 R148). -/
theorem smoke_fcvtf_kind : (Instr.fcvtf false 0 1 2 2).wf = false ∧ (Instr.fcvtf true 0 1 2 3).wf = false := by decide
/-- A loop of no words, and one with two counts (R36). -/
theorem smoke_loop : [Instr.loop 0 0 3 0, .loopx 0 0 3 0, .loop 5 1 3 0, .loopx 5 1 3 0].all (fun i => !i.wf) = true := by decide
/-- `.sx` on a load of 8 bytes (R85). -/
theorem smoke_sign_extension : (Instr.ld 3 true false 0 1 2 0).wf = false ∧ (Instr.lds 3 true 0 1 2 0).wf = false := by decide
/-- Reserved scopes (R29). -/
theorem smoke_scope : [Instr.fence 1 5 0, .tlbinv 6 1 2, .barr 5 0 1 2 3, .bwait 7 0 1 2 3, .mwait 5 0 1 2 3, .msig 5 0 1 2,
    .aadd false 1 5 0 1 1 2 3, .aand false 1 5 0 1 1 2 3, .aor false 1 5 0 1 1 2 3, .axor false 1 5 0 1 1 2 3, .amin false 1 5 0 1 1 2 3,
    .amax false 1 5 0 1 1 2 3, .aminu false 1 5 0 1 1 2 3, .amaxu false 1 5 0 1 1 2 3, .aswap false 1 5 0 1 1 2 3,
    .acas false 1 5 0 1 1 2 3 4, .afadd false 1 5 0 1 1 2 3].all (fun i => !i.wf) = true := by decide
/-- A class mask without `.acq` or `.rel` (12 R250). -/
theorem smoke_mask : [Instr.aadd false 0 0 0 1 1 2 3, .aand false 0 0 0 1 1 2 3, .aor false 0 0 0 1 1 2 3, .axor false 0 0 0 1 1 2 3,
    .amin false 0 0 0 1 1 2 3, .amax false 0 0 0 1 1 2 3, .aminu false 0 0 0 1 1 2 3, .amaxu false 0 0 0 1 1 2 3, .aswap false 0 0 0 1 1 2 3,
    .acas false 0 0 0 1 1 2 3 4, .afadd false 0 0 0 1 1 2 3].all (fun i => !i.wf) = true := by decide
/-- Queue letters of TWAIT and TGIVE (R130, R131). -/
theorem smoke_queue_letter : [Instr.twait 1 0, .twait 1 1, .twait 1 7, .tgive 0, .tgive 1, .tgive 7].all (fun i => !i.wf) = true := by decide
/-- The reserved format (R31). -/
theorem smoke_format : (Instr.vadd h0 0 0xE 1 2 3).wf = false ∧ (Instr.vld h0 0 0 0xE 1 2 3).wf = false := by decide
/-- Token fields: a reserved queue code, the command's own queue, a gap, and one queue twice (R38). -/
theorem smoke_tokens : [Instr.mzero (head 7 0 0 0) 1, .mzero (head 3 0 0 0) 1, .mzero (head 0 0 2 0) 1, .mzero (head 0 2 2 0) 1,
    .mzero (head 0 2 4 2) 1, .cpin (head 2 0 0 0) 0 false 1 2, .cpout (head 5 0 0 0) 0 false 1 2, .eswp (head 6 0 0 0) 0 1,
    .mand (head 4 0 0 0) 1 2 3].all (fun i => !i.wf) = true := by decide
/-- Reserved operations of reductions, scans, collectives and edge runs (R191, R192, R243, R274, R316). -/
theorem smoke_operation : [Instr.vred h0 0 0 1 2 6 false, .vscan h0 0 0 1 2 3, .cpred h0 0 false 6 false 1 2, .cpcoll h0 0 5 false 1 2,
    .erun h0 0 3 false 1].all (fun i => !i.wf) = true := by decide
/-- The lanes and replicas of SIGRD (R372). -/
theorem smoke_sigrd : [Instr.sigrd true false 1 3, .sigrd false false 1 0, .sigrd false true 1 7].all (fun i => !i.wf) = true := by decide
/-- The items of EGET (R314). -/
theorem smoke_eget : (EdgeForm.eget 1 3 1).wf = false ∧ (EdgeForm.eget 1 2 2).wf = false := by decide

/-! ### Words -/

/-- Words that the manual writes out beside their statements, or that its encodings give. -/
theorem decodes_class0 : decode 0x0001461C00000000 = .ok (.add false 5 6 7) ∧ decode 0x0051841400010000 = .ok (.div true 6 4 5) := ⟨rfl, rfl⟩
theorem decodes_class1 : decode 0x10914000FFFFFFFE = .ok (.movi 5 0xFFFFFFFE) := rfl
theorem decodes_class2 : decode 0x20328B30D0040000 = .ok (.ffma false 2 10 11 12 13) := rfl
theorem decodes_class3 : decode 0x30214000FFFFFFFD = .ok (.bne 5 0 0xFFFFFFFD) ∧ decode 0x30114000FFFFFFFD = .ok (.beq 5 0 0xFFFFFFFD) ∧
    decode 0x307F80000000000A = .ok (.call 62 10) ∧ decode 0x30B0000200034000 = .ok (.loop 0 2 3 4) ∧ decode 0x30D0000000000000 = .ok .nop :=
  ⟨rfl, rfl, rfl, rfl, rfl⟩
theorem decodes_class4 : decode 0x401FBF0CFFFFFFF0 = .ok (.st 3 0 62 63 0xFFFFFFF0) ∧ decode 0x4001C50D00000000 = .ok (.ld 3 false true 0 7 5 0) ∧
    decode 0x4001090A00000040 = .ok (.ld 2 true false 0 4 9 64) ∧ decode 0x404000000013000F = .ok (.fence 2 3 15) ∧
    decode 0x4081070030000000 = .ok (.dset 4 7 3) := ⟨rfl, rfl, rfl, rfl, rfl⟩
theorem decodes_class5_requests : decode 0x50010518000B0001 = .ok (.aadd false 1 3 0 1 4 5 6) ∧
    decode 0x5091C824A03AFFFF = .ok (.acas true 3 2 0 0xFFFF 7 8 9 10) ∧ decode 0x50B2CC3400010003 = .ok (.barr 1 3 11 12 13) ∧
    decode 0x51200F4000000001 = .ok (.rcommit 1 15 16) ∧ decode 0x51344F0000000001 = .ok (.rwaitf 1 17 15) := ⟨rfl, rfl, rfl, rfl, rfl⟩
theorem decodes_class5_tokens : decode 0x5160020000000000 = .ok (.twait 0 2) ∧ decode 0x5170020000000000 = .ok (.tgive 2) ∧
    decode 0x5183000000000000 = .ok (.ypop 12) ∧ decode 0x51930D0000000000 = .ok (.ypeek 12 13) := ⟨rfl, rfl, rfl, rfl⟩
theorem decodes_class6 : decode 0x6030080000A2CC8A = .ok (.vfma (head 0 2 0 0) 4 5 10 11 12) ∧ decode 0x6150000000310504 = .ok (.vceq h0 0 2 3 4 5) ∧
    decode 0x6000A8003031054E = .ok (.vadd { head 5 2 0 0 with stamp := 12 } 2 7 3 4 5) := ⟨rfl, rfl, rfl⟩
theorem decodes_class7 : decode 0x706020000072200C = .ok (.vred (head 1 0 0 0) 0 6 7 8 0 true) ∧
    decode 0x700000000061D60E = .ok (.vcvt h0 0 7 6 7 6 1) := ⟨rfl, rfl⟩
theorem decodes_class8 : decode 0x800188000020C400 = .ok (.mma (head 4 2 0 0) 1 2 3 4) := rfl
theorem decodes_class9 : decode 0x90006C0000414000 = .ok (.cpin (head 3 3 0 0) 0 false 4 5) := rfl
theorem decodes_classA : decode 0xA000300000414000 = .ok (.cpout (head 1 4 0 0) 0 false 4 5) ∧
    decode 0xA040200000614000 = .ok (.cpcoll (head 1 0 0 0) 0 0 false 6 5) ∧ decode 0xA050200000020C00 = .ok (.cpsend (head 1 0 0 0) 0 8 12) ∧
    decode 0xA060200000900D00 = .ok (.cppost (head 1 0 0 0) 0 9 13) := ⟨rfl, rfl, rfl, rfl⟩
theorem decodes_classB : decode 0xB010240000030000 = .ok (.erun (head 1 1 0 0) 0 0 false 12) := rfl
theorem decodes_classC : decode 0xC001460000000000 = .ok (.ndagree 5 6) ∧ decode 0xC011C00100000005 = .ok (.sigrd false true 7 5) ∧
    decode 0xC020000100000006 = .ok (.copen true 6) ∧ decode 0xC042400000000001 = .ok (.katstat 9 1) := ⟨rfl, rfl, rfl, rfl⟩
theorem decodes_classE_tasks : decode 0xE040050000000000 = .ok (.exit 5) ∧ decode 0xE051C00000000000 = .ok (.yieldT 7) ∧
    decode 0xE060050100000000 = .ok (.swapLoad 5) ∧ decode 0xE070000000000010 = .ok (.frame 16) ∧ decode 0xE0A1050000000000 = .ok (.spawn 4 5) ∧
    decode 0xE0B1801000000000 = .ok (.depdecAll 0 6) ∧ decode 0xE100000000000003 = .ok (.phase 3) := ⟨rfl, rfl, rfl, rfl, rfl, rfl, rfl⟩
theorem decodes_classE_traps : decode 0xE000000000000005 = .ok (.trap 5) ∧ decode 0xE010000000000000 = .ok .eret ∧
    decode 0xE02A000000000010 = .ok (.mfsr 40 0x10) ∧ decode 0xE030050000000000 = .ok (.mtsr 0 5) ∧ decode 0xE091050300000000 = .ok (.tlbinv 3 4 5) ∧
    decode 0xE0C0000000000000 = .ok .halt ∧ decode 0xE0D1400000000000 = .ok (.clock 5) ∧ decode 0xE0E1870000000000 = .ok (.kill 6 7) ∧
    decode 0xE0F00000000003E8 = .ok (.idle 1000) := ⟨rfl, rfl, rfl, rfl, rfl, rfl, rfl, rfl, rfl⟩
/-- Words that the manual rejects: undefined classes and opcodes, and fixed bits that are set (R40, R43, R44). -/
theorem decodes_rejects : decode 0xFFFFFFFFFFFFFFFF = .error .illop ∧ decode 0xD000000000000000 = .error .illop ∧ decode 0x3100000000000000 = .error .illop ∧
    decode 0x30D0000000000001 = .error .illfld ∧ decode 0x0001461C00100000 = .error .illfld := ⟨rfl, rfl, rfl, rfl, rfl⟩
theorem decodes_edge_body : decodeBody 0xB100000000114000 = .ok (.eget 1 5 0) ∧ decodeBody 0xB110000000000100 = .ok (.eadd false 0 0 1) ∧
    decodeBody 0xB160000000310506 = .ok (.ecmp 1 true 3 4 5) ∧ decodeBody 0xB170000000200000 = .ok (.eput 0 2 0 0) ∧
    decodeBody 0xB180000000008000 = .ok (.eact 2) ∧ decodeBody 0xB190000000000000 = .ok .eend ∧ decodeBody 0x30D0000000000000 = .error .illop :=
  ⟨rfl, rfl, rfl, rfl, rfl, rfl, rfl⟩

/-! ### Single steps -/

/-- Quire 0 running in free mode, with a NOP at virtual address 0 and 8 GiB mapped from there, writable and executable; a handler at 0x800. -/
def base : State :=
  let s := State.reset.withWord 0x30D0000000000000
  { s with cur := { s.cur with tvec := 0x800, tsave := 0x4000 } }
/-- Scalar registers set. -/
def regs (l : List (Reg × Word)) (s : State) : State := { s with cur := l.foldl (fun u x => u.ws x.1 x.2) s.cur }
/-- Bytes at a virtual address of the block. -/
def bytes (va : Nat) (l : List Byte) (s : State) : State := { s with mem := s.mem.write (2 ^ 33 + va) l }
/-- Bytes of scratch, of section 0. -/
def scratch (off : Nat) (l : List Byte) (s : State) : State := { s with mem := s.mem.write (sramAddr 0 0 off) l }
/-- The unit after an instruction; the unit before it where there is no next state. -/
def after (i : Instr) (s : State) : Machine.Unit := match exec i s with | .next t => t.cur | _ => s.cur
/-- The state after an instruction. -/
def next (i : Instr) (s : State) : State := match exec i s with | .next t => t | _ => s
/-- The byte at a virtual address of the block, and in scratch. -/
def byteAt (s : State) (va : Nat) : Nat := (s.plainByte 0 (2 ^ 33 + va)).toNat
def scratchAt (s : State) (off : Nat) : Nat := (s.plainByte 0 (sramAddr 0 0 off)).toNat

/-- A state after some further cycles in which nothing issues. -/
def ticks (n : Nat) (s : State) : State := n.repeat State.tick s

theorem test_step_nop : (match step base with | .next t => t.cur.pc == 8 && t.cur.committed == 1 | _ => false) = true := by decide +kernel
theorem test_fetch_word : (match step (State.reset.withFetchWord 64 0x10914000FFFFFFFE) with | .next t => t.cur.rs 5 == -2 | _ => false) = true := by
  decide +kernel

-- Class 0 (R141-R143)
theorem test_add_wraps : (after (.add false 5 6 7) (regs [(6, -1), (7, 3)] base)).rs 5 = 2 := by decide +kernel
theorem test_add_ignores_s0 : (after (.add false 0 6 7) (regs [(6, 4), (7, 3)] base)).rs 0 = 0 := by decide +kernel
theorem test_sub_w_extends : (after (.sub true 5 6 7) (regs [(6, 0x80000000), (7, 0)] base)).rs 5 = 0xFFFFFFFF80000000 := by decide +kernel
theorem test_mul_low : (after (.mul false 5 6 6) (regs [(6, 0x100000001)] base)).rs 5 = 0x200000001 := by decide +kernel
theorem test_mulh_negative : (after (.mulh false 5 6 7) (regs [(6, -1), (7, 1)] base)).rs 5 = -1 := by decide +kernel
theorem test_mulhu_high : (after (.mulhu false 5 6 6) (regs [(6, -1)] base)).rs 5 = -2 := by decide +kernel
theorem test_div_toward_zero : (after (.div false 5 6 7) (regs [(6, -7), (7, 2)] base)).rs 5 = -3 := by decide +kernel
theorem test_div_least : (after (.div true 5 6 7) (regs [(6, 0x80000000), (7, -1)] base)).rs 5 = 0xFFFFFFFF80000000 := by decide +kernel
theorem test_divu_unsigned : (after (.divu false 5 6 7) (regs [(6, -1), (7, 2)] base)).rs 5 = 0x7FFFFFFFFFFFFFFF := by decide +kernel
theorem test_rem_sign : (after (.rem false 5 6 7) (regs [(6, -7), (7, 2)] base)).rs 5 = -1 := by decide +kernel
theorem test_remu_zero_traps : (after (.remu true 5 6 7) (regs [(6, 9), (7, 0x100000000)] base)).tcause1 = 0x204 ∧
    (after (.remu true 5 6 7) (regs [(6, 9), (7, 0x100000000)] base)).tval1 = 9 := by decide +kernel
theorem test_andn : (after (.andn false 5 6 7) (regs [(6, 0xF0), (7, 0x30)] base)).rs 5 = 0xC0 := by decide +kernel
theorem test_shl_amount : (after (.shl false 5 6 7) (regs [(6, 1), (7, 65)] base)).rs 5 = 2 := by decide +kernel
theorem test_shr_w : (after (.shr true 5 6 7) (regs [(6, -1), (7, 1)] base)).rs 5 = 0x7FFFFFFF := by decide +kernel
theorem test_sar : (after (.sar false 5 6 7) (regs [(6, -8), (7, 1)] base)).rs 5 = -4 := by decide +kernel
theorem test_ror_w : (after (.ror true 5 6 7) (regs [(6, 1), (7, 33)] base)).rs 5 = 0xFFFFFFFF80000000 := by decide +kernel
theorem test_minu : (after (.minu false 5 6 7) (regs [(6, -1), (7, 3)] base)).rs 5 = 3 := by decide +kernel
theorem test_slt : (after (.slt false 5 6 7) (regs [(6, -1), (7, 0)] base)).rs 5 = 1 := by decide +kernel
theorem test_sltu : (after (.sltu false 5 6 7) (regs [(6, -1), (7, 0)] base)).rs 5 = 0 := by decide +kernel
theorem test_sel_zero : (after (.sel true 5 6 7 8) (regs [(6, 0x100000000), (7, 1), (8, 2)] base)).rs 5 = 2 := by decide +kernel
theorem test_clz_w : (after (.clz true 5 6) (regs [(6, 0)] base)).rs 5 = 32 := by decide +kernel
theorem test_ctz : (after (.ctz false 5 6) (regs [(6, 40)] base)).rs 5 = 3 := by decide +kernel
theorem test_popc : (after (.popc false 5 6) (regs [(6, -1)] base)).rs 5 = 64 := by decide +kernel
theorem test_bfx_signed : (after (.bfx false 5 6 7 8) (regs [(6, 0x80), (7, 4), (8, 0x84)] base)).rs 5 = -8 := by decide +kernel
theorem test_bfi_keeps : (after (.bfi false 5 6 7 8) (regs [(5, -1), (6, 0), (7, 60), (8, 8)] base)).rs 5 = 0x0FFFFFFFFFFFFFFF := by decide +kernel
theorem test_madd : (after (.madd false 5 6 7 5) (regs [(5, 1), (6, 3), (7, 4)] base)).rs 5 = 13 := by decide +kernel

-- Class 1 (R144)
theorem test_andi_zero_extends : (after (.andi 5 6 0xFFFFFFFF) (regs [(6, -1)] base)).rs 5 = 0xFFFFFFFF := by decide +kernel
theorem test_movi_movhi : (after (.movhi 5 5 0x12345678) (regs [(5, -2)] base)).rs 5 = 0x12345678FFFFFFFE := by decide +kernel
theorem test_sltiu_sign_extends : (after (.sltiu 5 6 0xFFFFFFFF) (regs [(6, 5)] base)).rs 5 = 1 := by decide +kernel
theorem test_lea_back : (after (.lea 5 0xFFFFFFF8) base).rs 5 = -8 := by decide +kernel
theorem test_sari_w : (after (.sari true 5 6 31) (regs [(6, 0x80000000)] base)).rs 5 = -1 := by decide +kernel

-- Class 2 (R145-R148)
theorem test_fadd_rounds_up : (after (.fadd false 2 5 6 7) (regs [(6, 0x3FF0000000000000), (7, 1)] base)).rs 5 = 0x3FF0000000000001 := by decide +kernel
theorem test_fsub_exact_zero : (after (.fsub false 3 5 6 6) (regs [(6, 0x3FF0000000000000)] base)).rs 5 = 0x8000000000000000 := by decide +kernel
theorem test_fmul_single : (after (.fmul true 0 5 6 7) (regs [(6, 0x40000000), (7, 0xC0400000)] base)).rs 5 = 0xC0C00000 := by decide +kernel
theorem test_fdiv_by_zero : (after (.fdiv false 0 5 6 7) (regs [(6, 0x3FF0000000000000)] base)).rs 5 = 0x7FF0000000000000 ∧
    (after (.fdiv false 0 5 6 7) (regs [(6, 0x3FF0000000000000)] base)).fstat ≠ 0 := by decide +kernel
theorem test_fsqrt_negative : (after (.fsqrt false 0 5 6) (regs [(6, 0xC010000000000000)] base)).rs 5 = 0x7FF8000000000000 := by decide +kernel
theorem test_fmin_zeros : (after (.fmin false 5 6 7) (regs [(6, 0), (7, 0x8000000000000000)] base)).rs 5 = 0x8000000000000000 := by decide +kernel
theorem test_fclt_nan : (after (.fclt false 5 6 7) (regs [(6, 0x7FF8000000000000)] base)).rs 5 = 0 := by decide +kernel
theorem test_fcvti_truncates : (after (.fcvti false false 1 5 6) (regs [(6, 0xBFF8000000000000)] base)).rs 5 = -1 := by decide +kernel
theorem test_fcvtw_saturates : (after (.fcvtw true false 0 5 6) (regs [(6, 0x7FF0000000000000)] base)).rs 5 = 0x7FFFFFFF := by decide +kernel
theorem test_fcvtf_unsigned : (after (.fcvtf false 0 5 6 1) (regs [(6, 0x8000000000000000)] base)).rs 5 = 0x43E0000000000000 := by decide +kernel
theorem test_fneg_nan : (after (.fneg false 5 6) (regs [(6, 0x7FF0000000000001)] base)).rs 5 = 0xFFF0000000000001 := by decide +kernel
theorem test_fclass_subnormal : (after (.fclass false 5 6) (regs [(6, 1)] base)).rs 5 = 32 := by decide +kernel

-- Class 3 (R137-R139, R149-R151)
theorem test_beq_back : (after (.beq 5 0 0xFFFFFFFD) { base with cur := { base.cur with pc := 0x40 } }).pc = 0x28 := by decide +kernel
theorem test_bltu_falls_through : (after (.bltu 5 6 3) (regs [(5, -1), (6, 1)] base)).pc = 8 := by decide +kernel
theorem test_callr_reads_first : (after (.callr 5 5) (regs [(5, 0x100)] base)).pc = 0x100 ∧ (after (.callr 5 5) (regs [(5, 0x100)] base)).rs 5 = 8 := by
  decide +kernel
theorem test_ret_misaligned : (after (.ret 5) (regs [(5, 0x104)] base)).tcause1 = 0x206 ∧ (after (.ret 5) (regs [(5, 0x104)] base)).tval1 = 0x104 := by decide +kernel
theorem test_loop_of_zero : (after (.loop 5 2 0 4) base).pc = 0x18 ∧ (after (.loop 5 2 0 4) base).lbody = 0 := by decide +kernel
theorem test_loop_begins : (after (.loop 0 2 3 4) base).llimit = 3 ∧ (after (.loop 0 2 3 4) base).ftbase = 4 ∧
    (after (.loop 0 2 3 4) base).lbody.getLsbD 63 = true := by decide +kernel
theorem test_brk : (after (.brk 7) base).tcause1 = 0x261 ∧ (after (.brk 7) base).tval1 = 7 ∧ (after (.brk 7) base).pc = 0x800 := by decide +kernel

-- Class 4 (04)
/-- A copy in the L1 of the sector at virtual address 0x100. -/
def copied (l : List Byte) (s : State) : State :=
  { s with cur := { s.cur with l1 := [{ sector := 2 ^ 33 / 128 + 2, data := l ++ List.replicate (128 - l.length) 0, from_ := [], barred := [] }] } }
/-- The value of a load at its home (whose latency is no fixed number). -/
def loaded (s : State) (va n : Nat) (l : LoadDest) : Nat :=
  match s.tryLoad [] { cls := 0, path := .home, va := BitVec.ofNat 64 va, addr := 2 ^ 33 + va, n := n, dest := l, sent := none, sect := none } with
  | .done _ x _ => x.toNat
  | _ => 0
theorem test_ld_sign : (after (.ld 0 true false 0 5 6 1) (regs [(6, 0x100)] (copied [0, 0x80] base))).rs 5 = 0xFFFFFFFFFFFFFF80 := by decide +kernel
theorem test_ld_order : (after (.ld 1 false false 0 5 6 0) (regs [(6, 0x100)] (copied [0x34, 0x12] base))).rs 5 = 0x1234 ∧
    loaded (bytes 0x100 [0x34, 0x12] base) 0x100 2 (.scalar 5 1 false) = 0x1234 := by decide +kernel
theorem test_ld_misaligned : (after (.ld 3 false false 0 5 6 4) (regs [(6, 0x100)] base)).tcause1 = 0x206 ∧
    (after (.ld 3 false false 0 5 6 4) (regs [(6, 0x100)] base)).tval1 = 0x104 := by decide +kernel
theorem test_ld_unmapped : (after (.ld 3 false false 0 5 6 0) (regs [(6, 0x200000000)] base)).tcause1 = 0x210 := by decide +kernel
theorem test_st_low_bytes : byteAt (next (.st 1 0 5 6 2) (regs [(5, 0x123456), (6, 0x100)] base)) 0x102 = 0x56 ∧
    byteAt (next (.st 1 0 5 6 2) (regs [(5, 0x123456), (6, 0x100)] base)) 0x104 = 0 := by decide +kernel
theorem test_lds_scratch : (after (.lds 0 false 0 5 6 0) (regs [(6, 0x40)] (scratch 0x40 [0x7F] base))).rs 5 = 0x7F := by decide +kernel
theorem test_sts_scratch : scratchAt (next (.sts 3 0 5 6 0) (regs [(5, 0x0807060504030201), (6, 0x40)] base)) 0x47 = 8 := by decide +kernel
theorem test_dset_quarter : (after (.dset 4 7 3) (regs [(7, 5)] base)).rd 4 = BitVec.ofNat 256 (5 * 2 ^ 192) := by decide +kernel
theorem test_dget_quarter : (after (.dget 5 4 3) { base with cur := base.cur.wd 4 (BitVec.ofNat 256 (9 * 2 ^ 192)) }).rs 5 = 9 := by decide +kernel
theorem test_dld_misaligned : (after (.dld 0 4 6) (regs [(6, 0x110)] base)).tcause1 = 0x206 := by decide +kernel
theorem test_dld : loaded (bytes 0x11F [0x80] base) 0x100 32 (.descr 4) = 2 ^ 255 := by decide +kernel
theorem test_fence_release : (after (.fence 2 3 1) base).carrier = some (3, 1) := by decide +kernel
theorem test_l1inv : (after (.l1inv 6 7) (regs [(6, 0), (7, 1)] { base with cur := { base.cur with l1 := [{ sector := 2 ^ 33 / 128, data := List.replicate 128 0, from_ := [], barred := [] }] } })).l1 = [] := by
  decide +kernel
theorem test_pref : (after (.pref 0 6 7) (regs [(6, 0x200000000), (7, 64)] base)).pc = 8 := by decide +kernel
theorem test_bankmode_reserved : (after (.bankmode 5 6 7) (regs [(6, 32), (7, 1)] base)).tcause1 = 0x202 := by decide +kernel
theorem test_bankmode_changes : ((next (.bankmode 5 6 7) (regs [(6, 3), (7, 2)] base)).dev 0 |>.bank 3).changing = some 2 ∧
    (after (.bankmode 5 6 7) (regs [(6, 3), (7, 2)] base)).rs 5 = 1 := by decide +kernel

-- Class 5, requests (12)
theorem test_aadd_old : (after (.aadd false 0 0 0 0 5 6 7) (regs [(6, 0x100), (7, 2)] (bytes 0x100 [9] base))).rs 5 = 9 ∧
    byteAt (next (.aadd false 0 0 0 0 5 6 7) (regs [(6, 0x100), (7, 2)] (bytes 0x100 [9] base))) 0x100 = 11 := by decide +kernel
theorem test_amin_w_signed : byteAt (next (.amin true 0 0 0 0 5 6 7) (regs [(6, 0x100), (7, 1)] (bytes 0x100 [0xFF, 0xFF, 0xFF, 0xFF] base))) 0x100 = 0xFF := by
  decide +kernel
theorem test_acas_fails : byteAt (next (.acas false 0 0 0 0 5 6 7 8) (regs [(6, 0x100), (7, 1), (8, 3)] (bytes 0x100 [2] base))) 0x100 = 2 := by decide +kernel
theorem test_acas_swaps : byteAt (next (.acas false 0 0 0 0 5 6 7 8) (regs [(6, 0x100), (7, 2), (8, 3)] (bytes 0x100 [2] base))) 0x100 = 3 := by decide +kernel
theorem test_aswap_misaligned : (after (.aswap false 0 0 0 0 5 6 7) (regs [(6, 0x104)] base)).tcause1 = 0x206 := by decide +kernel
theorem test_afadd : byteAt (next (.afadd true 0 0 0 0 5 6 7) (regs [(6, 0x100), (7, 0x3F800000)] (bytes 0x102 [0x80, 0x3F] base))) 0x103 = 0x40 := by decide +kernel
theorem test_barr_last : (after (.barr 1 0 5 6 7) (regs [(6, 0x100), (7, 1)] (bytes 0x104 [3] base))).rs 5 = 3 ∧
    byteAt (next (.barr 1 0 5 6 7) (regs [(6, 0x100), (7, 1)] (bytes 0x104 [3] base))) 0x104 = 4 := by decide +kernel
theorem test_barr_waits : (after (.barr 1 0 5 6 7) (regs [(6, 0x100), (7, 2)] base)).wait.isSome = true ∧
    byteAt (next (.barr 1 0 5 6 7) (regs [(6, 0x100), (7, 2)] base)) 0x100 = 1 := by decide +kernel
theorem test_mwait_goes_on : (after (.mwait 1 0 5 6 7) (regs [(6, 0x100), (7, 4)] (bytes 0x100 [5] base))).rs 5 = 5 := by decide +kernel
theorem test_msig_stores : byteAt (next (.msig 1 0 6 7) (regs [(6, 0x100), (7, 4)] base)) 0x100 = 4 := by decide +kernel
theorem test_rclaim_unbound : (after (.rclaim 5 6) base).tcause1 = 0x240 := by decide +kernel

-- Class 5, tokens and replies (R130-R134)
theorem test_twait_left : (after (.twait 5 2) { base with cur := base.cur.setFifo 2 1 3 }).rs 5 = 2 := by decide +kernel
theorem test_twait_never : (after (.twait 5 2) base).tcause1 = 0x202 := by decide +kernel
theorem test_tgive : (after (.tgive 6) base).fifo 1 6 = 1 := by decide +kernel
theorem test_ypop_oldest : (after (.ypop 5) { base with cur := { base.cur with replies := [7, 8] } }).rs 5 = 7 ∧
    (after (.ypop 5) { base with cur := { base.cur with replies := [7, 8] } }).replies = [8] := by decide +kernel
theorem test_ypeek_empty : (after (.ypeek 5 6) (regs [(5, 1), (6, 1)] base)).rs 5 = 0 ∧ (after (.ypeek 5 6) (regs [(5, 1), (6, 1)] base)).rs 6 = 0 := by decide +kernel

-- Classes 6 to 0xB: what an idle engine does at once in a prompt machine of free mode
/-- A descriptor: base, space, format, rows, columns, stride, aux. -/
def desc (base sp : Nat) (f : BitVec 4) (rows cols stride aux : Nat) : Desc :=
  BitVec.ofNat 64 base ++ BitVec.ofNat 4 sp ++ f ++ BitVec.ofNat 24 rows ++ BitVec.ofNat 24 cols ++ BitVec.ofNat 32 stride ++ BitVec.ofNat 32 aux ++ 0#72
def vecs (l : List (Reg × BitVec 4096)) (s : State) : State := { s with cur := l.foldl (fun u x => u.wv x.1 x.2) s.cur }
def descs (l : List (DReg × Desc)) (s : State) : State := { s with cur := l.foldl (fun u x => u.wd x.1 x.2) s.cur }
theorem test_vadd_wraps : (after (.vadd h0 0 0 5 6 7) (vecs [(6, 0x01FF), (7, 0x0102)] base)).rv 5 = 0x0201 := by decide +kernel
theorem test_vmovs_masked : (after (.vmovs h0 4 0 5 6) (regs [(6, 0x7F)] { base with cur := base.cur.wm 4 1 })).rv 5 = 0x7F7F7F7F7F7F7F7F := by decide +kernel
theorem test_vceq_lanes : (after (.vceq h0 0 3 3 6 7) (vecs [(6, 5), (7, 5)] base)).rm 3 = -1 := by decide +kernel
theorem test_mnot : (after (.mnot h0 3 2) base).rm 3 = -1 := by decide +kernel
theorem test_mpopc_replies : (ticks 2 (next (.mpopc h0 0) base)).cur.replies = [64] := by decide +kernel
theorem test_vred_min : (ticks 12 (next (.vred h0 0 3 5 6 1 true) (vecs [(6, 2 ^ 64 - 1)] base))).cur.replies = [-1] := by decide +kernel
theorem test_vec_gives_token : (ticks 2 (next (.mnot (head 1 0 0 0) 3 2) base)).cur.fifo 4 1 = 1 := by decide +kernel
theorem test_vec_takes_token : (after (.mnot (head 0 3 0 0) 3 2) { base with cur := base.cur.setFifo 3 4 2 }).fifo 3 4 = 1 := by decide +kernel
theorem test_vec_without_token : (after (.mnot (head 0 3 0 0) 3 2) base).rm 3 = 0 ∧ ((after (.mnot (head 0 3 0 0) 3 2) base).queue 4).length = 1 := by decide +kernel
theorem test_format_refused : (after (.vsqrt h0 0 3 5 6) base).tcause1 = 0x202 := by decide +kernel
theorem test_cpfill : scratchAt (next (.cpfill h0 0 false 4 6) (regs [(6, 0xAB)] (descs [(4, desc 0x100 1 0 1 8 8 0)] base))) 0x107 = 0xAB := by decide +kernel
theorem test_cpin : scratchAt (next (.cpin h0 0 false 4 5) (descs [(4, desc 0x100 1 0 1 4 4 0), (5, desc 0x200 1 0 1 4 4 0)] (scratch 0x200 [1, 2, 3, 4] base))) 0x103 = 4 := by
  decide +kernel
theorem test_cpout : scratchAt (next (.cpout h0 0 false 5 4) (descs [(4, desc 0x100 1 0 1 4 4 0), (5, desc 0x200 1 0 1 4 4 0)] (scratch 0x100 [1, 2, 3, 4] base))) 0x201 = 2 := by
  decide +kernel
/-- The region: 1 row of 1 column at the beginning of the accumulator store; the tiles: 1 row of 2 and 2 rows of 1. -/
def tiles : State := descs [(1, desc 0 2 2 1 1 8 0), (2, desc 0x100 1 0 1 2 8 0), (3, desc 0x200 1 0 2 1 8 0)] (scratch 0x208 [0xFD] (scratch 0x200 [5] (scratch 0x100 [2, 3] base)))
theorem test_mmaz_sum : (next (.mmaz h0 0 1 2 3) tiles).regionElem (desc 0 2 2 1 1 8 0) 0 0 = 1 := by decide +kernel
theorem test_mzero : (next (.mzero h0 1) (tiles.putRegion (desc 0 2 2 1 1 8 0) [[7]])).regionElem (desc 0 2 2 1 1 8 0) 0 0 = 0 := by decide +kernel

-- Class C (20)
theorem test_ndagree_alone : (after (.ndagree 5 6) (regs [(6, 3)] base)).rs 5 = 3 := by decide +kernel
theorem test_copen_handler : (after (.copen true 6) base).regions = [{ handler := 0x30, buffered := true }] := by decide +kernel
theorem test_cclose_unopened : (after .cclose base).tcause1 = 0x202 := by decide +kernel
theorem test_katstat : (after (.katstat 5 0) { base with cur := { base.cur with katTests := 9 } }).rs 5 = 9 := by decide +kernel

-- Class E (19, 21)
theorem test_trap_returns_past : (after (.trap 5) base).tret1 = 8 ∧ (after (.trap 5) base).tval1 = 5 ∧ (after (.trap 5) base).rs 63 = 0x4000 := by decide +kernel
theorem test_trap_level2 : (after (.trap 5) { base with cur := { base.cur with tlevel := 1 } }).tcause2 = 0x260 ∧
    (after (.trap 5) { base with cur := { base.cur with tlevel := 1 } }).rs 63 = 0x4200 := by decide +kernel
theorem test_trap_kills : (after (.trap 5) { base with cur := { base.cur with tlevel := 2 } }).run ≠ .running := by decide +kernel
theorem test_eret : (after .eret { base with cur := { base.cur with tlevel := 1, tret1 := 0x50, tsp1 := 7 } }).pc = 0x50 ∧
    (after .eret { base with cur := { base.cur with tlevel := 1, tret1 := 0x50, tsp1 := 7 } }).rs 63 = 7 := by decide +kernel
theorem test_eret_in_user_mode : (after .eret base).tcause1 = 0x202 := by decide +kernel
theorem test_mfsr_tvec : (after (.mfsr 5 0) base).rs 5 = 0x800 := by decide +kernel
theorem test_mfsr_mode : (after (.mfsr 5 3) { base with cur := { base.cur with phase := 3 } }).rs 5 = 0x30 := by decide +kernel
theorem test_mtsr_tvec_low_bits : (after (.mtsr 0 6) (regs [(6, 0x1237)] base)).tvec = 0x1230 := by decide +kernel
theorem test_mtsr_privileged : (after (.mtsr 0x11 6) base).tcause1 = 0x203 := by decide +kernel
theorem test_exit : (after (.exit 5) (regs [(5, 9)] base)).run = .exited 9 := by decide +kernel
theorem test_yield_alone : (after (.yieldT 5) (regs [(5, 9)] base)).rs 5 = 0 := by decide +kernel
theorem test_swap_load_misaligned : (after (.swapLoad 5) (regs [(5, 0x80)] base)).tcause1 = 0x206 := by decide +kernel
theorem test_swap_exchanges : (after .swap { base with cur := { base.cur with shadow := 5, phase := 2 } }).plate = 5 ∧
    (after .swap { base with cur := { base.cur with shadow := 5, phase := 2 } }).phase = 0 := by decide +kernel
theorem test_frame : (after (.frame 16) base).frameAt = some 17 := by decide +kernel
theorem test_halt_privileged : (after .halt base).tcause1 = 0x203 := by decide +kernel
theorem test_halt_in_handler : (after .halt { base with cur := { base.cur with tlevel := 1 } }).run = .halted := by decide +kernel
theorem test_phase : (after (.phase 3) base).phase = 3 := by decide +kernel
theorem test_idle_never_ends : (after (.idle 0) base).tcause1 = 0x202 := by decide +kernel
theorem test_kill_unknown : (after (.kill 5 6) { base with cur := { base.cur with tlevel := 1 } }).rs 5 = 1 := by decide +kernel
theorem test_spawn_misaligned : (after (.spawn 5 6) (regs [(6, 0x80)] base)).tcause1 = 0x206 := by decide +kernel
theorem test_core_illop : (after (.phase 3) { base with cur := { base.cur with gid := 0x8000 } }).tcause1 = 0x201 := by decide +kernel

-- Events (95)
theorem test_event_of_no_unit : (match exec (.instructionFetch 0xFFFF) base with | .fault (.notPermitted _) => true | _ => false) = true := by decide +kernel
theorem test_claim : ((next (.claim 0 .host 1) State.reset).dev 0).owner = 1 := by decide +kernel
theorem test_tick : ((next (.tickBoundary 0) { State.reset with devs := [(State.reset.dev 0).setReg 0x30000 0] }).dev 0).tick = 1 := by decide +kernel
theorem test_host_write : (next (.hostBar2Write 0 0x40 [7]) State.reset).plainByte 0 0x40 = 7 := by decide +kernel
theorem test_boot_choice : ((next (.bootsrc 0 .host 1) State.reset).dev 0).boot = .fetching true := by decide +kernel

/-- SHA-384 of "abc" (FIPS 180-4), and the P-384 signature of "sample" that RFC 6979 (A.2.6) gives, whole and with another message. -/
theorem test_sha384 : fromBe (sha384 [0x61, 0x62, 0x63]) =
    0xCB00753F45A35E8BB5A03D699AC65007272C32AB0EDED1631A8B605A43FF5BED8086072BA1E7CC2358BAECA134C825A7 := by
  decide +kernel
theorem test_signature :
    (let key := beBytes 97
       0x04EC3A4E415B4E19A4568618029F427FA5DA9A8BC4AE92E02E06AAE5286B300C64DEF8F0EA9055866064A254515480BC138015D9B72D7D57244EA8EF9AC0C621896708A59367F9DFB9F54CA84B3F1C9DB1288B231C3AE0D4FE7344FD2533264720
     let signature := beBytes 96
       0x94EDBB92A5ECB8AAD4736E56C691916B3F88140666CE9FA73D64C4EA95AD133C81A648152E44ACF96E36DD1E80FABE4699EF4AEB15F178CEA1FE40DB2603138F130E740A19624526203B6351D0A3A94FA329C145786E679E7B82C71A38628AC8
     signatureOk key signature [0x73, 0x61, 0x6D, 0x70, 0x6C, 0x65] = true ∧ signatureOk key signature [0x73] = false) := by decide +kernel

/-! ### Witnesses: states and operands that meet the hypotheses of the statements -/

/-- The conditions of `State.Quiet`, `State.Executes`, `State.AtCommit`, `State.RunsNow`, `State.MayStore`, `State.MayLoad`, `State.MayRequest` and `State.MayRing`,
as tests. -/
def quiet (s : State) : Bool :=
  s.cur.inflight.isEmpty && s.cur.queues.all (fun l => l.isEmpty) && s.cur.classQ.isEmpty && s.flows.isEmpty && s.myDev.banks.all fun e => !e.2.begun
def executes (s : State) (i : Instr) (rs : List Reg) (ds : List DReg) : Bool :=
  (!s.cur.isCore || !coreIllopWord (encode i)) && !s.cur.bodyBreach i && decide (s.cur.window.length < 256) && !s.cur.awaits rs ds &&
  (decide (s.cur.readyAt rs ds ≤ s.cur.time) || (!s.cur.framed && (!s.prompt || (s.cur.still && s.flows.isEmpty))))
def atCommit (s : State) : Bool := s.cur.window.isEmpty
def runsFrom (s : State) (i : Instr) (last : Word) (forms : List EdgeForm) : Bool :=
  match pushForm i with
  | none => false
  | some p =>
    match s.pushCommand i p forms with
    | none => false
    | some c =>
      s.prompt && !s.cur.framed && quiet s && s.cur.window.isEmpty && s.admQ.isEmpty && s.cur.waitingAt == 0 && (takesOf p.head).all (fun x => decide (0 < s.cur.fifo x p.queue)) &&
      decide (s.cur.earliest c + s.throttleDelay c ≤ s.cur.time + 1) && (s.pushed c last).accepts { c with due := 0 } && ((s.pushed c last).phaseClash c).isNone
def runs (s : State) (i : Instr) : Bool := runsFrom s i s.cur.pc []
def mayStore (s : State) (cls : BitVec 4) (a : Nat) : Bool :=
  !s.cur.buffering && s.reachesNow s.cur.gid a && s.cur.classQ.all (fun x => x.cls != cls) && s.pend.isEmpty && (s.linkTrap a).isNone
def mayLoad (s : State) (cls : BitVec 4) (a : Nat) : Bool :=
  s.cur.classFree cls && s.lineFree s.cur cls a none && s.reachesNow s.cur.gid a && (s.linkTrap a).isNone
def mayRequest (s : State) (k : AccessKind) (n : Nat) (cls : BitVec 4) (mask : BitVec 16) (rel : Option (BitVec 3 × BitVec 16)) (va : Word) : Bool :=
  match claspPlace s k va n with
  | .error _ => false
  | .ok p => !s.lineHeld s.cur.gid p && s.cur.wait.isNone && (s.cur.lostIn mask).isNone && claspReady cls p.addr rel k.writes s && s.servedNow (granuleKey p.addr) p.addr &&
      (List.range n).all (fun b => !s.erring (p.addr + b) && !s.poisoned (p.addr + b)) && ((s.dev (addrDev p.addr)).touch (granuleKey p.addr)).isSome &&
      mayStore s cls p.addr
def mayRing (s : State) (x : Word) (mask : BitVec 16) (rel writes : Bool) : Bool :=
  match ringSelector s.cur x with
  | none => false
  | some (sec, ring) =>
    let key : Nat := ringKey (gidDev s.cur.gid) (ringIndex sec ring)
    s.cur.wait.isNone && (s.cur.lostIn mask).isNone && s.cur.classFree 0 && (!rel || s.performed s.cur mask 1) &&
      (!writes || (s.cur.carried 0 (if rel then some (1, mask) else none)).all fun c => s.knownWide s.cur c.2 c.1.toNat) &&
      s.servedNow key (sramAddr (gidDev s.cur.gid) sec 0) && ((s.dev (gidDev s.cur.gid)).touch key).isSome && !s.cur.buffering

theorem quiet_sound {s : State} (h : quiet s = true) : s.Quiet := by
  simp only [quiet, Bool.and_eq_true, List.isEmpty_iff, List.all_eq_true, Bool.not_eq_true'] at h
  exact ⟨h.1.1.1.1, h.1.1.1.2, h.1.1.2, h.1.2, h.2⟩
theorem executes_sound {s : State} {i : Instr} {rs : List Reg} {ds : List DReg} (h : executes s i rs ds = true) : s.Executes i rs ds := by
  simp only [executes, Bool.and_eq_true, Bool.or_eq_true, Bool.not_eq_true', decide_eq_true_eq, List.isEmpty_iff] at h
  obtain ⟨⟨⟨⟨h1, h2⟩, h3⟩, h4⟩, h5⟩ := h
  refine ⟨fun h => by simpa [h] using h1, h2, h3, h4, h5.imp id fun h => ⟨h.1, fun e => by simpa [e] using h.2⟩⟩
theorem atCommit_sound {s : State} (h : atCommit s = true) : s.AtCommit := by
  simpa [atCommit, State.AtCommit] using h
theorem runs_sound {s : State} {i : Instr} {last : Word} {forms : List EdgeForm} (h : runsFrom s i last forms = true) : ∃ p c, s.RunsNow i p c last forms := by
  unfold runsFrom at h
  split at h
  · exact absurd h (by decide)
  · rename_i p hp
    split at h
    · exact absurd h (by decide)
    · rename_i c hc
      simp only [Bool.and_eq_true, Bool.not_eq_true', beq_iff_eq, decide_eq_true_eq, List.isEmpty_iff, List.all_eq_true, Option.isNone_iff_eq_none] at h
      obtain ⟨⟨⟨⟨⟨⟨⟨⟨⟨h1, h2⟩, h3⟩, h4⟩, h5⟩, h6⟩, h7⟩, h8⟩, h9⟩, h10⟩ := h
      exact ⟨p, c, hp, hc, h1, h2, quiet_sound h3, h4, h5, h6, h7, h8, h9, h10⟩
theorem mayStore_sound {s : State} {cls : BitVec 4} {a : Nat} (h : mayStore s cls a = true) : s.MayStore cls a := by
  simp only [mayStore, Bool.and_eq_true, Bool.not_eq_true', List.isEmpty_iff, Option.isNone_iff_eq_none, List.all_eq_true, bne_iff_ne] at h
  exact ⟨h.1.1.1.1, h.1.1.1.2, h.1.1.2, h.1.2, h.2⟩
theorem mayLoad_sound {s : State} {cls : BitVec 4} {a : Nat} (h : mayLoad s cls a = true) : s.MayLoad cls a := by
  simp only [mayLoad, Bool.and_eq_true, Option.isNone_iff_eq_none] at h
  exact ⟨h.1.1.1, h.1.1.2, h.1.2, h.2⟩
theorem mayRequest_sound {s : State} {k : AccessKind} {n : Nat} {cls : BitVec 4} {mask : BitVec 16} {rel : Option (BitVec 3 × BitVec 16)} {va : Word}
    (h : mayRequest s k n cls mask rel va = true) : ∃ p, s.MayRequest k n cls mask rel va p := by
  unfold mayRequest at h
  split at h
  · exact absurd h (by decide)
  · rename_i p hp
    simp only [Bool.and_eq_true, Bool.not_eq_true', Option.isNone_iff_eq_none, List.all_eq_true, List.mem_range] at h
    obtain ⟨⟨⟨⟨⟨⟨⟨h1, h2⟩, h3⟩, h4⟩, h5⟩, h6⟩, h7⟩, h8⟩ := h
    exact ⟨p, hp, h1, h2, h3, h4, h5, h6, fun e => by simp [e] at h7, mayStore_sound h8⟩
theorem mayRing_sound {s : State} {x : Word} {mask : BitVec 16} {rel writes : Bool} (h : mayRing s x mask rel writes = true) :
    ∃ sec ring, s.MayRing x sec ring mask rel writes := by
  unfold mayRing at h
  split at h
  · exact absurd h (by decide)
  · rename_i sec ring hp
    simp only [Bool.and_eq_true, Bool.or_eq_true, Bool.not_eq_true', Option.isNone_iff_eq_none, List.all_eq_true] at h
    obtain ⟨⟨⟨⟨⟨⟨⟨h1, h2⟩, h3⟩, h4⟩, h5⟩, h6⟩, h7⟩, h8⟩ := h
    exact ⟨sec, ring, hp, h1, h2, h3, fun e => by simpa [e] using h4, fun e => by simpa [e] using h5, h6, fun e => by simp [e] at h7, h8⟩

/-- The conditions of `State.CutsNow`, as a test. -/
def cutsNow (s : State) : Bool := s.cur.cutting.isNone && s.cur.inflight.all s.onlyRoom && s.cur.queues.toList.all fun l => l.all fun c => !c.started
theorem cutsNow_sound {s : State} (h : cutsNow s = true) : s.CutsNow := by
  simp only [cutsNow, Bool.and_eq_true, Option.isNone_iff_eq_none, List.all_eq_true, Bool.not_eq_true'] at h
  exact ⟨h.1.1, h.1.2, h.2⟩

/-- The place of an access, as a test of it. -/
def placed (s : State) (k : AccessKind) (va : Word) (f : Place → Bool) : Bool := match s.translate s.cur.gid 1 k true va with | .ok p => f p | .error _ => false
def walks (s : State) (va : Word) (f : Mapping → Bool) : Bool := match s.lookup s.cur.gid va with | .ok m => f m | .error _ => false
/-- Every instruction of a list, with the registers it reads, executes in a state. -/
def allExecute (s : State) (l : List (Instr × List Reg)) : Bool := l.all fun x => executes s x.1 x.2 []

-- Integers, immediates, floating point: both widths, s0 as a source and as the destination
theorem witness_IntegerSumsAndProducts : allExecute base [(.add true 0 6 7, [6, 7]), (.sub false 5 0 63, [0, 63]), (.mul true 5 6 7, [6, 7]),
    (.madd false 5 6 7 8, [6, 7, 8]), (.mulh true 5 6 7, [6, 7]), (.mulhu false 5 6 7, [6, 7])] = true := by decide +kernel
theorem witness_IntegerBitwiseAndShifts : allExecute base [(.andI true 5 6 7, [6, 7]), (.orI false 5 6 7, [6, 7]), (.xorI true 0 6 7, [6, 7]),
    (.andn false 5 6 7, [6, 7]), (.shl true 5 6 7, [6, 7]), (.shr false 5 6 7, [6, 7]), (.sar true 5 6 7, [6, 7]), (.ror false 5 6 7, [6, 7])] = true := by
  decide +kernel
theorem witness_IntegerChoices : allExecute base [(.seq true 5 6 7, [6, 7]), (.sne false 5 6 7, [6, 7]), (.slt true 5 6 7, [6, 7]), (.sltu false 5 6 7, [6, 7]),
    (.minI true 5 6 7, [6, 7]), (.maxI false 5 6 7, [6, 7]), (.minu true 5 6 7, [6, 7]), (.maxu false 5 6 7, [6, 7]), (.sel true 5 6 7 8, [6, 7, 8])] = true := by
  decide +kernel
theorem witness_IntegerBitCountsAndFields : allExecute base [(.clz true 5 6, [6]), (.ctz false 5 6, [6]), (.popc true 5 6, [6]), (.bfx false 5 6 7 8, [6, 7, 8]),
    (.bfi true 5 6 7 8, [5, 6, 7, 8])] = true := by decide +kernel
/-- A divisor of 1, of 0, with `.w` of 0 in its low half, and the most negative dividend by -1. -/
theorem witness_IntegerDivision :
    ([regs [(6, 9), (7, 1)] base, regs [(6, 9)] base, regs [(6, 0x80000000), (7, -1)] base, regs [(6, 0x8000000000000000), (7, -1)] base].all fun s =>
      allExecute s [(.div true 5 6 7, [6, 7]), (.divu false 5 6 7, [6, 7]), (.rem true 5 6 7, [6, 7]), (.remu false 5 6 7, [6, 7])]) = true ∧
    uns true ((regs [(7, 0x100000000)] base).cur.rs 7) = 0 ∧ uns false ((regs [(7, 1)] base).cur.rs 7) ≠ 0 ∧
    sgn true ((regs [(6, 0x80000000)] base).cur.rs 6) = -(2 ^ 31) ∧ sgn false ((regs [(6, 0x8000000000000000)] base).cur.rs 6) = -(2 ^ 63) ∧
    sgn true ((regs [(7, -1)] base).cur.rs 7) = -1 := by decide +kernel
theorem witness_Immediates : allExecute base [(.addi true 5 6 0xFFFFFFFF, [6]), (.muli false 5 6 3, [6]), (.andi 5 6 0, [6]), (.ori 5 6 1, [6]), (.xori 5 6 1, [6]),
    (.slti 5 6 1, [6]), (.sltiu 5 6 1, [6]), (.movi 5 0x80000000, []), (.movhi 5 6 1, [6]), (.lea 5 8, []), (.shli true 5 6 31, [6]), (.shri false 5 6 63, [6]),
    (.sari true 5 6 31, [6])] = true := by decide +kernel
/-- Floating-point exceptions enabled. -/
def enabled : State := { base with cur := { base.cur with fstat := 0x1F00 } }
/-- The result is written, and where the flag's enable is set FPEXC is raised. -/
theorem witness_FloatArithmetic : ([base, enabled].all fun s => allExecute s [(.fadd true 0 5 6 7, [6, 7]), (.fsub false 1 5 6 7, [6, 7]), (.fmul true 2 5 6 7, [6, 7]),
      (.ffma false 3 5 6 7 8, [6, 7, 8]), (.fdiv true 0 5 6 7, [6, 7]), (.fsqrt false 1 5 6, [6])]) = true ∧
    base.cur.enables = 0 ∧ (after (.fdiv false 0 5 6 7) (regs [(6, 0x3FF0000000000000)] enabled)).tcause1 = 0x205 := by decide +kernel
theorem witness_FloatChoices : ([base, enabled].all fun s => allExecute s [(.fabs true 5 6, [6]), (.fneg false 5 6, [6]), (.fceq true 5 6 7, [6, 7]),
      (.fclt false 5 6 7, [6, 7]), (.fcle true 5 6 7, [6, 7]), (.fmin false 5 6 7, [6, 7]), (.fmax true 5 6 7, [6, 7]), (.fclass false 5 6, [6])]) = true ∧
    (after (.fclt false 5 6 7) (regs [(6, 0x7FF8000000000000)] enabled)).tcause1 = 0x205 := by decide +kernel
theorem witness_FloatConversions : ([base, enabled].all fun s => allExecute s [(.fcvti false true 0 5 6, [6]), (.fcvtw true false 1 5 6, [6]), (.fcvtf false 2 5 6 0, [6]),
      (.fcvtf true 3 5 6 1, [6]), (.fcvtf true 0 5 6 2, [6]), (.fcvtf false 0 5 6 3, [6])]) = true ∧
    (after (.fcvtw false false 0 5 6) (regs [(6, 0x7FF8000000000000)] enabled)).tcause1 = 0x205 := by decide +kernel
/-- A NaN, an overflow to E4M3, a finite code and an infinity. -/
theorem witness_Rounding : (fp64.val (fp64.round .rne false (.nan false)).1).isNan = true ∧ (e4m3.val (e4m3.round .rne false (.fin true 1000 0)).1).isNan = true ∧
    (e4m3.round .rne false (.fin true 1000 0)).1 = 0xFF ∧ 0x3C00 < 2 ^ fp16.bits ∧ (match fp16.val 0x3C00 with | .fin .. => true | _ => false) = true ∧
    fp16.val 0xFC00 = .inf true := by decide +kernel

-- Control flow
theorem witness_BranchesGoToTheirTargets : allExecute base [(.br 0xFFFFFFFD, []), (.beq 5 0 1, [5, 0]), (.bne 5 6 1, [5, 6]), (.blt 5 6 1, [5, 6]), (.bge 5 6 1, [5, 6]),
    (.bltu 5 6 1, [5, 6]), (.bgeu 5 6 1, [5, 6])] = true := by decide +kernel
theorem witness_CallsAndReturns : ([regs [(6, 0x100)] base, regs [(6, 0x104)] base].all fun s =>
      allExecute s [(.call 5 10, []), (.callr 6 6, [6]), (.ret 6, [6]), (.jmpr 6, [6])]) = true ∧
    ((regs [(6, 0x100)] base).cur.rs 6).toNat % 8 = 0 ∧ ((regs [(6, 0x104)] base).cur.rs 6).toNat % 8 ≠ 0 := by decide +kernel
/-- An active body of one word at virtual address 0, of a LOOP or a LOOPX, with its counts. -/
def inLoop (ext : Bool) (count limit : Word) : State :=
  { base with cur := { base.cur with lbody := 0x8001000000000000 + (if ext then 0x4000000000000000 else 0), lcount := count, llimit := limit } }
/-- Outside a loop with counts of 0 and 3, and inside the body of another. -/
theorem witness_LoopWords : ([false, true].all fun x => [(0, 0), (0, 3), (7, 0)].all fun (y : Reg × BitVec 16) =>
      executes base (if x then .loopx y.1 2 y.2 4 else .loop y.1 2 y.2 4) [y.1] []) = true ∧ base.cur.lbody.getLsbD 63 = false ∧
    (let s := { inLoop true 0 2 with cur := { (inLoop true 0 2).cur with pc := 0x40 } }
     executes s (.loop 0 2 3 4) [0] [] = true ∧ s.cur.lbody.getLsbD 63 = true) := by decide +kernel
theorem witness_LoopPasses : ([base, inLoop false 0 2, inLoop true 1 2].all fun s => executes s .nop [] []) = true ∧
    (inLoop false 0 2).cur.pc = (inLoop false 0 2).cur.bodyAt + BitVec.ofNat 64 (8 * (inLoop false 0 2).cur.bodyLen - 8) ∧
    (after .nop (inLoop false 0 2)).lcount = 1 ∧ (after .nop (inLoop true 1 2)).lbody.getLsbD 63 = false := by decide +kernel
theorem witness_BreakpointTraps : executes base (.brk 0xFFFFFFFF) [] [] = true ∧ base.cur.run = .running ∧ base.cur.tlevel = 0 ∧ base.cur.tvec ≠ 0 ∧ base.prompt = true ∧
    base.cur.window = [] ∧ cutsNow base = true := by decide +kernel
theorem witness_LoopBodiesForbidTransfers : (inLoop false 0 2).cur.inBody 0 = true ∧ (inLoop true 0 2).cur.inBody 0 = true ∧ (inLoop false 0 2).cur.isCore = false ∧
    (inLoop false 0 2).cur.lbody.getLsbD 62 = false := by decide +kernel

-- Memory
def at100 : State := regs [(6, 0x100)] base
/-- A pending store before it: the window is not empty, and stores wait for their commit point. -/
def queued : State :=
  { at100 with prompt := false, cur := { at100.cur with window := [{ pc := 0, before := at100.cur.toSeqRegs, push := some (2, 0), store := none, load := none, done := 0 }] } }
/-- A copy of a sector in the L1. -/
def cached : State := copied (List.replicate 128 7) at100
/-- A load at the home, of a poisoned sector, from a copy, and where accesses set out by their own steps. -/
theorem witness_LoadsFromMemory : executes at100 (.ld 3 false false 15 5 6 0) [6] [] = true ∧
    (placed at100 .read 0x100 fun p => p.mtype != 3 && !at100.lineHeld 0 p && at100.cur.classFree 15 && mayLoad at100 15 p.addr && (at100.poisonedIn? p.addr 8).isNone) = true ∧
    (let bad : State := { at100 with poison := [2 ^ 33 / 128 + 2] }
     executes bad (.ld 3 false false 15 5 6 0) [6] [] = true ∧ placed bad .read 0x100 (fun p => bad.poisonedIn? p.addr 8 == some 0 && (bad.linkTrap p.addr).isNone) = true) ∧
    executes cached (.ld 0 true false 15 5 6 0x7F) [6] [] = true ∧ cached.cur.classFree 15 = true ∧
    (placed cached .read 0x17F fun p => (cached.cur.l1.find? fun c => c.serves p.addr 1).isSome) = true ∧
    (let h : HeldLoad := { cls := 15, path := .home, va := 0x200, addr := 2 ^ 33 + 0x200, n := 8, dest := .scalar 7 3 false, sent := none, sect := none }
     let behind : State := { at100 with cur := { at100.cur with window := [{ pc := 0, before := at100.cur.toSeqRegs, push := none, store := none, load := some h, done := 0 }] } }
     executes behind (.ld 3 false false 15 5 6 0) [6] [] = true ∧ windowFree behind.cur.window 15 = false ∧
      (placed behind .read 0x100 fun p => p.mtype != 3 && !behind.lineHeld 0 p) = true) ∧
    (let away : State := { at100 with prompt := false }
     executes away (.ld 3 false true 15 5 6 0) [6] [] = true ∧ away.cur.classFree 15 = true ∧
      placed away .read 0x100 (fun p => !away.reachesNow 0 p.addr && (away.poisonedIn? p.addr 8).isNone && (away.linkTrap p.addr).isNone) = true) := by
  decide +kernel
theorem witness_LoadsFromScratch : executes at100 (.lds 2 true 0 5 6 4) [6] [] = true ∧
    (match at100.windowByte .read 0x104 with | .ok x => !at100.scratchHeld x && mayLoad at100 0 x && (at100.poisonedIn? x 4).isNone | .error _ => false) = true ∧
    (match at100.windowByte .read 0x104 with
      | .ok x => ({ at100 with poison := [x / 128] } : State).poisonedIn? x 4 == some 0 | .error _ => false) = true := by decide +kernel
/-- A bank whose change is under way. -/
def changing : State := { at100 with devs := [(at100.dev 0).setBank 0 { (at100.dev 0).bank 0 with changing := some 2, asker := 0, begun := true }] }
/-- Nothing before the store, and behind an instruction that has not committed, and to a bank that changes its mode. -/
theorem witness_Stores : executes at100 (.st 3 0 5 6 0xFFFFFFF8) [6, 5] [] = true ∧ executes at100 (.sts 0 0 5 6 1) [6, 5] [] = true ∧ at100.cur.window = [] ∧
    at100.cur.buffering = false ∧ (placed at100 .store 0xF8 fun p => p.mtype != 3 && !at100.lineHeld 0 p && mayStore at100 0 p.addr) = true ∧
    (match at100.windowByte .store 0x101 with | .ok x => !at100.scratchHeld x && mayStore at100 0 x | .error _ => false) = true ∧
    executes queued (.st 3 0 5 6 0) [6, 5] [] = true ∧ executes queued (.sts 3 0 5 6 0) [6, 5] [] = true ∧ queued.cur.window ≠ [] ∧ queued.cur.buffering = false ∧
    (placed queued .store 0x100 fun p => p.mtype != 3 && !queued.lineHeld 0 p) = true ∧ (match queued.windowByte .store 0x100 with | .ok _ => true | .error _ => false) = true ∧
    executes changing (.sts 0 0 5 6 1) [6, 5] [] = true ∧ (match changing.windowByte .store 0x101 with | .ok x => changing.scratchHeld x | .error _ => false) = true := by
  decide +kernel
/-- Addresses one byte off, beyond the block that is mapped, and beyond the scratch of the section. -/
theorem witness_AccessTraps : ([regs [(6, 0x101)] base, regs [(6, 0x200000000)] base, regs [(6, 0x1000000)] base].all fun s =>
      allExecute s [(.ld 1 false false 0 5 6 0, [6]), (.st 1 0 5 6 0, [6, 5]), (.lds 1 false 0 5 6 0, [6]), (.sts 1 0 5 6 0, [6, 5])]) = true ∧
    (match base.translate 0 1 .read true 0x200000000 with | .error _ => true | .ok _ => false) = true ∧
    (match base.windowByte .store 0x1000000 with | .error _ => true | .ok _ => false) = true := by decide +kernel
theorem witness_DescriptorRegisters : executes base (.dset 31 6 3) [6] [31] = true ∧ executes base (.dget 5 31 0) [] [31] = true ∧
    executes (regs [(6, 0x11F)] base) (.dld 0 4 6) [6] [] = true ∧ executes at100 (.dld 0 4 6) [6] [] = true ∧
    (match at100.translate 0 1 .read false 0x100 with | .ok p => !at100.lineHeld 0 p && mayLoad at100 0 p.addr && (at100.poisonedIn? p.addr 32).isNone | .error _ => false) = true := by decide +kernel
/-- A write of the unit that the shelf has not seen. -/
def unseen : State := { base with prompt := false, pend :=
  [{ id := 0, gid := 0, cls := 0, addr := 2 ^ 33 + 0x100, data := [1], command := none, horizon := 0, seenBy := [], release := [], orphan := false }] }
theorem witness_Fences : executes base (.fence 3 4 0xFFFF) [] [] = true ∧ atCommit base = true ∧ base.cur.lostIn 0xFFFF = none ∧
    base.performed base.cur 0xFFFF 4 = true ∧ base.cur.buffering = false ∧
    executes unseen (.fence 2 4 1) [] [] = true ∧ atCommit unseen = true ∧ unseen.cur.lostIn 1 = none ∧ unseen.performed unseen.cur 1 4 = false ∧
    unseen.prompt = false ∧ unseen.cur.buffering = false := by decide +kernel
theorem witness_CacheHints : executes cached (.l1inv 6 7) [6, 7] [] = true ∧ atCommit cached = true ∧ executes cached (.pref 3 6 7) [6, 7] [] = true := by decide +kernel
/-- A bank of another task, and a secure bank. -/
def banked (owner : Option (BitVec 32)) (secure : Bool) : State :=
  let d := (base.dev 0).setBank 3 { Bank.atReset with owner := owner }
  { base with devs := [if secure then d.setReg 0x3220 8 else d] }
/-- A selector and a mode out of range, a bank of another task and a secure one, the mode the bank has, and a change in a machine of each kind, one that has
begun and is the unit's own. -/
theorem witness_BankModes :
    ([regs [(6, 32), (7, 0)] base, regs [(6, 0), (7, 5)] base, regs [(6, 3), (7, 4)] (banked (some 1) false), regs [(6, 3), (7, 4)] (banked none true),
      regs [(6, 31), (7, 1)] base, regs [(6, 31), (7, 2)] base, regs [(6, 31), (7, 2)] { base with prompt := false }, regs [(6, 0), (7, 2)] changing].all fun s =>
        executes s (.bankmode 5 6 7) [6, 7] [] && atCommit s) = true ∧
    ((banked (some 1) false).dev 0 |>.bank 3).owner ≠ none ∧ ((banked none true).dev 0).bankSecure 3 = true ∧
    (base.dev 0 |>.bank 31).changing = none ∧ (base.dev 0 |>.bank 31).mode = 1 ∧ base.prompt = true ∧
    (changing.dev 0 |>.bank 0).changing ≠ none ∧ (changing.dev 0 |>.bank 0).begun = true ∧ (changing.dev 0 |>.bank 0).told = false ∧
    (changing.dev 0 |>.bank 0).asker = changing.cur.gid := by decide +kernel

-- Requests
theorem witness_IntegerAtomics : ([.aadd true 0 0 15 0 5 6 7, .aand false 1 4 0 1 5 6 7, .aor true 2 3 0 1 5 6 7, .axor false 3 0 0 1 5 6 7, .amin true 0 0 0 0 5 6 7,
      .amax false 0 0 0 0 5 6 7, .aminu true 0 0 0 0 5 6 7, .amaxu false 0 0 0 0 5 6 7, .aswap true 0 0 0 0 0 6 7].all fun i => executes at100 i [6, 7, 0] []) = true ∧
    atCommit at100 = true ∧ mayRequest at100 .atomic 8 15 0 none 0x100 = true ∧ mayRequest at100 .atomic 4 0 1 (some (3, 1)) 0x104 = true := by decide +kernel
theorem witness_OtherAtomics : executes at100 (.acas true 0 0 0 0 5 6 7 8) [6, 7, 8] [] = true ∧ executes at100 (.afadd false 2 4 0 1 5 6 7) [6, 7, 0] [] = true ∧
    mayRequest at100 .atomic 4 0 0 none 0x100 = true ∧ mayRequest at100 .atomic 8 0 1 (some (4, 1)) 0x100 = true := by decide +kernel
/-- Participants 0, 65536 and at odds with those recorded; the last arrival; an earlier one. -/
theorem witness_Barriers : ([regs [(7, 0)] at100, regs [(7, 65536)] at100, regs [(7, 2)] (bytes 0x102 [3] at100), regs [(7, 1)] at100, regs [(7, 65535)] at100].all fun s =>
      executes s (.barr 1 1 5 6 7) [6, 7, 0] [] && atCommit s && mayRequest s .atomic 64 0 1 (some (1, 1)) 0x100 &&
      ((s.dev 0).arrival? (granuleKey (2 ^ 33 + 0x100)) 0).isNone) = true ∧
    State.number (bytes 0x102 [3] at100) (2 ^ 33 + 0x100) 8 = 3 * 2 ^ 16 := by decide +kernel
theorem witness_WaitsAndSignals_waits : ([regs [(7, 4)] at100, regs [(7, 0)] at100].all fun s => executes s (.bwait 2 1 5 6 7) [6, 7, 0] [] && executes s (.mwait 2 1 5 6 7) [6, 7, 0] [] &&
      atCommit s && mayRequest s .read 64 0 0 none 0x100 && mayRequest s .read 8 0 0 none 0x100) = true ∧ at100.number (2 ^ 33 + 0x100) 8 = 0 := by decide +kernel
theorem witness_WaitsAndSignals_signals : executes at100 (.msig 4 1 6 7) [6, 7, 0] [] = true ∧ atCommit at100 = true ∧ mayRequest at100 .atomic 8 0 1 (some (4, 1)) 0x100 = true := by decide +kernel
/-- Bank 3 in FIFO mode, and ring 5 bound to it with slots of 64 KiB: three tickets claimed, one committed, none taken. -/
def ring5 : Ring := { config := 0x2803, claimed := 3, tail := 1, head := 0, committed := [], releases := [], headReleases := [], claimReleases := [] }
def ringed (bound : Bool) (sel arg : Word) : State :=
  let d := (base.dev 0).setBank 3 { Bank.atReset with mode := 2 }
  regs [(6, sel), (7, arg)] { base with devs := [if bound then { d with rings := [(5, ring5)] } else d] }
theorem witness_Rings : executes (ringed false 5 0x2803) (.rinit 5 6 7) [6, 7] [] = true ∧ atCommit (ringed false 5 0x2803) = true ∧
    mayRing (ringed false 5 0x2803) 5 0 false false = true ∧ ringConfigOk 0x2803 = true ∧ (ringed false 5 0x2803).ringBanksOk (ringed false 5 0x2803).cur 0 5 0x2803 = true ∧
    allExecute (ringed true 5 1) [(.rclaim 5 6, [6, 0]), (.rwaite 5 6 7, [6, 7]), (.rcommit 1 6 7, [6, 7]), (.rwaitf 1 5 6, [6, 0]), (.rstat 5 6 3, [6, 0])] = true ∧
    executes (ringed true 5 0) (.rtake 6 7) [6, 7] [] = true ∧ [(0, false, false), (0, false, true), (1, true, true)].all (fun x => mayRing (ringed true 5 1) 5 x.1 x.2.1 x.2.2) = true ∧
    (1 ≤ (ring5.claimed - 1).toNat ∧ (ring5.claimed - 1).toNat ≤ 2 ^ 31) ∧ ((1 : BitVec 32) - ring5.head).toNat < ring5.slots ∧ ring5.tail = 1 ∧ ring5.tail ≠ ring5.head ∧
    (ring5.tail ≠ 2 ∧ 1 ≤ (ring5.claimed - 2).toNat ∧ ((2 : BitVec 32) - ring5.head).toNat < ring5.slots) ∧ ring5.committed.contains 2 = false ∧
    (ring5.tail - ring5.head).toNat ≤ ((1 : BitVec 32) - ring5.head).toNat := by decide +kernel
/-- A selector beyond ring 63; a reserved configuration; banks that are not in FIFO mode; a ring that is not bound; tickets not claimed, and not the head. -/
theorem witness_RingTraps : ringSelector (ringed false 64 0).cur 64 = none ∧
    allExecute (ringed false 64 0) [(.rclaim 5 6, [6, 0]), (.rwaite 5 6 7, [6, 7]), (.rtake 6 7, [6, 7]), (.rinit 5 6 7, [6, 7])] = true ∧
    ringConfigOk 0x4000 = false ∧ ringConfigOk 0x2804 = true ∧ (ringed false 5 0x2804).ringBanksOk (ringed false 5 0x2804).cur 0 5 0x2804 = false ∧
    ((ringed false 5 0).dev 0).rings.lookup 5 = none ∧ ((ringed true 5 0).dev 0).rings.lookup 5 = some ring5 ∧ [(0, false, false), (0, false, true), (1, true, true)].all (fun x => mayRing (ringed true 5 3) 5 x.1 x.2.1 x.2.2 &&
      mayRing (ringed false 5 0x2804) 5 x.1 x.2.1 x.2.2) = true ∧
    allExecute (ringed true 5 3) [(.rwaite 5 6 7, [6, 7]), (.rcommit 1 6 7, [6, 7]), (.rtake 6 7, [6, 7])] = true ∧
    ¬ (1 ≤ (ring5.claimed - 3).toNat) ∧ (3 : BitVec 32) ≠ ring5.head ∧ ({ ring5 with committed := [2] } : Ring).committed.contains 2 = true := by decide +kernel

-- Decoding, fetching, address translation
def issuing (s : State) : Bool := s.agenda.isEmpty && s.cur.run == .running && s.cur.raised.isNone && s.cur.cutting.isNone && s.cur.debug == .off && decide (s.cur.busy ≤ s.cur.time)
def fetched (s : State) (va : Word) (f : Word → Bool) : Bool := match s.fetchAt va with | .ok w => f w | .error _ => false
/-- A word at an address of the block. -/
def wordAt (va : Nat) (w : Word) (s : State) : State := bytes va ((List.range 8).map fun k => w.extractLsb' (8 * k) 8) s
/-- A word that is an instruction, one that is none, a PC beyond the block, an event that is due, and a unit named. -/
theorem witness_StepRunsDecoded : issuing base = true ∧ fetched base 0 (fun w => match decode w with | .ok i => i == .nop | .error _ => false) = true ∧
    (let s := wordAt 0 0xD000000000000000 base
     issuing s = true ∧ fetched s s.cur.pc (fun w => match decode w with | .error _ => true | .ok _ => false) = true) ∧
    (let s : State := { base with cur := { base.cur with pc := 0x200000000 } }
     issuing s = true ∧ fetched s s.cur.pc (fun _ => true) = false) ∧
    (let s : State := { base with cur := { base.cur with busy := 5 } }
     s.agenda = [] ∧ s.cur.raised = none ∧ s.cur.cutting = none ∧ s.cur.debug = .off ∧ s.cur.time < s.cur.busy) ∧
    (let s : State := { base with agenda := [.event (.tickBoundary 0)] }
     s.agenda = .event (.tickBoundary 0) :: []) ∧
    (let s : State := { base with agenda := [.unit 0] }
     s.hasUnit 0 = true ∧ issuing (({ s with agenda := [] } : State).switchTo 0) = true ∧ fetched (({ s with agenda := [] } : State).switchTo 0) 0 (fun w => w == encode .nop) = true) := by
  decide +kernel
/-- Nothing under way, with an empty window and with an instruction that completes now and one that does not. -/
theorem witness_QuietCycles :
    (let w (n : Nat) : State := { base with cur := { base.cur with window := [{ pc := 0, before := base.cur.toSeqRegs, push := none, store := none, load := none, done := n }] } }
     quiet base = true ∧ base.prompt = true ∧ base.cur.window = [] ∧ [w 1, w 2].all (fun s => quiet s && s.prompt && s.cur.window.length == 1) = true ∧
     1 ≤ base.cur.time + 1 ∧ ¬ 2 ≤ base.cur.time + 1) := by decide +kernel
/-- A PC that is not mapped; a copy in the level-zero cache, in the L1, and neither, poisoned and not. -/
theorem witness_Fetches :
    (match base.translate 0 1 .fetch false 0x200000000 with | .error _ => true | .ok _ => false) = true ∧
    placed base .fetch 0 (fun _ => true) = true ∧
    (match base.translate 0 1 .fetch false 0 with
      | .ok p =>
        let c : SectorCopy := { sector := p.addr / 128, data := List.replicate 128 1, from_ := [], barred := [] }
        let has (l : List SectorCopy) : Bool := (l.find? fun c => c.serves p.addr 8).isSome
        let zero : State := { base with cur := { base.cur with l0 := [c] } }
        let one : State := { base with cur := { base.cur with l1 := [c] } }
        has zero.cur.l0 && !has one.cur.l0 && has one.cur.l1 && !has base.cur.l0 && !has base.cur.l1 && !base.poisoned p.addr &&
          ({ base with poison := [p.addr / 128] } : State).poisoned p.addr
      | .error _ => false) = true := by decide +kernel
theorem witness_DecodeEncode : (Instr.madd true 63 1 2 3).isEvent = false ∧ (Instr.madd true 63 1 2 3).wf = true ∧ EdgeForm.wf (.eget 1 5 0) = true := by decide +kernel
/-- A class without instructions, an opcode beyond the last of its class, a word that a system core refuses, and a body of one form, whose next word is none. -/
theorem witness_UndefinedWords :
    (let s := wordAt 0 0xD000000000000000 base
     issuing s = true ∧ fetched s s.cur.pc (fun w => w == 0xD000000000000000) = true) ∧
    (let s := wordAt 0 0x0200000000000000 base
     issuing s = true ∧ fetched s s.cur.pc (fun w => w == 0x0200000000000000) = true) ∧
    (let s := wordAt 0 0x50E0000000000000 base
     issuing s = true ∧ fetched s s.cur.pc (fun w => w == 0x50E0000000000000) = true) ∧
    (let w := encode (.mnot h0 3 2)
     let s : State := { wordAt 0 w base with cur := { base.cur with gid := 0x8000 } }
     issuing s = true ∧ s.cur.isCore = true ∧ fetched s s.cur.pc (fun x => x == w) = true ∧ 6 ≤ w.toNat / 2 ^ 60 ∧ w.toNat / 2 ^ 60 ≤ 12 ∧ w.toNat / 2 ^ 52 % 256 < 0x1F) ∧
    (let w := encode (.ebind h0 0 4)
     let s := wordAt 16 0 (wordAt 8 0xB100000000114000 (wordAt 0 w base))
     issuing s = true ∧ fetched s s.cur.pc (fun x => x == w && (match decode x with | .ok i => i == .ebind h0 0 4 | .error _ => false)) = true ∧
      executes s (.ebind h0 0 4) [] [] = true ∧ s.latent = [] ∧
      fetched s 8 (fun x => match decodeBody x with | .ok f => f == .eget 1 5 0 | .error _ => false) = true ∧
      fetched s 16 (fun x => match decodeBody x with | .error r => r == .illop | .ok _ => false) = true) := by decide +kernel
/-- The walk of an address reads these two entries; no cached translation covers it. -/
def entries (s : State) (va : Word) (first : Word → Bool) (second : Word → Bool) : Bool :=
  let table1 : Nat := s.cur.xbase.toNat / 2 ^ 18 % 2 ^ 30 * 2 ^ 18
  let d := s.dev (gidDev s.cur.gid)
  s.cur.tlb.isEmpty && d.tlb.isEmpty && tableOk d table1 &&
  match s.tableEntry s.cur.gid (table1 + 8 * (va.toNat / 2 ^ 33 % 2 ^ 15)) with
  | none => false
  | some e => first e && (!(e.getLsbD 63 && e.getLsbD 17) ||
      match s.tableEntry s.cur.gid (e.toNat / 2 ^ 18 % 2 ^ 30 * 2 ^ 18 + 8 * (va.toNat / 2 ^ 18 % 2 ^ 15)) with | none => false | some e' => second e')
/-- A word of physical memory of device 0. -/
def physical (pa : Nat) (w : Word) (s : State) : State := { s with mem := s.mem.write pa ((List.range 8).map fun k => w.extractLsb' (8 * k) 8) }
/-- Entry 1 of level 1 points to a table at 2 ^ 18, whose entry 0 is the word given. -/
def twoLevels (e' : Word) : State := physical (2 ^ 18) e' (physical 8 (BitVec.ofNat 64 (2 ^ 63 + 2 ^ 17 + 2 ^ 18)) base)
def sound (e : Word) : Bool := e.toNat / 2 ^ 48 % 128 == 0 && e.toNat % 2 ^ 14 == 0 && (e.toNat / 2 ^ 58 % 4 == 1 || e.toNat / 2 ^ 55 % 8 == 0)
/-- A non-canonical address, a table elsewhere, an invalid entry, a block that may be mapped and one that may not (the wrong home), and through a table
an invalid entry, a page, and with the hint the one page of a block and another, each mapped and not. -/
theorem witness_PageWalks :
    (0x0001000000000000 : Word).toNat / 2 ^ 47 ≠ 0 ∧ (0x0001000000000000 : Word).toNat / 2 ^ 47 ≠ 2 ^ 17 - 1 ∧
    (0xFFFF800000000000 : Word).toNat / 2 ^ 47 = 2 ^ 17 - 1 ∧
    tableOk (base.dev 0) (2 ^ 42) = false ∧ ({ base with cur := { base.cur with xbase := 2 ^ 42 } } : State).cur.xbase.toNat / 2 ^ 18 % 2 ^ 30 * 2 ^ 18 = 2 ^ 42 ∧
    entries base 0x200000000 (fun e => !e.getLsbD 63) (fun _ => true) = true ∧
    (let ok (m : Bool) (e : Word) (pa : Nat) : Bool := sound e && (mapReason (base.dev 0) e pa).isNone == m
     let block (m : Bool) (e : Word) : Bool := e.getLsbD 63 && !e.getLsbD 17 && e.toNat / 2 ^ 18 % 2 ^ 15 == 0 && ok m e (e.toNat / 2 ^ 18 % 2 ^ 30 * 2 ^ 18 + 0x100)
     let table (e : Word) : Bool := e.getLsbD 63 && e.getLsbD 17 && e.toNat / 2 ^ 48 % 2 ^ 15 == 0 && e.toNat % 2 ^ 17 == 0 &&
       tableOk (base.dev 0) (e.toNat / 2 ^ 18 % 2 ^ 30 * 2 ^ 18)
     let page (m : Bool) (e : Word) : Bool := e.getLsbD 63 && !e.getLsbD 17 && ok m e (e.toNat / 2 ^ 18 % 2 ^ 30 * 2 ^ 18 + 0x100)
     let hint (m : Bool) (e : Word) : Bool := e.getLsbD 63 && e.getLsbD 17 && e.toNat / 2 ^ 18 % 128 == 0 && ok m e (e.toNat / 2 ^ 43 % 2 ^ 5 * 2 ^ 25 + 0x100)
     entries base 0x100 (block true) (fun _ => true) = true ∧
     entries (physical 0 (BitVec.ofNat 64 (2 ^ 63 + 2 ^ 59)) base) 0x100 (block false) (fun _ => true) = true ∧
     entries (twoLevels 0) 0x200000100 table (fun e => !e.getLsbD 63) = true ∧
     entries (twoLevels (BitVec.ofNat 64 (2 ^ 63 + 2 ^ 18))) 0x200000100 table (page true) = true ∧
     entries (twoLevels (BitVec.ofNat 64 (2 ^ 63 + 2 ^ 59))) 0x200000100 table (page false) = true ∧
     entries (twoLevels (BitVec.ofNat 64 (2 ^ 63 + 2 ^ 17))) 0x200000100 table (hint true) = true ∧
     entries (twoLevels (BitVec.ofNat 64 (2 ^ 63 + 2 ^ 59 + 2 ^ 17))) 0x200000100 table (hint false) = true ∧
     entries (twoLevels (BitVec.ofNat 64 (2 ^ 63 + 2 ^ 18 + 2 ^ 17))) 0x200000100 table
       (fun e => e.getLsbD 63 && sound e && e.getLsbD 17 && e.toNat / 2 ^ 18 % 128 != (0x200000100 : Word).toNat / 2 ^ 18 % 128) = true) := by decide +kernel
/-- A walk that ends with a reason and one that meets a poisoned entry; a secure page; a page without write permission, without execute permission, and of
type 3; a page that grants the access. -/
theorem witness_PageChecks :
    (let at_ (e : Word) : State := physical 0 e base
     let has (s : State) (f : Mapping → Bool) : Bool := match s.lookup 0 0x100 with | .ok m => f m | .error _ => false
     (match base.lookup 0 0x200000000 with | .error (.reason _ _) => true | _ => false) = true ∧
     (match ({ base with poison := [0] } : State).lookup 0 0x100 with | .error (.poison _) => true | _ => false) = true ∧
     base.cur.trusted = false ∧ has (at_ (BitVec.ofNat 64 (2 ^ 63 + 2 ^ 60))) (fun m => m.entry.getLsbD 60) = true ∧
     has (at_ (BitVec.ofNat 64 (2 ^ 63))) (fun m => !m.entry.getLsbD 60 && !(base.dev 0).regionSecure (m.pa 0x100) && !m.entry.getLsbD 62 && !m.entry.getLsbD 61) = true ∧
     has (at_ (BitVec.ofNat 64 (2 ^ 63 + 3 * 2 ^ 14 + 7 * 2 ^ 39))) (fun m => m.entry.toNat / 2 ^ 14 % 8 == 3) = true ∧
     has base (fun m => !m.entry.getLsbD 60 && !(base.dev 0).regionSecure (m.pa 0x100) && m.entry.getLsbD 62 && m.entry.getLsbD 61 && m.entry.toNat / 2 ^ 14 % 8 == 0) = true) := by
  decide +kernel

-- Tokens, replies, pushes
def loose : State := { base with prompt := false }
/-- A command in flight that has run. -/
def flying (c : Command) : Inflight :=
  { command := c, replies := [], flags := 0, trace := [], waiting := false, todo := false, got := [], until_ := 0, feed := 0, fed := 0, former := [], reads := [],
    gives := c.head.give, formerAcc := none }
/-- A command in flight that gives a token to S and owes a reply. -/
def owing (s : State) : State :=
  match pushForm (.mpopc (head 1 0 0 0) 0) with
  | none => s
  | some p => match s.pushCommand (.mpopc (head 1 0 0 0) 0) p [] with
    | none => s
    | some c => { s with prompt := false, cur := { s.cur with inflight := [{ flying c with replies := [1] }] } }
/-- A token there, one under way and none to come; a FIFO with room and a full one; a reply there, owed, and none to come. -/
theorem witness_TokensAndReplies :
    (let s : State := { base with cur := base.cur.setFifo 4 1 2 }
     executes s (.twait 5 4) [] [] = true ∧ atCommit s = true ∧ s.cur.ripe 4 1 ≠ 0) ∧
    (executes (owing base) (.twait 5 4) [] [] = true ∧ atCommit (owing base) = true ∧ (owing base).cur.fifo 4 1 = 0 ∧ (owing base).cur.willGive 4 = true) ∧
    (executes base (.twait 5 4) [] [] = true ∧ atCommit base = true ∧ base.cur.fifo 4 1 = 0 ∧ base.cur.willGive 4 = false) ∧
    (let s : State := { base with cur := { base.cur.setFifo 4 1 1 with justGiven := [(4, 1)] } }
     executes s (.twait 5 4) [] [] = true ∧ atCommit s = true ∧ s.cur.fifo 4 1 ≠ 0 ∧ s.cur.ripe 4 1 = 0) ∧
    (executes base (.tgive 4) [] [] = true ∧ base.cur.fifo 1 4 < 8) ∧
    (let s : State := { base with cur := base.cur.setFifo 1 4 8 }
     executes s (.tgive 4) [] [] = true ∧ atCommit s = true ∧ 8 ≤ s.cur.fifo 1 4) ∧
    (let s : State := { base with cur := { base.cur with replies := [7, 8] } }
     executes s (.ypop 5) [] [] = true ∧ atCommit s = true ∧ executes s (.ypeek 5 5) [] [] = true) ∧
    (executes (owing base) (.ypop 5) [] [] = true ∧ (owing base).cur.replies = [] ∧ (owing base).cur.willReply = true) ∧
    (executes base (.ypop 5) [] [] = true ∧ base.cur.replies = [] ∧ base.cur.willReply = false ∧ executes base (.ypeek 5 6) [] [] = true) := by decide +kernel

/-- A command that owes a reply and a token and ends with the cycle, and one that does not. -/
theorem witness_Retirements :
    (let at_ (n : Nat) : State := { owing base with prompt := true, cur := { (owing base).cur with inflight := (owing base).cur.inflight.map fun y => { y with until_ := n } } }
     [at_ 1, at_ 2].all (fun s => s.prompt && s.cur.window.isEmpty && engineQueues.all (fun q => s.cur.queue q == []) && s.cur.classQ.isEmpty && s.admQ.isEmpty && s.flows.isEmpty &&
       s.pend.isEmpty && s.devs.all (fun d => d.held.isEmpty) && s.myDev.banks.all (fun e => !e.2.begun) && decide (s.cur.replies.length + 1 ≤ 16) && decide (s.cur.fifo 4 1 < 8)) = true ∧
     (at_ 1).cur.inflight.map (fun y => (y.command.queue, y.gives, y.command.engine, y.command.instr)) = [(4, 1, (at_ 1).cur.gid, .mpopc (head 1 0 0 0) 0)] ∧
     (at_ 1).cur.inflight.all (fun y => y.replies == [1] && y.trace.isEmpty && !y.waiting && !y.todo && decide (y.until_ ≤ (at_ 1).cur.time + 1)) = true ∧
     (at_ 2).cur.inflight.all (fun y => decide ((at_ 2).cur.time + 1 < y.until_)) = true) := by decide +kernel

/-- The push of an instruction, its engine commands waiting for their events. -/
def pushes (s : State) (i : Instr) (forms : List EdgeForm) : Bool :=
  match pushForm i with
  | none => false
  | some p => match s.pushCommand i p forms with
    | none => false
    | some c => executes s i p.scalar.toList (p.da.toList ++ p.db.toList ++ p.dc.toList ++ (extraReg i c.da c.db c.dc).toList) &&
        decide ((s.cur.queue p.queue).length < 64) && !s.prompt && s.latent.isEmpty && (!s.cur.framed || decide (s.cur.time < c.due)) && (s.cur.vecShadow c).isNone
def refuses (s : State) (i : Instr) : Bool :=
  match pushForm i with | none => false | some p => (s.pushCommand i p []).isNone && executes s i [] [] && decide ((s.cur.queue p.queue).length < 64)
def full (s : State) (q : BitVec 3) : State :=
  match pushForm (.mnot h0 3 2) with
  | none => s
  | some p => match s.pushCommand (.mnot h0 3 2) p [] with
    | none => s
    | some c => { s with cur := s.cur.setQueue q (List.replicate 64 c) }
theorem witness_pushes_vector : ([.vadd h0 0 0 5 6 7, .vsub h0 0 1 5 6 7, .vmul h0 0 2 5 6 7, .vfma h0 0 3 5 6 7, .vfnma h0 0 8 5 6 7, .vmin h0 0 6 5 6 7,
      .vmax h0 0 0 5 6 7, .vabs h0 0 0 5 6, .vneg h0 0 0 5 6, .vdiv h0 0 8 5 6 7, .vsqrt h0 0 8 5 6, .vrsq h0 0 8 5 6, .vrcp h0 0 8 5 6, .vexp2 h0 0 8 5 6,
      .vlog2 h0 0 8 5 6, .vand h0 0 0 5 6 7, .vor h0 0 0 5 6 7, .vxor h0 0 0 5 6 7, .vshl h0 0 0 5 6 7, .vshr h0 0 0 5 6 7, .vsar h0 0 0 5 6 7,
      .vceq h0 0 0 3 6 7, .vclt h0 0 0 3 6 7, .vcle h0 0 0 3 6 7, .vsel h0 0 0 5 6 7, .vmov h0 0 0 5 6, .vmovs h0 0 0 5 6, .viota h0 0 0 5 6,
      .vclamp h0 0 0 5 6 7, .vadds h0 0 0 5 6 7, .vmulh h0 0 0 5 6 7, .vcvt h0 0 8 5 6 0 0, .vpack h0 11 5 8 6, .vunpk h0 11 8 5 6, .vperm h0 0 0 5 6 7,
      .vred h0 0 0 5 6 0 true, .vscan h0 0 0 5 6 0, .vtopk h0 0 5 5 8 7, .vcmpr h0 0 0 5 6, .vexpd h0 0 0 5 6, .mand h0 1 2 3, .mor h0 1 2 3, .mnot h0 1 2,
      .mpopc h0 1] : List Instr).filter (fun i => !pushes loose i []) = [] := by decide +kernel
/-- Descriptors of no elements in the spaces and formats that the commands ask for, and each command that takes them. -/
def tagged (sp : Nat) (f : BitVec 4) (base stride aux flags micro : Nat) : Desc :=
  BitVec.ofNat 64 base ++ BitVec.ofNat 4 sp ++ f ++ 0#48 ++ BitVec.ofNat 32 stride ++ BitVec.ofNat 32 aux ++ BitVec.ofNat 32 micro ++ BitVec.ofNat 8 flags ++ 0#32
def empties (s : State) : State := descs [(1, tagged 1 0 0 0 0 0 0), (2, tagged 2 2 0 0 0 0 0), (3, tagged 1 0 0 0 0 0x80 0), (4, tagged 2 2 16 0 0 0 0), (5, tagged 1 4 0 0 0 0 0),
    (6, tagged 0 0 0 128 128 0x10 0), (7, tagged 1 0 0 0 0 0 0x400), (8, tagged 5 0 0 0 0 0 0x800), (9, tagged 5 0 0 0 0 0 0), (10, tagged 0 2 0 0 0 0 0), (11, tagged 0 0 0 0 0 0 0),
    (12, tagged 0 0 0 0 10 0 0), (14, tagged 0 0 0 128 128 0x10 0x4000), (15, tagged 1 2 0 0 0 0 0), (16, tagged 1 0 0 0 1 0 0), (17, tagged 0 0 0 128 128 8 0),
    (18, tagged 1 0 0 0 5 0 0), (19, tagged 2 5 0 0 0 0 0)] s
def onEmpties (h : EHead) : List Instr := [.vgaths h 0 0 0 5 1 6, .vscats h 0 0 0 1 5 6, .vld h 0 0 0 5 1 6, .vst h 0 0 0 1 5 6, .vldx h 0 0 0 5 1 6,
    .mma h 0 2 1 1, .mmaz h 0 2 1 1, .mmac h 0 0 false 2 2 1, .mmae h 0 4 1 3, .mres h 0 4 1 3, .mbndLyr h 0 2 3 2, .mbndFirst h 0 2 3, .mbndSum h 2 2 2,
    .mcomp h 0 false 1 1 5, .mmas h 0 2 1 18, .mmab h 0 2 1 1, .mzero h 2, .mwr h 0 2 1, .mrd h 0 false false 1 2 6, .mchk h 0 false 2 15 1, .mjoinJoin h 19,
    .mjoinLeave h 19, .cpin h 0 false 1 11, .cprow h 0 false false 1 12, .cpexp h 0 false 7 6, .cpfill h 0 false 1 6, .scprobe h 0 false 8 11 6, .scrply h 0 false 1 9 6,
    .cpout h 0 false 11 1, .cpsct h 0 false false 12 1, .cppack h 0 false 14 1, .cpred h 0 false 0 false 11 1, .cpcoll h 0 0 false 15 15, .cpsend h 0 1 6,
    .cppost h 0 1 6, .screc h 0 false 9 16 6, .cpcnv h 0 false 17 1]
theorem witness_pushes_descriptors : (onEmpties h0 ++ [Instr.erun h0 0 0 false 7, .eswp h0 0 1, .efrnt h0 0 6]).filter (fun i => !pushes (regs [(7, 1)] (empties loose)) i []) = [] := by
  decide +kernel
/-- A body of one form and its EEND, a framed push, a push that is refused, and a full queue. -/
theorem witness_EngineCommandsArePushed :
    (let s := descs [(20, desc 0x100 0 0 1 256 0 0)] (wordAt 16 0xB190000000000000 (wordAt 8 0xB100000000114000 loose))
     pushes s (.ebind h0 0 20) [.eget 1 5 0] = true ∧ fetched s 8 (fun x => match decodeBody x with | .ok f => f == .eget 1 5 0 | .error _ => false) = true ∧
      fetched s 16 (fun x => match decodeBody x with | .ok f => f == .eend | .error _ => false) = true) ∧
    pushes { loose with cur := { loose.cur with plate := 0x100000800#16384, frameAt := some 1 } } (.mnot h0 3 2) [] = true ∧
    refuses loose (.vsqrt h0 0 3 5 6) = true ∧
    executes (full loose 4) (.mnot h0 3 2) [] [] = true ∧ 64 ≤ ((full loose 4).cur.queue 4).length ∧ loose.cur.queues.all (fun l => l.length < 64) = true := by decide +kernel

-- Vectors and tiles
/-- Every instruction of a list runs at once in a state, and executes. -/
def allRun (s : State) (l : List (Instr × List Reg)) : Bool := l.all fun x => runs s x.1 && executes s x.1 x.2 []
theorem witness_VectorArithmetic : allRun base ([.vadd h0 0 0 5 6 7, .vsub h0 1 1 5 6 7, .vmul h0 2 5 5 6 7, .vfma h0 0 6 5 5 5, .vfnma h0 0 8 5 6 7, .vdiv h0 0 7 5 6 7,
    .vsqrt h0 0 8 5 6, .vrsq h0 0 8 5 6, .vrcp h0 0 8 5 6, .vexp2 h0 0 5 5 6, .vlog2 h0 0 5 5 6, .vmin h0 0 6 5 6 7, .vmax h0 0 3 5 6 7, .vabs h0 0 5 5 6,
    .vneg h0 0 2 5 6, .vclamp h0 0 0 5 6 7, .vand h0 0 4 5 6 7, .vor h0 0 11 5 6 7, .vxor h0 0 13 5 6 7, .vshl h0 0 0 5 6 7, .vshr h0 0 1 5 6 7,
    .vsar h0 0 2 5 6 7, .vadds h0 0 3 5 6 7, .vmulh h0 0 0 5 6 7].map fun i => (i, [])) = true := by decide +kernel
theorem witness_VectorMoves : allRun base ([.vceq h0 0 0 3 6 7, .vclt h0 1 5 0 6 7, .vcle h0 2 8 2 6 7, .vmov h0 0 0 5 6, .vperm h0 0 0 5 6 7, .vsel h0 0 0 5 6 7,
    .vexpd h0 0 0 5 6, .vcmpr h0 0 0 5 5, .mand h0 0 2 3, .mor h0 1 2 3, .mnot h0 1 0, .mpopc h0 1].map fun i => (i, [])) = true ∧
    allRun base [(.vmovs h0 0 0 5 6, [6]), (.viota h0 0 0 5 6, [6])] = true ∧ base.cur.replies = [] := by decide +kernel
theorem witness_VectorReductions : allRun base ([.vcvt h0 0 8 5 6 0 1, .vcvt h0 0 0 5 6 2 0, .vred h0 0 0 5 6 1 true, .vred h0 0 3 5 6 5 false, .vscan h0 0 2 5 6 2].map
    fun i => (i, [])) = true ∧ setI 0 = true ∧ base.cur.replies.length < 16 := by decide +kernel
def runsTile (s : State) (i : Instr) (ds : List DReg) (f : Command → Bool) : Bool :=
  runs s i && executes s i [] ds && match pushForm i with
    | none => false
    | some p => match s.pushCommand i p [] with | none => false | some c => f c
theorem witness_MatrixProducts :
    (let free (c : Command) : Bool := !hasFlag c.da flagTeam && !hasFlag c.dc flagRanked && (decide (dRows c.da ≤ 1) || decide (rowBytes c.da ≤ (dStride c.da).natAbs)) &&
       (teamCheck tiles 3 c.da).isNone && !c.empty && tiles.latent.isEmpty && (match tiles.startTrap c with | .ok z => z == tiles | .error _ => false)
     let reads (c : Command) (d : Desc) : Bool := match readTile tiles c d (scrLoc d) with | .ok _ => true | .error _ => false
     [Instr.mmaz h0 0 1 2 3, .mma h0 0 1 2 3].all (fun i => runsTile tiles i [1, 2, 3] fun c => free c && (dFmt c.db == 0 || dFmt c.db == 4) &&
       (startCheck tiles 3 .read (operandRuns c.db ++ operandRuns c.dc)).isNone && reads c c.db && reads c c.dc) = true ∧
     runsTile tiles (.mzero h0 1) [1] free = true) := by decide +kernel

-- Redundancy, traps
def unit (f : Machine.Unit → Machine.Unit) (s : State) : State := { s with cur := f s.cur }
/-- A command as the push makes it. -/
def withCommand (s : State) (i : Instr) (f : Command → State) : State :=
  match pushForm i with | none => s | some p => match s.pushCommand i p [] with | none => s | some c => f c
/-- One replica and two; a lane and a meeting; no region, one with its commands retired and one with a command queued, and four. -/
theorem witness_Redundancy :
    (executes base (.ndagree 5 6) [6] [] = true ∧ atCommit base = true ∧ base.cur.live ≤ 1) ∧
    (let s := unit (fun u => { u with live := 2, ndResult := some 9 }) base
     executes s (.ndagree 5 6) [6] [] = true ∧ atCommit s = true ∧ 1 < s.cur.live ∧ s.cur.ndResult = some 9) ∧
    executes base (.sigrd true false 5 2) [] [] = true ∧ executes base (.sigrd false true 5 6) [] [] = true ∧ executes base (.sigrd false true 5 1) [] [] = true ∧
    executes base (.copen true 0xFFFFFFFF) [] [] = true ∧ base.cur.regions.length < 4 ∧ executes base .cclose [] [] = true ∧ base.cur.regions = [] ∧
    (let r : Region := { handler := 0x40, buffered := false }
     let s := unit (fun u => { u with regions := [r] }) base
     let busy := withCommand { s with prompt := false } (.mnot h0 3 2) fun c => unit (fun u => u.setQueue 4 [c]) { s with prompt := false }
     let four := unit (fun u => { u with regions := [r, r, r, r] }) base
     executes s .cclose [] [] = true ∧ s.cur.regions = [] ++ [r] ∧ s.cur.regionDone = true ∧ s.cur.relBuf = [] ∧ s.cur.heldSigs = [] ∧
     executes busy .cclose [] [] = true ∧ busy.cur.regions ≠ [] ∧ busy.cur.regionDone = false ∧ atCommit busy = true ∧
     executes four (.copen false 1) [] [] = true ∧ 4 ≤ four.cur.regions.length ∧ atCommit four = true) ∧
    [0, 1, 2, 3].all (fun k => executes base (.katstat 5 k) [] []) = true := by decide +kernel
def level (n : BitVec 2) (s : State) : State := unit (fun u => { u with tlevel := n }) s
/-- A command in flight whose cycles are not over, and one that only waits for room for its token. -/
def running (s : State) : State := withCommand s (.mnot (head 1 0 0 0) 3 2) fun c => unit (fun u => { u with inflight := [{ flying c with until_ := 9 }] }) s
def roomless (s : State) : State := withCommand s (.mnot (head 1 0 0 0) 3 2) fun c => unit (fun u => { u.setFifo 4 1 8 with inflight := [flying c] }) s
/-- At both levels, with nothing in flight and with each of those; and in a machine that is not prompt. -/
theorem witness_SoftwareTraps :
    ([base, roomless base].all fun b => [level 0 b, level 1 b].all fun s => executes s (.trap 0xFFFFFFFF) [] [] && atCommit s && s.prompt && s.cur.tvec != 0 &&
      s.cur.tlevel != 2 && s.cur.tlevel != 3 && cutsNow s) = true ∧ (roomless base).cur.inflight ≠ [] ∧
    (let s := running base
     executes { s with prompt := false } (.trap 1) [] [] = true ∧ s.prompt = true ∧ s.cur.tvec ≠ 0 ∧ s.cur.tlevel = 0 ∧
       s.cur.inflight.map (State.onlyRoom { s with cur := s.cur.dropRequest }) = [false] ∧
       executes (unit (fun u => { u with inflight := [] }) s) (.trap 1) [] [] = true) ∧
    executes (running base) (.trap 1) [] [] = true ∧ atCommit (running base) = true := by decide +kernel
/-- A unit with an instruction that has not committed and a command that has not started, at both levels; a system core at level 2, and one without a handler. -/
theorem witness_TrapsFormTheCut :
    (let x : Trap := seqTrap .illfld 5
     let s := withCommand loose (.mnot h0 3 2) fun c => unit (fun u => ({ u with
       window := [{ pc := 0, before := base.cur.toSeqRegs, push := some (4, 0), store := none, load := none, done := 0 }] } : Machine.Unit).setQueue 4 [c]) loose
     let core := unit (fun u => { u with gid := 0x8000 }) base
     cutsNow s = true ∧ (running s).cur.inflight.map (State.onlyRoom { running s with cur := (running s).cur.dropRequest }) = [false] ∧ (running s).cur.queue 4 = s.cur.queue 4 ∧
     ({ x with cut := true } : Trap).cut = true ∧ x.cause.containEvent = none ∧ s.cur.window ≠ [] ∧ (s.cur.queue 4).length = 1 ∧ s.cur.tvec ≠ 0 ∧
       (level 1 s).cur.tlevel = 1 ∧ base.prompt = true ∧ base.cur.window = [] ∧
     (level 2 core).cur.isCore = true ∧ (level 2 core).cur.tlevel = 2 ∧ (unit (fun u => { u with tvec := 0 }) core).cur.tvec = 0 ∧
       (match (core.dev (gidDev core.cur.gid)).boot with | .started .. => false | _ => true) = true) := by decide +kernel
/-- Level 0; a command of the handler in a queue; a return address that is no multiple of 8; level 1 without and with a parked command, that goes on and that
does not; level 2. -/
theorem witness_ReturnsFromTraps :
    (let at_ (n : BitVec 2) : State := unit (fun u => { u with tret1 := 0x40, tret2 := 0x48 }) (level n base)
     let busy := withCommand loose (.mnot h0 3 2) fun c => unit (fun u => ({ u with tlevel := 1 } : Machine.Unit).setQueue 4 [{ c with handler := true }]) loose
     let odd := unit (fun u => { u with tret1 := 0x44 }) (level 1 base)
     let park (x : Word) : State := withCommand (empties loose) (.cpfill h0 0 false 1 6) fun c =>
       unit (fun u => { u with tlevel := 1, tret1 := 0x40, qprogL := x, parked := [{ c with resume := some 3 }] }) loose
     ([at_ 0, at_ 1, at_ 2, busy, odd, park 0, park (BitVec.ofNat 64 (2 ^ 62 + 3))].all fun s => executes s .eret [] [] && atCommit s) = true ∧
     busy.cur.handlerBusy = true ∧ odd.cur.tret1.toNat % 8 ≠ 0 ∧ odd.cur.handlerBusy = false ∧ (at_ 1).cur.handlerBusy = false ∧ (at_ 2).cur.tret2.toNat % 8 = 0 ∧
     (park 0).cur.handlerBusy = false ∧ (park 0).cur.tret1.toNat % 8 = 0 ∧ (park 0).prompt = false ∧
     (park 0).cur.parked.map (fun c => (c.queue, c.resume)) = [(2, some 3)] ∧ (park 0).cur.qprogL.toNat / 2 ^ 62 = 0 ∧
     (park (BitVec.ofNat 64 (2 ^ 62 + 3))).cur.qprogL = BitVec.ofNat 64 (2 ^ 62 + 3)) := by decide +kernel
/-- A quire outside and inside handler mode and a system core, with registers of each access, and an index without a register. -/
theorem witness_SystemRegisters :
    (let core := unit (fun u => { u with gid := 0x8000 }) base
     ([base, level 1 base, core].all fun s => atCommit s && [0x00, 0x02, 0x10, 0x31, 0x48, 0x4A, 0x4C, 0x70, 0x7FF].all fun idx =>
       executes s (.mfsr 5 idx) [] [] && executes s (.mtsr idx 6) [6] []) = true ∧
     core.cur.isCore = true ∧ base.cur.isCore = false ∧ base.cur.tlevel = 0 ∧ (level 1 base).cur.tlevel ≠ 0 ∧ base.cur.lbody.getLsbD 63 = false ∧
     (base.cur.rs 6).getLsbD 63 = false) := by decide +kernel

-- Commands that run
def idles (s : State) (i : Instr) : Bool :=
  runs s i && i.wf && match pushForm i with
    | none => false
    | some p => match s.pushCommand i p [] with
      | none => false
      | some c => c.empty && s.landed s.cur c && s.cur.sigWait.isEmpty && executes s i p.scalar.toList (p.da.toList ++ p.db.toList ++ p.dc.toList ++ (extraReg i c.da c.db c.dc).toList)
/-- Commands whose descriptors name no element, without tokens and with a token taken and one given. -/
theorem witness_EmptyCommands : ([h0, head 1 6 0 0].flatMap onEmpties).filter
      (fun i => !idles (empties (unit (fun u => [2, 3, 4, 5].foldl (fun u q => u.setFifo 6 q 1) u) base)) i) = [] := by decide +kernel
/-- Runs of bytes that share none. -/
def apart (y z : Nat × Nat) : Bool := decide (y.1 + y.2 ≤ z.1) || decide (z.1 + z.2 ≤ y.1)
def allApart : List (Nat × Nat) → Bool
  | [] => true
  | y :: rest => rest.all (apart y) && allApart rest
/-- The places of a copy: every row of the destination may be written, and for a copy every row of the source read. -/
def mayCopy (s : State) (i : Instr) (b : Bool) : Bool :=
  runs s i && match pushForm i with
    | none => false
    | some p => match s.pushCommand i p [] with
      | none => false
      | some c =>
        let runsOf (write : Bool) (k : AccessKind) (d : Desc) : Option (Loc × List (Nat × Nat)) :=
          match s.place s.cur c.queue write d with
          | .error _ => none
          | .ok l => (((List.range (dRows c.da)).mapM fun r =>
              match checkPieces s c.queue k l.kind (pieces (rowLoc d l r).base (rowBytes d)) with | .ok ps => some ps | .error _ => none).map fun (x : List (List (Nat × Nat))) => (l, x.flatten))
        executes s i p.scalar.toList (p.da.toList ++ p.db.toList) && !c.empty && dMicro c.da == 0 && (s.cur.carry c).2.carrier.isNone && !s.cur.buffering && s.pend.isEmpty &&
        s.latent.isEmpty && (match s.startTrap c with | .ok _ => true | .error _ => false) &&
        match runsOf true .copyWrite c.da with
        | none => false
        | some (dst, into) => dst.kind != .acc && dst.kind != .vrf && (dRows c.da == 1 || dst.kind != .mem) && allApart into && into.all (fun y => s.reachesNow s.cur.gid y.1) &&
          (!b || match runsOf false .copyRead c.db with
            | none => false
            | some (src, from_) => (src.kind == .acc || src.kind == .vrf || from_.all fun y => into.all (apart y)) &&
                (List.range (dRows c.da)).all fun r => match s.readRow c .copyRead c.db src r with | .ok _ => true | .error _ => false)
theorem witness_Copies :
    (let s : State := descs [(4, desc 0x100 1 0 3 40 48 0), (5, desc 0x2010 0 0 3 40 100 0), (6, desc 0x3000 0 0 1 200 0 0), (7, desc 0x100 1 0 1 200 0 0)] base
     mayCopy s (.cpfill h0 0 false 4 6) false = true ∧ mayCopy s (.cpin h0 0 false 4 5) true = true ∧ mayCopy s (.cpout h0 0 false 6 7) true = true) := by decide +kernel

-- Tasks, plates, time
/-- Task 64, whose record names one successor at virtual address 0x1000, and the state in which quire 0 runs it; the successor's counter holds 1. -/
def task64 (secure : Bool) (st : TaskState) (gone : List Nat) : Task :=
  { id := 64, record := 2 ^ 33 + 0x2000, fields := BitVec.ofNat 2048 ((if secure then 2 ^ 624 else 0) + 2 ^ 632 + 0x1000 * 2 ^ 1408), plate := zeroPlate, tvec := 0, tsave := 0,
    tstride := 0, state := st, order := 0, tokens := 0, units := [], former := [], decremented := gone, releases := [], saved := [], sram := [], modes := [], tags := [],
    votes := 0 }
def tasked (k : Task) (mine : Bool) : State :=
  let s := regs [(6, 0), (7, 1), (8, 64), (9, 0x100000000)] (bytes 0x1060 [1] base)
  { s with devs := [{ s.dev 0 with tasks := [k], boot := .done }], cur := { s.cur with task := if mine then some 64 else none } }
/-- SPAWN: a misaligned record, one that is not mapped, one that is; DEPDEC: a successor beyond the list, one decremented, one that is not. -/
theorem witness_Tasks_begin :
    (let s := tasked (task64 false .running []) true
     (match s.translate s.cur.gid 1 .read false 0x100 with | .ok p => (s.poisonedIn? p.addr 256).isNone | .error _ => false) = true ∧
     (match s.translate s.cur.gid 1 .read false 0x200000000 with | .ok _ => false | .error _ => true) = true ∧ (s.dev 0).boot = .done ∧ s.cur.live ≤ 1 ∧
     s.cur.regions = [] ∧ s.cur.wait = none ∧ binderReady 0 (fun _ => []) s = true ∧ binderReady 0 (fun s => s.counterPlaces fun _ => [0]) s = true ∧
     binderReady 0 (fun s => s.counterPlaces fun k => List.range k.successors) s = true ∧ atCommit s = true ∧
     [(10, 0x80), (10, 0x100), (10, 0x200000000)].all (fun (x : Reg × Word) => executes (regs [x] s) (.spawn 5 10) [10] []) = true ∧
     executes s (.depdec 0 5 7) [7] [] = true ∧ executes s (.depdec 0 5 6) [6] [] = true ∧ executes s (.depdecAll 0 5) [] [] = true ∧ s.myTask = some (task64 false .running []) ∧
     (task64 false .running []).successors ≤ (s.cur.rs 7).toNat ∧ (s.cur.rs 6).toNat < (task64 false .running []).successors ∧
     (match claspPlace s .atomic ((task64 false .running []).successor 0 + 96) 8 with
       | .ok p => s.servedNow (granuleKey p.addr) p.addr && (List.range 8).all (fun n => !s.erring (p.addr + n) && !s.poisoned (p.addr + n)) &&
           ((s.dev (addrDev p.addr)).touch (granuleKey p.addr)).isSome && s.number p.addr 8 == 1 && mayStore s 0 p.addr
       | .error _ => false) = true ∧ (s.devs.all fun d => d.tasks.all fun w => w.state != .waiting) = true) ∧
    (let s := tasked (task64 false .running [0]) true
     s.myTask = some (task64 false .running [0]) ∧ executes s (.depdec 0 5 6) [6] [] = true ∧ executes s (.depdecAll 0 5) [] [] = true ∧ binderReady 0 (fun s => s.counterPlaces fun k => List.range k.successors) s = true ∧
     binderReady 0 (fun s => s.counterPlaces fun _ => [0]) s = true ∧
     [0].contains (s.cur.rs 6).toNat = true ∧ (task64 false .running [0]).successors = 1) := by decide +kernel
/-- EXIT and YIELD while an engine is at work and afterwards; KILL in user mode, of an id too wide, of a task unknown, secure, ended, and live. -/
theorem witness_Tasks_end :
    (let busy := withCommand loose (.mnot h0 3 2) fun c => unit (fun u => u.setQueue 4 [c]) loose
     executes busy (.exit 6) [6] [] = true ∧ atCommit busy = true ∧ busy.cur.quiet = false ∧ executes busy (.yieldT 5) [] [] = true ∧ busy.drained = false ∧
     executes base (.exit 6) [6] [] = true ∧ base.cur.quiet = true ∧ base.cur.lost = [] ∧ base.cur.regions = [] ∧ executes base (.yieldT 5) [] [] = true ∧
     base.drained = true ∧ base.cur.live ≤ 1 ∧ (match base.myTask with | some _ => false | none => true) = true ∧ executes base (.kill 5 6) [6] [] = true ∧
     base.cur.isCore = false ∧ base.cur.tlevel = 0) ∧
    (let at_ (k : Task) : State := level 1 (tasked k false)
     let live := at_ (task64 false .waiting [])
     executes live (.kill 5 9) [9] [] = true ∧ (live.cur.rs 9).toNat / 2 ^ 32 ≠ 0 ∧
     executes live (.kill 5 7) [7] [] = true ∧ (live.dev 0).task? ((live.cur.rs 7).setWidth 32) = none ∧
     ([at_ (task64 true .running []), at_ (task64 false .completed []), live].all fun s => executes s (.kill 5 8) [8] [] && atCommit s &&
       ((s.dev 0).task? ((s.cur.rs 8).setWidth 32)).isSome && decide ((s.cur.rs 8).toNat / 2 ^ 32 = 0)) = true ∧
     (task64 true .running []).isSecure = true ∧ live.cur.secure = false ∧ live.cur.task ≠ some 64 ∧ (task64 false .waiting []).units = [] ∧ live.cur.wait = none ∧ live.cur.live ≤ 1 ∧
     live.devs.all (fun d => d.held.isEmpty) = true) := by decide +kernel
/-- A misaligned image, one that is not mapped, one whose plate is refused, and the zero plate's; a load that is under way, failed and complete; a ring bound. -/
theorem witness_Plates :
    (let s := bytes 0x1001 [8] (regs [(5, 0x80), (6, 0x1000), (7, 0x200000000), (8, 0x2000)] base)
     let l (x : PlateLoad) : State := unit (fun u => { u with load := x }) s
     let busy := withCommand loose (.mnot h0 3 2) fun c => unit (fun u => u.setQueue 4 [c]) loose
     [5, 6, 7, 8].all (fun r => executes s (.swapLoad r) [r] [] && executes { s with prompt := false } (.swapLoad r) [r] []) = true ∧ atCommit s = true ∧
     (match s.loadImage 0x1000 with | .ok p => p == zeroPlate | .error _ => false) = true ∧ plateFault zeroPlate = none ∧ plateRings zeroPlate = [] ∧
     (match s.loadImage 0x200000000 with | .ok _ => false | .error _ => true) = true ∧ (match s.loadImage 0x2000 with | .ok _ => false | .error _ => true) = true ∧
     (List.range 16).all (fun k => placed s .read (0x1000 + BitVec.ofNat 64 (128 * k)) fun p => !s.poisoned p.addr) = true ∧
     ([l (.loading 0x1000), l (.failed (seqTrap .align 8)), l .complete, busy].all fun s => executes s .swap [] [] && atCommit s) = true ∧ s.drained = true ∧
     busy.drained = false ∧ (match busy.cur.load with | .loading _ => false | _ => true) = true ∧
     (match bindShadow (plateRings zeroPlate) (.exact 0) s with | .ok _ => true | .error _ => false) = true ∧
     executes s (.frame 0xFFFF) [] [] = true ∧ executes s (.phase 7) [] [] = true ∧ executes s .drain [] [] = true ∧ executes busy .drain [] [] = true) ∧
    (let r (config : Nat) : State := unit (fun u => { u with load := .complete, shadow := zeroPlate + BitVec.ofNat 16384 (2 ^ (8 * 0x140) * (2 ^ 63 + 5 * 2 ^ 56 + config)) }) (ringed false 5 0)
     (r 0x2803).drained = true ∧ executes (r 0x2803) .swap [] [] = true ∧ (plateRings (r 0x2803).cur.shadow).length = 1 ∧
     (r 0x2803).shadowFault (plateRings (r 0x2803).cur.shadow) = none ∧ (r 0x2804).shadowFault (plateRings (r 0x2804).cur.shadow) = some 0x140 ∧
     (match bindShadow (plateRings (r 0x2803).cur.shadow) (.exact 0) (r 0x2803) with | .ok _ => true | .error _ => false) = true) := by
  decide +kernel
/-- User and handler mode; a token there, a timeout that has passed, nothing to come, and a wait that begins. -/
theorem witness_TranslationsAndTime :
    (let busy := level 1 (withCommand loose (.mnot h0 3 2) fun c => unit (fun u => u.setQueue 4 [c]) loose)
     let due := unit (fun u => { u with idleFrom := some 0, time := 9 }) base
     let token := unit (fun u => u.setFifo 4 1 1) base
     [base, level 1 base].all (fun s => executes s (.tlbinv 4 6 7) [6, 7] [] && executes s .halt [] [] && atCommit s) = true ∧ base.cur.tlevel = 0 ∧
     executes busy .halt [] [] = true ∧ atCommit busy = true ∧ busy.drained = false ∧ (level 1 base).drained = true ∧ executes base (.clock 5) [] [] = true ∧
     [base, due, token].all (fun s => executes s (.idle 9) [] [] && executes s (.idle 0) [] [] && atCommit s) = true ∧ 0 + (9 : BitVec 32).toNat ≤ due.cur.time ∧
     token.cur.fifo 4 1 = 1 ∧ base.cur.replies = [] ∧ (List.range 7).all (fun k => base.cur.fifo (BitVec.ofNat 3 k) 1 == 0) = true ∧ base.cur.idleFrom = none ∧
     base.cur.willReply = false ∧ (List.range 7).all (fun k => !base.cur.willGive (BitVec.ofNat 3 k)) = true) := by decide +kernel

-- Events
def ran (s : State) (i : Instr) : Bool := s.cur.issues && match s.fetched with | .run j => j == i | .trap _ => false
def plain (s : State) (k : Nat) : Bool :=
  decide (128 * k < sramBase) && !s.poisoned (128 * k) && !s.erring (128 * k) && (s.cur.l1.find? fun c => c.sector == k).isNone
/-- Each event in a state where its condition holds. -/
theorem witness_SequencerEvents_issue :
    base.hasUnit 0xFFFF = false ∧ base.hasUnit 0 = true ∧
    base.latent = [] ∧ placed base .fetch base.cur.pc (fun p => plain base (p.addr / 128) && base.cur.l0.all fun c => c.sector != p.addr / 128) = true ∧
    (let i := Instr.mnot h0 3 2
     let s := wordAt 0 (encode i) loose
     ran s i = true ∧ (pushForm i).isSome = true ∧ pushes s i [] = true) ∧
    (let i := Instr.aadd false 0 0 0 0 5 6 7
     let s := wordAt 0 (encode i) at100
     ran s i = true ∧ s.cur.requests = true ∧ (claspMeaning i).isSome = true ∧ executes s i [6, 7, 0] [] = true ∧ atCommit s = true ∧
       mayRequest s .atomic 8 0 0 none 0x100 = true) := by decide +kernel
theorem witness_SequencerEvents_queues :
    (let e : WinEntry := { pc := 0, before := base.cur.toSeqRegs, push := none, store := none, load := none, done := 0 }
     let s := unit (fun u => { u with window := [e] }) loose
     s.cur.window = e :: [] ∧ (s.cur.window.all fun x => x.load.isNone) = true ∧ s.cur.canCommit e = true) ∧
    (let s := withCommand loose (.mnot (head 0 2 0 0) 3 2) fun c =>
       unit (fun u => ({ u with plate := 0x100000800#16384, frameAt := some 1, time := 9 } : Machine.Unit).setQueue 4 [{ c with due := 5 }]) loose
     s.cur.framed = true ∧ (s.cur.queue 4).map (fun c => (c.started, decide (c.due ≤ s.cur.time), s.cur.hasTokens c, BitVec.ofNat 32 (c.due - 1))) = [(false, true, false, (4 : BitVec 32))]) ∧
    base.maySteal 1 0 2 = false ∧
    (let task (u : Machine.Unit) : Machine.Unit := { u with run := .running, task := some 64, time := 16 }
     let i := Instr.cpin h0 0 true 1 11
     let s := withCommand (empties loose) i fun c => { unit (fun u => (task { u with inflight := [flying { c with num := 9 }] }).setQueue 2 [c]) loose with
       others := [task (Unit.atReset 1), task (Unit.atReset 2)] }
     s.maySteal 1 0 2 = true ∧ s.maySteal 0 0 2 = false ∧ s.maySteal 3 0 2 = false ∧ s.maySteal 1 2 2 = false ∧ s.maySteal 1 3 2 = false ∧
     (s.cur.queue 2).map (fun c => (c.empty, c.started, (s.phaseClash { c with engine := 1, due := 0 }).isNone)) = [(true, false, true)]) ∧
    (let s := withCommand loose (.mnot (head 1 0 0 0) 3 2) fun c => unit (fun u => { u with inflight := [flying c] }) loose
     s.cur.held = false ∧ s.cur.queue 4 = [] ∧ s.cur.inflight.map (fun y => (y.command.queue, y.replies, y.trace, y.waiting, s.mayRetire y)) = [(4, [], [], false, true)]) := by decide +kernel
theorem witness_SequencerEvents_caches :
    plain base (2 ^ 33 / 128) = true ∧
    (let s := next (.pageWalkComplete 0 0x100) base
     s.mayFill (2 ^ 33 / 128) && plain s (2 ^ 33 / 128)) = true ∧
    (match base.walk 0 base.cur.xbase 0x100 with | .ok _ => true | .error _ => false) = true ∧
    (match base.walk 0 base.cur.xbase 0x200000000 with | .ok _ => false | .error _ => true) = true ∧
    (let s := unit (fun u => { u with wait := some { num := 0, key := 5, since := 0, woken := false, served := false, cls := 0, releases := [] } }) base
     s.cur.wait.map (fun x => decide (x.key < 2 ^ 42)) = some true) ∧
    (let s := unit (fun u => { u with idleFrom := some 0 }) (wordAt 0 (encode (.idle 9)) base)
     s.cur.idleFrom = some 0 ∧ (match s.fetched with | .run j => j == .idle 9 | .trap _ => false) = true) ∧
    (let s (va : Word) : State := unit (fun u => { u with load := .loading va }) (bytes 0x1001 [8] base)
     (match (s 0x1000).loadImage 0x1000 with | .ok _ => true | .error _ => false) = true ∧ (match (s 0x2000).loadImage 0x2000 with | .ok _ => false | .error _ => true) = true) ∧
    (let s (begun : Bool) : State := { base with devs := [(base.dev 0).setBank 3 { Bank.atReset with changing := some 2, asker := 0, begun := begun, told := begun }] }
     (((s false).dev 0).changeOf 0 false).map (fun e => (e.1, e.2.mode)) = some (3, 1) ∧ (s false).admQ = [] ∧
     (((s true).dev 0).changeOf 0 true).map (fun e => (e.1, e.2.changing, e.2.told)) = some (3, some 2, true) ∧ ((s true).dev 0 |>.bank 3) = { Bank.atReset with changing := some 2, asker := 0, begun := true, told := true }) := by decide +kernel
/-- A device whose owner is the given master, with its known-answer tests on. -/
def ownedBy (n : Word) (kat : Word) (s : State) : State := { s with devs := [((s.dev 0).setReg 0x1000 n).setReg 0x60048 kat] }
theorem witness_TrapEvents :
    base.hasUnit 0 = true ∧
    (let s := unit (fun u => { u with raised := some (seqTrap .illfld 5) }) loose
     s.cur.raised = some (seqTrap .illfld 5) ∧ s.cur.window = [] ∧ (seqTrap .illfld 5).cause.containEvent = none ∧ s.cur.tlevel = 0 ∧ s.cur.tvec ≠ 0 ∧ cutsNow s = true) ∧
    base.cur.raised = none ∧ base.cur.cutting = none ∧
    (let s := unit (fun u => { u with cutting := some { trap := seqTrap .illfld 5, depth := 0, again := true } }) loose
     s.cur.raised = none ∧ s.cur.cutting.isSome = true ∧ s.cutDone = true ∧ s.cur.tlevel = 0 ∧ (running s).cutDone = false) ∧
    (let s := unit (fun u => { u with regions := [{ handler := 0x40, buffered := false }] }) base
     s.cur.run = .running ∧ s.cur.regions = [] ++ [{ handler := 0x40, buffered := false }]) ∧ base.cur.run = .running ∧ base.cur.regions = [] ∧
    (let s := ownedBy 0 4 base
     s.cur.isCore = false ∧ s.cur.run = .running ∧ ((s.dev 0).reg 0x60048).toNat % 256 ≠ 0 ∧ (s.dev 0).quireDisabled (gidLocal 0) = false) ∧
    (((ownedBy 0 0 base).dev 0).reg 0x60048).toNat % 256 = 0 ∧ base.cur.presented = none ∧ base.cur.ndValue = none ∧
    (let pair (b : Option Bool) : State :=
       let u := { base.cur with task := some 64, live := 2, presented := some (0, 0) }
       { base with cur := u, others := match b with | none => [] | some x => [{ u with gid := 1, replica := 1, presented := if x then some (0, 0) else none }] }
     (pair (some true)).cur.presented.isSome = true ∧ (pair (some true)).allPresented = true ∧ (pair (some false)).allPresented = false) ∧
    (let p : Machine.Unit := { Unit.atReset 1 with task := some 64, live := 2, replica := 1 }
     let s : State := { unit (fun u => { u with task := some 64, live := 2, ndValue := some 5, ndCount := 1 }) loose with others := [p] }
     s.cur.ndValue = some 5 ∧ p.ndValue = none ∧ s.cur.live = 2 ∧ s.peers s.cur = [s.cur, p] ∧ p.gid ≠ s.cur.gid ∧ s.prompt = false) ∧
    (let s := ownedBy 3 0 base
     s.owns 0 .debug = true ∧ s.owns 0 .host = false ∧ s.cur.debug = .off ∧ (unit (fun u => { u with debug := .stopped }) s).cur.debug = .stopped) := by decide +kernel
def write (addr : Nat) (c : Option (BitVec 3 × BitVec 32)) : Access :=
  { gid := 0, want := .write, cls := 0, addr := addr, data := [7], command := c, carrier := none, release := [], reduce := none, ord := none, orphan := false }
def pendWrite (horizon : BitVec 3) : WriteRec :=
  { id := 5, gid := 0, cls := 0, addr := 2 ^ 33, data := [1], command := none, horizon := horizon, seenBy := [], release := [], orphan := false }
theorem witness_MemoryEvents_queues :
    (let s := unit (fun u => { u with classQ := [write (2 ^ 33) none, write (2 ^ 33 + 256) none] }) loose
     base.hasUnit 0 = true ∧ s.cur.classQ[0]? = some (write (2 ^ 33) none) ∧ s.cur.classQ[1]? = some (write (2 ^ 33 + 256) none) ∧
     (s.cur.classQ.take 0).all (fun y => y.cls != 0) = true ∧ (s.cur.classQ.take 1).any (fun y => y.cls == 0) = true ∧ gidDev 0 = addrDev (2 ^ 33)) ∧
    (let s : State := { loose with admQ := [write (2 ^ 33) none] }
     (s.switchTo 0).turnedAway (write (2 ^ 33) none) = none ∧ s.roundOk (homeOf (2 ^ 33)) [0] = true ∧ s.roundOk 999999 [0] = false ∧ s.prompt = false ∧ s.pend = []) ∧
    (pendWrite 1 ∈ ({ loose with pend := [pendWrite 1] } : State).pend ∧ (pendWrite 1).horizon.toNat < (3 : BitVec 3).toNat ∧ (3 : BitVec 3).toNat ≤ 3) ∧
    (let s : State := { base with latent := [(9, 1)] }
     (base.latent.filter fun e => e.1 == 9) = [] ∧ (s.latent.filter fun e => e.1 == 9) = [(9, 1)] ∧ 128 * 9 < sramBase ∧ (s.devs.any fun d => d.num == addrDev (128 * 9)) = true) := by
  decide +kernel
/-- Two devices in TICK mode and in route mode, and a packet between them that is due; one device, of which no flow stops; a host's accesses to memory that is and is
not secure, and behind a posted write. -/
theorem witness_MemoryEvents_fabric :
    (let two (mode : Word) : State := { base with devs := [{ (base.dev 0).setReg 0x30000 mode with tick := 2 }, { (Device.atReset 1).setReg 0x30000 mode with tick := 2 }] }
     let p : Packet := { src := 1, dst := 0, tick := 0, hops := 1, access := write (2 ^ 33) none, first := 0, flits := 1, ports := [], more := [] }
     let s : State := { two 0 with flows := [p] }
     let r : State := { two 1 with flows := [p] }
     (s.devs.any fun d => d.num == 0) = true ∧ (s.dev 0).routeMode = false ∧ (two 0).flows = [] ∧ (s.dev p.src).routeMode = false ∧ s.admits p.access = true ∧
     s.devs.all (fun x => x.routeMode || x.halted || decide (p.tick + 1 + p.hops ≤ s.tickOf x)) = true ∧
     (r.dev 0).routeMode = true ∧ (r.dev 1).routeMode = true ∧ r.admits p.access = true ∧ (r.flows.find? fun q => q.src == 1 && q.dst == 0) = some p ∧
     (r.flows.find? fun q => q.src == 0 && q.dst == 1) = none ∧
     (let one : State := { base with devs := [(base.dev 0).setReg 0x30000 0] }
      (one.dev 0).routeMode = false ∧ newlyStopped one (one.onDev 0 fun d => { d with halted := true }) = [] ∧
      newlyStopped base (base.onDev 0 fun d => { d.setReg 0x30108 1 with failures := d.failures ++ [1] }) = [])) ∧
    (let s : State := { base with devs := [((base.dev 0).setReg 0x3000 1).setReg 0x3008 0] }
     0x40 + 4 ≤ 2 ^ 39 ∧ (base.dev 0).rangeSecure 0x40 4 = false ∧ base.pend = [] ∧ base.latent = [] ∧ base.prompt = true ∧ loose.prompt = false ∧
     (s.dev 0).rangeSecure 0x40 4 = true ∧ base.posted 0 = true ∧ ({ loose with admQ := [{ write 0x40 none with gid := hostGid 0 }] } : State).posted 0 = false) := by decide +kernel
def booted (d : Device) : State := { base with devs := [{ d with boot := .done }] }
theorem witness_DeviceEvents_tasks :
    base.devs.any (fun d => d.num == 0) = true ∧ (base.dev 0).submissions = [] ∧
    (let y : Submission := { record := 2 ^ 33 + 0x2000, secure := false, gid := none }
     let s := booted { base.dev 0 with submissions := [y] }
     (s.dev 0).boot = .done ∧ (s.dev 0).submissions = y :: [] ∧
     (match (s.onDev 0 fun d => { d with submissions := [] }).validate 0 y.record y.secure with | .error r => r != 7 | .ok _ => false) = true) ∧
    (let t : Task := { task64 false .eligible [] with fields := BitVec.ofNat 2048 (2 ^ 608) }
     let s := booted { base.dev 0 with tasks := [t], queue := [64] }
     s.refreshEligible.booted 0 = true ∧ (match s.refreshEligible.nextPlacement with | some (d, x, _) => d == 0 && x.id == 64 | none => false) = true ∧
     (s.fit t (fun _ => true) []).isSome = true ∧ (s.dev 0).queue.contains 64 = true ∧ (s.dev 0).task? 64 = some t) ∧
    (let t : Task := { task64 false .running [] with units := [0] }
     let s := unit (fun u => { u with run := .exited 0 }) (booted { base.dev 0 with tasks := [t] })
     (s.dev 0).task? 64 = some t ∧ s.finished t = true ∧ (s.dev 0).task? 1 = none) ∧
    (((ownedBy 1 0 base).dev 0).reg 0x1000).toNat % 16 = Master.id .host ∧ Master.id .host ≠ 0 := by decide +kernel
/-- A record of one replica is accepted. -/
theorem witness_DeviceEvents_accept :
    (let y : Submission := { record := 2 ^ 33 + 0x2000, secure := false, gid := none }
     let s := bytes 0x204C [1] (booted { base.dev 0 with submissions := [y] })
     s.posted 0 = true ∧ (s.dev 0).boot = .done ∧ s.latent = [] ∧ (s.dev 0).submissions = y :: [] ∧ (s.dev 0).tasks.all (fun k => k.id != s.newTaskId) = true ∧
     (match (s.onDev 0 fun d => { d with submissions := [] }).validate 0 y.record y.secure with | .error _ => false | .ok _ => true) = true) := by decide +kernel
/-- A secure task of priority 1 waits for the one secure quire, which a task of priority 0 holds: it drains, or is killed for two tokens. -/
theorem witness_DeviceEvents_preempt :
    (let n : Task := { task64 false .eligible [] with fields := BitVec.ofNat 2048 (2 ^ 608 + 2 ^ 616 + 2 ^ 624), tokens := 5 }
     let r : Task := { task64 false .running [] with id := 65, fields := BitVec.ofNat 2048 (2 ^ 608 + 2 ^ 621 + 2 ^ 624), units := [0] }
     let s (left : Word) : State := unit (fun u => { u with task := some 65, remain := left })
       (booted { ((base.dev 0).setReg 0x3200 1).setReg 0x10088 2 with tasks := [n, r], queue := [64] })
     let plan (left : Word) : Option (List (Dev × Task × Choice)) := (s left).plan ((s left).dev 0) n ((s left).candidates n) [] n.tokens.toNat
     [0, 1].all (fun x => ((s x).dev 0).task? 64 == some n && ((s x).dev 0).queue.contains 64 && ((s x).fit n (fun _ => true) []).isNone && ((s x).dev 0).task? 65 == some r) = true ∧
     plan 0 = some [(0, r, .drain)] ∧ plan 1 = some [(0, r, .kill 2)] ∧ r.id ≠ n.id) := by decide +kernel
/-- Ownership, submission, registers and the stages of boot. -/
theorem witness_DeviceEvents_boot :
    (base.dev 0).boot = .choosing ∧ ((base.dev 0).reg 0x1000).toNat % 16 = 0 ∧ (1 : Word) = BitVec.ofNat 64 (Master.id .host) ∧
    (((ownedBy 1 0 base).dev 0).reg 0x1000).toNat % 16 = Master.id .host ∧ (((ownedBy 1 0 base).dev 0).reg 0x1000).toNat % 16 ≠ Master.id .management ∧
    ((0x20 : Word).toNat % 16 = 0 ∧ (0x20 : Word).toNat / 16 ≤ 3) ∧ (1 : Word).getLsbD 0 = true ∧
    ((0x2000 : Word).toNat % 256 = 0 ∧ (0x2000 : Word).toNat < 2 ^ 48 ∧ paDev (0x2000 : Word).toNat = 0 ∧ paInWindow (0x2000 : Word).toNat = true) ∧
    0x60044 % 8 ≠ 0 ∧ 0x60048 % 8 = 0 ∧ regClass 0x60048 = .owner ∧
    [BootStage.started true none, .fetching true, .fetching false].all (fun b => b != .minimal) = true := by decide +kernel
/-- The public key of a signer, and its signature of an image of 4096 bytes: the header, the key and zeros (computed apart from the model, by FIPS 186-4). -/
def signerKey : List Byte := beBytes 97
  0x04BFD152465458E5B9F1A903EAFEF03095EBFD52C5F9EA97BE74DE9194355FCFB40EC097315ADF6AFDEFBA21F44B625B4817058EFF9A1AD175A4675E9C730CB028EC76AEC544F7A56D58164D8CFC0402B489C4E74C918DC3A77F5C219D31B8E245
def goodImage : List Byte :=
  ([0x07, 0xB0, 0x09, 0x00, 0x58, 0x4F, 0x00, 0x00, 0x00, 0x10, 0x00, 0x00, 0, 0, 0, 0, 0x00, 0x01] : List Byte) ++ List.replicate 14 0 ++ signerKey ++
    List.replicate 31 0 ++ beBytes 96
  0x1CB78FB94D5C175277FC0854BB84BDE8BD30FDC860A0148ECD1ECBC7E84EA6E2900561224C53986BCAC3888A4E029F38599B69F4A31E854472D71B7C2AEF94381DC626B1EB7EE6541AFBE0AE31C980A36124A70C7C2BD33989CD38BC142E6864 ++
    List.replicate 3840 0
/-- Which key is fused is a free value (DESIGN CHOICE, log 16); where it is the signer's, the image is right. -/
theorem witness_DeviceEvents_image (h : Config.keyHash 0 = sha384 signerKey) : imageFault (Config.keyHash 0) goodImage 0 = none := by
  rw [h]
  decide +kernel
theorem witness_MemoryFormIsKept : Memory.wf base.mem ∧ Memory.wf State.reset.mem ∧ (match step base with | .next _ => true | _ => false) = true := by decide +kernel

end Sys2Proof.Tests
end

section
/-! PROOFS. Instruction words (02): the obligations O34, O35, O36, O59, O60. -/

namespace Sys2Proof.Laws.Decodes
open Sys2Proof
/-- Every instruction's word decodes to the instruction, one lemma for each constructor. -/
theorem every (i : Instr) : Statement i :=
  i.casesOn (motive := Statement)
    add sub mul mulh mulhu div divu rem remu andI orI xorI andn shl shr sar ror minI maxI minu maxu seq sne slt sltu sel clz ctz popc bfx bfi madd
    addi andi ori xori shli shri sari slti sltiu movi movhi muli lea fadd fsub fmul ffma fdiv fsqrt fmin fmax fceq fclt fcle fcvti fcvtf fcvtw fabs
    fneg fclass br beq bne blt bge bltu bgeu call callr ret jmpr loop loopx nop brk ld st lds sts fence l1inv pref bankmode dset dget dld aadd aand
    aor axor amin amax aminu amaxu aswap acas afadd barr bwait mwait msig rinit rclaim rwaite rcommit rwaitf rtake rstat twait tgive ypop ypeek vadd
    vsub vmul vfma vfnma vmin vmax vabs vneg vdiv vsqrt vrsq vrcp vexp2 vlog2 vand vor vxor vshl vshr vsar vceq vclt vcle vsel vmov vmovs viota vclamp
    vadds vmulh vcvt vpack vunpk vperm vgaths vscats vred vscan vtopk vcmpr vexpd vld vst vldx mand mor mnot mpopc mma mmaz mmac mmae mres mbndLyr
    mbndFirst mbndSum mcomp mmas mmab mzero mwr mrd mchk mjoinJoin mjoinLeave cpin cprow cpexp cpfill scprobe scrply cpout cpsct cppack cpred cpcoll
    cpsend cppost screc cpcnv ebind erun eswp efrnt ndagree sigrd copen cclose katstat trap eret mfsr mtsr exit yieldT swap swapLoad frame drain
    tlbinv spawn depdec depdecAll halt clock kill idle phase instructionFetch engineCommandPush instructionCommit framedStartMiss commandSteal
    commandRetire classQueueLeave homeAdmissionRound horizonWiden l1CopyInstall l1CopyDiscard claspRequestPerform pageWalkComplete bankmodeChangeBegin
    bankmodeChangeEnd mwaitRecheck idleTimeout plateLoadComplete trapTake containmentEvent katInject replicaMeeting meetingTimeout ndagreeTimeout
    taskAccept taskPlace taskComplete taskPreempt patrolScrub tickBoundary tickBatchAdmit krytlinkPacketDeliver clockOffsetExceeded portFailure
    hostBar2Write hostBar2Read claim claimHandover devreset submit bootsrc bootdone deviceRegisterWrite deviceReset bootSourceTimeout
    bootFetchComplete bootNetworkTimeout bootImageTimeout powerCapOvershoot thermalThrottle thermalTrip debugStop debugStep debugResume ownerKill
    powerCapExceeded powerCapCleared
end Sys2Proof.Laws.Decodes

namespace Sys2Proof.Laws
open Sys2Proof

/-! ### Edge-body words (02 R42) -/

section
variable (cls : BitVec 4) (op : BitVec 8) (oc : BitVec 4) (h : EHead) (a b c : Reg) (sub : BitVec 7) (reloc : Bool) {n : Nat}

theorem fieldA_encE (hn : n ≤ 6) : (encE cls op oc h a b c sub reloc).extractLsb' 20 n = a.extractLsb' 0 n := by
  simp (disch := omega) only [encE, cutHi, cutLo, Nat.reduceSub]
theorem fieldB_encE (hn : n ≤ 6) : (encE cls op oc h a b c sub reloc).extractLsb' 14 n = b.extractLsb' 0 n := by
  simp (disch := omega) only [encE, cutHi, cutLo, Nat.reduceSub]
theorem fieldC_encE (hn : n ≤ 6) : (encE cls op oc h a b c sub reloc).extractLsb' 8 n = c.extractLsb' 0 n := by
  simp (disch := omega) only [encE, cutHi, cutLo, Nat.reduceSub]
theorem subBit_encE : (encE cls op oc h a b c sub reloc).getLsbD 1 = sub.getLsbD 0 := by
  simp (disch := omega) only [encE, bitHi, bitLo, Nat.reduceSub]
theorem subLow_encE (hn : n ≤ 7) : (encE cls op oc h a b c sub reloc).extractLsb' 1 n = sub.extractLsb' 0 n := by
  simp (disch := omega) only [encE, cutHi, cutLo, Nat.reduceSub]
theorem subHigh_encE (hn : n ≤ 6) : (encE cls op oc h a b c sub reloc).extractLsb' 2 n = sub.extractLsb' 1 n := by
  simp (disch := omega) only [encE, cutHi, cutLo, Nat.reduceSub]
end

/-- The fields of a body word name its form. -/
theorem bodyFields_encodeBody (x : EdgeForm) : bodyFields (encodeBody x) = some x := by
  cases x <;> rw [encodeBody, bodyFields, opE] <;>
    simp (disch := decide) only [fieldA_encE, fieldB_encE, fieldC_encE, subBit_encE, subLow_encE, subHigh_encE, cutWide, bitLo, bitBool, cutLo, cutHi, cutAll, Nat.reduceSub] <;>
    rfl

theorem wordClass_encodeBody (x : EdgeForm) : wordClass (encodeBody x) = 11 := by cases x <;> exact classE ..

/-- Decoding its word gives back a well-formed edge-body form (02 R42, R44). -/
theorem decodeBody_encodeBody {x : EdgeForm} (h : x.wf = true) : decodeBody (encodeBody x) = .ok x := by
  rw [decodeBody, wordClass_encodeBody, bodyFields_encodeBody]
  simp [h]

end Sys2Proof.Laws

namespace Sys2Proof.Proofs
open Sys2Proof Sys2Proof.Machine

/-- Settles O34, by the constructor of the instruction, or of the form. -/
theorem decodeEncode : Obligations.DecodeEncode :=
  ⟨Laws.Decodes.every, fun _ => Laws.decodeBody_encodeBody⟩

/-- A written-out word that is the word of a well-formed instruction decodes to it. -/
theorem decode_word {w : Word} {i : Instr} (he : encode i = w) (hi : i.isEvent = false) (hw : i.wf = true) : decode w = .ok i :=
  he ▸ Laws.Decodes.every i hi hw

/-- Settles O35: each of the ten words is the word of its instruction, and the other two stand in classes without opcodes. -/
theorem specWords : Obligations.SpecWords := by
  refine ⟨?_, ?_, ?_, ?_, ?_, ?_, ?_, ?_, ?_, ?_, ?_, ?_⟩
  case refine_11 => rfl
  case refine_12 => rfl
  all_goals exact decode_word rfl rfl rfl
end Sys2Proof.Proofs

namespace Sys2Proof.Machine
open Sys2Proof

/-- An engine command's word pushes it; an EBIND reads its edge body first. -/
theorem exec_push {i : Instr} {p : PushForm} (h : pushForm i = some p) (hb : ∀ h oc da, i ≠ .ebind h oc da) (s : State) : exec i s = execPush i s := by
  cases i <;> cases h
  case ebind h oc da => exact absurd rfl (hb h oc da)
  all_goals rfl

/-- Every instruction issues. -/
theorem exec_issues {i : Instr} (h : i.isEvent = false) (s : State) : ∃ f, exec i s = issue i f s := by
  cases hp : pushForm i with
  | some p =>
    by_cases hb : ∃ h oc da, i = .ebind h oc da
    · obtain ⟨hd, oc, da, rfl⟩ := hb
      exact ⟨_, exec_ebind hd oc da s⟩
    · exact ⟨_, exec_push hp (fun h oc da e => hb ⟨h, oc, da, e⟩) s⟩
  | none =>
    cases i
    case nop => exact ⟨_, exec_nop s⟩
    case movi a imm => exact ⟨_, exec_movi a imm s⟩
    case lea a imm => exact ⟨_, exec_lea a imm s⟩
    case br off => exact ⟨_, exec_br off s⟩
    case call a off => exact ⟨_, exec_call a off s⟩
    case brk code => exact ⟨_, exec_brk code s⟩
    case ypeek a b => exact ⟨_, exec_ypeek a b s⟩
    case mtsr idx b => exact ⟨_, by rw [exec_mtsr, execMtsr]⟩
    all_goals cases h <;> cases hp <;> exact ⟨_, rfl⟩
end Sys2Proof.Machine

namespace Sys2Proof.Laws
open Sys2Proof

theorem wordClass_toNat (w : Word) : (wordClass w).toNat = w.toNat / 2 ^ 60 := by
  have := w.isLt
  rw [wordClass, BitVec.extractLsb'_toNat, Nat.shiftRight_eq_div_pow]; omega
theorem wordOp_toNat (w : Word) : (wordOp w).toNat = w.toNat / 2 ^ 52 % 256 := by
  rw [wordOp, BitVec.extractLsb'_toNat, Nat.shiftRight_eq_div_pow]

/-- An opcode beyond those that R41 gives its class names no instruction (02 R43). -/
theorem instrFields_undefined {w : Word} (h : [0x20, 0x0D, 0x11, 0x0F, 0x0B, 0x1A, 0x1F, 0x12, 0x0E, 0x06, 0x09, 0x04, 0x05, 0, 0x11, 0].getD
    (wordClass w).toNat 0 ≤ (wordOp w).toNat) : instrFields w = none := by
  unfold instrFields
  split
  case h_15 => rfl
  all_goals
    rename_i e
    rw [e] at h
    obtain ⟨k, hk⟩ := Nat.exists_eq_add_of_le' h
    simp only [fieldsInt, fieldsImm, fieldsFlt, fieldsCtl, fieldsMem, fieldsSyn, fieldsVec, fieldsVxf, fieldsMtx, fieldsCpi, fieldsCpo, fieldsEdg, fieldsRdn,
      fieldsSys, hk]
    rfl

/-- A body opcode outside 0x10 to 0x19 names no form (02 R42). -/
theorem bodyFields_undefined {w : Word} (h : (wordOp w).toNat < 0x10 ∨ 0x19 < (wordOp w).toNat) : bodyFields w = none := by
  unfold bodyFields
  split
  case h_11 => rfl
  all_goals omega

theorem decodeBody_undefined {w : Word} (h : wordClass w ≠ 11 ∨ bodyFields w = none) : decodeBody w = .error .illop := by
  by_cases hc : wordClass w = 11
  · rw [decodeBody, h.resolve_left (· hc), hc]; rfl
  · rw [decodeBody, if_pos (by simpa using hc)]

theorem encode_event {i : Instr} (h : i.isEvent = true) : encode i = 0xFFFFFFFFFFFFFFFF := by cases i <;> cases h <;> rfl

/-- What decodes is the word of its instruction, and no event. -/
theorem encode_of_decode {w : Word} {i : Instr} (h : decode w = .ok i) : encode i = w ∧ i.isEvent = false := by
  rw [decode] at h
  split at h
  · cases h
  · rename_i j hj
    split at h
    · rename_i hc
      cases h
      have he : encode i = w := by simpa using (Bool.and_eq_true_iff.mp hc).1
      refine ⟨he, Bool.eq_false_iff.mpr fun hi => ?_⟩
      rw [← he, encode_event hi] at hj
      cases hj
    · cases h

end Sys2Proof.Laws

namespace Sys2Proof.Machine
open Sys2Proof

/-- A word that R16 marks is ILLOP on a system core. -/
theorem exec_coreIllop {i : Instr} {s : State} (he : i.isEvent = false) (hc : s.cur.isCore = true) (hw : coreIllopWord (encode i) = true) :
    exec i s = trapNow s (seqTrap .illop (encode i)) := by
  obtain ⟨f, hf⟩ := exec_issues he s
  rw [hf, issue, if_pos (by rw [hc, hw]; rfl)]

theorem scrubFetch_cur (s : State) (va : Word) : (s.scrubFetch va).cur = s.cur := by
  rw [State.scrubFetch]
  split
  · rfl
  · have h : ∀ (t : State) k, (t.scrub k).cur = t.cur := fun t k => by obtain ⟨_, _, _, _, e, -⟩ := scrub_frame t k; rw [e]
    dsimp only
    split
    · split
      · rw [h, scrubWalk_cur]
      · exact scrubWalk_cur s va
    · exact scrubWalk_cur s va

/-- The body words of an EBIND up to one that is no form (02 R42, R46). -/
theorem readBody_illop {s : State} {x : Word} (hx : decodeBody x = .error .illop) (forms : List EdgeForm) : ∀ (fuel : Nat) (va : Word) (acc : List EdgeForm),
    forms.length ≤ fuel → EdgeForm.eend ∉ forms →
    (∀ k, (hk : k < forms.length) → ∃ y, s.fetchAt (va + BitVec.ofNat 64 (8 * k)) = .ok y ∧ decodeBody y = .ok forms[k]) →
    s.fetchAt (va + BitVec.ofNat 64 (8 * forms.length)) = .ok x →
    readBody s fuel va acc = .trap (seqTrap .illop x) (va + BitVec.ofNat 64 (8 * forms.length)) := by
  induction forms with
  | nil =>
    intro fuel va acc _ _ _ hl
    rw [List.length_nil, show va + BitVec.ofNat 64 (8 * 0) = va by simp] at *
    rw [readBody, hl]
    simp only [hx]
    rfl
  | cons form forms ih =>
    intro fuel va acc hn he hf hl
    obtain ⟨fuel, rfl⟩ : ∃ n, fuel = n + 1 := ⟨fuel - 1, by simp at hn; omega⟩
    have next (k : Nat) : va + 8 + BitVec.ofNat 64 (8 * k) = va + BitVec.ofNat 64 (8 * (k + 1)) := by
      rw [BitVec.add_assoc]; congr 1; apply BitVec.eq_of_toNat_eq; simp; omega
    obtain ⟨y, hy, hd⟩ := hf 0 (by simp)
    rw [show va + BitVec.ofNat 64 (8 * 0) = va by simp] at hy
    rw [List.getElem_cons_zero] at hd
    have hne : form ≠ .eend := fun e => he (by simp [e])
    have := ih fuel (va + 8) (acc ++ [form]) (by simpa using hn) (fun h => he (by simp [h]))
      (fun k hk => by rw [next]; exact hf (k + 1) (by simpa using hk)) (by rw [next]; exact hl)
    rw [readBody, hy]
    simp only [hd]
    rw [this, next, List.length_cons]

end Sys2Proof.Machine

namespace Sys2Proof.Proofs
open Sys2Proof Sys2Proof.Machine

/-- An EBIND whose edge body breaks off at a word that is no form traps at that word (02 R46). -/
theorem exec_ebind_illop {h : EHead} {oc : BitVec 4} {da : DReg} {s : State} {forms : List EdgeForm} {x : Word} (hx : s.Executes (.ebind h oc da) [] [])
    (hl : s.latent = []) (hn : forms.length ≤ 16)
    (hf : ∀ k, (hk : k < forms.length) → ∃ y, s.fetchAt (s.cur.pc + BitVec.ofNat 64 (8 * (k + 1))) = .ok y ∧ decodeBody y = .ok forms[k])
    (he : EdgeForm.eend ∉ forms) (hw : s.fetchAt (s.cur.pc + BitVec.ofNat 64 (8 * (forms.length + 1))) = .ok x) (hd : decodeBody x = .error .illop) :
    exec (.ebind h oc da) s =
      .next (s.raise { seqTrap .illop x with tret := some (s.cur.pc + BitVec.ofNat 64 (8 * (forms.length + 1))) }) := by
  have next (k : Nat) : s.cur.pc + BitVec.ofNat 64 (8 * (k + 1)) = s.cur.pc + 8 + BitVec.ofNat 64 (8 * k) := by
    rw [BitVec.add_assoc]; congr 1; apply BitVec.eq_of_toNat_eq; simp; omega
  simp only [next] at hf hw ⊢
  rw [exec_ebind, execEbind, issue_spec hx, pushBind, readBody_illop hd forms 16 _ [] hn he hf hw]
  dsimp only
  rw [List.foldl_fixed' fun k => scrubFetch_clean hl (s.cur.pc + BitVec.ofNat 64 (8 * (k + 1)))]
  rfl

/-- Settles O36: an undefined opcode names no instruction, what R16 marks traps as every instruction issues, and an EBIND reads its body word by word. -/
theorem undefinedWords : Obligations.UndefinedWords := by
  intro s w cls op defined ha hr hra hcu hdb hbu hw
  have hs : step s = match s.fetched with | .run i => exec i (s.scrubFetch s.cur.pc) | .trap t => trapNow (s.scrubFetch s.cur.pc) t := by
    rw [step, ha]; exact turn_run ⟨hr, hra, hcu, hdb, hbu⟩
  have hc : (wordClass w).toNat = cls := Laws.wordClass_toNat w
  have ho : (wordOp w).toNat = op := Laws.wordOp_toNat w
  refine ⟨fun h => ?_, fun _ hcore hmark => ?_, fun h => ?_, ?_⟩
  · have hd : decode w = .error .illop := by
      rw [decode, Laws.instrFields_undefined (by rw [hc, ho]; exact h)]
    refine ⟨hd, ?_⟩
    rw [hs, State.fetched, hw]
    simp only [hd, rejectTrap, ite_self]
    rfl
  · have hm : coreIllopWord w = true := by
      have h1 : fld w 60 4 = cls := hc
      have h2 : fld w 52 8 = op := ho
      simp only [coreIllopWord, h1, h2, Bool.or_eq_true, Bool.and_eq_true, decide_eq_true_eq, beq_iff_eq, List.contains_iff_mem]
      tauto
    rw [hs, State.fetched, hw]
    cases hd : decode w with
    | error r => simp only [hd, rejectTrap, hcore, hm]; rfl
    | ok i =>
      obtain ⟨he, hi⟩ := Laws.encode_of_decode hd
      simp only [hd]
      rw [exec_coreIllop hi (by rw [scrubFetch_cur, hcore]) (by rw [he, hm]), he]
      rfl
  · refine Laws.decodeBody_undefined ?_
    rcases h with h | h
    · exact .inl fun e => h (by rw [← hc, e]; rfl)
    · exact .inr (Laws.bodyFields_undefined (by rw [ho]; exact h))
  · intro hd oc da forms x hdec hl hx hn hf he hwx hbx
    rw [hs, State.fetched, hw]
    simp only [hdec, scrubFetch_clean hl]
    exact exec_ebind_illop hx hl hn hf he hwx hbx

end Sys2Proof.Proofs

namespace Sys2Proof.Proofs
open Sys2Proof

/-- A command that takes no token and gives none. -/
def noTokens : EHead := { give := 0, take1 := 0, take2 := 0, take3 := 0, stamp := 0 }
end Sys2Proof.Proofs

namespace Sys2Proof.Proofs.LateOperand
open Sys2Proof Sys2Proof.Machine

/-! O59. A command may be pushed before the descriptor it names has landed: its instruction then waits for it (06 R123), and more than the one cycle passes
that the statement allows. -/

/-- MZERO of the region that d2 describes. -/
def clear : Instr := .mzero noTokens 2
def form : PushForm := { pushForm0 noTokens 3 with da := some 2 }

/-- A unit about to run it at time 0; d2 describes a region of no rows in the accumulator store, and lands at time 5. -/
def late : State :=
  let s := State.reset.withWord (encode clear)
  { s with cur := { s.cur.wd 2 (0#64 ++ 2#4 ++ 2#4 ++ 0#184) with dready := s.cur.dready.set 2 5 } }

/-- The command it pushes. -/
def command : Command := (late.pushCommand clear form []).get (by decide +kernel)

theorem late_pushes : late.pushCommand clear form [] = some command := by simp only [command, Option.some_get]

theorem late_runsNow : late.RunsNow clear form command late.cur.pc [] where
  form := rfl
  command := late_pushes
  prompt := by decide +kernel
  free := by decide +kernel
  quiet := ⟨by decide +kernel, by decide +kernel, by decide +kernel, by decide +kernel, by decide +kernel⟩
  window := by decide +kernel
  homes := by decide +kernel
  meets := by decide +kernel
  tokens := by decide +kernel
  start := by decide +kernel
  accepts := by decide +kernel
  noClash := by decide +kernel

theorem late_executes : late.Executes clear [] [2] where
  legal := by decide +kernel
  inLoop := by decide +kernel
  room := by decide +kernel
  loaded := by decide +kernel
  landed := .inr (by decide +kernel)

/-- The word executes at time 5, and its cycle ends at 6. -/
theorem time_of_late {t : State} (h : exec clear late = .next t) : t.cur.time = 6 := by
  have h6 : (match exec clear late with | .next t => t.cur.time | _ => 6) = 6 := by decide +kernel
  rwa [h] at h6

end Sys2Proof.Proofs.LateOperand

namespace Sys2Proof.Proofs
open Sys2Proof Sys2Proof.Machine LateOperand

/-- Refutes O59: where the descriptor of an empty MZERO lands five cycles later, six cycles pass and not one, as `State.OnlyVectors` asks. -/
theorem not_emptyCommands : ¬ Obligations.EmptyCommands := by
  intro h
  obtain ⟨t, ht, -, -, -, -, -, -, -, -, -, ⟨-, -, hone, -⟩, -⟩ :=
    h clear late form command late_runsNow (by decide) (by decide +kernel) late_executes (by decide +kernel) (by decide +kernel) rfl
  have h1 : t.cur.time = late.cur.time + 1 := hone
  rw [time_of_late ht] at h1
  exact absurd h1 (by decide +kernel)
end Sys2Proof.Proofs

namespace Sys2Proof.Proofs.BufferedSum
open Sys2Proof Sys2Proof.Machine

/-! O60. The hypotheses keep the source apart from the destination, and the unit's writes out of its release buffer, but not the buffer empty. A unit reads
through what its buffer holds (20 R359), and a buffered reduction makes bytes of one element depend on each other: where an element lies with its lower half in
the destination and its upper half in the source, the write of one row changes what a later row reads, through the carry of the sum. -/

/-- CPIN of the rows that d5 describes to those that d4 describes. -/
def copy : Instr := .cpin noTokens 0 false 4 5
def form : PushForm := { pushForm0 noTokens 2 with da := some 4, db := some 5 }

/-- Two rows of four bytes in scratch. -/
def twoRows (base stride : Nat) : Desc :=
  BitVec.ofNat 64 base ++ BitVec.ofNat 4 spScr ++ 0#4 ++ 2#24 ++ 4#24 ++ BitVec.ofNat 32 stride ++ 0#104

/-- The home of a byte of the unit's scratch. -/
def home (off : Nat) : Nat := sramAddr 0 0 off

/-- One is added to the eight bytes from 0x100 on, as one integer. -/
def sum : Access :=
  { gid := 0, want := .write, cls := 0, addr := home 0x100, data := [1, 0, 0, 0, 0, 0, 0, 0], command := none, carrier := none, release := [],
    reduce := some (0, 3), ord := none, orphan := false }

/-- A unit about to run the copy, with the sum in its release buffer: the source has its rows at 0xF4, of ones, and at 0x104, of zeros; the destination at
0x100 and at 0x200. -/
def start : State :=
  let s := State.reset.withWord (encode copy)
  { s with
    mem := (s.mem.write (home 0xF4) [0xFF, 0xFF, 0xFF, 0xFF]).write (home 0x100) [0, 0, 0, 0, 0, 0, 0, 0]
    cur := { (s.cur.wd 4 (twoRows 0x100 0x100)).wd 5 (twoRows 0xF4 0x10) with relBuf := [{ access := sum, depth := 0 }] } }

/-- The command that the copy pushes, its places, what its rows read before it runs, and the bytes that they lie in. -/
def command : Command := (start.pushCommand copy form []).get (by decide +kernel)
def inScratch (base : Int) : Loc := { kind := .sram 1 0 (2 ^ 24), base := base }
def read (r : Nat) : List Nat := if r = 0 then [255, 255, 255, 255] else [0, 0, 0, 0]
def source (r : Nat) : List (Nat × Nat) := [(home (if r = 0 then 0xF4 else 0x104), 4)]
def destination (r : Nat) : List (Nat × Nat) := [(home (if r = 0 then 0x100 else 0x200), 4)]

theorem start_pushes : start.pushCommand copy form [] = some command := by simp only [command, Option.some_get]

theorem start_runsNow : start.RunsNow copy form command start.cur.pc [] where
  form := rfl
  command := start_pushes
  prompt := by decide +kernel
  free := by decide +kernel
  quiet := ⟨by decide +kernel, by decide +kernel, by decide +kernel, by decide +kernel, by decide +kernel⟩
  window := by decide +kernel
  homes := by decide +kernel
  meets := by decide +kernel
  tokens := by decide +kernel
  start := by decide +kernel
  accepts := by decide +kernel
  noClash := by decide +kernel

theorem start_executes : start.Executes copy [] [4, 5] where
  legal := by decide +kernel
  inLoop := by decide +kernel
  room := by decide +kernel
  loaded := by decide +kernel
  landed := by decide +kernel

theorem start_startTrap : start.startTrap command = .ok start := by decide +kernel

theorem rows_eq : dRows command.da = 2 := by decide +kernel

theorem destination_admits : ∀ r < 2, checkPieces start command.queue .copyWrite (inScratch 0x100).kind
    (pieces (rowLoc command.da (inScratch 0x100) r).base (rowBytes command.da)) = .ok (destination r) := by decide +kernel

theorem destination_reached : ∀ r < 2, ∀ y ∈ destination r, start.reachesNow start.cur.gid y.1 = true := by decide +kernel

theorem source_reads : ∀ r < 2, start.readRow command .copyRead command.db (inScratch 0xF4) r = .ok (read r) := by decide +kernel

theorem source_admits : ∀ r < 2, checkPieces start command.queue .copyRead (inScratch 0xF4).kind
    (pieces (rowLoc command.db (inScratch 0xF4) r).base (rowBytes command.db)) = .ok (source r) := by decide +kernel

theorem source_apart : ∀ r < 2, ∀ y ∈ source r, ∀ k < 2, ∀ z ∈ destination k, y.1 + y.2 ≤ z.1 ∨ z.1 + z.2 ≤ y.1 := by decide +kernel

/-- Row 1 of the destination ends as the carry of the sum over the ones that row 0 has written. -/
theorem row_one {t : State} (h : exec copy start = .next t) : (destination 1).flatMap (fun y => t.plainBytes start.cur.gid y.1 y.2) = [1, 0, 0, 0] := by
  have he : (match exec copy start with
      | .next t => (destination 1).flatMap (fun y => t.plainBytes start.cur.gid y.1 y.2)
      | _ => [1, 0, 0, 0]) = [1, 0, 0, 0] := by decide +kernel
  rwa [h] at he

end Sys2Proof.Proofs.BufferedSum

namespace Sys2Proof.Proofs
open Sys2Proof Sys2Proof.Machine BufferedSum

/-- Refutes O60: a copy of two rows by a unit whose release buffer holds a sum, which lies across row 0 of the destination and row 1 of the source. -/
theorem not_copies : ¬ Obligations.Copies := by
  intro h
  obtain ⟨t, ht, -, -, -, -, -, hrows, -, -⟩ :=
    h copy noTokens 0 false 4 5 0 start form command (inScratch 0xF4) (inScratch 0x100) start read source destination
      (.inr (.inl rfl)) start_runsNow (by decide +kernel) start_startTrap start_executes (by decide +kernel) (by decide +kernel)
      (by decide +kernel) (by decide +kernel) (by decide +kernel) (by decide +kernel) (by decide) (by decide)
      (by rw [rows_eq]; exact destination_admits) (by decide +kernel) (by rw [rows_eq]; exact destination_reached) (.inr (.inl (by decide)))
      (fun _ => ⟨by decide +kernel, fun r hr => ⟨source_reads r (rows_eq ▸ hr), fun _ _ => ⟨source_admits r (rows_eq ▸ hr),
        fun y hy k hk => source_apart r (rows_eq ▸ hr) y hy k (rows_eq ▸ hk)⟩⟩⟩)
      (fun hf => by cases hf)
  have h1 := hrows 1 (by rw [rows_eq]; decide)
  rw [row_one ht] at h1
  exact absurd h1 (by decide +kernel)
end Sys2Proof.Proofs

end

section
/-! PROOFS. Stacks and pages (03): the obligations O37, O38. -/

namespace Sys2Proof.Machine
open Sys2Proof

/-! ### What a walk does with the entries that it reads (03 R63 to R66) -/

/-- A page that no TLB holds is walked (R71). -/
theorem lookup_eq_walk {s : State} {g : Gid} {va : Word} (hu : ∀ t ∈ (s.unitAt g).tlb, t.covers (s.unitAt g).xbase va = false)
    (hd : ∀ t ∈ (s.dev (gidDev g)).tlb, t.1 = gidSection g → t.2.covers (s.unitAt g).xbase va = false) :
    s.lookup g va = s.walk g (s.unitAt g).xbase va := by
  have hunit : (s.unitAt g).tlb.find? (fun t => t.covers (s.unitAt g).xbase va) = none := by simpa using hu
  have hsec : (s.dev (gidDev g)).tlb.find? (fun t => t.1 == gidSection g && t.2.covers (s.unitAt g).xbase va) = none := by simpa using hd
  simp only [State.lookup, hunit, hsec]

/-- The address of the frame that an entry or XBASE names. -/
def frameOf (e : Word) : Nat := e.toNat / 2 ^ 18 % 2 ^ 30 * 2 ^ 18

/-- The bits that must be zero in an entry that maps a page are (R65). -/
def SoundEntry (e : Word) : Prop := e.toNat / 2 ^ 48 % 128 = 0 ∧ e.toNat % 2 ^ 14 = 0 ∧ (e.toNat / 2 ^ 58 % 4 = 1 ∨ e.toNat / 2 ^ 55 % 8 = 0)

/-- The bits above bit 47 repeat it (R63). -/
def Canonical (va : Word) : Prop := va.toNat / 2 ^ 47 = 0 ∨ va.toNat / 2 ^ 47 = 2 ^ 17 - 1

theorem fld_frame (e : Word) : fld e 18 30 * 2 ^ 18 = frameOf e := by rw [frameOf, fld_eq]

theorem entryReserved_eq_false_iff (e : Word) : entryReserved e = false ↔ SoundEntry e := by
  simp [entryReserved, SoundEntry, fld_eq, Nat.div_one, and_assoc, or_iff_not_imp_left]

theorem canonical_iff (va : Word) : (fld va 47 17 == 0 || fld va 47 17 == 2 ^ 17 - 1) = true ↔ Canonical va := by
  have h : fld va 47 17 = va.toNat / 2 ^ 47 := by
    rw [fld_eq, Nat.mod_eq_of_lt]
    have := va.isLt
    omega
  simp [h, Canonical]

/-- The walk reads `e` from the level-1 table (R63, R64). -/
structure State.ReadsFirst (s : State) (g : Gid) (xbase va e : Word) : Prop where
  canonical : Canonical va
  table : tableOk (s.dev (gidDev g)) (frameOf xbase) = true
  entry : s.tableEntry g (frameOf xbase + 8 * (va.toNat / 2 ^ 33 % 2 ^ 15)) = some e

/-- The walk reads `e` from the level-1 table, a pointer, and `e'` from the table that it points to (R64, R65). -/
structure State.ReadsSecond (s : State) (g : Gid) (xbase va e e' : Word) : Prop where
  first : s.ReadsFirst g xbase va e
  valid : e.getLsbD 63 = true
  pointer : e.getLsbD 17 = true
  zeroHigh : e.toNat / 2 ^ 48 % 2 ^ 15 = 0
  zeroLow : e.toNat % 2 ^ 17 = 0
  table : tableOk (s.dev (gidDev g)) (frameOf e) = true
  entry : s.tableEntry g (frameOf e + 8 * (va.toNat / 2 ^ 18 % 2 ^ 15)) = some e'

/-- A mapping that a walk has found, unless its entry breaks a rule for the address (R67, R68). -/
def Mapping.checked (d : Device) (va : Word) (m : Mapping) : Except WalkEnd Mapping :=
  (mapReason d m.entry (m.pa va)).elim (.ok m) fun r => .error (.reason r m.level)

/-- What a walk that ends in a checked mapping gives: the page, or the rule that its entry breaks. -/
theorem Mapping.gives_of_checked {d : Device} {va e : Word} {m : Mapping} {pa size level : Nat} {l : Except WalkEnd Mapping}
    (hl : l = m.checked d va) (he : m.entry = e) (hpa : m.pa va = pa) (hsize : m.size = size) (hlevel : m.level = level) :
    (mapReason d e pa = none → ∃ m, l = .ok m ∧ m.entry = e ∧ m.size = size ∧ m.level = level ∧ m.pa va = pa) ∧
    (∀ r, mapReason d e pa = some r → l = .error (.reason r level)) := by
  subst hl he hpa hsize hlevel
  exact ⟨fun h => ⟨m, by rw [checked, h, Option.elim], rfl, rfl, rfl, rfl⟩, fun r h => by rw [checked, h, Option.elim]⟩

/-- The block of 8 GiB that a level-1 entry maps (R64). -/
def blockOf (va e : Word) : Mapping := { entry := e, frame := frameOf e, vbase := va.toNat / 2 ^ 33 * 2 ^ 33, size := 2 ^ 33, level := 1 }

/-- The page that a level-2 entry maps, or, with the hint, its run of 128 (R64, R66). -/
def pageOf (va e : Word) (size : Nat) : Mapping :=
  { entry := e, frame := frameOf e / size * size, vbase := va.toNat / size * size, size := size, level := 2 }

/-- A page of 256 KiB lies at its frame. -/
theorem pageOf_pa_small (va e : Word) : (pageOf va e (2 ^ 18)).pa va = frameOf e + va.toNat % 2 ^ 18 := by
  simp only [pageOf, Mapping.pa, frameOf, Nat.mul_div_cancel _ (Nat.two_pow_pos 18)]

section
variable {s : State} {g : Gid} {xbase va e e' : Word}

theorem walk_of_not_canonical (h : ¬ Canonical va) : s.walk g xbase va = .error (.reason 1 0) := by
  rw [← canonical_iff, Bool.not_eq_true] at h
  simp only [State.walk, h, Bool.not_false, if_true]

theorem walk_of_table_off (hc : Canonical va) (ht : tableOk (s.dev (gidDev g)) (frameOf xbase) = false) :
    s.walk g xbase va = .error (.reason 8 0) := by
  simp only [State.walk, (canonical_iff va).2 hc, fld_frame, ht, Bool.not_true, Bool.not_false, Bool.false_eq_true, if_false, if_true]

namespace State.ReadsFirst
variable (h : s.ReadsFirst g xbase va e)
include h

theorem walk_of_invalid (hv : e.getLsbD 63 = false) : s.walk g xbase va = .error (.reason 2 1) := by
  simp only [State.walk, (canonical_iff va).2 h.canonical, fld_frame, fld_eq va 33, h.table, h.entry, hv, Bool.not_true, Bool.not_false,
    Bool.false_eq_true, if_false, if_true]

theorem walk_block (hv : e.getLsbD 63 = true) (hb : e.getLsbD 17 = false) (hs : SoundEntry e) (ha : e.toNat / 2 ^ 18 % 2 ^ 15 = 0) :
    s.walk g xbase va = (blockOf va e).checked (s.dev (gidDev g)) va := by
  simp only [State.walk, (canonical_iff va).2 h.canonical, fld_frame, fld_eq va 33, fld_eq e 18 15, h.table, h.entry, hv, hb,
    (entryReserved_eq_false_iff e).2 hs, ha, bne_self_eq_false, Bool.not_true, Bool.false_eq_true, if_false]
  rw [Mapping.checked, blockOf]
  generalize mapReason _ _ _ = r
  cases r <;> rfl

end State.ReadsFirst

namespace State.ReadsSecond
variable (h : s.ReadsSecond g xbase va e e')
include h

/-- The walk goes on with the level-2 entry: valid, reserved bits, hint, then the rules for the address (R69). -/
theorem walk_eq : s.walk g xbase va =
    if e'.getLsbD 63 = false then .error (.reason 3 2)
    else if entryReserved e' = true then .error (.reason 4 2)
    else if e'.getLsbD 17 = true ∧ fld e' 18 7 ≠ fld va 18 7 then .error (.reason 5 2)
    else (pageOf va e' (if e'.getLsbD 17 then 2 ^ 25 else 2 ^ 18)).checked (s.dev (gidDev g)) va := by
  simp only [State.walk, (canonical_iff va).2 h.first.canonical, fld_frame, fld_eq va 33, fld_eq va 18 15, fld_eq e 48, fld_eq e 0, pow_zero,
    Nat.div_one, h.first.table, h.first.entry, h.valid, h.pointer, h.zeroHigh, h.zeroLow, h.table, h.entry, bne_self_eq_false,
    Bool.or_false, Bool.not_true, Bool.not_eq_true', Bool.and_eq_true, bne_iff_ne, Bool.false_eq_true, if_false, if_true]
  rw [Mapping.checked, pageOf]
  generalize mapReason _ _ _ = r
  cases r <;> rfl

theorem walk_of_invalid (hv : e'.getLsbD 63 = false) : s.walk g xbase va = .error (.reason 3 2) := by
  rw [h.walk_eq, if_pos hv]

section
variable (hv : e'.getLsbD 63 = true) (hs : SoundEntry e')
include hv hs

theorem walk_of_hint_disagrees (hh : e'.getLsbD 17 = true) (hd : e'.toNat / 2 ^ 18 % 128 ≠ va.toNat / 2 ^ 18 % 128) :
    s.walk g xbase va = .error (.reason 5 2) := by
  have hne : fld e' 18 7 ≠ fld va 18 7 := by rwa [fld_eq, fld_eq]
  simp [h.walk_eq, hv, (entryReserved_eq_false_iff e').2 hs, hh, hne]

theorem walk_page (hh : e'.getLsbD 17 = false) : s.walk g xbase va = (pageOf va e' (2 ^ 18)).checked (s.dev (gidDev g)) va := by
  simp only [h.walk_eq, hv, (entryReserved_eq_false_iff e').2 hs, hh, Bool.true_eq_false, Bool.false_eq_true, false_and, if_false]

theorem walk_hint (hh : e'.getLsbD 17 = true) (ha : e'.toNat / 2 ^ 18 % 128 = va.toNat / 2 ^ 18 % 128) :
    s.walk g xbase va = (pageOf va e' (2 ^ 25)).checked (s.dev (gidDev g)) va := by
  have heq : fld e' 18 7 = fld va 18 7 := by rwa [fld_eq, fld_eq]
  simp only [h.walk_eq, hv, (entryReserved_eq_false_iff e').2 hs, hh, heq, Bool.true_eq_false, Bool.false_eq_true, ne_eq, not_true, and_false,
    if_false, if_true]

end
end State.ReadsSecond

end
end Sys2Proof.Machine

namespace Sys2Proof.Machine
open Sys2Proof

/-! ### The checks of an access to a page (03 R69, R70) -/

/-- The trap of an access whose translation or whose checks fail. -/
def pageTrap (q : BitVec 3) (k : AccessKind) (va : Word) (c : Cause) (level reason : Nat) : Trap :=
  { cause := c, queue := q, cut := q != 1, tval := va, xstat := some (xstatOf q k level reason), tret := none }

/-- The page, or the range in which the address lies, is secure. -/
def Mapping.secure (d : Device) (va : Word) (m : Mapping) : Bool := m.entry.getLsbD 60 || d.regionSecure (m.pa va)

/-- The page does not permit the access; only LD and ST (`regs`) reach device registers (R65, R67). -/
def Mapping.denies (k : AccessKind) (regs : Bool) (m : Mapping) : Bool :=
  (k.writes && !m.entry.getLsbD 62) || (k == .fetch && !m.entry.getLsbD 61) || (fld m.entry 14 3 == 3 && !regs)

/-- The place that an access reaches under the mapping of its page. -/
def State.placeOf (s : State) (g : Gid) (va : Word) (m : Mapping) : Place :=
  { pa := m.pa va, addr := s.addrOf (s.dev (gidDev g)) (m.pa va), mtype := m.entry.toNat / 2 ^ 14 % 8,
    home := if m.entry.toNat / 2 ^ 58 % 4 = 1 then some (8 * (m.pa va / 2 ^ 36 % 8) + m.entry.toNat / 2 ^ 55 % 8) else none }

theorem AccessKind.writes_iff (k : AccessKind) : k.writes = true ↔ k = .store ∨ k = .atomic ∨ k = .copyWrite := by cases k <;> decide

theorem Mapping.secure_iff {d : Device} {va : Word} {m : Mapping} :
    m.secure d va = true ↔ m.entry.getLsbD 60 = true ∨ d.regionSecure (m.pa va) = true := by rw [secure, Bool.or_eq_true]

theorem Mapping.denies_iff {k : AccessKind} {regs : Bool} {m : Mapping} : m.denies k regs = true ↔
    ((k = .store ∨ k = .atomic ∨ k = .copyWrite) ∧ m.entry.getLsbD 62 = false) ∨ (k = .fetch ∧ m.entry.getLsbD 61 = false) ∨
      (m.entry.toNat / 2 ^ 14 % 8 = 3 ∧ regs = false) := by
  simp only [denies, Bool.or_eq_true, Bool.and_eq_true, Bool.not_eq_true', beq_iff_eq, k.writes_iff, fld_eq, or_assoc, Nat.reducePow]

section
variable {s : State} {g : Gid} {va : Word} (q : BitVec 3) (k : AccessKind) (regs : Bool)

theorem translate_of_reason {r l : Nat} (h : s.lookup g va = .error (.reason r l)) :
    s.translate g q k regs va = .error (pageTrap q k va .xlatf l r) := by
  simp only [State.translate, h, pageTrap]

theorem translate_of_poison {l : Nat} (h : s.lookup g va = .error (.poison l)) :
    s.translate g q k regs va = .error (pageTrap q k va .uncorr l 0) := by
  simp only [State.translate, h, pageTrap]

/-- A page that translates is checked for security, then for its permissions. -/
theorem translate_of_mapping {m : Mapping} (h : s.lookup g va = .ok m) : s.translate g q k regs va =
    if !(s.unitAt g).trusted && m.secure (s.dev (gidDev g)) va then .error (pageTrap q k va .secviol 0 0)
    else if m.denies k regs then .error (pageTrap q k va .protv 0 0) else .ok (s.placeOf g va m) := by
  simp only [State.translate, h, pageTrap, Mapping.secure, Mapping.denies, State.placeOf, fld_eq, beq_iff_eq, Nat.reducePow]

end
end Sys2Proof.Machine

namespace Sys2Proof.Proofs
open Sys2Proof Sys2Proof.Machine

/-- Settles O37, by the entries that the walk reads. -/
theorem pageWalks : Obligations.PageWalks := by
  intro s g va u d table1 frame sound gives hu hd
  have hwalk : s.lookup g va = s.walk g u.xbase va := lookup_eq_walk hu hd
  refine ⟨fun ⟨hlow, hhigh⟩ => hwalk.trans (walk_of_not_canonical fun h => h.elim hlow hhigh), fun hcanon =>
    ⟨fun htable => hwalk.trans (walk_of_table_off hcanon htable), fun htable e he => ?_⟩⟩
  have first : s.ReadsFirst g u.xbase va e := ⟨hcanon, htable, he⟩
  refine ⟨fun hv => hwalk.trans (first.walk_of_invalid hv), fun hv hblock hsound halign => ?block, fun hv hptr hhigh hlow htable2 e' he' => ?table⟩
  case block => exact Mapping.gives_of_checked (hwalk.trans (first.walk_block hv hblock hsound halign)) rfl rfl rfl rfl
  case table =>
    have second : s.ReadsSecond g u.xbase va e e' := ⟨first, hv, hptr, hhigh, hlow, htable2, he'⟩
    refine ⟨fun hv' => hwalk.trans (second.walk_of_invalid hv'), fun hv' hsound hpage => ?page,
      fun hv' hsound hhint => ⟨fun hagree => ?hint, fun hdis => ?disagrees⟩⟩
    case page => exact Mapping.gives_of_checked (hwalk.trans (second.walk_page hv' hsound hpage)) rfl (pageOf_pa_small va e') rfl rfl
    case hint => exact Mapping.gives_of_checked (hwalk.trans (second.walk_hint hv' hsound hhint hagree)) rfl rfl rfl rfl
    case disagrees => exact hwalk.trans (second.walk_of_hint_disagrees hv' hsound hhint hdis)

/-- Settles O38, by what the translation of the address ends in. -/
theorem pageChecks : Obligations.PageChecks := by
  intro s g q k regs va u code faults
  have faults_of {c : Cause} {l r : Nat} (h : s.translate g q k regs va = .error (pageTrap q k va c l r)) : faults c l r :=
    ⟨_, h, rfl, rfl, rfl, by cases k <;> rfl⟩
  refine ⟨fun r l h => faults_of (translate_of_reason q k regs h), fun l h => faults_of (translate_of_poison q k regs h), fun m h => ?_⟩
  intro secure denied
  have hsec : m.secure (s.dev (gidDev g)) va = true ↔ secure := Mapping.secure_iff
  have hden : m.denies k regs = true ↔ denied := Mapping.denies_iff
  have hguard : (!u.trusted && m.secure (s.dev (gidDev g)) va) = true ↔ u.trusted = false ∧ secure := by
    rw [Bool.and_eq_true, Bool.not_eq_true', hsec]
  have hpass (hopen : u.trusted = true ∨ ¬ secure) : ¬ (u.trusted = false ∧ secure) :=
    fun ⟨hu, hs⟩ => hopen.elim (fun ht => absurd (hu.symm.trans ht) Bool.false_ne_true) (fun hn => hn hs)
  have htranslate := translate_of_mapping q k regs h
  refine ⟨fun hu hs => faults_of ?secviol, fun hopen hd => faults_of ?protv, fun hopen hd => ?granted⟩
  case secviol => rw [htranslate, if_pos (hguard.2 ⟨hu, hs⟩)]
  case protv => rw [htranslate, if_neg (hguard.not.2 (hpass hopen)), if_pos (hden.2 hd)]
  case granted => exact htranslate.trans ((if_neg (hguard.not.2 (hpass hopen))).trans (if_neg (hden.not.2 hd)))

end Sys2Proof.Proofs
end

section
/-! PROOFS. Slices and sections (04): the obligations O56, O16-O23. -/

namespace Sys2Proof.Machine
open Sys2Proof

/-! ### What an access does before it reaches memory (04 R85) -/

/-- The virtual address of an access. -/
def accessAddr (s : State) (b : Reg) (imm : BitVec 32) : Word := s.cur.rs b + imm.signExtend 64

theorem rs_pass (s : State) (k : Nat) (r : Reg) : (s.pass k).cur.rs r = s.cur.rs r := rfl

/-- Reads registers, then checks that an address is a multiple of `n`. -/
def aligning (rs : List Reg) (va : State → Word) (n : Nat) (f : State → Res) : State → Res :=
  reading rs [] fun s => if (va s).toNat % n ≠ 0 then trapNow s (seqTrap .align (va s)) else f s

section
variable {i : Instr} {rs : List Reg} {va : State → Word} {n : Nat} {f : State → Res} {s : State} (he : exec i s = issue i (aligning rs va n f) s)
  (h : s.Executes i rs []) (hva : ∀ k, va (s.pass k) = va s)
include he h hva

theorem raises_align (hal : (va s).toNat % n ≠ 0) : s.Raises i (seqTrap .align (va s)) := by
  obtain ⟨k, hk, e⟩ := issue_reading h fun s => if (va s).toNat % n ≠ 0 then trapNow s (seqTrap .align (va s)) else f s
  refine ⟨k, hk, ?_⟩
  rw [he, aligning, e, if_pos (by rwa [hva]), hva]
  rfl

theorem exec_aligned (hal : (va s).toNat % n = 0) : ∃ k, (s.cur.framed = true → k = 0) ∧ exec i s = f (s.pass k) := by
  obtain ⟨k, hk, e⟩ := issue_reading h fun s => if (va s).toNat % n ≠ 0 then trapNow s (seqTrap .align (va s)) else f s
  refine ⟨k, hk, ?_⟩
  rw [he, aligning, e, if_neg (by rwa [hva, not_not])]

/-- An access to a page that does not translate traps, with what its walk has decoded. -/
theorem exec_page_trap {kind : AccessKind} {regs : Bool} {g : State → Place → State → Res} (hf : f = fun s => paged kind regs (va s) (g s) s)
    (hal : (va s).toNat % n = 0) {t : Trap} (ht : s.translate s.cur.gid 1 kind regs (va s) = .error t) :
    ∃ k, (s.cur.framed = true → k = 0) ∧ exec i s = .next (((s.pass k).scrubWalk s.cur.gid (va s)).raise t) := by
  obtain ⟨k, hk, e⟩ := exec_aligned he h hva hal
  refine ⟨k, hk, ?_⟩
  rw [e, hf]
  dsimp only
  rw [hva]
  exact paged_trap k _ ht

/-- An access to a page that translates, and whose line no bank holds back, goes on there. -/
theorem exec_page {kind : AccessKind} {regs : Bool} {g : State → Place → State → Res} (hf : f = fun s => paged kind regs (va s) (g s) s)
    (hal : (va s).toNat % n = 0) {p : Place} (ht : s.translate s.cur.gid 1 kind regs (va s) = .ok p) (hh : s.lineHeld s.cur.gid p = false) :
    ∃ k, (s.cur.framed = true → k = 0) ∧ exec i s = g (s.pass k) p ((s.scrubWalk s.cur.gid (va s)).pass k) := by
  obtain ⟨k, hk, e⟩ := exec_aligned he h hva hal
  refine ⟨k, hk, ?_⟩
  rw [e, hf]
  dsimp only
  rw [hva]
  exact paged_spec k _ ht hh

end

/-- An access of the scratch window: what follows the check of its byte (R79). -/
def windowed (kind : AccessKind) (va : State → Word) (g : State → Nat → Res) (s : State) : Res :=
  match s.windowByte kind (va s) with
  | .error t => trapNow s t
  | .ok x => g s x

theorem windowed_ok {s : State} {kind : AccessKind} {va : State → Word} {x : Nat} (g : State → Nat → Res) (hw : s.windowByte kind (va s) = .ok x) :
    windowed kind va g s = g s x := by rw [windowed, hw]

theorem windowed_error {s : State} {kind : AccessKind} {va : State → Word} {t : Trap} (g : State → Nat → Res)
    (hw : s.windowByte kind (va s) = .error t) : windowed kind va g s = .next (s.raise t) := by rw [windowed, hw]; rfl

section
variable (size : BitVec 2) (sx byp : Bool) (oc : BitVec 4) (a b : Reg) (imm : BitVec 32) (s : State)

theorem exec_ld_aligning : exec (.ld size sx byp oc a b imm) s = issue (.ld size sx byp oc a b imm)
    (aligning [b] (accessAddr · b imm) (2 ^ size.toNat) fun s => paged .read true (accessAddr s b imm) (fun p t =>
      if p.mtype = 3 then loadReg oc size (accessAddr s b imm) p (fun s bs lat => finishReg s a (loadValue size sx bs) lat) t
      else loadMem oc byp (accessAddr s b imm) p (2 ^ size.toNat) (.scalar a size sx) t) s) s := rfl

theorem exec_st_aligning : exec (.st size oc a b imm) s = issue (.st size oc a b imm)
    (aligning [b, a] (accessAddr · b imm) (2 ^ size.toNat) fun s => paged .store true (accessAddr s b imm) (fun p t =>
      if p.mtype = 3 then storeReg oc size (accessAddr s b imm) p (t.cur.rs a) t
      else storeOut .write oc (accessAddr s b imm) p.addr (leBytes (2 ^ size.toNat) (t.cur.rs a).toNat) p.home t) s) s := rfl

theorem exec_lds_aligning : exec (.lds size sx oc a b imm) s = issue (.lds size sx oc a b imm)
    (aligning [b] (accessAddr · b imm) (2 ^ size.toNat) (windowed .read (accessAddr · b imm) fun s x =>
      loadOut { cls := oc, path := .scratch, va := accessAddr s b imm, addr := x, n := 2 ^ size.toNat, dest := .scalar a size sx, sent := none } s)) s := rfl

theorem exec_sts_aligning : exec (.sts size oc a b imm) s = issue (.sts size oc a b imm)
    (aligning [b, a] (accessAddr · b imm) (2 ^ size.toNat) (windowed .store (accessAddr · b imm) fun s x =>
      storeOut .write oc (accessAddr s b imm) x (leBytes (2 ^ size.toNat) (s.cur.rs a).toNat) none s)) s := rfl

theorem exec_dld_aligning (da : DReg) : exec (.dld oc da b) s = issue (.dld oc da b)
    (aligning [b] (·.cur.rs b) 32 fun s => paged .read false (s.cur.rs b) (fun p t => loadMem oc true (s.cur.rs b) p 32 (.descr da) t) s) s := rfl

end

theorem homeLatency_bound_pos (s : State) (a : Nat) : 1 ≤ (s.homeLatency a).bound := by
  have : 1 ≤ (if Config.homeMisses s.free = true then ({ typical := 340, bound := 460 } : Latency) else { typical := 110, bound := 140 }).bound := by
    split <;> decide
  exact Nat.le_trans this (Nat.le_add_left ..)

theorem loadAt_bound (s : State) (h : HeldLoad) : 1 ≤ (s.loadAt s.view h).2.2.bound := by
  obtain ⟨cls, path, va, addr, n, dest, sent⟩ := h
  cases path
  · exact Nat.le_trans (homeLatency_bound_pos _ _) (Nat.le_add_left ..)
  · exact Nat.le_trans (homeLatency_bound_pos _ _) (Nat.le_add_left ..)
  · exact (by decide : 1 ≤ 16)

theorem landsAt_sub (u : Unit) (lat : Latency) : u.landsAt lat - u.time = if u.framed then lat.bound else lat.typical := by
  rw [Unit.landsAt, Nat.add_sub_cancel_left]

/-- A load that is made at its home lands in a later cycle. -/
theorem loadAt_lands (s : State) (h : HeldLoad) (u : Unit) : 1 ≤ u.landsAt (s.loadAt s.view h).2.2 - u.time := by
  rw [landsAt_sub]
  split
  · exact loadAt_bound s h
  · exact loadAt_latency s h

theorem value_scalar (a : Reg) (size : BitVec 2) (sx : Bool) (bs : List Byte) :
    ((LoadDest.scalar a size sx).value bs).setWidth 64 = loadValue size sx bs := by
  rw [LoadDest.value, BitVec.setWidth_setWidth_of_le _ (by decide), BitVec.setWidth_eq]

theorem Decodes.seenBytes {s r : State} (hr : s.Decodes r) (a n : Nat) : r.seenBytes r.cur a n = s.seenBytes s.cur a n := by
  obtain ⟨_, _, _, _, er⟩ := hr.1
  have hc : r.cur = s.cur := by rw [er]
  rw [State.seenBytes, State.seenBytes, hc, funext (hr.plainByte s.cur.gid)]

/-- A load that may be made at its home finds no obstacle there: its bank admits it, no load of its sector is on its way by another path, no copy
answers it, and its bytes are sound (04 R79, R83, R91; 03 R59). -/
structure State.FindsHome (s : State) (h : HeldLoad) : Prop where
  may    : s.MayLoad h.cls h.addr
  sound  : s.poisonedIn? h.addr h.n = none
  bank   : h.path = .scratch → s.scratchHeld h.addr = false ∧ s.scratchTrap .read h.addr = none
  alone  : sectorPending s.cur.window h = false
  uncopied : s.cur.l1Hit h = none

theorem loadOut_home {s : State} {h : HeldLoad} (hh : s.FindsHome h) : loadOut h s =
    finishIn ((s.loadAt s.view h).1.cur.landsAt (s.loadAt s.view h).2.2 - (s.loadAt s.view h).1.cur.time) (s.loadAt s.view h).1
      ((s.loadAt s.view h).1.cur.landLoad h.dest (s.loadAt s.view h).2.1 (s.loadAt s.view h).2.2) := by
  rw [loadOut, tryLoad_home h hh.may hh.sound hh.bank hh.alone hh.uncopied]

/-- A load that would be made at its home, but for a poisoned sector. -/
theorem loadOut_poisoned {s : State} {h : HeldLoad} (hm : s.MayLoad h.cls h.addr) {k : Nat} (hp : s.poisonedIn? h.addr h.n = some k)
    (hs : h.path = .scratch → s.scratchHeld h.addr = false ∧ s.scratchTrap .read h.addr = none)
    (hq : sectorPending s.cur.window h = false) (hc : s.cur.l1Hit h = none) :
    loadOut h s = .next (s.raise (seqTrap .uncorr (h.va + BitVec.ofNat 64 k))) := by
  rw [loadOut, tryLoad_poisoned h hm hp hs hq hc]; rfl

theorem cur_pass_scrubRun (s : State) (k a n : Nat) : (s.pass k).cur = ((s.scrubRun a n).pass k).cur := by
  simp only [State.pass, scrubRun_cur]

section
variable {s r : State} (hr : s.Decodes r) (k : Nat) {h : HeldLoad} (hh : (r.pass k).FindsHome h)
include hr hh

/-- A load of a scalar register reads the bytes that the unit sees at the home. -/
theorem loadOut_scalar {a : Reg} {size : BitVec 2} {sx : Bool} (hd : h.dest = .scalar a size sx) :
    ∃ t, loadOut h (r.pass k) = .next t.tick ∧ s.SetsReg t a (loadValue size sx (s.seenBytes s.cur h.addr h.n)) ∧ s.NextWord t ∧ s.Recorded t ∧
      (r.scrubRun h.addr h.n).OnlyLoaded t := by
  obtain ⟨l1, l0, from', fr, hf⟩ := loadAt_frame (r.pass k) h
  rw [scrubRun_pass, cur_pass_scrubRun r k h.addr h.n] at hf
  have hv : ((r.pass k).loadAt (r.pass k).view h).2.1.setWidth 64 = loadValue size sx (s.seenBytes s.cur h.addr h.n) := by
    rw [loadAt_value, hd, value_scalar]
    exact congrArg _ (Decodes.seenBytes hr ..)
  rw [loadOut_home hh, hd, Unit.landLoad, hv]
  exact finish_load (hr.trans (scrubRun_decoded r h.addr h.n)) k hf a _ _ (loadAt_lands _ h _)

/-- A load of a descriptor register reads the bytes that the unit sees at the home. -/
theorem loadOut_descr {da : DReg} (hd : h.dest = .descr da) :
    ∃ t, loadOut h (r.pass k) = .next t.tick ∧
      (∀ q, t.cur.rd q = if q = da then BitVec.ofNat 256 (fromLe (s.seenBytes s.cur h.addr h.n)) else s.cur.rd q) ∧ s.KeepsRegs t ∧ s.NextWord t ∧
      s.Recorded t ∧ (r.scrubRun h.addr h.n).OnlyLoaded { t with cur := { t.cur with d := s.cur.d, dready := s.cur.dready } } := by
  obtain ⟨l1, l0, from', fr, hf⟩ := loadAt_frame (r.pass k) h
  rw [scrubRun_pass, cur_pass_scrubRun r k h.addr h.n] at hf
  have hv : ((r.pass k).loadAt (r.pass k).view h).2.1 = BitVec.ofNat 256 (fromLe (s.seenBytes s.cur h.addr h.n)) := by
    rw [loadAt_value, hd, LoadDest.value]
    exact congrArg _ (congrArg _ (Decodes.seenBytes hr ..))
  rw [loadOut_home hh, hd, Unit.landLoad, hv]
  exact finish_desc (hr.trans (scrubRun_decoded r h.addr h.n)) k hf da _ _ (loadAt_lands _ h _)

end

/-! ### The scratch window (04 R79) -/

/-- The section and the offset of a byte of section storage, read back from its address. -/
theorem sramAddr_parts (dev : Dev) {sec off : Nat} (hs : sec < 64) (ho : off < 2 ^ 24) :
    (sramAddr dev sec off - sramBase) % 2 ^ 24 = off ∧ (sramAddr dev sec off - sramBase) % 2 ^ 30 / 2 ^ 24 = sec := by
  have e : sramAddr dev sec off - sramBase = dev.toNat * 2 ^ 30 + sec * 2 ^ 24 + off := by rw [sramAddr]; omega
  rw [e]; omega

theorem windowParts_section {u : Unit} {a : Word} {sec off : Nat} (h : windowParts u a = some (sec, off)) : sec < 64 := by
  rw [windowParts] at h
  split at h
  · split at h
    · cases h; omega
    · cases h
  · cases h
    rw [gidSection, fld_eq]
    omega

theorem scratchByte_ok {s : State} {u : Unit} {q k mode sec off x} (h : s.scratchByte u q k mode sec off = .ok x) :
    off < 2 ^ 24 ∧ x = sramAddr (gidDev u.gid) sec off := by
  rw [State.scratchByte] at h
  dsimp only at h
  split at h
  · cases h
  · rename_i ho
    split at h
    · cases h
    · split at h
      · cases h
      · cases h
        exact ⟨Nat.lt_of_not_le ho, by rw [dev_num]⟩

/-- A byte whose checks succeed.  The definition is unfolded as a function: a unit's address less `sramBase` is no term to evaluate. -/
theorem scratchTrap_of_scratchByte {s : State} {k : AccessKind} {sec off x y : Nat} (hoff : (x - sramBase) % 2 ^ 24 = off)
    (hsec : (x - sramBase) % 2 ^ 30 / 2 ^ 24 = sec) (hy : s.scratchByte s.cur 1 k 1 sec off = .ok y) : s.scratchTrap k x = none := by
  obtain ⟨f, hf⟩ : ∃ f, f = State.scratchTrap := ⟨_, rfl⟩
  rw [← hf]
  delta State.scratchTrap at hf
  rw [hf]
  dsimp only
  rw [hoff, hsec, hy]

/-- A byte of the window that a bank admits now: the access finds its bank in SCRATCH mode, and its own task's (R79). -/
theorem scratchTrap_of_windowByte {s : State} {k : AccessKind} {va : Word} {x : Nat} (h : s.windowByte k va = .ok x)
    (hn : s.scratchHeld x = false) : s.scratchTrap k x = none := by
  rw [State.windowByte] at h
  split at h
  · cases h
  · rename_i sec off hp
    dsimp only at h
    split at h
    · rename_i hheld
      rw [Except.ok.inj h, hn, Bool.and_false] at hheld
      cases hheld
    · cases hy : s.scratchByte s.cur 1 k 1 sec off with
      | error t => rw [hy] at h; cases h
      | ok y =>
        rw [hy] at h
        obtain rfl := Except.ok.inj h
        obtain ⟨ho, hx⟩ := scratchByte_ok hy
        obtain ⟨hoff, hsec⟩ := sramAddr_parts (gidDev s.cur.gid) (windowParts_section hp) ho
        rw [← hx] at hoff hsec
        exact scratchTrap_of_scratchByte hoff hsec hy

/-- LDS once it has read its address, on a bank that admits it (R79, R85). -/
theorem exec_lds_window {size : BitVec 2} {sx : Bool} {oc : BitVec 4} {a b : Reg} {imm : BitVec 32} {s : State} {x : Nat}
    (h : s.Executes (.lds size sx oc a b imm) [b] []) (hal : (accessAddr s b imm).toNat % 2 ^ size.toNat = 0)
    (hw : s.windowByte .read (accessAddr s b imm) = .ok x) : ∃ k, (s.cur.framed = true → k = 0) ∧ exec (.lds size sx oc a b imm) s =
      loadOut { cls := oc, path := .scratch, va := accessAddr s b imm, addr := x, n := 2 ^ size.toNat, dest := .scalar a size sx, sent := none } (s.pass k) := by
  obtain ⟨k, hk, e⟩ := exec_aligned (exec_lds_aligning size sx oc a b imm s) h (fun _ => rfl) hal
  exact ⟨k, hk, e.trans (windowed_ok _ hw)⟩

/-! ### Loads from a page (04 R83-R85) -/

/-- LD once it has read its address, from a page of memory (R85). -/
theorem exec_ld_page {size : BitVec 2} {sx byp : Bool} {oc : BitVec 4} {a b : Reg} {imm : BitVec 32} {s : State} {p : Place}
    (h : s.Executes (.ld size sx byp oc a b imm) [b] []) (hal : (accessAddr s b imm).toNat % 2 ^ size.toNat = 0)
    (ht : s.translate s.cur.gid 1 .read true (accessAddr s b imm) = .ok p) (hm : p.mtype ≠ 3) (hh : s.lineHeld s.cur.gid p = false) :
    ∃ k, (s.cur.framed = true → k = 0) ∧ exec (.ld size sx byp oc a b imm) s =
      loadMem oc byp (accessAddr s b imm) p (2 ^ size.toNat) (.scalar a size sx) ((s.scrubWalk s.cur.gid (accessAddr s b imm)).pass k) := by
  obtain ⟨k, hk, e⟩ := exec_page (exec_ld_aligning size sx byp oc a b imm s) h (fun _ => rfl) rfl hal ht hh
  exact ⟨k, hk, e.trans (if_neg hm)⟩

theorem State.Decodes.cur {s r : State} (h : s.Decodes r) : r.cur = s.cur := by
  obtain ⟨⟨_, _, _, _, e⟩, -⟩ := h
  rw [e]

theorem State.Decodes.nextWrite {s r : State} (h : s.Decodes r) : r.nextWrite = s.nextWrite := by
  obtain ⟨⟨_, _, _, _, e⟩, -⟩ := h
  rw [e]

/-- The entry that a load whose access has not returned takes in the window. -/
def Unit.loadEntry (u : Unit) (h : HeldLoad) : WinEntry :=
  { pc := u.pc, before := u.toSeqRegs, push := none, store := none, load := some h, done := u.time + 1 }

/-- A load whose access has not returned leaves its entry in the window, and its register awaits it (06 R125). -/
theorem executeLoad_eq (s : State) (h : HeldLoad) : s.executeLoad h =
    State.tick { s with cur := { s.cur.advance.await s.cur.executed h.dest with window := s.cur.window ++ [s.cur.loadEntry h] } } := by
  rw [State.executeLoad, Unit.record, if_neg (by simp)]; rfl

theorem await_scalar (u : Unit) (n : BitVec 32) (a : Reg) (size : BitVec 2) (sx : Bool) : ∃ waits, u.await n (.scalar a size sx) = { u with waits := waits } ∧
    (a ≠ 0 → waits.any (fun w => w.2.isReg a) = true) := by
  by_cases ha : a = 0
  · exact ⟨u.waits, if_pos ha, fun h => absurd ha h⟩
  · refine ⟨_, if_neg ha, fun _ => ?_⟩
    rw [List.any_append, Bool.or_eq_true]
    exact .inr (by simp [LoadDest.isReg])

/-- Once a load of s[a] has executed and not returned: its entry stands in the window, s[a] awaits it, and nothing else is different. -/
theorem executeLoad_scalar {s r q : State} (hr : s.Decodes r) {k : Nat} {n : Nat} {l : List Access}
    (hq : q = { r.pass k with nextWrite := n, cur := { (r.pass k).cur with classQ := l } })
    {h : HeldLoad} {a : Reg} {size : BitVec 2} {sx : Bool} (hd : h.dest = .scalar a size sx) :
    ∃ t, q.executeLoad h = t.tick ∧ (s.NextWord t ∧ (∃ e, t.cur.window = s.cur.window ++ [e] ∧ e.load = some h ∧ e.before = s.cur.toSeqRegs) ∧
      (a ≠ 0 → t.cur.awaits [a] [] = true) ∧ s.KeepsRegs t ∧ ∀ g x, t.plainByte g x = s.plainByte g x) ∧ t.cur.classQ = l ∧
      State.OnlyScalars { r with nextWrite := n, cur := { r.cur with classQ := l } } t := by
  obtain ⟨waits, hw, hany⟩ := await_scalar q.cur.advance q.cur.executed a size sx
  have hc : r.cur = s.cur := hr.cur
  have hadv := advance_congr (u := s.cur) (v := q.cur) (by rw [hq, ← hc]; rfl) (by rw [hq, ← hc]; rfl) (by rw [hq, ← hc]; rfl) (by rw [hq, ← hc]; rfl)
  have hp : ∀ g x, q.plainByte g x = s.plainByte g x := fun g x => by rw [hq]; exact hr.plainByte g x
  have heq := executeLoad_eq q h
  rw [hd, hw, advance_eq] at heq
  refine ⟨_, heq, ⟨hadv, ⟨q.cur.loadEntry h, ?window, rfl, ?before⟩, fun ha => ?awaits, ?regs, hp⟩, ?queue, ?only⟩
  case window => rw [hq, ← hc]; rfl
  case before => rw [hq, ← hc]; rfl
  case awaits => simpa [Unit.awaits] using hany ha
  case regs => rw [hq]; exact fun x => rs_congr (u := s.cur) (show r.cur.s = s.cur.s by rw [hc]) x
  case queue => rw [hq]
  case only =>
    rw [hq]
    exact ⟨rfl, by simp only [State.pass]; omega, fun _ _ => rfl⟩

section
variable {s : State} {h : HeldLoad} (hf : s.cur.classFree h.cls = true) (hq : sectorPending s.cur.window h = false)
include hf hq

/-- A load from a page that no copy answers and no stopped flow bars meets a poisoned sector (R85, 03 R59). -/
theorem tryLoad_unsound (hp : h.path ≠ .scratch) (hc : s.cur.l1Hit h = none) (hl : s.linkTrap h.addr = none) {k : Nat}
    (hk : s.poisonedIn? h.addr h.n = some k) : s.tryLoad s.cur.window h = .trap (seqTrap .uncorr (h.va + BitVec.ofNat 64 k)) := by
  obtain ⟨h1, h3⟩ := class_clear hf
  simp only [State.tryLoad, h1, h3, hq, hc, hl, hk, beq_iff_eq, hp, Bool.not_true, Bool.and_false, Bool.or_false, Bool.false_eq_true, if_false]

/-- A load whose way to its home is not free sets out (16 R288). -/
theorem tryLoad_sets_out (hp : h.path ≠ .scratch) (hc : s.cur.l1Hit h = none) (hl : s.linkTrap h.addr = none)
    (hk : s.poisonedIn? h.addr h.n = none) (hn : s.reachesNow s.cur.gid h.addr = false) :
    s.tryLoad s.cur.window h = .sent (s.sendOut (.load s.nextWrite h.n) h.cls h.addr h.sect) s.nextWrite := by
  obtain ⟨h1, h3⟩ := class_clear hf
  simp [State.tryLoad, h1, h3, hq, hc, hl, hk, hp, hn]

end

/-- A load waits behind an earlier access of its class that waits in the window (06 R125). -/
theorem tryLoad_behind {s : State} {h : HeldLoad} (hw : windowFree s.cur.window h.cls = false) : s.tryLoad s.cur.window h = .wait := by
  simp [State.tryLoad, hw]

/-- An instruction that ends in a state `q`, whose unit has the registers, the PC and the window of the unit before it, and writes s[a]. -/
theorem finish_land_eq {s q : State} (hregs : q.cur.toSeqRegs = s.cur.toSeqRegs) (hpc : q.cur.pc = s.cur.pc) (hwin : q.cur.window = s.cur.window)
    (hcom : q.cur.committed = s.cur.committed) (a : Reg) (x : Word) (lands : Nat) {lat : Nat} (hl : 1 ≤ lat) :
    ∃ t, finishIn lat q (q.cur.land a x lands) = .next t.tick ∧ s.SetsReg t a x ∧ s.NextWord t ∧ s.Recorded t ∧
      t = { q with cur := { q.cur with
        s := t.cur.s, waits := t.cur.waits, ready := t.cur.ready, pc := t.cur.pc, lcount := t.cur.lcount,
        lbody := t.cur.lbody, window := t.cur.window, committed := t.cur.committed } } := by
  obtain ⟨t, hfin, hnext, hrec, ht⟩ := finish_eq q 0 (q.cur.land a x lands) hl (by rw [land_eq]) (by rw [land_eq]) (by rw [land_eq])
    (by rw [land_eq]) (by rw [land_eq]) (by rw [land_eq]) (by rw [land_eq]; rfl)
  have hadv := advance_congr (u := s.cur) (v := q.cur) hpc (congrArg SeqRegs.lcount hregs) (congrArg SeqRegs.lbody hregs)
    (congrArg SeqRegs.llimit hregs)
  refine ⟨t, hfin, fun r => ?reg, ⟨hnext.1.trans hadv.1, hnext.2.1.trans hadv.2.1, hnext.2.2.trans hadv.2.2⟩, ?recorded, ?only⟩
  case reg =>
    rw [rs_congr (v := t.cur) (u := q.cur.land a x lands) (by rw [ht]), rs_land,
      rs_congr (v := q.cur) (u := s.cur) (congrArg SeqRegs.s hregs)]
  case recorded => rwa [State.Recorded, hwin, hcom, hpc, hregs] at hrec
  case only => rw [ht, land_eq]; rfl

theorem headD_drop (l : List Byte) (n : Nat) : (l.drop n).headD 0 = l.getD n 0 := by
  rw [List.headD_eq_head?_getD, List.head?_drop, List.getD_eq_getElem?_getD]

/-- A load of s[a] that an L1 copy answers: the copy's bytes under what the unit has buffered, and no access (R83). -/
theorem loadOut_copied {s r : State} (hr : s.Decodes r) (k : Nat) {h : HeldLoad} {c : SectorCopy} (hf : (r.pass k).cur.classFree h.cls = true)
    (hq : sectorPending (r.pass k).cur.window h = false) (hc : (r.pass k).cur.l1Hit h = some c) {a : Reg} {size : BitVec 2} {sx : Bool}
    (hd : h.dest = .scalar a size sx) : ∃ t, loadOut h (r.pass k) = .next t.tick ∧
      s.SetsReg t a (loadValue size sx ((List.range h.n).map fun j => s.cur.over (fun x => c.data.getD (x % 128) 0) (h.addr + j))) ∧
      s.NextWord t ∧ s.Recorded t ∧ r.OnlyScalars { t with cur := { t.cur with l0 := s.cur.l0, readFrom := s.cur.readFrom } } := by
  obtain ⟨l0, from', htry⟩ := tryLoad_copied h c hf hq hc
  let q : State := { r.pass k with cur := { (r.pass k).cur with l0 := l0, readFrom := from' } }
  obtain ⟨t, hfin, hreg, hnext, hrec, ht⟩ := finish_land_eq (s := s) (q := q) (show r.cur.toSeqRegs = _ by rw [hr.cur]) (show r.cur.pc = _ by rw [hr.cur])
    (show r.cur.window = _ by rw [hr.cur]) (show r.cur.committed = _ by rw [hr.cur]) a
    (loadValue size sx ((List.range h.n).map fun j => s.cur.over (fun x => c.data.getD (x % 128) 0) (h.addr + j)))
    (q.cur.landsAt (.exact 8) - q.cur.time) (lat := q.cur.landsAt (.exact 8) - q.cur.time) (by rw [landsAt_sub]; split <;> decide)
  refine ⟨t, ?_, hreg, hnext, hrec, ?_⟩
  · rw [loadOut, htry, hd]
    simp only [Unit.landLoad, value_scalar, headD_drop]
    rw [show (r.pass k).cur.over = s.cur.over by simp only [State.pass, hr.cur]; rfl]
    exact hfin
  · rw [ht]
    exact ⟨by simp only [q, State.pass, hr.cur], by simp only [q, State.pass]; omega, fun _ _ => rfl⟩

theorem sectorPending_of_other {l : List WinEntry} {h : HeldLoad} (hl : ∀ e ∈ l, ∀ x, e.load = some x → x.addr / 128 ≠ h.addr / 128) :
    sectorPending l h = false := by
  rw [sectorPending, Bool.and_eq_false_iff]
  refine .inr (List.any_eq_false.mpr fun e he => ?_)
  cases hx : e.load with
  | none => simp
  | some x => simp [hl e he x hx]

theorem getD_map_range {α : Type} (f : Nat → α) (d : α) {n k : Nat} (hk : k < n) : ((List.range n).map f).getD k d = f k := by simp [hk]

/-- The copy that answers a load from a page: none where the load goes by the home (R83). -/
theorem l1Hit_of_path (u : Unit) {h : HeldLoad} {home : Bool} (hp : h.path = if home then .home else .cached) :
    u.l1Hit h = if home then none else u.l1.find? fun c => c.serves h.addr h.n := by
  rw [Unit.l1Hit, hp]
  cases home <;> rfl

/-! ### Descriptor registers (04 R93, R94) -/

/-- An instruction that ends in a state `q`, whose unit has the registers, the PC and the window of the unit before it, and writes d[a]. -/
theorem finish_landDesc_eq {s q : State} (hregs : q.cur.toSeqRegs = s.cur.toSeqRegs) (hpc : q.cur.pc = s.cur.pc) (hwin : q.cur.window = s.cur.window)
    (hcom : q.cur.committed = s.cur.committed) (a : DReg) (x : Desc) (lands : Nat) {lat : Nat} (hl : 1 ≤ lat) :
    ∃ t, finishIn lat q (q.cur.landDesc a x lands) = .next t.tick ∧ (∀ r, t.cur.rd r = if r = a then x else s.cur.rd r) ∧ s.KeepsRegs t ∧
      s.NextWord t ∧ s.Recorded t ∧ t = { q with cur := { q.cur with
        d := t.cur.d, waits := t.cur.waits, dready := t.cur.dready, pc := t.cur.pc, lcount := t.cur.lcount, lbody := t.cur.lbody,
        window := t.cur.window, committed := t.cur.committed } } := by
  obtain ⟨t, hfin, hnext, hrec, ht⟩ := finish_eq q 0 (q.cur.landDesc a x lands) hl rfl rfl rfl rfl rfl rfl rfl
  have hadv := advance_congr (u := s.cur) (v := q.cur) hpc (congrArg SeqRegs.lcount hregs) (congrArg SeqRegs.lbody hregs)
    (congrArg SeqRegs.llimit hregs)
  have hd : q.cur.d = s.cur.d := congrArg SeqRegs.d hregs
  refine ⟨t, hfin, fun r => ?desc, fun r => ?reg, ⟨hnext.1.trans hadv.1, hnext.2.1.trans hadv.2.1, hnext.2.2.trans hadv.2.2⟩, ?recorded, ?only⟩
  case desc =>
    have h1 : t.cur.rd r = (q.cur.landDesc a x lands).rd r := by rw [ht]; rfl
    rw [h1, rd_landDesc, Unit.rd, hd]; rfl
  case reg =>
    have h1 : t.cur.s = q.cur.s := by rw [ht]; rfl
    exact rs_congr (h1.trans (congrArg SeqRegs.s hregs)) r
  case recorded => rwa [State.Recorded, hwin, hcom, hpc, hregs] at hrec
  case only => rw [ht]; rfl

/-- A bit of the descriptor that 32 bytes make (04 R94). -/
theorem descriptor_bit {bs : List Byte} {byte : Nat → Byte} (hb : ∀ k, k < 32 → bs.getD k 0 = byte k) {k : Nat} (hk : k < 256) :
    (BitVec.ofNat 256 (fromLe bs)).getLsbD k = (byte (k / 8)).getLsbD (k % 8) := by
  rw [BitVec.getLsbD_ofNat, fromLe_testBit, hb _ (by omega)]
  simp [hk]

/-! ### Stores (04 R85, 06 R125) -/

/-- A byte that a page maps is one of device memory (03 R60, R61). -/
theorem addrOf_lt (s : State) (d : Device) (pa : Nat) : s.addrOf d pa < sramBase := by
  have hdev : (s.target d pa).toNat < 64 := (s.target d pa).isLt
  rw [State.addrOf, canonAddr]
  generalize (s.target d pa).toNat = n at hdev
  rw [sramBase]
  dsimp only
  split <;> omega

theorem translate_addr_lt {s : State} {g : Gid} {q k regs va} {p : Place} (h : s.translate g q k regs va = .ok p) : p.addr < sramBase := by
  cases hl : s.lookup g va with
  | error e => cases e <;> simp [State.translate, hl] at h
  | ok m =>
    rw [translate_of_mapping q k regs hl] at h
    split at h
    · cases h
    · split at h
      · cases h
      · cases h; exact addrOf_lt ..

theorem windowByte_ge {s : State} {k : AccessKind} {va : Word} {x : Nat} (h : s.windowByte k va = .ok x) : sramBase ≤ x := by
  rw [State.windowByte] at h
  split at h
  · cases h
  · rename_i sec off hp
    dsimp only at h
    split at h
    · rw [← Except.ok.inj h, sramAddr, Nat.add_assoc, Nat.add_assoc]; exact Nat.le_add_right ..
    · cases hy : s.scratchByte s.cur 1 k 1 sec off with
      | error t => rw [hy] at h; cases h
      | ok y =>
        rw [hy] at h
        rw [← Except.ok.inj h, (scratchByte_ok hy).2, sramAddr, Nat.add_assoc, Nat.add_assoc]
        exact Nat.le_add_right ..

theorem scrub_cur_with (s : State) (u : Unit) (k : Nat) : ({ s with cur := u } : State).scrub k = { s.scrub k with cur := u } := by
  rw [State.scrub, State.scrub]
  by_cases h : (!(s.latent.any fun e => e.1 == k)) = true
  · rw [if_pos h, if_pos (by exact h)]
  · rw [if_neg h, if_neg (by exact h)]
    show (match decodeSector k (s.badSymbols k) with | .corrected => _ | .poisoned => _ | .miscorrected data => _) = _
    dsimp only
    cases decodeSector k (s.badSymbols k) <;> rfl

/-- Decoding a run does not depend on the unit whose turn it is. -/
theorem scrubRun_cur_with (s : State) (u : Unit) (a n : Nat) : ({ s with cur := u } : State).scrubRun a n = { s.scrubRun a n with cur := u } := by
  have all (l : List Nat) : ∀ s : State, l.foldl State.scrub { s with cur := u } = { l.foldl State.scrub s with cur := u } := by
    induction l with
    | nil => exact fun _ => rfl
    | cons j l ih => intro s; rw [List.foldl_cons, List.foldl_cons, scrub_cur_with, ih]
  rw [State.scrubRun, State.scrubRun]
  by_cases h : (s.latent.isEmpty || n == 0) = true
  · rw [if_pos h, if_pos (by exact h)]
  · rw [if_neg h, if_neg (by exact h)]; exact all _ s

theorem scrub_erring (s : State) (k : Nat) : ((s.scrub k).latent.any fun e => e.1 == k) = false := by
  obtain ⟨_, _, _, _, e, -, hl, -⟩ := scrub_frame s k
  rw [e, List.any_eq_false]
  intro x hx
  rw [hl] at hx
  simpa using (List.mem_filter.mp hx).2

/-- A sector that a read has decoded holds no errors any more. -/
theorem scrubAll_erring (l : List Nat) (s : State) {k : Nat} (hk : k ∈ l) : ((l.foldl State.scrub s).latent.any fun e => e.1 == k) = false := by
  induction l generalizing s with
  | nil => cases hk
  | cons j l ih =>
    by_cases hl : k ∈ l
    · exact ih (s.scrub j) hl
    · obtain rfl : k = j := (List.mem_cons.mp hk).resolve_right hl
      have hj := scrub_erring s k
      rw [List.any_eq_false] at hj ⊢
      exact fun e he => hj e ((scrubAll_decoded l (s.scrub k)).2.2.2.2.2 e he)

theorem scrubRun_erring (s : State) (a n b : Nat) (hb : b < n) : (s.scrubRun a n).erring (a + b) = false := by
  rw [State.scrubRun]
  split
  · rename_i h
    have hl : s.latent = [] := by
      rcases Bool.or_eq_true_iff.mp h with h | h
      · exact List.isEmpty_iff.mp h
      · have : n = 0 := by simpa using h
        omega
    rw [State.erring, hl]; rfl
  · refine scrubAll_erring _ s (List.mem_map.mpr ⟨(a + b) / 128 - a / 128, List.mem_range.mpr ?_, ?_⟩) <;> omega

/-- A write of less than a sector clears no poison: the home reads the sectors that it reaches (03 R57-R59). -/
theorem clearPoison_narrow (s : State) (a n : Nat) (hn : n < 128) : s.clearPoison a n = s.scrubRun a n := by
  have hno (x : Nat) : (!(decide (a ≤ 128 * x) && decide (128 * x + 128 ≤ a + n))) = true := by simp; omega
  have hpoison : (s.poison.filter fun x => !(decide (a ≤ 128 * x) && decide (128 * x + 128 ≤ a + n))) = s.poison :=
    List.filter_eq_self.mpr fun x _ => hno x
  have hlatent : (s.latent.filter fun e => !(decide (a ≤ 128 * e.1) && decide (128 * e.1 + 128 ≤ a + n))) = s.latent :=
    List.filter_eq_self.mpr fun e _ => hno e.1
  rw [State.clearPoison]
  dsimp only
  rw [hpoison, hlatent]

/-- Outside every buffered region of an unreplicated task, no access of the sequencer is buffered. -/
theorem buffers_false {u : Unit} (hb : u.buffering = false) {x : Access} (hx : x.command = none) : u.buffers x = false := by
  obtain ⟨hl, hr⟩ := buffering_false hb
  rw [Unit.buffers, Unit.depthOf, hx]
  dsimp only
  rw [Unit.bufferedAt, List.take_length, hr]
  simp; omega

theorem sign_unbuffered {u : Unit} (hb : u.buffering = false) (q : BitVec 3) (recs : List (List Byte)) :
    ∃ lanes, u.sign q recs = { u with lanes := lanes } := by
  obtain ⟨-, hr⟩ := buffering_false hb
  exact ⟨_, by rw [Unit.sign, Unit.signAt, Unit.bufferedAt, List.take_length, hr]; exact if_neg Bool.false_ne_true⟩

/-- A scalar store of a few bytes that leaves at once is in memory, once the stack has decoded the sector that it is merged into. -/
theorem put_now {s : State} {cls : BitVec 4} {addr : Nat} {data : List Byte} {sect : Option Nat} (hm : s.MayStore cls addr) (hn : data.length < 128) :
    ∃ sailing, s.put (scalarAccess s.cur.gid .write cls addr data sect) = { s.scrubRun addr data.length with
      mem := (s.scrubRun addr data.length).mem.write addr data, cur := { s.cur with sailing := sailing } } := by
  obtain ⟨sailing, he⟩ := emit_now (scalarAccess s.cur.gid .write cls addr data sect) rfl rfl rfl rfl rfl hm
  refine ⟨sailing, ?_⟩
  rw [State.put, if_neg (by rw [buffers_false hm.plain rfl]; exact Bool.false_ne_true), he]
  simp only [scalarAccess, clearPoison_narrow _ _ _ hn, scrubRun_cur_with]

theorem linkTrap_congr {s t : State} (hd : t.devs = s.devs) (hg : t.cur.gid = s.cur.gid) (a : Nat) : t.linkTrap a = s.linkTrap a := by
  rw [State.linkTrap, State.linkTrap, flowFails_congr hd, hg]

/-- Whether writes go out at once depends on the devices, the flows, what is pending, and the unit's class queues and buffering. -/
theorem mayStore_congr {s t : State} {cls : BitVec 4} {a : Nat} (hd : t.devs = s.devs) (hf : t.flows = s.flows) (hp : t.prompt = s.prompt)
    (hn : t.pend = s.pend) (hg : t.cur.gid = s.cur.gid) (hq : t.cur.classQ = s.cur.classQ) (hb : t.cur.buffering = s.cur.buffering)
    (h : s.MayStore cls a) : t.MayStore cls a := by
  refine ⟨hb.trans h.plain, ?now, hq ▸ h.free, hn.trans h.none, (linkTrap_congr hd hg a).trans h.flow⟩
  rw [← h.now, State.reachesNow, State.reachesNow, State.dev, State.dev, hd, hf, hp, hg]

/-- The unit with its PC and loop registers moved on, written out. -/
def Unit.advanced (u : Unit) : Unit := { u with pc := u.advance.pc, lcount := u.advance.lcount, lbody := u.advance.lbody }

theorem bufferFits_unbuffered {s : State} (hb : s.cur.buffering = false) {x : Access} (hx : x.command = none) : s.bufferFits [x] = true := by
  simp [State.bufferFits, buffers_false hb hx]

section
variable {s r : State} (hr : s.Decodes r) (k : Nat) {cls : BitVec 4} {va : Word} {addr n : Nat} {a : Reg} {sect : Option Nat}
include hr

/-- A store behind an instruction that has not committed, or of a bank that changes its mode, waits in the window (06 R125, R91). -/
theorem storeOut_held (hwait : s.cur.window ≠ [] ∨ (sramBase ≤ addr ∧ s.scratchHeld addr = true)) :
    ∃ t, storeOut .write cls va addr (leBytes n (s.cur.rs a).toNat) sect (r.pass k) = .next t.tick ∧
      (∃ e recs, t.cur.window = s.cur.window ++ [e] ∧ e.pc = s.cur.pc ∧ e.before = s.cur.toSeqRegs ∧ e.push = none ∧ e.load = none ∧
        e.store = some (scalarAccess s.cur.gid .write cls addr (leBytes n (s.cur.rs a).toNat) sect, recs)) ∧
      s.KeepsRegs t ∧ s.NextWord t ∧ r.OnlyScalars t := by
  have hbank : r.scratchHeld addr = s.scratchHeld addr := by rw [State.scratchHeld, State.scratchHeld, (hr.2.1 _).bank]
  obtain ⟨devs, mem, poison, latent, rfl⟩ := hr.1
  let r : State := { s with devs := devs, mem := mem, poison := poison, latent := latent }
  let x : Access × List (List Byte) := (scalarAccess s.cur.gid .write cls addr (leBytes n (s.cur.rs a).toNat) sect,
    storeRecords va cls (leBytes n (s.cur.rs a).toNat))
  have hlate : (r.pass k).storeNow (some x) = false := by
    show (s.cur.window.isEmpty && (r.pass k).bufferFits [x.1] && (decide (addr < sramBase) || !r.scratchHeld addr)) = false
    rcases hwait with hw | ⟨hge, hheld⟩
    · rw [List.isEmpty_eq_false_iff.mpr hw, Bool.false_and, Bool.false_and]
    · rw [hbank, hheld, decide_eq_false (Nat.not_lt.mpr hge), Bool.not_true, Bool.or_self, Bool.and_false]
  have hexec := execute_held r k ((r.pass k).cur.advanced) x hlate
  exact ⟨_, congrArg Host.Outcome.next ((congrArg (fun u => (r.pass k).execute u (some x) 1) (advance_eq _)).trans hexec),
    ⟨{ pc := s.cur.pc, before := s.cur.toSeqRegs, push := none, store := some x, load := none, done := s.cur.time + k + 2 }, x.2, rfl, rfl, rfl, rfl, rfl,
      rfl⟩, fun _ => rfl,
    advance_congr (u := s.cur) (v := (r.pass k).cur) rfl rfl rfl rfl, rfl,
    show s.clock + k + s.cur.time = s.clock + (s.cur.time + k) by omega, fun _ _ => rfl⟩

end

/-- A store that nothing holds back: its bytes are in memory, its records in their lane, and its class performs in a later cycle. -/
theorem execute_store_now {s : State} (k : Nat) {cls : BitVec 4} {addr : Nat} {data : List Byte} {sect : Option Nat} {recs : List (List Byte)}
    (hw : s.cur.window = []) (hm : s.MayStore cls addr) (hn : data.length < 128) (hbank : addr < sramBase ∨ s.scratchHeld addr = false) :
    ∃ lanes sailing, (s.pass k).execute (s.pass k).cur.advance (some (scalarAccess s.cur.gid .write cls addr data sect, recs)) 1 =
      State.tick { (s.scrubRun addr data.length).pass k with
        mem := (s.scrubRun addr data.length).mem.write addr data
        cur := { (s.pass k).cur.advanced with committed := s.cur.committed + 1, lanes := lanes, sailing := sailing } } := by
  have hnow : (s.pass k).storeNow (some (scalarAccess s.cur.gid .write cls addr data sect, recs)) = true := by
    show (s.cur.window.isEmpty && (s.pass k).bufferFits [scalarAccess s.cur.gid .write cls addr data sect] &&
      (decide (addr < sramBase) || !s.scratchHeld addr)) = true
    rw [hw, bufferFits_unbuffered (s := s.pass k) hm.plain rfl]
    simpa using hbank
  obtain ⟨lanes, hsign⟩ := sign_unbuffered (u := { (s.pass k).cur.advanced with committed := s.cur.committed + 1 }) hm.plain 1 recs
  obtain ⟨sailing, hput⟩ := put_now (s := { s.pass k with cur := { (s.pass k).cur.advanced with committed := s.cur.committed + 1, lanes := lanes } })
    (data := data) (sect := sect) (cls := cls) (addr := addr) (mayStore_congr (s := s) rfl rfl rfl rfl rfl rfl rfl hm) hn
  refine ⟨lanes, sailing, ?_⟩
  rw [show (s.pass k).cur.advance = (s.pass k).cur.advanced from advance_eq _, execute_store s k _ _ hw hnow]
  dsimp only
  rw [show ({ (s.pass k).cur.advanced with committed := (s.pass k).cur.advanced.committed + 1 } : Unit).sign 1 recs = _ from hsign]
  refine congrArg State.tick (hput.trans ?_)
  rw [scrubRun_cur_with, scrubRun_pass];  rfl

/-- A write of a scalar register's bytes, in a machine `r` that has decoded what it reaches. -/
theorem stores_of_decoded {s r t : State} (hr : s.Decodes r) {a n : Nat} {x : Word} (he : ∀ b, b < n → r.erring (a + b) = false)
    (hs : s.pend = []) (ht : t.pend = []) (hl : t.latent = r.latent) (hm : t.mem = r.mem.write a (leBytes n x.toNat)) (hd : t.devs = r.devs) :
    s.Stores t a n x := by
  obtain ⟨_, _, _, _, e⟩ := hr.1
  have hw : r.Stores t a n x := stores_write (by rw [e]; exact hs) ht hl hm (unlisted_congr fun m => by rw [State.dev, State.dev, hd]) he
  intro g j
  rw [hw g j, hr.plainByte]

/-- A store that nothing holds back stands in memory, and nothing else of it changes (06 R125). -/
theorem storeOut_now {s r : State} (hr : s.Decodes r) (k : Nat) {cls : BitVec 4} {va : Word} {addr n : Nat} {a : Reg} {sect : Option Nat}
    (hw : s.cur.window = []) (hm : s.MayStore cls addr) (hn : n < 128) (hbank : addr < sramBase ∨ s.scratchHeld addr = false) :
    ∃ t, storeOut .write cls va addr (leBytes n (s.cur.rs a).toNat) sect (r.pass k) = .next t.tick ∧
      s.Stores t addr n (s.cur.rs a) ∧ s.KeepsRegs t ∧ s.NextWord t ∧ s.Recorded t ∧ (r.scrubRun addr n).OnlyScalars { t with
        mem := (r.scrubRun addr n).mem, cur := { t.cur with lanes := s.cur.lanes, heldSigs := s.cur.heldSigs, sailing := s.cur.sailing } } := by
  have hcur : r.cur = s.cur := hr.cur
  have hheld : r.scratchHeld addr = s.scratchHeld addr := by rw [State.scratchHeld, State.scratchHeld, (hr.2.1 _).bank]
  obtain ⟨lanes, sailing, hexec⟩ := execute_store_now (s := r) k (cls := cls) (addr := addr) (data := leBytes n (s.cur.rs a).toNat) (sect := sect)
    (recs := storeRecords va cls (leBytes n (s.cur.rs a).toNat)) (hcur ▸ hw) (hm.decodes hr) (by rw [leBytes_length]; exact hn) (hheld ▸ hbank)
  rw [leBytes_length] at hexec
  have hpass : (r.pass k).cur = (s.pass k).cur := congrArg (fun u : Unit => { u with time := u.time + k, justGiven := if k = 0 then u.justGiven else [] }) hcur
  rw [hpass, hcur] at hexec
  have hdec : s.Decodes (r.scrubRun addr n) := hr.trans (scrubRun_decoded r addr n)
  have herr : ∀ b, b < n → (r.scrubRun addr n).erring (addr + b) = false := scrubRun_erring r addr n
  generalize r.scrubRun addr n = r' at hexec hdec herr ⊢
  have hout : storeOut .write cls va addr (leBytes n (s.cur.rs a).toNat) sect (r.pass k) = .next ((r.pass k).execute (s.pass k).cur.advance
      (some (scalarAccess s.cur.gid .write cls addr (leBytes n (s.cur.rs a).toNat) sect, storeRecords va cls (leBytes n (s.cur.rs a).toNat))) 1) := by
    rw [storeOut, hpass]; rfl
  have hadv : (s.pass k).cur.advance.pc = _ ∧ _ := advance_congr (u := s.cur) (v := (s.pass k).cur) rfl rfl rfl rfl
  obtain ⟨_, _, _, _, rfl⟩ := hdec.1
  exact ⟨_, hout.trans (congrArg Host.Outcome.next hexec), stores_of_decoded hdec herr hm.none hm.none rfl rfl rfl, fun _ => rfl, hadv,
    .inl ⟨hw, hw, rfl⟩, rfl, show s.clock + k + s.cur.time = s.clock + (s.cur.time + k) by omega, fun _ _ => rfl⟩

theorem size_lt (size : BitVec 2) : 2 ^ size.toNat < 128 :=
  Nat.lt_of_le_of_lt (Nat.pow_le_pow_right (by decide) (show size.toNat ≤ 3 by omega)) (by decide)

/-! ### Fences (04 R86) -/

/-- A sequencer that waits lets cycles pass: none but the present one, or those in which nothing can come about. -/
theorem stall_waits (s : State) : ∃ n, stall s = .next (s.pass n).tick := by
  by_cases hp : s.prompt = true
  · exact ⟨s.slack, congrArg Host.Outcome.next (if_pos hp)⟩
  · exact ⟨0, congrArg Host.Outcome.next (if_neg hp)⟩

/-- A meeting point whose condition does not hold waits. -/
theorem meeting_waits {s : State} (hb : s.cur.buffering = false) (i : Instr) (recs : List (List Byte)) (ready : State → Bool) (f : State → Res)
    (hr : ready s = false) : unbuffered i (meeting recs ready f) s = stall s := by
  obtain ⟨hl, hreg⟩ := buffering_false hb
  have hlive : ¬ (decide (1 < s.cur.live) && s.cur.met && s.cur.waitingAt == 1) = true := by
    simp only [Bool.and_eq_true, decide_eq_true_eq]; omega
  rw [unbuffered, hreg, if_neg Bool.false_ne_true, meeting, State.meetFor]
  dsimp only
  rw [if_neg hlive, hr, Bool.not_false, if_pos rfl]
  simp

/-- What a FENCE that goes on leaves of the unit: an acquire takes writes on, a release is carried from now on. -/
def fenceUnit (sem : BitVec 2) (scope : BitVec 3) (mask : BitVec 16) (s : State) : Unit :=
  let u := if sem.getLsbD 0 then s.acquireRead scope.toNat mask else s.cur
  if sem.getLsbD 1 then { u with carrier := some (scope, mask) } else u

theorem linked_none {mask : BitVec 16} {s : State} (h : s.cur.lostIn mask = none) (f : State → Res) : linked mask f s = f s := by rw [linked, h]

section
variable {sem : BitVec 2} {scope : BitVec 3} {mask : BitVec 16} {s : State} (h : s.Executes (.fence sem scope mask) [] []) (hc : s.AtCommit)
  (hl : s.cur.lostIn mask = none)
include h hc hl

/-- A FENCE that releases meets, when what it waits for has performed (R86, 20 R360). -/
theorem exec_fence_release (hrel : sem.getLsbD 1 = true) : exec (.fence sem scope mask) s = unbuffered (.fence sem scope mask)
    (meeting [] (fun s => s.performed s.cur mask scope.toNat) fun s => finish s (fenceUnit sem scope mask s)) s := by
  rw [exec_fence]
  exact (issue_atCommit h hc _).trans ((linked_none hl _).trans (congrFun (if_pos hrel) s))

theorem exec_fence_plain (hrel : sem.getLsbD 1 = false) : exec (.fence sem scope mask) s =
    if s.performed s.cur mask scope.toNat then finish s (fenceUnit sem scope mask s) else stall s := by
  rw [exec_fence]
  exact (issue_atCommit h hc _).trans ((linked_none hl _).trans (congrFun (if_neg (by rw [hrel]; exact Bool.false_ne_true)) s))

end

theorem acquireRead_eq (s : State) (scope : Nat) (mask : BitVec 16) : ∃ known readFrom, s.acquireRead scope mask = { s.cur with
    known := known, readFrom := readFrom } ∧ ∀ k ∈ s.cur.known, k ∈ known :=
  ⟨(s.acquireRead scope mask).known, (s.acquireRead scope mask).readFrom, rfl, fun k hk => by simp [State.acquireRead, hk]⟩

theorem fenceUnit_eq (sem : BitVec 2) (scope : BitVec 3) (mask : BitVec 16) (s : State) : ∃ known readFrom, fenceUnit sem scope mask s = { s.cur with
      known := known, readFrom := readFrom, carrier := if sem.getLsbD 1 then some (scope, mask) else s.cur.carrier } ∧
    (sem.getLsbD 0 = false → known = s.cur.known ∧ readFrom = s.cur.readFrom) ∧ ∀ k ∈ s.cur.known, k ∈ known := by
  obtain ⟨known, readFrom, ha, hk⟩ := acquireRead_eq s scope.toNat mask
  rw [fenceUnit, ha]
  by_cases hacq : sem.getLsbD 0 = true
  · refine ⟨known, readFrom, ?_, fun h => absurd (hacq.symm.trans h) Bool.noConfusion, hk⟩
    rw [hacq]
    cases sem.getLsbD 1 <;> rfl
  · refine ⟨s.cur.known, s.cur.readFrom, ?_, fun _ => ⟨rfl, rfl⟩, fun _ h => h⟩
    rw [Bool.eq_false_iff.mpr hacq]
    cases sem.getLsbD 1 <;> rfl

/-- The unit `u` differs from the unit of `s` as a meeting leaves it (20 R361). -/
def State.MetAs (s : State) (u : Unit) : Prop := u = { s.cur with
  lanes := u.lanes, lastSigs := u.lastSigs, meeting := u.meeting, presented := u.presented, unsigned := u.unsigned, relBuf := u.relBuf }

/-- What a FENCE does that goes on, with the unit that its meeting leaves. -/
theorem finish_fence (s : State) (sem : BitVec 2) (scope : BitVec 3) (mask : BitVec 16) {u : Unit} (hu : s.MetAs u) :
    ∃ t, finish { s with cur := u } (fenceUnit sem scope mask { s with cur := u }) = .next t.tick ∧ s.KeepsRegs t ∧ s.NextWord t ∧ s.Recorded t ∧
      t.cur.carrier = (if sem.getLsbD 1 then some (scope, mask) else s.cur.carrier) ∧
      (sem.getLsbD 0 = false → t.cur.known = s.cur.known ∧ t.cur.readFrom = s.cur.readFrom) ∧ (∀ k ∈ s.cur.known, k ∈ t.cur.known) ∧
      (t.cur.lanes = u.lanes ∧ t.cur.meeting = u.meeting ∧ t.cur.lastSigs = u.lastSigs) ∧
      s.OnlyMet { t with cur := { t.cur with carrier := s.cur.carrier, known := s.cur.known, readFrom := s.cur.readFrom } } := by
  obtain ⟨known, readFrom, hf, hacq, hkept⟩ := fenceUnit_eq sem scope mask { s with cur := u }
  rw [hf]
  rw [State.MetAs] at hu
  obtain ⟨t, hfin, hnext, hrec, ht⟩ := finish_eq { s with cur := u } 0 { u with
    known := known, readFrom := readFrom, carrier := if sem.getLsbD 1 then some (scope, mask) else u.carrier } (Nat.le_refl 1)
    rfl rfl rfl rfl rfl rfl rfl
  dsimp only at hacq hkept
  generalize u.lanes = L, u.lastSigs = G, u.meeting = M, u.presented = P, u.unsigned = V, u.relBuf = B at hu ⊢
  subst hu
  have hadv := advance_congr (u := s.cur) (v := { s.cur with lanes := L, lastSigs := G, meeting := M, presented := P, unsigned := V, relBuf := B })
    rfl rfl rfl rfl
  refine ⟨t, hfin, fun r => rs_congr (u := s.cur) ?regs r, ⟨hnext.1.trans hadv.1, hnext.2.1.trans hadv.2.1, hnext.2.2.trans hadv.2.2⟩, hrec, ?carrier,
    fun h => ?known, ?kept, ?met, ?only⟩
  case regs => rw [ht]
  case carrier => rw [ht]
  case known => rw [ht]; exact hacq h
  case kept => rw [ht]; exact hkept
  case met => rw [ht]; exact ⟨rfl, rfl, rfl⟩
  case only => 
    rw [ht]
    exact ⟨rfl, by simp only; omega, fun _ _ => rfl⟩

/-! ### The L1 (04 R87, R88) -/

/-- The lines that a range of an L1INV reaches (R87). -/
def rangeLines (va n : Nat) : Nat := if n = 0 then 0 else (va + n - 1) / 256 - va / 256 + 1

/-- The unit once an L1INV has discarded its copies (R87). -/
def State.invalidated (s : State) (va n : Nat) : Unit :=
  if n = 0 then s.cur
  else if 512 < rangeLines va n then { s.cur with l1 := [], l0 := [] }
  else { s.cur with l1 := s.cur.l1.filter fun x => !(s.rangeSectors va n).contains x.sector
                    l0 := s.cur.l0.filter fun x => !(s.rangeSectors va n).contains x.sector }

theorem exec_l1inv_eq (b c : Reg) (s : State) : exec (.l1inv b c) s = issue (.l1inv b c) (reading [b, c] [] (atCommit fun s =>
    finish s ((s.invalidated (s.cur.rs b).toNat (s.cur.rs c).toNat).busyFor (4 + min 512 (rangeLines (s.cur.rs b).toNat (s.cur.rs c).toNat))))) s := rfl

/-- A sector that the range reaches, by a page that translates, is one of those to discard. -/
theorem mem_rangeSectors {s : State} {va n q : Nat} {m : Mapping} (hlo : va / 128 ≤ q) (hhi : q ≤ (va + n - 1) / 128)
    (hm : s.lookup s.cur.gid (BitVec.ofNat 64 (128 * q)) = .ok m) :
    s.addrOf s.myDev (m.pa (BitVec.ofNat 64 (128 * q))) / 128 ∈ s.rangeSectors va n := by
  rw [State.rangeSectors, List.mem_filterMap]
  refine ⟨q - va / 128, List.mem_range.mpr (by omega), ?_⟩
  dsimp only
  rw [Nat.add_sub_cancel' hlo, hm]

/-- What an L1INV leaves: copies that the unit had, and none of a sector that the range reaches. -/
theorem invalidated_eq (s : State) (va n : Nat) : ∃ l1 l0, s.invalidated va n = { s.cur with l1 := l1, l0 := l0 } ∧
    (∀ x ∈ l1, x ∈ s.cur.l1) ∧ (∀ x ∈ l0, x ∈ s.cur.l0) ∧ ∀ x, x ∈ l1 ∨ x ∈ l0 → 0 < n → x.sector ∉ s.rangeSectors va n := by
  rw [State.invalidated]
  split
  · rename_i h0
    exact ⟨s.cur.l1, s.cur.l0, rfl, fun _ h => h, fun _ h => h, fun _ _ hn => absurd h0 (Nat.pos_iff_ne_zero.mp hn)⟩
  · split
    · exact ⟨[], [], rfl, fun _ h => (nomatch h), fun _ h => (nomatch h), fun _ h => (nomatch h)⟩
    · refine ⟨_, _, rfl, fun x hx => (List.mem_filter.mp hx).1, fun x hx => (List.mem_filter.mp hx).1, fun x hx _ => ?_⟩
      have hkept : (!(s.rangeSectors va n).contains x.sector) = true := hx.elim (fun h => (List.mem_filter.mp h).2) fun h => (List.mem_filter.mp h).2
      simpa using hkept

/-- What prefetches of a class do to a machine: sectors are decoded, copies of what the homes show join the L1, and what cannot be fetched at once
enters the class queue (R88). -/
structure State.Prefetches (cls : BitVec 4) (s t : State) : Prop where
  frame : ∃ devs mem poison latent num l1 q, t = { s with
    devs := devs, mem := mem, poison := poison, latent := latent, nextWrite := num, cur := { s.cur with l1 := l1, classQ := q } }
  bytes : ∀ g a, t.plainByte g a = s.plainByte g a
  copies : ∀ x ∈ t.cur.l1, x ∈ s.cur.l1 ∨ x.data = s.plainBytes s.cur.gid (128 * x.sector) 128
  queued : ∃ l, t.cur.classQ = s.cur.classQ ++ l ∧ ∀ x ∈ l, x.cls = cls ∧ x.data = [] ∧ ∃ fills, x.want = .prefetch fills

namespace State.Prefetches
variable {cls : BitVec 4} {s t r : State}

theorem of_decodes (h : s.Decodes t) : State.Prefetches cls s t := by
  obtain ⟨devs, mem, poison, latent, e⟩ := h.1
  exact ⟨⟨devs, mem, poison, latent, s.nextWrite, s.cur.l1, s.cur.classQ, e⟩, h.plainByte, fun x hx => .inl (by rw [e] at hx; exact hx),
    [], by rw [e, List.append_nil], fun _ h => (nomatch h)⟩

theorem trans (h : State.Prefetches cls s t) (h' : State.Prefetches cls t r) : State.Prefetches cls s r := by
  obtain ⟨⟨_, _, _, _, _, _, _, e⟩, hb, hc, l, hl, hq⟩ := h
  obtain ⟨⟨_, _, _, _, _, _, _, e'⟩, hb', hc', l', hl', hq'⟩ := h'
  have hgid : t.cur.gid = s.cur.gid := by rw [e]
  refine ⟨⟨_, _, _, _, _, _, _, by rw [e', e]⟩, fun g a => (hb' g a).trans (hb g a), fun x hx => ?copies, l ++ l', ?_, fun x hx => ?queued⟩
  case copies =>
    refine (hc' x hx).elim (hc x) fun hdata => .inr (hdata.trans ?_)
    rw [State.plainBytes, State.plainBytes, hgid, funext (hb s.cur.gid)]
  case queued => exact (List.mem_append.mp hx).elim (hq x) (hq' x)
  rw [hl', hl, List.append_assoc]

/-- A prefetch that cannot be made at once enters the class queue. -/
theorem sendOut (s : State) (cls : BitVec 4) (fills : Bool) (addr : Nat) (sect : Option Nat) :
    State.Prefetches cls s (s.sendOut (.prefetch fills) cls addr sect) :=
  ⟨⟨_, _, _, _, _, _, _, rfl⟩, fun _ _ => rfl, fun _ hx => .inl hx, _, rfl, fun x hx => by
    obtain rfl := List.mem_singleton.mp hx
    exact ⟨rfl, rfl, fills, rfl⟩⟩

end State.Prefetches

theorem mem_installCopy {limit : Nat} {l : List SectorCopy} {c x : SectorCopy} (h : x ∈ installCopy limit l c) : x ∈ l ∨ x = c := by
  rw [installCopy] at h
  split at h
  · exact .inl h
  · refine (List.mem_append.mp h).imp (fun hx => ?_) List.mem_singleton.mp
    split at hx
    · exact List.mem_of_mem_drop hx
    · exact hx

/-- The copy of a sector by the default path is the L1's, or one of what the home shows. -/
theorem copyOf_some {s : State} {k : Nat} {c : SectorCopy} (h : s.copyOf k = some c) :
    c ∈ s.cur.l1 ∨ c.data = s.plainBytes s.cur.gid (128 * c.sector) 128 := by
  rw [State.copyOf, Option.map_eq_some_iff] at h
  obtain ⟨d, hd, rfl⟩ := h
  cases hf : s.cur.l1.find? fun c => c.sector == k with
  | some c => exact .inl (List.mem_of_find?_eq_some hf)
  | none =>
    refine .inr ?_
    rw [State.freshCopy] at hd
    split at hd
    · cases hd
    · cases hd; rfl

theorem prefetched_prefetches (s : State) (cls : BitVec 4) (k : Nat) (fills : Bool) : State.Prefetches cls s (s.prefetched k fills) := by
  refine (State.Prefetches.of_decodes (scrub_decoded s k)).trans ?_
  rw [State.prefetched]
  generalize s.scrub k = t
  split
  · rename_i c hc
    have hcopy : t.copyOf k = some c := by
      cases fills
      · cases hc
      · exact hc
    refine ⟨⟨_, _, _, _, _, _, _, rfl⟩, fun _ _ => rfl, fun x hx => ?_, [], (List.append_nil _).symm, fun _ h => (nomatch h)⟩
    rcases mem_installCopy hx with hx | rfl
    · exact .inl hx
    · exact copyOf_some hcopy
  · exact State.Prefetches.of_decodes (State.Decodes.rfl t)

theorem prefetch_prefetches (s : State) (cls : BitVec 4) (va : Word) : State.Prefetches cls s (s.prefetch cls va) := by
  refine (State.Prefetches.of_decodes (scrubWalk_decoded s s.cur.gid va)).trans ?_
  rw [State.prefetch]
  split
  · exact State.Prefetches.of_decodes (State.Decodes.rfl _)
  · split
    · exact prefetched_prefetches ..
    · exact State.Prefetches.sendOut ..

theorem foldl_prefetches (cls : BitVec 4) (va : Nat → Word) (l : List Nat) (s : State) :
    State.Prefetches cls s (l.foldl (fun s k => s.prefetch cls (va k)) s) := by
  induction l generalizing s with
  | nil => exact State.Prefetches.of_decodes (State.Decodes.rfl s)
  | cons k l ih => exact (prefetch_prefetches s cls (va k)).trans (ih _)

/-- An L1INV at the commit point. -/
theorem l1inv_ends {b c : Reg} {s : State} (hex : s.Executes (.l1inv b c) [b, c] []) (hc : s.AtCommit) :
    ∃ k, exec (.l1inv b c) s = finish (s.pass k) (((s.pass k).invalidated (s.cur.rs b).toNat (s.cur.rs c).toNat).busyFor
      (4 + min 512 (rangeLines (s.cur.rs b).toNat (s.cur.rs c).toNat))) := by
  obtain ⟨k, -, hk⟩ := issue_reading_atCommit hex hc fun s =>
    finish s ((s.invalidated (s.cur.rs b).toNat (s.cur.rs c).toNat).busyFor (4 + min 512 (rangeLines (s.cur.rs b).toNat (s.cur.rs c).toNat)))
  exact ⟨k, (exec_l1inv_eq b c s).trans hk⟩

/-- The machine once a PREF has prefetched the sectors of its range (R88). -/
def State.prefetchedRange (s : State) (cls : BitVec 4) (va n : Nat) : State :=
  if n = 0 then s
  else (List.range ((va + n - 1) / 128 - va / 128 + 1)).foldl (fun s k => s.prefetch cls (BitVec.ofNat 64 (128 * (va / 128 + k)))) s

theorem exec_pref_eq (oc : BitVec 4) (b c : Reg) (s : State) : exec (.pref oc b c) s = issue (.pref oc b c) (reading [b, c] [] fun s =>
    finish (s.prefetchedRange oc (s.cur.rs b).toNat (min 65536 (s.cur.rs c).toNat))
      (s.prefetchedRange oc (s.cur.rs b).toNat (min 65536 (s.cur.rs c).toNat)).cur) s := rfl

theorem prefetchedRange_prefetches (s : State) (cls : BitVec 4) (va n : Nat) : State.Prefetches cls s (s.prefetchedRange cls va n) := by
  rw [State.prefetchedRange]
  split
  · exact State.Prefetches.of_decodes (State.Decodes.rfl s)
  · exact foldl_prefetches cls (fun k => BitVec.ofNat 64 (128 * (va / 128 + k))) _ s

/-! ### Bank modes (04 R89-R92) -/

theorem bankTrap_pass (s : State) (k : Nat) (i : Instr) (sel mode : Word) : bankTrap (s.pass k) i sel mode = bankTrap s i sel mode := rfl

/-- What a BANKMODE does to a bank that it may change, with the mode that it asks for (R89-R92). -/
def bankChange (a : Reg) (mode : BitVec 3) (n : Nat) (s : State) : Res :=
  let dev := gidDev s.cur.gid
  let bank := (s.dev dev).bank n
  let set (x : Bank) : State := s.onDev dev fun d => d.setBank n x
  let commit (x : Bank) : Res :=
    finish (set { x with told := true }) ((s.cur.land a (bank.mode.setWidth 64) (x.ends - s.cur.time)).busyFor (x.ends - s.cur.time))
  if bank.changing.isSome then (if bank.begun && !bank.told && bank.asker == s.cur.gid then commit bank else stall s)
  else if bank.mode = mode then finishReg s a (mode.setWidth 64) 1
  else
    let asked : Bank := { bank with changing := some mode, asker := s.cur.gid, begun := s.prompt, ends := s.cur.time + changeCycles bank.mode n s.clock }
    if !s.prompt then stall (set asked)
    else if bank.mode = 4 && !s.relbClear dev n then stall s
    else commit asked

section
variable {a b c : Reg} {s : State} (hex : s.Executes (.bankmode a b c) [b, c] []) (hc : s.AtCommit)
include hex hc

theorem exec_bankmode_ok {n : Nat} (hb : bankTrap s (.bankmode a b c) (s.cur.rs b) (s.cur.rs c) = .ok n) :
    ∃ k, exec (.bankmode a b c) s = bankChange a ((s.cur.rs c).setWidth 3) n (s.pass k) := by
  obtain ⟨k, -, hk⟩ : ∃ k, _ ∧ exec (.bankmode a b c) s = _ := issue_vetting_atCommit hex hc _ _
  have hb' : bankTrap (s.pass k) (.bankmode a b c) ((s.pass k).cur.rs b) ((s.pass k).cur.rs c) = .ok n := hb
  refine ⟨k, hk.trans ?_⟩
  simp only [if_true, hb']
  rfl

theorem exec_bankmode_error {t : Trap} (hb : bankTrap s (.bankmode a b c) (s.cur.rs b) (s.cur.rs c) = .error t) :
    s.Raises (.bankmode a b c) t := by
  obtain ⟨k, hframed, hk⟩ : ∃ k, _ ∧ exec (.bankmode a b c) s = _ := issue_vetting_atCommit hex hc _ _
  have hb' : bankTrap (s.pass k) (.bankmode a b c) ((s.pass k).cur.rs b) ((s.pass k).cur.rs c) = .error t := hb
  refine ⟨k, hframed, hk.trans ?_⟩
  simp only [if_true, hb', Bool.true_or, Bool.true_and]
  split
  · rename_i hv
    split at hv
    · cases hv; rfl
    · cases hv
  · rfl

end

theorem bank_setBank (d : Device) (n : Nat) (x : Bank) (k : Nat) : (d.setBank n x).bank k = if k = n then x else d.bank k := tableGet_put ..

/-- A device's bank, once one of its banks has been set. -/
theorem bank_onDev (s : State) (dev : Dev) (n : Nat) (x : Bank) (k : Nat) :
    ((s.onDev dev fun d => d.setBank n x).dev dev).bank k = if k = n then x else (s.dev dev).bank k := by
  rw [dev_onDev s dev _ (dev_num s dev), if_pos rfl, bank_setBank]

theorem changeCycles_least (mode : BitVec 3) (b clock : Nat) : 4096 ≤ changeCycles mode b clock := Nat.le_add_right ..
theorem changeCycles_clean {mode : BitVec 3} (h : mode ≠ 0) (b clock : Nat) : changeCycles mode b clock = 4096 := by rw [changeCycles, if_neg h]

/-- What a BANKMODE does as it commits: its bank is set, s[a] is written, and the unit issues nothing for a while. -/
theorem finish_busy (s : State) (k : Nat) (dev : Dev) (n : Nat) (x : Bank) (a : Reg) (v : Word) (wait : Nat) :
    ∃ t, finish ((s.pass k).onDev dev fun d => d.setBank n x) (((s.pass k).cur.land a v wait).busyFor wait) = .next t.tick ∧
      s.SetsReg t a v ∧ s.NextWord t ∧ s.Recorded t ∧ (∀ j, (t.dev dev).bank j = if j = n then x else (s.dev dev).bank j) ∧
      t.cur.time = (s.pass k).cur.time ∧ t.cur.busy = t.cur.time + wait := by
  obtain ⟨t, ht, hnext, hrec, e⟩ := finish_eq (s.onDev dev fun d => d.setBank n x) k (((s.pass k).cur.land a v wait).busyFor wait) (Nat.le_refl 1)
    (by rw [land_eq]; rfl) (by rw [land_eq]; rfl) (by rw [land_eq]; rfl) (by rw [land_eq]; rfl) (by rw [land_eq]; rfl) (by rw [land_eq]; rfl)
    (by rw [land_eq]; rfl)
  refine ⟨t, ht, fun r => ?_, hnext, hrec, fun j => ?_, ?_, ?_⟩
  · rw [e]; exact rs_land (s.pass k).cur a r v wait
  · rw [e]; exact bank_onDev s dev n x j
  · rw [e, land_eq]; rfl
  · rw [e, land_eq]; rfl

section
variable {a : Reg} {mode : BitVec 3} {n k : Nat} {s : State}

/-- A BANKMODE to the mode that the bank has (R89). -/
theorem bankChange_same (hn : ((s.dev (gidDev s.cur.gid)).bank n).changing = none) (hm : ((s.dev (gidDev s.cur.gid)).bank n).mode = mode) :
    bankChange a mode n (s.pass k) = finishReg (s.pass k) a (mode.setWidth 64) 1 := by
  have hn' : ¬ (((s.pass k).dev (gidDev (s.pass k).cur.gid)).bank n).changing.isSome = true := by
    rw [show ((s.pass k).dev (gidDev (s.pass k).cur.gid)).bank n = (s.dev (gidDev s.cur.gid)).bank n from rfl, hn]; exact Bool.false_ne_true
  exact (if_neg hn').trans (if_pos hm)

/-- A BANKMODE that begins its change at once (R92). -/
theorem bankChange_prompt (hn : ((s.dev (gidDev s.cur.gid)).bank n).changing = none) (hm : ((s.dev (gidDev s.cur.gid)).bank n).mode ≠ mode)
    (hp : s.prompt = true) (h4 : ((s.dev (gidDev s.cur.gid)).bank n).mode ≠ 4) :
    bankChange a mode n (s.pass k) = finish ((s.pass k).onDev (gidDev s.cur.gid) fun d => d.setBank n { (s.dev (gidDev s.cur.gid)).bank n with
        changing := some mode, asker := s.cur.gid, begun := true, told := true
        ends := (s.pass k).cur.time + changeCycles ((s.dev (gidDev s.cur.gid)).bank n).mode n (s.pass k).clock })
      (((s.pass k).cur.land a (((s.dev (gidDev s.cur.gid)).bank n).mode.setWidth 64)
        (changeCycles ((s.dev (gidDev s.cur.gid)).bank n).mode n (s.pass k).clock)).busyFor
          (changeCycles ((s.dev (gidDev s.cur.gid)).bank n).mode n (s.pass k).clock)) := by
  have hdev : (s.pass k).dev (gidDev (s.pass k).cur.gid) = s.dev (gidDev s.cur.gid) := rfl
  rw [bankChange]
  simp only [hdev, hn, hm, show (s.pass k).prompt = true from hp, h4, Option.isSome_none, if_false, Bool.false_eq_true, Bool.not_true,
    decide_false, Bool.false_and, Nat.add_sub_cancel_left]
  rfl

/-- A BANKMODE that asks for a change that a step of its own begins (R92). -/
theorem bankChange_asks (hn : ((s.dev (gidDev s.cur.gid)).bank n).changing = none) (hm : ((s.dev (gidDev s.cur.gid)).bank n).mode ≠ mode)
    (hp : s.prompt = false) :
    bankChange a mode n (s.pass k) = stall ((s.pass k).onDev (gidDev s.cur.gid) fun d => d.setBank n { (s.dev (gidDev s.cur.gid)).bank n with
        changing := some mode, asker := s.cur.gid, begun := false
        ends := (s.pass k).cur.time + changeCycles ((s.dev (gidDev s.cur.gid)).bank n).mode n (s.pass k).clock }) := by
  have hdev : (s.pass k).dev (gidDev (s.pass k).cur.gid) = s.dev (gidDev s.cur.gid) := rfl
  rw [bankChange]
  simp only [hdev, hn, hm, show (s.pass k).prompt = false from hp, Option.isSome_none, if_false, Bool.false_eq_true, Bool.not_false, if_true]
  rfl

/-- A BANKMODE whose change has begun (R92). -/
theorem bankChange_begun (hn : ((s.dev (gidDev s.cur.gid)).bank n).changing ≠ none) (hbegun : ((s.dev (gidDev s.cur.gid)).bank n).begun = true)
    (htold : ((s.dev (gidDev s.cur.gid)).bank n).told = false) (hasker : ((s.dev (gidDev s.cur.gid)).bank n).asker = s.cur.gid) :
    bankChange a mode n (s.pass k) = finish ((s.pass k).onDev (gidDev s.cur.gid) fun d => d.setBank n { (s.dev (gidDev s.cur.gid)).bank n with told := true })
      (((s.pass k).cur.land a (((s.dev (gidDev s.cur.gid)).bank n).mode.setWidth 64) (((s.dev (gidDev s.cur.gid)).bank n).ends - (s.pass k).cur.time)).busyFor
        (((s.dev (gidDev s.cur.gid)).bank n).ends - (s.pass k).cur.time)) := by
  have hsome : ((s.dev (gidDev s.cur.gid)).bank n).changing.isSome = true := Option.isSome_iff_ne_none.mpr hn
  have hmine : (((s.dev (gidDev s.cur.gid)).bank n).begun && !((s.dev (gidDev s.cur.gid)).bank n).told &&
      ((s.dev (gidDev s.cur.gid)).bank n).asker == s.cur.gid) = true := by
    rw [hbegun, htold, hasker, beq_self_eq_true, Bool.not_false, Bool.and_self, Bool.and_self]
  exact (if_pos hsome).trans (if_pos hmine)

end

/-! ### The canonical form of memory, through a step (04 R76, 00 R5)

Memory changes only by writes, by forgetting and by filtering, each of which keeps its form; every other function of the model keeps the memory of a
state that it is given.  One lemma for each function says so, by the branches of its definition, and cites those of the functions that it calls. -/

/-- Memory is in its canonical form: the addresses rise, and no entry holds what an unlisted address reads as. -/
def State.Canon (s : State) : Prop := s.mem.wf = true

/-- The state of a result is canonical, where it has one. -/
def Res.Canon : Res → Prop
  | .next t => t.Canon
  | _ => True

def Met.Canon : Met → Prop
  | .go t | .stay t => t.Canon

def LoadTry.Canon : LoadTry → Prop
  | .done t _ _ | .sent t _ => t.Canon
  | _ => True

def Ran.Canon : Ran → Prop
  | .done t _ _ | .stopped t _ _ _ | .abandoned t _ | .waiting t _ _ | .partly t _ _ => t.Canon

def Agreed.Canon : Agreed → Prop
  | .perform t | .answer t _ | .wait t | .gone t => t.Canon

def Asked.Canon : Asked → Prop
  | .done t _ _ _ | .wait t | .trap t _ => t.Canon

def Dec.Canon : Dec → Prop
  | .done t _ _ | .trap t _ | .away t _ _ => t.Canon

/-- The state that an option holds is canonical. -/
def OptCanon : Option State → Prop
  | some t => t.Canon
  | none => True

/-- What an answer holds has the property of its kind. -/
def EitherWay {ε α : Type} (e : ε → Prop) (a : α → Prop) : Except ε α → Prop
  | .ok x => a x
  | .error x => e x

section
variable {s t : State}

theorem Res.Canon.next {m : Res} (e : m = .next t) (h : m.Canon) : t.Canon := by subst e; exact h
theorem Met.Canon.go {m : Met} (e : m = .go t) (h : m.Canon) : t.Canon := by subst e; exact h
theorem Met.Canon.stay {m : Met} (e : m = .stay t) (h : m.Canon) : t.Canon := by subst e; exact h
theorem LoadTry.Canon.done {m : LoadTry} {x lat} (e : m = .done t x lat) (h : m.Canon) : t.Canon := by subst e; exact h
theorem LoadTry.Canon.sent {m : LoadTry} {n} (e : m = .sent t n) (h : m.Canon) : t.Canon := by subst e; exact h
theorem Agreed.Canon.perform {m : Agreed} (e : m = .perform t) (h : m.Canon) : t.Canon := by subst e; exact h
theorem Agreed.Canon.answer {m : Agreed} {r} (e : m = .answer t r) (h : m.Canon) : t.Canon := by subst e; exact h
theorem Agreed.Canon.wait {m : Agreed} (e : m = .wait t) (h : m.Canon) : t.Canon := by subst e; exact h
theorem Agreed.Canon.gone {m : Agreed} (e : m = .gone t) (h : m.Canon) : t.Canon := by subst e; exact h
theorem Asked.Canon.done {m : Asked} {x lat f} (e : m = .done t x lat f) (h : m.Canon) : t.Canon := by subst e; exact h
theorem Asked.Canon.wait {m : Asked} (e : m = .wait t) (h : m.Canon) : t.Canon := by subst e; exact h
theorem Asked.Canon.trap {m : Asked} {x} (e : m = .trap t x) (h : m.Canon) : t.Canon := by subst e; exact h
theorem Dec.Canon.done {m : Dec} {x lat} (e : m = .done t x lat) (h : m.Canon) : t.Canon := by subst e; exact h
theorem Dec.Canon.trap {m : Dec} {x} (e : m = .trap t x) (h : m.Canon) : t.Canon := by subst e; exact h
theorem Dec.Canon.away {m : Dec} {k a} (e : m = .away t k a) (h : m.Canon) : t.Canon := by subst e; exact h
theorem OptCanon.some {o : Option State} (e : o = some t) (h : OptCanon o) : t.Canon := by subst e; exact h
theorem EitherWay.ok {ε α : Type} {e : ε → Prop} {a : α → Prop} {r : Except ε α} {x : α} (h : EitherWay e a r) (q : r = .ok x) : a x := by subst q; exact h
theorem EitherWay.error {ε α : Type} {e : ε → Prop} {a : α → Prop} {r : Except ε α} {x : ε} (h : EitherWay e a r) (q : r = .error x) : e x := by
  subst q; exact h
theorem EitherWay.of_ok {ε α : Type} {e : ε → Prop} {a : α → Prop} {r : Except ε α} {x : α} (q : r = .ok x) (h : EitherWay e a r) : a x := h.ok q
theorem EitherWay.of_error {ε α : Type} {e : ε → Prop} {a : α → Prop} {r : Except ε α} {x : ε} (q : r = .error x) (h : EitherWay e a r) : e x := h.error q
theorem EitherWay.map {ε α β : Type} {e : ε → Prop} {a : α → Prop} {b : β → Prop} {f : α → β} {r : Except ε α} (h : EitherWay e a r)
    (hf : ∀ {x}, a x → b (f x)) : EitherWay e b (r.map f) := by
  cases r with
  | ok x => exact hf h
  | error x => exact h
theorem Ran.Canon.done {m : Ran} {x f} (h : m.Canon) (e : m = .done t x f) : t.Canon := by subst e; exact h
theorem OptCanon.bind {f : State → Option State} {o : Option State} (h : OptCanon o) (hf : ∀ {s}, s.Canon → OptCanon (f s)) : OptCanon (o.bind f) := by
  cases o with
  | none => trivial
  | some s => exact hf h
theorem OptCanon.map {α : Type} {f : α → State} {o : Option α} (hf : ∀ {x}, (f x).Canon) : OptCanon (o.map f) := by
  cases o with
  | none => trivial
  | some x => exact hf
protected theorem State.Canon.fst {α : Type} {p : State × α} {x : α} (e : p = (t, x)) (h : p.1.Canon) : t.Canon := by subst e; exact h

protected theorem State.Canon.withFree {n} (hs : s.Canon) : ({ s with free := n } : State).Canon := hs

/-- One of two canonical states is canonical. -/
protected theorem State.Canon.ite {c : Prop} [Decidable c] (hs : s.Canon) (ht : t.Canon) : (if c then s else t).Canon := by split <;> assumption
theorem canon_ite {α : Type} {P : α → Prop} {c : Prop} [Decidable c] {a b : α} (ha : P a) (hb : P b) : P (if c then a else b) := by split <;> assumption

protected theorem State.Canon.foldl {α : Type} {f : State → α → State} {l : List α} (hf : ∀ {s a}, s.Canon → (f s a).Canon) (h : s.Canon) : (l.foldl f s).Canon := by
  induction l generalizing s with
  | nil => exact h
  | cons a l ih => exact ih (hf h)

/-- A list of writes keeps the form of memory. -/
theorem Memory.foldl_write_wf {α : Type} {l : List α} {m : Memory} {at_ : α → Nat} {data : α → List Byte} (h : m.wf = true) :
    (l.foldl (fun m c => m.write (at_ c) (data c)) m).wf = true := by
  induction l generalizing m with
  | nil => exact h
  | cons c l ih => exact ih (Memory.write_wf h _ _)

protected theorem State.Canon.fold (h : s.Canon) : s.fold.Canon := fold_wf h
protected theorem State.Canon.scrub {k} (h : s.Canon) : (s.scrub k).Canon := scrub_wf h k
protected theorem State.Canon.scrubRun {a n} (h : s.Canon) : (s.scrubRun a n).Canon := scrubRun_wf h a n
protected theorem State.Canon.clearPoison {a n} (h : s.Canon) : (s.clearPoison a n).Canon := clearPoison_wf h a n
protected theorem State.Canon.admitPlain {x release} (h : s.Canon) : (s.admitPlain x release).Canon := admitPlain_wf h x release
protected theorem State.Canon.masterWrite {a data} (h : s.Canon) : (s.masterWrite a data).Canon := masterWrite_wf h a data

protected theorem State.Canon.clearBank {dev b} (hs : s.Canon) : (s.clearBank dev b).Canon := Memory.forget_wf hs _ _
protected theorem State.Canon.resetDevice {n cause} (hs : s.Canon) : (s.resetDevice n cause).Canon := fold_wf (Memory.wf_filter hs _)

end

section
variable {s t : State}

/-! #### Shared operations -/

protected theorem State.Canon.setUnit {u} (hs : s.Canon) : (s.setUnit u).Canon := .ite hs hs

protected theorem State.Canon.switchTo {g} (hs : s.Canon) : (s.switchTo g).Canon := .ite hs (.setUnit hs)

protected theorem State.Canon.onUnit {g f} (hs : s.Canon) (hf : ∀ {s}, s.Canon → (f s).Canon) : (s.onUnit g f).Canon :=
  .ite (hf hs) ((hf hs.switchTo).switchTo)

protected theorem State.Canon.setDev {d} (hs : s.Canon) : (s.setDev d).Canon := hs

protected theorem State.Canon.onDev {n f} (hs : s.Canon) : (s.onDev n f).Canon := hs.setDev

protected theorem State.Canon.ackFlags {x f} (hs : s.Canon) : (s.ackFlags x f).Canon := by
  unfold State.ackFlags
  refine .ite hs ?_
  split
  · exact hs.setUnit
  · exact .ite hs.setUnit hs.setUnit

protected theorem State.Canon.admitUpdate {x release} (hs : s.Canon) : (s.admitUpdate x release).Canon := by
  unfold State.admitUpdate
  split
  · exact hs.admitPlain
  · extract_lets
    split
    · exact hs.ackFlags.admitPlain.admitPlain
    · exact hs.ackFlags.admitPlain

protected theorem State.Canon.admitOrdered {x o release} (hs : s.Canon) : (s.admitOrdered x o release).Canon :=
  .foldl (fun hs => hs.onDev) hs.admitUpdate

protected theorem State.Canon.admitHeld {dev n} (hs : s.Canon) : (admitHeld dev n s).Canon := by
  induction n generalizing s with
  | zero => exact hs
  | succ n ih =>
    unfold admitHeld
    split
    · exact hs
    · split
      · exact hs
      · exact ih hs.onDev.admitOrdered

protected theorem State.Canon.admitHeldOf {dev} (hs : s.Canon) : (s.admitHeldOf dev).Canon := hs.admitHeld

protected theorem State.Canon.widenWrites {g command scope} (hs : s.Canon) : (s.widenWrites g command scope).Canon := hs

protected theorem State.Canon.admitRecord {x entry e result release} (hs : s.Canon) : (s.admitRecord x entry e result release).Canon := by
  unfold State.admitRecord
  exact hs.admitPlain.admitPlain.widenWrites.onDev

protected theorem State.Canon.admitAt {x release} (hs : s.Canon) : (s.admitAt x release).Canon := by
  unfold State.admitAt
  split
  · split
    · exact hs.admitRecord
    · exact hs.admitUpdate
  · exact .ite (.foldl (fun hs => hs.admitHeldOf) hs.admitOrdered) hs.onDev

protected theorem State.Canon.disown {g} (hs : s.Canon) : (s.disown g).Canon := hs.setUnit

protected theorem State.Canon.acquireAt {g scope a n} (hs : s.Canon) : (s.acquireAt g scope a n).Canon := hs.setUnit

protected theorem State.Canon.scrubWalk {g va} (hs : s.Canon) : (s.scrubWalk g va).Canon := .ite hs (.foldl (fun hs => hs.scrub) hs)

protected theorem State.Canon.sendFar {x more} (hs : s.Canon) : (s.sendFar x more).Canon := hs

protected theorem State.Canon.emit {x} (hs : s.Canon) : (s.emit x).Canon := by
  unfold State.emit
  extract_lets
  split
  · exact hs.setUnit
  · exact .ite hs.setUnit.admitAt (.ite hs.sendFar hs.setUnit)

protected theorem State.Canon.put {x} (hs : s.Canon) : (s.put x).Canon := .ite hs hs.emit

protected theorem State.Canon.writeStatus {record st reason id} (hs : s.Canon) : (s.writeStatus record st reason id).Canon := hs.masterWrite

protected theorem State.Canon.releaseTask {id units} (hs : s.Canon) : (s.releaseTask id units).Canon := .foldl (fun hs => hs.onDev.admitHeldOf) hs

protected theorem State.Canon.killTask {dev id reason quire words} (hs : s.Canon) : (s.killTask dev id reason quire words).Canon := by
  unfold State.killTask
  split
  · exact hs
  · exact .writeStatus (.onDev (.releaseTask (.foldl (fun hs => hs.setUnit) hs)))

protected theorem State.Canon.bootFailed {n fromHost reason} (hs : s.Canon) : (s.bootFailed n fromHost reason).Canon := by
  unfold State.bootFailed
  extract_lets back
  clear_value back
  exact State.Canon.onDev hs

protected theorem State.Canon.escalate {t} (hs : s.Canon) : (s.escalate t).Canon := by
  unfold State.escalate
  refine .ite ?_ ?_
  · extract_lets
    split
    · exact .bootFailed hs
    · exact hs
  · split
    · exact hs
    · exact hs.killTask

protected theorem State.Canon.endCut (hs : s.Canon) : s.endCut.Canon := by
  unfold State.endCut
  split
  · exact .ite hs hs
  · exact hs

protected theorem State.Canon.takeTrapAt {x} (hs : s.Canon) : (s.takeTrapAt x).Canon := .ite (.escalate hs) (.endCut hs)

protected theorem State.Canon.takeTrap {t} (hs : s.Canon) : (s.takeTrap t).Canon := hs.takeTrapAt

protected theorem State.Canon.contain {event depth q tval} (hs : s.Canon) : (s.contain event depth q tval).Canon := by
  unfold State.contain
  extract_lets
  split <;> exact hs

protected theorem State.Canon.deliverAs {t depth again} (hs : s.Canon) : (s.deliverAs t depth again).Canon := by
  unfold State.deliverAs
  extract_lets
  split
  · exact .ite hs.contain hs.takeTrapAt
  · exact hs.takeTrapAt

protected theorem State.Canon.deliver {t depth} (hs : s.Canon) : (s.deliver t depth).Canon := hs.deliverAs

protected theorem State.Canon.raise {t} (hs : s.Canon) : (s.raise t).Canon := .ite hs.deliver hs

protected theorem State.Canon.trapNow {t} (hs : s.Canon) : Res.Canon (trapNow s t) := hs.raise

/-! #### Memory at the homes -/

protected theorem State.Canon.changeMode {dev b mode} (hs : s.Canon) : (s.changeMode dev b mode).Canon := .ite hs hs.clearBank.onDev

protected theorem State.Canon.breakBetween {a b} (hs : s.Canon) : (s.breakBetween a b).Canon := .foldl (fun hs => hs.onDev) hs

protected theorem State.Canon.markStopped {src dst port} (hs : s.Canon) : (s.markStopped src dst port).Canon := hs.onDev

protected theorem State.Canon.assignNumber {n x} (hs : s.Canon) : (s.assignNumber n x).Canon := hs.onDev

protected theorem State.Canon.ownerWrite {n by_ off x} (hs : s.Canon) : (s.ownerWrite n by_ off x).Canon :=
  .ite (.ite hs.resetDevice hs) (.ite (.ite hs.onDev hs.onDev) (.ite (.ite hs hs.assignNumber) (.ite hs hs.onDev)))

protected theorem State.Canon.regWrite {n by_ off x} (hs : s.Canon) : (s.regWrite n by_ off x).Canon := by
  unfold State.regWrite
  refine .ite (.ite hs hs.onDev) ?_
  split
  · exact .ite hs hs.onDev
  · exact .ite hs hs.onDev
  · exact hs.onDev
  · exact .ite hs.onDev hs.onDev
  · exact .ite hs.onDev hs.onDev
  · exact .ite (.ite hs.onDev hs) hs.onDev
  · exact .ite hs.ownerWrite hs.onDev

/-! #### The commit window and the class queue -/

protected theorem State.Canon.readHome {v cls a n} (hs : s.Canon) : (s.readHome v cls a n).1.Canon := hs

protected theorem State.Canon.barCopies {v a n} (hs : s.Canon) : (s.barCopies v a n).Canon := hs

protected theorem State.Canon.fillL1 {a n} (hs : s.Canon) : (s.fillL1 a n).Canon := by
  unfold State.fillL1
  split <;> exact hs

protected theorem State.Canon.prefetched {sector l1} (hs : s.Canon) : (s.prefetched sector l1).Canon := by
  unfold State.prefetched
  extract_lets
  split <;> exact hs.scrub

protected theorem State.Canon.loadAt {v h} (hs : s.Canon) : (s.loadAt v h).1.Canon := by
  unfold State.loadAt
  extract_lets s1 r x
  have hr : r.1.Canon := hs.scrubRun.readHome
  clear_value r
  split
  · exact hr
  · exact hr.fillL1
  · exact hr

protected theorem State.Canon.sendOut {want cls addr sect} (hs : s.Canon) : (s.sendOut want cls addr sect).Canon := hs

protected theorem State.Canon.answerFrom {c h} (hs : s.Canon) : (s.answerFrom c h).1.Canon := hs

protected theorem State.Canon.tryLoad {earlier h} (hs : s.Canon) : LoadTry.Canon (s.tryLoad earlier h) := by
  unfold State.tryLoad
  refine canon_ite trivial ?_
  split
  · exact hs.answerFrom
  · split
    · exact trivial
    · split
      · exact trivial
      · exact canon_ite trivial (canon_ite hs.sendOut (canon_ite trivial hs.loadAt))

protected theorem State.Canon.loadPass {n n2} (hs : s.Canon) : (loadPass n n2 s).Canon := by
  induction n generalizing n2 s with
  | zero => exact hs
  | succ n ih =>
    unfold loadPass
    refine ih ?_
    split
    · refine .ite hs ?_
      split
      next hTryLoad => exact (hs.tryLoad.done hTryLoad :)
      next hTryLoad => exact (hs.tryLoad.sent hTryLoad :)
      · exact hs
    · exact hs

protected theorem State.Canon.makeLoads (hs : s.Canon) : s.makeLoads.Canon := .ite hs hs.loadPass

protected theorem State.Canon.arriveLoad {v num} (hs : s.Canon) : (s.arriveLoad v num).Canon := by
  unfold State.arriveLoad
  split
  · exact .ite hs hs.loadAt
  · exact hs

protected theorem State.Canon.answerLeaving {num} (hs : s.Canon) : OptCanon (s.answerLeaving num) := by
  unfold State.answerLeaving
  split
  · exact OptCanon.map hs
  · exact trivial

protected theorem State.Canon.commitOldest (hs : s.Canon) : OptCanon (s.commitOldest) := by
  unfold State.commitOldest
  split
  · exact trivial
  · split
    · extract_lets
      split
      · exact .put hs
      · exact hs
    · exact trivial

protected theorem State.Canon.commitAll {n} (hs : s.Canon) : (commitAll n s).Canon := by
  induction n generalizing s with
  | zero => exact hs
  | succ n ih =>
    unfold commitAll
    split
    next hCommitOldest => exact ih (hs.makeLoads.commitOldest.some hCommitOldest)
    · exact hs.makeLoads

protected theorem State.Canon.commit (hs : s.Canon) : s.commit.Canon := hs.commitAll

/-! #### Fetching -/

protected theorem State.Canon.scrubFetch {va} (hs : s.Canon) : (s.scrubFetch va).Canon := by
  unfold State.scrubFetch
  refine .ite hs ?_
  extract_lets
  split
  · exact .ite hs.scrubWalk.scrub hs.scrubWalk
  · exact hs.scrubWalk

/-! #### Operands in memory -/

protected theorem State.Canon.noteGot {c key bs} (hs : s.Canon) : (s.noteGot c key bs).Canon := hs

protected theorem State.Canon.readFor {v q num cls key x n} (hs : s.Canon) : (s.readFor v q num cls key x n).Canon := hs.scrubRun

protected theorem State.Canon.updateFor {q num key x} (hs : s.Canon) : (s.updateFor q num key x).Canon := .admitAt hs

protected theorem State.Canon.storePieces {c cls kind a l l2} (hs : s.Canon) : (storePieces s c cls kind a l l2).Canon := by
  induction l generalizing a l2 s with
  | nil => exact hs
  | cons e l ih =>
    unfold storePieces
    refine ih ?_
    split
    · exact hs
    · exact hs
    · exact hs.put

protected theorem State.Canon.healSectors {c ps xs} (hs : s.Canon) : (s.healSectors c ps xs).Canon := by
  unfold State.healSectors
  split <;> exact hs

protected theorem State.Canon.setWritten {c n} (hs : s.Canon) : (s.setWritten c n).Canon := hs

protected theorem State.Canon.bufferPieces {c cls kind a n n2 l l2} (hs : s.Canon) :
    EitherWay (fun x => x.2.Canon) State.Canon (bufferPieces c cls kind a n n2 l l2 s) := by
  induction n generalizing n2 l l2 s with
  | zero => exact hs
  | succ n ih =>
    cases l with
    | nil => exact hs
    | cons e l =>
      unfold bufferPieces
      exact canon_ite (ih hs) (canon_ite hs.setWritten (ih (.put hs)))

protected theorem State.Canon.writeAt {c cls k l data} (hs : s.Canon) : EitherWay (fun x => x.2.Canon) State.Canon (s.writeAt c cls k l data) := by
  unfold State.writeAt
  split
  · exact hs
  · exact canon_ite (EitherWay.map hs.bufferPieces (fun hs => hs.setWritten)) (.ite (.healSectors (.storePieces hs)) (.storePieces hs))

protected theorem State.Canon.healWhole {xs} (hs : s.Canon) : (s.healWhole xs).Canon := hs

protected theorem State.Canon.emitAll {xs} (hs : s.Canon) : (s.emitAll xs).Canon := .foldl (fun hs => .ite hs.setUnit hs.emit) hs.healWhole

/-! #### Replicas -/

protected theorem State.Canon.onUnits {gs f} (hs : s.Canon) : (s.onUnits gs f).Canon := .foldl (fun hs => hs.setUnit) hs

protected theorem State.Canon.performBuffer {src g} (hs : s.Canon) : (s.performBuffer src g).Canon := hs.emitAll

protected theorem State.Canon.removeReplica {u} (hs : s.Canon) : (s.removeReplica u).Canon := by
  unfold State.removeReplica
  split
  · exact hs
  · exact .onDev (.onUnits (.foldl (fun hs => hs.disown) hs.onUnits))

protected theorem State.Canon.mismatch {gs tval} (hs : s.Canon) : (s.mismatch gs tval).Canon :=
  .foldl (fun hs => hs.onUnit (fun hs => .takeTrap hs)) hs

protected theorem State.Canon.vote (hs : s.Canon) : s.vote.Canon := by
  unfold State.vote
  extract_lets
  split
  · exact hs.onUnits.mismatch
  · exact .onUnits (.performBuffer (.foldl (fun hs => hs.removeReplica) hs.onUnits))

protected theorem State.Canon.meet {who recs} (hs : s.Canon) : Met.Canon (s.meet who recs) :=
  canon_ite hs (canon_ite hs (canon_ite hs (.ite (.vote hs) hs)))

protected theorem State.Canon.removeOthers {xs record} (hs : s.Canon) : (s.removeOthers xs record).Canon := .foldl (fun hs => hs.removeReplica) hs

protected theorem State.Canon.agree {binder record} (hs : s.Canon) : Agreed.Canon (s.agree binder record) := by
  unfold State.agree
  refine canon_ite hs ?_
  extract_lets
  split
  · exact canon_ite hs hs.removeReplica
  · exact canon_ite (.mismatch hs) (canon_ite hs (.removeOthers hs))

protected theorem State.Canon.noteRequest {binder record value lat flags} (hs : s.Canon) : (s.noteRequest binder record value lat flags).Canon :=
  .ite hs hs

protected theorem State.Canon.takeAnswer {r} (hs : s.Canon) : (s.takeAnswer r).Canon := .ite hs hs

/-! #### The copy engine -/

protected theorem State.Canon.writeRow {c cls d l r xs} (hs : s.Canon) : EitherWay (fun x => x.2.Canon) State.Canon (s.writeRow c cls d l r xs) :=
  hs.writeAt

protected theorem State.Canon.copyLoop {c cls d l get l2 y} (hs : s.Canon) : Ran.Canon (copyLoop c cls d l get l2 s y) := by
  induction l2 generalizing s y with
  | nil => exact hs
  | cons e l2 ih =>
    unfold copyLoop
    split
    · exact hs
    · split
      next hWriteRow => exact hs.writeRow.error hWriteRow
      next hWriteRow =>
        split
        · exact hs.writeRow.ok hWriteRow
        · exact ih (hs.writeRow.ok hWriteRow)

protected theorem State.Canon.putRows {c cls d l l2} (hs : s.Canon) : EitherWay (fun x => x.1.Canon) State.Canon (putRows c cls d l l2 s) := by
  induction l2 generalizing s with
  | nil => exact hs
  | cons e l2 ih =>
    unfold putRows
    split
    next hWriteRow => exact hs.writeRow.error hWriteRow
    next hWriteRow => exact ih (hs.writeRow.ok hWriteRow)

protected theorem State.Canon.copyWhole {c cls d l m get n width} (hs : s.Canon) : Ran.Canon (copyWhole s c cls d l m get n width) := by
  unfold copyWhole
  split
  · exact hs
  · extract_lets
    split
    next hPutRows => exact hs.putRows.error hPutRows
    next hPutRows =>
      refine canon_ite ?_ (hs.putRows.ok hPutRows)
      split
      next hWriteAt => exact (hs.putRows.ok hPutRows).writeAt.error hWriteAt
      next hWriteAt => exact (hs.putRows.ok hPutRows).writeAt.ok hWriteAt

protected theorem State.Canon.copyRows {c cls d l get n width} (hs : s.Canon) : Ran.Canon (copyRows s c cls d l get n width) :=
  canon_ite hs.copyWhole hs.copyLoop

protected theorem State.Canon.runCopy {c cls} (hs : s.Canon) : Ran.Canon (runCopy s c cls) := by
  unfold runCopy
  split
  · exact hs
  · exact hs.copyRows

protected theorem State.Canon.runGatherRows {c cls zeroFill} (hs : s.Canon) : Ran.Canon (runGatherRows s c cls zeroFill) := by
  unfold runGatherRows
  split
  · exact hs
  · split
    · exact hs
    · exact hs.copyRows

protected theorem State.Canon.runExpand {c cls} (hs : s.Canon) : Ran.Canon (runExpand s c cls) := by
  unfold runExpand
  split
  · exact hs
  · exact hs.copyRows

protected theorem State.Canon.runFill {c cls} (hs : s.Canon) : Ran.Canon (runFill s c cls) := by
  unfold runFill
  split
  · exact hs
  · exact hs.copyLoop

protected theorem State.Canon.onStep {k f} (hs : s.Canon) : (s.onStep k f).Canon := .ite hs hs.onDev

protected theorem State.Canon.runProbe {c} (hs : s.Canon) : Ran.Canon (runProbe s c) := by
  unfold runProbe
  extract_lets
  split
  · exact hs
  · split
    · exact hs
    · refine canon_ite hs ?_
      split
      · exact hs
      · exact .onStep (.setDev hs)

protected theorem State.Canon.putTile {c cls d l xs} (hs : s.Canon) : EitherWay (fun x => x.1.Canon) State.Canon (putTile c cls d l xs s) :=
  hs.putRows

protected theorem State.Canon.runReplay {c cls} (hs : s.Canon) : Ran.Canon (runReplay s c cls) := by
  unfold runReplay
  refine canon_ite hs (canon_ite hs ?_)
  split
  · exact hs
  · exact hs
  · split
    next hPutTile => exact .ite (hs.putTile.error hPutTile) hs
    next hPutTile => exact hs.putTile.ok hPutTile

protected theorem State.Canon.runLoad {c} (hs : s.Canon) : Ran.Canon (runLoad s c) := by
  unfold runLoad
  split
  · exact hs.runCopy
  · exact hs.runGatherRows
  · exact hs.runExpand
  · exact hs.runFill
  · exact hs.runProbe
  · exact hs.runReplay
  · exact hs

/-! #### The vector engine -/

protected theorem State.Canon.vApply {f mk a b c op} (hs : s.Canon) : Ran.Canon (vApply s f mk a b c op) := hs

protected theorem State.Canon.vCompare {f mk a b c onInt onFloat quiet} (hs : s.Canon) : Ran.Canon (vCompare s f mk a b c onInt onFloat quiet) := hs

protected theorem State.Canon.vConvert {f src p mk a b} (hs : s.Canon) : Ran.Canon (vConvert s f src p mk a b) := hs

protected theorem State.Canon.vPack {f a b c} (hs : s.Canon) : Ran.Canon (vPack s f a b c) := hs

protected theorem State.Canon.vUnpack {f a b c} (hs : s.Canon) : Ran.Canon (vUnpack s f a b c) := hs

protected theorem State.Canon.vPermute {f mk a b c} (hs : s.Canon) : Ran.Canon (vPermute s f mk a b c) := hs

protected theorem State.Canon.vGather {cmd mk a c d} (hs : s.Canon) : Ran.Canon (vGather s cmd mk a c d) := by
  unfold vGather
  extract_lets
  split
  · exact hs
  · split <;> exact hs

protected theorem State.Canon.scatterTo {cmd cls d l b c l2} (hs : s.Canon) : Ran.Canon (scatterTo cmd cls d l b c l2 s) := by
  induction l2 generalizing s with
  | nil => exact hs
  | cons e l2 ih =>
    unfold scatterTo
    refine canon_ite hs ?_
    split
    next hWriteAt => exact hs.writeAt.error hWriteAt
    next hWriteAt => exact ih (hs.writeAt.ok hWriteAt)

protected theorem State.Canon.vScatter {cmd cls mk b c d} (hs : s.Canon) : Ran.Canon (vScatter s cmd cls mk b c d) := by
  unfold vScatter
  split
  · exact hs
  · exact hs.scatterTo

protected theorem State.Canon.vLoadRow {cmd mk a d} (hs : s.Canon) : Ran.Canon (vLoadRow s cmd mk a d) := by
  unfold vLoadRow
  refine canon_ite hs ?_
  split
  · exact hs
  · extract_lets
    split <;> exact hs

protected theorem State.Canon.storeLanes {cmd cls l b l2} (hs : s.Canon) : Ran.Canon (storeLanes cmd cls l b l2 s) := by
  induction l2 generalizing s with
  | nil => exact hs
  | cons e l2 ih =>
    unfold storeLanes
    split
    next hWriteAt => exact hs.writeAt.error hWriteAt
    next hWriteAt => exact ih (hs.writeAt.ok hWriteAt)

protected theorem State.Canon.vStoreRow {cmd cls mk b d} (hs : s.Canon) : Ran.Canon (vStoreRow s cmd cls mk b d) := by
  unfold vStoreRow
  refine canon_ite hs ?_
  split
  · exact hs
  · exact hs.storeLanes

protected theorem State.Canon.vLoadElem {cmd mk a d} (hs : s.Canon) : Ran.Canon (vLoadElem s cmd mk a d) := by
  unfold vLoadElem
  refine canon_ite hs ?_
  repeat' split
  all_goals exact hs

protected theorem State.Canon.vReduce {f mk a b op reply} (hs : s.Canon) : Ran.Canon (vReduce s f mk a b op reply) := hs

protected theorem State.Canon.vScan {f mk a b op} (hs : s.Canon) : Ran.Canon (vScan s f mk a b op) := hs

protected theorem State.Canon.vTopk {f mk a b k} (hs : s.Canon) : Ran.Canon (vTopk s f mk a b k) := hs

protected theorem State.Canon.runVector {c} (hs : s.Canon) : Ran.Canon (runVector s c) := by
  unfold runVector
  extract_lets
  split
  iterate 23 · exact hs.vApply
  · exact hs.vCompare
  · exact hs.vCompare
  · exact hs.vCompare
  · exact hs
  · exact hs.vApply
  · exact hs.vApply
  · exact hs
  · exact hs.vApply
  · exact hs.vConvert
  · exact hs.vPack
  · exact hs.vUnpack
  · exact hs.vPermute
  · exact hs.vGather
  · exact hs.vScatter
  · exact hs.vReduce
  · exact hs.vScan
  · exact hs.vTopk
  · exact hs
  · exact hs
  · exact hs.vLoadRow
  · exact hs.vStoreRow
  · exact hs.vLoadElem
  iterate 5 · exact hs

/-! #### The store engine -/

protected theorem State.Canon.scatterRows {c cls skip list src dst l y} (hs : s.Canon) : Ran.Canon (scatterRows c cls skip list src dst l s y) := by
  induction l generalizing s y with
  | nil => exact hs
  | cons e l ih =>
    unfold scatterRows
    split
    · exact hs
    · refine canon_ite (canon_ite (ih hs) hs) ?_
      split
      · exact hs
      · split
        next hWriteRow => exact hs.writeRow.error hWriteRow
        next hWriteRow =>
          split
          · exact hs.writeRow.ok hWriteRow
          · exact ih (hs.writeRow.ok hWriteRow)

protected theorem State.Canon.runScatterRows {c cls skip} (hs : s.Canon) : Ran.Canon (runScatterRows s c cls skip) := by
  unfold runScatterRows
  split
  · exact hs
  · split
    · exact hs
    · exact hs.scatterRows

protected theorem State.Canon.packLoop {c cls src dst l y} (hs : s.Canon) : Ran.Canon (packLoop c cls src dst l s y) := by
  induction l generalizing s y with
  | nil => exact hs
  | cons e l ih =>
    unfold packLoop
    split
    · exact hs
    · refine canon_ite hs ?_
      split
      next hWriteAt => exact hs.writeAt.error hWriteAt
      next hWriteAt =>
        split
        · exact hs.writeAt.ok hWriteAt
        · exact ih (hs.writeAt.ok hWriteAt)

protected theorem State.Canon.runPack {c cls} (hs : s.Canon) : Ran.Canon (runPack s c cls) := by
  unfold runPack
  split
  · exact hs
  · exact hs.packLoop

protected theorem State.Canon.writeParts {c cls l} (hs : s.Canon) : EitherWay (fun x => x.1.Canon) State.Canon (writeParts c cls l s) := by
  induction l generalizing s with
  | nil => exact hs
  | cons e l ih =>
    unfold writeParts
    refine canon_ite hs ?_
    split
    next hWriteAt => exact hs.writeAt.error hWriteAt
    next hWriteAt => exact ih (hs.writeAt.ok hWriteAt)

protected theorem State.Canon.runConvert {c cls} (hs : s.Canon) : Ran.Canon (runConvert s c cls) := by
  unfold runConvert
  split
  · exact hs
  · split
    · exact hs
    · extract_lets
      split
      next hWriteParts => exact hs.writeParts.error hWriteParts
      next hWriteParts =>
        refine canon_ite (hs.writeParts.ok hWriteParts) (canon_ite (hs.writeParts.ok hWriteParts) ?_)
        split
        next hWriteParts2 => exact (hs.writeParts.ok hWriteParts).writeParts.error hWriteParts2
        next hWriteParts2 => exact (hs.writeParts.ok hWriteParts).writeParts.ok hWriteParts2

protected theorem State.Canon.putUpdate {c cls op va acc} (hs : s.Canon) : EitherWay (fun _ => True) State.Canon (s.putUpdate c cls op va acc) :=
  canon_ite trivial (.put hs)

protected theorem State.Canon.updateRow {c cls op dst r l} (hs : s.Canon) :
    EitherWay (fun x => x.1.Canon) State.Canon (updateRow c cls op dst r l s) := by
  induction l generalizing s with
  | nil => exact hs
  | cons e l ih =>
    unfold updateRow
    split
    · exact hs
    · split
      · exact hs
      next hPutUpdate => exact ih (hs.putUpdate.ok hPutUpdate)

protected theorem State.Canon.updateRows {c cls op src dst l y} (hs : s.Canon) : Ran.Canon (updateRows c cls op src dst l s y) := by
  induction l generalizing s y with
  | nil => exact hs
  | cons e l ih =>
    unfold updateRows
    extract_lets
    split
    · exact hs
    · split
      next hUpdateRow => exact hs.updateRow.error hUpdateRow
      next hUpdateRow =>
        split
        · exact hs.updateRow.ok hUpdateRow
        · exact ih (hs.updateRow.ok hUpdateRow)

protected theorem State.Canon.sendOrdered {c cls op tag l} (hs : s.Canon) :
    EitherWay (fun x => x.1.Canon) State.Canon (sendOrdered c cls op tag l s) := by
  induction l generalizing s with
  | nil => exact hs
  | cons e l ih =>
    unfold sendOrdered
    extract_lets
    split
    · exact hs
    · refine canon_ite hs ?_
      split
      · exact hs
      next hPutUpdate => exact ih (hs.putUpdate.ok hPutUpdate)

protected theorem State.Canon.runOrdered {c cls op} (hs : s.Canon) : Ran.Canon (runOrdered s c cls op) := by
  unfold runOrdered
  refine canon_ite ?_ ?_
  · split
    · exact hs
    · dsimp only
      split
      next hSendOrdered => exact canon_ite (hs.sendOrdered.error hSendOrdered) (canon_ite hs (hs.sendOrdered.error hSendOrdered))
      next hSendOrdered => exact canon_ite (hs.sendOrdered.ok hSendOrdered) (hs.sendOrdered.ok hSendOrdered)
  · split
    · exact hs
    · split
      · exact hs
      · split
        · exact hs
        · dsimp only
          split
          next hSendOrdered =>
            have h := EitherWay.of_error hSendOrdered (State.Canon.sendOrdered hs)
            exact canon_ite h (canon_ite hs h)
          next hSendOrdered =>
            have h := EitherWay.of_ok hSendOrdered (State.Canon.sendOrdered hs)
            exact canon_ite h h

protected theorem State.Canon.runReduce {c cls op ord} (hs : s.Canon) : Ran.Canon (runReduce s c cls op ord) := by
  unfold runReduce
  refine canon_ite hs.runOrdered ?_
  split
  · exact hs
  · exact hs.updateRows

protected theorem State.Canon.countEvict {c code} (hs : s.Canon) : (s.countEvict c code).Canon := .ite hs hs

protected theorem State.Canon.runRecord {c cls} (hs : s.Canon) : Ran.Canon (runRecord s c cls) := by
  unfold runRecord
  extract_lets
  split
  · exact hs
  · refine canon_ite (.ite hs hs.countEvict) ?_
    split
    · exact .ite hs hs.countEvict
    · exact .ite hs hs.countEvict
    · split
      · exact .ite hs hs.countEvict
      · exact .ite hs hs.countEvict
      · extract_lets
        split
        · exact .ite hs hs.countEvict
        · exact .ite hs hs.countEvict
        · exact canon_ite (.ite hs hs.countEvict) (canon_ite (.ite hs hs.countEvict) (.ite (.put (.countEvict hs)) (.admitAt (.countEvict hs))))

protected theorem State.Canon.returnResult {lead x} (hs : s.Canon) : (s.returnResult lead x).Canon := hs.onDev

protected theorem State.Canon.returnResults {lead x} (hs : s.Canon) : (s.returnResults lead x).Canon :=
  .ite hs (.foldl (fun hs => .ite hs.returnResult hs.sendFar) hs)

protected theorem State.Canon.arriveMessage {x} (hs : s.Canon) : (s.arriveMessage x).Canon := by
  unfold State.arriveMessage
  extract_lets
  split
  · exact hs.onDev.returnResults
  · exact hs.returnResult
  · exact hs.onDev

protected theorem State.Canon.message {c cls dst n} (hs : s.Canon) : (s.message c cls dst n).Canon :=
  .ite (.ite (.ite hs hs.sendFar) hs.arriveMessage) hs.sendFar

protected theorem State.Canon.collDone {c k gen m} (hs : s.Canon) : (s.collDone c k gen m).Canon := hs.onDev

protected theorem State.Canon.pollCollective {c cls} (hs : s.Canon) : Ran.Canon (pollCollective s c cls) := by
  unfold pollCollective
  extract_lets
  split
  · exact hs
  · refine canon_ite hs (canon_ite hs.collDone ?_)
    extract_lets
    split
    · exact hs
    · split
      · exact hs
      next hPutTile => exact hs.collDone.putTile.ok hPutTile

protected theorem State.Canon.takeNumber_fresh {c k} (hs : s.Canon) : (State.takeNumber.fresh s c k).1.Canon := hs

protected theorem State.Canon.takeNumber {c k} (hs : s.Canon) : (s.takeNumber c k).1.Canon := by
  unfold State.takeNumber
  split
  · split
    · exact hs
    · exact hs.takeNumber_fresh
  · exact hs.takeNumber_fresh

protected theorem State.Canon.runCollective {c cls kind arr} (hs : s.Canon) : Ran.Canon (runCollective s c cls kind arr) := by
  unfold runCollective
  refine canon_ite hs ?_
  split
  · exact hs
  · refine canon_ite hs.pollCollective ?_
    split
    next hTakeNumber =>
      split
      · exact hs.takeNumber.fst hTakeNumber
      · split
        · exact hs.takeNumber.fst hTakeNumber
        · exact hs.takeNumber.fst hTakeNumber
        · exact (hs.takeNumber.fst hTakeNumber).onDev.message.pollCollective

protected theorem State.Canon.fillRows {c cls dst l} (hs : s.Canon) : EitherWay (fun x => x.2.Canon) State.Canon (fillRows c cls dst l s) := by
  induction l generalizing s with
  | nil => exact hs
  | cons e l ih =>
    unfold fillRows
    split
    next hWriteAt => exact hs.writeAt.error hWriteAt
    next hWriteAt => exact ih (hs.writeAt.ok hWriteAt)

protected theorem State.Canon.pollPost {c cls} (hs : s.Canon) : Ran.Canon (pollPost s c cls) := by
  unfold pollPost
  extract_lets
  split
  · exact canon_ite hs hs.onDev
  · split
    · exact hs
    · refine canon_ite hs.onDev ?_
      split
      · exact hs.onDev
      · split
        · exact canon_ite hs hs.onDev
        next hFillRows => exact (hs.fillRows.ok hFillRows).onDev

protected theorem State.Canon.pollSend {c} (hs : s.Canon) : Ran.Canon (pollSend s c) := by
  unfold pollSend
  extract_lets
  split
  · exact hs
  · split
    · exact .ite hs.arriveMessage hs
    · exact hs
    · exact hs
    · exact hs.onDev
    · exact hs.onDev

protected theorem State.Canon.runSend {c} (hs : s.Canon) : Ran.Canon (runSend s c) := by
  unfold runSend
  extract_lets
  split
  · exact hs
  · split
    · exact hs
    · split
      · exact hs
      · exact hs.onDev.message.pollSend

protected theorem State.Canon.runPost {c cls} (hs : s.Canon) : Ran.Canon (runPost s c cls) := by
  unfold runPost
  split
  · exact hs
  · exact hs.onDev.pollPost

protected theorem State.Canon.runStore {c} (hs : s.Canon) : Ran.Canon (runStore s c) := by
  unfold runStore
  split
  · exact hs.runCopy
  · exact hs.runScatterRows
  · exact hs.runPack
  · exact hs.runReduce
  · exact hs.runRecord
  · exact hs.runConvert
  · exact hs.runCollective
  · exact hs.runSend
  · exact hs.runPost
  · exact hs

protected theorem State.Canon.pollStore {c} (hs : s.Canon) : Ran.Canon (pollStore s c) := by
  unfold pollStore
  split
  · exact canon_ite hs hs
  · exact hs.pollCollective
  · exact hs.pollSend
  · exact hs.pollPost
  · exact hs

/-! #### The edge engine -/

protected theorem State.Canon.edgeStore {c cls va n x} (hs : s.Canon) : EitherWay (fun x => x.2.Canon) State.Canon (edgeStore s c cls va n x) := by
  unfold edgeStore
  split
  · exact hs
  · exact canon_ite hs (.put hs)

protected theorem State.Canon.edgeUpdate {c cls slot va f op x} (hs : s.Canon) :
    EitherWay (fun x => x.2.Canon) (fun x => x.2.2.Canon) (edgeUpdate s c cls slot va f op x) := by
  unfold edgeUpdate
  extract_lets
  split
  · exact hs
  · split
    · exact hs
    · exact canon_ite hs (canon_ite hs (canon_ite (canon_ite hs (.noteGot (.put hs))) (canon_ite hs (canon_ite (.updateFor hs) (.noteGot hs)))))

protected theorem State.Canon.activate {c cls va r k u degree} (hs : s.Canon) :
    EitherWay (fun x => x.2.Canon) State.Canon (activate c cls va r k u degree s) := by
  unfold activate
  split
  next hEdgeUpdate => exact hs.edgeUpdate.error hEdgeUpdate
  next hEdgeUpdate =>
    refine canon_ite (hs.edgeUpdate.ok hEdgeUpdate) ?_
    split
    next hEdgeUpdate2 => exact (hs.edgeUpdate.ok hEdgeUpdate).edgeUpdate.error hEdgeUpdate2
    next hEdgeUpdate2 => exact EitherWay.map (((hs.edgeUpdate.ok hEdgeUpdate).edgeUpdate.ok hEdgeUpdate2).edgeUpdate) (fun hs => hs)

protected theorem State.Canon.edgePushForm {c cls r ordered u slot x b} (hs : s.Canon) :
    EitherWay (fun x => x.2.Canon) (fun x => x.2.Canon) (edgePushForm c cls r ordered u slot x b s) := by
  unfold edgePushForm
  split
  · exact canon_ite hs (EitherWay.map hs.edgeUpdate (fun hs => hs))
  · exact hs

protected theorem State.Canon.edgePushForms {c cls r ordered u l y} (hs : s.Canon) :
    EitherWay (fun x => x.2.Canon) (fun x => x.2.Canon) (edgePushForms c cls r ordered u l y s) := by
  induction l generalizing s y with
  | nil => exact hs
  | cons e l ih =>
    unfold edgePushForms
    split
    next hEdgePushForm => exact hs.edgePushForm.error hEdgePushForm
    next hEdgePushForm => exact ih (hs.edgePushForm.ok hEdgePushForm)

protected theorem State.Canon.keepForms {c forms} (hs : s.Canon) : (keepForms c forms s).Canon := by
  unfold keepForms
  refine .foldl ?_ hs.noteGot
  intro s x hs
  split
  · exact hs.noteGot
  · exact hs

protected theorem State.Canon.forgetGot {c} (hs : s.Canon) : (s.forgetGot c).Canon := hs

protected theorem State.Canon.pushEdge {c cls b ordered e x} (hs : x.s.Canon) :
    EitherWay (fun x => x.2.Canon) (fun x => x.s.Canon) (pushEdge c cls b ordered e x) := by
  unfold pushEdge
  extract_lets
  split
  · exact hs
  · split
    · exact hs
    · exact hs
    · extract_lets
      split
      next hEdgePushForms => exact (EitherWay.of_error hEdgePushForms (State.Canon.edgePushForms (.ite hs hs.keepForms)) :)
      next hEdgePushForms =>
        have h := EitherWay.of_ok hEdgePushForms (State.Canon.edgePushForms (.ite hs hs.keepForms))
        split
        · split
          · exact h
          · dsimp only
            split
            · exact h
            · exact EitherWay.map (State.Canon.activate h) (fun hs => .forgetGot hs)
        · exact .forgetGot h

protected theorem State.Canon.pushEdges {c cls b ordered k v l x} (hs : x.s.Canon) :
    EitherWay (fun x => x.2.s.Canon) (fun x => x.s.Canon) (pushEdges c cls b ordered k v l x) := by
  induction l generalizing x with
  | nil => exact hs
  | cons e l ih =>
    unfold pushEdges
    split
    · exact hs
    · split
      · exact hs
      · split
        · exact hs
        · exact ih hs
        · dsimp only
          split
          next hPushEdge => exact hs.pushEdge.error hPushEdge
          next hPushEdge => exact ih (hs.pushEdge.ok hPushEdge)

protected theorem State.Canon.pushAll {c cls b ordered k l x} (hs : x.s.Canon) :
    EitherWay (fun x => x.2.s.Canon) (fun x => x.s.Canon) (pushAll c cls b ordered k l x) := by
  induction l generalizing x with
  | nil => exact hs
  | cons e l ih =>
    unfold pushAll
    split
    · exact hs
    · exact ih hs
    · split
      · exact hs
      · split
        next hPushEdges => exact hs.pushEdges.error hPushEdges
        next hPushEdges => exact ih (hs.pushEdges.ok hPushEdges)

protected theorem State.Canon.storeAll {c cls l} (hs : s.Canon) : EitherWay (fun x => x.2.Canon) State.Canon (storeAll c cls l s) := by
  induction l generalizing s with
  | nil => exact hs
  | cons e l ih =>
    unfold storeAll
    split
    next hEdgeStore => exact hs.edgeStore.error hEdgeStore
    next hEdgeStore => exact ih (hs.edgeStore.ok hEdgeStore)

protected theorem State.Canon.keepGroup {c y} (hs : s.Canon) : (keepGroup c y s).Canon := hs.noteGot

protected theorem State.Canon.pullGroup {c cls b k hi g x} (hs : x.s.Canon) :
    EitherWay (fun x => x.2.Canon) (fun x => x.s.Canon) (pullGroup c cls b k hi g x) := by
  unfold pullGroup
  extract_lets
  split
  · exact hs
  · split
    next hStoreAll => exact hs.storeAll.error hStoreAll
    next hStoreAll =>
      have h := hs.storeAll.ok hStoreAll
      refine canon_ite (State.Canon.forgetGot h) (canon_ite h ?_)
      split
      next hEdgeUpdate => exact (EitherWay.of_error hEdgeUpdate (State.Canon.edgeUpdate (.ite h (.keepGroup h))) :)
      next hEdgeUpdate =>
        have h' := EitherWay.of_ok hEdgeUpdate (State.Canon.edgeUpdate (.ite h (.keepGroup h)))
        exact EitherWay.map (State.Canon.edgeUpdate h') (fun hs => hs.forgetGot)

protected theorem State.Canon.pullAll {c cls b k hi l x} (hs : x.s.Canon) :
    EitherWay (fun x => x.2.s.Canon) (fun x => x.s.Canon) (pullAll c cls b k hi l x) := by
  induction l generalizing x with
  | nil => exact hs
  | cons g l ih =>
    unfold pullAll
    have hg : EitherWay (fun x => x.2.Canon) (fun x => x.s.Canon)
        (if x.pauses then .error (notYet c.queue none, x.s) else pullGroup c cls b k hi g x) :=
      canon_ite hs hs.pullGroup
    split
    next e => exact hg.error e
    next e => exact ih (hg.ok e)

protected theorem State.Canon.settleAll {c cls r k ws} (hs : s.Canon) : EitherWay (fun x => x.2.Canon) State.Canon (settleAll c cls r k ws s) := by
  unfold settleAll
  split
  · exact hs
  · split
    · exact hs
    · exact hs.storeAll

protected theorem State.Canon.sendLines {c cls r tag l} (hs : s.Canon) : EitherWay (fun x => x.1.Canon) State.Canon (sendLines c cls r tag l s) := by
  induction l generalizing s with
  | nil => exact hs
  | cons e l ih =>
    unfold sendLines
    exact canon_ite hs (canon_ite hs (ih (.foldl (fun hs => hs.put) hs)))

protected theorem State.Canon.superstep {c cls b ordered i k p} (hs : s.Canon) :
    EitherWay (fun x => x.1.Canon) State.Canon (superstep c cls b ordered i k p s) := by
  unfold superstep
  extract_lets r first start vs stands
  have hstart : EitherWay (fun x => x.2.Canon) State.Canon start := by
    refine canon_ite hs ?_
    split
    · exact hs
    · exact hs.storeAll
  clear_value start
  split
  next => exact hstart
  next s1 =>
    extract_lets here edges
    have hedges : EitherWay (fun x => x.2.s.Canon) (fun x => x.s.Canon) edges :=
      canon_ite hstart (canon_ite (State.Canon.pullAll hstart) (State.Canon.pushAll hstart))
    clear_value edges
    split
    next => exact hedges
    next x =>
      extract_lets src s2
      have hs2 : s2.Canon := hedges
      clear_value s2
      have hsettled : EitherWay (fun x => x.2.Canon) State.Canon
          (if gSettle r && p.sent == 0 then settleAll c cls r k (partWords r i) s2 else .ok s2) :=
        canon_ite hs2.settleAll hs2
      split
      next hSettled => exact hsettled.error hSettled
      next hSettled =>
        have hs3 := hsettled.ok hSettled
        extract_lets sent
        have hsent : EitherWay (fun x => x.1.Canon) (fun x => x.1.Canon) sent := by
          subst sent
          split
          · exact hs3
          · split
            · exact hs3
            · exact hs3.sendLines.map fun h => h
        clear_value sent
        split
        next => exact hsent
        next => exact canon_ite (P := EitherWay _ _) hsent hsent

protected theorem State.Canon.blurSuperstep {c cls b k} (hs : s.Canon) : (blurSuperstep c cls b k s).Canon := by
  unfold blurSuperstep
  refine .foldl ?_ hs
  intro s x hs
  split
  · exact hs
  · exact .ite hs.put hs.admitAt

protected theorem State.Canon.erunEnd {c reply} (hs : s.Canon) : Ran.Canon (erunEnd s c reply) := canon_ite hs hs

protected theorem State.Canon.erunFrom {c cls forced ordered i start n n2 n3 y} (hs : s.Canon) :
    Ran.Canon (erunFrom c cls forced ordered i start n n2 n3 y s) := by
  induction n generalizing n2 n3 y s with
  | zero => exact hs.erunEnd
  | succ n ih =>
    unfold erunFrom
    split
    · exact hs
    · extract_lets
      split
      · exact canon_ite hs.blurSuperstep hs
      · refine canon_ite hs.erunEnd ?_
        extract_lets
        split
        next hSuperstep =>
          have h := hs.superstep.error hSuperstep
          exact canon_ite (State.Canon.blurSuperstep h) (canon_ite h (canon_ite h (canon_ite h h)))
        next hSuperstep =>
          have h := hs.superstep.ok hSuperstep
          exact canon_ite (State.Canon.erunEnd h) (canon_ite (ih h) h)

protected theorem State.Canon.runErun {c cls mode ord} (hs : s.Canon) : Ran.Canon (runErun s c cls mode ord) := by
  unfold runErun
  extract_lets
  split
  · exact hs
  · exact canon_ite hs (canon_ite hs hs.erunFrom)

protected theorem State.Canon.runBind {c} (hs : s.Canon) : Ran.Canon (runBind s c) := by
  unfold runBind
  extract_lets
  split <;> exact canon_ite hs hs

protected theorem State.Canon.runSwapProps {c pa pb} (hs : s.Canon) : Ran.Canon (runSwapProps s c pa pb) := by
  unfold runSwapProps
  extract_lets
  split
  · exact hs
  · exact canon_ite hs hs

protected theorem State.Canon.runFrontier {c} (hs : s.Canon) : Ran.Canon (runFrontier s c) := by
  unfold runFrontier
  split
  · exact hs
  · split
    · exact canon_ite hs hs
    · exact hs

protected theorem State.Canon.runEdge {c} (hs : s.Canon) : Ran.Canon (runEdge s c) := by
  unfold runEdge
  split
  · exact hs.runBind
  · exact hs.runErun
  · exact hs.runSwapProps
  · exact hs.runFrontier
  · exact hs

protected theorem State.Canon.pollEdge {c} (hs : s.Canon) : Ran.Canon (pollEdge s c) := canon_ite hs hs

/-! #### The matrix engine -/

protected theorem State.Canon.putAcc {g a data} (hs : s.Canon) : (s.putAcc g a data).Canon := hs.setUnit

protected theorem State.Canon.putBlock {d i j rows} (hs : s.Canon) : (s.putBlock d i j rows).Canon := .foldl (fun hs => hs.putAcc) hs

protected theorem State.Canon.putRegion {d rows} (hs : s.Canon) : (s.putRegion d rows).Canon := hs.putBlock

protected theorem State.Canon.blurRegion {d} (hs : s.Canon) : (s.blurRegion d).Canon := hs.putRegion

protected theorem State.Canon.slipped (hs : s.Canon) : s.slipped.Canon := hs

protected theorem State.Canon.matStop {d t} (hs : s.Canon) : Ran.Canon (matStop s d t) := canon_ite hs.blurRegion hs

protected theorem State.Canon.readStop {t} (hs : s.Canon) : Ran.Canon (readStop s t) := canon_ite hs hs

protected theorem State.Canon.passProduct {a resid n fresh as bs x p} (hs : x.1.Canon) : (passProduct a resid n fresh as bs x p).1.Canon :=
  hs.putBlock

protected theorem State.Canon.allPasses {a resid n fresh as bs x} (hs : x.1.Canon) : (allPasses a resid n fresh as bs x).1.Canon := by
  unfold allPasses
  induction passList (dRows a) (dCols a) generalizing x with
  | nil => exact hs
  | cons p l ih => exact ih hs.passProduct

protected theorem State.Canon.finishProduct {a f fresh as bs} (hs : s.Canon) : Ran.Canon (finishProduct s a f fresh as bs) := hs.slipped.allPasses

protected theorem State.Canon.runProduct {c fresh} (hs : s.Canon) : Ran.Canon (runProduct s c fresh) := by
  unfold runProduct
  extract_lets
  split
  · exact hs
  · split
    · exact hs
    · refine canon_ite ?_ ?_
      · split
        · exact hs.matStop
        · split
          · exact hs.finishProduct
          · exact hs.matStop
          · exact hs.matStop
      · split
        · exact hs.finishProduct
        · exact hs.matStop
        · exact hs.matStop

protected theorem State.Canon.runChained {c target sat} (hs : s.Canon) : Ran.Canon (runChained s c target sat) := by
  unfold runChained
  extract_lets
  split
  · exact hs
  · split
    · exact hs
    · split
      · exact hs.matStop
      · split
        next hFinishProduct => exact hs.finishProduct.done hFinishProduct
        · exact hs.finishProduct

protected theorem State.Canon.runSparse {c} (hs : s.Canon) : Ran.Canon (runSparse s c) := by
  unfold runSparse
  extract_lets
  split
  · exact hs
  · split
    · exact hs
    · split
      · exact hs.finishProduct
      · exact hs.matStop
      · exact hs.matStop
      · exact hs.matStop

protected theorem State.Canon.runBitmap {c} (hs : s.Canon) : Ran.Canon (runBitmap s c) := by
  unfold runBitmap
  extract_lets
  split
  · exact hs
  · split
    · exact hs
    · split
      · exact hs.finishProduct
      iterate 4 · exact hs.matStop

protected theorem State.Canon.writeTile_go {s2 : State} {c cls l} (hs : s.Canon) (hs2 : s2.Canon) :
    EitherWay (fun x => x.1.Canon) State.Canon (writeTile.go c cls s l s2) := by
  induction l generalizing s2 with
  | nil => exact hs2
  | cons e l ih =>
    unfold writeTile.go
    split
    next hWriteAt => exact .ite (hs2.writeAt.error hWriteAt) hs
    next hWriteAt => exact ih (hs2.writeAt.ok hWriteAt)

protected theorem State.Canon.writeTile {c cls ws} (hs : s.Canon) : EitherWay (fun x => x.1.Canon) State.Canon (writeTile c cls ws s) := hs.writeTile_go hs

protected theorem State.Canon.runCompress {c cls} (hs : s.Canon) : Ran.Canon (runCompress s c cls) := by
  unfold runCompress
  extract_lets
  split
  · exact hs
  · split
    · exact hs.readStop
    · extract_lets
      split
      next hWriteTile => exact hs.writeTile.error hWriteTile
      next hWriteTile => exact hs.writeTile.ok hWriteTile

protected theorem State.Canon.runZero {c} (hs : s.Canon) : Ran.Canon (runZero s c) := by
  unfold runZero
  split
  · exact hs
  · exact hs.putRegion

protected theorem State.Canon.runWriteRegion {c} (hs : s.Canon) : Ran.Canon (runWriteRegion s c) := by
  unfold runWriteRegion
  extract_lets
  split
  · exact hs
  · split
    · exact hs.matStop
    · exact hs.putRegion

protected theorem State.Canon.runReadRegion {c cls sat clr} (hs : s.Canon) : Ran.Canon (runReadRegion s c cls sat clr) := by
  unfold runReadRegion
  extract_lets
  split
  · exact hs
  · split
    next hWriteTile => exact hs.writeTile.error hWriteTile
    next hWriteTile => exact .ite ((hs.writeTile.ok hWriteTile).putRegion) (hs.writeTile.ok hWriteTile)

protected theorem State.Canon.runCheck {c row} (hs : s.Canon) : Ran.Canon (runCheck s c row) := by
  unfold runCheck
  extract_lets
  split
  · exact hs
  · split
    · exact hs
    · exact hs.readStop
    · exact hs.readStop

protected theorem State.Canon.putHeader {d h} (hs : s.Canon) : (s.putHeader d h).Canon := hs.putAcc

protected theorem State.Canon.energyStop {d t} (hs : s.Canon) : Ran.Canon (energyStop s d t) := by
  unfold energyStop
  exact canon_ite (.withFree hs.blurRegion.putHeader) hs

protected theorem State.Canon.energySteps {d n as bs n2 n3 y} (hs : y.1.Canon) : (energySteps d n as bs n2 n3 y).1.Canon := by
  induction n2 generalizing n3 y with
  | zero => exact hs
  | succ n2 ih =>
    unfold energySteps
    exact ih hs.allPasses

protected theorem State.Canon.runEnergy {c resume} (hs : s.Canon) : Ran.Canon (runEnergy s c resume) := by
  unfold runEnergy
  extract_lets
  split
  · exact hs
  · split
    · exact hs.energyStop
    · refine canon_ite hs ?_
      split
      · exact hs.energyStop
      · split
        · split
          · exact .putHeader (.energySteps (.ite hs.slipped hs.slipped.putRegion))
          · exact hs.energyStop
          · exact hs.energyStop

protected theorem State.Canon.finishBound {d e k kk} (hs : s.Canon) : Ran.Canon (finishBound s d e k kk) := hs.putHeader

protected theorem State.Canon.runBoundLayer {c first} (hs : s.Canon) : Ran.Canon (runBoundLayer s c first) := by
  unfold runBoundLayer
  extract_lets
  split
  · exact hs
  · split
    · exact hs.readStop
    · split
      · exact hs
      · split
        · exact hs
        · exact hs.finishBound

protected theorem State.Canon.runBoundSum {c} (hs : s.Canon) : Ran.Canon (runBoundSum s c) := by
  unfold runBoundSum
  extract_lets
  split
  · exact hs
  · exact hs.finishBound

protected theorem State.Canon.runJoin {c} (hs : s.Canon) : Ran.Canon (runJoin s c) := by
  unfold runJoin
  refine canon_ite hs ?_
  split
  · exact canon_ite (.setUnit hs) hs
  · exact hs

protected theorem State.Canon.runLeave {c} (hs : s.Canon) : Ran.Canon (runLeave s c) := by
  unfold runLeave
  refine canon_ite hs ?_
  split
  · exact canon_ite (.setUnit hs) hs
  · exact hs

protected theorem State.Canon.runMatrix {c} (hs : s.Canon) : Ran.Canon (runMatrix s c) := by
  unfold runMatrix
  split
  · exact hs.runProduct
  · exact hs.runProduct
  · exact hs.runChained
  · exact hs.runEnergy
  · exact hs.runEnergy
  · exact hs.runBoundLayer
  · exact hs.runBoundLayer
  · exact hs.runBoundSum
  · exact hs.runCompress
  · exact hs.runSparse
  · exact hs.runBitmap
  · exact hs.runZero
  · exact hs.runWriteRegion
  · exact hs.runReadRegion
  · exact hs.runCheck
  · exact hs.runJoin
  · exact hs.runLeave
  · exact hs

/-! #### Commands of the engines -/

protected theorem State.Canon.engineFreed {c} (hs : s.Canon) : (s.engineFreed c).Canon := hs.setUnit

protected theorem State.Canon.bufferFull {c t} (hs : s.Canon) : (s.bufferFull c t).Canon := by
  unfold State.bufferFull
  refine .ite hs.contain ?_
  split
  next hMeet => exact Met.Canon.go hMeet (State.Canon.meet hs)
  next hMeet => exact Met.Canon.stay hMeet (State.Canon.meet hs)

protected theorem State.Canon.stopCommand {c t progress} (hs : s.Canon) : (s.stopCommand c t progress).Canon := .ite (.deliverAs hs) (.deliverAs hs)

protected theorem State.Canon.goOn {c p f} (hs : s.Canon) : (s.goOn c p f).Canon := hs

protected theorem State.Canon.askPiece {c x} (hs : s.Canon) : (s.askPiece c x).Canon := .ite hs.scrub (.ite hs.readFor (.ite hs hs))

protected theorem State.Canon.conclude {before : State} {c r} (hr : Ran.Canon r) : (before.conclude c r).Canon := by
  unfold State.conclude
  split
  · exact hr
  · exact hr
  · exact .deliverAs (.engineFreed hr)
  · exact hr
  · refine .ite ?_ ?_
    · extract_lets
      split
      · exact .askPiece (.goOn hr)
      · exact .goOn hr
    · split
      · exact hr
      · exact .ite (.bufferFull (.engineFreed hr)) (.stopCommand (.engineFreed hr))

protected theorem State.Canon.mapState {f y} (hf : ∀ {s}, s.Canon → (f s).Canon) (hs : Ran.Canon y) : Ran.Canon (Ran.mapState f y) := by
  unfold Ran.mapState
  split <;> exact hf hs

protected theorem State.Canon.racing {c f} (hs : s.Canon) (hf : ∀ {s}, s.Canon → Ran.Canon (f s)) : Ran.Canon (s.racing c f) :=
  State.Canon.mapState (fun hs => hs) (hf (.ite hs hs))

protected theorem State.Canon.runCommand {c} (hs : s.Canon) : Ran.Canon (runCommand s c) := by
  unfold runCommand
  refine canon_ite hs ?_
  split
  · exact hs.runLoad
  · exact hs.runMatrix
  · exact hs.runVector
  · exact hs.runStore
  · exact hs.runEdge

protected theorem State.Canon.pollCommand {c} (hs : s.Canon) : Ran.Canon (pollCommand s c) := by
  unfold pollCommand
  split
  · exact hs.runMatrix
  · exact hs.pollStore
  · exact hs.pollEdge
  · exact hs

protected theorem State.Canon.inPhase {c f} (hs : s.Canon) (hf : ∀ {s}, s.Canon → (f s).Canon) : (s.inPhase c f).Canon := hf hs

protected theorem State.Canon.touchRing {d} (hs : s.Canon) : OptCanon (s.touchRing d) := canon_ite hs (canon_ite hs (OptCanon.map hs.setDev))

protected theorem State.Canon.startTrap {c} (hs : s.Canon) : EitherWay (fun _ => True) State.Canon (s.startTrap c) := by
  unfold State.startTrap
  refine canon_ite hs ?_
  split
  · exact trivial
  · split
    next hBind => exact (OptCanon.bind hs.touchRing (fun hs => hs.touchRing)).some hBind
    · exact trivial

protected theorem State.Canon.runStarted {y} (hs : s.Canon) : (s.runStarted y).Canon := by
  unfold State.runStarted
  refine hs.inPhase ?_
  intro s hs
  split
  · exact State.Canon.conclude hs
  next hStartTrap => exact .conclude ((hs.startTrap.ok hStartTrap).racing (fun hs => hs.runCommand))

protected theorem State.Canon.poll {y} (hs : s.Canon) : (s.poll y).Canon :=
  .ite (.ite hs.runStarted hs) (.ite (hs.inPhase (fun hs => State.Canon.conclude hs.pollCommand)) hs)

protected theorem State.Canon.start {c} (hs : s.Canon) : (s.start c).Canon := by
  unfold State.start
  split
  · exact hs.deliver
  · split
    · extract_lets
      split
      · exact .ite (.poll (.commit hs)) (.commit hs)
      · exact .commit hs

protected theorem State.Canon.turnQueue {q} (hs : s.Canon) : (s.turnQueue q).Canon := by
  unfold State.turnQueue
  split
  · exact hs
  · exact .ite hs (.ite hs.start (.ite hs.deliver hs))

protected theorem State.Canon.pollAll (hs : s.Canon) : s.pollAll.Canon := by
  unfold State.pollAll
  refine .foldl ?_ hs
  intro s x hs
  split
  · exact hs.poll
  · exact hs

protected theorem State.Canon.unpin {c} (hs : s.Canon) : (s.unpin c).Canon := by
  unfold State.unpin
  split
  · exact .ite hs hs.onDev
  · exact hs

protected theorem State.Canon.retirePass {l l2 y} (hs : s.Canon) : (retirePass l l2 s y).Canon := by
  induction l2 generalizing l s with
  | nil => exact hs
  | cons e l2 ih =>
    unfold retirePass
    refine .ite (ih hs) ?_
    extract_lets
    split
    · exact ih hs
    · exact .ite (ih (.unpin (.engineFreed hs))) (ih hs)

protected theorem State.Canon.retireAll (hs : s.Canon) : s.retireAll.Canon := hs.retirePass

protected theorem State.Canon.storeFull (hs : s.Canon) : s.storeFull.Canon := by
  unfold State.storeFull
  refine .ite hs.contain ?_
  split
  next hMeet => exact hs.meet.go hMeet
  next hMeet => exact hs.meet.stay hMeet

protected theorem State.Canon.stuckPush (hs : s.Canon) : s.stuckPush.Canon := by
  unfold State.stuckPush
  split
  · exact hs
  · split
    · exact hs.deliver
    · refine .ite hs.storeFull ?_
      split
      · exact hs
      · split
        · exact hs
        · exact .ite hs.deliver hs

protected theorem State.Canon.exactTurn (hs : s.Canon) : s.exactTurn.Canon := .ite hs (.retirePass (.ite (.foldl (fun hs => hs.turnQueue) hs) hs))

protected theorem State.Canon.settle (hs : s.Canon) : s.settle.Canon :=
  .ite hs.exactTurn (.ite hs (.ite hs.commit.stuckPush (.stuckPush (.commit (.retireAll (.pollAll (.foldl (fun hs => hs.turnQueue) hs)))))))

/-! #### Links and packets -/

protected theorem State.Canon.withdraw {u c} (hs : s.Canon) : (s.withdraw u c).Canon := .foldl (fun hs => hs.onDev) hs

protected theorem State.Canon.stopAll {ys} (hs : s.Canon) : (s.stopAll ys).Canon := by
  unfold State.stopAll
  extract_lets
  split
  · exact .deliver (.foldl (fun hs => .ite hs hs) (.foldl (fun hs => hs.withdraw) hs))
  · exact .foldl (fun hs => .ite hs hs) (.foldl (fun hs => hs.withdraw) hs)

protected theorem State.Canon.linkLost {x port} (hs : s.Canon) : (s.linkLost x port).Canon := by
  unfold State.linkLost
  refine .ite hs ?_
  split
  · split
    · exact hs.stopAll
    · exact hs
  iterate 5 · exact hs

protected theorem State.Canon.stopFlow {src dst port} (hs : s.Canon) : (s.stopFlow src dst port).Canon := by
  unfold State.stopFlow
  refine .foldl ?_ (.foldl (fun hs => hs.onUnit (fun hs => hs.linkLost)) (.breakBetween (.markStopped hs)))
  intro s x hs
  extract_lets
  split
  · exact hs
  · exact hs.onUnit (fun hs => hs.stopAll)

protected theorem State.Canon.linksDown {before : State} (hs : s.Canon) : (before.linksDown s).Canon :=
  .foldl (fun hs => hs.stopFlow) hs

protected theorem State.Canon.registerWrite {n by_ off x} (hs : s.Canon) : (s.registerWrite n by_ off x).Canon :=
  .ite (.linksDown hs.regWrite) (.onDev (.linksDown (.regWrite (.ite hs hs))))

protected theorem State.Canon.arriveRequest {num} (hs : s.Canon) : (s.arriveRequest num).Canon := by
  unfold State.arriveRequest
  split
  · exact .ite hs hs
  · exact hs

protected theorem State.Canon.arriveRegister {x off} (hs : s.Canon) : (s.arriveRegister x off).Canon := hs.registerWrite

protected theorem State.Canon.refuseWrite {x t} (hs : s.Canon) : (s.refuseWrite x t).Canon := by
  unfold State.refuseWrite
  split
  · exact hs.raise
  · split
    · exact State.Canon.conclude hs
    · exact hs

protected theorem State.Canon.arriveWrite {x} (hs : s.Canon) : (s.arriveWrite x).Canon := by
  unfold State.arriveWrite
  split
  · exact .ite hs (hs.onUnit (fun hs => hs.refuseWrite))
  · exact hs.admitAt

protected theorem State.Canon.arriveIn {v x} (hs : s.Canon) : (s.arriveIn v x).Canon := by
  unfold State.arriveIn
  split
  · exact hs.arriveWrite
  · exact hs.arriveWrite
  · exact hs.arriveWrite
  · exact hs.arriveRegister
  · exact hs.onUnit (fun hs => .ite hs hs.readFor)
  · exact hs.onUnit (fun hs => hs.arriveLoad)
  · exact hs.onUnit (fun hs => hs.prefetched)
  · exact hs.onUnit (fun hs => hs.updateFor)
  · exact hs.onUnit (fun hs => hs.arriveRequest)
  · exact hs.arriveMessage
  · exact hs
  · exact hs

protected theorem State.Canon.arrive {x} (hs : s.Canon) : (s.arrive x).Canon := hs.arriveIn

protected theorem State.Canon.arrivePacket {p} (hs : s.Canon) : (s.arrivePacket p).Canon := .foldl (fun hs => hs.arrive) hs.healWhole.arrive

protected theorem State.Canon.loadRequest {x} (hs : s.Canon) : (s.loadRequest x).Canon := by
  unfold State.loadRequest
  split <;> exact hs

protected theorem State.Canon.leave {x} (hs : s.Canon) : (s.leave x).Canon := by
  unfold State.leave
  extract_lets r src dst
  have hr : r.Canon := hs.loadRequest
  clear_value r
  split
  next e =>
    split at e
    · exact OptCanon.some e hr.answerLeaving
    · cases e
  · split
    · exact hr.linkLost
    · refine .ite hr.arrive (.ite ?_ (State.Canon.sendFar hr))
      split
      · exact hr.arrive
      · exact hr.arrive
      · exact hr.arrive
      · exact hr

protected theorem State.Canon.leaveAll {n n2} (hs : s.Canon) : (leaveAll n n2 s).Canon := by
  induction n generalizing n2 s with
  | zero => exact hs
  | succ n ih =>
    unfold leaveAll
    split
    · exact hs
    · exact .ite (ih (.leave hs)) (ih hs)

protected theorem State.Canon.endChange {dev b} (hs : s.Canon) : (s.endChange dev b).Canon := by
  unfold State.endChange
  exact hs.changeMode.onDev

protected theorem State.Canon.endChanges (hs : s.Canon) : s.endChanges.Canon := by
  unfold State.endChanges
  exact .ite hs (.foldl (fun hs => hs.endChange) hs)

protected theorem State.Canon.deliverAll {batch l} (hs : s.Canon) : (deliverAll batch l s).Canon := by
  induction l generalizing s with
  | nil => exact hs
  | cons e l ih =>
    unfold deliverAll
    exact .ite (ih (.arrivePacket hs)) (.ite hs (ih hs))

protected theorem State.Canon.admitBatch {dst n} (hs : s.Canon) : (s.admitBatch dst n).Canon := hs.deliverAll

protected theorem State.Canon.admitDue {dst n} (hs : s.Canon) : (State.admitDue dst n s).Canon := by
  induction n generalizing s with
  | zero => exact hs
  | succ n ih =>
    unfold State.admitDue
    split
    · exact .ite (ih hs.admitBatch) hs
    · exact hs

protected theorem State.Canon.pump (hs : s.Canon) : s.pump.Canon :=
  .ite hs (.ite hs.leaveAll (.foldl (fun hs => hs.admitDue) hs.leaveAll.deliverAll))

/-! #### Issuing an instruction -/

protected theorem State.Canon.tick (hs : s.Canon) : s.tick.Canon := .settle (.pump (.endChanges hs))

protected theorem State.Canon.pass {n} (hs : s.Canon) : (s.pass n).Canon := hs

protected theorem State.Canon.wait (hs : s.Canon) : s.wait.Canon := .ite hs.pass.tick hs.tick

protected theorem State.Canon.stall (hs : s.Canon) : Res.Canon (stall s) := hs.wait

protected theorem State.Canon.stallUntil {t} (hs : s.Canon) : Res.Canon (stallUntil t s) := canon_ite hs.pass.tick hs.stall

protected theorem State.Canon.after {t f} (hf : ∀ {s}, s.Canon → Res.Canon (f s)) (hs : s.Canon) : Res.Canon (after t f s) :=
  canon_ite (hf hs) (canon_ite hs.stall (hf hs.pass))

protected theorem State.Canon.rest (hs : s.Canon) : Res.Canon (rest s) := by
  unfold rest
  split
  · exact canon_ite hs.deliver hs.tick
  · exact canon_ite hs.endCut (.ite hs hs.wait)

protected theorem State.Canon.issue {i f} (hf : ∀ {s}, s.Canon → Res.Canon (f s)) (hs : s.Canon) : Res.Canon (issue i f s) :=
  canon_ite hs.trapNow (canon_ite hs.trapNow (canon_ite hs.stall (hf hs)))

protected theorem State.Canon.reading {rs ds f} (hf : ∀ {s}, s.Canon → Res.Canon (f s)) (hs : s.Canon) : Res.Canon (reading rs ds f s) :=
  canon_ite hs.trapNow (canon_ite hs.stall (hs.after hf))

protected theorem State.Canon.atCommit {f} (hf : ∀ {s}, s.Canon → Res.Canon (f s)) (hs : s.Canon) : Res.Canon (atCommit f s) :=
  canon_ite (hf hs) hs.stall

protected theorem State.Canon.vetting {rs vet f} (hf : ∀ {s}, s.Canon → Res.Canon (f s)) (hs : s.Canon) : Res.Canon (vetting rs vet f s) := by
  unfold vetting
  split
  · exact hs.trapNow
  · refine hs.reading ?_
    intro s hs
    split
    · exact hs.trapNow
    · exact hf hs

protected theorem State.Canon.execute {after store lat} (hs : s.Canon) : (s.execute after store lat).Canon := by
  unfold State.execute
  refine .tick ?_
  split
  · exact .ite hs (.put hs)
  · exact hs

protected theorem State.Canon.executeLoad {h} (hs : s.Canon) : (s.executeLoad h).Canon := .tick hs

protected theorem State.Canon.executePush {after c} (hs : s.Canon) : (s.executePush after c).Canon := .tick (.ite (.turnQueue hs) hs)

protected theorem State.Canon.finishIn {lat after} (hs : s.Canon) : Res.Canon (finishIn lat s after) := hs.execute

protected theorem State.Canon.finish {after} (hs : s.Canon) : Res.Canon (Machine.finish s after) := hs.finishIn

protected theorem State.Canon.finishReg {a x lat} (hs : s.Canon) : Res.Canon (finishReg s a x lat) := hs.finishIn

protected theorem State.Canon.finishValue {a x lat} (hs : s.Canon) : Res.Canon (finishValue s a x lat) := hs.finish

protected theorem State.Canon.finishRequest {a x lat} (hs : s.Canon) : Res.Canon (finishRequest s a x lat) := hs.finish

protected theorem State.Canon.meetFor {recs ready} (hs : s.Canon) : Met.Canon (s.meetFor recs ready) := by
  unfold State.meetFor
  refine canon_ite (canon_ite hs hs) (canon_ite hs ?_)
  split
  next hMeet => exact hs.meet.stay hMeet
  next hMeet => exact canon_ite (hs.meet.go hMeet) (hs.meet.go hMeet :)

protected theorem State.Canon.unbuffered {i f} (hf : ∀ {s}, s.Canon → Res.Canon (f s)) (hs : s.Canon) : Res.Canon (unbuffered i f s) :=
  canon_ite hs.trapNow (hf hs)

protected theorem State.Canon.meeting {recs ready f} (hf : ∀ {s}, s.Canon → Res.Canon (f s)) (hs : s.Canon) : Res.Canon (meeting recs ready f s) := by
  unfold meeting
  split
  next hMeetFor => exact hf (hs.meetFor.go hMeetFor)
  next hMeetFor => exact canon_ite (hs.meetFor.stay hMeetFor) ((hs.meetFor.stay hMeetFor).stall)

protected theorem State.Canon.push {i body last} (hs : s.Canon) : Res.Canon (push i body last s) := by
  unfold push
  split
  · exact hs.trapNow
  · refine canon_ite hs.stall (canon_ite (canon_ite hs.stall (canon_ite hs.trapNow hs.trapNow)) (hs.after ?_))
    intro s hs
    split
    · exact hs.trapNow
    · refine hs.reading (fun hs => canon_ite hs.deliver ?_)
      split
      · exact hs.trapNow
      · exact hs.executePush

protected theorem State.Canon.pushBind {i} (hs : s.Canon) : Res.Canon (pushBind i s) := by
  unfold pushBind
  dsimp only
  split
  · exact State.Canon.push (.foldl (fun hs => hs.scrubFetch) hs)
  · exact State.Canon.trapNow (.foldl (fun hs => hs.scrubFetch) hs)

/-! #### Control transfer -/

protected theorem State.Canon.finishJump {after target} (hs : s.Canon) : Res.Canon (finishJump s after target) := hs.execute

protected theorem State.Canon.branchOp {i a b off taken} (hs : s.Canon) : Res.Canon (branchOp i a b off taken s) :=
  hs.issue (fun hs => hs.reading (fun hs => canon_ite hs.finishJump hs.finish))

protected theorem State.Canon.jumpReg {after target} (hs : s.Canon) : Res.Canon (jumpReg s after target) := canon_ite hs.trapNow hs.finishJump

protected theorem State.Canon.loopOp {i extended cnt len imm base} (hs : s.Canon) : Res.Canon (loopOp i extended cnt len imm base s) :=
  hs.issue (fun hs => hs.reading (fun hs => canon_ite hs.trapNow (canon_ite hs.execute hs.execute)))

/-! #### Redundancy -/

protected theorem State.Canon.shareValue (hs : s.Canon) : s.shareValue.Canon := by
  unfold State.shareValue
  split
  · exact hs
  · exact hs.onUnits

protected theorem State.Canon.closeRegion (hs : s.Canon) : s.closeRegion.Canon := .ite hs (.ite hs (.emitAll hs))

/-! #### Floating point -/

protected theorem State.Canon.finishFlt {a r lat} (hs : s.Canon) : Res.Canon (finishFlt s a r lat) := canon_ite (State.Canon.trapNow hs) hs.finishIn

protected theorem State.Canon.fltOp2 {i single rm a b c lat f} (hs : s.Canon) : Res.Canon (fltOp2 i single rm a b c lat f s) :=
  hs.issue (fun hs => hs.reading (fun hs => hs.finishFlt))

protected theorem State.Canon.fltOp1 {i a b lat f} (hs : s.Canon) : Res.Canon (fltOp1 i a b lat f s) :=
  hs.issue (fun hs => hs.reading (fun hs => hs.finishFlt))

protected theorem State.Canon.fltBits2 {i single a b c f} (hs : s.Canon) : Res.Canon (fltBits2 i single a b c f s) :=
  hs.issue (fun hs => hs.reading (fun hs => hs.finishFlt))

/-! #### Loads and stores -/

protected theorem State.Canon.paged {k regs va f} (hf : ∀ {a0 s}, s.Canon → Res.Canon (f a0 s)) (hs : s.Canon) : Res.Canon (paged k regs va f s) := by
  unfold paged
  extract_lets
  split
  · exact hs.scrubWalk.trapNow
  · exact canon_ite hs.scrubWalk.stall (hf hs.scrubWalk)

protected theorem State.Canon.loadOut {h} (hs : s.Canon) : Res.Canon (loadOut h s) := by
  unfold loadOut
  split
  next hTryLoad => exact (hs.tryLoad.done hTryLoad).finishIn
  next hTryLoad => exact (hs.tryLoad.sent hTryLoad).executeLoad
  · exact hs.trapNow
  · exact hs.executeLoad

protected theorem State.Canon.loadMem {cls byp va p n dest} (hs : s.Canon) : Res.Canon (loadMem cls byp va p n dest s) := hs.loadOut

protected theorem State.Canon.loadReg {cls size va p done} (hdone : ∀ {s a1 a2}, s.Canon → Res.Canon (done s a1 a2)) (hs : s.Canon) :
    Res.Canon (loadReg cls size va p done s) := by
  unfold loadReg
  refine canon_ite hs.trapNow (hs.atCommit ?_)
  intro s hs
  split
  · exact hs.trapNow
  · exact canon_ite hs.stall (hdone hs)

protected theorem State.Canon.storeOut {want cls va addr data sect} (hs : s.Canon) : Res.Canon (storeOut want cls va addr data sect s) := hs.execute

protected theorem State.Canon.storeReg {cls size va p x} (hs : s.Canon) : Res.Canon (storeReg cls size va p x s) :=
  canon_ite hs.trapNow (canon_ite hs.storeOut hs.onDev.trapNow)

protected theorem State.Canon.linked {mask f} (hf : ∀ {s}, s.Canon → Res.Canon (f s)) (hs : s.Canon) : Res.Canon (linked mask f s) := by
  unfold linked
  split
  · exact State.Canon.trapNow hs
  · exact hf hs

protected theorem State.Canon.prefetch {cls va} (hs : s.Canon) : (s.prefetch cls va).Canon := by
  unfold State.prefetch
  dsimp only
  split
  · exact hs.scrubWalk
  · exact .ite hs.scrubWalk.prefetched hs.scrubWalk.sendOut

/-! #### CLASP requests -/

protected theorem State.Canon.noteSeen {g a n} (hs : s.Canon) : (s.noteSeen g a n).Canon := hs

protected theorem State.Canon.noteRead {cls a n} (hs : s.Canon) : (s.noteRead cls a n).Canon := hs

protected theorem State.Canon.claspWrite {g cls addr data own joins} (hs : s.Canon) : (s.claspWrite g cls addr data own joins).Canon := hs.admitPlain

protected theorem State.Canon.wake {key} (hs : s.Canon) : (s.wake key).Canon := hs

protected theorem State.Canon.endWait (hs : s.Canon) : s.endWait.Canon := hs

protected theorem State.Canon.keepWaiting (hs : s.Canon) : s.keepWaiting.Canon := hs

protected theorem State.Canon.perform {a rec f} (hf : ∀ {s}, s.Canon → Asked.Canon (f s)) (hs : s.Canon) : Res.Canon (perform a rec f s) := by
  unfold perform
  split
  next hAgree => exact (hs.agree.answer hAgree).takeAnswer.endWait.finishRequest
  next hAgree => exact (hs.agree.wait hAgree).stall
  next hAgree => exact hs.agree.gone hAgree
  next hAgree =>
    have h := hf (hs.agree.perform hAgree)
    split
    next e => exact (Asked.Canon.done e h).noteRequest.endWait.finishRequest
    next e => exact (Asked.Canon.wait e h).keepWaiting.stall
    next e => exact (Asked.Canon.trap e h).trapNow

protected theorem State.Canon.waitOn {num key here cls releases} (hs : s.Canon) : (s.waitOn num key here cls releases).Canon := hs

protected theorem State.Canon.sendRequest {key addr cls own writes} (hs : s.Canon) : (s.sendRequest key addr cls own writes).Canon :=
  .ite hs.waitOn.arriveRequest hs

protected theorem State.Canon.leaveQueue (hs : s.Canon) : s.leaveQueue.Canon := hs

protected theorem State.Canon.claspRequest {i a key addr cls mask own writes rec ready f} (hf : ∀ {s}, s.Canon → Asked.Canon (f s)) (hs : s.Canon) :
    Res.Canon (claspRequest i a key addr cls mask own writes rec ready f s) :=
  canon_ite (canon_ite (hs.leaveQueue.perform hf) hs.stall)
    (hs.linked (fun hs => hs.unbuffered (fun hs => hs.meeting (fun hs => canon_ite (hs.waitOn.perform hf) hs.sendRequest.stall))))

protected theorem State.Canon.withEntry {dev key addr tval f} (hf : ∀ {s a1}, s.Canon → Asked.Canon (f s a1)) (hs : s.Canon) :
    Asked.Canon (withEntry dev key addr tval f s) := by
  unfold withEntry
  split
  · exact hs
  · exact hf hs.setDev

protected theorem State.Canon.placed {k n va f} (hf : ∀ {a0 s}, s.Canon → Res.Canon (f a0 s)) (hs : s.Canon) : Res.Canon (placed k n va f s) := by
  unfold placed
  extract_lets
  split
  · exact State.Canon.trapNow (.ite hs.scrubWalk hs)
  · exact canon_ite (State.Canon.stall (.ite hs.scrubWalk hs)) (hf (.ite hs.scrubWalk hs))

protected theorem State.Canon.claspOp {i a b c d k n cls mask rel f} (hf : ∀ {a0 a1 s a3}, s.Canon → Asked.Canon (f a0 a1 s a3)) (hs : s.Canon) :
    Res.Canon (claspOp i a b c d k n cls mask rel f s) :=
  hs.issue (fun hs => hs.reading (fun hs => hs.atCommit (fun hs => hs.placed (fun hs =>
    hs.claspRequest (fun hs => canon_ite hs (hs.scrub.withEntry hf))))))

protected theorem State.Canon.bindRing {dev sec ring x} (hs : s.Canon) : (s.bindRing dev sec ring x).Canon := by
  unfold State.bindRing
  extract_lets s1 lose
  have h1 : s1.Canon := hs.onDev
  exact h1

protected theorem State.Canon.setRing {dev index r} (hs : s.Canon) : (s.setRing dev index r).Canon := hs.onDev

protected theorem State.Canon.noteRing {rs} (hs : s.Canon) : (s.noteRing rs).Canon := hs

protected theorem State.Canon.ringOp {i a b c mask rel writes f}
    (hf : ∀ {r ring put lat s}, (∀ {r}, (put r).Canon) → s.Canon → Asked.Canon (f r ring put lat s)) (hs : s.Canon) :
    Res.Canon (ringOp i a b c mask rel writes f s) := by
  unfold ringOp
  refine hs.issue (fun hs => hs.vetting (fun hs => hs.atCommit ?_))
  intro s hs
  extract_lets
  split
  · exact hs.trapNow
  · refine canon_ite hs.trapNow (hs.claspRequest (fun hs => hs.withEntry ?_))
    intro s x hs
    split
    · exact hs
    · exact hf hs.setRing hs

/-! #### Atomics and rings -/

protected theorem State.Canon.atomicOp {i small sem scope oc mask a b c d op back} (hs : s.Canon) :
    Res.Canon (atomicOp i small sem scope oc mask a b c d op back s) := by
  unfold atomicOp
  refine hs.claspOp fun {_ addr s1 lat} hs => ?_
  extract_lets g low old r s2 t known t2
  have ht : t.Canon := by
    subst t
    split
    · exact hs.noteSeen.noteRead.claspWrite
    · exact hs.noteSeen.noteRead
  exact ht

protected theorem State.Canon.atomicInt {i w sem scope oc mask a b c op} (hs : s.Canon) : Res.Canon (atomicInt i w sem scope oc mask a b c op s) := by
  unfold atomicInt
  exact hs.atomicOp

protected theorem State.Canon.acquired {scope addr n} (hs : s.Canon) : (s.acquired scope addr n).Canon := hs.noteSeen.noteRead.acquireAt

/-! #### Tasks -/

protected theorem State.Canon.taskScrub {dev xbase va n} (hs : s.Canon) : (s.taskScrub dev xbase va n).Canon := by
  unfold State.taskScrub
  refine .ite hs (.foldl ?_ hs)
  intro s x hs
  split
  · exact hs
  · exact hs.scrub

protected theorem State.Canon.whenBooted (hs : s.Canon) : s.whenBooted.Canon := hs

protected theorem State.Canon.setStatus {dev t st} (hs : s.Canon) : (s.setStatus dev t st).Canon := hs.onDev.writeStatus

protected theorem State.Canon.refreshEligible (hs : s.Canon) : s.refreshEligible.Canon := .foldl (fun hs => hs.setStatus.onDev) hs

protected theorem State.Canon.accept {dev record secureBy releases} (hs : s.Canon) : (s.accept dev record secureBy releases).1.Canon := by
  unfold State.accept
  dsimp only
  split
  · exact hs.scrubRun.taskScrub.taskScrub
  · exact hs.scrubRun.taskScrub.taskScrub.writeStatus
  · exact hs.scrubRun.taskScrub.taskScrub.setDev.writeStatus.refreshEligible

protected theorem State.Canon.giveBanks {t keeps at_} (hs : s.Canon) : (s.giveBanks t keeps at_).Canon :=
  .foldl (fun hs => .onDev (.ite (.ite hs hs.clearBank.onDev) hs.changeMode)) hs

protected theorem State.Canon.start_ {dev t replicas inherit} (hs : s.Canon) : (s.start_ dev t replicas inherit).Canon :=
  .setStatus (.foldl (fun hs => hs.onDev) (.onDev
    (.foldl (fun hs => .foldl (fun hs => hs.setUnit) hs) (.foldl (fun hs => hs.giveBanks) (.foldl (fun hs => hs.disown) hs)))))

protected theorem State.Canon.widenFormer {g} (hs : s.Canon) : (s.widenFormer g).Canon := .fold hs

protected theorem State.Canon.widenAll {u} (hs : s.Canon) : (s.widenAll u).Canon := .fold hs

protected theorem State.Canon.fillArea {dev t} (hs : s.Canon) : (s.fillArea dev t).Canon := by
  unfold State.fillArea
  refine .withFree (.foldl ?_ hs)
  intro s x hs
  split
  · exact hs
  · exact .ite hs hs.masterWrite

protected theorem State.Canon.checkpoint {dev t} (hs : s.Canon) : (s.checkpoint dev t).Canon := by
  unfold State.checkpoint
  exact .onDev (.setStatus (.releaseTask (.foldl (fun hs => hs.setUnit) (.fillArea (.foldl (fun hs => hs.widenAll) hs)))))

protected theorem State.Canon.restore {t} (hs : s.Canon) : (s.restore t).Canon := by
  unfold State.restore
  refine .foldl (fun hs => hs.setUnit) (.foldl ?_ (.foldl ?_ (.foldl ?_ hs)))
  · intro s x hs
    split
    · exact hs
    · exact Memory.foldl_write_wf hs
  · intro s x hs
    split
    · exact hs
    · exact hs.onDev
  · intro s x hs
    split
    · exact hs
    · exact hs.changeMode

protected theorem State.Canon.placeTask {dev t replicas} (hs : s.Canon) : (s.placeTask dev t replicas).Canon := by
  unfold State.placeTask
  extract_lets
  split
  · exact hs.start_
  · exact .ite hs.start_ hs.start_.restore.onDev

protected theorem State.Canon.decrement {cls here va} (hs : s.Canon) : Dec.Canon (s.decrement cls here va) := by
  unfold State.decrement
  extract_lets place walk s1
  have hs1 : s1.Canon := .ite hs.scrubWalk hs
  clear_value s1 place
  split
  · exact hs1
  · extract_lets key s2
    have hs2 : s2.Canon := hs1.scrub
    clear_value s2
    refine canon_ite hs1 (canon_ite hs1 ?_)
    split
    · exact hs2
    · extract_lets s3 x
      have hs3 : s3.Canon := hs2.setDev
      clear_value s3 x
      exact canon_ite hs3 hs3.claspWrite.wake

protected theorem State.Canon.decrementAll {dev id cls atExit y l y2 y3} (hs : s.Canon) :
    Dec.Canon (State.decrementAll dev id cls atExit y l y2 y3 s) := by
  induction l generalizing y y2 y3 s with
  | nil => exact hs
  | cons e l ih =>
    unfold State.decrementAll
    have hd {cls here va} : Dec.Canon (s.decrement cls here va) := hs.decrement
    split
    · exact hs
    · refine canon_ite (ih hs) ?_
      split
      next h => exact canon_ite (ih hs) (Dec.Canon.trap h hd)
      next h => exact Dec.Canon.away h hd
      next h => exact ih (Dec.Canon.done h hd).onDev

protected theorem State.Canon.freeTask {t} (hs : s.Canon) : (s.freeTask t).Canon := .releaseTask (.foldl (fun hs => hs.setUnit) hs)

protected theorem State.Canon.completeTask {dev t} (hs : s.Canon) : (s.completeTask dev t).Canon := by
  unfold State.completeTask
  extract_lets lead va s1 s2 record old s3 r s4
  have h1 : s1.Canon := .foldl (fun hs => hs.widenFormer) (.foldl (fun hs => hs.widenAll) hs)
  have h2 : s2.Canon := h1.onUnit fun {s} hs => by
    have hd {dev id cls atExit y l y2 y3} : Dec.Canon (s.decrementAll dev id cls atExit y l y2 y3) := hs.decrementAll
    split
    next h => exact Dec.Canon.done h hd
    next h => exact Dec.Canon.trap h hd
    next h => exact Dec.Canon.away h hd
  have h3 : s3.Canon := h2.setStatus.onDev
  clear_value s1 s2 s3
  have h4 : s4.Canon := by
    subst s4 r
    clear_value record
    cases record with
    | none => exact h3
    | some pa =>
      dsimp only
      split
      next h => exact .fst h h3.accept
      next h => exact .fst h h3.accept
  clear_value s4
  split
  · exact h4.freeTask.refreshEligible.onDev
  · exact .ite (State.Canon.start_ (.foldl (fun hs => hs.setUnit) (.foldl (fun hs => hs.onDev.admitHeldOf) h4))).refreshEligible.onDev
      h4.freeTask.refreshEligible.onDev

protected theorem State.Canon.carryOut {dev n e} (hs : s.Canon) : (s.carryOut dev n e).Canon := by
  unfold State.carryOut
  split
  · exact .foldl (fun hs => hs.onDev) hs
  · exact hs.checkpoint
  · exact hs.killTask

protected theorem State.Canon.preempt {dev n} (hs : s.Canon) : (s.preempt dev n).Canon := by
  unfold State.preempt
  refine .ite hs ?_
  split
  · exact hs
  · exact .ite hs (.ite (.foldl (fun hs => hs.carryOut) hs) (.masterWrite (.onDev (.foldl (fun hs => hs.carryOut) hs))))

/-! #### System instructions -/

protected theorem State.Canon.privileged {i f} (hf : ∀ {s}, s.Canon → Res.Canon (f s)) (hs : s.Canon) : Res.Canon (privileged i f s) :=
  canon_ite (hf hs) hs.trapNow

protected theorem State.Canon.binderRequest {a rec cls f} (hf : ∀ {s}, s.Canon → Dec.Canon (f s)) (hs : s.Canon) :
    Res.Canon (binderRequest a rec cls f s) := by
  unfold binderRequest
  extract_lets done
  have hdone : ∀ {s x lat}, s.Canon → (done s x lat).Canon := fun hs => hs.endWait.finishRequest
  clear_value done
  split
  next hAgree => exact hdone (hs.agree.answer hAgree).takeAnswer
  next hAgree => exact (hs.agree.wait hAgree).stall
  next hAgree => exact hs.agree.gone hAgree
  next hAgree =>
    have h := hf (hs.agree.perform hAgree)
    split
    next e => exact hdone (Dec.Canon.done e h).noteRequest
    next e => exact (Dec.Canon.trap e h).trapNow
    next e => exact (Dec.Canon.away e h).sendRequest.stall

protected theorem State.Canon.binderMeeting {i rec ready f} (hf : ∀ {s}, s.Canon → Res.Canon (f s)) (hs : s.Canon) :
    Res.Canon (binderMeeting i rec ready f s) :=
  canon_ite (hf hs) (hs.unbuffered (fun hs => hs.meeting (fun hs => hf hs.waitOn)))

protected theorem State.Canon.depdecOp {i a oc operand pick} (hs : s.Canon) : Res.Canon (depdecOp i a oc operand pick s) := by
  unfold depdecOp
  refine hs.binderMeeting (fun hs => canon_ite hs.stall (hs.leaveQueue.binderRequest ?_))
  intro s hs
  split
  · exact hs
  · split
    next hDecrementAll => exact (hs.decrementAll.done hDecrementAll).refreshEligible
    next hDecrementAll => exact (hs.decrementAll.trap hDecrementAll).refreshEligible
    next hDecrementAll => exact (hs.decrementAll.away hDecrementAll).refreshEligible

protected theorem State.Canon.yielded {a} (hs : s.Canon) : (s.yielded a).Canon := hs.onUnits

protected theorem State.Canon.finishLoad (hs : s.Canon) : s.finishLoad.Canon := by
  unfold State.finishLoad
  split
  · dsimp only
    split <;> exact hs.taskScrub
  · exact hs

protected theorem State.Canon.bindShadow {l y} (hs : s.Canon) : EitherWay (fun _ => True) (fun x => x.1.Canon) (bindShadow l y s) := by
  induction l generalizing y s with
  | nil => exact hs
  | cons e l ih =>
    unfold bindShadow
    extract_lets
    split
    · exact trivial
    · exact ih hs.setDev.bindRing

/-! #### Events of units -/

protected theorem State.Canon.unitEvent {g f} (hf : ∀ {s}, s.Canon → (f s).Canon) (hs : s.Canon) : Res.Canon (unitEvent g f s) :=
  canon_ite (hs.onUnit hf) trivial

protected theorem State.Canon.unitTurn {g f} (hf : ∀ {s}, s.Canon → Res.Canon (f s)) (hs : s.Canon) : Res.Canon (unitTurn g f s) := by
  unfold unitTurn
  have h := hf (hs.switchTo (g := g))
  refine canon_ite ?_ trivial
  split
  next e => exact (Res.Canon.next e h).switchTo
  · trivial
  · trivial

protected theorem State.Canon.deviceEvent {n f} (hf : ∀ {s}, s.Canon → (f s).Canon) (hs : s.Canon) : Res.Canon (deviceEvent n f s) :=
  canon_ite (hf hs) trivial

protected theorem State.Canon.retireOne {q} (hs : s.Canon) : (s.retireOne q).Canon := hs.retirePass

protected theorem State.Canon.walkScrub {g xbase va} (hs : s.Canon) : (s.walkScrub g xbase va).Canon := .ite hs (.foldl (fun hs => hs.scrub) hs)

protected theorem State.Canon.katTest {unit row pass} (hs : s.Canon) : (s.katTest unit row pass).Canon := .ite hs (.ite hs (.deliver hs))

/-! #### Integer operations -/

protected theorem State.Canon.intOp {i a b c lat f} (hs : s.Canon) : Res.Canon (intOp i a b c lat f s) :=
  hs.issue (fun hs => hs.reading (fun hs => hs.finishReg))

protected theorem State.Canon.divOp {i w a b c f} (hs : s.Canon) : Res.Canon (divOp i w a b c f s) :=
  hs.issue (fun hs => hs.reading (fun hs => canon_ite hs.trapNow hs.finishReg))

/-! #### Immediates -/

protected theorem State.Canon.immOp {i a b lat f} (hs : s.Canon) : Res.Canon (immOp i a b lat f s) :=
  hs.issue (fun hs => hs.reading (fun hs => hs.finishReg))

/-! #### Events of devices -/

protected theorem State.Canon.masterEvent {dev master off value} (hs : s.Canon) : Res.Canon (masterEvent dev master off value s) :=
  hs.deviceEvent (fun hs => .ite hs hs.registerWrite)

protected theorem State.Canon.startCores {n entry} (hs : s.Canon) : (s.startCores n entry).Canon := .foldl (fun hs => hs.setUnit) hs

end

section
variable {s t : State}

protected theorem State.Canon.execPush {i} (hs : s.Canon) : Res.Canon (execPush i s) := hs.issue (fun hs => hs.push)

/-! #### Class 0: integer operations -/

protected theorem State.Canon.execAdd {w a b c} (hs : s.Canon) : Res.Canon (execAdd w a b c s) := hs.intOp
protected theorem State.Canon.execSub {w a b c} (hs : s.Canon) : Res.Canon (execSub w a b c s) := hs.intOp
protected theorem State.Canon.execMul {w a b c} (hs : s.Canon) : Res.Canon (execMul w a b c s) := hs.intOp
protected theorem State.Canon.execMulh {w a b c} (hs : s.Canon) : Res.Canon (execMulh w a b c s) := hs.intOp
protected theorem State.Canon.execMulhu {w a b c} (hs : s.Canon) : Res.Canon (execMulhu w a b c s) := hs.intOp
protected theorem State.Canon.execDiv {w a b c} (hs : s.Canon) : Res.Canon (execDiv w a b c s) := hs.divOp
protected theorem State.Canon.execDivu {w a b c} (hs : s.Canon) : Res.Canon (execDivu w a b c s) := hs.divOp
protected theorem State.Canon.execRem {w a b c} (hs : s.Canon) : Res.Canon (execRem w a b c s) := hs.divOp
protected theorem State.Canon.execRemu {w a b c} (hs : s.Canon) : Res.Canon (execRemu w a b c s) := hs.divOp
protected theorem State.Canon.execAndI {w a b c} (hs : s.Canon) : Res.Canon (execAndI w a b c s) := hs.intOp
protected theorem State.Canon.execOrI {w a b c} (hs : s.Canon) : Res.Canon (execOrI w a b c s) := hs.intOp
protected theorem State.Canon.execXorI {w a b c} (hs : s.Canon) : Res.Canon (execXorI w a b c s) := hs.intOp
protected theorem State.Canon.execAndn {w a b c} (hs : s.Canon) : Res.Canon (execAndn w a b c s) := hs.intOp
protected theorem State.Canon.execShl {w a b c} (hs : s.Canon) : Res.Canon (execShl w a b c s) := hs.intOp
protected theorem State.Canon.execShr {w a b c} (hs : s.Canon) : Res.Canon (execShr w a b c s) := hs.intOp
protected theorem State.Canon.execSar {w a b c} (hs : s.Canon) : Res.Canon (execSar w a b c s) := hs.intOp
protected theorem State.Canon.execRor {w a b c} (hs : s.Canon) : Res.Canon (execRor w a b c s) := hs.intOp
protected theorem State.Canon.execMinI {w a b c} (hs : s.Canon) : Res.Canon (execMinI w a b c s) := hs.intOp
protected theorem State.Canon.execMaxI {w a b c} (hs : s.Canon) : Res.Canon (execMaxI w a b c s) := hs.intOp
protected theorem State.Canon.execMinu {w a b c} (hs : s.Canon) : Res.Canon (execMinu w a b c s) := hs.intOp
protected theorem State.Canon.execMaxu {w a b c} (hs : s.Canon) : Res.Canon (execMaxu w a b c s) := hs.intOp
protected theorem State.Canon.execSeq {w a b c} (hs : s.Canon) : Res.Canon (execSeq w a b c s) := hs.intOp
protected theorem State.Canon.execSne {w a b c} (hs : s.Canon) : Res.Canon (execSne w a b c s) := hs.intOp
protected theorem State.Canon.execSlt {w a b c} (hs : s.Canon) : Res.Canon (execSlt w a b c s) := hs.intOp
protected theorem State.Canon.execSltu {w a b c} (hs : s.Canon) : Res.Canon (execSltu w a b c s) := hs.intOp
protected theorem State.Canon.execSel {w a b c d} (hs : s.Canon) : Res.Canon (execSel w a b c d s) :=
  hs.issue (fun hs => hs.reading (fun hs => hs.finishReg))
protected theorem State.Canon.execClz {w a b} (hs : s.Canon) : Res.Canon (execClz w a b s) := hs.issue (fun hs => hs.reading (fun hs => hs.finishReg))
protected theorem State.Canon.execCtz {w a b} (hs : s.Canon) : Res.Canon (execCtz w a b s) := hs.issue (fun hs => hs.reading (fun hs => hs.finishReg))
protected theorem State.Canon.execPopc {w a b} (hs : s.Canon) : Res.Canon (execPopc w a b s) :=
  hs.issue (fun hs => hs.reading (fun hs => hs.finishReg))
protected theorem State.Canon.execBfx {w a b c d} (hs : s.Canon) : Res.Canon (execBfx w a b c d s) :=
  hs.issue (fun hs => hs.reading (fun hs => hs.finishReg))
protected theorem State.Canon.execBfi {w a b c d} (hs : s.Canon) : Res.Canon (execBfi w a b c d s) :=
  hs.issue (fun hs => hs.reading (fun hs => hs.finishReg))
protected theorem State.Canon.execMadd {w a b c d} (hs : s.Canon) : Res.Canon (execMadd w a b c d s) :=
  hs.issue (fun hs => hs.reading (fun hs => hs.finishReg))

/-! #### Class 1: immediates -/

protected theorem State.Canon.execAddi {w a b imm} (hs : s.Canon) : Res.Canon (execAddi w a b imm s) := hs.immOp
protected theorem State.Canon.execAndi {a b imm} (hs : s.Canon) : Res.Canon (execAndi a b imm s) := hs.immOp
protected theorem State.Canon.execOri {a b imm} (hs : s.Canon) : Res.Canon (execOri a b imm s) := hs.immOp
protected theorem State.Canon.execXori {a b imm} (hs : s.Canon) : Res.Canon (execXori a b imm s) := hs.immOp
protected theorem State.Canon.execShli {w a b amt} (hs : s.Canon) : Res.Canon (execShli w a b amt s) := hs.immOp
protected theorem State.Canon.execShri {w a b amt} (hs : s.Canon) : Res.Canon (execShri w a b amt s) := hs.immOp
protected theorem State.Canon.execSari {w a b amt} (hs : s.Canon) : Res.Canon (execSari w a b amt s) := hs.immOp
protected theorem State.Canon.execSlti {a b imm} (hs : s.Canon) : Res.Canon (execSlti a b imm s) := hs.immOp
protected theorem State.Canon.execSltiu {a b imm} (hs : s.Canon) : Res.Canon (execSltiu a b imm s) := hs.immOp
protected theorem State.Canon.execMovi {a imm} (hs : s.Canon) : Res.Canon (execMovi a imm s) := hs.issue (fun hs => hs.finishReg)
protected theorem State.Canon.execMovhi {a b imm} (hs : s.Canon) : Res.Canon (execMovhi a b imm s) := hs.immOp
protected theorem State.Canon.execMuli {w a b imm} (hs : s.Canon) : Res.Canon (execMuli w a b imm s) := hs.immOp
protected theorem State.Canon.execLea {a imm} (hs : s.Canon) : Res.Canon (execLea a imm s) := hs.issue (fun hs => hs.finishReg)

/-! #### Class 2: floating point -/

protected theorem State.Canon.execFadd {single rm a b c} (hs : s.Canon) : Res.Canon (execFadd single rm a b c s) := hs.fltOp2
protected theorem State.Canon.execFsub {single rm a b c} (hs : s.Canon) : Res.Canon (execFsub single rm a b c s) := hs.fltOp2
protected theorem State.Canon.execFmul {single rm a b c} (hs : s.Canon) : Res.Canon (execFmul single rm a b c s) := hs.fltOp2
protected theorem State.Canon.execFfma {single rm a b c d} (hs : s.Canon) : Res.Canon (execFfma single rm a b c d s) :=
  hs.issue (fun hs => hs.reading (fun hs => hs.finishFlt))
protected theorem State.Canon.execFdiv {single rm a b c} (hs : s.Canon) : Res.Canon (execFdiv single rm a b c s) := hs.fltOp2
protected theorem State.Canon.execFsqrt {single rm a b} (hs : s.Canon) : Res.Canon (execFsqrt single rm a b s) := hs.fltOp1
protected theorem State.Canon.execFmin {single a b c} (hs : s.Canon) : Res.Canon (execFmin single a b c s) := hs.fltBits2
protected theorem State.Canon.execFmax {single a b c} (hs : s.Canon) : Res.Canon (execFmax single a b c s) := hs.fltBits2
protected theorem State.Canon.execFceq {single a b c} (hs : s.Canon) : Res.Canon (execFceq single a b c s) := hs.fltBits2
protected theorem State.Canon.execFclt {single a b c} (hs : s.Canon) : Res.Canon (execFclt single a b c s) := hs.fltBits2
protected theorem State.Canon.execFcle {single a b c} (hs : s.Canon) : Res.Canon (execFcle single a b c s) := hs.fltBits2
protected theorem State.Canon.execFcvti {sat single rm a b} (hs : s.Canon) : Res.Canon (execFcvti sat single rm a b s) := hs.fltOp1
protected theorem State.Canon.execFcvtf {single rm a b kind} (hs : s.Canon) : Res.Canon (execFcvtf single rm a b kind s) := hs.fltOp1
protected theorem State.Canon.execFcvtw {sat single rm a b} (hs : s.Canon) : Res.Canon (execFcvtw sat single rm a b s) := hs.fltOp1
protected theorem State.Canon.execFabs {single a b} (hs : s.Canon) : Res.Canon (execFabs single a b s) := hs.fltOp1
protected theorem State.Canon.execFneg {single a b} (hs : s.Canon) : Res.Canon (execFneg single a b s) := hs.fltOp1
protected theorem State.Canon.execFclass {single a b} (hs : s.Canon) : Res.Canon (execFclass single a b s) := hs.fltOp1

/-! #### Class 3: control transfer -/

protected theorem State.Canon.execBr {off} (hs : s.Canon) : Res.Canon (execBr off s) := hs.issue (fun hs => hs.finishJump)
protected theorem State.Canon.execBeq {a b off} (hs : s.Canon) : Res.Canon (execBeq a b off s) := hs.branchOp
protected theorem State.Canon.execBne {a b off} (hs : s.Canon) : Res.Canon (execBne a b off s) := hs.branchOp
protected theorem State.Canon.execBlt {a b off} (hs : s.Canon) : Res.Canon (execBlt a b off s) := hs.branchOp
protected theorem State.Canon.execBge {a b off} (hs : s.Canon) : Res.Canon (execBge a b off s) := hs.branchOp
protected theorem State.Canon.execBltu {a b off} (hs : s.Canon) : Res.Canon (execBltu a b off s) := hs.branchOp
protected theorem State.Canon.execBgeu {a b off} (hs : s.Canon) : Res.Canon (execBgeu a b off s) := hs.branchOp
protected theorem State.Canon.execCall {a off} (hs : s.Canon) : Res.Canon (execCall a off s) := hs.issue (fun hs => hs.finishJump)
protected theorem State.Canon.execCallr {a b} (hs : s.Canon) : Res.Canon (execCallr a b s) := hs.issue (fun hs => hs.reading (fun hs => hs.jumpReg))
protected theorem State.Canon.execRet {b} (hs : s.Canon) : Res.Canon (execRet b s) := hs.issue (fun hs => hs.reading (fun hs => hs.jumpReg))
protected theorem State.Canon.execJmpr {b} (hs : s.Canon) : Res.Canon (execJmpr b s) := hs.issue (fun hs => hs.reading (fun hs => hs.jumpReg))
protected theorem State.Canon.execLoop {cnt len imm base} (hs : s.Canon) : Res.Canon (execLoop cnt len imm base s) := hs.loopOp
protected theorem State.Canon.execLoopx {cnt len imm base} (hs : s.Canon) : Res.Canon (execLoopx cnt len imm base s) := hs.loopOp
protected theorem State.Canon.execNop (hs : s.Canon) : Res.Canon (execNop s) := hs.issue (fun hs => hs.finish)
protected theorem State.Canon.execBrk {code} (hs : s.Canon) : Res.Canon (execBrk code s) := hs.issue (fun hs => hs.trapNow)

/-! #### Class 4: memory -/

protected theorem State.Canon.execLd {size sx byp oc a b imm} (hs : s.Canon) : Res.Canon (execLd size sx byp oc a b imm s) :=
  hs.issue (fun hs => hs.reading (fun hs => canon_ite hs.trapNow (hs.paged (fun hs => canon_ite (hs.loadReg (fun hs => hs.finishReg)) hs.loadMem))))
protected theorem State.Canon.execSt {size oc a b imm} (hs : s.Canon) : Res.Canon (execSt size oc a b imm s) :=
  hs.issue (fun hs => hs.reading (fun hs => canon_ite hs.trapNow (hs.paged (fun hs => canon_ite hs.storeReg hs.storeOut))))

protected theorem State.Canon.execLds {size sx oc a b imm} (hs : s.Canon) : Res.Canon (execLds size sx oc a b imm s) := by
  unfold execLds
  refine hs.issue (fun hs => hs.reading (fun hs => canon_ite hs.trapNow ?_))
  split
  · exact hs.trapNow
  · exact hs.loadOut

protected theorem State.Canon.execSts {size oc a b imm} (hs : s.Canon) : Res.Canon (execSts size oc a b imm s) := by
  unfold execSts
  refine hs.issue (fun hs => hs.reading (fun hs => canon_ite hs.trapNow ?_))
  split
  · exact hs.trapNow
  · exact hs.storeOut

protected theorem State.Canon.execFence {sem scope mask} (hs : s.Canon) : Res.Canon (execFence sem scope mask s) := by
  unfold execFence
  refine hs.issue (fun hs => hs.atCommit (fun hs => hs.linked ?_))
  intro s hs
  split
  · exact hs.unbuffered (fun hs => hs.meeting (fun hs => hs.finish))
  · exact canon_ite hs.finish hs.stall

protected theorem State.Canon.execL1inv {b c} (hs : s.Canon) : Res.Canon (execL1inv b c s) :=
  hs.issue (fun hs => hs.reading (fun hs => hs.atCommit (fun hs => hs.finish)))
protected theorem State.Canon.execPref {oc b c} (hs : s.Canon) : Res.Canon (execPref oc b c s) :=
  hs.issue (fun hs => hs.reading (fun hs => State.Canon.finish (.ite hs (.foldl (fun hs => hs.prefetch) hs))))

protected theorem State.Canon.execBankmode {a b c} (hs : s.Canon) : Res.Canon (execBankmode a b c s) := by
  unfold execBankmode
  refine hs.issue (fun hs => hs.vetting (fun hs => hs.atCommit ?_))
  intro s hs
  extract_lets
  split
  · exact hs.trapNow
  · exact canon_ite (canon_ite hs.onDev.finish hs.stall) (canon_ite hs.finishReg (canon_ite hs.onDev.stall (canon_ite hs.stall hs.onDev.finish)))

protected theorem State.Canon.execDset {da b q} (hs : s.Canon) : Res.Canon (execDset da b q s) :=
  hs.issue (fun hs => hs.reading (fun hs => hs.finish))
protected theorem State.Canon.execDget {a db q} (hs : s.Canon) : Res.Canon (execDget a db q s) :=
  hs.issue (fun hs => hs.reading (fun hs => hs.finishReg))
protected theorem State.Canon.execDld {oc da b} (hs : s.Canon) : Res.Canon (execDld oc da b s) :=
  hs.issue (fun hs => hs.reading (fun hs => canon_ite hs.trapNow (hs.paged (fun hs => hs.loadMem))))

/-! #### Class 5: synchronisation -/

protected theorem State.Canon.execAadd {w sem scope oc mask a b c} (hs : s.Canon) : Res.Canon (execAadd w sem scope oc mask a b c s) := hs.atomicInt
protected theorem State.Canon.execAand {w sem scope oc mask a b c} (hs : s.Canon) : Res.Canon (execAand w sem scope oc mask a b c s) := hs.atomicInt
protected theorem State.Canon.execAor {w sem scope oc mask a b c} (hs : s.Canon) : Res.Canon (execAor w sem scope oc mask a b c s) := hs.atomicInt
protected theorem State.Canon.execAxor {w sem scope oc mask a b c} (hs : s.Canon) : Res.Canon (execAxor w sem scope oc mask a b c s) := hs.atomicInt
protected theorem State.Canon.execAmin {w sem scope oc mask a b c} (hs : s.Canon) : Res.Canon (execAmin w sem scope oc mask a b c s) := hs.atomicInt
protected theorem State.Canon.execAmax {w sem scope oc mask a b c} (hs : s.Canon) : Res.Canon (execAmax w sem scope oc mask a b c s) := hs.atomicInt
protected theorem State.Canon.execAminu {w sem scope oc mask a b c} (hs : s.Canon) : Res.Canon (execAminu w sem scope oc mask a b c s) := hs.atomicInt
protected theorem State.Canon.execAmaxu {w sem scope oc mask a b c} (hs : s.Canon) : Res.Canon (execAmaxu w sem scope oc mask a b c s) := hs.atomicInt
protected theorem State.Canon.execAswap {w sem scope oc mask a b c} (hs : s.Canon) : Res.Canon (execAswap w sem scope oc mask a b c s) := hs.atomicInt
protected theorem State.Canon.execAcas {w sem scope oc mask a b c d} (hs : s.Canon) : Res.Canon (execAcas w sem scope oc mask a b c d s) :=
  hs.atomicOp

protected theorem State.Canon.execAfadd {single sem scope oc mask a b c} (hs : s.Canon) : Res.Canon (execAfadd single sem scope oc mask a b c s) := by
  unfold execAfadd
  exact hs.atomicOp

protected theorem State.Canon.execBarr {scope mask a b c} (hs : s.Canon) : Res.Canon (execBarr scope mask a b c s) := by
  unfold execBarr
  refine hs.claspOp (fun hs => canon_ite hs ?_)
  split
  · exact canon_ite hs.onDev.acquired hs
  · exact canon_ite hs.noteSeen.claspWrite.wake.onDev.acquired hs.noteSeen.claspWrite.wake.onDev

protected theorem State.Canon.execBwait {scope mask a b c} (hs : s.Canon) : Res.Canon (execBwait scope mask a b c s) :=
  hs.claspOp (fun hs => canon_ite hs.noteSeen hs.acquired)

protected theorem State.Canon.execMwait {scope mask a b c} (hs : s.Canon) : Res.Canon (execMwait scope mask a b c s) := by
  unfold execMwait
  refine hs.claspOp fun {_ addr s1 lat} hs => ?_
  extract_lets looks x s2
  have h2 : s2.Canon := hs.noteSeen
  clear_value s2 looks x
  split
  · exact hs
  · split
    · exact h2
    · exact h2.acquired

protected theorem State.Canon.execMsig {scope mask b c} (hs : s.Canon) : Res.Canon (execMsig scope mask b c s) :=
  hs.claspOp (fun hs => hs.claspWrite.wake)

protected theorem State.Canon.execRinit {a b c} (hs : s.Canon) : Res.Canon (execRinit a b c s) := by
  unfold execRinit
  refine hs.issue (fun hs => hs.vetting (fun hs => hs.atCommit ?_))
  intro s hs
  extract_lets
  split
  · exact hs.trapNow
  · exact hs.claspRequest (fun hs => canon_ite hs (hs.withEntry (fun hs => hs.bindRing)))

protected theorem State.Canon.execRclaim {a b} (hs : s.Canon) : Res.Canon (execRclaim a b s) := hs.ringOp (fun hput _ => hput.noteRing)
protected theorem State.Canon.execRwaite {a b c} (hs : s.Canon) : Res.Canon (execRwaite a b c s) :=
  hs.ringOp (fun _ hs => canon_ite hs (canon_ite hs.noteRing hs))
protected theorem State.Canon.execRcommit {mask b c} (hs : s.Canon) : Res.Canon (execRcommit mask b c s) :=
  hs.ringOp (fun hput hs => canon_ite hs hput)
protected theorem State.Canon.execRwaitf {mask a b} (hs : s.Canon) : Res.Canon (execRwaitf mask a b s) :=
  hs.ringOp (fun _ hs => canon_ite hs (.noteRing hs))
protected theorem State.Canon.execRtake {b c} (hs : s.Canon) : Res.Canon (execRtake b c s) := hs.ringOp (fun hput hs => canon_ite hs hput)
protected theorem State.Canon.execRstat {a b k} (hs : s.Canon) : Res.Canon (execRstat a b k s) := hs.ringOp (fun _ hs => hs.noteRing)
protected theorem State.Canon.execTwait {a q} (hs : s.Canon) : Res.Canon (execTwait a q s) :=
  hs.issue (fun hs => hs.atCommit (fun hs => canon_ite (canon_ite hs.stall hs.trapNow) (State.Canon.finishReg hs)))
protected theorem State.Canon.execTgive {q} (hs : s.Canon) : Res.Canon (execTgive q s) :=
  hs.issue (fun hs => hs.atCommit (fun hs => canon_ite hs.trapNow hs.finish))

protected theorem State.Canon.execYpop {a} (hs : s.Canon) : Res.Canon (execYpop a s) := by
  unfold execYpop
  refine hs.issue (fun hs => hs.atCommit ?_)
  intro s hs
  split
  · exact State.Canon.finishReg hs
  · exact canon_ite hs.stall hs.trapNow

protected theorem State.Canon.execYpeek {a b} (hs : s.Canon) : Res.Canon (execYpeek a b s) := hs.issue (fun hs => hs.finish)

/-! #### Class 6: vector -/

protected theorem State.Canon.execVadd {h mk f a b c} (hs : s.Canon) : Res.Canon (execVadd h mk f a b c s) := hs.execPush
protected theorem State.Canon.execVsub {h mk f a b c} (hs : s.Canon) : Res.Canon (execVsub h mk f a b c s) := hs.execPush
protected theorem State.Canon.execVmul {h mk f a b c} (hs : s.Canon) : Res.Canon (execVmul h mk f a b c s) := hs.execPush
protected theorem State.Canon.execVfma {h mk f a b c} (hs : s.Canon) : Res.Canon (execVfma h mk f a b c s) := hs.execPush
protected theorem State.Canon.execVfnma {h mk f a b c} (hs : s.Canon) : Res.Canon (execVfnma h mk f a b c s) := hs.execPush
protected theorem State.Canon.execVmin {h mk f a b c} (hs : s.Canon) : Res.Canon (execVmin h mk f a b c s) := hs.execPush
protected theorem State.Canon.execVmax {h mk f a b c} (hs : s.Canon) : Res.Canon (execVmax h mk f a b c s) := hs.execPush
protected theorem State.Canon.execVabs {h mk f a b} (hs : s.Canon) : Res.Canon (execVabs h mk f a b s) := hs.execPush
protected theorem State.Canon.execVneg {h mk f a b} (hs : s.Canon) : Res.Canon (execVneg h mk f a b s) := hs.execPush
protected theorem State.Canon.execVdiv {h mk f a b c} (hs : s.Canon) : Res.Canon (execVdiv h mk f a b c s) := hs.execPush
protected theorem State.Canon.execVsqrt {h mk f a b} (hs : s.Canon) : Res.Canon (execVsqrt h mk f a b s) := hs.execPush
protected theorem State.Canon.execVrsq {h mk f a b} (hs : s.Canon) : Res.Canon (execVrsq h mk f a b s) := hs.execPush
protected theorem State.Canon.execVrcp {h mk f a b} (hs : s.Canon) : Res.Canon (execVrcp h mk f a b s) := hs.execPush
protected theorem State.Canon.execVexp2 {h mk f a b} (hs : s.Canon) : Res.Canon (execVexp2 h mk f a b s) := hs.execPush
protected theorem State.Canon.execVlog2 {h mk f a b} (hs : s.Canon) : Res.Canon (execVlog2 h mk f a b s) := hs.execPush
protected theorem State.Canon.execVand {h mk f a b c} (hs : s.Canon) : Res.Canon (execVand h mk f a b c s) := hs.execPush
protected theorem State.Canon.execVor {h mk f a b c} (hs : s.Canon) : Res.Canon (execVor h mk f a b c s) := hs.execPush
protected theorem State.Canon.execVxor {h mk f a b c} (hs : s.Canon) : Res.Canon (execVxor h mk f a b c s) := hs.execPush
protected theorem State.Canon.execVshl {h mk f a b c} (hs : s.Canon) : Res.Canon (execVshl h mk f a b c s) := hs.execPush
protected theorem State.Canon.execVshr {h mk f a b c} (hs : s.Canon) : Res.Canon (execVshr h mk f a b c s) := hs.execPush
protected theorem State.Canon.execVsar {h mk f a b c} (hs : s.Canon) : Res.Canon (execVsar h mk f a b c s) := hs.execPush
protected theorem State.Canon.execVceq {h mk f a b c} (hs : s.Canon) : Res.Canon (execVceq h mk f a b c s) := hs.execPush
protected theorem State.Canon.execVclt {h mk f a b c} (hs : s.Canon) : Res.Canon (execVclt h mk f a b c s) := hs.execPush
protected theorem State.Canon.execVcle {h mk f a b c} (hs : s.Canon) : Res.Canon (execVcle h mk f a b c s) := hs.execPush
protected theorem State.Canon.execVsel {h mk f a b c} (hs : s.Canon) : Res.Canon (execVsel h mk f a b c s) := hs.execPush
protected theorem State.Canon.execVmov {h mk f a b} (hs : s.Canon) : Res.Canon (execVmov h mk f a b s) := hs.execPush
protected theorem State.Canon.execVmovs {h mk f a b} (hs : s.Canon) : Res.Canon (execVmovs h mk f a b s) := hs.execPush
protected theorem State.Canon.execViota {h mk f a b} (hs : s.Canon) : Res.Canon (execViota h mk f a b s) := hs.execPush
protected theorem State.Canon.execVclamp {h mk f a b c} (hs : s.Canon) : Res.Canon (execVclamp h mk f a b c s) := hs.execPush
protected theorem State.Canon.execVadds {h mk f a b c} (hs : s.Canon) : Res.Canon (execVadds h mk f a b c s) := hs.execPush
protected theorem State.Canon.execVmulh {h mk f a b c} (hs : s.Canon) : Res.Canon (execVmulh h mk f a b c s) := hs.execPush

/-! #### Class 7: vector transfer -/

protected theorem State.Canon.execVcvt {h mk f a b src p} (hs : s.Canon) : Res.Canon (execVcvt h mk f a b src p s) := hs.execPush
protected theorem State.Canon.execVpack {h f a b c} (hs : s.Canon) : Res.Canon (execVpack h f a b c s) := hs.execPush
protected theorem State.Canon.execVunpk {h f a b c} (hs : s.Canon) : Res.Canon (execVunpk h f a b c s) := hs.execPush
protected theorem State.Canon.execVperm {h mk f a b c} (hs : s.Canon) : Res.Canon (execVperm h mk f a b c s) := hs.execPush
protected theorem State.Canon.execVgaths {h oc mk f a db c} (hs : s.Canon) : Res.Canon (execVgaths h oc mk f a db c s) := hs.execPush
protected theorem State.Canon.execVscats {h oc mk f da b c} (hs : s.Canon) : Res.Canon (execVscats h oc mk f da b c s) := hs.execPush
protected theorem State.Canon.execVred {h mk f a b op reply} (hs : s.Canon) : Res.Canon (execVred h mk f a b op reply s) := hs.execPush
protected theorem State.Canon.execVscan {h mk f a b op} (hs : s.Canon) : Res.Canon (execVscan h mk f a b op s) := hs.execPush
protected theorem State.Canon.execVtopk {h mk f a b k} (hs : s.Canon) : Res.Canon (execVtopk h mk f a b k s) := hs.execPush
protected theorem State.Canon.execVcmpr {h mk f a b} (hs : s.Canon) : Res.Canon (execVcmpr h mk f a b s) := hs.execPush
protected theorem State.Canon.execVexpd {h mk f a b} (hs : s.Canon) : Res.Canon (execVexpd h mk f a b s) := hs.execPush
protected theorem State.Canon.execVld {h oc mk f a db c} (hs : s.Canon) : Res.Canon (execVld h oc mk f a db c s) := hs.execPush
protected theorem State.Canon.execVst {h oc mk f da b c} (hs : s.Canon) : Res.Canon (execVst h oc mk f da b c s) := hs.execPush
protected theorem State.Canon.execVldx {h oc mk f a db c} (hs : s.Canon) : Res.Canon (execVldx h oc mk f a db c s) := hs.execPush
protected theorem State.Canon.execMand {h a b c} (hs : s.Canon) : Res.Canon (execMand h a b c s) := hs.execPush
protected theorem State.Canon.execMor {h a b c} (hs : s.Canon) : Res.Canon (execMor h a b c s) := hs.execPush
protected theorem State.Canon.execMnot {h a b} (hs : s.Canon) : Res.Canon (execMnot h a b s) := hs.execPush
protected theorem State.Canon.execMpopc {h b} (hs : s.Canon) : Res.Canon (execMpopc h b s) := hs.execPush

/-! #### Class 8: matrix -/

protected theorem State.Canon.execMma {h oc da db dc} (hs : s.Canon) : Res.Canon (execMma h oc da db dc s) := hs.execPush
protected theorem State.Canon.execMmaz {h oc da db dc} (hs : s.Canon) : Res.Canon (execMmaz h oc da db dc s) := hs.execPush
protected theorem State.Canon.execMmac {h oc fmt sat da db dc} (hs : s.Canon) : Res.Canon (execMmac h oc fmt sat da db dc s) := hs.execPush
protected theorem State.Canon.execMmae {h oc da db dc} (hs : s.Canon) : Res.Canon (execMmae h oc da db dc s) := hs.execPush
protected theorem State.Canon.execMres {h oc da db dc} (hs : s.Canon) : Res.Canon (execMres h oc da db dc s) := hs.execPush
protected theorem State.Canon.execMbndLyr {h oc da db dc} (hs : s.Canon) : Res.Canon (execMbndLyr h oc da db dc s) := hs.execPush
protected theorem State.Canon.execMbndFirst {h oc da db} (hs : s.Canon) : Res.Canon (execMbndFirst h oc da db s) := hs.execPush
protected theorem State.Canon.execMbndSum {h da db dc} (hs : s.Canon) : Res.Canon (execMbndSum h da db dc s) := hs.execPush
protected theorem State.Canon.execMcomp {h oc reloc da db dc} (hs : s.Canon) : Res.Canon (execMcomp h oc reloc da db dc s) := hs.execPush
protected theorem State.Canon.execMmas {h oc da db dc} (hs : s.Canon) : Res.Canon (execMmas h oc da db dc s) := hs.execPush
protected theorem State.Canon.execMmab {h oc da db dc} (hs : s.Canon) : Res.Canon (execMmab h oc da db dc s) := hs.execPush
protected theorem State.Canon.execMzero {h da} (hs : s.Canon) : Res.Canon (execMzero h da s) := hs.execPush
protected theorem State.Canon.execMwr {h oc da db} (hs : s.Canon) : Res.Canon (execMwr h oc da db s) := hs.execPush
protected theorem State.Canon.execMrd {h oc sat clr da db c} (hs : s.Canon) : Res.Canon (execMrd h oc sat clr da db c s) := hs.execPush
protected theorem State.Canon.execMchk {h oc row da db dc} (hs : s.Canon) : Res.Canon (execMchk h oc row da db dc s) := hs.execPush
protected theorem State.Canon.execMjoinJoin {h da} (hs : s.Canon) : Res.Canon (execMjoinJoin h da s) := hs.execPush
protected theorem State.Canon.execMjoinLeave {h da} (hs : s.Canon) : Res.Canon (execMjoinLeave h da s) := hs.execPush

/-! #### Class 9: copy in -/

protected theorem State.Canon.execCpin {h oc reloc da db} (hs : s.Canon) : Res.Canon (execCpin h oc reloc da db s) := hs.execPush
protected theorem State.Canon.execCprow {h oc reloc oobz da db} (hs : s.Canon) : Res.Canon (execCprow h oc reloc oobz da db s) := hs.execPush
protected theorem State.Canon.execCpexp {h oc reloc da db} (hs : s.Canon) : Res.Canon (execCpexp h oc reloc da db s) := hs.execPush
protected theorem State.Canon.execCpfill {h oc reloc da b} (hs : s.Canon) : Res.Canon (execCpfill h oc reloc da b s) := hs.execPush
protected theorem State.Canon.execScprobe {h oc reloc da db c} (hs : s.Canon) : Res.Canon (execScprobe h oc reloc da db c s) := hs.execPush
protected theorem State.Canon.execScrply {h oc reloc da db c} (hs : s.Canon) : Res.Canon (execScrply h oc reloc da db c s) := hs.execPush

/-! #### Class A: copy out -/

protected theorem State.Canon.execCpout {h oc reloc da db} (hs : s.Canon) : Res.Canon (execCpout h oc reloc da db s) := hs.execPush
protected theorem State.Canon.execCpsct {h oc reloc skip da db} (hs : s.Canon) : Res.Canon (execCpsct h oc reloc skip da db s) := hs.execPush
protected theorem State.Canon.execCppack {h oc reloc da db} (hs : s.Canon) : Res.Canon (execCppack h oc reloc da db s) := hs.execPush
protected theorem State.Canon.execCpred {h oc reloc op ord da db} (hs : s.Canon) : Res.Canon (execCpred h oc reloc op ord da db s) := hs.execPush
protected theorem State.Canon.execCpcoll {h oc kind arr da db} (hs : s.Canon) : Res.Canon (execCpcoll h oc kind arr da db s) := hs.execPush
protected theorem State.Canon.execCpsend {h oc db c} (hs : s.Canon) : Res.Canon (execCpsend h oc db c s) := hs.execPush
protected theorem State.Canon.execCppost {h oc da c} (hs : s.Canon) : Res.Canon (execCppost h oc da c s) := hs.execPush
protected theorem State.Canon.execScrec {h oc reloc da db c} (hs : s.Canon) : Res.Canon (execScrec h oc reloc da db c s) := hs.execPush
protected theorem State.Canon.execCpcnv {h oc reloc da db} (hs : s.Canon) : Res.Canon (execCpcnv h oc reloc da db s) := hs.execPush

/-! #### Class B: edge -/

protected theorem State.Canon.execEbind {h oc da} (hs : s.Canon) : Res.Canon (execEbind h oc da s) := hs.issue (fun hs => hs.pushBind)
protected theorem State.Canon.execErun {h oc mode ord b} (hs : s.Canon) : Res.Canon (execErun h oc mode ord b s) := hs.execPush
protected theorem State.Canon.execEswp {h pa pb} (hs : s.Canon) : Res.Canon (execEswp h pa pb s) := hs.execPush
protected theorem State.Canon.execEfrnt {h oc b} (hs : s.Canon) : Res.Canon (execEfrnt h oc b s) := hs.execPush

/-! #### Class C: redundancy -/

protected theorem State.Canon.execNdagree {a b} (hs : s.Canon) : Res.Canon (execNdagree a b s) := by
  unfold execNdagree
  refine hs.issue (fun hs => hs.reading (fun hs => hs.atCommit (fun hs => canon_ite (State.Canon.finishReg hs) ?_)))
  extract_lets
  split
  · exact State.Canon.finishValue (.ite (.shareValue (.ite hs hs)) (.ite hs hs))
  · exact State.Canon.stall (.ite (.shareValue (.ite hs hs)) (.ite hs hs))

protected theorem State.Canon.execSigrd {met iso a n} (hs : s.Canon) : Res.Canon (execSigrd met iso a n s) :=
  hs.issue (fun hs => hs.atCommit (fun hs => hs.finishValue))
protected theorem State.Canon.execCopen {buffered off} (hs : s.Canon) : Res.Canon (execCopen buffered off s) :=
  hs.issue (fun hs => hs.atCommit (fun hs => canon_ite hs.trapNow hs.finish))
protected theorem State.Canon.execCclose (hs : s.Canon) : Res.Canon (execCclose s) :=
  hs.issue (fun hs => hs.atCommit (fun hs => canon_ite hs.trapNow (canon_ite hs.stall hs.closeRegion.finish)))
protected theorem State.Canon.execKatstat {a k} (hs : s.Canon) : Res.Canon (execKatstat a k s) :=
  hs.issue (fun hs => hs.atCommit (fun hs => hs.finishReg))

/-! #### Class E: system -/

protected theorem State.Canon.execTrap {n} (hs : s.Canon) : Res.Canon (execTrap n s) := hs.issue (fun hs => hs.atCommit (fun hs => hs.trapNow))
protected theorem State.Canon.execEret (hs : s.Canon) : Res.Canon (execEret s) :=
  hs.issue (fun hs => hs.atCommit (fun hs => canon_ite hs.trapNow (canon_ite hs.stall (canon_ite hs.trapNow (.execute hs)))))

protected theorem State.Canon.execMfsr {a idx} (hs : s.Canon) : Res.Canon (execMfsr a idx s) := by
  unfold execMfsr
  refine hs.issue (fun hs => hs.atCommit ?_)
  intro s hs
  split
  · exact hs.trapNow
  · exact hs.finishReg

protected theorem State.Canon.execMtsr {idx b} (hs : s.Canon) : Res.Canon (execMtsr idx b s) := by
  unfold execMtsr
  refine hs.issue ?_
  intro s hs
  split
  · exact hs.trapNow
  · exact hs.trapNow
  · exact hs.reading (fun hs => hs.atCommit (fun hs => hs.finish))
  · exact hs.privileged (fun hs => hs.reading (fun hs => hs.atCommit (fun hs => hs.finish)))

protected theorem State.Canon.execExit {b} (hs : s.Canon) : Res.Canon (execExit b s) :=
  hs.issue (fun hs => hs.reading (fun hs => hs.atCommit (fun hs => canon_ite hs.stall (hs.linked
    (fun hs => hs.unbuffered (fun hs => hs.meeting (fun hs => hs.execute)))))))

protected theorem State.Canon.execYieldT {a} (hs : s.Canon) : Res.Canon (execYieldT a s) := by
  unfold execYieldT
  refine hs.issue (fun hs => hs.atCommit (fun hs => canon_ite hs.stall ?_))
  split
  next hAgree => exact (hs.agree.answer hAgree).takeAnswer.finishReg
  next hAgree => exact (hs.agree.wait hAgree).stall
  next hAgree => exact hs.agree.gone hAgree
  next hAgree =>
    split
    · exact (hs.agree.perform hAgree).noteRequest.finishReg
    · exact canon_ite ((hs.agree.perform hAgree).yielded.checkpoint) ((hs.agree.perform hAgree).stall)

protected theorem State.Canon.execSwap (hs : s.Canon) : Res.Canon (execSwap s) := by
  unfold execSwap
  refine hs.issue (fun hs => hs.atCommit ?_)
  intro s hs
  split
  · exact hs.stall
  · exact canon_ite hs.trapNow hs.stall
  · refine canon_ite hs.stall ?_
    split
    · exact hs.trapNow
    · split
      · exact State.Canon.trapNow hs
      next hBindShadow => exact (hs.bindShadow.ok hBindShadow).finish

protected theorem State.Canon.execSwapLoad {b} (hs : s.Canon) : Res.Canon (execSwapLoad b s) :=
  hs.issue (fun hs => hs.reading (fun hs => hs.atCommit (fun hs => canon_ite hs.trapNow (State.Canon.finish (.ite (.finishLoad hs) hs)))))
protected theorem State.Canon.execFrame {n} (hs : s.Canon) : Res.Canon (execFrame n s) := hs.issue (fun hs => hs.atCommit (fun hs => hs.finish))
protected theorem State.Canon.execDrain (hs : s.Canon) : Res.Canon (execDrain s) :=
  hs.issue (fun hs => hs.atCommit (fun hs => canon_ite hs.finish hs.stall))
protected theorem State.Canon.execTlbinv {scope a b} (hs : s.Canon) : Res.Canon (execTlbinv scope a b s) :=
  hs.issue (fun hs => hs.privileged (fun hs => hs.reading (fun hs => hs.atCommit (fun hs => State.Canon.finish hs))))

protected theorem State.Canon.execSpawn {a b} (hs : s.Canon) : Res.Canon (execSpawn a b s) := by
  unfold execSpawn
  refine hs.issue (fun hs => hs.reading (fun hs => hs.atCommit (fun hs => canon_ite hs.trapNow ?_)))
  dsimp only
  split
  · exact hs.scrubWalk.trapNow
  · split
    · exact hs.scrubWalk.trapNow
    · refine canon_ite hs.scrubWalk.stall (hs.scrubWalk.binderMeeting (fun hs => hs.binderRequest ?_))
      intro s hs
      split
      next hAccept => exact hs.accept.fst hAccept
      next hAccept => exact hs.accept.fst hAccept

protected theorem State.Canon.execDepdec {oc a b} (hs : s.Canon) : Res.Canon (execDepdec oc a b s) :=
  hs.issue (fun hs => hs.vetting (fun hs => hs.atCommit (fun hs => hs.depdecOp)))
protected theorem State.Canon.execDepdecAll {oc a} (hs : s.Canon) : Res.Canon (execDepdecAll oc a s) :=
  hs.issue (fun hs => hs.atCommit (fun hs => hs.depdecOp))
protected theorem State.Canon.execHalt (hs : s.Canon) : Res.Canon (execHalt s) :=
  hs.issue (fun hs => hs.atCommit (fun hs => hs.privileged (fun hs => canon_ite hs.execute hs.stall)))
protected theorem State.Canon.execClock {a} (hs : s.Canon) : Res.Canon (execClock a s) := hs.issue (fun hs => hs.atCommit (fun hs => hs.finishReg))

protected theorem State.Canon.execKill {a b} (hs : s.Canon) : Res.Canon (execKill a b s) := by
  unfold execKill
  refine hs.issue (fun hs => hs.vetting (fun hs => hs.atCommit ?_))
  intro s hs
  extract_lets
  split
  · exact hs.binderRequest (fun hs => hs)
  · exact canon_ite hs.trapNow (canon_ite (hs.binderRequest (fun hs => hs)) (canon_ite hs.killTask (hs.binderRequest (fun hs => hs.killTask))))

protected theorem State.Canon.execIdle {n} (hs : s.Canon) : Res.Canon (execIdle n s) :=
  hs.issue (fun hs => hs.atCommit
    (fun hs => canon_ite hs.finish (canon_ite hs.trapNow (canon_ite (State.Canon.stall hs) (State.Canon.stallUntil hs)))))
protected theorem State.Canon.execPhase {p} (hs : s.Canon) : Res.Canon (execPhase p s) := hs.issue (fun hs => hs.atCommit (fun hs => hs.finish))

/-! #### Events -/

protected theorem State.Canon.execInstructionFetch {g} (hs : s.Canon) : Res.Canon (execInstructionFetch g s) := by
  unfold execInstructionFetch
  refine hs.unitEvent ?_
  intro s hs
  dsimp only
  split
  · exact hs.scrubWalk
  · split <;> exact hs.scrubWalk.scrub

protected theorem State.Canon.execEngineCommandPush {g word} (hs : s.Canon) : Res.Canon (execEngineCommandPush g word s) := by
  unfold execEngineCommandPush
  refine hs.unitTurn (fun hs => canon_ite hs ?_)
  split
  · refine canon_ite hs ?_
    split
    · exact hs.scrubFetch.issue (fun hs => hs.pushBind)
    · exact hs.scrubFetch.issue (fun hs => hs.push)
  · exact hs

protected theorem State.Canon.execInstructionCommit {g} (hs : s.Canon) : Res.Canon (execInstructionCommit g s) := by
  unfold execInstructionCommit
  refine hs.unitEvent ?_
  intro s hs
  split
  next hCommitOldest => exact hs.makeLoads.commitOldest.some hCommitOldest
  · exact hs.makeLoads.stuckPush

protected theorem State.Canon.execFramedStartMiss {g q cycle} (hs : s.Canon) : Res.Canon (execFramedStartMiss g q cycle s) := by
  unfold execFramedStartMiss
  refine hs.unitEvent ?_
  intro s hs
  split
  · exact hs
  · exact .ite hs.deliver hs

protected theorem State.Canon.execCommandSteal {g owner q} (hs : s.Canon) : Res.Canon (execCommandSteal g owner q s) := by
  unfold execCommandSteal
  refine hs.unitEvent ?_
  intro s hs
  split
  · exact hs
  · exact .ite hs.start hs

protected theorem State.Canon.execCommandRetire {g q} (hs : s.Canon) : Res.Canon (execCommandRetire g q s) :=
  hs.unitEvent (fun hs => .ite hs (.ite hs.turnQueue (.retireOne (.foldl (fun hs => .ite hs.poll hs) hs.turnQueue))))

protected theorem State.Canon.execClassQueueLeave {g index} (hs : s.Canon) : Res.Canon (execClassQueueLeave g index s) := by
  unfold execClassQueueLeave
  refine hs.unitEvent ?_
  intro s hs
  split
  · exact hs
  · exact .ite (.leave hs) hs

protected theorem State.Canon.execHomeAdmissionRound {home picks} (hs : s.Canon) : Res.Canon (execHomeAdmissionRound home picks s) :=
  canon_ite (.foldl (fun hs => hs.arriveIn) (.foldl (fun hs => hs.arrive) (.healWhole hs))) hs
protected theorem State.Canon.execHorizonWiden {write scope} (hs : s.Canon) : Res.Canon (execHorizonWiden write scope s) := .fold hs
protected theorem State.Canon.execL1CopyInstall {g sector} (hs : s.Canon) : Res.Canon (execL1CopyInstall g sector s) :=
  hs.unitEvent (fun hs => .ite hs.prefetched hs)
protected theorem State.Canon.execL1CopyDiscard {g sector} (hs : s.Canon) : Res.Canon (execL1CopyDiscard g sector s) := hs.unitEvent (fun hs => hs)

/-- What a request that waits stands for, carried out, keeps memory in its form. -/
theorem claspMeaning_canon {i f} (e : claspMeaning i = some f) (hs : s.Canon) : Res.Canon (f s) := by
  unfold claspMeaning at e
  split at e
  all_goals cases e
  · exact hs.execAadd
  · exact hs.execAand
  · exact hs.execAor
  · exact hs.execAxor
  · exact hs.execAmin
  · exact hs.execAmax
  · exact hs.execAminu
  · exact hs.execAmaxu
  · exact hs.execAswap
  · exact hs.execAcas
  · exact hs.execAfadd
  · exact hs.execBarr
  · exact hs.execBwait
  · exact hs.execMwait
  · exact hs.execMsig
  · exact hs.execRinit
  · exact hs.execRclaim
  · exact hs.execRwaite
  · exact hs.execRcommit
  · exact hs.execRwaitf
  · exact hs.execRtake
  · exact hs.execRstat
  · exact hs.execDepdec
  · exact hs.execDepdecAll

protected theorem State.Canon.execClaspRequestPerform {g} (hs : s.Canon) : Res.Canon (execClaspRequestPerform g s) := by
  unfold execClaspRequestPerform
  refine hs.unitTurn (fun hs => canon_ite hs ?_)
  split
  · split
    next e => exact claspMeaning_canon e hs.scrubFetch
    · exact hs
  · exact hs

protected theorem State.Canon.execPageWalkComplete {g va} (hs : s.Canon) : Res.Canon (execPageWalkComplete g va s) := by
  unfold execPageWalkComplete
  refine hs.unitEvent ?_
  intro s hs
  extract_lets
  split
  · exact hs.walkScrub
  · exact .ite (.ite hs.walkScrub hs.walkScrub) (.onDev (.ite hs.walkScrub hs.walkScrub))

protected theorem State.Canon.execBankmodeChangeBegin {g} (hs : s.Canon) : Res.Canon (execBankmodeChangeBegin g s) := by
  unfold execBankmodeChangeBegin
  refine hs.unitEvent ?_
  intro s hs
  extract_lets
  split
  · exact hs
  · exact .ite hs hs.onDev

protected theorem State.Canon.execBankmodeChangeEnd {g} (hs : s.Canon) : Res.Canon (execBankmodeChangeEnd g s) := by
  unfold execBankmodeChangeEnd
  refine hs.unitEvent ?_
  intro s hs
  extract_lets
  split
  · exact hs
  · exact .ite hs hs.endChange.pass

protected theorem State.Canon.execMwaitRecheck {g} (hs : s.Canon) : Res.Canon (execMwaitRecheck g s) := by
  unfold execMwaitRecheck
  refine hs.unitEvent ?_
  intro s hs
  split
  · exact .ite hs hs
  · exact hs

protected theorem State.Canon.execIdleTimeout {g} (hs : s.Canon) : Res.Canon (execIdleTimeout g s) := by
  unfold execIdleTimeout
  refine hs.unitEvent ?_
  intro s hs
  split
  · exact .ite hs hs.pass
  · exact hs

protected theorem State.Canon.execPlateLoadComplete {g} (hs : s.Canon) : Res.Canon (execPlateLoadComplete g s) :=
  hs.unitEvent (fun hs => hs.finishLoad)

protected theorem State.Canon.execTrapTake {g} (hs : s.Canon) : Res.Canon (execTrapTake g s) := by
  unfold execTrapTake
  refine hs.unitEvent ?_
  intro s hs
  split
  · exact .ite hs.deliver hs
  · exact hs.endCut

protected theorem State.Canon.execContainmentEvent {g cause q tval} (hs : s.Canon) : Res.Canon (execContainmentEvent g cause q tval s) := by
  unfold execContainmentEvent
  refine hs.unitEvent (fun hs => .ite hs (.ite hs.katTest ?_))
  split
  · exact hs
  · exact .ite hs.deliver hs.raise

protected theorem State.Canon.execKatInject {g unit row pass} (hs : s.Canon) : Res.Canon (execKatInject g unit row pass s) :=
  hs.unitEvent (fun hs => hs.katTest)
protected theorem State.Canon.execReplicaMeeting {g} (hs : s.Canon) : Res.Canon (execReplicaMeeting g s) := hs.unitEvent (fun hs => .ite hs.vote hs)
protected theorem State.Canon.execMeetingTimeout {g} (hs : s.Canon) : Res.Canon (execMeetingTimeout g s) := hs.unitEvent (fun hs => .ite hs.vote hs)
protected theorem State.Canon.execNdagreeTimeout {g} (hs : s.Canon) : Res.Canon (execNdagreeTimeout g s) :=
  hs.unitEvent (fun hs => .ite hs (.ite (.foldl (fun hs => hs.removeReplica) hs) (.foldl (fun hs => hs.onUnit (fun hs => .raise hs)) hs)))

protected theorem State.Canon.execTaskAccept {dev} (hs : s.Canon) : Res.Canon (execTaskAccept dev s) := by
  unfold execTaskAccept
  refine hs.deviceEvent (fun hs => .ite hs ?_)
  split
  · exact hs
  · extract_lets
    split
    next hAccept => exact .ite ((hs.onDev.accept.fst hAccept).onDev) (hs.onDev.accept.fst hAccept)
    next hAccept => exact hs.onDev.accept.fst hAccept

protected theorem State.Canon.execTaskPlace {dev id} (hs : s.Canon) : Res.Canon (execTaskPlace dev id s) := by
  unfold execTaskPlace
  refine hs.deviceEvent (fun hs => .ite hs.refreshEligible ?_)
  split
  · exact .ite hs.refreshEligible.placeTask hs.refreshEligible
  · exact hs.refreshEligible

protected theorem State.Canon.execTaskComplete {dev id} (hs : s.Canon) : Res.Canon (execTaskComplete dev id s) := by
  unfold execTaskComplete
  refine hs.deviceEvent ?_
  intro s hs
  split
  · exact .ite hs.completeTask hs
  · exact hs

protected theorem State.Canon.execTaskPreempt {dev id} (hs : s.Canon) : Res.Canon (execTaskPreempt dev id s) := by
  unfold execTaskPreempt
  refine hs.deviceEvent ?_
  intro s hs
  split
  · exact .ite hs.preempt hs
  · exact hs

protected theorem State.Canon.execPatrolScrub {sector} (hs : s.Canon) : Res.Canon (execPatrolScrub sector s) := .ite hs hs.scrub
protected theorem State.Canon.execTickBoundary {dev} (hs : s.Canon) : Res.Canon (execTickBoundary dev s) :=
  hs.deviceEvent (fun hs => .ite hs (.setDev hs))

protected theorem State.Canon.execTickBatchAdmit {dev} (hs : s.Canon) : Res.Canon (execTickBatchAdmit dev s) := by
  unfold execTickBatchAdmit
  refine hs.deviceEvent ?_
  intro s hs
  split
  · exact hs
  · exact .ite hs hs.admitBatch

protected theorem State.Canon.execKrytlinkPacketDeliver {src dst} (hs : s.Canon) : Res.Canon (execKrytlinkPacketDeliver src dst s) := by
  unfold execKrytlinkPacketDeliver
  refine hs.deviceEvent ?_
  intro s hs
  split
  · exact .ite hs.deliverAll hs
  · exact hs

protected theorem State.Canon.execClockOffsetExceeded {dev} (hs : s.Canon) : Res.Canon (execClockOffsetExceeded dev s) :=
  hs.deviceEvent (fun hs => .ite hs (.linksDown hs.onDev))
protected theorem State.Canon.execPortFailure {dev port} (hs : s.Canon) : Res.Canon (execPortFailure dev port s) :=
  hs.deviceEvent (fun hs => .linksDown hs.onDev)
protected theorem State.Canon.execHostBar2Write {dev addr data} (hs : s.Canon) : Res.Canon (execHostBar2Write dev addr data s) :=
  hs.deviceEvent (fun hs => .ite hs (.ite hs.onDev (.foldl (fun hs => .ite hs.admitPlain hs) hs)))
protected theorem State.Canon.execHostBar2Read {dev addr len} (hs : s.Canon) : Res.Canon (execHostBar2Read dev addr len s) :=
  hs.deviceEvent (fun hs => .ite hs (.onDev (.ite hs hs.scrubRun)))
protected theorem State.Canon.execClaim {dev master value} (hs : s.Canon) : Res.Canon (execClaim dev master value s) := hs.masterEvent
protected theorem State.Canon.execClaimHandover {dev master value} (hs : s.Canon) : Res.Canon (execClaimHandover dev master value s) := hs.masterEvent
protected theorem State.Canon.execDevreset {dev master value} (hs : s.Canon) : Res.Canon (execDevreset dev master value s) := hs.masterEvent
protected theorem State.Canon.execSubmit {dev master value} (hs : s.Canon) : Res.Canon (execSubmit dev master value s) := hs.masterEvent
protected theorem State.Canon.execBootsrc {dev master value} (hs : s.Canon) : Res.Canon (execBootsrc dev master value s) := hs.masterEvent
protected theorem State.Canon.execBootdone {dev master value} (hs : s.Canon) : Res.Canon (execBootdone dev master value s) := hs.masterEvent
protected theorem State.Canon.execDeviceRegisterWrite {dev master off value} (hs : s.Canon) :
    Res.Canon (execDeviceRegisterWrite dev master off value s) :=
  canon_ite hs.masterEvent (hs.deviceEvent (fun hs => hs))
protected theorem State.Canon.execDeviceReset {dev} (hs : s.Canon) : Res.Canon (execDeviceReset dev s) :=
  hs.deviceEvent (fun hs => .linksDown hs.resetDevice)
protected theorem State.Canon.execBootSourceTimeout {dev} (hs : s.Canon) : Res.Canon (execBootSourceTimeout dev s) :=
  hs.deviceEvent (fun hs => hs.onDev)

protected theorem State.Canon.execBootFetchComplete {dev fetched selfTest} (hs : s.Canon) :
    Res.Canon (execBootFetchComplete dev fetched selfTest s) := by
  unfold execBootFetchComplete
  refine hs.deviceEvent ?_
  intro s hs
  split
  · exact hs.bootFailed
  · extract_lets
    split
    · exact hs.masterWrite.onDev.bootFailed
    · exact .ite hs.masterWrite.onDev.bootFailed hs.masterWrite.onDev.onDev.startCores
  · exact hs

protected theorem State.Canon.execBootNetworkTimeout {dev} (hs : s.Canon) : Res.Canon (execBootNetworkTimeout dev s) := by
  unfold execBootNetworkTimeout
  refine hs.deviceEvent ?_
  intro s hs
  split
  · exact hs.bootFailed
  · exact hs

protected theorem State.Canon.execBootImageTimeout {dev} (hs : s.Canon) : Res.Canon (execBootImageTimeout dev s) := by
  unfold execBootImageTimeout
  refine hs.deviceEvent ?_
  intro s hs
  split
  · exact hs.bootFailed
  · exact hs

protected theorem State.Canon.execPowerCapOvershoot {dev} (hs : s.Canon) : Res.Canon (execPowerCapOvershoot dev s) :=
  hs.deviceEvent (fun hs => hs.onDev)
protected theorem State.Canon.execThermalThrottle {dev} (hs : s.Canon) : Res.Canon (execThermalThrottle dev s) := hs.deviceEvent (fun hs => hs.onDev)
protected theorem State.Canon.execThermalTrip {dev} (hs : s.Canon) : Res.Canon (execThermalTrip dev s) :=
  hs.deviceEvent (fun hs => .linksDown hs.resetDevice)
protected theorem State.Canon.execDebugStop {master g} (hs : s.Canon) : Res.Canon (execDebugStop master g s) := hs.unitEvent (fun hs => .ite hs hs)
protected theorem State.Canon.execDebugStep {master g engineStep} (hs : s.Canon) : Res.Canon (execDebugStep master g engineStep s) :=
  hs.unitEvent (fun hs => .ite hs hs)
protected theorem State.Canon.execDebugResume {master g} (hs : s.Canon) : Res.Canon (execDebugResume master g s) :=
  hs.unitEvent (fun hs => .ite hs hs)

protected theorem State.Canon.execOwnerKill {dev master id} (hs : s.Canon) : Res.Canon (execOwnerKill dev master id s) := by
  unfold execOwnerKill
  refine hs.deviceEvent ?_
  intro s hs
  split
  · exact hs
  · exact .ite hs hs.killTask

protected theorem State.Canon.execPowerCapExceeded {dev} (hs : s.Canon) : Res.Canon (execPowerCapExceeded dev s) :=
  hs.deviceEvent (fun hs => hs.onDev)
protected theorem State.Canon.execPowerCapCleared {dev} (hs : s.Canon) : Res.Canon (execPowerCapCleared dev s) := hs.deviceEvent (fun hs => hs.onDev)

/-! #### A step -/

/-- What an instruction or an event does keeps memory in its form. -/
theorem exec_canon (i : Instr) (hs : s.Canon) : Res.Canon (exec i s) := by
  cases i with
  | add => exact hs.execAdd
  | sub => exact hs.execSub
  | mul => exact hs.execMul
  | mulh => exact hs.execMulh
  | mulhu => exact hs.execMulhu
  | div => exact hs.execDiv
  | divu => exact hs.execDivu
  | rem => exact hs.execRem
  | remu => exact hs.execRemu
  | andI => exact hs.execAndI
  | orI => exact hs.execOrI
  | xorI => exact hs.execXorI
  | andn => exact hs.execAndn
  | shl => exact hs.execShl
  | shr => exact hs.execShr
  | sar => exact hs.execSar
  | ror => exact hs.execRor
  | minI => exact hs.execMinI
  | maxI => exact hs.execMaxI
  | minu => exact hs.execMinu
  | maxu => exact hs.execMaxu
  | seq => exact hs.execSeq
  | sne => exact hs.execSne
  | slt => exact hs.execSlt
  | sltu => exact hs.execSltu
  | sel => exact hs.execSel
  | clz => exact hs.execClz
  | ctz => exact hs.execCtz
  | popc => exact hs.execPopc
  | bfx => exact hs.execBfx
  | bfi => exact hs.execBfi
  | madd => exact hs.execMadd
  | addi => exact hs.execAddi
  | andi => exact hs.execAndi
  | ori => exact hs.execOri
  | xori => exact hs.execXori
  | shli => exact hs.execShli
  | shri => exact hs.execShri
  | sari => exact hs.execSari
  | slti => exact hs.execSlti
  | sltiu => exact hs.execSltiu
  | movi => exact hs.execMovi
  | movhi => exact hs.execMovhi
  | muli => exact hs.execMuli
  | lea => exact hs.execLea
  | fadd => exact hs.execFadd
  | fsub => exact hs.execFsub
  | fmul => exact hs.execFmul
  | ffma => exact hs.execFfma
  | fdiv => exact hs.execFdiv
  | fsqrt => exact hs.execFsqrt
  | fmin => exact hs.execFmin
  | fmax => exact hs.execFmax
  | fceq => exact hs.execFceq
  | fclt => exact hs.execFclt
  | fcle => exact hs.execFcle
  | fcvti => exact hs.execFcvti
  | fcvtf => exact hs.execFcvtf
  | fcvtw => exact hs.execFcvtw
  | fabs => exact hs.execFabs
  | fneg => exact hs.execFneg
  | fclass => exact hs.execFclass
  | br => exact hs.execBr
  | beq => exact hs.execBeq
  | bne => exact hs.execBne
  | blt => exact hs.execBlt
  | bge => exact hs.execBge
  | bltu => exact hs.execBltu
  | bgeu => exact hs.execBgeu
  | call => exact hs.execCall
  | callr => exact hs.execCallr
  | ret => exact hs.execRet
  | jmpr => exact hs.execJmpr
  | loop => exact hs.execLoop
  | loopx => exact hs.execLoopx
  | nop => exact hs.execNop
  | brk => exact hs.execBrk
  | ld => exact hs.execLd
  | st => exact hs.execSt
  | lds => exact hs.execLds
  | sts => exact hs.execSts
  | fence => exact hs.execFence
  | l1inv => exact hs.execL1inv
  | pref => exact hs.execPref
  | bankmode => exact hs.execBankmode
  | dset => exact hs.execDset
  | dget => exact hs.execDget
  | dld => exact hs.execDld
  | aadd => exact hs.execAadd
  | aand => exact hs.execAand
  | aor => exact hs.execAor
  | axor => exact hs.execAxor
  | amin => exact hs.execAmin
  | amax => exact hs.execAmax
  | aminu => exact hs.execAminu
  | amaxu => exact hs.execAmaxu
  | aswap => exact hs.execAswap
  | acas => exact hs.execAcas
  | afadd => exact hs.execAfadd
  | barr => exact hs.execBarr
  | bwait => exact hs.execBwait
  | mwait => exact hs.execMwait
  | msig => exact hs.execMsig
  | rinit => exact hs.execRinit
  | rclaim => exact hs.execRclaim
  | rwaite => exact hs.execRwaite
  | rcommit => exact hs.execRcommit
  | rwaitf => exact hs.execRwaitf
  | rtake => exact hs.execRtake
  | rstat => exact hs.execRstat
  | twait => exact hs.execTwait
  | tgive => exact hs.execTgive
  | ypop => exact hs.execYpop
  | ypeek => exact hs.execYpeek
  | vadd => exact hs.execVadd
  | vsub => exact hs.execVsub
  | vmul => exact hs.execVmul
  | vfma => exact hs.execVfma
  | vfnma => exact hs.execVfnma
  | vmin => exact hs.execVmin
  | vmax => exact hs.execVmax
  | vabs => exact hs.execVabs
  | vneg => exact hs.execVneg
  | vdiv => exact hs.execVdiv
  | vsqrt => exact hs.execVsqrt
  | vrsq => exact hs.execVrsq
  | vrcp => exact hs.execVrcp
  | vexp2 => exact hs.execVexp2
  | vlog2 => exact hs.execVlog2
  | vand => exact hs.execVand
  | vor => exact hs.execVor
  | vxor => exact hs.execVxor
  | vshl => exact hs.execVshl
  | vshr => exact hs.execVshr
  | vsar => exact hs.execVsar
  | vceq => exact hs.execVceq
  | vclt => exact hs.execVclt
  | vcle => exact hs.execVcle
  | vsel => exact hs.execVsel
  | vmov => exact hs.execVmov
  | vmovs => exact hs.execVmovs
  | viota => exact hs.execViota
  | vclamp => exact hs.execVclamp
  | vadds => exact hs.execVadds
  | vmulh => exact hs.execVmulh
  | vcvt => exact hs.execVcvt
  | vpack => exact hs.execVpack
  | vunpk => exact hs.execVunpk
  | vperm => exact hs.execVperm
  | vgaths => exact hs.execVgaths
  | vscats => exact hs.execVscats
  | vred => exact hs.execVred
  | vscan => exact hs.execVscan
  | vtopk => exact hs.execVtopk
  | vcmpr => exact hs.execVcmpr
  | vexpd => exact hs.execVexpd
  | vld => exact hs.execVld
  | vst => exact hs.execVst
  | vldx => exact hs.execVldx
  | mand => exact hs.execMand
  | mor => exact hs.execMor
  | mnot => exact hs.execMnot
  | mpopc => exact hs.execMpopc
  | mma => exact hs.execMma
  | mmaz => exact hs.execMmaz
  | mmac => exact hs.execMmac
  | mmae => exact hs.execMmae
  | mres => exact hs.execMres
  | mbndLyr => exact hs.execMbndLyr
  | mbndFirst => exact hs.execMbndFirst
  | mbndSum => exact hs.execMbndSum
  | mcomp => exact hs.execMcomp
  | mmas => exact hs.execMmas
  | mmab => exact hs.execMmab
  | mzero => exact hs.execMzero
  | mwr => exact hs.execMwr
  | mrd => exact hs.execMrd
  | mchk => exact hs.execMchk
  | mjoinJoin => exact hs.execMjoinJoin
  | mjoinLeave => exact hs.execMjoinLeave
  | cpin => exact hs.execCpin
  | cprow => exact hs.execCprow
  | cpexp => exact hs.execCpexp
  | cpfill => exact hs.execCpfill
  | scprobe => exact hs.execScprobe
  | scrply => exact hs.execScrply
  | cpout => exact hs.execCpout
  | cpsct => exact hs.execCpsct
  | cppack => exact hs.execCppack
  | cpred => exact hs.execCpred
  | cpcoll => exact hs.execCpcoll
  | cpsend => exact hs.execCpsend
  | cppost => exact hs.execCppost
  | screc => exact hs.execScrec
  | cpcnv => exact hs.execCpcnv
  | ebind => exact hs.execEbind
  | erun => exact hs.execErun
  | eswp => exact hs.execEswp
  | efrnt => exact hs.execEfrnt
  | ndagree => exact hs.execNdagree
  | sigrd => exact hs.execSigrd
  | copen => exact hs.execCopen
  | cclose => exact hs.execCclose
  | katstat => exact hs.execKatstat
  | trap => exact hs.execTrap
  | eret => exact hs.execEret
  | mfsr => exact hs.execMfsr
  | mtsr => exact hs.execMtsr
  | exit => exact hs.execExit
  | yieldT => exact hs.execYieldT
  | swap => exact hs.execSwap
  | swapLoad => exact hs.execSwapLoad
  | frame => exact hs.execFrame
  | drain => exact hs.execDrain
  | tlbinv => exact hs.execTlbinv
  | spawn => exact hs.execSpawn
  | depdec => exact hs.execDepdec
  | depdecAll => exact hs.execDepdecAll
  | halt => exact hs.execHalt
  | clock => exact hs.execClock
  | kill => exact hs.execKill
  | idle => exact hs.execIdle
  | phase => exact hs.execPhase
  | instructionFetch => exact hs.execInstructionFetch
  | engineCommandPush => exact hs.execEngineCommandPush
  | instructionCommit => exact hs.execInstructionCommit
  | framedStartMiss => exact hs.execFramedStartMiss
  | commandSteal => exact hs.execCommandSteal
  | commandRetire => exact hs.execCommandRetire
  | classQueueLeave => exact hs.execClassQueueLeave
  | homeAdmissionRound => exact hs.execHomeAdmissionRound
  | horizonWiden => exact hs.execHorizonWiden
  | l1CopyInstall => exact hs.execL1CopyInstall
  | l1CopyDiscard => exact hs.execL1CopyDiscard
  | claspRequestPerform => exact hs.execClaspRequestPerform
  | pageWalkComplete => exact hs.execPageWalkComplete
  | bankmodeChangeBegin => exact hs.execBankmodeChangeBegin
  | bankmodeChangeEnd => exact hs.execBankmodeChangeEnd
  | mwaitRecheck => exact hs.execMwaitRecheck
  | idleTimeout => exact hs.execIdleTimeout
  | plateLoadComplete => exact hs.execPlateLoadComplete
  | trapTake => exact hs.execTrapTake
  | containmentEvent => exact hs.execContainmentEvent
  | katInject => exact hs.execKatInject
  | replicaMeeting => exact hs.execReplicaMeeting
  | meetingTimeout => exact hs.execMeetingTimeout
  | ndagreeTimeout => exact hs.execNdagreeTimeout
  | taskAccept => exact hs.execTaskAccept
  | taskPlace => exact hs.execTaskPlace
  | taskComplete => exact hs.execTaskComplete
  | taskPreempt => exact hs.execTaskPreempt
  | patrolScrub => exact hs.execPatrolScrub
  | tickBoundary => exact hs.execTickBoundary
  | tickBatchAdmit => exact hs.execTickBatchAdmit
  | krytlinkPacketDeliver => exact hs.execKrytlinkPacketDeliver
  | clockOffsetExceeded => exact hs.execClockOffsetExceeded
  | portFailure => exact hs.execPortFailure
  | hostBar2Write => exact hs.execHostBar2Write
  | hostBar2Read => exact hs.execHostBar2Read
  | claim => exact hs.execClaim
  | claimHandover => exact hs.execClaimHandover
  | devreset => exact hs.execDevreset
  | submit => exact hs.execSubmit
  | bootsrc => exact hs.execBootsrc
  | bootdone => exact hs.execBootdone
  | deviceRegisterWrite => exact hs.execDeviceRegisterWrite
  | deviceReset => exact hs.execDeviceReset
  | bootSourceTimeout => exact hs.execBootSourceTimeout
  | bootFetchComplete => exact hs.execBootFetchComplete
  | bootNetworkTimeout => exact hs.execBootNetworkTimeout
  | bootImageTimeout => exact hs.execBootImageTimeout
  | powerCapOvershoot => exact hs.execPowerCapOvershoot
  | thermalThrottle => exact hs.execThermalThrottle
  | thermalTrip => exact hs.execThermalTrip
  | debugStop => exact hs.execDebugStop
  | debugStep => exact hs.execDebugStep
  | debugResume => exact hs.execDebugResume
  | ownerKill => exact hs.execOwnerKill
  | powerCapExceeded => exact hs.execPowerCapExceeded
  | powerCapCleared => exact hs.execPowerCapCleared

theorem turn_canon (hs : s.Canon) : Res.Canon (turn s) := by
  unfold turn
  refine canon_ite ?_ hs.rest
  split
  · exact exec_canon _ hs.scrubFetch
  · exact hs.scrubFetch.trapNow

theorem step_canon (hs : s.Canon) : Res.Canon (step s) := by
  unfold step
  split
  · exact exec_canon _ hs
  · exact canon_ite (turn_canon (State.Canon.switchTo hs)) trivial
  · exact turn_canon hs

end

end Sys2Proof.Machine

namespace Sys2Proof.Proofs
open Sys2Proof Sys2Proof.Machine

/-- Settles O16, by what a load behind its window, on its way, at a poisoned sector, at its home and at a copy comes to. -/
theorem loadsFromMemory : Obligations.LoadsFromMemory := by
  intro size sx byp oc a b imm s p i va n copy walked load waits hex hal htr hm hheld
  obtain ⟨k, hk, hload⟩ := exec_ld_page hex hal htr hm hheld
  have hr : s.Decodes walked := scrubWalk_decoded s s.cur.gid va
  let h : HeldLoad := load none
  have hexec : exec i s = loadOut h (walked.pass k) := hload
  have hpath : h.path ≠ .scratch := by
    show (if _ then LoadPath.home else .cached) ≠ _
    split <;> decide
  have hhit : (walked.pass k).cur.l1Hit h = copy := by
    rw [l1Hit_of_path _ (h := h) (home := byp || p.mtype == 1) rfl, show (walked.pass k).cur.l1 = s.cur.l1 by rw [← hr.cur]; rfl]
  have hwindow : (walked.pass k).cur.window = s.cur.window := show walked.cur.window = _ by rw [hr.cur]
  refine ⟨fun hbehind => ?behind, fun hclass hother => ?_⟩
  case behind =>
    obtain ⟨t, ht, hwaits, -, honly⟩ := executeLoad_scalar hr (k := k) (q := walked.pass k) (h := h) rfl rfl
    exact ⟨t, by rw [hexec, loadOut, tryLoad_behind (by rw [hwindow]; exact hbehind), ht], hwaits, honly⟩
  have hfree : (walked.pass k).cur.classFree oc = true := show walked.cur.classFree oc = true by rw [hr.cur]; exact hclass
  have halone : sectorPending (walked.pass k).cur.window h = false := by rw [hwindow]; exact sectorPending_of_other hother
  have hlink' (hl : s.linkTrap p.addr = none) : (walked.pass k).linkTrap h.addr = none :=
    (linkTrap_pass walked k p.addr).trans ((linkTrap_decodes hr p.addr).trans hl)
  refine ⟨fun hnone hlink => ⟨fun j hj => ⟨k, hk, ?poisoned⟩, fun hsound hmay => ?home, fun hsound hfar => ?leaves⟩, fun c hc => ?copied⟩
  case poisoned =>
    have hj' : (walked.pass k).poisonedIn? h.addr h.n = some j := (poisonedIn_decodes hr p.addr n).trans hj
    rw [hexec, loadOut, tryLoad_unsound (h := h) hfree halone hpath (hhit.trans hnone) (hlink' hlink) hj', scrubWalk_pass]; rfl
  case home =>
    have home : (walked.pass k).FindsHome h := ⟨MayLoad.pass (hmay.decodes hr) k, (poisonedIn_decodes hr p.addr n).trans hsound,
      fun hs => absurd hs hpath, halone, hhit.trans hnone⟩
    obtain ⟨t, ht, hreg, hnext, hrec, honly⟩ := loadOut_scalar hr k home rfl
    exact ⟨_, loadValue_extends size sx _ _ (seenBytes_length ..) fun j hj => seenBytes_getD s s.cur p.addr n j hj, t, hexec.trans ht, hreg, hnext,
      hrec, honly⟩
  case leaves =>
    have hfar' : (walked.pass k).reachesNow (walked.pass k).cur.gid h.addr = false := by
      rw [show (walked.pass k).cur.gid = s.cur.gid by rw [← hr.cur]; rfl]
      exact (reachesNow_decodes hr s.cur.gid p.addr).trans hfar
    have hsound' : (walked.pass k).poisonedIn? h.addr h.n = none := (poisonedIn_decodes hr p.addr n).trans hsound
    obtain ⟨t, ht, hwaits, hqueue, -⟩ := executeLoad_scalar hr (k := k) (h := load (some s.nextWrite))
      (q := (walked.pass k).sendOut (.load walked.nextWrite n) oc p.addr p.home) rfl rfl
    have hnum : (walked.pass k).nextWrite = s.nextWrite := show walked.nextWrite = _ from hr.nextWrite
    refine ⟨t, ?_, hwaits, scalarAccess s.cur.gid (.load s.nextWrite n) oc p.addr [] p.home, hqueue.trans ?_, rfl, rfl, rfl⟩
    · rw [hexec, loadOut, tryLoad_sets_out (h := h) hfree halone hpath (hhit.trans hnone) (hlink' hlink) hsound' hfar', ← ht, hnum, hr.nextWrite]
    · rw [← hr.nextWrite, ← hr.cur]; rfl
  case copied =>
    obtain ⟨t, ht, hreg, hnext, hrec, honly⟩ := loadOut_copied hr k (h := h) hfree halone (hhit.trans hc) rfl
    exact ⟨_, loadValue_extends size sx _ _ (by rw [List.length_map, List.length_range]) fun j hj => getD_map_range _ _ hj, t, hexec.trans ht, hreg, hnext, hrec, honly⟩

/-- Settles O17, by what a load that finds its home does. -/
theorem loadsFromScratch : Obligations.LoadsFromScratch := by
  intro size sx oc a b imm s x i va n hex hal hw hheld hmay
  let h : HeldLoad := { cls := oc, path := .scratch, va := va, addr := x, n := n, dest := .scalar a size sx, sent := none }
  obtain ⟨k, hk, hload⟩ := exec_lds_window hex hal hw
  have hbank : (s.pass k).scratchHeld x = false ∧ (s.pass k).scratchTrap .read x = none :=
    ⟨hheld, scratchTrap_of_windowByte (s := s.pass k) hw hheld⟩
  refine ⟨fun hsound => ?sound, fun q hq => ⟨k, hk, ?poisoned⟩⟩
  case sound =>
    have home : (s.pass k).FindsHome h := ⟨MayLoad.pass hmay k, hsound, fun _ => hbank, rfl, rfl⟩
    obtain ⟨t, ht, hreg, hnext, hrec, honly⟩ := loadOut_scalar (State.Decodes.rfl s) k home rfl
    exact ⟨_, loadValue_extends size sx _ _ (seenBytes_length ..) fun j hj => seenBytes_getD s s.cur x n j hj, t, hload.trans ht, hreg, hnext, hrec, honly⟩
  case poisoned => exact hload.trans (loadOut_poisoned (h := h) (MayLoad.pass hmay k) hq (fun _ => hbank) rfl rfl)

/-- Settles O19: each access checks its alignment, then its page or its window. -/
theorem accessTraps : Obligations.AccessTraps := by
  intro size sx byp oc a b imm s va aligned faults page bank
  have page_faults {i : Instr} {rs : List Reg} {f : State → Res} {k : AccessKind} {g : State → Place → State → Res}
      (he : exec i s = issue i (aligning rs (accessAddr · b imm) (2 ^ size.toNat) f) s) (hf : f = fun s => paged k true (accessAddr s b imm) (g s) s)
      (h : s.Executes i rs []) : faults i true (page k) := by
    refine ⟨fun hn => raises_align (va := (accessAddr · b imm)) he h (fun _ => rfl) hn, fun hal t ht => ?_⟩
    suffices hpage : s.translate s.cur.gid 1 k true va = .error t by
      exact exec_page_trap (va := (accessAddr · b imm)) he h (fun _ => rfl) hf hal hpage
    simp only [page] at ht
    split at ht
    · rename_i e heq; cases ht; exact heq
    · cases ht
  have bank_faults {i : Instr} {rs : List Reg} {f : State → Res} {k : AccessKind} {g : State → Nat → Res}
      (he : exec i s = issue i (aligning rs (accessAddr · b imm) (2 ^ size.toNat) f) s) (hf : f = windowed k (accessAddr · b imm) g)
      (h : s.Executes i rs []) : faults i false (bank k) := by
    refine ⟨fun hn => raises_align (va := (accessAddr · b imm)) he h (fun _ => rfl) hn, fun hal t ht => ?_⟩
    obtain ⟨j, hj, e⟩ := exec_aligned (va := (accessAddr · b imm)) he h (fun _ => rfl) hal
    refine ⟨j, hj, ?_⟩
    simp only [bank] at ht
    split at ht
    · rename_i x heq
      cases ht
      rw [e, hf]
      exact windowed_error g (s := s.pass j) heq
    · cases ht
  exact ⟨page_faults (exec_ld_aligning size sx byp oc a b imm s) rfl, page_faults (exec_st_aligning size oc a b imm s) rfl,
    bank_faults (exec_lds_aligning size sx oc a b imm s) rfl, bank_faults (exec_sts_aligning size oc a b imm s) rfl⟩

/-- Settles O20: DSET and DGET act on the quarters of the register, DLD loads it as a load of its home does. -/
theorem descriptorRegisters : Obligations.DescriptorRegisters := by
  intro da a b q oc s desc
  refine ⟨fun h => ?dset, fun h => ?dget, fun h => ⟨fun hal => ?align, fun hal p ht hh hmay hsound => ?dld⟩⟩
  case dset =>
    obtain ⟨k, -, e⟩ := issue_reading h fun s => finish s (s.cur.landDesc da (setQuarter (s.cur.rd da) q (s.cur.rs b)) 1)
    obtain ⟨t, hfin, hd, hregs, hnext, hrec, ht⟩ := finish_landDesc_eq (s := s) (q := s.pass k) rfl rfl rfl rfl da
      (setQuarter (s.cur.rd da) q (s.cur.rs b)) 1 (Nat.le_refl 1)
    refine ⟨t, e.trans hfin, _, ⟨hd, hregs, hnext, hrec, ?_⟩, fun j hj => setQuarter_get _ q _ j hj⟩
    rw [ht]
    exact ⟨rfl, by simp only [State.pass]; omega, fun _ _ => rfl⟩
  case dget =>
    obtain ⟨k, -, e⟩ := issue_reading h fun s => finishReg s a (getQuarter (s.cur.rd da) q) 1
    obtain ⟨t, hfin, hw⟩ := finishReg_spec s k a (getQuarter (s.cur.rd da) q) (Nat.le_refl 1)
    exact ⟨t, e.trans hfin, hw⟩
  case align => exact raises_align (va := (·.cur.rs b)) (exec_dld_aligning oc b s da) h (fun _ => rfl) hal
  case dld =>
    obtain ⟨k, -, e⟩ := exec_page (va := (·.cur.rs b)) (exec_dld_aligning oc b s da) h (fun _ => rfl) rfl hal ht hh
    have hr : s.Decodes (s.scrubWalk s.cur.gid (s.cur.rs b)) := scrubWalk_decoded s s.cur.gid (s.cur.rs b)
    have home : ((s.scrubWalk s.cur.gid (s.cur.rs b)).pass k).FindsHome { cls := oc, path := .home, va := s.cur.rs b, addr := p.addr, n := 32, dest := .descr da, sent := none, sect := p.home } :=
      ⟨MayLoad.pass (hmay.decodes hr) k, (poisonedIn_decodes hr p.addr 32).trans hsound, (fun hs => nomatch hs), rfl, rfl⟩
    obtain ⟨t, hload, hd, hregs, hnext, hrec, honly⟩ := loadOut_descr hr k home rfl
    exact ⟨t, e.trans hload, _, ⟨hd, hregs, hnext, hrec, honly⟩, fun j hj => descriptor_bit (fun j hj => seenBytes_getD s s.cur p.addr 32 j hj) hj⟩

/-- Settles O18, by what a store does that nothing holds back, and one that waits in the window. -/
theorem stores : Obligations.Stores := by
  intro size oc a b imm s va n walked done held hal hb
  have hn : n < 128 := size_lt size
  refine ⟨fun p hex ht hm hh => ?page, fun x hex hw => ?window⟩
  case page =>
    obtain ⟨k, -, e⟩ := exec_page (va := (accessAddr · b imm)) (exec_st_aligning size oc a b imm s) hex (fun _ => rfl) rfl hal ht hh
    have hr : s.Decodes walked := scrubWalk_decoded s s.cur.gid va
    have hrun : exec (.st size oc a b imm) s = storeOut .write oc va p.addr (leBytes n (s.cur.rs a).toNat) p.home (walked.pass k) := by
      rw [← hr.cur]
      exact e.trans (if_neg hm)
    refine ⟨fun hw hmay => ?now, fun hw => ?late⟩
    case now =>
      obtain ⟨t, ht, h⟩ := storeOut_now hr k (va := va) (a := a) (sect := p.home) hw hmay hn (.inl (translate_addr_lt ht))
      exact ⟨t, hrun.trans ht, h⟩
    case late =>
      obtain ⟨t, ht, h⟩ := storeOut_held hr k (cls := oc) (va := va) (addr := p.addr) (n := n) (a := a) (sect := p.home) (.inl hw)
      exact ⟨t, hrun.trans ht, h⟩
  case window =>
    obtain ⟨k, -, e⟩ := exec_aligned (va := (accessAddr · b imm)) (exec_sts_aligning size oc a b imm s) hex (fun _ => rfl) hal
    have hr : s.Decodes s := State.Decodes.rfl s
    have hrun : exec (.sts size oc a b imm) s = storeOut .write oc va x (leBytes n (s.cur.rs a).toNat) none (s.pass k) :=
      e.trans (windowed_ok _ hw)
    refine ⟨fun hwin hheld hmay => ?now, fun hwait => ?late⟩
    case now =>
      obtain ⟨t, ht, h⟩ := storeOut_now hr k (va := va) (a := a) (sect := none) hwin hmay hn (.inr hheld)
      exact ⟨t, hrun.trans ht, h⟩
    case late =>
      obtain ⟨t, ht, h⟩ := storeOut_held hr k (cls := oc) (va := va) (addr := x) (n := n) (a := a) (sect := none)
        (hwait.imp_right fun hheld => ⟨windowByte_ge hw, hheld⟩)
      exact ⟨t, hrun.trans ht, h⟩

/-- Settles O21: a FENCE goes on, with or without a meeting, once what it waits for has performed, and stalls before. -/
theorem fences : Obligations.Fences := by
  intro sem scope mask s i hex hc hl hb
  by_cases hrel : sem.getLsbD 1 = true
  · have hexec := exec_fence_release hex hc hl hrel
    refine ⟨fun hp => ?goes, fun hp => ?waits⟩
    case goes =>
      obtain ⟨u, hmeet, hu, -⟩ := meeting_alone (hb hrel) (.fence sem scope mask) [] (fun s => s.performed s.cur mask scope.toNat)
        (fun s => finish s (fenceUnit sem scope mask s)) hp fun u hu => by rw [hu]; exact hp
      obtain ⟨t, hfin, hregs, hnext, hrec, hcar, hacq, hkept, -, honly⟩ := finish_fence s sem scope mask hu
      exact ⟨t, hexec.trans (hmeet.trans hfin), hregs, hnext, hrec, hcar, hacq, hkept, fun h => absurd (hrel.symm.trans h) Bool.noConfusion, honly⟩
    case waits =>
      obtain ⟨n, hn⟩ := stall_waits s
      exact ⟨n, hexec.trans ((meeting_waits (hb hrel) _ _ _ _ hp).trans hn)⟩
  · have hexec := exec_fence_plain hex hc hl (Bool.eq_false_iff.mpr hrel)
    refine ⟨fun hp => ?goes, fun hp => ?waits⟩
    case goes =>
      obtain ⟨t, hfin, hregs, hnext, hrec, hcar, hacq, hkept, hmet, honly⟩ := finish_fence s sem scope mask (u := s.cur) rfl
      exact ⟨t, hexec.trans ((if_pos hp).trans hfin), hregs, hnext, hrec, hcar, hacq, hkept, fun _ => hmet, honly⟩
    case waits =>
      obtain ⟨n, hn⟩ := stall_waits s
      exact ⟨n, hexec.trans ((if_neg (by rw [hp]; exact Bool.false_ne_true)).trans hn)⟩

/-- Settles O22: L1INV leaves copies that the unit had, and none of a sector that its range reaches; each prefetch of a PREF decodes sectors, adds a
copy of what the home shows, or enters the class queue. -/
theorem cacheHints : Obligations.CacheHints := by
  intro b c oc s va n lines
  refine ⟨fun hex hc => ?l1inv, fun hex => ?pref⟩
  case l1inv =>
    obtain ⟨k, hexec⟩ := l1inv_ends hex hc
    obtain ⟨l1, l0, hinv, h1, h0, hgone⟩ := invalidated_eq (s.pass k) va n
    obtain ⟨t, ht, hnext, hrec, e⟩ := finish_eq s k (((s.pass k).invalidated va n).busyFor (4 + min 512 (rangeLines va n))) (Nat.le_refl 1)
      (by rw [hinv]; rfl) (by rw [hinv]; rfl) (by rw [hinv]; rfl) (by rw [hinv]; rfl) (by rw [hinv]; rfl) (by rw [hinv]; rfl) (by rw [hinv]; rfl)
    rw [hinv] at e
    refine ⟨t, hexec.trans ht, ?_, hnext, hrec, ?_, ?_, ?_, ?_, ?_⟩
    · intro r; rw [e]; rfl
    · rw [e]; exact h1
    · rw [e]; exact h0
    · rw [e]; exact (Nat.add_assoc ..).symm
    · intro x hx q m hn hlo hhi hm heq
      refine hgone x (by rw [e] at hx; exact hx) hn ?_
      rw [heq]
      exact mem_rangeSectors (s := s.pass k) hlo hhi ((lookup_pass s k _).trans hm)
    · rw [e]
      exact ⟨rfl, by show s.clock + k + s.cur.time = s.clock + (s.cur.time + k); omega, fun _ _ => rfl⟩
  case pref =>
    obtain ⟨k, -, hk⟩ := issue_reading hex fun s =>
      finish (s.prefetchedRange oc (s.cur.rs b).toNat (min 65536 (s.cur.rs c).toNat))
        (s.prefetchedRange oc (s.cur.rs b).toNat (min 65536 (s.cur.rs c).toNat)).cur
    have hp := prefetchedRange_prefetches (s.pass k) oc va (min 65536 n)
    generalize hr : (s.pass k).prefetchedRange oc va (min 65536 n) = r at hp
    obtain ⟨⟨devs, mem, poison, latent, num, l1, q, hframe⟩, hbytes, hcopies, hqueued⟩ := hp
    have hexec : exec (.pref oc b c) s = finish (r.pass 0) r.cur := by rw [exec_pref_eq, hk, ← hr]; rfl
    obtain ⟨t, ht, ⟨hpc, hlc, hlb⟩, hrec, e⟩ := finish_eq r 0 r.cur (Nat.le_refl 1) rfl rfl rfl rfl rfl rfl rfl
    have hadv := advance_congr (u := s.cur) (v := r.cur) (by rw [hframe]; rfl) (by rw [hframe]; rfl) (by rw [hframe]; rfl) (by rw [hframe]; rfl)
    refine ⟨t, hexec.trans ht, ?_, ⟨hpc.trans hadv.1, hlc.trans hadv.2.1, hlb.trans hadv.2.2⟩, ?_, ?_, ?_, ?_, ?_⟩
    · intro x; rw [e, hframe]; rfl
    · rw [hframe] at hrec; exact hrec
    · intro g a; rw [e]; exact hbytes g a
    · rw [e]; exact hcopies
    · rw [e]; exact hqueued
    · rw [e, hframe]
      exact ⟨rfl, by show s.clock + k + 0 + s.cur.time = s.clock + (s.cur.time + k); omega, fun _ _ => rfl⟩

/-- Settles O23: the checks of BANKMODE find its trap or its bank, and what the bank is doing says what happens. -/
theorem bankModes : Obligations.BankModes := by
  intro a b c s i dev d sel mode n bank reserved denied secret others hex hc
  have hreserved : reserved ↔ (if s.cur.isCore then 2048 ≤ sel.toNat else 32 ≤ sel.toNat) ∨ 5 ≤ mode.toNat := by
    show (if s.cur.isCore then 2 ^ 11 else 2 ^ 5) ≤ sel.toNat ∨ 5 ≤ mode.toNat ↔ _
    cases s.cur.isCore <;> exact Iff.rfl
  have hdenied : denied ↔ (!s.cur.isCore && !s.cur.handlerMode && bank.owner != s.cur.task) = true := by
    simp [denied, and_assoc]
  have hsecret : secret ↔ (d.bankSecure n && !s.cur.trusted) = true := by simp [secret]
  refine ⟨fun hr => ?illfld, fun hr hd => ?priv, fun hr hd hs => ?secviol, fun hr hd hs => ?granted⟩
  case illfld => exact exec_bankmode_error hex hc (if_pos (hreserved.mp hr))
  case priv => exact exec_bankmode_error hex hc ((if_neg (hreserved.not.mp hr)).trans (if_pos (hdenied.mp hd)))
  case secviol =>
    exact exec_bankmode_error hex hc ((if_neg (hreserved.not.mp hr)).trans ((if_neg (hdenied.not.mp hd)).trans (if_pos (hsecret.mp hs))))
  case granted =>
    obtain ⟨k, hexec⟩ := exec_bankmode_ok hex hc (n := n)
      ((if_neg (hreserved.not.mp hr)).trans ((if_neg (hdenied.not.mp hd)).trans (if_neg (hsecret.not.mp hs))))
    have hmode : (mode.setWidth 3).setWidth 64 = mode := by
      have : mode.toNat < 5 := Nat.lt_of_not_le fun h => hr (.inr h)
      bv_omega
    have hothers (t : State) (x : Bank) (h : ∀ j, (t.dev dev).bank j = if j = n then x else d.bank j) : others t ∧ (t.dev dev).bank n = x :=
      ⟨fun j hj => (h j).trans (if_neg hj), (h n).trans (if_pos rfl)⟩
    refine ⟨fun hn hm => ?same, fun hn hm hp h4 => ?prompt, fun hn hm hp => ?asks, fun hn hbegun htold hasker => ?begun⟩
    case same =>
      obtain ⟨t, ht, hwrote⟩ := finishReg_spec s k a ((mode.setWidth 3).setWidth 64) (Nat.le_refl 1)
      exact ⟨t, hexec.trans ((bankChange_same hn hm).trans ht), hmode ▸ hwrote⟩
    case prompt =>
      obtain ⟨t, ht, hreg, hnext, hrec, hbank, htime, hbusy⟩ := finish_busy s k dev n _ a _ _
      obtain ⟨hoth, hn'⟩ := hothers t _ hbank
      exact ⟨t, hexec.trans ((bankChange_prompt hn hm hp h4).trans ht), hreg, hnext, hrec, hoth, changeCycles bank.mode n (s.pass k).clock,
        changeCycles_least .., fun h0 => changeCycles_clean h0 .., hbusy, by rw [hn', htime]⟩
    case asks =>
      obtain ⟨m, hm'⟩ := stall_waits ((s.pass k).onDev dev fun d => d.setBank n { bank with
        changing := some (mode.setWidth 3), asker := s.cur.gid, begun := false, ends := (s.pass k).cur.time + changeCycles bank.mode n (s.pass k).clock })
      obtain ⟨hoth, hn'⟩ := hothers _ _ (bank_onDev (s.pass k) dev n _)
      exact ⟨_, m, hexec.trans ((bankChange_asks hn hm hp).trans hm'), fun _ => rfl, rfl, hoth, by rw [hn'], by rw [hn'], by rw [hn'], by rw [hn']⟩
    case begun =>
      obtain ⟨t, ht, hreg, hnext, hrec, hbank, htime, hbusy⟩ := finish_busy s k dev n _ a _ _
      obtain ⟨hoth, hn'⟩ := hothers t _ hbank
      refine ⟨t, hexec.trans ((bankChange_begun hn hbegun htold hasker).trans ht), hreg, hnext, hrec, hoth, hn', ?_⟩
      rw [hbusy, htime]
      show _ + (bank.ends - _) = max _ bank.ends
      omega

/-- Settles O56: every function of the model keeps the form of the memory that it is given, and a step is one of them. -/
theorem memoryFormIsKept : Obligations.MemoryFormIsKept := by
  intro s t hs e
  exact Res.Canon.next e (step_canon hs)

end Sys2Proof.Proofs
end

section
/-! PROOFS. Copy in (05): the obligation O32. -/

namespace Sys2Proof.Machine
open Sys2Proof

/-! ### The token FIFOs (06 R128) -/

/-- Two queue codes that are not reserved have places of their own in the seven-place tables. -/
theorem qidx_inj {q r : BitVec 3} (hq : q ≠ 7) (hr : r ≠ 7) (h : qidx q = qidx r) : q = r := by revert q r; decide

theorem fifo_setFifo (u : Unit) {x y a b : BitVec 3} (n : Nat) (hx : x ≠ 7) (hy : y ≠ 7) (ha : a ≠ 7) (hb : b ≠ 7) :
    (u.setFifo x y n).fifo a b = if a = x ∧ b = y then n else u.fifo a b := by
  simp only [Unit.fifo, Unit.setFifo, Fin.getElem_fin, Vector.getElem_set, Fin.val_inj]
  by_cases hax : a = x
  · subst hax
    by_cases hby : b = y
    · subst hby; simp
    · have hne : (qidx y).val ≠ (qidx b).val := fun e => hby (qidx_inj hy hb (Fin.ext e)).symm
      simp [hby, Vector.getElem_set_ne _ _ hne]
  · have hne : qidx x ≠ qidx a := fun e => hax (qidx_inj hx ha e).symm
    simp [hax, hne]

theorem engineQueue_ne_seven {q : BitVec 3} (h : q ∈ engineQueues) : q ≠ 7 := by
  rintro rfl; exact absurd h (by decide)

/-! ### What a cycle passes over where nothing is under way (06 R123) -/

/-- The state in which the engines and what travels find a new cycle. -/
def State.nextCycle (s : State) : State :=
  { s with cur := { s.cur with time := s.cur.time + 1, justGiven := [] }, clock := s.clock + 1 }

theorem tick_eq (s : State) : s.tick = s.nextCycle.endChanges.pump.settle := rfl

section
variable {s : State}

theorem endChanges_of_none_begun (h : ∀ e ∈ s.myDev.banks, e.2.begun = false) : s.endChanges = s := by
  rw [State.endChanges]
  split
  · rfl
  · dsimp only
    rw [List.filter_eq_nil_iff.mpr fun e he => by simp [h e he], List.foldl_nil]

theorem pump_of_none_travels (hc : s.cur.classQ = []) (hf : s.flows = []) : s.pump = s := by
  simp [State.pump, hc, hf]

theorem turnQueue_of_empty {q : BitVec 3} (h : s.cur.queue q = []) : s.turnQueue q = s := by
  rw [State.turnQueue, h]

theorem turnQueues_of_empty {qs : List (BitVec 3)} (h : ∀ q ∈ qs, s.cur.queue q = []) : qs.foldl State.turnQueue s = s := by
  induction qs with
  | nil => rfl
  | cons q qs ih =>
    rw [List.foldl_cons, turnQueue_of_empty (h q List.mem_cons_self)]
    exact ih fun r hr => h r (List.mem_cons_of_mem q hr)

theorem poll_of_ended {y : Inflight} (htodo : y.todo = false) (hwait : y.waiting = false) : s.poll y = s := by
  simp [State.poll, htodo, hwait]

theorem commit_of_window_nil (h : s.cur.window = []) : s.commit = s := by
  rw [State.commit, h]; rfl

theorem stuckPush_of_window_nil (h : s.cur.window = []) : s.stuckPush = s := by
  rw [State.stuckPush, h]

/-- Every write of the unit has performed where none is in its class queues, at a home, or between them (05 R99, 16 R293). -/
theorem landed_of_none_travels (hc : s.cur.classQ = []) (ha : s.admQ = []) (hf : s.flows = []) (hp : s.pend = [])
    (hd : ∀ d ∈ s.devs, d.held = []) (c : Command) : s.landed s.cur c = true := by
  have held : (s.devs.all fun d => d.held.all fun x =>
      !(x.gid == s.cur.gid && !x.orphan && x.command == some (c.queue, c.num))) = true :=
    List.all_eq_true.mpr fun d hmem => by rw [hd d hmem]; rfl
  simp only [State.landed, hc, ha, hf, hp, held, List.all_nil, Bool.and_self]

end

/-! ### A command alone in its engine (05 R99, 06 R132) -/

theorem inflight?_alone {u : Unit} {y : Inflight} (h : u.inflight = [y]) : u.inflight? y.command.queue y.command.num = some y := by
  simp [Unit.inflight?, h]

theorem mayRetire_of_ended {s : State} {y : Inflight} (hwait : y.waiting = false) (htodo : y.todo = false) (ht : s.timely y = true)
    (hreplies : y.replies = []) (hland : s.landed s.cur y.command = true) (htoken : y.gives ≠ 0 → s.cur.fifo y.command.queue y.gives < 8) :
    s.mayRetire y = true := by
  have hroom : (y.gives == 0 || decide (s.cur.fifo y.command.queue y.gives < 8)) = true := by
    rw [Bool.or_eq_true, beq_iff_eq, decide_eq_true_eq]
    exact or_iff_not_imp_left.mpr htoken
  simp only [State.mayRetire, hwait, htodo, ht, hreplies, hland, hroom, List.isEmpty_nil, Bool.not_false, Bool.and_self]

/-- The unit once the reply entries of the command `y`, alone in flight, have entered the reply queue. -/
def Unit.replied (u : Unit) (y : Inflight) : Unit :=
  { u with replies := u.replies ++ y.replies, replyOf := u.replyOf ++ y.replies.map (fun _ => (y.command.queue, y.command.num)),
           inflight := [{ y with replies := [] }] }

/-- In a prompt machine `y` is the current unit's one command: it has run and waits for its end, and nothing is to start or to commit. -/
structure State.EndsAlone (s : State) (y : Inflight) : Prop where
  prompt   : s.prompt = true
  window   : s.cur.window = []
  inflight : s.cur.inflight = [y]
  queues   : ∀ q ∈ engineQueues, s.cur.queue q = []
  waiting  : y.waiting = false
  todo     : y.todo = false

namespace State.EndsAlone
variable {s : State} {y : Inflight} (h : s.EndsAlone y)
include h

theorem pollAll : s.pollAll = s := by
  rw [State.pollAll, h.inflight, List.foldl_cons, List.foldl_nil, inflight?_alone h.inflight]
  exact poll_of_ended h.todo h.waiting

/-- All that a cycle can do for it is to retire it. -/
theorem settle (hw : s.retireAll.cur.window = []) : s.settle = s.retireAll := by
  have hsettle : s.settle = (((engineQueues.foldl State.turnQueue s).pollAll.retireAll).commit).stuckPush := by
    simp [State.settle, h.prompt, h.window, h.inflight]
  rw [hsettle, turnQueues_of_empty h.queues, h.pollAll, commit_of_window_nil hw, stuckPush_of_window_nil hw]

theorem timely_iff : s.timely y = true ↔ y.until_ ≤ s.cur.time := by
  simp [State.timely, h.prompt]

theorem retireAll_before_end (ht : s.cur.time < y.until_) : s.retireAll = s := by
  have hl : s.timely y = false := Bool.eq_false_iff.mpr fun e => absurd (h.timely_iff.mp e) (by omega)
  have hp : s.pushReplies [] y = s.cur := by simp [State.pushReplies, hl]
  have hr : s.mayRetire y = false := by simp [State.mayRetire, hl]
  rw [State.retireAll, h.inflight, retirePass, hp]
  simp only [inflight?_alone h.inflight, hr, Bool.not_true, Bool.false_eq_true, if_false]
  rfl

theorem pushReplies_at_end (ht : y.until_ ≤ s.cur.time) (hroom : s.cur.replies.length + y.replies.length ≤ 16) :
    s.pushReplies [] y = s.cur.replied y := by
  simp [State.pushReplies, h.timely_iff.mpr ht, h.waiting, h.todo, hroom, Unit.onInflight, h.inflight, Unit.replied]

theorem retireAll_at_end (ht : y.until_ ≤ s.cur.time) (hroom : s.cur.replies.length + y.replies.length ≤ 16)
    (hland : s.landed s.cur y.command = true) (htoken : y.gives ≠ 0 → s.cur.fifo y.command.queue y.gives < 8) :
    s.retireAll =
      (State.engineFreed { s with cur := (s.cur.replied y).retire { y with replies := [] } } y.command).unpin y.command := by
  have hr : ({ s with cur := s.cur.replied y } : State).mayRetire { y with replies := [] } = true :=
    mayRetire_of_ended h.waiting h.todo (h.timely_iff.mpr ht) rfl hland htoken
  rw [State.retireAll, h.inflight, retirePass, h.pushReplies_at_end ht hroom]
  have hf : (s.cur.replied y).inflight? y.command.queue y.command.num = some { y with replies := [] } :=
    inflight?_alone (y := { y with replies := [] }) rfl
  simp only [hf, Bool.not_true, Bool.false_eq_true, if_false]
  rw [if_pos hr]
  rfl

end State.EndsAlone

/-! ### Retirement (05 R99, 06 R128, 07 R159, 20 R364) -/

/-- Records enter lanes or wait for their region's close, and nothing else of the unit moves. -/
theorem signAt_frame (u : Unit) (depth : Nat) (q : BitVec 3) (recs : List (List Byte)) :
    ∃ held lanes, u.signAt depth q recs = { u with heldSigs := held, lanes := lanes } := by
  rw [Unit.signAt]
  split
  · exact ⟨_, u.lanes, rfl⟩
  · exact ⟨u.heldSigs, _, rfl⟩

theorem signAll_frame (l : List SigWait) (u : Unit) :
    ∃ held lanes, l.foldl (fun v e => v.signAt e.depth e.queue e.records) u = { u with heldSigs := held, lanes := lanes } := by
  induction l generalizing u with
  | nil => exact ⟨u.heldSigs, u.lanes, rfl⟩
  | cons e l ih =>
    obtain ⟨held, lanes, hsign⟩ := signAt_frame u e.depth e.queue e.records
    obtain ⟨held', lanes', hl⟩ := ih (u.signAt e.depth e.queue e.records)
    exact ⟨held', lanes', by rw [List.foldl_cons, hl, hsign]⟩

theorem signCommand_frame (u : Unit) (c : Command) (recs : List (List Byte)) :
    ∃ waits held lanes, u.signCommand c recs = { u with sigWait := waits, heldSigs := held, lanes := lanes } := by
  obtain ⟨held, lanes, h⟩ := signAll_frame _ _
  exact ⟨_, held, lanes, h⟩

/-- The unit once it has given a token to the FIFO from `x` to `y`. -/
def Unit.giveToken (u : Unit) (x y : BitVec 3) : Unit :=
  { u with tokens := if y = 0 then u.tokens else (u.setFifo x y (u.fifo x y + 1)).tokens,
           justGiven := if y = 0 then u.justGiven else u.justGiven ++ [(x, y)] }

theorem fifo_giveToken (u : Unit) {x y a b : BitVec 3} (hx : x ≠ 7) (hy : y ≠ 7) (ha : a ≠ 7) (hb : b ≠ 7) :
    (u.giveToken x y).fifo a b = if a = x ∧ b = y ∧ y ≠ 0 then u.fifo a b + 1 else u.fifo a b := by
  by_cases h0 : y = 0
  · rw [if_neg fun h => h.2.2 h0, Unit.giveToken, if_pos h0]; rfl
  · have hset : (u.giveToken x y).fifo a b = (u.setFifo x y (u.fifo x y + 1)).fifo a b := by
      rw [Unit.giveToken, if_neg h0]; rfl
    rw [hset, fifo_setFifo u _ hx hy ha hb]
    by_cases hab : a = x ∧ b = y
    · obtain ⟨rfl, rfl⟩ := hab
      rw [if_pos ⟨rfl, rfl⟩, if_pos ⟨rfl, rfl, h0⟩]
    · rw [if_neg hab, if_neg fun h => hab ⟨h.1, h.2.1⟩]

/-- A token that is given in this cycle is not ripe in it (06 R128). -/
theorem ripe_giveToken (u : Unit) {x y : BitVec 3} (hj : u.justGiven = []) (hx : x ≠ 7) (hy : y ≠ 7) (h0 : y ≠ 0) :
    (u.giveToken x y).ripe x y = u.fifo x y := by
  have hfifo : (u.giveToken x y).fifo x y = u.fifo x y + 1 := by
    rw [fifo_giveToken u hx hy hx hy, if_pos ⟨rfl, rfl, h0⟩]
  have hgiven : (u.giveToken x y).justGiven = [(x, y)] := by
    rw [Unit.giveToken, hj]; exact if_neg h0
  simp [Unit.ripe, hfifo, hgiven]

/-- The unit after a retirement: the command is out of its engine and its class queue, its flags are in FSTAT, its token is given; besides, only the
records and lists that the token and the signature are for have moved. -/
theorem retire_eq (u : Unit) (y : Inflight) :
    ∃ waits held lanes given readGiven, u.retire y =
      { ((u.dropInflight y.command).retireFlags y.flags).giveToken y.command.queue y.gives with
        sigWait := waits, heldSigs := held, lanes := lanes, given := given, readGiven := readGiven } := by
  let v := (u.dropInflight y.command).retireFlags y.flags
  obtain ⟨waits, held, lanes, hsign⟩ : ∃ waits held lanes,
      (if y.trace.isEmpty && v.sigWait.isEmpty then v else v.signCommand y.command (traceRecords y.trace)) =
        { v with sigWait := waits, heldSigs := held, lanes := lanes } := by
    split
    · exact ⟨v.sigWait, v.heldSigs, v.lanes, rfl⟩
    · exact signCommand_frame v _ _
  rw [Unit.retire, Unit.giveToken]
  dsimp only
  rw [hsign]
  by_cases h0 : y.gives = 0
  · rw [if_pos h0, if_pos h0, h0]
    exact ⟨waits, held, lanes, v.given, v.readGiven, rfl⟩
  · rw [if_neg (beq_iff_eq.not.mpr h0), if_neg h0, if_neg h0]
    by_cases h1 : y.gives = 1
    · rw [if_pos (beq_iff_eq.mpr h1)]
      exact ⟨waits, held, lanes, _, _, rfl⟩
    · rw [if_neg (beq_iff_eq.not.mpr h1)]
      exact ⟨waits, held, lanes, v.given, v.readGiven, rfl⟩

/-- An engine of the current unit that has no command any more notes the cycle, and nothing else moves (19 R352). -/
theorem engineFreed_own {s : State} {c : Command} (h : c.engine = s.cur.gid) : s.engineFreed c =
    { s with cur := { s.cur with idleSince := s.cur.idleSince.set (qidx c.queue) s.cur.time } } := by
  rw [State.engineFreed, h, unitAt_cur]
  exact if_pos rfl

theorem unpin_of_not_scrply {s : State} {c : Command} (h : ∀ hd oc r a b x, c.instr ≠ .scrply hd oc r a b x) : s.unpin c = s := by
  rw [State.unpin]
  split
  · rename_i e
    exact absurd e (h _ _ _ _ _ _)
  · rfl

/-- How the unit `w` that its one command `y` has left with the cycle differs from the unit `u` that the cycle found (05 R99). -/
structure Unit.Retired (u w : Unit) (y : Inflight) : Prop where
  inflight : w.inflight = []
  window   : w.window = []
  replies  : w.replies = u.replies ++ y.replies
  fstat    : w.fstat = u.fstat ||| y.flags.setWidth 64
  fifo     : ∀ a b, w.fifo a b = (u.giveToken y.command.queue y.gives).fifo a b
  ripe     : ∀ a b, w.ripe a b = (u.giveToken y.command.queue y.gives).ripe a b
  scalars  : w.s = u.s
  vectors  : w.v = u.v
  masks    : w.m = u.m
  descrs   : w.d = u.d
  pc       : w.pc = u.pc
  time     : w.time = u.time

theorem dropInflight_alone {u : Unit} {y : Inflight} (h : u.inflight = [y]) : (u.dropInflight y.command).inflight = [] := by
  simp [Unit.dropInflight, h]

theorem retired_of_retire {u : Unit} {y : Inflight} (hw : u.window = []) (idle : Vector Nat 7) :
    u.Retired { (u.replied y).retire { y with replies := [] } with idleSince := idle } y := by
  obtain ⟨waits, held, lanes, given, readGiven, e⟩ := retire_eq (u.replied y) { y with replies := [] }
  rw [e]
  exact {
    inflight := dropInflight_alone (u := u.replied y) (y := { y with replies := [] }) rfl
    window := List.map_eq_nil_iff.mpr hw
    replies := rfl, fstat := rfl, fifo := fun _ _ => rfl, ripe := fun _ _ => rfl
    scalars := rfl, vectors := rfl, masks := rfl, descrs := rfl, pc := rfl, time := rfl }

namespace State.EndsAlone
variable {s : State} {y : Inflight} (h : s.EndsAlone y)
include h

/-- With the cycle in which its time is over the command retires, and leaves the rest of the machine as it was. -/
theorem retireAll_retires (ht : y.until_ ≤ s.cur.time) (hroom : s.cur.replies.length + y.replies.length ≤ 16)
    (hland : s.landed s.cur y.command = true) (htoken : y.gives ≠ 0 → s.cur.fifo y.command.queue y.gives < 8)
    (hown : y.command.engine = s.cur.gid) (hpin : ∀ hd oc r a b x, y.command.instr ≠ .scrply hd oc r a b x) :
    ∃ w, s.cur.Retired w y ∧ s.retireAll = { s with cur := w } := by
  have hgid : ((s.cur.replied y).retire { y with replies := [] }).gid = s.cur.gid := by
    obtain ⟨_, _, _, _, _, e⟩ := retire_eq (s.cur.replied y) { y with replies := [] }
    rw [e]; rfl
  rw [h.retireAll_at_end ht hroom hland htoken, unpin_of_not_scrply hpin, engineFreed_own (hown.trans hgid.symm)]
  exact ⟨_, retired_of_retire h.window _, rfl⟩

end State.EndsAlone
end Sys2Proof.Machine

namespace Sys2Proof.Proofs
open Sys2Proof Sys2Proof.Machine

/-- Settles O32: the cycle passes over everything but the command, which stays in its engine before its end and retires with it. -/
theorem retirements : Obligations.Retirements := by
  intro s y c g t hprompt hwindow hinflight hqueues hq hclass hadm hflows hpend hheld hbanks _ hwait htodo hown hpin hroom hg htoken
  have alone : s.nextCycle.EndsAlone y := ⟨hprompt, hwindow, hinflight, hqueues, hwait, htodo⟩
  have htick : t = s.nextCycle.settle := by
    have hmove : s.nextCycle.endChanges.pump = s.nextCycle := by
      rw [endChanges_of_none_begun (s := s.nextCycle) hbanks, pump_of_none_travels (s := s.nextCycle) hclass hflows]
    exact (tick_eq s).trans (congrArg State.settle hmove)
  rcases Nat.lt_or_ge (s.cur.time + 1) y.until_ with hbefore | hend
  · have hstay : t = s.nextCycle := by
      have hr := alone.retireAll_before_end hbefore
      rw [htick, alone.settle (by rw [hr]; exact hwindow), hr]
    rw [hstay]
    exact ⟨fun _ => ⟨hinflight, rfl, rfl, rfl⟩, fun hend => absurd hend (by omega), rfl, rfl, rfl, rfl, rfl, rfl, rfl, rfl, rfl⟩
  · have hland : s.nextCycle.landed s.nextCycle.cur c = true := landed_of_none_travels hclass hadm hflows hpend hheld c
    obtain ⟨w, hw, hretire⟩ := alone.retireAll_retires hend hroom hland htoken hown hpin
    have hleave : t = { s.nextCycle with cur := w } := by
      rw [htick, alone.settle (by rw [hretire]; exact hw.window), hretire]
    have hc7 : c.queue ≠ 7 := engineQueue_ne_seven hq
    rw [hleave]
    refine ⟨fun hbefore => absurd hbefore (by omega), fun _ => ⟨hw.inflight, hw.replies, hw.fstat, fun a b ha hb => ?fifo, fun h0 => ?ripe⟩,
      hw.scalars, hw.vectors, hw.masks, hw.descrs, hw.pc, hw.time, rfl, rfl, rfl⟩
    case fifo => exact (hw.fifo a b).trans (fifo_giveToken s.nextCycle.cur hc7 hg ha hb)
    case ripe => exact (hw.ripe c.queue g).trans (ripe_giveToken s.nextCycle.cur rfl hc7 hg h0)

end Sys2Proof.Proofs
end

section
/-! PROOFS. The sequencer (06): the integer operations and the immediates, O1-O5. -/

namespace Sys2Proof.Machine
open Sys2Proof

/-! ### Exact results at a width (06 R141, R142) -/

/-- An operation of three sources at a width. -/
theorem gives_alu3 {i : Instr} {w : Bool} {a b c d : Reg} {lat : Nat} {f : (n : Nat) → BitVec n → BitVec n → BitVec n → BitVec n} {g : Unit → Word}
    (hl : 1 ≤ lat)
    (he : ∀ s, exec i s = issue i (reading [b, c, d] [] fun s => finishReg s a (alu3 w f (s.cur.rs b) (s.cur.rs c) (s.cur.rs d)) lat) s)
    (hv : ∀ u : Unit, alu3 w f (u.rs b) (u.rs c) (u.rs d) = g u) : Gives i [b, c, d] a g :=
  gives_of (fun u => alu3 w f (u.rs b) (u.rs c) (u.rs d)) lat hl he (fun _ _ => rfl) hv

theorem ofInt_sgn (w : Bool) (x : Word) : BitVec.ofInt (bits w) (sgn w x) = x.setWidth (bits w) := by
  rw [sgn_eq, BitVec.ofInt_toInt]

theorem ofInt_sub (n : Nat) (x y : Int) : BitVec.ofInt n (x - y) = BitVec.ofInt n x - BitVec.ofInt n y := by
  rw [Int.sub_eq_add_neg, BitVec.ofInt_add, BitVec.ofInt_neg, BitVec.sub_eq_add_neg]

/-- The upper half of a product of signed numbers. -/
theorem mulHigh_val (n : Nat) (x y : BitVec n) : opMulHigh n x y = BitVec.ofInt n (x.toInt * y.toInt / 2 ^ n) := by
  rw [opMulHigh, ← upper_half, BitVec.ofInt_mul]; rfl

/-- The upper half of a product of unsigned numbers. -/
theorem mulHighU_val (n : Nat) (x y : BitVec n) : opMulHighU n x y = BitVec.ofInt n (x.toNat * y.toNat / 2 ^ n : Nat) := by
  have hwide : x.setWidth (2 * n) * y.setWidth (2 * n) = BitVec.ofInt (2 * n) (x.toNat * y.toNat : Nat) := by
    rw [BitVec.ofInt_natCast, BitVec.ofNat_mul, BitVec.ofNat_toNat, BitVec.ofNat_toNat]
  rw [opMulHighU, hwide, upper_half, Int.natCast_ediv, Nat.cast_pow]; rfl

/-- The low bits of a 64-bit value, as the signed form of the exact result that `narrow` takes. -/
theorem ofInt_toInt_bits (w : Bool) (x : Word) : BitVec.ofInt (bits w) x.toInt = x.setWidth (bits w) :=
  ofInt_toInt_low (bits_le w) x

theorem bits_pos (w : Bool) : 0 < bits w := by cases w <;> decide

/-! ### Choices between operands (06 R141) -/

theorem sgn_inj (w : Bool) (x y : Word) : sgn w x = sgn w y ↔ x.setWidth (bits w) = y.setWidth (bits w) := by
  rw [sgn_eq, sgn_eq, BitVec.toInt_inj]

theorem sgn_eq_zero (w : Bool) (x : Word) : sgn w x = 0 ↔ x.setWidth (bits w) = 0 := by
  rw [sgn_eq, ← BitVec.toInt_inj]; rw [show ((0 : BitVec (bits w)).toInt) = 0 from BitVec.toInt_zero]

theorem popc_val {n : Nat} (x : BitVec n) : opPopc n x = BitVec.ofNat n ((List.range n).countP fun k => x.toNat.testBit k) := by
  rw [opPopc, List.countP_eq_length_filter]; rfl

/-- At width 32 the upper half of a result copies its bit 31, at width 64 it is the result. -/
theorem getLsbD_signExtend_bits {w : Bool} (x : BitVec (bits w)) :
    (∀ k, k < bits w → (x.signExtend 64).getLsbD k = x.getLsbD k) ∧
    (w = true → ∀ k, 32 ≤ k → k < 64 → (x.signExtend 64).getLsbD k = (x.signExtend 64).getLsbD 31) := by
  refine ⟨fun k hk => ?_, fun hw k h32 h64 => ?_⟩
  · rw [BitVec.getLsbD_signExtend, if_pos hk, decide_eq_true (Nat.lt_of_lt_of_le hk (bits_le w)), Bool.true_and]
  · subst hw
    have e : bits true = 32 := rfl
    simp only [BitVec.getLsbD_signExtend, e, h64, decide_true, Bool.true_and, if_neg (Nat.not_lt.mpr h32), BitVec.msb_eq_getLsbD_last]
    rfl

/-- BFI on four words at the operation's width (06 R141, R142). -/
def bfiWord (w : Bool) (a b c d : Word) : Word :=
  (opBfi (bits w) (a.setWidth _) (b.setWidth _) (c.setWidth _) (d.setWidth _)).signExtend 64

theorem exec_bfi_eq (w : Bool) (a b c d : Reg) (s : State) : exec (.bfi w a b c d) s =
    issue (.bfi w a b c d) (reading [a, b, c, d] [] fun s =>
      finishReg s a (bfiWord w (s.cur.rs a) (s.cur.rs b) (s.cur.rs c) (s.cur.rs d)) 1) s := by
  rw [exec_bfi, execBfi]
  cases w <;> simp [bfiWord, bits]

/-- The field of BFI comes from the second word, the other bits from the first. -/
theorem getLsbD_bfiWord (w : Bool) (a b c d : Word) {k : Nat} (hk : k < bits w) : (bfiWord w a b c d).getLsbD k =
    if c.toNat % bits w ≤ k ∧ k < c.toNat % bits w + min (d.toNat % 128) (bits w) then b.getLsbD (k - c.toNat % bits w) else a.getLsbD k := by
  have hb : k - c.toNat % bits w < bits w := Nat.lt_of_le_of_lt (Nat.sub_le _ _) hk
  rw [bfiWord, (getLsbD_signExtend_bits _).1 k hk, bfi_bit _ _ _ _ _ hk, fieldPos, shamt, field_width]
  simp only [BitVec.getLsbD_setWidth, hk, hb, decide_true, Bool.true_and]

/-! ### Division (06 R143) -/

theorem sdiv_val {n : Nat} (x y : BitVec n) : x.sdiv y = BitVec.ofInt n (x.toInt.tdiv y.toInt) :=
  BitVec.eq_of_toInt_eq (by rw [BitVec.toInt_sdiv, BitVec.toInt_ofInt])

theorem srem_val {n : Nat} (x y : BitVec n) : x.srem y = BitVec.ofInt n (x.toInt.tmod y.toInt) := by
  rw [← BitVec.ofInt_toInt (x := x.srem y), BitVec.toInt_srem]

theorem udiv_val {n : Nat} (x y : BitVec n) : x.udiv y = BitVec.ofInt n (x.toNat / y.toNat : Nat) := by
  rw [BitVec.ofInt_natCast]
  exact BitVec.eq_of_toNat_eq (BitVec.toNat_udiv.trans (Nat.mod_eq_of_lt (Nat.lt_of_le_of_lt (Nat.div_le_self _ _) x.isLt)).symm)

theorem umod_val {n : Nat} (x y : BitVec n) : x.umod y = BitVec.ofInt n (x.toNat % y.toNat : Nat) := by
  rw [BitVec.ofInt_natCast]
  exact BitVec.eq_of_toNat_eq (BitVec.toNat_umod.trans (Nat.mod_eq_of_lt (Nat.lt_of_le_of_lt (Nat.mod_le _ _) x.isLt)).symm)

/-- The negation of the most negative number is, at the width, that number. -/
theorem ofInt_neg_least (w : Bool) : BitVec.ofInt (bits w) (-(-(2 ^ (bits w - 1)))) = BitVec.ofInt (bits w) (-(2 ^ (bits w - 1))) := by
  cases w <;> decide

/-- A division gives its value where the divisor is not zero, and raises IDIVZ where it is. -/
theorem divides {i : Instr} {w : Bool} {a b c : Reg} {f : Word → Word → Word} {s : State} {x : Word} (he : exec i s = divOp i w a b c f s)
    (h : s.Executes i [b, c] []) (hv : f (s.cur.rs b) (s.cur.rs c) = x) :
    (¬ uns w (s.cur.rs c) = 0 → s.Ends i fun t => s.Wrote t a x) ∧ (uns w (s.cur.rs c) = 0 → s.Raises i (seqTrap .idivz (s.cur.rs b))) := by
  refine ⟨fun hz => div_gives he h hz hv, fun hz => ?_⟩
  obtain ⟨k, hk, e⟩ := issue_reading h (fun s => if zeroDivisor w (s.cur.rs c) then trapNow s (seqTrap .idivz (s.cur.rs b))
    else finishReg s a (f (s.cur.rs b) (s.cur.rs c)) (if w then 12 else 20))
  have hdiv : zeroDivisor w ((s.pass k).cur.rs c) = true := by rw [zero_divisor, decide_eq_true_eq]; exact hz
  exact ⟨k, hk, he.trans (e.trans (if_pos hdiv))⟩

/-! ### Instructions that read no register -/

/-- An instruction that computes without reading a register, and writes one. -/
theorem gives_issue {i : Instr} {a : Reg} {f g : Unit → Word} (he : ∀ s, exec i s = issue i (fun s => finishReg s a (f s.cur) 1) s)
    (hv : ∀ u, f u = g u) : Gives i [] a g := by
  intro s h
  rw [State.Ends, he, issue_spec h, hv]
  exact finishReg_spec s 0 a _ (Nat.le_refl 1)

end Sys2Proof.Machine

namespace Sys2Proof.Proofs
open Sys2Proof Sys2Proof.Machine

/-- Settles O1: each operation works on the operands cut to the width, and so does the exact result. -/
theorem integerSumsAndProducts : Obligations.IntegerSumsAndProducts := by
  intro w a b c d
  refine ⟨gives_int (Nat.le_refl 1) (exec_add w a b c) fun u => alu2_narrow ?add, gives_int (Nat.le_refl 1) (exec_sub w a b c) fun u => alu2_narrow ?sub,
    gives_int (by decide) (exec_mul w a b c) fun u => alu2_narrow ?mul, gives_alu3 (by decide) (exec_madd w a b c d) fun u => alu3_narrow ?madd,
    gives_int (by decide) (exec_mulh w a b c) fun u => alu2_narrow ?mulh, gives_int (by decide) (exec_mulhu w a b c) fun u => alu2_narrow ?mulhu⟩
  case add => rw [BitVec.ofInt_add, ofInt_sgn, ofInt_sgn]
  case sub => rw [ofInt_sub, ofInt_sgn, ofInt_sgn]
  case mul => rw [BitVec.ofInt_mul, ofInt_sgn, ofInt_sgn]
  case madd => rw [BitVec.ofInt_add, BitVec.ofInt_mul, ofInt_sgn, ofInt_sgn, ofInt_sgn]
  case mulh => rw [mulHigh_val, sgn_eq, sgn_eq]
  case mulhu => rw [mulHighU_val, uns_eq, uns_eq]

/-- Settles O2: a bitwise operation commutes with the cut to the width, and a shift by an amount below the width is a power of two. -/
theorem integerBitwiseAndShifts : Obligations.IntegerBitwiseAndShifts := by
  intro w a b c sh
  have h1 : 1 ≤ 1 := Nat.le_refl 1
  refine ⟨gives_int h1 (exec_andI w a b c) fun u => alu2_narrow ?and, gives_int h1 (exec_orI w a b c) fun u => alu2_narrow ?or,
    gives_int h1 (exec_xorI w a b c) fun u => alu2_narrow ?xor, gives_int h1 (exec_andn w a b c) fun u => alu2_narrow ?andn,
    gives_int h1 (exec_shl w a b c) fun u => alu2_narrow ?shl, gives_int h1 (exec_shr w a b c) fun u => alu2_narrow ?shr,
    gives_int h1 (exec_sar w a b c) fun u => alu2_narrow ?sar, gives_int h1 (exec_ror w a b c) fun u => alu2_narrow ?ror⟩
  case and => rw [ofInt_toInt_bits, BitVec.setWidth_and]
  case or => rw [ofInt_toInt_bits, BitVec.setWidth_or]
  case xor => rw [ofInt_toInt_bits, BitVec.setWidth_xor]
  case andn => rw [ofInt_toInt_bits, BitVec.setWidth_and, BitVec.setWidth_not (bits_le w)]
  case shl => rw [opShl, shamt, shl_val, ← sgn_eq]
  case shr => rw [opShr, shamt, shr_val, ← uns_eq]
  case sar => rw [opSar, shamt, sar_val, ← sgn_eq]
  case ror => rw [opRor, shamt, ror_val _ _ (Nat.mod_lt _ (bits_pos w)), ← uns_eq]

/-- Settles O3: a comparison is its truth value at the width, a choice keeps its operand, and a field is its bits. -/
theorem integerChoicesAndFields : Obligations.IntegerChoicesAndFields := by
  intro w a b c d pos wd field
  have h1 : 1 ≤ 1 := Nat.le_refl 1
  refine ⟨gives_int h1 (exec_seq w a b c) fun u => alu2_bool ?seq, gives_int h1 (exec_sne w a b c) fun u => ?sne,
    gives_int h1 (exec_slt w a b c) fun u => alu2_bool ?slt, gives_int h1 (exec_sltu w a b c) fun u => alu2_bool ?sltu,
    gives_int h1 (exec_minI w a b c) fun u => alu2_narrow ?min, gives_int h1 (exec_maxI w a b c) fun u => alu2_narrow ?max,
    gives_int h1 (exec_minu w a b c) fun u => alu2_narrow ?minu, gives_int h1 (exec_maxu w a b c) fun u => alu2_narrow ?maxu,
    gives_alu3 h1 (exec_sel w a b c d) fun u => alu3_narrow ?sel, gives_un (exec_clz w a b) fun u => narrow_nat w _ _ _ ?clzLe ?clz,
    ⟨ctzOf, fun x hx => ctz_spec hx, gives_un (exec_ctz w a b) fun u => narrow_nat w _ _ _ ?ctzLe ?ctz⟩,
    gives_un (exec_popc w a b) fun u => narrow_nat w _ _ _ ?popcLe ?popc, gives_alu3 h1 (exec_bfx w a b c d) fun u => alu3_narrow ?bfx, fun s h => ?bfi⟩
  case seq => rw [Bool.eq_iff_iff, beq_iff_eq, decide_eq_true_eq, sgn_inj]
  case sne =>
    rw [← ite_not]
    refine alu2_bool ?_
    rw [Bool.eq_iff_iff, bne_iff_ne, decide_eq_true_eq, ne_eq, sgn_inj]
  case slt => rw [sgn_eq, sgn_eq]; rfl
  case sltu => rw [uns_eq, uns_eq]; rfl
  case min => rw [min_val, ← sgn_eq, ← sgn_eq]
  case max => rw [max_val, ← sgn_eq, ← sgn_eq]
  case minu => rw [minu_val, ← uns_eq, ← uns_eq]
  case maxu => rw [maxu_val, ← uns_eq, ← uns_eq]
  case sel =>
    rw [apply_ite (BitVec.ofInt (bits w)), ofInt_sgn, ofInt_sgn]
    exact ite_ext (sgn_eq_zero w _).symm _ _
  case clzLe => have := bits_le w; split <;> omega
  case clz => rw [clz_val, ← uns_eq]
  case ctzLe => have := bits_le w; have := ctz_le w (u.rs b); split <;> omega
  case ctz => rw [ctz_val, ← uns_eq]
  case popcLe => exact (List.countP_le_length.trans (List.length_range).le).trans (bits_le w)
  case popc => rw [popc_val, ← uns_eq]
  case bfx =>
    have hbit : ((u.rs d).setWidth (bits w)).getLsbD 7 = (u.rs d).getLsbD 7 := by
      rw [BitVec.getLsbD_setWidth, decide_eq_true (show 7 < bits w by cases w <;> decide), Bool.true_and]
    rw [bfx_val]
    simp only [fieldPos, shamt, field_width, hbit]
    rw [← uns_eq]
  case bfi =>
    obtain ⟨t, ht, hwrote⟩ := gives_of (fun u => bfiWord w (u.rs a) (u.rs b) (u.rs c) (u.rs d)) 1 h1 (exec_bfi_eq w a b c d) (fun _ _ => rfl)
      (fun _ => rfl) s h
    exact ⟨t, ht, _, hwrote, fun k hk => getLsbD_bfiWord w _ _ _ _ hk, (getLsbD_signExtend_bits _).2⟩

/-- Settles O4: the machine's division is the one toward zero at the width, and its divisor is zero where the unsigned number is. -/
theorem integerDivision : Obligations.IntegerDivision := by
  intro w a b c s zero gives least
  refine ⟨fun h => divides (exec_div w a b c s) h (alu2_narrow ?div), fun h => divides (exec_divu w a b c s) h (alu2_narrow ?divu),
    fun h => divides (exec_rem w a b c s) h (alu2_narrow ?rem), fun h => divides (exec_remu w a b c s) h (alu2_narrow ?remu),
    fun hb hc => ⟨fun h => divides (exec_div w a b c s) h ?overDiv, fun h => divides (exec_rem w a b c s) h ?overRem⟩,
    by decide, by decide⟩
  case div => rw [sdiv_val, sgn_eq, sgn_eq]
  case divu => rw [udiv_val, uns_eq, uns_eq]
  case rem => rw [srem_val, sgn_eq, sgn_eq]
  case remu => rw [umod_val, uns_eq, uns_eq]
  case overDiv =>
    refine alu2_narrow ?_
    rw [sdiv_val, ← sgn_eq, ← sgn_eq, hb, hc, Int.tdiv_neg, Int.tdiv_one, ofInt_neg_least]
  case overRem =>
    refine alu2_narrow ?_
    rw [srem_val, ← sgn_eq, ← sgn_eq, hb, hc, Int.tmod_neg, Int.tmod_one]

/-- Settles O5: a class 1 operation is the class 0 one on the extended immediate. -/
theorem immediates : Obligations.Immediates := by
  intro w a b imm amt sh
  have h1 : 1 ≤ 1 := Nat.le_refl 1
  have hamt : (amt.setWidth 64).toNat = amt.toNat := BitVec.toNat_setWidth_of_le (by decide)
  refine ⟨gives_imm h1 (exec_addi w a b imm) fun u => alu2_narrow ?addi, gives_imm (by decide) (exec_muli w a b imm) fun u => alu2_narrow ?muli,
    gives_imm h1 (exec_andi a b imm) fun u => ?andi, gives_imm h1 (exec_ori a b imm) fun u => ?ori, gives_imm h1 (exec_xori a b imm) fun u => ?xori,
    gives_imm h1 (exec_slti a b imm) fun u => ?slti, gives_imm h1 (exec_sltiu a b imm) fun u => ?sltiu,
    gives_issue (f := fun _ => imm.signExtend 64) (exec_movi a imm) (fun _ => rfl), gives_imm h1 (exec_movhi a b imm) fun u => ?movhi,
    gives_issue (f := fun u => u.pc + imm.signExtend 64) (exec_lea a imm) (fun _ => rfl), gives_imm h1 (exec_shli w a b amt) fun u => alu2_narrow ?shli,
    gives_imm h1 (exec_shri w a b amt) fun u => alu2_narrow ?shri, gives_imm h1 (exec_sari w a b amt) fun u => alu2_narrow ?sari⟩
  case addi => rw [BitVec.ofInt_add, ofInt_sgn, sext_val]
  case muli => rw [BitVec.ofInt_mul, ofInt_sgn, sext_val]
  case andi => rw [BitVec.ofNat_and, BitVec.ofNat_toNat, BitVec.ofNat_toNat, BitVec.setWidth_eq]
  case ori => rw [BitVec.ofNat_or, BitVec.ofNat_toNat, BitVec.ofNat_toNat, BitVec.setWidth_eq]
  case xori => rw [BitVec.ofNat_xor, BitVec.ofNat_toNat, BitVec.ofNat_toNat, BitVec.setWidth_eq]
  case slti =>
    rw [boolBits, BitVec.slt, BitVec.toInt_signExtend_of_le (by decide)]
    exact ite_ext decide_eq_true_iff _ _
  case sltiu => exact ite_ext decide_eq_true_iff _ _
  case movhi =>
    apply BitVec.eq_of_toNat_eq
    rw [BitVec.toNat_append, BitVec.toNat_ofNat, BitVec.toNat_setWidth, ← Nat.shiftLeft_add_eq_or_of_lt (Nat.mod_lt _ (Nat.two_pow_pos _)), Nat.shiftLeft_eq]
    omega
  case shli => rw [opShl, shamt, hamt, shl_val, ← sgn_eq]
  case shri => rw [opShr, shamt, hamt, shr_val, ← uns_eq]
  case sari => rw [opSar, shamt, hamt, sar_val, ← sgn_eq]

end Sys2Proof.Proofs
end

section
/-! PROOFS. The sequencer (06): scalar floating point, O6-O8. -/

namespace Sys2Proof.Machine
open Sys2Proof

theorem rmodeOf_eq_rdn (rm : BitVec 2) : (rmodeOf rm == .rdn) = (rm == 3) := by revert rm; decide

theorem precision_special (single : Bool) : (precision single).special = .ieee := by cases single <;> rfl

/-- An operation on the values of two operands, rounded once (06 R147, 07 R156). -/
theorem givesFlt_op2 {i : Instr} {single : Bool} {rm : BitVec 2} {a b c : Reg} {lat : Nat} {f : FpVal → FpVal → FpVal × Flags} {g : Unit → Nat × Flags}
    (hl : 1 ≤ lat) (he : ∀ s, exec i s = fltOp2 i single rm a b c lat f s)
    (hv : ∀ u : Unit, roundFlt single rm (f ((precision single).val (fltIn single (u.rs b))) ((precision single).val (fltIn single (u.rs c)))) = g u) :
    GivesFlt i [b, c] a g :=
  givesFlt_of (fun u => roundFlt single rm (f ((precision single).val (fltIn single (u.rs b))) ((precision single).val (fltIn single (u.rs c))))) lat hl he
    (fun _ _ => rfl) hv

theorem givesFlt_op1 {i : Instr} {a b : Reg} {lat : Nat} {f : Word → Nat × Flags} {g : Unit → Nat × Flags} (hl : 1 ≤ lat)
    (he : ∀ s, exec i s = fltOp1 i a b lat f s) (hv : ∀ u : Unit, f (u.rs b) = g u) : GivesFlt i [b] a g :=
  givesFlt_of (fun u => f (u.rs b)) lat hl he (fun _ _ => rfl) hv

/-- A comparison, or a choice between two operands (06 R147). -/
theorem givesFlt_bits2 {i : Instr} {single : Bool} {a b c : Reg} {f : FSpec → Nat → Nat → Nat × Flags} {g : Unit → Nat × Flags}
    (he : ∀ s, exec i s = fltBits2 i single a b c f s)
    (hv : ∀ u : Unit, f (precision single) (fltIn single (u.rs b)) (fltIn single (u.rs c)) = g u) : GivesFlt i [b, c] a g :=
  givesFlt_of (fun u => f (precision single) (fltIn single (u.rs b)) (fltIn single (u.rs c))) 2 (by decide) he (fun _ _ => rfl) hv

/-- NV for a signalling NaN among two operands. -/
theorem snanFlag_pair (x y : FpVal) : snanFlag [x, y] = if x.isSnan = true ∨ y.isSnan = true then flagNV else 0 := by
  simp [snanFlag, flagIf]

theorem compareFlags_loud (x y : FpVal) : compareFlags false x y = if x.isNan = true ∨ y.isNan = true then flagNV else 0 := by
  simp [compareFlags, flagIf]

/-- A conversion to a format raises NV for a signalling NaN, besides what its rounding raises (07 R160). -/
theorem convert_eq (f : FSpec) (mode : RMode) (x : FpVal) : f.convert mode false x =
    ((f.round mode false x).1, (f.round mode false x).2 ||| if x.isSnan then flagNV else 0) := by
  simp [FSpec.convert, snanFlag, flagIf]

/-- The sign bit of an encoding, read as a bit or as a digit. -/
theorem testBit_sign (f : FSpec) (b : Nat) : (b / 2 ^ (f.fracBits + f.expBits) % 2 == 1) = b.testBit (f.bits - 1) := by
  have hbits : f.bits - 1 = f.fracBits + f.expBits := by rw [FSpec.bits]; omega
  rw [hbits, Nat.testBit_eq_decide_div_mod_eq, Bool.beq_eq_decide_eq]

end Sys2Proof.Machine

namespace Sys2Proof.Proofs
open Sys2Proof Sys2Proof.Machine

/-- Settles O6: every operation reads the operands' values, and its exact result is rounded once. -/
theorem floatArithmetic : Obligations.FloatArithmetic := by
  intro single rm a b c d f val down rounded
  have hval (u : Machine.Unit) (r : Reg) : (precision single).val (fltIn single (u.rs r)) = val u r := by rw [fltIn_eq]; rfl
  have hdown : (rmodeOf rm == .rdn) = down := rmodeOf_eq_rdn rm
  refine ⟨givesFlt_op2 (by decide) (exec_fadd single rm a b c) fun u => ?add, givesFlt_op2 (by decide) (exec_fsub single rm a b c) fun u => ?sub,
    givesFlt_op2 (by decide) (exec_fmul single rm a b c) fun u => ?mul,
    givesFlt_of (fun u => roundFlt single rm (((precision single).val (fltIn single (u.rs b))).fma (rmodeOf rm == .rdn)
      ((precision single).val (fltIn single (u.rs c))) ((precision single).val (fltIn single (u.rs d))))) 4 (by decide)
      (exec_ffma single rm a b c d) (fun _ _ => rfl) fun u => ?fma,
    givesFlt_op2 (by decide) (exec_fdiv single rm a b c) fun u => ?div, givesFlt_op1 (by decide) (exec_fsqrt single rm a b) fun u => ?sqrt⟩
  case add => rw [hval, hval, hdown]; rfl
  case sub => rw [hval, hval, hdown]; rfl
  case mul => rw [hval, hval]; rfl
  case fma => rw [hval, hval, hval, hdown]; rfl
  case div => rw [hval, hval]; rfl
  case sqrt => rw [hval]; rfl

/-- Settles O7: the choices and comparisons read the values of the operands' low bits, FABS and FNEG those bits, and FCLASS the fields of the encoding. -/
theorem floatChoices : Obligations.FloatChoices := by
  intro single a b c f low val quiet loud neg ex frac
  have hlow (u : Machine.Unit) (r : Reg) : fltIn single (u.rs r) = low u r := fltIn_eq single _
  have hf : precision single = f := rfl
  refine ⟨givesFlt_op1 (by decide) (exec_fabs single a b) fun u => ?abs, givesFlt_op1 (by decide) (exec_fneg single a b) fun u => ?neg,
    givesFlt_bits2 (exec_fceq single a b c) fun u => ?ceq, givesFlt_bits2 (exec_fclt single a b c) fun u => ?clt,
    givesFlt_bits2 (exec_fcle single a b c) fun u => ?cle, givesFlt_bits2 (exec_fmin single a b c) fun u => ?min,
    givesFlt_bits2 (exec_fmax single a b c) fun u => ?max, givesFlt_op1 (by decide) (exec_fclass single a b) fun u => ?fclass⟩
  case abs => rw [hlow, hf]
  case neg => rw [hlow, hf]
  case ceq => rw [hlow, hlow, hf, fltCompare, compareFlags, if_pos rfl, snanFlag_pair]
  case clt => rw [hlow, hlow, hf, fltCompare, compareFlags_loud]
  case cle => rw [hlow, hlow, hf, fltCompare, compareFlags_loud]; simp only [Bool.or_eq_true]; rfl
  case min => rw [hlow, hlow, hf, FSpec.minmax, snanFlag_pair]; exact congrArg (·, quiet u) (min_choice ..)
  case max => rw [hlow, hlow, hf, FSpec.minmax, snanFlag_pair]; exact congrArg (·, quiet u) (max_choice ..)
  case fclass => rw [hlow, fclass_val _ (precision_special single), testBit_sign]; rfl

/-- Settles O8: FCVTI and FCVTW convert by `to_int_val`, FCVTF rounds the value of its source. -/
theorem floatConversions : Obligations.FloatConversions := by
  intro sat single rm a b f val toInt written convert
  have toInteger (w : Nat) (u : Machine.Unit) : fltToInt w sat single rm (u.rs b) = written (toInt w (val u)) := by
    rw [fltToInt, fltIn_eq, trunc_toNat, to_int_val]; rfl
  refine ⟨givesFlt_op1 (by decide) (exec_fcvti sat single rm a b) (toInteger 64), givesFlt_op1 (by decide) (exec_fcvtw sat single rm a b) (toInteger 32),
    givesFlt_op1 (by decide) (exec_fcvtf single rm a b 0) fun u => convert_eq .., givesFlt_op1 (by decide) (exec_fcvtf single rm a b 1) fun u => convert_eq ..,
    givesFlt_op1 (by decide) (exec_fcvtf single rm a b 2) fun u => convert_eq .., givesFlt_op1 (by decide) (exec_fcvtf single rm a b 3) fun u => convert_eq ..⟩

end Sys2Proof.Proofs
end

section
/-! PROOFS. The sequencer (06): control transfer, O10-O15. -/

namespace Sys2Proof.Machine
open Sys2Proof

/-! ### Jumps -/

/-- An instruction that jumps and leaves every scalar register but `a`, which receives the value `x`. -/
theorem finishJump_land_spec (s : State) (k : Nat) (a : Reg) (x target : Word) :
    ∃ t, finishJump (s.pass k) ((s.pass k).cur.land a x 1) target = .next t.tick ∧ s.SetsReg t a x ∧ s.Recorded t ∧ s.OnlyScalars t ∧ s.JumpsTo t target := by
  obtain ⟨t, hjump, hregs, hrec, honly, hto⟩ := finishJump_spec s k ((s.pass k).cur.land a x 1) target (by rw [land_eq])
  exact ⟨t, hjump, fun r => by rw [rs_congr hregs, rs_land]; rfl, hrec, honly, hto⟩

/-! ### Words that a loop body may not hold (06 R139) -/

theorem issue_breach {i : Instr} {f : State → Res} {s : State} (hcore : s.cur.isCore = true → coreIllopWord (encode i) = false)
    (hbody : s.cur.bodyBreach i = true) : issue i f s = .next (s.raise (seqTrap .illfld (encode i))) := by
  have hlegal : ¬ (s.cur.isCore && coreIllopWord (encode i)) = true := fun h => by
    obtain ⟨hc, hw⟩ := Bool.and_eq_true_iff.mp h
    exact Bool.false_ne_true ((hcore hc).symm.trans hw)
  rw [issue, if_neg hlegal, if_pos hbody]; rfl

/-! ### Loop words (06 R138) -/

/-- What LOOP and LOOPX do once they have read their count. -/
def loopSet (i : Instr) (extended : Bool) (cnt : Reg) (len : BitVec 14) (imm : BitVec 16) (base : BitVec 4) (s : State) : Res :=
  let n := if cnt = 0 then imm.setWidth 64 else s.cur.rs cnt
  if s.cur.lbody.getLsbD 63 then trapNow s (seqTrap .illfld (encode i))
  else if n = 0 then
    .next (s.execute { s.cur with ftbase := base, lcount := 0, llimit := n, pc := s.cur.pc + BitVec.ofNat 64 (8 * (len.toNat + 1)) } none 1)
  else
    .next (s.execute { s.cur with
      ftbase := base, lcount := 0, llimit := n, lbody := loopWord extended len (s.cur.pc + 8), pc := s.cur.pc + 8 } none 1)

section
variable {i : Instr} {extended : Bool} {cnt : Reg} {len : BitVec 14} {imm : BitVec 16} {base : BitVec 4} {s : State}

theorem loopSet_active (h : s.cur.lbody.getLsbD 63 = true) :
    loopSet i extended cnt len imm base s = .next (s.raise (seqTrap .illfld (encode i))) := if_pos h

/-- With a count of zero the body is skipped. -/
theorem loopSet_skips {n : Word} (h : s.cur.lbody.getLsbD 63 = false) (hn : (if cnt = 0 then imm.setWidth 64 else s.cur.rs cnt) = n) (h0 : n = 0) :
    loopSet i extended cnt len imm base s = .next (s.execute { s.cur with
      ftbase := base, lcount := 0, llimit := n, pc := s.cur.pc + BitVec.ofNat 64 (8 * (len.toNat + 1)) } none 1) := by
  rw [loopSet, hn]
  exact (if_neg (by rw [h]; exact Bool.false_ne_true)).trans (if_pos h0)

theorem loopSet_enters {n : Word} (h : s.cur.lbody.getLsbD 63 = false) (hn : (if cnt = 0 then imm.setWidth 64 else s.cur.rs cnt) = n) (h0 : n ≠ 0) :
    loopSet i extended cnt len imm base s = .next (s.execute { s.cur with
      ftbase := base, lcount := 0, llimit := n, lbody := loopWord extended len (s.cur.pc + 8), pc := s.cur.pc + 8 } none 1) := by
  rw [loopSet, hn]
  exact (if_neg (by rw [h]; exact Bool.false_ne_true)).trans (if_neg h0)

/-- A loop word changes the loop registers and FTBASE, and nothing else but what `OnlyScalars` names. -/
theorem onlyScalars_loop {t : State} {k : Nat} {f : BitVec 4} {c l body x : Word}
    (h : t = { s with clock := s.clock + k, cur := { (s.pass k).cur with
      ftbase := f, lcount := c, llimit := l, lbody := body, pc := x, window := t.cur.window, committed := t.cur.committed } }) :
    s.OnlyScalars { t with cur := { t.cur with ftbase := s.cur.ftbase, llimit := s.cur.llimit } } :=
  ⟨by rw [h]; rfl, by rw [h]; simp only [State.pass]; omega, fun g a => by rw [h]; rfl⟩

end

/-! ### The end of a pass (06 R138) -/

/-- A unit that is not at the last word of an active loop's body goes on with the next word. -/
theorem advance_of_not_last {u : Unit} (h : ¬ (u.lbody.getLsbD 63 = true ∧ u.pc = u.bodyAt + BitVec.ofNat 64 (8 * u.bodyLen - 8))) :
    u.advance = { u with pc := u.pc + 8 } := by
  rw [Unit.advance, if_neg fun c => h ?_]
  obtain ⟨hl, hp⟩ := Bool.and_eq_true_iff.mp c
  exact ⟨hl, beq_iff_eq.mp hp⟩

/-- At the last word the pass is counted, and the next one begins or the loop ends. -/
theorem advance_of_last {u : Unit} (hl : u.lbody.getLsbD 63 = true) (hp : u.pc = u.bodyAt + BitVec.ofNat 64 (8 * u.bodyLen - 8)) :
    u.advance = if (u.lcount + 1).toNat < u.llimit.toNat then { u with lcount := u.lcount + 1, pc := u.bodyAt }
      else { u with lcount := u.lcount + 1, lbody := u.lbody &&& 0x7FFFFFFFFFFFFFFF, pc := u.pc + 8 } := by
  rw [Unit.advance, if_pos (by rw [hl, beq_iff_eq.mpr hp]; rfl)]

/-! ### Entering the handler at once (21 R385, R388) -/

/-- A command in flight that waits only for room goes on waiting for it where nothing but the unit's class queue has lost entries. -/
theorem onlyRoom_of_classQ {s : State} {u : Unit} {y : Inflight} (hgid : u.gid = s.cur.gid) (htime : u.time = s.cur.time)
    (hfl : u.inflight = s.cur.inflight) (htok : u.tokens = s.cur.tokens) (hrep : u.replies = s.cur.replies) (hcls : u.classQ ⊆ s.cur.classQ)
    (h : s.onlyRoom y = true) : ({ s with cur := u } : State).onlyRoom y = true := by
  simp only [State.onlyRoom, State.landed, Unit.fifo, hgid, htime, hfl, htok, hrep, Bool.and_eq_true, List.all_eq_true] at h ⊢
  obtain ⟨⟨hrun, ⟨⟨⟨hq, hadm⟩, hflows⟩, hheld⟩, hpend⟩, hroom⟩ := h
  exact ⟨⟨hrun, ⟨⟨⟨fun x hx => hq x (hcls hx), hadm⟩, hflows⟩, hheld⟩, hpend⟩, hroom⟩

theorem formCut_classQ (u : Unit) (h : u.window = []) : u.formCut.classQ ⊆ u.classQ := by
  have hclass : u.unpresent.classQ = u.classQ := by rw [unpresent_eq]
  simp only [Unit.formCut, Unit.dropRequest, h, hclass]
  exact fun x hx => (List.mem_filter.mp hx).1

/-- Nothing stays in a queue without a started command (21 R385). -/
theorem formCut_queues {u : Unit} (hw : u.window = []) (h : ∀ l ∈ u.queues.toList, ∀ c ∈ l, c.started = false) :
    u.formCut.queues.all (fun l => l.isEmpty) = true := by
  have hqueues : u.unpresent.queues = u.queues := by rw [unpresent_eq]
  simp only [Unit.formCut, Unit.dropRequest, hw, hqueues, Vector.all_map, Vector.all_eq_true', Function.comp_apply, List.isEmpty_iff, List.filter_eq_nil_iff]
  intro l hl c hc
  rw [h l (Vector.mem_toList_iff.mpr hl) c hc]
  exact Bool.false_ne_true

/-- The unit once its cut is formed and the trap of `x` is being taken (21 R385). -/
def Unit.cutBy (u : Unit) (x : Cutting) : Unit := { u.formCut with raised := none, cutting := some x }

/-- With nothing in the window the cut moves none of the trap registers, the scalar registers and the PC. -/
theorem cutBy_frame {u : Unit} (hw : u.window = []) (x : Cutting) :
    (u.cutBy x).tlevel = u.tlevel ∧ (u.cutBy x).tvec = u.tvec ∧ (u.cutBy x).pc = u.pc := by
  rw [Unit.cutBy, formCut_empty u hw]; exact ⟨rfl, rfl, rfl⟩

/-- A trap taken where nothing has started and nothing runs on enters its handler at once (21 R385, R388). -/
theorem takeTrapAt_now {s : State} {x : Cutting} (hw : s.cur.window = []) (hlevel : s.cur.tlevel ≠ 2) (hvec : s.cur.tvec ≠ 0) (hcut : s.CutsNow) :
    s.takeTrapAt x = { s with cur := (s.cur.cutBy x).enterLevel x.trap } := by
  obtain ⟨hl, hv, -⟩ := cutBy_frame hw x
  have hgo : ¬ ((s.cur.cutBy x).tlevel = 2 || (s.cur.cutBy x).tvec = 0) = true := by
    rw [hl, hv, Bool.or_eq_true, decide_eq_true_eq, decide_eq_true_eq]; exact fun h => h.elim hlevel hvec
  have e := formCut_empty s.cur hw
  have hnone : s.cur.formCut.cutting = none := by rw [e]; exact hcut.none
  have hdone : ({ s with cur := s.cur.cutBy x } : State).cutDone = true := by
    rw [State.cutDone, Bool.and_eq_true]
    refine ⟨formCut_queues hw hcut.queues, List.all_eq_true.mpr fun y hy => ?_⟩
    have hy' : y ∈ s.cur.inflight := by have := hy; rw [Unit.cutBy, e] at this; exact this
    refine onlyRoom_of_classQ ?_ ?_ ?_ ?_ ?_ (formCut_classQ s.cur hw) (hcut.engines y hy') <;> rw [Unit.cutBy, e]
  simp only [State.takeTrapAt, hnone]
  exact (if_neg hgo).trans (if_pos hdone)

/-- Such a trap from level 0: its record and the entry into the handler (21 R382, R385, R388). -/
theorem takeTrapAt_level_zero {s : State} (hw : s.cur.window = []) (hlevel : s.cur.tlevel = 0) (hvec : s.cur.tvec ≠ 0) (hcut : s.CutsNow) (x : Cutting) :
    ∃ v, s.takeTrapAt x = { s with cur := v } ∧ v.tcause1 = x.trap.tcause ∧ v.tret1 = x.trap.tret.getD s.cur.pc ∧ v.tval1 = x.trap.tval ∧
      v.tlevel = 1 ∧ v.pc = s.cur.tvec := by
  obtain ⟨hl, hv, hp⟩ := cutBy_frame hw x
  obtain ⟨v, henter, hcause, hret, hval, _, hnow, hpc⟩ := enterLevel_zero (s.cur.cutBy x) x.trap (hl.trans hlevel)
  refine ⟨v, ?_, hcause, hp ▸ hret, hval, hnow, hpc.trans hv⟩
  rw [takeTrapAt_now hw (by rw [hlevel]; decide) hvec hcut, henter]

end Sys2Proof.Machine

namespace Sys2Proof.Proofs
open Sys2Proof Sys2Proof.Machine

/-- Settles O10: the comparison of each branch is the one that the rule names, and BR is always taken. -/
theorem branchesGoToTheirTargets : Obligations.BranchesGoToTheirTargets := by
  intro a b off target
  refine ⟨fun s h => ?br, branch_gives (exec_beq a b off) fun u => ite_ext ?beq _ _, branch_gives (exec_bne a b off) fun u => ?bne,
    branch_gives (exec_blt a b off) fun u => ite_ext ?blt _ _, branch_gives (exec_bge a b off) fun u => ite_ext ?bge _ _,
    branch_gives (exec_bltu a b off) fun u => ite_ext ?bltu _ _, branch_gives (exec_bgeu a b off) fun u => ite_ext ?bgeu _ _⟩
  case br =>
    obtain ⟨t, hjump, hregs, hrec, honly, hto⟩ := finishJump_spec s 0 s.cur (branchTarget s.cur.pc off) rfl
    rw [target_eq] at hto
    exact ⟨t, (exec_br off s).trans ((issue_spec h _).trans hjump), fun r => rs_congr hregs r, hrec, honly, hto⟩
  case beq => exact beq_iff_eq.symm
  case bne =>
    rw [← ite_not]
    exact ite_ext bne_iff_ne.symm _ _
  case blt => exact BitVec.slt_iff_toInt_lt.symm
  case bge => rw [Bool.not_eq_true', Bool.eq_false_iff, ne_eq, BitVec.slt_iff_toInt_lt, Int.not_lt]
  case bltu => exact BitVec.ult_iff_toNat_lt.symm
  case bgeu => rw [Bool.not_eq_true', Bool.eq_false_iff, ne_eq, BitVec.ult_iff_toNat_lt, Nat.not_lt]

/-- Settles O11: the target is read before the link is written, and a jump to it follows where it is a multiple of 8. -/
theorem callsAndReturns : Obligations.CallsAndReturns := by
  intro a b off s link aligned
  refine ⟨fun h => ?call, fun h => ?callr, fun i hi h => ?ret⟩
  case call =>
    obtain ⟨t, hjump, hset, hrec, honly, hto⟩ := finishJump_land_spec s 0 a (s.cur.pc + 8) (branchTarget s.cur.pc off)
    rw [target_eq] at hto
    exact ⟨t, (exec_call a off s).trans ((issue_spec h _).trans hjump), ⟨hset, hrec, honly⟩, hto⟩
  case callr =>
    obtain ⟨hgo, htrap⟩ := jumpReg_spec h (fun s => s.cur.land a (s.cur.pc + 8) 1) (fun k => by rw [land_eq]) (exec_callr a b s)
    refine ⟨fun h0 => ?_, htrap⟩
    obtain ⟨k, t, he, hregs, hrec, honly, hto⟩ := hgo h0
    exact ⟨t, he, ⟨fun r => by rw [rs_congr hregs, rs_land]; rfl, hrec, honly⟩, hto⟩
  case ret =>
    have he : exec i s = issue i (reading [b] [] fun s => jumpReg s s.cur (s.cur.rs b)) s := by
      rcases hi with rfl | rfl
      · exact exec_ret b s
      · exact exec_jmpr b s
    obtain ⟨hgo, htrap⟩ := jumpReg_spec h (fun s => s.cur) (fun _ => rfl) he
    refine ⟨fun h0 => ?_, htrap⟩
    obtain ⟨k, t, he, hregs, hrec, honly, hto⟩ := hgo h0
    exact ⟨t, he, fun r => rs_congr hregs r, hrec, honly, hto⟩

/-- Settles O12: the loop registers as LOOP writes them, read back from LBODY. -/
theorem loopWords : Obligations.LoopWords := by
  intro extended cnt len imm base s i n h
  have he : exec i s = loopOp i extended cnt len imm base s := by cases extended <;> rfl
  obtain ⟨k, hk, hread⟩ := issue_reading h (loopSet i extended cnt len imm base)
  have hexec : exec i s = loopSet i extended cnt len imm base (s.pass k) := he.trans hread
  have hn : (if cnt = 0 then imm.setWidth 64 else (s.pass k).cur.rs cnt) = n := ite_congr rfl (fun _ => (BitVec.ofNat_toNat ..).symm) (fun _ => rfl)
  refine ⟨fun hon => ⟨k, hk, hexec.trans (loopSet_active hon)⟩, fun hoff => ?_⟩
  rw [State.Ends, hexec]
  by_cases h0 : n = 0
  · rw [loopSet_skips (s := s.pass k) hoff hn h0]
    obtain ⟨t, ht, hrec, hstate⟩ := execute_eq s k { (s.pass k).cur with
      ftbase := base, lcount := 0, llimit := n, pc := s.cur.pc + BitVec.ofNat 64 (8 * (len.toNat + 1)) } (Nat.le_refl 1) rfl rfl rfl
    exact ⟨t, congrArg _ ht, fun r => by rw [hstate]; rfl, hrec, by rw [hstate], by rw [hstate], by rw [hstate],
      fun _ => by rw [hstate]; exact ⟨rfl, rfl⟩, fun hne => absurd h0 hne, onlyScalars_loop hstate⟩
  · rw [loopSet_enters (s := s.pass k) hoff hn h0]
    obtain ⟨hactive, hext, hlen, hat⟩ := loopWord_bits extended len (s.cur.pc + 8)
    obtain ⟨t, ht, hrec, hstate⟩ := execute_eq s k { (s.pass k).cur with
      ftbase := base, lcount := 0, llimit := n, lbody := loopWord extended len (s.cur.pc + 8), pc := s.cur.pc + 8 } (Nat.le_refl 1) rfl rfl rfl
    have hbody : t.cur.lbody = loopWord extended len (s.cur.pc + 8) := by rw [hstate]
    refine ⟨t, congrArg _ ht, fun r => by rw [hstate]; rfl, hrec, by rw [hstate], by rw [hstate], by rw [hstate],
      fun hz => absurd hz h0, fun _ => ⟨by rw [hstate], hbody ▸ hactive, hbody ▸ hext, ?len, fun ⟨h8, hhigh, hlow⟩ => ?start⟩, onlyScalars_loop hstate⟩
    case len => rw [Unit.bodyLen, hbody, hlen]
    case start => rw [Unit.bodyAt, hbody, hat]; exact canonical_addr _ h8 hhigh hlow

/-- Settles O14: the cut is empty, so the record of the trap and the entry into its handler follow at once. -/
theorem breakpointTraps : Obligations.BreakpointTraps := by
  intro code s h _ hlevel hvec hprompt hw hcut
  have hexec : exec (.brk code) s = .next (s.raise (seqTrap .brkpt (code.setWidth 64))) := (exec_brk code s).trans (issue_spec h _)
  obtain ⟨v, htake, hcause, hret, hval, hnow, hpc⟩ := takeTrapAt_level_zero hw hlevel hvec hcut
    { trap := seqTrap .brkpt (code.setWidth 64), depth := s.cur.regions.length, again := (seqTrap .brkpt (code.setWidth 64)).again }
  refine ⟨{ s with cur := v }, hexec.trans (congrArg _ ((raise_now hprompt hw rfl).trans htake)), hcause.trans ?_, hval.trans ?_, hret, hpc, hnow⟩
  · simp [Trap.tcause, seqTrap, Cause.code]
  · exact (BitVec.ofNat_toNat 64 code).symm

/-- Settles O13, by what the advance to the next word does at the last word of a body and elsewhere. -/
theorem loopPasses : Obligations.LoopPasses := by
  intro s h last
  obtain ⟨t, he, hregs, hnext, hrec, honly⟩ := finish_spec s 0 s.cur (Nat.le_refl 1) rfl
  obtain ⟨hpc, hcount, hbody⟩ := hnext
  refine ⟨t, (exec_nop s).trans ((issue_spec h _).trans he), fun r => rs_congr hregs r, hrec, honly, fun hnot => ?_, fun hlast => ?_⟩
  · rw [advance_of_not_last hnot] at hpc hcount hbody
    exact ⟨hpc, hcount, hbody⟩
  · rw [advance_of_last hlast.1 hlast.2] at hpc hcount hbody
    split at hpc <;> rename_i hmore
    · rw [if_pos hmore] at hcount hbody ⊢
      exact ⟨hcount, hpc, hbody⟩
    · rw [if_neg hmore] at hcount hbody ⊢
      exact ⟨hcount, hpc, hbody⟩

/-- Settles O15: what comes before every instruction refuses the word. -/
theorem loopBodiesForbidTransfers : Obligations.LoopBodiesForbidTransfers := by
  intro s i hin hcore hword
  have refused {f : State → Res} (he : exec i s = issue i f s) (hb : s.cur.bodyBreach i = true) :
      exec i s = .next (s.raise (seqTrap .illfld (encode i))) := he.trans (issue_breach hcore hb)
  rcases hword with ⟨a, b, off, hi⟩ | ⟨c, n, m, e, hi⟩ | ⟨hplain, a, b, off, hi⟩
  · rcases hi with rfl | rfl | rfl | rfl
    · exact refused (exec_call a off s) (by simp [Unit.bodyBreach, hin])
    · exact refused (exec_callr a b s) (by simp [Unit.bodyBreach, hin])
    · exact refused (exec_ret b s) (by simp [Unit.bodyBreach, hin])
    · exact refused (exec_jmpr b s) (by simp [Unit.bodyBreach, hin])
  · rcases hi with rfl | rfl
    · exact refused (exec_loop c n m e s) (by simp [Unit.bodyBreach, hin])
    · exact refused (exec_loopx c n m e s) (by simp [Unit.bodyBreach, hin])
  · rcases hi with rfl | rfl | rfl | rfl | rfl | rfl | rfl
    · exact refused (exec_br off s) (by simp only [Unit.bodyBreach, hin, hplain, Bool.not_false, Bool.and_self])
    · exact refused (exec_beq a b off s) (by simp only [Unit.bodyBreach, hin, hplain, Bool.not_false, Bool.and_self])
    · exact refused (exec_bne a b off s) (by simp only [Unit.bodyBreach, hin, hplain, Bool.not_false, Bool.and_self])
    · exact refused (exec_blt a b off s) (by simp only [Unit.bodyBreach, hin, hplain, Bool.not_false, Bool.and_self])
    · exact refused (exec_bge a b off s) (by simp only [Unit.bodyBreach, hin, hplain, Bool.not_false, Bool.and_self])
    · exact refused (exec_bltu a b off s) (by simp only [Unit.bodyBreach, hin, hplain, Bool.not_false, Bool.and_self])
    · exact refused (exec_bgeu a b off s) (by simp only [Unit.bodyBreach, hin, hplain, Bool.not_false, Bool.and_self])

end Sys2Proof.Proofs
end

section
/-! PROOFS. The sequencer (06): fetching, steps and quiet cycles, O30, O31, O33. -/

namespace Sys2Proof.Machine
open Sys2Proof

/-! ### Where a fetch reads its word (06 R122) -/

section
variable {s : State} {va : Word} {p : Place}

theorem fetchAt_of_error {t : Trap} (h : s.translate s.cur.gid 1 .fetch false va = .error t) : s.fetchAt va = .error t := by
  rw [State.fetchAt, h]

theorem fetchAt_of_copy {c : SectorCopy} (h : s.translate s.cur.gid 1 .fetch false va = .ok p) (hc : s.cur.fetchCopy p.addr = some c) :
    s.fetchAt va = .ok (BitVec.ofNat 64 (fromLe ((c.data.drop (p.addr % 128)).take 8))) := by
  simp only [State.fetchAt, h, hc, State.fetchBytes, Option.isNone_some, Bool.false_and, Bool.false_eq_true, if_false]

theorem fetchAt_of_home (h : s.translate s.cur.gid 1 .fetch false va = .ok p) (hc : s.cur.fetchCopy p.addr = none) : s.fetchAt va =
    if s.poisoned p.addr then .error (seqTrap .uncorr va) else .ok (BitVec.ofNat 64 (fromLe (s.plainBytes s.cur.gid p.addr 8))) := by
  simp only [State.fetchAt, h, hc, State.fetchBytes, Option.isNone_none, Bool.true_and]

/-- A bit of a word that stands at eight bytes of a home (00 R5). -/
theorem getLsbD_plainBytes (s : State) (g : Gid) (a : Nat) {k : Nat} (hk : k < 64) :
    (BitVec.ofNat 64 (fromLe (s.plainBytes g a 8))).getLsbD k = (s.plainByte g (a + k / 8)).getLsbD (k % 8) := by
  have hbyte : (s.plainBytes g a 8).getD (k / 8) 0 = s.plainByte g (a + k / 8) := by
    have hlt : k / 8 < 8 := by omega
    simp [State.plainBytes, List.getElem?_range hlt]
  rw [BitVec.getLsbD_ofNat, fromLe_testBit, hbyte, decide_eq_true hk, Bool.true_and]

end

/-! ### Turns (06 R122; log 4) -/

section
variable {s : State}

theorem fetched_of_word {w : Word} {i : Instr} (hf : s.fetchAt s.cur.pc = .ok w) (hd : decode w = .ok i) : s.fetched = .run i := by
  simp only [State.fetched, hf, hd]

theorem fetched_of_reject {w : Word} {r : Reject} (hf : s.fetchAt s.cur.pc = .ok w) (hd : decode w = .error r) :
    s.fetched = .trap (rejectTrap s.cur.isCore w r) := by
  simp only [State.fetched, hf, hd]

theorem fetched_of_trap {t : Trap} (hf : s.fetchAt s.cur.pc = .error t) : s.fetched = .trap t := by
  simp only [State.fetched, hf]

theorem step_of_no_agenda (h : s.agenda = []) : step s = turn s := by rw [step, h]

theorem wait_eq (s : State) : ∃ n, s.wait = (s.pass n).tick := by
  rw [State.wait]
  split
  · exact ⟨s.slack, rfl⟩
  · exact ⟨0, by rw [pass_zero]⟩

/-- A unit that is busy, and that nothing holds or traps, lets its cycles pass. -/
theorem turn_of_busy (hr : s.cur.raised = none) (hc : s.cur.cutting = none) (hd : s.cur.debug = .off) (hb : s.cur.time < s.cur.busy) :
    turn s = .next s.wait := by
  have hissue : ¬ s.cur.issues = true := by simp [Unit.issues, Nat.not_le.mpr hb]
  have hheld : s.cur.held = false := by simp [Unit.held, hd]
  rw [turn, if_neg hissue, rest, hr, hc, hheld]
  simp

end

/-! ### Quiet cycles (06 R123, R124) -/

section
variable {s : State}

/-- Where nothing is under way a cycle leads to the commits alone. -/
theorem tick_of_quiet (h : s.Quiet) : s.tick = s.nextCycle.settle := by
  have hmove : s.nextCycle.endChanges.pump = s.nextCycle := by
    rw [endChanges_of_none_begun (s := s.nextCycle) h.banks, pump_of_none_travels (s := s.nextCycle) h.classes h.flows]
  exact (tick_eq s).trans (congrArg State.settle hmove)

/-- In such a cycle of a prompt machine the window commits what it may. -/
theorem tick_of_quiet_prompt (h : s.Quiet) (hp : s.prompt = true) :
    s.tick = if s.cur.window = [] then s.nextCycle else s.nextCycle.commit.stuckPush := by
  have hstill : (s.nextCycle.cur.inflight.isEmpty && s.nextCycle.cur.queues.all (·.isEmpty)) = true :=
    Bool.and_eq_true_iff.mpr ⟨List.isEmpty_iff.mpr h.engines, h.queues⟩
  have hprompt : s.nextCycle.prompt = true := hp
  rw [tick_of_quiet h, State.settle, Bool.and_assoc, hstill, Bool.and_true, hprompt]
  exact ite_ext List.isEmpty_iff _ _

/-- An entry of the window that has no access of its own to make. -/
structure WinEntry.Plain (e : WinEntry) : Prop where
  push  : e.push = none
  store : e.store = none
  load  : e.load = none

theorem canCommit_of_plain {u : Unit} {e : WinEntry} (h : e.Plain) : u.canCommit e = decide (e.done ≤ u.time) := by
  simp [Unit.canCommit, h.push, h.load]

/-- Alone in the window, a plain entry commits where it has completed, and stays where it has not. -/
theorem commit_plain {e : WinEntry} (h : e.Plain) (hw : s.cur.window = [e]) :
    s.commit = if e.done ≤ s.cur.time then { s with cur := { s.cur with window := [], committed := s.cur.committed + 1 } } else s := by
  have hloads : s.makeLoads = s := by simp [State.makeLoads, hw, h.load]
  have hnone : ∀ t : State, commitAll 0 t = t := fun _ => rfl
  rw [State.commit, hw, List.length_singleton, commitAll, hloads, State.commitOldest, hw]
  by_cases hd : e.done ≤ s.cur.time
  · simp [canCommit_of_plain h, State.storeHeld, State.storeFits, h.store, hd, hnone]
  · simp [canCommit_of_plain h, hd]

theorem stuckPush_plain {e : WinEntry} (h : e.Plain) (hw : s.cur.window = [e]) : s.stuckPush = s := by
  simp [State.stuckPush, hw, State.oldestTrap, h.load, h.store, h.push]

end

end Sys2Proof.Machine

namespace Sys2Proof.Proofs
open Sys2Proof Sys2Proof.Machine

/-- Settles O33, by where the word that is fetched stands. -/
theorem fetches : Obligations.Fetches := by
  intro s va p copy
  refine ⟨fun t => fetchAt_of_error, fun hp => ⟨fun c h0 => fetchAt_of_copy hp ?level0, fun c h0 h1 => fetchAt_of_copy hp ?level1, fun h0 h1 => ?home⟩⟩
  case level0 => rw [Unit.fetchCopy, show s.cur.l0.find? (·.serves p.addr 8) = some c from h0, Option.some_or]
  case level1 => rw [Unit.fetchCopy, show s.cur.l0.find? (·.serves p.addr 8) = none from h0, Option.none_or]; exact h1
  case home =>
    have hnone : s.cur.fetchCopy p.addr = none := by
      rw [Unit.fetchCopy, show s.cur.l0.find? (·.serves p.addr 8) = none from h0, Option.none_or]; exact h1
    rw [fetchAt_of_home hp hnone]
    refine ⟨fun hpoison => if_pos hpoison, fun hclean => ⟨_, if_neg (by rw [hclean]; exact Bool.false_ne_true), fun k hk => ?_⟩⟩
    exact getLsbD_plainBytes s s.cur.gid p.addr hk

/-- Settles O30: the turn of the agenda's first, and what the unit finds at its PC. -/
theorem stepRunsDecoded : Obligations.StepRunsDecoded := by
  intro s issues
  refine ⟨fun i w ha hi hf hd => ?run, fun va hl => scrubFetch_clean hl va, fun w r ha hi hf hd => ?reject, fun t ha hi hf => ?trap,
    fun ha hr hc hd hb => ?busy, fun e later ha => ?event, ?unit⟩
  case run => rw [step_of_no_agenda ha, turn_run hi, fetched_of_word hf hd]
  case reject => rw [step_of_no_agenda ha, turn_run hi, fetched_of_reject hf hd]; rfl
  case trap => rw [step_of_no_agenda ha, turn_run hi, fetched_of_trap hf]; rfl
  case busy =>
    obtain ⟨n, hn⟩ := wait_eq s
    exact ⟨n, by rw [step_of_no_agenda ha, turn_of_busy hr hc hd hb, hn]⟩
  case event => rw [step, ha]
  case unit =>
    intro g later i w ha hg u hi hf hd
    have hturn : step s = turn u := by
      rw [step, ha]
      exact if_pos hg
    rw [hturn, turn_run hi, fetched_of_word hf hd]

/-- Settles O31: the cycle passes over everything but the window. -/
theorem quietCycles : Obligations.QuietCycles := by
  intro s later hq hp
  refine ⟨fun hw => (tick_of_quiet_prompt hq hp).trans (if_pos hw), fun e hw hpush hstore hload => ?_⟩
  have plain : e.Plain := ⟨hpush, hstore, hload⟩
  rw [tick_of_quiet_prompt hq hp, if_neg (by rw [hw]; exact List.cons_ne_nil _ _), commit_plain (s := s.nextCycle) plain hw]
  have htime : s.nextCycle.cur.time = s.cur.time + 1 := rfl
  rw [htime]
  by_cases hd : e.done ≤ s.cur.time + 1
  · rw [if_pos hd, if_pos hd, stuckPush_of_window_nil rfl]; rfl
  · rw [if_neg hd, if_neg hd, stuckPush_plain (s := s.nextCycle) plain hw]; rfl

end Sys2Proof.Proofs
end

section
/-! PROOFS. The sequencer (06): tokens and replies, O39. -/

namespace Sys2Proof.Machine
open Sys2Proof

/-- An instruction that changes only scalar registers and the PC sets nothing under way. -/
theorem quiet_of_onlyScalars {s t : State} (hq : s.Quiet) (h : s.OnlyScalars t) : t.Quiet where
  engines := by rw [h.1]; exact hq.engines
  queues := by rw [h.1]; exact hq.queues
  classes := by rw [h.1]; exact hq.classes
  flows := by rw [h.1]; exact hq.flows
  banks := by rw [h.1]; exact hq.banks

theorem prompt_of_onlyScalars {s t : State} (h : s.OnlyScalars t) : t.prompt = s.prompt := by rw [h.1]
theorem replyOf_of_onlyScalars {s t : State} (h : s.OnlyScalars t) : t.cur.replyOf = s.cur.replyOf := by rw [h.1]

/-- The cycle of an instruction of a quiet, prompt machine, which has committed or waits alone for its completion, leaves the commands that the reply
entries are of as they are (06 R123, R124). -/
theorem tick_replyOf {s t : State} (hq : t.Quiet) (hp : t.prompt = true) (hw : s.cur.window = []) (hr : s.Recorded t) :
    t.tick.cur.replyOf = t.cur.replyOf := by
  obtain ⟨hnone, hone⟩ := Proofs.quietCycles t hq hp
  rcases hr with ⟨-, hempty, -⟩ | ⟨-, done, -, hwait⟩
  · rw [hnone hempty]
  · rw [hw, List.nil_append] at hwait
    rw [hone _ hwait rfl rfl rfl]
    split <;> rfl

end Sys2Proof.Machine

namespace Sys2Proof.Proofs.OwnedReply
open Sys2Proof Sys2Proof.Machine

/-! O39. With each reply entry the unit keeps the command that owes it (06 R132), and YPOP drops both; the statement lets only the entry go. -/

/-- A quiet unit about to run YPOP into s1, with one reply entry, which command 0 of the load queue has left. -/
def start : State :=
  let s := State.reset.withWord (encode (.ypop 1))
  { s with cur := { s.cur with replies := [5], replyOf := [(2, 0)] } }

theorem start_executes : start.Executes (.ypop 1) [] [] where
  legal := by decide +kernel
  inLoop := by decide +kernel
  room := by decide +kernel
  loaded := by decide +kernel
  landed := .inl (by decide +kernel)

theorem start_quiet : start.Quiet := ⟨by decide +kernel, by decide +kernel, by decide +kernel, by decide +kernel, by decide +kernel⟩

/-- The entry goes, and with it what the unit kept of its command. -/
theorem replyOf_after {t : State} (h : exec (.ypop 1) start = .next t) : t.cur.replyOf = [] := by
  have hnil : (match exec (.ypop 1) start with | .next t => t.cur.replyOf | _ => []) = [] := by decide +kernel
  rwa [h] at hnil

end Sys2Proof.Proofs.OwnedReply

namespace Sys2Proof.Proofs
open Sys2Proof Sys2Proof.Machine OwnedReply

/-- Refutes O39: YPOP drops, with the entry it takes, the command that the entry is of, where the statement has everything kept but what it names. -/
theorem not_tokensAndReplies : ¬ Obligations.TokensAndReplies := by
  intro h
  obtain ⟨-, -, hpop, -⟩ := h 1 0 0 start
  have hwindow : start.cur.window = [] := by decide +kernel
  obtain ⟨t, ht, -, -, -, -, hrec, honly⟩ := (hpop start_executes hwindow).1 5 [] rfl
  have hquiet : t.Quiet := by
    obtain ⟨hengines, hqueues, hclasses, hflows, hbanks⟩ := quiet_of_onlyScalars start_quiet honly
    exact ⟨hengines, hqueues, hclasses, hflows, hbanks⟩
  have hprompt : t.prompt = true := (prompt_of_onlyScalars honly).trans (by decide +kernel)
  have hkept : t.cur.replyOf = [(2, 0)] := replyOf_of_onlyScalars honly
  have hgone := replyOf_after ht
  rw [tick_replyOf hquiet hprompt hwindow hrec, hkept] at hgone
  exact List.cons_ne_nil _ _ hgone

end Sys2Proof.Proofs
end

section
/-! PROOFS. The sequencer (06): the push of an engine command, O40. -/

namespace Sys2Proof.Machine
open Sys2Proof

/-! ### The class of an engine command's word (02 R41) -/

/-- The queue of each class of engine commands (06 R126). -/
def classQueue (cls : Nat) : Nat := if cls = 6 ∨ cls = 7 then 4 else if cls = 8 then 3 else if cls = 9 then 2 else if cls = 10 then 5 else 6

/-- The word of an engine command is of the class whose queue it names. -/
theorem pushForm_queue {i : Instr} {p : PushForm} (h : pushForm i = some p) : p.queue.toNat = classQueue (wordClass (encode i)).toNat := by
  cases i <;> cases h <;> rw [encode, Laws.classE] <;> rfl

theorem pushForm_queue_mem {i : Instr} {p : PushForm} (h : pushForm i = some p) : p.queue ∈ engineQueues := by
  have hq := pushForm_queue h
  have hmem : ∀ q : BitVec 3, q.toNat ∈ [2, 3, 4, 5, 6] → q ∈ engineQueues := by decide
  refine hmem p.queue ?_
  rw [hq, classQueue]
  split_ifs <;> decide

/-! ### What a push captures (02 R49-R52, 06 R126, R127) -/

/-- The descriptor that a field of an engine command's word names. -/
def Unit.desc (u : Unit) (r : Option DReg) : Desc := match r with | some r => u.rd r | none => 0

theorem dAux_dWithFmt (d : Desc) (f : BitVec 4) : dAux (dWithFmt d f) = dAux d := by
  simp (disch := decide) only [dAux, dWithFmt, Laws.cutLo]
  rw [BitVec.extractLsb'_extractLsb'_of_le (by decide)]

theorem dAux_dWithMicro (d : Desc) (m : BitVec 32) : dAux (dWithMicro d m) = dAux d := by
  simp (disch := decide) only [dAux, dWithMicro, Laws.cutHi, Nat.reduceSub]
  ext k hk
  simp only [BitVec.getElem_extractLsb', BitVec.getLsbD_extractLsb']
  simp [show k < 184 by omega]

theorem dWithFmt_dWithFmt (d : Desc) (f g : BitVec 4) : dWithFmt (dWithFmt d f) g = dWithFmt d g := by
  simp (disch := decide) only [dWithFmt, Laws.cutHi, Laws.cutLo, Nat.reduceSub, Laws.cutAll]

/-- A snapshot differs from the descriptor in its format alone. -/
theorem snapshot_eq {u : Unit} {r : Option DReg} {d : Desc} (h : u.snapshot r = some d) : dAux d = dAux (u.desc r) ∧
    ∀ x, r = some x → dWithFmt d 0 = dWithFmt (u.rd x) 0 := by
  cases r with
  | none => cases h; exact ⟨rfl, fun _ hx => nomatch hx⟩
  | some x =>
    simp only [Unit.snapshot] at h
    split at h
    · cases h
    · obtain ⟨f, -, rfl⟩ := Option.map_eq_some_iff.mp h
      exact ⟨dAux_dWithFmt _ _, fun y hy => by cases hy; exact dWithFmt_dWithFmt _ _ _⟩

/-- The register that an aux field names depends on the aux fields alone. -/
theorem extraReg_congr {i : Instr} {a b c a' b' c' : Desc} (ha : dAux a = dAux a') (hb : dAux b = dAux b') (hc : dAux c = dAux c') :
    extraReg i a b c = extraReg i a' b' c' := by
  unfold extraReg; rw [ha, hb, hc]

theorem pushCommand_pass (s : State) (k : Nat) (i : Instr) (p : PushForm) (forms : List EdgeForm) :
    (s.pass k).pushCommand i p forms = s.pushCommand i p forms := rfl

/-- What the command of a push holds (06 R126, R127). -/
structure State.Captures (s : State) (i : Instr) (p : PushForm) (forms : List EdgeForm) (c : Command) : Prop where
  instr  : c.instr = i
  queue  : c.queue = p.queue
  num    : c.num = s.cur.nextNum[qidx p.queue]
  pc     : c.pc = s.cur.pc
  body   : c.body = forms
  phase  : c.phase = s.cur.phase
  scalar : ∀ r, p.scalar = some r → c.scalar = s.cur.rs r
  db     : ∀ r, p.db = some r → dWithFmt c.db 0 = dWithFmt (s.cur.rd r) 0
  extra  : extraReg i c.da c.db c.dc = extraReg i (s.cur.desc p.da) (s.cur.desc p.db) (s.cur.desc p.dc)

theorem captures {s : State} {i : Instr} {p : PushForm} {forms : List EdgeForm} {c : Command} (h : s.pushCommand i p forms = some c) :
    s.Captures i p forms c := by
  simp only [State.pushCommand] at h
  split at h
  case h_2 => cases h
  rename_i f a b c' hf ha hb hc
  split at h
  case h_2 => cases h
  rename_i x m hx hm
  obtain ⟨-, h⟩ := Option.ite_none_left_eq_some.mp h
  obtain ⟨-, h⟩ := Option.ite_none_left_eq_some.mp h
  obtain ⟨-, h⟩ := Option.ite_none_left_eq_some.mp h
  obtain ⟨-, h⟩ := Option.ite_none_left_eq_some.mp h
  cases h
  obtain ⟨haux, -⟩ := snapshot_eq ha
  obtain ⟨hbaux, hbfmt⟩ := snapshot_eq hb
  obtain ⟨hcaux, -⟩ := snapshot_eq hc
  exact {
    instr := rfl, queue := rfl, num := rfl, pc := rfl, body := rfl, phase := rfl
    scalar := fun r hr => by rw [hr]
    db := hbfmt
    extra := extraReg_congr ((dAux_dWithMicro a m).trans haux) hbaux hcaux }

/-! ### The push itself (06 R123, R127, R129) -/

/-- The descriptor registers that a push reads. -/
def PushForm.descrs (p : PushForm) (i : Instr) (u : Unit) : List DReg :=
  p.da.toList ++ p.db.toList ++ p.dc.toList ++ (extraReg i (u.desc p.da) (u.desc p.db) (u.desc p.dc)).toList

theorem after_now {t : Nat} {f : State → Res} {s : State} (h : t ≤ s.cur.time) : after t f s = f s := if_pos h

/-- Registers whose values have landed are read at once. -/
theorem reading_landed {rs : List Reg} {ds : List DReg} {s : State} (hw : s.cur.awaits rs ds = false) (hr : s.cur.readyAt rs ds ≤ s.cur.time)
    (f : State → Res) : reading rs ds f s = f s := by
  rw [reading, hw, decide_eq_false (Nat.not_lt.mpr hr)]
  simp only [Bool.or_self, Bool.and_false, Bool.false_eq_true, if_false]
  exact after_now hr

/-- An instruction that waits for what it reads before it looks at it reads it all once it has waited (06 R123). -/
theorem after_reading {i : Instr} {rs : List Reg} {ds : List DReg} {s : State} (h : s.Executes i rs ds) : ∃ k, (s.cur.framed = true → k = 0) ∧
    (∀ f, after (if s.cur.framed then s.cur.time else s.cur.readyAt rs ds) f s = f (s.pass k)) ∧ ∀ f, reading rs ds f (s.pass k) = f (s.pass k) := by
  by_cases hr : s.cur.readyAt rs ds ≤ s.cur.time
  · refine ⟨0, fun _ => rfl, fun f => ?_, reading_landed h.loaded hr⟩
    exact after_now (by split <;> omega)
  · obtain ⟨hfree, hstill⟩ := h.landed.resolve_left hr
    refine ⟨s.cur.readyAt rs ds - s.cur.time, fun hf => absurd hf (by rw [hfree]; decide), fun f => ?_, reading_landed h.loaded ?_⟩
    · have hgo : ¬ ((s.prompt || s.cur.framed) && !(s.cur.still && s.flows.isEmpty)) = true := by
        rw [hfree, Bool.or_false, Bool.and_eq_true]
        rintro ⟨hp, hb⟩
        obtain ⟨h1, h2⟩ := hstill hp
        simp [h1, h2] at hb
      rw [hfree, if_neg Bool.false_ne_true, after, if_neg hr, if_neg hgo]
    · have htime : (s.pass (s.cur.readyAt rs ds - s.cur.time)).cur.time = s.cur.readyAt rs ds := by rw [State.pass_cur_time]; omega
      rw [htime]; exact Nat.le_refl _

/-- What a push does with the command once its registers are read: it misses its stamp, meets a shadow, or enters its queue. -/
def pushRead (c : Command) (last : Word) (s : State) : Res :=
  if s.cur.framed && decide (c.due < s.cur.time) then
    .next (s.deliver (overrunTrap c.queue c.due (s.cur.frameAt.getD 0)) s.cur.regions.length)
  else match s.cur.vecShadow c with
    | some x => trapNow s (seqTrap .shadow x)
    | none =>
      let u := s.cur.enqueue c
      let u := if s.cur.framed then u.vecLand c c.due else u
      .next (s.executePush ({ u with pc := last } : Unit).advance c)

section
variable {i : Instr} {s : State} {p : PushForm} {forms : List EdgeForm} {last : Word}

theorem push_full (hp : pushForm i = some p) (hq : 64 ≤ (s.cur.queue p.queue).length) : push i forms last s = stall s := by
  simp only [push, hp, if_pos hq]

/-- A push that finds room reads its registers, and makes its command of them or refuses it. -/
theorem push_room (hp : pushForm i = some p) (hx : s.Executes i p.scalar.toList (p.descrs i s.cur)) (hq : (s.cur.queue p.queue).length < 64) :
    ∃ k, (s.cur.framed = true → k = 0) ∧ push i forms last s = match s.pushCommand i p forms with
      | none => trapNow (s.pass k) (seqTrap .illfld (encode i))
      | some c => pushRead c last (s.pass k) := by
  obtain ⟨k, hk, hafter, hreading⟩ := after_reading hx
  refine ⟨k, hk, ?_⟩
  have hroom : ¬ 64 ≤ (s.cur.queue p.queue).length := Nat.not_le.mpr hq
  have hload : ¬ s.cur.awaits p.scalar.toList (p.descrs i s.cur) = true := by rw [hx.loaded]; exact Bool.false_ne_true
  simp only [push, hp, if_neg hroom]
  refine (if_neg hload).trans ((hafter _).trans ?_)
  rw [pushCommand_pass]
  cases s.pushCommand i p forms with
  | none => rfl
  | some c => exact hreading _

/-- How the machine `t`, before its cycle passes, differs from the machine `s` that has pushed the command `c` (06 R127). -/
structure State.Pushed (s t : State) (c : Command) (last : Word) : Prop where
  regs    : s.KeepsRegs t
  queues  : ∀ q, q ≠ 7 → t.cur.queue q = if q = c.queue then s.cur.queue q ++ [c] else s.cur.queue q
  nextNum : t.cur.nextNum = s.cur.nextNum.set (qidx c.queue) (c.num + 1)
  window  : t.cur.window = s.cur.window ++ [{
    pc := s.cur.pc, before := s.cur.toSeqRegs, push := some (c.queue, c.num), store := none, load := none, done := t.cur.time + 1 }]
  pc      : t.cur.pc = ({ s.cur with pc := last } : Unit).advance.pc
  next    : last = s.cur.pc → s.NextWord t
  only    : s.OnlyScalars { t with cur := { t.cur with
    queues := s.cur.queues, nextNum := s.cur.nextNum, vready := s.cur.vready, mready := s.cur.mready } }

/-- The unit once the command `c` stands in its queue, and in framed mode once what it writes is noted (06 R127, 08 R175). -/
def Unit.pushes (u : Unit) (c : Command) : Unit := if u.framed then (u.enqueue c).vecLand c c.due else u.enqueue c

theorem pushes_eq (u : Unit) (c : Command) : ∃ vready mready, u.pushes c =
    { u with queues := u.queues.set (qidx c.queue) (u.queue c.queue ++ [c]), nextNum := u.nextNum.set (qidx c.queue) (c.num + 1),
             vready := vready, mready := mready } := by
  rw [Unit.pushes]
  split
  · rw [Unit.vecLand]
    split
    · exact ⟨u.vready, u.mready, rfl⟩
    · exact ⟨_, _, rfl⟩
  · exact ⟨u.vready, u.mready, rfl⟩

theorem queue_set_append (u : Unit) (c : Command) {q r : BitVec 3} (hq : q ≠ 7) (hr : r ≠ 7) :
    (u.queues.set (qidx q) (u.queue q ++ [c]))[qidx r] = if r = q then u.queue r ++ [c] else u.queue r := by
  simp only [Fin.getElem_fin, Vector.getElem_set, Fin.val_inj, Unit.queue]
  by_cases h : r = q
  · subst h; simp
  · rw [if_neg h, if_neg fun e => h (qidx_inj hq hr e).symm]

/-- Where no stamp is missed and no shadow met, the command is pushed. -/
theorem pushRead_pushes {c : Command} (hdue : s.cur.framed = true → s.cur.time ≤ c.due) (hshadow : s.cur.vecShadow c = none) :
    pushRead c last s = .next (s.executePush ({ s.cur.pushes c with pc := last } : Unit).advance c) := by
  have hmiss : ¬ (s.cur.framed && decide (c.due < s.cur.time)) = true := by
    rw [Bool.and_eq_true, decide_eq_true_eq]; exact fun h => absurd (hdue h.1) (Nat.not_le.mpr h.2)
  rw [pushRead, if_neg hmiss, hshadow]
  rfl

/-- A pushed word takes its place in the commit window (06 R124). -/
theorem record_push (before after : Unit) (x : BitVec 3 × BitVec 32) (done : Nat) : before.record after (some x) none none done =
    { after with window := before.window ++
      [{ pc := before.pc, before := before.toSeqRegs, push := some x, store := none, load := none, done := done }] } := by
  rw [Unit.record, if_neg (by simp)]

/-- The machine that has pushed `c` after `k` cycles, before its engines look at it. -/
def State.pushedIn (s : State) (k : Nat) (c : Command) (last : Word) : State :=
  { s.pass k with
    cur := (s.pass k).cur.record ({ (s.pass k).cur.pushes c with pc := last } : Unit).advance (some (c.queue, c.num)) none none ((s.pass k).cur.time + 1) }

theorem executePush_later {k : Nat} {c : Command} (hlater : s.cur.framed = true → (s.pass k).cur.time < c.due) :
    (s.pass k).executePush ({ (s.pass k).cur.pushes c with pc := last } : Unit).advance c = (s.pushedIn k c last).tick := by
  have hnot : ¬ ((s.pass k).cur.framed && c.due == (s.pass k).cur.time) = true := by
    rw [Bool.and_eq_true, beq_iff_eq]; exact fun h => absurd h.2 (Nat.ne_of_gt (hlater h.1))
  rw [State.executePush]
  exact congrArg State.tick (if_neg hnot)

theorem pushed_pushedIn (k : Nat) {c : Command} (hc7 : c.queue ≠ 7) : s.Pushed (s.pushedIn k c last) c last := by
  obtain ⟨vready, mready, hpush⟩ := pushes_eq (s.pass k).cur c
  have hadv := advance_eq ({ (s.pass k).cur.pushes c with pc := last } : Unit)
  obtain ⟨hpc, hcount, hbody⟩ := advance_congr (u := ({ s.cur with pc := last } : Unit)) (v := { (s.pass k).cur.pushes c with pc := last })
    rfl (by rw [hpush]; rfl) (by rw [hpush]; rfl) (by rw [hpush]; rfl)
  have hstate : s.pushedIn k c last = { s with clock := s.clock + k, cur := { (s.pass k).cur with
      queues := s.cur.queues.set (qidx c.queue) (s.cur.queue c.queue ++ [c]), nextNum := s.cur.nextNum.set (qidx c.queue) (c.num + 1),
      vready := vready, mready := mready, pc := ({ s.cur with pc := last } : Unit).advance.pc,
      lcount := ({ s.cur with pc := last } : Unit).advance.lcount, lbody := ({ s.cur with pc := last } : Unit).advance.lbody,
      window := s.cur.window ++ [{
        pc := s.cur.pc, before := s.cur.toSeqRegs, push := some (c.queue, c.num), store := none, load := none, done := s.cur.time + k + 1 }] } } := by
    rw [State.pushedIn, record_push, hadv, hpc, hcount, hbody, hpush]; rfl
  rw [hstate]
  exact {
    regs := fun _ => rfl
    queues := fun q hq => queue_set_append s.cur c hc7 hq
    nextNum := rfl, window := rfl, pc := rfl
    next := fun hlast => by rw [hlast]; exact ⟨rfl, rfl, rfl⟩
    only := ⟨rfl, by simp only [State.pass]; omega, fun _ _ => rfl⟩ }

/-- What a push comes to, where it finds room: its command is refused, or looked at once what it reads has landed. -/
theorem push_pushes {c : Command} (hp : pushForm i = some p) (hc : s.pushCommand i p forms = some c)
    (hx : s.Executes i p.scalar.toList (p.descrs i s.cur)) (hq : (s.cur.queue p.queue).length < 64) (hdue : s.cur.framed = true → s.cur.time ≤ c.due)
    (hshadow : s.cur.vecShadow c = none) : ∃ k, (s.cur.framed = true → k = 0) ∧
      push i forms last s = .next ((s.pass k).executePush ({ (s.pass k).cur.pushes c with pc := last } : Unit).advance c) := by
  obtain ⟨k, hk, e⟩ := push_room (forms := forms) (last := last) hp hx hq
  refine ⟨k, hk, e.trans ?_⟩
  rw [hc]
  exact pushRead_pushes (s := s.pass k) (fun hf => by rw [State.pass_cur_time, hk hf]; exact hdue hf) hshadow

theorem push_ends {c : Command} (hp : pushForm i = some p) (hc : s.pushCommand i p forms = some c)
    (hx : s.Executes i p.scalar.toList (p.descrs i s.cur)) (hq : (s.cur.queue p.queue).length < 64) (hdue : s.cur.framed = true → s.cur.time < c.due)
    (hshadow : s.cur.vecShadow c = none) : ∃ t : State, push i forms last s = .next t.tick ∧ s.Pushed t c last := by
  obtain ⟨k, hk, e⟩ := push_pushes (last := last) hp hc hx hq (fun hf => Nat.le_of_lt (hdue hf)) hshadow
  refine ⟨s.pushedIn k c last, ?_, pushed_pushedIn k ?_⟩
  · rw [e, executePush_later fun hf => by rw [State.pass_cur_time, hk hf]; exact hdue hf]
  · rw [(captures hc).queue]; exact engineQueue_ne_seven (pushForm_queue_mem hp)

end

/-! ### The edge body of an EBIND (02 R42, 17 R315) -/

/-- The body words of an EBIND up to its EEND. -/
theorem readBody_body {s : State} (forms : List EdgeForm) : ∀ (fuel : Nat) (va : Word) (acc : List EdgeForm),
    forms.length ≤ fuel → EdgeForm.eend ∉ forms →
    (∀ k, (hk : k < forms.length) → ∃ y, s.fetchAt (va + BitVec.ofNat 64 (8 * k)) = .ok y ∧ decodeBody y = .ok forms[k]) →
    (∃ y, s.fetchAt (va + BitVec.ofNat 64 (8 * forms.length)) = .ok y ∧ decodeBody y = .ok .eend) →
    readBody s fuel va acc = .body (acc ++ forms) (va + BitVec.ofNat 64 (8 * forms.length)) := by
  induction forms with
  | nil =>
    rintro fuel va acc _ _ _ ⟨y, hy, hend⟩
    rw [List.length_nil, show va + BitVec.ofNat 64 (8 * 0) = va from BitVec.add_zero va] at hy ⊢
    rw [readBody, hy]
    simp only [hend, List.append_nil]
  | cons form forms ih =>
    intro fuel va acc hn he hf hl
    obtain ⟨fuel, rfl⟩ : ∃ n, fuel = n + 1 := ⟨fuel - 1, by simp at hn; omega⟩
    have next (k : Nat) : va + 8 + BitVec.ofNat 64 (8 * k) = va + BitVec.ofNat 64 (8 * (k + 1)) := by
      rw [BitVec.add_assoc]; congr 1; apply BitVec.eq_of_toNat_eq; simp; omega
    obtain ⟨y, hy, hd⟩ := hf 0 (by simp)
    rw [show va + BitVec.ofNat 64 (8 * 0) = va from BitVec.add_zero va] at hy
    have hne : form ≠ .eend := fun e => he (by simp [e])
    have hrest := ih fuel (va + 8) (acc ++ [form]) (by simpa using hn) (fun h => he (by simp [h]))
      (fun k hk => by rw [next]; exact hf (k + 1) (by simpa using hk)) (by rw [next]; exact hl)
    rw [readBody, hy]
    simp only [hd]
    cases form
    case eend => exact absurd rfl hne
    all_goals
      rw [List.getElem_cons_zero]
      exact hrest.trans (by rw [next, List.append_assoc]; rfl)

/-- The forms that a push takes along, and the address of its last word: an EBIND reads its body up to the EEND, every other word is alone. -/
structure State.Bodied (s : State) (i : Instr) (forms : List EdgeForm) (last : Word) : Prop where
  binds : (∃ h oc da, i = .ebind h oc da) → s.latent = [] ∧ forms.length ≤ 16 ∧ EdgeForm.eend ∉ forms ∧
    last = s.cur.pc + BitVec.ofNat 64 (8 * (forms.length + 1)) ∧
    (∀ k, (hk : k < forms.length) → ∃ y, s.fetchAt (s.cur.pc + BitVec.ofNat 64 (8 * (k + 1))) = .ok y ∧ decodeBody y = .ok forms[k]) ∧
    ∃ y, s.fetchAt last = .ok y ∧ decodeBody y = .ok .eend
  alone : (¬ ∃ h oc da, i = .ebind h oc da) → forms = [] ∧ last = s.cur.pc

/-- An engine command's word pushes it, an EBIND with its body. -/
theorem exec_pushes {i : Instr} {p : PushForm} {s : State} {forms : List EdgeForm} {last : Word} {rs : List Reg} {ds : List DReg} (hp : pushForm i = some p)
    (hb : s.Bodied i forms last) (hx : s.Executes i rs ds) : exec i s = push i forms last s := by
  by_cases hbind : ∃ h oc da, i = .ebind h oc da
  · obtain ⟨hl, hn, he, rfl, hf, hend⟩ := hb.binds hbind
    obtain ⟨h, oc, da, rfl⟩ := hbind
    have next (k : Nat) : s.cur.pc + BitVec.ofNat 64 (8 * (k + 1)) = s.cur.pc + 8 + BitVec.ofNat 64 (8 * k) := by
      rw [BitVec.add_assoc]; congr 1; apply BitVec.eq_of_toNat_eq; simp; omega
    simp only [next] at hf hend ⊢
    rw [exec_ebind, execEbind, issue_spec hx, pushBind, readBody_body forms 16 _ [] hn he hf hend]
    dsimp only
    rw [List.foldl_fixed' fun k => scrubFetch_clean hl (s.cur.pc + BitVec.ofNat 64 (8 * (k + 1))), List.nil_append]
  · obtain ⟨rfl, rfl⟩ := hb.alone hbind
    rw [exec_push hp (fun h oc da e => hbind ⟨h, oc, da, e⟩) s, execPush, issue_spec hx]

end Sys2Proof.Machine

namespace Sys2Proof.Proofs
open Sys2Proof Sys2Proof.Machine

/-- Settles O40: the push reads what its word names, and its command enters the queue of its class. -/
theorem engineCommandsArePushed : Obligations.EngineCommandsArePushed := by
  intro i s p forms last cls desc regs binds word hp hbinds halone
  have hbody : s.Bodied i forms last := ⟨hbinds, halone⟩
  have hclass : (wordClass (encode i)).toNat = cls := Laws.wordClass_toNat _
  refine ⟨hclass ▸ pushForm_queue hp, fun c hc hx hroom hdue hshadow => ?pushed, fun hc hx hroom => ?refused, fun hx hfull => ?full⟩
  case pushed =>
    have hcap := captures hc
    have hx' : s.Executes i p.scalar.toList (p.descrs i s.cur) := by rw [hcap.extra] at hx; exact hx
    have hexec := exec_pushes hp hbody hx
    obtain ⟨k, -, hnext⟩ := push_pushes (last := last) hp hc hx' hroom hdue hshadow
    refine ⟨⟨_, hexec.trans hnext⟩, hcap.instr, hcap.queue, hcap.num, hcap.pc, hcap.body, hcap.phase, hcap.scalar, hcap.db, fun hlater => ?_⟩
    obtain ⟨t, ht, hpush⟩ := push_ends (last := last) hp hc hx' hroom hlater hshadow
    have hq := hcap.queue
    exact ⟨t, hexec.trans ht, hpush.regs, hq ▸ hpush.queues, by simpa only [hq] using hpush.nextNum, hq ▸ hpush.window, hpush.pc, hpush.next, hpush.only⟩
  case refused =>
    obtain ⟨k, hk, e⟩ := push_room (forms := forms) (last := last) hp hx hroom
    rw [hc] at e
    exact ⟨k, hk, (exec_pushes hp hbody hx).trans e⟩
  case full =>
    obtain ⟨n, hn⟩ := wait_eq s
    exact ⟨n, (exec_pushes hp hbody hx).trans ((push_full hp hfull).trans (congrArg _ hn))⟩

end Sys2Proof.Proofs
end

section
/-! PROOFS. The sequencer (06): the events of a unit, O51. -/

namespace Sys2Proof.Machine
open Sys2Proof

theorem unitAt_gid (s : State) (g : Gid) : (s.unitAt g).gid = g := by
  rw [State.unitAt]
  split
  · assumption
  · cases hfind : s.others.find? (fun u => u.gid == g) with
    | none => rfl
    | some u => exact beq_iff_eq.mp (List.find?_some (p := fun u : Unit => u.gid == g) hfind)

/-- A turn given to another unit leaves the unit that had it among the others. -/
theorem cur_of_switchTo {w t : State} {g : Gid} (h : w.switchTo g = t) : w.cur = t.cur ∨ w.cur ∈ t.others := by
  rw [State.switchTo] at h
  split at h
  · exact .inl (by rw [h])
  next hg =>
    have hother : ¬ (w.unitAt g).gid = w.cur.gid := fun e => hg (e.symm.trans (unitAt_gid w g))
    rw [State.setUnit, if_neg hother] at h
    rw [← h]
    exact .inr (List.mem_append_right _ List.mem_cons_self)

/-- Only for a unit of the thief's task is the head of a queue taken (19 R352). -/
theorem maySteal_task {s : State} {thief owner : Gid} {q : BitVec 3} (h : s.maySteal thief owner q = true) :
    (s.unitAt thief).task.isSome = true ∧ (s.unitAt owner).task.isSome = true ∧ thief ≠ owner := by
  simp only [State.maySteal, Bool.and_eq_true, beq_iff_eq, bne_iff_ne] at h
  obtain ⟨⟨⟨⟨⟨⟨⟨⟨⟨⟨⟨⟨⟨hne, -⟩, -⟩, -⟩, -⟩, hsome⟩, hsame⟩, -⟩, -⟩, -⟩, -⟩, -⟩, -⟩, -⟩ := h
  exact ⟨hsome, hsame ▸ hsome, hne⟩

end Sys2Proof.Machine

namespace Sys2Proof.Proofs.SharedNumber
open Sys2Proof Sys2Proof.Machine

/-! O51. COMMAND_STEAL starts the head of the owner's queue and lets it run: it looks the command up by its queue and number. The statement does not say that no
command in flight has the number of the head. Where one does, that one runs; if it stops, what leaves the engine is each command of that number, the taken one with
it. -/

/-- An SCRPLY with no elements, as its push makes it at an empty queue. -/
def head : Command :=
  { instr := .scrply { give := 0, take1 := 0, take2 := 0, take3 := 0, stamp := 0 } 0 true 1 2 3, queue := 2, num := 0, pc := 0, lcount := 0, llimit := 0, lbody := 0,
    handler := false, phase := 0, da := 0, db := 0, dc := 0, extra := 0, scalar := 0, fmt := 0, pattern := 0, stream := 0, commGen := 0, body := [], engine := 0,
    depth := 0, due := 0, empty := true, flags := 0, resume := none, carrier := none, trace := [], deferred := [], counted := false, written := 0, placed := false,
    number := none }

/-- A command of the head's number has started and has still to run; it names an entry of a step cache that its section does not have. -/
def inFlight : Inflight :=
  { command := { head with empty := false }, replies := [], flags := 0, trace := [], waiting := false, todo := true, got := [], until_ := 0, feed := 0, fed := 0,
    former := [], reads := [], gives := 0, formerAcc := none }

/-- A unit in the middle of task 64. -/
def working (u : Machine.Unit) : Machine.Unit := { u with run := .running, tvec := 0x800, task := some 64, time := 16 }

/-- Two quires of a section that run one task: the load engine of quire 1 is idle, and quire 0 has a command for it. -/
def start : State :=
  { State.reset with
    prompt := false
    cur := ({ working (Unit.atReset 0) with inflight := [inFlight] }).setQueue 2 [head]
    others := [working (Unit.atReset 1)] }

theorem task_unitAt {k : Gid} (h0 : k ≠ 0) (h1 : k ≠ 1) : (start.unitAt k).task = none := by
  have hcur : ¬ start.cur.gid = k := fun e => h0 (e.symm.trans rfl)
  have hfind : start.others.find? (fun u => u.gid == k) = none := by
    refine List.find?_eq_none.mpr fun u hu => ?_
    rw [List.mem_singleton.mp hu]
    exact beq_iff_eq.not.mpr fun e => h1 (e.symm.trans rfl)
  rw [State.unitAt, if_neg hcur, hfind]
  rfl

/-- No other quire may take the head, -/
theorem thief_unique {k : Gid} (hk : k ≠ 1) : start.maySteal k 0 2 = false := by
  refine Bool.eq_false_iff.mpr fun h => ?_
  obtain ⟨hsome, -, hne⟩ := maySteal_task h
  rw [task_unitAt hne hk] at hsome
  exact absurd hsome (by decide)

/-- and the thief may take that of no other. -/
theorem owner_unique {k : Gid} (hk : k ≠ 0) : start.maySteal 1 k 2 = false := by
  refine Bool.eq_false_iff.mpr fun h => ?_
  obtain ⟨-, hsome, hne⟩ := maySteal_task h
  rw [task_unitAt hk hne.symm] at hsome
  exact absurd hsome (by decide)

/-- After the event neither unit has a command in flight. -/
theorem none_in_flight {t : State} (h : exec (.commandSteal 1 0 2) start = .next t) : t.cur.inflight = [] ∧ ∀ u ∈ t.others, u.inflight = [] := by
  have hnone : (match exec (.commandSteal 1 0 2) start with
      | .next t => decide (t.cur.inflight = [] ∧ ∀ u ∈ t.others, u.inflight = [])
      | _ => false) = true := by decide +kernel
  rw [h] at hnone
  exact of_decide_eq_true hnone

end Sys2Proof.Proofs.SharedNumber

namespace Sys2Proof.Proofs
open Sys2Proof Sys2Proof.Machine SharedNumber

/-- Refutes O51: the command that COMMAND_STEAL takes is gone with an earlier one of its number, which the event runs and which stops on a fault. -/
theorem not_sequencerEvents : ¬ Obligations.SequencerEvents := by
  intro h
  obtain ⟨-, hevents⟩ := h start 1 0 2 0 0 0 0
  obtain ⟨-, -, -, -, -, -, -, -, hsteal, -⟩ := hevents (by decide +kernel) (by decide +kernel)
  obtain ⟨w, hw, -, y, hy, -⟩ := hsteal head [] (by decide +kernel) (by decide +kernel) (fun _ => thief_unique) (fun _ => owner_unique) rfl rfl (by decide +kernel)
  obtain ⟨hcur, hothers⟩ := none_in_flight hw
  have hnone : w.cur.inflight = [] := (cur_of_switchTo rfl).elim (fun e => (congrArg Unit.inflight e).trans hcur) (hothers _)
  rw [hnone] at hy
  exact absurd hy List.not_mem_nil

end Sys2Proof.Proofs
end

section
/-! PROOFS. Number formats (07): rounding, O9. -/

namespace Sys2Proof.Machine
open Sys2Proof

/-! ### The four modes at a position (R156) -/

theorem ceilDiv_bounds (m : Nat) {n : Nat} (hn : 0 < n) : m ≤ ceilDiv m n * n ∧ ceilDiv m n * n < m + n := by
  have hle : ceilDiv m n * n ≤ m + n - 1 := Nat.div_mul_le_self ..
  have hlt : m + n - 1 < ceilDiv m n * n + n := Nat.lt_div_mul_add hn
  omega

/-- A quotient rounded up is the next one where there is a remainder. -/
theorem ceilDiv_eq (m : Nat) {n : Nat} (hn : 0 < n) : ceilDiv m n = m / n + if m % n = 0 then 0 else 1 := by
  have hm := Nat.div_add_mod' m n
  have hlt := Nat.mod_lt m hn
  rw [ceilDiv, Nat.div_eq_iff hn]
  split
  · simp only [Nat.add_zero]; omega
  · rw [Nat.add_mul]; omega

theorem roundAt_rtz (neg : Bool) (m d : Nat) (e : Int) : roundAt .rtz neg m e (e + d) = m / 2 ^ d := by
  rw [roundAt_eq]; rfl

theorem roundAt_rup (neg : Bool) (m d : Nat) (e : Int) :
    roundAt .rup neg m e (e + d) = if neg then m / 2 ^ d else ceilDiv m (2 ^ d) := by
  rw [roundAt_eq, ceilDiv_eq m (Nat.two_pow_pos d)]
  cases neg <;> simp

theorem roundAt_rdn (neg : Bool) (m d : Nat) (e : Int) :
    roundAt .rdn neg m e (e + d) = if neg then ceilDiv m (2 ^ d) else m / 2 ^ d := by
  rw [roundAt_eq, ceilDiv_eq m (Nat.two_pow_pos d)]
  cases neg <;> simp

/-- The nearest mode goes up from beyond the half, and from the half to an even number. -/
theorem roundAt_rne (neg : Bool) (m d : Nat) (e : Int) : roundAt .rne neg m e (e + d) =
    m / 2 ^ d + if 2 ^ d < 2 * (m % 2 ^ d) ∨ (2 * (m % 2 ^ d) = 2 ^ d ∧ m / 2 ^ d % 2 = 1) then 1 else 0 := by
  rw [roundAt_eq]; simp

theorem floor_bounds (m d : Nat) : m / 2 ^ d * 2 ^ d ≤ m ∧ m < (m / 2 ^ d + 1) * 2 ^ d :=
  ⟨Nat.div_mul_le_self .., Nat.succ_mul .. ▸ Nat.lt_div_mul_add (Nat.two_pow_pos d)⟩

theorem roundAt_rne_bounds (neg : Bool) (m d : Nat) (e : Int) :
    let r := roundAt .rne neg m e (e + d)
    2 * (r * 2 ^ d) ≤ 2 * m + 2 ^ d ∧ 2 * m ≤ 2 * (r * 2 ^ d) + 2 ^ d ∧
      (2 * (r * 2 ^ d) = 2 * m + 2 ^ d ∨ 2 * m = 2 * (r * 2 ^ d) + 2 ^ d → r % 2 = 0) := by
  have hm := Nat.div_add_mod' m (2 ^ d)
  have hlt := Nat.mod_lt m (Nat.two_pow_pos d)
  intro r
  rw [show r = _ from roundAt_rne neg m d e]
  split
  · rw [Nat.add_mul, Nat.one_mul]; omega
  · rw [Nat.add_zero]; omega

theorem roundAt_same (mode : RMode) (neg : Bool) (m : Nat) (e : Int) : roundAt mode neg m e e = m := by
  rw [roundAt, if_pos (Int.le_refl e), Int.sub_self]; exact Nat.mul_one m

theorem inexact_same (m : Nat) (e : Int) : inexact m e m e = false := by
  rw [inexact, if_pos (Int.le_refl e), Int.sub_self]
  exact bne_eq_false_iff_eq.mpr (Nat.mul_one m)

/-! ### Codes and their values (R153, R154) -/

/-- What a code of sign `neg` and magnitude bits `mag` stands for as long as it is no special one. -/
def FSpec.finite (f : FSpec) (neg : Bool) (mag : Nat) : FpVal :=
  let q : Int := (f.bias : Int) + f.fracBits
  if mag / 2 ^ f.fracBits = 0 then .fin neg (mag % 2 ^ f.fracBits) (1 - q)
  else .fin neg (2 ^ f.fracBits + mag % 2 ^ f.fracBits) ((mag / 2 ^ f.fracBits : Nat) - q)

/-- The formats of R153 have their special codes above their largest finite one, in one of three layouts. -/
def FSpec.Known (f : FSpec) : Prop := (f.special = .ieee ∧ 1 ≤ f.expBits) ∨ f = e4m3 ∨ f = e2m1

theorem known_of_mem {f : FSpec} (h : f ∈ [fp64, fp32, bf16, fp16, e4m3, e5m2, e2m1]) : f.Known := by
  simp only [List.mem_cons, List.not_mem_nil, or_false] at h
  rcases h with rfl | rfl | rfl | rfl | rfl | rfl | rfl <;> simp [FSpec.Known, fp64, fp32, bf16, fp16, e5m2]

theorem eq_e4m3 {f : FSpec} (hf : f.Known) (hs : f.special = .e4m3) : f = e4m3 := by
  obtain ⟨hieee, -⟩ | rfl | rfl := hf
  · rw [hieee] at hs; cases hs
  · rfl
  · cases hs

theorem exists_code {f : FSpec} {b : Nat} (hb : b < 2 ^ f.bits) : ∃ neg mag, mag < 2 ^ (f.fracBits + f.expBits) ∧ b = f.signBit neg + mag := by
  have hbits : 2 ^ f.bits = 2 * 2 ^ (f.fracBits + f.expBits) := by rw [FSpec.bits, ← Nat.pow_succ']; congr 1; omega
  rw [hbits] at hb
  by_cases hsign : b < 2 ^ (f.fracBits + f.expBits)
  · exact ⟨false, b, hsign, (Nat.zero_add b).symm⟩
  · refine ⟨true, b - 2 ^ (f.fracBits + f.expBits), by omega, ?_⟩
    rw [FSpec.signBit, if_pos rfl, Nat.add_comm f.expBits]; omega

theorem signBit_eq (f : FSpec) (neg : Bool) : f.signBit neg = neg.toNat * 2 ^ (f.fracBits + f.expBits) := by
  cases neg <;> simp [FSpec.signBit, Nat.add_comm]

theorem code_frac (f : FSpec) (neg : Bool) (mag : Nat) : (f.signBit neg + mag) % 2 ^ f.fracBits = mag % 2 ^ f.fracBits := by
  rw [signBit_eq, Nat.pow_add, Nat.mul_comm (2 ^ f.fracBits), ← Nat.mul_assoc, Nat.mul_add_mod']

section
variable {f : FSpec} (neg : Bool) {mag : Nat} (hmag : mag < 2 ^ (f.fracBits + f.expBits))
include hmag

theorem code_exp : (f.signBit neg + mag) / 2 ^ f.fracBits % 2 ^ f.expBits = mag / 2 ^ f.fracBits := by
  rw [Nat.pow_add] at hmag
  rw [signBit_eq, Nat.pow_add, Nat.mul_comm (2 ^ f.fracBits), ← Nat.mul_assoc, Nat.mul_comm _ (2 ^ f.fracBits),
    Nat.mul_add_div (Nat.two_pow_pos _), Nat.mul_add_mod', Nat.mod_eq_of_lt (Nat.div_lt_of_lt_mul hmag)]

theorem code_sign : ((f.signBit neg + mag) / 2 ^ (f.fracBits + f.expBits) % 2 == 1) = neg := by
  rw [signBit_eq, Nat.mul_comm, Nat.mul_add_div (Nat.two_pow_pos _), Nat.div_eq_of_lt hmag]
  cases neg <;> rfl

end

/-- The magnitude bits of an infinity are in the range of a code. -/
theorem infMag_lt (f : FSpec) : (2 ^ f.expBits - 1) * 2 ^ f.fracBits < 2 ^ (f.fracBits + f.expBits) := by
  rw [Nat.add_comm, Nat.pow_add]
  exact Nat.mul_lt_mul_of_pos_right (Nat.sub_one_lt_of_lt (Nat.two_pow_pos _)) (Nat.two_pow_pos _)

theorem maxBits_lt {f : FSpec} (hf : f.Known) : f.maxBits < 2 ^ (f.fracBits + f.expBits) := by
  obtain ⟨hs, -⟩ | rfl | rfl := hf
  · rw [FSpec.maxBits, hs]
    exact Nat.lt_of_le_of_lt (Nat.sub_le ..) (infMag_lt f)
  · decide
  · decide

/-- Up to the largest finite magnitude no code is special. -/
theorem val_of_le {f : FSpec} (hf : f.Known) (neg : Bool) {mag : Nat} (hle : mag ≤ f.maxBits) : f.val (f.signBit neg + mag) = f.finite neg mag := by
  have hmag : mag < 2 ^ (f.fracBits + f.expBits) := Nat.lt_of_le_of_lt hle (maxBits_lt hf)
  simp only [FSpec.val, code_frac, code_exp neg hmag, code_sign neg hmag]
  obtain ⟨hs, hexp⟩ | rfl | rfl := hf
  · have htop : mag / 2 ^ f.fracBits ≠ 2 ^ f.expBits - 1 := by
      have hpos : 0 < (2 ^ f.expBits - 1) * 2 ^ f.fracBits :=
        Nat.mul_pos (Nat.sub_pos_of_lt (Nat.one_lt_two_pow (by omega))) (Nat.two_pow_pos _)
      rw [FSpec.maxBits, hs] at hle
      exact Nat.ne_of_lt (Nat.div_lt_of_lt_mul (by rw [Nat.mul_comm]; exact Nat.lt_of_le_pred hpos hle))
    simp only [hs, if_neg htop]; rfl
  · have hnan : ¬ (mag / 2 ^ 3 = 15 ∧ mag % 2 ^ 3 = 7) := by
      have : mag ≤ 126 := hle
      omega
    exact if_neg hnan
  · rfl

/-- Above it a code is an infinity, of a format that has one, or a NaN. -/
theorem val_of_gt {f : FSpec} (hf : f.Known) (neg : Bool) {mag : Nat} (hmag : mag < 2 ^ (f.fracBits + f.expBits)) (hgt : f.maxBits < mag) :
    (f.special = .ieee ∧ f.signBit neg + mag = f.infBits neg) ∨ ∃ signalling, f.val (f.signBit neg + mag) = .nan signalling := by
  simp only [FSpec.val, code_frac, code_exp neg hmag, code_sign neg hmag]
  obtain ⟨hs, hexp⟩ | rfl | rfl := hf
  · have htop : mag / 2 ^ f.fracBits = 2 ^ f.expBits - 1 := by
      rw [FSpec.maxBits, hs] at hgt
      refine Nat.le_antisymm (Nat.le_sub_one_of_lt (Nat.div_lt_of_lt_mul (by rwa [← Nat.pow_add]))) ?_
      exact (Nat.le_div_iff_mul_le (Nat.two_pow_pos _)).mpr (Nat.le_of_pred_lt hgt)
    simp only [hs, if_pos htop]
    split
    next hfrac =>
      refine .inl ⟨trivial, ?_⟩
      rw [FSpec.infBits, ← htop, ← Nat.div_add_mod' mag (2 ^ f.fracBits), hfrac]
      simp
    · exact .inr ⟨_, rfl⟩
  · have hnan : mag / 2 ^ 3 = 15 ∧ mag % 2 ^ 3 = 7 := by
      have h1 : 126 < mag := hgt
      have h2 : mag < 128 := hmag
      omega
    exact .inr ⟨_, if_pos hnan⟩
  · exact absurd hgt (Nat.not_lt.mpr (Nat.le_of_lt_succ hmag))

theorem val_infBits {f : FSpec} (hs : f.special = .ieee) (neg : Bool) : f.val (f.infBits neg) = .inf neg := by
  have hmag := infMag_lt f
  simp only [FSpec.val, FSpec.infBits, code_frac, code_exp neg hmag, code_sign neg hmag, hs, Nat.mul_mod_left, Nat.mul_div_cancel _ (Nat.two_pow_pos _), if_true]

theorem finite_eq_fin (f : FSpec) (neg : Bool) (mag : Nat) : ∃ m e, f.finite neg mag = .fin neg m e := by
  rw [FSpec.finite]
  split <;> exact ⟨_, _, rfl⟩

/-! ### Rounding to a format (R156, R157) -/

/-- A finite value that is not zero gives the code of a magnitude, or it overflows. -/
theorem round_fin_eq (f : FSpec) (mode : RMode) (sat neg : Bool) {m : Nat} (e : Int) (hm : m ≠ 0) : ∃ mag flags,
    f.round mode sat (.fin neg m e) =
      if f.maxBits < mag then (f.overflow mode sat neg, flagOVF ||| flagNX) else (f.signBit neg + mag, flags) := by
  simp only [FSpec.round, if_neg hm]
  exact ⟨_, _, rfl⟩

theorem round_fin_cases (f : FSpec) (mode : RMode) (sat neg : Bool) (m : Nat) (e : Int) :
    (∃ mag, mag ≤ f.maxBits ∧ (f.round mode sat (.fin neg m e)).1 = f.signBit neg + mag) ∨
      f.round mode sat (.fin neg m e) = (f.overflow mode sat neg, flagOVF ||| flagNX) := by
  by_cases hm : m = 0
  · exact .inl ⟨0, Nat.zero_le _, by rw [FSpec.round, if_pos hm]; rfl⟩
  · obtain ⟨mag, flags, hround⟩ := round_fin_eq f mode sat neg e hm
    rw [hround]
    split
    · exact .inr rfl
    next hle => exact .inl ⟨mag, Nat.le_of_not_lt hle, rfl⟩

/-- What takes the place of an overflow is the largest finite value, an infinity, or in E4M3 the NaN of that sign. -/
theorem overflow_cases (f : FSpec) (mode : RMode) (sat neg : Bool) : f.overflow mode sat neg = f.signBit neg + f.maxBits ∨
    (f.special = .ieee ∧ f.overflow mode sat neg = f.infBits neg) ∨ (f.special = .e4m3 ∧ f.overflow mode sat neg = f.signBit neg + 0x7F) := by
  cases hs : f.special with
  | e2m1 => exact .inl (by simp [FSpec.overflow, hs])
  | ieee =>
    simp only [FSpec.overflow, hs]
    split_ifs
    · exact .inl rfl
    · exact .inr (.inl ⟨trivial, rfl⟩)
  | e4m3 =>
    simp only [FSpec.overflow, hs]
    split_ifs
    · exact .inl rfl
    · exact .inr (.inr ⟨trivial, rfl⟩)

/-- Only a format that has infinities keeps one. -/
theorem round_inf_cases (f : FSpec) (mode : RMode) (sat neg : Bool) : (f.round mode sat (.inf neg)).1 = f.signBit neg + f.maxBits ∨
    (f.round mode sat (.inf neg)).1 = f.defaultNan ∨ (f.special = .ieee ∧ (f.round mode sat (.inf neg)).1 = f.infBits neg) := by
  simp only [FSpec.round]
  split_ifs with hmax hnan
  · exact .inl rfl
  · exact .inr (.inl rfl)
  · refine .inr (.inr ⟨?_, rfl⟩)
    cases hs : f.special with
    | ieee => rfl
    | e4m3 => simp [hs] at hnan
    | e2m1 => simp [hs] at hmax

/-- The magnitude bits of the significand `m` at the exponent `e`. -/
def FSpec.magAt (f : FSpec) (m : Nat) (e : Int) : Nat :=
  if m < 2 ^ f.fracBits then m else (e + f.fracBits + f.bias).toNat * 2 ^ f.fracBits + (m - 2 ^ f.fracBits)

/-- A significand that fits the format at its exponent is kept. -/
theorem round_of_fits (f : FSpec) (mode : RMode) (sat neg : Bool) {m : Nat} {e : Int} (hm : m < 2 ^ (f.fracBits + 1))
    (he : 1 - (f.bias : Int) - f.fracBits ≤ e) (hfull : e = 1 - (f.bias : Int) - f.fracBits ∨ 2 ^ f.fracBits ≤ m)
    (hmax : f.magAt m e ≤ f.maxBits) : f.round mode sat (.fin neg m e) = (f.signBit neg + f.magAt m e, 0) := by
  by_cases h0 : m = 0
  · subst h0
    rw [FSpec.round, if_pos rfl, FSpec.magAt, if_pos (Nat.two_pow_pos _)]; rfl
  · have hq : max (e + (m.log2 : Int) + 1 - ((f.fracBits + 1 : Nat) : Int)) (1 - (f.bias : Int) - f.fracBits) = e := by
      have hlog : m.log2 < f.fracBits + 1 := (Nat.log2_lt h0).mpr hm
      have hlow : e = 1 - (f.bias : Int) - f.fracBits ∨ f.fracBits ≤ m.log2 := hfull.imp_right (Nat.le_log2 h0).mpr
      omega
    have hr (q0 : Int) : (if e = q0 then roundAt mode neg m e q0 else roundAt mode neg m e e) = m := by
      split
      next h => rw [← h, roundAt_same]
      · exact roundAt_same ..
    have hmag := Nat.not_lt.mpr hmax
    rw [FSpec.magAt] at hmag
    simp only [FSpec.round, if_neg h0, hq, hr, if_neg (Nat.ne_of_lt hm), if_neg hmag, inexact_same, Bool.false_and]
    rfl

theorem magAt_subnormal (f : FSpec) {frac : Nat} (hfrac : frac < 2 ^ f.fracBits) (e : Int) : f.magAt frac e = frac := if_pos hfrac

theorem magAt_normal (f : FSpec) (ex frac : Nat) : f.magAt (2 ^ f.fracBits + frac) (ex - ((f.bias : Int) + f.fracBits)) = ex * 2 ^ f.fracBits + frac := by
  have hex : ((ex : Int) - ((f.bias : Int) + f.fracBits) + f.fracBits + f.bias).toNat = ex := by omega
  rw [FSpec.magAt, if_neg (Nat.not_lt.mpr (Nat.le_add_right ..)), hex, Nat.add_sub_cancel_left]

/-- A finite code's value rounds to that code. -/
theorem round_finite (f : FSpec) (mode : RMode) (sat neg : Bool) {mag : Nat} (hmag : mag ≤ f.maxBits) :
    f.round mode sat (f.finite neg mag) = (f.signBit neg + mag, 0) := by
  have hsplit := Nat.div_add_mod' mag (2 ^ f.fracBits)
  have hfrac := Nat.mod_lt mag (Nat.two_pow_pos f.fracBits)
  have hpow : 2 ^ (f.fracBits + 1) = 2 * 2 ^ f.fracBits := Nat.pow_succ'
  rw [FSpec.finite]
  split
  next hexp =>
    rw [hexp, Nat.zero_mul, Nat.zero_add] at hsplit
    have hbits := magAt_subnormal f hfrac (1 - ((f.bias : Int) + f.fracBits))
    rw [round_of_fits f mode sat neg (by omega) (by omega) (.inl (by omega)) (by rw [hbits, hsplit]; exact hmag), hbits, hsplit]
  next hexp =>
    have hbits := magAt_normal f (mag / 2 ^ f.fracBits) (mag % 2 ^ f.fracBits)
    rw [hsplit] at hbits
    have hpos : (1 : Int) ≤ (mag / 2 ^ f.fracBits : Nat) := Int.ofNat_le.mpr (Nat.pos_of_ne_zero hexp)
    rw [round_of_fits f mode sat neg (by omega) (by omega) (.inr (Nat.le_add_right ..)) (hbits.trans_le hmag), hbits]

/-- A code that is no special one is no NaN. -/
theorem val_not_nan_of_le {f : FSpec} (hf : f.Known) (neg : Bool) {mag : Nat} (hle : mag ≤ f.maxBits) : (f.val (f.signBit neg + mag)).isNan = false := by
  obtain ⟨m, e, hfin⟩ := finite_eq_fin f neg mag
  rw [val_of_le hf neg hle, hfin]; rfl

/-- Every NaN that rounding gives is the default one, but for the NaN of an overflow to E4M3, which keeps its sign (R154, R157). -/
theorem round_nan {f : FSpec} (hf : f.Known) (mode : RMode) (sat : Bool) (x : FpVal) (hnan : (f.val (f.round mode sat x).1).isNan = true) :
    (f.round mode sat x).1 = f.defaultNan ∨ (f = e4m3 ∧ (f.round mode sat x).1 = 0xFF ∧ (f.round mode sat x).2 = flagOVF ||| flagNX) := by
  have hfinite (neg : Bool) {mag : Nat} (hle : mag ≤ f.maxBits) : (f.round mode sat x).1 ≠ f.signBit neg + mag := fun e => by
    rw [e, val_not_nan_of_le hf neg hle] at hnan; cases hnan
  have hinf (neg : Bool) (hs : f.special = .ieee) : (f.round mode sat x).1 ≠ f.infBits neg := fun e => by
    rw [e, val_infBits hs] at hnan; cases hnan
  cases x with
  | nan signalling => exact .inl rfl
  | inf neg =>
    obtain hmax | hdefault | ⟨hs, hbits⟩ := round_inf_cases f mode sat neg
    · exact absurd hmax (hfinite neg le_rfl)
    · exact .inl hdefault
    · exact absurd hbits (hinf neg hs)
  | fin neg m e =>
    obtain ⟨mag, hle, hbits⟩ | hover := round_fin_cases f mode sat neg m e
    · exact absurd hbits (hfinite neg hle)
    · have hbits := congrArg Prod.fst hover
      obtain hmax | ⟨hs, hmax⟩ | ⟨hs, hmax⟩ := overflow_cases f mode sat neg
      · exact absurd (hbits.trans hmax) (hfinite neg le_rfl)
      · exact absurd (hbits.trans hmax) (hinf neg hs)
      · obtain rfl := eq_e4m3 hf hs
        cases neg with
        | false => exact .inl (hbits.trans hmax)
        | true => exact .inr ⟨rfl, hbits.trans hmax, congrArg Prod.snd hover⟩

/-- Rounding leaves what a code stands for as it is (R160). -/
theorem round_val {f : FSpec} (hf : f.Known) (mode : RMode) {b : Nat} (hb : b < 2 ^ f.bits) :
      (∀ sat n m e, f.val b = .fin n m e → f.round mode sat (f.val b) = (b, 0)) ∧
      (∀ n, f.val b = .inf n → f.round mode false (f.val b) = (b, 0)) := by
  obtain ⟨neg, mag, hmag, rfl⟩ := exists_code hb
  by_cases hle : mag ≤ f.maxBits
  · obtain ⟨m, e, hfin⟩ := finite_eq_fin f neg mag
    rw [val_of_le hf neg hle]
    exact ⟨fun sat _ _ _ _ => round_finite f mode sat neg hle, fun n h => by rw [hfin] at h; cases h⟩
  · obtain ⟨hs, hcode⟩ | ⟨signalling, hnan⟩ := val_of_gt hf neg hmag (Nat.lt_of_not_le hle)
    · rw [hcode, val_infBits hs]
      refine ⟨fun _ _ _ _ h => (nomatch h), fun _ _ => ?_⟩
      simp [FSpec.round, hs]
    · rw [hnan]
      exact ⟨fun _ _ _ _ h => (nomatch h), fun _ h => nomatch h⟩

end Sys2Proof.Machine

namespace Sys2Proof.Proofs
open Sys2Proof Sys2Proof.Machine

/-- Settles O9: each mode is the quotient rounded down, up or to the nearest; what rounding gives is finite, an infinity, the default NaN or the result of an
overflow; and a significand that fits the format at its exponent is kept. -/
theorem rounding : Obligations.Rounding := by
  refine ⟨fun neg m d e => ?modes, fun f mode hf => ⟨round_nan (known_of_mem hf) mode, fun b hb => round_val (known_of_mem hf) mode hb⟩⟩
  case modes =>
    have hfloor := floor_bounds m d
    have hceil := ceilDiv_bounds m (Nat.two_pow_pos d)
    intro r
    refine ⟨?rtz, ?rup, ?rdn, roundAt_rne_bounds neg m d e⟩
    case rtz => rwa [show r .rtz = _ from roundAt_rtz neg m d e]
    case rup =>
      rw [show r .rup = _ from roundAt_rup neg m d e]
      cases neg
      · exact hceil
      · exact hfloor
    case rdn =>
      rw [show r .rdn = _ from roundAt_rdn neg m d e]
      cases neg
      · exact hfloor
      · exact hceil

end Sys2Proof.Proofs
end

section
/-! PROOFS. The vector engine (08): arithmetic, O41. -/

namespace Sys2Proof.Machine
open Sys2Proof

/-! ### A pushed command whose engine is idle starts in the next cycle (06 R126-R128, R135) -/

/-- A push of registers that have landed does not wait (06 R123). -/
theorem push_landed {i : Instr} {s : State} {p : PushForm} {forms : List EdgeForm} {c : Command} {last : Word} (hp : pushForm i = some p)
    (hc : s.pushCommand i p forms = some c) (hw : s.cur.awaits p.scalar.toList (p.descrs i s.cur) = false)
    (hr : s.cur.readyAt p.scalar.toList (p.descrs i s.cur) ≤ s.cur.time) (hq : (s.cur.queue p.queue).length < 64) :
    push i forms last s = pushRead c last s := by
  have hload : ¬ s.cur.awaits p.scalar.toList (p.descrs i s.cur) = true := by rw [hw]; exact Bool.false_ne_true
  have hnow : (if s.cur.framed then s.cur.time else s.cur.readyAt p.scalar.toList (p.descrs i s.cur)) ≤ s.cur.time := by split <;> omega
  simp only [push, hp, if_neg (Nat.not_le.mpr hq)]
  refine (if_neg hload).trans ((after_now hnow).trans ?_)
  rw [hc]
  exact reading_landed hw hr _

/-- Outside framed mode no command meets a shadow (08 R175). -/
theorem vecShadow_of_free {u : Unit} (h : u.framed = false) (c : Command) : u.vecShadow c = none := by
  rw [Unit.vecShadow, h, Bool.not_false, Bool.or_true]
  exact if_pos rfl

/-- The unit in the cycle after the push of the command `c`, which stands in its queue, and its word in the window (06 R124, R127). -/
def Unit.queued (u : Unit) (c : Command) (last : Word) : Unit :=
  { u with
    queues := u.queues.set (qidx c.queue) (u.queue c.queue ++ [c]), nextNum := u.nextNum.set (qidx c.queue) (c.num + 1)
    pc := ({ u with pc := last } : Unit).advance.pc, lcount := ({ u with pc := last } : Unit).advance.lcount
    lbody := ({ u with pc := last } : Unit).advance.lbody, time := u.time + 1, justGiven := []
    window := u.window ++ [{
      pc := u.pc, before := u.toSeqRegs, push := some (c.queue, c.num), store := none, load := none, done := u.time + 1 }] }

theorem record_enqueue (u : Unit) (c : Command) (last : Word) :
    u.record ({ u.enqueue c with pc := last } : Unit).advance (some (c.queue, c.num)) none none (u.time + 1) =
      { u.queued c last with time := u.time, justGiven := u.justGiven } := by
  have hadv := advance_eq ({ u.enqueue c with pc := last } : Unit)
  obtain ⟨hpc, hcount, hbody⟩ := advance_congr (u := ({ u with pc := last } : Unit)) (v := { u.enqueue c with pc := last }) rfl rfl rfl rfl
  rw [record_push, hadv, hpc, hcount, hbody]
  rfl

theorem pushed_eq (s : State) (c : Command) (last : Word) :
    s.pushed c last = { s with clock := s.clock + 1, cur := s.cur.queued c last } := by
  rw [State.pushed, record_enqueue]
  rfl

/-- Outside framed mode a push at once leads to that cycle. -/
theorem pushedIn_nextCycle {s : State} (h : s.cur.framed = false) (c : Command) (last : Word) :
    (s.pushedIn 0 c last).nextCycle = s.pushed c last := by
  rw [State.pushedIn, pass_zero, Unit.pushes, h, if_neg Bool.false_ne_true, record_enqueue, pushed_eq]
  rfl

/-- A command's turn comes in a queue that it heads (06 R128). -/
theorem turnQueue_starts {s : State} {c : Command} {q : BitVec 3} {rest : List Command} (hq : s.cur.queue q = c :: rest) (hfree : s.cur.framed = false)
    (htime : s.cur.earliest c + s.throttleDelay c ≤ s.cur.time) (htokens : s.cur.hasTokens c = true) (haccepts : s.accepts c = true) :
    s.turnQueue q = s.start { c with due := 0 } := by
  rw [State.turnQueue, hq]
  simp [hfree, htokens, haccepts, Nat.not_lt.mpr htime]

/-- Where one engine queue alone holds commands, and holds none after its turn, the turns of a cycle are its turn. -/
theorem turnQueues_of_one {s : State} {q : BitVec 3} (hq : q ∈ engineQueues) (hothers : ∀ r, r ≠ q → r ≠ 7 → s.cur.queue r = [])
    (hafter : ∀ r, (s.turnQueue q).cur.queue r = []) : engineQueues.foldl State.turnQueue s = s.turnQueue q := by
  obtain ⟨before, later, hsplit⟩ := List.append_of_mem hq
  have hfirst : q ∉ before := by
    have hnodup : (before ++ q :: later).Nodup := hsplit ▸ by decide
    exact fun hmem => (List.nodup_append.mp hnodup).2.2 q hmem q List.mem_cons_self rfl
  have hbefore : ∀ r ∈ before, s.cur.queue r = [] := fun r hr =>
    hothers r (fun e => hfirst (e ▸ hr)) (engineQueue_ne_seven (by rw [hsplit]; exact List.mem_append_left _ hr))
  rw [hsplit, List.foldl_append, turnQueues_of_empty hbefore, List.foldl_cons, turnQueues_of_empty fun r _ => hafter r]

/-- A cycle in which a command stands in a queue goes through the queues, the commands in flight, the retirements and the commits. -/
theorem settle_of_queued {s : State} {c : Command} {q : BitVec 3} (hprompt : s.prompt = true) (hc : c ∈ s.cur.queue q) :
    s.settle = (((engineQueues.foldl State.turnQueue s).pollAll.retireAll).commit).stuckPush := by
  have hfull : s.cur.queues.all (·.isEmpty) = false := by
    rw [← Bool.not_eq_true, Vector.all_eq_true]
    intro hall
    have hnil := hall (qidx q).val (qidx q).isLt
    rw [List.isEmpty_iff] at hnil
    rw [Unit.queue, Fin.getElem_fin, hnil] at hc
    cases hc
  simp [State.settle, hprompt, hfull]

namespace State.RunsNow
variable {s : State} {i : Instr} {p : PushForm} {c : Command} {last : Word} {forms : List EdgeForm} (h : s.RunsNow i p c last forms)
include h

theorem queue_nil (q : BitVec 3) : s.cur.queue q = [] :=
  List.isEmpty_iff.mp (Vector.all_eq_true.mp h.quiet.queues (qidx q).val (qidx q).isLt)

/-- The push takes its one cycle, and its engines look at the command in the next. -/
theorem exec_settles {rs : List Reg} {ds : List DReg} (hx : s.Executes i rs ds) (hb : s.Bodied i forms last)
    (hw : s.cur.awaits p.scalar.toList (p.descrs i s.cur) = false)
    (hr : s.cur.readyAt p.scalar.toList (p.descrs i s.cur) ≤ s.cur.time) : exec i s = .next (s.pushed c last).settle := by
  have hroom : (s.cur.queue p.queue).length < 64 := by rw [h.queue_nil]; decide
  have hframed : s.cur.framed = true → False := by rw [h.free]; exact Bool.false_ne_true
  rw [exec_pushes h.form hb hx, push_landed h.form h.command hw hr hroom,
    pushRead_pushes (fun hf => (hframed hf).elim) (vecShadow_of_free h.free c)]
  have hlater := executePush_later (s := s) (k := 0) (c := c) (last := last) fun hf => (hframed hf).elim
  rw [pass_zero] at hlater
  have hbanks : ∀ e ∈ (s.pushed c last).myDev.banks, e.2.begun = false := by rw [pushed_eq]; exact h.quiet.banks
  have hmove : (s.pushed c last).endChanges.pump = s.pushed c last := by
    rw [endChanges_of_none_begun hbanks, pump_of_none_travels (by rw [pushed_eq]; exact h.quiet.classes) (by rw [pushed_eq]; exact h.quiet.flows)]
  rw [hlater, tick_eq, pushedIn_nextCycle h.free, hmove]

end State.RunsNow

/-! ### What the engine does with the head of a queue (06 R128, 16 R289) -/

/-- What stands in flight for a command that has just left its queue (05 R99, 06 R132). -/
def Command.launched (c : Command) (start : Nat) : Inflight :=
  { command := c, replies := [], flags := 0, trace := c.trace, waiting := false, todo := true, got := [], until_ := 0, feed := start, fed := start,
    former := [], reads := [], gives := c.head.give, formerAcc := none }

theorem regenerated_of_fresh {s : State} {c : Command} (h : c.started = false) : s.regenerated c = c := by
  rw [State.regenerated, h]
  exact if_neg Bool.false_ne_true

/-- A starting command may take a release along, and nothing else of it or of the unit moves (16 R295). -/
theorem carry_eq (u : Unit) (c : Command) : ∃ handed carrier, u.carry c = ({ u with handed := handed }, { c with carrier := carrier }) := by
  rw [Unit.carry]
  split
  · exact ⟨u.handed, c.carrier, rfl⟩
  · exact ⟨_, _, rfl⟩

theorem takeTokens_eq (u : Unit) (c : Command) : ∃ tokens, u.takeTokens c = { u with tokens := tokens } := by
  have hfold : ∀ (l : List (BitVec 3)) (v : Unit), ∃ tokens,
      l.foldl (fun (w : Unit) x => w.setFifo x c.queue (w.fifo x c.queue - 1)) v = { v with tokens := tokens } := by
    intro l
    induction l with
    | nil => exact fun v => ⟨v.tokens, rfl⟩
    | cons x l ih => exact fun v => ih (v.setFifo x c.queue (v.fifo x c.queue - 1))
  rw [Unit.takeTokens]
  split
  · exact ⟨u.tokens, rfl⟩
  · exact hfold _ u

theorem vecLand_eq (u : Unit) (c : Command) (start : Nat) : ∃ vready mready, u.vecLand c start = { u with vready := vready, mready := mready } := by
  rw [Unit.vecLand]
  split
  · exact ⟨u.vready, u.mready, rfl⟩
  · exact ⟨_, _, rfl⟩

/-- The unit once a command has left its queue for its engine, but for its tokens, the permute slot and the landing of what it writes (06 R128). -/
def Unit.starts (u : Unit) (c : Command) (start : Nat) : Unit :=
  { u with
    queues := u.queues.set (qidx c.queue) ((u.queue c.queue).drop 1), lastStart := u.lastStart.set (qidx c.queue) start
    fresh := u.fresh.set (qidx c.queue) false, inflight := u.inflight ++ [c.launched start] }

/-- A command that starts for the first time and makes no ordered access leaves its queue for its engine. -/
theorem launch_eq {u : Unit} {c : Command} (start : Nat) (hfresh : c.started = false) (horder : c.ordered = false) (hmeet : u.waitingAt = 0)
    (hq : c.queue ≠ 0) : ∃ tokens permute vready mready, u.launch c start =
      { u.starts c start with tokens := tokens, permute := permute, vready := vready, mready := mready } := by
  obtain ⟨tokens, htokens⟩ := takeTokens_eq u c
  have hwait : (u.waitingAt == c.queue) = false := by rw [hmeet]; exact beq_eq_false_iff_ne.mpr hq.symm
  have hlaunch : ∃ permute, u.launch c start = Unit.vecLand { u.starts c start with tokens := tokens, permute := permute } c start := by
    simp only [Unit.launch, htokens, hfresh, horder, hwait, Bool.false_and, Bool.false_eq_true, if_false]
    exact ⟨_, rfl⟩
  obtain ⟨permute, hlaunch⟩ := hlaunch
  obtain ⟨vready, mready, hland⟩ := vecLand_eq { u.starts c start with tokens := tokens, permute := permute } c start
  exact ⟨tokens, permute, vready, mready, hlaunch.trans hland⟩

/-- Alone in the window, the word of a push commits once its command has left its queue (06 R124). -/
theorem commit_push {s : State} {e : WinEntry} {q : BitVec 3} {n : BitVec 32} (hw : s.cur.window = [e]) (hpush : e.push = some (q, n))
    (hstore : e.store = none) (hload : e.load = none) (hdone : e.done ≤ s.cur.time) (hqueue : s.cur.queue q = []) :
    s.commit = { s with cur := { s.cur with window := [], committed := s.cur.committed + 1 } } := by
  have hloads : s.makeLoads = s := by simp [State.makeLoads, hw, hload]
  have hnone : ∀ t : State, commitAll 0 t = t := fun _ => rfl
  rw [State.commit, hw, List.length_singleton, commitAll, hloads, State.commitOldest, hw]
  simp [Unit.canCommit, State.storeHeld, State.storeFits, hpush, hstore, hload, hdone, hqueue, hnone]

/-- The unit `w` is `u` once the command `c` has started for the first time and its word, alone in the window, has committed (06 R124, R128). -/
def Unit.Launches (u w : Unit) (c : Command) (start : Nat) : Prop :=
  ∃ tokens handed permute vready mready, w =
    { u.starts c start with
      tokens := tokens, handed := handed, permute := permute, vready := vready, mready := mready, window := [], committed := u.committed + 1 }

theorem inflight?_launched {w : Unit} {c : Command} {start : Nat} (h : w.inflight = [c.launched start]) :
    w.inflight? c.queue c.num = some (c.launched start) := inflight?_alone h

/-- A started command that makes no ordered access runs at once (16 R289). -/
theorem poll_launched {s : State} {c : Command} {start : Nat} (h : c.ordered = false) : s.poll (c.launched start) = s.runStarted (c.launched start) := by
  have hmay : s.mayRun (c.launched start).command = true := by
    rw [State.mayRun, show (c.launched start).command.ordered = false from h]; rfl
  rw [State.poll, hmay]
  rfl

/-- A command that makes no ordered access starts: it leaves its queue, its word commits, and it runs at once (06 R124, R128). -/
theorem start_eq {s : State} {c : Command} {e : WinEntry} (hclash : s.phaseClash c = none) (hfresh : c.started = false) (horder : c.ordered = false)
    (hmeet : s.cur.waitingAt = 0) (hq : c.queue ≠ 0) (hlast : (s.cur.queue c.queue).drop 1 = []) (hidle : s.cur.inflight = []) (hw : s.cur.window = [e])
    (hpush : e.push = some (c.queue, c.num)) (hstore : e.store = none) (hload : e.load = none) (hdone : e.done ≤ s.cur.time) :
    ∃ carrier w, s.cur.Launches w { c with carrier := carrier } (max s.cur.time c.due) ∧
      s.start c = ({ s with cur := w } : State).runStarted (Command.launched { c with carrier := carrier } (max s.cur.time c.due)) := by
  obtain ⟨handed, carrier, hcarry⟩ := carry_eq s.cur c
  have horder' : Command.ordered { c with carrier := carrier } = false := horder
  obtain ⟨tokens, permute, vready, mready, hlaunch⟩ := launch_eq (u := { s.cur with handed := handed }) (c := { c with carrier := carrier })
    (max s.cur.time c.due) hfresh horder' hmeet hq
  generalize hv : Unit.launch { s.cur with handed := handed } { c with carrier := carrier } (max s.cur.time c.due) = v at hlaunch
  have hempty : v.queue c.queue = [] := by
    have hset : v.queues = s.cur.queues.set (qidx c.queue) ((s.cur.queue c.queue).drop 1) := by rw [hlaunch]; rfl
    rw [Unit.queue, hset, Fin.getElem_fin, Vector.getElem_set_self, hlast]
  have hcommit := commit_push (s := { s with cur := v }) (e := e) (by rw [hlaunch]; exact hw) hpush hstore hload (by rw [hlaunch]; exact hdone) hempty
  have hin : v.inflight = [Command.launched { c with carrier := carrier } (max s.cur.time c.due)] := by
    rw [hlaunch]
    exact congrArg (· ++ [Command.launched { c with carrier := carrier } (max s.cur.time c.due)]) hidle
  refine ⟨carrier, { v with window := [], committed := v.committed + 1 }, ⟨tokens, handed, permute, vready, mready, by rw [hlaunch]; rfl⟩, ?_⟩
  rw [State.start, hclash, regenerated_of_fresh hfresh, hcarry]
  dsimp only
  rw [hv, hcommit]
  dsimp only
  rw [inflight?_launched (c := { c with carrier := carrier }) (w := { v with window := [], committed := v.committed + 1 }) hin]
  dsimp only
  rw [poll_launched horder', horder', Bool.not_false, Bool.or_true]
  rfl

/-! ### A V command that names no descriptor (08 R172, R175) -/

/-- A word of class 6 or 7 that names no descriptor, nor a scalar register. -/
def BareWord (i : Instr) : Prop := ∃ h f, pushForm i = some { pushForm0 h 4 with fmt := f }

/-- A fresh V command as its push captures it where its word names no descriptor: it has no operand, and reaches nothing but registers. -/
structure Command.Bare (c : Command) : Prop where
  form     : BareWord c.instr
  queue    : c.queue = 4
  fresh    : c.started = false
  empty    : c.empty = false
  da       : c.da = 0
  db       : c.db = 0
  dc       : c.dc = 0
  flags    : c.flags = 0

theorem vecLatency_pos (i : Instr) (f : BitVec 4) (d : Desc) : 0 < vecLatency i f d := by
  have hite : ∀ {p : Prop} [Decidable p] {x y : Nat}, 0 < x → 0 < y → 0 < if p then x else y := fun hx hy => by split <;> assumption
  unfold vecLatency
  extract_lets by3
  have hby3 : ∀ {x y z : Nat}, 0 < x → 0 < y → 0 < z → 0 < by3 x y z := fun hx hy hz => hite hx (hite hz hy)
  split <;> simp [hby3, hite]

namespace Command.Bare
variable {c : Command} (h : c.Bare)
include h

theorem operands : c.operands = [] := by
  obtain ⟨hd, f, hform⟩ := h.form
  rw [Command.operands, hform]
  simp only [pushForm0, Option.isSome_none, Bool.false_eq_true, if_false, List.nil_append]
  split
  case h_5 => rfl
  all_goals rename_i hi; rw [hi] at hform; simp [pushForm, pushForm0] at hform

theorem ordered : c.ordered = false := by
  obtain ⟨hd, f, hform⟩ := h.form
  rw [Command.ordered, h.operands]
  split
  case h_12 => exact Bool.and_false _
  all_goals rename_i hi; rw [hi] at hform; simp [pushForm, pushForm0] at hform

theorem usesAcc : c.usesAcc = false := by rw [Command.usesAcc, h.operands]; rfl

theorem startTrap (s : State) : s.startTrap c = .ok s := by
  have hdesc : (dSpace 0#256 != spRing) = true := by decide
  have htouch : ∀ t : State, t.touchRing 0#256 = some t := fun t => by rw [State.touchRing, hdesc]; rfl
  simp [State.startTrap, h.queue, h.empty, h.da, h.db, htouch]

/-- With no command of another queue in flight, nothing races with what it writes (08 R176). -/
theorem racing {s t : State} {f : State → Ran} {rs : List Word} {g : Flags}
    (halone : ∀ y ∈ s.cur.inflight, y.command.queue = 4) (hf : f s = .done t rs g) :
    ∃ former : Inflight → List (Nat × BitVec 4096), s.racing c f =
      .done { t with cur := t.cur.onInflight c.queue c.num fun y => { y with former := former y } } rs g := by
  have hnone : (s.cur.inflight.filter fun y => y.command.queue != c.queue) = [] :=
    List.filter_eq_nil_iff.mpr fun y hy => by simp [halone y hy, h.queue]
  have hraces : s.cur.races c = [] := by rw [Unit.races, hnone]; rfl
  have hacc : s.cur.accRaces c = [] := by rw [Unit.accRaces, h.usesAcc]; rfl
  simp only [State.racing, hraces, hacc, List.isEmpty_nil, Bool.and_self, if_true, hf, Ran.mapState, List.zipIdx_nil, List.foldl_nil, h.usesAcc,
    Bool.false_and, Bool.false_eq_true, if_false]
  exact ⟨_, rfl⟩

end Command.Bare

/-- What is in flight once the command `c` has run since the cycle `start`: it owes these reply entries and flags, and retires in a later cycle
(06 R132, 07 R159, 08 R175). -/
structure Inflight.HasRun (y : Inflight) (c : Command) (start : Nat) (replies : List Word) (flags : Flags) : Prop where
  command : y.command = c
  replies : y.replies = replies
  flags   : y.flags = flags
  waiting : y.waiting = false
  todo    : y.todo = false
  later   : start < y.until_

theorem onInflight_alone {u : Unit} {y : Inflight} (h : u.inflight = [y]) (f : Inflight → Inflight) :
    u.onInflight y.command.queue y.command.num f = { u with inflight := [f y] } := by
  simp [Unit.onInflight, h]

/-- A command alone in flight has done all it has to do, and waits for its cycles to pass (05 R99, 06 R132). -/
theorem conclude_done {before s : State} {y : Inflight} (hin : s.cur.inflight = [y]) (hclass : s.cur.classQ = []) (replies : List Word) (f : Flags) :
    before.conclude y.command (.done s replies f) = { s with cur := { s.cur with inflight := [{ y with
      replies := y.replies ++ replies, flags := y.flags ||| f ||| y.command.flags, waiting := false, todo := false,
      until_ := (before.finish s y.command y.feed none).at_, feed := (before.finish s y.command y.feed none).feed,
      fed := (before.finish s y.command y.feed none).fed }] } } := by
  have hdrop : ∀ l, ({ s.cur with inflight := l } : Unit).dropPlace y.command = { s.cur with inflight := l } := fun l => by
    simp [Unit.dropPlace, hclass]
  rw [State.conclude]
  dsimp only
  rw [inflight?_alone hin, onInflight_alone hin, hdrop]

namespace Command.Bare
variable {c : Command} (h : c.Bare)
include h

theorem finish_later (before : State) {s : State} {start : Nat} {y : Inflight} (hin : s.cur.inflight = [y]) (hy : y.command = c) :
    start < (before.finish s c start none).at_ := by
  have hearlier : (s.cur.inflight.takeWhile fun y => !(y.command.queue == 4 && y.command.num == c.num)) = [] := by
    simp [hin, hy, h.queue]
  have hdone : ∀ n, s.cur.vecDone c n = n := fun n => by rw [Unit.vecDone, hearlier]; rfl
  have hpos := vecLatency_pos c.instr c.fmt (if dSpace c.da = 0 then c.db else c.da)
  simp only [State.finish, h.empty, h.queue, Bool.false_eq_true, if_false]
  exact (hdone _).symm ▸ Nat.lt_add_of_pos_right hpos

/-- Alone in flight, the command runs as `runVector` says, and stays in flight until its results have landed (08 R175). -/
theorem runStarted {s : State} {start : Nat} {v : Vector (BitVec 4096) 64} {m : Vector Word 8} {replies : List Word} {flags : Flags}
    (hin : s.cur.inflight = [c.launched start]) (hclass : s.cur.classQ = [])
    (hrun : ∀ w : State, w.cur.v = s.cur.v → w.cur.m = s.cur.m →
      runVector w c = .done { w with cur := { w.cur with v := v, m := m } } replies flags) :
    ∃ y, Inflight.HasRun y c start replies flags ∧
      s.runStarted (c.launched start) = { s with cur := { s.cur with v := v, m := m, inflight := [y] } } := by
  let w : State := { s with cur := { s.cur with phase := c.phase } }
  have hcommand : runCommand w c = .done { w with cur := { w.cur with v := v, m := m } } replies flags := by
    rw [runCommand, h.empty, if_neg Bool.false_ne_true, h.queue]
    exact hrun w rfl rfl
  have halone : ∀ y ∈ w.cur.inflight, y.command.queue = 4 := by
    intro y hy
    rw [show w.cur.inflight = _ from hin, List.mem_singleton] at hy
    rw [hy]
    exact h.queue
  obtain ⟨former, hracing⟩ := h.racing (f := fun s => runCommand s c) halone hcommand
  let y : Inflight := { c.launched start with former := former (c.launched start) }
  let r : State := { w with cur := { w.cur with v := v, m := m, inflight := [y] } }
  have hran : w.racing c (fun s => runCommand s c) = .done r replies flags := by
    rw [hracing]
    exact congrArg (fun u => Ran.done { w with cur := u } replies flags) (onInflight_alone (u := { w.cur with v := v, m := m }) hin _)
  have hconclude := conclude_done (before := w) (s := r) (y := y) rfl hclass replies flags
  refine ⟨{ y with
      replies := y.replies ++ replies, flags := y.flags ||| flags ||| y.command.flags, waiting := false, todo := false,
      until_ := (w.finish r y.command y.feed none).at_, feed := (w.finish r y.command y.feed none).feed,
      fed := (w.finish r y.command y.feed none).fed }, ?_, ?_⟩
  · exact {
      command := rfl, replies := List.nil_append replies, waiting := rfl, todo := rfl
      flags := by show 0#5 ||| flags ||| c.flags = flags; simp [h.flags]
      later := h.finish_later w (s := r) (y := y) rfl rfl }
  · rw [State.runStarted, State.inPhase]
    dsimp only
    rw [show (c.launched start).command = c from rfl, h.startTrap]
    dsimp only
    rw [show State.racing _ c _ = _ from hran, show State.conclude _ c _ = _ from hconclude]
    rfl

end Command.Bare

theorem extraReg_of_bare {i : Instr} (h : BareWord i) (a b c : Desc) : extraReg i a b c = none := by
  obtain ⟨hd, f, hform⟩ := h
  unfold extraReg
  split
  case h_5 => rfl
  all_goals simp [pushForm, pushForm0] at hform

theorem hasMicro_of_bare {i : Instr} (h : BareWord i) : hasMicro i = false := by
  obtain ⟨hd, f, hform⟩ := h
  unfold hasMicro
  split
  case h_9 => rfl
  all_goals simp [pushForm, pushForm0] at hform

/-- The command of such a word. -/
theorem bare_of_push {s : State} {i : Instr} {p : PushForm} {forms : List EdgeForm} {c : Command} (h : BareWord i) (hp : pushForm i = some p)
    (hc : s.pushCommand i p forms = some c) : c.Bare := by
  obtain ⟨hd, f, hform⟩ := id h
  obtain rfl : p = { pushForm0 hd 4 with fmt := f } := Option.some.inj (hp.symm.trans hform)
  simp only [State.pushCommand, pushForm0, Unit.snapshot, extraReg_of_bare h, hasMicro_of_bare h] at hc
  split at hc
  case h_2 => cases hc
  rename_i hf ha hb hc'
  cases ha; cases hb; cases hc'
  split at hc
  case h_2 => cases hc
  rename_i hx hm
  cases hx; cases hm
  obtain ⟨-, hc⟩ := Option.ite_none_left_eq_some.mp hc
  obtain ⟨-, hc⟩ := Option.ite_none_left_eq_some.mp hc
  obtain ⟨-, hc⟩ := Option.ite_none_left_eq_some.mp hc
  obtain ⟨-, hc⟩ := Option.ite_none_left_eq_some.mp hc
  cases hc
  have hda : dWithMicro 0 (dMicro 0) = 0 := by decide
  exact { form := h, queue := rfl, fresh := rfl, empty := rfl, da := hda, db := rfl, dc := rfl, flags := rfl }

/-- What the V commands of instruction `i` in format `f` do where they find the vector and mask registers of `s`: they leave `v` and `m`,
and owe these reply entries and flags. -/
def State.Computes (s : State) (i : Instr) (f : BitVec 4) (v : Vector (BitVec 4096) 64) (m : Vector Word 8) (replies : List Word)
    (flags : Flags) : Prop :=
  ∀ (w : State) (k : Command), w.cur.v = s.cur.v → w.cur.m = s.cur.m → k.instr = i → k.fmt = f →
    runVector w k = .done { w with cur := { w.cur with v := v, m := m } } replies flags

/-- How the machine `t` in the cycle after the push of the bare word of the command `c` differs from the machine `s` before it: it holds
the vector and mask registers `v` and `m`, the command has run and is alone in flight, and the sequencer has gone on (06 R126-R128, 08 R172, R175). -/
structure State.RanBare (s t : State) (c : Command) (v : Vector (BitVec 4096) 64) (m : Vector Word 8) (replies : List Word)
    (flags : Flags) : Prop where
  vectors : t.cur.v = v
  masks   : t.cur.m = m
  hasRun  : t.HasRun c replies (· = flags)
  next    : s.NextWord t
  only    : s.OnlyVectors t

theorem queue_queued (u : Unit) {c : Command} {last : Word} {q : BitVec 3} (hc : c.queue ≠ 7) (hq : q ≠ 7) :
    (u.queued c last).queue q = if q = c.queue then u.queue q ++ [c] else u.queue q := queue_set_append u c hc hq

/-- A queue that the unit's push has filled and its start has emptied is as it was. -/
theorem set_set_nil {qs : Vector (List Command) 7} {k : Fin 7} (l : List Command) (h : qs[k] = []) : (qs.set k l).set k [] = qs := by
  ext1 j hj
  rw [Vector.set_set, Vector.getElem_set]
  split
  · subst_vars; exact h.symm
  · rfl

namespace State.RunsNow
variable {s : State} {i : Instr} {p : PushForm} {c : Command} (h : s.RunsNow i p c s.cur.pc [])
include h

/-- The push of a word that names no register waits for nothing (06 R123). -/
theorem exec_bare (hb : BareWord i) (hx : s.Executes i [] []) : exec i s = .next (s.pushed c s.cur.pc).settle := by
  obtain ⟨hd, f, hform⟩ := id hb
  obtain rfl : p = { pushForm0 hd 4 with fmt := f } := Option.some.inj (h.form.symm.trans hform)
  have hbody : s.Bodied i [] s.cur.pc :=
    { binds := fun ⟨_, _, _, hbind⟩ => by subst hbind; simp [pushForm, pushForm0] at hform
      alone := fun _ => ⟨rfl, rfl⟩ }
  have hreads : PushForm.descrs { pushForm0 hd 4 with fmt := f } i s.cur = [] := by
    rw [PushForm.descrs, extraReg_of_bare hb]; rfl
  refine h.exec_settles hx hbody ?_ ?_
  · rw [hreads]
    simp [pushForm0, Unit.awaits]
  · rw [hreads]
    exact Nat.zero_le _

theorem queue_pushed (hc : c.queue ≠ 7) {q : BitVec 3} (hq : q ≠ 7) :
    (s.pushed c s.cur.pc).cur.queue q = if q = c.queue then [c] else [] := by
  rw [pushed_eq]
  refine (queue_queued s.cur hc hq).trans ?_
  rw [h.queue_nil]
  rfl

/-- In the cycle after its push the command's turn comes, and it starts (06 R128). -/
theorem turnQueue_pushed (hc : c.queue ≠ 7) (hfresh : c.started = false) :
    (s.pushed c s.cur.pc).turnQueue c.queue = (s.pushed c s.cur.pc).start { c with due := 0 } := by
  have hcap := captures h.command
  have hhead : c.head = p.head := by rw [Command.head, hcap.instr, h.form]
  have hqueue : (s.pushed c s.cur.pc).cur.queue c.queue = [c] := by rw [h.queue_pushed hc hc, if_pos rfl]
  have htokens : (s.pushed c s.cur.pc).cur.hasTokens c = true := by
    rw [pushed_eq, Unit.hasTokens, hhead, hcap.queue, hfresh, Bool.false_or, List.all_eq_true]
    exact fun x hx => decide_eq_true (h.tokens x hx)
  refine turnQueue_starts hqueue ?_ ?_ htokens h.accepts
  · rw [pushed_eq]; exact h.free
  · rw [pushed_eq]; exact h.start

/-- The cycle ends as the start leaves it, where the command has run and is to retire later. -/
theorem settle_pushed (hc : c.queue ≠ 7) (hfresh : c.started = false) {t : State} {y : Inflight}
    (hstart : (s.pushed c s.cur.pc).start { c with due := 0 } = t) (halone : t.EndsAlone y) (hempty : ∀ q, t.cur.queue q = [])
    (hlater : t.cur.time < y.until_) : (s.pushed c s.cur.pc).settle = t := by
  have hturn : (s.pushed c s.cur.pc).turnQueue c.queue = t := by rw [h.turnQueue_pushed hc hfresh, hstart]
  have hprompt : (s.pushed c s.cur.pc).prompt = true := by rw [pushed_eq]; exact h.prompt
  have hqueue : (s.pushed c s.cur.pc).cur.queue c.queue = [c] := by rw [h.queue_pushed hc hc, if_pos rfl]
  have hmem : c ∈ (s.pushed c s.cur.pc).cur.queue c.queue := by rw [hqueue]; exact List.mem_singleton_self c
  have hengine : c.queue ∈ engineQueues := by rw [(captures h.command).queue]; exact pushForm_queue_mem h.form
  have hothers : ∀ r, r ≠ c.queue → r ≠ 7 → (s.pushed c s.cur.pc).cur.queue r = [] := fun r hne hr => by rw [h.queue_pushed hc hr, if_neg hne]
  rw [settle_of_queued hprompt hmem, turnQueues_of_one hengine hothers (by rwa [hturn]), hturn, halone.pollAll, halone.retireAll_before_end hlater,
    commit_of_window_nil halone.window, stuckPush_of_window_nil halone.window]

section
variable {v : Vector (BitVec 4096) 64} {m : Vector Word 8} {replies : List Word} {flags : Flags} (hbare : c.Bare)
  (hrun : s.Computes i c.fmt v m replies flags)
include hbare hrun

/-- The command of a bare word, started and run (06 R124, R128). -/
theorem start_bare : ∃ carrier w y, (s.cur.queued c s.cur.pc).Launches w { c with due := 0, carrier := carrier } (s.cur.time + 1) ∧
    Inflight.HasRun y { c with due := 0, carrier := carrier } (s.cur.time + 1) replies flags ∧
    (s.pushed c s.cur.pc).start { c with due := 0 } = { s with clock := s.clock + 1, cur := { w with v := v, m := m, inflight := [y] } } := by
  have hc7 : c.queue ≠ 7 := by rw [hbare.queue]; decide
  have hbare' : ∀ carrier, Command.Bare { c with due := 0, carrier := carrier } := fun _ =>
    ⟨hbare.form, hbare.queue, hbare.fresh, hbare.empty, hbare.da, hbare.db, hbare.dc, hbare.flags⟩
  have hqueue : (s.pushed c s.cur.pc).cur.queue c.queue = [c] := by rw [h.queue_pushed hc7 hc7, if_pos rfl]
  have htime : (s.pushed c s.cur.pc).cur.time = s.cur.time + 1 := by rw [pushed_eq]; rfl
  obtain ⟨carrier, w, hlaunch, hstart⟩ := start_eq (s := s.pushed c s.cur.pc) (c := { c with due := 0 })
    (e := { pc := s.cur.pc, before := s.cur.toSeqRegs, push := some (c.queue, c.num), store := none, load := none, done := s.cur.time + 1 })
    h.noClash hbare.fresh (hbare' c.carrier).ordered (by rw [pushed_eq]; exact h.meets) (by rw [show (_ : BitVec 3) = _ from hbare.queue]; decide)
    (by rw [hqueue]; rfl) (by rw [pushed_eq]; exact h.quiet.engines) (by rw [pushed_eq]; exact congrArg (· ++ _) h.window) rfl rfl rfl
    (Nat.le_of_eq htime.symm)
  rw [htime, Nat.max_eq_left (Nat.zero_le _)] at hlaunch hstart
  rw [pushed_eq s] at hlaunch
  obtain ⟨tokens, handed, permute, vready, mready, hw⟩ := id hlaunch
  have hinflight : w.inflight = [Command.launched { c with due := 0, carrier := carrier } (s.cur.time + 1)] := by
    rw [hw]
    exact congrArg (· ++ [_]) h.quiet.engines
  have hregs : w.v = s.cur.v ∧ w.m = s.cur.m ∧ w.classQ = [] := by
    rw [hw]
    exact ⟨rfl, rfl, h.quiet.classes⟩
  obtain ⟨hv, hm, hclass⟩ := hregs
  obtain ⟨y, hy, hran⟩ := (hbare' carrier).runStarted (s := { s.pushed c s.cur.pc with cur := w }) hinflight hclass
    fun x hxv hxm => hrun x _ (hxv.trans hv) (hxm.trans hm) (captures h.command).instr rfl
  exact ⟨carrier, w, y, hlaunch, hy, by rw [hstart.trans hran, pushed_eq]⟩

/-- The cycle ends with the command in flight, and its results due later. -/
theorem settle_bare : s.RanBare (s.pushed c s.cur.pc).settle c v m replies flags := by
  have hc7 : c.queue ≠ 7 := by rw [hbare.queue]; decide
  obtain ⟨carrier, w, y, ⟨tokens, handed, permute, vready, mready, rfl⟩, hy, hstart⟩ := h.start_bare hbare hrun
  generalize ht : ({ s with clock := s.clock + 1, cur := _ } : State) = t at hstart
  have hqueues : t.cur.queues = s.cur.queues := by
    have hset : t.cur.queues = (s.cur.queues.set (qidx c.queue) (s.cur.queue c.queue ++ [c])).set (qidx c.queue)
        (((s.cur.queued c s.cur.pc).queue c.queue).drop 1) := by rw [← ht]; rfl
    rw [hset, queue_queued s.cur hc7 hc7, if_pos rfl, h.queue_nil]
    exact set_set_nil _ (h.queue_nil c.queue)
  have hempty : ∀ q, t.cur.queue q = [] := fun q => by rw [Unit.queue, hqueues]; exact h.queue_nil q
  have halone : t.EndsAlone y := by
    refine ⟨?_, ?_, ?_, fun q _ => hempty q, hy.waiting, hy.todo⟩ <;> rw [← ht]
    exact h.prompt
  have htime : t.cur.time = s.cur.time + 1 := by rw [← ht]; rfl
  have hlater : t.cur.time < y.until_ := by rw [htime]; exact hy.later
  rw [h.settle_pushed hc7 hbare.fresh hstart halone hempty hlater]
  refine ⟨?vectors, ?masks, ⟨y, halone.inflight, ?_, ?_, ?_, hy.replies, hy.flags, hy.waiting, hy.todo, hlater⟩, ?next, ?only,
    ?committed, htime, ?memory⟩
  case vectors => rw [← ht]
  case masks => rw [← ht]
  case next => rw [← ht]; exact ⟨rfl, rfl, rfl⟩
  case only =>
    have hsame : t = { t with cur := { t.cur with queues := s.cur.queues, window := s.cur.window } } := by
      rw [← hqueues, h.window, ← halone.window]
    refine hsame.trans ?_
    rw [← ht]
    rfl
  case committed => rw [← ht]; rfl
  case memory => rw [← ht]; exact fun _ _ => rfl
  all_goals rw [hy.command]

end

/-- A bare word, its engine idle, runs in the cycle after its push. -/
theorem bare_runs (hb : BareWord i) (hx : s.Executes i [] []) {v : Vector (BitVec 4096) 64} {m : Vector Word 8}
    {replies : List Word} {flags : Flags} (hrun : s.Computes i c.fmt v m replies flags) : ∃ t, exec i s = .next t ∧ s.RanBare t c v m replies flags :=
  ⟨_, h.exec_bare hb hx, h.settle_bare (bare_of_push hb h.form h.command) hrun⟩

end State.RunsNow

/-! ### Elements of a vector register (08 R172, R173) -/

theorem vElem_eq (w : Nat) (x : BitVec 4096) (k : Nat) : vElem w x k = element w x k := fld_eq x (w * k) w

theorem toNat_ofNat_of_lt {n x : Nat} (h : x < 2 ^ n) : (BitVec.ofNat n x).toNat = x := (BitVec.toNat_ofNat x n).trans (Nat.mod_eq_of_lt h)

/-- The number that a register's elements make up, element 0 lowest. -/
def packed (w : Nat) (xs : List Nat) : Nat := xs.foldr (fun x acc => x % 2 ^ w + 2 ^ w * acc) 0

theorem vOf_eq (w : Nat) (xs : List Nat) : vOf w xs = BitVec.ofNat 4096 (packed w xs) := rfl

theorem packed_lt (w : Nat) (xs : List Nat) : packed w xs < 2 ^ (w * xs.length) := by
  induction xs with
  | nil => exact Nat.one_pos
  | cons x xs ih =>
    have hx : x % 2 ^ w < 2 ^ w := Nat.mod_lt x (Nat.two_pow_pos w)
    calc packed w (x :: xs) = x % 2 ^ w + 2 ^ w * packed w xs := rfl
      _ < 2 ^ w * (packed w xs + 1) := by rw [Nat.mul_succ]; omega
      _ ≤ 2 ^ w * 2 ^ (w * xs.length) := Nat.mul_le_mul_left _ ih
      _ = 2 ^ (w * (x :: xs).length) := by rw [← pow_add, List.length_cons, Nat.mul_succ, Nat.add_comm]

theorem packed_div_mod (w : Nat) (xs : List Nat) (k : Nat) : packed w xs / 2 ^ (w * k) % 2 ^ w = xs.getD k 0 % 2 ^ w := by
  induction xs generalizing k with
  | nil => simp [packed]
  | cons x xs ih =>
    have hcons : packed w (x :: xs) = x % 2 ^ w + 2 ^ w * packed w xs := rfl
    cases k with
    | zero => simp [hcons]
    | succ k =>
      have hdiv : (x % 2 ^ w + 2 ^ w * packed w xs) / 2 ^ w = packed w xs := by
        rw [Nat.add_mul_div_left _ _ (Nat.two_pow_pos w), Nat.div_eq_of_lt (Nat.mod_lt x (Nat.two_pow_pos w)), Nat.zero_add]
      rw [hcons, Nat.mul_succ, Nat.add_comm (w * k) w, pow_add, ← Nat.div_div_eq_div_mul, hdiv, ih, List.getD_cons_succ]

theorem element_vOf {w : Nat} {xs : List Nat} (h : w * xs.length ≤ 4096) (k : Nat) : element w (vOf w xs) k = xs.getD k 0 % 2 ^ w := by
  have hlt : packed w xs < 2 ^ 4096 := (packed_lt w xs).trans_le (pow_le_pow_right₀ one_le_two h)
  rw [element, vOf_eq, toNat_ofNat_of_lt hlt, packed_div_mod]

/-- The elements of a register count modulo their width. -/
theorem vOf_congr {w : Nat} {α : Type} {l : List α} {f g : α → Nat} (h : ∀ x ∈ l, f x % 2 ^ w = g x % 2 ^ w) :
    vOf w (l.map f) = vOf w (l.map g) := by
  simp only [vOf, List.foldr_map]
  rw [List.foldr_ext _ _ 0 fun x hx acc => by rw [h x hx]]

/-! ### A register written element by element (08 R173) -/

theorem getLsbD_foldl_or {α : Type} (l : List α) (flags : α → Flags) (init : Flags) (b : Nat) :
    (l.foldl (fun g x => g ||| flags x) init).getLsbD b = true ↔ init.getLsbD b = true ∨ ∃ x ∈ l, (flags x).getLsbD b = true := by
  induction l generalizing init with
  | nil => simp
  | cons x l ih => simp [ih, or_assoc]

/-- What a map gives at place `k`: the value there where the element is active, else the element as it was, with no flag. -/
def laneValue (w : Nat) (mask : Word) (old : BitVec 4096) (f : Nat → Nat × Flags) (k : Nat) : Nat × Flags :=
  if laneOn mask w k then f k else (vElem w old k, 0)

theorem vMap_eq (w : Nat) (mask : Word) (old : BitVec 4096) (f : Nat → Nat × Flags) : vMap w mask old f =
    (vOf w ((List.range (vCount w)).map fun k => (laneValue w mask old f k).1),
      (List.range (vCount w)).foldl (fun g k => g ||| (laneValue w mask old f k).2) 0) := by
  rw [vMap, List.map_map, List.foldl_map]
  rfl

theorem laneValue_active {w : Nat} {mask : Word} {k : Nat} (h : mask.getLsbD (w * k / 64) = true) (old : BitVec 4096) (f : Nat → Nat × Flags) :
    laneValue w mask old f k = f k := if_pos h

theorem laneValue_inactive {w : Nat} {mask : Word} {k : Nat} (h : ¬ mask.getLsbD (w * k / 64) = true) (old : BitVec 4096) (f : Nat → Nat × Flags) :
    laneValue w mask old f k = (element w old k, 0) := (if_neg h).trans (by rw [vElem_eq])

/-- An active element receives its value, and an inactive one keeps its own. -/
theorem element_vMap (w : Nat) (mask : Word) (old : BitVec 4096) (f : Nat → Nat × Flags) {k : Nat} (hk : k < 4096 / w) :
    element w (vMap w mask old f).1 k = if mask.getLsbD (w * k / 64) then (f k).1 % 2 ^ w else element w old k := by
  rw [vMap_eq, element_vOf (by simpa [vCount] using Nat.mul_div_le 4096 w), vCount]
  simp only [List.getD_eq_getElem?_getD, List.getElem?_map, List.getElem?_range hk, Option.map_some, Option.getD_some]
  split
  · next hon => rw [laneValue_active hon]
  · next hoff => rw [laneValue_inactive hoff]; exact Nat.mod_mod _ _

/-- The flags raised are those of the active elements. -/
theorem flagsOf_vMap (w : Nat) (mask : Word) (old : BitVec 4096) (f : Nat → Nat × Flags) :
    FlagsOf (fun k => mask.getLsbD (w * k / 64) = true) (4096 / w) (fun k => (f k).2) (vMap w mask old f).2 := by
  intro b
  have hflags : ∀ k, (laneValue w mask old f k).2.getLsbD b = true ↔ mask.getLsbD (w * k / 64) = true ∧ (f k).2.getLsbD b = true := by
    intro k
    by_cases hon : mask.getLsbD (w * k / 64) = true
    · rw [laneValue_active hon]
      exact (and_iff_right hon).symm
    · rw [laneValue_inactive hon]
      exact iff_of_false (by simp) fun hand => hon hand.1
  have hzero : (0 : Flags).getLsbD b = false := BitVec.getLsbD_zero
  rw [vMap_eq, getLsbD_foldl_or, hzero]
  simp only [List.mem_range, vCount, hflags, Bool.false_eq_true, false_or]

/-- What a map writes hangs on the values modulo the width and on the flags. -/
theorem vMap_congr {w : Nat} {f g : Nat → Nat × Flags} (h : ∀ k < 4096 / w, (f k).1 % 2 ^ w = (g k).1 % 2 ^ w ∧ (f k).2 = (g k).2)
    (mask : Word) (old : BitVec 4096) : vMap w mask old f = vMap w mask old g := by
  have hlane : ∀ k ∈ List.range (vCount w), (laneValue w mask old f k).1 % 2 ^ w = (laneValue w mask old g k).1 % 2 ^ w ∧
      (laneValue w mask old f k).2 = (laneValue w mask old g k).2 := by
    intro k hk
    by_cases hon : mask.getLsbD (w * k / 64) = true
    · rw [laneValue_active hon, laneValue_active hon]
      exact h k (List.mem_range.mp hk)
    · rw [laneValue_inactive hon, laneValue_inactive hon]
      exact ⟨rfl, rfl⟩
  rw [vMap_eq, vMap_eq]
  exact Prod.ext (vOf_congr fun k hk => (hlane k hk).1) (List.foldl_ext _ _ 0 fun g k hk => by rw [(hlane k hk).2])

theorem vMap_flags {w : Nat} {g : Nat → Nat × Flags} (h : ∀ k, (g k).2 = 0) (mask : Word) (old : BitVec 4096) : (vMap w mask old g).2 = 0 := by
  have hlane : ∀ k, (laneValue w mask old g k).2 = 0 := fun k => by
    rw [laneValue]
    split
    · exact h k
    · rfl
  rw [vMap_eq]
  simp only [hlane]
  exact List.foldl_fixed' (fun _ => BitVec.or_zero) _

/-! ### Commands that write one register element by element (08 R172, R173) -/

theorem rv_of_set {u : Unit} {v : Vector (BitVec 4096) 64} {a : Reg} {x : BitVec 4096} (h : u.v = v.set a.toNat x) (r : Reg) :
    u.rv r = if r = a then x else v[r.toNat] := by
  simp only [Unit.rv, h, Vector.getElem_set, BitVec.toNat_inj, eq_comm (a := a)]

theorem rv_congr {u u' : Unit} (h : u.v = u'.v) (r : Reg) : u.rv r = u'.rv r := by rw [Unit.rv, h]; rfl
theorem rm_congr {u u' : Unit} (h : u.m = u'.m) (r : MReg) : u.rm r = u'.rm r := by rw [Unit.rm, h]; rfl

/-- A bare word that writes v[a] alone, its engine idle: v[a] holds what the command makes of the vector and mask registers. -/
theorem State.RunsNow.writes_vector {s : State} {i : Instr} {p : PushForm} {c : Command} (h : s.RunsNow i p c s.cur.pc []) (hb : BareWord i)
    (hx : s.Executes i [] []) {a : Reg} {x : BitVec 4096} {replies : List Word} {flags : Flags}
    (hrun : ∀ (w : State) (k : Command), w.cur.v = s.cur.v → w.cur.m = s.cur.m → k.fmt = c.fmt →
      runVector w { k with instr := i } = .done { w with cur := w.cur.wv a x } replies flags) :
    ∃ t, exec i s = .next t ∧ t.cur.rv a = x ∧ (∀ r, r ≠ a → t.cur.rv r = s.cur.rv r) ∧ t.cur.m = s.cur.m ∧
      t.HasRun c replies (· = flags) ∧ s.NextWord t ∧ s.OnlyVectors t := by
  obtain ⟨t, hexec, hran⟩ := h.bare_runs hb hx (v := s.cur.v.set a.toNat x) (m := s.cur.m) fun w k hv hm hi hf => by
    have hk : k = { k with instr := i } := by rw [← hi]
    rw [hk, hrun w k hv hm hf, Unit.wv, hv, ← hm]
  have hvectors := rv_of_set hran.vectors
  refine ⟨t, hexec, ?_, fun r hne => ?_, hran.masks, hran.hasRun, hran.next, hran.only⟩
  · rw [hvectors, if_pos rfl]
  · rw [hvectors, if_neg hne]; rfl

/-- The outcome of a command that writes v[a] element by element, the active ones from `g`. -/
def State.mapped (s : State) (w : Nat) (mk : MReg) (a : Reg) (g : Nat → Nat × Flags) : Ran :=
  let r := vMap w (s.cur.rm mk) (s.cur.rv a) g
  .done { s with cur := s.cur.wv a r.1 } [] r.2

theorem mapped_congr {w : Nat} {f g : Nat → Nat × Flags} (h : ∀ k, (f k).1 % 2 ^ w = (g k).1 % 2 ^ w ∧ (f k).2 = (g k).2)
    (s : State) (mk : MReg) (a : Reg) : s.mapped w mk a f = s.mapped w mk a g := by rw [State.mapped, vMap_congr fun k _ => h k, State.mapped]

/-- A command that writes v[a] element by element, the values from the vector registers and its format, is elementwise. -/
theorem elementwise_of_mapped {i : Instr} {mk : MReg} {a : Reg} (hb : BareWord i) (g : Vector (BitVec 4096) 64 → BitVec 4 → Nat → Nat × Flags)
    (hrun : ∀ (s : State) (k : Command), runVector s { k with instr := i } = s.mapped (elemBits k.fmt) mk a (g s.cur.v k.fmt)) :
    Elementwise i [] mk a elemBits fun u c => g u.v c.fmt := by
  intro s p c h hx w active
  obtain ⟨t, hexec, hwritten, hothers, hmasks, ⟨y, hin, hi, hq, hn, hr, hflags, hlater⟩, hnext, honly⟩ :=
    h.writes_vector hb hx (x := (vMap w (s.cur.rm mk) (s.cur.rv a) (g s.cur.v c.fmt)).1) fun x k hv hm hf => by
      rw [hrun x k, State.mapped, hf, hv, rm_congr hm, rv_congr hv]
  refine ⟨t, hexec, fun k hk => ?_, hothers, hmasks, ⟨y, hin, hi, hq, hn, hr, ?_, hlater⟩, hnext, honly⟩
  · rw [hwritten, element_vMap w _ _ _ hk]
    exact ⟨fun hon => if_pos hon, fun hoff => if_neg hoff⟩
  · rw [hflags]; exact flagsOf_vMap w _ _ _

/-- A command that works on the elements of three registers is elementwise. -/
theorem elementwise_of_apply {i : Instr} {mk : MReg} {a b c : Reg} (hb : BareWord i) (op r : BitVec 4 → Nat → Nat → Nat → Nat × Flags)
    (hrun : ∀ (s : State) (k : Command), runVector s { k with instr := i } = vApply s k.fmt mk a b c (op k.fmt))
    (hop : ∀ f x y z, (op f x y z).1 % 2 ^ elemBits f = (r f x y z).1 % 2 ^ elemBits f ∧ (op f x y z).2 = (r f x y z).2) :
    Elementwise i [] mk a elemBits fun u k n =>
      r k.fmt (element (elemBits k.fmt) (u.rv a) n) (element (elemBits k.fmt) (u.rv b) n) (element (elemBits k.fmt) (u.rv c) n) := by
  refine elementwise_of_mapped hb (fun v f n =>
    r f (element (elemBits f) v[a.toNat] n) (element (elemBits f) v[b.toNat] n) (element (elemBits f) v[c.toNat] n)) fun s k => ?_
  refine (hrun s k).trans (mapped_congr (fun n => ?_) s mk a)
  simp only [vElem_eq]
  exact hop _ _ _ _

/-! ### The operations on elements (08 R178-R183) -/

theorem truncInt_eq (w : Nat) (x : Int) : truncInt w x = (x % 2 ^ w).toNat := by rw [truncInt, Nat.cast_pow, Nat.cast_two]

/-- A command whose operation is one of integers on the integer formats, and one of floating codes on the others. -/
theorem elementwise_of_elemOp {i : Instr} {mk : MReg} {a b c : Reg} (hb : BareWord i) (onInt : Nat → Int → Int → Int → Int)
    (onFloat : FSpec → Nat → Nat → Nat → Nat × Flags)
    (hrun : ∀ (s : State) (k : Command), runVector s { k with instr := i } = vApply s k.fmt mk a b c (elemOp k.fmt (onInt (elemBits k.fmt)) onFloat)) :
    Elementwise i [] mk a elemBits fun u k n =>
      let w := elemBits k.fmt
      let x := element w (u.rv a) n
      let y := element w (u.rv b) n
      let z := element w (u.rv c) n
      match floatOf k.fmt with
      | some sp => onFloat sp x y z
      | none => ((onInt w (toSigned w x) (toSigned w y) (toSigned w z) % 2 ^ w).toNat, 0) := by
  refine elementwise_of_apply (a := a) (b := b) (c := c) hb (fun f => elemOp f (onInt (elemBits f)) onFloat)
    (fun f x y z => match floatOf f with
      | some sp => onFloat sp x y z
      | none => ((onInt (elemBits f) (toSigned (elemBits f) x) (toSigned (elemBits f) y) (toSigned (elemBits f) z) % 2 ^ elemBits f).toNat, 0))
    hrun fun f x y z => ?_
  rw [elemOp]
  cases floatOf f with
  | some sp => exact ⟨rfl, rfl⟩
  | none => exact ⟨congrArg (· % 2 ^ elemBits f) (truncInt_eq _ _), rfl⟩

/-- A command whose floating operation is exact and rounded once to nearest even. -/
theorem elementwise_of_rounded {i : Instr} {mk : MReg} {a b c : Reg} (hb : BareWord i) (onInt : Int → Int → Int → Int)
    (onFloat : FpVal → FpVal → FpVal → FpVal × Flags)
    (hrun : ∀ (s : State) (k : Command), runVector s { k with instr := i } =
      vApply s k.fmt mk a b c (elemOp k.fmt onInt fun sp x y z => rounded sp (onFloat (sp.val x) (sp.val y) (sp.val z)))) :
    Elementwise i [] mk a elemBits fun u k n =>
      let w := elemBits k.fmt
      let x := element w (u.rv a) n
      let y := element w (u.rv b) n
      let z := element w (u.rv c) n
      match floatOf k.fmt with
      | some sp =>
        let e := onFloat (sp.val x) (sp.val y) (sp.val z)
        let r := sp.round .rne false e.1
        (r.1, e.2 ||| r.2)
      | none => ((onInt (toSigned w x) (toSigned w y) (toSigned w z) % 2 ^ w).toNat, 0) :=
  elementwise_of_elemOp hb (fun _ => onInt) (fun sp x y z => rounded sp (onFloat (sp.val x) (sp.val y) (sp.val z))) hrun

/-- A command whose operation is on bits. -/
theorem elementwise_of_bits {i : Instr} {mk : MReg} {a b c : Reg} (hb : BareWord i) (op r : Nat → Nat → Nat → Nat)
    (hrun : ∀ (s : State) (k : Command), runVector s { k with instr := i } = vApply s k.fmt mk a b c (opBits (op (elemBits k.fmt))))
    (hop : ∀ w y z, op w y z % 2 ^ w = r w y z % 2 ^ w) :
    Elementwise i [] mk a elemBits fun u k n =>
      let w := elemBits k.fmt
      (r w (element w (u.rv b) n) (element w (u.rv c) n), 0) :=
  elementwise_of_apply (a := a) (b := b) (c := c) hb (fun f => opBits (op (elemBits f))) (fun f _ y z => (r (elemBits f) y z, 0)) hrun
    fun _ _ _ _ => ⟨hop _ _ _, rfl⟩

/-! ### Integers of a width (08 R178-R183) -/

theorem clampInt_eq (w : Nat) (x : Int) : clampInt w x = max (-(2 ^ (w - 1))) (min (2 ^ (w - 1) - 1) x) := by
  have hpos : (0 : Int) < 2 ^ (w - 1) := by positivity
  rw [clampInt, intMin, intMax]
  push_cast
  split_ifs <;> omega

theorem toSigned_eq_toInt {w : Nat} (hw : 0 < w) (x : Nat) : toSigned w x = (BitVec.ofNat w x).toInt := by
  have hdouble : 2 ^ w = 2 * 2 ^ (w - 1) := by rw [← pow_succ', Nat.sub_add_cancel hw]
  rw [toSigned, BitVec.toInt_eq_toNat_cond, BitVec.toNat_ofNat]
  refine if_congr ?_ rfl rfl
  omega

theorem toSigned_range {w : Nat} (hw : 0 < w) (x : Nat) : -(2 ^ (w - 1)) ≤ toSigned w x ∧ toSigned w x < 2 ^ (w - 1) := by
  rw [toSigned_eq_toInt hw]
  exact ⟨BitVec.le_toInt _, BitVec.toInt_lt⟩

/-- A number of a width is what its low bits read as. -/
theorem toSigned_truncInt {w : Nat} (hw : 0 < w) {x : Int} (hlo : -(2 ^ (w - 1)) ≤ x) (hhi : x < 2 ^ (w - 1)) : toSigned w (truncInt w x) = x := by
  have hdouble : (2 : Int) ^ w = 2 * 2 ^ (w - 1) := by rw [← pow_succ', Nat.sub_add_cancel hw]
  have htrunc : truncInt w x = (BitVec.ofInt w x).toNat := by rw [BitVec.toNat_ofInt]; rfl
  rw [toSigned_eq_toInt hw, htrunc, BitVec.ofNat_toNat, BitVec.setWidth_eq, BitVec.toInt_ofInt]
  refine Int.bmod_eq_of_le ?_ ?_ <;> push_cast <;> omega

theorem elemBits_pos (f : BitVec 4) : 0 < elemBits f := by revert f; decide

/-! ### Minima, maxima and clamps (08 R179, R183) -/

theorem opMinmax_min (f : BitVec 4) : opMinmax false f = elemOp f (fun _ y z => min y z) fun sp _ y z => sp.minmax false y z := by
  have hmin : (fun _ y z : Int => if z < y then z else y) = fun _ y z => min y z := by funext _ y z; omega
  exact congrArg (elemOp f · _) hmin

theorem opMinmax_max (f : BitVec 4) : opMinmax true f = elemOp f (fun _ y z => max y z) fun sp _ y z => sp.minmax true y z := by
  have hmax : (fun _ y z : Int => if y < z then z else y) = fun _ y z => max y z := by funext _ y z; omega
  exact congrArg (elemOp f · _) hmax

/-- A clamp of integers reads its maximum back as it is. -/
theorem opClamp_eq (f : BitVec 4) : opClamp f = elemOp f (fun x y z => min (max x y) z) fun sp x y z =>
    ((sp.minmax false (sp.minmax true x y).1 z).1, (sp.minmax true x y).2 ||| (sp.minmax false (sp.minmax true x y).1 z).2) := by
  funext x y z
  simp only [opClamp, opMinmax_min, opMinmax_max, elemOp]
  cases floatOf f with
  | some sp => rfl
  | none =>
    obtain ⟨hxlo, hxhi⟩ := toSigned_range (elemBits_pos f) x
    obtain ⟨hylo, hyhi⟩ := toSigned_range (elemBits_pos f) y
    have hmax : toSigned (elemBits f) (truncInt (elemBits f) (max (toSigned (elemBits f) x) (toSigned (elemBits f) y))) =
        max (toSigned (elemBits f) x) (toSigned (elemBits f) y) :=
      toSigned_truncInt (elemBits_pos f) (hxlo.trans (le_max_left ..)) (max_lt hxhi hyhi)
    dsimp only
    rw [hmax]
    rfl

end Sys2Proof.Machine

namespace Sys2Proof.Proofs
open Sys2Proof Sys2Proof.Machine

/-- Settles O41: every command of the class works element by element, on the exact values of its format. -/
theorem vectorArithmetic : Obligations.VectorArithmetic := by
  intro h mk f a b c each does bits one clamp
  have bare : ∀ {i : Instr}, pushForm i = some { pushForm0 h 4 with fmt := f } → BareWord i := fun hi => ⟨h, f, hi⟩
  have float : ∀ {i : Instr} (op : FpVal → FpVal × Flags), pushForm i = some { pushForm0 h 4 with fmt := f } →
      (∀ (s : State) (k : Command), runVector s { k with instr := i } = vApply s k.fmt mk a b b (opFloat op k.fmt)) → one i op :=
    fun op hi hrun => elementwise_of_rounded (c := b) (bare hi) (fun _ y _ => y) (fun _ y _ => op y) hrun
  refine ⟨?vadd, ?vsub, ?vmul, ?vfma, ?vfnma, ?vdiv, ?vsqrt, ?vrsq, ?vrcp, ?vexp2, ?vlog2, ?vmin, ?vmax, ?vabs, ?vneg, ?vclamp, ?vand, ?vor, ?vxor,
    ?vshl, ?vshr, ?vsar, ?vadds, ?vmulh⟩
  case vadd => exact elementwise_of_rounded (bare rfl) (fun _ y z => y + z) (fun _ y z => y.add false z) fun _ _ => rfl
  case vsub => exact elementwise_of_rounded (bare rfl) (fun _ y z => y - z) (fun _ y z => y.add false z.neg) fun _ _ => rfl
  case vmul => exact elementwise_of_rounded (bare rfl) (fun _ y z => y * z) (fun _ y z => y.mul z) fun _ _ => rfl
  case vfma => exact elementwise_of_rounded (bare rfl) (fun x y z => y * z + x) (fun x y z => y.fma false z x) fun _ _ => rfl
  case vfnma => exact elementwise_of_rounded (bare rfl) (fun x y z => x - y * z) (fun x y z => y.neg.fma false z x) fun _ _ => rfl
  case vdiv => exact elementwise_of_rounded (bare rfl) (fun _ y _ => y) (fun _ y z => y.div z) fun _ _ => rfl
  case vsqrt => exact float FpVal.sqrt rfl fun _ _ => rfl
  case vrsq => exact float FpVal.rsqrt rfl fun _ _ => rfl
  case vrcp => exact float FpVal.recip rfl fun _ _ => rfl
  case vexp2 => exact float FpVal.exp2 rfl fun _ _ => rfl
  case vlog2 => exact float FpVal.log2 rfl fun _ _ => rfl
  case vmin =>
    exact elementwise_of_elemOp (bare rfl) (fun _ _ y z => min y z) (fun sp _ y z => sp.minmax false y z) fun _ _ => by rw [← opMinmax_min]; rfl
  case vmax =>
    exact elementwise_of_elemOp (bare rfl) (fun _ _ y z => max y z) (fun sp _ y z => sp.minmax true y z) fun _ _ => by rw [← opMinmax_max]; rfl
  case vabs =>
    exact elementwise_of_elemOp (c := b) (bare rfl) (fun _ _ y _ => y.natAbs) (fun sp _ y _ => (y % 2 ^ (sp.bits - 1), 0)) fun _ _ => rfl
  case vneg =>
    exact elementwise_of_elemOp (c := b) (bare rfl) (fun _ _ y _ => -y) (fun sp _ y _ => (y ^^^ 2 ^ (sp.bits - 1), 0)) fun _ _ => rfl
  case vclamp =>
    exact elementwise_of_elemOp (bare rfl) (fun _ x y z => min (max x y) z)
      (fun sp x y z => ((sp.minmax false (sp.minmax true x y).1 z).1, (sp.minmax true x y).2 ||| (sp.minmax false (sp.minmax true x y).1 z).2))
      fun _ _ => by rw [← opClamp_eq]; rfl
  case vand => exact elementwise_of_bits (bare rfl) (fun _ y z => y &&& z) (fun _ y z => y &&& z) (fun _ _ => rfl) fun _ _ _ => rfl
  case vor => exact elementwise_of_bits (bare rfl) (fun _ y z => y ||| z) (fun _ y z => y ||| z) (fun _ _ => rfl) fun _ _ _ => rfl
  case vxor => exact elementwise_of_bits (bare rfl) (fun _ y z => y ^^^ z) (fun _ y z => y ^^^ z) (fun _ _ => rfl) fun _ _ _ => rfl
  case vshl => exact elementwise_of_bits (bare rfl) shiftLeft (fun w y z => y * 2 ^ (z % w)) (fun _ _ => rfl) fun _ _ _ => Nat.mod_mod _ _
  case vshr => exact elementwise_of_bits (bare rfl) shiftRight (fun w y z => y / 2 ^ (z % w)) (fun _ _ => rfl) fun _ _ _ => rfl
  case vsar =>
    exact elementwise_of_bits (bare rfl) shiftArith (fun w y z => (toSigned w y / (2 ^ (z % w) : Nat) % 2 ^ w).toNat) (fun _ _ => rfl)
      fun w y z => congrArg (· % 2 ^ w) (truncInt_eq w _)
  case vadds =>
    exact elementwise_of_bits (bare rfl) (fun w y z => truncInt w (clampInt w (toSigned w y + toSigned w z)))
      (fun w y z => (clamp w (toSigned w y + toSigned w z) % 2 ^ w).toNat) (fun _ _ => rfl) fun w y z => by rw [truncInt_eq, clampInt_eq]
  case vmulh =>
    exact elementwise_of_bits (bare rfl) (fun w y z => truncInt w (toSigned w y * toSigned w z / (2 ^ w : Nat)))
      (fun w y z => (toSigned w y * toSigned w z / (2 ^ w : Nat) % 2 ^ w).toNat) (fun _ _ => rfl) fun w y z => by rw [truncInt_eq]
end Sys2Proof.Proofs
end

section
/-! PROOFS. The vector engine (08): conversions, reductions and scans, O57. -/

namespace Sys2Proof.Machine
open Sys2Proof

/-! ### Conversions (08 R185) -/

/-- The values that a conversion gives: all the wider elements from the part named, or that part of the narrower ones, the rest as they were. -/
def converted (src : BitVec 4) (part : BitVec 2) (a b : Reg) (v : Vector (BitVec 4096) 64) (f : BitVec 4) (k : Nat) : Nat × Flags :=
  let ws := elemBits src
  let wd := elemBits f
  if ws ≤ wd then elemConvert f .rne false (elemVal src (element ws v[b.toNat] (part.toNat * (4096 / wd) + k)))
  else if k / (4096 / ws) = part.toNat then elemConvert f .rne false (elemVal src (element ws v[b.toNat] (k % (4096 / ws))))
  else (element wd v[a.toNat] k, 0)

theorem elemBits_le (f : BitVec 4) : elemBits f ≤ 64 := by revert f; decide

theorem vConvert_eq (s : State) (f src : BitVec 4) (part : BitVec 2) (mk : MReg) (a b : Reg) :
    vConvert s f src part mk a b = s.mapped (elemBits f) mk a (converted src part a b s.cur.v f) := by
  rw [vConvert]
  simp only [vElem_eq, vCount]
  by_cases hwide : elemBits src ≤ elemBits f
  · simp only [if_pos hwide]
    refine mapped_congr (fun k => ?_) s mk a
    rw [converted, if_pos hwide]
    exact ⟨rfl, rfl⟩
  · simp only [if_neg hwide]
    refine mapped_congr (fun k => ?_) s mk a
    have hcount : 0 < 4096 / elemBits src := Nat.div_pos ((elemBits_le src).trans (by decide)) (elemBits_pos src)
    have hpart : part.toNat * (4096 / elemBits src) ≤ k ∧ k < part.toNat * (4096 / elemBits src) + 4096 / elemBits src ↔
        k / (4096 / elemBits src) = part.toNat := by
      rw [Nat.div_eq_iff hcount]
      generalize 4096 / elemBits src = n at hcount
      generalize part.toNat * n = lo
      omega
    rw [converted, if_neg hwide]
    by_cases hin : k / (4096 / elemBits src) = part.toNat
    · have hmod : k - part.toNat * (4096 / elemBits src) = k % (4096 / elemBits src) := by
        rw [← hin, Nat.mul_comm]; exact (Nat.mod_eq_sub_mul_div ..).symm
      rw [if_pos hin, if_pos (hpart.mpr hin), hmod]
      exact ⟨rfl, rfl⟩
    · rw [if_neg hin, if_neg (hpart.not.mpr hin)]
      exact ⟨rfl, rfl⟩

/-! ### Reductions of words (08 R191) -/

/-- The step of a reduction in 64-bit integers, by its code. -/
def reduceWords (op : Nat) (x y : Word) : Word :=
  match op with
  | 0 => x + y
  | 1 => if y.slt x then y else x
  | 2 => if x.slt y then y else x
  | 3 => x &&& y
  | 4 => x ||| y
  | _ => x ^^^ y

/-- The word with which that step leaves every word as it is. -/
def reduceUnit (op : Nat) : Word :=
  match op with
  | 1 => BitVec.ofNat 64 (2 ^ 63 - 1)
  | 2 => BitVec.ofNat 64 (2 ^ 63)
  | 3 => -1
  | _ => 0

theorem toInt_reduceWords_min (x y : Word) : (reduceWords 1 x y).toInt = min x.toInt y.toInt := by
  simp only [reduceWords, BitVec.slt_eq_decide, decide_eq_true_eq]
  split <;> omega

theorem toInt_reduceWords_max (x y : Word) : (reduceWords 2 x y).toInt = max x.toInt y.toInt := by
  simp only [reduceWords, BitVec.slt_eq_decide, decide_eq_true_eq]
  split <;> omega

theorem reduceWords_assoc (op : Nat) (x y z : Word) : reduceWords op (reduceWords op x y) z = reduceWords op x (reduceWords op y z) := by
  match op with
  | 0 => exact BitVec.add_assoc ..
  | 1 => exact BitVec.eq_of_toInt_eq (by simp only [toInt_reduceWords_min, min_assoc])
  | 2 => exact BitVec.eq_of_toInt_eq (by simp only [toInt_reduceWords_max, max_assoc])
  | 3 => exact BitVec.and_assoc ..
  | 4 => exact BitVec.or_assoc ..
  | _ + 5 => exact BitVec.xor_assoc ..

theorem reduceWords_comm (op : Nat) (x y : Word) : reduceWords op x y = reduceWords op y x := by
  match op with
  | 0 => exact BitVec.add_comm ..
  | 1 => exact BitVec.eq_of_toInt_eq (by simp only [toInt_reduceWords_min, min_comm])
  | 2 => exact BitVec.eq_of_toInt_eq (by simp only [toInt_reduceWords_max, max_comm])
  | 3 => exact BitVec.and_comm ..
  | 4 => exact BitVec.or_comm ..
  | _ + 5 => exact BitVec.xor_comm ..

theorem reduceWords_unit (op : Nat) (x : Word) : reduceWords op x (reduceUnit op) = x := by
  match op with
  | 0 => exact BitVec.add_zero x
  | 1 =>
    refine BitVec.eq_of_toInt_eq ((toInt_reduceWords_min x _).trans (min_eq_left ?_))
    exact Int.le_of_lt_add_one BitVec.toInt_lt
  | 2 =>
    refine BitVec.eq_of_toInt_eq ((toInt_reduceWords_max x _).trans (max_eq_left ?_))
    exact BitVec.le_toInt x
  | 3 => exact BitVec.and_allOnes
  | 4 => exact BitVec.or_zero
  | _ + 5 => exact BitVec.xor_zero

theorem unit_reduceWords (op : Nat) (x : Word) : reduceWords op (reduceUnit op) x = x := (reduceWords_comm op _ x).trans (reduceWords_unit op x)

/-! ### Reductions of the integer formats (08 R191, R192) -/

theorem floatOf_of_setI {f : BitVec 4} (h : setI f = true) : floatOf f = none := by revert f; decide
theorem wideFmt_of_setI {f : BitVec 4} (h : setI f = true) : wideFmt f = 3 := by revert f; decide

/-- An element as a word: sign-extended to 64 bits. -/
def wordOf (f : BitVec 4) (x : Nat) : Word := BitVec.ofInt 64 (toSigned (elemBits f) x)

theorem redIdentity_word {f : BitVec 4} (h : setI f = true) (op : Nat) : redIdentity f op = (reduceUnit op).toNat := by
  match op with
  | 0 | 1 | 2 | 3 | _ + 4 => simp only [redIdentity, wideFmt_of_setI h]; rfl

theorem truncInt_toInt (x : Int) {y : Word} (h : x = y.toInt) : truncInt 64 x = y.toNat := by
  rw [trunc_toNat, h, BitVec.ofInt_toInt]

theorem toSigned_toNat (x : Word) : toSigned 64 x.toNat = x.toInt := by
  rw [toSigned_eq_toInt (by decide), BitVec.ofNat_toNat, BitVec.setWidth_eq]

/-- A step of the reduction is that of the words, and raises no flag. -/
theorem redOp_word {f : BitVec 4} (h : setI f = true) (op : Nat) (x y : Word) : redOp f op x.toNat y.toNat = ((reduceWords op x y).toNat, 0) := by
  have hfloat : floatOf 3 = none := rfl
  have hop : ∀ onInt onFloat, elemOp 3 onInt onFloat 0 x.toNat y.toNat = (truncInt 64 (onInt 0 x.toInt y.toInt), 0) := fun onInt onFloat => by
    rw [elemOp, hfloat]
    dsimp only
    rw [show elemBits 3 = 64 from rfl, toSigned_toNat, toSigned_toNat]
    rfl
  match op with
  | 0 =>
    have hsum : truncInt 64 (x.toInt + y.toInt) = (x + y).toNat := by
      rw [trunc_toNat, BitVec.ofInt_add, BitVec.ofInt_toInt, BitVec.ofInt_toInt]
    simp only [redOp, wideFmt_of_setI h, opAdd, hop, hsum]
    rfl
  | 1 => simp only [redOp, wideFmt_of_setI h, opMinmax_min, hop, truncInt_toInt _ (toInt_reduceWords_min x y).symm]
  | 2 => simp only [redOp, wideFmt_of_setI h, opMinmax_max, hop, truncInt_toInt _ (toInt_reduceWords_max x y).symm]
  | 3 => exact congrArg (·, 0) (BitVec.toNat_and ..).symm
  | 4 => exact congrArg (·, 0) (BitVec.toNat_or ..).symm
  | _ + 5 => exact congrArg (·, 0) (BitVec.toNat_xor ..).symm

/-- An integer within the width is converted exactly (06 R148). -/
theorem toIntSat_ofInt {w : Nat} (mode : RMode) {x : Int} (hlo : -(2 ^ (w - 1)) ≤ x) (hhi : x < 2 ^ (w - 1)) :
    toIntSat w mode (FpVal.ofInt x) = (x, 0) := by
  have hsign : (if decide (x < 0) = true then -1 else 1) * (x.natAbs : Int) = x := by
    by_cases hneg : x < 0 <;> simp only [hneg, decide_true, decide_false, if_true, if_false, Bool.false_eq_true] <;> omega
  have hval := to_int_val true w mode (FpVal.ofInt x)
  simp only [FpVal.ofInt, roundAt_same, inexact_same, hsign, if_neg (Int.not_lt.mpr hlo), if_neg (Int.not_le.mpr hhi), if_true, Bool.false_eq_true,
    if_false] at hval
  exact hval

/-- An element widens to its word, and raises no flag. -/
theorem widen_word {f : BitVec 4} (h : setI f = true) {x : Nat} (hx : x < 2 ^ elemBits f) : widen f x = ((wordOf f x).toNat, 0) := by
  rw [widen, wideFmt_of_setI h]
  by_cases h3 : f = 3
  · subst h3
    have hword : wordOf 3 x = BitVec.ofNat 64 x := by
      rw [wordOf, show elemBits 3 = 64 from rfl, toSigned_eq_toInt (by decide), BitVec.ofInt_toInt]
    rw [if_pos (beq_self_eq_true _), hword, toNat_ofNat_of_lt (n := 64) hx]
  · have hnarrow : elemBits f ≤ 64 := elemBits_le f
    obtain ⟨hlo, hhi⟩ := toSigned_range (elemBits_pos f) x
    have hpow : (2 : Int) ^ (elemBits f - 1) ≤ 2 ^ (64 - 1) := pow_le_pow_right₀ (by decide) (by omega)
    rw [if_neg (by simpa using h3), elemVal, floatOf_of_setI h, elemConvert, show floatOf 3 = none from rfl]
    dsimp only
    rw [show elemBits 3 = 64 from rfl, toIntSat_ofInt .rne (by omega) (by omega), trunc_toNat]
    rfl

/-- A level of the tree keeps the result of a run over the words. -/
theorem redLevel_word {f : BitVec 4} (h : setI f = true) (op n : Nat) (xs : List Word) (hlen : xs.length = 2 * n) :
    ∃ ys : List Word, redLevel f op (xs.map BitVec.toNat) = (ys.map BitVec.toNat, 0) ∧ ys.length = n ∧
      ∀ run, ys.foldl (reduceWords op) run = xs.foldl (reduceWords op) run := by
  induction n generalizing xs with
  | zero =>
    obtain rfl : xs = [] := List.length_eq_zero_iff.mp hlen
    exact ⟨[], rfl, rfl, fun _ => rfl⟩
  | succ n ih =>
    match xs, hlen with
    | x :: y :: xs, hlen =>
      obtain ⟨ys, hlevel, hcount, hrun⟩ := ih xs (by simp only [List.length_cons] at hlen; omega)
      refine ⟨reduceWords op x y :: ys, ?_, by rw [List.length_cons, hcount], fun run => ?_⟩
      · simp only [List.map_cons, redLevel, redOp_word h, hlevel]
        rfl
      · simp only [List.foldl_cons, hrun, reduceWords_assoc]

/-- The tree over as many words as a power of two gives what a run over them gives. -/
theorem redTree_word {f : BitVec 4} (h : setI f = true) (op d : Nat) (xs : List Word) (hlen : xs.length = 2 ^ d) :
    redTree f op d (xs.map BitVec.toNat) = ((xs.foldl (reduceWords op) (reduceUnit op)).toNat, 0) := by
  induction d generalizing xs with
  | zero =>
    obtain ⟨x, rfl⟩ := List.length_eq_one_iff.mp hlen
    simp [redTree, unit_reduceWords]
  | succ d ih =>
    obtain ⟨ys, hlevel, hcount, hrun⟩ := redLevel_word h op (2 ^ d) xs (by rw [hlen, pow_succ'])
    simp only [redTree, hlevel, ih ys hcount, hrun]
    rfl

/-- A scan over words gives each the result of a run up to it. -/
theorem scanFrom_word {f : BitVec 4} (h : setI f = true) (op : Nat) (run : Word) (xs : List Word) :
    scanFrom f op run.toNat (xs.map fun x => (x.toNat, 0)) =
      ((List.range xs.length).map fun k => ((xs.take (k + 1)).foldl (reduceWords op) run).toNat, 0) := by
  induction xs generalizing run with
  | nil => rfl
  | cons x xs ih =>
    simp only [List.map_cons, scanFrom, redOp_word h, ih, List.length_cons, List.range_succ_eq_map, List.map_map]
    rfl

/-- The result over the first `n` elements, the active ones of which enter it (08 R191). -/
def reduceActive (u : Unit) (f : BitVec 4) (mk : MReg) (b : Reg) (op n : Nat) : Word :=
  ((List.range n).filter (laneOn (u.rm mk) (elemBits f))).foldl
    (fun acc k => reduceWords op acc (wordOf f (element (elemBits f) (u.rv b) k))) (reduceUnit op)

theorem reduceActive_congr {u u' : Unit} (hv : u.v = u'.v) (hm : u.m = u'.m) (f : BitVec 4) (mk : MReg) (b : Reg) (op n : Nat) :
    reduceActive u f mk b op n = reduceActive u' f mk b op n := by rw [reduceActive, rm_congr hm, rv_congr hv, reduceActive]

/-- What enters at place `k`: the element's word where it is active, else the word that changes nothing. -/
def entering (u : Unit) (f : BitVec 4) (mk : MReg) (b : Reg) (op k : Nat) : Word :=
  if laneOn (u.rm mk) (elemBits f) k then wordOf f (element (elemBits f) (u.rv b) k) else reduceUnit op

theorem foldl_entering (u : Unit) (f : BitVec 4) (mk : MReg) (b : Reg) (op n : Nat) :
    ((List.range n).map (entering u f mk b op)).foldl (reduceWords op) (reduceUnit op) = reduceActive u f mk b op n := by
  have hstep : ∀ acc k, reduceWords op acc (entering u f mk b op k) =
      if laneOn (u.rm mk) (elemBits f) k then reduceWords op acc (wordOf f (element (elemBits f) (u.rv b) k)) else acc := by
    intro acc k
    rw [entering]
    split
    · rfl
    · exact reduceWords_unit op acc
  simp only [reduceActive, List.foldl_map, List.foldl_filter, hstep]

theorem redInputs_word {f : BitVec 4} (h : setI f = true) (u : Unit) (mk : MReg) (b : Reg) (op : Nat) :
    redInputs u f mk b op = ((List.range (vCount (elemBits f))).map (entering u f mk b op)).map fun x => (x.toNat, 0) := by
  rw [redInputs, List.map_map]
  refine List.map_congr_left fun k _ => ?_
  simp only [Function.comp_apply, entering, vElem_eq]
  split
  · exact widen_word h (Nat.mod_lt _ (Nat.two_pow_pos _))
  · rw [redIdentity_word h]

theorem vCount_of_setI {f : BitVec 4} (h : setI f = true) : vCount (elemBits f) = 2 ^ (vCount (elemBits f)).log2 := by revert f; decide

theorem map_fst_words (xs : List Word) : (xs.map fun x => (x.toNat, (0 : Flags))).map (·.1) = xs.map BitVec.toNat := by rw [List.map_map]; rfl

theorem foldl_flags_words (xs : List Word) (g : Flags) : (xs.map fun x => (x.toNat, (0 : Flags))).foldl (fun g x => g ||| x.2) g = g := by
  rw [List.foldl_map, List.foldl_fixed' fun _ => BitVec.or_zero]

/-- A reduction of integers leaves its result alone in v[A], and replies with it (08 R191). -/
theorem vReduce_word {f : BitVec 4} (h : setI f = true) (s : State) (mk : MReg) (a b : Reg) (op : BitVec 3) (reply : Bool) :
    vReduce s f mk a b op reply = .done { s with cur := s.cur.wv a ((reduceActive s.cur f mk b op.toNat (vCount (elemBits f))).setWidth 4096) }
      (if reply then [reduceActive s.cur f mk b op.toNat (vCount (elemBits f))] else []) 0 := by
  have htree := redTree_word h op.toNat (vCount (elemBits f)).log2 ((List.range (vCount (elemBits f))).map (entering s.cur f mk b op.toNat))
    (by rw [List.length_map, List.length_range]; exact vCount_of_setI h)
  rw [foldl_entering] at htree
  rw [vReduce, redInputs_word h, map_fst_words, htree, foldl_flags_words, BitVec.ofNat_toNat, BitVec.ofNat_toNat, BitVec.setWidth_eq]

theorem scanFrom_entering {f : BitVec 4} (h : setI f = true) (u : Unit) (mk : MReg) (b : Reg) (op : Nat) :
    scanFrom f op (redIdentity f op) (redInputs u f mk b op) =
      ((List.range (vCount (elemBits f))).map fun k => (reduceActive u f mk b op (k + 1)).toNat, 0) := by
  rw [redInputs_word h, redIdentity_word h, scanFrom_word h, List.length_map, List.length_range]
  refine congrArg (·, 0) (List.map_congr_left fun k hk => congrArg BitVec.toNat ?_)
  rw [← List.map_take, List.take_range, Nat.min_eq_left (List.mem_range.mp hk), foldl_entering]

/-- A scan of integers gives each element the result up to it (08 R192). -/
theorem vScan_word {f : BitVec 4} (h : setI f = true) (s : State) (mk : MReg) (a b : Reg) (op : BitVec 2) :
    vScan s f mk a b op = .done { s with cur := s.cur.wv a (vMap (elemBits f) (s.cur.rm mk) (s.cur.rv a) fun k =>
      ((reduceActive s.cur f mk b op.toNat (k + 1)).toNat % 2 ^ elemBits f, 0)).1 } [] 0 := by
  have hmap := vMap_congr (w := elemBits f)
    (f := fun k => (((List.range (vCount (elemBits f))).map fun k => (reduceActive s.cur f mk b op.toNat (k + 1)).toNat).getD k 0 % 2 ^ elemBits f, 0))
    (g := fun k => ((reduceActive s.cur f mk b op.toNat (k + 1)).toNat % 2 ^ elemBits f, 0))
    (fun k hk => by simp [vCount, hk]) (s.cur.rm mk) (s.cur.rv a)
  rw [vScan, scanFrom_entering h, ← hmap]
  simp only [floatOf_of_setI h]
  exact congrArg (Ran.done _ []) (BitVec.zero_or.trans (vMap_flags (fun _ => rfl) _ _))

end Sys2Proof.Machine

namespace Sys2Proof.Proofs
open Sys2Proof Sys2Proof.Machine

/-- Settles O57: conversions work element by element, and the tree of a reduction and the chain of a scan give what a run over the active words gives. -/
theorem vectorReductions : Obligations.VectorReductions := by
  intro h mk f a b src part op sop reply s p cmd w on value total rest
  have htotal : ∀ o n, total o n = reduceActive s.cur cmd.fmt mk b o n := fun o n =>
    match o with
    | 0 | 1 | 2 | 3 | 4 | _ + 5 => rfl
  refine ⟨?vcvt, ?vred, ?vscan⟩
  case vcvt =>
    exact elementwise_of_mapped ⟨h, f, rfl⟩ (converted src part a b) fun t k => vConvert_eq t k.fmt src part mk a b
  case vred =>
    intro hnow hx hint
    obtain ⟨t, hexec, hwritten, hothers, hmasks, hran, hnext, honly⟩ := hnow.writes_vector ⟨h, f, rfl⟩ hx (a := a)
      (x := (total op.toNat (4096 / w)).setWidth 4096) (replies := if reply then [total op.toNat (4096 / w)] else []) (flags := 0) fun x k hv hm hf => by
        have hw : w = elemBits k.fmt := by rw [hf]
        rw [htotal, hw, ← hf, ← reduceActive_congr hv hm]
        exact vReduce_word (hf ▸ hint) x mk a b op reply
    exact ⟨t, hexec, hwritten, hran, hothers, hmasks, hnext, honly⟩
  case vscan =>
    intro hnow hx hint _
    obtain ⟨t, hexec, hwritten, hothers, hmasks, hran, hnext, honly⟩ := hnow.writes_vector ⟨h, f, rfl⟩ hx (a := a) (replies := []) (flags := 0)
      (x := (vMap w (s.cur.rm mk) (s.cur.rv a) fun k => ((total sop.toNat (k + 1)).toNat % 2 ^ w, 0)).1) fun x k hv hm hf => by
        have hw : w = elemBits k.fmt := by rw [hf]
        simp only [htotal, hw, ← hf, ← reduceActive_congr hv hm, ← rm_congr hm, ← rv_congr hv]
        exact vScan_word (hf ▸ hint) x mk a b sop
    refine ⟨t, hexec, hran, ⟨hothers, hmasks, hnext, honly⟩, fun k hk => ?_⟩
    rw [hwritten, element_vMap w _ _ _ hk, Nat.mod_mod]

end Sys2Proof.Proofs
end

section
/-! PROOFS. The vector engine (08): comparisons and moves, O42. -/

namespace Sys2Proof.Proofs.LateScalar
open Sys2Proof Sys2Proof.Machine

/-! O42. VMOVS and VIOTA may be pushed before the scalar register they name has landed: the instruction then waits for it (06 R123), and more than the one
cycle passes that the statement allows. -/

/-- VMOVS of s5 to the bytes of v1. -/
def fill : Instr := .vmovs noTokens 0 0 1 5
def form : PushForm := { pushForm0 noTokens 4 with fmt := 0, scalar := some 5 }

/-- A unit about to run it at time 0; s5 lands at time 5. -/
def late : State :=
  let s := State.reset.withWord (encode fill)
  { s with cur := { s.cur with ready := s.cur.ready.set 5 5 } }

/-- The command it pushes. -/
def command : Command := (late.pushCommand fill form []).get (by decide +kernel)

theorem late_pushes : late.pushCommand fill form [] = some command := by simp only [command, Option.some_get]

theorem late_runsNow : late.RunsNow fill form command late.cur.pc [] where
  form := rfl
  command := late_pushes
  prompt := by decide +kernel
  free := by decide +kernel
  quiet := ⟨by decide +kernel, by decide +kernel, by decide +kernel, by decide +kernel, by decide +kernel⟩
  window := by decide +kernel
  homes := by decide +kernel
  meets := by decide +kernel
  tokens := by decide +kernel
  start := by decide +kernel
  accepts := by decide +kernel
  noClash := by decide +kernel

theorem late_executes : late.Executes fill [5] [] where
  legal := by decide +kernel
  inLoop := by decide +kernel
  room := by decide +kernel
  loaded := by decide +kernel
  landed := .inr (by decide +kernel)

/-- The word executes at time 5, and its cycle ends at 6. -/
theorem time_of_late {t : State} (h : exec fill late = .next t) : t.cur.time = 6 := by
  have h6 : (match exec fill late with | .next t => t.cur.time | _ => 6) = 6 := by decide +kernel
  rwa [h] at h6

end Sys2Proof.Proofs.LateScalar

namespace Sys2Proof.Proofs
open Sys2Proof Sys2Proof.Machine LateScalar

/-- Refutes O42: where the scalar register that VMOVS reads lands five cycles later, six cycles pass and not one, as `State.OnlyVectors` asks of an
elementwise command. -/
theorem not_vectorMoves : ¬ Obligations.VectorMoves := by
  intro h
  obtain ⟨-, -, -, -, hmovs, -⟩ := h noTokens 0 0 1 5 0 0 0 0
  obtain ⟨t, ht, -, -, -, -, -, -, -, hone, -⟩ := hmovs late form command late_runsNow late_executes
  have h1 : t.cur.time = late.cur.time + 1 := hone
  rw [time_of_late ht] at h1
  exact absurd h1 (by decide +kernel)

end Sys2Proof.Proofs
end

section
/-! PROOFS. The matrix engine (09): a matrix command that starts and runs, for O58. -/

namespace Sys2Proof.Machine
open Sys2Proof

/-! ### A push that waits for its registers (06 R123, R127) -/

/-- A later cycle finds the engine of a matrix command as idle (06 R128). -/
theorem State.RunsNow.pass {s : State} {i : Instr} {p : PushForm} {c : Command} {last : Word} {forms : List EdgeForm}
    (h : s.RunsNow i p c last forms) (hq : c.queue = 3) (k : Nat) : (s.pass k).RunsNow i p c last forms where
  form := h.form
  command := h.command
  prompt := h.prompt
  free := h.free
  quiet := ⟨h.quiet.engines, h.quiet.queues, h.quiet.classes, h.quiet.flows, h.quiet.banks⟩
  window := h.window
  homes := h.homes
  meets := h.meets
  tokens := h.tokens
  start := Nat.le_trans h.start (by rw [State.pass_cur_time]; omega)
  accepts := by
    have haccepts := h.accepts
    have hidle : ∀ u : Unit, u.inflight = [] → u.feedRoom = true := fun u hu => by simp [Unit.feedRoom, hu]
    rw [pushed_eq] at haccepts ⊢
    simp only [State.accepts, Unit.vecLanded, hq, Bool.and_eq_true, Bool.or_eq_true, decide_eq_true_eq] at haccepts ⊢
    obtain ⟨⟨⟨⟨hmeet, hothers⟩, hreach⟩, hedge⟩, -⟩ := haccepts
    refine ⟨⟨⟨⟨hmeet, hothers⟩, hreach.imp_right ?_⟩, hedge⟩, .inr ⟨hidle ((s.pass k).cur.queued c last) h.quiet.engines, ?_⟩⟩
    · rintro ⟨⟨⟨hbanks, hpermute⟩, -⟩, hpost⟩
      refine ⟨⟨⟨hbanks, hpermute.imp_right fun hle => Nat.le_trans hle ?_⟩, .inr (.inl (by decide))⟩, hpost⟩
      show s.cur.time + 1 ≤ s.cur.time + k + 1
      omega
    · show (s.cur.inflight.all _) = true
      rw [h.quiet.engines]; rfl
  noClash := by
    have hclash := h.noClash
    rw [pushed_eq] at hclash ⊢
    simp only [State.phaseClash, State.units, List.any_filter, List.any_cons] at hclash ⊢
    exact hclash

namespace State.RunsNow
variable {s : State} {i : Instr} {p : PushForm} {c : Command} {last : Word} {forms : List EdgeForm} (h : s.RunsNow i p c last forms)
include h

/-- The push waits until what it reads has landed, and its engines look at it in the next cycle. -/
theorem exec_settles_later (hx : s.Executes i p.scalar.toList (p.descrs i s.cur)) (hb : s.Bodied i forms last) :
    ∃ k, exec i s = .next ((s.pass k).pushed c last).settle := by
  have hroom : (s.cur.queue p.queue).length < 64 := by rw [h.queue_nil]; decide
  have hframed : s.cur.framed = true → False := by rw [h.free]; exact Bool.false_ne_true
  obtain ⟨k, -, hpush⟩ := push_pushes (last := last) h.form h.command hx hroom (fun hf => (hframed hf).elim) (vecShadow_of_free h.free c)
  have hbanks : ∀ e ∈ ((s.pass k).pushed c last).myDev.banks, e.2.begun = false := by rw [pushed_eq]; exact h.quiet.banks
  have hmove : ((s.pass k).pushed c last).endChanges.pump = (s.pass k).pushed c last := by
    rw [endChanges_of_none_begun hbanks, pump_of_none_travels (by rw [pushed_eq]; exact h.quiet.classes) (by rw [pushed_eq]; exact h.quiet.flows)]
  have hnext : (s.pushedIn k c last).nextCycle = (s.pass k).pushed c last := pushedIn_nextCycle (s := s.pass k) h.free c last
  exact ⟨k, by rw [exec_pushes h.form hb hx, hpush, executePush_later fun hf => (hframed hf).elim, tick_eq, hnext, hmove]⟩

end State.RunsNow

/-! ### The start of a command that makes ordered accesses (06 R128, 16 R289) -/

/-- The unit's class queues once a command has entered its set, where it makes ordered accesses. -/
def Unit.places (u : Unit) (c : Command) : List Access := if c.ordered then u.classQ ++ [c.place u.gid] else u.classQ

/-- A command that starts for the first time leaves its queue for its engine, and enters its set. -/
theorem launch_places {u : Unit} {c : Command} (start : Nat) (hfresh : c.started = false) (hmeet : u.waitingAt = 0) (hq : c.queue ≠ 0) :
    ∃ tokens permute vready mready, u.launch c start =
      { u.starts c start with tokens := tokens, permute := permute, vready := vready, mready := mready, classQ := u.places c } := by
  obtain ⟨tokens, htokens⟩ := takeTokens_eq u c
  have hwait : (u.waitingAt == c.queue) = false := by rw [hmeet]; exact beq_eq_false_iff_ne.mpr hq.symm
  have hlaunch : ∃ permute, u.launch c start =
      Unit.vecLand { u.starts c start with tokens := tokens, permute := permute, classQ := u.places c } c start := by
    simp only [Unit.launch, htokens, hfresh, hwait, Bool.false_and, Bool.false_eq_true, if_false]
    rw [Unit.places]
    split <;> exact ⟨_, rfl⟩
  obtain ⟨permute, hlaunch⟩ := hlaunch
  obtain ⟨vready, mready, hland⟩ := vecLand_eq { u.starts c start with tokens := tokens, permute := permute, classQ := u.places c } c start
  exact ⟨tokens, permute, vready, mready, hlaunch.trans hland⟩

/-- The unit `w` is `u` once the command `c` has started for the first time and its word, alone in the window, has committed; its set stands in its
class queue (06 R124, R128, 16 R289). -/
def Unit.Begins (u w : Unit) (c : Command) (start : Nat) : Prop :=
  ∃ tokens handed permute vready mready, w =
    { u.starts c start with
      tokens := tokens, handed := handed, permute := permute, vready := vready, mready := mready, classQ := u.places c, window := [],
      committed := u.committed + 1 }

/-- The set of a command that entered empty class queues is all that stands there. -/
theorem isPlace_of_mem_places {u : Unit} {c : Command} (hclass : u.classQ = []) : ∀ x ∈ u.places c, x.isPlace c = true := by
  intro x hx
  rw [Unit.places, hclass] at hx
  split at hx
  · obtain rfl := List.mem_singleton.mp hx
    simp [Access.isPlace, Command.place, cmdAccess]
  · cases hx

/-- A started command whose set alone stands in the class queues runs at once (16 R289). -/
theorem poll_placed {s : State} {c : Command} {start : Nat} (hclass : ∀ x ∈ s.cur.classQ, x.isPlace c = true) :
    s.poll (c.launched start) = s.runStarted (c.launched start) := by
  have hbefore : s.cur.classQ.takeWhile (fun x => !x.isPlace c) = [] := by
    cases hl : s.cur.classQ with
    | nil => rfl
    | cons x l => rw [List.takeWhile_cons, hclass x (hl ▸ List.mem_cons_self)]; rfl
  have hmay : s.mayRun (c.launched start).command = true := by
    rw [State.mayRun, show (c.launched start).command = c from rfl, hbefore]
    exact Bool.or_true _
  rw [State.poll, hmay]
  rfl

/-- In a prompt machine of which nothing stands in the class queues, a command leaves its queue, its word commits, and it runs at once (06 R124, R128). -/
theorem start_runs {s : State} {c : Command} {e : WinEntry} (hprompt : s.prompt = true) (hclass : s.cur.classQ = []) (hclash : s.phaseClash c = none)
    (hfresh : c.started = false) (hmeet : s.cur.waitingAt = 0) (hq : c.queue ≠ 0) (hlast : (s.cur.queue c.queue).drop 1 = [])
    (hidle : s.cur.inflight = []) (hw : s.cur.window = [e]) (hpush : e.push = some (c.queue, c.num)) (hstore : e.store = none) (hload : e.load = none)
    (hdone : e.done ≤ s.cur.time) :
    ∃ carrier w, s.cur.Begins w { c with carrier := carrier } (max s.cur.time c.due) ∧
      s.start c = ({ s with cur := w } : State).runStarted (Command.launched { c with carrier := carrier } (max s.cur.time c.due)) := by
  obtain ⟨handed, carrier, hcarry⟩ := carry_eq s.cur c
  obtain ⟨tokens, permute, vready, mready, hlaunch⟩ := launch_places (u := { s.cur with handed := handed }) (c := { c with carrier := carrier })
    (max s.cur.time c.due) hfresh hmeet hq
  generalize hv : Unit.launch { s.cur with handed := handed } { c with carrier := carrier } (max s.cur.time c.due) = v at hlaunch
  have hempty : v.queue c.queue = [] := by
    have hset : v.queues = s.cur.queues.set (qidx c.queue) ((s.cur.queue c.queue).drop 1) := by rw [hlaunch]; rfl
    rw [Unit.queue, hset, Fin.getElem_fin, Vector.getElem_set_self, hlast]
  have hcommit := commit_push (s := { s with cur := v }) (e := e) (by rw [hlaunch]; exact hw) hpush hstore hload (by rw [hlaunch]; exact hdone) hempty
  have hin : v.inflight = [Command.launched { c with carrier := carrier } (max s.cur.time c.due)] := by
    rw [hlaunch]
    exact congrArg (· ++ [Command.launched { c with carrier := carrier } (max s.cur.time c.due)]) hidle
  have hplaces : ∀ x ∈ v.classQ, x.isPlace { c with carrier := carrier } = true := by
    rw [hlaunch]
    exact isPlace_of_mem_places hclass
  refine ⟨carrier, { v with window := [], committed := v.committed + 1 }, ⟨tokens, handed, permute, vready, mready, by rw [hlaunch]; rfl⟩, ?_⟩
  rw [State.start, hclash, regenerated_of_fresh hfresh, hcarry]
  dsimp only
  rw [hv, hcommit]
  dsimp only
  rw [inflight?_launched (c := { c with carrier := carrier }) (w := { v with window := [], committed := v.committed + 1 }) hin]
  dsimp only
  rw [hprompt, Bool.true_or, if_pos rfl, poll_placed hplaces]

/-! ### A command alone in flight that runs and goes on (05 R99, 08 R176, 09 R200) -/

/-- With no command of another queue in flight, nothing races for registers or for the accumulator store (08 R176, 09 R200). -/
theorem racing_alone {s t : State} {c : Command} {f : State → Ran} {rs : List Word} {g : Flags}
    (halone : ∀ y ∈ s.cur.inflight, y.command.queue = c.queue) (hf : f s = .done t rs g) :
    ∃ (former : Inflight → List (Nat × BitVec 4096)) (formerAcc : Inflight → Option Memory), s.racing c f =
      .done { t with cur := t.cur.onInflight c.queue c.num fun y => { y with former := former y, formerAcc := formerAcc y } } rs g := by
  have hnone : (s.cur.inflight.filter fun y => y.command.queue != c.queue) = [] :=
    List.filter_eq_nil_iff.mpr fun y hy => by simp [halone y hy]
  have hraces : s.cur.races c = [] := by rw [Unit.races, hnone]; rfl
  have hacc : s.cur.accRaces c = [] := by rw [Unit.accRaces, hnone]; exact ite_self _
  simp only [State.racing, hraces, hacc, List.isEmpty_nil, Bool.and_self, if_true, hf, Ran.mapState, List.zipIdx_nil, List.foldl_nil]
  exact ⟨_, _, rfl⟩

/-- A command alone in flight has done all it has to do, and waits for its cycles to pass; its set leaves the class queues (05 R99, 16 R289). -/
theorem conclude_placed {before s : State} {y : Inflight} (hin : s.cur.inflight = [y]) (hclass : ∀ x ∈ s.cur.classQ, x.isPlace y.command = true)
    (replies : List Word) (f : Flags) :
    before.conclude y.command (.done s replies f) = { s with cur := { s.cur with classQ := [], inflight := [{ y with
      replies := y.replies ++ replies, flags := y.flags ||| f ||| y.command.flags, waiting := false, todo := false,
      until_ := (before.finish s y.command y.feed none).at_, feed := (before.finish s y.command y.feed none).feed,
      fed := (before.finish s y.command y.feed none).fed }] } } := by
  have hdrop : ∀ l, ({ s.cur with inflight := l } : Unit).dropPlace y.command = { s.cur with classQ := [], inflight := l } := fun l => by
    rw [Unit.dropPlace, List.filter_eq_nil_iff.mpr fun x hx => by simp [hclass x hx]]
  rw [State.conclude]
  dsimp only
  rw [inflight?_alone hin, onInflight_alone hin, hdrop]

/-- Alone in flight, a command that completes in its one run stays in flight until its cycles have passed. -/
theorem runStarted_done {s r : State} {c : Command} {start : Nat} (hin : s.cur.inflight = [c.launched start])
    (hflags : c.flags = 0) (htrap : ∀ w : State, w.startTrap c = .ok w)
    (hrun : runCommand { s with cur := { s.cur with phase := c.phase } } c = .done r [] 0) (hrin : r.cur.inflight = [c.launched start])
    (hrclass : ∀ x ∈ r.cur.classQ, x.isPlace c = true)
    (hlater : ∀ (before t : State) (y : Inflight), t.cur.inflight = [y] → y.command = c → start < (before.finish t c start none).at_) :
    ∃ y, Inflight.HasRun y c start [] 0 ∧
      s.runStarted (c.launched start) = { r with cur := { r.cur with phase := s.cur.phase, classQ := [], inflight := [y] } } := by
  let w : State := { s with cur := { s.cur with phase := c.phase } }
  have halone : ∀ y ∈ w.cur.inflight, y.command.queue = c.queue := by
    intro y hy
    rw [show w.cur.inflight = _ from hin, List.mem_singleton] at hy
    rw [hy]; rfl
  obtain ⟨former, formerAcc, hracing⟩ := racing_alone (f := fun s => runCommand s c) halone hrun
  let y : Inflight := { c.launched start with former := former (c.launched start), formerAcc := formerAcc (c.launched start) }
  let q : State := { r with cur := { r.cur with inflight := [y] } }
  have hran : w.racing c (fun s => runCommand s c) = .done q [] 0 := by
    rw [hracing]
    exact congrArg (fun u => Ran.done { r with cur := u } [] 0) (onInflight_alone (u := r.cur) hrin _)
  have hconclude := conclude_placed (before := w) (s := q) (y := y) rfl hrclass [] 0
  refine ⟨{ y with
      replies := y.replies ++ [], flags := y.flags ||| 0 ||| y.command.flags, waiting := false, todo := false,
      until_ := (w.finish q y.command y.feed none).at_, feed := (w.finish q y.command y.feed none).feed,
      fed := (w.finish q y.command y.feed none).fed }, ?_, ?_⟩
  · exact {
      command := rfl, replies := rfl, waiting := rfl, todo := rfl
      flags := by show 0#5 ||| 0 ||| c.flags = 0; simp [hflags]
      later := hlater w q y rfl rfl }
  · rw [State.runStarted, State.inPhase]
    dsimp only
    rw [show (c.launched start).command = c from rfl, htrap]
    dsimp only
    rw [show State.racing _ c _ = _ from hran, show State.conclude _ c _ = _ from hconclude]
    rfl

/-! ### The cycles of a matrix command (09 R197-R208) -/

/-- Alone in flight, a matrix command that feeds the array or takes cycles of its own retires in a later cycle than its start. -/
theorem finish_later_of_matrix {c : Command} (hq : c.queue = 3) (hempty : c.empty = false) (hcycles : feeds c.instr = true ∨ 0 < c.stillCycles)
    (before : State) {s : State} {start : Nat} {y : Inflight} (hin : s.cur.inflight = [y]) (hy : y.command = c) :
    start < (before.finish s c start none).at_ := by
  have hearlier : s.cur.earlierM c = [] := by simp [Unit.earlierM, hin, hy, hq]
  have hlanding : s.cur.landing c start = start := by rw [Unit.landing, hearlier]; rfl
  simp only [State.finish, hempty, hq, Bool.false_eq_true, if_false]
  rw [hlanding, hearlier]
  show start < (if feeds c.instr then (_ : Finish) else _).at_
  split
  · show start < start + _ + _ + _ + 262
    omega
  · rename_i hfeeds
    exact Nat.lt_add_of_pos_right (hcycles.resolve_left hfeeds)

/-! ### What a push has checked (06 R126, R127) -/

/-- A pushed command is fresh, and has met the checks of its own description on what it has captured; of its operands, where not all are empty, none is. -/
structure State.Checks (s : State) (i : Instr) (p : PushForm) (c : Command) : Prop where
  fresh : c.started = false
  flags : c.flags = 0
  form  : ∃ key pat d, formCheck i c.fmt c.da c.db c.dc c.extra key pat s.cur d = true
  full  : c.empty = false → p.da.isSome = true → dEmpty c.da = false
  bare  : p.db = none → c.db = 0

theorem checks_of_push {s : State} {i : Instr} {p : PushForm} {forms : List EdgeForm} {c : Command} (h : s.pushCommand i p forms = some c) :
    s.Checks i p c := by
  simp only [State.pushCommand] at h
  split at h
  case h_2 => cases h
  rename_i hb _
  split at h
  case h_2 => cases h
  obtain ⟨-, h⟩ := Option.ite_none_left_eq_some.mp h
  obtain ⟨-, h⟩ := Option.ite_none_left_eq_some.mp h
  obtain ⟨hfull, h⟩ := Option.ite_none_left_eq_some.mp h
  obtain ⟨hform, h⟩ := Option.ite_none_left_eq_some.mp h
  cases h
  refine ⟨rfl, rfl, ⟨_, _, _, by simpa using hform⟩, fun hempty hda => ?_, fun hnone => ?_⟩
  · rw [Bool.not_eq_true, show (!List.isEmpty _ && List.all _ dEmpty) = false from hempty, Bool.not_false, Bool.true_and, List.any_eq_false] at hfull
    exact Bool.eq_false_iff.mpr (hfull _ (by simp [hda]))
  · rw [hnone] at hb
    exact (Option.some.inj hb).symm

theorem matCheck_of_checks {s : State} {i : Instr} {p : PushForm} {c : Command} (hp : pushForm i = some p) (hq : p.queue = 3) (h : s.Checks i p c) :
    matCheck i c.da c.db c.dc c.extra = true := by
  obtain ⟨key, pat, d, hform⟩ := h.form
  simpa [formCheck, hp, hq] using hform

/-- A matrix command of which no operand is a ring meets nothing at its start before what is its own (12 R249). -/
theorem startTrap_of_matrix {c : Command} (hq : c.queue = 3) (ha : dSpace c.da ≠ spRing) (hb : dSpace c.db ≠ spRing) (s : State) :
    s.startTrap c = .ok s := by
  have htouch : ∀ (t : State) (d : Desc), dSpace d ≠ spRing → t.touchRing d = some t := fun t d hd => by simp [State.touchRing, hd]
  simp [State.startTrap, hq, htouch, ha, hb]

theorem runCommand_matrix {c : Command} (hq : c.queue = 3) (hempty : c.empty = false) (s : State) : runCommand s c = runMatrix s c := by
  rw [runCommand, hempty, if_neg Bool.false_ne_true, hq]
  rfl

/-! ### A matrix command that starts (06 R128, 09 R196) -/

/-- The unit `u`, but with what a push and a start move as `v` has it: the sequencer's place, window and clock, the queues, the engine's command with its
set and tokens, and the landing of vector and mask registers. -/
def Unit.startedAs (u v : Unit) : Unit :=
  { u with
    queues := v.queues, nextNum := v.nextNum, pc := v.pc, lcount := v.lcount, lbody := v.lbody, time := v.time, justGiven := v.justGiven,
    window := v.window, lastStart := v.lastStart, fresh := v.fresh, inflight := v.inflight, tokens := v.tokens, handed := v.handed,
    permute := v.permute, vready := v.vready, mready := v.mready, classQ := v.classQ, committed := v.committed }

/-- The machine at the clock `clock`, its current unit started as `v`. -/
def State.startedAs (s : State) (clock : Nat) (v : Unit) : State := { s with clock := clock, cur := s.cur.startedAs v }

/-- A pushed command as it starts in free mode, with the release that its writes carry (06 R128, 16 R295). -/
def Command.starting (c : Command) (carrier : Option (BitVec 3 × BitVec 16)) : Command := { c with due := 0, carrier := carrier }

/-- In the machine `w` the command `k`, which the machine `s` pushes as `c`, is alone in flight and about to run. -/
structure State.Starts (s w : State) (c k : Command) : Prop where
  state   : ∃ clock v, w = s.startedAs clock v
  alone   : ∃ start, w.cur.inflight = [k.launched start]
  command : ∃ carrier, k = c.starting carrier

/-- The machine once a matrix command has run that leaves the accumulator store `a`, slips as `m`, and has used free values (09 R198). -/
def State.leaves (s : State) (a : Memory) (m : Word) (free : Nat) : State := { s with free := free, cur := { s.cur with acc := a, mslip := m } }

/-- How the machine `t` in the cycle after the push of the matrix command `c` differs from the machine `s` before it: its accumulator store is `a`, the
command has run and is alone in flight, and the sequencer has gone on (06 R126-R128). -/
structure State.RanMatrix (s t : State) (c : Command) (a : Memory) : Prop where
  regs    : s.KeepsRegs t
  vectors : t.cur.v = s.cur.v
  masks   : t.cur.m = s.cur.m
  hasRun  : t.HasRun c [] (· = 0)
  next    : s.NextWord t
  bytes   : ∀ g x, t.plainByte g x = s.plainByte g x
  devs    : t.devs = s.devs
  store   : t.cur.acc = a
  epoch   : t.cur.accEpoch = s.cur.accEpoch
  gid     : t.cur.gid = s.cur.gid

/-- In the cycle after the push of the command `c` its start leaves the unit as `v` and the command as `k`, whose word has committed, and runs it (06
R124, R128). -/
structure State.Begins (s : State) (c k : Command) (v : Unit) : Prop where
  starts : s.Starts (s.startedAs (s.clock + 1) v) c k
  alone  : v.inflight = [k.launched (s.cur.time + 1)]
  places : ∀ x ∈ v.classQ, x.isPlace k = true
  queues : v.queues = s.cur.queues
  window : v.window = []
  time   : v.time = s.cur.time + 1
  place  : v.pc = s.cur.advance.pc ∧ v.lcount = s.cur.advance.lcount ∧ v.lbody = s.cur.advance.lbody
  runs   : (s.pushed c s.cur.pc).start { c with due := 0 } = (s.startedAs (s.clock + 1) v).runStarted (k.launched (s.cur.time + 1))

section
variable {s : State} {i : Instr} {p : PushForm} {c : Command} (h : s.RunsNow i p c s.cur.pc [])
include h

/-- The command that heads its queue starts with the machine's other parts as the push found them, and runs. -/
theorem State.RunsNow.start_matrix (hq : c.queue = 3) (hfresh : c.started = false) : ∃ v carrier, s.Begins c (c.starting carrier) v := by
  have hc7 : c.queue ≠ 7 := by rw [hq]; decide
  have hqueue : (s.pushed c s.cur.pc).cur.queue c.queue = [c] := by rw [h.queue_pushed hc7 hc7, if_pos rfl]
  have htime : (s.pushed c s.cur.pc).cur.time = s.cur.time + 1 := by rw [pushed_eq]; rfl
  obtain ⟨carrier, w, hbegins, hstart⟩ := start_runs (s := s.pushed c s.cur.pc) (c := { c with due := 0 })
    (e := { pc := s.cur.pc, before := s.cur.toSeqRegs, push := some (c.queue, c.num), store := none, load := none, done := s.cur.time + 1 })
    (by rw [pushed_eq]; exact h.prompt) (by rw [pushed_eq]; exact h.quiet.classes) h.noClash hfresh (by rw [pushed_eq]; exact h.meets)
    (by rw [show (_ : BitVec 3) = _ from hq]; decide) (by rw [hqueue]; rfl) (by rw [pushed_eq]; exact h.quiet.engines)
    (by rw [pushed_eq]; exact congrArg (· ++ _) h.window) rfl rfl rfl (Nat.le_of_eq htime.symm)
  rw [htime, Nat.max_eq_left (Nat.zero_le _)] at hbegins hstart
  rw [pushed_eq s] at hbegins
  obtain ⟨tokens, handed, permute, vready, mready, hw⟩ := hbegins
  have hcur : w = s.cur.startedAs w := by rw [hw]; rfl
  have hin : w.inflight = [(c.starting carrier).launched (s.cur.time + 1)] := by
    rw [hw]; exact congrArg (· ++ [_]) h.quiet.engines
  have hqueues : w.queues = s.cur.queues := by
    have hset : w.queues = (s.cur.queues.set (qidx c.queue) (s.cur.queue c.queue ++ [c])).set (qidx c.queue)
        (((s.cur.queued c s.cur.pc).queue c.queue).drop 1) := by rw [hw]; rfl
    rw [hset, queue_queued s.cur hc7 hc7, if_pos rfl, h.queue_nil]
    exact set_set_nil _ (h.queue_nil c.queue)
  exact ⟨w, carrier, {
    starts := ⟨⟨_, w, rfl⟩, ⟨_, hin⟩, carrier, rfl⟩, alone := hin, queues := hqueues
    places := by rw [hw]; exact isPlace_of_mem_places h.quiet.classes
    window := by rw [hw]
    time := by rw [hw]; rfl
    place := by rw [hw]; exact ⟨rfl, rfl, rfl⟩
    runs := by rw [hstart, pushed_eq, State.startedAs, ← hcur]; rfl }⟩

/-- A matrix command that completes in its one run has run in the cycle after its push. -/
theorem State.RunsNow.settle_matrix (hq : c.queue = 3) (hchecks : s.Checks i p c) (hempty : c.empty = false)
    (hring : dSpace c.da ≠ spRing ∧ dSpace c.db ≠ spRing) (hcycles : feeds c.instr = true ∨ 0 < c.stillCycles) {P : Memory → Prop}
    (hrun : ∀ w k, s.Starts w c k → ∃ a m free, P a ∧ runMatrix w k = .done (w.leaves a m free) [] 0) :
    ∃ a, P a ∧ s.RanMatrix (s.pushed c s.cur.pc).settle c a := by
  have hc7 : c.queue ≠ 7 := by rw [hq]; decide
  obtain ⟨v, carrier, hbegins⟩ := h.start_matrix hq hchecks.fresh
  obtain ⟨a, m, free, ha, hran⟩ := hrun _ _ hbegins.starts
  have hphase : ({ s.cur.startedAs v with phase := c.phase } : Unit) = s.cur.startedAs v := by rw [(captures h.command).phase]; rfl
  have hcommand : runCommand { s.startedAs (s.clock + 1) v with cur := { s.cur.startedAs v with phase := c.phase } } (c.starting carrier) =
      .done ((s.startedAs (s.clock + 1) v).leaves a m free) [] 0 := by
    rw [hphase]
    exact (runCommand_matrix (c := c.starting carrier) hq hempty _).trans hran
  obtain ⟨y, hy, hstarted⟩ := runStarted_done (s := s.startedAs (s.clock + 1) v) hbegins.alone hchecks.flags
    (startTrap_of_matrix (c := c.starting carrier) hq hring.1 hring.2) hcommand hbegins.alone hbegins.places
    fun before t y hty hyc => finish_later_of_matrix (c := c.starting carrier) hq hempty hcycles before hty hyc
  have hstart := hbegins.runs
  rw [hstarted] at hstart
  generalize ht : ({ State.leaves _ a m free with cur := _ } : State) = t at hstart
  have hempties : ∀ q, t.cur.queue q = [] := fun q => by
    rw [← ht]
    show v.queues[qidx q] = []
    rw [hbegins.queues]
    exact h.queue_nil q
  have halone : t.EndsAlone y := by
    refine ⟨?_, ?_, ?_, fun q _ => hempties q, hy.waiting, hy.todo⟩ <;> rw [← ht]
    · exact h.prompt
    · exact hbegins.window
  have hnow : t.cur.time = s.cur.time + 1 := by rw [← ht]; exact hbegins.time
  have hlater : t.cur.time < y.until_ := by rw [hnow]; exact hy.later
  rw [h.settle_pushed hc7 hchecks.fresh hstart halone hempties hlater]
  refine ⟨a, ha, ?regs, ?vectors, ?masks, ⟨y, halone.inflight, ?_, ?_, ?_, hy.replies, hy.flags, hy.waiting, hy.todo, hlater⟩, ?next, ?bytes, ?devs,
    ?store, ?epoch, ?gid⟩
  case next => rw [← ht]; exact hbegins.place
  case regs => rw [← ht]; exact fun _ => rfl
  case bytes => rw [← ht]; exact fun _ _ => rfl
  case vectors | masks | devs | store | epoch | gid => rw [← ht]; rfl
  all_goals exact hy.command ▸ rfl

end

/-- A matrix command whose engine is idle, and which completes in its one run, has run when its instruction ends (06 R123, R126-R128). -/
theorem matrix_runs {s : State} {i : Instr} {p : PushForm} {c : Command} (h : s.RunsNow i p c s.cur.pc []) (hq : p.queue = 3)
    {ds : List DReg} (hds : p.descrs i s.cur = ds) (hx : s.Executes i p.scalar.toList ds) (hempty : c.empty = false)
    (hring : dSpace c.da ≠ spRing ∧ dSpace c.db ≠ spRing) (hcycles : feeds c.instr = true ∨ 0 < c.stillCycles) {P : Memory → Prop}
    (hrun : ∀ w k, s.Starts w c k → ∃ a m free, P a ∧ runMatrix w k = .done (w.leaves a m free) [] 0) :
    ∃ t a, exec i s = .next t ∧ P a ∧ s.RanMatrix t c a := by
  have hc : c.queue = 3 := (captures h.command).queue.trans hq
  have hbody : s.Bodied i [] s.cur.pc :=
    { binds := fun ⟨_, _, _, hbind⟩ => by
        have hform := h.form
        rw [hbind] at hform
        cases hform
        exact absurd (show (6 : BitVec 3) = 3 from hq) (by decide)
      alone := fun _ => ⟨rfl, rfl⟩ }
  obtain ⟨k, hexec⟩ := h.exec_settles_later (hds ▸ hx) hbody
  have hstarts : ∀ w j, (s.pass k).Starts w c j → s.Starts w c j := by
    rintro w j ⟨⟨clock, v, hw⟩, halone, hcommand⟩
    exact ⟨⟨clock, v, hw⟩, halone, hcommand⟩
  obtain ⟨a, ha, hran⟩ := (h.pass hc k).settle_matrix hc (checks_of_push (forms := []) h.command) hempty hring hcycles
    fun w j hw => hrun w j (hstarts w j hw)
  obtain ⟨hpc, hcount, hlast⟩ := hran.next
  obtain ⟨hpc', hcount', hlast'⟩ := advance_congr (u := s.cur) (v := (s.pass k).cur) rfl rfl rfl rfl
  exact ⟨_, a, hexec, ha, {
    regs := hran.regs, vectors := hran.vectors, masks := hran.masks, hasRun := hran.hasRun, bytes := hran.bytes, devs := hran.devs
    next := ⟨hpc.trans hpc', hcount.trans hcount', hlast.trans hlast'⟩
    store := hran.store, epoch := hran.epoch, gid := hran.gid }⟩

end Sys2Proof.Machine
end

section
/-! PROOFS. The matrix engine (09): accumulator regions and exact integer products, for O58. -/

namespace Sys2Proof.Machine
open Sys2Proof

/-! ### Runs of elements as bytes (00 R5, 07 R152) -/

theorem fromLe_leBytes (n x : Nat) : fromLe (leBytes n x) = x % 2 ^ (8 * n) := by
  refine Nat.eq_of_testBit_eq fun k => ?_
  rw [fromLe_testBit, Nat.testBit_mod_two_pow]
  by_cases hk : k / 8 < n
  · rw [List.getD_eq_getElem _ _ (by rwa [leBytes_length]), leBytes_getElem, BitVec.getLsbD_ofNat, Nat.testBit_shiftRight,
      Nat.div_add_mod, decide_eq_true (Nat.mod_lt k (by decide)), decide_eq_true (by omega)]
  · rw [List.getD_eq_default _ _ (by rw [leBytes_length]; omega), decide_eq_false (by omega)]
    simp

theorem leBytes_run_length (n : Nat) (xs : List Nat) : (xs.flatMap (leBytes n)).length = n * xs.length := by
  induction xs with
  | nil => rfl
  | cons x xs ih => rw [List.flatMap_cons, List.length_append, ih, leBytes_length, List.length_cons, Nat.mul_succ, Nat.add_comm]

/-- Byte `k` of element `j` of a run. -/
theorem leBytes_run_getD (n : Nat) (xs : List Nat) {j k : Nat} (hj : j < xs.length) (hk : k < n) :
    (xs.flatMap (leBytes n)).getD (j * n + k) 0 = (leBytes n (xs.getD j 0)).getD k 0 := by
  induction xs generalizing j with
  | nil => cases hj
  | cons x xs ih =>
    rw [List.flatMap_cons]
    cases j with
    | zero => rw [List.getD_append _ _ _ _ (by rw [leBytes_length]; omega), Nat.zero_mul, Nat.zero_add]; rfl
    | succ j =>
      have hshift : (j + 1) * n + k - n = j * n + k := by rw [Nat.succ_mul]; omega
      rw [List.getD_append_right _ _ _ _ (by rw [leBytes_length, Nat.succ_mul]; omega), leBytes_length, hshift,
        ih (Nat.lt_of_succ_lt_succ hj), List.getD_cons_succ]

/-! ### The accumulator store (09 R200) -/

/-- The machine with another accumulator store in the current unit. -/
def State.withAcc (s : State) (a : Memory) : State := { s with cur := { s.cur with acc := a } }

@[simp] theorem withAcc_withAcc (s : State) (a b : Memory) : (s.withAcc a).withAcc b = s.withAcc b := rfl

/-- The bytes of the store after a write. -/
theorem accByte_write (u : Unit) (a : Nat) (data : List Byte) (x : Nat) :
    ({ u with acc := u.acc.write (accAddr a) data } : Unit).accByte x =
      if a ≤ x ∧ x < a + data.length then data.getD (x - a) 0 else u.accByte x := by
  have hread : ∀ v : Unit, v.accByte x = (v.acc.get? (accAddr x)).getD (Config.freeByte v.accEpoch (2 ^ 60 + v.gid.toNat * 2 ^ 20 + x)) :=
    fun _ => rfl
  have hin : accAddr a ≤ accAddr x ∧ accAddr x < accAddr a + data.length ↔ a ≤ x ∧ x < a + data.length := by simp only [accAddr]; omega
  have hindex : accAddr x - accAddr a = x - a := by simp only [accAddr]; omega
  have hsection : ¬ accAddr x < sramBase := Nat.not_lt.mpr (Nat.le_add_right _ _)
  rw [hread, hread, Memory.write_get]
  by_cases h : a ≤ x ∧ x < a + data.length
  · rw [dif_pos (hin.mpr h), if_neg fun e => hsection e.1, if_pos h, List.getD_eq_getElem _ _ (by omega)]
    simp only [hindex, Option.getD_some]
  · rw [dif_neg fun e => h (hin.mp e), if_neg h]

theorem putAcc_own (s : State) (a : Nat) (data : List Byte) : s.putAcc s.cur.gid a data = s.withAcc (s.cur.acc.write (accAddr a) data) := by
  rw [State.putAcc, unitAt_cur]
  exact if_pos rfl

/-! ### Accumulator regions (09 R196, R200) -/

/-- The bytes of an element, and the address of a row's first. -/
def elemSize (d : Desc) : Nat := elemBits (dFmt d) / 8
def rowStart (d : Desc) (r : Nat) : Nat := ((dBase d).toNat + r * dStride d).toNat

/-- A region of one quire, its rows in the store and apart from each other. -/
structure RegionPlaced (d : Desc) : Prop where
  own   : hasFlag d flagTeam = false
  size  : elemBits (dFmt d) = 8 * elemSize d
  wide  : elemBits (dFmt d) ≠ 4
  above : ∀ r, r < dRows d → 0 ≤ ((dBase d).toNat + r * dStride d : Int)
  apart : ∀ r q, r < dRows d → q < dRows d → r ≠ q →
    rowStart d r + dCols d * elemSize d ≤ rowStart d q ∨ rowStart d q + dCols d * elemSize d ≤ rowStart d r

theorem regionFmt_size {f : BitVec 4} (h : regionFmt f = true) : elemBits f = 8 * (elemBits f / 8) ∧ elemBits f ≠ 4 := by revert f; decide

/-- Two rows of a region whose stride is no shorter than a row lie apart. -/
theorem rows_apart {base : Nat} {stride : Int} {width r q : Nat} (hstride : width ≤ stride.natAbs) (hlt : r < q)
    (hr : 0 ≤ (base + r * stride : Int)) (hq : 0 ≤ (base + q * stride : Int)) :
    (base + r * stride).toNat + width ≤ (base + q * stride).toNat ∨ (base + q * stride).toNat + width ≤ (base + r * stride).toNat := by
  have hgap : (q * stride : Int) = r * stride + (q - r) * stride := by ring
  rcases le_total 0 stride with hpos | hneg
  · have hmore : stride ≤ (q - r) * stride := le_mul_of_one_le_left hpos (by omega)
    omega
  · have hless : (q - r) * stride ≤ stride := by
      have := mul_le_mul_of_nonpos_right (show (1 : Int) ≤ q - r by omega) hneg
      rwa [one_mul] at this
    omega

/-- A region that its push has checked, whose rows do not overlap (09 R200). -/
theorem regionPlaced {d : Desc} {flags : BitVec 8} (hok : regionOk d flags = true) (hown : hasFlag d flagTeam = false)
    (hapart : dRows d ≤ 1 ∨ rowBytes d ≤ (dStride d).natAbs) : RegionPlaced d := by
  simp only [regionOk, hown, Bool.and_eq_true, Bool.false_eq_true, if_false, accSpanOk, decide_eq_true_eq] at hok
  obtain ⟨⟨⟨⟨⟨⟨-, hfmt⟩, -⟩, -⟩, -⟩, -⟩, hlow, -⟩ := hok
  obtain ⟨hsize, hwide⟩ := regionFmt_size hfmt
  have habove : ∀ r, r < dRows d → 0 ≤ ((dBase d).toNat + r * dStride d : Int) := by
    intro r hr
    have hlast : min 0 (((dRows d - 1 : Nat) : Int) * dStride d) ≤ r * dStride d := by
      rcases le_total 0 (dStride d) with hpos | hneg
      · exact (min_le_left _ _).trans (mul_nonneg (by omega) hpos)
      · exact (min_le_right _ _).trans (mul_le_mul_of_nonpos_right (by omega) hneg)
    rw [spanLo] at hlow
    omega
  refine ⟨hown, hsize, hwide, habove, fun r q hr hq hne => ?_⟩
  have hstride : dCols d * elemSize d ≤ (dStride d).natAbs := by
    refine le_trans (Nat.le_of_eq ?_) (hapart.resolve_left (by omega))
    rw [rowBytes, rowBits, hsize, ceilDiv, elemSize, show dCols d * (8 * (elemBits (dFmt d) / 8)) = 8 * (dCols d * (elemBits (dFmt d) / 8)) by ring]
    omega
  rcases lt_or_gt_of_ne hne with hlt | hgt
  · exact rows_apart hstride hlt (habove r hr) (habove q hq)
  · exact (rows_apart hstride hgt (habove q hq) (habove r hr)).symm

namespace RegionPlaced
variable {d : Desc} (hd : RegionPlaced d)
include hd

/-- The address of an element lies in its row. -/
theorem elem_addr {r : Nat} (hr : r < dRows d) (j : Nat) :
    ((dBase d).toNat + r * dStride d + (j * (elemBits (dFmt d) / 8) : Nat)).toNat = rowStart d r + j * elemSize d := by
  rw [Int.toNat_add (hd.above r hr) (Int.natCast_nonneg _), Int.toNat_natCast]
  rfl

theorem regionElem_eq (s : State) {r : Nat} (hr : r < dRows d) (j : Nat) : s.regionElem d r j =
    fromLe ((List.range (elemSize d)).map fun k => s.cur.accByte (rowStart d r + j * elemSize d + k)) := by
  simp only [State.regionElem, regionRowAt, hd.own, Bool.false_and, Bool.false_eq_true, if_false, unitAt_cur, hd.elem_addr hr]
  rfl

theorem regionElem_lt (s : State) {r : Nat} (hr : r < dRows d) (j : Nat) : s.regionElem d r j < 2 ^ elemBits (dFmt d) := by
  rw [hd.regionElem_eq s hr, hd.size]
  refine (fromLe_lt _).trans_eq ?_
  rw [List.length_map, List.length_range]

/-- An element is what the store, its epoch and its quire make of it. -/
theorem regionElem_congr {s t : State} (hacc : t.cur.acc = s.cur.acc) (hepoch : t.cur.accEpoch = s.cur.accEpoch) (hgid : t.cur.gid = s.cur.gid)
    {r : Nat} (hr : r < dRows d) (j : Nat) : t.regionElem d r j = s.regionElem d r j := by
  simp only [hd.regionElem_eq _ hr, Unit.accByte, hacc, hepoch, hgid]

/-- A run of elements of one row is one write to the store. -/
theorem putBlock_row (s : State) {q : Nat} (hq : q < dRows d) (j : Nat) (xs : List Nat) : s.putBlock d q j [xs] =
    s.withAcc (s.cur.acc.write (accAddr (rowStart d q + j * elemSize d)) (xs.flatMap (leBytes (elemSize d)))) := by
  have hrow : s.putBlock d q j [xs] = s.putAcc s.cur.gid ((dBase d).toNat + q * dStride d + (j * (elemBits (dFmt d) / 8) : Nat)).toNat
      (elemsToBytes (elemBits (dFmt d)) xs) := by
    simp [State.putBlock, regionRowAt, hd.own]
  rw [hrow, putAcc_own, hd.elem_addr hq, elemsToBytes, if_neg hd.wide]
  rfl

/-- The elements after a write of a run of one row. -/
theorem regionElem_putBlock_row (s : State) {q r k j : Nat} {xs : List Nat} (hq : q < dRows d) (hr : r < dRows d) (hk : k < dCols d)
    (hj : j + xs.length ≤ dCols d) : (s.putBlock d q j [xs]).regionElem d r k =
      if r = q ∧ j ≤ k ∧ k < j + xs.length then xs.getD (k - j) 0 % 2 ^ elemBits (dFmt d) else s.regionElem d r k := by
  rw [hd.putBlock_row s hq, hd.regionElem_eq _ hr, hd.regionElem_eq _ hr]
  have hbyte : ∀ x, (s.withAcc (s.cur.acc.write (accAddr (rowStart d q + j * elemSize d)) (xs.flatMap (leBytes (elemSize d))))).cur.accByte x =
      if rowStart d q + j * elemSize d ≤ x ∧ x < rowStart d q + j * elemSize d + elemSize d * xs.length
      then (xs.flatMap (leBytes (elemSize d))).getD (x - (rowStart d q + j * elemSize d)) 0 else s.cur.accByte x := fun x => by
    rw [← leBytes_run_length]
    exact accByte_write s.cur _ _ x
  simp only [hbyte]
  have hrun : j * elemSize d + elemSize d * xs.length ≤ dCols d * elemSize d := by
    rw [Nat.mul_comm (elemSize d), ← Nat.add_mul]; exact Nat.mul_le_mul_right _ hj
  have hend : k * elemSize d + elemSize d ≤ dCols d * elemSize d := by
    rw [← Nat.succ_mul]; exact Nat.mul_le_mul_right _ hk
  by_cases hin : r = q ∧ j ≤ k ∧ k < j + xs.length
  · obtain ⟨rfl, hjk, hkx⟩ := hin
    rw [if_pos ⟨rfl, hjk, hkx⟩, hd.size, ← fromLe_leBytes]
    refine congrArg fromLe (List.ext_getElem (by simp [leBytes_length]) fun b hb _ => ?_)
    rw [List.length_map, List.length_range] at hb
    have hindex : (k - j) * elemSize d + j * elemSize d = k * elemSize d := by rw [← Nat.add_mul]; congr 1; omega
    have hlast : (k - j) * elemSize d + elemSize d ≤ elemSize d * xs.length := by
      rw [Nat.mul_comm (elemSize d), ← Nat.succ_mul]; exact Nat.mul_le_mul_right _ (by omega)
    rw [List.getElem_map, List.getElem_range, if_pos (by omega),
      show rowStart d r + k * elemSize d + b - (rowStart d r + j * elemSize d) = (k - j) * elemSize d + b by omega,
      leBytes_run_getD _ _ (by omega) hb, List.getD_eq_getElem]
  · rw [if_neg hin]
    refine congrArg fromLe (List.map_congr_left fun b hb => if_neg ?_)
    rw [List.mem_range] at hb
    by_cases hrow : r = q
    · subst hrow
      rcases Nat.lt_or_ge k j with hlow | hhigh
      · have hbefore : k * elemSize d + elemSize d ≤ j * elemSize d := by rw [← Nat.succ_mul]; exact Nat.mul_le_mul_right _ hlow
        omega
      · have hafter : j * elemSize d + elemSize d * xs.length ≤ k * elemSize d := by
          rw [Nat.mul_comm (elemSize d), ← Nat.add_mul]; exact Nat.mul_le_mul_right _ (by omega)
        omega
    · have := hd.apart r q hr hq hrow
      omega

end RegionPlaced

/-- A block is written row by row. -/
theorem putBlock_cons (s : State) (d : Desc) (i j : Nat) (xs : List Nat) (rows : List (List Nat)) :
    s.putBlock d i j (xs :: rows) = (s.putBlock d i j [xs]).putBlock d (i + 1) j rows := by
  simp only [State.putBlock, List.zipIdx_cons', List.foldl_cons, List.foldl_map, List.zipIdx_nil, List.map_nil, List.foldl_nil]
  simp only [Prod.map_fst, Prod.map_snd, id_eq, Nat.add_assoc, Nat.add_comm 1]

namespace RegionPlaced
variable {d : Desc} (hd : RegionPlaced d)
include hd

/-- A block changes nothing but the store. -/
theorem putBlock_withAcc (s : State) {i j : Nat} {rows : List (List Nat)} (hi : i + rows.length ≤ dRows d) : ∃ a, s.putBlock d i j rows = s.withAcc a := by
  induction rows generalizing s i with
  | nil => exact ⟨s.cur.acc, rfl⟩
  | cons xs rows ih =>
    rw [List.length_cons] at hi
    obtain ⟨a, ha⟩ := ih (s.putBlock d i j [xs]) (i := i + 1) (by omega)
    exact ⟨a, by rw [putBlock_cons, ha, hd.putBlock_row s (by omega), withAcc_withAcc]⟩

/-- The elements after a write of a block of `n` columns (09 R196, R203). -/
theorem regionElem_putBlock (s : State) {i j n r k : Nat} {rows : List (List Nat)} (hrows : ∀ xs ∈ rows, xs.length = n) (hi : i + rows.length ≤ dRows d)
    (hj : j + n ≤ dCols d) (hr : r < dRows d) (hk : k < dCols d) : (s.putBlock d i j rows).regionElem d r k =
      if i ≤ r ∧ r < i + rows.length ∧ j ≤ k ∧ k < j + n then (rows.getD (r - i) []).getD (k - j) 0 % 2 ^ elemBits (dFmt d)
      else s.regionElem d r k := by
  induction rows generalizing s i with
  | nil => exact (if_neg (by simp only [List.length_nil]; omega)).symm
  | cons xs rows ih =>
    have hxs := hrows xs List.mem_cons_self
    rw [List.length_cons] at hi
    rw [putBlock_cons, ih _ (fun ys hys => hrows ys (List.mem_cons_of_mem xs hys)) (by omega),
      hd.regionElem_putBlock_row s (by omega) hr hk (by omega), hxs, List.length_cons]
    by_cases hfirst : r = i
    · subst hfirst
      rw [if_neg (by omega), Nat.sub_self, List.getD_cons_zero]
      exact if_congr (by omega) rfl rfl
    · rw [if_neg (c := r = i ∧ _) (fun e => hfirst e.1)]
      by_cases hlater : i < r
      · rw [show r - i = r - (i + 1) + 1 by omega, List.getD_cons_succ]
        exact if_congr (by omega) rfl rfl
      · rw [if_neg (by omega), if_neg (by omega)]

end RegionPlaced

/-! ### Exact sums of integer products (07 R170) -/

/-- The exact sum of the products of two runs of integers. -/
def exactDot (xs ys : List FpVal) : Int := ((xs.zip ys).map fun p => p.1.toInt * p.2.toInt).sum

theorem toSigned_modEq (x : Nat) : toSigned 32 x ≡ x [ZMOD 2 ^ 32] := by
  rw [Int.ModEq, toSigned]
  split <;> omega

theorem truncInt_modEq (x : Int) : (truncInt 32 x : Int) ≡ x [ZMOD 2 ^ 32] := by
  rw [Int.ModEq, truncInt_eq]
  omega

theorem foldl_add_products (l : List (FpVal × FpVal)) (t : Int) :
    l.foldl (fun (t : Int) p => t + p.1.toInt * p.2.toInt) t = t + (l.map fun p => p.1.toInt * p.2.toInt).sum := by
  induction l generalizing t with
  | nil => exact (Int.add_zero t).symm
  | cons p l ih => rw [List.foldl_cons, ih, List.map_cons, List.sum_cons, Int.add_assoc]

/-- A group adds its exact sum modulo 2^32 (07 R170). -/
theorem intGroup_modEq (acc : Nat) (xs ys : List FpVal) : (intGroup acc xs ys : Int) ≡ acc + exactDot xs ys [ZMOD 2 ^ 32] := by
  rw [intGroup, foldl_add_products]
  exact (truncInt_modEq _).trans ((toSigned_modEq acc).add_right _)

theorem accGroups_int {f : BitVec 4} (hf : floatOf f = none) (resid : Bool) (gs : List (List FpVal × List FpVal)) (acc : Nat) :
    ((accGroups f resid acc gs).1 : Int) ≡ acc + (gs.map fun g => exactDot g.1 g.2).sum [ZMOD 2 ^ 32] ∧ (accGroups f resid acc gs).2 = 0 := by
  have hgroup : ∀ a xs ys, accGroup f resid a xs ys = (intGroup a xs ys, 0) := fun a xs ys => by rw [accGroup, hf]
  induction gs generalizing acc with
  | nil => exact ⟨by rw [List.map_nil, List.sum_nil, Int.add_zero]; exact Int.ModEq.refl _, rfl⟩
  | cons g gs ih =>
    obtain ⟨hsum, hflags⟩ := ih (intGroup acc g.1 g.2)
    rw [accGroups, hgroup]
    refine ⟨?_, (congrArg ((0 : Flags) ||| ·) hflags).trans BitVec.or_zero⟩
    rw [List.map_cons, List.sum_cons, ← Int.add_assoc]
    exact hsum.trans ((intGroup_modEq acc g.1 g.2).add_right _)

/-- Groups of two runs that are cut alike sum to the whole. -/
theorem sum_exactDot_chunks {n : Nat} (hn : 0 < n) (a b : Nat) (xs ys : List FpVal) (ha : xs.length ≤ a) (hb : ys.length ≤ b) :
    (((chunksFrom n a xs).zip (chunksFrom n b ys)).map fun g => exactDot g.1 g.2).sum = exactDot xs ys := by
  induction a generalizing b xs ys with
  | zero => obtain rfl := List.length_eq_zero_iff.mp (Nat.le_zero.mp ha); rfl
  | succ a ih =>
    cases xs with
    | nil => rfl
    | cons x xs =>
      cases b with
      | zero => obtain rfl := List.length_eq_zero_iff.mp (Nat.le_zero.mp hb); rfl
      | succ b =>
        cases ys with
        | nil => rfl
        | cons y ys =>
          rw [List.length_cons] at ha hb
          rw [chunksFrom, chunksFrom, List.zip_cons_cons, List.map_cons, List.sum_cons,
            ih b _ _ (by rw [List.length_drop, List.length_cons]; omega) (by rw [List.length_drop, List.length_cons]; omega)]
          · simp only [exactDot, List.zip]; rw [← List.take_zipWith, ← List.drop_zipWith, List.map_take, List.map_drop, List.sum_take_add_sum_drop]
          · exact List.cons_ne_nil y ys
          · exact List.cons_ne_nil x xs

/-- A row times a column, onto an accumulator: the exact sum modulo 2^32, and no flag (07 R169, R170). -/
theorem accumulateAll_int {f : BitVec 4} (hf : floatOf f = none) (resid : Bool) {n : Nat} (hn : 0 < n) (acc : Nat) (xs ys : List FpVal) :
    (accumulateAll f resid n acc xs ys).1 % 2 ^ 32 = ((acc + exactDot xs ys) % 2 ^ 32).toNat ∧ (accumulateAll f resid n acc xs ys).2 = 0 := by
  obtain ⟨hsum, hflags⟩ := accGroups_int hf resid ((chunks n xs).zip (chunks n ys)) acc
  rw [chunks, chunks, sum_exactDot_chunks hn _ _ xs ys le_rfl le_rfl, Int.ModEq] at hsum
  have hcast : ∀ z : Nat, z % 2 ^ 32 = ((z : Int) % 2 ^ 32).toNat := by omega
  exact ⟨by rw [← hsum]; exact hcast _, hflags⟩

/-- Two runs of which one is no longer than `n`, position by position; a run that ends gives zeros. -/
theorem exactDot_eq_sum {xs : List FpVal} (ys : List FpVal) {n : Nat} (h : xs.length ≤ n) :
    exactDot xs ys = ((List.range n).map fun k => (xs.getD k FpVal.zero).toInt * (ys.getD k FpVal.zero).toInt).sum := by
  have hzero : FpVal.zero.toInt = 0 := by decide
  induction xs generalizing ys n with
  | nil => simp [exactDot, hzero]
  | cons x xs ih =>
    obtain ⟨n, rfl⟩ : ∃ k, n = k + 1 := ⟨n - 1, by rw [List.length_cons] at h; omega⟩
    cases ys with
    | nil => simp [exactDot, hzero]
    | cons y ys =>
      have hrest := ih ys (n := n) (by rw [List.length_cons] at h; omega)
      rw [exactDot] at hrest ⊢
      rw [List.zip_cons_cons, List.map_cons, List.sum_cons, hrest, List.range_succ_eq_map, List.map_cons, List.sum_cons, List.map_map]
      rfl

/-! ### One pass of a product (09 R196, R203) -/

/-- An element of an integer product: the exact sum onto what the element begins with, modulo 2^32. -/
def productElem (init : Nat) (xs ys : List FpVal) : Nat := ((init + exactDot xs ys) % 2 ^ 32).toNat

section
variable {f : BitVec 4} {resid : Bool} {n : Nat} {as bs : List (List FpVal)} {init : Nat → Nat → Nat}

theorem productRows_length : (productRows f resid n as bs init).1.length = as.length := by simp [productRows]

theorem productRows_row_length : ∀ xs ∈ (productRows f resid n as bs init).1, xs.length = bs.length := by
  intro xs hxs
  simp only [productRows, List.map_map, List.mem_map] at hxs
  obtain ⟨a, -, rfl⟩ := hxs
  simp

theorem productRows_flags (hf : floatOf f = none) (hn : 0 < n) : (productRows f resid n as bs init).2 = 0 := by
  rw [productRows, List.foldl_map]
  refine List.foldl_fixed' (fun a => ?_) _
  rw [List.foldl_map]
  exact List.foldl_fixed' (fun b => by rw [(accumulateAll_int hf resid hn _ _ _).2]; rfl) _

theorem productRows_elem (hf : floatOf f = none) (hn : 0 < n) {i j : Nat} (hi : i < as.length) (hj : j < bs.length) :
    ((productRows f resid n as bs init).1.getD i []).getD j 0 % 2 ^ 32 = productElem (init i j) (as.getD i []) (bs.getD j []) := by
  rw [productElem, ← (accumulateAll_int hf resid hn _ _ _).1]
  simp [productRows, hi, hj]

end

/-- The pass that an element belongs to. -/
def passOf (r k : Nat) : Nat × Nat := (128 * (r / 128), 128 * (k / 128))

theorem mem_passList {m n : Nat} {p : Nat × Nat} : p ∈ passList m n ↔ ∃ u w, u < ceilDiv m 128 ∧ w < ceilDiv n 128 ∧ p = (128 * u, 128 * w) := by
  simp only [passList, List.mem_flatMap, List.mem_range, List.mem_map]
  constructor
  · rintro ⟨u, hu, w, hw, rfl⟩
    exact ⟨u, w, hu, hw, rfl⟩
  · rintro ⟨u, w, hu, hw, rfl⟩
    exact ⟨u, hu, w, hw, rfl⟩

theorem passOf_mem_passList {m n r k : Nat} (hr : r < m) (hk : k < n) : passOf r k ∈ passList m n :=
  mem_passList.mpr ⟨r / 128, k / 128, by rw [ceilDiv]; omega, by rw [ceilDiv]; omega, rfl⟩

theorem passList_nodup (m n : Nat) : (passList m n).Nodup := by
  refine List.nodup_flatMap.mpr ⟨fun u _ => List.nodup_range.map fun w w' hw => ?_, List.nodup_range.imp fun hne => ?_⟩
  · simpa using hw
  · intro p hp hp'
    obtain ⟨w, -, rfl⟩ := List.mem_map.mp hp
    obtain ⟨w', -, hw'⟩ := List.mem_map.mp hp'
    simp only [Prod.mk.injEq] at hw'
    omega

/-- The elements of a pass are those of its block. -/
theorem passOf_eq_iff {m n r k : Nat} {p : Nat × Nat} (hp : p ∈ passList m n) (hr : r < m) (hk : k < n) :
    p.1 ≤ r ∧ r < p.1 + min 128 (m - p.1) ∧ p.2 ≤ k ∧ k < p.2 + min 128 (n - p.2) ↔ p = passOf r k := by
  obtain ⟨u, w, -, -, rfl⟩ := mem_passList.mp hp
  simp only [passOf, Prod.mk.injEq]
  omega

theorem lt_of_mem_passList {m n : Nat} {p : Nat × Nat} (hp : p ∈ passList m n) : p.1 < m ∧ p.2 < n := by
  obtain ⟨u, w, hu, hw, rfl⟩ := mem_passList.mp hp
  rw [ceilDiv] at hu hw
  omega

theorem getD_block {α : Type} (l : List α) (dflt : α) {p i : Nat} (hi : p ≤ i) (hlt : i < p + 128) :
    ((l.drop p).take 128).getD (i - p) dflt = l.getD i dflt := by
  simp only [List.getD_eq_getElem?_getD, List.getElem?_take, List.getElem?_drop]
  rw [if_pos (by omega), Nat.add_sub_cancel' hi]

namespace RegionPlaced
variable {d : Desc} (hd : RegionPlaced d) (hfmt : dFmt d = 2) {as bs : List (List FpVal)} (hrows : as.length = dRows d) (hcols : bs.length = dCols d)
  {resid fresh : Bool} {n : Nat} (hn : 0 < n)
include hd hfmt hrows hcols hn

/-- A pass gives each element of its block its result, and leaves the others (09 R196, R200, R203). -/
theorem passProduct_int (s : State) (g : Flags) {p : Nat × Nat} (hp : p ∈ passList (dRows d) (dCols d)) :
    ∃ a, passProduct d resid n fresh as bs (s, g) p = (s.withAcc a, g) ∧ ∀ r k, r < dRows d → k < dCols d → (s.withAcc a).regionElem d r k =
      if p = passOf r k then productElem (if fresh then 0 else s.regionElem d r k) (as.getD r []) (bs.getD k []) else s.regionElem d r k := by
  obtain ⟨hp1, hp2⟩ := lt_of_mem_passList hp
  have hint : floatOf (dFmt d) = none := by rw [hfmt]; decide
  have hwidth : elemBits (dFmt d) = 32 := by rw [hfmt]; decide
  have hlen1 : ((as.drop p.1).take 128).length = min 128 (dRows d - p.1) := by rw [List.length_take, List.length_drop, hrows]
  have hlen2 : ((bs.drop p.2).take 128).length = min 128 (dCols d - p.2) := by rw [List.length_take, List.length_drop, hcols]
  simp only [passProduct, productRows_flags hint hn, show g ||| 0 = g from BitVec.or_zero]
  generalize hrs : productRows (dFmt d) resid n ((as.drop p.1).take 128) ((bs.drop p.2).take 128) _ = rs
  have hheight : rs.1.length = min 128 (dRows d - p.1) := by rw [← hrs, productRows_length, hlen1]
  obtain ⟨a, ha⟩ := hd.putBlock_withAcc s (i := p.1) (j := p.2) (rows := rs.1) (by rw [hheight]; omega)
  refine ⟨a, congrArg (·, g) ha, fun r k hr hk => ?_⟩
  have hblock := hd.regionElem_putBlock s (i := p.1) (j := p.2) (n := min 128 (dCols d - p.2)) (rows := rs.1)
    (by rw [← hlen2, ← hrs]; exact productRows_row_length) (by rw [hheight]; omega) (by omega) hr hk
  rw [hheight, hwidth] at hblock
  rw [← ha, hblock]
  refine (if_congr (passOf_eq_iff hp hr hk) rfl rfl).trans ?_
  split
  · rename_i hpass
    obtain ⟨hr1, hr2, hk1, hk2⟩ := (passOf_eq_iff hp hr hk).mpr hpass
    rw [← hrs, productRows_elem hint hn (by rw [hlen1]; omega) (by rw [hlen2]; omega), getD_block _ _ hr1 (by omega), getD_block _ _ hk1 (by omega),
      Nat.add_sub_cancel' hr1, Nat.add_sub_cancel' hk1]
  · rfl

/-- Passes that are all different give each element of their blocks its result once. -/
theorem foldl_passProduct_int (s : State) (g : Flags) {ps : List (Nat × Nat)} (hnodup : ps.Nodup) (hps : ∀ p ∈ ps, p ∈ passList (dRows d) (dCols d)) :
    ∃ a, ps.foldl (passProduct d resid n fresh as bs) (s, g) = (s.withAcc a, g) ∧ ∀ r k, r < dRows d → k < dCols d → (s.withAcc a).regionElem d r k =
      if passOf r k ∈ ps then productElem (if fresh then 0 else s.regionElem d r k) (as.getD r []) (bs.getD k []) else s.regionElem d r k := by
  induction ps generalizing s with
  | nil => exact ⟨s.cur.acc, rfl, fun r k _ _ => (if_neg List.not_mem_nil).symm⟩
  | cons p ps ih =>
    obtain ⟨hfirst, hrest⟩ := List.nodup_cons.mp hnodup
    obtain ⟨a, hpass, hone⟩ := hd.passProduct_int hfmt hrows hcols (resid := resid) (fresh := fresh) hn s g (hps p List.mem_cons_self)
    obtain ⟨b, hfold, hall⟩ := ih (s.withAcc a) hrest fun q hq => hps q (List.mem_cons_of_mem p hq)
    refine ⟨b, by rw [List.foldl_cons, hpass, hfold, withAcc_withAcc], fun r k hr hk => ?_⟩
    rw [← withAcc_withAcc s a b, hall r k hr hk, hone r k hr hk]
    by_cases hp : p = passOf r k
    · rw [← hp, if_neg hfirst, if_pos rfl, if_pos List.mem_cons_self]
    · rw [if_neg hp]
      exact if_congr (by rw [List.mem_cons, or_iff_right (Ne.symm hp)]) rfl rfl

/-- All passes of an integer product (09 R196, R203, 07 R170). -/
theorem allPasses_int (s : State) : ∃ a, allPasses d resid n fresh as bs (s, 0) = (s.withAcc a, 0) ∧ ∀ r k, r < dRows d → k < dCols d →
    (s.withAcc a).regionElem d r k = productElem (if fresh then 0 else s.regionElem d r k) (as.getD r []) (bs.getD k []) := by
  obtain ⟨a, hfold, hall⟩ := hd.foldl_passProduct_int hfmt hrows hcols (resid := resid) (fresh := fresh) hn s 0 (passList_nodup _ _) fun _ hp => hp
  exact ⟨a, hfold, fun r k hr hk => by rw [hall r k hr hk, if_pos (passOf_mem_passList hr hk)]⟩

end RegionPlaced

end Sys2Proof.Machine
end

section
/-! PROOFS. The matrix engine (09): MMA, MMAZ and MZERO on integer tiles, O58. -/

namespace Sys2Proof.Machine
open Sys2Proof

/-! ### What a starting command reads in scratch (05 R98, 09 R212) -/

namespace State.Starts
variable {s w : State} {c k : Command} (h : s.Starts w c k)
include h

theorem region (d : Desc) (hd : RegionPlaced d) {a : Memory} {r : Nat} (hr : r < dRows d) (j : Nat) :
    (w.withAcc a).regionElem d r j = (s.withAcc a).regionElem d r j := by
  obtain ⟨⟨clock, v, rfl⟩, -, -⟩ := h
  refine hd.regionElem_congr ?_ ?_ ?_ hr j <;> rfl

theorem teamCheck (q : BitVec 3) (d : Desc) : Machine.teamCheck w q d = Machine.teamCheck s q d := by
  obtain ⟨⟨clock, v, rfl⟩, -, -⟩ := h
  rfl

theorem pieceAddr (q : BitVec 3) (a : AccessKind) (mode : BitVec 3) (lo hi : Nat) (x : Int) (n : Nat) :
    w.pieceAddr w.cur q a (.sram mode lo hi) x n = s.pieceAddr s.cur q a (.sram mode lo hi) x n := by
  obtain ⟨⟨clock, v, rfl⟩, -, -⟩ := h
  rfl

theorem checkPieces (q : BitVec 3) (a : AccessKind) (mode : BitVec 3) (lo hi : Nat) (ps : List (Int × Nat)) :
    Machine.checkPieces w q a (.sram mode lo hi) ps = Machine.checkPieces s q a (.sram mode lo hi) ps := by
  induction ps with
  | nil => rfl
  | cons p ps ih => simp only [Machine.checkPieces, h.pieceAddr, ih]

/-- The start check of runs of scratch finds what it finds at the push. -/
theorem startCheck (q : BitVec 3) (a : AccessKind) {runs : List (Loc × Nat)} (hruns : ∀ e ∈ runs, e.1.kind = .sram 1 0 (2 ^ 24)) :
    Machine.startCheck w q a runs = Machine.startCheck s q a runs := by
  induction runs with
  | nil => rfl
  | cons e runs ih =>
    have hkind := hruns e List.mem_cons_self
    rw [Machine.startCheck, Machine.startCheck, hkind, h.checkPieces, ih fun x hx => hruns x (List.mem_cons_of_mem e hx)]

variable (hidle : s.cur.inflight = [])
include hidle

theorem readPiece (a : AccessKind) (mode : BitVec 3) (lo hi turn : Nat) (x : Int) (n : Nat) :
    w.readPiece k a (.sram mode lo hi) turn x n = s.readPiece c a (.sram mode lo hi) turn x n := by
  obtain ⟨⟨clock, v, rfl⟩, ⟨start, hin⟩, ⟨carrier, rfl⟩⟩ := h
  have hnone : ∀ key, s.cur.gotAt c key = none := fun key => by simp [Unit.gotAt, Unit.inflight?, hidle]
  have hnone' : ∀ key, (s.startedAs clock v).cur.gotAt (c.starting carrier) key = none := fun key => by
    rw [Unit.gotAt, inflight?_launched hin]; rfl
  simp only [State.readPiece, hnone, hnone']
  rfl

theorem readPieces (a : AccessKind) (mode : BitVec 3) (lo hi turn : Nat) (ps : List (Int × Nat)) :
    Machine.readPieces w k a (.sram mode lo hi) turn ps = Machine.readPieces s c a (.sram mode lo hi) turn ps := by
  induction ps with
  | nil => rfl
  | cons p ps ih => rw [Machine.readPieces, Machine.readPieces, h.readPiece hidle, ih]

theorem readAt (a : AccessKind) (mode : BitVec 3) (lo hi turn : Nat) (x : Int) (n : Nat) :
    w.readAt k a { kind := .sram mode lo hi, base := x, turn := turn } n = s.readAt c a { kind := .sram mode lo hi, base := x, turn := turn } n := by
  have hparts : w.readParts { kind := .sram mode lo hi, base := x, turn := turn } n =
      s.readParts { kind := .sram mode lo hi, base := x, turn := turn } n := by
    obtain ⟨⟨clock, v, rfl⟩, -, -⟩ := h
    rfl
  have hqueue : k.queue = c.queue := by
    obtain ⟨-, -, ⟨carrier, rfl⟩⟩ := h
    rfl
  simp only [State.readAt, h.checkPieces, h.readPieces hidle, hparts, hqueue]

/-- A tile in scratch reads as it does at the push. -/
theorem readTile (d : Desc) : Machine.readTile w k d (scrLoc d) = Machine.readTile s c d (scrLoc d) :=
  congrArg collect (List.map_congr_left fun _ _ => congrArg (Except.map _) (h.readAt hidle .read 1 0 (2 ^ 24) 0 _ _))

end State.Starts

/-! ### The values of an integer tile (09 R199, 07 R170) -/

theorem collect_ok {α β : Type} {f : α → Except Trap β} {l : List α} {xs : List β} (h : collect (l.map f) = .ok xs) :
    xs.length = l.length ∧ ∀ x ∈ xs, ∃ a ∈ l, f a = .ok x := by
  induction l generalizing xs with
  | nil => cases h; exact ⟨rfl, fun _ hx => nomatch hx⟩
  | cons a l ih =>
    rw [List.map_cons] at h
    cases ha : f a with
    | error t => rw [ha] at h; cases h
    | ok b =>
      rw [ha, collect] at h
      cases hl : collect (l.map f) with
      | error t => rw [hl] at h; cases h
      | ok ys =>
        rw [hl] at h
        cases h
        obtain ⟨hlength, hall⟩ := ih hl
        refine ⟨congrArg (· + 1) hlength, fun x hx => ?_⟩
        rcases List.mem_cons.mp hx with rfl | hx
        · exact ⟨a, List.mem_cons_self, ha⟩
        · obtain ⟨a', ha', hfa⟩ := hall x hx
          exact ⟨a', List.mem_cons_of_mem a ha', hfa⟩

/-- A tile that has been read has the rows of its descriptor, none longer than the descriptor's. -/
theorem readTile_shape {s : State} {c : Command} {d : Desc} {l : Loc} {x : List (List Nat)} (h : readTile s c d l = .ok x) :
    x.length = dRows d ∧ ∀ row ∈ x, row.length ≤ dCols d := by
  obtain ⟨hlength, hall⟩ := collect_ok h
  refine ⟨hlength.trans List.length_range, fun row hrow => ?_⟩
  obtain ⟨r, -, hr⟩ := hall row hrow
  rw [State.readRow] at hr
  cases hb : s.readAt c .read (rowLoc d l r) (rowBytes d) with
  | error t => rw [hb] at hr; cases hr
  | ok bs =>
    rw [hb] at hr
    cases hr
    exact List.length_take_le _ _

/-- The values of stored integers. -/
def tileValues (f : BitVec 4) (x : List (List Nat)) : List (List FpVal) := x.map fun row => row.map (elemVal f)

theorem readValues_plain {s : State} {c : Command} {d : Desc} {l : Loc} {x : List (List Nat)} (hblock : isBlockFmt (dFmt d) = false)
    (h : readTile s c d l = .ok x) : readValues s c d l = .ok (tileValues (dFmt d) x) := by
  have hrow : ∀ e : List Nat × Nat, rowValues (dFmt d) [] (dCols d) e.2 e.1 = e.1.map (elemVal (dFmt d)) := fun e => by simp [rowValues, hblock]
  have hzip : ∀ g : List Nat → List FpVal, (x.zipIdx.map fun e => g e.1) = x.map g := fun g => by
    show x.zipIdx.map (g ∘ Prod.fst) = x.map g
    rw [← List.map_map, List.zipIdx_map_fst]
  simp only [readValues, h, hblock, Bool.false_eq_true, if_false, hrow]
  exact congrArg Except.ok (hzip _)

theorem toInt_elemVal {f : BitVec 4} (hf : floatOf f = none) (b : Nat) : (elemVal f b).toInt = toSigned (elemBits f) b := by
  rw [elemVal, hf]
  simp only [FpVal.ofInt, FpVal.toInt, signedAt, Int.sub_self, Int.toNat_zero, Nat.pow_zero, Nat.mul_one, decide_eq_true_eq]
  split <;> omega

/-- The value of an element of a tile; outside the tile there are zeros. -/
theorem tileValues_elem {f : BitVec 4} (hf : floatOf f = none) (x : List (List Nat)) (r k : Nat) :
    (((tileValues f x).getD r []).getD k FpVal.zero).toInt = toSigned (elemBits f) ((x.getD r []).getD k 0) := by
  have hzero : FpVal.zero.toInt = toSigned (elemBits f) 0 := by
    have h0 : toSigned (elemBits f) 0 = 0 := by simp [toSigned]
    rw [h0]; decide
  simp only [tileValues, List.getD_eq_getElem?_getD, List.getElem?_map]
  cases x[r]? with
  | none => simpa using hzero
  | some row =>
    simp only [Option.map_some, Option.getD_some, List.getElem?_map]
    cases row[k]? with
    | none => simpa using hzero
    | some b => exact toInt_elemVal hf b

/-- The rows of a tile, or its columns. -/
def tileLines (across : Bool) (n : Nat) (vals : List (List FpVal)) : List (List FpVal) := if across then transposeRows FpVal.zero n vals else vals

theorem aRows_eq (d : Desc) (vals : List (List FpVal)) : aRows d vals = tileLines (hasFlag d flagTransposed) (dCols d) vals := rfl
theorem bColumns_eq (d : Desc) (vals : List (List FpVal)) : bColumns d vals = tileLines (!hasFlag d flagTransposed) (dCols d) vals := by
  rw [bColumns, tileLines]
  cases hasFlag d flagTransposed <;> rfl

theorem tileLines_length (across : Bool) (n : Nat) (vals : List (List FpVal)) :
    (tileLines across n vals).length = if across then n else vals.length := by
  cases across <;> simp [tileLines, transposeRows]

theorem tileLines_across {n r : Nat} (hr : r < n) (vals : List (List FpVal)) :
    (tileLines true n vals).getD r [] = vals.map fun row => row.getD r FpVal.zero := by
  simp [tileLines, transposeRows, hr]

/-- An element of a line of an integer tile. -/
theorem tileLines_elem {f : BitVec 4} (hf : floatOf f = none) {across : Bool} {n r : Nat} (hr : across = true → r < n) (x : List (List Nat)) (k : Nat) :
    (((tileLines across n (tileValues f x)).getD r []).getD k FpVal.zero).toInt =
      toSigned (elemBits f) (if across then (x.getD k []).getD r 0 else (x.getD r []).getD k 0) := by
  cases across with
  | false => exact tileValues_elem hf x r k
  | true =>
    rw [tileLines_across (hr rfl), if_pos rfl, ← tileValues_elem hf x k r]
    simp only [List.getD_eq_getElem?_getD, List.getElem?_map]
    cases (tileValues f x)[k]? <;> rfl

/-- A line is no longer than the tile is in its direction. -/
theorem tileLines_line_length {across : Bool} {n r m : Nat} {vals : List (List FpVal)} (hr : across = true → r < n)
    (hm : if across then vals.length ≤ m else ∀ row ∈ vals, row.length ≤ m) : ((tileLines across n vals).getD r []).length ≤ m := by
  cases across with
  | true => rwa [tileLines_across (hr rfl), List.length_map]
  | false =>
    rw [show tileLines false n vals = vals from rfl, List.getD_eq_getElem?_getD]
    cases hrow : vals[r]? with
    | none => exact Nat.zero_le m
    | some row => exact hm row (List.mem_of_getElem? hrow)

/-! ### MMA and MMAZ of integer tiles (09 R202, R203) -/

/-- MMAZ, or MMA. -/
def productInstr (fresh : Bool) (h : EHead) (oc : BitVec 4) (da db dc : DReg) : Instr := if fresh then .mmaz h oc da db dc else .mma h oc da db dc

section
variable (fresh : Bool) (h : EHead) (oc : BitVec 4) (da db dc : DReg)

theorem pushForm_product : pushForm (productInstr fresh h oc da db dc) = some { pushForm0 h 3 with da := some da, db := some db, dc := some dc } := by
  cases fresh <;> rfl

theorem descrs_product (u : Unit) :
    PushForm.descrs { pushForm0 h 3 with da := some da, db := some db, dc := some dc } (productInstr fresh h oc da db dc) u = [da, db, dc] := by
  cases fresh <;> rfl

theorem feeds_product : feeds (productInstr fresh h oc da db dc) = true := by cases fresh <;> rfl

theorem matCheck_product (a b c x : Desc) : matCheck (productInstr fresh h oc da db dc) a b c x = productOk a b c !fresh := by cases fresh <;> rfl

theorem runMatrix_product {c : Command} (hi : c.instr = productInstr fresh h oc da db dc) (s : State) : runMatrix s c = runProduct s c fresh := by
  rw [runMatrix, hi]
  cases fresh <;> rfl

end

/-- What the push of a product has found of its descriptors: a region of 32-bit integers, and two operands in scratch of the one format `f` that make
up its shape (09 R196, R199, R200). -/
structure IntProduct (f : BitVec 4) (a b c : Desc) : Prop where
  region  : RegionPlaced a
  acc     : dSpace a = spAcc
  scratch : dSpace b = spScr
  sum     : dFmt a = 2
  same    : dFmt c = f
  rows    : dRows a = opRows b
  cols    : dCols a = opCols c

theorem accFmtOf_int {f : BitVec 4} (hf : f = 0 ∨ f = 4) : accFmtOf f = 2 := by rcases hf with rfl | rfl <;> rfl
theorem floatOf_int {f : BitVec 4} (hf : f = 0 ∨ f = 4) : floatOf f = none := by rcases hf with rfl | rfl <;> rfl
theorem isBlockFmt_int {f : BitVec 4} (hf : f = 0 ∨ f = 4) : isBlockFmt f = false := by rcases hf with rfl | rfl <;> rfl
theorem groupOf_pos (f : BitVec 4) : 0 < groupOf f := by revert f; decide

theorem regionOk_space {d : Desc} {flags : BitVec 8} (h : regionOk d flags = true) : dSpace d = spAcc := by
  simp only [regionOk, Bool.and_eq_true, beq_iff_eq] at h
  obtain ⟨⟨⟨⟨⟨⟨hspace, -⟩, -⟩, -⟩, -⟩, -⟩, -⟩ := h
  exact hspace

theorem intProduct_of_ok {a b c : Desc} {resid : Bool} (hok : productOk a b c resid = true) (hf : dFmt b = 0 ∨ dFmt b = 4) (hfull : dEmpty a = false)
    (hteam : hasFlag a flagTeam = false) (hranked : hasFlag c flagRanked = false) (hapart : dRows a ≤ 1 ∨ rowBytes a ≤ (dStride a).natAbs) :
    IntProduct (dFmt b) a b c := by
  simp only [productOk, Bool.and_eq_true] at hok
  obtain ⟨⟨⟨⟨⟨⟨⟨⟨hregion, -⟩, -⟩, -⟩, hpair⟩, -⟩, hacc⟩, -⟩, hshape⟩ := hok
  simp only [pairOk, blockPair, isBlockFmt_int hf, Bool.false_and, Bool.false_eq_true, if_false, Bool.and_eq_true, beq_iff_eq] at hpair
  obtain ⟨⟨⟨⟨⟨⟨hscratch, -⟩, -⟩, -⟩, -⟩, -⟩, ⟨⟨⟨⟨hsame, -⟩, -⟩, -⟩, -⟩, -⟩ := hpair
  simp only [shapeOk, hfull, Bool.false_or, bN, hranked, Bool.false_eq_true, if_false, Bool.and_eq_true, beq_iff_eq] at hshape
  obtain ⟨⟨⟨⟨⟨⟨⟨hrows, hcols⟩, -⟩, -⟩, -⟩, -⟩, -⟩, -⟩ := hshape
  exact {
    region := regionPlaced hregion hteam hapart
    acc := regionOk_space hregion, scratch := hscratch, rows := hrows, cols := hcols, same := hsame.symm
    sum := (beq_iff_eq.mp hacc).trans (accFmtOf_int hf) }

/-- The runs of an operand that is not of a block format are rows of a tile in scratch. -/
theorem operandRuns_scratch {d : Desc} (hblock : isBlockFmt (dFmt d) = false) : ∀ e ∈ operandRuns d, e.1.kind = .sram 1 0 (2 ^ 24) := by
  intro e he
  rw [operandRuns, hblock, if_neg Bool.false_ne_true, List.append_nil, tileRuns] at he
  obtain ⟨r, -, rfl⟩ := List.mem_map.mp he
  rfl

/-- A product whose operands are read computes on their values (09 R202, R203). -/
theorem runProduct_reads {s : State} {c : Command} {fresh : Bool} {x y : List (List FpVal)} (hranked : hasFlag c.dc flagRanked = false)
    (hstart : startCheck s c.queue .read (operandRuns c.db ++ operandRuns c.dc) = none) (hteam : teamCheck s c.queue c.da = none)
    (hx : readValues s c c.db (scrLoc c.db) = .ok x) (hy : readValues s c c.dc (scrLoc c.dc) = .ok y) :
    runProduct s c fresh = finishProduct s c.da (dFmt c.db) fresh (aRows c.db x) (bColumns c.dc y) := by
  rw [runProduct]
  simp only [hranked, Bool.false_eq_true, if_false, hstart, hteam, hx, hy]

namespace IntProduct
variable {f : BitVec 4} {a b c : Desc} (hp : IntProduct f a b c)
include hp

theorem not_ring : dSpace a ≠ spRing ∧ dSpace b ≠ spRing := by
  rw [hp.acc, hp.scratch]
  decide

variable {x y : List (List Nat)}

/-- An element of the product is the exact sum over the reduction length of the products of the operands' elements (09 R196, 07 R170). -/
theorem productElem_eq (hint : floatOf f = none) (hx : x.length = dRows b ∧ ∀ row ∈ x, row.length ≤ dCols b) {r j : Nat}
    (hr : r < dRows a) (hj : j < dCols a) (init : Nat) :
    productElem init ((aRows b (tileValues f x)).getD r []) ((bColumns c (tileValues f y)).getD j []) =
      ((init + ((List.range (opCols b)).map fun k =>
        toSigned (elemBits f) (if hasFlag b flagTransposed then (x.getD k []).getD r 0 else (x.getD r []).getD k 0) *
        toSigned (elemBits f) (if hasFlag c flagTransposed then (y.getD j []).getD k 0 else (y.getD k []).getD j 0)).sum : Int) % 2 ^ 32).toNat := by
  obtain ⟨hheight, hwidth⟩ := hx
  have hrow : hasFlag b flagTransposed = true → r < dCols b := fun ht => by rw [hp.rows, opRows, if_pos ht] at hr; exact hr
  have hcol : (!hasFlag c flagTransposed) = true → j < dCols c := fun ht => by
    rw [Bool.not_eq_true'] at ht
    rw [hp.cols, opCols, ht, if_neg Bool.false_ne_true] at hj
    exact hj
  have hlength : ((aRows b (tileValues f x)).getD r []).length ≤ opCols b := by
    rw [aRows_eq]
    refine tileLines_line_length hrow ?_
    rw [opCols]
    split
    · rw [tileValues, List.length_map, hheight]
    · intro row hmem
      obtain ⟨xs, hxs, rfl⟩ := List.mem_map.mp hmem
      rw [List.length_map]
      exact hwidth xs hxs
  rw [productElem, exactDot_eq_sum _ hlength]
  refine congrArg (fun z : Int => ((init + z) % 2 ^ 32).toNat) (congrArg List.sum (List.map_congr_left fun k _ => ?_))
  rw [aRows_eq, bColumns_eq, tileLines_elem hint hrow, tileLines_elem hint hcol]
  cases hasFlag c flagTransposed <;> rfl

/-- The product of values in the order of K leaves the store with every element's result, and raises no flag (09 R203, 07 R170). -/
theorem finishProduct_eq (s : State) (fresh : Bool) {as bs : List (List FpVal)} (hrows : as.length = dRows a) (hcols : bs.length = dCols a) :
    ∃ store m free, finishProduct s a f fresh as bs = .done (s.leaves store m free) [] 0 ∧ ∀ r k, r < dRows a → k < dCols a →
      (s.withAcc store).regionElem a r k = productElem (if fresh then 0 else s.regionElem a r k) (as.getD r []) (bs.getD k []) := by
  have hgroup : 0 < if hasFlag a flagResid then 8 else groupOf f := by
    split
    · decide
    · exact groupOf_pos f
  obtain ⟨store, hpasses, helems⟩ := hp.region.allPasses_int hp.sum hrows hcols (resid := hasFlag a flagResid) (fresh := fresh) hgroup s.slipped
  refine ⟨store, s.slipped.cur.mslip, s.free + 1, by rw [finishProduct, hpasses]; rfl, fun r k hr hk => ?_⟩
  have hslipped : ∀ t : State, t.slipped.regionElem a r k = t.regionElem a r k := fun t => by
    refine hp.region.regionElem_congr ?_ ?_ ?_ hr k <;> rfl
  rw [← hslipped s, ← helems r k hr hk]
  exact (hslipped (s.withAcc store)).symm

end IntProduct

/-- The store `store` holds the product of the tiles `x` and `y` that the command `c` names, onto what the machine's own store held or by itself. -/
def State.HoldsProduct (s : State) (c : Command) (fresh : Bool) (x y : List (List Nat)) (store : Memory) : Prop :=
  ∀ r j, r < dRows c.da → j < dCols c.da → (s.withAcc store).regionElem c.da r j = productElem (if fresh then 0 else s.regionElem c.da r j)
    ((aRows c.db (tileValues (dFmt c.db) x)).getD r []) ((bColumns c.dc (tileValues (dFmt c.db) y)).getD j [])

/-- Where the operands of a product can be read at its push, its run leaves it in the store (09 R202, R203, R212). -/
theorem State.Starts.runProduct_int {s w : State} {c k : Command} (h : s.Starts w c k) (hidle : s.cur.inflight = []) (hq : c.queue = 3)
    (hfmt : dFmt c.db = 0 ∨ dFmt c.db = 4) (hp : IntProduct (dFmt c.db) c.da c.db c.dc) (hranked : hasFlag c.dc flagRanked = false)
    (hstart : Machine.startCheck s 3 .read (operandRuns c.db ++ operandRuns c.dc) = none) (hteam : Machine.teamCheck s 3 c.da = none)
    {x y : List (List Nat)} (hx : Machine.readTile s c c.db (scrLoc c.db) = .ok x) (hy : Machine.readTile s c c.dc (scrLoc c.dc) = .ok y) (fresh : Bool) :
    ∃ store m free, s.HoldsProduct c fresh x y store ∧ runProduct w k fresh = .done (w.leaves store m free) [] 0 := by
  have hblock : isBlockFmt (dFmt c.dc) = false := by rw [hp.same]; exact isBlockFmt_int hfmt
  have hruns : ∀ e ∈ operandRuns c.db ++ operandRuns c.dc, e.1.kind = .sram 1 0 (2 ^ 24) := fun e he =>
    (List.mem_append.mp he).elim (operandRuns_scratch (isBlockFmt_int hfmt) e) (operandRuns_scratch hblock e)
  have hstart' := (h.startCheck 3 .read hruns).trans hstart
  have hteam' := (h.teamCheck 3 c.da).trans hteam
  have hx' := readValues_plain (isBlockFmt_int hfmt) ((h.readTile hidle c.db).trans hx)
  have hy' := readValues_plain hblock ((h.readTile hidle c.dc).trans hy)
  rw [hp.same] at hy'
  have hrows : (aRows c.db (tileValues (dFmt c.db) x)).length = dRows c.da := by
    rw [aRows_eq, tileLines_length, hp.rows, opRows, tileValues, List.length_map, (readTile_shape hx).1]
  have hcols : (bColumns c.dc (tileValues (dFmt c.db) y)).length = dCols c.da := by
    rw [bColumns_eq, tileLines_length, hp.cols, opCols, tileValues, List.length_map, (readTile_shape hy).1]
    cases hasFlag c.dc flagTransposed <;> rfl
  obtain ⟨store, m, free, hfinish, helems⟩ := hp.finishProduct_eq w fresh hrows hcols
  have hown : ∀ r j, r < dRows c.da → w.regionElem c.da r j = s.regionElem c.da r j := fun r j hr => by
    obtain ⟨⟨clock, v, rfl⟩, -, -⟩ := h
    refine hp.region.regionElem_congr ?_ ?_ ?_ hr j <;> rfl
  have hrun : runProduct w k fresh = finishProduct w c.da (dFmt c.db) fresh (aRows c.db (tileValues (dFmt c.db) x))
      (bColumns c.dc (tileValues (dFmt c.db) y)) := by
    obtain ⟨carrier, rfl⟩ := h.command
    have hqueue : (c.starting carrier).queue = 3 := hq
    refine runProduct_reads hranked ?_ ?_ hx' hy'
    · rw [hqueue]; exact hstart'
    · rw [hqueue]; exact hteam'
  exact ⟨store, m, free, fun r j hr hj => by rw [← h.region c.da hp.region hr, helems r j hr hj, hown r j hr], hrun.trans hfinish⟩

/-! ### MZERO (09 R208) -/

/-- A block of zeros as large as its region leaves every element zero. -/
theorem RegionPlaced.putRegion_zeros {d : Desc} (hd : RegionPlaced d) (s : State) :
    ∃ store, s.putRegion d (List.replicate (dRows d) (List.replicate (dCols d) 0)) = s.withAcc store ∧
      ∀ r k, r < dRows d → k < dCols d → (s.withAcc store).regionElem d r k = 0 := by
  obtain ⟨store, hput⟩ := hd.putBlock_withAcc s (i := 0) (j := 0) (rows := List.replicate (dRows d) (List.replicate (dCols d) 0)) (by simp)
  refine ⟨store, hput, fun r k hr hk => ?_⟩
  rw [← hput, hd.regionElem_putBlock s (n := dCols d) (fun xs hxs => by rw [List.eq_of_mem_replicate hxs, List.length_replicate])
    (by simp) (by simp) hr hk, if_pos (by simpa using ⟨hr, hk⟩)]
  simp [hr, hk]

/-- The run of an MZERO leaves its region zero (09 R208). -/
theorem State.Starts.runZero_zeros {s w : State} {c k : Command} (h : s.Starts w c k) (hq : c.queue = 3) (hd : RegionPlaced c.da)
    (hteam : Machine.teamCheck s 3 c.da = none) :
    ∃ store m free, (∀ r j, r < dRows c.da → j < dCols c.da → (s.withAcc store).regionElem c.da r j = 0) ∧
      runZero w k = .done (w.leaves store m free) [] 0 := by
  have hteam' := (h.teamCheck 3 c.da).trans hteam
  obtain ⟨store, hput, hzero⟩ := hd.putRegion_zeros w
  refine ⟨store, w.cur.mslip, w.free, fun r j hr hj => by rw [← h.region c.da hd hr, hzero r j hr hj], ?_⟩
  obtain ⟨carrier, rfl⟩ := h.command
  rw [runZero, show (c.starting carrier).queue = 3 from hq, show (c.starting carrier).da = c.da from rfl, hteam']
  exact congrArg (Ran.done · [] 0) hput

/-- A region after a matrix command is as its store has it. -/
theorem State.RanMatrix.region {s t : State} {c : Command} {store : Memory} (h : s.RanMatrix t c store) {d : Desc} (hd : RegionPlaced d) {r : Nat}
    (hr : r < dRows d) (j : Nat) : t.regionElem d r j = (s.withAcc store).regionElem d r j :=
  hd.regionElem_congr (s := s.withAcc store) h.store h.epoch h.gid hr j

end Sys2Proof.Machine

namespace Sys2Proof.Proofs
open Sys2Proof Sys2Proof.Machine

/-- Settles O58: the start finds what the push found, each pass adds its exact sums to the elements of its block, and the rows of a region lie apart. -/
theorem matrixProducts : Obligations.MatrixProducts := by
  intro fresh h oc da db dc s p c x y i w at_ apart same
  have hsame : ∀ {t a}, s.RanMatrix t c a → same t := fun hran =>
    ⟨hran.regs, hran.vectors, hran.masks, hran.hasRun, hran.next, hran.bytes, hran.devs⟩
  refine ⟨?product, ?zero⟩
  case product =>
    intro hnow hx _ hfmt hteam hranked hapart hstart _ hjoin hreadA hreadB hempty
    obtain rfl := Option.some.inj (hnow.form.symm.trans (pushForm_product fresh h oc da db dc))
    have hchecks := checks_of_push hnow.command
    have hinstr : c.instr = productInstr fresh h oc da db dc := (captures hnow.command).instr
    have hp : IntProduct (dFmt c.db) c.da c.db c.dc :=
      intProduct_of_ok ((matCheck_product fresh h oc da db dc _ _ _ _).symm.trans (matCheck_of_checks hnow.form rfl hchecks)) hfmt
        (hchecks.full hempty rfl) hteam hranked hapart
    obtain ⟨t, store, hexec, helems, hran⟩ := matrix_runs hnow rfl (descrs_product fresh h oc da db dc s.cur) hx hempty hp.not_ring
      (.inl (by rw [hinstr]; exact feeds_product fresh h oc da db dc)) (P := s.HoldsProduct c fresh x y) fun w k hk => by
        obtain ⟨store, m, free, hstore, hrun⟩ := hk.runProduct_int hnow.quiet.engines (captures hnow.command).queue hfmt hp hranked hstart hjoin
          hreadA hreadB fresh
        have hinstr' : k.instr = productInstr fresh h oc da db dc := by
          obtain ⟨carrier, rfl⟩ := hk.command
          exact hinstr
        exact ⟨store, m, free, hstore, (runMatrix_product fresh h oc da db dc hinstr' w).trans hrun⟩
    refine ⟨t, hexec, hsame hran, fun r j hr hj => ?_⟩
    rw [hran.region hp.region hr, helems r j hr hj]
    exact hp.productElem_eq (floatOf_int hfmt) (readTile_shape hreadA) hr hj _
  case zero =>
    intro hnow hx _ hteam hapart _ hjoin hempty
    obtain rfl := Option.some.inj (hnow.form.symm.trans (show pushForm (.mzero h da) = some { pushForm0 h 3 with da := some da } from rfl))
    have hchecks := checks_of_push hnow.command
    have hinstr : c.instr = .mzero h da := (captures hnow.command).instr
    have hok : regionOk c.da flagTeam = true :=
      (Bool.and_eq_true_iff.mp (show (regionOk c.da flagTeam && dAux c.da == 0) = true from matCheck_of_checks hnow.form rfl hchecks)).1
    have hd := regionPlaced hok hteam hapart
    have hring : dSpace c.da ≠ spRing ∧ dSpace c.db ≠ spRing := by rw [regionOk_space hok, hchecks.bare rfl]; decide
    have hcycles : 0 < c.stillCycles := by
      rw [Command.stillCycles, hinstr]
      exact Nat.lt_of_lt_of_le (by decide) (Nat.le_add_right 4 _)
    obtain ⟨t, store, hexec, hzero, hran⟩ := matrix_runs hnow rfl rfl hx hempty hring (.inr hcycles)
      (P := fun store => ∀ r j, r < dRows c.da → j < dCols c.da → (s.withAcc store).regionElem c.da r j = 0) fun w k hk => by
        obtain ⟨store, m, free, hstore, hrun⟩ := hk.runZero_zeros (captures hnow.command).queue hd hjoin
        have hinstr' : k.instr = .mzero h da := by
          obtain ⟨carrier, rfl⟩ := hk.command
          exact hinstr
        exact ⟨store, m, free, hstore, by rw [runMatrix, hinstr']; exact hrun⟩
    exact ⟨t, hexec, hsame hran, fun r j hr hj => (hran.region hd hr j).trans (hzero r j hr hj)⟩

end Sys2Proof.Proofs
end

section
/-! PROOFS. The way back (12): atomics, barriers, monitors and rings: the obligations O24, O25, O26, O27, O28, O29. -/

namespace Sys2Proof.Machine
open Sys2Proof

/-! ### Operands and bytes at an operation's width (06 R141, 12 R252) -/

theorem uns_ofNat (w : Bool) (x : Nat) : uns w (BitVec.ofNat 64 x) = x % 2 ^ bits w := by
  rw [uns, BitVec.toNat_ofNat, Nat.mod_mod_of_dvd _ (Nat.pow_dvd_pow 2 (bits_le w))]

theorem uns_mod (w : Bool) (x : Word) : uns w x % 2 ^ bits w = uns w x := Nat.mod_mod ..

theorem toSigned_uns (w : Bool) (x : Word) : toSigned (bits w) (uns w x) = sgn w x := by
  rw [uns, toSigned, Nat.mod_mod, ← toSigned, sgn_toSigned, BitVec.ofNat_toNat, BitVec.setWidth_eq]

/-- The bytes of an operation's width make up its bits. -/
theorem bits_bytes (w : Bool) : 8 * (if w then 4 else 8) = bits w := by cases w <;> rfl

theorem number_mod (s : State) (w : Bool) (a : Nat) :
    s.number a (if w then 4 else 8) % 2 ^ bits w = s.number a (if w then 4 else 8) :=
  Nat.mod_eq_of_lt (bits_bytes w ▸ number_lt s a _)

/-- A run of bytes holds every word with the same low bits. -/
theorem stores_of_bytes {s t : State} {a n x : Nat} {y : Word} (hx : x % 2 ^ (8 * n) = y.toNat % 2 ^ (8 * n))
    (h : ∀ g k, t.plainByte g k = if a ≤ k ∧ k < a + n then BitVec.ofNat 8 (x / 2 ^ (8 * (k - a))) else s.plainByte g k) : s.Stores t a n y := by
  intro g k
  rw [h g k]
  by_cases hk : a ≤ k ∧ k < a + n
  · rw [if_pos hk, if_pos hk, byte_congr (by omega) hx]
  · rw [if_neg hk, if_neg hk]

/-- A byte of a number read at its home, where nothing is pending. -/
theorem number_byte {s : State} (h : s.pend = []) (g : Gid) {a n j : Nat} (hj : j < n) :
    BitVec.ofNat 8 (s.number a n / 2 ^ (8 * j)) = s.plainByte g (a + j) := by
  refine BitVec.eq_of_getLsbD_eq fun b hb => ?_
  rw [BitVec.getLsbD_ofNat, Nat.testBit_div_two_pow, State.number, homeBytes_nil h g, fromLe_testBit,
    show (b + 8 * j) / 8 = j by omega, show (b + 8 * j) % 8 = b by omega, getD_map_range _ _ hj, decide_eq_true hb, Bool.true_and]

/-- The bytes of a number read at its home are those that every unit reads there. -/
theorem number_holds {s : State} (h : s.pend = []) {a n : Nat} (g : Gid) (k : Nat) :
    (if a ≤ k ∧ k < a + n then BitVec.ofNat 8 (s.number a n / 2 ^ (8 * (k - a))) else s.plainByte g k) = s.plainByte g k := by
  split
  · rw [number_byte h g (by omega), Nat.add_sub_cancel' (by omega)]
  · rfl

/-- FSTAT without new flags. -/
theorem fstat_no_flags (x : Word) : x ||| (0 : Flags).setWidth 64 = x := by simp

section
variable {i : Instr} {w : Bool} {sem : BitVec 2} {scope : BitVec 3} {oc : BitVec 4} {mask : BitVec 16} {a b c : Reg} {s : State} {p : Place}

/-- An atomic returns the old value and leaves every word with the low bits of the number that it writes, or of the old one where it writes none (12 R252). -/
theorem atomicOp_ends {small : Bool} {d : Reg} {op : Nat → Nat → Nat → Option Nat × Flags} {back : Nat → Word} {new : Word}
    (he : exec i s = atomicOp i small sem scope oc mask a b c d op back s) (h : s.Executes i [b, c, d] []) (hc : s.AtCommit)
    (hm : s.MayRequest .atomic (if small then 4 else 8) oc (if semRel sem then mask else 0) (if semRel sem then some (scope, mask) else none) (s.cur.rs b) p) :
    let n := if small then 4 else 8
    let old := s.number p.addr n
    let low (r : Reg) : Nat := (s.cur.rs r).toNat % 2 ^ (8 * n)
    ((op old (low c) (low d)).1.getD old) % 2 ^ (8 * n) = new.toNat % 2 ^ (8 * n) →
    s.Ends i fun t => s.SetsReg t a (back old) ∧ s.Stores t p.addr n new ∧
      t.cur.fstat = s.cur.fstat ||| (op old (low c) (low d)).2.setWidth 64 ∧ s.NextWord t ∧ s.Recorded t ∧ s.OnlyRequested t := by
  intro n old low hx
  obtain ⟨t, ht, hreg, hbytes, hflags, hrest⟩ := atomicOp_spec (a := a) (op := op) (back := back) h hc hm
  refine ⟨t, he.trans ht, hreg, ?_, hflags, hrest⟩
  cases hop : (op old (low c) (low d)).1 with
  | some x =>
    rw [hop, Option.getD_some] at hx
    exact stores_of_bytes hx fun g k => (hbytes g k).trans (by rw [hop])
  | none =>
    rw [hop, Option.getD_none] at hx
    exact stores_of_bytes hx fun g k => (hbytes g k).trans (by rw [hop]; exact (number_holds hm.out.none g k).symm)

/-- An integer atomic returns the old value and stores the word whose low bits its operation gives (12 R252). -/
theorem atomicInt_ends {op : Nat → Nat → Nat → Nat} {new : Word} (he : exec i s = atomicInt i w sem scope oc mask a b c op s)
    (hv : uns w new = op (bits w) (s.number p.addr (if w then 4 else 8)) (uns w (s.cur.rs c)) % 2 ^ bits w)
    (h : s.Executes i [b, c, 0] []) (hc : s.AtCommit)
    (hm : s.MayRequest .atomic (if w then 4 else 8) oc (if semRel sem then mask else 0) (if semRel sem then some (scope, mask) else none) (s.cur.rs b) p) :
    s.Ends i fun t => s.SetsReg t a (narrow w (sgn w (BitVec.ofNat 64 (s.number p.addr (if w then 4 else 8))))) ∧
      s.Stores t p.addr (if w then 4 else 8) new ∧ t.cur.fstat = s.cur.fstat ∧ s.NextWord t ∧ s.Recorded t ∧ s.OnlyRequested t := by
  obtain ⟨t, ht, hreg, hstores, hflags, hrest⟩ :=
    atomicOp_ends (op := fun old x _ => (some (op (bits w) old x % 2 ^ bits w), 0)) (back := oldValue w) (new := new) he h hc hm (by
      rw [bits_bytes, Option.getD_some, Nat.mod_mod]; exact hv.symm)
  exact ⟨t, ht, oldValue_eq w _ ▸ hreg, hstores, hflags.trans (fstat_no_flags _), hrest⟩

end

/-- The sum of AFADD, rounded to nearest even, and its flags (12 R252). -/
def floatSum (single : Bool) (x y : Nat) : Nat × Flags :=
  roundFlt single 0 (((precision single).val x).add false ((precision single).val y))

theorem exec_afadd_eq (single : Bool) (sem : BitVec 2) (scope : BitVec 3) (oc : BitVec 4) (mask : BitVec 16) (a b c : Reg) (s : State) :
    exec (.afadd single sem scope oc mask a b c) s = atomicOp (.afadd single sem scope oc mask a b c) single sem scope oc mask a b c 0
      (fun x y _ => (some (floatSum single x y).1, (floatSum single x y).2)) (BitVec.ofNat 64) s := rfl

end Sys2Proof.Machine

namespace Sys2Proof.Proofs
open Sys2Proof Sys2Proof.Machine

/-- Settles O24: each operation on the numbers at the homes gives the low bits of the one on words. -/
theorem integerAtomics : Obligations.IntegerAtomics := by
  intro w sem scope oc mask a b c s p n old x ends
  have hold : uns w old = s.number p.addr n := (uns_ofNat w _).trans (number_mod s w _)
  have hsgn : toSigned (bits w) (s.number p.addr n) = sgn w old := sgn_toSigned w _
  have hcut : s.number p.addr n % 2 ^ bits w = s.number p.addr n := number_mod s w _
  refine ⟨atomicInt_ends (exec_aadd w sem scope oc mask a b c s) ?add, atomicInt_ends (exec_aand w sem scope oc mask a b c s) ?and,
    atomicInt_ends (exec_aor w sem scope oc mask a b c s) ?or, atomicInt_ends (exec_axor w sem scope oc mask a b c s) ?xor,
    atomicInt_ends (exec_amin w sem scope oc mask a b c s) ?min, atomicInt_ends (exec_amax w sem scope oc mask a b c s) ?max,
    atomicInt_ends (exec_aminu w sem scope oc mask a b c s) ?minu, atomicInt_ends (exec_amaxu w sem scope oc mask a b c s) ?maxu,
    atomicInt_ends (exec_aswap w sem scope oc mask a b c s) ?swap⟩
  case add =>
    rw [uns, BitVec.toNat_add, Nat.mod_mod_of_dvd _ (Nat.pow_dvd_pow 2 (bits_le w)), Nat.add_mod]
    exact congrArg (fun y => (y + uns w x) % 2 ^ bits w) hold
  case and => rw [uns, BitVec.toNat_and, Nat.and_mod_two_pow, Nat.and_mod_two_pow, uns_mod, hcut]; exact congrArg (· &&& uns w x) hold
  case or => rw [uns, BitVec.toNat_or, Nat.or_mod_two_pow, Nat.or_mod_two_pow, uns_mod, hcut]; exact congrArg (· ||| uns w x) hold
  case xor => rw [uns, BitVec.toNat_xor, Nat.xor_mod_two_pow, Nat.xor_mod_two_pow, uns_mod, hcut]; exact congrArg (· ^^^ uns w x) hold
  case min => rw [minSigned, hsgn, toSigned_uns, apply_ite (uns w), apply_ite (· % 2 ^ bits w), hold, hcut, uns_mod]
  case max => rw [maxSigned, hsgn, toSigned_uns, apply_ite (uns w), apply_ite (· % 2 ^ bits w), hold, hcut, uns_mod]
  case minu => rw [hold, Nat.min_def, apply_ite (uns w), apply_ite (· % 2 ^ bits w), hold, hcut, uns_mod]
  case maxu => rw [hold, Nat.max_def, apply_ite (uns w), apply_ite (· % 2 ^ bits w), hold, hcut, uns_mod]
  case swap => exact (uns_mod w x).symm

/-- Settles O25: ACAS writes where the comparison holds and keeps the bytes where it does not, AFADD writes what its format rounds to. -/
theorem otherAtomics : Obligations.OtherAtomics := by
  intro w sem scope oc mask a b c d s p n old low f exact' sum ready
  refine ⟨fun h hready => ?acas, fun h hready => ?afadd⟩
  case acas =>
    have hx : (if old = low c then some (low d) else none).getD old % 2 ^ (8 * n) =
        (if old = low c then s.cur.rs d else BitVec.ofNat 64 old).toNat % 2 ^ (8 * n) := by
      by_cases heq : old = low c
      · rw [if_pos heq, if_pos heq, Option.getD_some]; exact Nat.mod_mod ..
      · rw [if_neg heq, if_neg heq, Option.getD_none, bits_bytes]; exact (uns_ofNat w old).symm
    obtain ⟨t, ht, hreg, hstores, hflags, hrest⟩ := atomicOp_ends (exec_acas w sem scope oc mask a b c d s) h hready.1 hready.2 hx
    exact ⟨t, ht, oldValue_eq w _ ▸ hreg, hstores, hflags.trans (fstat_no_flags _), hrest⟩
  case afadd =>
    have hx : (some sum.1).getD old % 2 ^ (8 * n) = (BitVec.ofNat 64 sum.1).toNat % 2 ^ (8 * n) := by
      rw [bits_bytes]; exact (uns_ofNat w sum.1).symm
    obtain ⟨t, ht, hrest⟩ := atomicOp_ends (op := fun x y _ => (some (floatSum w x y).1, (floatSum w x y).2))
      (exec_afadd_eq w sem scope oc mask a b c s) h hready.1 hready.2 hx
    exact ⟨t, ht, hrest⟩

end Sys2Proof.Proofs

namespace Sys2Proof.Machine
open Sys2Proof

/-! ### A request at the clasp engine (12 R252) -/

/-- The clasp engine has changed nothing but memory, devices, other units, and what the current unit knows, waits for and has read. -/
def State.ServiceOf (s t : State) : Prop := ∃ mem devs others known wait readFrom readRings, t = { s with
  mem := mem, devs := devs, others := others, cur := { s.cur with known := known, wait := wait, readFrom := readFrom, readRings := readRings } }

theorem State.ServiceOf.trans {s t r : State} : s.ServiceOf t → t.ServiceOf r → s.ServiceOf r := by
  rintro ⟨_, _, _, _, _, _, _, rfl⟩ ⟨_, _, _, _, _, _, _, rfl⟩
  exact ⟨_, _, _, _, _, _, _, rfl⟩

theorem State.ServiceOf.regs {s t : State} : s.ServiceOf t → t.cur.toSeqRegs = s.cur.toSeqRegs := by rintro ⟨_, _, _, _, _, _, _, rfl⟩; rfl
theorem State.ServiceOf.pc {s t : State} : s.ServiceOf t → t.cur.pc = s.cur.pc := by rintro ⟨_, _, _, _, _, _, _, rfl⟩; rfl

theorem serviceOf_write (s : State) (m : Memory) : s.ServiceOf { s with mem := m } := ⟨_, _, _, _, _, _, _, rfl⟩
theorem serviceOf_onDev (s : State) (n : Dev) (f : Device → Device) : s.ServiceOf (s.onDev n f) := ⟨_, _, _, _, _, _, _, rfl⟩
theorem serviceOf_keepWaiting (s : State) : s.ServiceOf s.keepWaiting := ⟨_, _, _, _, _, _, _, rfl⟩
theorem serviceOf_wake (s : State) (key : Nat) : s.ServiceOf (s.wake key) := by
  obtain ⟨wait, others, e⟩ := wake_eq s key
  exact ⟨_, _, others, _, wait, _, _, e⟩

/-- With nothing pending, an acquiring read takes on nothing new (16 R297). -/
theorem acquired_nil {s : State} (h : s.pend = []) (scope : BitVec 3) (a n : Nat) :
    ∃ known readFrom, s.acquired scope a n = { s with cur := { s.cur with known := known, readFrom := readFrom } } := by
  refine ⟨(s.cur.known ++ []).eraseDups, (s.cur.readFrom ++ []).eraseDups, ?_⟩
  rw [State.acquired, noteSeen_nil h, noteRead_nil h]
  exact acquireAt_nil (s := { s with cur := { s.cur with readFrom := (s.cur.readFrom ++ []).eraseDups } }) h ..

theorem serviceOf_acquired {s : State} (h : s.pend = []) (scope : BitVec 3) (a n : Nat) : s.ServiceOf (s.acquired scope a n) := by
  obtain ⟨known, readFrom, e⟩ := acquired_nil h scope a n
  exact ⟨_, _, _, known, _, readFrom, _, e⟩

/-- A unit that waits still waits once its granule is woken. -/
theorem wake_waits {s : State} (h : s.cur.wait ≠ none) (key : Nat) : (s.wake key).cur.wait ≠ none := by
  obtain ⟨w, hw⟩ := Option.ne_none_iff_exists'.mp h
  by_cases hk : (w.key == key) = true
  · simp only [State.wake, hw, if_pos hk]; exact Option.some_ne_none _
  · simp only [State.wake, hw, if_neg hk]; exact Option.some_ne_none _

theorem keepWaiting_waits {s : State} (h : s.cur.wait ≠ none) : s.keepWaiting.cur.wait ≠ none := Option.map_eq_none_iff.not.mpr h

/-- Every other unit that waits on a granule is woken (12 R255). -/
theorem wake_others {s : State} {key : Nat} {u : Unit} {x : Waiting} (hu : u ∈ s.others) (hx : u.wait = some x) (hk : x.key = key) :
    { u with wait := some { x with woken := true } } ∈ (s.wake key).others := by
  refine List.mem_map.mpr ⟨u, hu, ?_⟩
  rw [hx]
  exact if_pos (beq_iff_eq.mpr hk)

/-- The machine once the clasp engine has written 8 bytes for a request and woken whoever waits on their granule. -/
def State.written (s : State) (a x : Nat) : State := ({ s with mem := s.mem.write a (leBytes 8 x) } : State).wake (granuleKey a)

theorem serviceOf_written (s : State) (a x : Nat) : s.ServiceOf (s.written a x) := (serviceOf_write s _).trans (serviceOf_wake _ _)
theorem written_waits {s : State} (h : s.cur.wait ≠ none) (a x : Nat) : (s.written a x).cur.wait ≠ none := wake_waits h _

/-- What a unit reads depends on memory, its errors, what is pending, and the banks. -/
theorem plainByte_congr {s t : State} (hm : t.mem = s.mem) (hl : t.latent = s.latent) (hp : t.pend = s.pend)
    (hb : ∀ m, (t.dev m).banks = (s.dev m).banks) (g : Gid) (k : Nat) : t.plainByte g k = s.plainByte g k := by
  simp only [State.plainByte, State.settled, State.stored, State.badSymbols, hm, hl, hp, unlisted_congr hb]

/-- Neither a barrier's arrivals nor an acquire changes what a unit reads. -/
theorem plainByte_arrivals (s : State) (n : Dev) (f : List Arrival → List Arrival) (g : Gid) (k : Nat) :
    (s.onDev n fun d => { d with arrivals := f d.arrivals }).plainByte g k = s.plainByte g k := by
  refine plainByte_congr ?_ ?_ ?_ (fun m => (onDev_arrivals n f m).1) g k <;> rfl
theorem plainByte_acquired {s : State} (h : s.pend = []) (scope : BitVec 3) (a n : Nat) (g : Gid) (k : Nat) :
    (s.acquired scope a n).plainByte g k = s.plainByte g k := by
  obtain ⟨known, readFrom, e⟩ := acquired_nil h scope a n
  rw [e]; rfl

theorem State.Stores.congr {s t r : State} {a n : Nat} {x : Word} (h : s.Stores t a n x) (hr : ∀ g k, r.plainByte g k = t.plainByte g k) :
    s.Stores r a n x := fun g k => (hr g k).trans (h g k)

/-- The machine `t` in which a request of the current unit for `n` bytes at `a` is served: what a request reads is as in `s`, and the unit waits. -/
structure State.ServedAs (s t : State) (a n : Nat) : Prop where
  regs     : t.cur.toSeqRegs = s.cur.toSeqRegs
  pc       : t.cur.pc = s.cur.pc
  lead     : t.leadGid = s.cur.gid
  prompt   : t.prompt = true
  pend     : t.pend = []
  others   : t.others = s.others
  number   : ∀ a n, t.number a n = s.number a n
  bytes    : ∀ g k, t.plainByte g k = s.plainByte g k
  sound    : ∀ b, b < n → t.erring (a + b) = false
  arrivals : ∀ m, (t.dev m).arrivals = (s.dev m).arrivals
  waits    : ∃ w, t.cur.wait = some w ∧ w.woken = true ∧ w.served = false

/-- What instruction `i`, which writes s[a], comes to in `s` where its request is served in `s1` with the answer given (12 R252). -/
def State.Comes (s : State) (i : Instr) (a : Reg) (s1 : State) : Asked → Prop
  | .done t x _ _ => s1.ServiceOf t → s.Ends i fun r => s.SetsReg r a x ∧ s.NextWord r ∧ s.Recorded r ∧ s.OnlyRequested r ∧
      r.others = t.others ∧ r.devs = t.devs ∧ ∀ g k, r.plainByte g k = t.plainByte g k
  | .wait t => ∃ n, exec i s = .next (t.keepWaiting.pass n).tick
  | .trap t x => exec i s = .next (t.raise x)

section
variable {s s1 : State} {a n : Nat}

theorem State.ServedAs.rs (h : s.ServedAs s1 a n) (r : Reg) : s1.cur.rs r = s.cur.rs r := rs_congr (congrArg SeqRegs.s h.regs) r

theorem State.ServedAs.waiting (h : s.ServedAs s1 a n) : s1.cur.wait ≠ none := by
  obtain ⟨w, hw, -⟩ := h.waits
  exact hw ▸ Option.some_ne_none w

theorem State.ServedAs.keepsRegs (h : s.ServedAs s1 a n) {t : State} (ht : s1.ServiceOf t) : s.KeepsRegs t :=
  rs_congr (congrArg SeqRegs.s (ht.regs.trans h.regs))

/-- The write of a request that is served, which wakes its granule. -/
theorem State.ServedAs.written_eq (h : s.ServedAs s1 a n) (hn : 8 ≤ n) (g : Gid) (cls : BitVec 4) (x : Nat) (own : Option (BitVec 3 × BitVec 16))
    (joins : Bool) : (s1.claspWrite g cls a (leBytes 8 x) own joins).wake (granuleKey a) = s1.written a x := by
  have hlen : (leBytes 8 x).length = 8 := leBytes_length 8 x
  rw [claspWrite_now h.prompt h.pend _ _ _ _ _ _ (Nat.le_of_eq hlen) fun b hb => h.sound b (by omega)]
  rfl

theorem State.ServedAs.stores_written (h : s.ServedAs s1 a n) (hn : 8 ≤ n) (x : Nat) : s.Stores (s1.written a x) a 8 (BitVec.ofNat 64 x) := by
  refine stores_of_bytes (x := x) ?_ fun g k => ?_
  · rw [BitVec.toNat_ofNat, Nat.mod_mod]
  · exact (wrote_bytes (t := s1.written a x) (x := some x) h.pend h.pend rfl (unlisted_congr fun _ => rfl) (fun b hb => h.sound b (by omega)) g k rfl).trans
      (by rw [h.bytes])

end

/-- Once its request stands at the clasp engine, an instruction comes to what the engine answers; `r` is the machine with what the walk has decoded. -/
theorem comes_of_asking {s r s1 : State} {w : Waiting} {i : Instr} {a : Reg} {record : List Byte} {answer : Asked} (hD : s.Decodes r) (hc : r.AtCommit)
    (hb : r.cur.buffering = false) (hA : Asking r s1 w) (hexec : exec i s = match answer with
      | .done t x lat f => finishRequest (t.noteRequest false record x lat f).endWait a x lat
      | .wait t => stall t.keepWaiting
      | .trap t x => trapNow t x) : s.Comes i a s1 answer := by
  cases answer with
  | done t x lat flags =>
    rintro ⟨mem, devs, others, known, wait, readFrom, readRings, et⟩
    obtain ⟨t', ht, hreg, hnext, hrec, honly, hmem, hdevs, hothers, hpend, hlatent, -⟩ := asking_done (s2 := t) hc hA hb record a x lat flags
      ⟨known, wait, readFrom, readRings, by rw [et]⟩
    obtain ⟨hreg', hnext', hrec', honly'⟩ := requested_decodes hD hreg hnext hrec honly
    obtain ⟨_, _, _, _, _, _, _, e⟩ := hA.eq
    refine ⟨t', hexec.trans ht, hreg', hnext', hrec', honly', hothers, hdevs, plainByte_congr hmem ?_ ?_ fun m => ?_⟩
    · rw [hlatent, et, e]; rfl
    · rw [hpend, et, e]; rfl
    · rw [State.dev, State.dev, hdevs]
  | wait t =>
    obtain ⟨n, hn⟩ := stall_waits t.keepWaiting
    exact ⟨n, hexec.trans hn⟩
  | trap t x => exact hexec

/-- A class 5 request that may be performed at once is served, and its instruction comes to what the clasp engine answers. -/
theorem claspOp_comes {s : State} {i : Instr} {a b c d : Reg} {k : AccessKind} {n : Nat} {cls : BitVec 4} {mask : BitVec 16}
    {rel : Option (BitVec 3 × BitVec 16)} {p : Place} {f : Word → Nat → State → Latency → Asked} (he : exec i s = claspOp i a b c d k n cls mask rel f s)
    (h : s.Executes i [b, c, d] []) (hc : s.AtCommit) (hn : 0 < n) (hm : s.MayRequest k n cls mask rel (s.cur.rs b) p) :
    ∃ s1 lat, s.ServedAs s1 p.addr n ∧ s.Comes i a s1 (f (s.cur.rs b) p.addr s1 lat) := by
  obtain ⟨s1, lat, w, record, hanswer, hA, -, hwoken, hserved⟩ := claspOp_spec (a := a) h hc hn hm f
  have hD : s.Decodes (s.scrubWalk s.cur.gid (s.cur.rs b)) := scrubWalk_decoded ..
  have hcur : (s.scrubWalk s.cur.gid (s.cur.rs b)).cur = s.cur := scrubWalk_cur ..
  generalize s.scrubWalk s.cur.gid (s.cur.rs b) = r at hA hD hcur
  have hout := hm.out.decodes hD
  obtain ⟨q, L, S, M, P, U, R, e⟩ := hA.eq
  have hlive : s1.cur.live ≤ 1 := by rw [e]; exact (buffering_false hout.plain).1
  have hlatent : s1.latent = r.latent := by rw [e]; rfl
  refine ⟨s1, lat, ⟨?regs, ?pc, ?lead, ?prompt, ?pend, ?others, ?number, ?bytes, ?sound, ?arrivals, w, ?waits, hwoken, hserved⟩, ?comes⟩
  case regs => rw [← hcur, e]; rfl
  case pc => rw [← hcur, e]; rfl
  case lead => rw [State.leadGid, if_pos hlive, ← hcur, e]; rfl
  case prompt =>
    have := hout.now
    rw [State.reachesNow, Bool.and_eq_true] at this
    rw [e]; exact this.1
  case pend => rw [e]; exact hout.none
  case others =>
    obtain ⟨⟨_, _, _, _, er⟩, -⟩ := hD
    rw [e]; show r.others = _; rw [er]
  case number => exact fun a n => congrArg fromLe ((asking_bytes hA a n).trans (homeBytes_decodes hD a n))
  case bytes =>
    refine fun g k => (plainByte_congr ?_ hlatent ?_ (fun m => (hA.dev m).1) g k).trans (hD.plainByte g k) <;> rw [e] <;> rfl
  case sound =>
    intro b hb
    rw [State.erring, hlatent]
    exact erring_decodes hD (hm.clean b hb).1
  case arrivals => exact fun m => (hA.dev m).2.trans (by rw [(hD.2.1 m).1])
  case waits => rw [e]
  case comes => exact comes_of_asking hD (by rw [State.AtCommit, hcur]; exact hc) hout.plain hA (he.trans hanswer)

/-- An instruction whose request goes on waiting stays on: it keeps its registers and its place, and is tried again. -/
theorem State.Comes.stays {s s1 y : State} {i : Instr} {r : Reg} {a n : Nat} (h : s.Comes i r s1 (.wait y)) (hs : s.ServedAs s1 a n) (hy : s1.ServiceOf y)
    (hw : y.cur.wait ≠ none) {P : State → Prop} (hP : P y.keepWaiting) :
    s.StaysOn i fun t => s.KeepsRegs t ∧ t.cur.pc = s.cur.pc ∧ t.cur.wait ≠ none ∧ P t := by
  obtain ⟨n, hn⟩ := h
  exact ⟨y.keepWaiting, n, hn, hs.keepsRegs (hy.trans (serviceOf_keepWaiting y)), hy.pc.trans hs.pc, keepWaiting_waits hw, hP⟩

/-- A waiting read that is over returns its value and leaves memory as it was (16 R297). -/
theorem State.Comes.reads {s s1 : State} {i : Instr} {r : Reg} {a n : Nat} {scope : BitVec 3} {addr m : Nat} {x : Word} {lat : Latency}
    (h : s.Comes i r s1 (.done (s1.acquired scope addr m) x lat)) (hs : s.ServedAs s1 a n) :
    s.Ends i fun t => s.SetsReg t r x ∧ s.NextWord t ∧ s.Recorded t ∧ (∀ g k, t.plainByte g k = s.plainByte g k) ∧ s.OnlyRequested t := by
  obtain ⟨t, ht, hreg, hnext, hrec, honly, -, -, hbytes⟩ := h (serviceOf_acquired hs.pend ..)
  exact ⟨t, ht, hreg, hnext, hrec, fun g k => (hbytes g k).trans ((plainByte_acquired hs.pend ..).trans (hs.bytes g k)), honly⟩

/-- An instruction that writes s0 keeps every register (01 R15). -/
theorem ends_keeping {s : State} {i : Instr} {x : Word} {P : State → Prop} (h : s.Ends i fun t => s.SetsReg t 0 x ∧ P t) :
    s.Ends i fun t => s.KeepsRegs t ∧ P t := by
  obtain ⟨t, ht, hreg, hrest⟩ := h
  exact ⟨t, ht, fun r => (hreg r).trans (if_neg fun hr => hr.2 rfl), hrest⟩

/-! ### Barriers (12 R253, R254) -/

/-- The number that a barrier's word holds before a request, whose fields BARR reads. -/
theorem barrierWord_eq {w : Nat} (hw : w < 2 ^ 64) (p n : Nat) : barrierWord (w / 2 ^ 32) p n = w / 2 ^ 32 * 2 ^ 32 + p * 2 ^ 16 + n := by
  rw [barrierWord, Nat.mod_eq_of_lt (by omega)]

theorem barrierWord_clear (gen : Nat) : barrierWord gen 0 0 = gen % 2 ^ 32 * 2 ^ 32 := by
  rw [barrierWord, Nat.zero_mul, Nat.add_zero]

/-- An arrival that is recorded where there was none is the one found. -/
theorem arrival?_append {d : Device} {x : Arrival} (h : d.arrival? x.granule x.gid = none) :
    ({ d with arrivals := d.arrivals ++ [x] } : Device).arrival? x.granule x.gid = some x := by
  rw [Device.arrival?] at h
  rw [Device.arrival?, List.find?_append, h, Option.none_or, List.find?_cons_of_pos (by simp)]

end Sys2Proof.Machine

namespace Sys2Proof.Proofs
open Sys2Proof Sys2Proof.Machine

/-- Settles O26: the request is served, and BARR reads the fields of the barrier's word. -/
theorem barriers : Obligations.Barriers := by
  intro scope mask a b c s p i w gen expected arrived parts bad h hc hm
  obtain ⟨s1, lat, hs, hcomes⟩ := claspOp_comes (exec_barr scope mask a b c s) h hc (by decide) hm
  have hwlt : w < 2 ^ 64 := number_lt s p.addr 8
  have hword : fromLe (s1.homeBytes p.addr 8) = w := hs.number p.addr 8
  have hfresh : s1.cur.wait.any (·.served) = false := by
    obtain ⟨x, hx, -, hserved⟩ := hs.waits
    rw [hx]; exact hserved
  have hbad : (parts == 0 || decide (65535 < parts) || (expected != 0 && expected != parts)) = true ↔ bad := by
    simp [bad, or_assoc]
  dsimp only at hcomes
  rw [hword, hs.lead, hs.rs, hfresh, Bool.not_false, Bool.true_and] at hcomes
  refine ⟨fun hb => ?bad, fun hb hnone => ?arrives⟩
  case bad =>
    rw [if_pos (hbad.mpr hb)] at hcomes
    exact ⟨s1, hcomes, hs.regs, hs.bytes⟩
  case arrives =>
    rw [if_neg (hbad.not.mpr hb)] at hcomes
    have hnone' : (s1.dev (addrDev p.addr)).arrival? (granuleKey p.addr) s.cur.gid = none := by
      rw [Device.arrival?, hs.arrivals]; exact hnone
    rw [hnone', noteSeen_nil hs.pend, hs.written_eq (by decide)] at hcomes
    dsimp only at hcomes
    refine ⟨fun hlast => ?last, fun hearly => ?early⟩
    case last =>
      rw [if_pos hlast, if_pos hlast, barrierWord_clear] at hcomes
      let y : State := (s1.written p.addr ((gen + 1) % 2 ^ 32 * 2 ^ 32)).onDev (addrDev p.addr) fun d =>
        { d with arrivals := d.arrivals.filter fun x => !(x.granule == granuleKey p.addr && x.gid == s.cur.gid) }
      have hpend : y.pend = [] := hs.pend
      have hservice : s1.ServiceOf (y.acquired scope p.addr 8) :=
        (serviceOf_written s1 _ _).trans ((serviceOf_onDev _ _ _).trans (serviceOf_acquired hpend ..))
      obtain ⟨t, ht, hreg, hnext, hrec, honly, -, -, hbytes⟩ := hcomes hservice
      have hstores : s.Stores y p.addr 8 _ := (hs.stores_written (by decide) _).congr (plainByte_arrivals _ _ _)
      exact ⟨t, ht, hreg, (hstores.congr (plainByte_acquired hpend _ _ _)).congr hbytes, hnext, hrec, honly⟩
    case early =>
      rw [if_neg hearly, if_neg hearly, barrierWord_eq hwlt] at hcomes
      let x : Arrival := { granule := granuleKey p.addr, gid := s.cur.gid, gen := BitVec.ofNat 32 gen }
      let y : State := (s1.written p.addr (gen * 2 ^ 32 + parts * 2 ^ 16 + arrived)).onDev (addrDev p.addr) fun d => { d with arrivals := d.arrivals ++ [x] }
      have hservice : s1.ServiceOf y := (serviceOf_written s1 _ _).trans (serviceOf_onDev ..)
      have hstores : s.Stores y p.addr 8 _ := (hs.stores_written (by decide) _).congr (plainByte_arrivals _ _ (· ++ [x]))
      refine hcomes.stays hs hservice (written_waits hs.waiting p.addr _) ⟨hstores, ?_⟩
      show (y.dev (addrDev p.addr)).arrival? _ _ = _
      rw [show y.dev _ = _ from dev_onDev _ _ _ (dev_num ..) _, if_pos rfl]
      exact arrival?_append (x := x) hnone'

/-- Settles O27: the wait goes on where the word read is the one awaited; a signal writes its word and wakes whoever waits. -/
theorem waitsAndSignals : Obligations.WaitsAndSignals := by
  intro scope mask a b c s p w ends
  refine ⟨fun h hc hm => ?bwait, fun h hc hm => ?mwait, fun h hc hm => ?msig⟩
  case bwait =>
    obtain ⟨s1, lat, hs, hcomes⟩ := claspOp_comes (exec_bwait scope mask a b c s) h hc (by decide) hm
    have hword : fromLe (s1.homeBytes p.addr 8) = w := hs.number p.addr 8
    dsimp only at hcomes
    rw [hword, hs.rs, noteSeen_nil hs.pend] at hcomes
    refine ⟨fun hgo => ?goes, fun hstay => ?stays⟩
    case goes => rw [if_neg hgo] at hcomes; exact hcomes.reads hs
    case stays => rw [if_pos (not_not.mp hstay)] at hcomes; exact hcomes.stays hs (serviceOf_write s1 s1.mem) hs.waiting hs.bytes
  case mwait =>
    obtain ⟨s1, lat, hs, hcomes⟩ := claspOp_comes (exec_mwait scope mask a b c s) h hc (by decide) hm
    have hword : fromLe (s1.homeBytes p.addr 8) = w := hs.number p.addr 8
    have hawaited : BitVec.ofNat 64 w = s.cur.rs c ↔ ¬ w ≠ (s.cur.rs c).toNat := by
      rw [not_not, BitVec.toNat_eq, BitVec.toNat_ofNat, Nat.mod_eq_of_lt (number_lt s p.addr 8)]
    obtain ⟨x, hx, hwoken, -⟩ := hs.waits
    dsimp only at hcomes
    rw [hword, noteSeen_nil hs.pend, hs.rs, hx] at hcomes
    dsimp only at hcomes
    rw [if_neg (by rw [hwoken, Bool.true_or]; exact Bool.false_ne_true)] at hcomes
    refine ⟨fun hgo => ?goes, fun hstay => ?stays⟩
    case goes => rw [if_neg (hawaited.not.mpr (not_not.mpr hgo))] at hcomes; exact hcomes.reads hs
    case stays =>
      rw [if_pos (hawaited.mpr hstay)] at hcomes
      exact hcomes.stays hs ⟨_, _, _, _, _, _, _, rfl⟩ (Option.some_ne_none _) hs.bytes
  case msig =>
    obtain ⟨s1, lat, hs, hcomes⟩ := claspOp_comes (exec_msig scope mask b c s) h hc (by decide) hm
    rw [hs.written_eq (Nat.le_refl 8), hs.rs] at hcomes
    obtain ⟨t, ht, hreg, hnext, hrec, honly, hothers, -, hbytes⟩ := hcomes (serviceOf_written ..)
    have hstores : s.Stores (s1.written p.addr (s.cur.rs c).toNat) p.addr 8 (s.cur.rs c) := by
      have := hs.stores_written (Nat.le_refl 8) (s.cur.rs c).toNat
      rwa [BitVec.ofNat_toNat, BitVec.setWidth_eq] at this
    refine ends_keeping ⟨t, ht, hreg, hstores.congr hbytes, hnext, hrec, fun u hu x hx hk => ?_, honly⟩
    rw [hothers]
    exact wake_others (hs.others ▸ hu) hx hk

end Sys2Proof.Proofs

namespace Sys2Proof.Machine
open Sys2Proof

/-! ### A ring at the clasp engine (12 R256, R257, R259) -/

/-- The machine `t` in which a ring request of the current unit is served: registers, memory and rings are as in `s`. -/
structure State.ServesRing (s t : State) : Prop where
  regs  : t.cur.toSeqRegs = s.cur.toSeqRegs
  mem   : t.mem = s.mem
  bytes : ∀ g k, t.plainByte g k = s.plainByte g k
  rings : ∀ m, (t.dev m).rings = (s.dev m).rings

theorem State.ServesRing.rs {s t : State} (h : s.ServesRing t) (r : Reg) : t.cur.rs r = s.cur.rs r := rs_congr (congrArg SeqRegs.s h.regs) r

theorem servesRing_of_asking {s t : State} {w : Waiting} (hA : Asking s t w) (hr : ∀ m, (t.dev m).rings = (s.dev m).rings) : s.ServesRing t := by
  obtain ⟨_, _, _, _, _, _, _, e⟩ := hA.eq
  have hmem : t.mem = s.mem := by rw [e]; rfl
  refine ⟨by rw [e]; rfl, hmem, plainByte_congr hmem ?_ ?_ fun m => (hA.dev m).1, hr⟩ <;> rw [e] <;> rfl

/-- The clasp engine has left the ring `r` under its number on a device, and changed nothing else but what `ServiceOf` names; memory is as it was. -/
structure State.LeavesRing (s t : State) (dev : Dev) (index : Nat) (r : Ring) : Prop where
  service : s.ServiceOf t
  mem     : t.mem = s.mem
  banks   : ∀ m, (t.dev m).banks = (s.dev m).banks
  rings   : ∀ k, (t.dev dev).rings.lookup k = if k = index then some r else (s.dev dev).rings.lookup k

section
variable {s t : State} {dev : Dev} {index : Nat} {r : Ring}

theorem leavesRing_self (h : (s.dev dev).rings.lookup index = some r) : s.LeavesRing s dev index r where
  service := ⟨_, _, _, _, _, _, _, rfl⟩
  mem := rfl
  banks _ := rfl
  rings k := by
    by_cases hk : k = index
    · rw [if_pos hk, hk, h]
    · rw [if_neg hk]

theorem leavesRing_set (s : State) (dev : Dev) (index : Nat) (r : Ring) : s.LeavesRing (s.setRing dev index r) dev index r where
  service := serviceOf_onDev ..
  mem := rfl
  banks m := (setRing_dev s dev index r m).1
  rings k := by rw [(setRing_dev s dev index r dev).2, if_pos rfl, tablePut_lookup]

/-- What the unit then reads of the ring's releases, or takes on, leaves the ring. -/
theorem State.LeavesRing.noteRing (h : s.LeavesRing t dev index r) (rs : List Release) : s.LeavesRing (t.noteRing rs) dev index r :=
  ⟨h.service.trans ⟨_, _, _, _, _, _, _, rfl⟩, h.mem, h.banks, h.rings⟩
theorem State.LeavesRing.knows (h : s.LeavesRing t dev index r) (ids : List Nat) :
    s.LeavesRing { t with cur := { t.cur with known := ids } } dev index r :=
  ⟨h.service.trans ⟨_, _, _, _, _, _, _, rfl⟩, h.mem, h.banks, h.rings⟩

/-- Binding a ring sets it, and tells whoever waits on the earlier binding (12 R257). -/
theorem leavesRing_bind (s : State) (dev : Dev) (sec ring : Nat) (x : Word) :
    s.LeavesRing (s.bindRing dev sec ring x) dev (ringIndex sec ring) (newRing x) := by
  have hset := leavesRing_set s dev (ringIndex sec ring) (newRing x)
  have hunit : ∃ wait, (s.bindRing dev sec ring x).cur = { s.cur with wait := wait } := by
    cases hw : s.cur.wait with
    | none =>
      have hkeep : (s.bindRing dev sec ring x).cur = s.cur := by simp only [State.bindRing, State.onDev, State.setDev, hw]
      exact ⟨s.cur.wait, hkeep⟩
    | some w =>
      by_cases hk : (w.key == ringKey dev (ringIndex sec ring) && w.served) = true
      · exact ⟨some { w with woken := false }, by simp only [State.bindRing, State.onDev, State.setDev, hw, if_pos hk]⟩
      · have hkeep : (s.bindRing dev sec ring x).cur = s.cur := by simp only [State.bindRing, State.onDev, State.setDev, hw, if_neg hk]
        exact ⟨s.cur.wait, hkeep⟩
  obtain ⟨wait, hunit⟩ := hunit
  refine ⟨⟨s.mem, (s.bindRing dev sec ring x).devs, (s.bindRing dev sec ring x).others, s.cur.known, wait, s.cur.readFrom, s.cur.readRings, ?_⟩,
    rfl, hset.banks, hset.rings⟩
  exact congrArg (fun u => ({ s.bindRing dev sec ring x with cur := u } : State)) hunit

end

/-- A ring instruction has taken effect: its ring is bound with the configuration, counters and committed tickets of `want`, the sequencer goes on, and no
byte of memory has changed (12 R259). -/
def State.RingDone (s t : State) (index : Nat) (want : Ring) : Prop :=
  (∃ r, s.SetsRing t index r ∧ r.config = want.config ∧ r.claimed = want.claimed ∧ r.tail = want.tail ∧ r.head = want.head ∧
    r.committed = want.committed) ∧
  s.NextWord t ∧ s.Recorded t ∧ (∀ g n, t.plainByte g n = s.plainByte g n) ∧ s.OnlyRequested t

/-- What a ring instruction does whose request is answered: its value in s[A], and the ring that the clasp engine leaves. -/
theorem State.Comes.leavesRing {s s1 t : State} {i : Instr} {a : Reg} {x : Word} {lat : Latency} {index : Nat} {r want : Ring}
    (h : s.Comes i a s1 (.done t x lat)) (hs : s.ServesRing s1) (ht : s1.LeavesRing t (gidDev s.cur.gid) index r)
    (hr : r.config = want.config ∧ r.claimed = want.claimed ∧ r.tail = want.tail ∧ r.head = want.head ∧ r.committed = want.committed) :
    s.Ends i fun z => s.SetsReg z a x ∧ s.RingDone z index want := by
  obtain ⟨z, hz, hreg, hnext, hrec, honly, -, hdevs, hbytes⟩ := h ht.service
  refine ⟨z, hz, hreg, ⟨r, fun k => ?_, hr⟩, hnext, hrec, fun g k => ?_, honly⟩
  · rw [State.dev, hdevs, ← State.dev, ht.rings, hs.rings]
  · rw [hbytes, ← hs.bytes]
    obtain ⟨_, _, _, _, _, _, _, e⟩ := ht.service
    exact plainByte_congr ht.mem (by rw [e]) (by rw [e]) ht.banks g k

/-- A ring instruction that traps leaves registers and memory as they were. -/
theorem State.Comes.traps {s s1 t : State} {i : Instr} {a : Reg} {x : Trap} (h : s.Comes i a s1 (.trap t x)) (ht : s.ServesRing t) :
    ∃ u : State, exec i s = .next (u.raise x) ∧ u.cur.toSeqRegs = s.cur.toSeqRegs ∧ u.mem = s.mem := ⟨t, h, ht.regs, ht.mem⟩

section
variable {s : State} {i : Instr} {a b c : Reg} {sec ring : Nat} {mask : BitVec 16} {rel writes : Bool}
  {f : Ring → Nat → (Ring → State) → Latency → State → Asked}

/-- A ring instruction that may be performed at once is served, with the ring that is bound, and traps where none is. -/
theorem ringOp_comes (he : exec i s = ringOp i a b c mask rel writes f s) (h : s.Executes i [b, c] []) (hc : s.AtCommit)
    (hm : s.MayRing (s.cur.rs b) sec ring mask rel writes) : ∃ s1 lat, s.ServesRing s1 ∧
      s.Comes i a s1 (match (s.dev (gidDev s.cur.gid)).rings.lookup (ringIndex sec ring) with
        | none => .trap s1 (seqTrap .ringerr (s.cur.rs b))
        | some r => f r ring (s1.setRing (gidDev s.cur.gid) (ringIndex sec ring)) lat s1) := by
  obtain ⟨s1, lat, w, record, hanswer, hA, hrings⟩ := ringOp_spec (a := a) h hc hm f
  exact ⟨s1, lat, servesRing_of_asking hA hrings, comes_of_asking (State.Decodes.rfl s) hc hm.plain hA (he.trans hanswer)⟩

/-- With its ring bound, what its answer for that ring is. -/
theorem ringOp_bound {r : Ring} (he : exec i s = ringOp i a b c mask rel writes f s) (h : s.Executes i [b, c] []) (hc : s.AtCommit)
    (hm : s.MayRing (s.cur.rs b) sec ring mask rel writes) (hr : (s.dev (gidDev s.cur.gid)).rings.lookup (ringIndex sec ring) = some r) :
    ∃ s1 lat, s.ServesRing s1 ∧ s1.LeavesRing s1 (gidDev s.cur.gid) (ringIndex sec ring) r ∧
      s.Comes i a s1 (f r ring (s1.setRing (gidDev s.cur.gid) (ringIndex sec ring)) lat s1) := by
  obtain ⟨s1, lat, hs, hcomes⟩ := ringOp_comes he h hc hm
  rw [hr] at hcomes
  exact ⟨s1, lat, hs, leavesRing_self ((congrArg (·.lookup (ringIndex sec ring)) (hs.rings _)).trans hr), hcomes⟩

/-- With no ring bound, RINGERR, and registers and memory as they were. -/
theorem ringOp_unbound (he : exec i s = ringOp i a b c mask rel writes f s) (h : s.Executes i [b, c] []) (hc : s.AtCommit)
    (hm : s.MayRing (s.cur.rs b) sec ring mask rel writes) (hr : (s.dev (gidDev s.cur.gid)).rings.lookup (ringIndex sec ring) = none) :
    ∃ u : State, exec i s = .next (u.raise (seqTrap .ringerr (s.cur.rs b))) ∧ u.cur.toSeqRegs = s.cur.toSeqRegs ∧ u.mem = s.mem := by
  obtain ⟨s1, lat, hs, hcomes⟩ := ringOp_comes he h hc hm
  rw [hr] at hcomes
  exact hcomes.traps hs

/-- A selector that names no ring raises ILLFLD (12 R256). -/
theorem ringOp_selector (he : exec i s = ringOp i a b c mask rel writes f s) (h : s.Executes i [b, c] []) (hc : s.AtCommit)
    (hsel : ringSelector s.cur (s.cur.rs b) = none) : s.Raises i (seqTrap .illfld (encode i)) := by
  rw [ringOp] at he
  obtain ⟨k, hk, e⟩ := issue_vetting_atCommit h hc _ _
  refine ⟨k, hk, he.trans (e.trans ?_)⟩
  have hvet : (if (true && (ringSelector (s.pass k).cur ((s.pass k).cur.rs b)).isNone) = true then some (seqTrap .illfld (encode i)) else none) =
      some (seqTrap .illfld (encode i)) := if_pos (congrArg Option.isNone hsel)
  simp only [hvet]
  rfl

end

/-! ### Binding a ring (12 R257) -/

theorem ringBanksOk_congr {s t : State} {u v : Unit} (hd : t.devs = s.devs) (hg : v.gid = u.gid) (ht : v.task = u.task) (sec ring : Nat) (x : Word) :
    t.ringBanksOk v sec ring x = s.ringBanksOk u sec ring x := by
  simp only [State.ringBanksOk, State.dev, Unit.isCore, hd, hg, ht]

/-- What a RINIT comes to that is served: RINGERR where its banks may not be bound, else the ring bound, with the number of its slots (12 R257). -/
def bindServed (b : Reg) (dev : Dev) (sec ring : Nat) (x : Word) (s : State) : Asked :=
  if !s.ringBanksOk s.cur sec ring x then .trap s (seqTrap .ringerr (s.cur.rs b))
  else withEntry dev (ringKey dev (ringIndex sec ring)) (sramAddr dev sec 0) (Config.freeWord s.free)
    (fun s lat => .done (s.bindRing dev sec ring x) (BitVec.ofNat 64 (newRing x).slots) lat) s

section
variable {s : State} {a b c : Reg} {sec ring : Nat}

/-- A RINIT whose selector names a ring and whose configuration is a sound one makes its request. -/
theorem rinit_asks (h : s.Executes (.rinit a b c) [b, c] []) (hc : s.AtCommit) (hsel : ringSelector s.cur (s.cur.rs b) = some (sec, ring))
    (hok : ringConfigOk (s.cur.rs c) = true) : ∃ q, exec (.rinit a b c) s =
      claspRequest (.rinit a b c) a (ringKey (gidDev s.cur.gid) (ringIndex sec ring)) (sramAddr (gidDev s.cur.gid) sec 0) 0 0 none false
        (claspRecord (.rinit a b c) 0 (s.cur.rs b) (s.cur.rs c) 0) (fun s => s.cur.classFree 0)
        (bindServed b (gidDev s.cur.gid) sec ring (s.cur.rs c)) (s.pass q) := by
  have he := exec_rinit a b c s
  rw [execRinit] at he
  obtain ⟨q, -, e⟩ := issue_vetting_atCommit h hc _ _
  replace e := he.trans e
  have hplace : ringSelector (s.pass q).cur ((s.pass q).cur.rs b) = some (sec, ring) := hsel
  have hvet : ((true && (ringSelector (s.pass q).cur ((s.pass q).cur.rs b)).isNone) || (true && !ringConfigOk ((s.pass q).cur.rs c))) = false := by
    rw [hplace, show ringConfigOk ((s.pass q).cur.rs c) = true from hok]
    rfl
  simp only [hvet, Bool.false_eq_true, if_false] at e
  simp only [hplace] at e
  exact ⟨q, e⟩

/-- A RINIT that may be performed at once is served: it traps where its banks may not be bound, and binds the ring where they may. -/
theorem rinit_comes (h : s.Executes (.rinit a b c) [b, c] []) (hc : s.AtCommit) (hm : s.MayRing (s.cur.rs b) sec ring 0 false false)
    (hok : ringConfigOk (s.cur.rs c) = true) : ∃ s1 lat, s.ServesRing s1 ∧ s.Comes (.rinit a b c) a s1
      (if s.ringBanksOk s.cur sec ring (s.cur.rs c) = true then
        .done (s1.bindRing (gidDev s.cur.gid) sec ring (s.cur.rs c)) (BitVec.ofNat 64 (newRing (s.cur.rs c)).slots) lat
      else .trap s1 (seqTrap .ringerr (s.cur.rs b))) := by
  obtain ⟨q, hasks⟩ := rinit_asks h hc hm.place hok
  obtain ⟨s0, w, hrequest, hA, hdevs, -, -, -⟩ := claspRequest_spec q (.rinit a b c) a 0 none false (claspRecord (.rinit a b c) 0 (s.cur.rs b) (s.cur.rs c) 0)
    (fun s => s.cur.classFree 0) (bindServed b (gidDev s.cur.gid) sec ring (s.cur.rs c)) hm.plain hm.idle hm.linked hm.turn (fun _ _ _ _ _ _ => hm.free)
  have hexec := hasks.trans hrequest
  have hs0 : s.ServesRing s0 := servesRing_of_asking hA fun m => by rw [State.dev, State.dev, hdevs]
  have hbanks : s0.ringBanksOk s0.cur sec ring (s.cur.rs c) = s.ringBanksOk s.cur sec ring (s.cur.rs c) := by
    obtain ⟨_, _, _, _, _, _, _, e⟩ := hA.eq
    exact ringBanksOk_congr hdevs (by rw [e]; rfl) (by rw [e]; rfl) ..
  rw [bindServed, hbanks, hs0.rs] at hexec
  cases hb : s.ringBanksOk s.cur sec ring (s.cur.rs c) with
  | true =>
    obtain ⟨s1, lat, hentry, hA1, hrings⟩ := withEntry_spec hA hdevs (addr := sramAddr (gidDev s.cur.gid) sec 0) (tv := Config.freeWord s0.free) hm.entry
      (fun z lat => .done (z.bindRing (gidDev s.cur.gid) sec ring (s.cur.rs c)) (BitVec.ofNat 64 (newRing (s.cur.rs c)).slots) lat)
    rw [hb, if_neg (by decide), hentry] at hexec
    exact ⟨s1, lat, servesRing_of_asking hA1 hrings, comes_of_asking (State.Decodes.rfl s) hc hm.plain hA1 hexec⟩
  | false =>
    rw [hb, Bool.not_false, if_pos rfl] at hexec
    exact ⟨s0, { typical := 0, bound := 0 }, hs0,
      comes_of_asking (record := claspRecord (.rinit a b c) 0 (s.cur.rs b) (s.cur.rs c) 0) (State.Decodes.rfl s) hc hm.plain hA hexec⟩

/-- A RINIT whose selector or configuration has a bit that must be zero raises ILLFLD (12 R256, R257). -/
theorem rinit_illfld (h : s.Executes (.rinit a b c) [b, c] []) (hc : s.AtCommit)
    (hbad : ringSelector s.cur (s.cur.rs b) = none ∨ ringConfigOk (s.cur.rs c) = false) :
    s.Raises (.rinit a b c) (seqTrap .illfld (encode (.rinit a b c))) := by
  have he := exec_rinit a b c s
  rw [execRinit] at he
  obtain ⟨k, hk, e⟩ := issue_vetting_atCommit h hc _ _
  replace e := he.trans e
  have hvet : ((true && (ringSelector (s.pass k).cur ((s.pass k).cur.rs b)).isNone) || (true && !ringConfigOk ((s.pass k).cur.rs c))) = true := by
    rcases hbad with hsel | hconfig
    · rw [show ringSelector (s.pass k).cur ((s.pass k).cur.rs b) = none from hsel]; rfl
    · rw [show ringConfigOk ((s.pass k).cur.rs c) = false from hconfig]; exact Bool.or_true _
  simp only [hvet, if_true] at e
  exact ⟨k, hk, e⟩

end

/-! ### Tickets (12 R259) -/

theorem isClaimed_iff (r : Ring) (t : BitVec 32) : r.isClaimed t = true ↔ 1 ≤ (r.claimed - t).toNat ∧ (r.claimed - t).toNat ≤ 2 ^ 31 := by
  simp only [Ring.isClaimed, Bool.not_eq_true', Bool.or_eq_false_iff, beq_eq_false_iff_ne, ne_eq, BitVec.toNat_eq, show (0 : BitVec 32).toNat = 0 from rfl,
    decide_eq_false_iff_not, not_lt, Nat.one_le_iff_ne_zero]

theorem advanceTail_stays {r : Ring} (h : r.committed.contains r.tail = false) (n : Nat) : r.advanceTail n = r := by
  cases n with
  | zero => rfl
  | succ n => rw [Ring.advanceTail, if_neg (Bool.eq_false_iff.mp h)]

/-- A ticket committed at the tail moves it by one where the next is not committed. -/
theorem advanceTail_committed {r : Ring} (hnext : r.committed.contains (r.tail + 1) = false) (n : Nat) :
    ({ r with committed := r.committed ++ [r.tail] } : Ring).advanceTail (n + 1) =
      { r with tail := r.tail + 1, committed := r.committed.filter (· != r.tail) } := by
  have hfilter : (r.committed ++ [r.tail]).filter (· != r.tail) = r.committed.filter (· != r.tail) := by simp
  rw [Ring.advanceTail, if_pos (by simp)]
  dsimp only
  rw [hfilter]
  refine advanceTail_stays (Bool.eq_false_iff.mpr fun hin => ?_) n
  have hmem := (List.mem_filter.mp (List.contains_iff_mem.mp hin)).1
  exact absurd (List.contains_iff_mem.mpr hmem) (Bool.eq_false_iff.mp hnext)

/-- A ticket committed behind the tail leaves it where it is. -/
theorem advanceTail_behind {r : Ring} {t : BitVec 32} (ht : r.tail ≠ t) (h : r.committed.contains r.tail = false) (n : Nat) :
    ({ r with committed := r.committed ++ [t] } : Ring).advanceTail n = { r with committed := r.committed ++ [t] } := by
  refine advanceTail_stays (Bool.eq_false_iff.mpr fun hin => ?_) n
  rcases List.mem_append.mp (List.contains_iff_mem.mp hin) with hold | hnew
  · exact Bool.eq_false_iff.mp h (List.contains_iff_mem.mpr hold)
  · exact ht (List.mem_singleton.mp hnew)

/-- What RCOMMIT refuses: a ticket that is not claimed, is past or committed already, or does not fit (12 R259). -/
def Ring.refusesCommit (r : Ring) (t : BitVec 32) : Bool :=
  !r.isClaimed t || (decide ((t - r.head).toNat < (r.tail - r.head).toNat) || r.committed.contains t) || decide (r.slots ≤ (t - r.head).toNat)

theorem refusesCommit_iff (r : Ring) (t : BitVec 32) : r.refusesCommit t = true ↔ ¬ (1 ≤ (r.claimed - t).toNat ∧ (r.claimed - t).toNat ≤ 2 ^ 31) ∨
    r.committed.contains t = true ∨ (t - r.head).toNat < (r.tail - r.head).toNat ∨ r.slots ≤ (t - r.head).toNat := by
  rw [← isClaimed_iff, Ring.refusesCommit]
  simp only [Bool.or_eq_true, Bool.not_eq_true', Bool.not_eq_true, decide_eq_true_eq]
  tauto

/-- RCOMMIT on a bound ring traps on a ticket that it refuses, and else notes it and moves the tail over what is committed there. -/
theorem rcommit_comes {s : State} {b c : Reg} {sec ring : Nat} {mask : BitVec 16} {r : Ring} (h : s.Executes (.rcommit mask b c) [b, c] [])
    (hc : s.AtCommit) (hm : s.MayRing (s.cur.rs b) sec ring mask true true)
    (hr : (s.dev (gidDev s.cur.gid)).rings.lookup (ringIndex sec ring) = some r) :
    let t : BitVec 32 := (s.cur.rs c).setWidth 32
    ∃ s1 lat releases, s.ServesRing s1 ∧ s.Comes (.rcommit mask b c) 0 s1 (if r.refusesCommit t = true then .trap s1 (seqTrap .ringerr (s.cur.rs b))
      else .done (s1.setRing (gidDev s.cur.gid) (ringIndex sec ring)
        { ({ r with committed := r.committed ++ [t] } : Ring).advanceTail (r.committed.length + 1) with releases := releases }) 0 lat) := by
  intro t
  obtain ⟨s1, lat, hs, -, hcomes⟩ := ringOp_bound (exec_rcommit mask b c s) h hc hm hr
  dsimp only at hcomes
  rw [hs.rs, hs.rs] at hcomes
  let r' : Ring := ({ r with committed := r.committed ++ [t] } : Ring).advanceTail (r.committed.length + 1)
  by_cases hstays : r'.tail = r.tail
  · exact ⟨s1, lat, r'.releases, hs, by rw [if_pos hstays] at hcomes; exact hcomes⟩
  · exact ⟨s1, lat, _, hs, by rw [if_neg hstays] at hcomes; exact hcomes⟩

end Sys2Proof.Machine

namespace Sys2Proof.Proofs
open Sys2Proof Sys2Proof.Machine

/-- Settles O28: the request is served with the ring that is bound, and each instruction leaves the ring that its case names. -/
theorem rings : Obligations.Rings := by
  intro a b c k mask s sec ring r index ticket config ends bound claimed fits fresh
  have htaken (hcl : claimed) (hfit : fits) (hfr : fresh) : ¬ r.refusesCommit ticket = true := by
    intro hrefused
    rcases (refusesCommit_iff r ticket).mp hrefused with hun | hin | hpast | hfar
    · exact hun hcl
    · exact Bool.eq_false_iff.mp hfr.2 hin
    · exact Nat.not_lt.mpr hfr.1 hpast
    · exact Nat.not_le.mpr hfit hfar
  refine ⟨fun hok hbanks h hc hm => ?rinit, fun hbound => ⟨fun h hc hm => ?rclaim, fun hcl hfit h hc hm => ?rwaite,
    fun hcl hfit hfr htail hnext h hc hm => ?rcommitAt, fun hcl hfit hfr htail hnot h hc hm => ?rcommitBehind, fun hsome h hc hm => ?rwaitf,
    fun hhead hsome h hc hm => ?rtake, fun h hc hm => ?rstat⟩⟩
  case rinit =>
    obtain ⟨s1, lat, hs, hcomes⟩ := rinit_comes h hc hm hok
    rw [if_pos hbanks] at hcomes
    exact hcomes.leavesRing hs (leavesRing_bind ..) ⟨rfl, rfl, rfl, rfl, rfl⟩
  case rclaim =>
    obtain ⟨s1, lat, hs, -, hcomes⟩ := ringOp_bound (exec_rclaim a b s) h hc hm hbound
    exact hcomes.leavesRing hs ((leavesRing_set ..).noteRing _) ⟨rfl, rfl, rfl, rfl, rfl⟩
  case rwaite =>
    obtain ⟨s1, lat, hs, hself, hcomes⟩ := ringOp_bound (exec_rwaite a b c s) h hc hm hbound
    dsimp only at hcomes
    rw [hs.rs, (isClaimed_iff r ticket).mpr hcl, if_neg (by decide), if_pos hfit] at hcomes
    exact hcomes.leavesRing hs (hself.noteRing _) ⟨rfl, rfl, rfl, rfl, rfl⟩
  case rcommitAt =>
    obtain ⟨s1, lat, releases, hs, hcomes⟩ := rcommit_comes h hc hm hbound
    have hmoved : ({ r with committed := r.committed ++ [ticket] } : Ring).advanceTail (r.committed.length + 1) =
        { r with tail := r.tail + 1, committed := r.committed.filter (· != ticket) } := htail ▸ advanceTail_committed (htail ▸ hnext) _
    rw [if_neg (htaken hcl hfit hfr), hmoved] at hcomes
    exact ends_keeping (hcomes.leavesRing hs (leavesRing_set ..) ⟨rfl, rfl, rfl, rfl, rfl⟩)
  case rcommitBehind =>
    obtain ⟨s1, lat, releases, hs, hcomes⟩ := rcommit_comes h hc hm hbound
    rw [if_neg (htaken hcl hfit hfr), advanceTail_behind (t := ticket) htail hnot] at hcomes
    exact ends_keeping (hcomes.leavesRing hs (leavesRing_set ..) ⟨rfl, rfl, rfl, rfl, rfl⟩)
  case rwaitf =>
    obtain ⟨s1, lat, hs, hself, hcomes⟩ := ringOp_bound (exec_rwaitf mask a b s) h hc hm hbound
    dsimp only at hcomes
    rw [if_neg (by simpa using hsome)] at hcomes
    exact hcomes.leavesRing hs ((hself.knows _).noteRing _) ⟨rfl, rfl, rfl, rfl, rfl⟩
  case rtake =>
    obtain ⟨s1, lat, hs, -, hcomes⟩ := ringOp_bound (exec_rtake b c s) h hc hm hbound
    rw [hs.rs, if_neg (by simpa using ⟨hhead, hsome⟩)] at hcomes
    exact ends_keeping (hcomes.leavesRing hs (leavesRing_set ..) ⟨rfl, rfl, rfl, rfl, rfl⟩)
  case rstat =>
    obtain ⟨s1, lat, hs, hself, hcomes⟩ := ringOp_bound (exec_rstat a b k s) h hc hm hbound
    exact hcomes.leavesRing hs (hself.noteRing _) ⟨rfl, rfl, rfl, rfl, rfl⟩

/-- Settles O29: a selector or a configuration is vetted before the request is made, and what is wrong with the ring is found where it is served. -/
theorem ringTraps : Obligations.RingTraps := by
  intro a b c mask s sec ring r index ticket traps lookup unclaimed
  have hcommit (hsome : lookup = some r) (hrefused : r.refusesCommit ticket = true) : traps (.rcommit mask b c) c mask true true := by
    intro h hc hm
    obtain ⟨s1, lat, releases, hs, hcomes⟩ := rcommit_comes h hc hm hsome
    rw [if_pos hrefused] at hcomes
    exact hcomes.traps hs
  refine ⟨?selector, fun h hc _ hbad => rinit_illfld h hc (.inr hbad), fun hok hbanks h hc hm => ?banks, fun hnone => ?unbound,
    fun hsome => ⟨?unclaimed, fun hbad => hcommit hsome ((refusesCommit_iff r ticket).mpr (.inr hbad)), fun hbad h hc hm => ?take⟩⟩
  case selector =>
    rintro i third (⟨rfl, rfl⟩ | ⟨rfl, rfl⟩ | ⟨rfl, rfl⟩ | ⟨rfl, rfl⟩) h hc hsel
    · exact ringOp_selector (exec_rclaim a b s) h hc hsel
    · exact ringOp_selector (exec_rwaite a b _ s) h hc hsel
    · exact ringOp_selector (exec_rtake b _ s) h hc hsel
    · exact rinit_illfld h hc (.inl hsel)
  case banks =>
    obtain ⟨s1, lat, hs, hcomes⟩ := rinit_comes h hc hm hok
    rw [if_neg (Bool.eq_false_iff.mp hbanks)] at hcomes
    exact hcomes.traps hs
  case unbound =>
    exact ⟨fun h hc hm => ringOp_unbound (exec_rclaim a b s) h hc hm hnone, fun h hc hm => ringOp_unbound (exec_rwaite a b c s) h hc hm hnone,
      fun h hc hm => ringOp_unbound (exec_rcommit mask b c s) h hc hm hnone, fun h hc hm => ringOp_unbound (exec_rwaitf mask a b s) h hc hm hnone,
      fun h hc hm => ringOp_unbound (exec_rtake b c s) h hc hm hnone⟩
  case unclaimed =>
    refine fun hun => ⟨fun h hc hm => ?_, hcommit hsome ((refusesCommit_iff r ticket).mpr (.inl hun))⟩
    obtain ⟨s1, lat, hs, -, hcomes⟩ := ringOp_bound (exec_rwaite a b c s) h hc hm hsome
    dsimp only at hcomes
    rw [hs.rs, Bool.eq_false_iff.mpr ((isClaimed_iff r ticket).not.mpr hun), if_pos (by decide), hs.rs] at hcomes
    exact hcomes.traps hs
  case take =>
    obtain ⟨s1, lat, hs, -, hcomes⟩ := ringOp_bound (exec_rtake b c s) h hc hm hsome
    rw [hs.rs, if_pos (by simpa using hbad), hs.rs] at hcomes
    exact hcomes.traps hs

end Sys2Proof.Proofs
end

section
/-! PROOFS. The ordering machine (16): class queues, homes and horizons, with the patrol scrubber (03), the fabric (14) and the host link (23), O53. -/

namespace Sys2Proof.Machine
open Sys2Proof

/-! ### Events of units and of devices (95) -/

theorem switchTo_cur (s : State) (g : Gid) : (s.switchTo g).cur = s.unitAt g := by
  rw [State.switchTo]
  split
  next h => rw [← h, unitAt_cur]
  next h =>
    have hother : ¬ (s.unitAt g).gid = s.cur.gid := fun e => h (e.symm.trans (unitAt_gid s g))
    rw [State.setUnit, if_neg hother]

/-- A turn that is given to a unit changes only which unit is the current one. -/
theorem switchTo_frame (s : State) (g : Gid) : ∃ others, s.switchTo g = { s with cur := s.unitAt g, others := others } := by
  rw [← switchTo_cur, State.switchTo]
  split
  · exact ⟨s.others, rfl⟩
  · rw [State.setUnit]
    split <;> exact ⟨_, rfl⟩

theorem unitEvent_ends {s w : State} {g : Gid} {f : State → State} (h : s.hasUnit g = true) (hf : f (s.switchTo g) = w) (hg : w.cur.gid = g) :
    unitEvent g f s = .next (w.switchTo s.cur.gid) := by
  rw [unitEvent, if_pos h, State.onUnit]
  split
  next hcur =>
    have hself : s.switchTo g = s := if_pos hcur
    rw [← hself, hf, State.switchTo, if_pos (by rw [hself, hcur, hg])]
  next => rw [hf]

theorem deviceEvent_listed {s : State} {n : Dev} (h : s.devs.any (fun d => d.num == n) = true) (f : State → State) : deviceEvent n f s = .next (f s) :=
  if_pos h

/-! ### Leaving a class queue (16 R289, R296) -/

/-- Only a prompt machine lets an access arrive as it leaves. -/
theorem atOnce_false {s : State} (h : s.prompt = false) (x : Access) : s.atOnce x = false := by
  rw [State.atOnce, State.reachesNow, h, Bool.false_and]

/-- A plain write that carries nothing may leave when it is the first of its class. -/
theorem mayLeave_first {s : State} {before : List Access} {x : Access} (hp : s.prompt = false) (hw : x.want = .write) (hc : x.command = none)
    (hr : x.carrier = none) (hfirst : before.all (fun y => y.cls != x.cls) = true) (u : Unit) : s.mayLeave u before x = true := by
  have hfree : ∀ y ∈ before, y.cls ≠ x.cls := by simpa using hfirst
  have hadd : u.mayAdd x = false := by simp [Unit.mayAdd, hc]
  have hbare : x.carries u = [] := by simp [Access.carries, hw, hr]
  simp only [State.mayLeave, hw, atOnce_false hp, hadd, hbare]
  simpa using fun y hy => Or.inl (hfree y hy)

/-- An access of no command stays behind an earlier one of its class. -/
theorem mayLeave_behind {before : List Access} {x : Access} (hc : x.command = none) (hearlier : before.any (fun y => y.cls == x.cls) = true)
    (s : State) (u : Unit) : s.mayLeave u before x = false := by
  obtain ⟨y, hy, hcls⟩ := List.any_eq_true.mp hearlier
  have hstays : before.all (fun y => y.cls != x.cls || (x.command.isSome && y.command == x.command &&
      (y.want == .held || y.addr / 256 != x.addr / 256 || !u.keepsOrder x))) = false :=
    List.all_eq_false.mpr ⟨y, hy, by simp [hc, beq_iff_eq.mp hcls]⟩
  rw [State.mayLeave]
  dsimp only
  rw [hstays, Bool.and_false, Bool.false_and, Bool.false_and, Bool.false_and]

/-- A plain write to its own device enters the admission queue of its home. -/
theorem leave_write {s : State} {x : Access} (hp : s.prompt = false) (hw : x.want = .write) (hr : x.carrier = none)
    (hd : gidDev s.cur.gid = addrDev x.addr) : s.leave x = { s with admQ := s.admQ ++ [x] } := by
  have hload : s.loadRequest x = s := by rw [State.loadRequest, hw]
  have hloaded : s.loaded x = x := by rw [State.loaded, hr]
  have hflow : s.flowFails (addrDev x.addr) (addrDev x.addr) = none := by rw [State.flowFails, if_pos (beq_self_eq_true _)]
  simp [State.leave, hload, hw, hd, hflow, hloaded, atOnce_false hp]

theorem classQueueLeave_leaves {s : State} {g : Gid} {k : Nat} {x : Access} (h : s.hasUnit g = true) (hp : s.prompt = false)
    (hk : (s.switchTo g).cur.classQ[k]? = some x) (hw : x.want = .write) (hr : x.carrier = none) (hc : x.command = none)
    (hfirst : ((s.switchTo g).cur.classQ.take k).all (fun y => y.cls != x.cls) = true) (hd : gidDev g = addrDev x.addr) :
    let v := s.switchTo g
    exec (.classQueueLeave g k) s = .next
      (({ v with cur := { v.cur with classQ := v.cur.classQ.eraseIdx k }, admQ := v.admQ ++ [x] } : State).switchTo s.cur.gid) := by
  intro v
  have hgid : v.cur.gid = g := by rw [switchTo_cur, unitAt_gid]
  have hvp : v.prompt = false := by
    obtain ⟨others, e⟩ := switchTo_frame s g
    rw [show v = s.switchTo g from rfl, e]; exact hp
  refine unitEvent_ends h ?_ hgid
  dsimp only
  rw [hk]
  dsimp only
  rw [if_pos (mayLeave_first hvp hw hc hr hfirst _)]
  exact leave_write (s := { v with cur := { v.cur with classQ := v.cur.classQ.eraseIdx k } }) hvp hw hr (hgid ▸ hd)

theorem classQueueLeave_stays {s : State} {g : Gid} {k : Nat} {x : Access} (h : s.hasUnit g = true) (hk : (s.switchTo g).cur.classQ[k]? = some x)
    (hearlier : ((s.switchTo g).cur.classQ.take k).any (fun y => y.cls == x.cls) = true) (hc : x.command = none) :
    exec (.classQueueLeave g k) s = .next ((s.switchTo g).switchTo s.cur.gid) := by
  refine unitEvent_ends h ?_ (by rw [switchTo_cur, unitAt_gid])
  dsimp only
  rw [hk]
  dsimp only
  rw [if_neg (by rw [mayLeave_behind hc hearlier]; exact Bool.false_ne_true)]

/-! ### A write at its home (16 R291, R292) -/

/-- What a scope names to a unit contains the unit (16 R287). -/
theorem inScope_self (scope : Nat) (g : Gid) : inScope scope g g = true := by
  simp [inScope]

/-- A unit reads its own pending write. -/
theorem plainByte_own {s : State} {r : WriteRec} (h : s.pend = [r]) {j : Nat} (hj : j < r.data.length) :
    s.plainByte r.gid (r.addr + j) = r.data.getD j 0 := by
  have hbyte : r.byteAt (r.addr + j) = some r.data[j] := by
    rw [WriteRec.byteAt, if_pos (Nat.le_add_right ..), Nat.add_sub_cancel_left, List.getElem?_eq_getElem hj]
  have hseen : r.visible r.gid (r.addr + j) = true := by rw [WriteRec.visible, inScope_self, Bool.true_or]
  simp [State.plainByte, h, hseen, hbyte, hj]

/-- Where no sector has errors to decode, a write that covers sectors only clears their poison. -/
theorem clearPoison_clean {s : State} (h : s.latent = []) (a n : Nat) : ∃ poison, s.clearPoison a n = { s with poison := poison } := by
  refine ⟨s.poison.filter fun x => !(decide (a ≤ 128 * x) && decide (128 * x + 128 ≤ a + n)), ?_⟩
  simp [State.clearPoison, State.scrubRun, h]

/-- The record of a write that carries no release of its own, at its admission: its quire sees it (16 R292). -/
def Access.pending (x : Access) (id : Nat) (release : List Release) : WriteRec where
  id := id
  gid := x.gid
  cls := x.cls
  addr := x.addr
  data := x.data
  command := x.command
  horizon := 0
  seenBy := []
  release := x.release ++ release
  orphan := x.orphan

/-- A write that is alone on its way and carries nothing stays pending at its home (16 R292). -/
theorem admitPlain_pending {s : State} {x : Access} (hp : s.prompt = false) (hn : s.pend = []) (hl : s.latent = []) (hr : x.carrier = none)
    (release : List Release) : ∃ poison r, s.admitPlain x release = { s with poison := poison, pend := [r], nextWrite := s.nextWrite + 1 } ∧
      r.gid = x.gid ∧ r.addr = x.addr ∧ r.data = x.data := by
  obtain ⟨poison, e⟩ := clearPoison_clean hl x.addr x.data.length
  refine ⟨poison, x.pending s.nextWrite release, ?_, rfl, rfl, rfl⟩
  simp [State.admitPlain, e, hp, hn, hr, State.fold, foldPend, Access.pending]

/-- In a prompt machine a write is in memory at once. -/
theorem admitPlain_now {s : State} (hp : s.prompt = true) (hn : s.pend = []) (hl : s.latent = []) (x : Access) (release : List Release) :
    ∃ poison, s.admitPlain x release = { s with poison := poison, mem := s.mem.write x.addr x.data } := by
  obtain ⟨poison, e⟩ := clearPoison_clean hl x.addr x.data.length
  exact ⟨poison, by simp [State.admitPlain, e, hp, hn]⟩

/-- Whether a bank of the scratch window admits an access depends on the devices and the unit.  The definition is unfolded as a function: an address
less `sramBase` is no term to evaluate. -/
theorem scratchTrap_congr {s t : State} (hd : t.devs = s.devs) (hc : t.cur = s.cur) (k : AccessKind) (a : Nat) : t.scratchTrap k a = s.scratchTrap k a := by
  have hdev (n : Dev) : t.dev n = s.dev n := by rw [State.dev, State.dev, hd]
  have hbyte (sec off : Nat) : t.scratchByte t.cur 1 k 1 sec off = s.scratchByte s.cur 1 k 1 sec off := by
    rw [State.scratchByte, State.scratchByte, hdev, hc]
  obtain ⟨f, hf⟩ : ∃ f, f = State.scratchTrap := ⟨_, rfl⟩
  rw [← hf]
  delta State.scratchTrap at hf
  rw [hf]
  dsimp only
  rw [hbyte, hc]

theorem turnedAway_congr {s t : State} (hd : t.devs = s.devs) (hc : t.cur = s.cur) (x : Access) : t.turnedAway x = s.turnedAway x := by
  have hdev (n : Dev) : t.dev n = s.dev n := by rw [State.dev, State.dev, hd]
  delta State.turnedAway
  dsimp only
  rw [hdev, hc, scratchTrap_congr hd hc]

theorem turnedAway_switchTo_congr {s t : State} (hd : t.devs = s.devs) (hc : t.cur = s.cur) (ho : t.others = s.others) (g : Gid) (x : Access) :
    (t.switchTo g).turnedAway x = (s.switchTo g).turnedAway x := by
  obtain ⟨_, es⟩ := switchTo_frame s g
  obtain ⟨_, et⟩ := switchTo_frame t g
  refine turnedAway_congr ?_ ?_ x
  · rw [es, et]; exact hd
  · rw [switchTo_cur, switchTo_cur, State.unitAt, State.unitAt, hc, ho]

/-- A plain write that its bank does not turn away is admitted where it arrives. -/
theorem arrive_write {s : State} {x : Access} (hw : x.want = .write) (ho : x.ord = none) (hr : x.reduce = none)
    (ht : (s.switchTo x.gid).turnedAway x = none) : s.arrive x = s.admitPlain x x.release := by
  have hadmitted : (if x.addr < sramBase then none else (s.switchTo x.gid).turnedAway x) = none := by split <;> trivial
  simp only [State.arrive, State.arriveIn, hw, State.arriveWrite, hadmitted, State.admitAt, ho, State.admitUpdate, hr]

/-- A round of the first entry of the admission queue picks no later one. -/
theorem picked_tail (l : List Access) (k : Nat) :
    ((l.zipIdx (k + 1)).filterMap fun e => if [0].contains e.2 then some e.1 else none) = [] := by
  refine List.filterMap_eq_nil_iff.mpr fun e he => ?_
  have hpos : e.2 ≠ 0 := by have := List.le_snd_of_mem_zipIdx he; omega
  simp [hpos]

theorem unpicked_tail (l : List Access) (k : Nat) :
    ((l.zipIdx (k + 1)).filterMap fun e => if [0].contains e.2 then none else some e.1) = l := by
  induction l generalizing k with
  | nil => rfl
  | cons y l ih => rw [List.zipIdx_cons, List.filterMap_cons_some (b := y) (by simp), ih]

/-- The machine in which a round makes the one access that it has picked. -/
def State.picking (s : State) (x : Access) (rest : List Access) : State := ({ s with admQ := rest, free := s.free + 1 } : State).healWhole [x]

/-- A round that takes the first access of the admission queue, a plain write, makes it alone (16 R291). -/
theorem homeAdmissionRound_first {s : State} {home : Nat} {x : Access} {rest : List Access} (hok : s.roundOk home [0] = true) (hq : s.admQ = x :: rest)
    (hw : x.want = .write) :
    exec (.homeAdmissionRound home [0]) s = .next ((s.picking x rest).arrive x) := by
  have htaken : (s.admQ.zipIdx.filterMap fun e => if [0].contains e.2 then some e.1 else none) = [x] := by
    rw [hq, List.zipIdx_cons, List.filterMap_cons_some (b := x) (by simp), picked_tail]
  have hleft : (s.admQ.zipIdx.filterMap fun e => if [0].contains e.2 then none else some e.1) = rest := by
    rw [hq, List.zipIdx_cons, List.filterMap_cons_none (by simp), unpicked_tail]
  rw [exec_homeAdmissionRound, execHomeAdmissionRound, if_pos hok]
  dsimp only
  rw [htaken, hleft]
  simp [hw, insertByGid, State.picking]

/-- The write that a round makes alone is pending at its home, and its unit reads it. -/
theorem homeAdmissionRound_write {s : State} {home : Nat} {x : Access} {rest : List Access} (hok : s.roundOk home [0] = true) (hq : s.admQ = x :: rest)
    (hw : x.want = .write) (ho : x.ord = none) (hr : x.reduce = none) (hp : s.prompt = false) (hc : x.carrier = none) (hn : s.pend = [])
    (hl : s.latent = []) (ht : (s.switchTo x.gid).turnedAway x = none) :
    ∃ w, exec (.homeAdmissionRound home [0]) s = .next w ∧ w.admQ = rest ∧ w.mem = s.mem ∧
      ∀ j, j < x.data.length → w.plainByte x.gid (x.addr + j) = x.data.getD j 0 := by
  have hlatent : (s.picking x rest).latent = [] := by simp only [State.picking, State.healWhole, hl, List.filter_nil]
  have haccepts : ((s.picking x rest).switchTo x.gid).turnedAway x = none := by
    rw [turnedAway_switchTo_congr (s := s) (t := s.picking x rest) rfl rfl rfl, ht]
  obtain ⟨poison, r, hadmitted, hgid, haddr, hdata⟩ := admitPlain_pending (s := s.picking x rest) hp hn hlatent hc x.release
  refine ⟨_, homeAdmissionRound_first hok hq hw, ?_⟩
  rw [arrive_write hw ho hr haccepts, hadmitted]
  refine ⟨rfl, rfl, fun j hj => ?_⟩
  rw [← hgid, ← haddr, ← hdata]
  exact plainByte_own rfl (hdata ▸ hj)

/-! ### Horizons (16 R292) -/

/-- What HORIZON_WIDEN makes of a write. -/
def WriteRec.widened (write : Nat) (scope : BitVec 3) (r : WriteRec) : WriteRec :=
  if r.id == write && decide (r.horizon.toNat < scope.toNat) && decide (scope.toNat ≤ 4) then { r with horizon := scope } else r

theorem exec_horizonWiden_eq (write : Nat) (scope : BitVec 3) (s : State) :
    exec (.horizonWiden write scope) s = .next (State.fold { s with pend := s.pend.map (WriteRec.widened write scope) }) := rfl

theorem WriteRec.widened_wider {r : WriteRec} {scope : BitVec 3} (hlt : r.horizon.toNat < scope.toNat) (hle : scope.toNat ≤ 3) :
    r.widened r.id scope = { r with horizon := scope } := by
  simp [WriteRec.widened, hlt, show scope.toNat ≤ 4 by omega]

/-- A horizon never shrinks. -/
theorem WriteRec.le_widened (r : WriteRec) (write : Nat) (scope : BitVec 3) :
    (r.widened write scope).id = r.id ∧ r.horizon.toNat ≤ (r.widened write scope).horizon.toNat := by
  rw [WriteRec.widened]
  split
  next h =>
    simp only [Bool.and_eq_true, decide_eq_true_eq] at h
    exact ⟨rfl, h.1.2.le⟩
  next => exact ⟨rfl, le_rfl⟩

/-- Only writes that every unit sees leave for memory. -/
theorem mem_foldPend {r : WriteRec} {l : List WriteRec} (hr : r ∈ l) (hnarrow : r.horizon ≠ 4) (m : Memory) : r ∈ (foldPend l m).1 := by
  induction l generalizing m with
  | nil => cases hr
  | cons y l ih =>
    rw [foldPend]
    split
    next hwide =>
      refine ih ((List.mem_cons.mp hr).resolve_left fun e => hnarrow ?_) _
      rw [Bool.and_eq_true] at hwide
      exact e ▸ beq_iff_eq.mp hwide.1
    next => exact hr

theorem mem_of_foldPend {r : WriteRec} {l : List WriteRec} {m : Memory} (hr : r ∈ (foldPend l m).1) : r ∈ l := by
  induction l generalizing m with
  | nil => exact hr
  | cons y l ih =>
    rw [foldPend] at hr
    split at hr
    · exact List.mem_cons_of_mem _ (ih hr)
    · exact hr

/-! ### The patrol scrubber (03 R58) -/

/-- A single erroneous symbol of a sector is corrected and counted. -/
theorem scrub_one {s : State} {k : Nat} {e : Nat × Nat} (h : (s.latent.filter fun e => e.1 == k) = [e]) :
    s.scrub k = ({ s with latent := s.latent.filter fun e => e.1 != k } : State).onDev (addrDev (128 * k)) fun d =>
      d.setReg (0x60000 + 8 * (128 * k / 2 ^ 36 % 8)) (d.reg (0x60000 + 8 * (128 * k / 2 ^ 36 % 8)) + 1) := by
  have herr : (s.latent.any fun e => e.1 == k) = true := by
    have he : e ∈ s.latent.filter fun e => e.1 == k := h ▸ List.mem_singleton.mpr rfl
    exact List.any_eq_true.mpr ⟨e, List.mem_filter.mp he⟩
  have hcorrected : decodeSector k (s.badSymbols k) = .corrected := by
    have hone : s.badSymbols k = [e.2] := by rw [State.badSymbols, h]; rfl
    simp [hone, decodeSector]
  rw [State.scrub, if_neg (by simp [herr])]
  dsimp only
  rw [hcorrected]

theorem exec_patrolScrub_clean {s : State} {sector : Nat} (h : (s.latent.filter fun e => e.1 == sector) = []) : exec (.patrolScrub sector) s = .next s := by
  have herr : (s.latent.any fun e => e.1 == sector) = false := by
    rw [List.any_eq_false]
    exact fun e he herr => List.filter_eq_nil_iff.mp h e he herr
  rw [exec_patrolScrub, execPatrolScrub, scrub_clean herr, ite_self]

theorem exec_patrolScrub_scrubs {s : State} {sector : Nat} (hmem : 128 * sector < sramBase)
    (hdev : s.devs.any (fun d => d.num == addrDev (128 * sector)) = true) : exec (.patrolScrub sector) s = .next (s.scrub sector) := by
  rw [exec_patrolScrub, execPatrolScrub, if_neg (by rw [hdev]; exact fun h => h.elim hmem.not_ge Bool.noConfusion)]

theorem setReg_reg (d : Device) (off : Nat) (x : Word) : (d.setReg off x).reg off = x := by
  rw [Device.reg, Device.setReg, tableGet_put, if_pos rfl]

/-! ### Flows (14 R265-R270) -/

/-- A device that is changed, its number kept. -/
theorem dev_onDev_self (s : State) (n : Dev) (f : Device → Device) (hf : (f (s.dev n)).num = n) : (s.onDev n f).dev n = f (s.dev n) := by
  rw [dev_onDev s n f hf, if_pos rfl]

/-- Where no flow stops, nothing else does. -/
theorem linksDown_eq {s t : State} (h : newlyStopped s t = []) : State.linksDown s t = t := by
  rw [State.linksDown, h]; rfl

theorem deliverAll_one {s : State} {p : Packet} (h : s.deliverable p = true) (batch : Bool) :
    deliverAll batch [p] s = ({ s with flows := s.flows.erase p } : State).arrivePacket p := by
  rw [deliverAll, if_pos h, deliverAll]

/-- The first packet of its flow can be delivered where both devices run in one mode and its place is free. -/
theorem deliverable_first {s : State} {p : Packet} {src dst : Dev} (hfirst : (s.flows.find? fun q => q.src == src && q.dst == dst) = some p)
    (hmode : (s.dev src).routeMode = (s.dev dst).routeMode) (hroom : s.admits p.access = true) :
    s.deliverable p = true := by
  have hends := List.find?_some hfirst
  rw [Bool.and_eq_true, beq_iff_eq, beq_iff_eq] at hends
  obtain ⟨rfl, rfl⟩ := hends
  rw [State.deliverable, hfirst, hmode, hroom, beq_self_eq_true, beq_self_eq_true, Bool.and_self, Bool.and_self]

/-- In the order of sources a single packet stands once (14 R268). -/
theorem bySource_one (s : State) (p : Packet) : s.bySource [p] = [p] := by
  have hupto (m : Nat) : ((List.range m).flatMap fun k => [p].filter fun p => (s.dev p.src).seen.toNat == k) =
      if (s.dev p.src).seen.toNat < m then [p] else [] := by
    induction m with
    | zero => rfl
    | succ m ih =>
      rw [List.range_succ, List.flatMap_append, ih]
      rcases Nat.lt_trichotomy (s.dev p.src).seen.toNat m with hlt | heq | hgt
      · simp [hlt, hlt.ne, Nat.lt_succ_of_lt hlt]
      · simp [heq]
      · simp [hgt.ne', show ¬ (s.dev p.src).seen.toNat < m by omega, show ¬ (s.dev p.src).seen.toNat < m + 1 by omega]
  rw [State.bySource, hupto, if_pos (s.dev p.src).seen.isLt]

theorem batched_one {s : State} {p : Packet} (hf : s.flows = [p]) (hm : (s.dev p.src).routeMode = false) : s.batched p.dst = [p] := by
  simp [State.batched, hf, hm]

/-- The only packet on its way to a device is its next batch (14 R267, R268). -/
theorem nextBatch_one {s : State} {p : Packet} (hf : s.flows = [p]) (hm : (s.dev p.src).routeMode = false) :
    s.nextBatch p.dst = some (p.tick, p.tick + 1 + p.hops) := by
  simp [State.nextBatch, batched_one hf hm]

theorem nextBatch_none {s : State} {dst : Dev} (h : (s.flows.filter fun p => p.dst == dst) = []) : s.nextBatch dst = none := by
  have hnone : s.batched dst = [] := by
    rw [State.batched, ← List.filter_filter, List.filter_comm, h, List.filter_nil]
  rw [State.nextBatch, hnone]

theorem admitBatch_one {s : State} {p : Packet} (hf : s.flows = [p]) (hsrc : (s.dev p.src).routeMode = false) (hdst : (s.dev p.dst).routeMode = false)
    (hroom : s.admits p.access = true) : s.admitBatch p.dst p.tick = ({ s with flows := [] } : State).arrivePacket p := by
  have hfirst : (s.flows.find? fun q => q.src == p.src && q.dst == p.dst) = some p := by simp [hf]
  have hmine : ((s.batched p.dst).filter fun q => q.tick == p.tick) = [p] := by simp [batched_one hf hsrc]
  rw [State.admitBatch, hmine, bySource_one, deliverAll_one (deliverable_first hfirst (hsrc.trans hdst.symm) hroom), hf, List.erase_cons_head]

/-- A single batch is admitted once every device that keeps time has passed the boundary by which it has come (14 R267, R268). -/
theorem exec_tickBatchAdmit_one {s : State} {p : Packet} (hd : s.devs.any (fun d => d.num == p.dst) = true) (hf : s.flows = [p])
    (hsrc : (s.dev p.src).routeMode = false) (hdst : (s.dev p.dst).routeMode = false) (hroom : s.admits p.access = true)
    (hcome : ∀ x ∈ s.devs, x.routeMode = false → x.halted = false → p.tick + 1 + p.hops ≤ s.tickOf x) :
    exec (.tickBatchAdmit p.dst) s = .next (({ s with flows := [] } : State).arrivePacket p) := by
  have hpassed : (s.devs.any fun d => !d.routeMode && !d.halted && decide (s.tickOf d < p.tick + 1 + p.hops)) = false := by
    rw [List.any_eq_false]
    intro x hx hearly
    simp only [Bool.and_eq_true, Bool.not_eq_true', decide_eq_true_eq] at hearly
    obtain ⟨⟨hroute, hruns⟩, hearly⟩ := hearly
    exact hearly.not_ge (hcome x hx hroute hruns)
  rw [exec_tickBatchAdmit, execTickBatchAdmit, deviceEvent_listed hd, nextBatch_one hf hsrc]
  dsimp only
  rw [hpassed, if_neg Bool.false_ne_true, admitBatch_one hf hsrc hdst hroom]

theorem exec_krytlinkPacketDeliver_first {s : State} {src dst : Dev} {p : Packet} (hd : s.devs.any (fun d => d.num == src) = true)
    (hsrc : (s.dev src).routeMode = true) (hdst : (s.dev dst).routeMode = true) (hroom : s.admits p.access = true)
    (hfirst : (s.flows.find? fun p => p.src == src && p.dst == dst) = some p) :
    exec (.krytlinkPacketDeliver src dst) s = .next (({ s with flows := s.flows.erase p } : State).arrivePacket p) := by
  rw [exec_krytlinkPacketDeliver, execKrytlinkPacketDeliver, deviceEvent_listed hd, hfirst]
  dsimp only
  rw [if_pos hsrc, deliverAll_one (deliverable_first hfirst (hsrc.trans hdst.symm) hroom)]

theorem exec_clockOffsetExceeded_tick {s : State} {dev : Dev} (hd : s.devs.any (fun d => d.num == dev) = true) (hm : (s.dev dev).routeMode = false) :
    exec (.clockOffsetExceeded dev) s = .next (State.linksDown s (s.onDev dev fun d => { d with halted := true })) := by
  rw [exec_clockOffsetExceeded, execClockOffsetExceeded, deviceEvent_listed hd, hm, if_neg Bool.false_ne_true]

/-! ### The host's accesses (23 R411) -/

/-- The write of the host to a run of bytes of a device's direct window. -/
def hostStore (dev : Dev) (e : Nat × List Byte) : Access :=
  { scalarAccess (hostGid dev) .write 0 (dev.toNat * 2 ^ 42 + e.1) e.2 none with carrier := some (3, 0) }

/-- A run of a byte range that stays within aligned 256 bytes. -/
def IsLineRun (addr : Nat) (data : List Byte) (e : Nat × List Byte) : Prop :=
  e.2 ≠ [] ∧ addr ≤ e.1 ∧ e.1 + e.2.length ≤ addr + data.length ∧ e.1 / 256 = (e.1 + e.2.length - 1) / 256 ∧
    e.2 = (data.drop (e.1 - addr)).take e.2.length

/-- What lies of a range between one of its bytes and a later place in that byte's line. -/
theorem isLineRun_upTo {addr lo stop : Nat} {data : List Byte} (hlo : addr ≤ lo) (hin : lo < addr + data.length) (hstop : lo < stop)
    (hline : stop ≤ 256 * (lo / 256) + 256) : IsLineRun addr data (lo, (data.drop (lo - addr)).take (stop - lo)) := by
  have hlen : ((data.drop (lo - addr)).take (stop - lo)).length = min (stop - lo) (data.length - (lo - addr)) := by rw [List.length_take, List.length_drop]
  refine ⟨List.length_pos_iff.mp ?_, hlo, ?_, ?_, by rw [hlen, ← List.length_drop, ← List.take_take, List.take_length]⟩
  all_goals dsimp only; rw [hlen]; omega

/-- The runs of a range are its pieces in each aligned 256 bytes, -/
theorem isLineRun_of_mem {addr : Nat} {data : List Byte} {e : Nat × List Byte} (h : e ∈ lineRuns addr data) : IsLineRun addr data e := by
  rw [lineRuns] at h
  split at h
  · cases h
  next hne =>
    have hpos : 0 < data.length := List.length_pos_iff.mpr (by simpa using hne)
    obtain ⟨k, hk, rfl⟩ := List.mem_map.mp h
    have hlast := List.mem_range.mp hk
    exact isLineRun_upTo (le_max_left ..) (by omega) (by omega) (by omega)

/-- and every byte of the range lies in one. -/
theorem lineRuns_cover {addr k : Nat} {data : List Byte} (hlo : addr ≤ k) (hhi : k < addr + data.length) :
    ∃ e ∈ lineRuns addr data, e.1 ≤ k ∧ k < e.1 + e.2.length := by
  have hne : ¬ data.isEmpty = true := by
    rw [List.isEmpty_iff]; rintro rfl; simp at hhi; omega
  rw [lineRuns, if_neg hne]
  refine ⟨_, List.mem_map.mpr ⟨k / 256 - addr / 256, List.mem_range.mpr (by omega), rfl⟩, ?_⟩
  have hline : addr / 256 + (k / 256 - addr / 256) = k / 256 := by omega
  simp only [hline, List.length_take, List.length_drop]
  omega


/-- The writes that HOST_BAR2_WRITE makes of a range. -/
def hostStores (dev : Dev) (addr : Nat) (data : List Byte) : List Access := (lineRuns addr data).map (hostStore dev)

theorem hostStores_mem {dev : Dev} {addr : Nat} {data : List Byte} {x : Access} (h : x ∈ hostStores dev addr data) :
    let at_ := dev.toNat * 2 ^ 42 + addr
    x.gid = hostGid dev ∧ x.want = .write ∧ x.data ≠ [] ∧ at_ ≤ x.addr ∧ x.addr + x.data.length ≤ at_ + data.length ∧
      x.addr / 256 = (x.addr + x.data.length - 1) / 256 ∧ x.data = (data.drop (x.addr - at_)).take x.data.length := by
  obtain ⟨e, he, rfl⟩ := List.mem_map.mp h
  obtain ⟨hne, hlo, hhi, hline, hdata⟩ := isLineRun_of_mem he
  have hpos := List.length_pos_iff.mpr hne
  have hoff : dev.toNat * 2 ^ 42 + e.1 - (dev.toNat * 2 ^ 42 + addr) = e.1 - addr := by omega
  refine ⟨rfl, rfl, hne, ?_, ?_, ?_, ?_⟩
  · exact Nat.add_le_add_left hlo _
  · show dev.toNat * 2 ^ 42 + e.1 + e.2.length ≤ _
    omega
  · show (dev.toNat * 2 ^ 42 + e.1) / 256 = (dev.toNat * 2 ^ 42 + e.1 + e.2.length - 1) / 256
    omega
  · show e.2 = (data.drop (dev.toNat * 2 ^ 42 + e.1 - (dev.toNat * 2 ^ 42 + addr))).take e.2.length
    rw [hoff]; exact hdata

theorem hostStores_cover {dev : Dev} {addr k : Nat} {data : List Byte} (hlo : dev.toNat * 2 ^ 42 + addr ≤ k)
    (hhi : k < dev.toNat * 2 ^ 42 + addr + data.length) : ∃ x ∈ hostStores dev addr data, x.addr ≤ k ∧ k < x.addr + x.data.length := by
  obtain ⟨e, he, hlow, hhigh⟩ := lineRuns_cover (k := k - dev.toNat * 2 ^ 42) (addr := addr) (data := data) (by omega) (by omega)
  refine ⟨hostStore dev e, List.mem_map_of_mem he, ?_, ?_⟩
  · show dev.toNat * 2 ^ 42 + e.1 ≤ k
    omega
  · show k < dev.toNat * 2 ^ 42 + e.1 + e.2.length
    omega

/-- A byte of a host's write is that of the data. -/
theorem hostStores_byte {dev : Dev} {addr : Nat} {data : List Byte} {x : Access} (h : x ∈ hostStores dev addr data) {j : Nat} (hj : j < x.data.length) :
    x.data[j] = data.getD (x.addr + j - (dev.toNat * 2 ^ 42 + addr)) 0 := by
  obtain ⟨-, -, -, hlo, hhi, -, hdata⟩ := hostStores_mem h
  have hbyte : x.data[j]? = data[x.addr - (dev.toNat * 2 ^ 42 + addr) + j]? := by
    rw [hdata, List.getElem?_take_of_lt hj, List.getElem?_drop]
  rw [List.getD_eq_getElem?_getD, show x.addr + j - (dev.toNat * 2 ^ 42 + addr) = x.addr - (dev.toNat * 2 ^ 42 + addr) + j by omega, ← hbyte,
    List.getElem?_eq_getElem hj, Option.getD_some]

/-- A prompt machine makes a write of the host at once, another lets it queue up for its home (23 R411). -/
def State.hostWrites (s : State) (x : Access) : State := if s.prompt then s.admitPlain x [] else { s with admQ := s.admQ ++ [x] }

theorem exec_hostBar2Write_stores {s : State} {dev : Dev} {addr : Nat} {data : List Byte} (hd : s.devs.any (fun d => d.num == dev) = true)
    (hfit : addr + data.length ≤ 2 ^ 39) (hplain : (s.dev dev).rangeSecure addr data.length = false) :
    exec (.hostBar2Write dev addr data) s = .next ((hostStores dev addr data).foldl State.hostWrites s) := by
  rw [exec_hostBar2Write, execHostBar2Write, deviceEvent_listed hd, if_neg hfit.not_gt, if_neg (by rw [hplain]; exact Bool.false_ne_true),
    hostStores, List.foldl_map]
  rfl

/-- Writes of a machine that is not prompt queue up for their homes. -/
theorem foldl_admQ {s : State} (hp : s.prompt = false) (l : List Access) :
    l.foldl State.hostWrites s = { s with admQ := s.admQ ++ l } := by
  induction l generalizing s with
  | nil => simp
  | cons x l ih =>
    rw [List.foldl_cons, State.hostWrites, if_neg (by rw [hp]; exact Bool.false_ne_true),
      ih (s := { s with admQ := s.admQ ++ [x] }) hp, List.append_assoc, List.singleton_append]

/-- One write of a prompt machine: its bytes, and every other byte as it was. -/
theorem settled_admitPlain {s : State} (hp : s.prompt = true) (hn : s.pend = []) (hl : s.latent = []) (x : Access) (a : Nat) :
    (s.admitPlain x []).settled a = if h : x.addr ≤ a ∧ a < x.addr + x.data.length then x.data[a - x.addr] else s.settled a := by
  obtain ⟨poison, e⟩ := admitPlain_now hp hn hl x []
  rw [e]
  exact settled_write (s := s) (t := { s with poison := poison, mem := s.mem.write x.addr x.data }) rfl (fun _ => rfl) rfl
    (fun _ _ => by rw [State.erring, hl]; rfl) a

/-- Writes of a prompt machine whose bytes are those of one image leave the image where they reach, and every other byte as it was. -/
theorem settled_foldl_admitPlain {s : State} (hp : s.prompt = true) (hn : s.pend = []) (hl : s.latent = []) {image : Nat → Byte} {l : List Access}
    (himage : ∀ x ∈ l, ∀ j (hj : j < x.data.length), x.data[j] = image (x.addr + j)) (a : Nat) :
    let t := l.foldl State.hostWrites s
    t.pend = [] ∧ t.settled a = if ∃ x ∈ l, x.addr ≤ a ∧ a < x.addr + x.data.length then image a else s.settled a := by
  induction l generalizing s with
  | nil => simp [hn]
  | cons x l ih =>
    obtain ⟨poison, e⟩ := admitPlain_now hp hn hl x []
    have hstep := settled_admitPlain hp hn hl x a
    have himagel : ∀ y ∈ l, ∀ j (hj : j < y.data.length), y.data[j] = image (y.addr + j) := fun y hy => himage y (List.mem_cons_of_mem _ hy)
    obtain ⟨hpend, hrest⟩ := ih (s := s.admitPlain x []) (by rw [e]; exact hp) (by rw [e]; exact hn) (by rw [e]; exact hl) himagel
    rw [List.foldl_cons, State.hostWrites, if_pos hp]
    refine ⟨hpend, hrest.trans ?_⟩
    by_cases hlater : ∃ y ∈ l, y.addr ≤ a ∧ a < y.addr + y.data.length
    · rw [if_pos hlater, if_pos (by obtain ⟨y, hy, hin⟩ := hlater; exact ⟨y, List.mem_cons_of_mem _ hy, hin⟩)]
    · rw [if_neg hlater, hstep]
      by_cases hhere : x.addr ≤ a ∧ a < x.addr + x.data.length
      · have hbyte := himage x List.mem_cons_self (a - x.addr) (by omega)
        rw [dif_pos hhere, if_pos ⟨x, List.mem_cons_self, hhere⟩, hbyte, Nat.add_sub_cancel' hhere.1]
      · rw [dif_neg hhere, if_neg]
        rintro ⟨y, hy, hin⟩
        rcases List.mem_cons.mp hy with rfl | hy
        · exact hhere hin
        · exact hlater ⟨y, hy, hin⟩

/-- What the host reads where its own writes have been admitted and no sector has errors to decode. -/
theorem exec_hostBar2Read_posted {s : State} {dev : Dev} {addr len : Nat} (hd : s.devs.any (fun d => d.num == dev) = true)
    (hfit : addr + len ≤ 2 ^ 39) (hposted : s.posted dev = true) (hl : s.latent = []) :
    exec (.hostBar2Read dev addr len) s = .next (s.onDev dev fun d => { d with
      hostData := if (s.dev dev).rangeSecure addr len then List.replicate len 0xFF else s.plainBytes (hostGid dev) (dev.toNat * 2 ^ 42 + addr) len }) := by
  have hclean (a n : Nat) : s.scrubRun a n = s := scrubRun_clean fun _ _ => by rw [State.erring, hl]; rfl
  rw [exec_hostBar2Read, execHostBar2Read, deviceEvent_listed hd, if_neg (by rw [hposted]; exact fun h => h.elim hfit.not_gt Bool.noConfusion), hclean]
  simp only [ite_self]

end Sys2Proof.Machine

namespace Sys2Proof.Proofs
open Sys2Proof Sys2Proof.Machine

/-- Settles O53, from what `exec` answers of each event: its effect, or the same state where its condition does not hold. -/
theorem memoryEvents : Obligations.MemoryEvents := by
  intro s g k home sector addr len scope dev dst port picks data v happens listed d at_
  refine ⟨?leaves, ?behind, ?noRound, ?round, ?widens, ?narrows, ?clean, ?corrected, ?tick, ?noBatch, ?batch, ?delivers, ?nothingSent, ?routed, ?drifts, ?fails,
    ?hostNow, ?hostQueued, ?hostSecret, ?hostReads, ?hostWaits⟩
  case leaves =>
    intro x h hp hk hw hr hc hfirst hd
    exact ⟨_, classQueueLeave_leaves h hp hk hw hr hc hfirst hd, rfl, rfl, rfl⟩
  case behind =>
    intro x h hk hearlier hc
    exact classQueueLeave_stays h hk hearlier hc
  case noRound =>
    intro hbad
    refine ⟨s, (exec_homeAdmissionRound home picks s).trans ?_, rfl⟩
    rw [execHomeAdmissionRound, hbad, if_neg Bool.false_ne_true]
  case round =>
    rintro x rest ⟨hok, hq, hw, ho, hr, hp, hc, hn, hl, ht⟩
    exact homeAdmissionRound_write hok hq hw ho hr hp hc hn hl ht
  case widens =>
    rintro r ⟨hr, hlt, hle⟩
    refine ⟨_, exec_horizonWiden_eq .., mem_foldPend ?_ ?_ _⟩
    · exact List.mem_map.mpr ⟨r, hr, WriteRec.widened_wider hlt hle⟩
    · rintro rfl; exact absurd hle (by decide)
  case narrows =>
    intro _
    refine ⟨_, exec_horizonWiden_eq .., fun r hr => ?_⟩
    obtain ⟨r', hr', rfl⟩ := List.mem_map.mp (mem_of_foldPend hr)
    obtain ⟨hid, hle⟩ := r'.le_widened k scope
    exact ⟨r', hr', hid.symm, hle⟩
  case clean => exact fun hclean => ⟨s, exec_patrolScrub_clean hclean, rfl⟩
  case corrected =>
    rintro e ⟨hone, hmem, hdev⟩
    refine ⟨_, exec_patrolScrub_scrubs hmem hdev, ?_⟩
    rw [scrub_one hone]
    refine ⟨rfl, rfl, rfl, ?_⟩
    rw [dev_onDev_self _ _ _ (dev_num ..), setReg_reg]
    rfl
  case tick =>
    rintro ⟨hd, hm⟩
    refine ⟨_, (exec_tickBoundary dev s).trans (deviceEvent_listed hd _), ?_⟩
    dsimp only
    rw [if_neg (by rw [hm]; exact Bool.false_ne_true)]
    refine ⟨?_, rfl, rfl⟩
    rw [dev_setDev, if_pos (dev_num s dev).symm]
  case noBatch =>
    rintro ⟨hd, hnone⟩
    refine ⟨_, (exec_tickBatchAdmit dev s).trans (deviceEvent_listed hd _), ?_⟩
    dsimp only
    rw [nextBatch_none hnone]
  case batch =>
    rintro p ⟨hd, hdst, hf, rfl, hsrc, hroom, hcome⟩
    exact ⟨_, exec_tickBatchAdmit_one hd hf hsrc hdst hroom hcome, rfl⟩
  case delivers =>
    rintro p ⟨hd, hsrc, hdst, hroom, hfirst⟩
    exact ⟨_, exec_krytlinkPacketDeliver_first hd hsrc hdst hroom hfirst, rfl⟩
  case nothingSent =>
    rintro ⟨hd, hnone⟩
    refine ⟨_, (exec_krytlinkPacketDeliver dev dst s).trans (deviceEvent_listed hd _), ?_⟩
    dsimp only
    rw [hnone]
  case routed =>
    rintro ⟨hd, hm⟩
    exact ⟨_, (exec_clockOffsetExceeded dev s).trans (deviceEvent_listed hd _), if_pos hm⟩
  case drifts =>
    intro t
    refine ⟨fun ⟨hd, hm⟩ => ⟨_, exec_clockOffsetExceeded_tick hd hm, rfl⟩, fun ⟨hd, hm, hnone⟩ => ⟨_, exec_clockOffsetExceeded_tick hd hm, ?_⟩⟩
    rw [linksDown_eq hnone]
    exact ⟨congrArg Device.halted (dev_onDev_self s dev _ (dev_num s dev)), rfl, rfl⟩
  case fails =>
    intro off t
    have hstops (hd : listed) : exec (.portFailure dev port) s = .next (State.linksDown s t) :=
      (exec_portFailure dev port s).trans (deviceEvent_listed hd _)
    refine ⟨fun hd => ⟨_, hstops hd, rfl⟩, fun ⟨hd, hnone⟩ => ⟨_, hstops hd, ?_⟩⟩
    have hdev : t.dev dev = { d.setReg off 1 with failures := d.failures ++ [port.toNat] } := dev_onDev_self s dev _ (dev_num s dev)
    have hshown : (t.dev dev).reg off = 1 := by rw [hdev]; exact setReg_reg d off 1
    rw [linksDown_eq hnone]
    exact ⟨congrArg (BitVec.getLsbD · 0) hshown, rfl, rfl⟩
  case hostNow =>
    rintro ⟨hd, hfit, hplain, hn, hl, hp⟩
    refine ⟨_, exec_hostBar2Write_stores hd hfit hplain, fun a => ?_⟩
    obtain ⟨hpend, hbytes⟩ := settled_foldl_admitPlain hp hn hl (image := fun a => data.getD (a - at_) 0)
      (fun x hx j hj => hostStores_byte hx hj) a
    rw [plainByte_settled hpend, plainByte_settled hn, hbytes]
    refine if_congr ⟨?_, fun hin => hostStores_cover hin.1 hin.2⟩ rfl rfl
    rintro ⟨x, hx, hlo, hhi⟩
    obtain ⟨-, -, -, hfrom, hto, -, -⟩ := hostStores_mem hx
    exact ⟨hfrom.trans hlo, hhi.trans_le hto⟩
  case hostQueued =>
    rintro ⟨hd, hfit, hplain, hp⟩
    exact ⟨_, exec_hostBar2Write_stores hd hfit hplain, hostStores dev addr data, foldl_admQ hp _, fun x hx => hostStores_mem hx,
      fun k hlo hhi => hostStores_cover hlo hhi⟩
  case hostSecret =>
    rintro ⟨hd, hfit, hsecret⟩
    refine ⟨_, (exec_hostBar2Write dev addr data s).trans (deviceEvent_listed hd _), ?_⟩
    dsimp only
    rw [if_neg hfit.not_gt, if_pos hsecret]
    exact ⟨rfl, rfl, dev_onDev_self _ _ _ (dev_num ..)⟩
  case hostReads =>
    rintro ⟨hd, hfit, hposted, hl⟩
    refine ⟨_, exec_hostBar2Read_posted hd hfit hposted hl, rfl, ?_⟩
    rw [dev_onDev_self _ _ _ (dev_num ..)]
  case hostWaits =>
    rintro ⟨hd, hbehind⟩
    exact ⟨_, (exec_hostBar2Read dev addr len s).trans (deviceEvent_listed hd _), if_pos (.inr (by rw [hbehind]; rfl))⟩

end Sys2Proof.Proofs
end

section
/-! PROOFS. The binder's events (19, 95): the obligation O54. -/

namespace Sys2Proof.Proofs.NamedTwice
open Sys2Proof Sys2Proof.Machine

/-- The submission of `Tests.witness_DeviceEvents_accept`: a record of one replica, which the checks let pass. -/
def submitted : Submission := { record := 2 ^ 33 + 0x2000, secure := false, gid := none }

/-- The device with the submission, once it has booted. -/
def submittedTo : Device := { Tests.base.dev 0 with boot := .done, submissions := [submitted] }

/-- A shelf whose list names device 0 twice: the second entry counts its tasks from 100. -/
def shelf : State :=
  Tests.bytes 0x204C [1] { Tests.base with devs := [submittedTo, { submittedTo with nextId := 100 }] }

/-- The record passes the checks once the submission is taken. -/
theorem shelf_validates : ∃ t, (shelf.onDev 0 fun d => { d with submissions := [] }).validate 0 submitted.record submitted.secure = .ok t := by
  have hok : (match (shelf.onDev 0 fun d => { d with submissions := [] }).validate 0 submitted.record submitted.secure with
      | .error _ => false | .ok _ => true) = true := by decide +kernel
  revert hok
  cases (shelf.onDev 0 fun d => { d with submissions := [] }).validate 0 submitted.record submitted.secure with
  | error r => exact nofun
  | ok t => exact fun _ => ⟨t, rfl⟩

/-- The second entry sets the next id of the shelf, 100; the event sets the first in its place before it takes an id, and goes on from 1. -/
theorem shelf_next_id {w : State} (h : exec (.taskAccept 0) shelf = .next w) : (w.dev 0).nextId ≠ shelf.newTaskId + 1 := by
  have hne : (match exec (.taskAccept 0) shelf with
      | .next w => decide ((w.dev 0).nextId ≠ shelf.newTaskId + 1)
      | _ => false) = true := by decide +kernel
  rw [h] at hne
  exact of_decide_eq_true hne

end Sys2Proof.Proofs.NamedTwice

namespace Sys2Proof.Proofs
open Sys2Proof Sys2Proof.Machine NamedTwice

/-- Refutes O54: where the list of devices names one twice, which no hypothesis excludes, TASK_ACCEPT takes its id from the list with the second
entry gone, and so not the shelf's next. -/
theorem not_deviceEvents : ¬ Obligations.DeviceEvents := by
  intro h
  obtain ⟨-, -, haccept, -⟩ := h shelf 0 0 .host 0 0 true
  obtain ⟨t, ht⟩ := shelf_validates
  obtain ⟨w, hw, -, hid, -⟩ := haccept submitted [] t
    ⟨rfl, rfl, rfl, fun k hk => absurd hk List.not_mem_nil, ht⟩ (by decide +kernel) (by decide +kernel)
  exact shelf_next_id hw hid

end Sys2Proof.Proofs
end

section
/-! PROOFS. Plates and phases (19 R346, R348-R351): the obligation O49. -/

namespace Sys2Proof.Machine
open Sys2Proof

/-! ### What goes on with the next word -/

/-- The sequencer goes on with the next word, and every scalar register holds what it held. -/
def State.GoesOn (s t : State) : Prop := s.KeepsRegs t ∧ s.NextWord t ∧ s.Recorded t

/-- What a drain point, a plate load or an exchange of plates changes of the unit. -/
def Unit.PlateChange (u v : Unit) : Prop := v = { u with
  plate := v.plate, shadow := v.shadow, load := v.load, phase := v.phase, frameAt := v.frameAt, fresh := v.fresh, busy := v.busy }

/-- An instruction that changes a unit's plates and phases only goes on with the next word. -/
theorem finish_plates (s : State) (k : Nat) {u : Unit} (hu : (s.pass k).cur.PlateChange u) :
    ∃ t, finish (s.pass k) u = .next t.tick ∧ s.GoesOn t ∧ t = { s with clock := s.clock + k, cur := { u with
      pc := t.cur.pc, lcount := t.cur.lcount, lbody := t.cur.lbody, window := t.cur.window, committed := t.cur.committed } } := by
  rw [Unit.PlateChange] at hu
  obtain ⟨t, ht, hnext, hrec, e⟩ := finish_eq s k u (Nat.le_refl 1) (by rw [hu]; rfl) (by rw [hu]; rfl) (by rw [hu]; rfl) (by rw [hu]; rfl)
    (by rw [hu]; rfl) (by rw [hu]; rfl) (by rw [hu]; rfl)
  exact ⟨t, ht, ⟨fun r => rs_congr (by rw [e, hu]; rfl) r, hnext, hrec⟩, e⟩

/-- A drain point, a load in progress or an instruction that must wait lets cycles pass. -/
theorem waitsOn_of_stall {s : State} {i : Instr} (h : exec i s = stall s) : s.WaitsOn i := by
  obtain ⟨n, hn⟩ := stall_waits s
  exact ⟨n, h.trans hn⟩

/-- A trap at once. -/
theorem raises_now {s : State} {i : Instr} {t : Trap} (h : exec i s = trapNow s t) : s.Raises i t := ⟨0, fun _ => rfl, h⟩

/-! ### The plate loader (R346) -/

theorem mapM_ok {ε α β : Type} {f : α → Except ε β} {g : α → β} {l : List α} (h : ∀ x ∈ l, f x = .ok (g x)) : l.mapM f = .ok (l.map g) := by
  induction l with
  | nil => rfl
  | cons x xs ih =>
    rw [List.mapM_cons, h x List.mem_cons_self, ih fun y hy => h y (List.mem_cons_of_mem x hy)]
    rfl

/-- The elements of lists of one length, joined. -/
theorem getD_flatten {α : Type} {n j : Nat} (hj : j < n) (d : α) : ∀ {ls : List (List α)} (_ : ∀ l ∈ ls, l.length = n) (k : Nat),
    ls.flatten.getD (n * k + j) d = (ls.getD k []).getD j d
  | [], _, _ => by simp
  | l :: ls, h, 0 => by
    have hl : l.length = n := h l List.mem_cons_self
    rw [List.flatten_cons, Nat.mul_zero, Nat.zero_add, List.getD_append _ _ _ _ (hl ▸ hj)]
    rfl
  | l :: ls, h, k + 1 => by
    have hl : l.length = n := h l List.mem_cons_self
    have hk : n * (k + 1) + j - l.length = n * k + j := by rw [hl, Nat.mul_succ]; omega
    rw [List.flatten_cons, List.getD_append_right _ _ _ _ (by rw [hl, Nat.mul_succ]; omega), hk,
      getD_flatten hj d (fun x hx => h x (List.mem_cons_of_mem l hx)) k]
    rfl

/-- An element of some rows of one length, joined. -/
theorem getD_rows {α : Type} (f : Nat → Nat → α) (d : α) {m n i : Nat} (hk : i / n < m) (hj : i % n < n) :
    ((List.range m).map fun k => (List.range n).map (f k)).flatten.getD i d = f (i / n) (i % n) := by
  have hlength : ∀ l ∈ (List.range m).map fun k => (List.range n).map (f k), l.length = n := fun l hl => by
    obtain ⟨k, -, rfl⟩ := List.mem_map.mp hl
    rw [List.length_map, List.length_range]
  have hjoin := getD_flatten hj d hlength (i / n)
  rw [Nat.div_add_mod, getD_map_range _ _ hk, getD_map_range _ _ hj] at hjoin
  exact hjoin

/-- A sector of a plate image, as the loader reads it (R346). -/
def State.imagePiece (s : State) (va : Word) (k : Nat) : Except Trap (List Byte) :=
  match s.translate s.cur.gid 1 .read false (va + BitVec.ofNat 64 (128 * k)) with
  | .error t => .error t
  | .ok p => if s.poisoned p.addr then .error (seqTrap .uncorr (va + BitVec.ofNat 64 (128 * k))) else .ok (s.plainBytes s.cur.gid p.addr 128)

/-- An image that is read is a plate where it passes the checks (R346). -/
def checkedPlate (va : Word) (p : BitVec 16384) : Except Trap (BitVec 16384) :=
  match plateFault p with
  | some off => .error { seqTrap .protv (va + BitVec.ofNat 64 off) with xstat := some (xstatOf 1 .read 0 0) }
  | none => .ok p

theorem loadImage_eq (s : State) (va : Word) : s.loadImage va =
    ((List.range 16).mapM (s.imagePiece va)).bind fun bs => checkedPlate va (BitVec.ofNat 16384 (fromLe bs.flatten)) := by
  show (match (List.range 16).mapM (s.imagePiece va) with
    | .error t => Except.error t
    | .ok bs => checkedPlate va (BitVec.ofNat 16384 (fromLe bs.flatten))) = _
  cases (List.range 16).mapM (s.imagePiece va) <;> rfl

theorem checkedPlate_ok {p : BitVec 16384} (h : plateFault p = none) (va : Word) : checkedPlate va p = .ok p := by rw [checkedPlate, h]

/-- The machine with another plate load under way. -/
def State.withLoad (s : State) (l : PlateLoad) : State := { s with cur := { s.cur with load := l } }

/-- What a plate load reads does not depend on the cycle, nor on the load under way. -/
theorem loadImage_withLoad (s : State) (l : PlateLoad) (va : Word) : (s.withLoad l).loadImage va = s.loadImage va := by
  have hunit : (s.withLoad l).unitAt s.cur.gid = (s.withLoad l).cur := unitAt_cur _
  have hdev : ∀ n, (s.withLoad l).dev n = s.dev n := fun _ => rfl
  have hwalk : ∀ x va, (s.withLoad l).walk s.cur.gid x va = s.walk s.cur.gid x va := fun x va => by
    simp only [State.walk, show ∀ a, (s.withLoad l).tableEntry s.cur.gid a = s.tableEntry s.cur.gid a from fun _ => rfl, hdev]
  have hlookup : ∀ va, (s.withLoad l).lookup s.cur.gid va = s.lookup s.cur.gid va := fun va => by
    simp only [State.lookup, hunit, unitAt_cur, hwalk, hdev]
    rfl
  have hplace : ∀ va, (s.withLoad l).translate s.cur.gid 1 .read false va = s.translate s.cur.gid 1 .read false va := fun va => by
    simp only [State.translate, hlookup, hunit, unitAt_cur, hdev]
    rfl
  simp only [State.loadImage, show (s.withLoad l).cur.gid = s.cur.gid from rfl, hplace]
  rfl

theorem loadImage_pass (s : State) (k : Nat) (va : Word) : (s.pass k).loadImage va = s.loadImage va := by
  simp only [State.loadImage, show (s.pass k).cur.gid = s.cur.gid from rfl, translate_pass]
  rfl

/-- The number of some bytes, least significant first. -/
theorem ofNat_fromLe {w : Nat} {bs : List Byte} {p : BitVec w} (h : ∀ i, 8 * i < w → bs.getD i 0 = p.extractLsb' (8 * i) 8) :
    BitVec.ofNat w (fromLe bs) = p := by
  refine BitVec.eq_of_getLsbD_eq fun i hi => ?_
  have hbit : 8 * (i / 8) + i % 8 = i := Nat.div_add_mod i 8
  have hmod : i % 8 < 8 := Nat.mod_lt _ (by decide)
  rw [BitVec.getLsbD_ofNat, fromLe_testBit, h _ (by omega), BitVec.getLsbD_extractLsb', hbit]
  simp only [hi, hmod, decide_true, Bool.true_and]

/-- The bytes of an image, sector by sector. -/
theorem image_byte {s : State} {place : Nat → Place} {p : BitVec 16384}
    (hbytes : ∀ k, k < 16 → ∀ j, j < 128 → p.extractLsb' (8 * (128 * k + j)) 8 = s.plainByte s.cur.gid ((place k).addr + j)) {i : Nat} (hi : i < 2048) :
    ((List.range 16).map fun k => s.plainBytes s.cur.gid (place k).addr 128).flatten.getD i 0 = p.extractLsb' (8 * i) 8 := by
  have hk : i / 128 < 16 := by omega
  have hj : i % 128 < 128 := Nat.mod_lt _ (by decide)
  have hbyte := hbytes _ hk _ hj
  rw [Nat.div_add_mod] at hbyte
  exact (getD_rows (fun k j => s.plainByte s.cur.gid ((place k).addr + j)) 0 hk hj).trans hbyte.symm

/-- An image whose sectors translate and are sound, and that passes the checks, is what the loader makes of it. -/
theorem loadImage_ok {s : State} {x : Word} {place : Nat → Place} {p : BitVec 16384}
    (hplace : ∀ k, k < 16 → s.translate s.cur.gid 1 .read false (x + BitVec.ofNat 64 (128 * k)) = .ok (place k) ∧ s.poisoned (place k).addr = false)
    (hbytes : ∀ k, k < 16 → ∀ j, j < 128 → p.extractLsb' (8 * (128 * k + j)) 8 = s.plainByte s.cur.gid ((place k).addr + j))
    (hsound : plateFault p = none) : s.loadImage x = .ok p := by
  have himage := ofNat_fromLe (p := p) fun i hi => image_byte hbytes (i := i) (by omega)
  have hpieces : (List.range 16).mapM (s.imagePiece x) = .ok ((List.range 16).map fun k => s.plainBytes s.cur.gid (place k).addr 128) :=
    mapM_ok fun k hk => by
      obtain ⟨htrans, hclean⟩ := hplace k (List.mem_range.mp hk)
      rw [State.imagePiece, htrans]
      dsimp only
      rw [hclean, if_neg Bool.false_ne_true]
  rw [loadImage_eq, hpieces, Except.bind, himage, checkedPlate_ok hsound]

/-! ### SWAP.load (R348) -/

/-- The unit once SWAP.load has issued: the load is under way or, where nothing takes its time, over. -/
def State.loads (s : State) (x : Word) : Unit :=
  if s.prompt then
    match s.loadImage x with
    | .ok p => { s.cur with shadow := p, load := .complete }
    | .error t => { s.cur with load := .failed t }
  else { s.cur with load := .loading x }

theorem loads_change (s : State) (x : Word) : s.cur.PlateChange (s.loads x) := by
  rw [State.loads]
  split
  · split <;> rfl
  · rfl

/-- Without latent errors the reads of a load decode nothing: the load leaves the plate or the fault. -/
theorem finishLoad_eq {s : State} (hlatent : s.latent = []) (x : Word) : (s.withLoad (.loading x)).finishLoad = { s with
    cur := match s.loadImage x with
      | .ok p => { s.cur with shadow := p, load := .complete }
      | .error t => { s.cur with load := .failed t } } := by
  have hscrub : ∀ dev xbase, (s.withLoad (.loading x)).taskScrub dev xbase x 2048 = s.withLoad (.loading x) := fun _ _ => if_pos (by
    rw [show (s.withLoad (.loading x)).latent = [] from hlatent]; rfl)
  have hload : (s.withLoad (.loading x)).cur.load = .loading x := rfl
  rw [State.finishLoad, hload]
  dsimp only
  rw [hscrub, loadImage_withLoad]
  cases s.loadImage x <;> rfl

/-- Where an instruction has changed plates and phases, it does not matter for its commit when. -/
theorem finish_changed {s : State} {u : Unit} (hu : s.cur.PlateChange u) : finish { s with cur := u } u = finish s u := by
  rw [Unit.PlateChange] at hu
  rw [hu]
  rfl

theorem loads_late {s : State} (hp : s.prompt = false) (x : Word) : s.loads x = { s.cur with load := .loading x } :=
  if_neg (by rw [hp]; exact Bool.false_ne_true)
theorem loads_prompt {s : State} (hp : s.prompt = true) (x : Word) : s.loads x = match s.loadImage x with
    | .ok p => { s.cur with shadow := p, load := .complete }
    | .error t => { s.cur with load := .failed t } := if_pos hp
theorem loads_failed {s : State} {x : Word} {t : Trap} (hp : s.prompt = true) (hf : s.loadImage x = .error t) :
    s.loads x = { s.cur with load := .failed t } := by rw [loads_prompt hp, hf]
theorem loads_done {s : State} {x : Word} {p : BitVec 16384} (hp : s.prompt = true) (hl : s.loadImage x = .ok p) :
    s.loads x = { s.cur with shadow := p, load := .complete } := by rw [loads_prompt hp, hl]

/-- What SWAP.load does once its register is read: the load, and the next word. -/
theorem finish_loads {s : State} (hlatent : s.prompt = true → s.latent = []) (x : Word) :
    finish (if (s.withLoad (.loading x)).prompt then (s.withLoad (.loading x)).finishLoad else s.withLoad (.loading x))
      (if (s.withLoad (.loading x)).prompt then (s.withLoad (.loading x)).finishLoad else s.withLoad (.loading x)).cur = finish s (s.loads x) := by
  rw [← finish_changed (loads_change s x)]
  by_cases hp : s.prompt = true
  · rw [loads_prompt hp, if_pos (by exact hp), finishLoad_eq (hlatent hp)]
  · rw [loads_late (Bool.not_eq_true _ ▸ hp), if_neg (by exact hp)]
    rfl

theorem loads_pass (s : State) (k : Nat) (x : Word) : (s.pass k).loads x = { s.loads x with
    time := s.cur.time + k, justGiven := (s.pass k).cur.justGiven } := by
  rw [State.loads, State.loads, loadImage_pass, show (s.pass k).prompt = s.prompt from rfl]
  cases s.prompt
  · rfl
  · cases s.loadImage x <;> rfl

/-- SWAP.load of an image at a multiple of 256 (R348). -/
theorem exec_swapLoad_loads {s : State} {b : Reg} (h : s.Executes (.swapLoad b) [b] []) (hc : s.AtCommit) (hal : (s.cur.rs b).toNat % 256 = 0)
    (hlatent : s.prompt = true → s.latent = []) :
    ∃ t k, exec (.swapLoad b) s = .next t.tick ∧ s.GoesOn t ∧ t = { s with clock := s.clock + k, cur := { s.loads (s.cur.rs b) with
      time := s.cur.time + k, justGiven := (s.pass k).cur.justGiven,
      pc := t.cur.pc, lcount := t.cur.lcount, lbody := t.cur.lbody, window := t.cur.window, committed := t.cur.committed } } := by
  obtain ⟨k, -, he⟩ := issue_reading_atCommit h hc _
  obtain ⟨t, ht, hgo, e⟩ := finish_plates s k (loads_change (s.pass k) (s.cur.rs b))
  rw [loads_pass] at e
  refine ⟨t, k, ?_, hgo, e⟩
  rw [exec_swapLoad]
  refine he.trans ((if_neg (by rw [show (s.pass k).cur.rs b = s.cur.rs b from rfl, hal]; decide)).trans (Eq.trans ?_ ht))
  exact finish_loads (s := s.pass k) hlatent (s.cur.rs b)

/-! ### SWAP (R348) -/

/-- Rings have been bound: the clasp engine has changed nothing but what `ServiceOf` names, and memory reads as it did. -/
structure State.Rebound (s t : State) : Prop where
  service : s.ServiceOf t
  mem     : t.mem = s.mem
  banks   : ∀ m, (t.dev m).banks = (s.dev m).banks

theorem State.Rebound.rfl {s : State} : s.Rebound s := ⟨⟨_, _, _, _, _, _, _, Eq.refl s⟩, Eq.refl _, fun _ => Eq.refl _⟩
theorem State.Rebound.trans {s t r : State} (h : s.Rebound t) (h' : t.Rebound r) : s.Rebound r :=
  ⟨h.service.trans h'.service, h'.mem.trans h.mem, fun m => (h'.banks m).trans (h.banks m)⟩

theorem State.Rebound.bytes {s t : State} (h : s.Rebound t) (g : Gid) (k : Nat) : t.plainByte g k = s.plainByte g k := by
  obtain ⟨_, _, _, _, _, _, _, e⟩ := h.service
  exact plainByte_congr h.mem (by rw [e]) (by rw [e]) h.banks g k

/-- A clasp entry that is taken leaves the banks. -/
theorem rebound_setDev {s : State} {n : Dev} {key : Nat} {d : Device} {spilled : Bool} (h : (s.dev n).touch key = some (d, spilled)) :
    s.Rebound (s.setDev d) := by
  obtain ⟨hnum, hbanks, -, -⟩ := touch_frame h
  refine ⟨⟨_, _, _, _, _, _, _, Eq.refl _⟩, Eq.refl _, fun m => ?_⟩
  rw [dev_setDev, hnum, dev_num]
  by_cases hm : m = n
  · rw [if_pos hm, hbanks, hm]
  · rw [if_neg hm]

theorem bindShadow_rebound : ∀ {l : List (Nat × Nat × Word)} {lat lat' : Latency} {s v : State}, bindShadow l lat s = .ok (v, lat') → s.Rebound v
  | [], lat, lat', s, v, h => by
    rw [bindShadow] at h
    injection h with h
    injection h with h
    exact h ▸ .rfl
  | (off, ring, x) :: rest, lat, lat', s, v, h => by
    rw [bindShadow] at h
    cases htouch : (s.dev (gidDev s.cur.gid)).touch (ringKey (gidDev s.cur.gid) (ringIndex (gidSection s.cur.gid) ring)) with
    | none => rw [htouch] at h; cases h
    | some e =>
      rw [htouch] at h
      have hbind := leavesRing_bind (s.setDev e.1) (gidDev s.cur.gid) (gidSection s.cur.gid) ring x
      exact (rebound_setDev htouch).trans (.trans ⟨hbind.service, hbind.mem, hbind.banks⟩ (bindShadow_rebound h))

/-- What goes on from a machine that the clasp engine has served goes on from the machine before. -/
theorem State.GoesOn.of_service {s v t : State} (h : v.GoesOn t) (hv : s.ServiceOf v) : s.GoesOn t := by
  obtain ⟨_, _, _, known, wait, readFrom, readRings, rfl⟩ := hv
  obtain ⟨hregs, hnext, hrec⟩ := h
  have hadv := advance_congr (u := s.cur) (v := { s.cur with known := known, wait := wait, readFrom := readFrom, readRings := readRings }) rfl rfl rfl rfl
  exact ⟨hregs, ⟨hnext.1.trans hadv.1, hnext.2.1.trans hadv.2.1, hnext.2.2.trans hadv.2.2⟩, hrec⟩

/-- The unit once SWAP has exchanged its plates; `n` cycles pass before its next word. -/
def Unit.swapped (u : Unit) (n : Nat) : Unit :=
  { u.busyFor n with plate := u.shadow, shadow := u.plate, phase := 0, frameAt := none, fresh := Vector.replicate 7 true }

theorem swapped_change (u : Unit) (n : Nat) : u.PlateChange (u.swapped n) := rfl

section
variable {s : State} (h : s.Executes .swap [] []) (hc : s.AtCommit)
include h hc

theorem exec_swap_loading {va : Word} (hload : s.cur.load = .loading va) : exec .swap s = stall s := by
  rw [exec_swap]
  refine (issue_atCommit h hc _).trans ?_
  dsimp only
  rw [hload]

theorem exec_swap_undrained (hdrain : s.drained = false) : exec .swap s = stall s := by
  rw [exec_swap]
  refine (issue_atCommit h hc _).trans ?_
  dsimp only
  rw [hdrain]
  cases s.cur.load <;> rfl

theorem exec_swap_failed {t : Trap} (hload : s.cur.load = .failed t) (hdrain : s.drained = true) : exec .swap s = trapNow s t := by
  rw [exec_swap]
  refine (issue_atCommit h hc _).trans ?_
  dsimp only
  rw [hload, hdrain]
  rfl

theorem exec_swap_fault {off : Nat} (hload : s.cur.load = .complete) (hdrain : s.drained = true)
    (hfault : s.shadowFault (plateRings s.cur.shadow) = some off) : exec .swap s = trapNow s (seqTrap .ringerr (BitVec.ofNat 64 off)) := by
  rw [exec_swap]
  refine (issue_atCommit h hc _).trans ?_
  dsimp only
  rw [hload, hdrain, hfault]
  rfl

theorem exec_swap_bound {v : State} {lat : Latency} (hload : s.cur.load = .complete) (hdrain : s.drained = true)
    (hfault : s.shadowFault (plateRings s.cur.shadow) = none) (hbind : bindShadow (plateRings s.cur.shadow) (.exact 0) s = .ok (v, lat)) :
    exec .swap s = finish v (v.cur.swapped (4 + lat.typical)) := by
  rw [exec_swap]
  refine (issue_atCommit h hc _).trans ?_
  dsimp only
  rw [hload, hdrain, hfault, hbind]
  rfl

end

end Sys2Proof.Machine

namespace Sys2Proof.Proofs
open Sys2Proof Sys2Proof.Machine

/-- Settles O49: a load, an exchange of plates or a phase changes the unit's plates and phases, and goes on with the next word; a binding of the shadow
plate changes a ring besides. -/
theorem plates : Obligations.Plates := by
  intro b n ph s u x keeps hc
  refine ⟨fun h => ⟨fun hal => ?align, fun hal hprompt => ?started, fun hal hprompt hlatent => ⟨fun f hf => ?failed, fun p hp => ?loaded⟩⟩,
    fun place p hplace hbytes hsound => loadImage_ok hplace hbytes hsound,
    fun h => ⟨fun va hload => waitsOn_of_stall (exec_swap_loading h hc hload), fun hdrain _ => waitsOn_of_stall (exec_swap_undrained h hc hdrain),
      fun f hload hdrain => raises_now (exec_swap_failed h hc hload hdrain),
      fun off hload hdrain hfault => raises_now (exec_swap_fault h hc hload hdrain hfault), fun hload hdrain hfault v lat hbind => ?swap⟩,
    fun h => ?frame, fun h => ?phase, fun h => ⟨fun hdrain => ?drained, fun hdrain => waitsOn_of_stall ?undrained⟩⟩
  case align =>
    obtain ⟨k, hk, he⟩ := issue_reading_atCommit h hc _
    exact ⟨k, hk, (exec_swapLoad b s).trans (he.trans (if_pos hal))⟩
  case started =>
    obtain ⟨t, k, ht, hgo, e⟩ := exec_swapLoad_loads h hc hal (fun hp => absurd (hprompt.symm.trans hp) Bool.false_ne_true)
    rw [loads_late hprompt] at e
    refine ⟨t, ht, by rw [e], by rw [e], hgo, ?_⟩
    rw [e]
    exact ⟨rfl, by simp only; omega, fun _ _ => rfl⟩
  case failed =>
    obtain ⟨t, k, ht, hgo, e⟩ := exec_swapLoad_loads h hc hal (fun _ => hlatent)
    rw [loads_failed hprompt hf] at e
    refine ⟨t, ht, by rw [e], by rw [e], hgo, ?_⟩
    rw [e]
    exact ⟨rfl, by simp only; omega, fun _ _ => rfl⟩
  case loaded =>
    obtain ⟨t, k, ht, hgo, e⟩ := exec_swapLoad_loads h hc hal (fun _ => hlatent)
    rw [loads_done hprompt hp] at e
    refine ⟨t, ht, by rw [e], by rw [e], hgo, ?_⟩
    rw [e]
    exact ⟨rfl, by simp only; omega, fun _ _ => rfl⟩
  case swap =>
    have hre := bindShadow_rebound hbind
    obtain ⟨t, ht, hgo, e⟩ := finish_plates v 0 (swapped_change v.cur (4 + lat.typical))
    have hbytes : ∀ g k, t.plainByte g k = v.plainByte g k := fun g k => by rw [e]; rfl
    have hunit : t.cur.plate = s.cur.shadow ∧ t.cur.shadow = s.cur.plate ∧ t.cur.phase = 0 ∧ t.cur.frameAt = none ∧
        t.cur.busy = t.cur.time + (4 + lat.typical) := by
      obtain ⟨_, _, _, _, _, _, _, ev⟩ := hre.service
      rw [e, ev]
      exact ⟨rfl, rfl, rfl, rfl, rfl⟩
    obtain ⟨hplate, hshadow, hphase, hframe, hbusy⟩ := hunit
    refine ⟨t, (exec_swap_bound h hc hload hdrain hfault hbind).trans ht, hplate, hshadow, hphase, hframe, hbusy, hgo.of_service hre.service,
      fun g k => (hbytes g k).trans (hre.bytes g k), fun hnone => ?rings⟩
    case rings =>
      rw [show plateRings s.cur.shadow = [] from hnone, bindShadow] at hbind
      injection hbind with hbind
      injection hbind with hv hlat
      subst hv
      rw [e]
      exact ⟨rfl, rfl, fun _ _ => rfl⟩
  case frame =>
    obtain ⟨t, ht, hgo, e⟩ := finish_plates s 0 (u := { u with
      frameAt := some (u.time + 1 + n.toNat), fresh := if u.framed then Vector.replicate 7 true else u.fresh }) rfl
    refine ⟨t, (exec_frame n s).trans ((issue_atCommit h hc _).trans ht), by rw [e], by rw [e], hgo, ?_⟩
    rw [e]
    exact ⟨rfl, rfl, fun _ _ => rfl⟩
  case phase =>
    obtain ⟨t, ht, hgo, e⟩ := finish_plates s 0 (u := { u with phase := ph }) rfl
    refine ⟨t, (exec_phase ph s).trans ((issue_atCommit h hc _).trans ht), by rw [e], hgo, ?_⟩
    rw [e]
    exact ⟨rfl, rfl, fun _ _ => rfl⟩
  case drained =>
    obtain ⟨t, ht, hgo, e⟩ := finish_plates s 0 (u := u) rfl
    refine ⟨t, (exec_drain s).trans ((issue_atCommit h hc _).trans ((if_pos hdrain).trans ht)), hgo, ?_⟩
    rw [e]
    exact ⟨rfl, rfl, fun _ _ => rfl⟩
  case undrained => exact (exec_drain s).trans ((issue_atCommit h hc _).trans (if_neg (by rw [hdrain]; exact Bool.false_ne_true)))

end Sys2Proof.Proofs
end

section
/-! PROOFS. Tasks (19 R337, R338, R343, R356, 21 R405): the obligation O48. -/

namespace Sys2Proof.Machine
open Sys2Proof

/-! ### A request of the current unit -/

/-- The unit `v` is the unit `u` in a later cycle, that may have met (20 R361) and waits with a request. -/
def Unit.Asks (u v : Unit) : Prop := ∃ time given lanes sigs meeting presented unsigned relBuf wait arrived, v = { u with
  time := time, justGiven := given, lanes := lanes, lastSigs := sigs, meeting := meeting, presented := presented, unsigned := unsigned,
  relBuf := relBuf, wait := wait, arrived := arrived }

/-- Nothing else has come about in the machine, but that a request has left its clasp queue. -/
def State.Asks (s z : State) : Prop := ∃ clock clasps v, z = { s with clock := clock, clasps := clasps, cur := v } ∧ s.cur.Asks v ∧
  clock + s.cur.time = s.clock + v.time

theorem Unit.Asks.refl (u : Unit) : u.Asks u := ⟨_, _, _, _, _, _, _, _, _, _, rfl⟩

theorem Unit.Asks.trans {u v w : Unit} : u.Asks v → v.Asks w → u.Asks w := by
  rintro ⟨_, _, _, _, _, _, _, _, _, _, rfl⟩ ⟨_, _, _, _, _, _, _, _, _, _, rfl⟩
  exact ⟨_, _, _, _, _, _, _, _, _, _, rfl⟩

namespace State.Asks
variable {s z : State}

theorem unit (h : s.Asks z) : s.cur.Asks z.cur := by
  obtain ⟨_, _, _, rfl, hv, -⟩ := h
  exact hv

theorem devs (h : s.Asks z) : z.devs = s.devs := by
  obtain ⟨_, _, _, rfl, -, -⟩ := h
  rfl

theorem gid (h : s.Asks z) : z.cur.gid = s.cur.gid := by
  obtain ⟨_, _, _, _, _, _, _, _, _, _, e⟩ := h.unit
  rw [e]

theorem live (h : s.Asks z) : z.cur.live = s.cur.live := by
  obtain ⟨_, _, _, _, _, _, _, _, _, _, e⟩ := h.unit
  rw [e]

theorem pass (s : State) (k : Nat) : s.Asks (s.pass k) :=
  ⟨s.clock + k, s.clasps, (s.pass k).cur, rfl, ⟨_, _, _, _, _, _, _, _, _, _, rfl⟩, show s.clock + k + s.cur.time = s.clock + (s.cur.time + k) by omega⟩

/-- A change of the unit that keeps the cycle. -/
theorem withUnit (h : s.Asks z) {v : Unit} (hv : z.cur.Asks v) (ht : v.time = z.cur.time) (clasps : List (Gid × Nat)) :
    s.Asks { z with clasps := clasps, cur := v } := by
  obtain ⟨clock, _, w, rfl, hw, htime⟩ := h
  exact ⟨clock, clasps, v, rfl, hw.trans hv, by rw [ht]; exact htime⟩

/-- Translation reads nothing that a request changes. -/
theorem translate (h : s.Asks z) (q : BitVec 3) (k : AccessKind) (regs : Bool) (va : Word) :
    z.translate s.cur.gid q k regs va = s.translate s.cur.gid q k regs va := by
  obtain ⟨clock, clasps, v, rfl, ⟨_, _, _, _, _, _, _, _, _, _, rfl⟩, -⟩ := h
  generalize hz : ({ s with clock := clock, clasps := clasps, cur := _ } : State) = z
  have hunit : z.unitAt s.cur.gid = z.cur := by rw [← hz]; exact if_pos rfl
  have hdev : ∀ n, z.dev n = s.dev n := fun _ => by rw [← hz]; rfl
  have hentry : ∀ a, z.tableEntry s.cur.gid a = s.tableEntry s.cur.gid a := fun _ => by rw [← hz]; rfl
  have haddr : ∀ d a, z.addrOf d a = s.addrOf d a := fun _ _ => by rw [← hz]; rfl
  have hwalk : ∀ x, z.walk s.cur.gid x va = s.walk s.cur.gid x va := fun x => by simp only [State.walk, hdev, hentry]
  have hlookup : z.lookup s.cur.gid va = s.lookup s.cur.gid va := by
    simp only [State.lookup, hunit, unitAt_cur, hwalk, hdev]
    rw [← hz]
  simp only [State.translate, hlookup, hunit, unitAt_cur, hdev]
  rw [← hz]
  rfl

theorem linkTrap (h : s.Asks z) (a : Nat) : z.linkTrap a = s.linkTrap a := by
  rw [State.linkTrap, State.linkTrap, h.gid, flowFails_congr h.devs]

theorem claspPlace (h : s.Asks z) (k : AccessKind) (va : Word) (n : Nat) : claspPlace z k va n = Machine.claspPlace s k va n := by
  simp only [Machine.claspPlace, h.gid, h.translate, h.linkTrap]

theorem myTask (h : s.Asks z) : z.myTask = s.myTask := by
  obtain ⟨clock, clasps, v, rfl, ⟨_, _, _, _, _, _, _, _, _, _, rfl⟩, -⟩ := h
  rfl

theorem counterPlaces (h : s.Asks z) (pick : Task → List Nat) : z.counterPlaces pick = s.counterPlaces pick := by
  rw [State.counterPlaces, State.counterPlaces, h.myTask]
  simp only [h.claspPlace]

end State.Asks

/-- Outside every buffered region a unit without replicas does not buffer. -/
theorem buffering_of_open {u : Unit} (hl : u.live ≤ 1) (hr : ∀ r ∈ u.regions, r.buffered = false) : u.buffering = false := by
  have hregions : u.regions.any (·.buffered) = false := List.any_eq_false.mpr fun r hm => by rw [hr r hm]; exact Bool.false_ne_true
  rw [Unit.buffering, hregions, decide_eq_false (by omega)]
  rfl

/-- What a request waits for is there for the unit that makes it. -/
theorem binderReady_asks {s z : State} (hl : s.cur.live ≤ 1) (h : s.Asks z) (hw : z.cur.wait = s.cur.wait) (hq : z.clasps = s.clasps) (cls : BitVec 4)
    {places : State → List Nat} (hp : places z = places s) : binderReady cls places z = binderReady cls places s := by
  rw [binderReady, binderReady, hp, State.actor, State.actor]
  obtain ⟨clock, clasps, v, rfl, ⟨_, _, _, _, _, _, _, _, _, _, rfl⟩, -⟩ := h
  dsimp only at hw hq
  subst hw hq
  rw [if_pos hl, if_pos hl]
  rfl

/-! ### A request to the binder (20 R360, R368) -/

theorem binderRequest_alone {z : State} (hl : z.cur.live ≤ 1) (a : Reg) (record : List Byte) (cls : BitVec 4) (f : State → Dec) :
    binderRequest a record cls f z = (match f z with
      | .done t x lat => finishRequest (t.noteRequest true record x lat 0).endWait a x lat
      | .trap t x => trapNow t x
      | .away t key addr => stall (t.sendRequest key addr cls none true)) := by
  have hagree : z.agree true record = .perform z := by rw [State.agree, if_pos hl]
  rw [binderRequest, hagree] <;> rfl

/-- The meeting before a request to the binder, which then waits there. -/
theorem binderMeeting_alone {s : State} (q : Nat) (hb : s.cur.buffering = false) (hi : s.cur.wait = none) (i : Instr) (record : List Byte)
    {ready : State → Bool} (f : State → Res)
    (hready : ∀ z, s.Asks z → z.cur.wait = s.cur.wait → z.clasps = s.clasps → ready z = true) :
    ∃ z w, binderMeeting i record ready f (s.pass q) = f z ∧ s.Asks z ∧ z.clasps = s.clasps ∧ z.cur.wait = some w ∧ w.key = binderKey := by
  have hmet : ∀ u : Unit, u = { (s.pass q).cur with
      lanes := u.lanes, lastSigs := u.lastSigs, meeting := u.meeting, presented := u.presented, unsigned := u.unsigned, relBuf := u.relBuf } →
      s.Asks { s.pass q with cur := u } := fun u hu =>
    (State.Asks.pass s q).withUnit ⟨_, _, _, _, _, _, _, _, _, _, hu⟩ (by rw [hu]) s.clasps
  obtain ⟨u, he, hu, -⟩ := meeting_alone (s := s.pass q) hb i [record] ready (fun s => f (s.waitOn s.nextWrite binderKey true 0 []))
    (hready _ (State.Asks.pass s q) rfl rfl) (fun u hu => hready _ (hmet u hu) (by rw [hu]; rfl) rfl)
  let z : State := ({ s.pass q with cur := u } : State).waitOn s.nextWrite binderKey true 0 []
  have hz : s.Asks z := (hmet u hu).withUnit (v := z.cur) ⟨_, _, _, _, _, _, _, _, _, _, rfl⟩ rfl s.clasps
  refine ⟨z, _, ?_, hz, rfl, rfl, rfl⟩
  rw [binderMeeting, if_neg (by rw [show (s.pass q).cur.wait = s.cur.wait from rfl, hi]; decide)]
  exact he

/-- A request to the binder is counted; it raises no flags. -/
theorem noteRequest_binder {y : State} (hl : y.cur.live ≤ 1) (hw : y.cur.window = []) (record : List Byte) (x : Word) (lat : Latency) :
    y.noteRequest true record x lat 0 = { y with cur := { y.cur with binderCount := y.cur.binderCount + 1 } } := by
  have hcount : (y.cur.countRequest true).retireFlags 0 = { y.cur with binderCount := y.cur.binderCount + 1 } := by
    simp only [Unit.countRequest, ↓reduceIte, Unit.retireFlags, Unit.orFlags, hw, List.map_nil]
    congr 2
    exact BitVec.or_zero
  rw [State.noteRequest]
  dsimp only
  rw [hcount]
  exact if_pos hl

/-- A request to the binder that is done, from the machine `y` that it leaves: its value in s[A], its commit at once, and the cycle from which the
sequencer issues again. -/
theorem binder_done {s y : State} (hc : s.AtCommit) (hl : s.cur.live ≤ 1) (hy : s.cur.Asks y.cur) (a : Reg) (record : List Byte) (x : Word) (lat : Latency) :
    ∃ t, finishRequest (y.noteRequest true record x lat 0).endWait a x lat = .next t.tick ∧ s.SetsReg t a x ∧ s.NextWord t ∧ s.Recorded t ∧
      t.cur.busy = t.cur.time + lat.typical ∧ t = { y with cur := { y.cur with
        s := t.cur.s, waits := t.cur.waits, ready := t.cur.ready, pc := t.cur.pc, lcount := t.cur.lcount, lbody := t.cur.lbody,
        committed := t.cur.committed, busy := t.cur.busy, wait := none, arrived := false, binderCount := s.cur.binderCount + 1 } } := by
  have hwin : s.cur.window = [] := hc
  obtain ⟨_, _, _, _, _, _, _, _, _, _, hcur⟩ := hy
  rw [noteRequest_binder (by rw [hcur]; exact hl) (by rw [hcur]; exact hwin)]
  let v : Unit := { y.cur with binderCount := y.cur.binderCount + 1, wait := none, arrived := false }
  obtain ⟨t, ht, hreg, hnext, hwindow, hcommit, e⟩ := finishRequest_spec (s := { y with cur := v }) (by show y.cur.window = []; rw [hcur]; exact hwin) a x lat
  have hv : v = { y.cur with binderCount := s.cur.binderCount + 1, wait := none, arrived := false } := by simp only [v, hcur]
  have hadv := advance_congr (u := s.cur) (v := v) (by simp only [v, hcur]) (by simp only [v, hcur]) (by simp only [v, hcur]) (by simp only [v, hcur])
  have hs : ∀ r, v.rs r = s.cur.rs r := rs_congr (by simp only [v, hcur])
  refine ⟨t, ht, fun r => (hreg r).trans (by rw [show ({ y with cur := v } : State).cur = v from rfl, hs]),
    ⟨hnext.1.trans hadv.1, hnext.2.1.trans hadv.2.1, hnext.2.2.trans hadv.2.2⟩, .inl ⟨hwin, hwindow, hcommit.trans ?committed⟩, by rw [e], ?frame⟩
  case committed => simp only [v, hcur]
  case frame =>
    rw [e, hv]

/-! ### What the binder leaves of the unit -/

theorem clearPoison_keeps (s : State) (a n : Nat) : (s.clearPoison a n).cur = s.cur ∧ ∀ m, (s.dev m).Alike ((s.clearPoison a n).dev m) := by
  obtain ⟨⟨_, _, _, _, e⟩, halike, -⟩ := scrubRun_decoded { s with
    poison := s.poison.filter fun x => !(decide (a ≤ 128 * x) && decide (128 * x + 128 ≤ a + n))
    latent := s.latent.filter fun e => !(decide (a ≤ 128 * e.1) && decide (128 * e.1 + 128 ≤ a + n)) } a n
  exact ⟨(congrArg State.cur e).trans rfl, halike⟩

/-- A write of the binder changes no unit, and of the devices the counters of errors only. -/
theorem masterWrite_keeps (s : State) (a : Nat) (data : List Byte) :
    (s.masterWrite a data).cur = s.cur ∧ ∀ m, (s.dev m).Alike ((s.masterWrite a data).dev m) := by
  have h := clearPoison_keeps s a data.length
  rw [State.masterWrite]
  split
  · exact h
  · exact h

theorem writeStatus_cur (s : State) (record : Nat) (st : TaskState) (reason : Nat) (id : BitVec 32) : (s.writeStatus record st reason id).cur = s.cur :=
  (masterWrite_keeps s _ _).1

theorem scrub_cur (s : State) (k : Nat) : (s.scrub k).cur = s.cur := by
  obtain ⟨⟨_, _, _, _, e⟩, -⟩ := scrub_decoded s k
  rw [e]

theorem foldl_cur {α : Type} {f : State → α → State} (hf : ∀ s x, (f s x).cur = s.cur) (l : List α) (s : State) : (l.foldl f s).cur = s.cur := by
  induction l generalizing s with
  | nil => rfl
  | cons x xs ih => rw [List.foldl_cons, ih, hf]

theorem setStatus_cur (s : State) (dev : Dev) (t : Task) (st : TaskState) : (s.setStatus dev t st).cur = s.cur := writeStatus_cur ..

theorem refreshEligible_cur (s : State) : s.refreshEligible.cur = s.cur := by
  rw [State.refreshEligible]
  refine foldl_cur (fun s e => ?_) _ s
  obtain ⟨d, t⟩ := e
  exact setStatus_cur s d _ _

theorem taskScrub_cur (s : State) (dev : Dev) (xbase va : Word) (n : Nat) : (s.taskScrub dev xbase va n).cur = s.cur := by
  rw [State.taskScrub]
  split
  · rfl
  · refine foldl_cur (fun s k => ?_) _ s
    cases s.walk (quireGid dev 0) xbase (va + BitVec.ofNat 64 (128 * k)) with
    | error e => rfl
    | ok m => exact scrub_cur ..

/-- Acceptance changes no unit. -/
theorem accept_cur (s : State) (dev : Dev) (record : Nat) (secureBy : Bool) (releases : List Release) :
    (s.accept dev record secureBy releases).1.cur = s.cur := by
  rw [State.accept]
  dsimp only
  split
  · rw [taskScrub_cur, taskScrub_cur, scrubRun_cur]
  · rw [writeStatus_cur, taskScrub_cur, taskScrub_cur, scrubRun_cur]
  · rw [refreshEligible_cur, writeStatus_cur]
    show (State.taskScrub ..).cur = _
    rw [taskScrub_cur, taskScrub_cur, scrubRun_cur]

/-! ### Tasks that are set -/

theorem task?_id {d : Device} {id : BitVec 32} {k : Task} (h : d.task? id = some k) : k.id = id :=
  beq_iff_eq.mp (List.find?_some (p := fun t : Task => t.id == id) h)

theorem task?_setTask {d : Device} {k t : Task} (h : d.task? t.id = some k) : (d.setTask t).task? t.id = some t := by
  rw [Device.task?] at h
  rw [Device.task?, Device.setTask]
  dsimp only
  generalize d.tasks = l at h ⊢
  induction l with
  | nil => cases h
  | cons x xs ih =>
    rw [List.find?_cons] at h
    rw [List.map_cons, List.find?_cons]
    cases hx : x.id == t.id with
    | true => simp
    | false =>
      rw [hx] at h
      simp only [Bool.false_eq_true, if_false, hx]
      exact ih h

theorem killReport_tasks (d : Device) (id : BitVec 32) (quire : Gid) (cause reason : Nat) (words : List Word) :
    (d.killReport id quire cause reason words).tasks = d.tasks ∧ (d.killReport id quire cause reason words).num = d.num := by
  have hfold : ∀ (l : List (Word × Nat)) (base : Nat) (d : Device), (l.foldl (fun d e => d.setReg (base + 8 * e.2) e.1) d).tasks = d.tasks ∧
      (l.foldl (fun d e => d.setReg (base + 8 * e.2) e.1) d).num = d.num := fun l base => by
    induction l with
    | nil => exact fun _ => ⟨rfl, rfl⟩
    | cons x xs ih => exact fun d => ih (d.setReg (base + 8 * x.2) x.1)
  exact hfold _ _ d

/-! ### A kill (21 R405) -/

/-- Units other than the current one leave their task. -/
theorem freed_others {l : List Gid} : ∀ {s : State} (_ : s.cur.gid ∉ l),
    (l.foldl (fun s g => s.setUnit (s.unitAt g).free) s).cur = s.cur ∧ (l.foldl (fun s g => s.setUnit (s.unitAt g).free) s).devs = s.devs := by
  induction l with
  | nil => exact fun _ => ⟨rfl, rfl⟩
  | cons g gs ih =>
    intro s h
    have hg : ¬ s.cur.gid = (s.unitAt g).free.gid := fun e => h (List.mem_cons.mpr (.inl (e.trans (unitAt_gid s g))))
    have hset : (s.setUnit (s.unitAt g).free).cur = s.cur ∧ (s.setUnit (s.unitAt g).free).devs = s.devs := by
      rw [State.setUnit, if_neg hg]
      exact ⟨rfl, rfl⟩
    obtain ⟨hcur, hdevs⟩ := ih (s := s.setUnit (s.unitAt g).free) (by rw [hset.1]; exact fun hm => h (List.mem_cons_of_mem g hm))
    exact ⟨hcur.trans hset.1, hdevs.trans hset.2⟩

/-- No device holds an early contribution; the unit and the tasks are those of `s`. -/
structure State.Unheld (s z : State) : Prop where
  cur   : z.cur = s.cur
  tasks : ∀ m, (z.dev m).tasks = (s.dev m).tasks
  held  : ∀ m, (z.dev m).held = []

theorem dev_held {s : State} (h : ∀ d ∈ s.devs, d.held = []) (m : Dev) : (s.dev m).held = [] := by
  rw [State.dev]
  cases hfind : s.devs.find? fun d => d.num == m with
  | none => rfl
  | some d => exact h d (List.mem_of_find?_eq_some hfind)

/-- What a task holds is released; no contribution of another task goes on where none is held. -/
theorem unheld_release {s z : State} (h : s.Unheld z) (id : BitVec 32) (units : List Gid) (l : List Dev) :
    s.Unheld (l.foldl (fun s n => (s.onDev n fun d => d.releaseTask id units).admitHeldOf n) z) := by
  induction l generalizing z with
  | nil => exact h
  | cons n ns ih =>
    have hdev : ∀ m, (z.onDev n fun d => d.releaseTask id units).dev m = if m = n then (z.dev n).releaseTask id units else z.dev m :=
      dev_onDev z n _ (dev_num z n)
    have hheld : ∀ m, ((z.onDev n fun d => d.releaseTask id units).dev m).held = [] := fun m => by
      rw [hdev]
      split
      · rw [Device.releaseTask, h.held, List.filter_nil]
      · exact h.held m
    have hstay : (z.onDev n fun d => d.releaseTask id units).admitHeldOf n = z.onDev n fun d => d.releaseTask id units := by
      rw [State.admitHeldOf, hheld, List.length_nil, admitHeld]
    refine ih (z := (z.onDev n fun d => d.releaseTask id units).admitHeldOf n) ?_
    rw [hstay]
    refine ⟨h.cur, fun m => ?_, hheld⟩
    rw [hdev]
    split
    · rename_i hm
      rw [hm]
      exact h.tasks n
    · exact h.tasks m

/-- A live task whose quires are not the current unit's is killed. -/
theorem killTask_kills {s : State} {dev : Dev} {id : BitVec 32} {k : Task} (hk : (s.dev dev).task? id = some k) (hunits : s.cur.gid ∉ k.units)
    (hheld : ∀ d ∈ s.devs, d.held = []) (reason : Nat) (quire : Option Gid) (words : List Word) :
    (s.killTask dev id reason quire words).cur = s.cur ∧
      ∃ k', ((s.killTask dev id reason quire words).dev dev).task? id = some k' ∧ k'.state = .killed := by
  have hid : k.id = id := task?_id hk
  obtain ⟨hcur, hdevs⟩ := freed_others hunits
  have hfreed : s.Unheld (k.units.foldl (fun s g => s.setUnit (s.unitAt g).free) s) := by
    have hdev : ∀ m, (k.units.foldl (fun s g => s.setUnit (s.unitAt g).free) s).dev m = s.dev m := fun m => by rw [State.dev, hdevs, ← State.dev]
    exact ⟨hcur, fun m => by rw [hdev], fun m => by rw [hdev]; exact dev_held hheld m⟩
  have hreleased := unheld_release hfreed id k.units
    ((k.units.foldl (fun s g => s.setUnit (s.unitAt g).free) s).devs.map (·.num))
  rw [State.killTask, hk]
  dsimp only
  rw [State.releaseTask]
  generalize List.foldl _ _ _ = z at hreleased ⊢
  let t : Task := { k with state := .killed, units := [], saved := [], sram := [], modes := [], tags := [] }
  have htask : ((z.dev dev).setTask t).task? id = some t := by
    have := task?_setTask (d := z.dev dev) (t := t) (k := k) (by rw [Device.task?, hreleased.tasks]; exact hid ▸ hk)
    exact hid ▸ this
  let d : Device := if k.units.isEmpty then { (z.dev dev).setTask t with queue := (z.dev dev).queue.filter (· != id) }
    else ({ (z.dev dev).setTask t with queue := (z.dev dev).queue.filter (· != id) } : Device).killReport id
      (z.seenGid (quire.getD (k.units.headD 0))) 0x7F reason words
  have hd : d.task? id = some t ∧ d.num = dev := by
    simp only [d]
    split
    · exact ⟨htask, dev_num z dev⟩
    · obtain ⟨htasks, hnum⟩ := killReport_tasks ({ (z.dev dev).setTask t with queue := (z.dev dev).queue.filter (· != id) } : Device) id
        (z.seenGid (quire.getD (k.units.headD 0))) 0x7F reason words
      exact ⟨by rw [Device.task?, htasks]; exact htask, hnum.trans (dev_num z dev)⟩
  obtain ⟨hkeeps, halike⟩ := masterWrite_keeps (z.setDev d) (k.record + 160) (leBytes 8 (statusWord .killed reason id).toNat)
  refine ⟨hkeeps.trans hreleased.cur, t, ?_, rfl⟩
  have hdev := (halike dev).1
  rw [dev_setDev, hd.2, if_pos rfl] at hdev
  show (State.dev _ dev).task? id = some t
  exact (congrArg (Device.task? · id) hdev).trans hd.1

/-! ### KILL (21 R405) -/

/-- The device whose binder a KILL asks. -/
def Unit.killDev (u : Unit) (id : BitVec 32) : Dev := if u.task == some id then u.taskDev else gidDev u.gid

theorem killDev_eq (u : Unit) (id : BitVec 32) : u.killDev id = if u.task = some id then u.taskDev else gidDev u.gid := by
  simp only [Unit.killDev, beq_iff_eq]

/-- What KILL does once its operand is vetted. -/
def killing (a b : Reg) (s : State) : Res :=
  let x := s.cur.rs b
  let id : BitVec 32 := x.setWidth 32
  let dev := s.cur.killDev id
  let request (f : State → Dec) : Res := binderRequest a (requestOf (.kill a b) 0 x) 0 f s
  match (s.dev dev).task? id with
  | none => request fun s => .done s 1 { typical := 400, bound := 1200 }
  | some t =>
    if t.isSecure && !s.cur.secure && !s.cur.isCore then trapNow s (seqTrap .secviol x)
    else if t.state == .completed || t.state == .killed || t.state == .rejected then request fun s => .done s 1 { typical := 400, bound := 1200 }
    else if s.cur.task == some id then .next (s.killTask dev id 0x12 none (List.replicate 7 0))
    else request fun s => .done (s.killTask dev id 0x12 none (List.replicate 7 0)) 0 { typical := 400, bound := 1200 }

/-- The trap of KILL's operand or mode. -/
def killVet (a b : Reg) (s : State) : Option Trap :=
  if 2 ^ 32 ≤ (s.cur.rs b).toNat then some (seqTrap .illfld (encode (.kill a b)))
  else if s.cur.isCore || s.cur.handlerMode then none else some (seqTrap .priv (encode (.kill a b)))

section
variable {a b : Reg} {s : State} (h : s.Executes (.kill a b) [b] []) (hc : s.AtCommit)
include h hc

theorem exec_kill_killing : ∃ k, (s.cur.framed = true → k = 0) ∧ exec (.kill a b) s =
    match killVet a b s with | some t => trapNow (s.pass k) t | none => killing a b (s.pass k) := by
  obtain ⟨k, hk, he⟩ := issue_vetting_atCommit h hc (fun known s =>
    if known b && decide (2 ^ 32 ≤ (s.cur.rs b).toNat) then some (seqTrap .illfld (encode (.kill a b)))
    else if s.cur.isCore || s.cur.handlerMode then none
    else some (seqTrap .priv (encode (.kill a b)))) (killing a b)
  refine ⟨k, hk, (exec_kill a b s).trans (Eq.trans he ?_)⟩
  simp only [Bool.true_and, decide_eq_true_eq]
  rfl

theorem killVet_wide (hw : (s.cur.rs b).toNat / 2 ^ 32 ≠ 0) : s.Raises (.kill a b) (seqTrap .illfld (encode (.kill a b))) := by
  obtain ⟨k, hk, he⟩ := exec_kill_killing h hc
  rw [killVet, if_pos (by omega)] at he
  exact ⟨k, hk, he⟩

theorem killVet_user (hw : (s.cur.rs b).toNat / 2 ^ 32 = 0) (hcore : s.cur.isCore = false) (hlevel : s.cur.tlevel = 0) :
    s.Raises (.kill a b) (seqTrap .priv (encode (.kill a b))) := by
  obtain ⟨k, hk, he⟩ := exec_kill_killing h hc
  rw [killVet, if_neg (by omega), if_neg (by simp [hcore, Unit.handlerMode, hlevel])] at he
  exact ⟨k, hk, he⟩

theorem exec_kill_vetted (hw : (s.cur.rs b).toNat / 2 ^ 32 = 0) (hp : s.cur.isCore = true ∨ s.cur.tlevel ≠ 0) :
    ∃ k, (s.cur.framed = true → k = 0) ∧ exec (.kill a b) s = killing a b (s.pass k) := by
  obtain ⟨k, hk, he⟩ := exec_kill_killing h hc
  rw [killVet, if_neg (by omega), if_pos (by simpa [Unit.handlerMode] using hp)] at he
  exact ⟨k, hk, he⟩

end

/-- The instruction has its value in s[A], `cycles` pass before the next word, which is that after it. -/
def State.Answered (s t : State) (a : Reg) (x : Word) (cycles : Nat) : Prop :=
  s.SetsReg t a x ∧ t.cur.busy = t.cur.time + cycles ∧ s.NextWord t ∧ s.Recorded t

/-- Nothing but what `OnlyScalars` names has changed, and what a request to the binder leaves of the unit. -/
def State.OnlyAsked (s t : State) : Prop := s.OnlyScalars { t with cur := { t.cur with
  binderCount := s.cur.binderCount, wait := s.cur.wait, arrived := s.cur.arrived, busy := s.cur.busy } }

section
variable {s : State} (hc : s.AtCommit) (hl : s.cur.live ≤ 1) (k : Nat) (a : Reg) (record : List Byte) (x : Word) (lat : Latency)
include hc hl

/-- The binder answers a request without doing anything. -/
theorem request_answered : ∃ t, binderRequest a record 0 (fun s => .done s x lat) (s.pass k) = .next t.tick ∧ s.Answered t a x lat.typical ∧
    s.OnlyAsked t := by
  obtain ⟨t, ht, hreg, hnext, hrec, hbusy, e⟩ := binder_done hc hl (State.Asks.pass s k).unit a record x lat
  refine ⟨t, (binderRequest_alone (z := s.pass k) hl ..).trans ht, ⟨hreg, hbusy, hnext, hrec⟩, ?_⟩
  rw [State.OnlyAsked, e]
  exact ⟨rfl, show s.clock + k + s.cur.time = s.clock + (s.cur.time + k) by omega, fun _ _ => rfl⟩

/-- The binder kills a task for a unit that does not run it. -/
theorem request_kills {dev : Dev} {id : BitVec 32} {w : Task} (hw : (s.dev dev).task? id = some w) (hunits : s.cur.gid ∉ w.units)
    (hheld : ∀ d ∈ s.devs, d.held = []) (reason : Nat) (quire : Option Gid) (words : List Word) :
    ∃ t, binderRequest a record 0 (fun s => .done (s.killTask dev id reason quire words) x lat) (s.pass k) = .next t.tick ∧
      s.Answered t a x lat.typical ∧ ∃ w', (t.dev dev).task? id = some w' ∧ w'.state = .killed := by
  obtain ⟨hcur, w', hw', hkilled⟩ := killTask_kills (s := s.pass k) hw hunits hheld reason quire words
  obtain ⟨t, ht, hreg, hnext, hrec, hbusy, e⟩ :=
    binder_done (y := (s.pass k).killTask dev id reason quire words) hc hl (hcur ▸ (State.Asks.pass s k).unit) a record x lat
  refine ⟨t, (binderRequest_alone (z := s.pass k) hl ..).trans ht, ⟨hreg, hbusy, hnext, hrec⟩, w', ?_, hkilled⟩
  rw [e]
  exact hw'

end

section
variable {a b : Reg} {s : State} {w : Task} (hw : (s.dev (s.cur.killDev ((s.cur.rs b).setWidth 32))).task? ((s.cur.rs b).setWidth 32) = some w)

theorem killing_unknown (hnone : (s.dev (s.cur.killDev ((s.cur.rs b).setWidth 32))).task? ((s.cur.rs b).setWidth 32) = none) : killing a b s =
    binderRequest a (requestOf (.kill a b) 0 (s.cur.rs b)) 0 (fun s => .done s 1 { typical := 400, bound := 1200 }) s := by
  rw [killing]
  dsimp only
  rw [hnone]

include hw

theorem killing_secure (hs : w.isSecure = true) (hu : s.cur.secure = false) (hcore : s.cur.isCore = false) :
    killing a b s = trapNow s (seqTrap .secviol (s.cur.rs b)) := by
  rw [killing]
  dsimp only
  rw [hw]
  dsimp only
  rw [hs, hu, hcore]
  rfl

section
variable (hopen : w.isSecure = false ∨ s.cur.secure = true ∨ s.cur.isCore = true)
include hopen

omit hw in
theorem not_secviol : (w.isSecure && !s.cur.secure && !s.cur.isCore) = false := by
  obtain h | h | h := hopen <;> simp only [h, Bool.false_and, Bool.not_true, Bool.and_false]

theorem killing_ended (hended : w.state = .completed ∨ w.state = .killed ∨ w.state = .rejected) : killing a b s =
    binderRequest a (requestOf (.kill a b) 0 (s.cur.rs b)) 0 (fun s => .done s 1 { typical := 400, bound := 1200 }) s := by
  rw [killing]
  dsimp only
  rw [hw]
  dsimp only
  rw [not_secviol hopen, if_neg Bool.false_ne_true, if_pos (by simpa [or_assoc] using hended)]

theorem killing_live (hlive : ¬ (w.state = .completed ∨ w.state = .killed ∨ w.state = .rejected)) (hother : s.cur.task ≠ some ((s.cur.rs b).setWidth 32)) :
    killing a b s = binderRequest a (requestOf (.kill a b) 0 (s.cur.rs b)) 0 (fun z =>
      .done (z.killTask (gidDev s.cur.gid) ((s.cur.rs b).setWidth 32) 0x12 none (List.replicate 7 0)) 0 { typical := 400, bound := 1200 }) s := by
  rw [killing]
  dsimp only
  rw [hw]
  dsimp only
  rw [not_secviol hopen, if_neg Bool.false_ne_true, if_neg (by simpa [or_assoc] using hlive), if_neg (by simpa using hother), Unit.killDev, if_neg (by simpa using hother)]

end
end

/-! ### EXIT and YIELD (19 R343, R356) -/

section
variable {b : Reg} {s : State} (h : s.Executes (.exit b) [b] []) (hc : s.AtCommit)
include h hc

theorem exit_waits (hq : s.cur.quiet = false) : s.WaitsOn (.exit b) := by
  obtain ⟨k, -, he⟩ := issue_reading_atCommit h hc _
  obtain ⟨n, hn⟩ := stall_waits (s.pass k)
  refine ⟨k + n, (exec_exit b s).trans (he.trans ((if_pos (by rw [show (s.pass k).cur.quiet = s.cur.quiet from rfl, hq]; rfl)).trans ?_))⟩
  rw [hn, pass_sum]

/-- EXIT of a quiet unit meets, and stops the sequencer. -/
theorem exit_ends (hq : s.cur.quiet = true) (hlost : s.cur.lost = []) (hb : s.cur.buffering = false) : s.Ends (.exit b) fun t =>
    t.cur.run = .exited (s.cur.rs b) ∧ t.cur.replies = [] ∧ s.KeepsRegs t ∧ s.NextWord t ∧ s.Recorded t ∧
      s.OnlyMet { t with cur := { t.cur with run := s.cur.run, replies := s.cur.replies } } := by
  obtain ⟨k, -, he⟩ := issue_reading_atCommit h hc _
  obtain ⟨u, hmeet, hu, -⟩ := meeting_alone (s := s.pass k) hb (.exit b) [] (fun _ => true)
    (fun s => .next (s.execute { s.cur.advance with run := .exited (s.cur.rs b), replies := [] } none 1)) rfl (fun _ _ => rfl)
  generalize u.lanes = L, u.lastSigs = G, u.meeting = M, u.presented = P, u.unsigned = V, u.relBuf = B at hu
  have hnext := advance_congr (u := s.cur) (v := u) (by rw [hu]; rfl) (by rw [hu]; rfl) (by rw [hu]; rfl) (by rw [hu]; rfl)
  have hregs : ∀ r, u.rs r = s.cur.rs r := rs_congr (by rw [hu]; rfl)
  let v : Unit := { u.advance with run := .exited (u.rs b), replies := [] }
  have hv : v = { u with
      pc := u.advance.pc, lcount := u.advance.lcount, lbody := u.advance.lbody, run := .exited (s.cur.rs b), replies := [] } := by
    rw [← hregs]
    exact congrArg (fun w : Unit => { w with run := .exited (u.rs b), replies := [] }) (advance_eq u)
  obtain ⟨t, ht, hrec, e⟩ := execute_eq { s.pass k with cur := u } 0 v (Nat.le_refl 1) (by rw [hv]) (by rw [hv]) (by rw [hv]; rfl)
  have hlinked : (s.pass k).cur.lostIn 0xFFFF = none := by
    rw [Unit.lostIn, show (s.pass k).cur.lost = [] from hlost]
    rfl
  refine ⟨t, (exec_exit b s).trans (he.trans ((if_neg ?quiet).trans ((linked_none hlinked _).trans (hmeet.trans (congrArg Host.Outcome.next ht))))), ?_⟩
  case quiet => rw [show (s.pass k).cur.quiet = s.cur.quiet from rfl, hq]; decide
  rw [hv] at e
  generalize u.advance.pc = pc, u.advance.lcount = count, u.advance.lbody = body at hnext e
  subst hu
  refine ⟨by rw [e], by rw [e], fun r => rs_congr (by rw [e]; rfl) r, ?_, hrec, ?_⟩
  · rw [State.NextWord, e]
    exact hnext
  · rw [e]
    exact ⟨rfl, show s.clock + k + 0 + s.cur.time = s.clock + (s.cur.time + k) by omega, fun _ _ => rfl⟩

end

/-- The task gives its quires up to none. -/
theorem yielding_none {s : State} (h : ∀ k, s.myTask = some k → k.checkpointArea = 0 ∨ s.yieldsTo k = false ∨ s.cur.tlevel ≠ 0) : s.yielding = none := by
  rw [State.yielding]
  split
  · rename_i k hk
    refine if_neg fun hyields => ?_
    obtain ⟨harea, hyield, hlevel⟩ := hyields
    obtain hs | hs | hs := h k hk
    · exact harea hs
    · exact absurd (hs.symm.trans hyield) Bool.false_ne_true
    · exact hs hlevel
  · rfl

section
variable {a : Reg} {s : State} (h : s.Executes (.yieldT a) [] []) (hc : s.AtCommit)
include h hc

theorem yield_waits (hd : s.drained = false) : s.WaitsOn (.yieldT a) := by
  refine waitsOn_of_stall ((exec_yieldT a s).trans ((issue_atCommit h hc _).trans (if_pos ?_)))
  rw [hd]
  rfl

/-- YIELD of a drained unit goes on at once where no task could take the quires. -/
theorem yield_ends (hd : s.drained = true) (hl : s.cur.live ≤ 1) (hy : s.yielding = none) : s.Ends (.yieldT a) fun t =>
    s.SetsReg t a 0 ∧ s.NextWord t ∧ s.Recorded t ∧
      s.OnlyScalars { t with cur := { t.cur with binderCount := s.cur.binderCount, busy := s.cur.busy } } := by
  have hagree : s.agree true (requestOf (.yieldT a) 0 0) = .perform s := by rw [State.agree, if_pos hl]
  let y : State := { s with cur := { s.cur with binderCount := s.cur.binderCount + 1 } }
  have hnote : s.noteRequest true (requestOf (.yieldT a) 0 0) 0 (.exact 1) 0 = y := noteRequest_binder hl hc ..
  obtain ⟨t, ht, hreg, hnext, hrec, e, hclock, hbytes⟩ := finishReg_spec y 0 a 0 (Nat.le_refl 1)
  have hadv := advance_congr (u := s.cur) (v := y.cur) rfl rfl rfl rfl
  refine ⟨t, (exec_yieldT a s).trans ((issue_atCommit h hc _).trans ((if_neg (by rw [hd]; decide)).trans ?_)), hreg,
    ⟨hnext.1.trans hadv.1, hnext.2.1.trans hadv.2.1, hnext.2.2.trans hadv.2.2⟩, hrec, ?_, hclock, hbytes⟩
  · rw [hagree]
    dsimp only
    rw [hy]
    dsimp only
    rw [hnote]
    exact ht
  · rw [e]

end

/-! ### SPAWN (19 R337) -/

/-- What the binder answers to a record: the task's id, or bit 63 and the reason. -/
def spawnAnswer : Except Nat (BitVec 32) → Word
  | .ok id => id.setWidth 64
  | .error r => BitVec.ofNat 64 (2 ^ 63 + r)

/-- The machine with a request that has met differs from the one before as `OnlyMet` says, its wait apart. -/
theorem State.Asks.onlyMet {s z : State} (h : s.Asks z) (hq : z.clasps = s.clasps) :
    s.OnlyMet { z with cur := { z.cur with wait := s.cur.wait, arrived := s.cur.arrived } } := by
  obtain ⟨clock, clasps, v, rfl, ⟨_, _, _, _, _, _, _, _, _, _, rfl⟩, htime⟩ := h
  dsimp only at hq
  subst hq
  exact ⟨rfl, htime, fun _ _ => rfl⟩

section
variable {a b : Reg} {s : State} (h : s.Executes (.spawn a b) [b] []) (hc : s.AtCommit)
include h hc

theorem spawn_align (hal : (s.cur.rs b).toNat % 256 ≠ 0) : s.Raises (.spawn a b) (seqTrap .align (s.cur.rs b)) := by
  obtain ⟨k, hk, he⟩ := issue_reading_atCommit h hc _
  exact ⟨k, hk, (exec_spawn a b s).trans (he.trans (if_pos hal))⟩

theorem spawn_fault (hal : (s.cur.rs b).toNat % 256 = 0) {t : Trap} (ht : s.translate s.cur.gid 1 .read false (s.cur.rs b) = .error t) :
    ∃ k, (s.cur.framed = true → k = 0) ∧ exec (.spawn a b) s = .next (((s.pass k).scrubWalk s.cur.gid (s.cur.rs b)).raise t) := by
  obtain ⟨k, hk, he⟩ := issue_reading_atCommit h hc _
  refine ⟨k, hk, (exec_spawn a b s).trans (he.trans ((if_neg (not_not.mpr hal)).trans ?_))⟩
  have htrans : (s.pass k).translate (s.pass k).cur.gid 1 .read false ((s.pass k).cur.rs b) = .error t := (translate_pass s k ..).trans ht
  rw [htrans]
  rfl

/-- SPAWN of a record that can be read asks the binder, which accepts it or not. -/
theorem spawn_ends (hal : (s.cur.rs b).toNat % 256 = 0) {p : Place} (hp : s.translate s.cur.gid 1 .read false (s.cur.rs b) = .ok p)
    (hclean : s.poisonedIn? p.addr 256 = none) (hboot : (s.dev (gidDev s.cur.gid)).boot = .done) (hi : s.cur.wait = none)
    (hb : s.cur.buffering = false) (hready : binderReady 0 (fun _ => []) s = true) : s.Ends (.spawn a b) fun t => ∃ (v : State) (rels : List Release),
      (s.scrubWalk s.cur.gid (s.cur.rs b)).OnlyMet { v with cur := { v.cur with wait := s.cur.wait, arrived := s.cur.arrived } } ∧
      s.SetsReg t a (spawnAnswer (v.accept (gidDev s.cur.gid) p.addr (s.cur.isCore || s.cur.secure) rels).2) ∧
      t.mem = (v.accept (gidDev s.cur.gid) p.addr (s.cur.isCore || s.cur.secure) rels).1.mem ∧
      t.devs = (v.accept (gidDev s.cur.gid) p.addr (s.cur.isCore || s.cur.secure) rels).1.devs ∧
      t.cur.busy = t.cur.time + 400 ∧ s.NextWord t ∧ s.Recorded t := by
  let r : State := s.scrubWalk s.cur.gid (s.cur.rs b)
  have hdec : s.Decodes r := scrubWalk_decoded s s.cur.gid (s.cur.rs b)
  have hcur : r.cur = s.cur := scrubWalk_cur s (s.cur.rs b)
  have hl : s.cur.live ≤ 1 := (buffering_false hb).1
  have hready' : binderReady 0 (fun _ => []) r = true := by
    obtain ⟨_, _, _, _, e⟩ := hdec.1
    rw [e]
    exact hready
  let record : List Byte := requestOf (.spawn a b) 0 (s.cur.rs b)
  let accepts : State → Dec := fun s =>
    match s.accept (gidDev s.cur.gid) p.addr (s.cur.isCore || s.cur.secure) (s.releasesNow 0 none) with
    | (t, .ok id) => .done t (id.setWidth 64) { typical := 400, bound := 1200 }
    | (t, .error e) => .done t (BitVec.ofNat 64 (2 ^ 63 + e)) { typical := 400, bound := 1200 }
  obtain ⟨k, -, he⟩ := issue_reading_atCommit h hc _
  obtain ⟨z, w, hmeet, hz, hq, hw, -⟩ := binderMeeting_alone (s := r) k (by rw [hcur]; exact hb) (by rw [hcur]; exact hi) (.spawn a b) record
    (ready := binderReady 0 fun _ => []) (binderRequest a record 0 accepts) fun z hz hw hq =>
      (binderReady_asks (by rw [hcur]; exact hl) hz hw hq 0 rfl).trans hready'
  let rels : List Release := z.releasesNow 0 none
  let y := z.accept (gidDev s.cur.gid) p.addr (s.cur.isCore || s.cur.secure) rels
  have hunit : s.cur.Asks z.cur := hcur ▸ hz.unit
  have hdone : accepts z = .done y.1 (spawnAnswer y.2) { typical := 400, bound := 1200 } := by
    obtain ⟨_, _, _, _, _, _, _, _, _, _, eu⟩ := hunit
    have hunits : z.cur.gid = s.cur.gid ∧ z.cur.isCore = s.cur.isCore ∧ z.cur.secure = s.cur.secure := by rw [eu]; exact ⟨rfl, rfl, rfl⟩
    obtain ⟨hgid, hcore, hsecure⟩ := hunits
    simp only [accepts, hgid, hcore, hsecure]
    rcases hy : z.accept (gidDev s.cur.gid) p.addr (s.cur.isCore || s.cur.secure) (z.releasesNow 0 none) with ⟨t, e | id⟩ <;>
      simp only [y, rels, hy, spawnAnswer]
  obtain ⟨t, ht, hreg, hnext, hrec, hbusy, e⟩ := binder_done (y := y.1) hc hl (by rw [accept_cur]; exact hunit) a record (spawnAnswer y.2)
    { typical := 400, bound := 1200 }
  have honly := hz.onlyMet hq
  rw [hcur] at honly
  have hanswer : binderRequest a record 0 accepts z = .next t.tick := by
    rw [binderRequest_alone (by rw [hz.live, hcur]; exact hl), hdone]
    exact ht
  refine ⟨t, (exec_spawn a b s).trans (he.trans ((if_neg (not_not.mpr hal)).trans ?_)), z, rels, honly, hreg, by rw [e], by rw [e],
    hbusy, hnext, hrec⟩
  have htrans : (s.pass k).translate (s.pass k).cur.gid 1 .read false ((s.pass k).cur.rs b) = .ok p := (translate_pass s k ..).trans hp
  have hwalk : (s.pass k).scrubWalk (s.pass k).cur.gid ((s.pass k).cur.rs b) = r.pass k := scrubWalk_pass s k _
  have hfound : (r.pass k).poisonedIn? p.addr 256 = none := (poisonedIn_decodes hdec ..).trans hclean
  have hbooted : (r.pass k).myDev.boot = .done := by
    have hgid : (r.pass k).cur.gid = s.cur.gid := (show (r.pass k).cur.gid = r.cur.gid from rfl).trans (congrArg Unit.gid hcur)
    rw [State.myDev, hgid]
    exact (congrArg Device.boot (hdec.2.1 (gidDev s.cur.gid)).1).trans hboot
  rw [htrans, hwalk]
  dsimp only
  rw [hfound]
  dsimp only
  rw [if_neg (by rw [hbooted]; decide)]
  exact hmeet.trans hanswer

end

/-! ### Waiting tasks (19 R335) -/

/-- No task waits for its predecessors. -/
def State.NoneWaits (s : State) : Prop := ∀ d ∈ s.devs, ∀ w ∈ d.tasks, w.state ≠ .waiting

theorem State.NoneWaits.dev {s : State} (h : s.NoneWaits) (n : Dev) : ∀ w ∈ (s.dev n).tasks, w.state ≠ .waiting := by
  rw [State.dev]
  cases hfind : s.devs.find? fun d => d.num == n with
  | none => exact fun _ hw => absurd hw List.not_mem_nil
  | some d => exact h d (List.mem_of_find?_eq_some hfind)

theorem State.NoneWaits.setDev {s : State} (h : s.NoneWaits) {d : Device} (hd : ∀ w ∈ d.tasks, w.state ≠ .waiting) : (s.setDev d).NoneWaits := by
  intro e he
  rw [State.setDev] at he
  rcases List.mem_append.mp he with he | he
  · exact h e (List.mem_filter.mp he).1
  · rcases List.mem_cons.mp he with rfl | he
    · exact hd
    · exact h e (List.mem_filter.mp he).1

theorem State.NoneWaits.decodes {s t : State} (h : s.NoneWaits) (hd : s.Decodes t) : t.NoneWaits := by
  intro d hmem
  obtain ⟨e, he, halike⟩ := hd.2.2.2.2.1 d hmem
  rw [show d.tasks = e.tasks by rw [halike.1]]
  rcases he with he | he
  · exact h e he
  · rw [he]
    exact fun _ hw => absurd hw List.not_mem_nil

theorem State.NoneWaits.setTask {s : State} (h : s.NoneWaits) {n : Dev} {t : Task} (ht : t.state ≠ .waiting) :
    (s.onDev n fun d => d.setTask t).NoneWaits := by
  refine h.setDev fun w hw => ?_
  obtain ⟨x, hx, rfl⟩ := List.mem_map.mp hw
  split
  · exact ht
  · exact h.dev n x hx

/-- Where no task waits, none becomes eligible. -/
theorem refreshEligible_none {s : State} (h : s.NoneWaits) : s.refreshEligible = s := by
  have hready : (s.devs.flatMap fun d => (d.tasks.filter fun t =>
      t.state == .waiting && fromLe (s.homeBytes (counterAddr t) 8) == 0).map fun t => (d.num, t)) = [] := by
    refine List.flatMap_eq_nil_iff.mpr fun d hd => ?_
    rw [List.map_eq_nil_iff, List.filter_eq_nil_iff]
    intro t ht
    simp [h d hd t ht]
  rw [State.refreshEligible]
  dsimp only
  rw [hready, List.foldl_nil]

/-! ### The decrement of a counter (19 R338) -/

theorem touch_tasks {d d' : Device} {key : Nat} {b : Bool} (h : d.touch key = some (d', b)) : d'.tasks = d.tasks := by
  rw [Device.touch] at h
  split at h
  · injection h with h; injection h with h1 h2; subst h1; rfl
  · dsimp only at h
    split at h
    · injection h with h; injection h with h1 h2; subst h1; rfl
    · split at h
      · cases h
      · split at h
        · injection h with h; injection h with h1 h2; subst h1; rfl
        · cases h

/-- The machine `u` once the counter at `a` has been decremented to `x`: the current unit may be woken. -/
structure State.Decremented (z u : State) (a : Nat) (x : Word) : Prop where
  unit  : z.cur.Asks u.cur
  tasks : ∀ m, (u.dev m).tasks = (z.dev m).tasks
  none  : z.NoneWaits → u.NoneWaits
  bytes : z.Stores u a 8 x

/-- A counter is decremented at once: it translates, its request is served now, its sector is sound, an entry can be had, and writes go out. -/
structure State.MayDecrement (z : State) (va : Word) (p : Place) : Prop where
  place  : Machine.claspPlace z .atomic va 8 = .ok p
  turn   : z.servedNow (granuleKey p.addr) p.addr = true
  clean  : ∀ n, n < 8 → z.erring (p.addr + n) = false ∧ z.poisoned (p.addr + n) = false
  entry  : (z.dev (addrDev p.addr)).touch (granuleKey p.addr) ≠ none
  out    : z.pend = []
  number : z.number p.addr 8 ≠ 0

theorem servedNow_decodes {s r : State} (h : s.Decodes r) (key a : Nat) : r.servedNow key a = s.servedNow key a := by
  have hreach := reachesNow_decodes h s.cur.gid a
  obtain ⟨⟨_, _, _, _, e⟩, -⟩ := h
  rw [State.servedNow, State.servedNow, queueAt_congr (s := s) (t := r) (by rw [e]) (by rw [e]) (by rw [e]) (by rw [e]),
    show r.cur.gid = s.cur.gid by rw [e], hreach]

theorem decrement_done {z : State} {va : Word} {p : Place} (h : z.MayDecrement va p) (cls : BitVec 4) :
    ∃ u lat, z.decrement cls false va = .done u (BitVec.ofNat 64 (z.number p.addr 8 - 1)) lat ∧
      z.Decremented u p.addr (BitVec.ofNat 64 (z.number p.addr 8 - 1)) := by
  have hal : va.toNat % 8 = 0 := by
    have hplace := h.place
    rw [claspPlace] at hplace
    by_contra hne
    rw [if_pos hne] at hplace
    cases hplace
  have hprompt : z.prompt = true := (Bool.and_eq_true_iff.mp (Bool.and_eq_true_iff.mp h.turn).1).1
  obtain ⟨herr, hpoison⟩ := h.clean 0 (by decide)
  let r : State := z.scrubWalk z.cur.gid va
  have hdec : z.Decodes r := scrubWalk_decoded z z.cur.gid va
  have hrcur : r.cur = z.cur := scrubWalk_cur z va
  have hsound : ∀ b, b < 8 → r.erring (p.addr + b) = false := fun b hb => erring_decodes hdec (h.clean b hb).1
  obtain ⟨hrpend, hrprompt⟩ : r.pend = [] ∧ r.prompt = true := by
    obtain ⟨_, _, _, _, e⟩ := hdec.1
    rw [e]
    exact ⟨h.out, hprompt⟩
  obtain ⟨⟨d, spilled⟩, htouch⟩ := Option.ne_none_iff_exists'.mp (touch_decodes hdec h.entry)
  obtain ⟨hnum, hbanks, -, -⟩ := touch_frame htouch
  have hdev : ∀ m, (r.setDev d).dev m = if m = addrDev p.addr then d else r.dev m := fun m => by rw [dev_setDev, hnum, dev_num]
  have hsame : ∀ m, ((r.setDev d).dev m).banks = (r.dev m).banks ∧ ((r.setDev d).dev m).tasks = (r.dev m).tasks := fun m => by
    rw [hdev]
    split
    · rename_i hm
      rw [hm]
      exact ⟨hbanks, touch_tasks htouch⟩
    · exact ⟨rfl, rfl⟩
  have hbytes : ∀ g k, (r.setDev d).plainByte g k = z.plainByte g k := fun g k =>
    (plainByte_congr (s := r) (t := r.setDev d) rfl rfl rfl (fun m => (hsame m).1) g k).trans (hdec.plainByte g k)
  have hnumber : fromLe ((r.setDev d).homeBytes p.addr 8) = z.number p.addr 8 := by
    rw [State.number, homeBytes_nil (s := r.setDev d) hrpend z.cur.gid, homeBytes_nil h.out z.cur.gid]
    simp only [hbytes]
  let x : Nat := z.number p.addr 8 - 1
  have hwrite := claspWrite_now (s := r.setDev d) hrprompt hrpend (r.setDev d).leadGid cls p.addr (leBytes 8 x) none true (Nat.le_of_eq (leBytes_length ..))
    (fun b hb => hsound b (by rwa [leBytes_length] at hb))
  refine ⟨(r.setDev d).written p.addr x, (z.walkLatency va).plus ((r.setDev d).claspLatency (r.setDev d).cur p.addr spilled),
    ?runs, ?unit, fun m => ?tasks, fun hn => ?none, ?bytes⟩
  case runs =>
    rw [State.decrement]
    dsimp only
    rw [if_pos hal, h.place]
    dsimp only
    rw [show (z.scrubWalk z.cur.gid va).servedNow _ _ = true from (servedNow_decodes hdec ..).trans h.turn,
      if_neg (by decide), show (z.scrubWalk z.cur.gid va).poisoned p.addr = false from (hdec.2.2.2.1 _).trans hpoison, if_neg Bool.false_ne_true,
      show (z.scrubWalk z.cur.gid va).scrub (p.addr / 128) = r from scrub_clean (hsound 0 (by decide)), htouch]
    dsimp only
    rw [hnumber, if_neg h.number, hwrite]
    rfl
  case unit =>
    obtain ⟨W, O, e⟩ := wake_eq ({ r.setDev d with mem := (r.setDev d).mem.write p.addr (leBytes 8 x) } : State) (granuleKey p.addr)
    rw [State.written, e]
    show z.cur.Asks { r.cur with wait := W }
    rw [hrcur]
    exact ⟨_, _, _, _, _, _, _, _, _, _, rfl⟩
  case tasks => exact (hsame m).2.trans ((congrArg Device.tasks (hdec.2.1 m).1).trans rfl)
  case none => exact (hn.decodes hdec).setDev (by rw [touch_tasks htouch]; exact (hn.decodes hdec).dev _)
  case bytes =>
    have hlt : x < 2 ^ 64 := Nat.lt_of_le_of_lt (Nat.sub_le ..) (number_lt z p.addr 8)
    refine fun g k => (stores_write (s := r.setDev d) (t := (r.setDev d).written p.addr x) (x := BitVec.ofNat 64 x) (n := 8) hrpend hrpend rfl ?_
      (unlisted_congr fun _ => rfl) hsound g k).trans (by rw [hbytes])
    rw [BitVec.toNat_ofNat, Nat.mod_eq_of_lt hlt]
    rfl

/-! ### DEPDEC (19 R338) -/

section
variable {z : State} {dev : Dev} {id : BitVec 32} {k : Task} (hk : (z.dev dev).task? id = some k)
include hk

/-- Successors that are decremented are passed over. -/
theorem decrementAll_skip {cls : BitVec 4} {here : Bool} {x : Word} {lat : Latency} :
    ∀ {l : List Nat}, (∀ i ∈ l, i ∈ k.decremented) → State.decrementAll dev id cls false here l x lat z = .done z x lat
  | [], _ => by rw [State.decrementAll]
  | i :: l, h => by
    rw [State.decrementAll, hk]
    dsimp only
    rw [if_pos (List.contains_iff_mem.mpr (h i List.mem_cons_self)), decrementAll_skip fun j hj => h j (List.mem_cons_of_mem i hj)]

end

/-- One successor of some that is not yet decremented is. -/
theorem decrementAll_one {z u : State} {dev : Dev} {id : BitVec 32} {k : Task} (hk : (z.dev dev).task? id = some k) {j : Nat} (hj : j ∉ k.decremented)
    {cls : BitVec 4} {y : Word} {lat' : Latency} (hdec : z.decrement cls false (k.counterVa j) = .done u y lat')
    (hu : (u.dev dev).tasks = (z.dev dev).tasks) {x : Word} {lat : Latency} :
    ∀ {l : List Nat}, j ∈ l → (∀ i ∈ l, i ≠ j → i ∈ k.decremented) → State.decrementAll dev id cls false false l x lat z =
      .done (u.onDev dev fun d => d.setTask { k with decremented := k.decremented ++ [j] }) y (lat.plus lat')
  | i :: l, hmem, h => by
    rw [State.decrementAll, hk]
    dsimp only
    by_cases hi : i = j
    · have hafter : ((u.onDev dev fun d => d.setTask { k with decremented := k.decremented ++ [j] }).dev dev).task? id =
          some { k with decremented := k.decremented ++ [j] } := by
        rw [dev_onDev_self u dev _ (dev_num u dev), ← task?_id hk]
        exact task?_setTask (t := { k with decremented := k.decremented ++ [j] }) (k := k) (by
          rw [Device.task?, hu, task?_id hk]
          exact hk)
      rw [hi, if_neg (by rw [List.contains_iff_mem]; exact hj), Bool.false_or, hdec]
      dsimp only
      refine decrementAll_skip hafter fun n hn => List.mem_append.mpr ?_
      by_cases hnj : n = j
      · exact .inr (List.mem_singleton.mpr hnj)
      · exact .inl (h n (List.mem_cons_of_mem i hn) hnj)
    · rw [if_pos (List.contains_iff_mem.mpr (h i List.mem_cons_self hi))]
      exact decrementAll_one hk hj hdec hu ((List.mem_cons.mp hmem).resolve_left (Ne.symm hi)) fun n hn => h n (List.mem_cons_of_mem i hn)

/-- A request that was served at once is served where the unit's own requests have left the clasp queues. -/
theorem servedNow_asks {s z : State} (h : s.Asks z) (hleft : ∀ e ∈ z.clasps, e ∈ s.clasps ∧ e.1 ≠ s.cur.gid) {key a : Nat}
    (ht : s.servedNow key a = true) : z.servedNow key a = true := by
  obtain ⟨hreach, hqueue⟩ := Bool.and_eq_true_iff.mp ht
  have hunit : ∀ g, g ≠ s.cur.gid → z.unitAt g = s.unitAt g := fun g hg => by
    rw [State.unitAt, State.unitAt, h.gid, if_neg hg.symm, if_neg hg.symm]
    obtain ⟨_, _, _, rfl, -⟩ := h
    rfl
  refine Bool.and_eq_true_iff.mpr ⟨?_, ?_⟩
  · rw [h.gid]
    obtain ⟨_, _, _, rfl, -⟩ := h
    exact hreach
  · rw [List.isEmpty_iff, State.queueAt, List.map_eq_nil_iff, List.filter_eq_nil_iff] at hqueue ⊢
    intro e he
    obtain ⟨hmem, hother⟩ := hleft e he
    rw [hunit e.1 hother]
    exact hqueue e hmem

theorem mayDecrement_asks {s z : State} (h : s.Asks z) (hleft : ∀ e ∈ z.clasps, e ∈ s.clasps ∧ e.1 ≠ s.cur.gid) {va : Word} {p : Place}
    (hm : s.MayDecrement va p) : z.MayDecrement va p where
  place := (h.claspPlace ..).trans hm.place
  turn := servedNow_asks h hleft hm.turn
  clean := by
    obtain ⟨_, _, _, rfl, -⟩ := h
    exact hm.clean
  entry := by
    obtain ⟨_, _, _, rfl, -⟩ := h
    exact hm.entry
  out := by
    obtain ⟨_, _, _, rfl, -⟩ := h
    exact hm.out
  number := by
    obtain ⟨_, _, _, rfl, -⟩ := h
    exact hm.number

section
variable {s : State} {k : Task} (hk : s.myTask = some k)
include hk

/-- The running task is the one its device lists under its id. -/
theorem myTask_task? : (s.dev s.cur.taskDev).task? k.id = some k := by
  obtain ⟨id, -, hid⟩ := Option.bind_eq_some_iff.mp hk
  rw [task?_id hid]
  exact hid

section
variable {i : Instr} {a : Reg} {oc : BitVec 4} {operand : Word} {pick : Task → List Nat} (hi : s.cur.wait = none) (hb : s.cur.buffering = false)
  (hready : binderReady oc (fun s => s.counterPlaces pick) s = true)
include hi hb hready

/-- DEPDEC of a unit without replicas: it meets, waits with the binder, and what it decrements it decrements at once. -/
theorem depdecOp_alone (q : Nat) : ∃ z record, s.Asks z ∧ (∀ e ∈ z.clasps, e ∈ s.clasps ∧ e.1 ≠ s.cur.gid) ∧ ∀ y x lat,
    State.decrementAll s.cur.taskDev k.id oc false false (pick k) 0xFFFFFFFFFFFFFFFF (.exact 0) z = .done y x lat →
      depdecOp i a oc operand pick (s.pass q) = finishRequest
        (y.refreshEligible.noteRequest true record x { typical := max 1 lat.typical, bound := max 1 lat.bound } 0).endWait a x
        { typical := max 1 lat.typical, bound := max 1 lat.bound } := by
  have hl : s.cur.live ≤ 1 := (buffering_false hb).1
  obtain ⟨z, w, hmeet, hz, hq, hw, hkey⟩ := binderMeeting_alone q hb hi i (requestOf i oc operand) (ready := binderReady oc fun s => s.counterPlaces pick)
    _ fun z hz hw hq => (binderReady_asks hl hz hw hq oc (hz.counterPlaces pick)).trans hready
  have hturn : z.myTurn = true := by
    rw [State.myTurn, hw]
    simp only [hkey, beq_self_eq_true, Bool.true_or]
  have hhere : (z.cur.wait.any fun w => w.key != binderKey) = false := by
    rw [hw]
    simp only [Option.any_some, hkey, bne_self_eq_false]
  have hasks : s.Asks z.leaveQueue := hz.withUnit (.refl z.cur) rfl _
  have hdev : z.leaveQueue.cur.taskDev = s.cur.taskDev := by
    obtain ⟨_, _, _, _, _, _, _, _, _, _, e⟩ := hasks.unit
    rw [e]
  refine ⟨z.leaveQueue, requestOf i oc operand, hasks, fun e he => ?left, fun y x lat hall => ?done⟩
  case left =>
    obtain ⟨hmem, hne⟩ := List.mem_filter.mp he
    exact ⟨hq ▸ hmem, hz.gid ▸ bne_iff_ne.mp hne⟩
  case done =>
    rw [depdecOp]
    refine hmeet.trans ?_
    dsimp only
    rw [hturn, Bool.not_true, if_neg Bool.false_ne_true, binderRequest_alone (z := z.leaveQueue) (by rw [hasks.live]; exact hl), hasks.myTask, hk]
    dsimp only
    rw [hhere, hdev, hall]

/-- All of the successors named have been decremented: nothing is, and s[A] is all ones. -/
theorem depdecOp_none (hc : s.AtCommit) (q : Nat) (hall : ∀ j ∈ pick k, j ∈ k.decremented) : ∃ t,
    depdecOp i a oc operand pick (s.pass q) = .next t.tick ∧ s.SetsReg t a (-1) ∧ s.NextWord t ∧ s.Recorded t := by
  obtain ⟨z, record, hz, -, hdone⟩ := depdecOp_alone (i := i) (a := a) (operand := operand) hk hi hb hready q
  have hkz : (z.dev s.cur.taskDev).task? k.id = some k := by
    rw [State.dev, hz.devs]
    exact myTask_task? hk
  obtain ⟨t, ht, hreg, hnext, hrec, -⟩ := binder_done (y := z.refreshEligible) hc (buffering_false hb).1 (by rw [refreshEligible_cur]; exact hz.unit) a record
    0xFFFFFFFFFFFFFFFF { typical := max 1 (Latency.exact 0).typical, bound := max 1 (Latency.exact 0).bound }
  exact ⟨t, (hdone z _ _ (decrementAll_skip hkz hall)).trans ht, hreg, hnext, hrec⟩

/-- One of the successors named has not: its counter is decremented, and what is left is in s[A]. -/
theorem depdecOp_one (hc : s.AtCommit) (q : Nat) {j : Nat} (hj : j ∈ pick k) (hnew : j ∉ k.decremented) (hrest : ∀ i ∈ pick k, i ≠ j → i ∈ k.decremented)
    {p : Place} (hm : s.MayDecrement (k.counterVa j) p) : ∃ t,
    depdecOp i a oc operand pick (s.pass q) = .next t.tick ∧ s.SetsReg t a (BitVec.ofNat 64 (s.number p.addr 8 - 1)) ∧ s.NextWord t ∧ s.Recorded t ∧
      (s.NoneWaits → s.Stores t p.addr 8 (BitVec.ofNat 64 (s.number p.addr 8 - 1)) ∧
        (t.dev s.cur.taskDev).task? k.id = some { k with decremented := k.decremented ++ [j] }) := by
  obtain ⟨z, record, hz, hleft, hdone⟩ := depdecOp_alone (i := i) (a := a) (operand := operand) hk hi hb hready q
  have hkz : (z.dev s.cur.taskDev).task? k.id = some k := by
    rw [State.dev, hz.devs]
    exact myTask_task? hk
  obtain ⟨u, lat, hdec, hu⟩ := decrement_done (mayDecrement_asks hz hleft hm) oc
  have hnumber : z.number p.addr 8 = s.number p.addr 8 := by
    obtain ⟨_, _, _, rfl, -⟩ := hz
    rfl
  have hbytes : ∀ g n, z.plainByte g n = s.plainByte g n := by
    obtain ⟨_, _, _, rfl, -⟩ := hz
    exact fun _ _ => rfl
  rw [hnumber] at hdec hu
  let k' : Task := { k with decremented := k.decremented ++ [j] }
  let y : State := u.onDev s.cur.taskDev fun d => d.setTask k'
  have hy : s.cur.Asks y.refreshEligible.cur := by
    rw [refreshEligible_cur]
    exact hz.unit.trans hu.unit
  obtain ⟨t, ht, hreg, hnext, hrec, -, e⟩ := binder_done hc (buffering_false hb).1 hy a record (BitVec.ofNat 64 (s.number p.addr 8 - 1))
    { typical := max 1 ((Latency.exact 0).plus lat).typical, bound := max 1 ((Latency.exact 0).plus lat).bound }
  refine ⟨t, (hdone _ _ _ (decrementAll_one hkz hnew hdec (hu.tasks _) hj hrest)).trans ht, hreg, hnext, hrec, fun hnone => ?_⟩
  have hnone' : u.NoneWaits := hu.none (by rw [State.NoneWaits, hz.devs]; exact hnone)
  have hstate : k.state ≠ .waiting := hnone.dev s.cur.taskDev k (List.mem_of_find?_eq_some (myTask_task? hk))
  rw [refreshEligible_none (s := y) (hnone'.setTask hstate)] at e
  have hdevs : ∀ m, t.dev m = y.dev m := fun m => by rw [e]; rfl
  have hydev : ∀ m, y.dev m = if m = s.cur.taskDev then (u.dev s.cur.taskDev).setTask k' else u.dev m := dev_onDev u _ _ (dev_num ..)
  refine ⟨fun g n => ?bytes, ?task⟩
  case bytes =>
    rw [← hbytes g n, ← hu.bytes g n]
    refine plainByte_congr (s := u) (by rw [e]; rfl) (by rw [e]; rfl) (by rw [e]; rfl) (fun m => ?_) g n
    rw [hdevs, hydev]
    split
    · rename_i hm
      rw [hm]
      rfl
    · rfl
  case task =>
    rw [hdevs, hydev, if_pos rfl]
    exact task?_setTask (t := k') (k := k) (by rw [Device.task?, hu.tasks]; exact hkz)

end
end

section
variable {a b : Reg} {oc : BitVec 4} {s : State} (hc : s.AtCommit)
include hc

theorem depdec_outside {k : Task} (hk : s.myTask = some k) (h : s.Executes (.depdec oc a b) [b] []) (hx : k.successors ≤ (s.cur.rs b).toNat) :
    s.Raises (.depdec oc a b) (seqTrap .illfld (s.cur.rs b)) := by
  obtain ⟨q, hq, he⟩ := issue_vetting_atCommit h hc _ _
  refine ⟨q, hq, (exec_depdec oc a b s).trans (he.trans ?_)⟩
  have hx' : k.successors ≤ ((s.pass q).cur.rs b).toNat := hx
  simp only [show (s.pass q).myTask = some k from hk, hx', decide_true, Bool.and_self, if_true]
  rfl

theorem exec_depdec_op {k : Task} (hk : s.myTask = some k) (h : s.Executes (.depdec oc a b) [b] []) (hx : (s.cur.rs b).toNat < k.successors) :
    ∃ q, exec (.depdec oc a b) s = depdecOp (.depdec oc a b) a oc (s.cur.rs b) (fun _ => [(s.cur.rs b).toNat]) (s.pass q) := by
  obtain ⟨q, -, he⟩ := issue_vetting_atCommit h hc _ _
  refine ⟨q, (exec_depdec oc a b s).trans (he.trans ?_)⟩
  have hx' : ¬ k.successors ≤ ((s.pass q).cur.rs b).toNat := Nat.not_le.mpr hx
  simp only [show (s.pass q).myTask = some k from hk, hx', decide_false, Bool.and_false, Bool.false_eq_true, if_false]
  rfl

theorem exec_depdecAll_op (h : s.Executes (.depdecAll oc a) [] []) :
    exec (.depdecAll oc a) s = depdecOp (.depdecAll oc a) a oc 0 (fun t => List.range t.successors) (s.pass 0) :=
  (exec_depdecAll oc a s).trans (issue_atCommit h hc _)

end

end Sys2Proof.Machine

namespace Sys2Proof.Proofs
open Sys2Proof Sys2Proof.Machine

/-- Settles O48: what each of the five asks the binder for is done at once where the unit has no replicas. -/
theorem tasks : Obligations.Tasks := by
  intro a b oc s u x here open_ keeps id ended idle quiet counts hc hi
  refine ⟨fun h => ⟨fun hal => spawn_align h hc hal, fun hal => ⟨fun t ht => spawn_fault h hc hal ht, fun p hp hclean hboot ho hready => ?spawn⟩⟩,
    fun k hk ho => ?depdec, fun h => ⟨fun hq => exit_waits h hc hq, fun hq hlost ho => exit_ends h hc hq hlost (buffering_of_open ho.1 ho.2)⟩,
    fun h => ⟨fun hd => yield_waits h hc hd, fun hd hl hy => yield_ends h hc hd hl (yielding_none hy)⟩,
    fun h => ⟨fun hw => killVet_wide h hc hw, fun hw hcore hlevel => killVet_user h hc hw hcore hlevel, fun hw hp hl => ?kill⟩⟩
  case spawn =>
    have hb := buffering_of_open ho.1 ho.2
    obtain ⟨t, ht, v, rels, hmet, hreg, hmem, hdevs, hbusy, hnext, hrec⟩ := spawn_ends h hc hal hp hclean hboot hi hb hready
    exact ⟨t, ht, v, rels, hmet, hreg, hmem, hdevs, hbusy, hnext, hrec⟩
  case depdec =>
    have hb := buffering_of_open ho.1 ho.2
    have hmay : ∀ {j p}, claspPlace s .atomic (k.successor j + 96) 8 = .ok p → s.servedNow (granuleKey p.addr) p.addr = true →
        (∀ n, n < 8 → s.erring (p.addr + n) = false ∧ s.poisoned (p.addr + n) = false) →
        (s.dev (addrDev p.addr)).touch (granuleKey p.addr) ≠ none → s.number p.addr 8 ≠ 0 → s.MayStore oc p.addr → s.MayDecrement (k.counterVa j) p :=
      fun hp hturn hclean hentry hnumber hout => ⟨hp, hturn, hclean, hentry, hout.none, hnumber⟩
    refine ⟨fun h => ⟨fun hx => depdec_outside hc hk h hx, fun hx hready => ⟨fun hold => ?old, fun hnew p hp hturn hclean hentry hnumber hout => ?new⟩⟩,
      fun h hready => ⟨fun hold => ?allOld, fun j hj hnew hrest p hp hturn hclean hentry hnumber hout => ?allNew⟩⟩
    case old =>
      obtain ⟨q, he⟩ := exec_depdec_op hc hk h hx
      rw [State.Ends, he]
      exact depdecOp_none hk hi hb hready hc q fun i hi => List.mem_singleton.mp hi ▸ hold
    case new =>
      obtain ⟨q, he⟩ := exec_depdec_op hc hk h hx
      rw [State.Ends, he]
      exact depdecOp_one hk hi hb hready hc q (List.mem_singleton.mpr rfl) hnew (fun i hi hne => absurd (List.mem_singleton.mp hi) hne)
        (hmay hp hturn hclean hentry hnumber hout)
    case allOld =>
      rw [State.Ends, exec_depdecAll_op hc h]
      exact depdecOp_none hk hi hb hready hc 0 fun i hi => hold i (List.mem_range.mp hi)
    case allNew =>
      rw [State.Ends, exec_depdecAll_op hc h]
      exact depdecOp_one hk hi hb hready hc 0 (List.mem_range.mpr hj) hnew (fun i hi hne => hrest i (List.mem_range.mp hi) hne)
        (hmay hp hturn hclean hentry hnumber hout)
  case kill =>
    obtain ⟨q, hq, he⟩ := exec_kill_vetted h hc hw hp
    intro answers same binder
    have hbinder : s.dev (s.cur.killDev id) = binder := by rw [killDev_eq]
    refine ⟨fun hnone => ?unknown, fun k hk => ⟨fun hs hu hcore => ?secure, fun hs => ⟨fun hended => ?finished, fun hlive hother hunits hid hheld => ?live⟩⟩⟩
    case unknown =>
      rw [State.Ends, he, killing_unknown (s := s.pass q) (by exact hbinder ▸ hnone)]
      exact request_answered hc hl q a _ 1 _
    case secure => exact ⟨q, hq, he.trans (killing_secure (s := s.pass q) (by exact hbinder ▸ hk) hs hu hcore)⟩
    case finished =>
      rw [State.Ends, he, killing_ended (s := s.pass q) (by exact hbinder ▸ hk) hs hended]
      exact request_answered hc hl q a _ 1 _
    case live =>
      have hdev : s.cur.killDev id = gidDev s.cur.gid := by rw [killDev_eq, if_neg hother]
      rw [State.Ends, he, killing_live (s := s.pass q) (by exact hbinder ▸ hk) hs hlive hother]
      exact request_kills hc hl q a _ 0 _ (hdev ▸ hbinder ▸ hk) hunits hheld _ _ _

end Sys2Proof.Proofs
end
